-- ==== Sys2Proof/Word.lean ====
section
/-!
DEFINITION. The plain data types that every other file of the model uses: bytes, time words, sparse
maps and the values of object-dictionary entries.
-/
namespace Sys2Proof

/-- One byte. -/
abbrev Byte := BitVec 8

/-- A string of bytes, first byte first. -/
abbrev Bytes := List Byte

/-- TIME96 (R9): a 64-bit nanosecond count above a 32-bit binary fraction. -/
abbrev Time96 := BitVec 96

/-- TIME48 (R9): a nanosecond compare value. -/
abbrev Time48 := BitVec 48

/-- The running increment of a time domain (R9): 8.32 fixed-point nanoseconds a tick. -/
abbrev Increment := BitVec 40

/-- A sparse map in canonical form: keys strictly rising. -/
abbrev AMap (α : Type) := List (Nat × α)

/-- The value of an object-dictionary entry (R35): a number in the entry's width (two's complement for
the signed types), or a string of bytes for OCTETS and TEXT. -/
inductive Val where
  | num (n : Nat)
  | oct (b : Bytes)
deriving DecidableEq, Repr, Inhabited

/-- The number of a value, 0 for a byte string. -/
def Val.n : Val → Nat
  | .num n => n
  | .oct _ => 0

/-- The bytes of a value, none for a number. -/
def Val.b : Val → Bytes
  | .num _ => []
  | .oct b => b

/-- A table row's field entries, from subindex 0x02 upward (R42). -/
abbrev Row := List Val

/-- The port over which an access reaches the object dictionary engine (R40, R53). -/
inductive Path where
  | mailbox (f : Nat)     -- PCIe mailbox of PFf
  | bar2 (f : Nat)        -- BAR2 window of PFf
  | mgt (m : Nat)         -- MGT0, MGT1
  | line (p : Nat)        -- line port Pp
  | ring                  -- Herd Ring mailbox
deriving DecidableEq, Repr, Inhabited

/-- An accepted request's origin: the path and KEY_ID (0 for local trust, R53). -/
structure Requester where
  path : Path
  key  : Nat
deriving DecidableEq, Repr, Inhabited

/-- The device states of R67. -/
inductive Mode where
  | off | reset | load | check | hold | armed | run | safe
deriving DecidableEq, Repr, Inhabited

end Sys2Proof
end

