-- ==== Sys2Proof/Syntax.lean ====
section
/-!
DEFINITION. The commands the block takes: one constructor for each row of spec/opcode_table.json, in the table's
order. The table gives no bits; the operands are what the row's rule names as coming from outside the device.
-/
namespace Sys2Proof

/-- What the receive path found wrong with a frame or fragment before its length is judged (R110, R126). -/
inductive RxErr where
  | good | symbol | fec | fcs
deriving DecidableEq, Repr, Inhabited

/-- The start delimiter of a received mPacket (R114): an ordinary frame, a first fragment of preemptable frame n,
a continuation of frame n with fragment number k, or any other delimiter. `last` marks a fragment that ends in the
frame's FCS. -/
inductive Smd where
  | express
  | first (n : Nat) (last : Bool)
  | more (n k : Nat) (last : Bool)
  | unknown
deriving DecidableEq, Repr, Inhabited

/-- What a read of a stored frame's cells finds (R204 to R206): words corrected, words uncorrectable, and bytes that
read otherwise than written (position, exclusive-or mask). -/
structure ReadBack where
  corrected : Nat := 0
  bad : Nat := 0
  flips : List (Nat × Byte) := []
deriving DecidableEq, Repr, Inhabited

/-- How a memory or bus read ends (R376, R404). -/
inductive ReadEnd where
  | data (b : Bytes)
  | poisoned
  | ecrc
  | unsupported
  | eccError
deriving DecidableEq, Repr, Inhabited

/-- A host configuration write's target (R365, R368, R369, R375 to R377). `aerClear` and `deviceStatusClear` carry the bits
written 1; `bar` the 64-bit value of base address registers 2k and 2k + 1. -/
inductive CfgField where
  | busMaster (v : Bool)
  | memorySpace (v : Bool)
  | msix (enable mask : Bool)
  | pmeEnable (v : Bool)
  | pmeStatusClear
  | tags (extended ten : Bool)
  | payload (mps mrrs : Nat)
  | bar (k v : Nat)
  | aspm (l1 : Bool)
  | completionTimeout (range : Nat) (off : Bool)
  | errorReporting (enable : Nat)
  | deviceStatusClear (mask : Nat)
  | aerClear (unc cor : Nat)
  | aerMasks (unc sev cor : Nat)
  | ecrc (generate check : Bool)
deriving DecidableEq, Repr, Inhabited

/-- The JTAG instructions of R525 and R526 by their code. -/
abbrev TapCode := Nat

/-- A scan of the data register that an instruction has selected (IEEE 1149.1, R524, R525): bit n of `levels` is the level that
cell n of the boundary register finds outside the device, `tdi` the bits shifted in, the first one first. -/
structure TapScan where
  levels : Nat
  tdi : List Bool
deriving DecidableEq, Repr, Inhabited

/-- An MRAM word that fails its check bits as it is read (R495): its address, and whether it is corrected. -/
structure MramWord where
  addr : Nat
  corrected : Bool
deriving DecidableEq, Repr, Inhabited

/-- A command. An operand with a default holds what its event brings where nothing more is said of it: supplies at their nominal
voltages (R510), a rail at 0 V for the least time that counts, no corrected or bad codeword, no bad MRAM word, a read, 32 bits, no
scan. -/
inductive Instr where
  -- power and states
  | supplyInRange (levels : List Nat := [7500, 8500, 8000, 12000, 8000, 6000, 12000, 18000])
  | supplyOutOfRange (rail : Nat := 0) (level : Nat := 0) (ns : Nat := 1000)
  | resetRelease (straps : Nat) (pll : Nat) (words : List MramWord := [])
  | memoryTrainingDone (density ranks : Nat) (failed : Option Nat)
  | loadComplete
  | checkComplete
  | start (req : Requester)
  | stop (req : Requester)
  | reload (req : Requester)
  | resetCommand (req : Requester)
  | resetDelayExpiry
  | safeCommand (req : Requester)
  | startTaken
  | safeEntryOnFault
  -- object dictionary and NAP
  | napRead
  | napWrite
  | napAbortTransfer
  | segmentTimeout (req : Requester) (trans : Nat)
  | bar2Read (f off width : Nat)
  | bar2Write (f off width value : Nat)
  | failCountClear (f : Nat)
  | entryWrite (req : Requester) (idx sub : Nat) (v : Val)
  | selectionWrite (req : Requester) (idx sub : Nat) (v : Val)
  | read (req : Requester) (idx : Nat)
  | write (req : Requester) (idx : Nat)
  | delete (req : Requester) (idx : Nat)
  | next (req : Requester) (idx : Nat)
  | keyWrite (req : Requester) (key : Nat) (b : Bytes)
  | imageUpload (req : Requester) (bank : Nat) (b : Bytes)
  | imageRead (req : Requester) (bank : Nat)
  -- commit and epochs
  | commit (req : Requester)
  | discard (req : Requester)
  | cancel (req : Requester)
  | commitStepDone (readBackOk : Bool)
  | cutover
  | bankSeal
  | epochRetire
  | retireLimitExpiry
  -- ports
  | linkUp (p : Nat)
  | linkDown (p : Nat) (cause : Nat)
  | linkUpHoldExpiry (p : Nat)
  | linkDownHoldExpiry (p : Nat)
  | anResolution (p : Nat) (ability : Nat)
  | anFailure (p : Nat) (ability : Nat)
  -- frames
  | frameReceived (p : Nat) (smd : Smd) (b : Bytes) (err : RxErr) (quarter : Nat) (corrected : Nat := 0) (bad : Nat := 0)
  | ingressDecision (id : Nat)
  | receivedAndChecked (id : Nat)
  | learnApply
  | ageingSweep
  | flushPort (req : Requester) (p : Nat)
  | unblockFilter (req : Requester) (k : Nat)
  | resetGate (req : Requester) (k : Nat)
  | pauseReceived (p : Nat) (quanta : Nat)
  | pauseExpiry (p : Nat)
  | frameSelected (p : Nat) (hdr : ReadBack)
  | frameTransmitted (p : Nat) (body : ReadBack)
  | verifyFrameReceived (p : Nat)
  | respondFrameReceived (p : Nat)
  | verifyTimeExpiry (p : Nat)
  | averageDepthUpdate
  | parityFence (i j : Nat)
  | fenceUnlink (i j : Nat)
  | fenceRebuild (i j : Nat)
  -- FRER
  | resetRecovery (req : Requester) (k : Nat)
  | resetGeneration (req : Requester) (k : Nat)
  | recoveryResetTimer (k : Nat)
  | memberResetTimer (k m : Nat)
  | latentTest (k : Nat)
  | latentReset (k : Nat)
  -- time
  | incrementHiWrite (f d v : Nat)
  | adjTicksWrite (f d v : Nat)
  | adjWindowEnd (d : Nat)
  | go (f d v : Nat)
  | stepApply (d : Nat)
  | arm (req : Option Requester) (f d v : Nat)
  | offsetReport (f d v : Nat)
  | timeFracRead (f d : Nat)
  | ppsEdge (input : Nat) (rising : Bool) (quarter : Nat)
  | measureTimeout (d : Nat)
  | ppsOutPulse (k : Nat)
  | ppsOutWidthEnd (k : Nat)
  -- Tine FIFOs
  | tineRecordRead (f fifo : Nat)
  | tineDrainTimer (fifo : Nat)
  | flush (f fifo : Nat)
  -- gates
  | gateEntryTransition (p : Nat)
  | pageArrived (p : Nat) (page : Nat) (ok : Bool)
  | holdIssue (p : Nat)
  | gateConfigChange (p : Nat)
  -- triggers and event inputs
  | triggerStart (n : Nat)
  | outArm (f mask : Nat)
  | intArm (f : Nat) (hi : Bool) (mask : Nat)
  | triggerInstant (n : Nat)
  | triggerPulseEnd (n : Nat)
  | intTrig (k : Nat)
  | evInChange (i : Nat) (level : Bool) (quarter : Nat)
  | evCapture (i : Nat)
  | capStatusRead (f i : Nat)
  -- Herd Ring
  | herdCycle
  | assemblyInstant
  | summationFrameRx (port : Nat) (b : Bytes) (fcsOk : Bool) (quarter : Nat)
  | nullFrameRx (port : Nat) (b : Bytes) (fcsOk : Bool) (quarter : Nat := 0)
  | rutBidRx (port : Nat) (b : Bytes) (fcsOk : Bool)
  | otherRingFrameRx (port : Nat) (b : Bytes) (fcsOk : Bool)
  | mailboxRetryExpiry (sender : Nat)
  | ringPortLinkLost (port : Nat)
  | herdCp (k : Nat)
  -- PCI Express
  | perstNAssert
  | perstNRelease
  | hotReset
  | functionLevelReset (f : Nat)
  | powerStateChange (f : Nat) (d3 : Bool)
  | msixMessage (f v : Nat)
  | pmPme (f : Nat)
  | completionTimeout (tag : Nat)
  | send (f length : Nat)
  | ack (f : Nat)
  | bar0BadAccess (f : Nat) (off : Nat) (width : Nat) (write : Bool := false)
  | registerWrite (f : Nat) (off : Nat) (v : Nat) (width : Nat := 4)
  -- DMA
  | run (f c : Nat)
  | pause (f c : Nat) (v : Bool)
  | abort (f c : Nat)
  | channelReset (f c : Nat)
  | doorbell (f c : Nat)
  | pollIntervalExpiry (c : Nat)
  | descriptorFetched (c : Nat) (r : ReadEnd)
  | burstGrant
  | burstReadDone (tag : Nat) (r : ReadEnd)
  | writeAcknowledged (c : Nat)
  | descriptorComplete (c : Nat)
  | hostTxFrame (c : Nat)
  | dmaTimeout (c : Nat)
  | lateCompletion (tag : Nat)
  | requestPulse (l : Nat)
  | requestExpired (l : Nat)
  -- interrupts
  | eventPulse (l : Nat)
  | claim (f t : Nat)
  | eoi (f t v : Nat)
  | softSet (f v : Nat)
  | countRead (f src : Nat)
  | sleep (f t : Nat)
  | holdoffExpiry (g : Nat)
  -- feeds and pairing
  | feedLineChange (line : Nat) (level : Bool)
  | restoreHoldExpiry
  | pairLaneChange (lane : Nat) (up : Bool)
  | heartbeatTx
  | heartbeatRx (lane : Nat) (b : Bytes)
  | pairLinkFrameError (lane : Nat)
  | heartbeatTimeout
  | takeover
  | handover (req : Requester)
  | announcement
  | copyInstant
  | copyDeadline
  | copyDataRx (lane : Nat) (b : Bytes)
  | copyEndRx (lane : Nat) (b : Bytes)
  | copyMissing
  | digestClose
  -- faults and health
  | clearStatus (req : Requester) (b i : Nat)
  | clearHistory (req : Requester) (b i : Nat)
  | clearBoth (req : Requester) (b i : Nat)
  | histHiRead (f b i : Nat)
  | faultLostRead (f b i : Nat)
  | faultRegisterScrub (bad : Option Nat)
  | aliveHalfPeriod (core time mem : Nat)
  | thermalSample (readings : List Int)
  | supplyDroop (rail : Nat) (level : Nat := 0) (ns : Nat := 20)
  | marginReport (lane mv : Nat)
  | ageingUpdate (minute : Bool) (volts freq current : List Nat)
  | healthCheckpoint
  -- memory and clocks
  | zqCalibration
  | dqsOscillatorRead (c : Nat) (drift : Bool)
  | mr4Read (c v : Nat)
  | patrolScrub (addr : Nat) (corrected uncorrectable : Bool)
  | refclkLoss
  | pllUnlock (k : Nat)
  | synceSquelch (k : Nat)
  | tapReset
  | tapInstruction (code : TapCode) (scan : Option TapScan := none)
  -- added rows at the end of the table
  | tineLostRead (f fifo : Nat)
  | copyEndMarkerSent
  | flushComplete
  | pcieLinkUp (width speed : Nat)
  | pcieConfigReady
  | configurationWrite (f : Nat) (c : CfgField)
  | lpiReceived (p : Nat)
  | rateChangeDue (d : Nat)
deriving DecidableEq, Repr, Inhabited

end Sys2Proof
end

