-- ==== Sys2Proof/Config.lean ====
section
/-!
DEFINITION. What the spec leaves open, as constants without a body: nothing in Lean can evaluate them or prove a
value of them, so every statement holds whatever they are.
-/
namespace Sys2Proof.Config

/-- A fresh value nobody has fixed, by the state's counter of free values (DESIGN CHOICE, log entry 5). -/
opaque freeValue : Nat → BitVec 64

/-- The thermal sensor nearest an Antler monitor (R473): the spec places neither (DESIGN CHOICE, log entry 10). -/
opaque monitorSensor : Nat → Nat

/-- The thermal sensor of a rail's temperature (R473; DESIGN CHOICE, log entry 10). -/
opaque railSensor : Nat → Nat

/-- A correctionField whose exact sum falls outside its 64 bits under R267 or R268, which state no result there (log
entry 12), by the exact sum. -/
opaque correctionBeyond : Int → BitVec 64

/-- af of R473 in thousandths, from the monitor, the sensor reading (0.125 degC) and the supply in millivolts: the spec
gives no numeric precision (DESIGN CHOICE, log entry 10). -/
opaque ageingFactor : Nat → Int → Nat → Nat

/-- w of R473 in thousandths for a rail, from the rail, the reading and the current in milliamperes (DESIGN CHOICE, log entry 10). -/
opaque wearFactor : Nat → Int → Nat → Nat

/-- REMAINING of a monitor or a rail for which R473 gives no quotient, by its number (DESIGN CHOICE, log entry 10). -/
opaque noRemaining : Nat → BitVec 32

/-- ORDERING_MASK bits, beside the device's own, of an image that the device builds (R30): the spec names none
(DESIGN CHOICE, log entry 25). -/
opaque builtMask : BitVec 3

/-- The Hsiao SECDED check byte of R491 over the 8 bytes of a data word and bits [34:3] of its address: the spec does not give
the code's matrix (DESIGN CHOICE, log entry 86). -/
opaque secded : Bytes → BitVec 32 → Byte

/-- MIN_SILICON_REVISION of an image that the device builds, taken modulo the device's revision plus one (DESIGN CHOICE, log entry 25). -/
opaque builtRevision : Nat

end Sys2Proof.Config
end

