-- ==== Sys2Proof/Machine/Bits.lean ====
section
/-!
DEFINITION. Bit fields, byte orders (R8, R9), sign conversion, CRC-32C and the ones'-complement sum (R7),
the TIME48 compare (R252).
-/
namespace Sys2Proof.Machine

/-- FIELD[lo+w-1:lo] of a word (R8). -/
def field (n lo w : Nat) : Nat := (n / 2 ^ lo) % 2 ^ w

/-- The word with FIELD[lo+w-1:lo] replaced. -/
def setField (n lo w v : Nat) : Nat :=
  n - field n lo w * 2 ^ lo + (v % 2 ^ w) * 2 ^ lo

/-- FIELD[i] of a word. -/
def bit (n i : Nat) : Bool := n / 2 ^ i % 2 == 1

/-- 1 or 0. -/
def b2n (b : Bool) : Nat := if b then 1 else 0

/-- The big-endian value of a byte string (R9). -/
def beNat (b : Bytes) : Nat := b.foldl (fun acc x => acc * 256 + x.toNat) 0

/-- The little-endian value of a byte string (R9). -/
def leNat : Bytes → Nat
  | [] => 0
  | x :: xs => x.toNat + 256 * leNat xs

/-- The low `n` bytes of a number, least significant first. -/
def leBytes : Nat → Nat → Bytes
  | 0, _ => []
  | n + 1, v => BitVec.ofNat 8 v :: leBytes n (v / 256)

/-- The low `n` bytes of a number, most significant first. -/
def beBytes (n v : Nat) : Bytes := (leBytes n v).reverse

/-- Bytes `off` to `off + len - 1`. -/
def slice (b : Bytes) (off len : Nat) : Bytes := (b.drop off).take len

/-- The big-endian number in bytes `off` to `off + len - 1`. -/
def beAt (b : Bytes) (off len : Nat) : Nat := beNat (slice b off len)

/-- A byte string cut or zero-padded to a length. -/
def padTo (n : Nat) (b : Bytes) : Bytes := b.take n ++ List.replicate (n - b.length) 0

/-- Zero bytes. -/
def zeros (n : Nat) : Bytes := List.replicate n 0

/-- Bytes from `off` replaced by `v`. -/
def putBytes (b : Bytes) (off : Nat) (v : Bytes) : Bytes :=
  b.take off ++ v ++ b.drop (off + v.length)

/-- The signed reading of a `w`-bit number. -/
def toSigned (w n : Nat) : Int := if bit n (w - 1) then (n % 2 ^ w : Nat) - (2 ^ w : Int) else (n % 2 ^ w : Nat)

/-- The `w`-bit two's complement of an integer. -/
def ofSigned (w : Nat) (i : Int) : Nat := (i % (2 ^ w : Int)).toNat

/-- An integer clamped into a range. -/
def clampInt (i lo hi : Int) : Int := if i < lo then lo else if hi < i then hi else i

/-- Division rounded to the nearest integer, halves up. -/
def roundDiv (a : Int) (b : Nat) : Int := (2 * a + b) / (2 * b : Int)

/-- Shift steps of a reflected CRC with a reversed polynomial. -/
def crcBits (poly : BitVec 32) : Nat → BitVec 32 → BitVec 32
  | 0, c => c
  | n + 1, c => crcBits poly n (if c.getLsbD 0 then (c >>> 1) ^^^ poly else c >>> 1)

/-- A CRC register after a byte string. -/
def crcFrom (poly c : BitVec 32) (b : Bytes) : BitVec 32 :=
  b.foldl (fun c x => crcBits poly 8 (c ^^^ x.zeroExtend 32)) c

/-- The CRC-32C register after a byte string (R7): the Castagnoli polynomial 0x1EDC_6F41, reflected. -/
def crcUpdate (c : BitVec 32) (b : Bytes) : BitVec 32 := crcFrom 0x82F63B78#32 c b

/-- CRC-32C (R7): initial value 0xFFFF_FFFF, final inversion. -/
def crc32c (b : Bytes) : Nat := (~~~ crcUpdate 0xFFFFFFFF#32 b).toNat

/-- The FCS of an IEEE 802.3 frame as a number whose bytes go out least significant first (PRESUMED, log entry 63). -/
def fcs (b : Bytes) : Nat := (~~~ crcFrom 0xEDB88320#32 0xFFFFFFFF#32 b).toNat

/-- The end-around-carry sum of big-endian 16-bit words, an odd last byte padded with zero. -/
def sum16 : Bytes → Nat
  | [] => 0
  | [a] => a.toNat * 256
  | a :: b :: r => a.toNat * 256 + b.toNat + sum16 r

/-- Folds carries back into 16 bits. -/
def fold16 : Nat → Nat → Nat
  | 0, n => n % 65536
  | k + 1, n => if n < 65536 then n else fold16 k (n % 65536 + n / 65536)

/-- The 16-bit ones'-complement sum of RFC 1071 (R7). -/
def onesSum (b : Bytes) : Nat := fold16 8 (sum16 b)

/-- signed48 of R252. -/
def signed48 (x : Int) : Int := (x + 2 ^ 47) % 2 ^ 48 - 2 ^ 47

/-- The numbers below `n`. -/
def upTo (n : Nat) : List Nat := List.range n

/-- The positions of the set bits among the first `n` of a port-set byte string: bit p is bit (p mod 8) of
byte (p div 8) (R65, R133). -/
def bitSet (b : Bytes) (p : Nat) : Bool := (b.getD (p / 8) 0).getLsbD (p % 8)

/-- The members of a byte-string bit set below `n`. -/
def bitMembers (b : Bytes) (n : Nat) : List Nat := (upTo n).filter (bitSet b)

/-- A byte string of `len` bytes with the bits of a list set. -/
def bitsOf (len : Nat) (l : List Nat) : Bytes :=
  (upTo len).map fun k => BitVec.ofNat 8 (((upTo 8).map fun i => if l.contains (8 * k + i) then 2 ^ i else 0).sum)

end Sys2Proof.Machine
end

