-- ==== Sys2Proof/Machine/Maps.lean ====
section
/-!
DEFINITION. Operations over sparse maps. Every map of the state keeps its keys strictly rising; `put` also
keeps entries equal to the stated default out of the list, so that equal contents are equal data.
-/
namespace Sys2Proof.Machine

/-- The entry of a key. -/
def AMap.find {α : Type} (m : AMap α) (k : Nat) : Option α :=
  match m with
  | [] => none
  | (j, a) :: r => if j = k then some a else AMap.find r k

/-- The entry of a key, or a default. -/
def AMap.get {α : Type} (d : α) (m : AMap α) (k : Nat) : α := (AMap.find m k).getD d

/-- Whether a key is present. -/
def AMap.has {α : Type} (m : AMap α) (k : Nat) : Bool := (AMap.find m k).isSome

/-- Inserts or replaces an entry, keeping keys rising. -/
def AMap.set {α : Type} (m : AMap α) (k : Nat) (a : α) : AMap α :=
  match m with
  | [] => [(k, a)]
  | (j, b) :: r =>
    if k < j then (k, a) :: (j, b) :: r
    else if k = j then (k, a) :: r
    else (j, b) :: AMap.set r k a

/-- Removes a key. -/
def AMap.del {α : Type} (m : AMap α) (k : Nat) : AMap α :=
  match m with
  | [] => []
  | (j, b) :: r => if k = j then AMap.del r k else (j, b) :: AMap.del r k

/-- Stores an entry, keeping the default out of the list. -/
def AMap.put {α : Type} [DecidableEq α] (d : α) (m : AMap α) (k : Nat) (a : α) : AMap α :=
  if a = d then AMap.del m k else AMap.set m k a

/-- Changes an entry. -/
def AMap.upd {α : Type} [DecidableEq α] (d : α) (m : AMap α) (k : Nat) (f : α → α) : AMap α :=
  AMap.put d m k (f (AMap.get d m k))

/-- The entry with the smallest key above `k`. -/
def AMap.after {α : Type} (m : AMap α) (k : Nat) : Option (Nat × α) :=
  match m with
  | [] => none
  | (j, a) :: r => if k < j then some (j, a) else AMap.after r k

/-- The keys in order. -/
def AMap.keys {α : Type} (m : AMap α) : List Nat := m.map (·.1)

/-- The keys whose entry meets a test. -/
def AMap.keysWhere {α : Type} (p : Nat → α → Bool) (m : AMap α) : List Nat :=
  (m.filter fun x => p x.1 x.2).map (·.1)

/-- The canonical form: every key above the one before it, all above `lo` where one is given. -/
def AMap.wfFrom {α : Type} (lo : Option Nat) (m : AMap α) : Bool :=
  match m with
  | [] => true
  | (j, _) :: r => (match lo with | none => true | some l => decide (l < j)) && AMap.wfFrom (some j) r

/-- Keys strictly rising. -/
def AMap.wf {α : Type} (m : AMap α) : Bool := AMap.wfFrom none m

/-- Replaces the element at an index of a list. -/
def setAt {α : Type} (l : List α) (i : Nat) (a : α) : List α := l.set i a

/-- Changes the element at an index of a list. -/
def updAt {α : Type} (l : List α) (i : Nat) (f : α → α) : List α := l.modify i f

end Sys2Proof.Machine
end

