-- ==== Sys2Proof/Machine/Operands.lean ====
section
/-!
DEFINITION. The object dictionary's catalogue (R33 to R37, R42, and the object tables of every chapter): which
objects, entries and tables exist, with their types, access codes, defaults, ranges and writable states.
-/
namespace Sys2Proof.Machine

/-- Entry types of R35; sizes in bytes. -/
inductive Ty where
  | bool | u (n : Nat) | i (n : Nat) | time48 | time96
  | octets (n : Nat) | octetsMax (n : Nat) | text (n : Nat)
deriving DecidableEq, Repr, Inhabited

/-- Access codes of R11; a counter is an RO U64 entry held in the counter map. -/
inductive Acc where
  | const | ro | counter | rw | rws | wo
deriving DecidableEq, Repr, Inhabited

/-- The stated range of an entry. -/
inductive Rng where
  | any
  | rng (lo hi : Nat)
  | srng (lo hi : Int)
  | oneOf (l : List Nat)
  | mask (m : Nat)           -- reserved bits outside the mask are zero
  | alt (a b : Rng)
  | unicast48                -- bits [63:48] zero and an individual address
  | notZero                  -- a byte string that is not all zero
  | bits (n : Nat)           -- a port set whose bits from n upward are zero
deriving DecidableEq, Repr, Inhabited

/-- The device states in which an entry may be written (R39). -/
inductive Wr where
  | none | har | hars | hold | holdArmed | run
deriving DecidableEq, Repr, Inhabited

/-- One entry of an object. -/
structure EntrySpec where
  sub  : Nat
  ty   : Ty
  acc  : Acc
  dflt : Val := .num 0
  rng  : Rng := .any
  wr   : Wr := .none
deriving DecidableEq, Repr, Inhabited

/-- How a table's rows are held: staged into images (R44), taking effect at once (R131, R283, R426), or
read only; the FDB mixes staged static rows with learned entries (R138). -/
inductive TKind where
  | staged | immediate | readOnly | fdb
deriving DecidableEq, Repr, Inhabited

/-- A table object (R42). -/
structure TableSpec where
  keyTy  : Ty
  keyLo  : Nat := 0
  keyHi  : Nat
  keyDflt : Nat := 0
  fields : List EntrySpec
  cap    : Nat
  kind   : TKind
deriving DecidableEq, Repr, Inhabited

/-- An object: its plain entries, and its table where it is a table object. -/
structure ObjSpec where
  entries : List EntrySpec
  table   : Option TableSpec := none
deriving DecidableEq, Repr, Inhabited

/-- The identity of the unit (R37, R38): 0 AX, 1 CX, 2 BX; the silicon revision; the unit number u. -/
structure Ident where
  ordering : Nat
  revision : Nat
  unit     : Nat
deriving DecidableEq, Repr, Inhabited

/-- The size in bytes of a type (R35); 0 for a variable size. -/
def Ty.size : Ty → Nat
  | .bool => 1
  | .u n => n
  | .i n => n
  | .time48 => 6
  | .time96 => 12
  | .octets n => n
  | .octetsMax _ => 0
  | .text _ => 0

/-- The type code of R35. -/
def Ty.code : Ty → Nat
  | .bool => 0x10
  | .u 1 => 0x11 | .u 2 => 0x12 | .u 4 => 0x13 | .u _ => 0x14
  | .i 1 => 0x21 | .i 2 => 0x22 | .i 4 => 0x23 | .i _ => 0x24
  | .time48 => 0x30
  | .time96 => 0x31
  | .octets _ => 0x40
  | .octetsMax _ => 0x40
  | .text _ => 0x41

/-- The types the BAR2 window reaches (R45). -/
def Ty.scalar : Ty → Bool
  | .bool => true | .u _ => true | .i _ => true | .time48 => true
  | .time96 => false | .octets _ => false | .octetsMax _ => false | .text _ => false

/-- Whether a value can be encoded in a type, an OCTETS value having an allowed size (R35). -/
def Ty.encodes : Ty → Val → Bool
  | .bool, .num n => n < 2
  | .u k, .num n => n < 2 ^ (8 * k)
  | .i k, .num n => n < 2 ^ (8 * k)
  | .time48, .num n => n < 2 ^ 48
  | .time96, .num n => n < 2 ^ 96
  | .octets k, .oct b => b.length == k
  | .octetsMax k, .oct b => b.length ≤ k
  | .text k, .oct b => b.length ≤ k
  | _, _ => false

/-- Whether a value lies in a stated range; reserved bits set are outside it (DEDUCED, log entry 62). -/
def Rng.ok : Rng → Ty → Val → Bool
  | .any, _, _ => true
  | .rng lo hi, _, v => lo ≤ v.n && v.n ≤ hi
  | .srng lo hi, t, v => lo ≤ toSigned (8 * t.size) v.n && toSigned (8 * t.size) v.n ≤ hi
  | .oneOf l, _, v => l.contains v.n
  | .mask m, _, v => v.n &&& m == v.n
  | .alt a b, t, v => a.ok t v || b.ok t v
  | .unicast48, _, v => v.n < 2 ^ 48 && !bit v.n 40
  | .notZero, _, v => v.b.any (· != 0)
  | .bits n, _, v => (upTo (8 * v.b.length - n)).all fun k => !bitSet v.b (n + k)

/-- Whether an entry may be written in a device state (R39). -/
def Wr.allows : Wr → Mode → Bool
  | .none, _ => false
  | .har, .hold => true | .har, .armed => true | .har, .run => true
  | .hars, .hold => true | .hars, .armed => true | .hars, .run => true | .hars, .safe => true
  | .hold, .hold => true
  | .holdArmed, .hold => true | .holdArmed, .armed => true
  | .run, .run => true
  | _, _ => false

/-- The value a type encodes as bytes, big-endian (R35); TIME96 is its 64-bit count and then its fraction. -/
def Ty.encode (t : Ty) : Val → Bytes
  | .num n => beBytes t.size n
  | .oct b => b

/-- The value a byte string encodes in a type, if its length is the type's. -/
def Ty.decode (t : Ty) (b : Bytes) : Option Val :=
  match t with
  | .octets _ => some (.oct b)
  | .octetsMax _ => some (.oct b)
  | .text _ => some (.oct b)
  | _ => if b.length = t.size then some (.num (beNat b)) else none

/-! Entry builders. -/
namespace Cat

def const (s : Nat) (t : Ty) : EntrySpec := { sub := s, ty := t, acc := .const }
def ro (s : Nat) (t : Ty) : EntrySpec := { sub := s, ty := t, acc := .ro }
def cn (s : Nat) : EntrySpec := { sub := s, ty := .u 8, acc := .counter }
def cns (l : List Nat) : List EntrySpec := l.map cn
def rws (s : Nat) (t : Ty) (d : Nat) (r : Rng) : EntrySpec :=
  { sub := s, ty := t, acc := .rws, dflt := .num d, rng := r, wr := .har }
def rwsO (s n : Nat) (r : Rng) : EntrySpec :=
  { sub := s, ty := .octets n, acc := .rws, dflt := .oct (zeros n), rng := r, wr := .har }
def rw (s : Nat) (t : Ty) (d : Nat) (r : Rng) (w : Wr := .har) : EntrySpec :=
  { sub := s, ty := t, acc := .rw, dflt := .num d, rng := r, wr := w }
def rwO (s n : Nat) (r : Rng) : EntrySpec :=
  { sub := s, ty := .octets n, acc := .rw, dflt := .oct (zeros n), rng := r, wr := .har }
def wo (s : Nat) (t : Ty) (r : Rng) (w : Wr := .har) : EntrySpec := { sub := s, ty := t, acc := .wo, rng := r, wr := w }

def u8 : Ty := .u 1
def u16 : Ty := .u 2
def u32 : Ty := .u 4
def u64 : Ty := .u 8
def i32 : Ty := .i 4

/-- A range with one extra value. -/
def orOne (lo hi x : Nat) : Rng := .alt (.rng lo hi) (.oneOf [x])

end Cat

open Cat

/-- Whether line port p exists on the ordering code (R1, R3). -/
def linePortPresent (id : Ident) (p : Nat) : Bool := p < 256 && (id.ordering != 2 || p < 128)

/-- Whether a slice exists on the ordering code (R3): S0 to S15 are the line slices, S16 the service slice. -/
def slicePresent (id : Ident) (s : Nat) : Bool := s = 16 || (s < 16 && (id.ordering != 2 || s < 8))

/-- UNITS_PRESENT (R37). -/
def unitsPresent (id : Ident) : Nat := if id.ordering = 0 then 0x003FFFFF else 0x0037FFFF

/-- Whether block b of R15 is present. -/
def blockPresent (id : Ident) (b : Nat) : Bool := 1 ≤ b && b ≤ 22 && bit (unitsPresent id) (b - 1)

/-- The default STATION_ADDRESS (R38). -/
def stationDefault (id : Ident) : Nat := 0x020000000000 + id.unit

/-- The default RING_ADDRESS (R38). -/
def ringDefault (id : Ident) : Nat := 0x021000000000 + id.unit

/-- The line port p has the default QUAD_MODE 4x100G on the first port of its quad, FOLLOW elsewhere (R123). -/
def quadDefault (p : Nat) : Nat := if p % 4 = 0 then 3 else 0

/-- PORT entries of R123. -/
def portEntries (p : Nat) : List EntrySpec :=
  [ rws 0x01 .bool 1 .any,
    rws 0x02 u8 (quadDefault p) (if p % 4 = 0 then .rng 1 6 else .rng 0 0),
    ro 0x03 u16,
    rws 0x04 u8 0 (.rng 0 2),
    rws 0x05 u8 2 (.rng 0 2),
    rws 0x06 .bool 1 .any,
    rws 0x07 .bool 1 .any,
    rws 0x08 u16 1522 (.rng 1518 16000),
    rws 0x09 u8 0 (.rng 0 1),
    rws 0x0A u16 10 (.rng 0 1000),
    rws 0x0B u16 0 (.rng 0 1000),
    rw 0x0C u8 0 (.rng 0 2) .holdArmed,
    ro 0x0D u8, ro 0x0E u8, ro 0x0F u64 ]

/-- PREEMPTION entries of R124. -/
def preemptEntries : List EntrySpec :=
  [ rws 0x01 .bool 0 .any, rws 0x02 u8 0 .any, rws 0x03 .bool 0 .any,
    rws 0x04 u8 10 (.rng 1 128), rws 0x05 u8 3 (.rng 1 15), rws 0x06 u8 0 (.rng 0 3),
    ro 0x07 u8, ro 0x08 .bool, ro 0x09 .bool ]

/-- MGT0_PORT and MGT1_PORT entries of R125. -/
def mgtEntries : List EntrySpec :=
  [ rws 0x01 .bool 1 .any, rws 0x02 u8 0 (.rng 0 1), rws 0x03 .bool 1 .any,
    rws 0x04 u16 1522 (.rng 1518 16000), rws 0x05 u8 0 (.rng 0 1), ro 0x06 u8 ]

/-- GATE_CONTROL plain entries of R310. -/
def gateEntries : List EntrySpec :=
  [ rws 0x20 .bool 0 .any, rws 0x21 u8 0 (.rng 0 7), rws 0x22 .time48 0 .any,
    rws 0x23 u32 1000000 (.rng 1000 1000000000), rws 0x24 u32 0 .any,
    rws 0x25 u32 1 (.rng 1 0xFFFFFFFF), rws 0x26 u8 0xFF .any, rws 0x27 u8 0 .any, rws 0x28 u8 0 .any,
    ro 0x30 .bool, ro 0x31 .time48, ro 0x32 u32, ro 0x33 u32, ro 0x34 .bool, ro 0x35 .time48,
    ro 0x36 u32, ro 0x37 u8, ro 0x38 .bool, ro 0x39 u16, ro 0x3A u32, ro 0x3B (.octets 32) ]

/-- The gate-list table of R310. -/
def gateTable : TableSpec :=
  { keyTy := u32, keyHi := 0xFFFFFFFF,
    fields := [ rw 0x02 u8 0 (.rng 0 2), rw 0x03 u8 0xFF .any, rw 0x04 u32 1000000 (.rng 8 1000000000) ],
    cap := 0xFFFFFFFF, kind := .staged }

/-- TIME_DOMAIN entries of R257. -/
def domainEntries (d : Nat) : List EntrySpec :=
  [ rws 0x01 .bool (if d = 0 then 1 else 0) .any, rws 0x02 u8 0 (.rng 0 1), rws 0x03 u8 0 (.rng 0 3),
    rws 0x04 u8 0xFF (.oneOf [0, 1, 0xFF]), rws 0x05 .bool 0 .any,
    rws 0x06 i32 0 (.srng (-1000000) 1000000), rws 0x07 u32 1000 (.rng 0 1000000000),
    rws 0x08 u8 1 (.rng 0 15), rws 0x09 u8 3 (.rng 0 15), rws 0x0A u32 100 (.rng 1 1000000000),
    rws 0x0B u8 4 (.rng 1 255), rws 0x0C u32 1000 (.rng 1 1000000000), rws 0x0D u8 2 (.rng 1 255),
    rws 0x0E u32 3000 (.rng 1 60000), rws 0x0F .bool 0 .any, rws 0x10 u8 0 (.mask 3),
    rws 0x11 u32 100000000 (.rng 1000 900000000), rws 0x12 i32 0 (.srng (-500000000) 500000000),
    wo 0x13 u8 (.rng 0 1), ro 0x14 u8, ro 0x15 .bool, ro 0x16 .bool, ro 0x17 (.i 8), ro 0x18 u64,
    ro 0x19 .time96 ] ++ cns [0x20, 0x21, 0x22, 0x23, 0x24, 0x25, 0x26, 0x27]

/-- The event-matrix line named by ARM_LINE or SOURCE_LINE: 0 to 255, or 0xFFFF. -/
def lineRng : Rng := orOne 0 255 0xFFFF

/-- An internal trigger's entries at a base subindex (R324). -/
def intTriggerEntries (b : Nat) : List EntrySpec :=
  [ rws b .bool 0 .any, rws (b + 1) u8 0 (.rng 0 7), rws (b + 2) .time48 0 .any, rws (b + 3) u32 0 .any,
    rws (b + 4) u32 1000000 .any, rws (b + 5) u32 0 .any, rws (b + 6) u32 0 .any, rws (b + 7) u16 0xFFFF lineRng,
    ro (b + 8) u8, cn (b + 9), cn (b + 10) ]

/-- TRIGGER entries of R323 and R324. -/
def triggerEntries : List EntrySpec :=
  [ rws 0x01 .bool 0 .any, rws 0x02 u8 0 (.rng 0 7), rws 0x03 .time48 0 .any, rws 0x04 u32 0 .any,
    rws 0x05 u32 1000000 .any, rws 0x06 u32 0 .any, rws 0x07 u32 400 (.rng 8 0xFFFFFFFF), rws 0x08 u32 0 .any,
    rws 0x09 u8 0 (.rng 0 1), rws 0x0A u8 0 (.rng 0 2), rws 0x0B u16 0xFFFF lineRng,
    rws 0x0C i32 0 (.srng (-40000) 40000), ro 0x10 u8, ro 0x11 .time48, ro 0x12 u32,
    cn 0x13, cn 0x14, cn 0x15 ] ++ intTriggerEntries 0x20 ++ intTriggerEntries 0x30

/-- EVENT_INPUT entries of R325. -/
def evinEntries : List EntrySpec :=
  [ rws 0x01 .bool 0 .any, rws 0x02 u8 1 (.rng 1 3), rws 0x03 u32 0 (.rng 0 1000000), rws 0x04 u8 0 (.rng 0 7),
    rws 0x05 i32 0 (.srng (-40000) 40000), rws 0x06 u8 0 (.rng 0 1), cn 0x10, cn 0x11, cn 0x12, ro 0x13 .bool ]

/-- HERD_CONFIG entries of R361. -/
def herdEntries (id : Ident) : List EntrySpec :=
  [ rws 0x01 .bool 0 .any, rws 0x02 u8 0 (.rng 0 7), rws 0x03 u8 0 (.rng 0 63), rws 0x04 u8 0 .any,
    rws 0x05 u64 (ringDefault id) .unicast48, rws 0x06 u8 0 (.rng 0 2), rws 0x07 u8 2 (.rng 0 2),
    rws 0x08 u32 1000000 (.rng 31250 1000000000), rws 0x09 u64 0 .any, rws 0x0A u32 0 .any,
    rws 0x0B u8 2 (.rng 1 64), rws 0x0C u8 1 (.rng 0 21), rws 0x0D u32 1000 (.rng 10 1000000),
    rws 0x0E u8 4 (.rng 2 255), rws 0x0F u16 64 (.rng 4 65535), rws 0x10 u16 3 (.rng 1 1000),
    rws 0x11 .bool 1 .any, rws 0x12 u16 100 (.rng 0 10000), rws 0x13 u32 500 (.rng 0 100000) ]
  ++ (upTo 16).map (fun k => rws (0x20 + k) u32 0xFFFFFFFF .any)
  ++ [ ro 0x30 u8, ro 0x31 u8, ro 0x32 u64, ro 0x33 u8, ro 0x34 u8, ro 0x35 u16, ro 0x36 u32, ro 0x37 u32,
       ro 0x38 u32, ro 0x39 u8 ]

/-- Counters of the port objects 0x9000 + p, 0x9104 and 0x9105 (R126, R158, R189, R215, R237, R284, R311, R461). -/
def portCounterSubs : List Nat :=
  [0x01, 0x02, 0x03, 0x04, 0x05, 0x06, 0x07, 0x08, 0x09, 0x0A, 0x0B, 0x0C, 0x10, 0x11, 0x12, 0x13,
   0x18, 0x19, 0x1A, 0x1B, 0x1C, 0x1D, 0x1E, 0x20, 0x21, 0x22, 0x23] ++
  [0x30, 0x31, 0x32, 0x33, 0x34, 0x35, 0x36, 0x37, 0x38, 0x39, 0x3A, 0x3B, 0x3C, 0x3D,
   0x40, 0x41, 0x42, 0x43, 0x44, 0x50, 0x51, 0x52, 0x53, 0x54, 0x55, 0x56, 0x57, 0x58, 0x60] ++
  [0x70, 0x71, 0x72, 0x73, 0x74, 0x75, 0x80, 0x81, 0x82, 0x83, 0x84, 0x85, 0x86, 0x87,
   0x90, 0x91, 0x92, 0x93, 0x94, 0x95, 0x96]

/-- Counters of the host-port objects 0x9100 to 0x9103 (R215, R237, R377, R404 and the subindices that read 0
there). -/
def hostCounterSubs : List Nat :=
  [0x04, 0x13, 0x50, 0x51, 0x52, 0x53, 0x54, 0x55, 0x56, 0x57, 0x58, 0x60,
   0x70, 0x71, 0x72, 0x73, 0x74, 0x75, 0x80, 0x81, 0x82, 0x83, 0x84, 0x85, 0x86, 0x87,
   0x90, 0x91, 0x92, 0x93, 0x94, 0x95, 0x96]

/-- A staged table keyed by a number. -/
def stagedT (kt : Ty) (lo hi cap : Nat) (f : List EntrySpec) : TableSpec :=
  { keyTy := kt, keyLo := lo, keyHi := hi, keyDflt := 0, fields := f, cap := cap, kind := .staged }

/-- A table that answers READ and NEXT only. -/
def readT (kt : Ty) (hi cap : Nat) (f : List EntrySpec) : TableSpec :=
  { keyTy := kt, keyHi := hi, fields := f, cap := cap, kind := .readOnly }

/-- Read-only counter fields 0x02 to 0x02 + n - 1. -/
def counterFields (n : Nat) : List EntrySpec := (upTo n).map fun k => cn (2 + k)

/-- Source-port number or group (DEST of R138). -/
def destRng : Rng := .alt (.rng 0 4094) (.rng 4096 12287)

/-- The table of an object, if it is a table object. -/
def tableSpec (id : Ident) (idx : Nat) : Option TableSpec :=
  let genCap := if id.ordering = 2 then 34816 else 65536
  let recCap := if id.ordering = 2 then 139264 else 262144
  match idx with
  | 0x0404 => some gateTable
  | 0x0405 => some gateTable
  | 0x1200 => some (stagedT u16 0 2095 2096 [ rw 2 u8 0 (.rng 0 1), rw 3 u32 16020 (.rng 64 1048576) ])
  | 0x1201 => some (stagedT u16 0 261 262 [ rw 2 u8 20 (.rng 0 64), rw 3 u32 200000 (.rng 1000 256000) ])
  | 0x1202 => some (readT u16 2095 2096 [ ro 2 .bool, ro 3 u32, ro 4 i32, ro 5 u8 ])
  | 0x1300 => some (stagedT u16 0 2095 2096
      [ rw 2 u8 0 (.rng 0 2), rw 3 u32 1000000 (.rng 64 400000000), rw 4 u32 16064 (.rng 64 (2 ^ 30)),
        rw 5 u8 0 (.rng 0 1) ])
  | 0x1801 => some (stagedT u8 0 31 32
      [ rw 2 u32 262144 .any, rw 3 u32 1048576 .any, rw 4 u16 6554 .any, rw 5 u32 131072 .any,
        rw 6 u32 524288 .any, rw 7 u16 16384 .any, rw 8 u32 0 .any, rw 9 u32 131072 .any,
        rw 10 u16 32768 .any, rw 11 .bool 0 .any ])
  | 0x1802 => some (stagedT u16 0 2095 2096 [ rw 2 u8 0 (.rng 0 31) ])
  | 0x1803 => some (stagedT u8 0 7 8
      [ rw 2 u16 32 .any, rw 3 u16 3072 (.rng 0 3072), rw 4 u16 8 .any, rw 5 u16 512 (.rng 0 512),
        rw 6 .bool 0 .any ])
  | 0x2001 => some (stagedT u16 0 262 263
      [ rw 2 u16 1 (.rng 1 4094), rw 3 u8 0 (.rng 0 7), rw 4 u8 0 (.rng 0 2), rw 5 .bool 1 .any,
        rw 6 u8 1 (.rng 0 2), rw 7 u8 0 (.rng 0 7), rw 8 u32 0x76543210 (.mask 0x77777777), rw 9 u8 1 (.rng 0 2),
        rw 10 .bool 1 .any, rw 11 u32 0 (.rng 0 262144), rw 12 u8 1 (.rng 0 1), rw 13 u8 0 (.rng 0 5) ])
  | 0x2002 => some (stagedT u8 0 63 64 [ rw 2 u8 0 (.rng 0 7), rw 3 u8 0 (.rng 0 2) ])
  | 0x2003 => some (stagedT u16 1 4094 4096
      [ rwO 2 33 (.bits 263), rwO 3 33 (.bits 263), rw 4 u16 0 (.rng 0 4095), rw 5 .bool 1 .any, rw 6 .bool 1 .any ])
  | 0x2004 => some { keyTy := u64, keyHi := 2 ^ 60 - 1, cap := 262144, kind := .fdb,
                     fields := [ rw 2 u8 0 (.rng 0 2), rw 3 u16 0 destRng, ro 4 u8, ro 5 .bool ] }
  | 0x2005 => some (stagedT u16 4096 12287 8192 [ rwO 2 33 (.bits 263) ])
  | 0x2006 => some (stagedT (.octets 52) 0 (2 ^ 416 - 1) 262144
      [ rw 5 u32 0 (.rng 0 262143), rwO 6 33 (.bits 263), rw 7 u8 0xFF (orOne 0 7 0xFF), rw 8 u8 0 (.rng 0 2),
        rw 9 u16 0 destRng ])
  | 0x2007 => some (stagedT u16 0 4095 4096
      [ rwO 2 52 .any, rwO 3 52 .any, rw 4 u8 0 (.rng 0 2), rw 5 u32 0 (.rng 0 262143), rwO 6 33 (.bits 263),
        rw 7 u8 0xFF (orOne 0 7 0xFF), rw 8 u8 0 (.rng 0 2), rw 9 u16 0 destRng ])
  | 0x2008 => some { keyTy := u16, keyHi := 262, cap := 263, kind := .immediate, fields := [ rw 2 u8 0 (.rng 0 2) ] }
  | 0x2100 => some (stagedT u32 0 65535 65536
      [ rw 2 u32 0xFFFFFFFF (orOne 0 262143 0xFFFFFFFF), rw 3 u8 0xFF (orOne 0 7 0xFF), rw 4 u16 0xFFFF (orOne 0 4351 0xFFFF),
        rw 5 u16 0 (.alt (.rng 0 0) (.rng 64 16000)), rw 6 u32 0xFFFFFFFF (orOne 0 69631 0xFFFFFFFF),
        rw 7 .bool 0 .any, ro 8 .bool ])
  | 0x2101 => some (stagedT u16 0 4351 4352
      [ rw 2 u8 0 (.rng 0 7), rw 3 .time48 0 .any, rw 4 u32 1000000 (.rng 1000 1000000000), rw 5 u16 1 (.rng 1 256),
        rw 6 .bool 0 .any, rw 7 .bool 0 .any, rw 8 .bool 0 .any, ro 9 u8 ])
  | 0x2102 => some (stagedT u32 0 1114111 (if id.ordering = 2 then 36864 else 69632)
      [ rw 2 .bool 0 .any, rw 3 u8 0xFF (orOne 0 7 0xFF), rw 4 u32 0 (.rng 8 0xFFFFFFFF),
        rw 5 u32 0 (.alt (.rng 0 0) (.rng 64 0xFFFFFFFF)) ])
  | 0x2103 => some (stagedT u32 0 69631 69632
      [ rw 2 u8 2 (.rng 1 2), rw 3 .bool 0 .any, rw 4 u32 1000000 (.rng 64 400000000), rw 5 u32 16000 (.rng 64 (2 ^ 30)),
        rw 6 u32 2000000 (.rng 64 400000000), rw 7 u32 32000 (.rng 0 (2 ^ 30)), rw 8 (.i 1) 0 (.srng (-64) 64),
        rw 9 .bool 0 .any, rw 10 .bool 1 .any ])
  | 0x2104 => some (readT u32 65535 65536 (counterFields 6))
  | 0x2105 => some (readT u32 69631 69632 (counterFields 4))
  | 0x3001 => some (stagedT u32 0 69631 genCap
      [ rw 2 u32 0 (.rng 0 262143), rw 3 u8 0 (.rng 0 2), rw 4 u16 0 destRng, rw 5 u16 16 (.rng 0 32767) ])
  | 0x3002 => some (readT u32 69631 genCap [ ro 2 u16, cn 3, cn 4, cn 5 ])
  | 0x3003 => some (stagedT u32 0 278527 recCap
      [ rw 2 u32 0 (.rng 0 262143), rw 3 u16 0 .any, rw 4 u8 0 (.rng 0 2), rw 5 u8 32 (.rng 2 128),
        rw 6 u32 2000000 (.rng 100 60000000), rw 7 .bool 0 .any, rw 8 .bool 0 .any, rw 9 u64 (2 ^ 64 - 1) .any,
        rw 10 u8 0 (.rng 0 1), rw 11 u8 0 (.alt (.rng 0 0) (.rng 2 8)), rw 12 u32 16 .any,
        rw 13 u32 2000 (.rng 10 3600000), rw 14 u32 30000 (.rng 10 3600000), rw 15 u16 128 (.rng 0 65535) ])
  | 0x3004 => some (readT u32 278527 recCap
      [ ro 2 u16, ro 3 .bool, ro 4 .bool, ro 5 (.octets 16), ro 6 .bool, ro 7 u64 ])
  | 0x3005 => some (readT u32 278527 recCap (counterFields 11))
  | 0x4301 => some (stagedT u8 0 7 8
      [ rw 2 .bool 0 .any, rw 3 u8 0 .any, rw 4 u8 0 (.rng 0 15), rw 5 u8 0 (.rng 0 7) ])
  | 0x4302 => some (stagedT u16 0 261 262
      [ rw 2 u8 0 (.rng 0 7), rw 3 i32 0 (.srng (-40000) 40000), rw 4 i32 0 (.srng (-40000) 40000), rw 5 .bool 0 .any,
        rw 6 .bool 0 .any, rw 7 .bool 0 .any, rw 8 u8 0 (.rng 0 2), rw 9 .bool 0 .any, rw 10 u8 0 (.rng 0 5) ])
  | 0x4303 => some { keyTy := u16, keyHi := 261, cap := 262, kind := .immediate, fields := [ rw 2 u32 0 (.rng 0 4000000) ] }
  | 0x5001 => some (stagedT u16 0 1023 1024
      [ rw 2 u8 1 .any, rw 3 u8 0 .any, rw 4 u16 0 .any, rw 5 u16 8 .any, rw 6 u8 0xFF (orOne 0 15 0xFF),
        rw 7 u8 0 (.rng 0 63), rw 8 u8 1 (.rng 0 63) ])
  | 0x5003 => some (readT u8 63 64 [ ro 2 u32, ro 3 (.i 8), ro 4 i32, ro 5 u8, ro 6 .bool ])
  | 0x6001 => some (stagedT u8 0 30 31
      [ rw 2 u8 0 (.rng 0 2), rw 3 u8 0 (.rng 0 3), rw 4 u8 0 (.rng 0 3), rw 5 u8 0 (.rng 0 7),
        rw 6 u8 0xFF (orOne 17 127 0xFF), rw 7 u8 16 (.rng 1 255), rw 8 u16 512 (.oneOf [64, 128, 256, 512]),
        rw 9 u16 128 (.rng 1 1024) ])
  | 0x6002 => some { keyTy := u8, keyLo := 19, keyHi := 127, keyDflt := 19, cap := 109, kind := .staged,
                     fields := [ rw 2 u16 0xFFFF lineRng, rw 3 u32 0 .any, rw 4 u8 1 (.rng 1 16) ] }
  | 0x6003 => some (readT u8 31 32 (counterFields 6))
  | 0x6004 => some (readT u8 127 128 (counterFields 4))
  | 0x6006 => some (readT u8 7 8 [ cn 2, cn 3, ro 4 u8, ro 5 u64, cn 6 ])
  | 0x6101 => some { keyTy := u16, keyHi := 2047, cap := 2048, kind := .immediate,
                     fields := [ rw 2 .bool 0 .any, rw 3 u8 0 (.rng 0 15), rw 4 u8 0 (.rng 0 63), ro 5 .bool, ro 6 u8 ] }
  | 0x6102 => some { keyTy := u8, keyHi := 63, cap := 64, kind := .immediate, fields := [ rw 2 u32 0 .any ] }
  | 0x6103 => some { keyTy := u8, keyHi := 63, cap := 64, kind := .immediate,
                     fields := [ rw 2 u8 0 (.rng 0 3), rw 3 u8 0 (.rng 0 63), rw 4 .bool 0 .any, rw 5 u8 0 (.rng 0 1),
                                 rw 6 u8 0 (.rng 0 15), rw 7 .bool 1 .any, rw 8 .bool 0 .any ] }
  | 0x6104 => some (readT u8 255 256 (counterFields 1))
  | 0x7002 => some (stagedT u16 0 261 258 [ rw 2 u8 0 (.rng 0 2), rw 3 .bool 1 .any, rw 4 .bool 0 .any ])
  | 0x7004 => some (readT u8 15 16 [ ro 2 u32, ro 3 u32, ro 4 .bool ])
  | 0x8101 => some (readT u8 31 32 [ ro 2 (.i 2), ro 3 .bool ])
  | 0x8102 => some (readT u8 63 64 [ ro 2 u32, ro 3 u32, ro 4 u32 ])
  | 0x8103 => some (readT u8 7 8 [ cn 2, ro 3 u32, ro 4 u32 ])
  | 0x8104 => some (readT u8 255 256 [ ro 2 u16 ])
  | 0x9200 => some (readT u16 288 289 [ ro 2 u32, ro 3 u32, ro 4 (.octets 16), cn 5, cn 6, cn 7 ])
  | 0x9201 => some (readT u16 2095 2096 [ ro 2 u32, ro 3 u32, ro 4 .bool ])
  | 0x9202 => some (readT u16 2095 2096 (counterFields 4))
  | _ =>
    if 0x1400 ≤ idx ∧ idx < 0x1500 then some gateTable
    else if 0x8041 ≤ idx ∧ idx ≤ 0x8056 then some (readT u8 31 32 [ ro 2 u32, ro 3 u8, ro 4 u32, ro 5 (.octets 64) ])
    else none

/-- SAFE_ON bits fixed at 1 for block b (*always* in R466). -/
def safeAlways (b : Nat) : Nat :=
  match b with
  | 18 => 0x4          -- TRAINING_FAILED 0x03
  | 21 => 0x202        -- THERMAL_SAFE 0x02, ALIVE_STOPPED 0x0A
  | 22 => 0x3          -- REFCLK_LOSS, PLL_UNLOCK
  | _ => 0

/-- Default SAFE_ON of block b (R466): the *always* bits, and MEMORY_UNCORRECTABLE in blocks 6, 11 and 19. -/
def safeOnDefault (b : Nat) : Nat :=
  safeAlways b + (if b = 6 ∨ b = 11 ∨ b = 19 then 0x10000 else 0)

/-- The plain entries of an object; none where the object is not defined or is a pure table. -/
def entrySpecs (id : Ident) (idx : Nat) : Option (List EntrySpec) :=
  match idx with
  | 0x0100 => some [ const 1 u32, const 2 (.text 12), const 3 u8, const 4 u32, const 5 u16, const 6 (.octets 8) ]
  | 0x0101 => some [ ro 1 u8, ro 2 u8, ro 3 u64, ro 4 u16, ro 5 u32, ro 6 .bool, ro 7 u8, ro 8 u8, ro 9 u8,
                     rws 10 .bool 0 .any, ro 11 u32 ]
  | 0x0102 => some [ wo 1 u8 (.rng 1 5) .hars ]
  | 0x0103 => some [ ro 1 u8, ro 2 u16, ro 3 u32, ro 4 u8, ro 5 u64 ]
  | 0x0200 => some [ ro 1 .bool, ro 2 u64, ro 3 u32, ro 4 .bool, ro 5 u64, ro 6 u32, ro 7 u8, ro 8 .bool,
                     rw 9 u8 0xFF (.oneOf [0, 1, 0xFF]) .holdArmed,
                     { sub := 10, ty := .octetsMax 16777216, acc := .rw, wr := .hold },
                     { sub := 11, ty := .octetsMax 16777216, acc := .rw, wr := .hold } ]
  | 0x0201 => some [ rw 1 u8 0 (.rng 0 1), rw 2 u8 0 (.rng 0 7), rw 3 .time48 0 .any, wo 4 u8 (.rng 1 3),
                     ro 5 u8, ro 6 u16, ro 7 u32, ro 8 u32, ro 9 u64, ro 10 u32 ]
  | 0x0202 => some [ ro 1 u32, ro 2 .bool, ro 3 u32, rws 4 u32 100 (.rng 1 10000), ro 5 u64, cn 6 ]
  | 0x0203 => some [ cn 1, cn 2, cn 3 ]
  | 0x0400 => some [ rws 1 u8 3 (.mask 15), rwsO 2 32 .any, rws 3 u64 (stationDefault id) .unicast48,
                     rws 4 u8 6 (.rng 0 7), rw 5 u16 100 (.rng 10 10000) ]
  | 0x0401 => some (cns [1, 2, 3, 4, 5, 6, 7, 8])
  | 0x0402 => some mgtEntries
  | 0x0403 => some mgtEntries
  | 0x0404 => some gateEntries
  | 0x0405 => some gateEntries
  | 0x1800 => some [ rws 1 u8 9 (.rng 0 15), rws 2 u32 1 .any, cn 3, ro 4 u32 ]
  | 0x2000 => some [ rws 1 u32 300 (.rng 10 1000000), rws 2 u16 0x88A8 .any, wo 3 u16 (orOne 0 262 0xFFFF), ro 4 u32,
                     wo 5 u32 (.rng 0 65535), wo 6 u16 .any ]
  | 0x3000 => some [ rwsO 1 33 (.bits 263), wo 2 u32 .any, wo 3 u32 .any, ro 4 u32, ro 5 u32, ro 6 u32 ]
  | 0x4300 => some (cns [1, 2, 3, 4])
  | 0x4310 => some [ rws 1 .bool 0 .any, rws 2 u8 0 .any, rws 3 u8 1 (.oneOf [1, 2, 4, 5, 8]), ro 4 .bool, cn 5 ]
  | 0x4311 => some [ rws 1 .bool 0 .any, rws 2 u8 0 .any, rws 3 u8 1 (.oneOf [1, 2, 4, 5, 8]), ro 4 .bool, cn 5 ]
  | 0x5000 => some (herdEntries id)
  | 0x5002 => some (cns ((upTo 30).map (· + 1)))
  | 0x6000 => some [ rws 1 u32 100 (.rng 10 10000) ]
  | 0x6005 => some [ ro 1 u64, ro 2 u64, ro 3 u64, ro 4 u8, ro 5 u8, ro 6 u8, rws 7 u32 8000 (.rng 0 16000),
                     rws 8 u16 24 (.rng 1 168) ]
  | 0x6100 => some [ rws 1 u32 1000 (.rng 0 1000000), rws 2 u32 1000 (.rng 0 1000000) ]
  | 0x7000 => some [ rws 1 .bool 0 .any, rws 2 u8 2 (.rng 0 2), rws 3 u32 1000 .any, rws 4 u8 0 (.rng 0 7),
                     rws 5 u32 1024 (.rng 0 1048576), rws 6 u8 0 .any, rws 7 .bool 0 .any, wo 8 u8 (.rng 1 1) .run,
                     ro 0x10 u8, ro 0x11 u8, ro 0x12 .bool, ro 0x13 u32, ro 0x14 u32, ro 0x15 u32, ro 0x16 u8,
                     ro 0x17 .bool, ro 0x18 u32, ro 0x19 u64 ]
  | 0x7001 => some [ rws 1 u8 1 (.rng 0 1), rws 2 u16 600 (.rng 0 1000), rwsO 3 32 .any, rws 4 u32 1000 (.rng 0 600000),
                     const 5 u16, ro 6 .bool, ro 7 .bool ]
  | 0x7003 => some [ rws 1 u8 0 (.rng 0 15), rws 2 u32 200 (.rng 100 100000), rws 3 u8 7 (.rng 0 7) ]
  | 0x7005 => some (cns ((upTo 17).map (· + 1)))
  | 0x8000 => some [ ro 1 u16, ro 2 u32, ro 3 u64, ro 4 u64, wo 5 u32 .any ]
  | 0x8100 => some [ rws 1 u8 95 (.rng 60 105), rws 2 u8 110 (.rng 100 115), rws 3 u8 5 (.rng 2 10), rws 4 u16 15 (.rng 1 200),
                     rws 5 u32 50000 (.rng 10000 50000), rws 6 u32 100000 (.rng 10000 100000), rws 7 u32 8760 .any,
                     ro 0x10 (.i 2), ro 0x11 u32, ro 0x12 u8 ]
  | _ =>
    if [0x10, 0x11, 0x12, 0x13, 0x14, 0x21, 0x22, 0x23, 0x24, 0x30, 0x31, 0x40, 0x41, 0x50, 0x51].contains idx then
      some [ const 1 u16, const 2 (.text 6) ]
    else if 0x0410 ≤ idx ∧ idx < 0x0420 then
      some [ { sub := 1, ty := .octets 32, acc := .wo, rng := .notZero, wr := .har }, rw 2 .bool 0 .any, rw 3 u8 0 (.mask 15),
             rw 4 u8 0 (.mask 31), ro 5 u64, ro 6 u64 ]
    else if 0x1000 ≤ idx ∧ idx < 0x1100 then some (portEntries (idx - 0x1000))
    else if 0x1100 ≤ idx ∧ idx < 0x1200 then some preemptEntries
    else if 0x1400 ≤ idx ∧ idx < 0x1500 then some gateEntries
    else if 0x4000 ≤ idx ∧ idx < 0x4008 then some (domainEntries (idx - 0x4000))
    else if 0x4100 ≤ idx ∧ idx < 0x4120 then some triggerEntries
    else if 0x4200 ≤ idx ∧ idx < 0x4210 then some evinEntries
    else if 0x8001 ≤ idx ∧ idx ≤ 0x8016 then
      some [ rws 1 u32 0x1FFFF (.mask 0x1FFFF), rws 2 u32 (safeOnDefault (idx - 0x8000)) (.mask 0x1FFFF) ]
    else if 0x9000 ≤ idx ∧ idx < 0x9100 then some (cns portCounterSubs)
    else if 0x9100 ≤ idx ∧ idx < 0x9104 then some (cns hostCounterSubs)
    else if idx = 0x9104 ∨ idx = 0x9105 then some (cns portCounterSubs)
    else none

/-- The object at an index (R33), if it is defined. -/
def objSpec (id : Ident) (idx : Nat) : Option ObjSpec :=
  match entrySpecs id idx, tableSpec id idx with
  | none, none => none
  | e, t => some { entries := e.getD [], table := t }

/-- HIGHEST_SUB (R34): the highest subindex the object defines. -/
def ObjSpec.highest (o : ObjSpec) : Nat :=
  (o.entries.map (·.sub)).foldl max (if o.table.isSome then 0x13 else 0)

/-- The entry spec at a subindex of a table object (R42): KEY, a field, ACTION, ACTION_RESULT, ENTRY_COUNT, CAPACITY. -/
def TableSpec.entry (t : TableSpec) (sub : Nat) : Option EntrySpec :=
  match sub with
  | 0x01 => some { sub := 1, ty := t.keyTy, acc := .rw, wr := .har }
  | 0x10 => some { sub := 0x10, ty := .u 1, acc := .wo, rng := .rng 1 4, wr := .har }
  | 0x11 => some { sub := 0x11, ty := .u 1, acc := .ro }
  | 0x12 => some { sub := 0x12, ty := .u 4, acc := .ro }
  | 0x13 => some { sub := 0x13, ty := .u 4, acc := .const }
  | _ => t.fields.find? (·.sub = sub)

/-- The entry spec at a subindex of an object; subindex 0x00 is HIGHEST_SUB (R34). -/
def ObjSpec.entry (o : ObjSpec) (sub : Nat) : Option EntrySpec :=
  if sub = 0 then some { sub := 0, ty := .u 1, acc := .const }
  else match o.table.bind (·.entry sub) with
    | some e => some e
    | none => o.entries.find? (·.sub = sub)

/-- The absent-unit test of R2 on an index: line-port objects of absent ports, fault objects of an absent block,
and on CX and BX the objects of block 20 alone (the claim filter, feeds and claim objects stay present, R1). -/
def absentIndex (id : Ident) (idx : Nat) : Bool :=
  if 0x1000 ≤ idx ∧ idx < 0x1100 then !linePortPresent id (idx - 0x1000)
  else if 0x1100 ≤ idx ∧ idx < 0x1200 then !linePortPresent id (idx - 0x1100)
  else if 0x1400 ≤ idx ∧ idx < 0x1500 then !linePortPresent id (idx - 0x1400)
  else if 0x9000 ≤ idx ∧ idx < 0x9100 then !linePortPresent id (idx - 0x9000)
  else if 0x8001 ≤ idx ∧ idx ≤ 0x8016 then !blockPresent id (idx - 0x8000)
  else if 0x8041 ≤ idx ∧ idx ≤ 0x8056 then !blockPresent id (idx - 0x8040)
  else if idx = 0x7000 then !blockPresent id 20
  else false

/-- Whether source-port number n names a port of the ordering code: line ports present, service ports 0 to 6. -/
def portPresent (id : Ident) (n : Nat) : Bool := if n < 256 then linePortPresent id n else n < 263

/-- The slice in which a source-port number lies (R21). -/
def sliceOf (n : Nat) : Nat := if n < 256 then n / 16 else 16

/-- Instance i of block b lies in a present slice, where the block has one instance in each slice (R15). -/
def slicedPresent (id : Ident) (b i : Nat) : Bool := decide (10 < b ∧ b ≠ 12) || decide (17 ≤ i) || slicePresent id i

/-- Whether a table key belongs to an absent slice or port (R2, R15, R150, R161, R216). -/
def absentKey (id : Ident) (tbl key : Nat) : Bool :=
  match tbl with
  | 0x1200 => !portPresent id (key / 8)
  | 0x1202 => !portPresent id (key / 8)
  | 0x1300 => !portPresent id (key / 8)
  | 0x1802 => !portPresent id (key / 8)
  | 0x9201 => !portPresent id (key / 8)
  | 0x9202 => !portPresent id (key / 8)
  | 0x1201 => !portPresent id key
  | 0x2001 => !portPresent id key
  | 0x2008 => !portPresent id key
  | 0x4302 => !portPresent id key
  | 0x4303 => !portPresent id key
  | 0x7002 => !portPresent id key
  | 0x2101 => !slicePresent id (key / 256)
  | 0x2102 => !slicePresent id (key / 65536)
  | 0x2103 => !slicePresent id (key / 4096)
  | 0x2105 => !slicePresent id (key / 4096)
  | 0x3001 => !slicePresent id (key / 4096)
  | 0x3002 => !slicePresent id (key / 4096)
  | 0x3003 => !slicePresent id (key / 16384)
  | 0x3004 => !slicePresent id (key / 16384)
  | 0x3005 => !slicePresent id (key / 16384)
  | 0x8104 => id.ordering = 2 && 128 ≤ key
  | 0x9200 => !(slicePresent id (key / 17) && slicePresent id (key % 17))
  | _ => if 0x8041 ≤ tbl ∧ tbl ≤ 0x8056 then !slicedPresent id (tbl - 0x8040) key else false

/-- Whether a key lies in its table's stated range, key conditions of the table's own chapter included
(R161: n within its slice; R426: sources that exist; R457: port 260 and 261 above the line ports). -/
def keyOk (t : TableSpec) (tbl key : Nat) : Bool :=
  t.keyLo ≤ key && key ≤ t.keyHi &&
  match tbl with
  | 0x3001 => decide (key % 4096 < (if key / 4096 = 16 then 4096 else 3840))
  | 0x3002 => decide (key % 4096 < (if key / 4096 = 16 then 4096 else 3840))
  | 0x3003 => decide (key % 16384 < (if key / 16384 = 16 then 16384 else 15360))
  | 0x3004 => decide (key % 16384 < (if key / 16384 = 16 then 16384 else 15360))
  | 0x3005 => decide (key % 16384 < (if key / 16384 = 16 then 16384 else 15360))
  | 0x7002 => decide (key < 256 ∨ key = 260 ∨ key = 261)
  | 0x2006 => decide (1 ≤ key / 2 ^ 408 ∧ key / 2 ^ 408 ≤ 3)
  | 0x6101 => decide ((1 ≤ key ∧ key ≤ 273) ∨ (512 ≤ key ∧ key ≤ 1279))
  | _ => true

/-- The default row of a key: the fields' defaults, which for some tables depend on the key
(R130 TC, R133 FID, R426 FUNCTION and VECTOR). -/
def rowDefault (t : TableSpec) (tbl key : Nat) : Row :=
  let base := t.fields.map (·.dflt)
  match tbl with
  | 0x2002 => base.set 0 (.num (key / 8))
  | 0x2003 => base.set 2 (.num key)
  | 0x6103 => (base.set 0 (.num (key / 16))).set 1 (.num (key % 16))
  | _ => base

/-- The position of a field's subindex in a row. -/
def fieldPos (t : TableSpec) (sub : Nat) : Nat := (t.fields.map (·.sub)).idxOf sub

/-- The field of a row at a subindex. -/
def rowField (t : TableSpec) (r : Row) (sub : Nat) : Val := r.getD (fieldPos t sub) (.num 0)

/-- A slot's KIND is known, and its OWNER and SIZE are those its KIND allows (R332, R362). -/
def slotShape (r : Row) : Bool :=
  let n := fun k => (r.getD k (.num 0)).n
  match n 0 with
  | 1 => (n 1 ≤ 63 || n 1 == 0xFF) && 8 ≤ n 3 && n 3 ≤ 9156 && n 3 % 4 == 0
  | 2 => n 1 ≤ 63 && n 3 == 32
  | 3 => n 1 ≤ 63 && 64 ≤ n 3 && n 3 ≤ 1024 && n 3 % 4 == 0
  | 4 => n 1 ≤ 15 && n 3 == 16
  | _ => false

/-- The fields of a recovery context that are set against one another: the advance against the algorithm and the history
(R182), the latent periods (R178), NONE with INDIVIDUAL 1 only (R173), and no member port twice (R186). -/
def recoveryShape (r : Row) : Bool :=
  let n := fun k => (r.getD k (.num 0)).n
  let ms := (upTo 4).map fun k => field (n 7) (16 * k) 16
  let us := ms.filter (· != 0xFFFF)
  n 11 ≤ n 12 && (ms.all fun m => m ≤ 261 || m == 0xFFFF) && us.eraseDups.length == us.length &&
  match n 2 with
  | 0 => n 3 ≤ n 13 && n 13 ≤ 32767
  | 1 => 1 ≤ n 13 && n 13 ≤ 32767
  | _ => n 6 == 1

/-- Port-number operands and conditions that a field's description sets against other fields of the same row (R44):
the kind and number of a destination (R138, R144); VLAN UNTAGGED within MEMBERS (R133); the second TCAM byte type (R144); meter
PIR and PBS (R153); repeated member ports (R186), the advance and latent periods of a recovery context (R178, R182); WRED
thresholds (R212); limit against reserve (R214); ring slots (R332); host DMA channels (R406). -/
def rowOk (tbl : Nat) (r : Row) : Bool :=
  let n := fun k => (r.getD k (.num 0)).n
  match tbl with
  | 0x2003 => (upTo 263).all fun p => !bitSet (r.getD 1 (.oct [])).b p || bitSet (r.getD 0 (.oct [])).b p
  | 0x2007 =>
      let t := ((r.getD 0 (.oct [])).b.getD 0 0).toNat
      1 ≤ t && t ≤ 3 && (if n 6 = 1 then n 7 ≤ 262 else n 6 != 2 || n 7 != 0)
  | 0x2004 => if n 0 = 0 then n 1 ≤ 262 else n 0 != 1 || n 1 != 0
  | 0x2006 => if n 3 = 1 then n 4 ≤ 262 else n 3 != 2 || n 4 != 0
  | 0x2103 => n 0 == 1 || (n 2 ≤ n 4 && 64 ≤ n 5)
  | 0x1801 => [0, 3, 6].all fun k => n k < n (k + 1)
  | 0x1803 => n 0 ≤ n 1 && n 2 ≤ n 3
  | 0x5001 => slotShape r
  | 0x6001 => n 0 == 0 || (n 1 == n 2 && n 4 == 0xFF)
  | 0x3003 => n 1 ≤ 261 && recoveryShape r
  | _ => true

/-- The same conditions for the row of an image (R44). A recovery context's PORT is left to stage 3 (R162), and the limits of
class admission, which R214 reports by class, to the rules over several records. -/
def imageRowOk (tbl : Nat) (r : Row) : Bool :=
  match tbl with
  | 0x1803 => true
  | 0x3003 => recoveryShape r
  | _ => rowOk tbl r

end Sys2Proof.Machine
end

