-- ==== Sys2Proof/Machine/State.lean ====
section
/-!
DEFINITION. The state of the device, unit by unit, as plain data; the fault and refusal reasons; and the state right
after reset. INVENTORY.md lists every piece with the rule that names it.
-/
namespace Sys2Proof.Machine

/-- Reasons a step stops with a fault. No meaning of this model raises one: the device's own faults (R464), aborted
accesses (R49) and halted channels (R404) are next states. Safe: the type is there for the interface only. -/
inductive Fault where
  /-- An access to a location of a unit's memory that the spec says does not exist; no meaning raises it. Safe. -/
  | noSuchLocation
deriving DecidableEq, Repr

/-- Reasons a step is refused. -/
inductive Refusal where
  /-- A command without a meaning yet, by its mnemonic; raised by the dispatch table only. Safe. -/
  | notModelled (mnemonic : String)
deriving DecidableEq, Repr

/-! ## Configuration images -/

/-- A configuration (R80): RWS entries differing from their default, keyed index x 256 + subindex, and the rows of
the staged tables, keyed by table index and then by row key. -/
structure Image where
  entries : AMap Val := []
  tables  : AMap (AMap Row) := []
deriving DecidableEq, Repr, Inhabited

/-- One MRAM bank (R81): the SEAL word's meaning, the bank record's copies, and the bytes of the image. -/
structure Bank where
  sealed  : Bool := false
  crcCopy : Nat := 0
  genCopy : Nat := 0
  image   : Bytes := []
deriving DecidableEq, Repr, Inhabited

/-- One NAP key record (R62, R495). -/
structure KeyRec where
  key     : Bytes := []
  written : Bool := false
  enabled : Bool := false
  rights  : Nat := 0
  paths   : Nat := 0
  rx      : Nat := 0
  tx      : Nat := 0
deriving DecidableEq, Repr, Inhabited

/-- One health checkpoint (R473, R496). -/
structure Checkpoint where
  seq : Nat := 0
  teq : List Nat := []
  dmg : List Nat := []
deriving DecidableEq, Repr, Inhabited

/-- The contents of the MRAM (R495): what no reset clears. `rings` holds the written slots of the replay rings and of the
pair-epoch ring, slot n of ring r at r x 1,024 + n, and `checkpoints` the slots of the health checkpoints (R496); the replay
counters of a key, `pairEpoch` and `checkpoint` are the values that the rings give. -/
structure Mram where
  banks        : List Bank := [{}, {}]
  keys         : List KeyRec := List.replicate 16 {}
  pairEpoch    : Nat := 0
  safeReason   : Nat := 0
  safeDetail   : Nat := 0
  safeTime     : Nat := 0
  safeEntries  : Nat := 0
  checkpoint   : Checkpoint := {}
  cmdResets    : Nat := 0
  rings        : AMap Nat := []
  checkpoints  : AMap Checkpoint := []
deriving DecidableEq, Repr, Inhabited

/-- What brings the device to LOAD (R83): boot selection, a bank named by RELOAD_BANK, or the bank a COMMIT in HOLD
has just written. -/
inductive LoadBy where
  | boot | named (b : Nat) | written (b : Nat)
deriving DecidableEq, Repr, Inhabited

/-- A commit in progress and its results (R89 to R92); `sealDue` is the bank to be sealed after a cutover, and by which core
cycle. -/
structure Commit where
  status : Nat := 0
  reason : Nat := 0
  detail : Nat := 0
  unit   : Nat := 0xFFFFFFFF
  target : Nat := 0
  gen    : Nat := 0
  built  : Bytes := []
  next   : Image := {}
  instant : Nat := 0
  domain : Nat := 0
  atInstant : Bool := false
  lastGen : Nat := 0
  sealDue : Option (Nat × Nat) := none
deriving DecidableEq, Repr, Inhabited

/-- The configuration manager (R80 to R96). -/
structure Cfg where
  running : Image := {}
  older   : Option Image := none
  shadow  : Image := {}
  rw      : AMap Val := []
  loadBy  : LoadBy := .boot
  fallbackUsed : Bool := false
  triedBanks : List Nat := []
  fetched : Option (Nat × Bytes) := none
  lastBank : Option Nat := none
  runningBank : Nat := 0xFF
  passed  : Bool := false
  fallback : Bool := false
  commit  : Commit := {}
  epoch   : Nat := 0
  cutoverTime : Nat := 0
  retireDue : Nat := 0
deriving DecidableEq, Repr, Inhabited

/-- Device state, reset and clocks (R67 to R73, R500 to R509). `railsSince` is the core cycle in which the last rail entered its
range and `resetHold` the first core cycle in which reset may be released: 1 ms later, or 100 µs into a commanded reset
(R507). -/
structure Chip where
  mode  : Mode := .reset
  prev  : Mode := .reset
  entryTime : Nat := 0
  reason : Nat := 0
  reasonDetail : Nat := 0
  reasonUnit : Nat := 0xFFFFFFFF
  startPending : Bool := false
  straps : Nat := 0
  lastCause : Nat := 0
  releaseTime : Nat := 0
  railsSince : Nat := 0
  refclk : Bool := true
  pll    : Nat := 0
  resetDue : Option Nat := none
  resetHold : Nat := 1600000
  safePending : Option (Nat × Nat × Nat) := none
deriving DecidableEq, Repr, Inhabited

/-! ## Object dictionary engine -/

/-- A table object's selection in one access context (R43); bit i of `written` says that field i was written or copied, and
does not stand at its default. -/
structure TblCtx where
  key    : Nat
  fields : Row
  written : Nat := 0
  result : Nat := 0
deriving DecidableEq, Repr, Inhabited

/-- An open segmented transfer (R55 to R58); `ty` is the entry's type code, for the responses of a read. -/
structure Transfer where
  req   : Requester
  trans : Nat
  isWrite : Bool
  ty    : Nat := 0
  idx   : Nat
  sub   : Nat
  total : Nat
  data  : Bytes
  prevOff : Nat
  nextOff : Nat
  due   : Nat
deriving DecidableEq, Repr, Inhabited

/-- A request in the engine's input queue (R40): its path, the PDU as received, and for a frame the addresses and tag
that its response returns to (R52); for a ring message `src` is the sender's NODE_ID, and for a mailbox 1 once a reset of
its function has made its response void (R382). `came` is the core cycle of its arrival. -/
structure NapReq where
  path : Path
  pdu  : Bytes
  came : Nat := 0
  src  : Nat := 0
  vtag : Option Nat := none
deriving DecidableEq, Repr, Inhabited

/-- The window status record of one function (R48). -/
structure Window where
  lastAbort : Nat := 0
  lastFail  : Nat := 0
  failCount : Nat := 0
deriving DecidableEq, Repr, Inhabited

/-- The PCIe mailbox of one function (R379, R380); `resetAt` is the core cycle of its last reset (R382). -/
structure Mailbox where
  request  : Bytes := zeros 1072
  response : Bytes := zeros 1072
  sendLength : Nat := 0
  outstanding : Bool := false
  respValid : Bool := false
  discarded : Bool := false
  sendRefused : Bool := false
  writeIgnored : Bool := false
  respLength : Nat := 0
  resetAt : Option Nat := none
deriving DecidableEq, Repr, Inhabited

/-- The object dictionary engine (R39 to R66). -/
structure Nap where
  ctx   : AMap TblCtx := []
  transfers : List Transfer := []
  queue : List NapReq := []
  localCount : List Nat := [0, 0, 0, 0]
  window : List Window := [{}, {}, {}, {}]
  mbox   : List Mailbox := [{}, {}, {}, {}]
deriving DecidableEq, Repr, Inhabited

/-! ## Frames and fabric -/

/-- The fields of a carriage header (R18). -/
structure Carriage where
  check  : Nat := 0
  stampNs : Nat := 0
  stampFrac : Nat := 0
  stampDomain : Nat := 0
  tc     : Nat := 0
  colour : Nat := 0
  kind   : Nat := 0
  egress : Nat := 0
  handle : Nat := 0
  seq    : Nat := 0
  epoch  : Nat := 0
  length : Nat := 0
  source : Nat := 0
  ptpOffset : Nat := 0
  streamValid : Bool := false
  seqValid : Bool := false
  ptpEvent : Bool := false
  ipv6Udp : Bool := false
  ect : Bool := false
  rtagIn : Bool := false
  pairTagIn : Bool := false
  mgmt : Bool := false
deriving DecidableEq, Repr, Inhabited

/-- What the ingress decision leaves for the received-and-checked instant (R149, R167): the matched filter, the
gate interval of the decision (gate key, interval start, octet maximum), and the FDB key of the source address with
whether R135 learns it, and the counter (port, subindex) of a frame that R137 leaves no port. -/
structure Late where
  filter : Option Nat := none
  gate   : Option (Nat × Nat × Nat) := none
  src    : Option Nat := none
  learn  : Bool := false
  emptied : Option (Nat × Nat) := none
deriving DecidableEq, Repr, Inhabited

/-- Where one crosspoint holds a frame (R192, R193): the crosspoint, the chain, the start offset in the first cell, the
cells it touches, whether it holds the chain's tail, the member ports with their MARK_CE, and the reference count. -/
structure Placed where
  xp    : Nat
  chain : Nat
  offset : Nat
  cells : List Nat
  holds : Bool
  members : List (Nat × Bool)
  refs  : Nat := 0
deriving DecidableEq, Repr, Inhabited

/-- A frame between reception and linking (R25, R26): its bytes without the FCS; the eight domains at its timestamp
point in quarter nanoseconds (R260) and the steps each had applied by then (R270); the claim of a pair tag that passed the filter
(group, claim, announce); the stamp tag of a host
descriptor (R275); for a frame still arriving, when the last byte of its parse window came, in picoseconds of core-clock
time; whether the MAC has discarded it, which holds its cells until it is received and checked (R194); and what the decision
has found. -/
structure Inflight where
  bytes : Bytes
  source : Nat
  stamps : List Nat
  steps : List Nat
  claim : Option (Nat × Nat × Bool × Bool) := none
  hostTag : Option Nat := none
  reassembled : Bool := false
  since : Option Nat := none
  lost : Bool := false
  decided : Bool := false
  discarded : Bool := false
  hdr : Carriage := {}
  late : Late := {}
  placed : List Placed := []
deriving DecidableEq, Repr, Inhabited

/-- A stored, linked frame (R23, R193). -/
structure Stored where
  bytes : Bytes
  hdr : Carriage
  steps : List Nat
  checkedAt : Nat
  hostTag : Option Nat := none
  announce : Bool := false
  placed : List Placed
deriving DecidableEq, Repr, Inhabited

/-- A frame reference in an egress queue (R193). -/
structure Ref where
  frame : Nat
  markCe : Bool
  linkedAt : Nat
  waited : Bool := false
deriving DecidableEq, Repr, Inhabited

/-- One allocated cell (R194, R195): the class charged and the frames in it. -/
structure Cell where
  tc    : Nat
  count : Nat
deriving DecidableEq, Repr, Inhabited

/-- A chain's tail (R192): its cell and byte, and the frame that holds it while being received. -/
structure Tail where
  cell : Nat
  off  : Nat
  holder : Option Nat
deriving DecidableEq, Repr, Inhabited

/-- The stage of a fence (R207). -/
inductive Fence where
  | none | fenced | unlinked | permanent
deriving DecidableEq, Repr, Inhabited

/-- One crosspoint (R191 to R197, R207): allocated cells, chain tails, the least number of free cells since reset,
the fence and the core cycle of the last parity error. -/
structure XPoint where
  cells : AMap Cell := []
  tails : AMap Tail := []
  minFree : Option Nat := none
  fence : Fence := .none
  lastError : Option Nat := none
deriving DecidableEq, Repr, Inhabited

/-- One egress queue (R193, R201, R223, R226): references in order, the average depth with 16 fraction bits, the
deficit, the shaper value in 2^-32 byte. -/
structure Queue where
  refs : List Ref := []
  avg  : Nat := 0
  deficit : Nat := 0
  shaper : Int := 0
  servedAt : Option Nat := none
deriving DecidableEq, Repr, Inhabited

/-- DRR state of a port (R223). -/
structure Drr where
  ptr : Nat := 7
  visit : Bool := true
deriving DecidableEq, Repr, Inhabited

/-- The fabric and the egress queues. -/
structure Fabric where
  nextId : Nat := 0
  inflight : AMap Inflight := []
  frames : AMap Stored := []
  xps    : AMap XPoint := []
  queues : AMap Queue := []
  drr    : AMap Drr := []
  lfsr   : List Nat := List.replicate 34 1
  avgAt  : Nat := 0
deriving DecidableEq, Repr, Inhabited

/-! ## Ports -/

/-- A frame selected for transmission and not yet gone (R221, R224): its reference and the frame it refers to, the S_TPID
of its epoch (R20), the edited bytes and what the edits shifted, the charged length, the start of its preamble (for a
preemptable frame, of the present fragment) and the instant of its timestamp point at the balls (R259), both in picoseconds
of core-clock time; TX_DELAY, the PTP treatment and TX_RECORDS in force at its selection (R266, R282), whether a residence
adds the link delay (`peer`, R269), and the departure stamp in quarter nanoseconds of its stamp domain once that instant
has passed; what the reads of its bytes have found (R204); for a preemptable frame whether a fragment is in transmission
(`active`), the data bytes of the earlier fragments, their number, the frame count of R114, whether R120 ends it, and the
data bytes at which the present fragment stops, with whether a closing stops it (R302). -/
structure Tx where
  tc    : Nat
  ref   : Ref
  frame : Stored
  tpid  : Nat
  bytes : Bytes
  shift : Int := 0
  charged : Nat
  start : Nat
  departs : Nat
  delay : Int := 0
  stamp : Option Nat := none
  treatment : Nat := 0
  peer  : Bool := false
  record : Bool := false
  noEdit : Bool := false
  rtag : Bool := false
  pairTag : Bool := false
  shadow : Bool := false
  overrun : Bool := false
  reads : ReadBack := {}
  ended : Bool := false
  active : Bool := true
  sent  : Nat := 0
  frags : Nat := 0
  count : Nat := 0
  stopAt : Option (Nat × Bool) := none
deriving DecidableEq, Repr, Inhabited

/-- What the MAC has handed to the PCS while its departure stamp is still to come (R259, R287): a whole frame, or a
fragment of a preemptable frame; the last piece of a frame carries whether its carriage check failed. -/
structure Piece where
  tx   : Tx
  pre  : Bool := false
  len  : Nat := 0
  last : Bool := true
  bad  : Bool := false
deriving DecidableEq, Repr, Inhabited

/-- A preemptable frame under reassembly (R118): its frame count, the next fragment count, the bytes so far, and the
stamps and step counts of its start fragment (R262, R270). -/
structure Asm where
  count : Nat
  next  : Nat
  bytes : Bytes
  stamps : List Nat
  steps : List Nat
deriving DecidableEq, Repr, Inhabited

/-- The dynamic state of a line or management port (R103 to R121). `fault` is 0 no lock, 1 none, 3 local, 4 remote
fault; `shown` the LINK_STATE that its hold times have let through. A pause received in core cycle `pauseAt` acts from the
next one to before `pauseUntil`, an earlier one to before `pauseWas` (R219); `owed` holds the verify (true) and respond
frames still to be sent (R117), `leaving` what awaits its departure stamp. -/
structure Port where
  up     : Bool := false
  changedAt : Nat := 0
  fault  : Nat := 0
  shown  : Nat := 0
  fec    : Nat := 0
  ability : Nat := 0
  pauseAt : Nat := 0
  pauseWas : Nat := 0
  pauseUntil : Nat := 0
  owed   : List Bool := []
  leaving : List Piece := []
  verify : Nat := 0
  verifySent : Nat := 0
  verifyDue : Nat := 0
  hold   : Bool := false
  asm    : Option Asm := none
  tx     : Option Tx := none
  pre    : Option Tx := none
  freeAt : Nat := 0
  txCount : Nat := 0
deriving DecidableEq, Repr, Inhabited

/-! ## Classification, policing, FRER -/

/-- A learned FDB entry (R138 to R142): source port, HIT, way of its bucket. -/
structure Learned where
  port : Nat
  hit  : Bool
  way  : Nat
deriving DecidableEq, Repr, Inhabited

/-- A learn request (R139, R140): FDB key, source port, the core cycle the frame was received and checked. -/
structure LearnReq where
  key : Nat
  port : Nat
  at_ : Nat
deriving DecidableEq, Repr, Inhabited

/-- The filtering database (R138 to R142): learned entries, the ways of the static rows, waiting learn requests, the
port of a flush in progress (0xFFFF every port) and the core cycle of the next sweep. -/
structure Fdb where
  learned : AMap Learned := []
  staticWay : AMap Nat := []
  requests : List LearnReq := []
  flush : Option Nat := none
  sweepDue : Nat := 0
deriving DecidableEq, Repr, Inhabited

/-- A stream gate's state (R151, R152): LATCHED and the octets counted per interval start. -/
structure SGate where
  latched : Nat := 0
  octets  : List (Nat × Nat) := []
deriving DecidableEq, Repr, Inhabited

/-- A meter's token counts in 2^-32 byte (tc, then te or tp) and its last update (R154). -/
structure Meter where
  tc : Nat
  te : Nat
  last : Nat
deriving DecidableEq, Repr, Inhabited

/-- Per-stream filtering and policing (R131, R147 to R156). -/
structure Psfp where
  portState : AMap Nat := []
  blocked : AMap Bool := []
  gates   : AMap SGate := []
  meters  : AMap Meter := []
deriving DecidableEq, Repr, Inhabited

/-- A gate control list as built for a port (R286, R288): its domain, base, cycle and extension, and the entries
(operation, gate states, interval). -/
structure GList where
  domain : Nat
  base : Nat
  cycle : Nat
  ext : Nat
  entries : List (Nat × Nat × Nat)
deriving DecidableEq, Repr, Inhabited

/-- The gate engine of one port (R289 to R305). `anchor` is a cycle start of the list in force, `started` is false
while PRE_BASE_STATES apply, `late` the cycle start that ends a late interval, `pending` a list and its X, `stretch` the
old cycle start that is not begun before X (R298), `onChip` the complete pages of a list and `requested` those under way
(page, deadline), `slots` what the page slots hold (R291), `staged` the staging slot (R297), `master` and `pendingMaster` the
addresses of the master copies of the list in force and of the pending one (R291, R493). -/
structure Gate where
  list : Option GList := none
  anchor : Nat := 0
  started : Bool := false
  late : Option Nat := none
  pending : Option (GList × Nat) := none
  stretch : Option Nat := none
  entry : Nat := 0xFFFFFFFF
  states : Nat := 0xFF
  hold : Bool := false
  onChip : List Nat := []
  requested : List (Nat × Nat) := []
  slots : List (Nat × List (Nat × Nat × Nat)) := []
  staged : List (Nat × Nat × Nat) := []
  master : Nat := 0
  pendingMaster : Nat := 0
deriving DecidableEq, Repr, Inhabited

/-- A member state of individual recovery (R177). `timerAt` is the core cycle of the last restart of its reset timer and
`timerOn` whether the timer runs; `holdUntil` is the end of the hold of R181. -/
structure Member where
  recov : Nat := 0
  takeAny : Bool := true
  guard : Bool := false
  timerAt : Nat := 0
  timerOn : Bool := false
  holdUntil : Nat := 0
deriving DecidableEq, Repr, Inhabited

/-- A recovery context (R174 to R178, R181); `resetMark` notes a reset since the last snapshot (R447). -/
structure Recov where
  recov : Nat := 0
  takeAny : Bool := true
  history : List Bool := []
  guard : Bool := false
  timerAt : Nat := 0
  timerOn : Bool := false
  holdUntil : Nat := 0
  members : List Member := [{}, {}, {}, {}]
  pw : Nat := 0
  dw : Nat := 0
  latentError : Bool := false
  testAt : Nat := 0
  latentResetAt : Nat := 0
  resetMark : Bool := false
deriving DecidableEq, Repr, Inhabited

/-- The FRER engine: GEN_SEQ_NUM by key for the running and for the older epoch, and the recovery contexts. -/
structure Frer where
  gens : AMap Nat := []
  olderGens : AMap Nat := []
  genMarks : List Nat := []
  recs : AMap Recov := []
deriving DecidableEq, Repr, Inhabited

/-! ## Time -/

/-- A time domain (R238 to R251). Offsets are in 2^-16 ns; `corr` is the net offset correction that adjustment windows
and offset steps have applied, in 2^-32 ns (R345, R350). -/
structure Domain where
  enabled : Bool := false
  value : Time96 := 0
  inc   : Increment := 0x0100000000
  incNext : List (Increment × Nat) := []
  adjInc : Increment := 0x0100000000
  adjLeft : Nat := 0
  adjOpen : Bool := false
  adjNext : List (Increment × Nat × Nat) := []
  step  : Option (Bool × Time96 × Nat) := none       -- absolute?, value, due tick
  mode  : Nat := 0
  stepUsed : Bool := false
  steps : Nat := 0                                    -- steps applied since reset (R270)
  good  : Nat := 0
  bad   : Nat := 0
  locked : Bool := false
  integ : Int := 0
  lastOffset : Int := 0
  measuredAt : Nat := 0
  stepRefused : Bool := false
  rateRefused : Bool := false
  lockLost : Bool := false
  steppedOver : Bool := false
  ppsMissing : Bool := false
  adjHi : Nat := 1                                    -- ADJ_INCREMENT_HI (R258)
  kind : Bool := false                                -- KIND of STEP_CTRL (R258)
  lastPps : Option Nat := none
  corr : Int := 0
deriving DecidableEq, Repr, Inhabited

/-- The latches and staged words of one function for one domain (R241, R242, R258). -/
structure FnTime where
  latchNs : Nat := 0
  incLo : Nat := 0
  adjLo : Nat := 0
  stepFrac : Nat := 0
  stepLo : Nat := 0
  stepHi : Nat := 0
deriving DecidableEq, Repr, Inhabited

/-- A PPS output (R248): its level, when its pulse ends, and the last second number reached. -/
structure PpsOut where
  active : Bool := false
  endAt : Nat := 0
  last : Int := 0
deriving DecidableEq, Repr, Inhabited

/-- The time base unit; `ppsSeen` is the core cycle of the last edge that each PPS_IN passed (R247). -/
structure TimeBase where
  domains : List Domain := { enabled := true, locked := true } :: List.replicate 7 {}
  fn : AMap FnTime := []
  pps : List PpsOut := [{}, {}]
  ppsSeen : List (Option Nat) := [none, none]
deriving DecidableEq, Repr, Inhabited

/-- A Tine FIFO (R276 to R278): records oldest first, RECORD_SEQ, records lost since the last OVERFLOW record, LOST,
OVERFLOWED, and the CONTROL fields; `since` is the core cycle since which LEVEL has stayed between 1 and BATCH; `fresh` holds the
(KIND, PORT) of the records that entered in core cycle `freshAt`. -/
structure Fifo where
  records : List Bytes := []
  seq : Nat := 0
  lostNow : Nat := 0
  lost : Nat := 0
  overflowed : Bool := false
  drain : Bool := false
  batch : Nat := 7
  watermark : Nat := 2048
  since : Option Nat := none
  freshAt : Nat := 0
  fresh : List (Nat × Nat) := []
deriving DecidableEq, Repr, Inhabited

/-! ## Interrupts, faults, health -/

/-- An interrupt source (R412, R413, R426); `seenAt` is the core cycle from which the scan sees it pending (R416). -/
structure IntSource where
  enable : Bool := false
  level : Nat := 0
  target : Nat := 0
  pending : Bool := false
  count : Nat := 0
  seenAt : Nat := 0
deriving DecidableEq, Repr, Inhabited

/-- A source group (R420, R421): HOLDOFF and, while the timer runs, the core cycle at which it expires. -/
structure IntGroup where
  holdoff : Nat := 0
  runs : Option Nat := none
deriving DecidableEq, Repr, Inhabited

/-- A target (R414 to R419). -/
structure IntTarget where
  function : Nat := 0
  vector : Nat := 0
  pin : Bool := false
  mode : Nat := 0
  threshold : Nat := 0
  mask : Bool := true
  sleep : Bool := false
  stack : List (Nat × Nat) := []
  underflow : Bool := false
  request : Bool := false
deriving DecidableEq, Repr, Inhabited

/-- The event matrix and the interrupt controller: pulses issued and not yet acted (line, core cycle), and the
targets that a CLAIM, an end of interrupt or a PENDING clear of this core cycle acted on (R417). -/
structure Intc where
  pulses : List (Nat × Nat) := []
  sources : AMap IntSource := []
  groups : AMap IntGroup := []
  targets : List IntTarget := (upTo 64).map fun t => { function := t / 16, vector := t % 16 }
  acted : List Nat := []
deriving DecidableEq, Repr, Inhabited

/-- A fault instance (R462): STATUS, the history queue oldest first, LOST; `fresh` of the entries, the last ones, were written in
core cycle `freshAt`. -/
structure FaultInst where
  status : Nat := 0
  hist : List Nat := []
  lost : Nat := 0
  freshAt : Nat := 0
  fresh : Nat := 0
deriving DecidableEq, Repr, Inhabited

/-- The health monitor (R469 to R473). Readings are in 0.125 degC; `teq` in thousandths of an equivalent second, `dmg` in
thousandths of a damage second, `running` that ALIVE toggles, `af` and `wear` in thousandths (DESIGN CHOICE, log entry 10); `checkAt` is the core cycle of the last
checkpoint; `aged` and `worn` are the monitors and rails that have reached their limit. -/
structure Health where
  sensors : List (Int × Bool) := List.replicate 32 (0, false)
  tj : Int := 0
  hottest : Nat := 0
  hotRun : Nat := 0
  alarm : Bool := false
  droop : Bool := false
  marginLow : Bool := false
  ageingLimit : Bool := false
  emLimit : Bool := false
  eolAlert : Bool := false
  alive : Bool := false
  running : Bool := false
  aliveStopped : Bool := false
  deg : List Nat := List.replicate 64 0
  teq : List Nat := List.replicate 64 0
  af : List Nat := List.replicate 64 0
  dmg : List Nat := List.replicate 8 0
  aged : List Nat := []
  worn : List Nat := []
  wear : List Nat := List.replicate 8 0
  margins : AMap (List Nat) := []
  eolHours : Nat := 0xFFFFFFFF
  eolCause : Nat := 0
  checkAt : Nat := 0
deriving DecidableEq, Repr, Inhabited

/-! ## PCI Express -/

/-- One MSI-X table entry (R373): address, data, mask bit. -/
structure MsixEntry where
  addr : Nat := 0
  data : Nat := 0
  masked : Bool := true
deriving DecidableEq, Repr, Inhabited

/-- Advanced Error Reporting of one function (R368, R376): status, mask and severity of the uncorrectable errors, status and
mask of the correctable ones, ECRC generation and check, the first error reported and its header log. -/
structure Aer where
  unc : Nat := 0
  uncMask : Nat := 0x00400000
  uncSev : Nat := 0x00462030
  cor : Nat := 0
  corMask : Nat := 0x0000E000
  ecrcGen : Bool := false
  ecrcChk : Bool := false
  first : Nat := 0
  header : List Nat := [0, 0, 0, 0]
deriving DecidableEq, Repr, Inhabited

/-- One physical function (R367 to R383): its configuration space, MSI-X table and host registers. `wakeSeen` is that the
wake condition now standing has been taken into account (R375). -/
structure Pf where
  bme : Bool := false
  mse : Bool := false
  msixEnable : Bool := false
  msixMask : Bool := false
  d3 : Bool := false
  pmeEnable : Bool := false
  pmeStatus : Bool := false
  tag10 : Bool := false
  extTag : Bool := false
  mps : Nat := 128
  mrrs : Nat := 512
  bars : List Nat := [0, 0, 0]
  aspmL1 : Bool := false
  ctoRange : Nat := 0
  ctoOff : Bool := false
  errEnable : Nat := 0
  devStatus : Nat := 0
  aer : Aer := {}
  wakeSeen : Bool := false
  table : AMap MsixEntry := []
  pending : AMap Bool := []
  writeDenied : Bool := false
  badAccess : Bool := false
  timeout : Bool := false
  poisoned : Bool := false
  scratch : Nat := 0
  reads : Nat := 0
deriving DecidableEq, Repr, Inhabited

/-- The PCIe link and functions. -/
structure Pcie where
  perst : Bool := true
  linkUp : Bool := false
  width : Nat := 0
  speed : Nat := 0
  cfgReady : Bool := false
  since : Nat := 0
  wakeN : Bool := true
  pmeAt : List Nat := [0, 0, 0, 0]
  pfs : List Pf := [{}, {}, {}, {}]
deriving DecidableEq, Repr, Inhabited

/-! ## Memory, clocks, TAP -/

/-- One LPDDR4X channel (R489, R492, R499). -/
structure Channel where
  refreshRate : Nat := 0
  lastError : Nat := 0
deriving DecidableEq, Repr, Inhabited

/-- The memory controller (R486 to R494): topology as MR8 reported it, TRAINED and whether training has ended since reset, the data bytes and the scrub position. -/
structure Mem where
  density : Nat := 0
  ranks : Nat := 0
  trained : Nat := 0
  trainDone : Bool := false
  cells : List Host.Cell := []
  channels : List Channel := List.replicate 8 {}
  scrubPos : Nat := 0
deriving DecidableEq, Repr, Inhabited

/-- SYNCE_CLK outputs squelched (R503), the TAP's instruction register and whether it controls the pins (R506, R526), and the
latches of the boundary register, cell n in bit n (R525). -/
structure Pins where
  squelched : List Bool := [true, true]
  tapIr : Nat := 1
  tapControl : Bool := false
  boundary : BitVec 1944 := 0
deriving DecidableEq, Repr, Inhabited

/-! ## DMA engine -/

/-- A request on a request line (R398, R399): the core cycle of its pulse, the byte count of a Tine request, and for a
paging request its port, page and quarter with its deadline (domain, instant). -/
structure Req where
  at_ : Nat
  bytes : Nat := 0
  page : Option (Nat × Nat × Nat) := none
  deadline : Option (Nat × Nat) := none
deriving DecidableEq, Repr, Inhabited

/-- A descriptor as read (R388): its address and space, two 64-bit words, CTRL, AUX and the last word. -/
structure Desc where
  addr : Nat
  host : Bool
  w0 : Nat
  w1 : Nat
  ctrl : Nat
  aux : Nat
  w3 : Nat
deriving DecidableEq, Repr, Inhabited

/-- What a burst moves (R385, R393, R405): data of a descriptor from one address to another, offsets of an index table,
bytes of a transmit frame, a zero-length barrier read, or a quarter of a gate page. -/
inductive Move where
  | data (srcHost : Bool) (src : Nat) (dstHost : Bool) (dst : Nat)
  | table (host : Bool) (addr : Nat)
  | frame (addr : Nat)
  | page (port page quarter : Nat)
deriving DecidableEq, Repr, Inhabited

/-- A burst whose tag is held (R386): its channel, offset in its descriptor's data or table, length, move, issue cycle,
arrived data, bytes taken from a Tine FIFO, the address of its descriptor where its tag waits for a barrier, whether its write is issued, and whether its channel aborted it. -/
structure Burst where
  chan : Nat
  off : Nat := 0
  len : Nat
  move : Move
  at_ : Nat
  data : Option Bytes := none
  pre : Bytes := []
  fn : Nat := 0
  tlps : Nat := 0
  owner : Nat := 0
  written : Bool := false
  aborted : Bool := false
deriving DecidableEq, Repr, Inhabited

/-- A transmit frame under construction (R400): its bytes so far, STAMP_TAG, the descriptors read, their total LENGTH,
whether it is to be discarded, and whether its LAST descriptor has been read. -/
structure TxFrame where
  bytes : Bytes := []
  tag : Option Nat := none
  descs : List Desc := []
  size : Nat := 0
  bad : Bool := false
  ready : Bool := false
deriving DecidableEq, Repr, Inhabited

/-- A descriptor whose data writes are issued (R396, R397): what its writeback stores (bytes 8 to 15, the word at 20,
CTRL), the space of its data, and its stage: 0 awaiting its barrier, 1 to be written back, 2 awaiting the arrival of
CTRL; `since` is the core cycle of that stage, `fn` the function of a barrier read in host space and `asked` that the read
limit has let it go out (R376). -/
structure Fin where
  desc : Desc
  host : Bool := true
  fn : Nat := 0
  stamp : Option Nat := none
  word : Option Nat := none
  ctrl : Nat
  stage : Nat
  since : Nat
  asked : Bool := true
deriving DecidableEq, Repr, Inhabited

/-- A DMA channel's registers and progress (R389 to R404, R409). `fetching` is the core cycle of an outstanding
descriptor read and `fetchFn` the function whose read limit it counts against, `sumKind` the SUM that SUM_STATE shows, `desc` the descriptor in hand, `resume` that the descriptor at CUR_DESC is read again to go on from the
registers, `next` and `tableNext` count the bytes whose reads are issued, `window` holds a receive channel's descriptors
read ahead, `held` those given to a selected frame, `placing` the descriptors of a delivered frame that wait for a barrier
before them with their bytes, `fin` those on their way to the writeback. `wants` is a descriptor read that waits for the read
limit (R376), `reread` that the descriptor is read again once the open bursts are written (R402). -/
structure Chan where
  ringBase : Nat := 0
  ringSize : Nat := 1
  ringHost : Bool := true
  state : Nat := 0
  pause : Bool := false
  cur : Nat := 0
  curHost : Bool := true
  fetching : Option Nat := none
  fetchFn : Option Nat := none
  desc : Option Desc := none
  resume : Bool := false
  waitSw : Bool := false
  next : Nat := 0
  done : Nat := 0
  tableNext : Nat := 0
  table : List Nat := []
  crc : Nat := 0xFFFFFFFF
  ones : Nat := 0
  odd : Option Nat := none
  sumKind : Nat := 0
  error : Nat := 0
  errAddr : Nat := 0
  hops : Nat := 0
  completed : Nat := 0
  poll : Nat := 0
  pollAt : Nat := 0
  frame : Option TxFrame := none
  window : List Desc := []
  held : List Desc := []
  placing : List (Fin × Bytes) := []
  fin : List Fin := []
  wants : Bool := false
  reread : Bool := false
deriving DecidableEq, Repr, Inhabited

/-- The DMA engine: channels 0 to 30, bursts by tag, the round-robin position of each priority, pending requests by
line, and requests pulsed and not yet received. -/
structure Dma where
  chans : List Chan := List.replicate 31 {}
  bursts : AMap Burst := []
  turn : List Nat := List.replicate 8 0
  lines : AMap (List Req) := []
  owed : List (Nat × Req) := []
deriving DecidableEq, Repr, Inhabited

/-! ## Feeds and pairing -/

/-- The feed supervision (R424, R428 to R430): filtered levels, the core cycles of their last accepted changes, sticky losses, the short condition, shedding, and since
when the device has been out of the short condition. -/
structure Feeds where
  aOk : Bool := false
  bOk : Bool := false
  aAt : Option Nat := none
  bAt : Option Nat := none
  aLost : Bool := false
  bLost : Bool := false
  short : Bool := false
  shedding : List Nat := []
  okSince : Option Nat := none
deriving DecidableEq, Repr, Inhabited

/-- What the last valid heartbeat of the partner showed (R435, R436). -/
structure Partner where
  claim : Nat := 0
  flags : Nat := 0
  group : Nat := 0
  rank : Nat := 0
  state : Nat := 0xFF
  applied : Nat := 0
  seq : Nat := 0
deriving DecidableEq, Repr, Inhabited

/-- A digest of one cycle (R452): number of records and sum of their CRCs. -/
structure Digest where
  cycle : Nat
  count : Nat
  sum : Nat
deriving DecidableEq, Repr, Inhabited

/-- A copy being received (R449): its number, and the body of each frame by FRAME_SEQ. -/
structure CopyRx where
  num : Nat
  frames : List (Nat × Bytes) := []
deriving DecidableEq, Repr, Inhabited

/-- A snapshot being sent (R446, R448): its number, whether it carries every entry, its entries (KIND x 2^32 + KEY, with
1 where the record carries RESET), the bytes of its copy-data frames' records and whether a lane carried them. -/
structure CopyTx where
  num : Nat
  full : Bool
  entries : List (Nat × Nat)
  frames : List Bytes
  sent : Bool := true
deriving DecidableEq, Repr, Inhabited

/-- The pairing unit (R431 to R454). `carried` holds, for each copied entry, the value last carried by a snapshot:
an entry is dirty while its value differs from it; `lastEnd` is the copy whose end came last, `roleAt` the core cycle of
the last change of role, `partnerAt` that of the last change of the partner's role or STATE. `taking` is set once a takeover is triggered;
`higherAt` is the core cycle of the last higher claim received (R438); `best` holds best[g] and seen[g] of R443. -/
structure Pair where
  lanes : List Bool := [false, false]
  role : Nat := 0
  claim : Nat := 0
  seen : Nat := 0
  partner : Option Partner := none
  heardAt : Option Nat := none
  readyAt : Option Nat := none
  hbCount : Nat := 0
  hbAt : Nat := 0
  yield : Bool := false
  taking : Bool := false
  ready : Bool := false
  applied : Nat := 0
  takeoverTime : Nat := 0
  events : Nat := 0
  carried : AMap Bytes := []
  sweep : Nat := 0
  sendFull : Bool := true
  tx : Option CopyTx := none
  rx : Option CopyRx := none
  mirror : AMap Bytes := []
  copyLast : Option Nat := none
  lastEnd : Option Nat := none
  roleAt : Nat := 0
  partnerAt : Nat := 0
  open_ : List Digest := []
  digest : Option Digest := none
  partnerDigest : Option Digest := none
  comparedLast : Option Nat := none
  spanFrom : Nat := 0
  disturbed : Option Nat := none
  best : AMap (Nat × Nat) := []
  announceAt : Nat := 0
  higherAt : Option Nat := none
deriving DecidableEq, Repr, Inhabited

/-! ## Triggers and event inputs -/

/-- A placed pulse of a trigger output: its edges at the ball in quarter nanoseconds of the time clock (R315, R316), and whether
its active level is high. -/
structure Pulse where
  on : Int := 0
  off : Int := 0
  high : Bool := true
deriving DecidableEq, Repr, Inhabited

/-- A trigger's progress (R312 to R318): STATE (0 parked, 1 waiting for a start, 2 running, 3 finished), the index of the
armed instant and the instants left (0 unlimited) of the grid or burst, the armed instant in quarter nanoseconds of its
domain, the starts owed and not yet taken, a start that came in the tick of the burst's last instant, the pulses placed and
not yet ended, and of these how many belong to instants that have not fired yet. -/
structure Trigger where
  state : Nat := 0
  j : Nat := 0
  left : Nat := 0
  armed : Option Nat := none
  starts : Nat := 0
  again : Bool := false
  pulses : List Pulse := []
  issued : Nat := 0
  skippedBit : Bool := false
deriving DecidableEq, Repr, Inhabited

/-- An event input (R320 to R322): the pin's level, the accepted level, the changes under the filter, oldest first (each with
its instant in quarter nanoseconds of each domain, its core cycle and the new level), the core cycle and quarter of the last captured change, the
capture registers, and the last capture lost while VALID (its core cycle, direction and stamp; R322 step 3). -/
structure EvIn where
  pin : Bool := false
  level : Bool := false
  changes : List (List Nat × Nat × Bool) := []
  lastCapture : Option Nat := none
  valid : Bool := false
  rising : Bool := false
  sec : Nat := 0
  nsec : Nat := 0
  overrun : Nat := 0
  lostAt : Option (Nat × Bool × Nat) := none
deriving DecidableEq, Repr, Inhabited

/-- The time-trigger unit: outputs 0 to 31, internal triggers 32 to 95, event inputs 0 to 15. -/
structure Trig where
  trigs : AMap Trigger := []
  evin : AMap EvIn := []
deriving DecidableEq, Repr, Inhabited

/-! ## The Herd Ring -/

/-- A node's current master (R348): MASTER_RANK, RING_ADDRESS, NODE_ID. -/
structure Master where
  rank : Nat
  addr : Nat
  id : Nat
deriving DecidableEq, Repr, Inhabited

/-- A ring port (R337, R358): its link, IN_USE, and the core cycle since which the link has been up. -/
structure RingPort where
  link : Bool := false
  inUse : Bool := false
  upSince : Nat := 0
deriving DecidableEq, Repr, Inhabited

/-- A ring frame in transmission (R337): the port, its bytes, and the core cycle at which it has left. -/
structure RingTx where
  port : Nat
  bytes : Bytes
  ends : Nat
deriving DecidableEq, Repr, Inhabited

/-- A copy of the master's own frame that it keeps (R344): its DIRECTION, the port it arrived on, its bytes, whether its
FCS was good, and the core cycle at which its reception ends. -/
structure Kept where
  dir : Nat
  port : Nat
  bytes : Bytes
  good : Bool
  ends : Nat
deriving DecidableEq, Repr, Inhabited

/-- A message from one mailbox sender (R354): MSG_SEQ, the last chunk stored, the bytes, the own cycle of the last chunk,
and whether it has been delivered. -/
structure MailIn where
  seq : Nat
  chunk : Nat
  data : Bytes
  cycle : Nat
  done : Bool := false
deriving DecidableEq, Repr, Inhabited

/-- What the device saw of a node in the last processed frame (R363). -/
structure HerdNode where
  visited : Nat := 0
  offset : Nat := 0
  rate : Nat := 0
  flags : Nat := 0
  inAverage : Bool := false
deriving DecidableEq, Repr, Inhabited

/-- The Herd Ring controller (R327 to R364). Cycles are held as the index (NS - RING_BASE) div CYCLE_TIME, of which the
cycle number is the low 32 bits. `cycleNow` is the last own cycle start; `layout` and `layoutId` are those in force; `d`
is D of R349 in 2^-16 ns; `loop` is the L last measured as master and `loopShown` the LOOP_DELAY last received or published;
`stamps` holds (cycle number, DIRECTION, stamp) of the copies of R349; `corrAt` and
`adjusted` give the net offset correction at and between own cycle starts in 2^-32 ns; `prevO` is the reading written last
with its cycle; `written` holds each own data slot's payload last written; `sent` the DIRECTIONs of the copies sent in the
present cycle; `lastSlots` the slot area of the last frame and `lastLayout` its layout; `sending` the frames in transmission;
`assembled` the next frame and whether it is null; `cps` the
cycle of each armed cycle point. -/
structure Herd where
  role : Nat := 0
  ports : List RingPort := [{}, {}]
  cycleNow : Option Nat := none
  current : Option Master := none
  silence : Nat := 0
  heard : Bool := false
  bids : Nat := 0
  layout : AMap Row := []
  layoutId : Nat := 0
  dValid : Bool := false
  d : Int := 0
  loop : Option Nat := none
  loopShown : Nat := 0xFFFFFFFF
  stamps : List (Nat × Nat × Nat) := []
  corrAt : Int := 0
  adjusted : Int := 0
  prevO : Option (Nat × Int) := none
  processed : List Nat := []
  ready : List Nat := []
  written : AMap Bytes := []
  txMem : List Host.Cell := []
  banks : List Bytes := [[], []]
  bank : Nat := 0
  kept : List Kept := []
  sent : List Nat := []
  lastSlots : Bytes := []
  lastLayout : AMap Row := []
  sending : List RingTx := []
  assembled : Option (Bytes × Bool) := none
  nodes : AMap HerdNode := []
  mailOut : List (Nat × Bytes) := []
  mailSeq : Nat := 0
  mailChunk : Nat := 0
  mailSince : Nat := 0
  mailIn : AMap MailIn := []
  acks : List (Nat × Nat × Nat × Nat) := []
  cps : AMap Nat := []
deriving DecidableEq, Repr, Inhabited

/-! ## Outputs and the whole state -/

/-- What the device emits. The list `out` of the state records it, newest first; it is the model's own record of the
device's answers, frames, messages and writes. -/
inductive OutEvent where
  | answer (req : Requester) (code : Nat) (v : Option Val)
  | window (f code : Nat) (b : Bytes)
  | reg (f off v : Nat)
  | nap (path : Path) (pdu : Bytes)
  | frame (port : Nat) (b : Bytes) (stomped : Bool)
  | fragment (port : Nat) (smd : Smd) (b line : Bytes) (stomped : Bool)
  | retransmit (port : Nat) (smd : Smd) (b : Bytes) (err : RxErr)
  | basePage (port page : Nat)
  | verifyFrame (port : Nat)
  | respondFrame (port : Nat)
  | msix (f v addr data : Nat)
  | pme (f : Nat)
  | configRetry (f : Nat)
  | unsupported (f : Nat) (write : Bool)
  | errorMessage (f level : Nat)
  | hostRead (f addr len tag : Nat)
  | hostWrite (f addr : Nat) (b : Bytes)
  | ring (port : Nat) (b : Bytes) (stomped : Bool)
  | ringLost (port : Nat) (b : Bytes)
  | pair (lane : Nat) (b : Bytes)
  | tdo (bits : List Bool)
deriving DecidableEq, Repr, Inhabited

/-- A register field that events set and that host software clears by writing 1 or by reading (R12): bits of HOST_ERRORS,
of a domain's STATUS, of MBOX_STATUS, of HEALTH_STATUS, of PAIR_EVENTS; OVERFLOWED, LOST and the head record of a FIFO;
skipped bits of triggers; a capture; PENDING and COUNT of a source; EOI_UNDERFLOW and the CLAIM of a target; lost feeds;
STATUS by code, LOST and the head entry of a fault instance. -/
inductive Sticky where
  | hostError (f b : Nat)
  | domStatus (d b : Nat)
  | mailbox (f b : Nat)
  | health (b : Nat)
  | pairEvent (b : Nat)
  | overflowed (k : Nat)
  | fifoLost (k : Nat)
  | fifoHead (k : Nat)
  | skipped (n : Nat)
  | capture (i : Nat)
  | pending (n : Nat)
  | count (n : Nat)
  | underflow (t : Nat)
  | claim (t : Nat)
  | feedLost (line : Nat)
  | faultStatus (b i c : Nat)
  | faultLost (b i : Nat)
  | faultHead (b i : Nat)
deriving DecidableEq, Repr, Inhabited

/-- The sticky fields that an event has set in core cycle `at_`, each with what it held before (R14). -/
structure Hits where
  at_ : Nat := 0
  cells : List (Sticky × Nat) := []
deriving DecidableEq, Repr, Inhabited

/-- The state of the device. `pending` is the queue of commands waiting; `cycle` counts core-clock cycles; `free`
counts the free values drawn (Config.freeValue); `out` records what the device emitted; `hits` holds the events of the
present core cycle that R14 lets prevail. -/
structure State where
  pending : List Instr := []
  cycle : Nat := 0
  free : Nat := 0
  out : List OutEvent := []
  hits : Hits := {}
  ident : Ident := { ordering := 0, revision := 0, unit := 1 }
  chip : Chip := {}
  mram : Mram := {}
  cfg : Cfg := {}
  nap : Nap := {}
  cnt : AMap Nat := []
  fabric : Fabric := {}
  ports : AMap Port := []
  fdb : Fdb := {}
  psfp : Psfp := {}
  gates : AMap Gate := []
  tine : List Fifo := [{}, {}]
  dma : Dma := {}
  feeds : Feeds := {}
  pair : Pair := {}
  linkDelay : AMap Nat := []
  frer : Frer := {}
  time : TimeBase := {}
  trig : Trig := {}
  herd : Herd := {}
  intc : Intc := {}
  faults : AMap FaultInst := []
  health : Health := {}
  pcie : Pcie := {}
  mem : Mem := {}
  pins : Pins := {}
deriving DecidableEq, Repr, Inhabited

/-- What a meaning answers: every meaning of this model answers a next state. -/
abbrev Answer := Host.Outcome State Fault Refusal

/-- The machine right after reset: the device state RESET, the queue empty, every register at its reset value. -/
def State.reset : State := {}

end Sys2Proof.Machine
end

