-- ==== Sys2Proof/Machine/Ops.lean ====
section
/-!
DEFINITION. The named operations over the state that the meanings share: configuration values, counters, outputs,
durations in core cycles, byte memory.
-/
namespace Sys2Proof.Machine

/-! ## Configuration values -/

/-- The default of an entry (the catalogue's; 0 where the object has no such entry). -/
def entryDefault (id : Ident) (idx sub : Nat) : Val :=
  match (entrySpecs id idx).bind (·.find? (·.sub = sub)) with
  | some e => e.dflt
  | none => .num 0

/-- The key of an entry in an image's entry map. -/
def entryKey (idx sub : Nat) : Nat := idx * 256 + sub

/-- The value of an RWS entry under an image: the one it holds, else the default (R80). -/
def imgVal (id : Ident) (im : Image) (idx sub : Nat) : Val :=
  (AMap.find im.entries (entryKey idx sub)).getD (entryDefault id idx sub)

/-- The number of an RWS entry under an image. -/
def imgNum (id : Ident) (im : Image) (idx sub : Nat) : Nat := (imgVal id im idx sub).n

/-- The rows of a table under an image. -/
def imgTable (im : Image) (tbl : Nat) : AMap Row := AMap.get [] im.tables tbl

/-- The row of a key under an image, if the image has one. -/
def imgRow (im : Image) (tbl key : Nat) : Option Row := AMap.find (imgTable im tbl) key

/-- An image with a row created or replaced. -/
def imgPutRow (im : Image) (tbl key : Nat) (r : Row) : Image :=
  { im with tables := AMap.set im.tables tbl (AMap.set (imgTable im tbl) key r) }

/-- An image with a row removed; a table without rows is not listed. -/
def imgDelRow (im : Image) (tbl key : Nat) : Image :=
  let t := AMap.del (imgTable im tbl) key
  { im with tables := if t.isEmpty then AMap.del im.tables tbl else AMap.set im.tables tbl t }

/-- An image with an RWS entry's value set; values equal to the default are not held (R80). -/
def imgPut (id : Ident) (im : Image) (idx sub : Nat) (v : Val) : Image :=
  { im with entries := AMap.put (entryDefault id idx sub) im.entries (entryKey idx sub) v }

/-- A field of a row, or of the table's defaults where the image has no row for the key. -/
def imgField (id : Ident) (im : Image) (tbl key sub : Nat) : Val :=
  match tableSpec id tbl with
  | none => .num 0
  | some t => rowField t ((imgRow im tbl key).getD (rowDefault t tbl key)) sub

/-- The number of a field of a row. -/
def imgFieldN (id : Ident) (im : Image) (tbl key sub : Nat) : Nat := (imgField id im tbl key sub).n

/-- The number of an entry under the running configuration. -/
def State.cfgN (s : State) (idx sub : Nat) : Nat := imgNum s.ident s.cfg.running idx sub

/-- A BOOL entry under the running configuration. -/
def State.cfgB (s : State) (idx sub : Nat) : Bool := s.cfgN idx sub == 1

/-- The bytes of an OCTETS entry under the running configuration. -/
def State.cfgO (s : State) (idx sub : Nat) : Bytes := (imgVal s.ident s.cfg.running idx sub).b

/-- The number of a field of a running row, defaults where there is none. -/
def State.fieldN (s : State) (tbl key sub : Nat) : Nat := imgFieldN s.ident s.cfg.running tbl key sub

/-- A row of the running configuration, if present. -/
def State.row (s : State) (tbl key : Nat) : Option Row := imgRow s.cfg.running tbl key

/-- The configuration of a frame's table epoch (R20): the running one, or the older live one. -/
def State.epochImage (s : State) (epoch : Nat) : Image :=
  if epoch % 256 = s.cfg.epoch % 256 then s.cfg.running else s.cfg.older.getD s.cfg.running

/-- The value of an RW entry (R11): what was written last, else the default. -/
def State.rwN (s : State) (idx sub : Nat) : Nat :=
  ((AMap.find s.cfg.rw (entryKey idx sub)).getD (entryDefault s.ident idx sub)).n

/-- Stores an RW entry. -/
def State.rwPut (s : State) (idx sub : Nat) (v : Val) : State :=
  { s with cfg := { s.cfg with rw := AMap.put (entryDefault s.ident idx sub) s.cfg.rw (entryKey idx sub) v } }

/-! ## Counters -/

/-- The key of a counter: object, subindex and, for a keyed object, the row key. -/
def cntKey (idx sub key : Nat) : Nat := (idx * 256 + sub) * 2 ^ 32 + key

/-- A counter's value. -/
def State.counter (s : State) (idx sub key : Nat) : Nat := AMap.get 0 s.cnt (cntKey idx sub key)

/-- Adds to a U64 counter, which wraps at 2^64. -/
def State.bumpBy (s : State) (idx sub key n : Nat) : State :=
  { s with cnt := AMap.upd 0 s.cnt (cntKey idx sub key) fun c => (c + n) % 2 ^ 64 }

/-- Counts one at an unkeyed counter object. -/
def State.bump (s : State) (idx sub : Nat) : State := s.bumpBy idx sub 0 1

/-- Counts one at a keyed counter object. -/
def State.bumpK (s : State) (idx sub key : Nat) : State := s.bumpBy idx sub key 1

/-- The counter object of a port by its SOURCE_PORT number (R126, R367). -/
def portCounters (p : Nat) : Nat := if p < 256 then 0x9000 + p else 0x9100 + (p - 256)

/-- Counts one at a port's counter; host ports keep only the counters of R215, R237, R377 and
R404 (DEDUCED, log entry 17), and service port 6 none. -/
def State.bumpPort (s : State) (p sub : Nat) : State :=
  if p < 256 ∨ p = 260 ∨ p = 261 then s.bump (portCounters p) sub
  else if p < 260 ∧ (sub = 0x04 ∨ sub = 0x13 ∨ sub = 0x60 ∨ (0x50 ≤ sub ∧ sub ≤ 0x58)) then s.bump (portCounters p) sub
  else s

/-- Adds to a port's counter. -/
def State.bumpPortBy (s : State) (p sub n : Nat) : State :=
  if p < 256 ∨ p = 260 ∨ p = 261 then s.bumpBy (portCounters p) sub 0 n else s

/-- Sets a counter's value (used where a rule returns it to zero). -/
def State.zeroCounter (s : State) (idx sub key : Nat) : State :=
  { s with cnt := AMap.del s.cnt (cntKey idx sub key) }

/-! ## Events and accesses of one core cycle (R14) -/

/-- What a sticky field held before an event of the present core cycle set it; none where no such event fell in it. -/
def State.hitOf (s : State) (c : Sticky) : Option Nat :=
  if s.hits.at_ = s.cycle then (s.hits.cells.find? fun e => e.1 == c).map (·.2) else none

/-- Notes that an event sets a sticky field in this core cycle, and what the field held before. -/
def State.hit (s : State) (c : Sticky) (before : Nat) : State :=
  { s with hits :=
    if s.hits.at_ = s.cycle then
      (if (s.hitOf c).isSome then s.hits else { s.hits with cells := s.hits.cells ++ [(c, before)] })
    else { at_ := s.cycle, cells := [(c, before)] } }

/-- Notes that what a sticky field held before the event has been read or served. -/
def State.rehit (s : State) (c : Sticky) : State :=
  { s with hits := { s.hits with cells := s.hits.cells.map fun e => if e.1 == c then (c, 0) else e } }

/-- A W1C bit after a write (R12, R14): an event of the same core cycle prevails. -/
def State.w1c (s : State) (c : Sticky) (was written : Bool) : Bool := was && (!written || (s.hitOf c).isSome)

/-- What an RC read of a count returns (R12, R14): the value before an event of the same core cycle. -/
def State.rcValue (s : State) (c : Sticky) (now : Nat) : Nat := (s.hitOf c).getD now

/-- What an RC read leaves of a count (R12, R14): what events of the same core cycle have added. -/
def State.rcLeft (s : State) (c : Sticky) (now : Nat) : Nat :=
  match s.hitOf c with
  | some was => now - was
  | none => 0

/-- A number from its lowest n bits. -/
def packBits (n : Nat) (f : Nat → Bool) : Nat := ((upTo n).map fun i => if f i then 2 ^ i else 0).sum

/-! ## Outputs, free values, durations -/

/-- Records an output. -/
def State.emit (s : State) (e : OutEvent) : State := { s with out := e :: s.out }

/-- Draws a fresh free value: the value and the state with the counter advanced. -/
def State.draw (s : State) : Nat × State :=
  ((Config.freeValue s.free).toNat, { s with free := s.free + 1 })

/-- Nanoseconds in core cycles of 0.625 ns, rounded up (R500). -/
def nsCycles (ns : Nat) : Nat := (ns * 8 + 4) / 5

/-- Microseconds in core cycles. -/
def usCycles (us : Nat) : Nat := us * 1600

/-- Milliseconds in core cycles. -/
def msCycles (ms : Nat) : Nat := ms * 1600000

/-- Seconds in core cycles. -/
def sCycles (s : Nat) : Nat := s * 1600000000

/-! ## Ports -/

/-- The dynamic state of a port. -/
def State.port (s : State) (p : Nat) : Port := AMap.get {} s.ports p

/-- Changes a port's dynamic state. -/
def State.updPort (s : State) (p : Nat) (f : Port → Port) : State := { s with ports := AMap.upd {} s.ports p f }

/-- Whether the device runs (ARMED or RUN). -/
def isActive : Mode → Bool
  | .armed => true | .run => true | _ => false

/-- The code of a device state (R70). -/
def modeCode : Mode → Nat
  | .off => 0 | .reset => 1 | .load => 2 | .check => 3 | .hold => 4 | .armed => 5 | .run => 6 | .safe => 7

/-- Whether object accesses are served and registers act (R39, R427): from LOAD onwards. -/
def isAlive : Mode → Bool
  | .off => false | .reset => false | _ => true

/-- The host port of a function is up (R377). -/
def State.hostUp (s : State) (f : Nat) : Bool :=
  let p := s.pcie.pfs.getD f {}
  s.pcie.linkUp && !p.d3 && p.bme && p.mse

/-- Changes one function's state. -/
def State.updPf (s : State) (f : Nat) (g : Pf → Pf) : State :=
  { s with pcie := { s.pcie with pfs := updAt s.pcie.pfs f g } }

/-- A function's state. -/
def State.pf (s : State) (f : Nat) : Pf := s.pcie.pfs.getD f {}

/-- A BAR0 or BAR2 request of a function reaches the device (R374, R377): the link is up, the function is in D0 with
Memory Space Enable, and the registers exist (from LOAD onwards). -/
def State.barReach (s : State) (f : Nat) : Bool :=
  let p := s.pcie.pfs.getD f {}
  f < 4 && s.pcie.linkUp && !p.d3 && p.mse && isAlive s.chip.mode

/-! ## Time domains -/

/-- Ticks of the 1.0 GHz time clock begun by core cycle n of 0.625 ns (R500). -/
def tickOf (n : Nat) : Nat := n * 5 / 8

/-- The first tick that starts at least 8 ns after core cycle n (R242, R243). -/
def dueTick (n : Nat) : Nat := (n * 5 + 7) / 8 + 8

/-- A domain's state. -/
def State.dom (s : State) (d : Nat) : Domain := s.time.domains.getD d {}

/-- Changes a domain's state. -/
def State.updDom (s : State) (d : Nat) (f : Domain → Domain) : State :=
  { s with time := { s.time with domains := updAt s.time.domains d f } }

/-- The nanosecond count of a TIME96 value. -/
def nsOf (t : Time96) : Nat := t.toNat / 2 ^ 32

/-- NS of a domain; a disabled domain reads zero (R240). -/
def State.ns (s : State) (d : Nat) : Nat := nsOf (s.dom d).value

/-- Signed 48-bit difference of an instant from now in a domain (R252). -/
def State.ahead (s : State) (d t : Nat) : Int := signed48 ((t : Int) - (s.ns d : Int))

/-- reached(t) of R252 in a domain. -/
def State.reached (s : State) (d t : Nat) : Bool := s.ahead d t ≤ 0

/-- The increment that the coming tick adds (R242). -/
def incNow (x : Domain) : Increment := if x.adjOpen && 0 < x.adjLeft then x.adjInc else x.inc

/-- An instant that the domain had reached before the present tick: its action is late (R32). -/
def State.overdue (s : State) (d t : Nat) : Bool :=
  let x := s.dom d
  s.reached d t && decide (((max x.inc.toNat x.adjInc.toNat / 2 ^ 32 : Nat) : Int) < -s.ahead d t)

/-! ## Request lines -/

/-- A producer requests on a DMA request line; REQUEST_PULSE receives it (R398). -/
def oweRequest (line : Nat) (r : Req) (s : State) : State :=
  { s with dma := { s.dma with owed := s.dma.owed ++ [(line, r)] } }

/-! ## The engine's queue -/

/-- The path of a requester, line ports together (R62 PATHS), in the order of R40; a
function's window and mailbox are one context (R43). -/
def pathCode : Path → Nat
  | .mailbox f => f
  | .bar2 f => f
  | .mgt m => 4 + m
  | .line _ => 6
  | .ring => 7

/-- The cycle of the 125 MHz management clock that a core cycle lies in (R40, R505). -/
def mgmtCycle (n : Nat) : Nat := n * 5 / 64

/-- A waiting request comes after one of a path that arrives now: both arrived in one management-clock cycle, and its path
stands later in the order of R40. -/
def waitsAfter (s : State) (p : Path) (q : NapReq) : Bool :=
  mgmtCycle q.came == mgmtCycle s.cycle && decide (pathCode p < pathCode q.path)

/-- The requests that the engine takes before an access that arrives now on a path (R40). -/
def aheadOf (s : State) (p : Path) : List NapReq := s.nap.queue.takeWhile fun q => !waitsAfter s p q

/-- The requests that the engine takes after an access that arrives now on a path (R40). -/
def behindOf (s : State) (p : Path) : List NapReq := s.nap.queue.dropWhile fun q => !waitsAfter s p q

/-- A request reaches the object dictionary engine: it takes its place among at most 64, else it is discarded and counted
(R28, R40). -/
def napEnqueue (r : NapReq) (s : State) : State :=
  if s.nap.queue.length < 64 then
    { s with nap := { s.nap with queue := aheadOf s r.path ++ { r with came := s.cycle } :: behindOf s r.path } }
  else s.bump 0x0401 6

/-! ## Byte memory -/

/-- What an unlisted device address reads as: zero (DESIGN CHOICE, log entry 11). -/
def memDefault : Byte := 0

/-- The byte at a device address. -/
def memGet (m : List Host.Cell) (a : Nat) : Byte := AMap.get memDefault m a

/-- Writes one byte, keeping the list canonical. -/
def memPut (m : List Host.Cell) (a : Nat) (b : Byte) : List Host.Cell := AMap.put memDefault m a b

/-- Reads bytes from an address upward. -/
def memRead (m : List Host.Cell) (a : Nat) : Nat → Bytes
  | 0 => []
  | n + 1 => memGet m a :: memRead m (a + 1) n

/-- Writes bytes from an address upward. -/
def memWrite (m : List Host.Cell) (a : Nat) : Bytes → List Host.Cell
  | [] => m
  | b :: r => memWrite (memPut m a b) (a + 1) r

/-- The canonical form of byte memory: addresses strictly rising, and no entry equal to what an unlisted address
reads as. -/
def Memory.wf (m : List Host.Cell) : Bool := AMap.wf m && m.all fun c => c.2 != memDefault

/-! ## The installed memory -/

/-- RAW_SIZE in bytes (R486): eight channels of DIE_DENSITY x RANKS gigabits. -/
def rawSize (s : State) : Nat := s.mem.density * s.mem.ranks * 2 ^ 30

/-- DATA_SIZE, the installed size (R486). -/
def dataSize (s : State) : Nat := rawSize s * 7 / 8

/-- B of R493: the top 512 MiB of the data capacity is reserved. -/
def reservedBase (s : State) : Nat := dataSize s - 2 ^ 29

/-! ## The rings of the MRAM (R496) -/

/-- The ring of a key's replay counter, 0 RX_REPLAY and 1 TX_REPLAY (R495), and that of the pair epoch. -/
def replayRing (k x : Nat) : Nat := 2 * (k - 1) + x
def epochRing : Nat := 32

/-- Value v is written to slot v mod 1,024 of a ring. -/
def ringWrite (r v : Nat) (s : State) : State :=
  { s with mram := { s.mram with rings := AMap.set s.mram.rings (r * 1024 + v % 1024) v } }

/-- The slots of a ring at zero. -/
def ringClear (r : Nat) (s : State) : State :=
  { s with mram := { s.mram with rings := s.mram.rings.filter fun e => e.1 / 1024 != r } }

/-- The highest value among the slots of a ring that are not passed over. -/
def ringValue (s : State) (bad : List Nat) (r : Nat) : Nat :=
  ((s.mram.rings.filter fun e => e.1 / 1024 == r && !bad.contains e.1).map (·.2)).foldl max 0

/-- The ring slot that an MRAM address lies in (R495). -/
def ringSlotAt (a : Nat) : Option Nat :=
  if 0x02010000 ≤ a ∧ a < 0x02050000 then some ((a - 0x02010000) / 8)
  else if 0x02050000 ≤ a ∧ a < 0x02051000 then some (epochRing * 1024 + (a - 0x02050000) / 4)
  else none

/-- The slot of a health checkpoint that an MRAM address lies in (R495). -/
def checkpointSlotAt (a : Nat) : Option Nat :=
  if 0x02052000 ≤ a ∧ a < 0x02054000 then some ((a - 0x02052000) / 512) else none

/-- The value that a ring gives with slots passed over: the value held where none of its slots is among them. -/
def ringReread (s : State) (bad : List Nat) (r held : Nat) : Nat :=
  if bad.any (fun n => n / 1024 == r) then ringValue s bad r else held

/-- The checkpoint with the highest sequence number outside the slots passed over. -/
def bestCheckpoint (s : State) (bad : List Nat) : Checkpoint :=
  ((s.mram.checkpoints.filter fun e => !bad.contains e.1).map (·.2)).foldl (fun b c => if b.seq < c.seq then c else b) {}

/-- The MRAM is read with uncorrectable words (R496): each ring gives the highest value that is left, and the monitor's
integrals come from the checkpoint that is left. -/
def rereadMram (words : List Nat) (s : State) : State :=
  let bad := words.filterMap ringSlotAt
  let lost := words.filterMap checkpointSlotAt
  let m := s.mram
  { s with mram := { m with
    keys := m.keys.mapIdx fun i k => { k with rx := ringReread s bad (2 * i) k.rx, tx := ringReread s bad (2 * i + 1) k.tx }
    pairEpoch := ringReread s bad epochRing m.pairEpoch
    checkpoint := if lost.contains (m.checkpoint.seq % 16) then bestCheckpoint s lost else m.checkpoint } }

end Sys2Proof.Machine
end

