-- ==== Sys2Proof/Machine/Psfp.lean ====
section
/-!
DEFINITION. Stream filters, stream gates and meters (R147 to R156, R159).
-/
namespace Sys2Proof.Machine

/-! ## Stream filters -/

/-- The filter rows of a configuration whose STREAM_HANDLE and PRIORITY are these. -/
def filterRow (im : Image) (handle prio : Nat) : Option Nat :=
  ((imgTable im 0x2100).find? fun e => (e.2.getD 0 (.num 0)).n == handle && (e.2.getD 1 (.num 0)).n == prio).map (·.1)

/-- The filter that a frame meets (R148): by handle and priority, handle, priority, or any. -/
def matchFilter (im : Image) (handle : Option Nat) (prio : Nat) : Option Nat :=
  let any := 0xFFFFFFFF
  let specific := match handle with
    | some h => (filterRow im h prio).orElse fun _ => filterRow im h 0xFF
    | none => none
  specific.orElse fun _ => (filterRow im any prio).orElse fun _ => filterRow im any 0xFF

/-- A field of a filter row. -/
def filterField (s : State) (im : Image) (k sub : Nat) : Nat := imgFieldN s.ident im 0x2100 k sub

/-- Counts at a filter's counters (R159). -/
def countFilter (k : Nat) (subs : List Nat) (s : State) : State := subs.foldl (fun s sub => s.bumpK 0x2104 sub k) s

/-- BLOCKED of a filter. -/
def filterBlocked (s : State) (k : Nat) : Bool := AMap.get false s.psfp.blocked k

/-- A frame discarded by a filter check (R149): MATCHING, the check's counter, and the source port's FILTER_DROPS. -/
def filterDrop (k sub source : Nat) (s : State) : State := (countFilter k [2, sub] s).bumpPort source 0x3B

/-! ## Stream gates -/

/-- A stream gate's state. -/
def State.sgate (s : State) (k : Nat) : SGate := AMap.get {} s.psfp.gates k

/-- Changes a stream gate. -/
def State.updSgate (s : State) (k : Nat) (f : SGate → SGate) : State :=
  { s with psfp := { s.psfp with gates := AMap.upd {} s.psfp.gates k f } }

/-- What a gate evaluation yields (R152): open, IPV (0xFF null), the start of the interval and its octet maximum. -/
structure GateNow where
  open_ : Bool
  ipv : Nat
  start : Nat
  octMax : Nat
deriving DecidableEq, Repr, Inhabited

/-- The walk of R152 over the entries 0 to LIST_LENGTH - 1, to the one that holds the phase. -/
def walkGate (s : State) (im : Image) (g phase now : Nat) : List Nat → Nat → GateNow
  | [], _ => { open_ := false, ipv := 0xFF, start := 0, octMax := 0 }
  | e :: r, acc =>
    let fld := imgFieldN s.ident im 0x2102 (g * 256 + e)
    if phase < acc + fld 4 then
      { open_ := fld 2 == 1, ipv := fld 3, start := (now + 2 ^ 48 - (phase - acc)) % 2 ^ 48, octMax := fld 5 }
    else walkGate s im g phase now r (acc + fld 4)

/-- The gate of a key now (R152). -/
def evalGate (s : State) (im : Image) (g : Nat) : GateNow :=
  let fld := imgFieldN s.ident im 0x2101 g
  let now : Nat := s.ns (fld 2) % 2 ^ 48
  let d := signed48 ((now : Int) - (fld 3 : Int))
  if (s.sgate g).latched ≠ 0 then { open_ := false, ipv := 0xFF, start := 0, octMax := 0 }
  else if d < 0 then { open_ := fld 6 == 1, ipv := 0xFF, start := 0, octMax := 0 }
  else walkGate s im g (d.toNat % max 1 (fld 4)) now (upTo (fld 5)) 0

/-- The octets counted in an interval of a gate. -/
def gateOctets (s : State) (g start : Nat) : Nat :=
  match (s.sgate g).octets.find? (·.1 == start) with
  | some e => e.2
  | none => 0

/-- A frame not yet received and checked was decided in this interval of a gate (R152). -/
def awaited (s : State) (g start : Nat) : Bool :=
  s.fabric.inflight.any fun e => match e.2.late.gate with | some (k, t, _) => k == g && t == start | none => false

/-- Adds to an interval's octet count (R152); the counts of later intervals are kept, and of earlier ones those that a frame
still to be checked needs. -/
def addOctets (g start n : Nat) (s : State) : State :=
  s.updSgate g fun x =>
    let was := match x.octets.find? (·.1 == start) with | some e => e.2 | none => 0
    let keep := fun (e : Nat × Nat) => e.1 != start && (decide (0 < signed48 ((e.1 : Int) - start)) || awaited s g e.1)
    { x with octets := (start, was + n) :: x.octets.filter keep }

/-- Latches a gate closed for a cause, when its row says so and it is not latched yet (R149, R151). -/
def latchGate (im : Image) (g sub cause : Nat) (s : State) : State :=
  if imgFieldN s.ident im 0x2101 g sub = 1 ∧ (s.sgate g).latched = 0 then
    s.updSgate g fun x => { x with latched := cause }
  else s

/-! ## Meters -/

/-- A rate in kbit/s as 2^-32 byte per core cycle (R154, R226). -/
def rateInc (rate : Nat) : Nat := (rate * 2 ^ 33 + 12800000) / 25600000

/-- A meter's state now; a meter not yet used is full (R154). -/
def State.meter (s : State) (im : Image) (k : Nat) : Meter :=
  let fld := imgFieldN s.ident im 0x2103 k
  (AMap.find s.psfp.meters k).getD { tc := fld 5 * 2 ^ 32, te := fld 7 * 2 ^ 32, last := s.cycle }

/-- The refill of R154 for the single-rate meter. -/
def refill1 (cir cbs ebs delta : Nat) (m : Meter) : Meter :=
  let tc := m.tc + rateInc cir * delta
  let cap := cbs * 2 ^ 32
  if cap < tc then { m with tc := cap, te := min (ebs * 2 ^ 32) (m.te + (tc - cap)) } else { m with tc := tc }

/-- The refill of R154 for the two-rate meter. -/
def refill2 (cir cbs pir pbs delta : Nat) (m : Meter) : Meter :=
  { m with tc := min (cbs * 2 ^ 32) (m.tc + rateInc cir * delta), te := min (pbs * 2 ^ 32) (m.te + rateInc pir * delta) }

/-- Single-rate colouring (R155): 0 green, 1 yellow, 2 red. -/
def colour1 (aware : Bool) (pre b : Nat) (m : Meter) : Nat × Meter :=
  let c := b * 2 ^ 32
  if (!aware || pre == 0) && c ≤ m.tc then (0, { m with tc := m.tc - c })
  else if (!aware || pre != 2) && c ≤ m.te then (1, { m with te := m.te - c })
  else (2, m)

/-- Two-rate colouring (R155). -/
def colour2 (aware : Bool) (pre b : Nat) (m : Meter) : Nat × Meter :=
  let c := b * 2 ^ 32
  if (aware && pre == 2) || m.te < c then (2, m)
  else if (aware && pre == 1) || m.tc < c then (1, { m with te := m.te - c })
  else (0, { m with te := m.te - c, tc := m.tc - c })

/-- A meter measures a frame (R154, R155): its colour, and the meter after it. -/
def measureFrame (s : State) (im : Image) (k len pre : Nat) : Nat × Meter :=
  let fld := imgFieldN s.ident im 0x2103 k
  let m := s.meter im k
  let delta := s.cycle - m.last
  let b := (max 1 ((len : Int) + toSigned 8 (fld 8))).toNat
  let m1 := { m with last := s.cycle }
  if fld 2 = 1 then colour1 (fld 3 == 1) pre b (refill1 (fld 4) (fld 5) (fld 7) delta m1)
  else colour2 (fld 3 == 1) pre b (refill2 (fld 4) (fld 5) (fld 6) (fld 7) delta m1)

/-- Stores a meter. -/
def State.putMeter (s : State) (k : Nat) (m : Meter) : State :=
  { s with psfp := { s.psfp with meters := AMap.set s.psfp.meters k m } }

/-- Check 5 of R149: the frame measured, counted, and whether its colour is dropped. -/
def meterFrame (im : Image) (k len pre : Nat) (s : State) : Nat × Bool × State :=
  let fld := imgFieldN s.ident im 0x2103 k
  let (c, m) := measureFrame s im k len pre
  let drop := (c == 1 && fld 9 == 1) || (c == 2 && fld 10 == 1)
  let s1 := (s.putMeter k m).bumpK 0x2105 (2 + c) k
  (c, drop, if drop then s1.bumpK 0x2105 5 k else s1)

/-! ## Changes at a cutover -/

/-- The keys whose row is in the new configuration and differs from the old one. -/
def changedKeys (old new : Image) (tbl : Nat) : List Nat :=
  ((imgTable new tbl).filter fun e => imgRow old tbl e.1 != some e.2).map (·.1)

/-- The keys of both configurations whose row differs or exists in one only. -/
def touchedKeys (old new : Image) (tbl : Nat) : List Nat :=
  changedKeys old new tbl ++ ((imgTable old tbl).filter fun e => (imgRow new tbl e.1).isNone).map (·.1)

/-- Returns the counters of a keyed counter object to zero for one key. -/
def zeroKeyCounters (idx : Nat) (subs : List Nat) (s : State) (k : Nat) : State :=
  subs.foldl (fun s sub => s.zeroCounter idx sub k) s

/-- Filters, gates and meters at a cutover (R149, R152, R154, R159). -/
def psfpCutover (old new : Image) (s : State) : State :=
  let fl := touchedKeys old new 0x2100
  let mt := touchedKeys old new 0x2103
  let gt := touchedKeys old new 0x2101 ++ (touchedKeys old new 0x2102).map (· / 256)
  let s1 := { s with psfp := { s.psfp with
    blocked := s.psfp.blocked.filter fun e => !fl.contains e.1,
    gates := s.psfp.gates.filter fun e => !gt.contains e.1,
    meters := s.psfp.meters.filter fun e => !mt.contains e.1 } }
  let s2 := (changedKeys old new 0x2100).foldl (zeroKeyCounters 0x2104 [2, 3, 4, 5, 6, 7]) s1
  (changedKeys old new 0x2103).foldl (zeroKeyCounters 0x2105 [2, 3, 4, 5]) s2

/-- Filters, gates and meters at LOAD (R131, R149): nothing latched, blocked or spent, every port FORWARDING. -/
def psfpLoad (s : State) : State := { s with psfp := {} }

end Sys2Proof.Machine
end

