-- ==== Sys2Proof/Machine/Fdb.lean ====
section
/-!
DEFINITION. The filtering database (R138 to R142): keys and buckets, lookup, learning, ageing, flushing, and what a
cutover does to it.
-/
namespace Sys2Proof.Machine

/-- The key of a FID and a MAC address (R138). -/
def fdbKey (fid mac : Nat) : Nat := fid * 2 ^ 48 + mac

/-- The bucket of a key (R138). -/
def fdbBucket (key : Nat) : Nat := crc32c (beBytes 8 key) % 2 ^ 15

/-- What a lookup finds: the destination kind and number of a static row, else the port of a learned entry. -/
def fdbLookup (s : State) (im : Image) (fid mac : Nat) : Option (Nat × Nat) :=
  match imgRow im 0x2004 (fdbKey fid mac) with
  | some r => some ((r.getD 0 (.num 0)).n, (r.getD 1 (.num 0)).n)
  | none => (AMap.find s.fdb.learned (fdbKey fid mac)).map fun e => (0, e.port)

/-- Changes the learned entries. -/
def State.updLearned (s : State) (f : AMap Learned → AMap Learned) : State :=
  { s with fdb := { s.fdb with learned := f s.fdb.learned } }

/-- HIT of the entry of a key is set (R138). -/
def fdbHit (key : Nat) (s : State) : State :=
  match AMap.find s.fdb.learned key with
  | some e => s.updLearned fun m => AMap.set m key { e with hit := true }
  | none => s

/-- The way that a static row or a learned entry holds in a bucket. -/
def waysUsed (learned : AMap Learned) (staticWay : AMap Nat) (bucket : Nat) : List Nat :=
  (learned.filter fun e => fdbBucket e.1 == bucket).map (·.2.way) ++
  (staticWay.filter fun e => fdbBucket e.1 == bucket).map (·.2)

/-- The lowest way of 8 that a list leaves free. -/
def freeWay (used : List Nat) : Option Nat := (upTo 8).find? fun w => !used.contains w

/-- Learned entries on a port. -/
def learnedOn (s : State) (port : Nat) : Nat := (s.fdb.learned.filter fun e => e.2.port == port).length

/-- LEARN_LIMIT of a port allows one more learned entry (R139). -/
def learnRoom (s : State) (port : Nat) : Bool :=
  let limit := s.fieldN 0x2001 port 11
  limit == 0 || learnedOn s port < limit

/-- One learn request applied (R139, R140). -/
def applyLearn (r : LearnReq) (s : State) : State :=
  if (s.row 0x2004 r.key).isSome then s
  else
    match AMap.find s.fdb.learned r.key with
    | some e =>
      if e.port = r.port then s
      else if learnRoom s r.port then
        (s.updLearned fun m => AMap.set m r.key { e with port := r.port, hit := true }).bumpPort r.port 0x38
      else s.bumpPort r.port 0x39
    | none =>
      match freeWay (waysUsed s.fdb.learned s.fdb.staticWay (fdbBucket r.key)) with
      | some w =>
        if learnRoom s r.port then
          (s.updLearned fun m => AMap.set m r.key { port := r.port, hit := true, way := w }).bumpPort r.port 0x37
        else s.bumpPort r.port 0x39
      | none => s.bumpPort r.port 0x39

/-- The order of learn requests (R140): by core cycle, then by source port. -/
def learnBefore (a b : LearnReq) : Bool := a.at_ < b.at_ || (a.at_ == b.at_ && a.port ≤ b.port)

/-- A learn request enters the learning unit in its order. -/
def insertLearn (r : LearnReq) : List LearnReq → List LearnReq
  | [] => [r]
  | x :: l => if learnBefore x r then x :: insertLearn r l else r :: x :: l

/-- A frame's learn request is taken. -/
def requestLearn (r : LearnReq) (s : State) : State :=
  { s with fdb := { s.fdb with requests := insertLearn r s.fdb.requests } }

/-- LEARN_APPLY: the learning unit applies its first request (R140). -/
def effLearnApply (s : State) : State :=
  match s.fdb.requests with
  | [] => s
  | r :: l => applyLearn r { s with fdb := { s.fdb with requests := l } }

/-- One entry at a sweep (R142). -/
def sweepEntry (e : Nat × Learned) : Option (Nat × Learned) :=
  if e.2.hit then some (e.1, { e.2 with hit := false }) else none

/-- AGEING_SWEEP (R142): entries not hit go, HIT of the others clears, and the next sweep is scheduled. -/
def effAgeingSweep (s : State) : State :=
  if isAlive s.chip.mode && decide (s.fdb.sweepDue ≤ s.cycle) then
    { s with fdb := { s.fdb with
      learned := s.fdb.learned.filterMap sweepEntry, sweepDue := s.cycle + sCycles (s.cfgN 0x2000 1) } }
  else s

/-- FLUSH_PORT (R141): the learned entries of a port, or of every port, are deleted; FLUSH_COMPLETE ends the flush. -/
def flushPort (p : Nat) (s : State) : State :=
  { s with fdb := { s.fdb with
    learned := if p = 0xFFFF then [] else s.fdb.learned.filter fun e => e.2.port != p, flush := some p } }

/-- FLUSH_COMPLETE (R142): a flush in progress is over. What was learned while it ran survives (DEDUCED, log entry 14). -/
def effFlushComplete (s : State) : State := { s with fdb := { s.fdb with flush := none } }

/-! ## Static rows and cutovers -/

/-- The way a new static row takes in a bucket (R142), and the learned entry that gives it up. -/
def placeStatic (learned : AMap Learned) (staticWay : AMap Nat) (bucket : Nat) : Option (Nat × Option Nat) :=
  match freeWay (waysUsed learned staticWay bucket) with
  | some w => some (w, none)
  | none =>
    let cands := learned.filter fun e => fdbBucket e.1 == bucket
    let pick := fun (l : AMap Learned) => (upTo 8).findSome? fun w => l.find? fun e => e.2.way == w
    match (pick (cands.filter fun e => !e.2.hit)).orElse (fun _ => pick cands) with
    | some e => some (e.2.way, some e.1)
    | none => none

/-- One static row enters the database. -/
def enterStatic (s : State) (key : Nat) : State :=
  let s1 := s.updLearned fun m => AMap.del m key
  if AMap.has s1.fdb.staticWay key then s1
  else
    match placeStatic s1.fdb.learned s1.fdb.staticWay (fdbBucket key) with
    | some (w, evict) =>
      { s1 with fdb := { s1.fdb with
        staticWay := AMap.set s1.fdb.staticWay key w,
        learned := match evict with | some k => AMap.del s1.fdb.learned k | none => s1.fdb.learned } }
    | none => s1

/-- The FIDs that some VLAN row maps to. -/
def fidsOf (im : Image) : List Nat := (imgTable im 0x2003).map fun e => (e.2.getD 2 (.num 0)).n

/-- The FDB takes up a configuration's static rows (R142). -/
def fdbCutover (new : Image) (s : State) : State :=
  let statics := (imgTable new 0x2004).map (·.1)
  let fids := fidsOf new
  let s1 := { s with fdb := { s.fdb with
    staticWay := s.fdb.staticWay.filter fun e => statics.contains e.1,
    learned := s.fdb.learned.filter fun e => fids.contains (e.1 / 2 ^ 48) } }
  statics.foldl enterStatic s1

/-- The FDB at LOAD: no learned entry (R83); sweeps run on. -/
def fdbLoad (s : State) : State :=
  { s with fdb := { sweepDue := s.fdb.sweepDue } }

/-! ## The meanings -/

/-- LEARN_APPLY: answers the state after its effect. -/
def execLearnApply (s : State) : Answer := .next (effLearnApply s)

/-- AGEING_SWEEP: answers the state after its effect. -/
def execAgeingSweep (s : State) : Answer := .next (effAgeingSweep s)

/-- FLUSH_COMPLETE: answers the state after its effect. -/
def execFlushComplete (s : State) : Answer := .next (effFlushComplete s)

end Sys2Proof.Machine
end

