-- ==== Sys2Proof/Machine/Kelry.lean ====
section
/-!
DEFINITION. Kelry images (R76 to R80): stage 1 of CHECK (R537), the records of stage 2, building an image, and the two
MRAM banks (R81, R82, R85).
-/
namespace Sys2Proof.Machine

/-- A failure of LOAD, CHECK or a commit (R87): reason code, REASON_DETAIL, REASON_UNIT. -/
structure CheckFail where
  reason : Nat
  detail : Nat := 0
  unit : Nat := 0xFFFFFFFF
deriving DecidableEq, Repr, Inhabited

/-- Bytes of an image; a bank reads as zero beyond what has been written (DESIGN CHOICE, log entry 7). -/
def imgAt (b : Bytes) (off len : Nat) : Nat := beNat (padTo len (b.drop off))

/-! ## Header and banks -/

/-- Header fields (R77). -/
def hdrMagic (b : Bytes) : Nat := imgAt b 0 4
def hdrSections (b : Bytes) : Nat := imgAt b 6 2
def hdrGeneration (b : Bytes) : Nat := imgAt b 8 8
def hdrLength (b : Bytes) : Nat := imgAt b 24 4
def hdrCrcGood (b : Bytes) : Bool := crc32c (padTo 60 b) == imgAt b 60 4

/-- 16 MiB, the size of a bank. -/
def bankSize : Nat := 16777216

/-- END_MAGIC stands at IMAGE_LENGTH - 8 (R82). -/
def endMagicGood (b : Bytes) : Bool :=
  8 ≤ hdrLength b && hdrLength b ≤ bankSize && imgAt b (hdrLength b - 8) 4 == 0x4B454E44

/-- IMAGE_CRC as the trailer holds it. -/
def trailerCrc (b : Bytes) : Nat := imgAt b (hdrLength b - 4) 4

/-- IMAGE_CRC holds over bytes 0 to IMAGE_LENGTH - 5 (R78). -/
def imageCrcGood (b : Bytes) : Bool := crc32c (padTo (hdrLength b - 4) b) == trailerCrc b

/-- R82 but for the seal. -/
def meetsR82 (k : Bank) : Bool :=
  let b := k.image
  hdrMagic b == 0x4B4C5259 && hdrCrcGood b && hdrGeneration b == k.genCopy && endMagicGood b && trailerCrc b == k.crcCopy

/-- An eligible bank (R82). -/
def eligible (k : Bank) : Bool := k.sealed && meetsR82 k

/-- A bank of MRAM. -/
def State.bank (s : State) (k : Nat) : Bank := s.mram.banks.getD k {}

/-- Changes a bank of MRAM. -/
def State.updBank (s : State) (k : Nat) (f : Bank → Bank) : State :=
  { s with mram := { s.mram with banks := updAt s.mram.banks k f } }

/-- A bank with an image written and its two copies, not sealed (R81). -/
def writtenBank (b : Bytes) : Bank := { sealed := false, crcCopy := trailerCrc b, genCopy := hdrGeneration b, image := b }

/-- A bank after an upload (R85), and whether it is sealed. -/
def uploadedBank (b : Bytes) : Bank × Bool :=
  let k := writtenBank b
  let good := b.length == hdrLength b && meetsR82 k && imageCrcGood b
  ({ k with sealed := good }, good)

/-! ## Stage 1 -/

/-- A directory entry (R78): SECTION_ID, OFFSET, LENGTH, SECTION_CRC. -/
structure DirEntry where
  id : Nat
  off : Nat
  len : Nat
  crc : Nat
deriving DecidableEq, Repr, Inhabited

/-- Entry k of the directory. -/
def dirEntry (b : Bytes) (k : Nat) : DirEntry :=
  let a := 64 + 16 * k
  { id := imgAt b a 2, off := imgAt b (a + 4) 4, len := imgAt b (a + 8) 4, crc := imgAt b (a + 12) 4 }

/-- The first byte after the directory. -/
def dirEnd (b : Bytes) : Nat := 64 + 16 * hdrSections b

/-- A section lies wholly between the directory and IMAGE_LENGTH - 8. -/
def sectionInside (b : Bytes) (e : DirEntry) : Bool := dirEnd b ≤ e.off && e.off + e.len + 8 ≤ hdrLength b

/-- The bytes of a section. -/
def sectionBytes (b : Bytes) (e : DirEntry) : Bytes := padTo e.len (b.drop e.off)

/-- The first directory entry whose SECTION_CRC fails (test 10 of R537). -/
def badSection (b : Bytes) : Option DirEntry :=
  ((upTo (hdrSections b)).map (dirEntry b)).find? fun e => sectionInside b e && crc32c (sectionBytes b e) != e.crc

/-- Stage 1 in the order of R537. -/
def stage1 (id : Ident) (b : Bytes) : Option CheckFail :=
  let n := hdrLength b
  if hdrMagic b ≠ 0x4B4C5259 then some { reason := 0x0010 }
  else if !hdrCrcGood b then some { reason := 0x0011 }
  else if imgAt b 4 2 ≠ 1 ∨ hdrGeneration b = 0 ∨ 159 < hdrSections b ∨ 8 ≤ imgAt b 20 1 ∨ imgAt b 22 2 ≠ 0 ∨
      imgAt b 36 24 ≠ 0 then some { reason := 0x0012 }
  else if imgAt b 16 4 ≠ 0x2560 then some { reason := 0x0013 }
  else if !bit (imgAt b 20 1) id.ordering then some { reason := 0x0014 }
  else if id.revision < imgAt b 21 1 then some { reason := 0x0015 }
  else if bankSize < n ∨ n % 4 ≠ 0 ∨ n < 72 + 16 * hdrSections b then some { reason := 0x0016 }
  else if !endMagicGood b then some { reason := 0x0010 }
  else if !imageCrcGood b then some { reason := 0x0017 }
  else (badSection b).map fun e => { reason := 0x0018, detail := e.id }

/-! ## Stage 2: directory -/

/-- Two non-empty sections overlap. -/
def sectionsOverlap (a b : DirEntry) : Bool := 0 < a.len && 0 < b.len && a.off < b.off + b.len && b.off < a.off + a.len

/-- Directory entry k is out of order or bounds (R78). -/
def badDirEntry (b : Bytes) (k : Nat) : Bool :=
  let e := dirEntry b k
  e.id == 0 || 0x9F < e.id || e.off % 4 != 0 || e.len % 4 != 0 || !sectionInside b e ||
  (upTo k).any fun j => e.id ≤ (dirEntry b j).id || sectionsOverlap (dirEntry b j) e

/-- The first directory entry that fails. -/
def badDirectory (b : Bytes) : Option CheckFail :=
  ((upTo (hdrSections b)).find? (badDirEntry b)).map fun k => { reason := 0x0101, detail := k }

/-! ## Stage 2: records -/

/-- A record as read (R79): its section, INDEX, SUBINDEX, KIND and value; `good` is false for a record whose KIND,
padding or length is wrong. -/
structure RawRec where
  sec : Nat
  idx : Nat
  sub : Nat
  kind : Nat
  value : Bytes
  good : Bool
deriving DecidableEq, Repr, Inhabited

/-- The records of a section; the first badly formed one ends the list. -/
def sectionRecords (sec : Nat) : Nat → Bytes → List RawRec
  | 0, _ => []
  | fuel + 1, b =>
    if b.isEmpty then []
    else
      let len := imgAt b 4 4
      let size := 8 + (len + 3) / 4 * 4
      let r : RawRec :=
        { sec := sec, idx := imgAt b 0 2, sub := imgAt b 2 1, kind := imgAt b 3 1, value := slice b 8 len,
          good := size ≤ b.length && (imgAt b 3 1 == 1 || (imgAt b 3 1 == 2 && imgAt b 2 1 == 0)) &&
            (slice b (8 + len) (size - 8 - len)).all (· == 0) }
      if r.good then r :: sectionRecords sec fuel (b.drop size) else [r]

/-- Every record of an image in order. -/
def imageRecords (b : Bytes) : List RawRec :=
  ((upTo (hdrSections b)).map (dirEntry b)).flatMap fun e => sectionRecords e.id (e.len / 8 + 1) (sectionBytes b e)

/-- The table that an image may hold rows of: a staged one (R42). -/
def stagedTable (id : Ident) (idx : Nat) : Option TableSpec :=
  match tableSpec id idx with
  | some t => if t.kind = .staged ∨ t.kind = .fdb then some t else none
  | none => none

/-- The fields that a row of an image holds (R79): those a WRITE takes. -/
def rowFields (t : TableSpec) : List EntrySpec := t.fields.filter fun e => e.acc == .rw

/-- The bytes of a row's value in an image. -/
def rowSize (t : TableSpec) : Nat := t.keyTy.size + ((rowFields t).map (·.ty.size)).sum

/-- A row's values by field from the bytes after the key; fields that no image holds take their defaults. -/
def decodeFields : List EntrySpec → Bytes → Row
  | [], _ => []
  | e :: r, b =>
    if e.acc = .rw then ((e.ty.decode (b.take e.ty.size)).getD (.num 0)) :: decodeFields r (b.drop e.ty.size)
    else e.dflt :: decodeFields r b

/-- The key of a row value. -/
def rowKey (t : TableSpec) (v : Bytes) : Nat := beNat (v.take t.keyTy.size)

/-- Every field that an image holds lies in its type and range. -/
def fieldsOk : List EntrySpec → Row → Bool
  | e :: r, v :: w => (e.acc != .rw || (e.ty.encodes v && e.rng.ok e.ty v)) && fieldsOk r w
  | _, _ => true

/-- Ports that a row names in its fields (R3, R99). -/
def rowPorts (tbl : Nat) (r : Row) : List Nat :=
  let n := fun k => (r.getD k (.num 0)).n
  let o := fun k => bitMembers (r.getD k (.oct [])).b 263
  match tbl with
  | 0x2003 => o 0
  | 0x2004 => if n 0 = 0 then [n 1] else []
  | 0x2005 => o 0
  | 0x2006 => o 1 ++ (if n 3 = 1 then [n 4] else [])
  | 0x2007 => o 4 ++ (if n 6 = 1 then [n 7] else [])
  | 0x3001 => if n 1 = 1 ∧ n 2 ≤ 261 then [n 2] else []
  | 0x3003 => (if n 1 ≤ 261 then [n 1] else []) ++ (((upTo 4).map fun k => field (n 7) (16 * k) 16).filter (· != 0xFFFF))
  | _ => []

/-- Line ports or lanes that an entry names. -/
def entryPorts (idx sub : Nat) (v : Val) : List Nat :=
  if (idx = 0x0400 ∧ sub = 2) ∨ (idx = 0x3000 ∧ sub = 1) ∨ (idx = 0x7001 ∧ sub = 3) then bitMembers v.b (8 * v.b.length)
  else if (idx = 0x4310 ∨ idx = 0x4311) ∧ sub = 2 then [v.n]
  else []

/-- The number of a port object, 0xFFFFFFFF for an object that belongs to no port. -/
def objectUnit (idx : Nat) : Nat :=
  if (0x1000 ≤ idx ∧ idx < 0x1200) ∨ (0x1400 ≤ idx ∧ idx < 0x1500) then idx % 256
  else if idx = 0x0404 then 260 else if idx = 0x0405 then 261
  else 0xFFFFFFFF

/-- The port that a row's key names, else the key itself (R87). -/
def absentUnit (tbl key : Nat) : Nat :=
  if tbl = 0x1200 ∨ tbl = 0x1300 ∨ tbl = 0x1802 then key / 8 else key

/-- Gate and meter keys that a row names in its fields whose home slice is absent (R3, R150). -/
def rowAbsentKeys (id : Ident) (tbl : Nat) (r : Row) : List Nat :=
  let n := fun k => (r.getD k (.num 0)).n
  match tbl with
  | 0x2100 => [(0x2101, n 2, 0xFFFF), (0x2103, n 4, 0xFFFFFFFF)].filterMap fun x =>
      if x.2.1 ≠ x.2.2 ∧ absentKey id x.1 x.2.1 then some x.2.1 else none
  | _ => []

/-- An entry's number as the records of an image give it, or its default. -/
def recordNo (id : Ident) (recs : List RawRec) (idx sub : Nat) : Nat :=
  let e := (entrySpecs id idx).bind (·.find? fun e => e.sub == sub)
  match recs.find? fun r => r.kind == 1 && r.idx == idx && r.sub == sub with
  | some r => beNat r.value
  | none => (e.map fun e => e.dflt.n).getD 0

/-- The trigger or event input of a value that R319 numbers: WIDTH, ARM_LINE and FILTER. -/
def triggerUnit (idx sub : Nat) : Nat :=
  if 0x4100 ≤ idx ∧ idx < 0x4120 then
    (if sub = 0x07 ∨ sub = 0x0B then idx - 0x4100
      else if sub = 0x27 then 32 + 2 * (idx - 0x4100)
      else if sub = 0x37 then 33 + 2 * (idx - 0x4100)
      else 0xFFFFFFFF)
  else if 0x4200 ≤ idx ∧ idx < 0x4210 ∧ sub = 3 then 96 + (idx - 0x4200)
  else 0xFFFFFFFF

/-- The port of a value that R309 numbers, where its port's GATE_ENABLE is 1: CYCLE_TIME and LIST_LENGTH, and in a row (sub 0)
OPERATION and INTERVAL. -/
def gateUnit (id : Ident) (recs : List RawRec) (idx sub : Nat) : Nat :=
  if ((0x1400 ≤ idx ∧ idx < 0x1500) ∨ idx = 0x0404 ∨ idx = 0x0405) ∧ (sub = 0 ∨ sub = 0x23 ∨ sub = 0x25) ∧
      recordNo id recs idx 0x20 = 1 then objectUnit idx
  else 0xFFFFFFFF

/-- The number that R309, R319 and R360 give for a value outside its range (R87): of an entry, or of a row (sub 0) by its key.
The rule of the ring applies with its ENABLE 1 only. -/
def rangeUnit (id : Ident) (recs : List RawRec) (idx sub key : Nat) : Nat :=
  if idx = 0x5000 ∨ idx = 0x5001 then
    (if recordNo id recs 0x5000 1 = 1 then (if idx = 0x5001 then key else recordNo id recs 0x5000 3) else 0xFFFFFFFF)
  else if gateUnit id recs idx sub ≠ 0xFFFFFFFF then gateUnit id recs idx sub
  else triggerUnit idx sub

/-- REASON_UNIT of a row outside its ranges: the VID of a VLAN row whose fields lie in theirs, but whose UNTAGGED set is no subset
of its members (R133), else the number of R87. -/
def rowUnit (id : Ident) (recs : List RawRec) (t : TableSpec) (idx key : Nat) (row : Row) : Nat :=
  if idx = 0x2003 then (if keyOk t idx key && fieldsOk t.fields row then key else 0xFFFFFFFF) else rangeUnit id recs idx 0 key

/-- SAFE_ON keeps its fixed bits (R466). -/
def settleVal (idx sub : Nat) (v : Val) : Val :=
  if 0x8001 ≤ idx ∧ idx ≤ 0x8016 ∧ sub = 2 then .num (v.n ||| safeAlways (idx - 0x8000)) else v

/-- What stage 2 has read so far: the image, and INDEX and SUBINDEX with the key of the last record. -/
structure ImgScan where
  img : Image := {}
  last : Option (Nat × Nat) := none
deriving DecidableEq, Repr, Inhabited

/-- One record follows the last (R79). -/
def inOrder (last : Option (Nat × Nat)) (a k : Nat) : Bool :=
  match last with
  | none => true
  | some (b, j) => b < a || (b == a && j < k)

/-- An entry record. "Such a value" of R35, which fails with TYPE, is read as an OCTETS value of another length, as R87 says of
TYPE; a BOOL other than 0 or 1 fails with VALUE_RANGE (DEDUCED, log entry 61). -/
def takeEntry (id : Ident) (recs : List RawRec) (r : RawRec) (p : ImgScan) : Except CheckFail ImgScan :=
  let detail := r.idx * 256 + r.sub
  let a := entryKey r.idx r.sub
  if r.idx / 256 ≠ r.sec ∨ !inOrder p.last a 0 then .error { reason := 0x0103, detail := detail }
  else
    match (entrySpecs id r.idx).bind (·.find? fun e => e.sub == r.sub && e.acc == .rws) with
    | none => .error { reason := 0x0104, detail := detail }
    | some e =>
      if r.value.length ≠ e.ty.size then .error { reason := 0x0105, detail := detail }
      else
        let v := (e.ty.decode r.value).getD (.num 0)
        if !(e.ty.encodes v && e.rng.ok e.ty v) then
          .error { reason := 0x0106, detail := detail, unit := rangeUnit id recs r.idx r.sub 0 }
        else if absentIndex id r.idx then .error { reason := 0x0107, detail := detail, unit := objectUnit r.idx }
        else
          match (entryPorts r.idx r.sub v).find? fun n => !portPresent id n with
          | some n => .error { reason := 0x0107, detail := detail, unit := n }
          | none => .ok { img := imgPut id p.img r.idx r.sub (settleVal r.idx r.sub v), last := some (a, 0) }

/-- Rows of a home slice of STREAM_GATE_LIST (R151). -/
def listRows (im : Image) (slice : Nat) : Nat := ((imgTable im 0x2102).filter fun e => e.1 / 65536 == slice).length

/-- One more row exceeds CAPACITY or the share of a home slice (R44, R86, R151). -/
def tableFull (t : TableSpec) (im : Image) (tbl key : Nat) : Bool :=
  t.cap ≤ (imgTable im tbl).length || (tbl == 0x2102 && 4096 ≤ listRows im (key / 65536))

/-- A table-row record. -/
def takeRow (id : Ident) (recs : List RawRec) (r : RawRec) (p : ImgScan) : Except CheckFail ImgScan :=
  let a := entryKey r.idx 0
  match stagedTable id r.idx with
  | none =>
    if r.idx / 256 ≠ r.sec ∨ !inOrder p.last a (2 ^ 416) then .error { reason := 0x0103, detail := r.idx * 256 }
    else .error { reason := 0x0104, detail := r.idx * 256 }
  | some t =>
    let key := rowKey t r.value
    let detail := r.idx * 256 + key % 256 * 2 ^ 24
    if r.idx / 256 ≠ r.sec ∨ !inOrder p.last a key then .error { reason := 0x0103, detail := detail }
    else if r.value.length ≠ rowSize t then .error { reason := 0x0105, detail := detail }
    else
      let row := decodeFields t.fields (r.value.drop t.keyTy.size)
      if !(keyOk t r.idx key && fieldsOk t.fields row && imageRowOk r.idx row) then
        .error { reason := 0x0106, detail := detail, unit := rowUnit id recs t r.idx key row }
      else if absentIndex id r.idx then .error { reason := 0x0107, detail := detail, unit := objectUnit r.idx }
      else if absentKey id r.idx key then .error { reason := 0x0107, detail := detail, unit := absentUnit r.idx key }
      else
        match ((rowPorts r.idx row).filter fun n => !portPresent id n) ++ rowAbsentKeys id r.idx row with
        | n :: _ => .error { reason := 0x0107, detail := detail, unit := n }
        | [] =>
          if tableFull t p.img r.idx key then .error { reason := 0x0108, detail := detail }
          else .ok { img := imgPutRow p.img r.idx key row, last := some (a, key) }

/-- One record of stage 2. -/
def takeRecord (id : Ident) (recs : List RawRec) (p : ImgScan) (r : RawRec) : Except CheckFail ImgScan :=
  if !r.good then .error { reason := 0x0102, detail := r.idx * 256 + r.sub }
  else if r.kind = 1 then takeEntry id recs r p else takeRow id recs r p

/-- Stage 1 and the structure tests of stage 2: the configuration that an image holds. -/
def parseImage (id : Ident) (b : Bytes) : Except CheckFail Image :=
  match stage1 id b with
  | some f => .error f
  | none =>
    match badDirectory b with
    | some f => .error f
    | none =>
      let recs := imageRecords b
      (recs.foldlM (takeRecord id recs) {}).map (·.img)

/-! ## Building -/

/-- A record (R79). -/
def recordBytes (idx sub kind : Nat) (v : Bytes) : Bytes :=
  beBytes 2 idx ++ beBytes 1 sub ++ beBytes 1 kind ++ beBytes 4 v.length ++ padTo ((v.length + 3) / 4 * 4) v

/-- The value of a row record (R79). -/
def rowBytes (t : TableSpec) (key : Nat) (r : Row) : Bytes :=
  beBytes t.keyTy.size key ++
    ((t.fields.zip r).filter fun x => x.1.acc == .rw).flatMap fun x => x.1.ty.encode x.2

/-- The records of a configuration, by INDEX and SUBINDEX. -/
def configRecords (id : Ident) (im : Image) : AMap Bytes :=
  let entries := im.entries.map fun e =>
    let ty := (((entrySpecs id (e.1 / 256)).bind (·.find? (·.sub = e.1 % 256))).map (·.ty)).getD (.u 1)
    (e.1, recordBytes (e.1 / 256) (e.1 % 256) 1 (ty.encode e.2))
  im.tables.foldl (fun m x =>
    match tableSpec id x.1 with
    | some t => AMap.set m (x.1 * 256) (x.2.flatMap fun e => recordBytes x.1 0 2 (rowBytes t e.1 e.2))
    | none => m) entries

/-- The sections of a configuration: SECTION_ID and bytes. -/
def configSections (id : Ident) (im : Image) : AMap Bytes :=
  (configRecords id im).foldl (fun m e => AMap.set m (e.1 / 65536) (AMap.get [] m (e.1 / 65536) ++ e.2)) []

/-- Directory entries for sections that follow each other from an offset. -/
def directoryBytes : AMap Bytes → Nat → Bytes
  | [], _ => []
  | (sid, b) :: r, off =>
    beBytes 2 sid ++ zeros 2 ++ beBytes 4 off ++ beBytes 4 b.length ++ beBytes 4 (crc32c b) ++
      directoryBytes r (off + b.length)

/-- The header of an image that the device builds (R77). -/
def headerBytes (id : Ident) (sections len gen time : Nat) : Bytes :=
  let h := beBytes 4 0x4B4C5259 ++ beBytes 2 1 ++ beBytes 2 sections ++ beBytes 8 gen ++ beBytes 4 0x2560 ++
    beBytes 1 (Config.builtMask.toNat ||| 2 ^ id.ordering) ++ beBytes 1 (Config.builtRevision % (id.revision + 1)) ++
    zeros 2 ++ beBytes 4 len ++ beBytes 8 time ++ zeros 24
  h ++ beBytes 4 (crc32c h)

/-- The image that a COMMIT builds from a configuration (R30, R76 to R80). -/
def buildImage (id : Ident) (gen time : Nat) (im : Image) : Bytes :=
  let secs := configSections id im
  let first := 64 + 16 * secs.length
  let body := secs.flatMap (·.2)
  let all := headerBytes id secs.length (first + body.length + 8) gen time ++ directoryBytes secs first ++ body ++
    beBytes 4 0x4B454E44
  all ++ beBytes 4 (crc32c all)

end Sys2Proof.Machine
end

