-- ==== Sys2Proof/Machine/Flags.lean ====
section
/-!
DEFINITION. Status, event and interrupt flags: the event matrix (R410, R411), the interrupt controller (R412 to
R423), MSI-X delivery (R373) and the per-block fault model (R462 to R468).
-/
namespace Sys2Proof.Machine

/-! ## MSI-X -/

/-- A vector's table entry (R373). -/
def msixEntry (p : Pf) (v : Nat) : MsixEntry := AMap.get {} p.table v

/-- Whether a function may send a vector's message now (R373). -/
def msixAllowed (s : State) (f v : Nat) : Bool :=
  let p := s.pf f
  s.pcie.linkUp && !p.d3 && p.msixEnable && !p.msixMask && !(msixEntry p v).masked

/-- Delivers a target's message through a function's vector: sends it, or sets the pending bit (R373). -/
def sendMsix (f v : Nat) (s : State) : State :=
  if msixAllowed s f v then
    s.emit (.msix f v (msixEntry (s.pf f) v).addr (msixEntry (s.pf f) v).data)
  else s.updPf f fun p => { p with pending := AMap.put false p.pending v true }

/-! ## Interrupt controller -/

/-- Whether a source number can become pending (R412). -/
def srcExists (n : Nat) : Bool := (1 ≤ n && n ≤ 273) || (512 ≤ n && n ≤ 1279)

/-- A source's state. -/
def State.source (s : State) (n : Nat) : IntSource := AMap.get {} s.intc.sources n

/-- A group's state. -/
def State.group (s : State) (g : Nat) : IntGroup := AMap.get {} s.intc.groups g

/-- A target's state. -/
def State.target (s : State) (t : Nat) : IntTarget := s.intc.targets.getD t {}

/-- Changes a source. -/
def State.updSource (s : State) (n : Nat) (f : IntSource → IntSource) : State :=
  { s with intc := { s.intc with sources := AMap.upd {} s.intc.sources n f } }

/-- Changes a group. -/
def State.updGroup (s : State) (g : Nat) (f : IntGroup → IntGroup) : State :=
  { s with intc := { s.intc with groups := AMap.upd {} s.intc.groups g f } }

/-- Changes a target. -/
def State.updTarget (s : State) (t : Nat) (f : IntTarget → IntTarget) : State :=
  { s with intc := { s.intc with targets := updAt s.intc.targets t f } }

/-- The active regime of a target is threshold mode (R415). -/
def thresholdMode (m : Mode) (t : IntTarget) : Bool := !isActive m || t.mode == 1

/-- Running priority: the level of the top stack entry, 0 when empty (R414). -/
def runningPriority (t : IntTarget) : Nat :=
  match t.stack with
  | [] => 0
  | e :: _ => e.2

/-- P(t) of R416. -/
def priorityOf (m : Mode) (t : IntTarget) : Nat := if thresholdMode m t then t.threshold else runningPriority t

/-- The hold-off timer of a group runs: it has been started and its end has not come (R421). -/
def holdoffRuns (s : State) (g : Nat) : Bool :=
  match (s.group g).runs with
  | some t => decide (s.cycle < t)
  | none => false

/-- The hold-off timer of a source's group runs (R421). -/
def heldOff (s : State) (n : Nat) : Bool := holdoffRuns s (n / 32)

/-- Source `n` in state `x` is deliverable to target t (R416). -/
def deliverable (s : State) (t n : Nat) (x : IntSource) : Bool :=
  x.enable && x.pending && x.target == t && 1 ≤ x.level && x.level ≤ 15 && !heldOff s n &&
  priorityOf s.chip.mode (s.target t) < x.level

/-- The deliverable source with the highest level, the lowest number among equals (R418). -/
def bestSource (s : State) (t : Nat) : Option (Nat × Nat) :=
  s.intc.sources.foldl (fun best e =>
    if deliverable s t e.1 e.2 then
      match best with
      | none => some (e.1, e.2.level)
      | some b => if b.2 < e.2.level then some (e.1, e.2.level) else some b
    else best) none

/-- Some source that the scan of this core cycle sees is deliverable to target t (R416): a raise is seen two core cycles after
it. -/
def seesSource (s : State) (t : Nat) : Bool :=
  s.intc.sources.any fun e => deliverable s t e.1 e.2 && decide (e.2.seenAt ≤ s.cycle)

/-- Target t requests (R417). -/
def requests (s : State) (t : Nat) : Bool := seesSource s t && !(s.target t).mask && !(s.target t).sleep

/-- The scan of one target (R417): a message when its request rises, or when an action on it leaves it requesting. -/
def scanTarget (acted : Nat → Bool) (s : State) (t : Nat) : State :=
  let now := requests s t
  let tgt := s.target t
  let s1 := if now && (!tgt.request || acted t) then sendMsix tgt.function tgt.vector s else s
  s1.updTarget t fun x => { x with request := now }

/-- A scan that finds nothing: no request stands, and no source waits. -/
def scanQuiet (s : State) : Bool :=
  s.intc.targets.all (!·.request) && s.intc.sources.all fun e => !e.2.enable || !e.2.pending

/-- No target has been acted on. -/
def clearActed (s : State) : State :=
  if s.intc.acted.isEmpty then s else { s with intc := { s.intc with acted := [] } }

/-- The scan of every target in a core cycle (R416, R417), after what acted on targets in the cycle before. -/
def scanTargets (s : State) : State :=
  clearActed (if scanQuiet s then s else (upTo 64).foldl (scanTarget s.intc.acted.contains) s)

/-- A CLAIM, an end of interrupt or a PENDING clear has acted on targets: they send again in the next core cycle if they still
request (R417). -/
def noteActed (l : List Nat) (s : State) : State :=
  if l.isEmpty then s else { s with intc := { s.intc with acted := s.intc.acted ++ l } }

/-- INT_N is driven low while any target with PIN 1 requests (R417), from LOAD onwards (R512). -/
def intNLow (s : State) : Bool := isAlive s.chip.mode && s.intc.targets.any fun t => t.pin && t.request

/-- The number of enabled pending sources of a group (R421). -/
def enabledPending (s : State) (g : Nat) : Nat :=
  (s.intc.sources.filter fun e => e.1 / 32 == g && e.2.enable && e.2.pending).length

/-- Starts the group's hold-off where the number of its enabled pending sources has risen from 0; a running timer
neither restarts nor is extended (R421). -/
def startHoldoff (g was : Nat) (s : State) : State :=
  if was = 0 ∧ 0 < enabledPending s g ∧ 0 < (s.group g).holdoff ∧ !holdoffRuns s g then
    s.updGroup g fun x => { x with runs := some (s.cycle + nsCycles x.holdoff) }
  else s

/-- A source becomes pending: the scan sees it two core cycles later (R416). -/
def IntSource.raise (cycle : Nat) (x : IntSource) : IntSource :=
  { x with pending := true, count := min 255 (x.count + 1), seenAt := if x.pending then x.seenAt else cycle + 2 }

/-- A raise of a source (R413): PENDING, COUNT saturating at 255, and the group's hold-off. -/
def raiseSource (n : Nat) (s : State) : State :=
  if srcExists n then
    let was := enabledPending s (n / 32)
    let s1 := ((s.updSource n (IntSource.raise s.cycle)).hit (.pending n) 0).hit (.count n) (s.source n).count
    startHoldoff (n / 32) was s1
  else s

/-- A sleeping target has an enabled pending source with level 1 to 15 (R422). -/
def targetWakes (s : State) (t : Nat) : Bool :=
  (s.target t).sleep &&
    s.intc.sources.any fun e => e.2.enable && e.2.pending && e.2.target == t && 1 ≤ e.2.level && e.2.level ≤ 15

/-- A wake condition exists for a function (R422). -/
def wakeCondition (s : State) (f : Nat) : Bool := (upTo 64).any fun t => (s.target t).function == f && targetWakes s t

/-- A target's stack is emptied when its active regime changes with the device state (R415). -/
def regimeTarget (old new : Mode) (t : IntTarget) : IntTarget :=
  if thresholdMode old t != thresholdMode new t then { t with stack := [] } else t

/-- A change of device state empties the stacks of the targets whose active regime changes (R415). -/
def regimeChange (old new : Mode) (s : State) : State :=
  { s with intc := { s.intc with targets := s.intc.targets.map (regimeTarget old new) } }

/-! ## Event matrix -/

/-- A line that a producer may pulse (R411): not 0, not reserved, not of an absent slice. -/
def lineExists (id : Ident) (l : Nat) : Bool :=
  1 ≤ l && l ≤ 247 &&
  (if 192 ≤ l ∧ l ≤ 208 then slicePresent id (l - 192)
   else if 209 ≤ l ∧ l ≤ 225 then slicePresent id (l - 209)
   else if 226 ≤ l ∧ l ≤ 242 then slicePresent id (l - 226)
   else true)

/-- A producer pulses a line in this core cycle (R410): pulses of one line in one cycle merge. -/
def pulse (l : Nat) (s : State) : State :=
  if lineExists s.ident l && !s.intc.pulses.contains (l, s.cycle) then
    ({ s with intc := { s.intc with pulses := s.intc.pulses ++ [(l, s.cycle)] } } : State).bumpK 0x6104 2 l
  else s

/-! ## Faults -/

/-- A fault instance's registers. -/
def State.fault (s : State) (b i : Nat) : FaultInst := AMap.get {} s.faults (b * 32 + i)

/-- Changes a fault instance. -/
def State.updFault (s : State) (b i : Nat) (f : FaultInst → FaultInst) : State :=
  { s with faults := AMap.upd {} s.faults (b * 32 + i) f }

/-- The low 40 bits of D0 NS above CODE and DETAIL (R463). -/
def historyEntry (ns code detail : Nat) : Nat := (ns % 2 ^ 40) * 2 ^ 24 + code % 256 * 2 ^ 16 + detail % 2 ^ 16

/-- SAFE_ON of a block in force: the configured bits and the *always* bits (R466). -/
def safeOn (s : State) (b : Nat) : Nat := s.cfgN (0x8000 + b) 2 ||| safeAlways b

/-- States that a fault can take to SAFE (R71). -/
def canEnterSafe : Mode → Bool
  | .load => true | .check => true | .hold => true | .armed => true | .run => true | _ => false

/-- A request for SAFE that stands stays: one of an earlier core cycle, and in one cycle the lowest block and code (R468). -/
def keepsSafe (now reason : Nat) : Option (Nat × Nat × Nat) → Bool
  | some (r, _, at_) => decide (at_ < now) || decide (r ≤ reason)
  | none => false

/-- Notes that the device enters SAFE in the next core cycle, with REASON and REASON_DETAIL and the core cycle of the detection
(R468). -/
def requestSafe (reason detail : Nat) (s : State) : State :=
  if canEnterSafe s.chip.mode && !keepsSafe s.cycle reason s.chip.safePending then
    { s with chip := { s.chip with safePending := some (reason, detail, s.cycle) } }
  else s

/-- This core cycle is one of entry to SAFE (R468): a request for it stands from an earlier cycle. What falls in the same cycle
gives way to it (R485). -/
def safeDue (s : State) : Bool :=
  match s.chip.safePending with
  | some (_, _, at_) => decide (at_ < s.cycle) && canEnterSafe s.chip.mode
  | none => false

/-- CODE of a history entry (R463). -/
def entryCode (e : Nat) : Nat := e / 2 ^ 16 % 256

/-- An entry takes its place among those of its core cycle, in ascending code order (R464). -/
def insertEntry (e : Nat) : List Nat → List Nat
  | [] => [e]
  | x :: l => if entryCode e < entryCode x then e :: x :: l else x :: insertEntry e l

/-- The history queue after one more entry of core cycle `now`: those of one cycle stand in ascending code order, and what an
8-entry queue has no room for counts in LOST (R464). -/
def pushHistory (now e : Nat) (x : FaultInst) : FaultInst :=
  let fresh := if x.freshAt = now then min x.fresh x.hist.length else 0
  let old := x.hist.length - fresh
  let l := x.hist.take old ++ insertEntry e (x.hist.drop old)
  { x with
    hist := l.take 8, freshAt := now, fresh := min 8 l.length - old
    lost := if l.length ≤ 8 then x.lost else min 0xFFFFFFFF (x.lost + 1) }

/-- Step 2 of R464: the history entry, or LOST where the queue is full, and the instance's interrupt where it is enabled. -/
def recordFault (b i c e : Nat) (s : State) : State :=
  let x := s.fault b i
  let s1 := if x.hist.length < 8 then (if x.hist.isEmpty then s.hit (.faultHead b i) 0 else s)
    else s.hit (.faultLost b i) x.lost
  let s2 := s1.updFault b i fun x => pushHistory s.cycle e { x with status := x.status ||| 2 ^ (c - 1) }
  if bit (s.cfgN (0x8000 + b) 1) (c - 1) then raiseSource (512 + (b - 1) * 32 + i) s2 else s2

/-- A write of 1 to a STATUS bit (R464, R477): a detection of the same core cycle leaves it set, and then counts as having
found it clear. -/
def clearFaultBit (b i c : Nat) (s : State) : State :=
  match s.hitOf (.faultStatus b i c) with
  | some 0 => s
  | some (e + 1) => recordFault b i c e (s.rehit (.faultStatus b i c))
  | none => s.updFault b i fun x => { x with status := x.status - (x.status &&& 2 ^ (c - 1)) }

/-- Instance i of block b detects a fault of code c (R464); nothing before LOAD (R462) and nothing of an absent
block. -/
def detectFault (b i c detail : Nat) (s : State) : State :=
  if isAlive s.chip.mode && blockPresent s.ident b then
    let fresh := !bit (s.fault b i).status (c - 1)
    let e := historyEntry (s.ns 0) c detail
    let s1 := if fresh then recordFault b i c e (s.hit (.faultStatus b i c) 0) else s.hit (.faultStatus b i c) (e + 1)
    if bit (safeOn s b) (c - 1) then requestSafe (b * 256 + c) detail s1 else s1
  else s

/-- A parity error in the fault registers of a block is code 0xFF (R467, R468): never written to history. -/
def detectMachinery (b i : Nat) (s : State) : State :=
  if isAlive s.chip.mode && blockPresent s.ident b then requestSafe (b * 256 + 0xFF) i s else s

/-- A recording by the health monitor pulses HEALTH_ALERT (R473, R411). -/
def healthFault (c detail : Nat) (s : State) : State :=
  let s1 := detectFault 21 0 c detail s
  if bit (s.fault 21 0).status (c - 1) then s1 else pulse 247 s1

/-- A write denied by the region's rights (R372) sets WRITE_DENIED of the writer's HOST_ERRORS. -/
def denyWrite (f : Nat) (s : State) : State := (s.updPf f fun p => { p with writeDenied := true }).hit (.hostError f 0) 0

/-- COMPLETION_TIMEOUT of a function's HOST_ERRORS (R376). -/
def noteTimeout (f : Nat) (s : State) : State := (s.updPf f fun p => { p with timeout := true }).hit (.hostError f 2) 0

/-- POISONED_RX of a function's HOST_ERRORS (R376). -/
def notePoisoned (f : Nat) (s : State) : State := (s.updPf f fun p => { p with poisoned := true }).hit (.hostError f 3) 0

/-! ## Advanced Error Reporting -/

/-- An uncorrectable error's status bit; the first unmasked one leaves its number and its TLP's header (R376; PRESUMED, log
entry 83). -/
def Aer.log (b : Nat) (header : List Nat) (a : Aer) : Aer :=
  let a1 := { a with unc := a.unc ||| 2 ^ b }
  if bit a.uncMask b || a.unc - (a.unc &&& a.uncMask) != 0 then a1 else { a1 with first := b, header := header }

/-- The class of an error by its severity: 0 reported as an advisory correctable error, 1 non-fatal, 2 fatal (PRESUMED, log
entry 83). -/
def errorLevel (p : Pf) (b : Nat) (advisory : Bool) : Nat := if bit p.aer.uncSev b then 2 else if advisory then 0 else 1

/-- A function records an error: device status, AER status and log. -/
def recordError (b : Nat) (advisory : Bool) (header : List Nat) (p : Pf) : Pf :=
  let level := errorLevel p b advisory
  let status := p.devStatus ||| 2 ^ level ||| (if b = 20 then 8 else 0)
  let noted := if level = 0 then { p.aer with cor := p.aer.cor ||| 2 ^ 13 } else p.aer
  { p with devStatus := status, aer := if level = 0 && bit p.aer.corMask 13 then noted else noted.log b header }

/-- An error that is not masked sends its message where the function reports its class. -/
def reportsError (p : Pf) (b level : Nat) : Bool :=
  bit p.errEnable level && (b != 20 || bit p.errEnable 3) && !bit (if level = 0 then p.aer.corMask else p.aer.uncMask) (if level = 0 then 13 else b)

/-- AER of a function for the uncorrectable error with status bit `b` (R376): 12 poisoned TLP, 14 completion timeout, 16
unexpected completion, 19 ECRC error, 20 unsupported request. The header that the host's TLP had is no operand and is a free
value; a completion timeout has none (PRESUMED, log entry 83). -/
def noteAer (f b : Nat) (advisory : Bool) (s : State) : State :=
  let level := errorLevel (s.pf f) b advisory
  let tells := reportsError (s.pf f) b level && s.pcie.linkUp
  let (header, s1) := if b = 14 then ((s.pf f).aer.header, s) else drawHeader s
  let s2 := s1.updPf f (recordError b advisory header)
  if tells then s2.emit (.errorMessage f level) else s2
where
  /-- The four doublewords of a received TLP's header. -/
  drawHeader (s : State) : List Nat × State :=
    let a := s.draw
    let b := a.2.draw
    ([a.1 / 2 ^ 32, a.1 % 2 ^ 32, b.1 / 2 ^ 32, b.1 % 2 ^ 32], b.2)

/-- A function with the link up and its registers reachable answers a memory request to its BARs with Unsupported Request: it
is in D3hot or its Memory Space Enable is 0 (R374, R376; DEDUCED, log entry 83). -/
def refusesBar (s : State) (f : Nat) : Bool :=
  decide (f < 4) && s.pcie.linkUp && isAlive s.chip.mode && ((s.pf f).d3 || !(s.pf f).mse)

/-- A request that a function does not execute (R369, R374, R376): recorded, and a read answered Unsupported Request. -/
def unsupported (f : Nat) (write : Bool) (s : State) : State := (noteAer f 20 (!write) s).emit (.unsupported f write)

/-- What a BAR request does that does not reach the device's registers. -/
def refuseBar (f : Nat) (write : Bool) (s : State) : State := if refusesBar s f then unsupported f write s else s

end Sys2Proof.Machine
end

