-- ==== Sys2Proof/Machine/Parse.lean ====
section
/-!
DEFINITION. The parser (R127, R128) and the byte edits of frames: VLAN, R-TAG and pair tags (R134, R163 to R166,
R202, R441).
-/
namespace Sys2Proof.Machine

/-- What the parser extracts (R127). Offsets count from the destination address; an absent field is `none`. -/
structure Parsed where
  da : Nat := 0
  sa : Nat := 0
  pairAt : Option Nat := none
  tagAt : Option Nat := none
  tci : Nat := 0
  inner : Bool := false
  rtagAt : Option Nat := none
  rtagSeq : Nat := 0
  etherAt : Nat := 12
  ether : Option Nat := none
  subtype : Option Nat := none
  ipVer : Nat := 0
  ipAt : Nat := 0
  dscp : Nat := 0
  ecn : Nat := 0
  proto : Nat := 0
  ipSrc : Bytes := []
  ipDst : Bytes := []
  udpAt : Option Nat := none
  sport : Nat := 0
  dport : Nat := 0
  ptpAt : Option Nat := none
  ptpType : Nat := 0
deriving DecidableEq, Repr, Inhabited

/-- The big-endian field of `n` bytes at an offset, when the parse window holds it. -/
def win (w : Bytes) (off n : Nat) : Option Nat := if off + n ≤ w.length then some (beAt w off n) else none

/-- A byte of the window. -/
def byteAt (w : Bytes) (off : Nat) : Nat := (w.getD off 0).toNat

/-- The offsets of the transport and PTP headers after the edits before them (R271). -/
def Parsed.shift (p : Parsed) (d : Int) : Parsed :=
  let mv := fun (o : Nat) => ((o : Int) + d).toNat
  { p with ipAt := mv p.ipAt, udpAt := p.udpAt.map mv, ptpAt := p.ptpAt.map mv }

/-- The pair tag after the source address (R127 order 2). -/
def parsePair (w : Bytes) : Option Nat :=
  if win w 12 2 = some 0x88B5 ∧ win w 14 1 = some 2 ∧ 20 ≤ w.length then some 12 else none

/-- A VLAN tag at an offset: its TCI, when its TPID is one of the list. -/
def parseTag (tpids : List Nat) (w : Bytes) (off : Nat) : Option Nat :=
  match win w off 2, win w (off + 2) 2 with
  | some t, some tci => if tpids.contains t then some tci else none
  | _, _ => none

/-- The R-TAG at an offset: its sequence number (R163). -/
def parseRtag (w : Bytes) (off : Nat) : Option Nat :=
  if win w off 2 = some 0xF1C1 then win w (off + 4) 2 else none

/-- IPv6 extension headers (R127 order 8): from a next-header value and offset to the last next-header value, and the offset
after the headers with whether the datagram is unfragmented or a first fragment; none of those when the window ends inside
a header. -/
def parseExt : Nat → Bytes → Nat → Nat → Bool → Nat × Option (Nat × Bool)
  | 0, _, nh, _, _ => (nh, none)
  | k + 1, w, nh, off, first =>
    if nh = 0 ∨ nh = 43 ∨ nh = 44 ∨ nh = 60 then
      if off + 8 ≤ w.length then
        if nh = 44 then parseExt k w (byteAt w off) (off + 8) (first && beAt w (off + 2) 2 / 8 == 0)
        else parseExt k w (byteAt w off) (off + (byteAt w (off + 1) + 1) * 8) first
      else (nh, none)
    else (nh, some (off, first))

/-- UDP and PTP over UDP (R127 orders 9 and 10). -/
def parseUdp (w : Bytes) (off : Nat) (first : Bool) (p : Parsed) : Parsed :=
  if p.proto = 17 ∧ first ∧ off + 4 ≤ w.length then
    let p1 := { p with udpAt := some off, sport := beAt w off 2, dport := beAt w (off + 2) 2 }
    if (p1.dport = 319 ∨ p1.dport = 320) ∧ off + 8 < w.length then
      { p1 with ptpAt := some (off + 8), ptpType := byteAt w (off + 8) % 16 }
    else p1
  else p

/-- The IPv4 header at an offset. -/
def parseIp4 (w : Bytes) (o : Nat) (p : Parsed) : Parsed :=
  let v := byteAt w o
  if v / 16 = 4 ∧ 5 ≤ v % 16 ∧ o + 20 ≤ w.length then
    parseUdp w (o + v % 16 * 4) (beAt w (o + 6) 2 % 8192 == 0)
      { p with
        ipVer := 4, ipAt := o, dscp := byteAt w (o + 1) / 4, ecn := byteAt w (o + 1) % 4, proto := byteAt w (o + 9),
        ipSrc := slice w (o + 12) 4, ipDst := slice w (o + 16) 4 }
  else p

/-- The IPv6 header at an offset. -/
def parseIp6 (w : Bytes) (o : Nat) (p : Parsed) : Parsed :=
  if byteAt w o / 16 = 6 ∧ o + 40 ≤ w.length then
    let tc := byteAt w o % 16 * 16 + byteAt w (o + 1) / 16
    let p1 := { p with
      ipVer := 6, ipAt := o, dscp := tc / 4, ecn := tc % 4, proto := byteAt w (o + 6),
      ipSrc := slice w (o + 8) 16, ipDst := slice w (o + 24) 16 }
    match parseExt 16 w p1.proto (o + 40) true with
    | (proto, some (off, first)) => parseUdp w off first { p1 with proto := proto }
    | (proto, none) => { p1 with proto := proto }
  else p

/-- The headers from the payload EtherType on (R127 orders 6 to 10). -/
def parseBody (w : Bytes) (p : Parsed) : Parsed :=
  let o := p.etherAt + 2
  if o < w.length then
    match p.ether with
    | some 0x88B5 => { p with subtype := some (byteAt w o) }
    | some 0x88F7 => { p with ptpAt := some o, ptpType := byteAt w o % 16 }
    | some 0x0800 => parseIp4 w o p
    | some 0x86DD => parseIp6 w o p
    | _ => p
  else p

/-- The parser over the first 128 bytes (R25, R127). -/
def parse (sTpid : Nat) (b : Bytes) : Parsed :=
  let w := b.take 128
  let pair := parsePair w
  let o1 := if pair.isSome then 20 else 12
  let outer := parseTag [0x8100, sTpid] w o1
  let o2 := if outer.isSome then o1 + 4 else o1
  let inner := outer.isSome && (parseTag [0x8100] w o2).isSome
  let o3 := if inner then o2 + 4 else o2
  let rtag := parseRtag w o3
  let o4 := if rtag.isSome then o3 + 6 else o3
  parseBody w
    { da := beAt w 0 6, sa := beAt w 6 6, pairAt := pair,
      tagAt := if outer.isSome then some o1 else none, tci := outer.getD 0, inner := inner,
      rtagAt := if rtag.isSome then some o3 else none, rtagSeq := rtag.getD 0, etherAt := o4, ether := win w o4 2 }

/-- PCP, DEI and VID of the outer tag. -/
def Parsed.pcp (p : Parsed) : Nat := p.tci / 8192
def Parsed.dei (p : Parsed) : Bool := p.tci / 4096 % 2 == 1
def Parsed.vid (p : Parsed) : Nat := p.tci % 4096

/-- PTP_EVENT (R128). -/
def Parsed.ptpEvent (p : Parsed) : Bool := p.ptpAt.isSome && p.ptpType ≤ 3

/-! ## Byte edits -/

/-- Bytes inserted at an offset. -/
def insertAt (b : Bytes) (off : Nat) (v : Bytes) : Bytes := b.take off ++ v ++ b.drop off

/-- Bytes removed at an offset. -/
def removeAt (b : Bytes) (off n : Nat) : Bytes := b.take off ++ b.drop (off + n)

/-- The VLAN edit of R134: the outer tag removed, or the frame left with TPID 0x8100 and the given TCI. -/
def vlanEdit (p : Parsed) (untagged : Bool) (tci : Nat) (b : Bytes) : Bytes :=
  match p.tagAt with
  | some o => if untagged then removeAt b o 4 else putBytes b o (beBytes 2 0x8100 ++ beBytes 2 tci)
  | none =>
    let o := if p.pairAt.isSome then 20 else 12
    if untagged then b else insertAt b o (beBytes 2 0x8100 ++ beBytes 2 tci)

/-- The offset after the last VLAN tag of a frame that has been through the VLAN edit (R163). -/
def afterVlan (p : Parsed) (untagged : Bool) : Nat :=
  let o := if p.pairAt.isSome then 20 else 12
  o + (if untagged then 0 else 4) + (if p.inner then 4 else 0)

/-- The R-TAG edit of R165: leave with the sequence number and the reserved bytes 0 (R163), or without an R-TAG. -/
def rtagEdit (p : Parsed) (off : Nat) (out : Bool) (seq : Nat) (b : Bytes) : Bytes :=
  if p.rtagAt.isSome then
    if out then putBytes b (off + 2) ([0, 0] ++ beBytes 2 seq) else removeAt b off 6
  else if out then insertAt b off (beBytes 2 0xF1C1 ++ [0, 0] ++ beBytes 2 seq)
  else b

/-- A pair tag (R441). -/
def pairTagBytes (group : Nat) (active announce : Bool) (claim : Nat) : Bytes :=
  [0x88, 0xB5, 0x02, BitVec.ofNat 8 (group % 16 * 16 + b2n active * 8 + b2n announce * 4)] ++ beBytes 4 claim

/-- The pair-tag edit: any tag the frame arrived with is removed, and a new one inserted after the SA. -/
def pairEdit (p : Parsed) (tag : Option Bytes) (b : Bytes) : Bytes :=
  let b1 := if p.pairAt.isSome then removeAt b 12 8 else b
  match tag with
  | some t => insertAt b1 12 t
  | none => b1

/-- RFC 1624: a 16-bit ones'-complement checksum after a covered word changes from `old` to `new`. -/
def csumUpdate (csum old new : Nat) : Nat :=
  0xFFFF - fold16 4 ((0xFFFF - csum) + (0xFFFF - old) + new)

/-- The ECN field of the IP header set to 0b11 (R202), with the IPv4 header checksum updated. -/
def ecnEdit (p : Parsed) (b : Bytes) : Bytes :=
  if p.ipVer = 4 then
    let old := beAt b p.ipAt 2
    let new := old / 4 * 4 + 3
    if old = new then b
    else putBytes (putBytes b p.ipAt (beBytes 2 new)) (p.ipAt + 10) (beBytes 2 (csumUpdate (beAt b (p.ipAt + 10) 2) old new))
  else if p.ipVer = 6 then
    let old := byteAt b (p.ipAt + 1)
    putBytes b (p.ipAt + 1) [BitVec.ofNat 8 (old / 64 * 64 + 48 + old % 16)]
  else b

end Sys2Proof.Machine
end

