-- ==== Sys2Proof/Machine/Tine.lean ====
section
/-!
DEFINITION. Time stamps and Tine records (R259 to R262, R274 to R278), and the treatment of PTP event messages
(R264 to R273).
-/
namespace Sys2Proof.Machine

/-! ## Stamps -/

/-- Each domain in quarter nanoseconds at a phase of the current tick (R260). -/
def stampsNow (s : State) (quarter : Nat) : List Nat :=
  s.time.domains.map fun x => x.value.toNat / 2 ^ 30 + quarter % 4

/-- The steps that each domain has applied (R270). -/
def stepsNow (s : State) : List Nat := s.time.domains.map (·.steps)

/-- A stamp corrected by a signed delay in quarter nanoseconds, modulo the 66-bit stamp (R259). -/
def stampShift (q : Nat) (d : Int) : Nat := (((q : Int) + d) % (2 ^ 66 : Int)).toNat

/-- The nanoseconds and quarter of a stamp. -/
def stampNs (q : Nat) : Nat := q / 4
def stampQ (q : Nat) : Nat := q % 4

/-- A field of a port's PTP_PORT row under a configuration (R282). -/
def ptpPort (s : State) (im : Image) (port sub : Nat) : Nat := imgFieldN s.ident im 0x4302 port sub

/-- The enabled PTP_DOMAIN_MAP row of a (domainNumber, majorSdoId) pair (R281). -/
def ptpMapRow (s : State) (im : Image) (num sdo : Nat) : Option Nat :=
  (upTo 8).find? fun r =>
    imgFieldN s.ident im 0x4301 r 2 == 1 && imgFieldN s.ident im 0x4301 r 3 == num && imgFieldN s.ident im 0x4301 r 4 == sdo

/-- The parser found a PTP header that R264 treats: version 2, a length of at least 44, the whole message stored. The fields
that the ingress decision needs, up to domainNumber, lie in the parse window (R25; DEDUCED, log entry 71). -/
def ptpFrame (p : Parsed) (b : Bytes) : Bool :=
  match p.ptpAt with
  | some o =>
    decide (o + 5 ≤ 128) && byteAt b (o + 1) % 16 == 2 && 44 ≤ beAt b (o + 2) 2 && o + beAt b (o + 2) 2 ≤ b.length
  | none => false

/-- The stamp domain of a frame (R260). -/
def stampDomain (s : State) (im : Image) (port : Nat) (p : Parsed) (b : Bytes) : Nat :=
  let dflt := ptpPort s im port 2
  match p.ptpAt with
  | some o =>
    if ptpFrame p b then
      match ptpMapRow s im (byteAt b (o + 4)) (byteAt b o / 16) with
      | some r => imgFieldN s.ident im 0x4301 r 5
      | none => dflt
    else dflt
  | none => dflt

/-! ## Tine FIFOs -/

/-- The 16 bytes of a Tine record (R274). -/
def tineRecord (ns frac dom kind port flags mtype sdo pdom seqId recSeq : Nat) : Bytes :=
  leBytes 8 ns ++
  leBytes 8 (frac % 4 * 2 ^ 62 + dom % 8 * 2 ^ 59 + kind % 16 * 2 ^ 52 + port % 512 * 2 ^ 43 + flags % 8 * 2 ^ 40 +
    mtype % 16 * 2 ^ 36 + sdo % 16 * 2 ^ 32 + pdom % 256 * 2 ^ 24 + seqId % 65536 * 2 ^ 8 + recSeq % 256)

/-- A FIFO: 0 RX, 1 TX. -/
def State.fifo (s : State) (k : Nat) : Fifo := s.tine.getD k {}

/-- Changes a FIFO. -/
def State.updFifo (s : State) (k : Nat) (f : Fifo → Fifo) : State := { s with tine := updAt s.tine k f }

/-- WATERMARK, 0 read as 1 (R278). -/
def watermarkOf (x : Fifo) : Nat := max 1 x.watermark

/-- The 10 us of R277 after a record enters. -/
def enterSince (cycle level batch : Nat) (since : Option Nat) : Option Nat :=
  if level ≤ batch then (if since.isSome then since else some cycle) else none

/-- The order of records completed in one core cycle (R276): by KIND, then by PORT. -/
def recordBefore (a b : Nat × Nat) : Bool := decide (a.1 < b.1) || (a.1 == b.1 && decide (a.2 ≤ b.2))

/-- RECORD_SEQ of a record one further (R274). -/
def bumpSeq (r : Bytes) : Bytes := putBytes r 8 [r.getD 8 0 + 1]

/-- The (KIND, PORT) of the records at the end of a FIFO that have entered in this core cycle. -/
def freshKeys (cycle : Nat) (y : Fifo) : List (Nat × Nat) :=
  if y.freshAt = cycle then y.fresh.drop (y.fresh.length - y.records.length) else []

/-- A record takes its place among those of its core cycle (R276), RECORD_SEQ following the order. -/
def placeRecord (cycle : Nat) (key : Nat × Nat) (mk : Nat → Bytes) (y : Fifo) : Fifo :=
  let fresh := freshKeys cycle y
  let before := fresh.takeWhile fun x => recordBefore x key
  let m := fresh.length - before.length
  let at_ := y.records.length - m
  { y with
    records := y.records.take at_ ++ mk ((y.seq + 65536 - m) % 256) :: (y.records.drop at_).map bumpSeq,
    seq := (y.seq + 1) % 256, freshAt := cycle, fresh := before ++ key :: fresh.drop before.length }

/-- The last record of this core cycle makes way at a full FIFO for one that comes before it (R276). -/
def displaces (cycle : Nat) (key : Nat × Nat) (y : Fifo) : Bool :=
  match (freshKeys cycle y).getLast? with
  | some x => !recordBefore x key
  | none => false

/-- The last record leaves a FIFO. -/
def dropLastRecord (y : Fifo) : Fifo :=
  { y with records := y.records.dropLast, seq := (y.seq + 255) % 256, fresh := y.fresh.dropLast }

/-- A record enters a FIFO: counters, lines, and under DRAIN 1 the request at BATCH + 1 (R276, R277). -/
def enterRecord (k : Nat) (key : Nat × Nat) (mk : Nat → Bytes) (s : State) : State :=
  let x := s.fifo k
  let n := x.records.length
  let s1 := (s.updFifo k fun y =>
    { placeRecord s.cycle key mk y with since := enterSince s.cycle (n + 1) y.batch y.since }).bump 0x4300 (k + 1)
  let s2 := if n = 0 then pulse (179 + 3 * k) (s1.hit (.fifoHead k) 0) else s1
  let s3 := if n + 1 = watermarkOf x then pulse (180 + 3 * k) s2 else s2
  if x.drain ∧ n = x.batch then
    oweRequest (17 + k) { at_ := s.cycle, bytes := 16 * (x.batch + 1) } s3
  else s3

/-- A record is lost at a full FIFO (R276). -/
def loseRecord (k inst : Nat) (s : State) : State :=
  let s1 := (((s.updFifo k fun y =>
    { y with lostNow := y.lostNow + 1, lost := min 0xFFFFFFFF (y.lost + 1), overflowed := true }).hit (.overflowed k) 0).hit
      (.fifoLost k) (s.fifo k).lost).bump 0x4300 (k + 3)
  detectFault 12 inst 1 k (pulse (181 + 3 * k) s1)

/-- A completed record of a KIND and PORT: entered, or lost while the FIFO is full or an OVERFLOW record is still to be written;
of the records of one core cycle those latest in their order are lost (R276). -/
def writeRecord (k inst kind port : Nat) (mk : Nat → Bytes) (s : State) : State :=
  let x := s.fifo k
  if 0 < x.lostNow ∨ 4096 ≤ x.records.length then
    if displaces s.cycle (kind, port) x then
      loseRecord k inst (s.updFifo k fun y => placeRecord s.cycle (kind, port) mk (dropLastRecord y))
    else loseRecord k inst s
  else enterRecord k (kind, port) mk s

/-- When the FIFO has room for two records again, one OVERFLOW record carries the count lost (R276). -/
def writeOverflow (k : Nat) (s : State) : State :=
  let x := s.fifo k
  if 0 < x.lostNow ∧ x.records.length + 2 ≤ 4096 then
    (enterRecord k (0, 0) (tineRecord x.lostNow 0 0 5 0 0 0 0 0 0) s).updFifo k fun y => { y with lostNow := 0 }
  else s

/-- The start of the 10 us of R277 for a level: kept while LEVEL stays between 1 and BATCH. -/
def drainSince (cycle level batch : Nat) (since : Option Nat) : Option Nat :=
  if 1 ≤ level ∧ level ≤ batch then (if since.isSome then since else some cycle) else none

/-- `n` records leave the head of a FIFO; under DRAIN 1 a level still at or above BATCH + 1 requests again (R277). -/
def dropRecords (k n : Nat) (s : State) : State :=
  let s1 := writeOverflow k (s.updFifo k fun y =>
    let r := y.records.drop n
    { y with records := r, since := drainSince s.cycle r.length y.batch y.since })
  let x := s1.fifo k
  if x.drain ∧ x.batch < x.records.length then oweRequest (17 + k) { at_ := s.cycle, bytes := 16 * (x.batch + 1) } s1
  else s1

/-- RECORD_3: returns bytes 12 to 15 of the head record and removes it (R277, R278); a record that has entered an empty FIFO
in the core cycle of the read stays (R14). -/
def effTineRecordRead (f fifo : Nat) (s : State) : State :=
  if s.barReach f && decide (fifo < 2) then
    let x := s.fifo fifo
    let off := 0x05000C + fifo * 0x100
    match x.records with
    | r :: _ =>
      if x.drain || (s.hitOf (.fifoHead fifo)).isSome then s.emit (.reg f off 0)
      else (dropRecords fifo 1 s).emit (.reg f off (leNat (slice r 12 4)))
    | [] => s.emit (.reg f off 0)
  else refuseBar f false s

/-- LOST: returns the records lost since the last read and clears the count (R278). -/
def effTineLostRead (f fifo : Nat) (s : State) : State :=
  if s.barReach f && decide (fifo < 2) then
    let c := Sticky.fifoLost fifo
    let n := (s.fifo fifo).lost
    ((s.updFifo fifo fun y => { y with lost := s.rcLeft c n }).rehit c).emit
      (.reg f (0x05001C + fifo * 0x100) (s.rcValue c n))
  else refuseBar f false s

/-- LEVEL has stayed between 1 and BATCH for 10 us: one request for LEVEL records (R277). -/
def effTineDrainTimer (fifo : Nat) (s : State) : State :=
  let x := s.fifo fifo
  match x.since with
  | some t =>
    if fifo < 2 ∧ x.drain ∧ t + usCycles 10 ≤ s.cycle ∧ 0 < x.records.length then
      (oweRequest (17 + fifo) { at_ := s.cycle, bytes := 16 * x.records.length } s).updFifo fifo fun y => { y with since := none }
    else s
  | none => s

/-- FLUSH empties a FIFO without counting loss (R278). -/
def effFlush (f fifo : Nat) (s : State) : State :=
  if s.barReach f && decide (fifo < 2) then
    writeOverflow fifo (s.updFifo fifo fun y => { y with records := [], since := none })
  else refuseBar f true s

/-! ## PTP treatment at egress -/

/-- Which treatment R266 gives a PTP event frame at a port: 0 none, 1 departure, 2 turnaround, 3 residence. -/
def ptpTreatment (s : State) (port : Nat) (h : Carriage) (p : Parsed) (b : Bytes) : Nat :=
  if !h.ptpEvent || !ptpFrame p b then 0
  else
    let o := p.ptpAt.getD 0
    let oneStep := ptpPort s s.cfg.running port 7 == 1
    let twoStep := bit (byteAt b (o + 6)) 1
    let mgtOrLine := decide (h.source < 256) || h.source == 260 || h.source == 261
    if oneStep && decide (256 ≤ h.source) && p.ptpType == 0 && !twoStep then 1
    else if oneStep && decide (256 ≤ h.source) && p.ptpType == 3 && !twoStep then 2
    else if 1 ≤ ptpPort s s.cfg.running port 8 && mgtOrLine then 3
    else 0

/-- The UDP payload sum is kept by the two compensation bytes after the PTP message (R272): an end-around adjustment
of a 16-bit word by the change of the ones'-complement sum of the message. -/
def compensate (b old new : Nat) : Nat := fold16 4 (b + old + (0xFFFF - new))

/-- Whether the two compensation bytes are present (R272). -/
def hasCompensation (b : Bytes) (udp len : Nat) : Bool :=
  8 + len + 2 ≤ beAt b (udp + 4) 2 && udp + 8 + len + 2 ≤ b.length

/-- An edited frame over UDP that R272 finds not editable. -/
def udpNotEditable (p : Parsed) (b : Bytes) : Bool :=
  match p.udpAt, p.ptpAt with
  | some u, some o =>
    p.ipVer == 6 && (beAt b (u + 6) 2 == 0 || !hasCompensation b u (beAt b (o + 2) 2))
  | _, _ => false

/-- The UDP checksum after a PTP edit (R272): `b0` before and `b1` after the edit, at the same offsets. The sum of
the payload is kept at 16-bit words counted from the start of the UDP payload. -/
def udpFixup (p : Parsed) (b0 b1 : Bytes) : Bytes :=
  match p.udpAt, p.ptpAt with
  | some u, some o =>
    let len := beAt b0 (o + 2) 2
    if p.ipVer = 4 ∧ beAt b0 (u + 6) 2 = 0 then b1
    else if hasCompensation b0 u len then
      let old := onesSum (slice b0 o len)
      let new := onesSum (slice b1 o len)
      let at_ := o + len
      let c := beAt b0 at_ 2
      let swap := fun x => x % 256 * 256 + x / 256
      if len % 2 = 0 then putBytes b1 at_ (beBytes 2 (compensate c old new))
      else putBytes b1 at_ (beBytes 2 (swap (compensate (swap c) old new)))
    else putBytes b1 (u + 6) [0, 0]
  | _, _ => b1

/-- The 64-bit correctionField increased by an amount in 2^-16 ns, saturating at the I64 limits (R269). -/
def addCorrection (b : Bytes) (o : Nat) (amount : Int) : Bytes :=
  let c := toSigned 64 (beAt b (o + 8) 8)
  putBytes b (o + 8) (beBytes 8 (ofSigned 64 (clampInt (c + amount) (-(2 ^ 63)) (2 ^ 63 - 1))))

/-- The 64-bit correctionField increased by an amount in 2^-16 ns (R267, R268); a sum outside its range is open. -/
def addWithin (b : Bytes) (o : Nat) (amount : Int) : Bytes :=
  let c := toSigned 64 (beAt b (o + 8) 8) + amount
  putBytes b (o + 8) (beBytes 8
    (if -(2 ^ 63) ≤ c ∧ c < 2 ^ 63 then ofSigned 64 c else (Config.correctionBeyond c).toNat))

/-- Departure insertion (R267) of a stamp in quarter nanoseconds. -/
def departureEdit (b : Bytes) (o stamp : Nat) : Bytes :=
  let t := stampNs stamp
  addWithin (putBytes b (o + 34) (beBytes 6 (t / 1000000000) ++ beBytes 4 (t % 1000000000))) o
    (stampQ stamp * 2 ^ 14 : Nat)

/-- Turnaround insertion (R268). -/
def turnaroundEdit (b : Bytes) (o stamp : Nat) : Bytes :=
  let t2 := beAt b (o + 34) 6 * 1000000000 + beAt b (o + 40) 4
  addWithin (putBytes b (o + 34) (zeros 10)) o (((stamp : Int) - 4 * t2) * 2 ^ 14)

/-- The residence of a frame in quarter nanoseconds (R269): a signed 40.2-bit difference in the stamp domain. -/
def residence (h : Carriage) (stamp : Nat) : Int :=
  let d : Int := (stamp : Int) - (4 * h.stampNs + h.stampFrac : Nat)
  (d + 2 ^ 41) % 2 ^ 42 - 2 ^ 41

/-- Residence-time edit (R269): the residence, and under peer-to-peer the ingress link delay of a Sync. -/
def residenceEdit (link : Int) (h : Carriage) (b : Bytes) (o stamp : Nat) : Bytes :=
  addCorrection b o ((residence h stamp + link) * 2 ^ 14)

/-- The PTP edit of a frame by its treatment, at the offsets of the bytes given. -/
def ptpEdit (treatment : Nat) (link : Int) (h : Carriage) (p : Parsed) (b : Bytes) (stamp : Nat) : Bytes :=
  match p.ptpAt with
  | none => b
  | some o =>
    let b1 :=
      if treatment = 1 then departureEdit b o stamp
      else if treatment = 2 then turnaroundEdit b o stamp
      else if treatment = 3 then residenceEdit link h b o stamp
      else b
    if treatment = 0 then b else udpFixup p b b1

/-- A residence is invalid when its domain stepped after the frame's ingress stamp, or is disabled (R270). -/
def residenceInvalid (s : State) (h : Carriage) (steps : List Nat) : Bool :=
  let x := s.dom h.stampDomain
  !x.enabled || steps.getD h.stampDomain 0 != x.steps

/-- A frame that its treatment cannot edit (R273). -/
def notEditable (s : State) (treatment : Nat) (h : Carriage) (steps : List Nat) (p : Parsed) (b : Bytes) : Bool :=
  treatment != 0 &&
  (udpNotEditable p b || !(s.dom h.stampDomain).enabled || (treatment == 3 && residenceInvalid s h steps))

/-! ## The meanings -/

/-- TINE_RECORD_READ: answers the state after its effect. -/
def execTineRecordRead (f : Nat) (fifo : Nat) (s : State) : Answer := .next (effTineRecordRead f fifo s)

/-- TINE_LOST_READ: answers the state after its effect. -/
def execTineLostRead (f : Nat) (fifo : Nat) (s : State) : Answer := .next (effTineLostRead f fifo s)

/-- TINE_DRAIN_TIMER: answers the state after its effect. -/
def execTineDrainTimer (fifo : Nat) (s : State) : Answer := .next (effTineDrainTimer fifo s)

/-- FLUSH: answers the state after its effect. -/
def execFlush (f : Nat) (fifo : Nat) (s : State) : Answer := .next (effFlush f fifo s)

end Sys2Proof.Machine
end

