-- ==== Sys2Proof/Machine/DevMem.lean ====
section
/-!
DEFINITION. Device address space (R387): the installed LPDDR4X (R486, R493), the Herd Ring memories (R339), the Tine
FIFO ports; and what an uncorrectable memory word records (R492).
-/
namespace Sys2Proof.Machine

/-- Bases of the on-chip targets (R387). -/
def herdTxBase : Nat := 0x1000000000
def herdBankBase (k : Nat) : Nat := if k = 0 then 0x1000004000 else 0x1000008000
def fifoPort (k : Nat) : Nat := if k = 0 then 0x1000010000 else 0x1000011000

/-- Bytes of the Herd Ring memories. -/
def herdBytes : Nat := 0x23C6

/-- A range lies inside another. -/
def inside (base size addr len : Nat) : Bool := decide (base ≤ addr) && decide (addr + len ≤ base + size)

/-- The error of an access to device space (R387): 0x07 UNMAPPED, 0x08 PROTECTED, or none; `line` is the request line
that paces the channel. -/
def devError (s : State) (line : Nat) (write : Bool) (addr len : Nat) : Option Nat :=
  if addr + len ≤ dataSize s then (if reservedBase s < addr + len then some 0x08 else none)
  else if inside herdTxBase herdBytes addr len then none
  else if !write && (inside (herdBankBase 0) herdBytes addr len || inside (herdBankBase 1) herdBytes addr len) then none
  else if !write && ((addr == fifoPort 0 && line == 17) || (addr == fifoPort 1 && line == 18)) then none
  else some 0x07

/-- The bytes of device space from an address. -/
def devRead (s : State) (addr len : Nat) : Bytes :=
  if addr < herdTxBase then memRead s.mem.cells addr len
  else if inside herdTxBase herdBytes addr len then memRead s.herd.txMem (addr - herdTxBase) len
  else if inside (herdBankBase 0) herdBytes addr len then padTo len ((s.herd.banks.getD 0 []).drop (addr - herdBankBase 0))
  else padTo len ((s.herd.banks.getD 1 []).drop (addr - herdBankBase 1))

/-- The data slots of the layout in force whose last byte a written range covers (R339). -/
def slotsEnding (s : State) (off len : Nat) : List Nat :=
  (s.herd.layout.filter fun e =>
    let n := fun k => (e.2.getD k (.num 0)).n
    let last := n 2 + n 3 - 1
    n 0 == 1 && decide (off ≤ last) && decide (last < off + len)).map (·.1)

/-- Bytes written to the Herd Ring TX memory set READY of the slots that they complete (R339). -/
def herdTxWrite (s : State) (off : Nat) (b : Bytes) : State :=
  { s with herd := { s.herd with
    txMem := memWrite s.herd.txMem off b,
    ready := s.herd.ready.filter (fun k => !(slotsEnding s off b.length).contains k) ++ slotsEnding s off b.length } }

/-- Bytes written to device space. -/
def devWrite (addr : Nat) (b : Bytes) (s : State) : State :=
  if addr < herdTxBase then { s with mem := { s.mem with cells := memWrite s.mem.cells addr b } }
  else herdTxWrite s (addr - herdTxBase) b

/-! ## The layout of a channel (R491) -/

/-- The memory channel, the block and the byte in it of a device address. -/
def memChannel (addr : Nat) : Nat := addr / 448 % 8
def memBlock (addr : Nat) : Nat := addr / 448 / 8
def memByte (addr : Nat) : Nat := addr % 448

/-- The device address of a data byte of a block. -/
def memAddress (channel block byte : Nat) : Nat := (block * 8 + channel) * 448 + byte

/-- The check byte of the data word at a device address: a code over its bits and bits [34:3] of the address. -/
def checkByte (s : State) (addr : Nat) : Byte := Config.secded (memRead s.mem.cells addr 8) (BitVec.ofNat 32 (addr / 8))

/-- Byte `b` of a block of 512 bytes as the channel holds it: data, check bytes in word order, zero. -/
def rawByte (s : State) (channel block b : Nat) : Byte :=
  if b < 448 then (memRead s.mem.cells (memAddress channel block b) 1).headD 0
  else if b < 504 then checkByte s (memAddress channel block (8 * (b - 448)))
  else 0

/-! ## Uncorrectable and corrected words -/

/-- An uncorrectable word is recorded (R492, R499). -/
def memUncorrectable (addr : Nat) (s : State) : State :=
  let c := memChannel addr
  let s1 := { s with mem := { s.mem with channels := updAt s.mem.channels c fun x => { x with lastError := addr } } }
  detectFault 18 0 1 c (s1.bumpK 0x6006 3 c)

/-- A corrected word is recorded (R492, R499). -/
def memCorrected (addr : Nat) (s : State) : State :=
  detectFault 18 0 2 (memChannel addr) (s.bumpK 0x6006 2 (memChannel addr))

end Sys2Proof.Machine
end

