-- ==== Sys2Proof/Machine/PortSet.lean ====
section
/-!
DEFINITION. Ports as the configuration forms them: quad modes and rates (R97 to R101), TX_LEAD and byte time (R287),
slices and pipelines (R21), the gate object of a port (R285), period-bound and protected classes (R200, R306).
-/
namespace Sys2Proof.Machine

/-- A port that frames pass through the fabric at (R16): line ports and service ports 0 to 6. -/
def isMgt (p : Nat) : Bool := p == 260 || p == 261
def isHost (p : Nat) : Bool := 256 ≤ p && p < 260
def isLine (p : Nat) : Bool := p < 256

/-- The classification pipeline of a source port (R21), as 2s + k. -/
def pipelineOf (p : Nat) : Nat :=
  if p < 256 then 2 * (p / 16) + (if p % 16 < 8 then 0 else 1)
  else 32 + (if p < 260 then 0 else 1)

/-- The quad mode of a port's quad under an image (R98). -/
def quadMode (s : State) (im : Image) (p : Nat) : Nat := imgNum s.ident im (0x1000 + p / 4 * 4) 2

/-- SPEED of a line port in Gbit/s, 0 when unused (R97, R123). -/
def lineSpeed (s : State) (im : Image) (p : Nat) : Nat :=
  match quadMode s im p, p % 4 with
  | 1, 0 => 400
  | 2, 0 => 200
  | 2, 2 => 200
  | 3, _ => 100
  | 4, _ => 50
  | 5, _ => 25
  | 6, _ => 10
  | _, _ => 0

/-- A line port that the image's quad mode forms (R97, R99). -/
def portUsed (s : State) (im : Image) (p : Nat) : Bool := lineSpeed s im p != 0

/-- The port that a line lane belongs to (R97, R98). -/
def lanePort (s : State) (lane : Nat) : Nat :=
  match quadMode s s.cfg.running lane with
  | 1 => lane / 4 * 4
  | 2 => lane / 2 * 2
  | _ => lane

/-- The image a management port takes its settings from: the defaults in LOAD and CHECK (R122). -/
def mgtImage (s : State) : Image :=
  match s.chip.mode with
  | .load => {} | .check => {} | _ => s.cfg.running

/-- The PORT object of a management port. -/
def mgtObj (p : Nat) : Nat := 0x0402 + (p - 260)

/-- A port's rate in Gbit/s. -/
def portRate (s : State) (p : Nat) : Nat :=
  if p < 256 then lineSpeed s s.cfg.running p
  else if isMgt p then (if imgNum s.ident (mgtImage s) (mgtObj p) 2 = 1 then 10 else 1)
  else 0

/-- Whether auto-negotiation decides the FEC of a 25 Gbit/s port (R101). -/
def fecNegotiated (s : State) (im : Image) (p : Nat) : Bool :=
  let fld := imgNum s.ident im (0x1000 + p)
  lineSpeed s im p == 25 && fld 4 == 0 && fld 6 == 1 && fld 5 != 2

/-- FEC_ACTIVE (R101): 0 none, 1 RS(528,514), 2 RS(544,514). -/
def fecActive (s : State) (p : Nat) : Nat :=
  let im := s.cfg.running
  let sp := lineSpeed s im p
  if 50 ≤ sp then 2
  else if sp = 25 then
    if fecNegotiated s im p then (s.port p).fec
    else if imgNum s.ident im (0x1000 + p) 4 = 1 then 0 else 1
  else 0

/-- TX_LEAD of a port in nanoseconds (R287). -/
def txLead (s : State) (p : Nat) : Nat :=
  match portRate s p with
  | 400 => 75
  | 200 => 80
  | 100 => 85
  | 50 => 105
  | 25 => if fecActive s p = 1 then 135 else 50
  | 10 => 60
  | 1 => 200
  | _ => 0

/-- The byte time τ in picoseconds (R287). -/
def byteTime (s : State) (p : Nat) : Nat := let r := portRate s p; if r = 0 then 0 else 8000 / r

/-- The gate object of a port (R285). -/
def gateObj (p : Nat) : Option Nat :=
  if p < 256 then some (0x1400 + p) else if p = 260 then some 0x0404 else if p = 261 then some 0x0405 else none

/-- A gate setting of a port under an image; 0 where it has no list. -/
def gateCfg (s : State) (im : Image) (p sub : Nat) : Nat :=
  match gateObj p with
  | some o => imgNum s.ident im o sub
  | none => 0

/-- A port whose gate entries count: one with a gate object that is not unused (R285). -/
def gatePort (s : State) (im : Image) (p : Nat) : Bool :=
  (gateObj p).isSome && (256 ≤ p || portUsed s im p)

/-- The list of a port runs under an image (R289). -/
def listRuns (s : State) (im : Image) (p : Nat) : Bool :=
  s.chip.mode == .run && gatePort s im p && gateCfg s im p 0x20 == 1

/-- A class is period-bound at a port (R306). -/
def periodBound (s : State) (im : Image) (p tc : Nat) : Bool := listRuns s im p && bit (gateCfg s im p 0x28) tc

/-- A queue is protected (R200). -/
def isProtected (s : State) (im : Image) (p tc : Nat) : Bool :=
  imgFieldN s.ident im 0x1803 tc 6 == 1 || periodBound s im p tc

/-- A preemption setting of a line port under the running configuration. -/
def preemptCfg (s : State) (p sub : Nat) : Nat := if p < 256 then s.cfgN (0x1100 + p) sub else 0

/-- Whether a port is enabled and not shed (R105); host ports and the engine are always so. -/
def portOn (s : State) (p : Nat) : Bool :=
  if p < 256 then portUsed s s.cfg.running p && s.cfgN (0x1000 + p) 1 == 1 && !s.feeds.shedding.contains p
  else if isMgt p then imgNum s.ident (mgtImage s) (mgtObj p) 1 == 1
  else true

/-- VERIFY_STATUS as it reads (R124): 0 DISABLED with PREEMPT_ENABLE 0, INITIAL while the link is not up or the port
is unused. -/
def verifyStatus (s : State) (p : Nat) : Nat :=
  if preemptCfg s p 1 = 0 then 0
  else if !(s.port p).up || !portUsed s s.cfg.running p then 1
  else (s.port p).verify

/-- Pre-emption is active on a port (R113). -/
def preemptActive (s : State) (p : Nat) : Bool :=
  preemptCfg s p 1 == 1 && (s.port p).up && (verifyStatus s p == 3 || preemptCfg s p 3 == 1)

/-- Frames of a class go through the preemptable MAC at a port (R113, R306). -/
def preemptable (s : State) (p tc : Nat) : Bool :=
  preemptActive s p && bit (preemptCfg s p 2) tc && !periodBound s s.cfg.running p tc

/-- The least data of a fragment (R115): 64 x (1 + ADD_FRAG_SIZE) - 4 bytes. -/
def minFragment (s : State) (p : Nat) : Nat := 64 * (1 + preemptCfg s p 6) - 4

/-- HOLD_ADVANCE in picoseconds (R304, R116). -/
def holdAdvance (s : State) (p : Nat) : Nat := (64 * (1 + preemptCfg s p 6) + 59 + 20) * byteTime s p

/-- What a port transmits (R105). -/
inductive LineOut where
  | nothing | electricalIdle | remoteFault | idle | management | all
deriving DecidableEq, Repr, Inhabited

/-- What the MAC of a line or management port transmits: the first row of R105 whose condition holds. In LOAD, CHECK, HOLD and
SAFE the management ports send NAP responses beside idle (R67, R122). -/
def macOut (s : State) (p : Nat) : LineOut :=
  let x := s.port p
  if !isAlive s.chip.mode then .nothing
  else if !portOn s p then .electricalIdle
  else if !x.up && x.fault == 3 then .remoteFault
  else if !x.up && x.fault == 4 then .idle
  else
    match s.chip.mode with
    | .run => .all
    | .armed => .management
    | _ => if isMgt p then .management else .idle

/-- What the partner of a port sees (R105): idle under near-end loopback (R123). -/
def lineOut (s : State) (p : Nat) : LineOut :=
  let o := macOut s p
  if isLine p && s.rwN (0x1000 + p) 0x0C == 1 && (o == .management || o == .all) then .idle else o

/-- The technology ability that Clause 73 gives a quad mode (R103): one bit of the base page (PRESUMED, log entry 18). -/
def technologyBit (rate : Nat) : Nat :=
  match rate with
  | 400 => 39
  | 200 => 38
  | 100 => 37
  | 50 => 34
  | 25 => 31
  | _ => 23

/-- The base page a line port advertises (R102, R103): the IEEE 802.3 selector, one technology ability, and F2 only at
25 Gbit/s with FEC_MODE RS528; no PAUSE, EEE, F0, F1 or F3. -/
def basePage (s : State) (p : Nat) : Nat :=
  let rate := lineSpeed s s.cfg.running p
  let f2 := rate == 25 && s.cfgN (0x1000 + p) 4 == 2
  1 + 2 ^ technologyBit rate + b2n f2 * 2 ^ 44

/-- LINK_STATE-like condition for frames: the link of a port is up (R104); host ports by R377. -/
def linkIsUp (s : State) (p : Nat) : Bool :=
  if isHost p then s.hostUp (p - 256) else if p = 262 then true else (s.port p).up

/-! ## Fragments of a preemptable frame -/

/-- The present core cycle in picoseconds of core-clock time (R500). -/
def nowPs (s : State) : Nat := s.cycle * 625

/-- Data bytes that the fragment in transmission has begun at an instant (R115, R116): the line time since its start less the
8 bytes of preamble and delimiter, a byte begun counted whole. -/
def fragDataAt (s : State) (p ps : Nat) (t : Tx) : Nat :=
  let bt := max 1 (byteTime s p)
  (ps - t.start - 8 * bt + bt - 1) / bt

/-- Data bytes that the fragment in transmission has sent now. -/
def fragData (s : State) (p : Nat) (t : Tx) : Nat := fragDataAt s p (nowPs s) t

/-- What remains of a preemptable frame at the start of its present fragment, FCS included. -/
def fragRest (t : Tx) : Nat := t.bytes.length + 4 - t.sent

/-- The first boundary at which the fragment in transmission may end from an instant on (R115): none for the final fragment of
a frame that R120 ends. -/
def fragBoundaryAt (s : State) (p ps : Nat) (t : Tx) : Option Nat :=
  let b := (max (minFragment s p) (fragDataAt s p ps t) + 3) / 4 * 4
  if !t.ended && decide (b + 64 ≤ fragRest t) then some b else none

/-- The first boundary at which the fragment in transmission may end from now on. -/
def fragBoundary (s : State) (p : Nat) (t : Tx) : Option Nat := fragBoundaryAt s p (nowPs s) t

/-- Where the fragment in transmission ends when it has to make way from an instant on: at the first boundary that R115
allows, or at the stop already set for it where that comes first; `true` marks a stop at the closing of its class (R302). -/
def stopFrom (s : State) (p ps : Nat) (t : Tx) : Option (Nat × Bool) :=
  match t.stopAt, fragBoundaryAt s p ps t with
  | some (b0, closing), some b => if b < b0 then some (b, false) else some (b0, closing)
  | some x, none => some x
  | none, b => b.map fun b => (b, false)

/-- A hold issued at an instant ends the fragment in transmission at the first boundary that R115 allows (R119), also before
a closing for which a later stop was set (R308). -/
def holdFragment (p ps : Nat) (s : State) : State :=
  match (s.port p).pre with
  | some t => if t.active then s.updPort p fun x => { x with pre := some { t with stopAt := stopFrom s p ps t } } else s
  | none => s

end Sys2Proof.Machine
end

