-- ==== Sys2Proof/Machine/Fabric.lean ====
section
/-!
DEFINITION. The crosspoint fabric (R191 to R209): cells and chains, admission and early drop, linking, release,
fences and average depths.
-/
namespace Sys2Proof.Machine

/-! ## Crosspoints -/

/-- The key of crosspoint (i, j). -/
def xpKey (i j : Nat) : Nat := i * 17 + j

/-- C of a crosspoint (R191). -/
def xpCells (x : Nat) : Nat := if x / 17 = 16 ∨ x % 17 = 16 then 512 else 3072

/-- A crosspoint's state. -/
def State.xp (s : State) (x : Nat) : XPoint := AMap.get {} s.fabric.xps x

/-- Changes a crosspoint. -/
def State.updXp (s : State) (x : Nat) (f : XPoint → XPoint) : State :=
  { s with fabric := { s.fabric with xps := AMap.upd {} s.fabric.xps x f } }

/-- used[c] (R195). -/
def usedCells (x : XPoint) (tc : Nat) : Nat := (x.cells.filter fun e => e.2.tc == tc).length

/-- reserve[c] and limit[c] of a crosspoint (R195). -/
def reserveOf (s : State) (im : Image) (x tc : Nat) : Nat :=
  imgFieldN s.ident im 0x1803 tc (if xpCells x = 512 then 4 else 2)
def limitOf (s : State) (im : Image) (x tc : Nat) : Nat :=
  imgFieldN s.ident im 0x1803 tc (if xpCells x = 512 then 5 else 3)

/-- can_take(c) (R195). -/
def canTake (s : State) (im : Image) (x tc : Nat) (xp : XPoint) : Bool :=
  let reserves := (upTo 8).map (reserveOf s im x)
  let sharedSize := xpCells x - reserves.sum
  let sharedUsed := ((upTo 8).map fun c => usedCells xp c - reserves.getD c 0).sum
  let used := usedCells xp tc
  used < limitOf s im x tc && (used < reserves.getD tc 0 || sharedUsed < sharedSize)

/-- The lowest free cell number of a list of allocated ones, at or above `n`. -/
def lowestFree : AMap Cell → Nat → Nat
  | [], n => n
  | (k, _) :: r, n => if k = n then lowestFree r (n + 1) else n

/-- Notes the least number of free cells (R216). -/
def noteFree (x : Nat) (xp : XPoint) : XPoint :=
  let free := xpCells x - xp.cells.length
  { xp with minFree := some (min (xp.minFree.getD (xpCells x)) free) }

/-- Takes `n` new cells one after the other, each under can_take (R197): whether every one could be taken, the cells, and
the crosspoint with them. -/
def takeCells (s : State) (im : Image) (x tc : Nat) : Nat → XPoint → Bool × List Nat × XPoint
  | 0, xp => (true, [], xp)
  | n + 1, xp =>
    if canTake s im x tc xp then
      let c := lowestFree xp.cells 0
      let (ok, l, xp') := takeCells s im x tc n (noteFree x { xp with cells := AMap.set xp.cells c { tc := tc, count := 1 } })
      (ok, c :: l, xp')
    else (false, [], xp)

/-- One frame fewer in a cell; a cell without frames is freed, and a chain whose tail cell it is loses its tail
(R194). -/
def dropCell (xp : XPoint) (c : Nat) : XPoint :=
  match AMap.find xp.cells c with
  | some y =>
    if y.count ≤ 1 then
      { xp with cells := AMap.del xp.cells c, tails := xp.tails.filter fun t => t.2.cell != c }
    else { xp with cells := AMap.set xp.cells c { y with count := y.count - 1 } }
  | none => xp

/-- The chain of a frame in a crosspoint (R191): per egress port and class, or shared for several members. -/
def chainOf (members : List Nat) (tc : Nat) : Nat :=
  match members with
  | [m] => m * 8 + tc
  | _ => 4096 + tc

/-- A write that overflows leaves the crosspoint as it was, but for the least number of free cells (R197, R216). -/
def overflown (xp after : XPoint) : XPoint := { xp with minFree := after.minFree }

/-- A frame begins at byte 0 of a new cell of a chain; `hold`: it holds the chain's tail (R192). -/
def writeNew (s : State) (im : Image) (x id tc len chain : Nat) (hold : Bool) (members : List (Nat × Bool)) (xp : XPoint) :
    Option Placed × XPoint :=
  match takeCells s im x tc ((len + 63) / 64) xp with
  | (true, l, y) =>
    (some { xp := x, chain := chain, offset := 0, cells := l, holds := hold, members := members },
     if hold then { y with tails := AMap.set y.tails chain { cell := l.headD 0, off := 0, holder := some id } } else y)
  | (false, _, y) => (none, overflown xp y)

/-- A frame takes its chain's free tail (R192). -/
def writeTail (s : State) (im : Image) (x id tc len chain : Nat) (t : Tail) (members : List (Nat × Bool)) (xp : XPoint) :
    Option Placed × XPoint :=
  let xp1 := { xp with
    tails := AMap.set xp.tails chain { t with holder := some id },
    cells := AMap.upd { tc := tc, count := 0 } xp.cells t.cell fun c => { c with count := c.count + 1 } }
  match takeCells s im x tc ((t.off + len + 63) / 64 - 1) xp1 with
  | (true, l, y) =>
    (some { xp := x, chain := chain, offset := t.off, cells := t.cell :: l, holds := true, members := members }, y)
  | (false, _, y) => (none, overflown xp y)

/-- Writes a frame into a crosspoint (R192, R197): its place, or none when it overflows. -/
def writeXp (s : State) (im : Image) (x id tc len chain : Nat) (members : List (Nat × Bool)) (xp : XPoint) :
    Option Placed × XPoint :=
  match AMap.find xp.tails chain with
  | some t =>
    if t.holder.isNone then writeTail s im x id tc len chain t members xp
    else writeNew s im x id tc len chain false members xp
  | none => writeNew s im x id tc len chain true members xp

/-- The tail after a frame that held it is linked: the byte after its last byte (R192). -/
def tailAfterLink (p : Placed) (len : Nat) (xp : XPoint) : XPoint :=
  let fin := (p.offset + len) % 64
  if !p.holds then xp
  else if fin = 0 then { xp with tails := AMap.del xp.tails p.chain }
  else { xp with tails := AMap.set xp.tails p.chain { cell := p.cells.getLastD 0, off := fin, holder := none } }

/-- The tail after a frame that held it is abandoned: the byte at which it began (R192). -/
def tailAfterAbandon (p : Placed) (xp : XPoint) : XPoint :=
  if !p.holds then xp
  else if p.offset = 0 then { xp with tails := AMap.del xp.tails p.chain }
  else { xp with tails := AMap.set xp.tails p.chain { cell := p.cells.headD 0, off := p.offset, holder := none } }

/-- Frees the cells of a place (R194). -/
def freePlace (s : State) (p : Placed) : State := s.updXp p.xp fun xp => p.cells.foldl dropCell xp

/-- A frame is abandoned in a crosspoint (R194). -/
def abandonPlace (s : State) (p : Placed) : State :=
  s.updXp p.xp fun xp => p.cells.foldl dropCell (tailAfterAbandon p xp)

/-! ## Admission -/

/-- One step of the Galois LFSR of R201. -/
def lfsrStep (n : Nat) : Nat := if n % 2 = 1 then (n / 2) ^^^ 0x80200003 else n / 2

/-- A draw of a pipeline's LFSR: the low 16 bits after it advances. -/
def drawRandom (pipe : Nat) (s : State) : Nat × State :=
  let n := lfsrStep (s.fabric.lfsr.getD pipe 1)
  (n % 65536, { s with fabric := { s.fabric with lfsr := setAt s.fabric.lfsr pipe n } })

/-- A queue's key. -/
def queueKey (port tc : Nat) : Nat := port * 8 + tc

/-- A queue's state. -/
def State.queue (s : State) (port tc : Nat) : Queue := AMap.get {} s.fabric.queues (queueKey port tc)

/-- Changes a queue. -/
def State.updQueue (s : State) (port tc : Nat) (f : Queue → Queue) : State :=
  { s with fabric := { s.fabric with queues := AMap.upd {} s.fabric.queues (queueKey port tc) f } }

/-- The WRED profile of a queue under an image, if it has a row (R199, R213). -/
def profileOf (s : State) (im : Image) (port tc : Nat) : Option Nat :=
  if (imgRow im 0x1802 (queueKey port tc)).isSome then some (imgFieldN s.ident im 0x1802 (queueKey port tc) 2)
  else none

/-- early of R201 for a queue with a profile: 0 admits, 1 mark, 2 drop. -/
def earlyDrop (im : Image) (profile port tc colour pipe : Nat) (ect : Bool) (s : State) : Nat × State :=
  let thr := fun k => imgFieldN s.ident im 0x1801 profile (2 + 3 * colour + k)
  let a := (s.queue port tc).avg / 65536
  if a < thr 0 then (0, s)
  else if thr 1 ≤ a then (2, s)
  else
    let pd := thr 2 * (a - thr 0) / (thr 1 - thr 0)
    let (r, s1) := drawRandom pipe s
    if pd ≤ r then (0, s1)
    else if imgFieldN s.ident im 0x1801 profile 11 = 1 ∧ ect then (1, s1)
    else (2, s1)

/-- A member's result at admission (R196): 0 admits, 1 mark, 2 drop. -/
def memberResult (im : Image) (h : Carriage) (m : Nat) (s : State) : Nat × State :=
  match (if isProtected s im m h.tc then none else profileOf s im m h.tc) with
  | some prof => earlyDrop im prof m h.tc h.colour (pipelineOf h.source) h.ect s
  | none => (0, s)

/-- The members of a crosspoint that keep a reference, with their MARK_CE; early drops are counted (R196). -/
def judgeMembers (im : Image) (h : Carriage) : List Nat → State → List (Nat × Bool) × State
  | [], s => ([], s)
  | m :: r, s =>
    let (v, s1) := memberResult im h m s
    let s2 := if v = 2 then s1.bumpPort m 0x52 else s1
    let (l, s3) := judgeMembers im h r s2
    (if v = 2 then l else (m, v == 1) :: l, s3)

/-- Counts a drop at each of several ports. -/
def countAt (ports : List Nat) (sub : Nat) (s : State) : State := ports.foldl (fun s p => s.bumpPort p sub) s

/-- One crosspoint evaluates a frame at its decision (R196, R197): refused under a fence or the class account, judged
member by member, and written as far as it has come. -/
def admitXp (im : Image) (id : Nat) (h : Carriage) (stored x : Nat) (members : List Nat) (s : State) :
    Option Placed × Bool × State :=
  let xp := s.xp x
  if xp.fence != .none then (none, false, countAt members 0x56 s)
  else if !canTake s im x h.tc xp then (none, false, countAt members 0x50 s)
  else
    let (keep, s1) := judgeMembers im h members s
    if keep.isEmpty then (none, false, s1)
    else
      let (p, xp1) := writeXp s1 im x id h.tc stored (chainOf members h.tc) keep xp
      let s2 := s1.updXp x fun _ => xp1
      (p, true, if p.isSome then s2 else countAt (keep.map (·.1)) 0x51 s2)

/-- A frame takes the cells that its stored bytes need by now in one crosspoint, or overflows and is abandoned there, each
member counting one (R197). -/
def growPlace (im : Image) (tc stored : Nat) (p : Placed) (s : State) : Option Placed × State :=
  match takeCells s im p.xp tc ((p.offset + stored + 63) / 64 - p.cells.length) (s.xp p.xp) with
  | (true, l, y) => (some { p with cells := p.cells ++ l }, s.updXp p.xp fun _ => y)
  | (false, _, y) => (none, countAt (p.members.map (·.1)) 0x51 (abandonPlace (s.updXp p.xp fun xp => overflown xp y) p))

/-- A frame grows in every crosspoint it is written to: the places it keeps. -/
def growPlaces (im : Image) (tc stored : Nat) : List Placed → State → List Placed × State
  | [], s => ([], s)
  | p :: r, s =>
    let (q, s1) := growPlace im tc stored p s
    let (l, s2) := growPlaces im tc stored r s1
    (q.toList ++ l, s2)

/-- Every crosspoint of the row that holds a member evaluates the frame: the places, and whether any was written. -/
def admitRow (im : Image) (id : Nat) (h : Carriage) (stored : Nat) (members : List Nat) :
    List Nat → State → List Placed × Bool × State
  | [], s => ([], false, s)
  | j :: r, s =>
    let here := members.filter fun m => sliceOf m == j
    if here.isEmpty then admitRow im id h stored members r s
    else
      let (p, w, s1) := admitXp im id h stored (xpKey (sliceOf h.source) j) here s
      let (l, w2, s2) := admitRow im id h stored members r s1
      (p.toList ++ l, w || w2, s2)

/-- Admission of a decided frame (R196) of which `stored` bytes have come: its places; FABRIC_DROPS where no crosspoint was
written. -/
def admitFrame (im : Image) (id : Nat) (h : Carriage) (stored : Nat) (members : List Nat) (s : State) :
    List Placed × State :=
  let (l, w, s1) := admitRow im id h stored members (upTo 17) s
  (l, if w then s1 else s1.bumpPort h.source 0x58)

/-! ## Linking and release -/

/-- The order of references in a queue (R193): by the core cycle of linking, then by source port. -/
def insertRef (frames : AMap Stored) (r : Ref) (src : Nat) : List Ref → List Ref
  | [] => [r]
  | x :: l =>
    let xsrc := match AMap.find frames x.frame with | some f => f.hdr.source | none => 0
    if r.linkedAt = x.linkedAt ∧ src < xsrc then r :: x :: l else x :: insertRef frames r src l

/-- Gives a member's queue its reference, 8 core cycles after the frame is received and checked (R26). -/
def linkMember (id src tc : Nat) (s : State) (m : Nat × Bool) : State :=
  s.updQueue m.1 tc fun q =>
    { q with refs := insertRef s.fabric.frames { frame := id, markCe := m.2, linkedAt := s.cycle + 8 } src q.refs }

/-- Links a frame in one crosspoint (R192, R193). -/
def linkPlace (id len src tc : Nat) (s : State) (p : Placed) : State :=
  p.members.foldl (linkMember id src tc) (s.updXp p.xp (tailAfterLink p len))

/-- Links a frame in every crosspoint it was written to (R193, R198). -/
def linkFrame (id : Nat) (f : Stored) (s : State) : State :=
  let placed := f.placed.map fun p => { p with refs := p.members.length }
  let s1 := { s with fabric := { s.fabric with frames := AMap.set s.fabric.frames id { f with placed := placed } } }
  placed.foldl (linkPlace id (24 + f.bytes.length) f.hdr.source f.hdr.tc) s1

/-- One reference of a frame fewer in a crosspoint (R194). -/
def releasePlace (s : State) (p : Placed) : Option Placed × State :=
  if p.refs ≤ 1 then (none, freePlace s p) else (some { p with refs := p.refs - 1 }, s)

/-- Stores the places a frame still has; a frame without any is gone. -/
def putPlaces (id : Nat) (f : Stored) (placed : List Placed) (s : State) : State :=
  { s with fabric := { s.fabric with
    frames := if placed.isEmpty then AMap.del s.fabric.frames id else AMap.set s.fabric.frames id { f with placed := placed } } }

/-- A reference of a frame at a port is released (R194). -/
def releaseRef (id port : Nat) (s : State) : State :=
  match AMap.find s.fabric.frames id with
  | none => s
  | some f =>
    match f.placed.find? fun p => p.xp % 17 == sliceOf port with
    | none => s
    | some p =>
      let (p', s1) := releasePlace s p
      putPlaces id f (f.placed.filterMap fun q => if q.xp == p.xp then p' else some q) s1

/-- A reference leaves its queue and is released. -/
def unlinkRef (port tc : Nat) (r : Ref) (s : State) : State :=
  releaseRef r.frame port (s.updQueue port tc fun q => { q with refs := q.refs.filter fun x => x.frame != r.frame })

/-- Unlinks the references of a queue that meet a test, counting each at a port counter. -/
def unlinkWhere (test : Ref → Bool) (sub port tc : Nat) (s : State) : State :=
  ((s.queue port tc).refs.filter test).foldl (fun s r => (unlinkRef port tc r s).bumpPort port sub) s

/-- The (port, class) pairs of the queues that hold references. -/
def busyQueues (s : State) : List (Nat × Nat) :=
  (s.fabric.queues.filter fun e => !e.2.refs.isEmpty).map fun e => (e.1 / 8, e.1 % 8)

/-- A queue without linked references has no deficit (R223). -/
def emptyQueue (port tc : Nat) (s : State) : State :=
  if ((s.queue port tc).refs.filter fun r => decide (r.linkedAt ≤ s.cycle)).isEmpty then s.updQueue port tc fun q => { q with deficit := 0 } else s

/-- Unlinks in every queue, with the empty-queue rule. -/
def unlinkAll (test : Nat → Ref → Bool) (sub : Nat) (s : State) : State :=
  (busyQueues s).foldl (fun s q => emptyQueue q.1 q.2 (unlinkWhere (test q.1) sub q.1 q.2 s)) s

/-! ## Depth -/

/-- The stored length of a referenced frame. -/
def refLength (s : State) (r : Ref) : Nat :=
  match AMap.find s.fabric.frames r.frame with | some f => 24 + f.bytes.length | none => 0

/-- The references of a queue whose frames are in transmission or held part-sent. -/
def sendingRefs (p : Port) (tc : Nat) : List Ref :=
  ((p.tx.toList ++ p.pre.toList).filter fun t => t.tc == tc).map (·.ref)

/-- D of a queue (R201): every frame it references until the reference is released. -/
def queueDepth (s : State) (port tc : Nat) : Nat :=
  (((s.queue port tc).refs.filter (fun r => r.linkedAt ≤ s.cycle) ++ sendingRefs (s.port port) tc).map (refLength s)).sum

/-- One average updated (R201): arithmetic shift, toward minus infinity. -/
def avgStep (w a d : Nat) : Nat := ((a : Int) + ((d * 65536 : Int) - a) / 2 ^ w).toNat

/-- AVERAGE_DEPTH_UPDATE (R201): every 64 core cycles. -/
def effAverageDepthUpdate (s : State) : State :=
  if isAlive s.chip.mode && decide (s.fabric.avgAt + 64 ≤ s.cycle) then
    let w := s.cfgN 0x1800 1
    let upd := fun (e : Nat × Queue) => (e.1, { e.2 with avg := avgStep w e.2.avg (queueDepth s (e.1 / 8) (e.1 % 8)) })
    { s with fabric := { s.fabric with queues := s.fabric.queues.map upd, avgAt := s.cycle - s.cycle % 64 } }
  else s

/-! ## Fences -/

/-- PARITY_FENCE (R207): a parity error in a crosspoint fences it; a second one within 1 s of the last leaves it fenced
until RESET. -/
def effParityFence (i j : Nat) (s : State) : State :=
  let x := xpKey i j
  if isAlive s.chip.mode && slicePresent s.ident i && slicePresent s.ident j then
    let again := match (s.xp x).lastError with
      | some t => decide (s.cycle < t + sCycles 1)
      | none => false
    if (s.xp x).fence == .permanent then s
    else if again then
      detectFault 7 j 3 x (s.updXp x fun y => { y with fence := .permanent, lastError := some s.cycle })
    else detectFault 7 j 2 x (s.updXp x fun y => { y with fence := .fenced, lastError := some s.cycle })
  else s

/-- A reference of port m to a frame that lies in a crosspoint and is not in transmission. -/
def refInXp (s : State) (x m : Nat) (r : Ref) : Bool :=
  m < 263 && sliceOf m == x % 17 &&
  (match AMap.find s.fabric.frames r.frame with | some f => sliceOf f.hdr.source == x / 17 | none => false)

/-- FENCE_UNLINK (R207): every reference to a frame in the crosspoint is unlinked and counted. -/
def effFenceUnlink (i j : Nat) (s : State) : State :=
  let x := xpKey i j
  if (s.xp x).fence == .fenced || (s.xp x).fence == .permanent then
    let s1 := unlinkAll (refInXp s x) 0x56 s
    if (s.xp x).fence == .fenced then s1.updXp x fun y => { y with fence := .unlinked } else s1
  else s

/-- A place in a rebuilt crosspoint holds no cells any more: its frame is in transmission. -/
def forgetCells (x : Nat) (p : Placed) : Placed := if p.xp = x then { p with cells := [], holds := false } else p

/-- A frame still being written to a rebuilt crosspoint has lost its cells there: it is refused, and its members count. -/
def forgetWriting (x : Nat) (s : State) : State :=
  let lost := s.fabric.inflight.flatMap fun (e : Nat × Inflight) =>
    (e.2.placed.filter fun p => p.xp == x).flatMap fun p => p.members.map (·.1)
  let drop := fun (e : Nat × Inflight) => (e.1, { e.2 with placed := e.2.placed.filter fun p => p.xp != x })
  countAt lost 0x56 { s with fabric := { s.fabric with inflight := s.fabric.inflight.map drop } }

/-- FENCE_REBUILD (R207): what was linked since is unlinked too, the free list, tails and accounts are rebuilt, admission
resumes, FENCES counts one. -/
def effFenceRebuild (i j : Nat) (s : State) : State :=
  let x := xpKey i j
  if (s.xp x).fence == .unlinked then
    let s0 := forgetWriting x (unlinkAll (refInXp s x) 0x56 s)
    let s1 := s0.updXp x fun y => { y with cells := [], tails := [], fence := .none }
    let keep := fun (e : Nat × Stored) => (e.1, { e.2 with placed := e.2.placed.map (forgetCells x) })
    ({ s1 with fabric := { s1.fabric with frames := s1.fabric.frames.map keep } } : State).bumpK 0x9200 7 x
  else s

/-- Crosspoints fenced now (R211). -/
def fencedCount (s : State) : Nat := (s.fabric.xps.filter fun e => e.2.fence != .none).length

/-! ## LOAD and epochs -/

/-- A frame that is live before it is linked (R208): decided, and not abandoned in every crosspoint it was written to. -/
def liveArriving (epoch : Nat) (f : Inflight) : Bool := f.decided && !f.placed.isEmpty && f.hdr.epoch == epoch % 256

/-- The frames of an epoch inside the device (R93, R208): those decided and not yet linked, and those stored. -/
def epochFrames (s : State) (epoch : Nat) : Nat :=
  (s.fabric.inflight.filter fun e => liveArriving epoch e.2).length +
  (s.fabric.frames.filter fun e => e.2.hdr.epoch == epoch % 256).length

/-- OLDER_FRAMES (R93). -/
def olderFrames (s : State) : Nat :=
  if s.cfg.older.isSome then epochFrames s (s.cfg.epoch + 255) else 0

/-- LFSR seeds of an image (R201). -/
def lfsrSeeds (s : State) : List Nat :=
  (upTo 34).map fun k => let n := (s.cfgN 0x1800 2 + k) % 2 ^ 32; if n = 0 then 1 else n

/-- The averages and seeds at LOAD (R201). -/
def fabricLoad (s : State) : State :=
  { s with fabric := { s.fabric with
    lfsr := lfsrSeeds s, queues := s.fabric.queues.map fun e => (e.1, { e.2 with avg := 0 }) } }

/-! ## The meanings -/

/-- AVERAGE_DEPTH_UPDATE: answers the state after its effect. -/
def execAverageDepthUpdate (s : State) : Answer := .next (effAverageDepthUpdate s)

/-- PARITY_FENCE: answers the state after its effect. -/
def execParityFence (i : Nat) (j : Nat) (s : State) : Answer := .next (effParityFence i j s)

/-- FENCE_UNLINK: answers the state after its effect. -/
def execFenceUnlink (i : Nat) (j : Nat) (s : State) : Answer := .next (effFenceUnlink i j s)

/-- FENCE_REBUILD: answers the state after its effect. -/
def execFenceRebuild (i : Nat) (j : Nat) (s : State) : Answer := .next (effFenceRebuild i j s)

end Sys2Proof.Machine
end

