-- ==== Sys2Proof/Machine/Frer.lean ====
section
/-!
DEFINITION. Frame replication and elimination (R160 to R190): numbering, recovery, resets, latent-error tests, cutover
and takeover.
-/
namespace Sys2Proof.Machine

/-! ## Rows -/

/-- A field of a generation function's row. -/
def genField (s : State) (im : Image) (k sub : Nat) : Nat := imgFieldN s.ident im 0x3001 k sub

/-- A field of a recovery context's row. -/
def recField (s : State) (im : Image) (k sub : Nat) : Nat := imgFieldN s.ident im 0x3003 k sub

/-- The generation function of a handle (R167). -/
def genOf (im : Image) (handle : Nat) : Option Nat :=
  ((imgTable im 0x3001).find? fun e => (e.2.getD 0 (.num 0)).n == handle).map (·.1)

/-- The recovery context of a handle at an egress port (R170). -/
def recoveryOf (im : Image) (handle port : Nat) : Option Nat :=
  ((imgTable im 0x3003).find? fun e =>
    (e.2.getD 0 (.num 0)).n == handle && (e.2.getD 1 (.num 0)).n == port).map (·.1)

/-- The state of a recovery context. -/
def State.recov (s : State) (k : Nat) : Recov := AMap.get {} s.frer.recs k

/-- Changes a recovery context. -/
def State.updRecov (s : State) (k : Nat) (f : Recov → Recov) : State :=
  { s with frer := { s.frer with recs := AMap.set s.frer.recs k (f (s.recov k)) } }

/-! ## Generation -/

/-- GEN_SEQ_NUM of a key for frames of an epoch (R167). -/
def genNumber (s : State) (older : Bool) (k : Nat) : Nat :=
  match (if older then AMap.find s.frer.olderGens k else none) with
  | some n => n
  | none => AMap.get 0 s.frer.gens k

/-- The older epoch keeps a number of its own for a key (R167). -/
def genIsOwn (s : State) (older : Bool) (k : Nat) : Bool := older && AMap.has s.frer.olderGens k

/-- Stores GEN_SEQ_NUM of a key. -/
def putGenNumber (own : Bool) (k n : Nat) (s : State) : State :=
  if own then { s with frer := { s.frer with olderGens := AMap.set s.frer.olderGens k n } }
  else { s with frer := { s.frer with gens := AMap.put 0 s.frer.gens k n } }

/-- Numbers a frame by the generation function of its epoch (R167): the header with FRER_SEQ and SEQ_VALID. -/
def numberFrame (h : Carriage) (s : State) : Carriage × State :=
  let older := h.epoch != s.cfg.epoch % 256
  match (if h.streamValid then genOf (s.epochImage h.epoch) h.handle else none) with
  | none => (h, s)
  | some k =>
    let own := genIsOwn s older k
    let n := genNumber s older k
    let s1 := putGenNumber own k ((n + 1) % 65536) s
    let s2 := if own then s1 else
      let s3 := s1.bumpK 0x3002 3 k
      if h.rtagIn then s3.bumpK 0x3002 4 k else s3
    ({ h with seq := n, seqValid := true }, s2)

/-- A write of RESET_GENERATION for one key (R169). -/
def resetGen (s : State) (k : Nat) : State :=
  let s1 := (putGenNumber false k 0 s).bumpK 0x3002 5 k
  { s1 with frer := { s1.frer with genMarks := if s1.frer.genMarks.contains k then s1.frer.genMarks else k :: s1.frer.genMarks } }

/-! ## Recovery algorithms -/

/-- signed16 of R173. -/
def signed16 (x : Int) : Int := (x + 32768) % 65536 - 32768

/-- What an algorithm decides about a frame: pass or not, the counters of R188 that count it (a subindex may occur more
than once), and whether it is a duplicate of R178. -/
structure Verdict where
  pass : Bool
  counts : List Nat := []
  dup : Bool := false
deriving DecidableEq, Repr, Inhabited

/-- `delta` shifts of the history (R174): the history, and how many clear bits left it. -/
def shiftHistory : Nat → List Bool → List Bool × Nat
  | 0, h => (h, 0)
  | d + 1, h =>
    let (r, n) := shiftHistory d (false :: h.dropLast)
    (r, n + b2n (h.getLast? == some false))

/-- The vector algorithm on a sequenced frame (R174). -/
def vectorStep (n seq cycle : Nat) (x : Recov) : Verdict × Recov :=
  if x.takeAny then
    ({ pass := true, counts := [2] },
     { x with recov := seq, history := List.replicate n true, takeAny := false, timerAt := cycle, timerOn := true, pw := x.pw + 1 })
  else
    let delta := signed16 ((seq : Int) - x.recov)
    if (n : Int) ≤ delta ∨ delta ≤ -(n : Int) then ({ pass := false, counts := [5] }, x)
    else if delta ≤ 0 then
      if x.history.getD delta.natAbs false then
        ({ pass := false, counts := [3], dup := true }, { x with dw := x.dw + 1 })
      else
        ({ pass := true, counts := [4, 2] },
         { x with history := x.history.set delta.natAbs true, timerAt := cycle, timerOn := true, pw := x.pw + 1 })
    else
      let (h, lost) := shiftHistory delta.toNat x.history
      ({ pass := true, counts := (if 1 < delta then [4] else []) ++ List.replicate lost 6 ++ [2] },
       { x with history := h.set 0 true, recov := seq, timerAt := cycle, timerOn := true, pw := x.pw + 1 })

/-- The match algorithm on a sequenced frame (R175), over RecovSeqNum, TAKE_ANY and the guard: the verdict and the
three after it. -/
def matchStep (seq recov : Nat) (takeAny guard : Bool) : Verdict × Nat × Bool × Bool :=
  if takeAny then ({ pass := true, counts := [2] }, seq, false, guard)
  else
    let delta := signed16 ((seq : Int) - recov)
    if delta = 0 then ({ pass := false, counts := [3], dup := true }, recov, takeAny, guard)
    else if guard ∧ delta < 0 then ({ pass := false, counts := [5] }, recov, takeAny, guard)
    else ({ pass := true, counts := (if delta = 1 then [] else [4]) ++ [2] }, seq, takeAny, false)

/-- The match algorithm on a context. -/
def contextMatch (seq cycle : Nat) (x : Recov) : Verdict × Recov :=
  let (v, r, t, g) := matchStep seq x.recov x.takeAny x.guard
  (v, { x with
    recov := r, takeAny := t, guard := g, timerAt := if v.pass then cycle else x.timerAt, timerOn := v.pass || x.timerOn,
    pw := x.pw + b2n v.pass, dw := x.dw + b2n v.dup })

/-- The match algorithm on a member state (R177). -/
def memberMatch (seq cycle : Nat) (m : Member) : Verdict × Member :=
  let (v, r, t, g) := matchStep seq m.recov m.takeAny m.guard
  (v, { m with
    recov := r, takeAny := t, guard := g, timerAt := if v.pass then cycle else m.timerAt,
    timerOn := v.pass || m.timerOn })

/-- The member state of a source port (R177): its number 0 to 3. -/
def memberOf (s : State) (k source : Nat) : Option Nat :=
  if recField s s.cfg.running k 8 = 1 then
    (upTo 4).find? fun m => field (recField s s.cfg.running k 9) (16 * m) 16 == source
  else none

/-- The context's own algorithm on a sequenced frame, under the takeover hold of R181. -/
def contextStep (s : State) (k seq : Nat) (x : Recov) : Verdict × Recov :=
  if x.takeAny && decide (s.cycle < x.holdUntil) then ({ pass := false, counts := [5] }, x)
  else
    match recField s s.cfg.running k 4 with
    | 0 => vectorStep (recField s s.cfg.running k 5) seq s.cycle x
    | 1 => contextMatch seq s.cycle x
    | _ => ({ pass := true, counts := [2] }, { x with timerAt := s.cycle, timerOn := true })

/-- A member state and then the context (R177). -/
def memberThenContext (s : State) (k m seq : Nat) (x : Recov) : Verdict × Recov :=
  let mem := x.members.getD m {}
  if mem.takeAny && decide (s.cycle < mem.holdUntil) then ({ pass := false, counts := [5] }, x)
  else
    let (v, mem1) := memberMatch seq s.cycle mem
    let x1 := { x with members := updAt x.members m fun _ => mem1 }
    if v.pass then contextStep s k seq x1 else ({ v with dup := false }, x1)

/-- The evaluation of a frame by a context (R174 to R177). -/
def evaluate (s : State) (k : Nat) (h : Carriage) : Verdict × Recov :=
  let x := s.recov k
  if !h.seqValid then ({ pass := recField s s.cfg.running k 7 == 1, counts := [7] }, x)
  else
    match memberOf s k h.source with
    | some m => memberThenContext s k m h.seq x
    | none => contextStep s k h.seq x

/-- Recovery at selection (R170 to R172): whether the frame goes on, with every count of R188 and R189. -/
def recoverFrame (port : Nat) (h : Carriage) (s : State) : Bool × State :=
  match (if h.streamValid then recoveryOf (s.epochImage h.epoch) h.handle port else none) with
  | none => (true, s)
  | some k =>
    if (s.row 0x3003 k).isNone then (false, (s.bumpK 0x3005 0x0B k).bumpPort port 0x43)
    else
      let (v, x) := evaluate s k h
      let s1 := v.counts.foldl (fun s sub => s.bumpK 0x3005 sub k) (s.updRecov k fun _ => x)
      (v.pass, s1.bumpPort port (if v.pass then 0x42 else 0x43))

/-- RTAG_OUT for a sequenced frame at a port (R165), under the frame's epoch (R208): none when the frame leaves
unchanged. -/
def rtagOut (s : State) (port : Nat) (h : Carriage) : Option Bool :=
  let im := s.epochImage h.epoch
  if !h.seqValid then none
  else
    match (if h.streamValid then recoveryOf im h.handle port else none) with
    | some k => some (recField s im k 10 == 1)
    | none => some (bitSet (imgVal s.ident im 0x3000 1).b port)

/-! ## Resets and latent tests -/

/-- The reset of a member and of a context (R176, R177); RecovSeqNum, the window counts, their periods and LATENT_ERROR are
not part of it. -/
def resetMember (m : Member) : Member := { m with takeAny := true, guard := false, timerOn := false }
def resetContext (x : Recov) : Recov :=
  { x with
    takeAny := true, guard := false, history := [], timerOn := false, members := x.members.map resetMember, resetMark := true }

/-- A reset of a context (R176). -/
def resetRecoveryKey (s : State) (k : Nat) : State := (s.updRecov k resetContext).bumpK 0x3005 8 k

/-- RECOVERY_RESET_TIMER: the timer reaches RESET_TIME with no frame passed. The timer runs from its restart to the next
reset (DEDUCED, log entry 13). -/
def effRecoveryResetTimer (k : Nat) (s : State) : State :=
  let x := s.recov k
  if (s.row 0x3003 k).isSome && x.timerOn && decide (x.timerAt + usCycles (recField s s.cfg.running k 6) ≤ s.cycle) then
    resetRecoveryKey s k
  else s

/-- MEMBER_RESET_TIMER: one member state's timer (R177). -/
def effMemberResetTimer (k m : Nat) (s : State) : State :=
  let x := s.recov k
  let y := x.members.getD m {}
  if (s.row 0x3003 k).isSome && recField s s.cfg.running k 8 == 1 && decide (m < 4) && y.timerOn &&
      decide (y.timerAt + usCycles (recField s s.cfg.running k 6) ≤ s.cycle) then
    (s.updRecov k fun x => { x with members := updAt x.members m resetMember, resetMark := true }).bumpK 0x3005 8 k
  else s

/-- Latent detection runs on a context (R178). -/
def latentOn (s : State) (k : Nat) : Bool :=
  (s.row 0x3003 k).isSome && decide (2 ≤ recField s s.cfg.running k 11) && decide (recField s s.cfg.running k 4 < 2)

/-- The core cycle of a context's next latent test. -/
def latentTestDue (s : State) (k : Nat) : Nat := (s.recov k).testAt + msCycles (recField s s.cfg.running k 13)

/-- The home slice of a recovery key (R161). -/
def recSlice (k : Nat) : Nat := k / 16384

/-- LATENT_TEST (R178, R179). -/
def effLatentTest (k : Nat) (s : State) : State :=
  if latentOn s k && decide (latentTestDue s k ≤ s.cycle) then
    let x := s.recov k
    let diff := ((x.pw : Int) * (recField s s.cfg.running k 11 - 1 : Nat) - x.dw).natAbs
    let s1 := s.updRecov k fun y => { y with testAt := latentTestDue s k }
    if recField s s.cfg.running k 12 < diff then
      let s2 := (s1.updRecov k fun y => { y with latentError := true }).bumpK 0x3005 9 k
      if x.latentError then s2
      else detectFault 5 (recSlice k) 1 (k % 16384) (pulse (192 + recSlice k) s2)
    else s1.updRecov k fun y => { y with latentError := false }
  else s

/-- LATENT_RESET (R178): a test due in the same core cycle runs first. -/
def effLatentReset (k : Nat) (s : State) : State :=
  let due := (s.recov k).latentResetAt + msCycles (recField s s.cfg.running k 14)
  if latentOn s k && decide (due ≤ s.cycle) && decide (due < latentTestDue s k) then
    (s.updRecov k fun y => { y with latentResetAt := due, pw := 0, dw := 0 }).bumpK 0x3005 0x0A k
  else s

/-- LATENT_ACTIVE (R179). -/
def latentActive (s : State) : Nat := (s.frer.recs.filter fun e => e.2.latentError).length

/-! ## Configuration changes -/

/-- A context as LOAD or a cutover creates it. -/
def freshRecov (cycle : Nat) : Recov := { testAt := cycle, latentResetAt := cycle }

/-- A counter of a table whose rows an image creates (R159, R180). -/
def rowCounter (k : Nat) : Bool := [0x2104, 0x2105, 0x3002, 0x3005].contains (k / 2 ^ 40)

/-- LOAD is a reset of every context and counts one RESETS (R176). -/
def countLoadResets (s : State) : State :=
  (AMap.keys (imgTable s.cfg.running 0x3003)).foldl (fun s k => s.bumpK 0x3005 8 k) s

/-- The counters of the rows that an image just loaded creates are zero (R159, R180). -/
def createdRows (s : State) : State := { s with cnt := s.cnt.filter fun e => !rowCounter e.1 }

/-- Every FRER state at LOAD (R169, R176). -/
def frerLoad (s : State) : State :=
  { s with frer := { recs := (imgTable s.cfg.running 0x3003).map fun e => (e.1, freshRecov s.cycle) } }

/-- The fields (by position from STREAM_HANDLE) whose change resets a context, and those of latent detection (R180). -/
def rowDiffers (positions : List Nat) (a b : Row) : Bool :=
  positions.any fun i => a.getD i (.num 0) != b.getD i (.num 0)

/-- A history after HISTORY_LENGTH changed from `old` to `new` (R180): added bits read 1. -/
def resizeHistory (old new : Nat) (h : List Bool) : List Bool :=
  if new = old then h
  else (h ++ List.replicate (old - h.length) false).take (min old new) ++ List.replicate (new - old) true

/-- A context that a cutover keeps, creates or resets (R180). -/
def cutRecov (s : State) (old : Image) (e : Nat × Row) : Nat × Recov :=
  match imgRow old 0x3003 e.1 with
  | none => (e.1, freshRecov s.cycle)
  | some r =>
    if rowDiffers [0, 1, 2, 6, 7] r e.2 then (e.1, freshRecov s.cycle)
    else
      let x := s.recov e.1
      let x1 := { x with history := resizeHistory (r.getD 3 (.num 0)).n (e.2.getD 3 (.num 0)).n x.history }
      if rowDiffers [9, 10, 11, 12] r e.2 then
        (e.1, { x1 with pw := 0, dw := 0, testAt := s.cycle, latentResetAt := s.cycle })
      else (e.1, x1)

/-- GEN_SEQ_NUM values that the older epoch keeps for itself (R167). -/
def cutOlderGens (s : State) (old new : Image) : AMap Nat :=
  (imgTable old 0x3001).filterMap fun e =>
    match imgRow new 0x3001 e.1 with
    | some r => if rowDiffers [0] r e.2 then some (e.1, AMap.get 0 s.frer.gens e.1) else none
    | none => some (e.1, AMap.get 0 s.frer.gens e.1)

/-- GEN_SEQ_NUM values that the new epoch keeps (R180). -/
def cutGens (s : State) (old new : Image) : AMap Nat :=
  s.frer.gens.filter fun e =>
    match imgRow old 0x3001 e.1, imgRow new 0x3001 e.1 with
    | some a, some b => !rowDiffers [0] a b
    | _, _ => false

/-- FRER at a cutover (R180). -/
def frerCutover (old new : Image) (s : State) : State :=
  let s1 := { s with frer :=
    { s.frer with
      olderGens := cutOlderGens s old new, gens := cutGens s old new,
      recs := (imgTable new 0x3003).map (cutRecov s old) } }
  let s2 := (changedKeys old new 0x3001).foldl (zeroKeyCounters 0x3002 [3, 4, 5]) s1
  (changedKeys old new 0x3003).foldl (zeroKeyCounters 0x3005 [2, 3, 4, 5, 6, 7, 8, 9, 10, 11, 12]) s2

/-- The older epoch's numbers go with it (R94). -/
def frerRetire (s : State) : State := { s with frer := { s.frer with olderGens := [] } }

/-! ## Takeover -/

/-- A member state at a takeover (R181). -/
def takeoverMember (adv cycle hold : Nat) (m : Member) : Member :=
  if m.takeAny then { m with holdUntil := hold, timerAt := cycle, timerOn := true }
  else { m with recov := (m.recov + adv) % 65536, guard := true, timerAt := cycle, timerOn := true }

/-- The members of a context at a takeover: those whose slot of MEMBER_PORTS is used (R177, R181). -/
def takeoverMembers (s : State) (k hold : Nat) (l : List Member) : List Member :=
  let fld := recField s s.cfg.running k
  if fld 8 = 1 then
    l.zipIdx.map fun x => if field (fld 9) (16 * x.2) 16 = 0xFFFF then x.1 else takeoverMember (fld 15) s.cycle hold x.1
  else l

/-- A context at a takeover (R181). -/
def takeoverContext (s : State) (s0 : State) (e : Nat × Recov) : State :=
  let fld := recField s s.cfg.running e.1
  let hold := s.cycle + usCycles (fld 6)
  let x := { e.2 with members := takeoverMembers s e.1 hold e.2.members, timerAt := s.cycle, timerOn := true }
  let y := if x.takeAny then { x with holdUntil := hold }
    else if fld 4 = 0 then
      { x with recov := (x.recov + fld 15) % 65536, history := List.replicate (fld 5) true }
    else { x with recov := (x.recov + fld 15) % 65536, guard := true }
  (s0.updRecov e.1 fun _ => y).bumpK 0x3005 0x0C e.1

/-- GEN_ADVANCE of a generation function's row. -/
def genAdvance (im : Image) (k : Nat) : Nat :=
  match imgRow im 0x3001 k with
  | some r => (r.getD 3 (.num 0)).n
  | none => 0

/-- A generation function at a takeover (R181). -/
def takeoverGen (s : State) (s0 : State) (e : Nat × Row) : State :=
  putGenNumber false e.1 ((AMap.get 0 s.frer.gens e.1 + genAdvance s.cfg.running e.1) % 65536) s0

/-- A number that the older epoch keeps for itself at a takeover (R167, R181), by its own row. -/
def takeoverOlder (s : State) (e : Nat × Nat) : Nat × Nat :=
  (e.1, (e.2 + genAdvance (s.epochImage ((s.cfg.epoch + 255) % 256)) e.1) % 65536)

/-- FRER in the core cycle of a takeover (R181). -/
def frerTakeover (s : State) : State :=
  let s1 := (imgTable s.cfg.running 0x3001).foldl (takeoverGen s) (s.frer.recs.foldl (takeoverContext s) s)
  { s1 with frer := { s1.frer with olderGens := s.frer.olderGens.map (takeoverOlder s) } }

/-! ## The meanings -/

/-- RECOVERY_RESET_TIMER: answers the state after its effect. -/
def execRecoveryResetTimer (k : Nat) (s : State) : Answer := .next (effRecoveryResetTimer k s)

/-- MEMBER_RESET_TIMER: answers the state after its effect. -/
def execMemberResetTimer (k : Nat) (m : Nat) (s : State) : Answer := .next (effMemberResetTimer k m s)

/-- LATENT_TEST: answers the state after its effect. -/
def execLatentTest (k : Nat) (s : State) : Answer := .next (effLatentTest k s)

/-- LATENT_RESET: answers the state after its effect. -/
def execLatentReset (k : Nat) (s : State) : Answer := .next (effLatentReset k s)

end Sys2Proof.Machine
end

