-- ==== Sys2Proof/Machine/Time.lean ====
section
/-!
DEFINITION. The time base unit (R238 to R258): counters, rate interface, steps, arming, measurements and lock, PPS
inputs and outputs. Applying a step touches every armed compare and stands in Machine/Compares.lean.
-/
namespace Sys2Proof.Machine

/-- Object index of a domain. -/
def domObj (d : Nat) : Nat := 0x4000 + d

/-- SOURCE of a domain in effect (R246). -/
def State.domSource (s : State) (d : Nat) : Nat := s.cfgN (domObj d) 3

/-- LOCKS_HELD (R251). -/
def locksHeld (s : State) : Nat := ((upTo 8).map fun d => if (s.dom d).locked then 2 ^ d else 0).sum

/-- LOCKS_REQUIRED (R251). -/
def locksRequired (s : State) : Nat := ((upTo 8).map fun d => if s.cfgB (domObj d) 0x0F then 2 ^ d else 0).sum

/-- Every required domain is locked (R71). -/
def locksMet (s : State) : Bool := (upTo 8).all fun d => !s.cfgB (domObj d) 0x0F || (s.dom d).locked

/-! ## Ticks -/

/-- One tick of a domain (R238, R254 step 2). -/
def tickDomain (x : Domain) : Domain :=
  if x.enabled then
    { x with
      value := x.value + (incNow x).zeroExtend 96, adjLeft := if x.adjOpen then x.adjLeft - 1 else x.adjLeft,
      corr := x.corr + ((incNow x).toNat : Int) - (x.inc.toNat : Int) }
  else x

/-- One core-clock cycle without a command (DESIGN CHOICE, log entry 4): the time clock's ticks that it begins advance the domains. -/
def idleCycle (s : State) : State :=
  let s1 := { s with cycle := s.cycle + 1 }
  if isAlive s.chip.mode && tickOf s.cycle < tickOf (s.cycle + 1) then
    { s1 with time := { s1.time with domains := s1.time.domains.map tickDomain } }
  else s1

/-! ## Lock -/

/-- LOCKED takes a value (R250, R251): a change pulses the lock line; a fall sets LOCK_LOST, counts, and for a required
domain in RUN records REQUIRED_LOCK_LOST. -/
def setLocked (d : Nat) (b : Bool) (s : State) : State :=
  if (s.dom d).locked = b then s
  else
    let s1 := pulse (163 + d) (s.updDom d fun x => { x with locked := b })
    if b then s1
    else
      let s2 := ((s1.updDom d fun x => { x with lockLost := true }).hit (.domStatus d 10) 0).bump (domObj d) 0x23
      if s2.cfgB (domObj d) 0x0F && s2.chip.mode == .run then detectFault 11 d 1 0 s2 else s2

/-- A domain loses lock and its good and bad counts (R250). -/
def loseLock (d : Nat) (s : State) : State :=
  setLocked d false (s.updDom d fun x => { x with good := 0, bad := 0 })

/-- The magnitude of an offset of e / n in 2^-16 ns is at most a threshold in nanoseconds. -/
def offsetWithin (e : Int) (n threshold : Nat) : Bool := e.natAbs ≤ threshold * 2 ^ 16 * n

/-- One measurement of a domain's offset, e / n in 2^-16 ns (R250); LAST_OFFSET keeps it rounded toward zero (R257). -/
def measure (d : Nat) (e : Int) (n : Nat) (s : State) : State :=
  let good := offsetWithin e n (s.cfgN (domObj d) 0x0A)
  let bad := !offsetWithin e n (s.cfgN (domObj d) 0x0C)
  let s1 := (s.updDom d fun x =>
    { x with
      lastOffset := e.tdiv n, measuredAt := s.cycle,
      good := if good then x.good + 1 else 0,
      bad := if bad then x.bad + 1 else 0 }).bump (domObj d) 0x24
  let x := s1.dom d
  if !x.locked && s1.cfgN (domObj d) 0x0B ≤ x.good then setLocked d true s1
  else if x.locked && s1.cfgN (domObj d) 0x0D ≤ x.bad then setLocked d false s1
  else s1

/-! ## Arming and settings -/

/-- Arms a domain in a mode (R244, R249). -/
def armDomain (d mode : Nat) (s : State) : State :=
  s.updDom d fun x => { x with mode := mode, stepUsed := false, integ := 0 }

/-- The second number that NS plus PPS_OUT_OFFSET has reached (R248). -/
def ppsSecond (s : State) (d : Nat) : Int :=
  ((s.ns d : Int) + toSigned 32 (s.cfgN (domObj d) 0x12)) / 1000000000

/-- The domain that drives PPS_OUT[k] (R248); CHECK allows one (R256). -/
def ppsDomain (s : State) (k : Nat) : Option Nat :=
  (upTo 8).find? fun d => (s.dom d).enabled && bit (s.cfgN (domObj d) 0x10) k

/-- Changes a PPS output. -/
def State.updPps (s : State) (k : Nat) (f : PpsOut → PpsOut) : State :=
  { s with time := { s.time with pps := updAt s.time.pps k f } }

/-- Notes the second number that an output's domain has reached as already passed (R248). -/
def ppsNote (s : State) (k : Nat) : State :=
  match ppsDomain s k with
  | some d => s.updPps k fun o => { o with last := max o.last (ppsSecond s d) }
  | none => s

/-- An output that a domain starts to drive counts seconds from where the domain stands (R248). -/
def ppsStart (d : Nat) (s : State) (k : Nat) : State :=
  if ppsDomain s k = some d then s.updPps k fun o => { o with last := ppsSecond s d } else s

/-- A domain starts (R240): zero, the nominal increment, armed in CORRECTION_MODE; locked at once under SOURCE FREE. -/
def startDomain (d : Nat) (s : State) : State :=
  let s1 := s.updDom d fun x =>
    { x with
      enabled := true, value := 0, inc := 0x0100000000, incNext := [], adjOpen := false, adjLeft := 0, adjNext := [],
      step := none, good := 0, bad := 0, integ := 0, measuredAt := s.cycle, lastPps := none }
  let s2 := [0, 1].foldl (ppsStart d) (armDomain d (s1.cfgN (domObj d) 2) s1)
  setLocked d (s2.domSource d == 0) s2

/-- A domain stops, reads zero and drops its lock (R240, R250). -/
def stopDomain (d : Nat) (s : State) : State :=
  (loseLock d s).updDom d fun x =>
    { x with enabled := false, value := 0, incNext := [], adjOpen := false, adjLeft := 0, adjNext := [], step := none }

/-- The time settings of the running configuration take effect on one domain, against an earlier configuration (R240,
R250): the device calls it on entry to ARMED or HOLD and at each cutover, after the running configuration changed. -/
def applyDomain (old : Image) (s : State) (d : Nat) : State :=
  let on := d == 0 || s.cfgB (domObj d) 1
  let was := (s.dom d).enabled
  if on && !was then startDomain d s
  else if !on && was then stopDomain d s
  else if on then
    let s1 := if imgNum s.ident old (domObj d) 2 = s.cfgN (domObj d) 2 then s
      else armDomain d (s.cfgN (domObj d) 2) s
    let s2 := if imgNum s.ident old (domObj d) 3 = s1.domSource d then s1
      else if s1.domSource d = 0 then
        setLocked d true (s1.updDom d fun x => { x with good := 0, bad := 0 })
      else (loseLock d s1).updDom d fun x => { x with measuredAt := s.cycle }
    if imgNum s.ident old (domObj d) 0x10 = s2.cfgN (domObj d) 0x10 then [0, 1].foldl ppsNote s2
    else [0, 1].foldl (ppsStart d) s2
  else s

/-- The time settings of every domain take effect. -/
def applyTimeSettings (old : Image) (s : State) : State := (upTo 8).foldl (applyDomain old) s

/-! ## The rate interface -/

/-- The limits of R239. -/
def incAllowed (v : Nat) : Bool := 0x00FFDF3B64 ≤ v && v ≤ 0x010020C49C

/-- States in which R245 refuses steps and rate changes. -/
def timeRefusedState : Mode → Bool
  | .hold => false | .armed => false | .run => false | _ => true

/-- Refused by the owner, the domain or the device state (R245). -/
def rateOwnerRefuses (s : State) (d : Nat) : Bool :=
  s.domSource d == 2 || s.domSource d == 3 || !(s.dom d).enabled || timeRefusedState s.chip.mode

/-- A refused rate write: RATE_REFUSED and RATE_REFUSALS (R245). -/
def refuseRate (d : Nat) (s : State) : State :=
  ((s.updDom d fun x => { x with rateRefused := true }).hit (.domStatus d 9) 0).bump (domObj d) 0x22

/-- A refused step: STEP_REFUSED and STEP_REFUSALS (R245). -/
def refuseStep (d : Nat) (s : State) : State :=
  ((s.updDom d fun x => { x with stepRefused := true }).hit (.domStatus d 8) 0).bump (domObj d) 0x21

/-- A function's staged words and latches for a domain. -/
def State.fnTime (s : State) (f d : Nat) : FnTime := AMap.get {} s.time.fn (f * 8 + d)

/-- Changes a function's staged words for a domain. -/
def State.updFnTime (s : State) (f d : Nat) (g : FnTime → FnTime) : State :=
  { s with time := { s.time with fn := AMap.upd {} s.time.fn (f * 8 + d) g } }

/-- INCREMENT_HI (R242): commits {v[7:0], INCREMENT_LO}, or is refused (R245). -/
def effIncrementHiWrite (f d v : Nat) (s : State) : State :=
  if s.barReach f && decide (d < 8) then
    let inc := v % 256 * 2 ^ 32 + (s.fnTime f d).incLo
    if rateOwnerRefuses s d || !incAllowed inc then refuseRate d s
    else s.updDom d fun x => { x with incNext := x.incNext ++ [(BitVec.ofNat 40 inc, dueTick s.cycle)] }
  else refuseBar f true s

/-- ADJ_TICKS (R242): opens, restarts or closes the adjustment window, or is refused (R245); a write of 0 commits no
increment. -/
def effAdjTicksWrite (f d v : Nat) (s : State) : State :=
  if s.barReach f && decide (d < 8) then
    let w := s.fnTime f d
    let inc := (s.dom d).adjHi % 256 * 2 ^ 32 + w.adjLo
    let n := v % 2 ^ 32
    if rateOwnerRefuses s d || (decide (0 < n) && !incAllowed inc) then refuseRate d s
    else s.updDom d fun x => { x with adjNext := x.adjNext ++ [(BitVec.ofNat 40 inc, n, dueTick s.cycle)] }
  else refuseBar f true s

/-- The committed increments that are due take effect in their order, outside a window (R242). -/
def commitIncrement (tick : Nat) (x : Domain) : Domain :=
  if x.adjOpen then x
  else
    { x with
      inc := ((x.incNext.filter fun e => decide (e.2 ≤ tick)).getLast?.map (·.1)).getD x.inc,
      incNext := x.incNext.filter fun e => decide (tick < e.2) }

/-- The adjustment windows that are due open, restart or close in their order (R242). -/
def commitWindow (tick : Nat) (x : Domain) : Domain :=
  let later := x.adjNext.filter fun e => decide (tick < e.2.2)
  match (x.adjNext.filter fun e => decide (e.2.2 ≤ tick)).getLast? with
  | some (inc, n, _) => { x with adjInc := inc, adjLeft := n, adjOpen := decide (0 < n), adjNext := later }
  | none => x

/-- RATE_CHANGE_DUE: the changes due by the next tick are committed for use from it (R242, R254 step 3). -/
def effRateChangeDue (d : Nat) (s : State) : State :=
  let t := tickOf s.cycle + 1
  s.updDom d fun x => if x.enabled then commitIncrement t (commitWindow t x) else x

/-- ADJ_WINDOW_END: the window's ticks have run out; the running increment, or one committed meanwhile, applies
(R242). -/
def effAdjWindowEnd (d : Nat) (s : State) : State :=
  s.updDom d fun x =>
    if x.adjOpen && x.adjLeft == 0 then commitIncrement (tickOf s.cycle + 1) { x with adjOpen := false } else x

/-! ## Steps and arming by register -/

/-- A step is accepted in the armed mode (R244). -/
def stepAllowed (x : Domain) : Bool := x.mode == 0 || !x.stepUsed

/-- The staged step words of a function (R243). -/
def stagedStep (w : FnTime) : Time96 := BitVec.ofNat 96 (w.stepHi * 2 ^ 64 + w.stepLo * 2 ^ 32 + w.stepFrac)

/-- STEP_CTRL with GO (R243, R245). A value with GO 0 only sets KIND. -/
def effGo (f d v : Nat) (s : State) : State :=
  if s.barReach f && decide (d < 8) then
    if bit v 0 then
      if rateOwnerRefuses s d || !stepAllowed (s.dom d) || (s.dom d).step.isSome then refuseStep d s
      else
        s.updDom d fun x =>
          { x with kind := bit v 1, step := some (bit v 1, stagedStep (s.fnTime f d), dueTick s.cycle) }
    else s.updDom d fun x => { x with kind := bit v 1 }
  else refuseBar f true s

/-- The ARM register (R244, R245). -/
def armRegister (f d v : Nat) (s : State) : State :=
  if s.barReach f && decide (d < 8) then
    if (s.dom d).enabled then armDomain d (v % 2) s else refuseRate d s
  else refuseBar f true s

/-- OFFSET_REPORT: one measurement under SOURCE SOFTWARE, ignored otherwise (R245, R246). -/
def effOffsetReport (f d v : Nat) (s : State) : State :=
  if s.barReach f && decide (d < 8) then
    if (s.dom d).enabled && s.domSource d == 1 then measure d (toSigned 32 v * 2 ^ 16) 1 s else s
  else refuseBar f true s

/-- TIME_FRAC: latches NS for the reading function and returns FRAC (R241). -/
def effTimeFracRead (f d : Nat) (s : State) : State :=
  if s.barReach f && decide (d < 8) then
    (s.updFnTime f d fun w => { w with latchNs := s.ns d }).emit
      (.reg f (0x030000 + d * 0x100) ((s.dom d).value.toNat % 2 ^ 32))
  else refuseBar f false s

/-! ## PPS -/

/-- t of R247 in quarter nanoseconds: the domain at the edge, less PPS_DELAY. -/
def ppsCapture (s : State) (d quarter : Nat) : Int :=
  ((s.dom d).value.toNat / 2 ^ 30 + quarter % 4 : Nat) - 4 * toSigned 32 (s.cfgN (domObj d) 6)

/-- The offset e of R247 in quarter nanoseconds. -/
def ppsOffset (t : Int) : Int := t - 4000000000 * ((t + 2000000000) / 4000000000)

/-- integ and u of R249 in units of 2^-17 ns per second, so that every shift is exact. -/
def servoInteg (integ e : Int) (kiShift : Nat) : Int :=
  clampInt (integ + e * 2 ^ 15 / 2 ^ kiShift) (-500000 * 2 ^ 17) (500000 * 2 ^ 17)

/-- The increment the servo commits for a u in units of 2^-17 ns per second (R249). -/
def servoIncrement (u : Int) : Nat :=
  (clampInt (0x0100000000 + roundDiv (u * 2 ^ 15) 1000000000) 0x00FFDF3B64 0x010020C49C).toNat

/-- The PPS servo at an accepted edge (R249). -/
def ppsServo (d : Nat) (e : Int) (s : State) : State :=
  let x := s.dom d
  let thr := s.cfgN (domObj d) 7
  if thr ≠ 0 ∧ 4 * thr ≤ e.natAbs ∧ stepAllowed x then
    if x.step.isSome then s
    else s.updDom d fun y => { y with step := some (false, BitVec.ofInt 96 (-e * 2 ^ 30), dueTick s.cycle) }
  else
    let integ := servoInteg x.integ e (s.cfgN (domObj d) 9)
    let u := -(e * 2 ^ 15 / 2 ^ (s.cfgN (domObj d) 8) + integ)
    s.updDom d fun y =>
      { y with integ := integ, incNext := y.incNext ++ [(BitVec.ofNat 40 (servoIncrement u), dueTick s.cycle)] }

/-- An edge at one domain (R247). -/
def ppsEdgeAt (input : Nat) (rising : Bool) (quarter : Nat) (s : State) (d : Nat) : State :=
  if (s.dom d).enabled && s.cfgN (domObj d) 4 == input && s.cfgB (domObj d) 5 == !rising then
    let early := match (s.dom d).lastPps with
      | some t => decide (s.cycle < t + msCycles 500)
      | none => false
    if early then s.bump (domObj d) 0x25
    else
      let s1 := s.updDom d fun x => { x with lastPps := some s.cycle }
      if s1.domSource d = 2 then
        let e := ppsOffset (ppsCapture s1 d quarter)
        measure d (e * 2 ^ 14) 1 (ppsServo d e s1)
      else s1
  else s

/-- PPS_EDGE: an edge of PPS_IN that its glitch filter passes, at every domain that names the input (R247). An edge that ends a
pulse shorter than 100 ns is rejected: it comes less than 100 ns after the last one (DEDUCED, log entry 75). -/
def effPpsEdge (input : Nat) (rising : Bool) (quarter : Nat) (s : State) : State :=
  let near := match s.time.ppsSeen.getD input none with
    | some t => decide (s.cycle < t + nsCycles 100)
    | none => false
  if isAlive s.chip.mode && decide (input < 2) && !near then
    (upTo 8).foldl (ppsEdgeAt input rising quarter)
      { s with time := { s.time with ppsSeen := setAt s.time.ppsSeen input (some s.cycle) } }
  else s

/-- MEASURE_TIMEOUT: no measurement for MEASURE_TIMEOUT loses lock and sets PPS_MISSING (R250). -/
def effMeasureTimeout (d : Nat) (s : State) : State :=
  let x := s.dom d
  if x.enabled && s.domSource d != 0 && decide (x.measuredAt + msCycles (s.cfgN (domObj d) 0x0E) ≤ s.cycle) then
    detectFault 11 d 2 0 (loseLock d ((s.updDom d fun y => { y with ppsMissing := true, measuredAt := s.cycle }).hit (.domStatus d 12) 0))
  else s

/-- PPS_OUT_PULSE: a second number first reached by the advance of ticks drives the output (R248). -/
def effPpsOutPulse (k : Nat) (s : State) : State :=
  match ppsDomain s k with
  | some d =>
    if isActive s.chip.mode && decide (k < 2) && decide ((s.time.pps.getD k {}).last < ppsSecond s d) then
      s.updPps k fun o =>
        { o with active := true, last := ppsSecond s d, endAt := s.cycle + nsCycles (s.cfgN (domObj d) 0x11) }
    else s
  | none => s

/-- PPS_OUT_WIDTH_END: PPS_OUT_WIDTH after its edge the output goes inactive (R248). -/
def effPpsOutWidthEnd (k : Nat) (s : State) : State :=
  let o := s.time.pps.getD k {}
  if o.active && decide (o.endAt ≤ s.cycle) then s.updPps k fun y => { y with active := false } else s

/-- Seconds that a forward step of domain d jumps over are skipped and counted (R248). -/
def ppsSkip (d : Nat) (s : State) (k : Nat) : State :=
  if ppsDomain s k = some d ∧ isActive s.chip.mode then
    let last := (s.time.pps.getD k {}).last
    let jumped := (ppsSecond s d - last).toNat
    (s.bumpBy (domObj d) 0x27 0 jumped).updPps k fun o => { o with last := max o.last (ppsSecond s d) }
  else s

/-- On entry to ARMED the seconds already reached are noted; outside ARMED and RUN the outputs are inactive (R248). -/
def ppsState (entering : Mode) (s : State) : State :=
  if isActive entering then
    if isActive s.chip.mode then s else [0, 1].foldl ppsNote s
  else { s with time := { s.time with pps := s.time.pps.map fun o => { o with active := false } } }

/-! ## The meanings -/

/-- INCREMENT_HI_WRITE: answers the state after its effect. -/
def execIncrementHiWrite (f : Nat) (d : Nat) (v : Nat) (s : State) : Answer := .next (effIncrementHiWrite f d v s)

/-- ADJ_TICKS_WRITE: answers the state after its effect. -/
def execAdjTicksWrite (f : Nat) (d : Nat) (v : Nat) (s : State) : Answer := .next (effAdjTicksWrite f d v s)

/-- RATE_CHANGE_DUE: answers the state after its effect. -/
def execRateChangeDue (d : Nat) (s : State) : Answer := .next (effRateChangeDue d s)

/-- ADJ_WINDOW_END: answers the state after its effect. -/
def execAdjWindowEnd (d : Nat) (s : State) : Answer := .next (effAdjWindowEnd d s)

/-- GO: answers the state after its effect. -/
def execGo (f : Nat) (d : Nat) (v : Nat) (s : State) : Answer := .next (effGo f d v s)

/-- OFFSET_REPORT: answers the state after its effect. -/
def execOffsetReport (f : Nat) (d : Nat) (v : Nat) (s : State) : Answer := .next (effOffsetReport f d v s)

/-- TIME_FRAC_READ: answers the state after its effect. -/
def execTimeFracRead (f : Nat) (d : Nat) (s : State) : Answer := .next (effTimeFracRead f d s)

/-- PPS_EDGE: answers the state after its effect. -/
def execPpsEdge (input : Nat) (rising : Bool) (quarter : Nat) (s : State) : Answer := .next (effPpsEdge input rising quarter s)

/-- MEASURE_TIMEOUT: answers the state after its effect. -/
def execMeasureTimeout (d : Nat) (s : State) : Answer := .next (effMeasureTimeout d s)

/-- PPS_OUT_PULSE: answers the state after its effect. -/
def execPpsOutPulse (k : Nat) (s : State) : Answer := .next (effPpsOutPulse k s)

/-- PPS_OUT_WIDTH_END: answers the state after its effect. -/
def execPpsOutWidthEnd (k : Nat) (s : State) : Answer := .next (effPpsOutWidthEnd k s)

end Sys2Proof.Machine
end

