-- ==== Sys2Proof/Machine/Pairing.lean ====
section
/-!
DEFINITION. Roles and claims of a pair (R431 to R433, R438 to R440), the pair link and its heartbeats (R434 to R436),
and the claim filter of a port (R443).
-/
namespace Sys2Proof.Machine

/-! ## Settings and straps -/

/-- PAIR_RANK, PAIR_ROLE and BOOT_SRC as sampled (R508, R509). -/
def rankOf (s : State) : Nat := field s.chip.straps 3 8
def preferredOf (s : State) : Bool := bit s.chip.straps 2
def bootSrc (s : State) : Nat := field s.chip.straps 0 2

/-- The pairing unit is present (R1, R4): on TZ-SD2560-AX. -/
def pairPresent (s : State) : Bool := s.ident.ordering == 0

/-- A paired unit (R431). -/
def isPaired (s : State) : Bool := pairPresent s && s.cfgB 0x7000 1

/-- PAIR_GROUP. -/
def pairGroup (s : State) : Nat := s.cfgN 0x7003 1

/-- Changes the pairing unit. -/
def State.updPair (s : State) (f : Pair → Pair) : State := { s with pair := f s.pair }

/-- Counts at a pair counter (R460). -/
def State.bumpPair (s : State) (sub : Nat) : State := s.bump 0x7005 sub

/-- Sets a PAIR_EVENTS bit (R459). -/
def pairEvent (n : Nat) (s : State) : State :=
  (s.updPair fun p => { p with events := p.events ||| 2 ^ n }).hit (.pairEvent n) 0

/-- A valid heartbeat arrived within the last 32 us. -/
def partnerHeard (s : State) : Bool :=
  match s.pair.heardAt with
  | some t => decide (s.cycle < t + usCycles 32)
  | none => false

/-- No used feed of this unit is lost (R428, R440). -/
def feedsOk (s : State) : Bool := s.feeds.aOk && (s.feeds.bOk || s.cfgN 0x7001 1 == 0)

/-! ## Roles and claims -/

/-- The claims that a unit of epoch E and rank r holds (R432). -/
def activeClaim (e r : Nat) : Nat := e * 256 + r
def standbyClaim (e r : Nat) : Nat := (e - 1) * 256 + r

/-- COPY_CYCLE in nanoseconds and the nanoseconds of COPY_DOMAIN. -/
def copyNs (s : State) : Nat := max 1 (s.cfgN 0x7000 3 * 1000)
def copyTime (s : State) : Nat := s.ns (s.cfgN 0x7000 4)

/-- m of R446 now. -/
def copyNumber (s : State) : Nat := copyTime s / copyNs s % 2 ^ 32

/-- Stores E in the pair-epoch ring of the MRAM (R433, R496). -/
def persistEpoch (e : Nat) (s : State) : State := ringWrite epochRing e { s with mram := { s.mram with pairEpoch := e } }

/-- Notes an event that makes the digest cycles it falls in incomparable (R453). -/
def disturbDigest (s : State) : State := s.updPair fun p => { p with disturbed := some s.cycle }

/-- ACTIVE or STANDBY: the roles whose change pulses line 244 (R411). -/
def pairedRole (role : Nat) : Bool := role == 2 || role == 3

/-- A role with its claim. A change of the active or standby role pulses PAIR_ROLE_CHANGE (R411); any change starts no
copy in the middle of a cycle: copies count from the next copy instant (R446), and READY waits for a full copy (R449). -/
def setRole (role claim : Nat) (s : State) : State :=
  if s.pair.role = role then s.updPair fun p => { p with claim := claim }
  else
    let s1 := s.updPair fun p =>
      { p with
        role := role, claim := claim, roleAt := s.cycle, ready := false, tx := none, rx := none, lastEnd := none,
        copyLast := some (copyNumber s) }
    if pairedRole s.pair.role || pairedRole role then pulse 244 s1 else s1

/-- The unit becomes ACTIVE: the new E is persisted before its claim is held (R433). -/
def becomeActive (s : State) : State :=
  let e := min 0xFFFFFF (max s.mram.pairEpoch s.pair.seen + 1)
  setRole 2 (activeClaim e (rankOf s)) (persistEpoch e s)

/-- The unit is STANDBY, adopting the epoch of a higher claim it received (R433). -/
def becomeStandby (c : Nat) (s : State) : State :=
  let e := if standbyClaim s.mram.pairEpoch (rankOf s) < c then c / 256 else s.mram.pairEpoch
  setRole 3 (standbyClaim e (rankOf s)) (persistEpoch e s)

/-- The partner's heartbeat shows a conflict (R432). -/
def partnerConflicts (s : State) (p : Partner) : Bool := p.rank == rankOf s || p.group != pairGroup s

/-- Entry to CONFLICT (R432). -/
def becomeConflict (p : Partner) (s : State) : State :=
  detectFault 20 0 2 p.rank (pairEvent 5 (setRole 4 0 s))

/-- This unit goes before its partner: preferred alone, or equal preference and the higher rank (R432). -/
def goesFirst (s : State) (p : Partner) : Bool :=
  let theirs := bit p.flags 3
  (preferredOf s && !theirs) || (preferredOf s == theirs && p.rank < rankOf s)

/-- The role that a paired unit takes on entry to RUN, or on leaving CONFLICT (R432). -/
def takeRole (s : State) : State :=
  match (if partnerHeard s then s.pair.partner else none) with
  | none => becomeActive s
  | some p =>
    if partnerConflicts s p then becomeConflict p s
    else if (p.state != 6 || !bit p.flags 7) && goesFirst s p then becomeActive s
    else becomeStandby p.claim s

/-- The role on entry to RUN (R432, R433). -/
def pairEnterRun (s : State) : State :=
  if isPaired s then takeRole s
  else
    let e := min 0xFFFFFF (s.mram.pairEpoch + 1)
    setRole 1 (activeClaim e (rankOf s)) (persistEpoch e s)

/-- The role outside RUN is NONE with claim 0 (R432). -/
def pairLeaveRun (s : State) : State :=
  (setRole 0 0 s).updPair fun p => { p with yield := false, taking := false }

/-- Demotion of an ACTIVE unit by a higher claim (R438). -/
def demote (c : Nat) (s : State) : State :=
  disturbDigest ((pairEvent 1 ((becomeStandby c s).updPair fun p => { p with yield := false, ready := false })).bumpPair 5)

/-- A claim of the unit's own group is received (R433, R438); an entry to SAFE in the same core cycle leaves nothing of a
demotion (R485). -/
def offerClaim (c : Nat) (s : State) : State :=
  let s1 := s.updPair fun p => { p with seen := max p.seen (c / 256) }
  if isPaired s1 && s1.pair.claim < c then
    if s1.pair.role = 2 then (if safeDue s1 then s1 else demote c s1)
    else if s1.pair.role = 3 then (becomeStandby c s1).updPair fun p => { p with higherAt := some s.cycle }
    else s1
  else s1

/-- HANDOVER may be taken: ACTIVE, and READY of the partner seen within the last 32 us (R440). -/
def handoverAllowed (s : State) : Bool :=
  s.pair.role == 2 &&
  (match s.pair.readyAt with | some t => decide (s.cycle < t + usCycles 32) | none => false)

/-- YIELD in the heartbeats (R440). -/
def yieldPair (s : State) : State := s.updPair fun p => { p with yield := true }

/-! ## Egress policy -/

/-- A PAIR_PORT setting of a port (R457); host ports and service port 6 are NORMAL (R442). -/
def pairPort (s : State) (port sub : Nat) : Nat :=
  if isHostOrEngine port then (if sub = 3 then 1 else 0) else s.fieldN 0x7002 port sub
where
  /-- Host ports and service port 6. -/
  isHostOrEngine (p : Nat) : Bool := (256 ≤ p && p < 260) || 262 ≤ p

/-- The port transmits with a pair tag now (R441). -/
def tagsFrames (s : State) (port : Nat) : Bool := s.chip.mode == .run && pairPort s port 2 == 1

/-- The port is in shadow now (R442): ACTIVE_ONLY while STANDBY or CONFLICT. -/
def inShadow (s : State) (port : Nat) : Bool := pairPort s port 2 == 2 && 3 ≤ s.pair.role

/-! ## The claim filter -/

/-- best[g] and whether seen[g] lies within HOLD_WINDOW (R443). -/
def claimBest (s : State) (g : Nat) : Nat := (AMap.get (0, 0) s.pair.best g).1
def claimFresh (s : State) (g : Nat) : Bool :=
  match AMap.find s.pair.best g with
  | some (_, t) => decide (s.cycle - t ≤ usCycles (s.cfgN 0x7003 2))
  | none => false

/-- What the claim filter does with a frame at receipt (R443). -/
inductive ClaimVerdict where
  | untouched
  | discard
  | pass (group claim : Nat) (announce isFresh : Bool)
deriving DecidableEq, Repr, Inhabited

/-- The claim filter on a received frame (R443): its verdict and the state after counting and offering the claim. -/
def claimFilter (port : Nat) (b : Bytes) (s : State) : ClaimVerdict × State :=
  if beAt b 12 2 ≠ 0x88B5 ∨ beAt b 14 1 ≠ 2 ∨ b.length < 20 ∨ pairPort s port 3 ≠ 1 ∨ isHost port then (.untouched, s)
  else
    let flags := beAt b 15 1
    let g := flags / 16
    let c := beAt b 16 4
    if isPaired s ∧ g = pairGroup s then (.discard, (offerClaim c s).bumpPort port 0x92)
    else if c = 0 then (.discard, s.bumpPort port 0x91)
    else if claimFresh s g ∧ c < claimBest s g then (.discard, s.bumpPort port 0x90)
    else (.pass g c (bit flags 2) (claimFresh s g), s)
where
  /-- Host ports carry no claim filter. -/
  isHost (p : Nat) : Bool := 256 ≤ p && p < 260

/-- A passed claim at the received-and-checked instant (R443); `wasFresh` is what its receipt found. -/
def claimTaken (g c : Nat) (wasFresh : Bool) (s : State) : State :=
  if claimBest s g ≤ c ∨ !wasFresh then
    s.updPair fun p => { p with best := AMap.set p.best g (c, s.cycle) }
  else s

/-! ## The pair link -/

/-- STATION_ADDRESS (R65). -/
def stationAddress (s : State) : Nat := s.cfgN 0x0400 3

/-- A pair-link frame without its FCS (R435). -/
def pairFrame (s : State) (subtype copySeq frameSeq : Nat) (body : Bytes) : Bytes :=
  let p := s.pair
  let flags := b2n (p.role == 2) * 128 + b2n p.ready * 64 + b2n p.yield * 32 + b2n (feedsOk s) * 16 +
    b2n (preferredOf s) * 8
  let hdr := beBytes 1 subtype ++ beBytes 1 1 ++ beBytes 2 (24 + body.length) ++ beBytes 4 p.claim ++ beBytes 1 flags ++
    beBytes 1 (pairGroup s) ++ beBytes 1 (rankOf s) ++ beBytes 1 (modeCode s.chip.mode) ++ beBytes 4 copySeq ++
    beBytes 4 frameSeq ++ zeros 4
  let b := beBytes 6 0x0300504C0001 ++ beBytes 6 (stationAddress s) ++ beBytes 2 0x88B5 ++ hdr ++ body
  b ++ zeros (60 - b.length)

/-- The heartbeat body (R436). -/
def heartbeatBody (s : State) : Bytes :=
  let d := s.pair.digest.getD { cycle := 0, count := 0, sum := 0 }
  beBytes 4 s.mram.pairEpoch ++ beBytes 4 s.pair.applied ++ beBytes 4 d.cycle ++ beBytes 4 d.count ++ beBytes 8 d.sum

/-- Lanes that are up. -/
def lanesUp (s : State) : List Nat := [0, 1].filter fun l => s.pair.lanes.getD l false

/-- HEARTBEAT_TX (R436): every 10 us, on every lane that is up, from LOAD onwards. -/
def effHeartbeatTx (s : State) : State :=
  if pairPresent s && isAlive s.chip.mode && decide (s.pair.hbAt + usCycles 10 ≤ s.cycle) then
    let b := pairFrame s 3 0 s.pair.hbCount (heartbeatBody s)
    let s1 := (lanesUp s).foldl (fun s l => (s.emit (.pair l b)).bumpPair 1) s
    s1.updPair fun p => { p with hbAt := s.cycle, hbCount := (p.hbCount + 1) % 2 ^ 32 }
  else s

/-- PAIR_LANE_CHANGE (R434): a fall sets LANE_DOWN and records a fault. -/
def effPairLaneChange (lane : Nat) (up : Bool) (s : State) : State :=
  if pairPresent s && isAlive s.chip.mode && decide (lane < 2) && s.pair.lanes.getD lane false != up then
    let s1 := s.updPair fun p => { p with lanes := setAt p.lanes lane up }
    if up then s1 else detectFault 20 0 1 lane (pairEvent 7 s1)
  else s

/-- PAIR_LINK_FRAME_ERROR (R435): discarded and counted. -/
def effPairLinkFrameError (lane : Nat) (s : State) : State :=
  if pairPresent s && isAlive s.chip.mode && s.pair.lanes.getD lane false then s.bumpPair 3 else s

/-- A pair-link frame passes R434 and R435: at most 9,216 bytes with its FCS, VERSION and LENGTH. -/
def pairFrameOk (b : Bytes) : Bool := beAt b 15 1 == 1 && beAt b 16 2 + 14 ≤ b.length && decide (b.length + 4 ≤ 9216)

/-- A pair-link frame is accepted on a lane: the unit is present and alive, and the lane up (R434, R435). -/
def pairHears (s : State) (lane : Nat) : Bool := pairPresent s && isAlive s.chip.mode && s.pair.lanes.getD lane false

/-- What a lane brings (R434, R435): a frame of another EtherType, MAC control among them, is discarded, a pair-link frame that
fails its tests is also counted, and any other is taken. -/
def pairReceive (lane : Nat) (b : Bytes) (take : State → State) (s : State) : State :=
  if pairHears s lane && beAt b 12 2 == 0x88B5 then (if pairFrameOk b then take s else s.bumpPair 3) else s

/-- The partner as a valid heartbeat shows it. -/
def partnerOf (b : Bytes) : Partner :=
  { claim := beAt b 18 4, flags := beAt b 22 1, group := beAt b 23 1 % 16, rank := beAt b 24 1, state := beAt b 25 1,
    applied := beAt b 42 4, seq := beAt b 30 4 }

/-- The role's answer to a valid heartbeat (R432, R437, R438). -/
def heartbeatRole (p : Partner) (s : State) : State :=
  let s0 := if p.group = pairGroup s then offerClaim p.claim s else s
  if s0.pair.role = 0 ∨ s0.pair.role = 1 ∨ !isPaired s0 then s0
  else if partnerConflicts s0 p then (if s0.pair.role = 4 then s0 else becomeConflict p s0)
  else if s0.pair.role = 4 then takeRole s0
  else if s0.pair.role = 3 ∧ (p.state ≠ 6 ∨ (bit p.flags 5 ∧ s0.pair.ready)) then
    s0.updPair fun x => { x with taking := true }
  else s0

/-! ## Digest comparison -/

/-- Both units held ACTIVE and STANDBY, one role each, throughout the span (R453). -/
def rolesHeld (s : State) (p : Partner) : Bool :=
  (s.pair.role == 2 || s.pair.role == 3) && p.state == 6 && (bit p.flags 7 == (s.pair.role == 3)) &&
  decide (s.pair.roleAt < s.pair.spanFrom) && decide (s.pair.partnerAt < s.pair.spanFrom)

/-- A cutover, a takeover, a demotion or a late page fell in the span (R453). -/
def spanDisturbed (s : State) : Bool :=
  match s.pair.disturbed with
  | some t => decide (s.pair.spanFrom ≤ t)
  | none => false

/-- The comparison of R453, once for each cycle. -/
def compareDigest (p : Partner) (s : State) : State :=
  match s.pair.digest, s.pair.partnerDigest with
  | some a, some b =>
    if a.cycle = b.cycle ∧ s.pair.comparedLast ≠ some a.cycle then
      let s1 := s.updPair fun x => { x with comparedLast := some a.cycle }
      if spanDisturbed s then s1.bumpPair 0x0E
      else if !rolesHeld s p then s1
      else
        let s2 := s1.bumpPair 0x0C
        if a = b then s2
        else detectFault 20 0 3 (a.cycle % 65536) (pulse 246 (pairEvent 2 (s2.bumpPair 0x0D)))
    else s
  | _, _ => s

/-- A heartbeat is valid: SUBTYPE and LENGTH (R436). -/
def heartbeatValid (b : Bytes) : Bool := beAt b 14 1 == 3 && beAt b 16 2 == 48

/-- What a valid heartbeat leaves of its sender (R436, R440, R446, R453). -/
def notePartner (p : Partner) (d : Digest) (s : State) : State :=
  let turned := s.pair.partner.any fun o => bit o.flags 7 != bit p.flags 7
  let moved := turned || s.pair.partner.any fun o => o.state != p.state
  let s0 := if turned then disturbDigest s else s
  s0.updPair fun x =>
    { x with
      partner := some p, heardAt := some s.cycle, partnerDigest := some d,
      partnerAt := if moved then s.cycle else x.partnerAt,
      sendFull := x.sendFull || (p.state == 6 && !bit p.flags 7 && !bit p.flags 6),
      readyAt := if bit p.flags 6 then some s.cycle else x.readyAt }

/-- HEARTBEAT_RX (R435, R436): a frame that is no valid heartbeat does nothing more, and a heartbeat seen on the other lane counts
once. -/
def effHeartbeatRx (lane : Nat) (b : Bytes) (s : State) : State :=
  pairReceive lane b (fun s =>
    let p := partnerOf b
    if !heartbeatValid b || (partnerHeard s && (s.pair.partner.map (·.seq)) == some p.seq) then s
    else
      let d : Digest := { cycle := beAt b 46 4, count := beAt b 50 4, sum := beAt b 54 8 }
      compareDigest p (heartbeatRole p ((notePartner p d s).bumpPair 2))) s

/-- A claim read back: 0 after 32 us without a valid heartbeat (R455). -/
def partnerClaim (s : State) : Nat := if partnerHeard s then (s.pair.partner.map (·.claim)).getD 0 else 0

/-- READY of PAIR_STATUS: the partner's when ACTIVE (R459). -/
def readyShown (s : State) : Bool :=
  if s.pair.role = 2 then partnerHeard s && bit ((s.pair.partner.map (·.flags)).getD 0) 6 else s.pair.ready

/-- APPLIED_COPY as it reads (R455). -/
def appliedShown (s : State) : Nat :=
  if s.pair.role = 2 then (s.pair.partner.map (·.applied)).getD 0 else s.pair.applied

/-! ## The meanings -/

/-- HEARTBEAT_TX: answers the state after its effect. -/
def execHeartbeatTx (s : State) : Answer := .next (effHeartbeatTx s)

/-- PAIR_LANE_CHANGE: answers the state after its effect. -/
def execPairLaneChange (lane : Nat) (up : Bool) (s : State) : Answer := .next (effPairLaneChange lane up s)

/-- PAIR_LINK_FRAME_ERROR: answers the state after its effect. -/
def execPairLinkFrameError (lane : Nat) (s : State) : Answer := .next (effPairLinkFrameError lane s)

/-- HEARTBEAT_RX: answers the state after its effect. -/
def execHeartbeatRx (lane : Nat) (b : Bytes) (s : State) : Answer := .next (effHeartbeatRx lane b s)

end Sys2Proof.Machine
end

