-- ==== Sys2Proof/Machine/Ingress.lean ====
section
/-!
DEFINITION. A frame from the MAC to its egress queues: reception and reassembly (R110 to R118), steering and the
ingress decision (R25, R52, R132 to R149, R265), and the received-and-checked instant (R26).
-/
namespace Sys2Proof.Machine

/-! ## In flight -/

/-- Changes a frame in flight. -/
def State.putInflight (s : State) (id : Nat) (f : Inflight) : State :=
  { s with fabric := { s.fabric with inflight := AMap.set s.fabric.inflight id f } }

/-- A frame in flight is gone. -/
def State.dropInflight (s : State) (id : Nat) : State :=
  { s with fabric := { s.fabric with inflight := AMap.del s.fabric.inflight id } }

/-- A whole frame enters the classifier (R27 step 3): it takes the next frame number. -/
def enterFrame (f : Inflight) (s : State) : State :=
  let id := s.fabric.nextId
  { s with fabric := { s.fabric with nextId := id + 1, inflight := AMap.set s.fabric.inflight id f } }

/-- Bytes of a frame that have come by now: a frame still arriving brings a byte each byte time of its port after its parse
window (R25, R26; DEDUCED, log entry 15). -/
def arrived (s : State) (f : Inflight) : Nat :=
  match f.since with
  | none => f.bytes.length
  | some t => min f.bytes.length (128 + (nowPs s - t) / max 1 (byteTime s f.source))

/-- Stage 3 of R25 takes no time for a frame of n bytes, FCS included: its decision completes, and its writing begins, before
its FCS verdict. -/
def decidedFirst (s : State) (p n : Nat) : Bool := decide (128 < n ∧ 40 * portRate s p ≤ (n - 128) * 8)

/-! ## Reception -/

/-- S_TPID of a configuration (R141). -/
def tpidOf (s : State) (im : Image) : Nat := imgNum s.ident im 0x2000 2

/-- S_TPID of the running configuration. -/
def sTpid (s : State) : Nat := tpidOf s s.cfg.running

/-- MAX_FRAME of a port (R110). -/
def maxFrame (s : State) (p : Nat) : Nat :=
  if p < 256 then s.cfgN (0x1000 + p) 8 else imgNum s.ident (mgtImage s) (mgtObj p) 4

/-- PAUSE_MODE of a port (R112). -/
def pauseMode (s : State) (p : Nat) : Nat :=
  if p < 256 then s.cfgN (0x1000 + p) 9 else imgNum s.ident (mgtImage s) (mgtObj p) 5

/-- 512 bit times x quanta of a port in core cycles, rounded up (R112): one bit time is 1/rate ns. -/
def pauseCycles (s : State) (p quanta : Nat) : Nat :=
  let r := max 1 (portRate s p)
  (quanta * 512 * 8 + 5 * r - 1) / (5 * r)

/-- A PAUSE frame (R112): its time runs from the next core cycle on (R219). -/
def pauseFrame (p quanta : Nat) (s : State) : State :=
  let s1 := s.bumpPort p 0x07
  if pauseMode s p = 1 then
    s1.updPort p fun x =>
      { x with
        pauseWas := if x.pauseAt = s.cycle then x.pauseWas else x.pauseUntil,
        pauseAt := s.cycle, pauseUntil := s.cycle + 1 + pauseCycles s p quanta }
  else s1

/-- LOOPBACK of a port (R123); management ports have none. -/
def loopbackOf (s : State) (p : Nat) : Nat := if isLine p then s.rwN (0x1000 + p) 0x0C else 0

/-- A port whose PCS receives: alive, present, formed, enabled, link up (R105). -/
def pcsReceives (s : State) (p : Nat) : Bool :=
  isAlive s.chip.mode && (isMgt p || (isLine p && linePortPresent s.ident p)) && portOn s p && (s.port p).up

/-- A port whose MAC receives from the line: near-end loopback feeds it from its own transmitter, and in far-end loopback
nothing reaches it (R123). -/
def macReceives (s : State) (p : Nat) : Bool := pcsReceives s p && loopbackOf s p == 0

/-- The discard counter of R126 that a received frame meets first: none where the MAC accepts it. -/
def macDiscard (s : State) (p : Nat) (b : Bytes) (err : RxErr) : Option Nat :=
  match err with
  | .symbol => some 0x03
  | .fec => some 0x04
  | .fcs => some 0x04
  | .good =>
    if b.length + 4 < 64 then some 0x05
    else if maxFrame s p < b.length + 4 then some 0x06
    else none

/-- An accepted frame is counted (R126, R189, R284) and enters the classifier. -/
def passToClassifier (p : Nat) (f : Inflight) (s : State) : State :=
  let q := parse (sTpid s) f.bytes
  let s1 := (s.bumpPort p 0x01).bumpPortBy p 0x02 (f.bytes.length + 4)
  let s2 := if q.rtagAt.isSome then s1.bumpPort p 0x40 else s1
  let s3 := if q.ptpEvent && ptpFrame q f.bytes then s2.bumpPort p 0x70 else s2
  enterFrame f s3

/-- The codewords that ended with a reception are counted on a line port that runs a FEC (R126): those corrected, and those
not correctable, at least one where the frame holds one. -/
def noteFec (p : Nat) (err : RxErr) (corrected bad : Nat) (s : State) : State :=
  if p < 256 ∧ fecActive s p ≠ 0 then
    (s.bumpPortBy p 0x09 corrected).bumpPortBy p 0x0A (if err = .fec then max 1 bad else bad)
  else s

/-- A frame that the MAC discards after its decision has begun its writing holds its cells until it is received and checked
(R26, R194): it stays in flight as lost. Of a frame above MAX_FRAME the bytes up to it are stored (R110). -/
def loseFrame (p : Nat) (b : Bytes) (stamps steps : List Nat) (reassembled : Bool) (s : State) : State :=
  if decidedFirst s p (b.length + 4) && (claimFilter p b s).1 != .discard then
    enterFrame
      { bytes := b.take (maxFrame s p), source := p, stamps := stamps, steps := steps, reassembled := reassembled, lost := true,
        since := if reassembled then none else some (nowPs s) } s
  else s

/-- A frame received whole (R110, R112, R443): discarded and counted, consumed as MAC control, judged by its pair tag,
or passed on. -/
def receiveWhole (p : Nat) (b : Bytes) (err : RxErr) (stamps steps : List Nat) (reassembled : Bool) (s : State) :
    State :=
  match macDiscard s p b err with
  | some sub => loseFrame p b stamps steps reassembled (s.bumpPort p sub)
  | none =>
    if beAt b 12 2 = 0x8808 then
      if beAt b 14 2 = 1 then pauseFrame p (beAt b 16 2) s else s.bumpPort p 0x08
    else
      let f : Inflight :=
        { bytes := b, source := p, stamps := stamps, steps := steps, reassembled := reassembled,
          since := if reassembled || decide (b.length ≤ 128) then none else some (nowPs s) }
      match claimFilter p b s with
      | (.discard, s1) => s1
      | (.untouched, s1) => passToClassifier p f s1
      | (.pass g c a n, s1) => passToClassifier p { f with claim := some (g, c, a, n) } s1

/-! ## Reassembly -/

/-- The frame under assembly of a port is discarded and MM_ASSEMBLY_ERRORS counts (R118). -/
def assemblyError (p : Nat) (s : State) : State := (s.updPort p fun x => { x with asm := none }).bumpPort p 0x18

/-- A fragment arrived with a bad mCRC or FCS, or a PCS error (R118, R126): the frame, `b` so far, is discarded. -/
def fragmentError (p : Nat) (err : RxErr) (b : Bytes) (stamps steps : List Nat) (s : State) : State :=
  loseFrame p b stamps steps true
    ((s.updPort p fun x => { x with asm := none }).bumpPort p (if err = .symbol then 0x03 else 0x04))

/-- The fragments of a frame are complete: MM_ASSEMBLY_OK, and an ordinary received frame under R110. -/
def assembled (p : Nat) (a : Asm) (s : State) : State :=
  receiveWhole p a.bytes .good a.stamps a.steps true ((s.updPort p fun x => { x with asm := none }).bumpPort p 0x1A)

/-- A start fragment (R118). -/
def startFragment (p n : Nat) (last : Bool) (b : Bytes) (err : RxErr) (quarter : Nat) (s : State) : State :=
  let s1 := if (s.port p).asm.isSome then assemblyError p s else s
  if err ≠ .good then fragmentError p err b (stampsNow s quarter) (stepsNow s) s1
  else
    let a : Asm := { count := n % 4, next := 0, bytes := b, stamps := stampsNow s quarter, steps := stepsNow s }
    if last then assembled p a s1 else s1.updPort p fun x => { x with asm := some a }

/-- A continuation fragment (R118). -/
def moreFragment (p n k : Nat) (last : Bool) (b : Bytes) (err : RxErr) (s : State) : State :=
  let s1 := s.bumpPort p 0x1B
  match (s.port p).asm with
  | none => assemblyError p s1
  | some a =>
    if a.count ≠ n % 4 ∨ a.next ≠ k % 4 then assemblyError p s1
    else if err ≠ .good then fragmentError p err (a.bytes ++ b) a.stamps a.steps s1
    else
      let a1 := { a with next := (a.next + 1) % 4, bytes := a.bytes ++ b }
      if last then assembled p a1 s1 else s1.updPort p fun x => { x with asm := some a1 }

/-- A delimiter that the port does not accept (R118, R122); MGT0 and MGT1 keep no such counter (R126). -/
def smdError (p : Nat) (s : State) : State := if p < 256 then s.bumpPort p 0x19 else s

/-- A fragment where pre-emption is not enabled: the frame it belongs to is discarded (R118). -/
def fragmentRefused (p : Nat) (s : State) : State := smdError p (s.updPort p fun x => { x with asm := none })

/-- An mPacket reaches the MAC of a port (R114, R118): `b` holds the bytes before the FCS or mCRC; `quarter` is the phase of
the timestamp point in the tick. -/
def macTakes (p : Nat) (smd : Smd) (b : Bytes) (err : RxErr) (quarter : Nat) (s : State) : State :=
  match smd with
  | .express => receiveWhole p b err (stampsNow s quarter) (stepsNow s) false s
  | .unknown => smdError p s
  | .first n last => if preemptCfg s p 1 = 1 then startFragment p n last b err quarter s else fragmentRefused p s
  | .more n k last => if preemptCfg s p 1 = 1 then moreFragment p n k last b err s else fragmentRefused p s

/-- FRAME_RECEIVED (R27 steps 1 and 2): an mPacket arrives at a port, with the codewords corrected and not correctable
that ended with it; in far-end loopback it is sent back (R123). -/
def effFrameReceived (p : Nat) (smd : Smd) (b : Bytes) (err : RxErr) (quarter corrected bad : Nat) (s : State) : State :=
  if pcsReceives s p then
    let s1 := noteFec p err corrected bad s
    match loopbackOf s p with
    | 0 => macTakes p smd b err quarter s1
    | 2 => s1.emit (.retransmit p smd b err)
    | _ => s1
  else s

/-- PAUSE_RECEIVED (R112): a PAUSE frame with a good FCS at a port. -/
def effPauseReceived (p quanta : Nat) (s : State) : State :=
  if macReceives s p then pauseFrame p (quanta % 65536) s else s

/-- PAUSE_EXPIRY (R112): the pause time has run out. -/
def effPauseExpiry (p : Nat) (s : State) : State :=
  if (s.port p).pauseUntil ≤ s.cycle then s.updPort p fun x => { x with pauseUntil := 0 } else s

/-! ## Steering -/

/-- The settings that steering uses: the defaults in LOAD and CHECK (R67, R68). -/
def steerImage (s : State) : Image := mgtImage s

/-- NAP is enabled on a port (R52, R65). -/
def napOn (s : State) (p : Nat) : Bool :=
  let paths := imgNum s.ident (steerImage s) 0x0400 1
  if p = 260 then bit paths 0
  else if p = 261 then bit paths 1
  else p < 256 && bit paths 2 && bitSet (imgVal s.ident (steerImage s) 0x0400 2).b p

/-- R52 steers the frame to service port 6. -/
def napSteered (s : State) (p : Nat) (q : Parsed) : Bool :=
  q.da == imgNum s.ident (steerImage s) 0x0400 3 && q.ether == some 0x88B5 && q.subtype == some 1 &&
  !q.inner && q.rtagAt.isNone && napOn s p

/-- R265 traps the frame. -/
def ptpTrapped (s : State) (im : Image) (p : Nat) (q : Parsed) (b : Bytes) : Bool :=
  (isLine p || isMgt p) && ptpFrame q b && ptpPort s im p 9 == 1

/-- A frame of the management class (R128). -/
def mgmtClass (s : State) (p : Nat) (q : Parsed) : Bool :=
  napSteered s p q || q.ptpAt.isSome || q.ether == some 0x88B6

/-- The device state admits a frame of a port (R68). -/
def stateAdmits (s : State) (p : Nat) (q : Parsed) : Bool :=
  match s.chip.mode with
  | .run => true
  | .armed => mgmtClass s p q
  | _ => isMgt p && napSteered s p q

/-! ## VLAN and streams -/

/-- PORT_STATE of a port (R131): 0 FORWARDING, 1 LEARNING, 2 BLOCKED. -/
def portStateOf (s : State) (p : Nat) : Nat := AMap.get 0 s.psfp.portState p

/-- A PORT_CLASSIFY field of a source port (R129). -/
def classify (s : State) (im : Image) (p sub : Nat) : Nat := imgFieldN s.ident im 0x2001 p sub

/-- The outer tag carries a VID other than 0. -/
def vlanTagged (q : Parsed) : Bool := q.tagAt.isSome && q.vid != 0

/-- The effective VID (R132). For the outer VID 4,095, which R132 gives none, a frame that is steered or trapped keeps 4,095
(DESIGN CHOICE, log entry 72). -/
def effectiveVid (s : State) (im : Image) (p : Nat) (q : Parsed) : Nat :=
  if vlanTagged q then q.vid else classify s im p 2

/-- The priority (R132). -/
def framePriority (s : State) (im : Image) (p : Nat) (q : Parsed) : Nat :=
  if q.tagAt.isSome then q.pcp else classify s im p 3

/-- A port set of a VLAN row, empty for a VID without a row (R133). -/
def vlanPorts (s : State) (im : Image) (vid sub : Nat) : Bytes :=
  if (imgRow im 0x2003 vid).isSome then (imgField s.ident im 0x2003 vid sub).b else []

/-- The VLAN discard of R132: its counter. -/
def vlanDiscard (s : State) (im : Image) (p : Nat) (q : Parsed) : Option Nat :=
  let accept := classify s im p 4
  if q.tagAt.isSome ∧ q.vid = 4095 then some 0x30
  else if (accept = 1 ∧ !vlanTagged q) ∨ (accept = 2 ∧ vlanTagged q) then some 0x30
  else if classify s im p 5 = 1 ∧ !bitSet (vlanPorts s im (effectiveVid s im p q) 2) p then some 0x31
  else none

/-- What a stream-identification entry yields (R144). -/
structure StreamHit where
  handle : Nat
  tc : Nat
  kind : Nat
  dest : Nat
deriving DecidableEq, Repr, Inhabited

/-- The identification key of a type (R143); type 3 only with an IP header. -/
def streamKey (vid type : Nat) (q : Parsed) : Option Bytes :=
  let ip := fun (b : Bytes) => zeros (16 - b.length) ++ b
  let base := fun (mac : Nat) => beBytes 1 type ++ [0] ++ beBytes 2 vid ++ beBytes 6 mac
  match type with
  | 1 => some (base q.da ++ zeros 42)
  | 2 => some (base q.sa ++ zeros 42)
  | _ =>
    if q.ipVer = 0 then none
    else some (base q.da ++ beBytes 1 q.ipVer ++ beBytes 1 q.dscp ++ beBytes 1 q.proto ++ [0] ++ beBytes 2 q.sport ++
      beBytes 2 q.dport ++ [0, 0] ++ ip q.ipSrc ++ ip q.ipDst)

/-- A port set admits a source port; all zero admits every port (R144). -/
def portsAdmit (b : Bytes) (p : Nat) : Bool := b.all (· == 0) || bitSet b p

/-- Masked equality of two keys; TYPE always compares (R144). -/
def maskedEq : Bytes → Bytes → Bytes → Bool
  | m :: ms, a :: x, b :: y => (a &&& m) == (b &&& m) && maskedEq ms x y
  | _, _, _ => true

/-- A TCAM row matches (R145). -/
def tcamMatches (p vid : Nat) (q : Parsed) (r : Row) : Bool :=
  let value := (r.getD 0 (.oct [])).b
  let mask := (r.getD 1 (.oct [])).b
  match streamKey vid (value.getD 0 0).toNat q with
  | some key =>
    maskedEq (0xFF :: mask.drop 1) value key && portsAdmit (r.getD 4 (.oct [])).b p &&
    (match (r.getD 2 (.num 0)).n with | 1 => vlanTagged q | 2 => !vlanTagged q | _ => true)
  | none => false

/-- A row's result, its fields from a position on: PORTS follows STREAM_HANDLE. -/
def hitOf (r : Row) (at_ : Nat) : StreamHit :=
  let n := fun k => (r.getD (at_ + k) (.num 0)).n
  { handle := n 0, tc := n 2, kind := n 3, dest := n 4 }

/-- A hash hit on the key of a type (R145). -/
def hashHit (im : Image) (p vid type : Nat) (q : Parsed) : Option StreamHit :=
  match streamKey vid type q with
  | some key =>
    match imgRow im 0x2006 (beNat key) with
    | some r => if portsAdmit (r.getD 1 (.oct [])).b p then some (hitOf r 0) else none
    | none => none
  | none => none

/-- The frame's stream (R145). -/
def identify (im : Image) (p vid : Nat) (q : Parsed) : Option StreamHit :=
  match (imgTable im 0x2007).find? fun e => tcamMatches p vid q e.2 with
  | some e => some (hitOf e.2 3)
  | none =>
    ((hashHit im p vid 3 q).orElse fun _ => hashHit im p vid 1 q).orElse fun _ => hashHit im p vid 2 q

/-! ## The egress -/

/-- What the forwarding decision found (R135): egress kind and number (0 line, 1 service, 2 group), or a discard; whether
R137 exempts the frame, the stream, and whether R135 learns. -/
structure Route where
  egress : Option (Nat × Nat) := none
  exempt : Bool := false
  stream : Option StreamHit := none
  learn : Bool := false
deriving DecidableEq, Repr, Inhabited

/-- EGRESS_KIND and EGRESS_ID of a port number (R18). -/
def toPort (p : Nat) : Nat × Nat := if p < 256 then (0, p) else (1, p - 256)

/-- A destination kind of R138 and R144 (port or group) as an egress. -/
def toDest (kind dest : Nat) : Nat × Nat := if kind = 1 then (2, dest) else toPort dest

/-- The split egress of the frame's generation function (R168). -/
def splitEgress (s : State) (im : Image) (st : Option StreamHit) : Option (Nat × Nat) :=
  match st with
  | some h =>
    match genOf im h.handle with
    | some k =>
      match genField s im k 3 with
      | 1 => some (toPort (genField s im k 4))
      | 2 => some (2, genField s im k 4)
      | _ => none
    | none => none
  | none => none

/-- The egress by FDB and flooding (R135). A VID without a row takes the column defaults (DESIGN CHOICE, log entry 73). -/
def fdbEgress (im : Image) (p vid : Nat) (q : Parsed) (s : State) : Option (Nat × Nat) × State :=
  match fdbLookup s im (imgFieldN s.ident im 0x2003 vid 4) q.da with
  | some (2, _) => (none, s.bumpPort p 0x36)
  | some (k, d) => (some (toDest k d), s)
  | none =>
    if imgFieldN s.ident im 0x2003 vid 6 = 1 then (some (2, vid), s.bumpPort p 0x35) else (none, s.bumpPort p 0x36)

/-- The egress of a frame that PORT_STATE lets through (R135, R168), by its stream. -/
def streamRoute (im : Image) (p vid : Nat) (q : Parsed) (st : Option StreamHit) (s : State) : Option (Nat × Nat) × State :=
  match splitEgress s im st with
  | some e => (some e, s)
  | none =>
    match st with
    | some h => if h.kind = 0 then fdbEgress im p vid q s else (some (toDest (h.kind - 1) h.dest), s)
    | none => fdbEgress im p vid q s

/-- The forwarding decision (R135) of a frame whose stream is known. -/
def chooseRoute (im : Image) (p : Nat) (q : Parsed) (b : Bytes) (st : Option StreamHit) (s : State) : Route × State :=
  if napSteered s p q then ({ egress := some (1, 6), exempt := true, stream := st }, s)
  else if ptpTrapped s im p q b then
    ({ egress := some (1, ptpPort s im p 10), exempt := true, stream := st }, s.bumpPort p 0x75)
  else if q.da / 16 = 0x0180C200000 then
    if classify s im p 12 = 1 then
      ({ egress := some (1, classify s im p 13), exempt := true, stream := st }, s.bumpPort p 0x33)
    else ({ stream := st }, s.bumpPort p 0x34)
  else if portStateOf s p = 2 then ({ stream := st }, s.bumpPort p 0x32)
  else
    match vlanDiscard s im p q with
    | some sub => ({ stream := st }, s.bumpPort p sub)
    | none =>
      if portStateOf s p = 1 then ({ stream := st, learn := true }, s.bumpPort p 0x32)
      else
        let (e, s1) := streamRoute im p (effectiveVid s im p q) q st s
        ({ egress := e, stream := st, learn := true }, s1)

/-- Step 3 of R27: every frame has its keys and its stream (R143, R145), then its egress. -/
def forward (im : Image) (p : Nat) (q : Parsed) (b : Bytes) (s : State) : Route × State :=
  let st := identify im p (effectiveVid s im p q) q
  chooseRoute im p q b st (if st.isSome then s.bumpPort p 0x3A else s)

/-! ## Class, colour, filters -/

/-- The traffic class of R146 before a stream gate's IPV. -/
def trafficClass (s : State) (im : Image) (p : Nat) (q : Parsed) (st : Option StreamHit) : Nat :=
  let trust := classify s im p 6
  let t0 := classify s im p 7
  let t1 := if 1 ≤ trust ∧ q.tagAt.isSome then field (classify s im p 8) (4 * q.pcp) 3 else t0
  let t2 := if trust = 2 ∧ q.ipVer ≠ 0 then imgFieldN s.ident im 0x2002 q.dscp 2 else t1
  match st with
  | some h => if h.tc = 0xFF then t2 else h.tc
  | none => t2

/-- The initial colour of R146. -/
def initialColour (s : State) (im : Image) (p : Nat) (q : Parsed) : Nat :=
  match classify s im p 9 with
  | 1 => b2n (q.tagAt.isSome && q.dei)
  | 2 => if q.ipVer ≠ 0 then imgFieldN s.ident im 0x2002 q.dscp 3 else b2n (q.tagAt.isSome && q.dei)
  | _ => 0

/-- The stream gate of a filter, when it names one. -/
def filterGate (s : State) (im : Image) (k : Nat) : Option Nat :=
  let g := filterField s im k 4
  if g = 0xFFFF then none else some g

/-- Checks 1 and 2 of R149 on a matched frame: the gate interval in force and its IPV, or a discard. -/
def earlyChecks (im : Image) (k source : Nat) (s : State) : Option (Option (Nat × GateNow)) × State :=
  if filterBlocked s k then (none, filterDrop k 6 source s)
  else
    match filterGate s im k with
    | none => (some none, s)
    | some g =>
      let now := evalGate s im g
      if now.open_ then (some (some (g, now)), s)
      else (none, filterDrop k 4 source (latchGate im g 7 1 s))

/-- The members that R137 leaves of an egress. -/
def membersOf (s : State) (im : Image) (source vid : Nat) (r : Route) : List Nat :=
  let cand := match r.egress with
    | some (2, g) => bitMembers (if g < 4096 then vlanPorts s im g 2 else (imgField s.ident im 0x2005 g 2).b) 263
    | some (1, n) => [256 + n]
    | some (_, n) => [n]
    | none => []
  let own := cand.filter fun m => m != source
  if r.exempt then own
  else own.filter fun m => bitSet (vlanPorts s im vid 2) m && portStateOf s m == 0

/-- The port and subindex that count a frame whose egress R137 has emptied: after the checks of R149 (R158). -/
def noMembers (source : Nat) (r : Route) : Option (Nat × Nat) :=
  match r.egress with
  | some (2, _) => some (source, 0x3D)
  | some (1, n) => some (256 + n, 0x3C)
  | some (_, n) => some (n, 0x3C)
  | none => none

/-- RX_DELAY of a source port, inert for host ports and the engine (R259, R261). -/
def rxDelay (s : State) (im : Image) (p : Nat) : Int :=
  if isHost p || p == 262 then 0 else toSigned 32 (ptpPort s im p 3)

/-- The carriage header of a decided frame (R18, R128, R164, R260). -/
def buildHeader (s : State) (im : Image) (f : Inflight) (q : Parsed) (r : Route) (tc colour : Nat) : Carriage :=
  let d := stampDomain s im f.source q f.bytes
  let stamp := stampShift (f.stamps.getD d 0) (-(rxDelay s im f.source))
  { check := crc32c f.bytes, stampNs := stampNs stamp % 2 ^ 40, stampFrac := stampQ stamp, stampDomain := d,
    tc := tc, colour := colour, kind := (r.egress.getD (0, 0)).1, egress := (r.egress.getD (0, 0)).2,
    handle := (r.stream.map (·.handle)).getD 0, seq := q.rtagSeq, epoch := s.cfg.epoch % 256,
    length := f.bytes.length + 4, source := f.source, ptpOffset := q.ptpAt.getD 0, streamValid := r.stream.isSome,
    seqValid := q.rtagAt.isSome, ptpEvent := q.ptpEvent, ipv6Udp := q.ptpAt.isSome && q.udpAt.isSome && q.ipVer == 6,
    ect := q.ipVer != 0 && q.ecn != 0, rtagIn := q.rtagAt.isSome, pairTagIn := f.claim.isSome,
    mgmt := mgmtClass s f.source q }

/-- The (FID, SA) of a frame, which learning and HIT use (R138); a frame with the outer VID 4,095 has none. -/
def sourceKey (s : State) (im : Image) (p : Nat) (q : Parsed) : Option Nat :=
  let vid := effectiveVid s im p q
  if vid = 4095 then none else some (fdbKey (imgFieldN s.ident im 0x2003 vid 4) q.sa)

/-- R139: the SA is unicast, and LEARN is set for the port and for the VID. -/
def learns (s : State) (im : Image) (p : Nat) (q : Parsed) : Bool :=
  !bit q.sa 40 && classify s im p 10 == 1 && imgFieldN s.ident im 0x2003 (effectiveVid s im p q) 5 == 1

/-- What the received-and-checked instant will need (R138, R139, R149). -/
def lateOf (s : State) (im : Image) (p : Nat) (q : Parsed) (r : Route) (flt : Option Nat)
    (gate : Option (Nat × GateNow)) : Late :=
  { filter := flt, gate := gate.map fun g => (g.1, g.2.start, g.2.octMax),
    src := sourceKey s im p q, learn := r.learn && learns s im p q }

/-- The rest of the decision of a frame with an egress: filter checks, class, members, admission (R146 to R149, R137,
R196). -/
def decideEgress (im : Image) (id : Nat) (f : Inflight) (q : Parsed) (r : Route) (s : State) : State :=
  let flt := matchFilter im (r.stream.map (·.handle)) (framePriority s im f.source q)
  let (gate, s1) := match flt with
    | some k => earlyChecks im k f.source s
    | none => (some none, s)
  match gate with
  | none =>
    s1.putInflight id { f with
      decided := true, discarded := true, hdr := buildHeader s1 im f q r 0 0, late := lateOf s1 im f.source q r none none }
  | some g =>
    let tc := match g with
      | some (_, now) => if now.ipv = 0xFF then trafficClass s1 im f.source q r.stream else now.ipv
      | none => trafficClass s1 im f.source q r.stream
    let h := buildHeader s1 im f q r tc (initialColour s1 im f.source q)
    let late := lateOf s1 im f.source q r flt g
    let members := membersOf s1 im f.source (effectiveVid s1 im f.source q) r
    let f1 := { f with decided := true, hdr := h, late := late }
    if members.isEmpty then s1.putInflight id { f1 with late := { late with emptied := noMembers f.source r } }
    else
      let (placed, s2) := admitFrame im id h (24 + arrived s f) members s1
      s2.putInflight id { f1 with placed := placed }

/-- The ingress decision of a frame (R25, R68, R135). -/
def decideFrame (id : Nat) (f : Inflight) (s : State) : State :=
  let im := s.cfg.running
  let q := parse (sTpid s) f.bytes
  if !stateAdmits s f.source q then
    (s.bumpPort f.source 0x0C).putInflight id { f with
      decided := true, discarded := true, hdr := buildHeader s im f q {} 0 0 }
  else
    let (r, s1) := forward im f.source q f.bytes s
    if r.egress.isNone then
      s1.putInflight id { f with
        decided := true, discarded := true, hdr := buildHeader s1 im f q r 0 0, late := lateOf s1 im f.source q r none none }
    else decideEgress im id f q r s1

/-- The decision of a frame that the MAC has discarded: it only takes cells (R194). -/
def decideLost (id : Nat) (f : Inflight) (s : State) : State :=
  let s1 := decideFrame id f s
  let g := (AMap.find s1.fabric.inflight id).getD f
  if g.placed.isEmpty then s.dropInflight id
  else
    let s2 : State := { s with fabric := { s.fabric with xps := s1.fabric.xps, lfsr := s1.fabric.lfsr } }
    s2.putInflight id g

/-- INGRESS_DECISION of a frame in flight. -/
def effIngressDecision (id : Nat) (s : State) : State :=
  match AMap.find s.fabric.inflight id with
  | some f => if f.decided then s else if f.lost then decideLost id f s else decideFrame id f s
  | none => s

/-- A frame being written takes the cells of the bytes that have come (R197). -/
def growFrame (s : State) (e : Nat × Inflight) : State :=
  let f := e.2
  if f.placed.isEmpty then s
  else
    let (placed, s1) := growPlaces (s.epochImage f.hdr.epoch) f.hdr.tc (24 + arrived s f) f.placed s
    s1.putInflight e.1 { f with placed := placed }

/-- A core cycle of every frame being written. -/
def growFrames (s : State) : State := (s.fabric.inflight.filter fun e => e.2.since.isSome).foldl growFrame s

/-! ## Received and checked -/

/-- Check 4 of R149 and the count of a frame in its gate interval: whether it passes. -/
def octetCheck (im : Image) (gate : Option (Nat × Nat × Nat)) (len : Nat) (s : State) : Bool × State :=
  match gate with
  | some (g, start, max) =>
    if max ≠ 0 ∧ max < gateOctets s g start + len then (false, latchGate im g 8 2 s)
    else (true, addOctets g start len s)
  | none => (true, s)

/-- Check 5 of R149: the colour after the meter, none where it discards. -/
def meterCheck (im : Image) (k len colour : Nat) (s : State) : Option Nat × State :=
  let m := filterField s im k 6
  if m = 0xFFFFFFFF then (some colour, s)
  else
    let (c, drop, s1) := meterFrame im m len colour s
    (if drop then none else some c, s1)

/-- BLOCKED of a filter is set (R149). -/
def blockFilter (im : Image) (k : Nat) (s : State) : State :=
  if filterField s im k 7 = 1 then { s with psfp := { s.psfp with blocked := AMap.set s.psfp.blocked k true } } else s

/-- Checks 3 to 5 of R149: the colour, none where the frame is discarded. -/
def lateChecks (im : Image) (h : Carriage) (l : Late) (s : State) : Option Nat × State :=
  match l.filter with
  | none => (some h.colour, s)
  | some k =>
    let sdu := filterField s im k 5
    if sdu ≠ 0 ∧ sdu < h.length then (none, filterDrop k 6 h.source (blockFilter im k s))
    else
      match octetCheck im l.gate h.length s with
      | (false, s1) => (none, filterDrop k 4 h.source s1)
      | (true, s1) =>
        match meterCheck im k h.length h.colour s1 with
        | (none, s2) => (none, filterDrop k 7 h.source s2)
        | (some c, s2) => (some c, countFilter k [2, 3, 5] s2)

/-- The RX_EVENT record of a PTP event frame (R275). -/
def rxRecord (im : Image) (f : Inflight) (s : State) : State :=
  let q := parse (sTpid s) f.bytes
  let h := f.hdr
  if f.source < 262 && q.ptpEvent && ptpFrame q f.bytes && ptpPort s im f.source 5 == 1 then
    let o := q.ptpAt.getD 0
    let stamp := stampShift (f.stamps.getD h.stampDomain 0) (-(rxDelay s im f.source))
    writeRecord 0 (sliceOf f.source) 1 f.source
      (tineRecord (stampNs stamp) (stampQ stamp) h.stampDomain 1 f.source (4 * b2n f.reassembled) q.ptpType
        (byteAt f.bytes o / 16) (byteAt f.bytes (o + 4)) (beAt f.bytes (o + 30) 2)) s
  else s

/-- Learning and HIT at the received-and-checked instant (R138, R139). -/
def checkedLearn (f : Inflight) (s : State) : State :=
  match f.late.src with
  | some key =>
    let s1 := fdbHit key s
    if f.late.learn then requestLearn { key := key, port := f.source, at_ := s.cycle } s1 else s1
  | none => s

/-- A frame is abandoned in every crosspoint it was written to (R26, R194). -/
def abandonFrame (f : Inflight) (s : State) : State := f.placed.foldl abandonPlace s

/-- The claim of a passed pair tag, and whether it was an announcement (R443). -/
def checkedClaim (f : Inflight) (s : State) : Bool × State :=
  match f.claim with
  | some (g, c, a, n) =>
    let s1 := claimTaken g c n s
    (a, if a then s1.bumpPort f.source 0x93 else s1)
  | none => (false, s)

/-- A frame that has passed every check: numbered (R167), and linked where its whole length was written, else lost, counted
where R137 left it no port (R158). -/
def linkChecked (id : Nat) (f : Inflight) (colour : Nat) (s : State) : State :=
  let (h, s1) := numberFrame { f.hdr with colour := colour } s
  match f.late.emptied with
  | some (p, sub) => s1.bumpPort p sub
  | none =>
    let (placed, s2) := growPlaces (s.epochImage h.epoch) h.tc (24 + f.bytes.length) f.placed s1
    if placed.isEmpty then s2
    else linkFrame id
      { bytes := f.bytes, hdr := h, steps := f.steps, checkedAt := s.cycle, hostTag := f.hostTag, placed := placed } s2

/-- The received-and-checked instant of a decided frame (R25, R26). -/
def checkFrame (id : Nat) (f : Inflight) (s : State) : State :=
  let im := s.epochImage f.hdr.epoch
  let s0 := s.dropInflight id
  let (announce, s1) := checkedClaim f (checkedLearn f (rxRecord im f s0))
  if f.discarded then s1
  else if announce then abandonFrame f s1
  else
    match lateChecks im f.hdr f.late s1 with
    | (none, s2) => abandonFrame f s2
    | (some c, s2) => linkChecked id f c s2

/-- RECEIVED_AND_CHECKED of a frame in flight: the cells of one that the MAC has discarded return (R194). -/
def effReceivedAndChecked (id : Nat) (s : State) : State :=
  match AMap.find s.fabric.inflight id with
  | some f =>
    if f.lost then abandonFrame f (s.dropInflight id) else if f.decided then checkFrame id f s else s
  | none => s

/-! ## Frames of service port 6 -/

/-- A frame that service port 6 issues for one egress port and class (R52, R442): stamped, admitted and linked at
once (DESIGN CHOICE, log entry 16). -/
def issueFrame (port tc : Nat) (announce : Bool) (b : Bytes) (s : State) : State :=
  let f : Inflight := { bytes := b, source := 262, stamps := stampsNow s 0, steps := stepsNow s }
  let q := parse (sTpid s) b
  let r : Route := { egress := some (toPort port), exempt := true }
  let h := buildHeader s s.cfg.running f q r tc 0
  let id := s.fabric.nextId
  let s1 := { s with fabric := { s.fabric with nextId := id + 1 } }
  let (placed, s2) := admitFrame s.cfg.running id h (24 + b.length) [port] s1
  if placed.isEmpty then s2
  else linkFrame id
    { bytes := b, hdr := h, steps := stepsNow s, checkedAt := s.cycle, announce := announce, placed := placed } s2

/-! ## The meanings -/

/-- FRAME_RECEIVED: answers the state after its effect. -/
def execFrameReceived (p : Nat) (smd : Smd) (b : Bytes) (err : RxErr) (quarter : Nat) (s : State) (corrected : Nat := 0) (bad : Nat := 0) : Answer :=
  .next (effFrameReceived p smd b err quarter corrected bad s)

/-- PAUSE_RECEIVED: answers the state after its effect. -/
def execPauseReceived (p : Nat) (quanta : Nat) (s : State) : Answer := .next (effPauseReceived p quanta s)

/-- PAUSE_EXPIRY: answers the state after its effect. -/
def execPauseExpiry (p : Nat) (s : State) : Answer := .next (effPauseExpiry p s)

/-- INGRESS_DECISION: answers the state after its effect. -/
def execIngressDecision (id : Nat) (s : State) : Answer := .next (effIngressDecision id s)

/-- RECEIVED_AND_CHECKED: answers the state after its effect. -/
def execReceivedAndChecked (id : Nat) (s : State) : Answer := .next (effReceivedAndChecked id s)

end Sys2Proof.Machine
end

