-- ==== Sys2Proof/Machine/Edit.lean ====
section
/-!
DEFINITION. The form in which a stored frame leaves a port (R19): VLAN edit (R134), R-TAG edit and padding (R165, R166),
pair tag (R441), ECN marking (R202); and its lengths (R218, R220).
-/
namespace Sys2Proof.Machine

/-- A frame as it leaves a port, without FCS and before the PTP edit: whether it carries an R-TAG and a pair tag, and
whether R166 or R441 discards it; `plain` is its transmitted length without a pair tag, FCS included, and
`shift` the bytes that the edits added before the transport headers (R271). -/
structure Form where
  bytes : Bytes := []
  rtag : Bool := false
  pairTag : Bool := false
  rtagOver : Bool := false
  pairOver : Bool := false
  plain : Nat := 0
  shift : Int := 0
deriving DecidableEq, Repr, Inhabited

/-- The transmitted length, FCS included (R218). -/
def Form.length (x : Form) : Nat := x.bytes.length + 4

/-- The VLAN tag edit of a port (R134): none for frames of service port 6 nor toward it. -/
def vlanForm (s : State) (port : Nat) (f : Stored) (q : Parsed) : Bytes × Nat :=
  let im := s.epochImage f.hdr.epoch
  let src := f.hdr.source
  if src = 262 ∨ port = 262 then (f.bytes, afterVlan q q.tagAt.isNone)
  else
    let vid := effectiveVid s im src q
    let untagged := bitSet (vlanPorts s im vid 3) port
    let tci := framePriority s im src q * 8192 + b2n (q.tagAt.isSome && q.dei) * 4096 + vid
    (vlanEdit q untagged tci f.bytes, afterVlan q untagged)

/-- The MAC pads a frame whose R-TAG was removed with zero bytes to 64 bytes, FCS included (R166). -/
def padRemoved (removed : Bool) (b : Bytes) : Bytes := if removed && b.length < 60 then padTo 60 b else b

/-- The pair tag a port inserts now (R441). -/
def pairTagOf (s : State) (port : Nat) (announce : Bool) : Option Bytes :=
  if tagsFrames s port then
    some (pairTagBytes (pairGroup s) (s.pair.role == 1 || s.pair.role == 2) announce s.pair.claim)
  else none

/-- S_TPID of a stored frame's epoch (R20). -/
def storedTpid (s : State) (f : Stored) : Nat := tpidOf s (s.epochImage f.hdr.epoch)

/-- The parse of a stored frame under its epoch (R20, R127). -/
def storedParse (s : State) (f : Stored) : Parsed := parse (storedTpid s f) f.bytes

/-- The form of a stored frame at a port. -/
def egressForm (s : State) (port : Nat) (f : Stored) (markCe : Bool) : Form :=
  let q := storedParse s f
  let b0 := if markCe then ecnEdit q f.bytes else f.bytes
  let (b1, off) := vlanForm s port { f with bytes := b0 } q
  let out := if port = 262 then none else rtagOut s port f.hdr
  let b2 := match out with
    | some o => rtagEdit q off o f.hdr.seq b1
    | none => b1
  let hasR := match out with | some o => o | none => q.rtagAt.isSome
  let tag := pairTagOf s port f.announce
  let removed := q.rtagAt.isSome && out == some false
  let b3 := pairEdit q tag b2
  { bytes := padRemoved removed b3, shift := (b3.length : Int) - f.bytes.length, rtag := hasR, pairTag := tag.isSome,
    rtagOver := q.rtagAt.isNone && out == some true && decide (16000 < (pairEdit q none b2).length + 4),
    pairOver := tag.isSome && decide (16000 < b3.length + 4),
    plain := (padRemoved removed (pairEdit q none b2)).length + 4 }

/-- The form of a referenced frame at a port. -/
def refForm (s : State) (port : Nat) (r : Ref) : Form :=
  match AMap.find s.fabric.frames r.frame with
  | some f => egressForm s port f r.markCe
  | none => {}

/-- OVERHEAD of a port (R233). -/
def overheadOf (s : State) (port : Nat) : Nat := s.fieldN 0x1201 port 2

/-- The charged length b (R218). -/
def chargedOf (s : State) (port : Nat) (x : Form) : Nat := x.length + overheadOf s port

end Sys2Proof.Machine
end

