-- ==== Sys2Proof/Machine/Gates.lean ====
section
/-!
DEFINITION. Time-aware gates (R285 to R308): lists as functions of the ball instant, page requests and late pages,
schedule changes, guard band windows, holds and period drops.
-/
namespace Sys2Proof.Machine

/-! ## Instants -/

/-- An instant of 48 bits, as R252 counts them: a value below zero or beyond wraps. -/
def wrap48 (t : Int) : Nat := (t % (2 ^ 48 : Int)).toNat

/-! ## Lists -/

/-- The gate engine of a port. -/
def State.gate (s : State) (p : Nat) : Gate := AMap.get {} s.gates p

/-- Changes the gate engine of a port. -/
def State.updGate (s : State) (p : Nat) (f : Gate → Gate) : State := { s with gates := AMap.upd {} s.gates p f }

/-- The rows 0 to LIST_LENGTH - 1 of a gate object (R286, R310). -/
def listEntries (s : State) (im : Image) (o n : Nat) : List (Nat × Nat × Nat) :=
  (upTo n).map fun k => (imgFieldN s.ident im o k 2, imgFieldN s.ident im o k 3, imgFieldN s.ident im o k 4)

/-- The list of a port as an image holds it. -/
def buildList (s : State) (im : Image) (p : Nat) : GList :=
  let f := gateCfg s im p
  { domain := f 0x21, base := f 0x22, cycle := f 0x23, ext := f 0x24,
    entries := listEntries s im ((gateObj p).getD 0) (f 0x25) }

/-- Pages of a list (R291). -/
def pageCount (l : GList) : Nat := (l.entries.length + 255) / 256

/-- A list longer than 1,024 entries is paged (R291). -/
def isPaged (l : GList) : Bool := 1024 < l.entries.length

/-! ## Master copies and page slots -/

/-- A page entry (R292): INTERVAL in bits 63-32, OPERATION in 19-16, GATE_STATES in 7-0, every other bit 0. -/
def entryWord (e : Nat × Nat × Nat) : Nat := e.2.2 % 2 ^ 32 * 2 ^ 32 + e.1 % 16 * 2 ^ 16 + e.2.1 % 256

/-- The entry that a page entry word holds (R292). -/
def entryOf (w : Nat) : Nat × Nat × Nat := (field w 16 4, field w 0 8, field w 32 32)

/-- Entries as the bytes of pages (R291, R292): each a little-endian word. -/
def packEntries (l : List (Nat × Nat × Nat)) : Bytes := l.flatMap fun e => leBytes 8 (entryWord e)

/-- The entries of a number of page entry words read. -/
def unpackEntries (b : Bytes) (n : Nat) : List (Nat × Nat × Nat) := (upTo n).map fun k => entryOf (leNat (slice b (8 * k) 8))

/-- The entries of page j of a list (R291): 256, fewer in the last. -/
def pageEntries (l : GList) (j : Nat) : Nat := min 256 (l.entries.length - 256 * j)

/-- The two regions of the master copies (R493): the lists in force, and from 16 MiB on the pending ones. -/
def masterBase (s : State) (pending : Bool) : Nat := reservedBase s + 0x0D000000 + b2n pending * 2 ^ 24

/-- Where each master copy stands in its region: one after another in port order, in whole pages (DESIGN CHOICE, log entry 76). -/
def placeMasters : Nat → List (Nat × GList) → List (Nat × Nat × GList)
  | _, [] => []
  | a, (p, l) :: r => (p, a, l) :: placeMasters (a + pageCount l * 2048) r

/-- Master copies are written to LPDDR4X (R291). -/
def writeMasters (l : List (Nat × Nat × GList)) (s : State) : State :=
  { s with mem := { s.mem with cells := l.foldl (fun m e => memWrite m e.2.1 (packEntries e.2.2.entries)) s.mem.cells } }

/-- The address of a port's master copy among placed ones. -/
def masterOf (l : List (Nat × Nat × GList)) (p : Nat) : Nat := ((l.find? fun e => e.1 == p).map (·.2.1)).getD 0

/-- The bytes of a quarter of a page in a master copy. -/
def quarterAt (master j q : Nat) : Nat := master + 2048 * j + 512 * q

/-- A page of a list as its master copy holds it. -/
def readPage (s : State) (master : Nat) (l : GList) (j : Nat) : List (Nat × Nat × Nat) :=
  unpackEntries (memRead s.mem.cells (quarterAt master j 0) 2048) (pageEntries l j)

/-- A page stands in a slot. -/
def fillSlot (g : Gate) (j : Nat) (e : List (Nat × Nat × Nat)) : Gate :=
  { g with slots := g.slots.filter (·.1 != j) ++ [(j, e)] }

/-- What the slot of a page holds. -/
def slotOf (g : Gate) (j : Nat) : List (Nat × Nat × Nat) := ((g.slots.find? fun e => e.1 == j).map (·.2)).getD []

/-- A quarter of a page is moved from LPDDR4X to its slot (R405). -/
def moveQuarter (p j q : Nat) (s : State) : State :=
  let g := s.gate p
  match g.list with
  | some l =>
    let n := pageEntries l j
    let got := unpackEntries (memRead s.mem.cells (quarterAt g.master j q) 512) 64
    let old := slotOf g j
    let put := (upTo n).map fun k => if k / 64 = q then got.getD (k % 64) (0, 0, 0) else old.getD k (0, 0, 0)
    s.updGate p fun g => fillSlot g j put
  | none => s

/-- The gate states of an entry as its slot holds them. -/
def slotStates (g : Gate) (k : Nat) : Option Nat := ((slotOf g (k / 256))[k % 256]?).map (·.2.1)

/-- The ball instant that the engine evaluates now in a domain (R287): NS plus TX_LEAD. -/
def ballNow (s : State) (p d : Nat) : Nat := s.ns d + txLead s p

/-- An instant of a list's domain as nanoseconds from the ball instant of now (R252). -/
def offsetOf (ball t : Nat) : Int := signed48 ((t : Int) - (ball : Int))

/-- The entry that holds a phase: its number, operation, states, start and end in the cycle. -/
structure AtEntry where
  index : Nat
  op : Nat
  states : Nat
  start : Nat
  stop : Nat
deriving DecidableEq, Repr, Inhabited

/-- The walk of R288 to the entry that holds a phase. -/
def entryAt (phase : Nat) : List (Nat × Nat × Nat) → Nat → Nat → AtEntry
  | [], k, acc => { index := k, op := 0, states := 0xFF, start := acc, stop := acc }
  | (op, st, iv) :: r, k, acc =>
    if phase < acc + iv ∨ r.isEmpty then { index := k, op := op, states := st, start := acc, stop := acc + iv }
    else entryAt phase r (k + 1) (acc + iv)

/-- The phase of an offset in a list whose cycle starts at an anchor (R288). -/
def phaseAt (l : GList) (ball anchor : Nat) (o : Int) : Nat :=
  ((o - offsetOf ball anchor) % (max 1 l.cycle : Nat)).toNat

/-- What is in force at an offset: the entry (0xFFFFFFFF in pre-base, late or listless states), the states, the offset
at which that ends (none where it never does) and the one at which it began, as far as the list shows it. -/
structure Segment where
  entry : Nat
  states : Nat
  stop : Option Int
  start : Int := 0
  inList : Bool := false
deriving DecidableEq, Repr, Inhabited

/-- The segment of a list at an offset. -/
def listSegment (l : GList) (ball anchor : Nat) (o : Int) : Segment :=
  let ph := phaseAt l ball anchor o
  let e := entryAt ph l.entries 0 0
  { entry := e.index, states := e.states, stop := some (o + (e.stop - ph : Nat)),
    start := o - (ph - e.start : Nat), inList := true }

/-- An end not later than an instant. -/
def capStop (x : Option Int) (t : Int) : Option Int := match x with | some y => some (min y t) | none => some t

/-- The segment before a pending change (R289, R295, R298). -/
def currentSegment (s : State) (p : Nat) (g : Gate) (o : Int) : Segment :=
  match g.list with
  | none => { entry := 0xFFFFFFFF, states := 0xFF, stop := none }
  | some l =>
    let ball := ballNow s p l.domain
    match g.late with
    | some c =>
      if o < offsetOf ball c then
        { entry := 0xFFFFFFFF, states := gateCfg s s.cfg.running p 0x27, stop := some (offsetOf ball c) }
      else listSegment l ball c o
    | none =>
      if !g.started && o < offsetOf ball g.anchor then
        { entry := 0xFFFFFFFF, states := gateCfg s s.cfg.running p 0x26, stop := some (offsetOf ball g.anchor) }
      else
        match g.stretch with
        | some k =>
          if offsetOf ball k ≤ o then
            let last := l.entries.getLastD (0, 0xFF, 0)
            { entry := l.entries.length - 1, states := last.2.1, stop := none, inList := true }
          else
            let x := listSegment l ball g.anchor o
            { x with stop := capStop x.stop (offsetOf ball k) }
        | none => listSegment l ball g.anchor o

/-- What is in force at an offset from the ball instant of now, through a pending change at X (R301). -/
def segmentAt (s : State) (p : Nat) (o : Int) : Segment :=
  let g := s.gate p
  match g.pending with
  | some (l, x) =>
    let at_ := offsetOf (ballNow s p l.domain) x
    if at_ ≤ o then listSegment l (ballNow s p l.domain) x o
    else
      let c := currentSegment s p g o
      { c with stop := capStop c.stop at_ }
  | none => currentSegment s p g o

/-- Entries that a forward walk may meet before it repeats. -/
def walkFuel (g : Gate) : Nat :=
  2 * ((g.list.map (·.entries.length)).getD 0 + (g.pending.map (·.1.entries.length)).getD 0) + 8

/-- The walk of close(c, s) (R301): the first offset at or after one at which the gate of a class is closed. -/
def closeFrom (s : State) (p tc : Nat) : Nat → Int → Option Int
  | 0, _ => none
  | n + 1, o =>
    let x := segmentAt s p o
    if !bit x.states tc then some o
    else match x.stop with
      | some t => closeFrom s p tc n t
      | none => none

/-- The list of a port runs now (R289). -/
def gatesRun (s : State) (p : Nat) : Bool := listRuns s s.cfg.running p || (s.gate p).list.isSome

/-- The gate of a class is open at an offset; every gate is open where no list runs. -/
def gateOpen (s : State) (p tc : Nat) (o : Int) : Bool := !gatesRun s p || bit (segmentAt s p o).states tc

/-- close(c, s) as an offset; none is unbounded. -/
def closeAt (s : State) (p tc : Nat) (o : Int) : Option Int :=
  if gatesRun s p then closeFrom s p tc (walkFuel (s.gate p)) o else none

/-- The last hold or release operation at or before an entry, cyclically, is a hold (R305). -/
def holdAtEntry (l : GList) (k : Nat) : Bool :=
  let order := (l.entries.take (k + 1)).reverse ++ (l.entries.drop (k + 1)).reverse
  match order.find? fun e => e.1 != 0 with
  | some e => e.1 == 1
  | none => false

/-- The list whose entry a segment names at an offset. -/
def listAt (s : State) (p : Nat) (o : Int) : Option GList :=
  let g := s.gate p
  match g.pending with
  | some (l, x) => if offsetOf (ballNow s p l.domain) x ≤ o then some l else g.list
  | none => g.list

/-- A hold is in force at an offset (R305). -/
def holdAt (s : State) (p : Nat) (o : Int) : Bool :=
  let x := segmentAt s p o
  match listAt s p o with
  | some l => x.inList && holdAtEntry l x.entry
  | none => false

/-! ## Line time in a corrected domain -/

/-- INC of R483: the increment of the domain of the list in force, in this tick. -/
def gateInc (s : State) (p : Nat) : Nat :=
  match listAt s p 0 with
  | some l => (incNow (s.dom l.domain)).toNat
  | none => 2 ^ 32

/-- A line time in the list's domain, rounded up to the next 0.01 ns (R483); both in picoseconds. -/
def domainPs (s : State) (p line : Nat) : Nat := (line * gateInc s p + 10 * 2 ^ 32 - 1) / (10 * 2 ^ 32) * 10

/-- HOLD_ADVANCE in the list's domain, in nanoseconds of the domain's compares (R304, R484). -/
def holdAhead (s : State) (p : Nat) : Nat := (domainPs s p (holdAdvance s p) + 999) / 1000

/-- The line instant T - HOLD_ADVANCE of the hold that lies ahead (R304), in picoseconds; now, where it is further back
than a tick. -/
def holdInstant (s : State) (p : Nat) : Nat :=
  let away := (segmentAt s p (holdAhead s p)).start * 1000 - (domainPs s p (holdAdvance s p) : Int)
  let at_ := ((tickOf s.cycle * 1000 : Nat) : Int) + away * 2 ^ 32 / (gateInc s p : Int)
  if at_ + 1000 < (nowPs s : Int) then nowPs s else at_.toNat

/-! ## MAX_WINDOW -/

/-- The longest run of open time in a list of (interval, open) (R303). -/
def longestRun : List (Nat × Bool) → Nat → Nat → Nat
  | [], cur, best => max cur best
  | (iv, o) :: r, cur, best => if o then longestRun r (cur + iv) best else longestRun r 0 (max cur best)

/-- MAX_WINDOW of a class in nanoseconds, none when unbounded (R303). -/
def maxWindow (s : State) (p tc : Nat) : Option Nat :=
  if !gatesRun s p then none
  else
    match (s.gate p).list with
    | none => none
    | some l =>
      let pre := preemptable s p tc
      let spans := (upTo l.entries.length).map fun k =>
        let e := l.entries.getD k (0, 0xFF, 0)
        (e.2.2, bit e.2.1 tc && !(pre && holdAtEntry l k))
      if spans.all (·.2) then none else some (longestRun (spans ++ spans) 0 0)

/-! ## Decision records -/

/-- The port's frames of a class yield decision records (R452). -/
def digestOn (s : State) (p tc : Nat) : Bool :=
  pairPresent s && pairPort s p 4 == 1 && periodBound s s.cfg.running p tc &&
  gateCfg s s.cfg.running p 0x21 == s.cfgN 0x7000 4

/-- The digest cycle of a closing instant given as an offset from the ball instant of now (R452). -/
def digestCycle (s : State) (close : Int) : Nat :=
  (((s.ns (s.cfgN 0x7000 4) : Int) + close) / (max 1 (s.cfgN 0x7000 3 * 1000) : Nat) % (2 ^ 32 : Int)).toNat

/-- One record more in the digest of a cycle. -/
def addDigest (m crc : Nat) : List Digest → List Digest
  | [] => [{ cycle := m, count := 1, sum := crc }]
  | d :: r => if d.cycle = m then { d with count := d.count + 1, sum := (d.sum + crc) % 2 ^ 64 } :: r else d :: addDigest m crc r

/-- A decision record (R452): `disp` its DISPOSITION, `close` the closing instant as an offset from the ball instant of
now, TX_LEAD included. -/
def decisionRecord (p disp : Nat) (h : Carriage) (len : Nat) (close : Int) (s : State) : State :=
  if digestOn s p h.tc then
    let d := s.cfgN 0x7000 4
    let inst := (((ballNow s p d : Int) + close) % (2 ^ 32 : Int)).toNat
    let rec16 := beBytes 2 p ++ beBytes 1 h.tc ++ beBytes 1 disp ++
      beBytes 4 (if h.streamValid then h.handle else 0xFFFFFFFF) ++ beBytes 2 (if h.seqValid then h.seq else 0) ++
      beBytes 2 len ++ beBytes 4 inst
    let m := digestCycle s ((txLead s p : Int) + close)
    s.updPair fun x => { x with open_ := addDigest m (crc32c rec16) x.open_ }
  else s

/-- The decision record of a referenced frame. -/
def recordRef (p disp : Nat) (close : Int) (s : State) (r : Ref) : State :=
  match AMap.find s.fabric.frames r.frame with
  | some f => decisionRecord p disp f.hdr (refForm s p r).plain close s
  | none => s

/-! ## Paging -/

/-- The start of a page in the cycle. -/
def pageStart (l : GList) (j : Nat) : Nat := ((l.entries.take (256 * j)).map (·.2.2)).sum

/-- The next start of a page at or after now, in a list anchored at a cycle start. -/
def nextPageStart (l : GList) (ball anchor j : Nat) : Nat :=
  let c := max 1 l.cycle
  let o := offsetOf ball anchor + (pageStart l j : Int)
  let n := if 0 ≤ o then 0 else (-o + (c - 1 : Nat)) / (c : Int)
  wrap48 ((anchor + pageStart l j : Int) + n * c)

/-- A page is requested (R293): four requests of 512 bytes on the slice's paging line. -/
def requestPage (p d deadline j : Nat) (s : State) : State :=
  let s1 := s.updGate p fun g => { g with requested := (g.requested.filter (·.1 != j)) ++ [(j, deadline)] }
  (upTo 4).foldl (fun s q => oweRequest (sliceOf p)
    { at_ := s.cycle, bytes := 512, page := some (p, j, q), deadline := some (d, deadline) } s) s1

/-- A paging request of a port. -/
def pageOf (p : Nat) (r : Req) : Bool := match r.page with | some (q, _, _) => q == p | none => false

/-- A port's outstanding page requests are discarded (R295, R299). -/
def dropPaging (p : Nat) (s : State) : State :=
  let keep := fun (r : Req) => !pageOf p r
  let l := sliceOf p
  let s1 := { s with dma := { s.dma with
    owed := s.dma.owed.filter fun e => keep e.2,
    lines := AMap.put [] s.dma.lines l ((AMap.get [] s.dma.lines l).filter keep) } }
  s1.updGate p fun g => { g with requested := [] }

/-- Several pages of the list in force are requested; pages beyond the list are not. -/
def requestPages (p : Nat) (l : GList) (anchor : Nat) (pages : List Nat) (s : State) : State :=
  (pages.filter fun j => 0 < j && j < pageCount l).foldl (fun s j =>
    requestPage p l.domain (nextPageStart l (ballNow s p l.domain) anchor j) j s) s

/-- The page two places after a page in cyclic order (R293). -/
def pageAhead (l : GList) (j : Nat) : Nat := (j + 2) % max 1 (pageCount l)

/-- A page starts in paged mode (R293): earlier pages give up their slots, and the page two ahead is requested. -/
def startPage (p : Nat) (l : GList) (j : Nat) (s : State) : State :=
  if isPaged l then
    let keep := fun (k : Nat) => k == 0 || k == j || k == (j + 1) % pageCount l
    let s1 := s.updGate p fun g =>
      { g with
        onChip := g.onChip.filter keep,
        slots := g.slots.filter fun e => keep e.1 || g.requested.any (·.1 == e.1) }
    let k := pageAhead l j
    if k = 0 ∨ (s1.gate p).onChip.contains k ∨ (s1.gate p).requested.any (·.1 == k) then s1
    else requestPages p l (s1.gate p).anchor [k] s1
  else s

/-- PAGE_ARRIVED (R294): a requested page is complete in its slot, each of its four quarters in place. A page that could not
be read stays absent. -/
def effPageArrived (p : Nat) (page : Nat) (ok : Bool) (s : State) : State :=
  if (s.gate p).requested.any (·.1 == page) then
    let s1 := s.updGate p fun g =>
      { g with requested := g.requested.filter (·.1 != page), onChip := if ok then g.onChip ++ [page] else g.onChip }
    if ok then ((upTo 4).foldl (fun s q => moveQuarter p page q s) s1).bumpPort p 0x83 else s1
  else s

/-! ## Fragments and closings -/

/-- From the ball instant of now to a start, in the list's domain (R483), in picoseconds times 2^32. -/
def startAway (s : State) (p start : Nat) : Int := ((start : Int) - (nowPs s : Int)) * gateInc s p

/-- A span that starts at s and takes n byte times ends by an offset in nanoseconds of the list's domain (R301, R483). -/
def endsBy (s : State) (p start n : Nat) (close : Option Int) : Bool :=
  match close with
  | none => true
  | some x => decide (startAway s p start + (domainPs s p (n * byteTime s p) * 2 ^ 32 : Nat) ≤ x * 1000 * 2 ^ 32)

/-- The offset of a start from the ball instant of now, in nanoseconds. -/
def startOffset (s : State) (p start : Nat) : Int := (startAway s p start / (1000 * 2 ^ 32)).toNat

/-- The largest boundary at which a fragment that starts at an instant ends by the closing (R302). -/
def closeBoundary (s : State) (p tc l start : Nat) : Option Nat :=
  match closeAt s p tc (startOffset s p start) with
  | none => none
  | some x =>
    let room := (x * 1000 * 2 ^ 32 - startAway s p start) / (10 * 2 ^ 32) * 10
    let bytes := (room * 2 ^ 32 / (max 1 (byteTime s p * gateInc s p) : Nat) - 12).toNat
    let b := min bytes (l - 64) / 4 * 4
    if minFragment s p ≤ b then some b else none

/-- Where the fragment in transmission stops once the closings of its class have moved (R290, R302): the stop, and
whether it runs past the closing. A stop that a hold or an express frame set stays where it is. -/
def stepStop (s : State) (p : Nat) (t : Tx) : Option (Nat × Bool) × Bool :=
  let close := closeAt s p t.tc 0
  let first := (fragBoundary s p t).map fun b => (b, true)
  match t.stopAt with
  | some (b, false) => if endsBy s p t.start (8 + b + 4) close then (t.stopAt, false) else (first, true)
  | _ =>
    if endsBy s p t.start (8 + fragRest t) close then (none, false)
    else
      match closeBoundary s p t.tc (fragRest t) t.start with
      | some b => if fragData s p t ≤ b then (some (b, true), false) else (first, true)
      | none => (first, true)

/-- The stop of the fragment in transmission follows the closings as they are now known (R302): one that has gone sets no stop,
one that has come ends the fragment at the largest boundary in time, or at the first that R115 allows. -/
def refitStop (p : Nat) (s : State) : State :=
  match (s.port p).pre with
  | some t => if t.active then s.updPort p fun x => { x with pre := some { t with stopAt := (stepStop s p t).1 } } else s
  | none => s

/-! ## Transitions -/

/-- Period drops of a class whose gate closes, at the offset of its closing (R306, R452). -/
def periodDrop (p tc : Nat) (close : Int) (s : State) : State :=
  if periodBound s s.cfg.running p tc then
    let gone := fun (r : Ref) => decide (r.linkedAt ≤ s.cycle)
    let s1 := ((s.queue p tc).refs.filter gone).foldl (recordRef p 3 close) s
    emptyQueue p tc (unlinkWhere gone 0x81 p tc s1)
  else s

/-- The classes that close between two states. -/
def closing (old new : Nat) : List Nat := (upTo 8).filter fun t => bit old t && !bit new t

/-- The latest cycle start at or before now. -/
def cycleStart (l : GList) (ball anchor : Nat) : Nat :=
  let o := offsetOf ball anchor
  let c : Int := (max 1 l.cycle : Nat)
  wrap48 ((anchor : Int) + (-o) / c * c)

/-- The next cycle start after now. -/
def nextCycle (l : GList) (ball anchor : Nat) : Nat := (cycleStart l ball anchor + l.cycle) % 2 ^ 48

/-- The pending list takes effect at X (R299). -/
def takeChange (p : Nat) (l : GList) (x : Nat) (s : State) : State :=
  let s1 := (dropPaging p s).updGate p fun g =>
    { g with
      list := some l, anchor := x, started := true, late := none, pending := none, stretch := none,
      onChip := [0], entry := 0, slots := [(0, g.staged)], staged := [], master := g.pendingMaster }
  pulse (226 + sliceOf p) ((requestPages p l x (if isPaged l then [1, 2] else [1, 2, 3]) s1).bumpPort p 0x85)

/-- A page is late (R295). -/
def latePage (p : Nat) (l : GList) (s : State) : State :=
  let g := s.gate p
  let next := nextCycle l (ballNow s p l.domain) g.anchor
  let s0 := if (upTo 8).any fun t => digestOn s p t then disturbDigest s else s
  let s1 := (dropPaging p s0).updGate p fun g => { g with late := some next, hold := false }
  let again := if isPaged l then [1, 2] else (upTo (pageCount l)).filter fun j => !g.onChip.contains j
  detectFault 10 (sliceOf p) 1 p
    (pulse (209 + sliceOf p) ((requestPages p l next again (refitStop p s1)).bumpPort p 0x82))

/-- Step 1 of R308: X, or a cycle start that ends a late interval or the pre-base states. -/
def takeStarts (p : Nat) (s : State) : State :=
  let g := s.gate p
  match g.pending with
  | some (l, x) =>
    if offsetOf (ballNow s p l.domain) x ≤ 0 then takeChange p l x s else startList g s
  | none => startList g s
where
  /-- The list's own starts. -/
  startList (g : Gate) (s : State) : State :=
    match g.list, g.late with
    | some l, some c =>
      if offsetOf (ballNow s p l.domain) c ≤ 0 then
        s.updGate p fun g => { g with late := none, anchor := c, started := true }
      else s
    | some l, none =>
      if !g.started && offsetOf (ballNow s p l.domain) g.anchor ≤ 0 then
        s.updGate p fun g => { g with started := true }
      else s
    | none, _ => s

/-- The hold state of the MAC merge sublayer at a transition (R304, R305): kept where it was issued ahead of an entry
that is still to come. -/
def applyHold (p : Nat) (s : State) : State :=
  let now := holdAt s p 0
  let ahead := (s.gate p).hold && holdAt s p (holdAhead s p)
  let h := now || ahead
  let s1 := if h && !(s.gate p).hold && preemptActive s p then holdFragment p (nowPs s) (s.bumpPort p 0x1D) else s
  s1.updGate p fun g => { g with hold := h }

/-- A preemptable frame still in transmission when its class closes ends its fragment at the first boundary that R115
allows, where the closing was not known at its admission (R302). -/
def closeFragment (p states : Nat) (s : State) : State :=
  match (s.port p).pre with
  | some t =>
    if t.active && t.stopAt.isNone && !bit states t.tc && decide (nowPs s < t.start + (8 + fragRest t) * byteTime s p) then
      s.updPort p fun x => { x with pre := some { t with stopAt := (fragBoundary s p t).map fun b => (b, true) } }
    else s
  | none => s

/-- The anchor moves to the current cycle's start once the list runs, so that R252 never meets a distant base. -/
def reanchor (p : Nat) (l : GList) (s : State) : State :=
  let g := s.gate p
  if g.started && g.late.isNone && g.stretch.isNone then
    s.updGate p fun g => { g with anchor := cycleStart l (ballNow s p l.domain) g.anchor }
  else s

/-- Step 2 of R308: the entry in force, the start of a page, and a late page. -/
def enterEntry (p : Nat) (s : State) : State :=
  let x := segmentAt s p 0
  match (s.gate p).list with
  | some l =>
    if x.inList && !(s.gate p).onChip.contains (x.entry / 256) then latePage p l s
    else if x.inList && x.entry / 256 != (s.gate p).entry / 256 then startPage p l (x.entry / 256) s
    else s
  | none => s

/-- The transition of a port at the present instant (R288, R308 steps 1 to 4): everything the list does between the
last transition noted and now. -/
def gateTick (p : Nat) (s : State) : State :=
  if gatesRun s p then
    let was := (s.gate p).states
    let s1 := takeStarts p s
    let s2 := match (s1.gate p).list with | some l => reanchor p l s1 | none => s1
    let s3 := enterEntry p s2
    let x := segmentAt s3 p 0
    let now := if x.inList then (slotStates (s3.gate p) x.entry).getD x.states else x.states
    let s4 := closeFragment p now (applyHold p (s3.updGate p fun g => { g with entry := x.entry, states := now }))
    (closing was now).foldl (fun s t => periodDrop p t x.start s) s4
  else s

/-- GATE_ENTRY_TRANSITION (R288, R306). -/
def effGateEntryTransition (p : Nat) (s : State) : State := gateTick p s

/-- GATE_CONFIG_CHANGE (R299): the pending list at its X. -/
def effGateConfigChange (p : Nat) (s : State) : State :=
  match (s.gate p).pending with
  | some (l, x) => if gatesRun s p && offsetOf (ballNow s p l.domain) x ≤ 0 then gateTick p s else s
  | none => s

/-! ## Starting, stopping, changing -/

/-- The ports with a gate list. -/
def gatePorts (s : State) : List Nat :=
  (upTo 256 ++ [260, 261]).filter fun p => p ≥ 256 || linePortPresent s.ident p

/-- The lists of an image (R291): those of the ports whose GATE_ENABLE is 1. -/
def imageLists (s : State) (im : Image) : List (Nat × GList) :=
  ((gatePorts s).filter fun p => gateCfg s im p 0x20 == 1).map fun p => (p, buildList s im p)

/-- The master copies of an image's lists, placed in one of the regions. -/
def imageMasters (s : State) (im : Image) (pending : Bool) : List (Nat × Nat × GList) :=
  placeMasters (masterBase s pending) (imageLists s im)

/-- The lists of an image adopted, or taking effect while no list runs, are those in force (R291, R297). -/
def buildMasters (s : State) : State := writeMasters (imageMasters s s.cfg.running false) s

/-- The lists in force move to their region (R493), the pending ones of an earlier cutover among them. -/
def settleMasters (s : State) : State :=
  let l := placeMasters (masterBase s false) (s.gates.filterMap fun e => e.2.list.map fun l => (e.1, l))
  l.foldl (fun s e => s.updGate e.1 fun g => { g with master := e.2.1 }) (writeMasters l s)

/-- Step 5 of R30 for the gate lists (R291, R297): the master copies of the image being committed stand beside those in
force. -/
def stageMasters (im : Image) (s : State) : State :=
  let s1 := if s.chip.mode == .run then settleMasters s else s
  writeMasters (imageMasters s1 im true) s1

/-- A list starts at entry to RUN (R289). -/
def startGate (p : Nat) (s : State) : State :=
  if listRuns s s.cfg.running p then
    let l := buildList s s.cfg.running p
    let ball := ballNow s p l.domain
    let d := offsetOf ball l.base
    let anchor := if 0 < d then l.base
      else if isPaged l then (let c := cycleStart l ball l.base; if offsetOf ball c = 0 then c else nextCycle l ball l.base)
      else cycleStart l ball l.base
    let master := masterOf (imageMasters s s.cfg.running false) p
    let pages := if isPaged l then [0] else upTo (pageCount l)
    let g : Gate :=
      { list := some l, anchor := anchor, started := decide (offsetOf ball anchor ≤ 0),
        onChip := pages, slots := pages.map fun j => (j, readPage s master l j), master := master }
    let s1 := { s with gates := AMap.put {} s.gates p g }
    gateTick p (if isPaged l then requestPages p l anchor [1, 2] s1 else s1)
  else s

/-- Every list starts (R289). -/
def startGates (s : State) : State := (gatePorts s).foldl (fun s p => startGate p s) { s with gates := [] }

/-- Every gate opens on STOP or on leaving RUN (R289). -/
def stopGates (s : State) : State := { s with gates := [] }

/-- The gate entries whose change makes a list pending (R297). -/
def gateKeySubs : List Nat := [0x20, 0x21, 0x22, 0x23, 0x24, 0x25]

/-- A port's gate object changed in more than the three states entries (R297). -/
def gateChanged (s : State) (old new : Image) (p : Nat) : Bool :=
  gateKeySubs.any (fun sub => gateCfg s old p sub != gateCfg s new p sub) ||
  (match gateObj p with | some o => imgTable old o != imgTable new o | none => false) ||
  (gatePort s old p != gatePort s new p)

/-- X of R298. -/
def changeTime (s : State) (l : GList) : Nat :=
  let d := signed48 ((l.base : Int) - (s.ns l.domain : Int))
  if 0 ≤ d then l.base
  else
    let c : Int := (max 1 l.cycle : Nat)
    wrap48 ((l.base : Int) + (-d + c - 1) / c * c)

/-- The old cycle that is not begun before X (R298). -/
def stretchOf (s : State) (g : Gate) (l : GList) (x : Nat) : Option Nat :=
  match g.list with
  | some o =>
    if o.domain = l.domain then
      let c : Int := (max 1 o.cycle : Nat)
      let toX := signed48 ((x : Int) - (g.anchor : Int))
      let k : Nat := wrap48 ((g.anchor : Int) + toX / c * c)
      if 0 ≤ toX ∧ 0 < signed48 ((k : Int) - (s.ns l.domain : Int)) ∧ signed48 ((x : Int) - (k : Int)) < l.ext then
        some k
      else none
    else none
  | none => none

/-- What a changed gate object does to the engine of its port at a cutover in RUN (R297 to R299). -/
def changeGate (old : Image) (s : State) (p : Nat) : State :=
  if gateChanged s old s.cfg.running p then
    if listRuns s s.cfg.running p then
      let l := buildList s s.cfg.running p
      let x := changeTime s l
      let m := masterOf (imageMasters s s.cfg.running true) p
      gateTick p (s.updGate p fun g =>
        { g with pending := some (l, x), stretch := stretchOf s g l x, staged := readPage s m l 0, pendingMaster := m })
    else s.updGate p fun _ => {}
  else if listRuns s s.cfg.running p then gateTick p s
  else s

/-- A port's gate object changed in the states that apply at once (R297). -/
def statesChanged (s : State) (old new : Image) (p : Nat) : Bool :=
  [0x26, 0x27, 0x28].any fun sub => gateCfg s old p sub != gateCfg s new p sub

/-- A port's gate object at a cutover in RUN, after the running configuration changed: a changed schedule moves the closings
that the fragment in transmission meets. -/
def cutGate (old : Image) (s : State) (p : Nat) : State :=
  let s1 := changeGate old s p
  if gateChanged s old s.cfg.running p || statesChanged s old s.cfg.running p then refitStop p s1 else s1

/-- Gates at a cutover (R297): in ARMED no change is pending. -/
def gatesCutover (old : Image) (s : State) : State :=
  if s.chip.mode == .run then (gatePorts s).foldl (cutGate old) s else buildMasters s

/-- A port's list, or the one pending, runs on a domain. -/
def onDomain (d : Nat) (g : Gate) : Bool :=
  (match g.list with | some l => l.domain == d | none => false) ||
  (match g.pending with | some (l, _) => l.domain == d | none => false)

/-- The ports whose list runs on a domain follow a step of it (R290). -/
def gatesStep (d : Nat) (s : State) : State :=
  (s.gates.filter fun e => onDomain d e.2).foldl (fun s e => gateTick e.1 s) s

/-! ## The meanings -/

/-- PAGE_ARRIVED: answers the state after its effect. -/
def execPageArrived (p : Nat) (page : Nat) (ok : Bool) (s : State) : Answer := .next (effPageArrived p page ok s)

/-- GATE_ENTRY_TRANSITION: answers the state after its effect. -/
def execGateEntryTransition (p : Nat) (s : State) : Answer := .next (effGateEntryTransition p s)

/-- GATE_CONFIG_CHANGE: answers the state after its effect. -/
def execGateConfigChange (p : Nat) (s : State) : Answer := .next (effGateConfigChange p s)

end Sys2Proof.Machine
end

