-- ==== Sys2Proof/Machine/Dma.lean ====
section
/-!
DEFINITION. The DMA engine (R384 to R409): channels, rings and descriptors, bursts, running sums, barriers and
writebacks, request lines, host frame rings, pause, abort and halt, and the paging channel.
-/
namespace Sys2Proof.Machine

/-! ## Channels -/

/-- A channel's state. -/
def State.chan (s : State) (c : Nat) : Chan := s.dma.chans.getD c {}

/-- Changes a channel. -/
def State.updChan (s : State) (c : Nat) (f : Chan → Chan) : State :=
  { s with dma := { s.dma with chans := updAt s.dma.chans c f } }

/-- A field of a channel's DMA_CHANNEL row (R406). -/
def chanCfg (s : State) (c sub : Nat) : Nat := s.fieldN 0x6001 c sub

/-- ROLE: 0 MEMORY, 1 HOST_TX, 2 HOST_RX. -/
def chanRole (s : State) (c : Nat) : Nat := chanCfg s c 2

/-- A function may write a channel's registers (R409): its FUNCTION and PF0, and never those of channel 31. -/
def chanMay (s : State) (f c : Nat) : Bool := f == 0 || f == chanCfg s c 3

/-- A write reaches a channel's registers: the function reaches BAR0 and may write them. -/
def chanWrite (f c : Nat) (act : State → State) (s : State) : State :=
  if s.barReach f && decide (c < 31) then (if chanMay s f c then act s else denyWrite f s)
  else refuseBar f true s

/-- Host space is reachable for a function (R404): link up, D0, Bus Master Enable 1. -/
def hostReach (s : State) (f : Nat) : Bool := s.pcie.linkUp && !(s.pf f).d3 && (s.pf f).bme

/-- The error of an access by a channel, if any (R387, R404). -/
def accessError (s : State) (c : Nat) (host write : Bool) (addr len : Nat) : Option Nat :=
  if host then (if hostReach s (chanCfg s c 3) then none else some 0x09) else devError s (chanCfg s c 6) write addr len

/-- Read request TLPs of a host read (R386). -/
def readTlps (s : State) (f len : Nat) : Nat := let m := max 1 (s.pf f).mrrs; (len + m - 1) / m

/-- The read limit of a function (R376). -/
def readLimit (p : Pf) : Nat := if p.tag10 then 768 else if p.extTag then 256 else 32

/-- More host reads of a function are allowed (R376, R386). -/
def readsAllowed (s : State) (f n : Nat) : Bool :=
  decide ((s.pf f).reads + n ≤ readLimit (s.pf f)) && decide ((s.pcie.pfs.map (·.reads)).sum + n ≤ 768)

/-- Host reads of a function begin or end. -/
def addReads (f n : Nat) (s : State) : State := s.updPf f fun p => { p with reads := p.reads + n }
def endReads (f n : Nat) (s : State) : State := s.updPf f fun p => { p with reads := p.reads - n }

/-- A channel's outstanding descriptor read in host space no longer counts (R376). -/
def dropFetch (c : Nat) (s : State) : State :=
  match (s.chan c).fetchFn with
  | some f => (endReads f 1 s).updChan c fun x => { x with fetchFn := none }
  | none => s

/-- The outstanding barrier reads of a channel no longer count (R376). -/
def dropBarriers (c : Nat) (s : State) : State :=
  (s.chan c).fin.foldl (fun s f => if f.stage == 0 && f.host && f.asked then endReads f.fn 1 s else s) s

/-- The shortest time that the host's Completion Timeout value allows (R368, R404; PRESUMED, log entry 83). -/
def completionCycles (range : Nat) : Nat :=
  if range = 2 then msCycles 1 else if range = 5 then msCycles 16 else if range = 6 then msCycles 65 else usCycles 50

/-- A host read begun at a core cycle may have passed the completion timeout set by the host (R404). -/
def hostLate (s : State) (f at_ : Nat) : Bool :=
  !(s.pf f).ctoOff && decide (at_ + completionCycles (s.pf f).ctoRange ≤ s.cycle)

/-- A host read of a function gets no completion (R376). -/
def readLost (f : Nat) (s : State) : State := noteAer f 14 false (noteTimeout f s)

/-- A completion of a function is poisoned, or fails its ECRC (R376). -/
def readSpoilt (f : Nat) (ecrc : Bool) (s : State) : State := noteAer f (if ecrc then 19 else 12) false (notePoisoned f s)

/-- The outputs of a host read: read requests cut at the maximum read request size (R386). -/
def hostReads (f mrrs tag : Nat) : Nat → Nat → Nat → List OutEvent
  | 0, _, _ => []
  | n + 1, addr, len =>
    if len = 0 then [] else .hostRead f addr (min mrrs len) tag :: hostReads f mrrs tag n (addr + mrrs) (len - mrrs)

/-- A burst's host read goes out (R386, R376): its requests count against the function's limit. -/
def askHost (f addr len tag tlps : Nat) (s : State) : State :=
  (hostReads f (max 1 (s.pf f).mrrs) tag len addr len).foldl (fun s e => s.emit e) (addReads f tlps s)

/-- The outputs of a host write, cut at the maximum payload size (R386). -/
def hostWrites (f mps : Nat) : Nat → Nat → Bytes → List OutEvent
  | 0, _, _ => []
  | n + 1, addr, b => if b.isEmpty then [] else .hostWrite f addr (b.take mps) :: hostWrites f mps n (addr + mps) (b.drop mps)

/-- A channel writes bytes to a space. -/
def chanStore (c : Nat) (host : Bool) (addr : Nat) (b : Bytes) (s : State) : State :=
  if host then
    let f := chanCfg s c 3
    (hostWrites f (max 1 (s.pf f).mps) b.length addr b).foldl (fun s e => s.emit e) s
  else devWrite addr b s

/-! ## Bursts held -/

/-- Bursts of a channel that it has not aborted. -/
def liveBursts (s : State) (c : Nat) : AMap Burst := s.dma.bursts.filter fun e => e.2.chan == c && !e.2.aborted

/-- Bursts of a channel whose writes are not issued. -/
def openBursts (s : State) (c : Nat) : AMap Burst := (liveBursts s c).filter fun e => !e.2.written

/-- Removes a tag. -/
def freeTag (t : Nat) (s : State) : State := { s with dma := { s.dma with bursts := AMap.del s.dma.bursts t } }

/-- Every burst of a channel is aborted; those whose data has arrived give their tags back (R404). -/
def abortBursts (c : Nat) (s : State) : State :=
  let kept := s.dma.bursts.filter fun (e : Nat × Burst) => e.2.chan != c || (e.2.data.isNone && !e.2.written)
  let l := kept.map fun (e : Nat × Burst) => if e.2.chan = c then (e.1, { e.2 with aborted := true }) else e
  { s with dma := { s.dma with bursts := l } }

/-- The bursts of a descriptor that its barrier has held give their tags back (R386). -/
def freeWritten (c owner : Nat) (s : State) : State :=
  { s with dma := { s.dma with bursts := s.dma.bursts.filter fun (e : Nat × Burst) =>
    e.2.chan != c || !e.2.written || e.2.owner != owner } }

/-- The oldest written burst of a channel whose write is not acknowledged: bursts are written in transfer order. -/
def oldestWritten (s : State) (c : Nat) : Option Nat :=
  (s.dma.bursts.foldl (fun (best : Option (Nat × Burst)) e =>
    if e.2.chan = c ∧ e.2.written then
      match best with
      | some b => if e.2.at_ < b.2.at_ ∨ (e.2.at_ = b.2.at_ ∧ e.2.off < b.2.off) then some e else best
      | none => some e
    else best) none).map (·.1)

/-- The lowest free tag of a range. -/
def freeTagIn (s : State) (lo n : Nat) : Option Nat := (upTo n).findSome? fun k =>
  if AMap.has s.dma.bursts (lo + k) then none else some (lo + k)

/-! ## Ring position -/

/-- CUR_DESC (R403, R409): the descriptor in progress. -/
def curDesc (x : Chan) : Nat × Bool :=
  match x.placing.map (·.1.desc) ++ x.held ++ x.window with
  | d :: _ => (d.addr, d.host)
  | [] => (x.cur, x.curHost)

/-- CUR_DESC after a descriptor that is not a link (R389). -/
def advance (x : Chan) : Chan :=
  let n := x.cur + 32
  if x.curHost = x.ringHost ∧ n = x.ringBase + 32 * x.ringSize then { x with cur := x.ringBase }
  else { x with cur := n }

/-! ## Halt, pause -/

/-- A halt or an abort ends a frame partly presented with a bad FCS (R404). -/
def endPartFrame (c : Nat) (s : State) : State :=
  match (s.chan c).frame with
  | some f => if f.bytes.isEmpty then s else s.bumpPort (256 + chanCfg s c 4) 0x04
  | none => s

/-- The channel's registers on HALTED (R403, R404): exact, the descriptor left owned by hardware. -/
def haltRegs (code addr : Nat) (clear : Bool) (x : Chan) : Chan :=
  { x with
    state := 4, error := code, errAddr := addr, cur := (curDesc x).1, curHost := (curDesc x).2, fetching := none,
    desc := none, resume := x.desc.isSome || x.resume, waitSw := false, next := x.done, frame := none, window := [],
    held := [], placing := [], wants := false, reread := false, fin := if clear then [] else x.fin }

/-- A channel halts (R404). -/
def haltChan (c code addr : Nat) (s : State) : State :=
  let clear := chanRole s c == 0 || code == 0x0D
  let s0 := dropFetch c (if clear then dropBarriers c s else s)
  let s1 := (abortBursts c (endPartFrame c s0)).updChan c (haltRegs code addr clear)
  let s2 := pulse (132 + c) (s1.bumpK 0x6003 5 c)
  if code = 0x0A ∨ code = 0x0B ∨ code = 0x0D then s2 else detectFault 16 c 1 code s2

/-! ## Reading descriptors -/

/-- The channel reads the descriptor at CUR_DESC (R390); a read in host space beyond its function's limit waits (R376). -/
def startFetch (c : Nat) (s : State) : State :=
  let x := s.chan c
  match accessError s c x.curHost false x.cur 32 with
  | some e => haltChan c e x.cur s
  | none =>
    let f := chanCfg s c 3
    if x.curHost && !readsAllowed s f 1 then s.updChan c fun y => { y with wants := true, waitSw := false, reread := false }
    else
      let s1 := s.updChan c fun y =>
        { y with
          fetching := some s.cycle, fetchFn := if x.curHost then some f else none, waitSw := false, wants := false,
          reread := false }
      if x.curHost then (addReads f 1 s1).emit (.hostRead f x.cur 32 c) else s1

/-- What a channel in PAUSING still waits for (R402). -/
def settled (s : State) (c : Nat) : Bool :=
  let x := s.chan c
  (openBursts s c).isEmpty && x.frame.isNone && x.held.isEmpty && x.placing.isEmpty && x.fin.all fun f => f.stage == 1

/-- The channel's registers once it stands at the descriptor in progress: that descriptor is read again when it goes on, and
a MEMORY descriptor not yet written back completes anew (R402, R403). -/
def standAt (memory : Bool) (x : Chan) : Chan :=
  { x with
    cur := (curDesc x).1, curHost := (curDesc x).2, fetching := none, desc := none, resume := x.desc.isSome || x.resume,
    waitSw := false, wants := false, reread := false, next := x.done, window := [], fin := if memory then [] else x.fin }

/-- The last outstanding burst is written: PAUSING ends, and a channel told to continue meanwhile reads its descriptor again
(R402). -/
def settle (c : Nat) (s : State) : State :=
  let memory := chanRole s c == 0
  if (s.chan c).state = 2 ∧ settled s c then (dropFetch c s).updChan c fun x => { standAt memory x with state := 3 }
  else if (s.chan c).state = 1 ∧ (s.chan c).reread ∧ settled s c then startFetch c ((dropFetch c s).updChan c (standAt memory))
  else s

/-- A descriptor from its 32 bytes (R388). -/
def descOf (addr : Nat) (host : Bool) (b : Bytes) : Desc :=
  { addr := addr, host := host, w0 := leNat (slice b 0 8), w1 := leNat (slice b 8 8), ctrl := leNat (slice b 16 4),
    aux := leNat (slice b 20 4), w3 := leNat (slice b 24 8) }

/-- Fields of CTRL (R388). -/
def Desc.length (d : Desc) : Nat := field d.ctrl 0 20
def Desc.mode (d : Desc) : Nat := field d.ctrl 20 3
def Desc.srcHost (d : Desc) : Bool := bit d.ctrl 23
def Desc.dstHost (d : Desc) : Bool := bit d.ctrl 24
def Desc.auxHost (d : Desc) : Bool := bit d.ctrl 25
def Desc.barrier (d : Desc) : Bool := bit d.ctrl 26
def Desc.sum (d : Desc) : Nat := field d.ctrl 27 2
def Desc.first (d : Desc) : Bool := bit d.ctrl 27
def Desc.last (d : Desc) : Bool := bit d.ctrl 28
def Desc.goOn (d : Desc) : Bool := bit d.ctrl 29
def Desc.own (d : Desc) : Bool := bit d.ctrl 31
def Desc.elem (d : Desc) : Nat := field d.aux 0 13

/-- MODE 1 or 2: gather, scatter. -/
def Desc.indexed (d : Desc) : Bool := d.mode == 1 || d.mode == 2

/-- N of R393. -/
def Desc.count (d : Desc) : Nat := if d.elem = 0 then 0 else d.length / d.elem

/-- The descriptor is well formed for its role (R388, R389). -/
def descOk (role : Nat) (d : Desc) : Bool :=
  if d.mode == 3 then d.w0 % 32 == 0 && linkBits role d
  else if role = 0 then
    d.mode ≤ 3 && d.sum != 3 && !bit d.ctrl 30 && d.w3 % 4 == 0 && (!d.indexed || decide (d.aux < 2 ^ 13))
  else if role = 1 then d.mode == 0 && decide (d.w1 < 2 ^ 16) && d.aux == 0 && d.w3 == 0
  else d.mode == 0 && !bit d.ctrl 29 && d.w3 == 0
where
  /-- The reserved CTRL bits of a link. -/
  linkBits (role : Nat) (d : Desc) : Bool :=
    if role = 0 then d.sum != 3 && !bit d.ctrl 30
    else if role = 1 then decide (d.w1 < 2 ^ 16) && d.aux == 0 && d.w3 == 0
    else !bit d.ctrl 29 && d.w3 == 0

/-- ELEMENT_SIZE and LENGTH agree (R393). -/
def lengthOk (d : Desc) : Bool :=
  !d.indexed || (decide (1 ≤ d.elem) && decide (d.elem ≤ 4096) && d.length % d.elem == 0)

/-! ## Running sums -/

/-- The ones'-complement sum carried on over bytes, with an odd byte pending (R395). -/
def sumMore (ones : Nat) (odd : Option Nat) (b : Bytes) : Nat × Option Nat :=
  let all := (match odd with | some h => [BitVec.ofNat 8 h] | none => []) ++ b
  if all.length % 2 = 0 then (fold16 4 (ones + onesSum all), none)
  else (fold16 4 (ones + onesSum (all.take (all.length - 1))), some ((all.getLastD 0).toNat))

/-- The running sum of a channel over bytes moved (R395). -/
def sumBytes (d : Desc) (b : Bytes) (x : Chan) : Chan :=
  if d.sum = 1 then { x with crc := (crcUpdate (BitVec.ofNat 32 x.crc) b).toNat }
  else if d.sum = 2 then let r := sumMore x.ones x.odd b; { x with ones := r.1, odd := r.2 }
  else x

/-- A sum started afresh (R395). -/
def freshSum (x : Chan) : Chan := { x with crc := 0xFFFFFFFF, ones := 0, odd := none }

/-- The stored value (R395). -/
def sumValue (d : Desc) (x : Chan) : Nat :=
  if d.sum = 1 then x.crc ^^^ 0xFFFFFFFF
  else match x.odd with
    | some h => fold16 4 (x.ones + h * 256)
    | none => x.ones

/-! ## Completion -/

/-- The zero-length read of a barrier in host space goes out (R396). -/
def askBarrier (c fn : Nat) (f : Fin) (s : State) : State :=
  (addReads fn 1 s).emit (.hostRead fn (if chanRole s c = 2 then f.desc.w0 else f.desc.w1) 0 c)

/-- A descriptor's data writes are issued: it goes to its writeback, by way of its barrier (R396), whose read waits for its
function's limit (R376). -/
def pushFin (c : Nat) (f : Fin) (s : State) : State :=
  let fn := chanCfg s c 3
  let asks := f.stage == 0 && f.host
  let asked := !asks || readsAllowed s fn 1
  let s1 := s.updChan c fun x => { x with fin := x.fin ++ [{ f with fn := fn, asked := asked }] }
  if asks && asked then askBarrier c fn f s1 else s1

/-- The end of a MEMORY descriptor's data: its sum is written, and it waits for its barrier or its writeback (R395,
R396). -/
def finishData (c : Nat) (d : Desc) (s : State) : State :=
  let v := sumValue d (s.chan c)
  let fin : Fin :=
    { desc := d, host := d.dstHost, word := if d.indexed && d.sum != 0 then some v else none, ctrl := d.ctrl - 2 ^ 31,
      stage := if d.barrier then 0 else 1, since := s.cycle }
  if d.sum ≠ 0 ∧ !d.indexed then
    match accessError s c d.auxHost true d.w3 4 with
    | some e => haltChan c e d.w3 s
    | none => pushFin c fin (chanStore c d.auxHost d.w3 (leBytes 4 v) s)
  else pushFin c fin s

/-- A MEMORY descriptor is taken in hand (R392, R393, R402). -/
def startMemory (c : Nat) (d : Desc) (s : State) : State :=
  let s1 := s.updChan c fun x =>
    let y := if x.resume then { x with next := x.done } else
      { (if d.goOn then x else freshSum x) with
        sumKind := if d.sum = 0 ∧ d.goOn then x.sumKind else d.sum, next := 0, done := 0 }
    { y with desc := some d, resume := false, tableNext := 0, table := [] }
  if (s1.chan c).done = d.length then finishData c d s1 else s1

/-! ## Transmit frames -/

/-- A transmit descriptor on its way back to software, with ERROR as given (R400). -/
def returned (err cycle : Nat) (d : Desc) : Fin :=
  { desc := d, ctrl := setField (d.ctrl - 2 ^ 31) 30 1 err, stage := 1, since := cycle }

/-- Descriptors of a discarded frame go back with ERROR set (R400). -/
def dropTx (c : Nat) (l : List Desc) (s : State) : State :=
  let back := l.map (returned 1 s.cycle)
  (s.updChan c fun x => { x with fin := x.fin ++ back }).bumpK 0x6003 7 c

/-- A transmit descriptor whose bytes are gathered joins its frame (R400). -/
def txGathered (c : Nat) (d : Desc) (s : State) : State :=
  let join := fun (f : TxFrame) => { f with descs := f.descs ++ [d], ready := d.last && !f.bad }
  let s1 := s.updChan c fun x => advance { x with desc := none, next := 0, done := 0, frame := x.frame.map join }
  match (s1.chan c).frame with
  | some f =>
    if d.last && f.bad then
      let s2 := (dropTx c f.descs s1).updChan c fun x => { x with frame := none }
      if (s2.chan c).state = 1 then startFetch c s2 else settle c s2
    else if d.last then s1
    else startFetch c s1
  | none => s1

/-- A new transmit frame starts with a descriptor (R400). -/
def newTx (d : Desc) : TxFrame :=
  { tag := if d.goOn && d.first then some (d.w1 % 65536) else none, bad := !d.first }

/-- A transmit descriptor is taken in hand (R392, R400). -/
def startTx (c : Nat) (d : Desc) (s : State) : State :=
  let s1 := match (s.chan c).frame with
    | some f => if d.first then (dropTx c f.descs s).updChan c fun x => { x with frame := some (newTx d) } else s
    | none => s.updChan c fun x => { x with frame := some (newTx d) }
  let grow := fun (f : TxFrame) =>
    { f with size := f.size + d.length, bad := f.bad || decide (15996 < f.size + d.length) }
  let s2 := s1.updChan c fun x =>
    { x with desc := some d, next := 0, done := 0, resume := false, frame := x.frame.map grow }
  match (s2.chan c).frame with
  | some f => if f.bad || d.length = 0 then txGathered c d s2 else s2
  | none => s2

/-! ## What a descriptor read brings -/

/-- The channel stands at the link descriptor just read, which CUR_DESC names when it halts there (R391). -/
def atLink (x : Chan) : Chan := { x with window := [], held := [] }

/-- A descriptor that is not a link sets HOP_COUNT to 0 (R391). -/
def clearHops (d : Desc) (x : Chan) : Chan := if d.mode = 3 then x else { x with hops := 0 }

/-- A descriptor arrives (R388 to R391). -/
def gotDesc (c : Nat) (d : Desc) (s0 : State) : State :=
  let role := chanRole s0 c
  let s := if d.own then s0.updChan c (clearHops d) else s0
  if !d.own then s.updChan c fun x => { x with waitSw := true, pollAt := s.cycle }
  else if !descOk role d then haltChan c 0x01 d.addr s
  else if d.mode = 3 then
    if chanCfg s c 7 < (s.chan c).hops + 1 then haltChan c 0x03 d.addr (s.updChan c atLink)
    else startFetch c (s.updChan c fun x => { x with hops := x.hops + 1, cur := d.w0, curHost := d.srcHost })
  else if role = 0 then (if lengthOk d then startMemory c d s else haltChan c 0x02 d.addr s)
  else if role = 1 then startTx c d s
  else
    let s1 := s.updChan c fun x => advance { x with window := x.window ++ [d] }
    if (s1.chan c).window.length < 64 then startFetch c s1 else s1

/-- DESCRIPTOR_FETCHED (R390): the outstanding descriptor read of a channel ends. For a ring in device space the bytes
are those of the memory. -/
def effDescriptorFetched (c : Nat) (r : ReadEnd) (s : State) : State :=
  let x := s.chan c
  if x.fetching.isSome && decide (c < 31) then
    let f := chanCfg s c 3
    let s1 := s.updChan c fun y => { y with fetching := none }
    let s2 := dropFetch c s1
    match r with
    | .data b =>
      if x.curHost then (if b.length = 32 then gotDesc c (descOf x.cur true b) s2 else s)
      else gotDesc c (descOf x.cur false (devRead s x.cur 32)) s2
    | .poisoned => if x.curHost then haltChan c 0x06 x.cur (readSpoilt f false s2) else s
    | .ecrc => if x.curHost then haltChan c 0x06 x.cur (readSpoilt f true s2) else s
    | .eccError => if x.curHost then s else haltChan c 0x0C x.cur (memUncorrectable x.cur s2)
    | .unsupported => s
  else s

/-! ## Cutting bursts -/

/-- Bytes up to the next multiple of `b` at or after an address (at least one). -/
def toCut (b addr : Nat) : Nat := b - addr % b

/-- The source and destination of the byte at an offset of a descriptor, and the bytes left in its element (R393). -/
def placeOf (d : Desc) (table : List Nat) (k : Nat) : Nat × Nat × Nat :=
  if d.mode = 1 then
    let i := k / d.elem
    (d.w0 + table.getD i 0 + k % d.elem, d.w1 + k, d.elem - k % d.elem)
  else if d.mode = 2 then
    let i := k / d.elem
    (d.w0 + k, d.w1 + table.getD i 0 + k % d.elem, d.elem - k % d.elem)
  else (d.w0 + k, d.w1 + k, d.length - k)

/-- The next data burst of a MEMORY descriptor: its source, destination and length (R393). -/
def nextData (d : Desc) (x : Chan) (bytes : Nat) : Nat × Nat × Nat :=
  let p := placeOf d x.table x.next
  (p.1, p.2.1, min p.2.2 (min (toCut bytes p.1) (toCut bytes p.2.1)))

/-- Two ranges overlap. -/
def rangesMeet (a n b m : Nat) : Bool := decide (a < b + m) && decide (b < a + n)

/-- The source or destination ranges of a descriptor, element by element (R394). -/
def sourceRanges (d : Desc) (table : List Nat) : List (Nat × Nat) :=
  if d.mode = 1 then (table.take d.count).map fun o => (d.w0 + o, d.elem) else [(d.w0, d.length)]
def destRanges (d : Desc) (table : List Nat) : List (Nat × Nat) :=
  if d.mode = 2 then (table.take d.count).map fun o => (d.w1 + o, d.elem) else [(d.w1, d.length)]

/-- Some range of one list meets some range of another. -/
def anyMeet (a b : List (Nat × Nat)) : Bool := a.any fun x => b.any fun y => rangesMeet x.1 x.2 y.1 y.2

/-- At most one burst of the descriptor may be in flight (R394). -/
def oneInFlight (d : Desc) (table : List Nat) : Bool :=
  let src := sourceRanges d table
  let dst := destRanges d table
  let tab := [(d.w3, 4 * d.count)]
  (d.srcHost == d.dstHost && anyMeet src dst) ||
  (d.indexed && ((d.dstHost == d.auxHost && anyMeet dst tab) || (d.srcHost == d.auxHost && anyMeet src tab)))

/-! ## Readiness and the arbiter -/

/-- LIFETIME and DEPTH of a request line (R407): lines 0 to 18 have LIFETIME 0 and DEPTH 16. -/
def lineLife (s : State) (l : Nat) : Nat := if l < 19 then 0 else s.fieldN 0x6002 l 3
def lineDepth (s : State) (l : Nat) : Nat := if l < 19 then 16 else s.fieldN 0x6002 l 4

/-- Pending requests of a line, oldest first. -/
def pendingReqs (s : State) (l : Nat) : List Req := AMap.get [] s.dma.lines l

/-- Stores the pending requests of a line. -/
def putReqs (l : Nat) (r : List Req) (s : State) : State :=
  { s with dma := { s.dma with lines := AMap.put [] s.dma.lines l r } }

/-- A pending request has passed its LIFETIME or its deadline (R399). -/
def reqExpired (s : State) (l : Nat) (r : Req) : Bool :=
  (lineLife s l != 0 && decide (r.at_ + nsCycles (lineLife s l) ≤ s.cycle)) ||
  (match r.deadline with | some (d, t) => s.reached d t | none => false)

/-- Every expired request of a line is discarded and counted (R32, R399). -/
def purgeLine (l : Nat) (s : State) : State :=
  let p := pendingReqs s l
  let left := p.filter fun r => !reqExpired s l r
  if left.length = p.length then s else (putReqs l left s).bumpBy 0x6004 4 l (p.length - left.length)

/-- The lines that hold a request. -/
def requestedLines (s : State) : List Nat := s.dma.lines.map (·.1)

/-- No burst is issued for an expired request (R32, R399). -/
def purgeLines (s : State) : State := (requestedLines s).foldl (fun s l => purgeLine l s) s

/-- What a channel would issue next. -/
structure Offer where
  host : Bool
  addr : Nat
  off : Nat
  len : Nat
  move : Move
  paced : Bool := false
deriving DecidableEq, Repr, Inhabited

/-- The next burst of a channel with a descriptor in hand, if it has one left to read (R393, R398, R400). -/
def offerOf (s : State) (c : Nat) : Option Offer :=
  let x := s.chan c
  let bytes := max 1 (chanCfg s c 8)
  match x.desc with
  | none => none
  | some d =>
    if chanRole s c = 1 then
      if x.next < d.length then
        let a := d.w0 + x.next
        some { host := true, addr := a, off := x.next, len := min (toCut bytes a) (d.length - x.next), move := .frame a }
      else none
    else if d.indexed && decide (x.tableNext < 4 * d.count) then
      let a := d.w3 + x.tableNext
      some { host := d.auxHost, addr := a, off := x.tableNext, len := min (toCut bytes a) (4 * d.count - x.tableNext),
             move := .table d.auxHost a }
    else if decide (x.next < d.length) && (!d.indexed || x.table.length == d.count) then
      let line := chanCfg s c 6
      let fifo := line == 17 || line == 18
      let n := nextData d x bytes
      let want := if fifo then min (d.length - x.next) (((pendingReqs s line).head?.map (·.bytes)).getD 0) else n.2.2
      let src := if fifo && !d.srcHost && (d.w0 == fifoPort 0 || d.w0 == fifoPort 1) then d.w0 else n.1
      some { host := d.srcHost, addr := src, off := x.next, len := want, move := .data d.srcHost src d.dstHost n.2.1,
             paced := line != 0xFF }
    else none

/-- A transmit channel in PAUSING completes the frame in progress (R402). -/
def endsFrame (s : State) (c : Nat) : Bool :=
  (s.chan c).state == 2 && chanRole s c == 1 && (s.chan c).frame.isSome

/-- A channel may issue reads in its state (R402): RUNNING; a transmit frame in progress also while PAUSING. -/
def mayIssue (s : State) (c : Nat) : Bool := ((s.chan c).state == 1 && !(s.chan c).reread) || endsFrame s c

/-- A channel is ready with an offer (R385). -/
def chanReady (s : State) (c : Nat) : Option Offer :=
  match offerOf s c with
  | none => none
  | some o =>
    let x := s.chan c
    let f := chanCfg s c 3
    let held := liveBursts s c
    let alone := match x.desc with
      | some d => chanRole s c == 0 && oneInFlight d x.table && !(openBursts s c).isEmpty
      | none => false
    if mayIssue s c && decide (held.length < chanCfg s c 9) && !alone && (!o.host || readsAllowed s f (readTlps s f o.len)) &&
       (!o.paced || (!(pendingReqs s (chanCfg s c 6)).isEmpty && decide (0 < o.len))) &&
       (chanRole s c != 1 || s.hostUp (chanCfg s c 4)) then some o
    else none

/-- The ready channels with their priorities. -/
def readyChans (s : State) : List (Nat × Nat) :=
  (upTo 31).filterMap fun c => if (chanReady s c).isSome then some (chanCfg s c 5, c) else none

/-- The channel that the arbiter grants (R385): highest PRIORITY, round robin after the channel served last. -/
def granted (s : State) : Option Nat :=
  let l := readyChans s
  let p := (l.map (·.1)).foldl max 0
  let top := (l.filter (·.1 == p)).map (·.2)
  let last := s.dma.turn.getD p 0
  ((top.find? (last < ·)).orElse fun _ => top.head?)

/-- The oldest pending paging request: its line (R385, R399). -/
def pagingLine (s : State) : Option Nat :=
  (upTo 17).foldl (fun best l =>
    match (pendingReqs s l).head? with
    | none => best
    | some r =>
      match best.bind fun b => (pendingReqs s b).head? with
      | some b => if r.at_ < b.at_ then some l else best
      | none => some l) none

/-- The paging channel issues its burst (R405). -/
def issuePage (l tag : Nat) (s : State) : State :=
  match pendingReqs s l with
  | r :: rest =>
    let p := r.page.getD (0, 0, 0)
    let s1 := (putReqs l rest s).bumpK 0x6004 3 l
    let b : Burst := { chan := 31, len := 512, move := .page p.1 p.2.1 p.2.2, at_ := s.cycle }
    ({ s1 with dma := { s1.dma with bursts := AMap.set s1.dma.bursts tag b } } : State).bumpK 0x6003 4 31
  | [] => s

/-- Bytes that a Tine FIFO port gives up (R277, R398): whole records from the head. -/
def takeFifo (k n : Nat) (s : State) : Bytes × State :=
  let m := min (n / 16) (s.fifo k).records.length
  ((s.fifo k).records.take m |>.flatten, if m = 0 then s else dropRecords k m s)

/-- A channel issues its burst as a read (R385, R386, R393). -/
def issueBurst (c tag : Nat) (o : Offer) (s : State) : State :=
  match accessError s c o.host false o.addr o.len with
  | some e => haltChan c e o.addr s
  | none =>
    let line := chanCfg s c 6
    let f := chanCfg s c 3
    let s1 := if o.paced then (putReqs line (pendingReqs s line).tail s).bumpK 0x6004 3 line else s
    let port := !o.host && (o.addr == fifoPort 0 || o.addr == fifoPort 1)
    let (pre, s2) := if port then takeFifo (line - 17) o.len s1 else ([], s1)
    let len := if port then pre.length else o.len
    let s3 := s2.updChan c fun x =>
      match o.move with
      | .table _ _ => { x with tableNext := o.off + len }
      | _ => { x with next := o.off + len }
    let tlps := if o.host then readTlps s f len else 0
    let owner := ((s.chan c).desc.map (·.addr)).getD 0
    let b : Burst :=
      { chan := c, off := o.off, len := len, move := o.move, at_ := s.cycle, pre := pre, fn := f, tlps := tlps, owner := owner }
    let s4 := ({ s3 with dma := { s3.dma with
      bursts := AMap.set s3.dma.bursts tag b,
      turn := setAt s3.dma.turn (chanCfg s c 5) c } } : State).bumpK 0x6003 4 c
    if o.host then askHost f o.addr len tag tlps s4 else s4

/-- BURST_GRANT (R385): one burst is granted where a tag is free, none for a request that has expired. -/
def effBurstGrant (s0 : State) : State :=
  if isAlive s0.chip.mode then
    let s := purgeLines s0
    match pagingLine s, freeTagIn s 0 256 with
    | some l, some t => issuePage l t s
    | _, _ =>
      match granted s, freeTagIn s 256 3840 with
      | some c, some t =>
        match chanReady s c with
        | some o => issueBurst c t o s
        | none => s
      | _, _ => s
  else s0

/-! ## Data arriving and writes issued -/

/-- The offset that the channel's next write has: table bytes read, or DONE_BYTES. -/
def expected (x : Chan) (b : Burst) : Nat :=
  match b.move with
  | .table _ _ => 4 * x.table.length
  | _ => x.done

/-- The 32-bit offsets of table bytes (R393). -/
def tableWords : Nat → Bytes → List Nat
  | 0, _ => []
  | n + 1, b => if b.isEmpty then [] else leNat (b.take 4) :: tableWords n (b.drop 4)

/-- The tag of a written burst is freed, or held for the barrier (R386). -/
def retireTag (tag : Nat) (b : Burst) (keep : Bool) (s : State) : State :=
  if keep then { s with dma := { s.dma with bursts := AMap.set s.dma.bursts tag { b with written := true } } }
  else freeTag tag s

/-- Bytes join a transmit frame (R400). -/
def TxFrame.add (data : Bytes) (f : TxFrame) : TxFrame := { f with bytes := f.bytes ++ data }

/-- A burst's write is issued (R385, R393, R395, R403). -/
def writeBurst (tag : Nat) (b : Burst) (data : Bytes) (s : State) : State :=
  let c := b.chan
  match (s.chan c).desc with
  | none => freeTag tag s
  | some d =>
    match b.move with
    | .table _ _ =>
      freeTag tag (s.updChan c fun x => { x with table := x.table ++ tableWords (data.length / 4) data })
    | .frame _ =>
      let s1 := (freeTag tag s).updChan c fun x =>
        { x with done := x.done + data.length, frame := x.frame.map (TxFrame.add data) }
      let s2 := s1.bumpBy 0x6003 3 c data.length
      if (s2.chan c).done = d.length then txGathered c d s2 else s2
    | .data _ _ host dst =>
      match accessError s c host true dst data.length with
      | some e => haltChan c e dst s
      | none =>
        let s1 := (retireTag tag b d.barrier (chanStore c host dst data s)).updChan c fun x =>
          sumBytes d data { x with done := x.done + data.length }
        let s2 := s1.bumpBy 0x6003 3 c data.length
        if (s2.chan c).done = d.length then finishData c d s2 else s2
    | .page _ _ _ => s

/-- The channel's burst that may be written now: the next in transfer order, its data arrived. -/
def writable (s : State) (c : Nat) : Option (Nat × Burst × Bytes) :=
  (openBursts s c).findSome? fun e =>
    match e.2.data with
    | some b => if e.2.off = expected (s.chan c) e.2 then some (e.1, e.2, b) else none
    | none => none

/-- Every write that may now be issued, in order. -/
def drainWrites (c : Nat) : Nat → State → State
  | 0, s => s
  | n + 1, s =>
    match writable s c with
    | some (t, b, data) => drainWrites c n (writeBurst t b data s)
    | none => s

/-- The address a burst reads from, and its space. -/
def Burst.source (b : Burst) : Bool × Nat :=
  match b.move with
  | .data h a _ _ => (h, a)
  | .table h a => (h, a)
  | .frame a => (true, a)
  | .page _ _ _ => (false, 0)

/-- A burst's data has arrived (R385). -/
def burstArrived (tag : Nat) (b : Burst) (data : Bytes) (s : State) : State :=
  let s1 := { s with dma := { s.dma with bursts := AMap.set s.dma.bursts tag { b with data := some data } } }
  settle b.chan (drainWrites b.chan s1.dma.bursts.length s1)

/-- The read of a paging burst ends (R405): the quarter is in its slot, or the page is late (R492). -/
def pageRead (tag : Nat) (b : Burst) (r : ReadEnd) (s : State) : State :=
  match b.move, r with
  | .page p j q, .data _ =>
    let s1 := (freeTag tag s).bumpBy 0x6003 3 31 512
    if (s.gate p).requested.any (·.1 == j) then moveQuarter p j q s1 else s1
  | .page p j q, .eccError => freeTag tag (memUncorrectable (quarterAt (s.gate p).master j q) s)
  | _, _ => s

/-- BURST_READ_DONE (R385, R404). A read of device space takes its bytes from the unit read. -/
def effBurstReadDone (tag : Nat) (r : ReadEnd) (s : State) : State :=
  match AMap.find s.dma.bursts tag with
  | none => s
  | some b =>
    if b.aborted || b.data.isSome then s
    else if b.chan = 31 then pageRead tag b r s
    else
      let (host, addr) := b.source
      let f := b.fn
      let s1 := endReads b.fn b.tlps s
      match r with
      | .data bytes =>
        if host then (if bytes.length = b.len then burstArrived tag b bytes s1 else s)
        else burstArrived tag b (if b.pre.isEmpty then devRead s addr b.len else b.pre) s1
      | .poisoned => if host then haltChan b.chan 0x06 addr (readSpoilt f false (freeTag tag s1)) else s
      | .ecrc => if host then haltChan b.chan 0x06 addr (readSpoilt f true (freeTag tag s1)) else s
      | .eccError => if host then s else haltChan b.chan 0x0C addr (memUncorrectable addr (freeTag tag s1))
      | .unsupported => s

/-- LATE_COMPLETION (R404): read data of an aborted burst is dropped by its tag, which is then freed; a completion from the host
is logged as Unexpected Completion (R376). -/
def effLateCompletion (tag : Nat) (s : State) : State :=
  match AMap.find s.dma.bursts tag with
  | some b =>
    if b.aborted then
      let s1 := endReads b.fn b.tlps ((freeTag tag s).bumpK 0x6003 6 b.chan)
      if b.source.1 then noteAer b.fn 16 true s1 else s1
    else s
  | none => s

/-! ## Placing received frames -/

/-- The bursts that a range is cut into (R386, R393): address and length of each. -/
def cutsOf (bytes : Nat) : Nat → Nat → Nat → List (Nat × Nat)
  | 0, _, _ => []
  | n + 1, addr, len =>
    if len = 0 then [] else
      let k := min len (toCut bytes addr)
      (addr, k) :: cutsOf bytes n (addr + k) (len - k)

/-- A tag is held for a write burst of a received frame until its write is acknowledged (R386, DEDUCED, log entry 54). -/
def holdTag (c : Nat) (d : Desc) (cut : Nat × Nat) (s : State) : State :=
  match freeTagIn s 256 3840 with
  | some t =>
    let b : Burst :=
      { chan := c, off := cut.1 - d.w0, len := cut.2, move := .data false 0 true cut.1, at_ := s.cycle, data := some [],
        fn := chanCfg s c 3, owner := d.addr, written := true }
    { s with dma := { s.dma with bursts := AMap.set s.dma.bursts t b } }
  | none => s

/-- A part of a frame is written into its descriptor's buffer (R401). -/
def placePiece (c : Nat) (f : Fin) (part : Bytes) (s : State) : State :=
  let cuts := cutsOf (max 1 (chanCfg s c 8)) part.length f.desc.w0 part.length
  let s1 := ((chanStore c true f.desc.w0 part s).bumpBy 0x6003 3 c part.length).bumpBy 0x6003 4 c cuts.length
  pushFin c f (if f.desc.barrier then cuts.foldl (fun s k => holdTag c f.desc k s) s1 else s1)

/-- A barrier of the channel is not passed yet, so that no further descriptor starts (R396). -/
def barred (s : State) (c : Nat) : Bool := (s.chan c).fin.any fun f => f.stage == 0

/-- The parts of delivered frames that may be placed, in order, up to the next barrier (R396, R401). -/
def placeMore (c : Nat) : Nat → State → State
  | 0, s => s
  | n + 1, s =>
    match (s.chan c).placing with
    | (f, part) :: r =>
      if barred s c then s
      else
        match accessError s c true true f.desc.w0 part.length with
        | some e => haltChan c e f.desc.w0 s
        | none => placeMore c n (placePiece c f part (s.updChan c fun x => { x with placing := r }))
    | [] => s

/-! ## Barrier and writeback -/

/-- Changes the head of a channel's writeback queue. -/
def State.updFin (s : State) (c : Nat) (f : Fin → Fin) : State :=
  s.updChan c fun x => { x with fin := match x.fin with | h :: r => f h :: r | [] => [] }

/-- A descriptor leaves the writeback queue: DONE pulses, and a MEMORY channel goes on (R397). -/
def finDone (c : Nat) (s : State) : State :=
  let s1 := pulse (101 + c) (s.updChan c fun x => { x with fin := x.fin.tail })
  if chanRole s c = 0 then
    let s2 := s1.updChan c fun x => advance { x with desc := none, next := 0, done := 0 }
    if (s2.chan c).state = 1 then startFetch c s2 else settle c s2
  else settle c s1

/-- The first descriptor that awaits its barrier has passed it. -/
def passFirst (cycle : Nat) : List Fin → List Fin
  | [] => []
  | f :: r => if f.stage = 0 then { f with stage := 1, since := cycle } :: r else f :: passFirst cycle r

/-- A barrier is passed (R396): its descriptor's tags are given back (R386), and the next descriptor may start. -/
def passBarrier (c : Nat) (f : Fin) (s : State) : State :=
  let s1 := s.updChan c fun x => { x with fin := passFirst s.cycle x.fin }
  let s2 := freeWritten c f.desc.addr (if f.host then endReads f.fn 1 s1 else s1)
  settle c (placeMore c (s2.chan c).placing.length s2)

/-- A data write is acknowledged: its tag is given back (R386). -/
def writeAcked (c : Nat) (s : State) : State :=
  match oldestWritten s c with
  | some t => freeTag t s
  | none => s

/-- WRITE_ACKNOWLEDGED (R386, R396, R397): the barrier of the oldest descriptor that awaits one is passed, or its CTRL write has
arrived, or, with neither awaited, the oldest data write is acknowledged. -/
def effWriteAcknowledged (c : Nat) (s : State) : State :=
  match (s.chan c).fin.find? (·.stage != 1) with
  | some f => if f.stage = 2 then finDone c s else if f.asked then passBarrier c f s else writeAcked c s
  | none => writeAcked c s

/-- The writeback of R397: first the other fields, then CTRL. -/
def writeBack (c : Nat) (f : Fin) (s : State) : State :=
  let d := f.desc
  let s1 := match f.stamp with | some v => chanStore c d.host (d.addr + 8) (leBytes 8 v) s | none => s
  let s2 := match f.word with | some v => chanStore c d.host (d.addr + 20) (leBytes 4 v) s1 | none => s1
  chanStore c d.host (d.addr + 16) (leBytes 4 f.ctrl) s2

/-- DESCRIPTOR_COMPLETE (R397): the writeback of the oldest complete descriptor. -/
def effDescriptorComplete (c : Nat) (s : State) : State :=
  match (s.chan c).fin with
  | f :: _ =>
    if f.stage = 1 ∧ ((s.chan c).state = 1 ∨ (s.chan c).state = 2 ∨ chanRole s c ≠ 0) then
      match accessError s c f.desc.host true f.desc.addr 32 with
      | some e => if (s.chan c).state = 4 then s else haltChan c e f.desc.addr s
      | none =>
        let s1 := ((writeBack c f s).bumpK 0x6003 2 c).updChan c fun x =>
          { x with completed := (x.completed + 1) % 2 ^ 32 }
        if f.desc.barrier && chanRole s c != 1 then s1.updFin c fun x => { x with stage := 2, since := s.cycle }
        else finDone c s1
    else s
  | [] => s

/-! ## Host frame rings -/

/-- HOST_TX_FRAME (R400): the frame between FIRST and LAST enters pipeline 0 of S16 as received on the host port. -/
def effHostTxFrame (c : Nat) (s : State) : State :=
  match (s.chan c).frame with
  | some f =>
    if f.ready then
      let b := padTo (max 60 f.bytes.length) f.bytes
      let s1 := enterFrame
        { bytes := b, source := 256 + chanCfg s c 4, stamps := stampsNow s 0, steps := stepsNow s, hostTag := f.tag } s
      let back := f.descs.map (returned 0 s.cycle)
      let s2 := s1.updChan c fun x => { x with frame := none, fin := x.fin ++ back }
      if (s2.chan c).state = 1 then startFetch c s2 else settle c s2
    else s
  | none => s

/-- The HOST_RX channel of a host port. -/
def rxChan (s : State) (h : Nat) : Option Nat :=
  (upTo 31).find? fun c => chanRole s c == 2 && chanCfg s c 4 == h

/-- The HOST_RX channel asks its port for a frame (R401, R402): it has write tags free and is neither PAUSING nor
PAUSED. -/
def hostAsks (s : State) (h : Nat) : Bool :=
  match rxChan s h with
  | some c => (s.chan c).state != 2 && (s.chan c).state != 3 && (freeTagIn s 256 3840).isSome
  | none => false

/-- The descriptors at the head of a window that together hold a length. -/
def takeDescs (len : Nat) : List Desc → Option (List Desc)
  | [] => none
  | d :: r => if len ≤ d.length then some [d] else (takeDescs (len - d.length) r).map (d :: ·)

/-- At selection the descriptors for a frame are set aside (R401); none where the ring does not hold it. -/
def rxReserve (c len : Nat) (s : State) : Option State :=
  let x := s.chan c
  if x.state = 1 then
    match takeDescs len x.window with
    | some l =>
      let s1 := s.updChan c fun x => { x with held := l, window := x.window.drop l.length }
      some (if x.fetching.isNone && !x.waitSw && decide (64 ≤ x.window.length) then startFetch c s1 else s1)
    | none => none
  else none

/-- The writebacks and data writes of a placed frame, descriptor by descriptor (R392, R401). -/
def rxPieces (hdr : Carriage) (total cycle : Nat) (err : Bool) : Bool → Bytes → List Desc → List (Fin × Bytes)
  | _, _, [] => []
  | first, b, d :: r =>
    let part := b.take d.length
    let lastOne := r.isEmpty
    let info := (if lastOne then total else 0) + hdr.source % 512 * 2 ^ 14 + hdr.tc % 8 * 2 ^ 23 + b2n err * 2 ^ 26
    let c0 := setField (setField d.ctrl 0 20 part.length) 31 1 0
    let ctrl := setField (setField (setField c0 27 1 (b2n (first && !part.isEmpty))) 28 1 (b2n lastOne)) 30 1 (b2n err)
    let stamp := hdr.stampNs % 2 ^ 40 + hdr.stampFrac % 4 * 2 ^ 40 + hdr.stampDomain % 8 * 2 ^ 42
    ({ desc := d, stamp := some stamp, word := some info, ctrl := ctrl,
       stage := if d.barrier then 0 else 1, since := cycle }, part) ::
      rxPieces hdr total cycle err (first && part.isEmpty) (b.drop d.length) r

/-- A delivered frame is written into the descriptors set aside for it (R401). -/
def rxDeliver (c : Nat) (hdr : Carriage) (err : Bool) (b : Bytes) (s : State) : State :=
  let l := (s.chan c).held
  let pieces := rxPieces hdr b.length s.cycle err true b l
  let s1 := s.updChan c fun x => { x with held := [], placing := x.placing ++ pieces }
  if l.isEmpty then s1 else settle c (placeMore c (s1.chan c).placing.length s1)

/-! ## Registers -/

/-- RUN of CONTROL (R390, R402). -/
def effRun (f c : Nat) (s : State) : State :=
  chanWrite f c (fun s =>
    let x := s.chan c
    if x.state = 0 then
      startFetch c (s.updChan c fun x => freshSum
        { x with state := 1, cur := x.ringBase, curHost := x.ringHost, error := 0, next := 0, done := 0, resume := false })
    else if x.state = 4 then
      if x.pause then s.updChan c fun x => { x with state := 3, error := 0 }
      else startFetch c (s.updChan c fun x => { x with state := 1, error := 0 })
    else if x.state = 1 ∧ x.waitSw then startFetch c s
    else s) s

/-- A channel in PAUSING is told to continue (R402): it reads the descriptor at CUR_DESC again. A MEMORY channel does so once its
open bursts are written; a receive channel turns back to the first descriptor that no frame has been given; a transmit
channel has not stopped inside its frame and only looks again at a descriptor that software owned (DEDUCED, log entry 54). -/
def carryOn (c : Nat) (s : State) : State :=
  let s1 := s.updChan c fun x => { x with state := 1 }
  if chanRole s c = 0 then settle c (s1.updChan c fun x => { x with reread := true })
  else if chanRole s c = 1 then (if (s.chan c).waitSw then startFetch c s1 else s1)
  else startFetch c ((dropFetch c s1).updChan c rewind)
where
  /-- The descriptors read ahead that no frame has been given are read again. -/
  rewind (x : Chan) : Chan :=
    match x.window with
    | d :: _ => { x with cur := d.addr, curHost := d.host, window := [], fetching := none }
    | [] => { x with fetching := none }

/-- PAUSE of CONTROL (R402). -/
def effPause (f c : Nat) (v : Bool) (s : State) : State :=
  chanWrite f c (fun s =>
    let s1 := s.updChan c fun x => { x with pause := v }
    match v, (s.chan c).state with
    | true, 1 => settle c (s1.updChan c fun x => { x with state := 2 })
    | false, 2 => carryOn c s1
    | false, 3 => startFetch c (s1.updChan c fun x => { x with state := 1 })
    | _, _ => s1) s

/-- ABORT of CONTROL (R402). -/
def effAbort (f c : Nat) (s : State) : State :=
  chanWrite f c (fun s =>
    let x := s.chan c
    if x.state = 1 ∨ x.state = 2 ∨ x.state = 3 then haltChan c 0x0B (curDesc x).1 s else s) s

/-- A channel in IDLE with reset registers, apart from the ring registers (R402). -/
def resetChan (x : Chan) : Chan := { ringBase := x.ringBase, ringSize := x.ringSize, ringHost := x.ringHost }

/-- RESET of a channel (R402). -/
def dmaReset (c : Nat) (s : State) : State :=
  (abortBursts c (endPartFrame c (dropFetch c (dropBarriers c s)))).updChan c resetChan

/-- RESET of CONTROL. -/
def effChannelReset (f c : Nat) (s : State) : State := chanWrite f c (dmaReset c) s

/-- A channel waiting for software reads its descriptor again (R390), also one in PAUSING that completes a frame (R402). -/
def retryFetch (c : Nat) (s : State) : State :=
  if ((s.chan c).state = 1 ∨ endsFrame s c) ∧ (s.chan c).waitSw then startFetch c s else s

/-- DOORBELL of CONTROL (R390). -/
def effDoorbell (f c : Nat) (s : State) : State := chanWrite f c (retryFetch c) s

/-- The first barrier read that has waited for the read limit goes out. -/
def askFirst (cycle : Nat) : List Fin → List Fin
  | [] => []
  | f :: r => if f.asked then f :: askFirst cycle r else { f with asked := true, since := cycle } :: r

/-- A channel's reads that wait for the read limit of R376 go out as soon as it lets them. -/
def kickChan (s : State) (c : Nat) : State :=
  let s1 := if (s.chan c).wants && ((s.chan c).state == 1 || endsFrame s c) then startFetch c s else s
  match (s1.chan c).fin.find? (!·.asked) with
  | some f =>
    if readsAllowed s1 f.fn 1 then askBarrier c f.fn f (s1.updChan c fun x => { x with fin := askFirst s.cycle x.fin }) else s1
  | none => s1

/-- The waiting reads of every channel. -/
def kickReads (s : State) : State := (upTo 31).foldl kickChan s

/-- POLL_INTERVAL_EXPIRY (R390). -/
def effPollIntervalExpiry (c : Nat) (s : State) : State :=
  let x := s.chan c
  if 0 < x.poll ∧ x.pollAt + usCycles x.poll ≤ s.cycle then retryFetch c s else s

/-- A write of a channel's plain registers (R409): the ring registers in IDLE only, and POLL_INTERVAL. -/
def dmaRegWrite (c reg v : Nat) (s : State) : State :=
  s.updChan c fun x =>
    if reg = 0x34 then { x with poll := v % 65536 }
    else if x.state ≠ 0 then x
    else if reg = 0x00 then { x with ringBase := setField x.ringBase 0 32 (v - v % 32) }
    else if reg = 0x04 then { x with ringBase := setField x.ringBase 32 32 v }
    else if reg = 0x08 then { x with ringSize := max 1 (min 65536 (v % 2 ^ 17)), ringHost := bit v 31 }
    else x

/-! ## Timeouts -/

/-- The limit of a device-space access in core cycles (R407). -/
def deviceLimit (s : State) : Nat := usCycles (s.cfgN 0x6000 1)

/-- An access of a channel has gone unanswered for its limit (R404): that of the host for host space, DEVICE_TIMEOUT for device
space. -/
def unanswered (s : State) (host : Bool) (f at_ : Nat) : Bool :=
  if host then hostLate s f at_ else decide (at_ + deviceLimit s ≤ s.cycle)

/-- The READ_TIMEOUT or WRITE_TIMEOUT that a channel has now: its code and address, and the function of a host read (R404). -/
def timedOut (s : State) (c : Nat) : Option (Nat × Nat × Option Nat) :=
  let x := s.chan c
  let inHost := fun (host : Bool) (f : Nat) => if host then some f else none
  match x.fetching with
  | some t =>
    let f := x.fetchFn.getD (chanCfg s c 3)
    if unanswered s x.curHost f t then some (0x04, x.cur, inHost x.curHost f) else none
  | none =>
    match (openBursts s c).find? fun e => e.2.data.isNone && unanswered s e.2.source.1 e.2.fn e.2.at_ with
    | some e => some (0x04, e.2.source.2, inHost e.2.source.1 e.2.fn)
    | none =>
      match x.fin.find? fun f => (f.stage == 0 || f.stage == 2) && f.asked && unanswered s f.host f.fn f.since with
      | some f => some (0x05, f.desc.addr, inHost f.host f.fn)
      | none => none

/-- DMA_TIMEOUT (R404). -/
def effDmaTimeout (c : Nat) (s : State) : State :=
  if c < 31 ∧ ((s.chan c).state = 1 ∨ (s.chan c).state = 2) then
    match timedOut s c with
    | some (code, addr, host) =>
      haltChan c code addr (match host with | some f => readLost f s | none => s)
    | none => s
  else s

/-! ## Request lines -/

/-- The oldest owed request of a line and the list without it. -/
def takeOwed (l : Nat) : List (Nat × Req) → Option (Req × List (Nat × Req))
  | [] => none
  | (k, r) :: rest => if k = l then some (r, rest) else (takeOwed l rest).map fun x => (x.1, (k, r) :: x.2)

/-- REQUEST_PULSE (R398, R399): the line receives its oldest request; at DEPTH the oldest pending one is discarded. Requests that
have expired are gone before (R32). -/
def effRequestPulse (l : Nat) (s : State) : State :=
  match takeOwed l s.dma.owed with
  | some (r, rest) =>
    let s1 := purgeLine l (({ s with dma := { s.dma with owed := rest } } : State).bumpK 0x6004 2 l)
    let p := pendingReqs s1 l
    if lineDepth s l ≤ p.length then (putReqs l (p.drop 1 ++ [r]) s1).bumpK 0x6004 5 l
    else putReqs l (p ++ [r]) s1
  | none => s

/-- REQUEST_EXPIRED (R399): the oldest expired request of a line is discarded. -/
def effRequestExpired (l : Nat) (s : State) : State :=
  match (pendingReqs s l).find? (reqExpired s l) with
  | some r => (putReqs l ((pendingReqs s l).erase r) s).bumpK 0x6004 4 l
  | none => s

/-- A pulse of an event-matrix line requests on the request lines that name it (R398, R407). -/
def lineRequests (line : Nat) (s : State) : State :=
  ((imgTable s.cfg.running 0x6002).filter fun e => s.fieldN 0x6002 e.1 2 == line).foldl
    (fun s e => oweRequest e.1 { at_ := s.cycle } s) s

/-! ## LOAD, cutover, function reset -/

/-- Entry to LOAD resets every channel (R406). -/
def dmaLoad (s : State) : State := (upTo 31).foldl (fun s c => dmaReset c s) s

/-- A channel whose row changed at a cutover is aborted and halts with RECONFIGURED (R406). -/
def cutChan (old : Image) (s : State) (c : Nat) : State :=
  let x := s.chan c
  if imgRow old 0x6001 c ≠ imgRow s.cfg.running 0x6001 c ∧ (x.state = 1 ∨ x.state = 2 ∨ x.state = 3) then
    haltChan c 0x0D (curDesc x).1 s
  else s

/-- Channels at a cutover. -/
def dmaCutover (old : Image) (s : State) : State := (upTo 31).foldl (cutChan old) s

/-- The channels of a reset function whose ring is in host space halt (R382, R404). -/
def dmaFunctionReset (f : Nat) (s : State) : State :=
  (upTo 31).foldl (fun s c =>
    let x := s.chan c
    if chanCfg s c 3 = f ∧ x.ringHost ∧ (x.state = 1 ∨ x.state = 2 ∨ x.state = 3) then
      haltChan c 0x0A (curDesc x).1 s
    else s) s

/-! ## The meanings -/

/-- DESCRIPTOR_FETCHED: answers the state after its effect. -/
def execDescriptorFetched (c : Nat) (r : ReadEnd) (s : State) : Answer := .next (effDescriptorFetched c r s)

/-- BURST_GRANT: answers the state after its effect. -/
def execBurstGrant (s : State) : Answer := .next (effBurstGrant s)

/-- BURST_READ_DONE: answers the state after its effect. -/
def execBurstReadDone (tag : Nat) (r : ReadEnd) (s : State) : Answer := .next (effBurstReadDone tag r s)

/-- LATE_COMPLETION: answers the state after its effect. -/
def execLateCompletion (tag : Nat) (s : State) : Answer := .next (effLateCompletion tag s)

/-- WRITE_ACKNOWLEDGED: answers the state after its effect. -/
def execWriteAcknowledged (c : Nat) (s : State) : Answer := .next (effWriteAcknowledged c s)

/-- DESCRIPTOR_COMPLETE: answers the state after its effect. -/
def execDescriptorComplete (c : Nat) (s : State) : Answer := .next (effDescriptorComplete c s)

/-- HOST_TX_FRAME: answers the state after its effect. -/
def execHostTxFrame (c : Nat) (s : State) : Answer := .next (effHostTxFrame c s)

/-- RUN: answers the state after its effect. -/
def execRun (f : Nat) (c : Nat) (s : State) : Answer := .next (effRun f c s)

/-- PAUSE: answers the state after its effect. -/
def execPause (f : Nat) (c : Nat) (v : Bool) (s : State) : Answer := .next (effPause f c v s)

/-- ABORT: answers the state after its effect. -/
def execAbort (f : Nat) (c : Nat) (s : State) : Answer := .next (effAbort f c s)

/-- CHANNEL_RESET: answers the state after its effect. -/
def execChannelReset (f : Nat) (c : Nat) (s : State) : Answer := .next (effChannelReset f c s)

/-- DOORBELL: answers the state after its effect. -/
def execDoorbell (f : Nat) (c : Nat) (s : State) : Answer := .next (effDoorbell f c s)

/-- POLL_INTERVAL_EXPIRY: answers the state after its effect. -/
def execPollIntervalExpiry (c : Nat) (s : State) : Answer := .next (effPollIntervalExpiry c s)

/-- DMA_TIMEOUT: answers the state after its effect. -/
def execDmaTimeout (c : Nat) (s : State) : Answer := .next (effDmaTimeout c s)

/-- REQUEST_PULSE: answers the state after its effect. -/
def execRequestPulse (l : Nat) (s : State) : Answer := .next (effRequestPulse l s)

/-- REQUEST_EXPIRED: answers the state after its effect. -/
def execRequestExpired (l : Nat) (s : State) : Answer := .next (effRequestExpired l s)

end Sys2Proof.Machine
end

