-- ==== Sys2Proof/Machine/Egress.lean ====
section
/-!
DEFINITION. Egress (R217 to R231, R301 to R306, R113 to R120, R204 to R206, R266 to R273): eligibility, selection,
charging, shapers, disposal of the selected frame, transmission and its fragments.
-/
namespace Sys2Proof.Machine

/-! ## Shapers -/

/-- A SHAPER field of a queue (R234). -/
def shaperCfg (s : State) (p tc sub : Nat) : Nat := s.fieldN 0x1300 (queueKey p tc) sub

/-- KIND of a queue's shaper: 0 none, 1 token bucket, 2 credit-based; service port 6 has none (R217). -/
def shaperKind (s : State) (p tc : Nat) : Nat := if p = 262 then 0 else shaperCfg s p tc 2

/-- inc of R226, in 2^-32 byte a core cycle. -/
def shaperInc (s : State) (p tc : Nat) : Nat := rateInc (shaperCfg s p tc 3)

/-- BURST in 2^-32 byte. -/
def shaperBurst (s : State) (p tc : Nat) : Int := (shaperCfg s p tc 4 * 2 ^ 32 : Nat)

/-- The reset value of a shaper (R229). -/
def shaperReset (s : State) (p tc : Nat) : Int := if shaperCfg s p tc 5 = 0 then shaperBurst s p tc else 0

/-- A shaper takes its reset value (R229). -/
def resetShaper (p tc : Nat) (s : State) : State :=
  if shaperKind s p tc = 0 then s else s.updQueue p tc fun q => { q with shaper := shaperReset s p tc }

/-- A queue holds a frame linked by a core cycle. -/
def nonEmptyAt (n : Nat) (q : Queue) : Bool := q.refs.any fun r => decide (r.linkedAt ≤ n)

/-- The refill of a shaper in a core cycle (R226, R227). -/
def shaperStep (s : State) (p tc : Nat) (q : Queue) : Queue :=
  let v := q.shaper + (shaperInc s p tc : Int)
  let full := shaperBurst s p tc
  if shaperKind s p tc = 1 then { q with shaper := min full v }
  else
    let busy := nonEmptyAt s.cycle q
    let grown := if gateOpen s p tc 0 && (busy || decide (q.shaper < 0)) then v else q.shaper
    { q with shaper := if busy then min full grown else grown }

/-- The end of a core cycle for a credit-based shaper: a positive credit of an empty queue becomes 0 (R227). -/
def shaperEnd (s : State) (p tc : Nat) (q : Queue) : Queue :=
  if shaperKind s p tc = 2 ∧ nonEmptyAt s.cycle q = false then { q with shaper := min 0 q.shaper } else q

/-- The queues with a shaper: the SHAPER rows whose KIND is not 0. -/
def shapedQueues (s : State) : List (Nat × Nat) :=
  ((imgTable s.cfg.running 0x1300).filter fun e => s.fieldN 0x1300 e.1 2 != 0).map fun e => (e.1 / 8, e.1 % 8)

/-- The end of a core cycle for every shaper. -/
def endShapers (s : State) : State :=
  (shapedQueues s).foldl (fun s x => s.updQueue x.1 x.2 (shaperEnd s x.1 x.2)) s

/-- The refill of every shaper. -/
def tickShapers (s : State) : State :=
  (shapedQueues s).foldl (fun s x => s.updQueue x.1 x.2 (shaperStep s x.1 x.2)) s

/-- Every shaper takes its reset value (R229). -/
def resetShapers (s : State) : State := (shapedQueues s).foldl (fun s x => resetShaper x.1 x.2 s) s

/-! ## Queues -/

/-- A queue is strict (R217, R221). -/
def isStrict (s : State) (p tc : Nat) : Bool :=
  p == 262 || s.fieldN 0x1200 (queueKey p tc) 2 == 1 || isProtected s s.cfg.running p tc

/-- QUANTUM of a queue. -/
def quantumOf (s : State) (p tc : Nat) : Nat := s.fieldN 0x1200 (queueKey p tc) 3

/-- The head of a queue: linked in an earlier core cycle (R219). -/
def headRef (s : State) (p tc : Nat) : Option Ref :=
  match (s.queue p tc).refs with
  | r :: _ => if r.linkedAt < s.cycle then some r else none
  | [] => none

/-- The device state lets a port transmit (R67 to R69): line and host ports in ARMED and RUN, management ports and
service port 6 from LOAD onwards. -/
def egressOn (s : State) (p : Nat) : Bool :=
  if p = 260 ∨ p = 261 ∨ p = 262 then isAlive s.chip.mode else isActive s.chip.mode

/-! ## Selection instant -/

/-- When the fragment in transmission leaves the line to the express MAC (R115): after the boundary and its mCRC, or
after the whole frame, and the gap. -/
def fragmentClears (s : State) (p : Nat) (t : Tx) : Nat :=
  match stopFrom s p (nowPs s) t with
  | some (b, _) => t.start + (8 + b + 4 + 12) * byteTime s p
  | none => t.start + (8 + fragRest t + 12) * byteTime s p

/-- The start of the preamble of a frame selected now, in picoseconds: the line free, and the preemptable MAC waited
for (R111, R115, R301). -/
def startPs (s : State) (p : Nat) : Nat :=
  let line := max (nowPs s) (s.port p).freeAt
  match (s.port p).pre with
  | some t => if t.active then max line (fragmentClears s p t) else line
  | none => line

/-- When the line is free of the frame in transmission, its gap included. -/
def lineFreeAt (s : State) (p : Nat) : Nat :=
  match (s.port p).tx with
  | some t => t.start + (8 + t.bytes.length + 4 + 12) * byteTime s p
  | none => (s.port p).freeAt

/-- s of R301 for the head of a class: the line free, and for a preemptable class the preemptable frame of the port
complete (R115). -/
def headStart (s : State) (p tc : Nat) : Nat :=
  let line := max (nowPs s) (lineFreeAt s p)
  match (s.port p).pre with
  | some t =>
    if preemptable s p tc then
      if t.active then max line (t.start + (8 + fragRest t + 12) * byteTime s p)
      else line + (8 + fragRest t + 12) * byteTime s p
    else if t.active then max line (fragmentClears s p t)
    else line
  | none => line

/-- The answer of the gate engine (R301). -/
inductive Admit where
  | closed | guard | yes | stop
deriving DecidableEq, Repr, Inhabited

/-- The preemptable MAC starts no fragment at an offset (R119, R301, R304): a hold is in force there, or one issued ahead of its
entry stands and the entry is still to come. -/
def heldAt (s : State) (p : Nat) (o : Int) : Bool :=
  holdAt s p o ||
  ((s.gate p).hold && !holdAt s p 0 && decide (o < (segmentAt s p (holdAhead s p)).start))

/-- admits of R301 for a frame or continuation of length l, FCS included, starting at a picosecond instant. -/
def admits (s : State) (p tc l start : Nat) : Admit :=
  if (gateObj p).isNone then .yes
  else
    let o := startOffset s p start
    let pre := preemptable s p tc
    let close := closeAt s p tc o
    if !gateOpen s p tc o || (pre && gatesRun s p && heldAt s p o) then .closed
    else if endsBy s p start (8 + l) close then .yes
    else if pre && decide (minFragment s p + 64 ≤ l) && endsBy s p start (8 + minFragment s p + 4) close then .stop
    else .guard

/-! ## Eligibility -/

/-- A pause holds a class (R112): one received in this core cycle acts from the next on (R219). -/
def pauseHolds (s : State) (p tc : Nat) : Bool :=
  let x := s.port p
  decide (s.cycle < (if x.pauseAt = s.cycle then x.pauseWas else x.pauseUntil)) && !isProtected s s.cfg.running p tc

/-- The shaper permits the head (R226, R227). -/
def shaperPermits (s : State) (p tc : Nat) : Bool := shaperKind s p tc == 0 || decide (0 ≤ (s.queue p tc).shaper)

/-- HEAD_STATE of a queue (R235): 0 empty, 1 eligible, 2 not admitted by the gate engine, 3 held by the shaper,
4 paused, 5 waiting for the preemptable MAC. -/
def headState (s : State) (p tc : Nat) : Nat :=
  match headRef s p tc with
  | none => 0
  | some r =>
    let a := admits s p tc (refForm s p r).length (headStart s p tc)
    if a = .closed ∨ a = .guard then 2
    else if !shaperPermits s p tc then 3
    else if pauseHolds s p tc then 4
    else if preemptable s p tc && (s.port p).pre.isSome then 5
    else 1

/-- The head failed only one condition of R219 (R236). -/
def failedOnly (s : State) (p tc cond : Nat) : Bool :=
  match headRef s p tc with
  | none => false
  | some r =>
    let a := admits s p tc (refForm s p r).length (headStart s p tc)
    let fails := [a == .closed || a == .guard, !shaperPermits s p tc, pauseHolds s p tc,
      preemptable s p tc && (s.port p).pre.isSome]
    (fails.filter id).length == 1 && fails.getD cond false

/-- GUARD_BAND_WAITS counts a head at its first refusal by the guard band (R301). -/
def noteGuard (p tc : Nat) (s : State) : State :=
  match headRef s p tc with
  | none => s
  | some r =>
    if !r.waited && admits s p tc (refForm s p r).length (headStart s p tc) == .guard then
      (s.updQueue p tc fun q =>
        { q with refs := match q.refs with | x :: l => { x with waited := true } :: l | [] => [] }).bumpPort p 0x87
    else s

/-- The head is oversize for its window (R303, R483). -/
def oversizeHead (s : State) (p tc : Nat) (r : Ref) : Bool :=
  match maxWindow s p tc with
  | none => false
  | some w =>
    let l := (refForm s p r).length
    let need := if preemptable s p tc then min (8 + l) (8 + minFragment s p + 64) else 8 + l
    decide (w * 1000 < domainPs s p (need * byteTime s p))

/-- CLOSE of a decision made now (R452): the next closing of the class. -/
def closeNow (s : State) (p tc : Nat) (o : Int) : Int := (closeAt s p tc o).getD 0

/-- An oversize head is dropped (R303). -/
def dropOversize (p tc : Nat) (s : State) : State :=
  match headRef s p tc with
  | some r =>
    if gatesRun s p && oversizeHead s p tc r then
      emptyQueue p tc ((unlinkRef p tc r (recordRef p 4 (closeNow s p tc 0) s r)).bumpPort p 0x80)
    else s
  | none => s

/-- The classes of a port, TC7 first. -/
def classesDown : List Nat := [7, 6, 5, 4, 3, 2, 1, 0]

/-- Steps 5 and 6 of R308 for the heads of a port. -/
def testHeads (p : Nat) (s : State) : State :=
  classesDown.foldl (fun s tc => noteGuard p tc (dropOversize p tc s)) s

/-- The head tests and head counters (R236) of a busy queue for the core cycle that ends: a queue that was served in it had an
eligible head. -/
def tickHead (s : State) (q : Nat × Nat) : State :=
  if egressOn s q.1 && q.1 != 262 && (s.queue q.1 q.2).servedAt != some s.cycle then
    let s1 := noteGuard q.1 q.2 (dropOversize q.1 q.2 s)
    let s2 := if failedOnly s1 q.1 q.2 1 then s1.bumpK 0x9202 4 (queueKey q.1 q.2) else s1
    if failedOnly s2 q.1 q.2 2 then s2.bumpK 0x9202 5 (queueKey q.1 q.2) else s2
  else s

/-! ## Choice -/

/-- DRR state of a port. -/
def State.drrOf (s : State) (p : Nat) : Drr := AMap.get {} s.fabric.drr p

/-- Changes the DRR state of a port. -/
def State.updDrr (s : State) (p : Nat) (f : Drr → Drr) : State :=
  { s with fabric := { s.fabric with drr := AMap.upd {} s.fabric.drr p f } }

/-- The next DRR queue in the ring after a class (R223). -/
def nextDrr (s : State) (p tc : Nat) : Nat :=
  let ring := (classesDown.filter fun c => decide (c < tc)) ++ (classesDown.filter fun c => decide (tc ≤ c))
  (ring.find? fun c => !isStrict s p c).getD tc

/-- The charged length of a queue's head. -/
def headCharge (s : State) (p tc : Nat) : Nat :=
  match headRef s p tc with | some r => chargedOf s p (refForm s p r) | none => 0

/-- select_drr of R223 over the eligible DRR classes. -/
def selectDrr (p : Nat) (elig : List Nat) : Nat → State → Option Nat × State
  | 0, s => (none, s)
  | n + 1, s =>
    let d := s.drrOf p
    let q := d.ptr
    let move := fun (s : State) => s.updDrr p fun _ => { ptr := nextDrr s p q, visit := true }
    if elig.contains q then
      let s1 := if d.visit then
          (s.updQueue p q fun x => { x with deficit := x.deficit + quantumOf s p q }).updDrr p fun x => { x with visit := false }
        else s
      if headCharge s1 p q ≤ (s1.queue p q).deficit then (some q, s1) else selectDrr p elig n (move s1)
    else selectDrr p elig n (move s)

/-- Turns that a DRR choice can take: eight queues, the largest charge over the smallest quantum. -/
def drrFuel : Nat := 8 * 256 + 16

/-- The queue a port selects from (R221, R222), with the DRR state brought forward. -/
def choose (p : Nat) (s : State) : Option Nat × State :=
  let elig := classesDown.filter fun tc => headState s p tc == 1
  match elig.find? fun tc => isStrict s p tc with
  | some tc => (some tc, s)
  | none => if elig.isEmpty then (none, s) else selectDrr p elig drrFuel s

/-! ## Charging -/

/-- The debit of R224. -/
def debit (p tc b : Nat) (s : State) : State :=
  if p = 262 then s
  else
    let s1 := s.updQueue p tc fun q =>
      { q with
        deficit := if isStrict s p tc then q.deficit else q.deficit - b,
        shaper := if shaperKind s p tc = 0 then q.shaper else q.shaper - (b * 2 ^ 32 : Nat) }
    (s1.bumpK 0x9202 2 (queueKey p tc)).bumpBy 0x9202 3 (queueKey p tc) b

/-! ## Transmission begins -/

/-- The frame as the MAC will send it, by the settings in force at its selection (R266, R282): its PTP treatment is judged on
the stored frame (R264), its timestamp point is the first bit after the delimiter, TX_LEAD later at the balls (R259). -/
def makeTx (s : State) (p tc : Nat) (r : Ref) (f : Stored) (x : Form) (start : Nat) (reads : ReadBack) : Tx :=
  let mac := isLine p || isMgt p
  let set := fun sub => ptpPort s s.cfg.running p sub
  { tc := tc, ref := r, frame := f, tpid := storedTpid s f, bytes := x.bytes, shift := x.shift, charged := chargedOf s p x,
    start := start, departs := start + 8 * byteTime s p + txLead s p * 1000, delay := toSigned 32 (set 4),
    treatment := if mac then ptpTreatment s p f.hdr (storedParse s f) f.bytes else 0, peer := set 8 == 2,
    record := set 6 == 1, rtag := x.rtag, pairTag := x.pairTag, shadow := inShadow s p, reads := reads }

/-- The parse of a frame in transmission, at the offsets of the stored bytes. -/
def Tx.parsed (t : Tx) : Parsed := parse t.tpid t.frame.bytes

/-- The frame departs by the end of the present tick, its stamp not yet taken. -/
def Tx.due (s : State) (t : Tx) : Bool := t.stamp.isNone && decide (t.departs / 1000 ≤ tickOf s.cycle)

/-- The departure of a frame in the present tick of its stamp domain, as that stands after its steps (R259, R260): the stamp,
whether the edit can be made (R270, R273), and the edit (R266 to R269). -/
def departed (s : State) (t : Tx) : Tx :=
  let h := t.frame.hdr
  let q := t.parsed.shift t.shift
  let at_ := (s.dom h.stampDomain).value.toNat / 2 ^ 30 + t.departs % 1000 / 250
  let stamp := stampShift at_ t.delay
  let bad := notEditable s t.treatment h t.frame.steps q t.bytes
  let link := if t.peer && t.parsed.ptpType == 0 then AMap.get 0 s.linkDelay h.source else 0
  { t with
    stamp := some stamp, noEdit := bad,
    bytes := if t.treatment ≠ 0 ∧ !bad then ptpEdit t.treatment link h q t.bytes stamp else t.bytes }

/-- A frame in transmission at the end of the present tick. -/
def Tx.pass (s : State) (t : Tx) : Tx := if t.due s then departed s t else t

/-- A frame whose departure stamp goes into its bytes or a record (R266, R275). -/
def Tx.stamped (t : Tx) : Bool := t.treatment != 0 || t.record || t.frame.hostTag.isSome

/-- The MAC hands a piece on only when its stamp, where it needs one, is taken. -/
def Piece.ready (x : Piece) : Bool := !x.tx.stamped || x.tx.stamp.isSome

/-! ## mPackets -/

/-- SMD-S and the fragment count of n modulo 4 (R114). -/
def smdStart (n : Nat) : Byte := [0xE6, 0x4C, 0x7F, 0xB3].getD (n % 4) 0

/-- SMD-C of n modulo 4 (R114). -/
def smdCont (n : Nat) : Byte := [0x61, 0x52, 0x2A, 0x9E].getD (n % 4) 0

/-- The preamble and delimiter of an mPacket (R111, R114). -/
def smdOctets : Smd → Bytes
  | .express => List.replicate 7 0x55 ++ [0xD5]
  | .first n _ => List.replicate 7 0x55 ++ [smdStart n]
  | .more n k _ => List.replicate 6 0x55 ++ [smdCont n, smdStart k]
  | .unknown => []

/-- The FCS as sent, every bit inverted for a stomped frame (R111). -/
def fcsOctets (b : Bytes) (stomped : Bool) : Bytes := (leBytes 4 (fcs b)).map fun x => if stomped then ~~~x else x

/-- The mCRC of the bytes of a frame sent so far: their CRC XOR 0x0000_FFFF (R114; octet order PRESUMED, log entry 63). -/
def mcrcOctets (b : Bytes) : Bytes := (leBytes 4 (fcs b)).zipWith (fun x m => x ^^^ m) [0, 0, 0xFF, 0xFF]

/-- The delimiter of the present fragment of a preemptable frame (R114). -/
def fragSmd (t : Tx) (last : Bool) : Smd :=
  if t.frags = 0 then .first t.count last else .more t.count ((t.frags - 1) % 4) last

/-- A fragment on the line: `len` data bytes from `t.sent` on, closed by the mCRC or the FCS (R114). -/
def fragmentOctets (t : Tx) (len : Nat) (last stomped : Bool) : Bytes :=
  smdOctets (fragSmd t last) ++ slice t.bytes t.sent len ++
    (if last then fcsOctets t.bytes stomped else mcrcOctets (t.bytes.take (t.sent + len)))

/-- The bytes of a piece on the line; under near-end loopback they return to the receiver and the partner sees idle
(R123). -/
def emitPiece (p : Nat) (x : Piece) (stomped : Bool) (s : State) : State :=
  let t := x.tx
  let b := if x.pre then slice t.bytes t.sent x.len else t.bytes
  let smd := if x.pre then fragSmd t x.last else .express
  if loopbackOf s p = 1 then
    if pcsReceives s p then macTakes p smd b (if stomped then .fcs else .good) (t.departs % 1000 / 250) s else s
  else if x.pre then s.emit (.fragment p smd b (fragmentOctets t x.len x.last stomped) stomped)
  else s.emit (.frame p b stomped)

/-- The TX records of a frame that left unstomped (R275). -/
def txRecords (p : Nat) (t : Tx) (s : State) : State :=
  let f := t.frame
  let q := t.parsed
  let o := q.ptpAt.getD 0
  let stamp := t.stamp.getD 0
  let frag := 4 * b2n (decide (0 < t.frags))
  let flags := b2n (t.treatment == 1 || t.treatment == 2) + 2 * b2n (t.treatment == 3) + frag
  let d := f.hdr.stampDomain
  let s1 := if f.hdr.ptpEvent && ptpFrame q f.bytes && t.record then
      writeRecord 1 (sliceOf p) 2 p (tineRecord (stampNs stamp) (stampQ stamp) d 2 p flags q.ptpType
        (byteAt f.bytes o / 16) (byteAt f.bytes (o + 4)) (beAt f.bytes (o + 30) 2)) s
    else s
  match f.hostTag with
  | some tag => writeRecord 1 (sliceOf p) 3 p (tineRecord (stampNs stamp) (stampQ stamp) d 3 p frag 0 0 0 tag) s1
  | none => s1

/-- The counters of a transmitted frame (R126, R189, R215, R284, R461). -/
def txCounters (p : Nat) (t : Tx) (stomped : Bool) (s : State) : State :=
  let f := t.frame
  let s1 := (s.bumpPort p 0x10).bumpPortBy p 0x11 (t.bytes.length + 4)
  let on := fun (c : Bool) (sub : Nat) (s : State) => if c then s.bumpPort p sub else s
  let ptp := f.hdr.ptpEvent && ptpFrame t.parsed f.bytes
  let done := t.treatment != 0 && !t.noEdit
  on (done && t.treatment == 3) 0x73 (on (done && t.treatment != 3) 0x72 (on t.noEdit 0x74 (on ptp 0x71
    (on t.pairTag 0x94 (on t.rtag 0x41 (on t.ref.markCe 0x53 (on stomped 0x12 s1)))))))

/-- A piece leaves the port; with the last one the frame has left (R111, R204, R273, R275, R442). -/
def sendPiece (p : Nat) (x : Piece) (s : State) : State :=
  let t := x.tx
  let stomped := x.bad || t.noEdit || t.ended
  if t.shadow then (if x.last then s.bumpPort p 0x95 else s)
  else
    let s1 := emitPiece p x (x.last && stomped) s
    if !x.last then s1
    else
      let s2 := txCounters p t stomped s1
      if stomped then s2 else txRecords p t s2

/-- The pieces of a port leave in order up to one whose departure is still to come. -/
def leave (p : Nat) : List Piece → State → State
  | [], s => s.updPort p fun x => { x with leaving := [] }
  | x :: l, s => if x.ready then leave p l (sendPiece p x s) else s.updPort p fun y => { y with leaving := x :: l }

/-- The MAC hands a piece on behind those that wait. -/
def handOn (p : Nat) (x : Piece) (s : State) : State := leave p ((s.port p).leaving ++ [x]) s

/-- The departures of a port by the end of the present tick. -/
def departPort (s : State) (p : Nat) : State :=
  let s1 := s.updPort p fun y =>
    { y with
      tx := y.tx.map (Tx.pass s), pre := y.pre.map (Tx.pass s),
      leaving := y.leaving.map fun x => { x with tx := x.tx.pass s } }
  leave p (s1.port p).leaving s1

/-- A port with a departure in the present tick. -/
def Port.departing (s : State) (x : Port) : Bool :=
  (x.tx.toList ++ x.pre.toList ++ x.leaving.map (·.tx)).any fun t => t.due s

/-- The departures of the present tick (R260), in port order. -/
def departures (s : State) : State :=
  ((s.ports.filter fun e => e.2.departing s).map (·.1)).foldl departPort s

/-! ## Fragments -/

/-- What two reads of a frame's cells found together (R204). -/
def joinReads (a b : ReadBack) : ReadBack :=
  { corrected := a.corrected + b.corrected, bad := a.bad + b.bad, flips := a.flips ++ b.flips }

/-- Words found in a header or body read are counted at the crosspoint (R204, R216). -/
def countEcc (f : Stored) (p : Nat) (b : ReadBack) (s : State) : State :=
  let x := xpKey (sliceOf f.hdr.source) (sliceOf p)
  (s.bumpBy 0x9200 5 x b.corrected).bumpBy 0x9200 6 x b.bad

/-- The fragment in transmission ends at a boundary: the frame is held part-sent (R115). `body` is what the read of its bytes
found: with a word not correctable the verdict is a mismatch, and R120 ends the frame. -/
def endFragment (p b : Nat) (t : Tx) (body : ReadBack) (s : State) : State :=
  let free := t.start + (8 + b + 4 + 12) * byteTime s p
  let s1 := (countEcc t.frame p body s).updPort p fun x =>
    { x with
      pre := some { t with
        active := false, sent := t.sent + b, frags := t.frags + 1, stopAt := none, reads := joinReads t.reads body,
        ended := t.ended || decide (0 < body.bad) },
      freeAt := max x.freeAt free }
  handOn p { tx := t, pre := true, len := b, last := false } s1

/-- An express frame selected while a preemptable fragment is in transmission makes it end where it can (R115). -/
def preempt (p : Nat) (s : State) : State :=
  match (s.port p).pre with
  | some t =>
    if t.active then s.updPort p fun x => { x with pre := some { t with stopAt := stopFrom s p (nowPs s) t } } else s
  | none => s

/-! ## Verify and respond frames -/

/-- A span of n bytes from an instant lies outside every guard band of a port: no open class closes before its end (R117). -/
def outsideGuard (s : State) (p start n : Nat) : Bool :=
  (upTo 8).all fun tc =>
    !gateOpen s p tc (startOffset s p start) || endsBy s p start n (closeAt s p tc (startOffset s p start))

/-- A verify (true) or respond frame becomes due (R117). -/
def oweControl (p : Nat) (verify : Bool) (s : State) : State := s.updPort p fun x => { x with owed := x.owed ++ [verify] }

/-- A verify frame reaches the MAC (R117, R118, R122). -/
def takeVerify (p : Nat) (s : State) : State := if preemptCfg s p 1 = 1 then oweControl p false s else smdError p s

/-- A respond frame reaches the MAC (R117): also late, after FAILED. -/
def takeRespond (p : Nat) (s : State) : State :=
  if preemptCfg s p 1 = 1 then
    if (s.port p).verify == 2 || (s.port p).verify == 4 then
      s.updPort p fun x => { x with verify := 3, owed := x.owed.filter (!·) }
    else s
  else smdError p s

/-- A port can start a verify or respond frame (R105, R117): it transmits frames, none holds the line, and the frame ends
before any closing. -/
def controlFree (s : State) (p : Nat) : Bool :=
  (macOut s p == .management || macOut s p == .all) && (s.port p).up && (s.port p).tx.isNone &&
  outsideGuard s p (startPs s p) 72

/-- The oldest verify or respond frame due goes out as an express frame: 8 bytes of preamble and delimiter, 60 zero bytes, the
mCRC and the gap; VERIFY_TIME runs from a verify frame on (R117). -/
def sendControl (p : Nat) (s : State) : State :=
  match (s.port p).owed with
  | [] => s
  | v :: l =>
    if controlFree s p then
      let start := startPs s p
      let s1 := (preempt p s).updPort p fun x =>
        { x with
          owed := l, freeAt := start + 84 * byteTime s p, verifySent := if v then x.verifySent + 1 else x.verifySent,
          verifyDue := if v then s.cycle + msCycles (preemptCfg s p 4) else x.verifyDue }
      if loopbackOf s p = 1 then (if v then takeVerify p s1 else takeRespond p s1)
      else s1.emit (if v then .verifyFrame p else .respondFrame p)
    else s

/-! ## To the MAC -/

/-- The stored bytes as read back (R204). -/
def flipBytes (b : Bytes) : List (Nat × Byte) → Bytes
  | [] => b
  | (k, m) :: r => flipBytes (putBytes b k [(b.getD k 0) ^^^ m]) r

/-- The carriage check fails (R204, R205). -/
def carriageBad (f : Stored) (b : ReadBack) : Bool :=
  decide (0 < b.bad) || crc32c (flipBytes f.bytes (b.flips.filter fun x => decide (x.1 < f.bytes.length))) != f.hdr.check

/-- A selected frame goes to its MAC (R113). One whose carriage check has failed before its first fragment starts is sent
whole (R120). -/
def startTx' (p tc : Nat) (r : Ref) (f : Stored) (x : Form) (reads : ReadBack) (s : State) : State :=
  let start := startPs s p
  let t := makeTx s p tc r f x start reads
  if preemptable s p tc then
    let bad := carriageBad f reads
    let stop := if !bad && admits s p tc x.length start == .stop then (closeBoundary s p tc x.length start).map fun b => (b, true)
      else none
    s.updPort p fun y =>
      { y with pre := some { t with count := y.txCount, ended := bad, stopAt := stop }, txCount := (y.txCount + 1) % 4 }
  else (preempt p s).updPort p fun y => { y with tx := some t }

/-- A host port's frame is placed in its ring, or dropped at a full ring (R28, R401). -/
def startHost (p tc : Nat) (r : Ref) (f : Stored) (x : Form) (reads : ReadBack) (s : State) : State :=
  match (rxChan s (p - 256)).bind fun c => rxReserve c x.bytes.length s with
  | some s1 => s1.updPort p fun y => { y with tx := some (makeTx s p tc r f x (nowPs s) reads) }
  | none => (releaseRef r.frame p s).bumpPort p 0x60

/-! ## Disposal -/

/-- A MAC control frame, which the MAC of a line or management port never transmits (R112). -/
def macControl (p : Nat) (x : Form) : Bool := (isLine p || isMgt p) && beAt x.bytes 12 2 == 0x8808

/-- What happens to the selected frame (R166, R170, R206, R106, R224, R441, R112). `hdr` is what the read of its carriage header
finds and, as positions that read otherwise, what is read of its bytes before it starts. -/
def dispose (p tc : Nat) (r : Ref) (f : Stored) (hdr : ReadBack) (s : State) : State :=
  let x := egressForm s p f r.markCe
  let o := startOffset s p (startPs s p)
  let record := fun (disp : Nat) (s : State) => decisionRecord p disp f.hdr x.plain (closeNow s p tc o) s
  let s0 := countEcc f p hdr s
  if 0 < hdr.bad then record 6 ((releaseRef r.frame p s0).bumpPort p 0x55)
  else
    match (if p = 262 then (true, s0) else recoverFrame p f.hdr s0) with
    | (false, s1) => record 2 (releaseRef r.frame p s1)
    | (true, s1) =>
      if !linkIsUp s1 p then record 5 ((releaseRef r.frame p (debit p tc (chargedOf s p x) s1)).bumpPort p 0x13)
      else if x.rtagOver then record 6 ((releaseRef r.frame p s1).bumpPort p 0x44)
      else if x.pairOver then record 6 ((releaseRef r.frame p s1).bumpPort p 0x96)
      else if macControl p x then releaseRef r.frame p s1
      else
        let s2 := debit p tc (chargedOf s p x) s1
        let ahead : ReadBack := { flips := hdr.flips }
        if isHost p then startHost p tc r f x ahead s2 else startTx' p tc r f x ahead (record 1 s2)

/-- The selected queue's head leaves its queue and is disposed of. -/
def selectHead (p tc : Nat) (hdr : ReadBack) (s : State) : State :=
  match headRef s p tc with
  | none => s
  | some r =>
    match AMap.find s.fabric.frames r.frame with
    | none => s.updQueue p tc fun q => { q with refs := q.refs.tail }
    | some f =>
      emptyQueue p tc (dispose p tc r f hdr (s.updQueue p tc fun q => { q with refs := q.refs.tail, servedAt := some s.cycle }))

/-- A preemptable frame held part-sent continues with its next fragment (R115, R301), one that R120 ends with its final
fragment. -/
def resumeFragment (p : Nat) (s : State) : State :=
  match (s.port p).pre with
  | some t =>
    let start := max (nowPs s) (s.port p).freeAt
    let l := fragRest t
    let a := admits s p t.tc l start
    if !t.active && (a == .yes || (a == .stop && !t.ended)) then
      let stop := if a = .stop then (closeBoundary s p t.tc l start).map fun b => (b, true) else none
      (s.updPort p fun y => { y with pre := some { t with active := true, start := start, stopAt := stop } }).bumpPort p 0x1C
    else s
  | none => s

/-- FRAME_SELECTED (R221 to R224): the port selects a frame when it can accept one; `hdr` is what the read of the
selected frame's carriage header finds. -/
def effFrameSelected (p : Nat) (hdr : ReadBack) (s : State) : State :=
  if p < 263 ∧ egressOn s p ∧ (s.port p).tx.isNone ∧ (!isHost p || hostAsks s (p - 256)) then
    let s1 := testHeads p (gateTick p s)
    match choose p s1 with
    | (some tc, s2) => selectHead p tc hdr s2
    | (none, s2) => resumeFragment p s2
  else s

/-! ## Transmission ends -/

/-- A mismatch is counted and recorded (R205, R211): at the port only where ECN_MARKED does not count the frame (R215). -/
def noteCarriage (bad marked : Bool) (p : Nat) (s : State) : State :=
  if bad then detectFault 7 (sliceOf p) 1 p ((if marked then s else s.bumpPort p 0x54).bump 0x1800 3) else s

/-- Service port 6 takes a frame into the engine's input queue (R28, R40, R52, R205). -/
def engineTakes (bad : Bool) (f : Stored) (s : State) : State :=
  if bad then s
  else
    let q := storedParse s f
    let path := if f.hdr.source = 260 then Path.mgt 0 else if f.hdr.source = 261 then Path.mgt 1 else Path.line f.hdr.source
    let req : NapReq :=
      { path := path, pdu := f.bytes.drop (q.etherAt + 2), src := q.sa, vtag := if q.tagAt.isSome then some q.tci else none }
    napEnqueue req s

/-- The end of a frame at its port by the kind of port. -/
def sentAt (p : Nat) (t : Tx) (pre : Bool) (body : ReadBack) (s : State) : State :=
  let f := t.frame
  let bad := carriageBad f (joinReads t.reads body)
  let s1 := noteCarriage bad (t.ref.markCe && p != 262) p (countEcc f p body s)
  if isHost p then
    match rxChan s1 (p - 256) with
    | some c => (rxDeliver c f.hdr bad t.bytes s1).bumpPort p (if t.ref.markCe then 0x53 else 0)
    | none => s1
  else if p = 262 then engineTakes bad f s1
  else handOn p { tx := t, pre := pre, len := t.bytes.length - t.sent, last := true, bad := bad } s1

/-- A frame in transmission is complete: its reference is released (R194). -/
def finishTx (p : Nat) (t : Tx) (pre : Bool) (body : ReadBack) (s : State) : State :=
  let len := if pre then fragRest t else t.bytes.length + 4
  let s0 := s.updPort p fun x =>
    { x with tx := if pre then x.tx else none, pre := if pre then none else x.pre,
             freeAt := max x.freeAt (t.start + (8 + len + 12) * byteTime s p) }
  sendControl p (emptyQueue p t.tc (releaseRef t.ref.frame p (sentAt p t pre body s0)))

/-- The line time of a number of bytes from an instant has passed. -/
def lineDone (s : State) (p start n : Nat) : Bool := decide (start + n * byteTime s p ≤ nowPs s)

/-- FRAME_TRANSMITTED (R204, R205, R111): the fragment or frame in transmission at a port ends; `body` is what the read
of its bytes finds. -/
def effFrameTransmitted (p : Nat) (body : ReadBack) (s : State) : State :=
  match (s.port p).pre with
  | some t =>
    match t.active, t.stopAt with
    | true, some (b, closing) =>
      if lineDone s p t.start (8 + b + 4) then
        let s1 := endFragment p b t body s
        if closing then s1.bumpPort p 0x84 else s1
      else finishPlain s
    | true, none => if lineDone s p t.start (8 + fragRest t) then finishTx p t true body s else finishPlain s
    | false, _ => finishPlain s
  | none => finishPlain s
where
  /-- The express or ordinary frame of the port. -/
  finishPlain (s : State) : State :=
    match (s.port p).tx with
    | some t => if lineDone s p t.start (8 + t.bytes.length + 4) then finishTx p t false body s else s
    | none => s

/-! ## Hold, closings moved by a step -/

/-- HOLD_ISSUE (R304): an entry with SET_AND_HOLD_MAC lies HOLD_ADVANCE ahead. -/
def effHoldIssue (p : Nat) (s : State) : State :=
  if gatesRun s p && !(s.gate p).hold && holdAt s p (holdAhead s p) then
    let s1 := s.updGate p fun g => { g with hold := true }
    if preemptActive s p then holdFragment p (holdInstant s p) (s1.bumpPort p 0x1D) else s1
  else s

/-- An express or ordinary frame in transmission ends after the closing that a step has moved (R290). -/
def expressOverrun (p : Nat) (s : State) : State :=
  match (s.port p).tx with
  | some t =>
    if !t.overrun && !endsBy s p t.start (8 + t.bytes.length + 4) (closeAt s p t.tc 0) then
      (s.updPort p fun x => { x with tx := some { t with overrun := true } }).bumpPort p 0x86
    else s
  | none => s

/-- The fragment in transmission at a step, an overrun counted once for its frame (R290, R302). -/
def fragmentOverrun (p : Nat) (s : State) : State :=
  match (s.port p).pre with
  | some t =>
    if t.active then
      let (stop, past) := stepStop s p t
      let s1 := s.updPort p fun x => { x with pre := some { t with overrun := t.overrun || past, stopAt := stop } }
      if past && !t.overrun then s1.bumpPort p 0x86 else s1
    else s
  | none => s

/-- The frames in transmission at a port whose list's domain has stepped. -/
def stepOverrun (p : Nat) (s : State) : State := fragmentOverrun p (expressOverrun p s)

/-- The frames in transmission at the ports whose list runs on a stepped domain (R290). -/
def gateStepOverruns (d : Nat) (s : State) : State :=
  (s.gates.filter fun e => onDomain d e.2).foldl (fun s e => stepOverrun e.1 s) s

/-! ## Stopping, cutover, reset -/

/-- A preemptable frame is ended (R69, R120): its remaining bytes are the final fragment, which goes on or, of a frame held
part-sent, starts at once, and closes with the FCS inverted. -/
def endPreemptable (p : Nat) (s : State) : State :=
  match (s.port p).pre with
  | some t =>
    let t1 := { t with
      ended := true, active := true, stopAt := none, start := if t.active then t.start else max (nowPs s) (lineFreeAt s p) }
    let s1 := s.updPort p fun x => { x with pre := some t1 }
    if t.active then s1 else s1.bumpPort p 0x1C
  | none => s

/-- The frames in transmission at a port are lost (R108): their references are released, each counted. -/
def dropSending (p : Nat) (s : State) : State :=
  ((s.port p).tx.toList ++ (s.port p).pre.toList).foldl
    (fun s t => emptyQueue p t.tc ((releaseRef t.ref.frame p s).bumpPort p 0x13))
    (s.updPort p fun x => { x with tx := none, pre := none })

/-- Line egress stops (R69): part-sent frames end, and the queued frames that the new state does not allow are unlinked
and counted. -/
def stopEgress (allowed : Nat → Ref → Bool) (s : State) : State :=
  let s1 := (s.ports.map (·.1)).foldl (fun s p => endPreemptable p s) s
  unlinkAll (fun p r => !allowed p r) 0x0C s1

/-- The first DRR queue of a port's ring (R223); TC7 where every queue is strict. -/
def firstDrr (s : State) (p : Nat) : Nat := (classesDown.find? fun c => !isStrict s p c).getD 7

/-- DRR at LOAD and on entry to ARMED (R230): every deficit is 0 and every pointer rests on the first DRR queue. -/
def resetDrr (s : State) : State :=
  let moved := (upTo 262).filter fun p => firstDrr s p != 7
  { s with fabric := { s.fabric with
    drr := moved.map fun p => (p, { ptr := firstDrr s p, visit := true })
    queues := s.fabric.queues.map fun (e : Nat × Queue) => (e.1, { e.2 with deficit := 0 }) } }

/-- A queue that becomes a DRR queue at a cutover starts with deficit 0 (R230). -/
def cutDrrQueue (s0 : State) (s : State) (q : Nat × Nat) : State :=
  if isStrict s0 q.1 q.2 && !isStrict s q.1 q.2 then s.updQueue q.1 q.2 fun x => { x with deficit := 0 } else s

/-- Shapers whose row changed, or whose port's rate changed with KIND 2, take their reset value (R229). -/
def cutShaper (s0 : State) (old : Image) (s : State) (q : Nat × Nat) : State :=
  let k := queueKey q.1 q.2
  if imgRow old 0x1300 k ≠ imgRow s.cfg.running 0x1300 k ∨
      (shaperKind s q.1 q.2 = 2 ∧ isLine q.1 ∧ portRate s0 q.1 ≠ portRate s q.1) then resetShaper q.1 q.2 s else s

/-- Queues and shapers at a cutover (R229, R230), after the running configuration changed from that of `s0`. -/
def egressCutover (s0 : State) (old : Image) (s : State) : State :=
  let s1 := (shapedQueues s).foldl (cutShaper s0 old) s
  (s1.fabric.queues.map fun e => (e.1 / 8, e.1 % 8)).foldl (cutDrrQueue s0) s1

/-! ## The meanings -/

/-- FRAME_SELECTED: answers the state after its effect. -/
def execFrameSelected (p : Nat) (hdr : ReadBack) (s : State) : Answer := .next (effFrameSelected p hdr s)

/-- FRAME_TRANSMITTED: answers the state after its effect. -/
def execFrameTransmitted (p : Nat) (body : ReadBack) (s : State) : Answer := .next (effFrameTransmitted p body s)

/-- HOLD_ISSUE: answers the state after its effect. -/
def execHoldIssue (p : Nat) (s : State) : Answer := .next (effHoldIssue p s)

end Sys2Proof.Machine
end

