-- ==== Sys2Proof/Machine/Herd.lean ====
section
/-!
DEFINITION. The Herd Ring controller (R327 to R364): ring ports, frames, slots, the master, roles, clock readings and the
fault-tolerant average, mailboxes, claim slots, cycle points.
-/
namespace Sys2Proof.Machine

/-! ## Settings -/

/-- A HERD_CONFIG entry in force (R361). -/
def herdN (s : State) (sub : Nat) : Nat := s.cfgN 0x5000 sub

/-- NODE_ID, DOMAIN, CYCLE_TIME, RING_BASE. -/
def herdId (s : State) : Nat := herdN s 3
def herdDom (s : State) : Nat := herdN s 2
def cycleTime (s : State) : Nat := max 1 (herdN s 8)
def ringBase (s : State) : Nat := herdN s 9

/-- The forwarding delay d of R328 in nanoseconds. -/
def forwardDelay (rate : Nat) : Nat := if rate = 0 then 560 else if rate = 1 then 240 else 680

/-- Picoseconds of a byte on a ring port (R327). -/
def ringByte (rate : Nat) : Nat := if rate = 0 then 800 else 320

/-- Changes the ring controller. -/
def State.updHerd (s : State) (f : Herd → Herd) : State := { s with herd := f s.herd }

/-- Counts at a HERD_COUNTERS entry (R364). -/
def State.bumpHerd (s : State) (sub : Nat) : State := s.bump 0x5002 sub

/-- The index of the own cycle: (NS - RING_BASE) div CYCLE_TIME; none before RING_BASE (R341). -/
def cycleIndex (s : State) : Option Nat :=
  let t := s.ns (herdDom s)
  if t < ringBase s then none else some ((t - ringBase s) / cycleTime s)

/-- The cycle number n of R341. -/
def cycleNumber (s : State) : Nat := (cycleIndex s).getD 0 % 2 ^ 32

/-- S of a cycle index, in nanoseconds of DOMAIN (R341). -/
def ringStart (s : State) (i : Nat) : Nat := ringBase s + i * cycleTime s

/-! ## Layout -/

/-- A HERD_LAYOUT row's fields (R362): KIND 0, OWNER 1, OFFSET 2, SIZE 3, PAIR_GROUP 4, MEMBER_A 5, MEMBER_B 6. -/
def slotN (r : Row) (k : Nat) : Nat := (r.getD k (.num 0)).n

/-- The slot-area length of a layout (R332). -/
def areaLength (l : AMap Row) : Nat := (l.map fun e => slotN e.2 2 + slotN e.2 3).foldl max 0

/-- The slot of a kind with an owner. -/
def findSlot (l : AMap Row) (kind owner : Nat) : Option (Nat × Row) :=
  l.find? fun e => slotN e.2 0 == kind && slotN e.2 1 == owner

/-- A slot's bytes in a slot area. -/
def slotBytes (area : Bytes) (r : Row) : Bytes := padTo (slotN r 3) (area.drop (slotN r 2))

/-- A null data slot (R333). -/
def nullData (writer cyc size : Nat) : Bytes := [0, BitVec.ofNat 8 writer] ++ beBytes 2 cyc ++ zeros (size - 4)

/-- A clock block (R334). -/
def clockBlock (offset rate flags writer cyc : Nat) : Bytes :=
  beBytes 8 offset ++ beBytes 4 rate ++ beBytes 1 flags ++ beBytes 1 writer ++ beBytes 2 cyc

/-- A null clock block. -/
def nullClock (writer cyc : Nat) : Bytes := clockBlock 0 0 0 writer cyc

/-- A null mailbox slot (R335). -/
def nullMail (size : Nat) : Bytes := [0xFF, 0, 0, 0, 0xFF, 0, 0, 0] ++ zeros (size - 8)

/-- A null slot by its kind. -/
def nullSlot (r : Row) (cyc : Nat) : Bytes :=
  match slotN r 0 with
  | 1 => nullData (slotN r 1) cyc (slotN r 3)
  | 2 => nullClock (slotN r 1) cyc ++ nullClock (slotN r 1) cyc
  | 3 => nullMail (slotN r 3)
  | _ => zeros (slotN r 3)

/-! ## Frames -/

/-- The Herd group address and EtherType (R329). -/
def herdDa : Nat := 0x030048520001
def herdType : Nat := 0x88B6

/-- Header fields of a ring frame (R330). -/
def hfSub (b : Bytes) : Nat := beAt b 14 1
def hfLen (b : Bytes) : Nat := beAt b 16 2
def hfCycle (b : Bytes) : Nat := beAt b 18 4
def hfLayout (b : Bytes) : Nat := beAt b 22 4
def hfFlags (b : Bytes) : Nat := beAt b 28 1
def hfDir (b : Bytes) : Nat := b2n (bit (hfFlags b) 7)
def hfVisited (b : Bytes) : Nat := beAt b 30 8
def hfLoop (b : Bytes) : Nat := beAt b 38 4
def hfAdjust (b : Bytes) : Int := toSigned 64 (beAt b 42 8)
def hfSa (b : Bytes) : Nat := beAt b 6 6

/-- The originator of a frame as a master (R348). -/
def hfMaster (b : Bytes) : Master := { rank := beAt b 27 1, addr := hfSa b, id := beAt b 26 1 }

/-- The slot area that a frame carries. -/
def hfArea (b : Bytes) : Bytes := slice b 54 (hfLen b - 40)

/-- What a received frame is (R329, R331): 1 not a Herd frame, 2 a format error, 3 a valid frame. A frame shorter than its
LENGTH with a bad FCS is cut short (R340) and still valid here. -/
def hfClass (b : Bytes) (fcsOk : Bool) : Nat :=
  if beAt b 0 6 ≠ herdDa ∨ beAt b 12 2 ≠ herdType then 1
  else if b.length + 4 < 64 ∨ 9216 < b.length + 4 ∨ beAt b 15 1 ≠ 1 ∨ hfSub b = 0 ∨ 3 < hfSub b ∨ hfLen b < 40 then 2
  else if fcsOk && decide (b.length < 14 + hfLen b) then 2
  else 3

/-- One master ranks above another (R348). -/
def outranks (a b : Master) : Bool := b.rank < a.rank || (a.rank == b.rank && b.addr < a.addr)

/-- This device as a master. -/
def selfMaster (s : State) : Master := { rank := herdN s 4, addr := herdN s 5, id := herdId s }

/-- A ring frame of this device without its FCS, sent on HRA; `tail` is LOOP_DELAY and MASTER_ADJUST. -/
def ringFrame (s : State) (sub cyc visited loop adjust : Nat) (area : Bytes) : Bytes :=
  let b := beBytes 6 herdDa ++ beBytes 6 (herdN s 5) ++ beBytes 2 herdType ++
    beBytes 1 sub ++ [1] ++ beBytes 2 (40 + area.length) ++ beBytes 4 cyc ++ beBytes 4 s.herd.layoutId ++
    beBytes 1 (herdId s) ++ beBytes 1 (herdN s 4) ++ [0, 0] ++ beBytes 8 visited ++ beBytes 4 loop ++
    beBytes 8 adjust ++ zeros 4 ++ area
  b ++ zeros (60 - b.length)

/-- A frame with FLAGS bits set (R330). -/
def withFlags (b : Bytes) (m : Nat) : Bytes := putBytes b 28 (beBytes 1 (hfFlags b ||| m))

/-! ## Ring ports -/

/-- A ring port: 0 HRA, 1 HRB. -/
def ringPort (s : State) (k : Nat) : RingPort := s.herd.ports.getD k {}

/-- The ring ports are on (R327, R346). -/
def ringOn (s : State) : Bool := s.herd.role != 0

/-- A ring port's link comes up (R337, R358). -/
def ringLinkUp (k : Nat) (s : State) : State :=
  if ringOn s && decide (k < 2) && !(ringPort s k).link then
    s.updHerd fun h => { h with ports := updAt h.ports k fun p => { p with link := true, upSince := s.cycle } }
  else s

/-- A port becomes NOT_IN_USE (R337, R357, R358): FOLDS counts, HERD_RING_STATE pulses, and the frames in transmission on it
are lost. -/
def leaveRing (port : Nat) (s : State) : State :=
  if (ringPort s port).inUse then
    let cut := s.herd.sending.filter fun x => x.port == port && decide (s.cycle < x.ends)
    let s1 := s.updHerd fun h =>
      { h with ports := updAt h.ports port fun p => { p with inUse := false }, sending := h.sending.filter (·.port != port) }
    pulse 99 ((cut.foldl (fun s x => s.emit (.ringLost x.port x.bytes)) s1).bumpHerd 0x16)
  else s

/-- RING_PORT_LINK_LOST (R337, R358): the port becomes NOT_IN_USE at once. -/
def effRingPortLinkLost (port : Nat) (s : State) : State :=
  if ringOn s && decide (port < 2) && (ringPort s port).link then
    let s1 := (leaveRing port s).updHerd fun h => { h with ports := updAt h.ports port fun p => { p with link := false } }
    if (ringPort s port).inUse then detectFault 14 0 1 port s1 else s1
  else s

/-- A port whose link has been up for REJOIN_HOLD is IN_USE from an own cycle start (R358). -/
def rejoinPort (s : State) (k : Nat) : State :=
  let p := ringPort s k
  if p.link && !p.inUse && decide (p.upSince + msCycles (herdN s 0x12) ≤ s.cycle) then
    pulse 99 ((s.updHerd fun h => { h with ports := updAt h.ports k fun p => { p with inUse := true } }).bumpHerd 0x17)
  else s

/-- The route of a frame received on a port (R337): the port it leaves on, whether the table marks it processed, and
whether it is turned. -/
def ringRoute (s : State) (k : Nat) : Option (Nat × Bool × Bool) :=
  let a := (ringPort s 0).inUse
  let b := (ringPort s 1).inUse
  match a, b with
  | true, true => if k = 1 then some (0, true, false) else some (1, false, false)
  | false, true => if k = 1 then some (1, true, true) else none
  | true, false => if k = 0 then some (0, true, true) else none
  | false, false => none

/-- Sends a frame on a ring port, its timestamp point at the balls a number of nanoseconds from now (R328, R342): until its FCS
has left it is in transmission. -/
def sendRing (port after : Nat) (b : Bytes) (stomped : Bool) (s : State) : State :=
  let ps := after * 1000 + (b.length + 4) * ringByte (herdN s 6)
  let x : RingTx := { port := port, bytes := b, ends := s.cycle + (ps + 624) / 625 }
  (s.updHerd fun h => { h with sending := h.sending.filter (fun y => decide (s.cycle < y.ends)) ++ [x] }).emit (.ring port b stomped)

/-- The forwarding delay of a routed frame (R328). -/
def throughDelay (s : State) : Nat := forwardDelay (herdN s 6)

/-- Sends a frame of this device on each IN_USE port (R342): DIRECTION 1 on HRB. -/
def originate (b : Bytes) (s : State) : State :=
  ([0, 1].filter fun k => (ringPort s k).inUse).foldl (fun s k =>
    (sendRing k 0 (if k = 1 then withFlags b 0x80 else b) false s).bumpHerd 3) s

/-! ## Roles -/

/-- A change of current master counts, pulses HERD_ROLE_CHANGE and clears D_VALID (R346, R349). -/
def setMaster (m : Option Master) (s : State) : State :=
  if s.herd.current = m then s
  else
    pulse 100 ((s.updHerd fun h => { h with current := m, dValid := false, loop := none, stamps := [] }).bumpHerd 0x15)

/-- A role. -/
def setHerdRole (r : Nat) (s : State) : State := s.updHerd fun h => { h with role := r }

/-- A candidate or master yields (R346). -/
def ringYield (s : State) : State :=
  (setHerdRole 4 (s.updHerd fun h => { h with bids := 0, assembled := none, kept := [], sent := [] })).bumpHerd 0x13

/-- The index of the first cycle whose point at an offset lies ahead (R357). -/
def nextPoint (s : State) (off : Nat) : Nat :=
  let t := s.ns (herdDom s)
  let first := ringBase s + off
  if t < first then 0 else (t - first) / cycleTime s + 1

/-- Arms every cycle point at its first instant ahead (R357). -/
def armPoints (s : State) : State :=
  s.updHerd fun h => { h with cps := (upTo 16).foldl (fun m k =>
    let off := herdN s (0x20 + k)
    if off = 0xFFFFFFFF then m else AMap.set m k (nextPoint s off)) [] }

/-- The layout of the running configuration comes into force (R359). -/
def takeLayout (s : State) : State :=
  s.updHerd fun h =>
    { h with layout := imgTable s.cfg.running 0x5001, layoutId := s.cfgN 0x5000 0x0A }

/-- Role LISTEN with D_VALID cleared (R346, R359). -/
def herdListen (s : State) : State :=
  let s1 := setMaster none s
  armPoints (setHerdRole 1 (s1.updHerd fun h =>
    { h with
      dValid := false, bids := 0, kept := [], sent := [], assembled := none, stamps := [],
      cycleNow := cycleIndex s1, corrAt := (s1.dom (herdDom s1)).corr, adjusted := 0 }))

/-- The ring ports go on (R346). -/
def herdStart (s : State) : State :=
  herdListen (takeLayout (s.updHerd fun h =>
    { h with ports := [{}, {}], silence := 0, heard := false, lastSlots := [], mailOut := [], mailIn := [], acks := [] }))

/-- The ring ports go off (R346): the neighbours fold the ring. -/
def herdOff (s : State) : State :=
  setHerdRole 0 ((setMaster none ([0, 1].foldl (fun s k => leaveRing k s) s)).updHerd fun h =>
    { h with ports := [{}, {}], bids := 0, kept := [], sent := [], assembled := none, cps := [], dValid := false })

/-- Entry to a device state (R346). -/
def herdEnter (m : Mode) (s : State) : State :=
  match m with
  | .armed => if s.herd.role = 0 then (if herdN s 1 = 1 then herdStart s else s) else s
  | .run => if s.herd.role = 0 then (if herdN s 1 = 1 then herdStart s else s) else s
  | .safe =>
    if s.herd.role = 0 then s
    else setHerdRole 5 (s.updHerd fun h => { h with bids := 0, assembled := none, kept := [], sent := [], cps := [] })
  | _ => if s.herd.role = 0 then s else herdOff s

/-- A changed HERD_CONFIG entry. -/
def herdChanged (old : Image) (s : State) (sub : Nat) : Bool := imgNum s.ident old 0x5000 sub != herdN s sub

/-- The ring at a cutover (R359). -/
def herdCutover (old : Image) (s : State) : State :=
  if [1, 6, 7].any (herdChanged old s) then
    let s1 := if s.herd.role = 0 then s else herdOff s
    if isActive s.chip.mode && herdN s1 1 == 1 then herdStart s1 else s1
  else if s.herd.role = 0 || s.herd.role = 5 then s
  else if [2, 3, 5, 8, 9, 4].any (herdChanged old s) then herdListen s
  else if (upTo 16).any fun k => herdChanged old s (0x20 + k) then armPoints s
  else s

/-! ## Own writes -/

/-- The payload of an own data slot in the TX memory (R339). -/
def txPayload (s : State) (r : Row) : Bytes := memRead s.herd.txMem (slotN r 2 + 4) (slotN r 3 - 4)

/-- Writes one own data slot (R338, R339): the buffer when READY, else null. -/
def writeDataSlot (cyc : Nat) (x : Bytes × State) (e : Nat × Row) : Bytes × State :=
  let (area, s) := x
  let r := e.2
  if s.chip.mode = .run ∧ s.herd.ready.contains e.1 then
    let p := txPayload s r
    (putBytes area (slotN r 2) ([0x80, BitVec.ofNat 8 (herdId s)] ++ beBytes 2 cyc ++ p),
      s.updHerd fun h => { h with ready := h.ready.filter (· != e.1), written := AMap.set h.written e.1 p })
  else
    (putBytes area (slotN r 2) (nullData (herdId s) cyc (slotN r 3)), if s.herd.ready.contains e.1 then s else s.bumpHerd 6)

/-- A member's claim field (R336, R338, R356). -/
def claimField (s : State) (cyc : Nat) : Bytes :=
  beBytes 4 (if s.chip.mode = .run then s.pair.claim else 0) ++ beBytes 2 cyc ++ [0x80, BitVec.ofNat 8 (herdId s)]

/-- Writes the own member field of a claim slot. -/
def writeClaimSlot (s : State) (cyc : Nat) (area : Bytes) (r : Row) : Bytes :=
  let a1 := if slotN r 5 = herdId s then putBytes area (slotN r 2) (claimField s cyc) else area
  if slotN r 6 = herdId s then putBytes a1 (slotN r 2 + 8) (claimField s cyc) else a1

/-- The chunks of a message in a mailbox slot of a size (R353). -/
def chunkCount (len size : Nat) : Nat := max 1 ((len + (size - 8) - 1) / (size - 8))

/-- Writes the own mailbox slot (R353 to R355): the present chunk, and the oldest acknowledgement owed. -/
def writeMailSlot (x : Bytes × State) (r : Row) : Bytes × State :=
  let (area, s) := x
  let size := slotN r 3
  let (dest, flags, data) := match s.herd.mailOut with
    | (to_, m) :: _ =>
      let c := s.herd.mailChunk
      (to_, b2n (c == 0) * 128 + b2n (c + 1 == chunkCount m.length size) * 64, padTo (size - 8) (m.drop (c * (size - 8))))
    | [] => (0xFF, 0, zeros (size - 8))
  let seq := if dest = 0xFF then 0 else s.herd.mailSeq
  let chunk := if dest = 0xFF then 0 else s.herd.mailChunk
  let (an, as_, ac) := match s.herd.acks with
    | (_, n, q, c) :: _ => (n, q, c)
    | [] => (0xFF, 0, 0)
  let b := beBytes 1 dest ++ beBytes 1 flags ++ beBytes 1 seq ++ beBytes 1 chunk ++ beBytes 1 an ++ beBytes 1 as_ ++
    beBytes 1 ac ++ [0] ++ data
  (putBytes area (slotN r 2) b, s.updHerd fun h => { h with acks := h.acks.drop 1 })

/-- The own mailbox, claim and data slots of a slot area in a cycle (R338); `owns` tells the data slots to write. -/
def ownWrites (owns : Nat → Bool) (cyc : Nat) (area : Bytes) (s : State) : Bytes × State :=
  let l := s.herd.layout
  let x1 := match findSlot l 3 (herdId s) with
    | some (_, r) => writeMailSlot (area, s) r
    | none => (area, s)
  let a2 := (l.filter fun e => slotN e.2 0 == 4).foldl (fun a e => writeClaimSlot s cyc a e.2) x1.1
  (l.filter fun e => slotN e.2 0 == 1 && owns (slotN e.2 1)).foldl (writeDataSlot cyc) (a2, x1.2)

/-! ## Clock readings -/

/-- A value as a `w`-bit field; the spec states no value outside the format (DESIGN CHOICE, log entry 19). -/
def fitSigned (w : Nat) (v : Int) (s : State) : Nat × State :=
  if -(2 ^ (w - 1)) ≤ v ∧ v < 2 ^ (w - 1) then (ofSigned w v, s)
  else let (x, s1) := s.draw; (x % 2 ^ w, s1)

/-- The reading o of R350 in 2^-16 ns, from a stamp in quarter nanoseconds and the cycle index. -/
def clockOffset (s : State) (q i : Nat) : Int := (q * 2 ^ 14 : Nat) - (ringStart s i * 2 ^ 16 : Nat) - s.herd.d

/-- The CUR block of a node (R350) for the frame of a cycle. -/
def curBlock (s : State) (cyc i q : Nat) (adjust : Int) : Bytes × State :=
  let o := clockOffset s q i
  let inWin := s.herd.dValid && decide (o.natAbs ≤ herdN s 0x0D * 2 ^ 16)
  let saturated := decide (adjust = 2 ^ 63 - 1) || decide (adjust = -(2 ^ 63))
  let prev := match s.herd.prevO with
    | some (c, p) => if (c + 1) % 2 ^ 32 = cyc ∧ !saturated then some p else none
    | none => none
  let rho : Int := match prev with
    | some p => roundDiv ((o - p - s.herd.adjusted / 2 ^ 16 + adjust) * 10 ^ 12) (2 ^ 16 * cycleTime s)
    | none => 0
  let flags := 0x80 + b2n inWin * 0x40 + b2n s.herd.dValid * 0x20 + b2n prev.isSome * 0x10 +
    b2n (s.dom (herdDom s)).locked * 0x08
  let (ob, s1) := fitSigned 64 o s
  let (rb, s2) := fitSigned 32 rho s1
  let s3 := s2.updHerd fun h => { h with prevO := some (cyc, o) }
  (clockBlock ob rb flags (herdId s) cyc, if s.herd.dValid && !inWin then s3.bumpHerd 0x0F else s3)

/-! ## The fault-tolerant average -/

/-- A PREV block as read (R334): NODE_ID of its slot, offset, rate, flags, cycle. -/
structure Reading where
  node : Nat
  offset : Int
  rate : Int
  flags : Nat
  cycle : Nat
deriving DecidableEq, Repr, Inhabited

/-- The PREV blocks of a slot area. -/
def readings (l : AMap Row) (area : Bytes) : List Reading :=
  (l.filter fun e => slotN e.2 0 == 2).map fun e =>
    let b := slotBytes area e.2
    { node := slotN e.2 1, offset := toSigned 64 (beAt b 0 8), rate := toSigned 32 (beAt b 8 4), flags := beAt b 12 1,
      cycle := beAt b 14 2 }

/-- Inserts a reading in the order of a key, after its equals. -/
def insertBy (key : Reading → Int) (x : Reading) : List Reading → List Reading
  | [] => [x]
  | y :: r => if key x < key y then x :: y :: r else y :: insertBy key x r

/-- Readings sorted by a key. -/
def sortBy (key : Reading → Int) (l : List Reading) : List Reading := l.foldl (fun a x => insertBy key x a) []

/-- The readings left after the k lowest and the k highest are removed (R351). -/
def trim (key : Reading → Int) (k : Nat) (l : List Reading) : List Reading :=
  ((sortBy key l).drop k).take (l.length - 2 * k)

/-- A value less the mean of a key, exactly: numerator and denominator. -/
def lessMean (v : Int) (key : Reading → Int) (l : List Reading) : Int × Nat :=
  let n := max 1 l.length
  (v * n - (l.map key).foldl (· + ·) 0, n)

/-- What R351 finds: e and r, each a numerator and a denominator, and the nodes whose readings survived. -/
structure Average where
  e : Int × Nat
  r : Option (Int × Nat)
  kept : List Nat
deriving DecidableEq, Repr, Inhabited

/-- The fault-tolerant average of a frame of cycle n from a master (R351). -/
def average (s : State) (area : Bytes) (n master : Nat) : Option Average :=
  let k := herdN s 0x0C
  let all := readings s.herd.layout area
  let set := all.filter fun x => x.flags &&& 0xE0 == 0xE0 && x.cycle == (n + 2 ^ 32 - 1) % 2 ^ 16
  match all.find? (·.node == herdId s) with
  | none => none
  | some own =>
    if !bit own.flags 7 || !bit own.flags 5 then none
    else
      let rate := fun (l : List Reading) => if bit own.flags 4 then some (lessMean own.rate (·.rate) l) else none
      if set.length < 2 * k + 1 then
        if set.any (·.node == master) then some { e := (own.offset, 1), r := rate [], kept := [] } else none
      else
        let kept := trim (·.offset) k set
        let rv := set.filter fun x => bit x.flags 4
        let r := if rv.length < 2 * k + 1 then none else rate (trim (·.rate) k rv)
        some { e := lessMean own.offset (·.offset) kept, r := r, kept := kept.map (·.node) }

/-- The limits of R239 applied to an increment. -/
def clampInc (v : Int) : Increment := BitVec.ofInt 40 (clampInt v 0x00FFDF3B64 0x010020C49C)

/-- The correction of R352 after a measurement e (2^-16 ns) and r (10^-12). -/
def ringCorrect (e : Int × Nat) (r : Option (Int × Nat)) (s : State) : State :=
  let d := herdDom s
  let x := s.dom d
  let kp := max 1 (s.cfgN (domObj d) 8)
  let ticks := cycleTime s / 2
  let thr := s.cfgN (domObj d) 7
  let due := dueTick s.cycle
  let s1 :=
    if thr ≠ 0 ∧ thr * 2 ^ 16 * e.2 ≤ e.1.natAbs ∧ stepAllowed x then
      if x.step.isSome then s else s.updDom d fun y => { y with step := some (false, BitVec.ofInt 96 (-roundDiv (e.1 * 2 ^ 16) e.2), due) }
    else
      let a := clampInc ((x.inc.toNat : Int) - roundDiv (e.1 * 2 ^ 16) (e.2 * 2 ^ kp * ticks))
      s.updDom d fun y => { y with adjNext := y.adjNext ++ [(a, ticks, due)] }
  match r with
  | none => s1
  | some v =>
    let a := clampInc ((x.inc.toNat : Int) - roundDiv (v.1 * 2 ^ 32) (v.2 * 10 ^ 12 * 2 ^ s.cfgN (domObj d) 9))
    s1.updDom d fun y => { y with incNext := y.incNext ++ [(a, due)] }

/-- What the device saw of each node (R363). -/
def noteNodes (area : Bytes) (n visited : Nat) (kept : List Nat) (s : State) : State :=
  let rs := readings s.herd.layout area
  s.updHerd fun h => { h with nodes := (upTo 64).foldl (fun (m : AMap HerdNode) i =>
    let old : HerdNode := AMap.get {} m i
    let seen := if bit visited i then n else old.visited
    match rs.find? (·.node == i) with
    | some x =>
      AMap.put {} m i
        { visited := seen, offset := ofSigned 64 x.offset, rate := ofSigned 32 x.rate, flags := x.flags,
          inAverage := kept.contains i }
    | none => AMap.put {} m i { old with visited := seen }) h.nodes }

/-- Averaging at the end of a frame of cycle n (R351, R352); e is a measurement where SOURCE is HERD (R246). -/
def averageFrame (area : Bytes) (n master visited : Nat) (s : State) : State :=
  match average s area n master with
  | none => (noteNodes area n visited [] s).bumpHerd 0x10
  | some a =>
    let s1 := noteNodes area n visited a.kept s
    if s1.domSource (herdDom s) = 3 then ringCorrect a.e a.r (measure (herdDom s) a.e.1 a.e.2 s1) else s1

/-- D from the two copies of one cycle (R349): stamps in quarter nanoseconds. -/
def takeDelay (loop tf tb : Nat) (s : State) : State :=
  let fd := forwardDelay (herdN s 6)
  let new : Int := ((loop * 2 ^ 14 : Nat) - (fd * 2 ^ 16 : Nat) - ((tb : Int) - (tf : Int)) * 2 ^ 14) / 2
  s.updHerd fun h => if h.dValid then { h with d := h.d + (new - h.d) / 16 } else { h with d := new, dValid := true }

/-- An unfolded copy with a good FCS arrives at a node: its stamp, and D once both copies are there (R349). -/
def noteCopy (b : Bytes) (q : Nat) (port : Nat) (s : State) : State :=
  let dir := hfDir b
  if bit (hfFlags b) 6 || port + dir != 1 then s
  else
    let cyc := hfCycle b
    let other := s.herd.stamps.find? fun x => x.1 == cyc && x.2.1 == 1 - dir
    let s1 := s.updHerd fun h => { h with stamps := (cyc, dir, q) :: h.stamps.take 3 }
    match other with
    | some (_, _, p) =>
      if hfLoop b = 0xFFFFFFFF then s1 else takeDelay (hfLoop b) (if dir = 0 then q else p) (if dir = 0 then p else q) s1
    | none => s1

/-! ## Mailboxes -/

/-- The present message of the own mailbox is done with (R353): acknowledged or abandoned. -/
def mailNext (s : State) : State :=
  s.updHerd fun h =>
    { h with
      mailOut := h.mailOut.drop 1, mailSeq := (h.mailSeq + 1) % 256, mailChunk := 0,
      mailSince := (cycleIndex s).getD 0 }

/-- A response toward a node's mailbox (R355): at most 8 are held. -/
def mailRespond (node : Nat) (b : Bytes) (s : State) : State :=
  if 8 ≤ s.herd.mailOut.length then s.bumpHerd 0x1C
  else s.updHerd fun h =>
    { h with
      mailOut := h.mailOut ++ [(node, b)],
      mailSince := if h.mailOut.isEmpty then (cycleIndex s).getD 0 else h.mailSince }

/-- An acknowledgement read in DEST's slot (R353). -/
def mailAcked (size : Nat) (b : Bytes) (node : Nat) (s : State) : State :=
  match s.herd.mailOut with
  | (to_, m) :: _ =>
    if to_ = node ∧ beAt b 4 1 = herdId s ∧ beAt b 5 1 = s.herd.mailSeq ∧ s.herd.mailChunk ≤ beAt b 6 1 then
      if s.herd.mailChunk + 1 < chunkCount m.length size then
        s.updHerd fun h => { h with mailChunk := h.mailChunk + 1, mailSince := (cycleIndex s).getD 0 }
      else mailNext s
    else s
  | [] => s

/-- An acknowledgement is owed to a sender (R354). -/
def oweAck (node seq chunk : Nat) (s : State) : State :=
  s.updHerd fun h => { h with acks := h.acks ++ [((cycleIndex s).getD 0, node, seq, chunk)] }

/-- NAP is served on the Herd Ring (R65, R67). -/
def ringNapOn (s : State) : Bool := isActive s.chip.mode && bit (s.cfgN 0x0400 1) 3

/-- A message is delivered: a NAP PDU on the Herd Ring path where that path is enabled (R65, R355). -/
def deliverMail (node : Nat) (b : Bytes) (s : State) : State :=
  let s1 := s.bumpHerd 0x18
  if ringNapOn s then napEnqueue { path := .ring, pdu := b, src := node } s1 else s1

/-- A chunk is stored (R354); the last one delivers the message (R355). -/
def storeChunk (node seq chunk : Nat) (data : Bytes) (last : Bool) (s : State) : State :=
  let old := if chunk = 0 then [] else ((AMap.find s.herd.mailIn node).map (·.data)).getD []
  let m : MailIn := { seq := seq, chunk := chunk, data := old ++ data, cycle := (cycleIndex s).getD 0, done := last }
  let s1 := oweAck node seq chunk (s.updHerd fun h => { h with mailIn := AMap.set h.mailIn node m })
  if last then deliverMail node m.data s1 else s1

/-- A chunk addressed to this node (R354). -/
def mailChunkIn (node : Nat) (b : Bytes) (s : State) : State :=
  let flags := beAt b 1 1
  let seq := beAt b 2 1
  let chunk := beAt b 3 1
  let data := b.drop 8
  let last := bit flags 6
  let known := match AMap.find s.herd.mailIn node with
    | some m => if m.seq = seq then some m else none
    | none => none
  match known with
  | some m =>
    if chunk ≤ m.chunk then
      let m1 := { m with cycle := (cycleIndex s).getD 0 }
      oweAck node seq chunk ((s.updHerd fun h => { h with mailIn := AMap.set h.mailIn node m1 }).bumpHerd 0x19)
    else if !m.done && chunk == m.chunk + 1 then storeChunk node seq chunk data last s
    else (s.updHerd fun h => { h with mailIn := AMap.del h.mailIn node }).bumpHerd 0x1A
  | none =>
    if bit flags 7 && chunk == 0 then storeChunk node seq 0 data last s
    else (s.updHerd fun h => { h with mailIn := AMap.del h.mailIn node }).bumpHerd 0x1A

/-- The mailbox slots of a slot area are read (R353, R354). -/
def readMail (area : Bytes) (s : State) : State :=
  (upTo 64).foldl (fun s node =>
    match findSlot s.herd.layout 3 node with
    | some (_, r) =>
      if node = herdId s then s
      else
        let b := slotBytes area r
        let own := match findSlot s.herd.layout 3 (herdId s) with | some (_, o) => slotN o 3 | none => 64
        let s1 := mailAcked own b node s
        if beAt b 0 1 = herdId s1 then mailChunkIn node b s1 else s1
    | none => s) s

/-- MAILBOX_RETRY_EXPIRY (R353, R354): the own message is abandoned, or the assembly of a sender's message. -/
def effMailboxRetryExpiry (sender : Nat) (s : State) : State :=
  let i := (cycleIndex s).getD 0
  let retry := herdN s 0x0F
  if !ringOn s then s
  else if sender = herdId s then
    if !s.herd.mailOut.isEmpty && decide (s.herd.mailSince + retry ≤ i) then (mailNext s).bumpHerd 0x1B else s
  else
    match AMap.find s.herd.mailIn sender with
    | some m =>
      if !m.done && decide (m.cycle + retry ≤ i) then
        (s.updHerd fun h => { h with mailIn := AMap.del h.mailIn sender }).bumpHerd 0x1B
      else s
    | none => s

/-! ## Claim slots and the RX image -/

/-- A member's counted claim in a claim slot of a frame of cycle n (R356). -/
def countedClaim (s : State) (area : Bytes) (r : Row) (n member : Nat) : Option Nat :=
  let b := slice (slotBytes area r) (8 * member) 8
  if bit (beAt b 6 1) 7 ∧ (n + 2 ^ 32 - beAt b 4 2) % 2 ^ 16 ≤ herdN s 0x10 then some (beAt b 0 4) else none

/-- The winner of a pair group (R356). -/
def claimWinner (s : State) (area : Bytes) (n g : Nat) : Option Nat :=
  match findSlot s.herd.layout 4 g with
  | none => none
  | some (_, r) =>
    let a := (countedClaim s area r n 0).getD 0
    let b := (countedClaim s area r n 1).getD 0
    if a = b then none else if b < a then some (slotN r 5) else some (slotN r 6)

/-- One slot of the RX image under CLAIM_FILTER (R356). -/
def filterSlot (n : Nat) (seen : Bytes) (x : Bytes × State) (e : Nat × Row) : Bytes × State :=
  let (area, s) := x
  let r := e.2
  if slotN r 0 = 1 ∧ slotN r 4 ≠ 0xFF ∧ herdN s 0x11 = 1 ∧ claimWinner s seen n (slotN r 4) ≠ some (slotN r 1) then
    let b := slotBytes seen r
    (putBytes area (slotN r 2) (nullData (beAt b 1 1) (beAt b 2 2) (slotN r 3)), s.bumpHerd 0x1E)
  else (area, s)

/-- The slot area is stored in the RX image bank not last used (R339). -/
def storeImage (n : Nat) (area : Bytes) (s : State) : State :=
  let (img, s1) := s.herd.layout.foldl (filterSlot n area) (area, s)
  pulse 98 (s1.updHerd fun h => { h with bank := 1 - h.bank, banks := setAt h.banks (1 - h.bank) img })

/-- The other member's counted claim in the slot of the own group is received (R438, R356). -/
def claimsSeen (n : Nat) (area : Bytes) (s : State) : State :=
  match findSlot s.herd.layout 4 (pairGroup s) with
  | none => s
  | some (_, r) =>
    [0, 1].foldl (fun s m =>
      if slotN r (5 + m) = herdId s then s
      else match countedClaim s area r n m with
        | some c => offerClaim c s
        | none => s) s

/-- What every node takes from a frame of cycle n processed with a good FCS, and the master from its merged result. -/
def takeFrame (area : Bytes) (n master visited : Nat) (s : State) : State :=
  storeImage n area (claimsSeen n area (readMail area (averageFrame area n master visited s)))

/-! ## Nodes -/

/-- A frame that R337 sends on without processing. -/
def passFrame (out : Nat) (b : Bytes) (ok : Bool) (s : State) : State := (sendRing out (throughDelay s) b (!ok) s).bumpHerd 2

/-- Why R338 forbids processing (R340): the counter; 0 where it counts none. -/
def notProcessed (s : State) (b : Bytes) : Option Nat :=
  if hfSub b ≠ 1 ∨ s.herd.role ≠ 4 then some 0
  else if hfLayout b ≠ s.herd.layoutId then some 0x0A
  else if bit (hfVisited b) (herdId s) then some 0x0B
  else if s.herd.processed.contains (hfCycle b) then some 0x0C
  else none

/-- The frame's cycle index, from its number and the own cycle. -/
def frameIndex (s : State) (b : Bytes) : Nat :=
  let i := (cycleIndex s).getD 0
  ((i : Int) + toSigned 32 ((hfCycle b + 2 ^ 32 - i % 2 ^ 32) % 2 ^ 32)).toNat

/-- The own clock block of a slot area. -/
def writeClock (cyc i q : Nat) (adjust : Int) (area : Bytes) (s : State) : Bytes × State :=
  match findSlot s.herd.layout 2 (herdId s) with
  | some (_, r) =>
    let (c, s1) := curBlock s cyc i q adjust
    (putBytes area (slotN r 2 + 16) c, s1)
  | none => (area, s)

/-- A processed cycle is still told apart from one with the same number 2^32 cycles on (R338, DEDUCED, log entry 81). -/
def nearCycle (n c : Nat) : Bool := decide ((toSigned 32 ((n + 2 ^ 32 - c) % 2 ^ 32)).natAbs < 2 ^ 30)

/-- A node processes a frame (R338) and sends it on. -/
def processFrame (out : Nat) (b : Bytes) (ok : Bool) (q : Nat) (s : State) : State :=
  let n := hfCycle b
  let area := padTo (areaLength s.herd.layout) (hfArea b)
  let (a1, s1) := writeClock n (frameIndex s b) q (hfAdjust b) area s
  let (a2, s2) := ownWrites (· == herdId s) n a1 s1
  let b1 := putBytes (putBytes b 54 (a2.take (b.length - 54))) 30 (beBytes 8 (hfVisited b ||| 2 ^ herdId s))
  let s3 := (sendRing out (throughDelay s2) b1 (!ok) s2).bumpHerd 1
  let s4 := s3.updHerd fun h =>
    { h with processed := n :: h.processed.filter (nearCycle n), lastSlots := area, lastLayout := h.layout }
  if ok then takeFrame area n (hfMaster b).id (hfVisited b) s4 else s4

/-- LOOP_DELAY of a frame from the current master is noted (R361). -/
def noteLoop (b : Bytes) (s : State) : State :=
  s.updHerd fun h => { h with loopShown := hfLoop b }

/-- A frame that the node may process on its route (R337, R338, R340). -/
def markedFrame (out : Nat) (b : Bytes) (ok : Bool) (q : Nat) (s : State) : State :=
  match notProcessed s b with
  | none => processFrame out b ok q s
  | some 0 => passFrame out b ok s
  | some c =>
    let s1 := passFrame out b ok (s.bumpHerd c)
    if c = 0x0A then detectFault 14 0 2 (hfMaster b).id s1 else s1

/-- A summation or null frame at a node (R337): processed, passed or discarded; D follows when its FCS has been found good (R349). -/
def routeFrame (port : Nat) (b : Bytes) (ok : Bool) (q : Nat) (s : State) : State :=
  match ringRoute s port with
  | none => s
  | some (out, marked, turned) =>
    let b1 := if turned then withFlags b 0x40 else b
    let s1 := if marked then markedFrame out b1 ok q s else passFrame out b1 ok s
    if ok && s.herd.role = 4 then noteCopy b q port (noteLoop b s1) else s1

/-! ## The master -/

/-- The master keeps a copy of its own frame (R344, R345). -/
def keepCopy (port : Nat) (b : Bytes) (ok : Bool) (q : Nat) (s : State) : State :=
  if hfCycle b = cycleNumber s ∧ s.herd.assembled.isNone then
    let len := (b.length + 4) * ringByte (herdN s 6)
    let dir := hfDir b
    let c : Kept := { dir := dir, port := port, bytes := b, good := ok, ends := s.cycle + (len + 624) / 625 }
    s.updHerd fun h =>
      { h with
        kept := h.kept ++ [c], heard := true,
        loop := if ok && port == 1 && dir == 0 then some (q - 4 * ringStart s ((cycleIndex s).getD 0)) else h.loop }
  else s

/-- The good copies of the present cycle, the one that arrived on HRB first (R344). -/
def goodCopies (s : State) : List Kept :=
  let g := s.herd.kept.filter fun c => c.good && hfSub c.bytes == 1
  (g.filter (·.port == 1)) ++ g.filter (·.port != 1)

/-- The copy whose VISITED bit is set for a node (R344). -/
def copyOf (s : State) (node : Nat) : Option Bytes :=
  ((goodCopies s).find? fun c => bit (hfVisited c.bytes) node).map fun c => hfArea c.bytes

/-- A member's claim field in the merged result, or as it last was (R343, R344). -/
def mergedClaim (s : State) (r : Row) (m : Nat) : Bytes :=
  let area := (copyOf s (slotN r (5 + m))).getD s.herd.lastSlots
  slice (slotBytes area r) (8 * m) 8

/-- The merged value of a slot in the present cycle (R344), none where no copy has it. -/
def mergedSlot (s : State) (r : Row) : Option Bytes :=
  let owner := if slotN r 1 = 0xFF then herdId s else slotN r 1
  (copyOf s owner).map fun a => slotBytes a r

/-- The merged slot area of the present cycle, of number n, in the layout of its frame (R343, R344, R359): null slots where no
copy has them. -/
def mergedArea (s : State) (n : Nat) : Bytes :=
  s.herd.lastLayout.foldl (fun a e =>
    let r := e.2
    let v := if slotN r 0 = 4 then mergedClaim s r 0 ++ mergedClaim s r 1 else (mergedSlot s r).getD (nullSlot r n)
    putBytes a (slotN r 2) v) (zeros (areaLength s.herd.lastLayout))

/-- A slot is the same in two layouts but for its place. -/
def sameSlot (a b : Row) : Bool := [0, 1, 3, 4, 5, 6].all fun k => slotN a k == slotN b k

/-- A merged slot area in the layout in force (R359): a slot that the frame's layout did not have is null (DEDUCED, log entry 82). -/
def carryArea (s : State) (n : Nat) (area : Bytes) : Bytes :=
  s.herd.layout.foldl (fun a e =>
    let r := e.2
    let v := match AMap.find s.herd.lastLayout e.1 with
      | some o => if sameSlot o r then slotBytes area o else nullSlot r n
      | none => nullSlot r n
    putBytes a (slotN r 2) v) (zeros (areaLength s.herd.layout))

/-- What a function does with a layout in force, which is then put back (R359). -/
def underLayout (l : AMap Row) (f : State → State) (s : State) : State :=
  (f (s.updHerd fun h => { h with layout := l })).updHerd fun h => { h with layout := s.herd.layout }

/-- The clock slots of the next frame, of cycle m (R343): PREV is the merged CUR, CUR is null but the master's own. -/
def nextClocks (s : State) (m : Nat) (area : Bytes) : Bytes :=
  (s.herd.layout.filter fun e => slotN e.2 0 == 2).foldl (fun a e =>
    let r := e.2
    let cur := (slotBytes area r).drop 16
    let own := slotN r 1 == herdId s
    let flags := 0xF0 + b2n (s.dom (herdDom s)).locked * 8
    let next := if own then clockBlock 0 0 flags (herdId s) m else nullClock (slotN r 1) m
    putBytes a (slotN r 2) (cur ++ next)) area

/-- A returned copy is still being received (R343). -/
def stillReceiving (s : State) : Bool := s.herd.kept.any fun c => decide (s.cycle < c.ends)

/-- Copies of the present cycle that have not begun to arrive (R344). -/
def missingCopies (s : State) : Nat := (s.herd.sent.filter fun k => !(s.herd.kept.map (·.dir)).contains k).length

/-- The visited bits of the good copies. -/
def mergedVisited (s : State) : Nat := ((goodCopies s).map fun c => hfVisited c.bytes).foldl (· ||| ·) 0

/-- The frame of cycle m after the merge of cycle n, of which a candidate sent no frame (R343). -/
def assembleFrame (n m : Nat) (s : State) : State :=
  let area := mergedArea s n
  let s1 := if s.herd.role = 3 then underLayout s.herd.lastLayout (takeFrame area n (herdId s) (mergedVisited s)) s else s
  let (a2, s2) := ownWrites (fun o => o == herdId s || o == 0xFF) m (nextClocks s1 m (carryArea s1 n area)) s1
  s2.updHerd fun h =>
    { h with
      assembled := some (ringFrame s2 1 m (2 ^ herdId s) 0xFFFFFFFF 0 a2, false), lastSlots := a2, lastLayout := h.layout }

/-- The device will originate the next cycle's frame (R346). -/
def originatesNext (s : State) : Bool :=
  s.herd.role == 3 || (s.herd.role == 2 && decide (herdN s 0x0E ≤ s.herd.bids))

/-- ASSEMBLY_INSTANT (R343): 2 us before the next own cycle start. -/
def effAssemblyInstant (s : State) : State :=
  let i := (cycleIndex s).getD 0
  if originatesNext s && s.herd.assembled.isNone && (cycleIndex s).isSome &&
      decide (ringStart s (i + 1) ≤ s.ns (herdDom s) + 2000) then
    let m := (i + 1) % 2 ^ 32
    let s1 := s.bumpBy 0x5002 0x11 0 (missingCopies s)
    if stillReceiving s1 then
      s1.updHerd fun h => { h with assembled := some (ringFrame s1 3 m (2 ^ herdId s) 0xFFFFFFFF 0 [], true) }
    else assembleFrame (i % 2 ^ 32) m s1
  else s

/-- LOOP_DELAY and MASTER_ADJUST of a frame at its S(n) (R345). -/
def finishHeader (b : Bytes) (s : State) : Bytes :=
  let adj := clampInt (s.herd.adjusted / 2 ^ 16) (-(2 ^ 63)) (2 ^ 63 - 1)
  putBytes b 38 (beBytes 4 s.herd.loopShown ++ beBytes 8 (ofSigned 64 adj))

/-- The master sends its frame of cycle m at S(m) (R342); without one assembled it sends a null frame (R32). -/
def sendMaster (m : Nat) (s : State) : State :=
  let (b, null) := s.herd.assembled.getD (ringFrame s 3 m (2 ^ herdId s) 0xFFFFFFFF 0 [], true)
  let s1 := s.updHerd fun h =>
    { h with
      assembled := none, kept := [], sent := [0, 1].filter fun k => (ringPort s k).inUse,
      loopShown := h.loop.getD 0xFFFFFFFF % 2 ^ 32 }
  let s2 := originate (finishHeader b s1) s1
  if null then s2.bumpHerd 4 else s2

/-- A candidate sends its bid of cycle m (R331, R346). -/
def sendBid (m : Nat) (s : State) : State :=
  originate (ringFrame s 2 m 0 0xFFFFFFFF 0 []) ((s.updHerd fun h => { h with bids := h.bids + 1, sent := [] }).bumpHerd 0x12)

/-- The LISTEN row of R346 at an own cycle start. -/
def listenStart (m : Nat) (s : State) : State :=
  if s.herd.silence = 3 ∧ herdN s 4 ≠ 0 then sendBid m (setHerdRole 2 (s.updHerd fun h => { h with bids := 0 })) else s

/-- The roles at an own cycle start of number m (R346); the master's D is 0 (R349). -/
def roleStart (m : Nat) (s : State) : State :=
  match s.herd.role with
  | 1 => listenStart m s
  | 2 =>
    if herdN s 0x0E ≤ s.herd.bids then
      let s1 := setMaster (some (selfMaster s)) (s.updHerd fun h => { h with bids := 0 })
      sendMaster m (setHerdRole 3 (s1.updHerd fun h => { h with d := 0, dValid := true }))
    else sendBid m s
  | 3 => sendMaster m s
  | 4 => if s.herd.silence = 3 then listenStart m (setHerdRole 1 (setMaster none s)) else s
  | _ => s

/-- Silence, and the offset correction applied since the last own cycle start (R345, R347, R350). -/
def countCycle (i : Nat) (s : State) : State :=
  let c := (s.dom (herdDom s)).corr
  let owner := s.domSource (herdDom s) == 3
  s.updHerd fun h =>
    { h with
      cycleNow := some i, silence := if h.heard then 0 else h.silence + 1, heard := false,
      adjusted := if owner then c - h.corrAt else 0, corrAt := c }

/-- HERD_CYCLE: an own cycle start S(n) (R341, R346, R347, R357, R358, R359). -/
def effHerdCycle (s : State) : State :=
  match cycleIndex s with
  | none => s
  | some i =>
    let after := match s.herd.cycleNow with
      | some j => decide (j < i)
      | none => true
    if ringOn s && after then
      pulse 97 (roleStart (i % 2 ^ 32) ([0, 1].foldl rejoinPort (takeLayout (countCycle i s))))
    else s

/-! ## Reception -/

/-- CYCLE lies within one of the own cycle number (R340). -/
def freshCycle (s : State) (b : Bytes) : Bool :=
  match cycleIndex s with
  | some i => ((hfCycle b + 2 ^ 32 - i % 2 ^ 32) % 2 ^ 32 ≤ 1) || ((hfCycle b + 2 ^ 32 - i % 2 ^ 32) % 2 ^ 32 == 2 ^ 32 - 1)
  | none => false

/-- FCS and length errors at the end of a frame are counted (R340). -/
def countEnd (b : Bytes) (ok : Bool) (s : State) : State :=
  if ok then s else if b.length < 14 + hfLen b then s.bumpHerd 8 else s.bumpHerd 7

/-- The frame's master becomes current and the frame is routed as at a node. -/
def followFrame (port : Nat) (b : Bytes) (ok : Bool) (q : Nat) (s : State) : State :=
  routeFrame port b ok q (setHerdRole 4 (setMaster (some (hfMaster b)) (s.updHerd fun h => { h with heard := true })))

/-- A summation or null frame by role (R340, R344, R346, R348). -/
def masterFrame (port : Nat) (b : Bytes) (ok : Bool) (q : Nat) (s : State) : State :=
  let m := hfMaster b
  match s.herd.role with
  | 1 => followFrame port b ok q s
  | 2 => if m.addr = herdN s 5 then s else followFrame port b ok q (ringYield s)
  | 3 =>
    if m.addr = herdN s 5 then keepCopy port b ok q s
    else if outranks m (selfMaster s) then followFrame port b ok q (ringYield s)
    else s.bumpHerd 0x0E
  | 4 =>
    let lower := match s.herd.current with
      | some c => outranks c m
      | none => false
    if lower then s.bumpHerd 0x0E else followFrame port b ok q s
  | _ => routeFrame port b ok q s

/-- A ring port that is on and IN_USE receives a frame of a subtype (R337). -/
def ringHears (s : State) (port : Nat) (b : Bytes) (ok : Bool) (sub : Nat) : Bool :=
  ringOn s && decide (port < 2) && (ringPort s port).inUse && hfClass b ok == 3 && hfSub b == sub

/-- A summation or null frame arrives. -/
def ringFrameIn (port : Nat) (b : Bytes) (ok : Bool) (q : Nat) (s : State) : State :=
  if freshCycle s b then masterFrame port b ok q (countEnd b ok s) else s.bumpHerd 0x0D

/-- SUMMATION_FRAME_RX (R338): `quarter` is the phase of its timestamp point. -/
def effSummationFrameRx (port : Nat) (b : Bytes) (fcsOk : Bool) (quarter : Nat) (s : State) : State :=
  if ringHears s port b fcsOk 1 then ringFrameIn port b fcsOk ((stampsNow s quarter).getD (herdDom s) 0) s else s

/-- NULL_FRAME_RX (R331, R343): `quarter` is the phase of its timestamp point. -/
def effNullFrameRx (port : Nat) (b : Bytes) (fcsOk : Bool) (quarter : Nat) (s : State) : State :=
  if ringHears s port b fcsOk 3 then ringFrameIn port b fcsOk ((stampsNow s quarter).getD (herdDom s) 0) (s.bumpHerd 5) else s

/-- A Rut bid is routed unchanged (R346). -/
def routeBid (port : Nat) (b : Bytes) (ok : Bool) (s : State) : State :=
  match ringRoute s port with
  | some (out, _, _) => passFrame out b ok s
  | none => s

/-- A Rut bid by role (R344, R346). -/
def bidFrame (port : Nat) (b : Bytes) (ok : Bool) (s : State) : State :=
  let m := hfMaster b
  match s.herd.role with
  | 2 =>
    if m.addr ≠ herdN s 5 ∧ outranks m (selfMaster s) then routeBid port b ok (ringYield s) else s
  | 3 => s.bumpHerd 0x14
  | _ => routeBid port b ok s

/-- RUT_BID_RX (R346). -/
def effRutBidRx (port : Nat) (b : Bytes) (fcsOk : Bool) (s : State) : State :=
  if ringHears s port b fcsOk 2 then
    if freshCycle s b then bidFrame port b fcsOk (countEnd b fcsOk s) else s.bumpHerd 0x0D
  else s

/-- OTHER_RING_FRAME_RX (R329): a frame that is no valid Herd frame is discarded and counted. -/
def effOtherRingFrameRx (port : Nat) (b : Bytes) (fcsOk : Bool) (s : State) : State :=
  if ringOn s && decide (port < 2) && (ringPort s port).link then
    match hfClass b fcsOk with
    | 1 => s.bumpHerd 9
    | 2 => s.bumpHerd 8
    | _ => s
  else s

/-! ## Cycle points -/

/-- The instant of an armed cycle point in nanoseconds of DOMAIN. -/
def pointInstant (s : State) (k i : Nat) : Nat := ringStart s i + herdN s (0x20 + k)

/-- Skips points already reached, from cycle index i, and arms the next (R357). -/
def armPoint (k i : Nat) (s : State) : State :=
  let next := max i (nextPoint s (herdN s (0x20 + k)))
  (s.bumpBy 0x5002 0x1D 0 (next - i)).updHerd fun h => { h with cps := AMap.set h.cps k next }

/-- HERD_CP (R357): an armed cycle point has been reached; after its tick it is past, and skipped (R32). -/
def effHerdCp (k : Nat) (s : State) : State :=
  match AMap.find s.herd.cps k with
  | some i =>
    let t := pointInstant s k i
    if s.reached (herdDom s) t then
      if s.overdue (herdDom s) t then armPoint k i s else armPoint k (i + 1) (pulse (81 + k) s)
    else s
  | none => s

/-- The cycle points that a forward step of domain d has jumped over (R253, R357). -/
def pointsSteppedOver (d : Nat) (s : State) : List Nat :=
  if herdDom s = d ∧ ringOn s then
    AMap.keysWhere (fun k i => s.reached d (pointInstant s k i)) s.herd.cps
  else []

/-- They are skipped; own cycle starts that were jumped over do not occur (R253, R341). -/
def herdStep (d : Nat) (s : State) : State :=
  if herdDom s = d ∧ ringOn s then
    let s1 := (pointsSteppedOver d s).foldl (fun s k => armPoint k (AMap.get 0 s.herd.cps k) s) s
    s1.updHerd fun h => { h with cycleNow := match h.cycleNow, cycleIndex s1 with
      | some j, some i => some (max i j)
      | none, x => x
      | x, none => x }
  else s

/-! ## The meanings -/

/-- RING_PORT_LINK_LOST: answers the state after its effect. -/
def execRingPortLinkLost (port : Nat) (s : State) : Answer := .next (effRingPortLinkLost port s)

/-- MAILBOX_RETRY_EXPIRY: answers the state after its effect. -/
def execMailboxRetryExpiry (sender : Nat) (s : State) : Answer := .next (effMailboxRetryExpiry sender s)

/-- ASSEMBLY_INSTANT: answers the state after its effect. -/
def execAssemblyInstant (s : State) : Answer := .next (effAssemblyInstant s)

/-- HERD_CYCLE: answers the state after its effect. -/
def execHerdCycle (s : State) : Answer := .next (effHerdCycle s)

/-- SUMMATION_FRAME_RX: answers the state after its effect. -/
def execSummationFrameRx (port : Nat) (b : Bytes) (fcsOk : Bool) (quarter : Nat) (s : State) : Answer := .next (effSummationFrameRx port b fcsOk quarter s)

/-- NULL_FRAME_RX: answers the state after its effect. -/
def execNullFrameRx (port : Nat) (b : Bytes) (fcsOk : Bool) (s : State) (quarter : Nat := 0) : Answer :=
  .next (effNullFrameRx port b fcsOk quarter s)

/-- RUT_BID_RX: answers the state after its effect. -/
def execRutBidRx (port : Nat) (b : Bytes) (fcsOk : Bool) (s : State) : Answer := .next (effRutBidRx port b fcsOk s)

/-- OTHER_RING_FRAME_RX: answers the state after its effect. -/
def execOtherRingFrameRx (port : Nat) (b : Bytes) (fcsOk : Bool) (s : State) : Answer := .next (effOtherRingFrameRx port b fcsOk s)

/-- HERD_CP: answers the state after its effect. -/
def execHerdCp (k : Nat) (s : State) : Answer := .next (effHerdCp k s)

end Sys2Proof.Machine
end

