-- ==== Sys2Proof/Machine/Ports.lean ====
section
/-!
DEFINITION. Links of the line and management ports (R101 to R108), auto-negotiation, verification of pre-emption (R117,
R121), and what a cutover does to them.
-/
namespace Sys2Proof.Machine

/-! ## Link state -/

/-- A PORT entry of a line port under an image. -/
def portCfg (s : State) (im : Image) (p sub : Nat) : Nat := imgNum s.ident im (0x1000 + p) sub

/-- Auto-negotiation runs on a port (R103); management ports by Clause 37 at 1000BASE-X (R122). -/
def autoneg (s : State) (p : Nat) : Bool :=
  if p < 256 then portCfg s s.cfg.running p 5 ≤ 1 && portCfg s s.cfg.running p 6 == 1
  else imgNum s.ident (mgtImage s) (mgtObj p) 2 == 0 && imgNum s.ident (mgtImage s) (mgtObj p) 3 == 1

/-- Link training runs on a port (R103). -/
def training (s : State) (p : Nat) : Bool :=
  p < 256 && portCfg s s.cfg.running p 5 ≤ 1 && portCfg s s.cfg.running p 7 == 1

/-- LINK_STATE without a fault or lock: TRAINING where the port negotiates or trains, else DOWN (DESIGN CHOICE, log entry 8). -/
def unlocked (s : State) (p : Nat) : Nat := if autoneg s p || training s p then 1 else 0

/-- LINK_STATE as it reads (R123, R125). -/
def linkState (s : State) (p : Nat) : Nat :=
  if isLine p && !portUsed s s.cfg.running p then 6
  else if !portOn s p then 5
  else (s.port p).shown

/-- LINK_CHANGE pulses when LINK_STATE has changed; a transition from UP counts (R104, R126, R411). -/
def noteLink (p was : Nat) (s : State) : State :=
  let now := linkState s p
  if now = was then s
  else
    let s1 := pulse 191 s
    if was = 2 then s1.bumpPort p 0x20 else s1

/-- LINK_UP_HOLD and LINK_DOWN_HOLD in core cycles; management ports have none. -/
def upHold (s : State) (p : Nat) : Nat := if p < 256 then msCycles (portCfg s s.cfg.running p 0x0A) else 0
def downHold (s : State) (p : Nat) : Nat := if p < 256 then msCycles (portCfg s s.cfg.running p 0x0B) else 0

/-- A port that can have a link: present, used, on, in a device state from LOAD onwards. -/
def linkable (s : State) (p : Nat) : Bool :=
  isAlive s.chip.mode && ((isLine p && linePortPresent s.ident p) || isMgt p) && portOn s p

/-! ## Verification -/

/-- Verification runs on a port: PREEMPT_ENABLE 1, VERIFY_DISABLE 0 (R117). -/
def verifies (s : State) (p : Nat) : Bool := preemptCfg s p 1 == 1 && preemptCfg s p 3 == 0

/-- Step 2 of R117: a verify frame is due, n having gone unanswered. -/
def sendVerify (p n : Nat) (s : State) : State :=
  sendControl p (s.updPort p fun x => { x with verify := 2, verifySent := n, owed := x.owed.filter (!·) ++ [true] })

/-- VERIFY_FRAME_RECEIVED (R117, R118, R122): answered by a respond frame, once the port transmits frames (R105). -/
def effVerifyFrameReceived (p : Nat) (s : State) : State :=
  if macReceives s p then sendControl p (takeVerify p s) else s

/-- RESPOND_FRAME_RECEIVED (R117). -/
def effRespondFrameReceived (p : Nat) (s : State) : State := if macReceives s p then takeRespond p s else s

/-- VERIFY_TIME_EXPIRY (R117, R121): also of a verification that a cutover has started under VERIFY_DISABLE 1. -/
def effVerifyTimeExpiry (p : Nat) (s : State) : State :=
  let x := s.port p
  if preemptCfg s p 1 == 1 && x.up && x.verify == 2 && !x.owed.contains true && decide (x.verifyDue ≤ s.cycle) then
    if x.verifySent < preemptCfg s p 5 then sendVerify p x.verifySent s
    else (s.updPort p fun x => { x with verify := 4 }).bumpPort p 0x1E
  else s

/-! ## Link events -/

/-- LINK_UP (R104, R117); 264 and 265 name the ring ports HRA and HRB (R337; DEDUCED, log entry 20). -/
def effLinkUp (p : Nat) (s : State) : State :=
  if p = 264 ∨ p = 265 then ringLinkUp (p - 264) s
  else if linkable s p && !(s.port p).up then
    let s1 := s.updPort p fun x => { x with up := true, fault := 1, changedAt := s.cycle }
    if verifies s1 p then sendVerify p 0 s1 else sendControl p s1
  else s

/-- The frame under assembly is discarded at a link-down (R118). -/
def dropAssembly (p : Nat) (s : State) : State := if (s.port p).asm.isSome then assemblyError p s else s

/-- The margin trend of a port's lanes restarts (R472). -/
def dropMargins (p : Nat) (s : State) : State :=
  { s with health := { s.health with margins := s.health.margins.filter fun e => lanePort s e.1 != p } }

/-- A link is no longer up; its verification is over until the next link-up (R117). -/
def fallLink (p fault : Nat) (s : State) : State :=
  (dropMargins p (dropAssembly p s)).updPort p fun x => { x with up := false, fault := fault, changedAt := s.cycle, verify := 1, owed := x.owed.filter (!·) }

/-- LINK_DOWN (R104): `cause` is 3 for a local fault, 4 for remote fault received, otherwise loss of lock. -/
def effLinkDown (p cause : Nat) (s : State) : State :=
  let fault := if cause = 3 ∨ cause = 4 then cause else 0
  if linkable s p && ((s.port p).up || (s.port p).fault != fault) then
    let s1 := fallLink p fault s
    if fault = 3 then
      let s2 := s1.bumpPort p 0x21
      if s.chip.mode == .run && p < 256 then detectFault 2 (sliceOf p) 1 p s2 else s2
    else if fault = 4 then s1.bumpPort p 0x22
    else s1
  else s

/-- LINK_UP_HOLD_EXPIRY (R104). -/
def effLinkUpHoldExpiry (p : Nat) (s : State) : State :=
  if linkable s p && (s.port p).up && decide ((s.port p).changedAt + upHold s p ≤ s.cycle) then
    noteLink p (linkState s p) (s.updPort p fun x => { x with shown := 2 })
  else s

/-- LINK_DOWN_HOLD_EXPIRY (R104). -/
def effLinkDownHoldExpiry (p : Nat) (s : State) : State :=
  if linkable s p && !(s.port p).up && decide ((s.port p).changedAt + downHold s p ≤ s.cycle) then
    let f := (s.port p).fault
    let shown := if f = 3 ∨ f = 4 then f else unlocked s p
    noteLink p (linkState s p) (s.updPort p fun x => { x with shown := shown })
  else s

/-- F2 of a Clause 73 base page, 25G RS-FEC requested (PRESUMED, log entry 18). -/
def requestsRsFec (ability : Nat) : Bool := bit ability 44

/-- Auto-negotiation that found no common technology (R103): counted, and started again with the same base page. -/
def failAn (p page : Nat) (s : State) : State :=
  let s1 := (s.updPort p fun x => { x with ability := if p < 256 then page else x.ability }).bumpPort p 0x23
  if p < 256 then s1.emit (.basePage p (basePage s1 p)) else s1

/-- A 25 Gbit/s port with FEC_MODE NONE treats a partner that sets F2 as offering no common technology (R101, R103). -/
def refusesFec (s : State) (p page : Nat) : Bool :=
  lineSpeed s s.cfg.running p == 25 && portCfg s s.cfg.running p 4 == 1 && requestsRsFec page

/-- AN_RESOLUTION (R101, R103): PARTNER_ABILITY, and the FEC where negotiation decides it. -/
def effAnResolution (p ability : Nat) (s : State) : State :=
  if linkable s p && autoneg s p then
    let page := ability % 2 ^ 48
    if p < 256 && refusesFec s p page then failAn p page s
    else
      s.updPort p fun x =>
        { x with
          ability := if p < 256 then page else x.ability,
          fec := if fecNegotiated s s.cfg.running p then b2n (requestsRsFec page) else x.fec }
  else s

/-- AN_FAILURE (R103). -/
def effAnFailure (p ability : Nat) (s : State) : State :=
  if linkable s p && autoneg s p then failAn p (ability % 2 ^ 48) s else s

/-- LPI_RECEIVED (R102, R126). -/
def effLpiReceived (p : Nat) (s : State) : State := if macReceives s p then s.bumpPort p 0x0B else s

/-! ## Settings -/

/-- The port drops its link and starts it again (R108); where it negotiates by Clause 73 it advertises its base page (R103).
LINK_STATE shows the restart at once, without LINK_DOWN_HOLD (DESIGN CHOICE, log entry 64). -/
def startLink (p : Nat) (s : State) : State :=
  let s1 := fallLink p 0 s
  let s2 := s1.updPort p fun x => { x with shown := unlocked s1 p }
  if p < 256 && linkable s2 p && autoneg s2 p then s2.emit (.basePage p (basePage s2 p)) else s2

/-- A restart under changed settings (R107, R108): the FEC waits for the next resolution (R101). -/
def restartLink (p : Nat) (s : State) : State := startLink p (s.updPort p fun x => { x with fec := 0 })

/-- The entries of a line port whose change restarts its link (R108), and its quad's mode. -/
def restarts (s : State) (old new : Image) (p : Nat) : Bool :=
  quadMode s old p != quadMode s new p ||
  [4, 6, 7, 5].any fun sub => portCfg s old p sub != portCfg s new p sub

/-- A port that stops being on drops its link; one that starts being on starts it (R108, R429). -/
def linkPower (p : Nat) (wasOn : Bool) (s : State) : State := if wasOn = portOn s p then s else startLink p s

/-- The verification status after a change of a PREEMPTION object: by R121 at a cutover. When a loaded image takes effect
(R107), R117 starts no verification under VERIFY_DISABLE 1, and a status that was DISABLED becomes INITIAL (DEDUCED, log
entry 42). -/
def cutVerify (cut : Bool) (old : Image) (p : Nat) (s : State) : State :=
  let was := fun sub => imgNum s.ident old (0x1100 + p) sub
  if [1, 2, 3, 4, 5, 6].all fun sub => was sub == preemptCfg s p sub then s
  else
    let x := s.port p
    if preemptCfg s p 1 = 0 then s
    else if !x.up then s.updPort p fun x => { x with verify := 1 }
    else if !cut && preemptCfg s p 3 = 1 then s.updPort p fun x => { x with verify := max 1 x.verify }
    else if was 1 = 0 ∨ (was 3 = 1 ∧ preemptCfg s p 3 = 0) then sendVerify p 0 s
    else if preemptCfg s p 3 = 1 then s
    else if x.verify = 4 ∨ x.verify = 2 then sendVerify p 0 s
    else s

/-- A line port under changed settings (R107, R108); `s0` is the state before. -/
def cutPort (s0 : State) (old : Image) (s : State) (p : Nat) : State :=
  let new := s.cfg.running
  let s1 := if restarts s old new p then restartLink p s else linkPower p (portOn s0 p) s
  let s2 := if portUsed s old p && !portUsed s new p then
      (upTo 8).foldl (fun s tc => emptyQueue p tc (unlinkWhere (fun _ => true) 0x13 p tc s)) (dropSending p s1)
    else s1
  noteLink p (linkState s0 p) (cutVerify (s0.chip.mode == s.chip.mode) old p s2)

/-- A management port under changed settings. -/
def cutMgt (s0 : State) (s : State) (p : Nat) : State :=
  let fld := fun (s : State) (sub : Nat) => imgNum s.ident (mgtImage s) (mgtObj p) sub
  let s1 := if fld s0 2 ≠ fld s 2 ∨ fld s0 3 ≠ fld s 3 then restartLink p s else linkPower p (portOn s0 p) s
  noteLink p (linkState s0 p) s1

/-- The line ports of the device. -/
def linePorts (s : State) : List Nat := (upTo 256).filter fun p => linePortPresent s.ident p

/-- Every port takes the settings in force now, `s0` and `old` being those before (R107, R108, R121, R122). -/
def applyPorts (s0 : State) (old : Image) (s : State) : State :=
  [260, 261].foldl (cutMgt s0) ((linePorts s).foldl (cutPort s0 old) s)

/-! ## The meanings -/

/-- VERIFY_FRAME_RECEIVED: answers the state after its effect. -/
def execVerifyFrameReceived (p : Nat) (s : State) : Answer := .next (effVerifyFrameReceived p s)

/-- RESPOND_FRAME_RECEIVED: answers the state after its effect. -/
def execRespondFrameReceived (p : Nat) (s : State) : Answer := .next (effRespondFrameReceived p s)

/-- VERIFY_TIME_EXPIRY: answers the state after its effect. -/
def execVerifyTimeExpiry (p : Nat) (s : State) : Answer := .next (effVerifyTimeExpiry p s)

/-- LINK_UP: answers the state after its effect. -/
def execLinkUp (p : Nat) (s : State) : Answer := .next (effLinkUp p s)

/-- LINK_DOWN: answers the state after its effect. -/
def execLinkDown (p : Nat) (cause : Nat) (s : State) : Answer := .next (effLinkDown p cause s)

/-- LINK_UP_HOLD_EXPIRY: answers the state after its effect. -/
def execLinkUpHoldExpiry (p : Nat) (s : State) : Answer := .next (effLinkUpHoldExpiry p s)

/-- LINK_DOWN_HOLD_EXPIRY: answers the state after its effect. -/
def execLinkDownHoldExpiry (p : Nat) (s : State) : Answer := .next (effLinkDownHoldExpiry p s)

/-- AN_RESOLUTION: answers the state after its effect. -/
def execAnResolution (p : Nat) (ability : Nat) (s : State) : Answer := .next (effAnResolution p ability s)

/-- AN_FAILURE: answers the state after its effect. -/
def execAnFailure (p : Nat) (ability : Nat) (s : State) : Answer := .next (effAnFailure p ability s)

/-- LPI_RECEIVED: answers the state after its effect. -/
def execLpiReceived (p : Nat) (s : State) : Answer := .next (effLpiReceived p s)

end Sys2Proof.Machine
end

