-- ==== Sys2Proof/Machine/Triggers.lean ====
section
/-!
DEFINITION. Time triggers (R312 to R318) and event inputs (R320 to R322).
-/
namespace Sys2Proof.Machine

/-! ## Settings -/

/-- The object of a trigger, output n (0 to 31) or internal trigger k as 32 + k (R323, R324). -/
def trigObj (n : Nat) : Nat := if n < 32 then 0x4100 + n else 0x4100 + (n - 32) / 2

/-- The subindex base of an internal trigger's entries. -/
def trigBase (n : Nat) : Nat := if n % 2 = 0 then 0x20 else 0x30

/-- A trigger setting under an image by its output subindex 0x01 to 0x06, 0x08 and 0x0B (R323, R324). -/
def trigCfg (s : State) (im : Image) (n sub : Nat) : Nat :=
  if n < 32 then imgNum s.ident im (trigObj n) sub
  else
    let off := if sub ≤ 6 then sub - 1 else if sub = 8 then 6 else 7
    imgNum s.ident im (trigObj n) (trigBase n + off)

/-- A trigger's setting in force. -/
def trigSet (s : State) (n sub : Nat) : Nat := trigCfg s s.cfg.running n sub

/-- A trigger counts: instants fired (0x13), instants skipped (0x14), starts ignored (0x15, outputs only). -/
def countTrig (n sub by_ : Nat) (s : State) : State :=
  if n < 32 then s.bumpBy (trigObj n) sub 0 by_
  else if sub = 0x15 then s
  else s.bumpBy (trigObj n) (trigBase n + sub - 0x0A) 0 by_

/-- A trigger's progress. -/
def State.trigger (s : State) (n : Nat) : Trigger := AMap.get {} s.trig.trigs n

/-- Changes a trigger's progress. -/
def State.updTrig (s : State) (n : Nat) (f : Trigger → Trigger) : State :=
  { s with trig := { s.trig with trigs := AMap.upd {} s.trig.trigs n f } }

/-- A trigger works: RUN with ENABLE 1 (R315, R317). -/
def trigWorks (s : State) (n : Nat) : Bool := s.chip.mode == .run && trigSet s n 1 == 1

/-! ## The grid -/

/-- The period in 2^-32 ns; inert with COUNT 1 (R312). -/
def trigPeriod (s : State) (n : Nat) : Nat := if trigSet s n 8 = 1 then 0 else trigSet s n 5 * 2 ^ 32 + trigSet s n 6

/-- The rounded instant i(j) in quarter nanoseconds (R312). -/
def gridInstant (s : State) (n j : Nat) : Nat :=
  ((trigSet s n 3 * 2 ^ 32 + trigSet s n 4 + j * trigPeriod s n) % 2 ^ 80 + 2 ^ 29) / 2 ^ 30 % 2 ^ 50

/-- The least j, from `from_` upwards, whose rounded instant lies at least `q` quarter nanoseconds ahead of NS; none
when the grid has no such instant. -/
def firstAhead (s : State) (n from_ q : Nat) : Option Nat :=
  let d := trigSet s n 2
  let p := trigPeriod s n
  let x : Int := (trigSet s n 3 * 2 ^ 32 + trigSet s n 4 + from_ * p : Nat)
  let ahead := (x - (s.ns d * 2 ^ 32 : Nat) + 2 ^ 79) % 2 ^ 80 - 2 ^ 79
  let need : Int := (q * 2 ^ 30 : Nat) - 2 ^ 29 - ahead
  if need ≤ 0 then some from_
  else if p = 0 then none
  else some (from_ + ((need + p - 1) / p).toNat)

/-- The grid or burst has no instant left: finished on an absolute grid, else waiting for a start (R313, R314). -/
def trigDone (n : Nat) (s : State) : State :=
  s.updTrig n fun x =>
    { x with state := if trigSet s n 0x0B = 0xFFFF then 3 else 1, armed := none, left := 0, issued := 0 }

/-- Instants are skipped (R314). -/
def trigSkip (n k : Nat) (s : State) : State :=
  if k = 0 then s
  else
    detectFault 13 0 1 n (countTrig n 0x14 k ((s.updTrig n fun x => { x with skippedBit := true }).hit (.skipped n) 0))

/-- The trigger arms the compare of instant j with `left` instants to go (0 unlimited, as COUNT says): instants already
past are skipped in the same tick (R314). -/
def armInstant (n j left : Nat) (s : State) : State :=
  let limited := trigSet s n 8 != 0
  (firstAhead s n j 4).elim (trigDone n (trigSkip n 1 s)) fun j1 =>
    let gone := if limited then min left (j1 - j) else j1 - j
    let s1 := trigSkip n gone s
    if limited && left ≤ gone then trigDone n s1
    else s1.updTrig n fun x =>
      { x with
        state := 2, j := j1, left := if limited then left - gone else 0, armed := some (gridInstant s n j1),
        issued := x.issued - (j1 - j) }

/-- A grid or burst begins (R313): from the first instant at least 16 ns ahead. -/
def openBurst (n : Nat) (s : State) : State :=
  let count := trigSet s n 8
  (firstAhead s n 0 64).elim (trigDone n s) fun j0 =>
    if trigSet s n 0x0B = 0xFFFF then
      if 0 < count ∧ count ≤ j0 then trigDone n s else armInstant n j0 (count - j0) s
    else armInstant n j0 count s

/-- The last instant of a burst falls in the present tick and has not fired yet (R318). -/
def lastNow (s : State) (n : Nat) : Bool :=
  let x := s.trigger n
  match x.armed with
  | some q => trigSet s n 8 != 0 && decide (x.left ≤ 1) && s.reached (trigSet s n 2) (q / 4) && !s.overdue (trigSet s n 2) (q / 4)
  | none => false

/-- A start (R313): ignored while a burst runs. In the tick of the burst's last instant it waits for that instant and opens a
new burst (R318). -/
def takeTrigStart (n : Nat) (s : State) : State :=
  if (s.trigger n).state = 2 then
    if lastNow s n && trigSet s n 0x0B != 0xFFFF then s.updTrig n fun x => { x with again := true }
    else countTrig n 0x15 1 s
  else openBurst n s

/-- The trigger is an internal one whose own line is its ARM_LINE (R317). -/
def armsItself (s : State) (n : Nat) : Bool := decide (32 ≤ n) && trigSet s n 0x0B == 1 + (n - 32)

/-- TRIGGER_START (R313): an owed start, of RUN entry, of a cutover or of a pulse of ARM_LINE, is taken. One of the trigger's own
line restarts its burst (R317). -/
def effTriggerStart (n : Nat) (s : State) : State :=
  if n < 96 ∧ trigWorks s n ∧ 0 < (s.trigger n).starts then
    let s1 := s.updTrig n fun x => { x with starts := x.starts - 1 }
    if armsItself s n then openBurst n s1 else takeTrigStart n s1
  else s

/-- Starts by register: the triggers from `base` whose bit is set and whose ARM_LINE is not 0xFFFF (R313, R326). -/
def armMask (base mask : Nat) (s : State) : State :=
  (upTo 32).foldl (fun s b =>
    if bit mask b && trigWorks s (base + b) && trigSet s (base + b) 0x0B != 0xFFFF then takeTrigStart (base + b) s else s) s

/-- OUT_ARM (R326). -/
def effOutArm (f mask : Nat) (s : State) : State :=
  if s.barReach f then armMask 0 mask s else refuseBar f true s

/-- INT_ARM_LO and INT_ARM_HI (R326). -/
def effIntArm (f : Nat) (hi : Bool) (mask : Nat) (s : State) : State :=
  if s.barReach f then armMask (if hi then 64 else 32) mask s else refuseBar f true s

/-- A pulse of an event-matrix line owes a start to each working trigger that names it as ARM_LINE (R313, R410). -/
def lineStarts (line : Nat) (s : State) : State :=
  (upTo 96).foldl (fun s n =>
    if trigWorks s n && trigSet s n 0x0B == line then s.updTrig n fun x => { x with starts := x.starts + 1 } else s) s

/-! ## Instants -/

/-- The present instant in quarter nanoseconds of the time clock: a core cycle is two and a half. -/
def quarterNow (s : State) : Int := (s.cycle * 5 / 2 : Nat)

/-- The quarter nanosecond of the time clock at which the edge of an instant reached in a tick leaves the ball (R312, R316):
OUT_DELAY earlier than the placed instant. -/
def edgeAt (s : State) (n tick q : Nat) : Int := (4 * tick + q % 4 : Nat) - toSigned 32 (trigSet s n 0x0C)

/-- The pulse whose leading edge leaves the ball at an instant (R315): WIDTH quarter nanoseconds of the time clock. -/
def pulseFrom (s : State) (n : Nat) (e : Int) : Pulse :=
  { on := e, off := e + (trigSet s n 7 : Nat), high := trigSet s n 9 == 0 }

/-- A pulse is placed; those that have ended are forgotten. -/
def placePulse (n : Nat) (e : Int) (s : State) : State :=
  s.updTrig n fun x => { x with pulses := (x.pulses.filter fun u => decide (quarterNow s < u.off)) ++ [pulseFrom s n e] }

/-- The ticks until a domain reaches an instant at its present increment; 0 where it has reached it. -/
def ticksUntil (s : State) (d t : Nat) : Nat :=
  let x := s.dom d
  let away := s.ahead d t * 2 ^ 32 - (x.value.toNat % 2 ^ 32 : Nat)
  if s.reached d t then 0 else ((away + ((incNow x).toNat : Int) - 1) / ((max 1 (incNow x).toNat : Nat) : Int)).toNat

/-- The first instant, from the armed one on, whose edge has not been issued (R316). -/
def nextEdge (s : State) (n : Nat) : Option Nat :=
  let x := s.trigger n
  if x.armed.isSome && (trigSet s n 8 == 0 || decide (x.issued < x.left)) then some (x.j + x.issued) else none

/-- Edges that OUT_DELAY makes leave before their instants, as they come due (R316; DEDUCED, log entry 78). -/
def issueEdges (n : Nat) : Nat → State → State
  | 0, s => s
  | k + 1, s =>
    match nextEdge s n with
    | some j =>
      let q := gridInstant s n j
      let d := trigSet s n 2
      let e := edgeAt s n (tickOf s.cycle + ticksUntil s d (q / 4)) q
      if !s.reached d (q / 4) && decide (e ≤ quarterNow s) then
        issueEdges n k ((placePulse n e s).updTrig n fun x => { x with issued := x.issued + 1 })
      else s
    | none => s

/-- The edges of every output that are due in a core cycle: a period holds at least 10 ns (R319), so at most 1,001 of one
output lie within OUT_DELAY. -/
def issueDue (s : State) : State :=
  if s.chip.mode == .run then
    ((s.trig.trigs.filter fun e => decide (e.1 < 32) && e.2.armed.isSome).map (·.1)).foldl (fun s n =>
      if 0 < toSigned 32 (trigSet s n 0x0C) then issueEdges n 1001 s else s) s
  else s

/-- An output's instant fires: its pulse is placed, unless OUT_DELAY has made its edge leave already (R314, R316). -/
def placeInstant (n q : Nat) (s : State) : State :=
  if 0 < (s.trigger n).issued then s.updTrig n fun x => { x with issued := x.issued - 1 }
  else placePulse n (edgeAt s n (tickOf s.cycle) q) s

/-- A start that came in the tick of the last instant opens a new burst (R318). -/
def takeAgain (n : Nat) (s : State) : State :=
  let x := s.trigger n
  if x.again && x.state != 2 then openBurst n (s.updTrig n fun x => { x with again := false }) else s

/-- An armed compare fires: the edge or pulse is placed and the next instant is armed (R314, R315, R317). -/
def fireInstant (n q : Nat) (s : State) : State :=
  let x := s.trigger n
  let s1 := countTrig n 0x13 1 s
  let s2 := if n < 32 then placeInstant n q s1 else pulse (1 + (n - 32)) s1
  if trigSet s n 8 ≠ 0 ∧ x.left ≤ 1 then trigDone n s2 else armInstant n (x.j + 1) (x.left - 1) s2

/-- TRIGGER_INSTANT (R314): the armed compare has been reached. After the tick of the instant it is past, and skipped (R32). -/
def effTriggerInstant (n : Nat) (s : State) : State :=
  match (s.trigger n).armed with
  | some q =>
    let d := trigSet s n 2
    if n < 96 ∧ trigWorks s n ∧ s.reached d (q / 4) then
      takeAgain n (if s.overdue d (q / 4) then armInstant n (s.trigger n).j (s.trigger n).left s else fireInstant n q s)
    else s
  | none => s

/-- INT_TRIG (R317): an internal trigger's armed compare has been reached. -/
def effIntTrig (k : Nat) (s : State) : State := if k < 64 then effTriggerInstant (32 + k) s else s

/-- TRIGGER_PULSE_END (R315): WIDTH after its edge the output is inactive again. -/
def effTriggerPulseEnd (n : Nat) (s : State) : State :=
  if (s.trigger n).pulses.any fun u => decide (u.off ≤ quarterNow s) then
    s.updTrig n fun x => { x with pulses := x.pulses.filter fun u => decide (quarterNow s < u.off) }
  else s

/-- The pulse of an output that covers a quarter nanosecond of the time clock. -/
def pulseAt (s : State) (n : Nat) (q : Int) : Option Pulse :=
  (s.trigger n).pulses.find? fun u => decide (u.on ≤ q) && decide (q < u.off)

/-- The level of TRIG_OUT[n] at a quarter nanosecond of the present core cycle (R67, R315, R512): 0 low, 1 high, 2 high
impedance. -/
def trigLevelAt (s : State) (n : Nat) (q : Int) : Nat :=
  match s.chip.mode with
  | .off => 2
  | .reset => 2
  | .run => active (if trigSet s n 1 = 1 then b2n (trigSet s n 9 == 1) else trigSet s n 0x0A)
  | .armed => active (trigSet s n 0x0A)
  | .safe => if s.cfg.passed then trigSet s n 0x0A else 0
  | _ => 0
where
  /-- The active level in a pulse, and the level given outside one. -/
  active (rest : Nat) : Nat := match pulseAt s n q with | some u => b2n u.high | none => rest

/-- The level of TRIG_OUT[n] at the start of the present core cycle. -/
def trigLevel (s : State) (n : Nat) : Nat := trigLevelAt s n (quarterNow s)

/-- A forward step of domain d skips the armed instants that it has jumped over; their number (R253, R314). -/
def trigSteppedOver (d : Nat) (s : State) : List Nat :=
  (s.trig.trigs.filter fun e =>
    match e.2.armed with
    | some q => trigSet s e.1 2 == d && s.reached d (q / 4)
    | none => false).map (·.1)

/-- The triggers stepped over skip and arm anew. -/
def trigStep (d : Nat) (s : State) : State :=
  (trigSteppedOver d s).foldl (fun s n => armInstant n (s.trigger n).j (s.trigger n).left s) s

/-! ## Device states and cutovers -/

/-- A trigger parks (R315): a pulse in progress completes its width, one not yet begun is not issued. -/
def parked (s : State) (x : Trigger) : Trigger :=
  { x with
    state := 0, armed := none, left := 0, starts := 0, again := false, issued := 0,
    pulses := x.pulses.filter fun u => decide (u.on ≤ quarterNow s) }

/-- A trigger begins to work (R313): an absolute grid starts, another trigger waits for a start. -/
def trigBegin (n : Nat) (s : State) : State :=
  if trigWorks s n then
    let starts := if trigSet s n 0x0B = 0xFFFF then 1 else 0
    s.updTrig n fun x => { x with state := 1, armed := none, left := 0, starts := starts, again := false, issued := 0 }
  else s.updTrig n (parked s)

/-- Entry to RUN. -/
def trigEnterRun (s : State) : State := (upTo 96).foldl (fun s n => trigBegin n s) s

/-- Leaving RUN parks every trigger (R315). -/
def trigLeaveRun (s : State) : State :=
  { s with trig := { s.trig with trigs := s.trig.trigs.map fun (e : Nat × Trigger) => (e.1, parked s e.2) } }

/-- Outside ARMED and RUN no output completes a pulse (R67, R315): PARK_LEVEL or low is driven at once. -/
def trigCut (s : State) : State :=
  { s with trig := { s.trig with trigs := s.trig.trigs.map fun (e : Nat × Trigger) => (e.1, { e.2 with pulses := [] }) } }

/-- The entries of a trigger. -/
def trigSubs (n : Nat) : List Nat := if n < 32 then [1, 2, 3, 4, 5, 6, 7, 8, 9, 0x0A, 0x0B, 0x0C] else [1, 2, 3, 4, 5, 6, 8, 0x0B]

/-- Triggers at a cutover (R318): one whose settings changed discards its armed compare and starts again. -/
def trigCutover (old : Image) (s : State) : State :=
  (upTo 96).foldl (fun s n =>
    if (trigSubs n).any fun sub => trigCfg s old n sub != trigSet s n sub then trigBegin n s else s) s

/-! ## Event inputs -/

/-- An event input's setting (R325). -/
def evSet (s : State) (i sub : Nat) : Nat := s.cfgN (0x4200 + i) sub

/-- An event input. -/
def State.ev (s : State) (i : Nat) : EvIn := AMap.get {} s.trig.evin i

/-- Changes an event input. -/
def State.updEv (s : State) (i : Nat) (f : EvIn → EvIn) : State :=
  { s with trig := { s.trig with evin := AMap.upd {} s.trig.evin i f } }

/-- A change rejected under R320. -/
def rejectChange (i : Nat) (s : State) : State := s.bump (0x4200 + i) 0x11

/-- The level that a change of the pin is measured against: that of the last change under the filter, or the accepted one. -/
def lastLevel (x : EvIn) : Bool := match x.changes.getLast? with | some c => c.2.2 | none => x.level

/-- A change of a pin enters the filter, or ends a pulse shorter than FILTER, which is rejected (R320). -/
def takeChangeAt (i : Nat) (level : Bool) (quarter : Nat) (s : State) : State :=
  let at_ := 4 * tickOf s.cycle + quarter % 4
  match (s.ev i).changes.getLast? with
  | some c =>
    if at_ < c.2.1 + 4 * evSet s i 3 then rejectChange i (s.updEv i fun x => { x with changes := x.changes.dropLast })
    else s.updEv i fun x => { x with changes := x.changes ++ [(stampsNow s quarter, at_, level)] }
  | none => s.updEv i fun x => { x with changes := [(stampsNow s quarter, at_, level)] }

/-- EV_IN_CHANGE (R320): the pin's level changes; a change under the filter that turns back within FILTER is rejected. -/
def effEvInChange (i : Nat) (level : Bool) (quarter : Nat) (s : State) : State :=
  if i < 16 ∧ isAlive s.chip.mode ∧ (s.ev i).pin ≠ level then
    let s1 := s.updEv i fun x => { x with pin := level }
    if lastLevel (s.ev i) ≠ level then takeChangeAt i level quarter s1 else s1
  else s

/-- Event inputs capture in ARMED, RUN and SAFE (R321). -/
def evCaptures : Mode → Bool
  | .armed => true | .run => true | .safe => true | _ => false

/-- CAP_STATUS as it reads (R326). -/
def capStatus (x : EvIn) : Nat := b2n x.valid + 2 * b2n x.rising + 256 * x.overrun

/-- A capture stands (R322 step 1): `q` is its stamp in quarter nanoseconds. -/
def standCapture (i : Nat) (rising : Bool) (q : Nat) (s : State) : State :=
  raiseSource (256 + i) (s.updEv i fun x =>
    { x with valid := true, rising := rising, sec := q / 4 / 1000000000 % 2 ^ 32, nsec := q / 4 % 1000000000 })

/-- A capture in 0640 capture mode (R322). -/
def capture0640 (i : Nat) (rising : Bool) (q : Nat) (s : State) : State :=
  let s1 := s.hit (.capture i) (capStatus (s.ev i))
  if (s.ev i).valid then
    (s1.updEv i fun x => { x with overrun := min 255 (x.overrun + 1), lostAt := some (s.cycle, rising, q) }).bump
      (0x4200 + i) 0x12
  else standCapture i rising q s1

/-- A captured change (R320, R321, R322). -/
def captureChange (i : Nat) (rising : Bool) (stamps : List Nat) (s : State) : State :=
  let d := evSet s i 4
  let q := stampShift (stamps.getD d 0) (-(toSigned 32 (evSet s i 5)))
  let s1 := pulse (65 + i) (s.bump (0x4200 + i) 0x10)
  if evSet s i 6 = 1 then capture0640 i rising q s1
  else writeRecord 0 16 4 i (tineRecord (stampNs q) (stampQ q) d 4 i (b2n rising) 0 0 0 0) s1

/-- A change lies within 4 ns of a captured one (R320). -/
def nearCapture (x : EvIn) (at_ : Nat) : Bool := match x.lastCapture with | some t => decide (at_ < t + 16) | none => false

/-- EV_CAPTURE (R320): a change has held for FILTER; it is accepted, and captured where it may be. One within 4 ns of a captured
change is rejected: the accepted level stays. -/
def effEvCapture (i : Nat) (s : State) : State :=
  match (s.ev i).changes with
  | (stamps, at_, rising) :: rest =>
    if i < 16 ∧ at_ + 4 * evSet s i 3 ≤ 4 * tickOf s.cycle + 3 then
      let s1 := s.updEv i fun x => { x with changes := rest }
      if nearCapture (s.ev i) at_ then rejectChange i s1
      else
        let s2 := s1.updEv i fun x => { x with level := rising }
        if evCaptures s.chip.mode && evSet s i 1 == 1 && bit (evSet s i 2) (if rising then 0 else 1) then
          captureChange i rising stamps (s2.updEv i fun x => { x with lastCapture := some at_ })
        else s2
    else s
  | [] => s

/-- VALID and OVERRUN are cleared, but by a capture of the same core cycle (R14). -/
def clearCapture (i : Nat) (s : State) : State :=
  s.updEv i fun x => { x with valid := s.w1c (.capture i) x.valid true, overrun := 0 }

/-- What a read of CAP_STATUS leaves (R322 step 3): VALID and OVERRUN cleared. A capture of the same core cycle stands: one
that was counted as lost is taken instead. -/
def readCapture (i : Nat) (s : State) : State :=
  match (s.ev i).lostAt with
  | some (t, rising, q) =>
    if t = s.cycle then
      standCapture i rising q ((s.updEv i fun x => { x with overrun := 0, lostAt := none }).bumpBy (0x4200 + i) 0x12 0
        (2 ^ 64 - 1))
    else clearCapture i s
  | none => clearCapture i s

/-- CAP_STATUS read (R322): returned, then VALID and OVERRUN cleared; zero with CAPTURE_MODE 0. -/
def effCapStatusRead (f i : Nat) (s : State) : State :=
  if s.barReach f && decide (i < 16) then
    let off := 0x040108 + 16 * i
    if evSet s i 6 = 1 then
      ((readCapture i s).rehit (.capture i)).emit (.reg f off (s.rcValue (.capture i) (capStatus (s.ev i))))
    else s.emit (.reg f off 0)
  else refuseBar f false s

/-- A cutover that changes CAPTURE_MODE from 1 to 0 clears VALID and OVERRUN (R322). -/
def evCutover (old : Image) (s : State) : State :=
  (upTo 16).foldl (fun s i =>
    if imgNum s.ident old (0x4200 + i) 6 = 1 ∧ evSet s i 6 = 0 then
      s.updEv i fun x => { x with valid := false, overrun := 0 }
    else s) s

/-! ## The meanings -/

/-- TRIGGER_START: answers the state after its effect. -/
def execTriggerStart (n : Nat) (s : State) : Answer := .next (effTriggerStart n s)

/-- OUT_ARM: answers the state after its effect. -/
def execOutArm (f : Nat) (mask : Nat) (s : State) : Answer := .next (effOutArm f mask s)

/-- INT_ARM: answers the state after its effect. -/
def execIntArm (f : Nat) (hi : Bool) (mask : Nat) (s : State) : Answer := .next (effIntArm f hi mask s)

/-- TRIGGER_INSTANT: answers the state after its effect. -/
def execTriggerInstant (n : Nat) (s : State) : Answer := .next (effTriggerInstant n s)

/-- INT_TRIG: answers the state after its effect. -/
def execIntTrig (k : Nat) (s : State) : Answer := .next (effIntTrig k s)

/-- TRIGGER_PULSE_END: answers the state after its effect. -/
def execTriggerPulseEnd (n : Nat) (s : State) : Answer := .next (effTriggerPulseEnd n s)

/-- EV_IN_CHANGE: answers the state after its effect. -/
def execEvInChange (i : Nat) (level : Bool) (quarter : Nat) (s : State) : Answer := .next (effEvInChange i level quarter s)

/-- EV_CAPTURE: answers the state after its effect. -/
def execEvCapture (i : Nat) (s : State) : Answer := .next (effEvCapture i s)

/-- CAP_STATUS_READ: answers the state after its effect. -/
def execCapStatusRead (f : Nat) (i : Nat) (s : State) : Answer := .next (effCapStatusRead f i s)

end Sys2Proof.Machine
end

