-- ==== Sys2Proof/Machine/Check.lean ====
section
/-!
DEFINITION. CHECK (R86, R87, R480): the rules of stage 2 over several records, and stages 3 to 5. Each rule lists the
failures it finds; a stage fails with the one lowest in reason code and then in REASON_DETAIL and REASON_UNIT, which R480
states for stage 5 (DEDUCED, log entry 24).
-/
namespace Sys2Proof.Machine

/-- One failure comes before another. -/
def failBefore (a b : CheckFail) : Bool :=
  a.reason < b.reason || (a.reason == b.reason && (a.detail < b.detail || (a.detail == b.detail && a.unit < b.unit)))

/-- The failure that a stage reports. -/
def firstFail (l : List CheckFail) : Option CheckFail :=
  l.foldl (fun best f => match best with
    | none => some f
    | some g => if failBefore f g then some f else some g) none

/-- REASON_DETAIL of a table row (R87). -/
def rowDetail (tbl key : Nat) : Nat := tbl * 256 + key % 256 * 2 ^ 24

/-- REASON_DETAIL of an entry (R87). -/
def entryDetail (idx sub : Nat) : Nat := idx * 256 + sub

/-- A failure of stage 4 or 5: both numbers are the one that the rule names (R87). -/
def unitFail (reason n : Nat) : CheckFail := { reason := reason, detail := n, unit := n }

/-- The rows of a table that meet a test fail with a reason. -/
def failRows (im : Image) (tbl reason : Nat) (unit : Nat → Nat) (bad : Nat → Row → Bool) : List CheckFail :=
  ((imgTable im tbl).filter fun e => bad e.1 e.2).map fun e =>
    { reason := reason, detail := rowDetail tbl e.1, unit := unit e.1 }

/-- No number to name (R87). -/
def noUnit (_ : Nat) : Nat := 0xFFFFFFFF

/-- A row's field by its place. -/
def fieldNo (r : Row) (k : Nat) : Nat := (r.getD k (.num 0)).n

/-- An entry's number in the image under CHECK. -/
def chk (s : State) (im : Image) (idx sub : Nat) : Nat := imgNum s.ident im idx sub

/-- A domain is enabled in the image under CHECK (R240). -/
def domainOn (s : State) (im : Image) (d : Nat) : Bool := chk s im (domObj d) 1 == 1

/-- The ports with a gate list whose GATE_ENABLE is 1; the entries of an unused port are inert (R285, R309). -/
def checkedLists (s : State) (im : Image) : List Nat :=
  (upTo 256 ++ [260, 261]).filter fun p =>
    (p ≥ 256 || linePortPresent s.ident p) && gatePort s im p && gateCfg s im p 0x20 == 1

/-- An unused line port (R97, R99). -/
def unusedPort (s : State) (im : Image) (p : Nat) : Bool := p < 256 && !portUsed s im p

/-! ## Stage 2 -/

/-- FEC_MODE not legal at the port's rate (R101). -/
def checkFec (s : State) (im : Image) : List CheckFail :=
  ((linePorts s).filter fun p =>
    let r := lineSpeed s im p
    let m := chk s im (0x1000 + p) 4
    r != 0 && ((m == 1 && r != 25 && r != 10) || (m == 2 && r != 25))).map fun p =>
      { reason := 0x0106, detail := entryDetail (0x1000 + p) 4 }

/-- Domain settings (R256). -/
def checkDomains2 (s : State) (im : Image) : List CheckFail :=
  (if domainOn s im 0 then [] else [{ reason := 0x0106, detail := entryDetail 0x4000 1 }]) ++
  (((upTo 8).filter fun d => chk s im (domObj d) 3 == 2 && chk s im (domObj d) 4 == 0xFF).map fun d =>
    { reason := 0x0106, detail := entryDetail (domObj d) 4 }) ++
  (((upTo 8).filter fun d => chk s im (domObj d) 0x0C < chk s im (domObj d) 0x0A).map fun d =>
    { reason := 0x0106, detail := entryDetail (domObj d) 0x0C })

/-- Class admission (R214): the highest class involved. -/
def checkAdmission (s : State) (im : Image) : List CheckFail :=
  let fld := fun (c sub : Nat) => imgFieldN s.ident im 0x1803 c sub
  let sumBad := 3072 < ((upTo 8).map fun c => fld c 2).sum || 512 < ((upTo 8).map fun c => fld c 4).sum
  let bad := (upTo 8).filter fun c => sumBad || fld c 3 < fld c 2 || fld c 5 < fld c 4
  match bad.getLast? with
  | some c => [{ reason := 0x0106, detail := rowDetail 0x1803 c, unit := c }]
  | none => []

/-- portTransmitRate in kbit/s under an image (R227). -/
def transmitRate (s : State) (im : Image) (p : Nat) : Nat :=
  if p < 256 then lineSpeed s im p * 1000000
  else if isMgt p then (if chk s im (mgtObj p) 2 = 1 then 10000000 else 1000000)
  else imgFieldN s.ident im 0x1201 p 3 * 1000

/-- Credit-based shapers (R228); those of unused ports are left to stage 3. -/
def checkShapers (s : State) (im : Image) : List CheckFail :=
  let cbs := (imgTable im 0x1300).filter fun e => fieldNo e.2 0 == 2 && !unusedPort s im (e.1 / 8)
  ((cbs.filter fun e => transmitRate s im (e.1 / 8) ≤ fieldNo e.2 1).map fun e =>
    { reason := 0x0106, detail := rowDetail 0x1300 e.1 }) ++
  ((cbs.filter fun e =>
    let same := cbs.filter fun x => x.1 / 8 == e.1 / 8
    transmitRate s im (e.1 / 8) < (same.map fun x => fieldNo x.2 1).sum && same.all fun x => x.1 ≤ e.1).map fun e =>
      { reason := 0x0106, detail := rowDetail 0x1300 e.1, unit := e.1 })

/-- CYCLE_EXTENSION above CYCLE_TIME (R309). -/
def checkExtension (s : State) (im : Image) : List CheckFail :=
  ((checkedLists s im).filter fun p => gateCfg s im p 0x23 < gateCfg s im p 0x24).map fun p =>
    { reason := 0x0106, detail := entryDetail ((gateObj p).getD 0) 0x24, unit := p }

/-- The intervals of a stream gate's entries below LIST_LENGTH, none where one is missing (R151). -/
def sgIntervals (im : Image) (g n : Nat) : List (Option Nat) :=
  (upTo n).map fun i => (imgRow im 0x2102 (g * 256 + i)).map fun r => fieldNo r 2

/-- Stream-gate lists that do not sum to CYCLE_TIME (R151). -/
def checkSgSum (im : Image) : List CheckFail :=
  failRows im 0x2101 0x0106 noUnit fun g r =>
    let l := sgIntervals im g (fieldNo r 3)
    l.all (·.isSome) && (l.map (·.getD 0)).sum != fieldNo r 2

/-- THERMAL_SAFE below THERMAL_ALARM (R477). -/
def checkThermal (s : State) (im : Image) : List CheckFail :=
  if chk s im 0x8100 2 < chk s im 0x8100 1 then [{ reason := 0x0106, detail := entryDetail 0x8100 2 }] else []

/-- The ring is in use in the image under CHECK. -/
def ringUsed (s : State) (im : Image) : Bool := chk s im 0x5000 1 == 1

/-- Ring settings of stage 2 (R360). -/
def checkHerd2 (s : State) (im : Image) : List CheckFail :=
  if ringUsed s im then
    let node := chk s im 0x5000 3
    failRows im 0x5001 0x0106 id (fun _ r => fieldNo r 2 % 4 != 0) ++
    (((upTo 16).filter fun k =>
      let o := chk s im 0x5000 (0x20 + k)
      o != 0xFFFFFFFF && chk s im 0x5000 8 ≤ o).map fun k =>
        { reason := 0x0106, detail := entryDetail 0x5000 (0x20 + k), unit := node }) ++
    (if chk s im 0x5000 0x0B < 2 * chk s im 0x5000 0x0C + 1 then
      [{ reason := 0x0106, detail := entryDetail 0x5000 0x0C, unit := node }] else [])
  else []

/-- The rules of stage 2 over several records. -/
def stage2Rules (s : State) (im : Image) : List CheckFail :=
  checkFec s im ++ checkDomains2 s im ++ checkAdmission s im ++ checkShapers s im ++ checkExtension s im ++
  checkSgSum im ++ checkThermal s im ++ checkHerd2 s im

/-! ## Stage 3 -/

/-- The tables whose rows name ports in their fields. -/
def portTables : List Nat := [0x2003, 0x2004, 0x2005, 0x2006, 0x2007, 0x3001, 0x3003]

/-- References to unused ports (R99), and rows for unused ports (R213, R228, R282, R457). -/
def checkUnused (s : State) (im : Image) : List CheckFail :=
  (portTables.flatMap fun tbl => (imgTable im tbl).flatMap fun e =>
    ((rowPorts tbl e.2).filter (unusedPort s im)).map fun p =>
      { reason := 0x0201, detail := rowDetail tbl e.1, unit := p }) ++
  (((bitMembers (imgVal s.ident im 0x7001 3).b 256).filter (unusedPort s im)).map fun p =>
    { reason := 0x0201, detail := entryDetail 0x7001 3, unit := p }) ++
  ([0x1300, 0x1802].flatMap fun tbl => failRows im tbl 0x0201 (· / 8) fun k _ => unusedPort s im (k / 8)) ++
  ([0x4302, 0x7002].flatMap fun tbl => failRows im tbl 0x0201 id fun k _ => unusedPort s im k)

/-- Profiles that are not defined (R213). -/
def checkProfiles (im : Image) : List CheckFail :=
  failRows im 0x1802 0x0201 noUnit fun _ r => (imgRow im 0x1801 (fieldNo r 0)).isNone

/-- A group that is not defined: neither the flood set of a VID (R136) nor a row of MCAST_GROUP. -/
def noGroup (im : Image) (g : Nat) : Bool := g == 0 || (4096 ≤ g && (imgRow im 0x2005 g).isNone)

/-- Groups that are not defined (R87, R162), and SPLIT_ID ports above 261. -/
def checkGroups (im : Image) : List CheckFail :=
  failRows im 0x2004 0x0201 noUnit (fun _ r => fieldNo r 0 == 1 && noGroup im (fieldNo r 1)) ++
  failRows im 0x2006 0x0201 noUnit (fun _ r => fieldNo r 3 == 2 && noGroup im (fieldNo r 4)) ++
  failRows im 0x2007 0x0201 noUnit (fun _ r => fieldNo r 6 == 2 && noGroup im (fieldNo r 7)) ++
  failRows im 0x3001 0x0201 noUnit (fun _ r =>
    (fieldNo r 1 == 1 && 261 < fieldNo r 2) || (fieldNo r 1 == 2 && noGroup im (fieldNo r 2)))

/-- The PORTS sets of the stream-identification entries that yield a handle. -/
def handlePorts (im : Image) (h : Nat) : List (List Nat) :=
  (((imgTable im 0x2006).filter fun e => fieldNo e.2 0 == h).map fun e => bitMembers (e.2.getD 1 (.oct [])).b 263) ++
  (((imgTable im 0x2007).filter fun e => fieldNo e.2 3 == h).map fun e => bitMembers (e.2.getD 4 (.oct [])).b 263)

/-- Every entry that yields a handle has PORTS, all in one home slice. -/
def handleHome (im : Image) (h home : Nat) : Bool :=
  (handlePorts im h).all fun ps => !ps.isEmpty && ps.all fun p => sliceOf p == home

/-- Filters that name a gate or a meter (R150). -/
def checkFilters (im : Image) : List CheckFail :=
  failRows im 0x2100 0x0201 id fun _ r =>
    let g := fieldNo r 2
    let m := fieldNo r 4
    let hasG := g != 0xFFFF
    let hasM := m != 0xFFFFFFFF
    let home := if hasG then g / 256 else m / 4096
    (hasG || hasM) &&
    (fieldNo r 0 == 0xFFFFFFFF || (hasG && (imgRow im 0x2101 g).isNone) || (hasM && (imgRow im 0x2103 m).isNone) ||
      (hasG && hasM && m / 4096 != home) || !handleHome im (fieldNo r 0) home)

/-- Two rows share what a rule calls a key: the later row fails. -/
def failTwins (im : Image) (tbl : Nat) (unit : Nat → Nat) (same : Row → Row → Bool) : List CheckFail :=
  failRows im tbl 0x0202 unit fun k r => (imgTable im tbl).any fun e => e.1 < k && same e.2 r

/-- Stream-gate entries missing below LIST_LENGTH (R151). -/
def checkSgMissing (im : Image) : List CheckFail :=
  (imgTable im 0x2101).flatMap fun e =>
    match (sgIntervals im e.1 (fieldNo e.2 3)).findIdx? (·.isNone) with
    | some i => [{ reason := 0x0201, detail := rowDetail 0x2101 e.1, unit := e.1 * 256 + i }]
    | none => []

/-- FRER references and duplicates (R162). -/
def checkFrer3 (im : Image) : List CheckFail :=
  failRows im 0x3003 0x0201 noUnit (fun k r => 261 < fieldNo r 1 || sliceOf (fieldNo r 1) != k / 16384) ++
  failTwins im 0x3003 noUnit (fun a b => fieldNo a 0 == fieldNo b 0 && fieldNo a 1 == fieldNo b 1) ++
  failTwins im 0x3001 noUnit (fun a b => fieldNo a 0 == fieldNo b 0) ++
  failRows im 0x3001 0x0201 noUnit (fun k r => !handleHome im (fieldNo r 0) (k / 4096))

/-- Domains that drive one PPS output (R256). -/
def checkPps (s : State) (im : Image) : List CheckFail :=
  ((upTo 8).filter fun d => (upTo d).any fun e => chk s im (domObj d) 0x10 &&& chk s im (domObj e) 0x10 != 0).map fun d =>
    { reason := 0x0202, detail := entryDetail (domObj d) 0x10, unit := d }

/-- Gate lists with an entry missing (R309). -/
def checkGateMissing (s : State) (im : Image) : List CheckFail :=
  ((checkedLists s im).filter fun p =>
    let o := (gateObj p).getD 0
    (upTo (gateCfg s im p 0x25)).any fun k => (imgRow im o k).isNone).map fun p =>
      { reason := 0x0201, detail := entryDetail ((gateObj p).getD 0) 0x25, unit := p }

/-- The claim slot of a pair group. -/
def claimSlot (im : Image) (g : Nat) : Option (Nat × Row) :=
  (imgTable im 0x5001).find? fun e => fieldNo e.2 0 == 4 && fieldNo e.2 1 == g

/-- Ring slots that refer to each other wrongly (R360). -/
def checkHerd3 (s : State) (im : Image) : List CheckFail :=
  if ringUsed s im then
    failTwins im 0x5001 id (fun a b =>
      fieldNo a 0 == fieldNo b 0 && 2 ≤ fieldNo a 0 && fieldNo a 1 == fieldNo b 1) ++
    failRows im 0x5001 0x0201 id (fun _ r =>
      match fieldNo r 0 with
      | 1 =>
        fieldNo r 4 != 0xFF &&
        (match claimSlot im (fieldNo r 4) with
          | some c => fieldNo r 1 != fieldNo c.2 5 && fieldNo r 1 != fieldNo c.2 6
          | none => true)
      | 4 => fieldNo r 5 == fieldNo r 6
      | _ => false)
  else []

/-- The bucket of an identification key (R144). -/
def streamBucket (key : Nat) : Nat := crc32c (beBytes 52 key) % 2 ^ 15

/-- Hashed rows of which more than eight share a bucket (R86). -/
def checkHash (im : Image) (tbl : Nat) (bucket : Nat → Nat) : List CheckFail :=
  failRows im tbl 0x0203 noUnit fun k _ =>
    8 ≤ ((imgTable im tbl).filter fun e => e.1 < k && bucket e.1 == bucket k).length

/-- Stage 3. -/
def stage3 (s : State) (im : Image) : List CheckFail :=
  checkUnused s im ++ checkProfiles im ++ checkGroups im ++ checkFilters im ++
  failTwins im 0x2100 noUnit (fun a b => fieldNo a 0 == fieldNo b 0 && fieldNo a 1 == fieldNo b 1) ++
  checkSgMissing im ++ checkFrer3 im ++ checkPps s im ++ checkGateMissing s im ++
  failTwins im 0x4301 noUnit (fun a b =>
    fieldNo a 0 == 1 && fieldNo b 0 == 1 && fieldNo a 1 == fieldNo b 1 && fieldNo a 2 == fieldNo b 2) ++
  failTwins im 0x6001 noUnit (fun a b =>
    (fieldNo a 0 != 0 && fieldNo a 0 == fieldNo b 0 && fieldNo a 2 == fieldNo b 2) ||
    (fieldNo a 4 != 0xFF && fieldNo a 4 == fieldNo b 4)) ++
  checkHerd3 s im ++ checkHash im 0x2004 fdbBucket ++ checkHash im 0x2006 streamBucket

/-! ## Stage 4 -/

/-- The summed intervals of each page of a list (R291). -/
def pageSums (l : GList) : List Nat :=
  (upTo (pageCount l)).map fun j => (((l.entries.drop (256 * j)).take 256).map (·.2.2)).sum

/-- A list fails the schedule rules of R309. -/
def badSchedule (l : GList) : Bool :=
  let sums := pageSums l
  let n := sums.length
  sums.sum != l.cycle || (256 < l.entries.length && sums.getD 0 0 < 8000) ||
  (isPaged l && (upTo n).any fun j => sums.getD ((j + n - 1) % n) 0 + sums.getD ((j + n - 2) % n) 0 < 8000)

/-- A sum of fractions as numerator and denominator. -/
def addFraction (x : Nat × Nat) (num den : Nat) : Nat × Nat := (x.1 * den + num * x.2, x.2 * den)

/-- The paging load of R296 in bytes per nanosecond, as a fraction. -/
def pagingLoad (lists : List GList) : Nat × Nat :=
  (lists.filter isPaged).foldl (fun x l => addFraction x ((pageCount l - 1) * 2048) (max 1 l.cycle)) (0, 1)

/-- Gate lists (R309). -/
def checkGates4 (s : State) (im : Image) : List CheckFail :=
  let ports := checkedLists s im
  let lists := ports.map fun p => (p, buildList s im p)
  let load := pagingLoad (lists.map (·.2))
  let paged := lists.filter fun x => isPaged x.2
  ((lists.filter fun x => badSchedule x.2).map fun x => unitFail 0x0301 x.1) ++
  (if chk s im 0x6005 7 * load.2 < load.1 * 1000 then
    (match paged.getLast? with | some x => [unitFail 0x0302 x.1] | none => []) else []) ++
  ((lists.filter fun x => !domainOn s im x.2.domain).map fun x => unitFail 0x0303 x.1)

/-- Triggers (R319). -/
def checkTriggers (s : State) (im : Image) : List CheckFail :=
  ((upTo 96).filter fun n =>
    let f := trigCfg s im n
    let period := f 5 * 2 ^ 32 + f 6
    f 8 != 1 && (period < 10 * 2 ^ 32 || (n < 32 && 4 * period < (chk s im (trigObj n) 7 + 8) * 2 ^ 32))).map
      (unitFail 0x0304) ++
  (((upTo 96).filter fun n => trigCfg s im n 1 == 1 && !domainOn s im (trigCfg s im n 2)).map (unitFail 0x0303)) ++
  (((upTo 16).filter fun i => chk s im (0x4200 + i) 1 == 1 && !domainOn s im (chk s im (0x4200 + i) 4)).map fun i =>
    unitFail 0x0303 (96 + i))

/-- Domains that other consumers name (R255, R256, R281, R282). -/
def checkDomains4 (s : State) (im : Image) : List CheckFail :=
  (((imgTable im 0x2101).filter fun e => !domainOn s im (fieldNo e.2 0)).map fun e => unitFail 0x0303 e.1) ++
  (((imgTable im 0x4302).filter fun e => !domainOn s im (fieldNo e.2 0)).map fun e => unitFail 0x0303 e.1) ++
  (((imgTable im 0x4301).filter fun e => fieldNo e.2 0 == 1 && !domainOn s im (fieldNo e.2 3)).map fun e =>
    unitFail 0x0303 (0x100 + e.1)) ++
  (((upTo 8).filter fun d =>
    !domainOn s im d && (chk s im (domObj d) 0x0F == 1 || chk s im (domObj d) 0x10 != 0)).map (unitFail 0x0303))

/-- Two slots overlap. -/
def slotsMeet (a b : Row) : Bool :=
  fieldNo a 2 < fieldNo b 2 + fieldNo b 3 && fieldNo b 2 < fieldNo a 2 + fieldNo a 3

/-- The ring layout (R360), in picoseconds for the fit. -/
def checkHerd4 (s : State) (im : Image) : List CheckFail :=
  if ringUsed s im then
    let l := imgTable im 0x5001
    let node := chk s im 0x5000 3
    let need := (54 + areaLength l + 24) * ringByte (chk s im 0x5000 6) +
      chk s im 0x5000 0x0B * (2000 + chk s im 0x5000 0x13) * 1000 + 2000000
    ((l.filter fun e => 9158 < fieldNo e.2 2 + fieldNo e.2 3 || l.any fun x => x.1 < e.1 && slotsMeet x.2 e.2).map
      fun e => unitFail 0x0305 e.1) ++
    (if (findSlot l 2 node).isNone || (findSlot l 3 node).isNone || chk s im 0x5000 8 * 1000 < need then
      [unitFail 0x0305 node] else []) ++
    (if domainOn s im (chk s im 0x5000 2) then [] else [unitFail 0x0303 node])
  else []

/-- The image pairs the unit. -/
def pairUsed (s : State) (im : Image) : Bool := pairPresent s && chk s im 0x7000 1 == 1

/-- The copy volume V of R451. -/
def copyVolume (s : State) (im : Image) : Nat :=
  let rows := fun tbl => (imgTable im tbl).length
  rows 0x3003 * 40 + rows 0x3001 * 12 + rows 0x2103 * 24 + 2096 * 16 +
  ((imgTable im 0x1300).filter fun e => fieldNo e.2 0 != 0).length * 16 +
  ((upTo 8).filter fun d => bit (chk s im 0x7000 6) d).length * 16 +
  (if ringUsed s im then
    (((imgTable im 0x5001).filter fun e =>
      fieldNo e.2 0 == 1 && fieldNo e.2 4 != 0xFF && fieldNo e.2 1 == chk s im 0x5000 3).map fun e =>
        8 + (fieldNo e.2 3 - 4 + 3) / 4 * 4).sum else 0)

/-- The copy cycle (R451). -/
def checkCopy (s : State) (im : Image) : List CheckFail :=
  let cyc := chk s im 0x7000 3
  let d := chk s im 0x7000 4
  if pairUsed s im && (cyc < 100 || 1000000 < cyc || !domainOn s im d || cyc * 1000 * 20 < copyVolume s im) then
    [unitFail 0x0306 d]
  else []

/-- Stage 4. -/
def stage4 (s : State) (im : Image) : List CheckFail :=
  checkGates4 s im ++ checkTriggers s im ++ checkDomains4 s im ++ checkHerd4 s im ++ checkCopy s im

/-! ## Stage 5 -/

/-- A preemptable class that is open only under hold (R481, 0x0402). -/
def neverReleased (s : State) (im : Image) (p : Nat) : Bool :=
  let l := buildList s im p
  let pre := fun sub => chk s im (0x1100 + p) sub
  p < 256 && pre 1 == 1 && (upTo 8).any fun tc =>
    bit (pre 2) tc && !bit (gateCfg s im p 0x28) tc && l.entries.any (fun e => bit e.2.1 tc) &&
    (upTo l.entries.length).all fun k => !bit (l.entries.getD k (0, 0, 0)).2.1 tc || holdAtEntry l k

/-- The claim slots that name the own NODE_ID (R481). -/
def ownClaims (s : State) (im : Image) : List Row :=
  ((imgTable im 0x5001).filter fun e =>
    fieldNo e.2 0 == 4 && (fieldNo e.2 5 == chk s im 0x5000 3 || fieldNo e.2 6 == chk s im 0x5000 3)).map (·.2)

/-- Stage 5 (R481). -/
def stage5 (s : State) (im : Image) : List CheckFail :=
  let node := chk s im 0x5000 3
  let paired := pairUsed s im
  (((upTo 8).filter fun d => chk s im (domObj d) 3 == 3 && (!ringUsed s im || d != chk s im 0x5000 2)).map
    (unitFail 0x0401)) ++
  (((checkedLists s im).filter (neverReleased s im)).map (unitFail 0x0402)) ++
  (if paired then
    ((checkedLists s im).filter fun p =>
      imgFieldN s.ident im 0x7002 p 4 == 1 && gateCfg s im p 0x21 != chk s im 0x7000 4).map (unitFail 0x0403) else []) ++
  (if ringUsed s im && !(ownClaims s im).isEmpty && !paired then [unitFail 0x0404 node] else []) ++
  (if ringUsed s im && (ownClaims s im).any (fun r => fieldNo r 1 != chk s im 0x7003 1) then [unitFail 0x0405 node]
    else []) ++
  (if paired && chk s im (domObj (chk s im 0x7000 4)) 3 == 0 then [unitFail 0x0406 (chk s im 0x7000 4)] else [])

/-! ## CHECK -/

/-- What CHECK finds: the configuration of an image that passed stage 2, and the first failure. -/
structure Checked where
  img : Option Image := none
  fail : Option CheckFail := none
deriving DecidableEq, Repr, Inhabited

/-- Stages 3 to 5 (R86): the first failure. -/
def laterStages (s : State) (im : Image) : Option CheckFail :=
  ((firstFail (stage3 s im)).orElse fun _ => firstFail (stage4 s im)).orElse fun _ => firstFail (stage5 s im)

/-- The five stages of CHECK (R86). -/
def checkImage (s : State) (b : Bytes) : Checked :=
  match parseImage s.ident b with
  | .error f => { fail := some f }
  | .ok im =>
    match firstFail (stage2Rules s im) with
    | some f => { fail := some f }
    | none => { img := some im, fail := laterStages s im }

end Sys2Proof.Machine
end

