-- ==== Sys2Proof/Machine/Compares.lean ====
section
/-!
DEFINITION. The step of a time domain (R243, R254) and what it does to every consumer of the domain in the same tick:
compares (R253), gates (R290), PPS outputs (R248), lock (R250).
-/
namespace Sys2Proof.Machine

/-- A TIME96 word read as a signed step in 2^-32 ns. -/
def stepAmount (v : Time96) : Int := toSigned 96 v.toNat

/-- The value of a domain after a step in its tick (R243). -/
def steppedValue (x : Domain) (absolute : Bool) (v : Time96) : Time96 := if absolute then v else x.value + v

/-- The signed size of a step in 2^-32 ns. -/
def stepSize (x : Domain) (absolute : Bool) (v : Time96) : Int :=
  if absolute then (v.toNat : Int) - (x.value.toNat : Int) else stepAmount v

/-- A domain's own part of a step: the value, STEP_USED in STEP_THEN_RATE (R244), the net offset correction (R345). -/
def stepDomain (absolute : Bool) (v : Time96) (x : Domain) : Domain :=
  { x with
    value := steppedValue x absolute v, step := none, stepUsed := x.stepUsed || x.mode == 1, steps := x.steps + 1,
    corr := if absolute then x.corr else x.corr + stepAmount v }

/-- An armed commit instant that a forward step of its domain jumps over (R91, R253). -/
def commitSteppedOver (d : Nat) (s : State) : Bool :=
  let c := s.cfg.commit
  c.status == 5 && c.atInstant && c.domain == d && s.reached d c.instant

/-- A commit ends before its cutover (R92): STATUS 7 with its reason, the target left unsealed, COMMIT_DONE. -/
def endCommit (reason detail unit : Nat) (s : State) : State :=
  pulse 190 { s with cfg := { s.cfg with commit := { s.cfg.commit with
    status := 7, reason := reason, detail := detail, unit := unit, built := [], next := {} } } }

/-- The commit waiting at an instant that has been jumped over fails with CUTOVER_LATE (R91, R253). -/
def markCommit (d : Nat) (s : State) : State :=
  if commitSteppedOver d s then endCommit 0x0501 0 0xFFFFFFFF s else s

/-- The compares of a domain that a forward step has jumped over (R253). -/
def comparesSteppedOver (d : Nat) (s : State) : Nat :=
  (trigSteppedOver d s).length + (pointsSteppedOver d s).length + (if commitSteppedOver d s then 1 else 0)

/-- Armed compares after a forward step (R253): those jumped over are counted and treated as past. -/
def stepOverCompares (d : Nat) (s : State) : State :=
  let n := comparesSteppedOver d s
  let s1 := if n = 0 then s
    else ((s.bumpBy (domObj d) 0x26 0 n).updDom d fun x => { x with steppedOver := true }).hit (.domStatus d 11) 0
  herdStep d (trigStep d (markCommit d s1))

/-- A forward step on the PPS outputs and the compares. -/
def stepForward (d : Nat) (s : State) : State := stepOverCompares d ([0, 1].foldl (ppsSkip d) s)

/-- STEP_APPLY (R243, R254): the pending step is applied in its tick, and every consumer sees the stepped value in it. -/
def effStepApply (d : Nat) (s : State) : State :=
  match (s.dom d).step with
  | some (absolute, v, due) =>
    if due ≤ tickOf s.cycle ∧ (s.dom d).enabled ∧ isAlive s.chip.mode then
      let size := stepSize (s.dom d) absolute v
      let s1 := pulse (171 + d) ((s.updDom d (stepDomain absolute v)).bump (domObj d) 0x20)
      let s2 := if s1.domSource d ≠ 0 ∧ s1.cfgN (domObj d) 0x0C * 2 ^ 32 < size.natAbs then loseLock d s1 else s1
      let s3 := if 0 < size then stepForward d s2 else s2
      gateStepOverruns d (gatesStep d s3)
    else s
  | none => s

/-! ## The meanings -/

/-- STEP_APPLY: answers the state after its effect. -/
def execStepApply (d : Nat) (s : State) : Answer := .next (effStepApply d s)

end Sys2Proof.Machine
end

