-- ==== Sys2Proof/Machine/Copy.lean ====
section
/-!
DEFINITION. State copy of a pair (R446 to R451), loss of the partner and takeover (R437), announcements (R442), the
closing of digests (R452), and the supply feeds (R428 to R430).
-/
namespace Sys2Proof.Machine

/-! ## Copy cycles -/

/-- Nanoseconds since the last copy instant. -/
def copyPhase (s : State) : Nat := copyTime s % copyNs s

/-- A paired unit in RUN. -/
def pairRuns (s : State) : Bool := isPaired s && s.chip.mode == .run

/-! ## Copied entries -/

/-- KIND and KEY as one number, in the order of the sweep (R446). -/
def copyCode (kind key : Nat) : Nat := kind * 2 ^ 32 + key
def codeKind (c : Nat) : Nat := c / 2 ^ 32
def codeKey (c : Nat) : Nat := c % 2 ^ 32

/-- The pair-scoped data slots that a node owns in a group, in ascending index (R447). -/
def pairSlots (s : State) (g owner : Nat) : List Nat :=
  (s.herd.layout.filter fun e => slotN e.2 0 == 1 && slotN e.2 4 == g && slotN e.2 1 == owner).map (·.1)

/-- Every copied entry of this unit, in ascending KIND and KEY (R446, R447). -/
def copyEntries (s : State) : List Nat :=
  let im := s.cfg.running
  (AMap.keys (imgTable im 0x3003)).map (copyCode 1) ++
  (AMap.keys (imgTable im 0x3001)).map (copyCode 2) ++
  (AMap.keys (imgTable im 0x2103)).map (copyCode 3) ++
  ((upTo 2096).filter fun k => portPresent s.ident (k / 8)).map (copyCode 4) ++
  ((upTo 2096).filter fun k => shaperKind s (k / 8) (k % 8) != 0).map (copyCode 5) ++
  ((upTo 8).filter fun d => bit (s.cfgN 0x7000 6) d).map (copyCode 6) ++
  (if herdN s 1 = 1 then pairSlots s (pairGroup s) (herdId s) else []).map (copyCode 7)

/-- The history of a context as 16 bytes (R187). -/
def historyBytes (h : List Bool) : Bytes := bitsOf 16 ((upTo 128).filter fun i => h.getD i false)

/-- A recovery context's record value (R447). -/
def recovValue (x : Recov) : Bytes :=
  let m := fun (i : Nat) => x.members.getD i {}
  let flag := fun (f : Member → Bool) => ((upTo 4).map fun i => b2n (f (m i)) * 2 ^ i).sum
  leBytes 2 x.recov ++ leBytes 1 (b2n x.takeAny + b2n x.guard * 2 + b2n x.resetMark * 4) ++ [0] ++ historyBytes x.history ++
  ((upTo 4).flatMap fun i => leBytes 2 (if (m i).takeAny then 0 else (m i).recov)) ++
  leBytes 1 (flag (·.takeAny) + flag (·.guard) * 16) ++ zeros 3

/-- The value of a copied entry (R447). -/
def copyValue (s : State) (c : Nat) : Bytes :=
  let k := codeKey c
  match codeKind c with
  | 1 => recovValue (s.recov k)
  | 2 => leBytes 2 (AMap.get 0 s.frer.gens k) ++ leBytes 1 (b2n (s.frer.genMarks.contains k)) ++ [0]
  | 3 => let m := s.meter s.cfg.running k; leBytes 8 m.tc ++ leBytes 8 m.te
  | 4 =>
    let d := s.drrOf (k / 8)
    let on := d.ptr == k % 8
    leBytes 4 (s.queue (k / 8) (k % 8)).deficit ++ leBytes 1 (b2n on + b2n (on && d.visit) * 2) ++ zeros 3
  | 5 => leBytes 8 (ofSigned 64 (s.queue (k / 8) (k % 8)).shaper)
  | 6 =>
    let x := s.dom k
    leBytes 1 (min 255 x.good) ++ leBytes 1 (min 255 x.bad) ++ leBytes 1 (b2n x.locked) ++ zeros 5
  | _ => AMap.get [] s.herd.written k

/-- RESET of a record's value (R447). -/
def valueReset (c : Nat) (v : Bytes) : Bool :=
  let b := (v.getD 2 0).toNat
  (codeKind c == 1 && bit b 2) || (codeKind c == 2 && bit b 0)

/-- A value without its RESET bit, as dirtiness compares it. -/
def plainValue (c : Nat) (v : Bytes) : Bytes :=
  let b := (v.getD 2 0).toNat
  if codeKind c = 1 then v.set 2 (BitVec.ofNat 8 (b % 4)) else if codeKind c = 2 then v.set 2 0 else v

/-- An entry has changed since the snapshot that last carried it (R446). -/
def isDirty (s : State) (c : Nat) : Bool :=
  let v := copyValue s c
  valueReset c v || AMap.find s.pair.carried c != some (plainValue c v)

/-- A record (R447). -/
def copyRecord (s : State) (c : Nat) : Bytes :=
  let v := copyValue s c
  beBytes 1 (codeKind c) ++ [0] ++ beBytes 2 v.length ++ beBytes 4 (codeKey c) ++ padTo ((v.length + 3) / 4 * 4) v

/-! ## Sending -/

/-- The entries of the next snapshot (R446): all, or the dirty ones and the next of the sweep; with the sweep's place
after it. -/
def snapshotEntries (s : State) : List Nat × Nat :=
  let all := copyEntries s
  if s.pair.sendFull then (all, s.pair.sweep)
  else
    let turn := (all.filter fun c => decide (s.pair.sweep ≤ c)) ++ (all.filter fun c => decide (c < s.pair.sweep))
    let swept := turn.take (s.cfgN 0x7000 5)
    let next := match swept.getLast? with
      | some c => c + 1
      | none => s.pair.sweep
    (all.filter fun c => swept.contains c || isDirty s c, next)

/-- Whole records packed into bodies of at most 9,174 bytes (R448). -/
def packRecords : List Bytes → Bytes → List Bytes
  | [], cur => if cur.isEmpty then [] else [cur]
  | r :: rest, cur => if cur.length + r.length ≤ 9174 then packRecords rest (cur ++ r) else cur :: packRecords rest r

/-- RESET marks go with the snapshot that carries them (R446, R447). -/
def clearMarks (codes : List Nat) (s : State) : State :=
  codes.foldl (fun s c =>
    if codeKind c = 1 then (if (s.recov (codeKey c)).resetMark then s.updRecov (codeKey c) fun x => { x with resetMark := false } else s)
    else if codeKind c = 2 then { s with frer := { s.frer with genMarks := s.frer.genMarks.filter (· != codeKey c) } }
    else s) s

/-- RESET marks come back when a snapshot is abandoned (R450). -/
def restoreMarks (entries : List (Nat × Nat)) (s : State) : State :=
  (entries.filter (·.2 == 1)).foldl (fun s e =>
    let k := codeKey e.1
    if codeKind e.1 = 1 then (if AMap.has s.frer.recs k then s.updRecov k fun x => { x with resetMark := true } else s)
    else { s with frer := { s.frer with genMarks := k :: s.frer.genMarks.filter (· != k) } }) s

/-- Copy-data frames go out over the lanes that are up in turn (R448). -/
def sendCopyFrames (m : Nat) (s : State) : Nat → List Bytes → State
  | _, [] => s
  | i, b :: r =>
    match (lanesUp s)[i % max 1 (lanesUp s).length]? with
    | some l =>
      sendCopyFrames m ((s.emit (.pair l (pairFrame s 4 m i b))).bumpBy 0x7005 0x0B 0 b.length) (i + 1) r
    | none => s

/-- The body of an end marker (R448). -/
def endMarker (tx : CopyTx) (abandoned : Bool) : Bytes :=
  beBytes 4 tx.frames.length ++ beBytes 4 tx.entries.length ++ beBytes 4 (crc32c tx.frames.flatten) ++
  [if abandoned then 1 else 0] ++ zeros 3

/-- The end marker goes out on every up lane. -/
def sendEnd (tx : CopyTx) (abandoned : Bool) (s : State) : State :=
  ((lanesUp s).foldl (fun s l => s.emit (.pair l (pairFrame s 5 tx.num tx.frames.length (endMarker tx abandoned)))) s).updPair
    fun p => { p with tx := none }

/-- A snapshot not fully sent is abandoned (R450). -/
def abandonCopy (tx : CopyTx) (s : State) : State :=
  let s1 := restoreMarks tx.entries (sendEnd tx true s)
  let s2 := s1.updPair fun p =>
    { p with carried := tx.entries.foldl (fun a e => AMap.del a e.1) p.carried, sendFull := p.sendFull || tx.full }
  pairEvent 3 (s2.bumpPair 8)

/-- COPY_DEADLINE (R450): 5 us before C(m + 1) a snapshot not fully sent is abandoned. -/
def effCopyDeadline (s : State) : State :=
  match s.pair.tx with
  | some tx => if tx.num ≠ copyNumber s ∨ copyNs s ≤ copyPhase s + 5000 then abandonCopy tx s else s
  | none => s

/-- COPY_INSTANT (R446): at C(m) the ACTIVE unit takes snapshot m and sends its records. -/
def effCopyInstant (s0 : State) : State :=
  let s := match s0.pair.tx with
    | some tx => if tx.num = copyNumber s0 then s0 else abandonCopy tx s0
    | none => s0
  let m := copyNumber s
  if pairRuns s && s.pair.role == 2 && s.pair.copyLast != some m then
    let (codes, sweep) := snapshotEntries s
    let values := codes.map fun c => (c, copyValue s c)
    let frames := packRecords (codes.map (copyRecord s)) []
    let tx : CopyTx :=
      { num := m, full := s.pair.sendFull, entries := values.map fun v => (v.1, b2n (valueReset v.1 v.2)),
        frames := frames, sent := frames.isEmpty || !(lanesUp s).isEmpty }
    let s1 := s.updPair fun p =>
      { p with
        copyLast := some m, sweep := sweep, sendFull := false, tx := some tx,
        carried := values.foldl (fun a v => AMap.set a v.1 (plainValue v.1 v.2)) p.carried }
    sendCopyFrames m (clearMarks codes s1) 0 frames
  else s

/-- COPY_END_MARKER_SENT (R450). -/
def effCopyEndMarkerSent (s : State) : State :=
  match s.pair.tx with
  | some tx =>
    if tx.sent && !(lanesUp s).isEmpty && tx.num == copyNumber s && decide (copyPhase s + 5000 ≤ copyNs s) then
      pulse 245 ((sendEnd tx false s).bumpPair 7)
    else s
  | none => s


/-! ## Receiving -/

/-- The standby discards a copy (R449). -/
def discardCopy (m : Nat) (s : State) : State :=
  let s1 := (s.updPair fun p => { p with rx := none, ready := false, lastEnd := some m }).bumpPair 0x0A
  detectFault 20 0 4 (m % 65536) (pairEvent 4 s1)

/-- A pending copy other than copy m is discarded: its end marker has not come (R449). -/
def supersede (m : Nat) (s : State) : State :=
  match s.pair.rx with
  | some c => if c.num = m then s else discardCopy c.num s
  | none => s

/-- The body of a pair-link frame. -/
def pairBody (b : Bytes) : Bytes := slice b 38 (beAt b 16 2 - 24)

/-- Records of copy m arrive and are held pending (R449). -/
def holdCopy (m q : Nat) (b : Bytes) (s : State) : State :=
  let old := match s.pair.rx with
    | some c => c.frames
    | none => []
  if s.pair.lastEnd = some m ∨ old.any (·.1 == q) then s
  else s.updPair fun p => { p with rx := some { num := m, frames := AMap.set old q (pairBody b) } }

/-- COPY_DATA_RX (R448, R449): the standby holds the records pending; any other role discards them. -/
def effCopyDataRx (lane : Nat) (b : Bytes) (s : State) : State :=
  pairReceive lane b (fun s =>
    if s.pair.role ≠ 3 ∨ beAt b 14 1 ≠ 4 then s
    else holdCopy (beAt b 26 4) (beAt b 30 4) b (supersede (beAt b 26 4) s)) s

/-- The records of a byte string: KIND and KEY with the value; none where they do not fill it. -/
def parseRecords : Nat → Bytes → Option (List (Nat × Bytes))
  | 0, b => if b.isEmpty then some [] else none
  | fuel + 1, b =>
    if b.isEmpty then some []
    else
      let len := beAt b 2 2
      let size := 8 + (len + 3) / 4 * 4
      if b.length < size then none
      else (parseRecords fuel (b.drop size)).map fun r => (copyCode (beAt b 0 1) (beAt b 4 4), slice b 8 len) :: r

/-- History of the side behind, seen from `diff` numbers later (R447). -/
def agedHistory (diff n : Nat) (h : List Bool) : List Bool := (List.replicate (min diff n) false ++ h).take n

/-- Two histories ORed. -/
def orHistory : List Bool → List Bool → List Bool
  | [], b => b
  | a, [] => a
  | x :: a, y :: b => (x || y) :: orHistory a b

/-- A member state merged with a copied one (R447). -/
def mergeMember (seq : Nat) (takeAny guard : Bool) (m : Member) : Member :=
  if takeAny then m
  else if m.takeAny then { m with recov := seq, takeAny := false, guard := guard }
  else if 0 < signed16 ((seq : Int) - m.recov) then { m with recov := seq, guard := guard }
  else m

/-- A context with a copied value (R447): replaced under RESET, else merged. -/
def mergeRecov (n : Nat) (v : Bytes) (x : Recov) : Recov :=
  let seq := leNat (slice v 0 2)
  let f := leNat (slice v 2 1)
  let hist := (upTo n).map fun i => bitSet (slice v 4 16) i
  let mf := leNat (slice v 28 1)
  let mSeq := fun (i : Nat) => leNat (slice v (20 + 2 * i) 2)
  let copied : Nat → Member → Member := fun i m =>
    { m with recov := mSeq i, takeAny := bit mf i, guard := bit mf (4 + i) }
  let members := (upTo 4).map fun i => (i, x.members.getD i {})
  if bit f 2 then
    { x with
      recov := seq, takeAny := bit f 0, guard := bit f 1, history := if bit f 0 then [] else hist,
      members := members.map fun e => copied e.1 e.2 }
  else
    let y := { x with members := members.map fun e => mergeMember (mSeq e.1) (bit mf e.1) (bit mf (4 + e.1)) e.2 }
    if bit f 0 then y
    else if x.takeAny then { y with recov := seq, takeAny := false, guard := bit f 1, history := hist }
    else
      let d := signed16 ((seq : Int) - x.recov)
      if 0 < d then
        { y with recov := seq, guard := bit f 1, history := orHistory hist (agedHistory d.toNat n x.history) }
      else { y with history := orHistory x.history (agedHistory d.natAbs n hist) }

/-- One record takes effect (R447). -/
def applyRecord (s : State) (e : Nat × Bytes) : State :=
  let k := codeKey e.1
  let v := e.2
  match codeKind e.1 with
  | 1 => if (s.row 0x3003 k).isSome then s.updRecov k (mergeRecov (recField s s.cfg.running k 5) v) else s
  | 2 =>
    if (s.row 0x3001 k).isNone then s
    else
      let n := leNat (slice v 0 2)
      if bit (leNat (slice v 2 1)) 0 || decide (0 < signed16 ((n : Int) - (AMap.get 0 s.frer.gens k : Nat))) then
        putGenNumber false k n s
      else s
  | 3 =>
    if (s.row 0x2103 k).isSome then
      s.putMeter k { tc := leNat (slice v 0 8), te := leNat (slice v 8 8), last := s.cycle }
    else s
  | 4 =>
    let s1 := s.updQueue (k / 8) (k % 8) fun q => { q with deficit := leNat (slice v 0 4) }
    if bit (leNat (slice v 4 1)) 0 then
      s1.updDrr (k / 8) fun d => { d with ptr := k % 8, visit := bit (leNat (slice v 4 1)) 1 }
    else s1
  | 5 => s.updQueue (k / 8) (k % 8) fun q => { q with shaper := toSigned 64 (leNat (slice v 0 8)) }
  | _ => s

/-- A complete copy m takes effect (R449). -/
def applyCopy (m : Nat) (records : List (Nat × Bytes)) (size : Nat) (s : State) : State :=
  let codes := records.map (·.1)
  let full := ((copyEntries s).filter fun c => codeKind c != 7).all codes.contains
  let s1 := records.foldl applyRecord s
  let s2 := s1.updPair fun p =>
    { p with
      rx := none, applied := m, lastEnd := some m, ready := p.ready || full,
      mirror := records.foldl (fun a e => AMap.set a e.1 e.2) p.mirror }
  pulse 245 ((s2.bumpPair 9).bumpBy 0x7005 0x0B 0 size)

/-- The frames of a pending copy in FRAME_SEQ order are numbered from 0 without a gap. -/
def framesComplete (l : List (Nat × Bytes)) (n : Nat) : Bool := l.map (·.1) == upTo n

/-- The end marker of copy m arrives (R449): the copy is applied whole, or discarded. -/
def endCopy (m : Nat) (b : Bytes) (s : State) : State :=
  if s.pair.lastEnd = some m then s
  else
    let frames := match s.pair.rx with
      | some c => c.frames
      | none => []
    let bytes := (frames.map (·.2)).flatten
    match parseRecords bytes.length bytes with
    | some rs =>
      if !bit (beAt b 50 1) 0 ∧ framesComplete frames (beAt b 38 4) ∧ rs.length = beAt b 42 4 ∧ crc32c bytes = beAt b 46 4 then
        applyCopy m rs bytes.length s
      else discardCopy m s
    | none => discardCopy m s

/-- COPY_END_RX (R449). -/
def effCopyEndRx (lane : Nat) (b : Bytes) (s : State) : State :=
  pairReceive lane b (fun s =>
    if s.pair.role ≠ 3 ∨ beAt b 14 1 ≠ 5 then s else endCopy (beAt b 26 4) b (supersede (beAt b 26 4) s)) s

/-- COPY_MISSING (R449): no end marker of copy m by C(m + 1). -/
def effCopyMissing (s : State) : State :=
  let m := copyNumber s
  let before := (m + 2 ^ 32 - 1) % 2 ^ 32
  if pairRuns s && s.pair.role == 3 then
    match s.pair.rx, s.pair.lastEnd with
    | some c, _ => if c.num ≠ m then discardCopy c.num s else s
    | none, some e => if e ≠ m ∧ e ≠ before then discardCopy before s else s
    | none, none => s
  else s

/-! ## Loss and takeover -/

/-- A pending incomplete copy is discarded (R437, R449). -/
def dropPending (s : State) : State :=
  match s.pair.rx with
  | some c => discardCopy c.num s
  | none => s

/-- HEARTBEAT_TIMEOUT (R437): 32 us after the last valid heartbeat a STANDBY unit declares the loss. -/
def effHeartbeatTimeout (s : State) : State :=
  match s.pair.heardAt with
  | some t =>
    if pairRuns s && s.pair.role == 3 && !s.pair.taking && decide (t + usCycles 32 ≤ s.cycle) &&
        decide (s.pair.roleAt ≤ t + usCycles 32) then
      dropPending (s.updPair fun p => { p with taking := true })
    else s
  | none => s

/-- A queued frame that a takeover flushes at a port (R437). -/
def takeoverFlushes (s : State) (port : Nat) (r : Ref) : Bool :=
  match AMap.find s.fabric.frames r.frame with
  | some f =>
    (pairPort s port 2 == 1 || pairPort s port 2 == 2) && decide (f.checkedAt < s.cycle) &&
    !(f.hdr.streamValid && (recoveryOf (s.epochImage f.hdr.epoch) f.hdr.handle port).isSome)
  | none => false

/-- Step 4 (c) of R437. -/
def takeoverFlush (s : State) : State :=
  (busyQueues s).foldl (fun s1 q =>
    let gone := (s1.queue q.1 q.2).refs.filter (takeoverFlushes s q.1)
    emptyQueue q.1 q.2 ((gone.foldl (fun s2 r => unlinkRef q.1 q.2 r s2) s1).bumpBy 0x7005 6 0 gone.length)) s

/-- A held servo record at a takeover (R447). -/
def takeServo (s : State) (d : Nat) : State :=
  match AMap.find s.pair.mirror (copyCode 6 d) with
  | some v =>
    if s.domSource d = 1 then
      setLocked d (bit (leNat (slice v 2 1)) 0) (s.updDom d fun x =>
        { x with good := leNat (slice v 0 1), bad := leNat (slice v 1 1) })
    else s
  | none => s

/-- A held data slot at a takeover (R447): its payload goes to the own slot of the same place. -/
def takeSlot (s : State) (e : Nat × Bytes) : State :=
  if codeKind e.1 ≠ 7 then s
  else
    match AMap.find s.herd.layout (codeKey e.1) with
    | none => s
    | some r =>
      let g := slotN r 4
      let theirs := pairSlots s g (slotN r 1)
      match (pairSlots s g (herdId s))[theirs.idxOf (codeKey e.1)]? with
      | none => s
      | some k =>
        if s.herd.ready.contains k then s
        else
          let row := AMap.get [] s.herd.layout k
          let s1 := s.updHerd fun h => { h with ready := k :: h.ready }
          s1.updHerd fun h => { h with txMem := memWrite h.txMem (slotN row 2 + 4) (padTo (slotN row 3 - 4) e.2) }

/-- Values that the mirror holds until a takeover. -/
def takeMirror (s : State) : State := s.pair.mirror.foldl takeSlot ((upTo 8).foldl takeServo s)

/-- The actions of a takeover (R437). -/
def takeover (s : State) : State :=
  let s1 := takeoverFlush (frerTakeover (becomeActive (dropPending s)))
  let s2 := s1.updPair fun p =>
    { p with taking := false, ready := false, yield := false, takeoverTime := s.ns 0, carried := [], sendFull := true }
  disturbDigest ((takeMirror (pairEvent 0 s2)).bumpPair 4)

/-! ## Announcements and digests -/

/-- An announcement without its tag and FCS (R442). -/
def announceFrame (s : State) : Bytes :=
  padTo 52 (beBytes 6 0x0300504C0002 ++ beBytes 6 (stationAddress s) ++ beBytes 2 0x88B5 ++ [6, 1])

/-- One port's announcement replaces one still unsent (R442). -/
def announcePort (s : State) (p : Nat) : State :=
  let tc := s.cfgN 0x7003 3
  let old := (s.queue p tc).refs.filter fun r =>
    match AMap.find s.fabric.frames r.frame with
    | some f => f.announce
    | none => false
  issueFrame p tc true (announceFrame s) (emptyQueue p tc (old.foldl (fun s1 r => unlinkRef p tc r s1) s))

/-- The TAGGED ports (R442). -/
def taggedPorts (s : State) : List Nat :=
  ((upTo 256).filter (fun p => portUsed s s.cfg.running p) ++ [260, 261]).filter fun p => pairPort s p 2 == 1

/-- ANNOUNCEMENT (R442): every 10 us in RUN. -/
def effAnnouncement (s : State) : State :=
  if s.chip.mode == .run && decide (s.pair.announceAt + usCycles 10 ≤ s.cycle) then
    (taggedPorts s).foldl announcePort (s.updPair fun p => { p with announceAt := s.cycle })
  else s

/-- DIGEST_CLOSE (R452): 1 us after C(m + 1) the digest of cycle m closes. -/
def effDigestClose (s : State) : State :=
  let m := (copyNumber s + 2 ^ 32 - 1) % 2 ^ 32
  let closed := match s.pair.digest with
    | some d => d.cycle == m
    | none => false
  if pairRuns s && decide (1000 ≤ copyPhase s) && !closed then
    let d := (s.pair.open_.find? fun d => d.cycle == m).getD { cycle := m, count := 0, sum := 0 }
    s.updPair fun p =>
      { p with
        digest := some d, open_ := p.open_.filter fun d => d.cycle == copyNumber s || d.cycle == (copyNumber s + 1) % 2 ^ 32,
        spanFrom := s.cycle - nsCycles (copyNs s + copyPhase s) }
  else s

/-! ## Feeds -/

/-- FULL_LOAD_POWER in watts (R456). -/
def fullLoad (s : State) : Nat := if s.ident.ordering = 0 then 590 else if s.ident.ordering = 1 then 575 else 320

/-- Changes the feed supervision. -/
def State.updFeeds (s : State) (f : Feeds → Feeds) : State := { s with feeds := f s.feeds }

/-- The device is short (R428). -/
def isShort (s : State) : Bool := !feedsOk s && decide (s.cfgN 0x7001 2 < fullLoad s)

/-- The ports that a short device sheds (R429). -/
def shedPorts (s : State) : List Nat :=
  (linePorts s).filter fun p => bitSet (s.cfgO 0x7001 3) p && gateCfg s s.cfg.running p 0x28 == 0

/-- The set of shedding ports changes: links fall or start (R429, R430). -/
def setShedding (l : List Nat) (s : State) : State :=
  let s1 := s.updFeeds fun f => { f with shedding := l }
  let s2 := (linePorts s).foldl (fun s2 p => noteLink p (linkState s p) (linkPower p (portOn s p) s2)) s1
  if s.feeds.shedding.isEmpty = l.isEmpty then s2
  else
    let s3 := pulse 243 s2
    if l.isEmpty then s3 else s3.bumpPair 0x11

/-- The short condition is judged anew, at a feed change or a cutover (R428 to R430). -/
def judgeFeeds (s : State) : State :=
  let now := isShort s
  let s1 := s.updFeeds fun f =>
    { f with
      short := now,
      okSince := if now then none else if f.short then some s.cycle else f.okSince }
  if now then setShedding (shedPorts s1) s1 else s1

/-- A loss of a feed (R430, R440). -/
def feedLost (line : Nat) (s : State) : State :=
  let s1 := ((s.updFeeds fun f => if line = 0 then { f with aLost := true } else { f with bLost := true }).hit
    (.feedLost line) 0).bumpPair (0x0F + line)
  let s2 := healthFault (8 + line) 0 s1
  let partnerGood := partnerHeard s2 &&
    (match s2.pair.partner with | some p => bit p.flags 4 && bit p.flags 6 | none => false)
  if s2.cfgB 0x7000 7 && isPaired s2 && handoverAllowed s2 && partnerGood && (line == 0 || s2.cfgN 0x7001 1 == 1) then
    yieldPair s2
  else s2

/-- The filter time of a feed line in core cycles: rounded up to a multiple of 8 ns (R424). -/
def feedFilter (s : State) (line : Nat) : Nat := nsCycles ((s.cfgN 0x6100 (1 + line) + 7) / 8 * 8)

/-- The filter can have accepted a change now: the new level has held for the filter time, and so has not begun before the last
accepted change (R424; DEDUCED, log entry 84). -/
def feedHeld (s : State) (line : Nat) : Bool :=
  match (if line = 0 then s.feeds.aAt else s.feeds.bAt) with
  | some t => decide (t + feedFilter s line ≤ s.cycle)
  | none => true

/-- A filtered level and the core cycle of its acceptance. -/
def acceptFeed (line : Nat) (level : Bool) (s : State) : State :=
  s.updFeeds fun f =>
    if line = 0 then { f with aOk := level, aAt := some s.cycle } else { f with bOk := level, bAt := some s.cycle }

/-- FEED_LINE_CHANGE (R424, R428): a filtered change of FEED_A_OK (0) or FEED_B_OK (1). -/
def effFeedLineChange (line : Nat) (level : Bool) (s : State) : State :=
  let was := if line = 0 then s.feeds.aOk else s.feeds.bOk
  if isAlive s.chip.mode && decide (line < 2) && was != level && feedHeld s line then
    let s1 := raiseSource (272 + line) (acceptFeed line level s)
    judgeFeeds (if level then s1 else feedLost line s1)
  else s

/-- RESTORE_HOLD_EXPIRY (R430). -/
def effRestoreHoldExpiry (s : State) : State :=
  match s.feeds.okSince with
  | some t =>
    if !s.feeds.short && decide (t + msCycles (s.cfgN 0x7001 4) ≤ s.cycle) && isAlive s.chip.mode then
      setShedding [] (s.updFeeds fun f => { f with okSince := none })
    else s
  | none => s

/-! ## The meanings -/

/-- COPY_DEADLINE: answers the state after its effect. -/
def execCopyDeadline (s : State) : Answer := .next (effCopyDeadline s)

/-- COPY_INSTANT: answers the state after its effect. -/
def execCopyInstant (s : State) : Answer := .next (effCopyInstant s)

/-- COPY_END_MARKER_SENT: answers the state after its effect. -/
def execCopyEndMarkerSent (s : State) : Answer := .next (effCopyEndMarkerSent s)

/-- COPY_DATA_RX: answers the state after its effect. -/
def execCopyDataRx (lane : Nat) (b : Bytes) (s : State) : Answer := .next (effCopyDataRx lane b s)

/-- COPY_END_RX: answers the state after its effect. -/
def execCopyEndRx (lane : Nat) (b : Bytes) (s : State) : Answer := .next (effCopyEndRx lane b s)

/-- COPY_MISSING: answers the state after its effect. -/
def execCopyMissing (s : State) : Answer := .next (effCopyMissing s)

/-- HEARTBEAT_TIMEOUT: answers the state after its effect. -/
def execHeartbeatTimeout (s : State) : Answer := .next (effHeartbeatTimeout s)

/-- ANNOUNCEMENT: answers the state after its effect. -/
def execAnnouncement (s : State) : Answer := .next (effAnnouncement s)

/-- DIGEST_CLOSE: answers the state after its effect. -/
def execDigestClose (s : State) : Answer := .next (effDigestClose s)

/-- FEED_LINE_CHANGE: answers the state after its effect. -/
def execFeedLineChange (line : Nat) (level : Bool) (s : State) : Answer := .next (effFeedLineChange line level s)

/-- RESTORE_HOLD_EXPIRY: answers the state after its effect. -/
def execRestoreHoldExpiry (s : State) : Answer := .next (effRestoreHoldExpiry s)

end Sys2Proof.Machine
end

