-- ==== Sys2Proof/Machine/Rails.lean ====
section
/-!
DEFINITION. The supply rails (R510, R515, R516) and the operating range of a rail (R511, R515). Voltages are in tenths of a
millivolt, currents in milliamperes.
-/
namespace Sys2Proof.Machine

/-- A row of the supply table: nominal voltage, group, static range, transient range, supervision threshold (R510, R515); typical
and maximum current, the latter I_REF of R473 (R516). -/
structure Rail where
  nominal : Nat
  group : Nat
  staticLo : Nat
  staticHi : Nat
  transientLo : Nat
  transientHi : Nat
  threshold : Nat
  typical : Nat
  rated : Nat
deriving DecidableEq, Repr, Inhabited

/-- The eight rails in the order of R510. -/
def rails : List Rail :=
  [ { nominal := 7500, group := 1, staticLo := 7275, staticHi := 7725, transientLo := 7050, transientHi := 7950, threshold := 6750, typical := 400000, rated := 560000 },
    { nominal := 8500, group := 1, staticLo := 8245, staticHi := 8755, transientLo := 7990, transientHi := 9010, threshold := 7650, typical := 46000, rated := 60000 },
    { nominal := 8000, group := 2, staticLo := 7760, staticHi := 8240, transientLo := 7520, transientHi := 8480, threshold := 7200, typical := 75000, rated := 100000 },
    { nominal := 12000, group := 2, staticLo := 11640, staticHi := 12360, transientLo := 11280, transientHi := 12720, threshold := 10800, typical := 16000, rated := 20000 },
    { nominal := 8000, group := 2, staticLo := 7760, staticHi := 8240, transientLo := 7520, transientHi := 8480, threshold := 7200, typical := 3000, rated := 4500 },
    { nominal := 6000, group := 3, staticLo := 5700, staticHi := 6500, transientLo := 5550, transientHi := 6650, threshold := 5400, typical := 5000, rated := 6000 },
    { nominal := 12000, group := 2, staticLo := 11640, staticHi := 12360, transientLo := 11280, transientHi := 12720, threshold := 10800, typical := 1500, rated := 2000 },
    { nominal := 18000, group := 3, staticLo := 17100, staticHi := 18900, transientLo := 16920, transientHi := 19080, threshold := 16200, typical := 2500, rated := 3000 } ]

/-- Rail k of R510. -/
def railOf (k : Nat) : Rail := rails.getD k default

/-- A level that belongs to the operating range of a rail: neither below its supervision threshold nor above its transient
maximum (R515). -/
def inOperatingRange (k level : Nat) : Bool := decide ((railOf k).threshold ≤ level) && decide (level ≤ (railOf k).transientHi)

/-- A rail that stays at a level for `ns` nanoseconds leaves its operating range (R515). -/
def leavesRange (k level ns : Nat) : Bool := decide (k < 8) && !inOperatingRange k level && decide (1000 ≤ ns)

/-- A droop of a rail (R471): below its nominal voltage by more than `limit` per cent for 20 ns or more, without leaving the
operating range. -/
def isDroop (limit k level ns : Nat) : Bool :=
  decide (k < 8) && decide (level * 100 < (railOf k).nominal * (100 - limit)) && decide (20 ≤ ns) && !leavesRange k level ns

end Sys2Proof.Machine
end

