-- ==== Sys2Proof/Machine/Health.lean ====
section
/-!
DEFINITION. Fault registers as software sees them (R462 to R467, R474, R477) and the health monitor (R469 to R473).
-/
namespace Sys2Proof.Machine

/-! ## Fault instances -/

/-- The number of instances of a block, as R412 chooses them. -/
def instanceCount (b : Nat) : Nat :=
  match b with
  | 11 => 8
  | 16 => 32
  | _ => if b = 1 ∨ b = 2 then 16 else if b ≤ 10 ∨ b = 12 then 17 else 1

/-- An instance of a present block (R477): slices that the ordering code lacks have none. -/
def instancePresent (s : State) (b i : Nat) : Bool :=
  blockPresent s.ident b && decide (i < instanceCount b) && (decide (10 < b ∧ b ≠ 12) || slicePresent s.ident i)

/-- CLEAR's actions (R474): 1 STATUS, 2 the history and LOST, 3 both. -/
def clearFault (b i action : Nat) (s : State) : State :=
  s.updFault b i fun x =>
    { x with
      status := if bit action 0 then 0 else x.status, hist := if bit action 1 then [] else x.hist
      lost := if bit action 1 then 0 else x.lost }

/-- The fault window of an instance (R477). -/
def faultWindow (b i : Nat) : Nat := 0x071000 + (b - 1) * 0x400 + i * 0x20

/-- HIST_HI_READ (R477): the read returns the oldest entry's high half and removes the entry; the first entry of an empty
queue, written in the core cycle of the read, stays (R14). -/
def effHistHiRead (f b i : Nat) (s : State) : State :=
  if s.barReach f then
    let off := faultWindow b i + 0x0C
    if instancePresent s b i then
      if (s.hitOf (.faultHead b i)).isSome then s.emit (.reg f off 0)
      else (s.updFault b i fun x => { x with hist := x.hist.drop 1 }).emit (.reg f off ((s.fault b i).hist.headD 0 / 2 ^ 32))
    else s.emit (.reg f off 0)
  else refuseBar f false s

/-- FAULT_LOST_READ (R477). -/
def effFaultLostRead (f b i : Nat) (s : State) : State :=
  if s.barReach f then
    let off := faultWindow b i + 0x10
    let c := Sticky.faultLost b i
    let n := (s.fault b i).lost
    if instancePresent s b i then
      ((s.updFault b i fun x => { x with lost := s.rcLeft c n }).rehit c).emit (.reg f off (s.rcValue c n))
    else s.emit (.reg f off 0)
  else refuseBar f false s

/-- FAULT_REGISTER_SCRUB (R467): `bad` names an instance, block x 32 + i, whose registers fail their parity. -/
def effFaultRegisterScrub (bad : Option Nat) (s : State) : State :=
  match bad with
  | some k => if instancePresent s (k / 32) (k % 32) then detectMachinery (k / 32) (k % 32) s else s
  | none => s

/-- A write to the health region (R477): W1C bits; only PF0 writes here. -/
def healthRegWrite (f off v : Nat) (s : State) : State :=
  if f ≠ 0 then denyWrite f s
  else if off = 0 then
    { s with health := { s.health with
      droop := s.w1c (.health 1) s.health.droop (bit v 1), marginLow := s.w1c (.health 5) s.health.marginLow (bit v 5) } }
  else if 0x1000 ≤ off ∧ off < 0x6800 ∧ off % 0x20 = 0 then
    let b := (off - 0x1000) / 0x400 + 1
    let i := (off - 0x1000) % 0x400 / 0x20
    if instancePresent s b i then
      (upTo 17).foldl (fun s k => if bit v k then clearFaultBit b i (k + 1) s else s) s
    else s
  else s

/-! ## ALIVE -/

/-- Changes the health monitor. -/
def State.updHealth (s : State) (f : Health → Health) : State := { s with health := f s.health }

/-- A clock count lies within 1 % of its nominal value (R469). -/
def countOk (n nominal : Nat) : Bool := decide (nominal * 99 ≤ n * 100) && decide (n * 100 ≤ nominal * 101)

/-- ALIVE_HALF_PERIOD (R469). -/
def effAliveHalfPeriod (core time mem : Nat) (s : State) : State :=
  if isAlive s.chip.mode && !s.health.aliveStopped then
    let bad := [(0, countOk core 800000), (1, countOk time 500000), (2, countOk mem 250000)].filter fun e => !e.2
    if bad.isEmpty then s.updHealth fun h => { h with alive := !h.alive, running := true }
    else
      bad.foldl (fun s e => healthFault 0x0A e.1 s) (s.updHealth fun h => { h with alive := false, running := false, aliveStopped := true })
  else s

/-- SAFE_N is driven high (R469). -/
def safeNHigh (s : State) : Bool := isActive s.chip.mode

/-! ## Temperature and supplies -/

/-- The highest valid reading with its sensor, the lowest number among equals. -/
def hottestOf (l : List (Nat × Int)) : Option (Nat × Int) :=
  l.foldl (fun best e =>
    match best with
    | some b => if b.2 < e.2 then some e else some b
    | none => some e) none

/-- TJ is compared with the alarm and safe limits (R470). -/
def judgeHeat (s : State) : State :=
  let h := s.health
  let alarm := 8 * (s.cfgN 0x8100 1 : Int)
  let safe := 8 * (s.cfgN 0x8100 2 : Int)
  let s1 :=
    if alarm ≤ h.tj ∧ !h.alarm then healthFault 1 h.hottest (s.updHealth fun x => { x with alarm := true })
    else if h.tj < alarm - 40 ∧ h.alarm then pulse 247 (s.updHealth fun x => { x with alarm := false })
    else s
  let run := if safe ≤ h.tj then h.hotRun + 1 else 0
  let s2 := s1.updHealth fun x => { x with hotRun := run }
  if 4 ≤ run then healthFault 2 h.hottest s2 else s2

/-- THERMAL_SAMPLE (R470): 32 readings in 0.125 degC; without a valid one TJ stays. -/
def effThermalSample (readings : List Int) (s : State) : State :=
  if isAlive s.chip.mode && decide (readings.length = 32) then
    let ok := fun (r : Int) => decide (-320 ≤ r) && decide (r ≤ 1200)
    let s1 := s.updHealth fun h => { h with sensors := readings.map fun r => (r, ok r) }
    let s2 := (upTo 32).foldl (fun s k => if ok (readings.getD k 0) then s else healthFault 0x0B k s) s1
    match hottestOf (((upTo 32).map fun k => (k, readings.getD k 0)).filter fun e => ok e.2) with
    | some (k, t) => judgeHeat (s2.updHealth fun h => { h with tj := t, hottest := k })
    | none => s2
  else s

/-- SUPPLY_DROOP (R471): a rail has been at a level, in tenths of a millivolt, for `ns` nanoseconds. -/
def effSupplyDroop (rail level ns : Nat) (s : State) : State :=
  if isAlive s.chip.mode && isDroop (s.cfgN 0x8100 3) rail level ns then
    healthFault 3 rail (((s.updHealth fun h => { h with droop := true }).hit (.health 1) 0).bumpK 0x8103 2 rail)
  else s

/-- The margin trend of a lane (R472): the mean of its last 16 reports. -/
def marginTrend (s : State) (lane : Nat) : Option Nat :=
  match AMap.find s.health.margins lane with
  | some l => some (l.sum / max 1 l.length)
  | none => none

/-- MARGIN_REPORT (R472): a line lane whose link is up reports its eye margin. -/
def effMarginReport (lane mv : Nat) (s : State) : State :=
  if isAlive s.chip.mode && linePortPresent s.ident lane && (s.port (lanePort s lane)).up then
    let limit := s.cfgN 0x8100 4
    let was := match marginTrend s lane with
      | some t => decide (t < limit)
      | none => false
    let s1 := s.updHealth fun h =>
      { h with margins := AMap.set h.margins lane ((mv :: AMap.get [] h.margins lane).take 16) }
    if !was && decide ((marginTrend s1 lane).getD limit < limit) then
      healthFault 7 lane ((s1.updHealth fun h => { h with marginLow := true }).hit (.health 5) 0)
    else s1
  else s

/-! ## Ageing and wear -/

/-- A second, an hour in the units of `teq` and `dmg`. -/
def hourUnits : Nat := 3600000

/-- remaining_k of R473 in hours, saturating; none without ageing. -/
def remainingMonitor (limit deg teq af : Nat) : Option Nat :=
  if deg = 0 then none
  else if limit ≤ deg then some 0
  else if af = 0 then none
  else some (teq * (limit ^ 4 - deg ^ 4) * 1000 / (hourUnits * deg ^ 4 * af))

/-- remaining_r of R473 in hours; none without wear. -/
def remainingRail (budget dmg w : Nat) : Option Nat :=
  if budget * hourUnits ≤ dmg then some 0
  else if w = 0 then none
  else some ((budget * hourUnits - dmg) / (3600 * w))

/-- Each remaining life with its cause as EOL_CAUSE reads (R477). -/
def remainings (s : State) : List (Nat × Nat) :=
  let h := s.health
  ((upTo 64).filterMap fun k =>
    (remainingMonitor (s.cfgN 0x8100 5) (h.deg.getD k 0) (h.teq.getD k 0) (h.af.getD k 0)).map fun r => (k, r)) ++
  ((upTo 8).filterMap fun r =>
    (remainingRail (s.cfgN 0x8100 6) (h.dmg.getD r 0) (h.wear.getD r 0)).map fun x => (128 + r, x))

/-- The least remaining life, the first among equals. -/
def leastLife (l : List (Nat × Nat)) : Nat × Nat :=
  l.foldl (fun b e => if e.2 < b.2 then e else b) (0, 0xFFFFFFFF)

/-- The sensor reading that a free placement names. -/
def readingOf (s : State) (k : Nat) : Int := (s.health.sensors.getD (k % 32) (0, false)).1

/-- The integrals of one second (R473). -/
def ageSecond (volts current : List Nat) (s : State) : State :=
  let af := (upTo 64).map fun k => Config.ageingFactor k (readingOf s (Config.monitorSensor k)) (volts.getD k 0)
  let w := (upTo 8).map fun r => Config.wearFactor r (readingOf s (Config.railSensor r)) (current.getD r 0)
  s.updHealth fun h =>
    let teq := (upTo 64).map fun k => h.teq.getD k 0 + af.getD k 0
    let dmg := (upTo 8).map fun r => h.dmg.getD r 0 + w.getD r 0
    { h with af := af, wear := w, teq := teq, dmg := dmg }

/-- The degradation of monitor `k` (R473), kept where its reference is not measured. -/
def degradation (freq old : List Nat) (k : Nat) : Nat :=
  let r := freq.getD k 0
  if r = 0 then old.getD k 0 else (r - freq.getD (64 + k) 0) * 10 ^ 6 / r

/-- The ageing of each monitor once a minute (R473): 64 reference and then 64 stressed frequencies. -/
def ageMinute (freq : List Nat) (s : State) : State :=
  s.updHealth fun h => { h with deg := (upTo 64).map (degradation freq h.deg) }

/-- The monitors or rails whose value has reached a limit. -/
def atLimit (n lim : Nat) (l : List Nat) : List Nat := (upTo n).filter fun k => decide (lim ≤ l.getD k 0)

/-- Limits that an update finds newly reached are recorded, also where it is the limit that has moved (R473); `h0` is the
monitor before. -/
def judgeAgeing (h0 : Health) (s : State) : State :=
  let lim := s.cfgN 0x8100 5
  let bud := s.cfgN 0x8100 6 * hourUnits
  let h := s.health
  let aged := atLimit 64 lim h.deg
  let worn := atLimit 8 bud h.dmg
  let s1 := (aged.filter fun k => !h0.aged.contains k).foldl (fun s k => healthFault 4 k s) s
  let s2 := (worn.filter fun r => !h0.worn.contains r).foldl (fun s r => healthFault 5 r s) s1
  let least := leastLife (remainings s2)
  let low := decide (least.2 < s.cfgN 0x8100 7)
  let s3 := s2.updHealth fun x =>
    { x with
      eolHours := least.2, eolCause := least.1, eolAlert := low,
      aged := aged, worn := worn
      ageingLimit := h.deg.any fun d => decide (lim ≤ d), emLimit := h.dmg.any fun d => decide (bud ≤ d) }
  if low && !h0.eolAlert then healthFault 6 0 s3 else s3

/-- AGEING_UPDATE (R473): once a second, and with `minute` once in 60 s. -/
def effAgeingUpdate (minute : Bool) (volts freq current : List Nat) (s : State) : State :=
  if isAlive s.chip.mode then
    let s1 := ageSecond volts current s
    judgeAgeing s.health (if minute then ageMinute freq s1 else s1)
  else s

/-- teq and dmg are written to MRAM (R473), in the slot of their sequence number (R496). -/
def checkpoint (s : State) : State :=
  let s1 := s.updHealth fun h => { h with checkAt := s.cycle }
  let n : Checkpoint := { seq := s.mram.checkpoint.seq + 1, teq := s.health.teq, dmg := s.health.dmg }
  { s1 with mram := { s1.mram with checkpoint := n, checkpoints := AMap.set s.mram.checkpoints (n.seq % 16) n } }

/-- HEALTH_CHECKPOINT (R473): every 3,600 s. -/
def effHealthCheckpoint (s : State) : State :=
  if isAlive s.chip.mode && decide (s.health.checkAt + sCycles 3600 ≤ s.cycle) then checkpoint s else s

/-- The monitor after a full-device reset: the integrals resume from the last checkpoint (R473). -/
def healthRelease (s : State) : State :=
  { s with health :=
    { teq := padNat 64 s.mram.checkpoint.teq, dmg := padNat 8 s.mram.checkpoint.dmg, checkAt := s.cycle } }
where
  /-- A list of numbers filled up with zeros. -/
  padNat (n : Nat) (l : List Nat) : List Nat := (upTo n).map fun k => l.getD k 0

/-! ## The meanings -/

/-- HIST_HI_READ: answers the state after its effect. -/
def execHistHiRead (f : Nat) (b : Nat) (i : Nat) (s : State) : Answer := .next (effHistHiRead f b i s)

/-- FAULT_LOST_READ: answers the state after its effect. -/
def execFaultLostRead (f : Nat) (b : Nat) (i : Nat) (s : State) : Answer := .next (effFaultLostRead f b i s)

/-- FAULT_REGISTER_SCRUB: answers the state after its effect. -/
def execFaultRegisterScrub (bad : Option Nat) (s : State) : Answer := .next (effFaultRegisterScrub bad s)

/-- ALIVE_HALF_PERIOD: answers the state after its effect. -/
def execAliveHalfPeriod (core : Nat) (time : Nat) (mem : Nat) (s : State) : Answer := .next (effAliveHalfPeriod core time mem s)

/-- THERMAL_SAMPLE: answers the state after its effect. -/
def execThermalSample (readings : List Int) (s : State) : Answer := .next (effThermalSample readings s)

/-- SUPPLY_DROOP: answers the state after its effect. -/
def execSupplyDroop (rail : Nat) (s : State) (level : Nat := 0) (ns : Nat := 20) : Answer :=
  .next (effSupplyDroop rail level ns s)

/-- MARGIN_REPORT: answers the state after its effect. -/
def execMarginReport (lane : Nat) (mv : Nat) (s : State) : Answer := .next (effMarginReport lane mv s)

/-- AGEING_UPDATE: answers the state after its effect. -/
def execAgeingUpdate (minute : Bool) (volts : List Nat) (freq : List Nat) (current : List Nat) (s : State) : Answer := .next (effAgeingUpdate minute volts freq current s)

/-- HEALTH_CHECKPOINT: answers the state after its effect. -/
def execHealthCheckpoint (s : State) : Answer := .next (effHealthCheckpoint s)

end Sys2Proof.Machine
end

