-- ==== Sys2Proof/Machine/MemClk.lean ====
section
/-!
DEFINITION. Upkeep of the external memory (R489, R490, R492), loss of a clock (R502), and the recovered clocks (R500,
R503).
-/
namespace Sys2Proof.Machine

/-! ## External memory -/

/-- ZQ_CALIBRATION (R489): the calibration of every rank leaves nothing that software or a command can read. -/
def effZqCalibration (s : State) : State := s

/-- DQS_OSCILLATOR_READ (R489, R499): with a drift the write timing is adjusted, and RETRAINS counts it. -/
def effDqsOscillatorRead (c : Nat) (drift : Bool) (s : State) : State :=
  if isAlive s.chip.mode && drift && c < 8 then s.bumpK 0x6006 6 c else s

/-- MR4_READ (R489, R499): the refresh-rate field of MR4 is taken. -/
def effMr4Read (c v : Nat) (s : State) : State :=
  if isAlive s.chip.mode then
    { s with mem := { s.mem with channels := updAt s.mem.channels c fun x => { x with refreshRate := v % 8 } } }
  else s

/-- PATROL_SCRUB (R490, R492): one data word is read, corrected where it can be, and an uncorrectable word recorded only. -/
def effPatrolScrub (addr : Nat) (corrected uncorrectable : Bool) (s : State) : State :=
  if isAlive s.chip.mode && decide (addr < dataSize s) then
    let s1 : State := { s with mem := { s.mem with scrubPos := addr } }
    if uncorrectable then memUncorrectable addr s1
    else if corrected then memCorrected addr s1
    else s1
  else s

/-! ## Clocks -/

/-- REFCLK_LOSS (R502): REFCLK has been absent for 1 us. -/
def effRefclkLoss (s : State) : State :=
  if s.chip.mode = .off then s else detectFault 22 0 1 0 { s with chip := { s.chip with refclk := false } }

/-- PLL_UNLOCK (R466, R502): PLL `k` of PLL_LOCKED (R509) loses lock; 64 + q is the transmit PLL of quad q. -/
def effPllUnlock (k : Nat) (s : State) : State :=
  if s.chip.mode = .off then s
  else if 64 ≤ k then
    (if k < 128 && linePortPresent s.ident (4 * (k - 64)) then detectFault 1 ((k - 64) / 4) 1 (k - 64) s else s)
  else if k < 6 then
    let s1 : State := { s with chip := { s.chip with pll := setField s.chip.pll k 1 0 } }
    if k < 5 then detectFault 22 0 2 k s1 else s1
  else s

/-! ## Recovered clocks -/

/-- The SYNCE_OUT object of an output (R505). -/
def synceObj (k : Nat) : Nat := 0x4310 + k

/-- SYNCE_CLK[k] is to be held low (R503). -/
def squelchCause (s : State) (k : Nat) : Bool :=
  !s.cfgB (synceObj k) 1 || s.chip.mode == .off || s.chip.mode == .reset || s.chip.mode == .safe ||
  !(s.port (lanePort s (s.cfgN (synceObj k) 2))).up

/-- The multiplier by which a lane PLL derives its rate from the SerDes reference (R500), by the lane's bit rate in units of
15.625 Mbit/s. -/
def laneMultiplier (s : State) (lane : Nat) : Nat :=
  match lineSpeed s s.cfg.running (lanePort s lane) with
  | 400 => 680
  | 200 => 680
  | 100 => 680
  | 50 => 340
  | 25 => 165
  | _ => 66

/-- The recovered clock of a lane in hertz, at the nominal REFCLK: REFCLK by the lane multiplier (R500). -/
def laneClock (s : State) (lane : Nat) : Nat := 156250000 * laneMultiplier s lane

/-- What SYNCE_CLK[k] puts out in hertz: the lane clock by its multiplier and by DIVIDER, or 0 while squelched (R503). -/
def synceOut (s : State) (k : Nat) : Nat :=
  if s.pins.squelched.getD k true then 0
  else
    let lane := s.cfgN (synceObj k) 2
    laneClock s lane / laneMultiplier s lane / s.cfgN (synceObj k) 3

/-- SYNCE_SQUELCH (R503, R505): the output follows its cause; a transition to squelched is counted. -/
def effSynceSquelch (k : Nat) (s : State) : State :=
  let now := squelchCause s k
  if k < 2 ∧ now ≠ s.pins.squelched.getD k true then
    let s1 : State := { s with pins := { s.pins with squelched := setAt s.pins.squelched k now } }
    if now then s1.bump (synceObj k) 5 else s1
  else s

/-! ## The meanings -/

/-- ZQ_CALIBRATION: answers the state after its effect. -/
def execZqCalibration (s : State) : Answer := .next (effZqCalibration s)

/-- DQS_OSCILLATOR_READ: answers the state after its effect. -/
def execDqsOscillatorRead (c : Nat) (drift : Bool) (s : State) : Answer := .next (effDqsOscillatorRead c drift s)

/-- MR4_READ: answers the state after its effect. -/
def execMr4Read (c : Nat) (v : Nat) (s : State) : Answer := .next (effMr4Read c v s)

/-- PATROL_SCRUB: answers the state after its effect. -/
def execPatrolScrub (addr : Nat) (corrected : Bool) (uncorrectable : Bool) (s : State) : Answer := .next (effPatrolScrub addr corrected uncorrectable s)

/-- REFCLK_LOSS: answers the state after its effect. -/
def execRefclkLoss (s : State) : Answer := .next (effRefclkLoss s)

/-- PLL_UNLOCK: answers the state after its effect. -/
def execPllUnlock (k : Nat) (s : State) : Answer := .next (effPllUnlock k s)

/-- SYNCE_SQUELCH: answers the state after its effect. -/
def execSynceSquelch (k : Nat) (s : State) : Answer := .next (effSynceSquelch k s)

end Sys2Proof.Machine
end

