-- ==== Sys2Proof/Machine/Interrupts.lean ====
section
/-!
DEFINITION. The interrupt controller's accesses (R413 to R423, R426, R427) and the delivery of event-matrix pulses
(R410).
-/
namespace Sys2Proof.Machine

/-! ## The event matrix -/

/-- EVENT_PULSE (R410): a pulse acts at its consumers two core cycles after its issue. -/
def effEventPulse (l : Nat) (s : State) : State :=
  match s.intc.pulses.find? fun p => p.1 == l && decide (p.2 + 2 ≤ s.cycle) with
  | some p =>
    let s1 : State := { s with intc := { s.intc with pulses := s.intc.pulses.erase p } }
    lineRequests l (lineStarts l (raiseSource l s1))
  | none => s

/-! ## Write rights -/

/-- A function may write a target's registers (R427). -/
def targetRight (s : State) (f t : Nat) : Bool := f == 0 || (s.target t).function == f

/-- Runs a write that a right allows; a denied one sets WRITE_DENIED (R372, R427), and one to a function in D3hot is an
unsupported request (R374). -/
def withRight (right : Bool) (f : Nat) (act : State → State) (s : State) : State :=
  if !s.barReach f then refuseBar f true s else if right then act s else denyWrite f s

/-! ## Claim and end of interrupt -/

/-- Offset of a target's registers (R427). -/
def targetBase (t : Nat) : Nat := 0x010000 + t * 0x10

/-- A claim takes a source: PENDING is cleared but by a raise of the same core cycle (R413), and in stack mode the source
is pushed (R418). -/
def takeClaim (t n lvl : Nat) (s : State) : State :=
  let s1 := (s.updSource n fun x => { x with pending := s.w1c (.pending n) x.pending true }).hit (.claim t) 0
  let s2 := if thresholdMode s.chip.mode (s.target t) then s1
    else s1.updTarget t fun x => { x with stack := (n, lvl) :: x.stack }
  noteActed [t] s2

/-- CLAIM (R418): 2,047 when no source is deliverable, or to another function. -/
def effClaim (f t : Nat) (s : State) : State :=
  if s.barReach f && decide (t < 64) then
    if (s.target t).function ≠ f then s.emit (.reg f (targetBase t) 2047)
    else
      match bestSource s t with
      | some (n, lvl) => (takeClaim t n lvl s).emit (.reg f (targetBase t) n)
      | none => s.emit (.reg f (targetBase t) 2047)
  else refuseBar f false s

/-- The stack that an EOI leaves; none where it finds it empty. An EOI in the core cycle of a CLAIM applies first, so that
the entry the CLAIM has pushed stays (R419). -/
def poppedStack (claimed : Bool) (stack : List (Nat × Nat)) : Option (List (Nat × Nat)) :=
  match stack with
  | [] => none
  | e :: r => if claimed then (match r with
    | [] => none
    | _ :: q => some (e :: q)) else some r

/-- An end of interrupt (R419). -/
def endInterrupt (t : Nat) (s : State) : State :=
  if thresholdMode s.chip.mode (s.target t) then s
  else
    match poppedStack (s.hitOf (.claim t)).isSome (s.target t).stack with
    | none => (s.updTarget t fun x => { x with underflow := true }).hit (.underflow t) 0
    | some r => noteActed [t] (s.updTarget t fun x => { x with stack := r })

/-- EOI (R419). -/
def effEoi (f t _v : Nat) (s : State) : State :=
  if t < 64 then withRight (targetRight s f t) f (endInterrupt t) s else s

/-- SOFT_SET (R427). -/
def effSoftSet (f v : Nat) (s : State) : State :=
  let n := v % 2 ^ 11
  withRight (f == 0) f (fun s => if 1216 ≤ n ∧ n ≤ 1279 then raiseSource n s else s) s

/-- COUNT_READ (R413, R427): a read of SOURCE_CONFIG. -/
def effCountRead (f src : Nat) (s : State) : State :=
  if s.barReach f && decide (src < 2048) then
    let x := s.source src
    let c := Sticky.count src
    let s1 := if srcExists src then (s.updSource src fun y => { y with count := s.rcLeft c x.count }).rehit c else s
    s1.emit (.reg f (0x010800 + src * 4) (x.level + x.target * 16 + s.rcValue c x.count * 65536))
  else refuseBar f false s

/-! ## Sleep and hold-off -/

/-- A group holds an enabled pending source routed to a target. -/
def groupWaits (s : State) (t g : Nat) : Bool :=
  s.intc.sources.any fun e => e.1 / 32 == g && e.2.enable && e.2.pending && e.2.target == t

/-- A write of SLEEP 1 (R422). -/
def putToSleep (t : Nat) (s : State) : State :=
  let s1 := s.updTarget t fun x => { x with sleep := true }
  (upTo 64).foldl (fun s2 g => if groupWaits s t g then s2.updGroup g fun x => { x with runs := none } else s2) s1

/-- SLEEP (R422). -/
def effSleep (f t : Nat) (s : State) : State :=
  if t < 64 then withRight (targetRight s f t) f (putToSleep t) s else s

/-- HOLDOFF_EXPIRY (R421). -/
def effHoldoffExpiry (g : Nat) (s : State) : State :=
  match (s.group g).runs with
  | some t => if t ≤ s.cycle then s.updGroup g fun x => { x with runs := none } else s
  | none => s

/-! ## Settings -/

/-- A target takes new settings; its stack is emptied when its active regime changes (R415). -/
def setTarget (t : Nat) (g : IntTarget → IntTarget) (s : State) : State :=
  let old := s.target t
  let new := g old
  let s1 := s.updTarget t fun _ =>
    if thresholdMode s.chip.mode old != thresholdMode s.chip.mode new then { new with stack := [] } else new
  if new.sleep then putToSleep t s1 else s1

/-- A source takes new settings (R413, R421). -/
def setSource (n : Nat) (g : IntSource → IntSource) (s : State) : State :=
  if srcExists n then startHoldoff (n / 32) (enabledPending s (n / 32)) (s.updSource n g) else s

/-- TARGET_CONTROL (R427). -/
def writeTargetControl (t v : Nat) (s : State) : State :=
  setTarget t (fun x =>
    { x with mode := field v 0 1, mask := bit v 1, sleep := bit v 2, threshold := field v 4 4 }) s

/-- The group's ENABLE register (R427). -/
def writeGroupEnable (g v : Nat) (s : State) : State :=
  let hit := (upTo 32).filter fun i => srcExists (g * 32 + i)
  let s1 := hit.foldl (fun s i => s.updSource (g * 32 + i) fun x => { x with enable := bit v i }) s
  startHoldoff g (enabledPending s g) s1

/-- The group's PENDING register (R413, R417, R427): each bit by its right. -/
def writeGroupPending (f g v : Nat) (s : State) : State :=
  let hit := (upTo 32).filter fun i => bit v i && srcExists (g * 32 + i)
  let mine := hit.filter fun i => f == 0 || (s.target (s.source (g * 32 + i)).target).function == f
  let acted := (mine.filter fun i => (s.source (g * 32 + i)).pending).map fun i => (s.source (g * 32 + i)).target
  let s1 := mine.foldl (fun s i => s.updSource (g * 32 + i) fun x =>
    { x with pending := s.w1c (.pending (g * 32 + i)) x.pending true }) s
  let s2 := if mine.length = hit.length then s1 else denyWrite f s1
  noteActed acted s2

/-- A write in the interrupt controller's region (R427). -/
def intRegWrite (f off v : Nat) (s : State) : State :=
  if off < 0x400 then
    let t := off / 0x10
    match off % 0x10 with
    | 4 => effEoi f t v s
    | 8 => withRight (targetRight s f t) f (writeTargetControl t v) s
    | 0xC =>
      withRight (targetRight s f t) f (fun s => if bit v 11 then s.updTarget t fun x =>
        { x with underflow := s.w1c (.underflow t) x.underflow true } else s) s
    | _ => s
  else if off < 0x800 then
    let g := (off - 0x400) / 0x10
    match off % 0x10 with
    | 0 => writeGroupPending f g v s
    | 4 => withRight (f == 0) f (writeGroupEnable g v) s
    | 8 => withRight (f == 0) f (fun s => s.updGroup g fun x => { x with holdoff := v }) s
    | _ => s
  else if off < 0x2800 then
    let n := (off - 0x800) / 4
    withRight (f == 0) f (setSource n fun x => { x with level := field v 0 4, target := field v 4 6 }) s
  else if off = 0x2800 then effSoftSet f v s
  else s

/-! ## Rows of the objects (R426) -/

/-- A WRITE of an INT_SOURCE, INT_GROUP or INT_TARGET row takes effect at once. -/
def intRowWrite (tbl key : Nat) (r : Row) (s : State) : State :=
  let n := fun k => (r.getD k (.num 0)).n
  match tbl with
  | 0x6101 => setSource key (fun x => { x with enable := n 0 == 1, level := n 1, target := n 2 }) s
  | 0x6102 => s.updGroup key fun x => { x with holdoff := n 0 }
  | 0x6103 =>
    setTarget key (fun x =>
      { x with
        function := n 0, vector := n 1, pin := n 2 == 1, mode := n 3, threshold := n 4, mask := n 5 == 1,
        sleep := n 6 == 1 }) s
  | _ => s

/-- The row as it reads. -/
def intRowRead (s : State) (tbl key : Nat) : Row :=
  match tbl with
  | 0x6101 =>
    let x := s.source key
    [.num (b2n x.enable), .num x.level, .num x.target, .num (b2n x.pending), .num x.count]
  | 0x6102 => [.num (s.group key).holdoff]
  | _ =>
    let x := s.target key
    [.num x.function, .num x.vector, .num (b2n x.pin), .num x.mode, .num x.threshold, .num (b2n x.mask), .num (b2n x.sleep)]

/-- A function reset acts on the targets bound to it (R423). -/
def intcFunctionReset (f : Nat) (s : State) : State :=
  { s with intc := { s.intc with targets := s.intc.targets.map fun (t : IntTarget) =>
    if t.function = f then { t with stack := [], mask := true, sleep := false, underflow := false } else t } }

/-! ## The meanings -/

/-- EVENT_PULSE: answers the state after its effect. -/
def execEventPulse (l : Nat) (s : State) : Answer := .next (effEventPulse l s)

/-- CLAIM: answers the state after its effect. -/
def execClaim (f : Nat) (t : Nat) (s : State) : Answer := .next (effClaim f t s)

/-- EOI: answers the state after its effect. -/
def execEoi (f : Nat) (t : Nat) (v : Nat) (s : State) : Answer := .next (effEoi f t v s)

/-- SOFT_SET: answers the state after its effect. -/
def execSoftSet (f : Nat) (v : Nat) (s : State) : Answer := .next (effSoftSet f v s)

/-- COUNT_READ: answers the state after its effect. -/
def execCountRead (f : Nat) (src : Nat) (s : State) : Answer := .next (effCountRead f src s)

/-- SLEEP: answers the state after its effect. -/
def execSleep (f : Nat) (t : Nat) (s : State) : Answer := .next (effSleep f t s)

/-- HOLDOFF_EXPIRY: answers the state after its effect. -/
def execHoldoffExpiry (g : Nat) (s : State) : Answer := .next (effHoldoffExpiry g s)

end Sys2Proof.Machine
end

