-- ==== Sys2Proof/Machine/Pcie.lean ====
section
/-!
DEFINITION. The PCI Express link and functions (R365 to R383): link events, resets, power states, wake, MSI-X messages,
the mailbox's SEND and ACK, configuration writes, and BAR0 accesses that are refused as badly formed.
-/
namespace Sys2Proof.Machine

/-- Changes the link. -/
def State.updPcie (s : State) (f : Pcie → Pcie) : State := { s with pcie := f s.pcie }

/-- Changes a function's mailbox. -/
def State.updMbox (s : State) (f : Nat) (g : Mailbox → Mailbox) : State :=
  { s with nap := { s.nap with mbox := updAt s.nap.mbox f g } }

/-- A function's mailbox. -/
def State.mailbox (s : State) (f : Nat) : Mailbox := s.nap.mbox.getD f {}

/-! ## Resets -/

/-- Transfers that a function's mailbox opened close (R58, R382). -/
def closeMailboxTransfers (f : Nat) (s : State) : State :=
  { s with nap := { s.nap with transfers := s.nap.transfers.filter fun t => t.req.path != Path.mailbox f } }

/-- A waiting request of a function keeps its effect and loses its response (R382). -/
def voidResponse (f : Nat) (q : NapReq) : NapReq := if q.path == Path.mailbox f then { q with src := 1 } else q

/-- Every waiting request of a function; one of a SEND in the core cycle of the reset is lost (R382). -/
def voidResponses (f : Nat) (s : State) : State :=
  let q := s.nap.queue.filter fun q => !(q.path == Path.mailbox f && q.came == s.cycle)
  { s with nap := { s.nap with queue := q.map (voidResponse f) } }

/-- A function's local response count returns to 0 (R53). -/
def clearCount (f : Nat) (s : State) : State :=
  { s with nap := { s.nap with localCount := setAt s.nap.localCount f 0 } }

/-- A function's registers after a reset (R382). With the link lost PME_En and PME_Status are kept, as WAKE_N needs them (R375;
DEDUCED, log entry 23). -/
def clearedPf (keepPme : Bool) (p : Pf) : Pf :=
  if keepPme then { pmeEnable := p.pmeEnable, pmeStatus := p.pmeStatus, wakeSeen := p.wakeSeen, reads := p.reads }
  else { wakeSeen := p.wakeSeen, reads := p.reads }

/-- A reset of one function (R382, R423). -/
def resetFunction (keepPme : Bool) (s : State) (f : Nat) : State :=
  let s1 := s.updPf f (clearedPf keepPme)
  let s2 := clearCount f ((voidResponses f (closeMailboxTransfers f s1)).updMbox f fun _ => { resetAt := some s.cycle })
  let s3 := { s2 with time := { s2.time with fn := s2.time.fn.filter fun e => e.1 / 8 != f } }
  dmaFunctionReset f (intcFunctionReset f s3)

/-- The link goes down: every function is reset; with a PME_Status set WAKE_N is driven low (R375, R381). -/
def dropLink (s : State) : State :=
  let was := s.pcie.linkUp
  let s1 := (upTo 4).foldl (resetFunction true) (s.updPcie fun p => { p with linkUp := false, width := 0, speed := 0 })
  let s2 := if s1.pcie.pfs.any (·.pmeStatus) then s1.updPcie fun p => { p with wakeN := false } else s1
  if was then detectFault 15 0 2 0 s2 else s2

/-- PERST_N_ASSERT (R381). -/
def effPerstNAssert (s : State) : State :=
  if s.pcie.perst then s else dropLink (s.updPcie fun p => { p with perst := true, cfgReady := false })

/-- PERST_N_RELEASE (R366, R375): WAKE_N is released. -/
def effPerstNRelease (s : State) : State :=
  if s.pcie.perst then s.updPcie fun p => { p with perst := false, since := s.cycle, wakeN := true } else s

/-- The highest width that the device and a host offering `width` lanes support (R365). -/
def trainedWidth (width : Nat) : Nat := if 16 ≤ width then 16 else if 8 ≤ width then 8 else if 4 ≤ width then 4 else 0

/-- PCIE_LINK_UP (R365, R366): the link trains with a host that offers `width` lanes and rates up to number `speed` of R383; it
comes up at the highest width and rate both support, and not at all where they share none. -/
def effPcieLinkUp (width speed : Nat) (s : State) : State :=
  if isAlive s.chip.mode && !s.pcie.perst && !s.pcie.linkUp && decide (4 ≤ width) && decide (1 ≤ speed) then
    s.updPcie fun p => { p with linkUp := true, width := trainedWidth width, speed := min speed 4 }
  else s

/-- PCIE_CONFIG_READY (R366). -/
def effPcieConfigReady (s : State) : State :=
  if isAlive s.chip.mode && !s.pcie.perst then s.updPcie fun p => { p with cfgReady := true } else s

/-- HOT_RESET (R381): Hot Reset or DL_Down. -/
def effHotReset (s : State) : State := if s.pcie.linkUp then dropLink s else s

/-! ## Configuration space -/

/-- A configuration request reaches a function on the link: before its configuration space is ready it is answered
Configuration Request Retry Status (R366), and then it has its effect. -/
def cfgRequest (f : Nat) (act : State → State) (s : State) : State :=
  if s.pcie.linkUp && decide (f < 4) then (if s.pcie.cfgReady then act s else s.emit (.configRetry f)) else s

/-- WAKE_N is released once PME_Status of every function is clear (R375). -/
def judgeWake (s : State) : State :=
  if s.pcie.pfs.any (·.pmeStatus) then s else s.updPcie fun p => { p with wakeN := true }

/-- FUNCTION_LEVEL_RESET (R381, R382): a configuration write of Initiate Function Level Reset. -/
def effFunctionLevelReset (f : Nat) (s : State) : State :=
  cfgRequest f (fun s => judgeWake (resetFunction false s f)) s

/-- POWER_STATE_CHANGE (R374): D3hot, or back to D0, which restores nothing (R382). -/
def effPowerStateChange (f : Nat) (d3 : Bool) (s : State) : State :=
  cfgRequest f (fun s => s.updPf f fun p => { p with d3 := d3 }) s

/-- The writable bits of a base address register of index k: its size aligned (R369). -/
def barValue (k v : Nat) : Nat :=
  let size := if k = 0 then 2 ^ 22 else if k = 1 then 2 ^ 27 else 2 ^ 16
  v % 2 ^ 64 - v % size

/-- The error bits that AER implements for an endpoint (PRESUMED, log entry 83): writes to others have no effect. -/
def uncBits : Nat := 0x005FF030
def corBits : Nat := 0x0000F1C1

/-- AER writes: status bits written 1 are cleared (R376). -/
def clearAer (unc cor : Nat) (a : Aer) : Aer :=
  { a with unc := a.unc - (a.unc &&& unc), cor := a.cor - (a.cor &&& cor) }

/-- The Completion Timeout values that ranges A and B hold, with the default 0 (R368; PRESUMED, log entry 83). -/
def ctoValue (r old : Nat) : Nat := if [0, 1, 2, 5, 6].contains r then r else old

/-- The fields of a configuration write (R365, R368, R369, R373, R375, R376, R377). -/
def cfgField (c : CfgField) (p : Pf) : Pf :=
  match c with
  | .busMaster v => { p with bme := v }
  | .memorySpace v => { p with mse := v }
  | .msix e m => { p with msixEnable := e, msixMask := m }
  | .pmeEnable v => { p with pmeEnable := v }
  | .pmeStatusClear => { p with pmeStatus := false }
  | .tags e t => { p with extTag := e, tag10 := t }
  | .payload mps mrrs =>
    { p with
      mps := if [128, 256, 512].contains mps then mps else p.mps,
      mrrs := if [128, 256, 512].contains mrrs then mrrs else p.mrrs }
  | .bar k v => { p with bars := updAt p.bars k fun _ => barValue k v }
  | .aspm v => { p with aspmL1 := v }
  | .completionTimeout r off => { p with ctoRange := ctoValue r p.ctoRange, ctoOff := off }
  | .errorReporting e => { p with errEnable := e % 16 }
  | .deviceStatusClear m => { p with devStatus := p.devStatus - (p.devStatus &&& m) }
  | .aerClear unc cor => { p with aer := clearAer unc cor p.aer }
  | .aerMasks unc sev cor =>
    { p with aer := { p.aer with uncMask := unc &&& uncBits, uncSev := sev &&& uncBits, corMask := cor &&& corBits } }
  | .ecrc g c => { p with aer := { p.aer with ecrcGen := g, ecrcChk := c } }

/-- CONFIGURATION_WRITE (R366, R368, R377). -/
def effConfigurationWrite (f : Nat) (c : CfgField) (s : State) : State :=
  cfgRequest f (fun s => judgeWake (s.updPf f (cfgField c))) s

/-! ## Messages and wake -/

/-- MSIX_MESSAGE (R373): a pending vector whose message is now allowed. -/
def effMsixMessage (f v : Nat) (s : State) : State :=
  if f < 4 ∧ AMap.get false (s.pf f).pending v ∧ msixAllowed s f v then
    (s.updPf f fun p => { p with pending := AMap.put false p.pending v false }).emit
      (.msix f v (msixEntry (s.pf f) v).addr (msixEntry (s.pf f) v).data)
  else s

/-- A wake is signalled (R375): a PM_PME message on the link, else WAKE_N. -/
def signalWake (f : Nat) (s : State) : State :=
  if s.pcie.linkUp && !s.pcie.perst then
    (s.updPcie fun p => { p with pmeAt := setAt p.pmeAt f s.cycle }).emit (.pme f)
  else s.updPcie fun p => { p with wakeN := false }

/-- The message of a PME_Status still set is due again: 100 ms since the last (R375). -/
def pmeRepeats (s : State) (f : Nat) : Bool :=
  (s.pf f).pmeStatus && s.pcie.linkUp && decide (s.pcie.pmeAt.getD f 0 + msCycles 100 ≤ s.cycle)

/-- PM_PME (R375): a wake condition has arisen with PME_En set, or a message is due again. -/
def effPmPme (f : Nat) (s : State) : State :=
  if f < 4 ∧ isAlive s.chip.mode then
    if pmeRepeats s f then signalWake f s
    else if (s.pf f).pmeEnable && !(s.pf f).wakeSeen && wakeCondition s f then
      let s1 := s.updPf f fun p => { p with pmeStatus := true, wakeSeen := true }
      if (s.pf f).pmeStatus then s1 else signalWake f s1
    else s
  else s

/-- What a cycle's end notes of a function's wake condition: one that has gone may arise again, and one that stands while
PME_En is 0 has arisen without effect (R375; DEDUCED, log entry 23). -/
def noteWake (s : State) (f : Nat) : State :=
  let stands := wakeCondition s f
  let seen := stands && ((s.pf f).wakeSeen || !(s.pf f).pmeEnable)
  if seen = (s.pf f).wakeSeen then s else s.updPf f fun p => { p with wakeSeen := seen }

/-- Every function's wake condition at a cycle's end. -/
def noteWakes (s : State) : State := (upTo 4).foldl noteWake s

/-- COMPLETION_TIMEOUT (R376, R404): a host read of a burst gets no completion within the time that the host has set; its
channel halts. -/
def effCompletionTimeout (tag : Nat) (s : State) : State :=
  match AMap.find s.dma.bursts tag with
  | some b =>
    if b.data.isSome || b.aborted || !b.source.1 || decide (b.chan = 31) || !hostLate s b.fn b.at_ then s
    else haltChan b.chan 0x04 b.source.2 (readLost b.fn s)
  | none => s

/-! ## The mailbox -/

/-- A request is discarded at the mailbox (R380). -/
def mboxDiscard (f : Nat) (s : State) : State :=
  pulse (185 + f) ((s.updMbox f fun m => { m with outstanding := false, discarded := true }).hit (.mailbox f 2) 0)

/-- A SEND while nothing is outstanding (R380). -/
def mboxSubmit (f length : Nat) (s : State) : State :=
  let s1 := s.updMbox f fun m => { m with outstanding := true }
  if length < 48 ∨ 1072 < length then mboxDiscard f (s1.bump 0x0401 2)
  else if 64 ≤ s1.nap.queue.length then mboxDiscard f (s1.bump 0x0401 6)
  else napEnqueue { path := .mailbox f, pdu := (s1.mailbox f).request.take length } s1

/-- SEND (R380): MBOX_CTRL written with SEND 1 and a SEND_LENGTH; lost in the core cycle of a reset of the function
(R382). -/
def effSend (f length : Nat) (s : State) : State :=
  if s.barReach f && (s.mailbox f).resetAt != some s.cycle then
    let n := length % 2048
    let s1 := s.updMbox f fun m => { m with sendLength := n }
    if (s.mailbox f).outstanding then (s1.updMbox f fun m => { m with sendRefused := true }).hit (.mailbox f 3) 0
    else mboxSubmit f n s1
  else refuseBar f true s

/-- ACK (R380). -/
def effAck (f : Nat) (s : State) : State :=
  if s.barReach f && (s.mailbox f).respValid then
    s.updMbox f fun m => { m with respValid := false, outstanding := false }
  else refuseBar f true s

/-- The response of a mailbox request (R380). -/
def mboxRespond (f : Nat) (b : Bytes) (s : State) : State :=
  pulse (185 + f) (s.updMbox f fun m =>
    { m with response := padTo 1072 b, respLength := b.length, respValid := true })

/-- A write to the mailbox region (R379). -/
def mboxRegWrite (f off v : Nat) (s : State) : State :=
  if off < 0x800 then
    if (s.mailbox f).outstanding then (s.updMbox f fun m => { m with writeIgnored := true }).hit (.mailbox f 4) 0
    else if off < 1072 then s.updMbox f fun m => { m with request := putBytes m.request off (leBytes 4 v) }
    else s
  else if off = 0x1000 then
    let s1 := if bit v 17 then effAck f s else s
    if bit v 16 then effSend f (field v 0 11) s1 else s1.updMbox f fun m => { m with sendLength := field v 0 11 }
  else if off = 0x1004 then
    s.updMbox f fun m =>
      { m with
        discarded := s.w1c (.mailbox f 2) m.discarded (bit v 2)
        sendRefused := s.w1c (.mailbox f 3) m.sendRefused (bit v 3)
        writeIgnored := s.w1c (.mailbox f 4) m.writeIgnored (bit v 4) }
  else s

/-- A write to the global region (R372, R383). -/
def globalRegWrite (f off v : Nat) (s : State) : State :=
  if off = 0x14 then
    s.updPf f fun p =>
      { p with
        writeDenied := s.w1c (.hostError f 0) p.writeDenied (bit v 0)
        badAccess := s.w1c (.hostError f 1) p.badAccess (bit v 1)
        timeout := s.w1c (.hostError f 2) p.timeout (bit v 2)
        poisoned := s.w1c (.hostError f 3) p.poisoned (bit v 3) }
  else if off = 0x18 then s.updPf f fun p => { p with scratch := v }
  else if f = 0 then s
  else denyWrite f s

/-- An access of BAR0 of a good form: 32 bits aligned to 4 bytes, or 64 bits aligned to 8 (R371). -/
def goodAccess (off width : Nat) : Bool := (width == 4 && off % 4 == 0) || (width == 8 && off % 8 == 0)

/-- BAD_ACCESS of HOST_ERRORS (R371). -/
def noteBadAccess (f : Nat) (s : State) : State :=
  (s.updPf f fun p => { p with badAccess := true }).hit (.hostError f 1) 0

/-- The doublewords that an access touches. -/
def doublewords (off width : Nat) : List Nat := (upTo ((off + width + 3) / 4 - off / 4)).map fun k => 4 * (off / 4 + k)

/-- BAR0_BAD_ACCESS (R371): neither 32-bit aligned to 4 bytes nor 64-bit aligned to 8. A read answers 0xFFFFFFFF in every
doubleword that it touches; a write writes nothing. -/
def effBar0BadAccess (f off width : Nat) (write : Bool) (s : State) : State :=
  if s.barReach f then
    if goodAccess off width then s
    else
      let s1 := noteBadAccess f s
      if write then s1 else (doublewords off width).foldl (fun s o => s.emit (.reg f o 0xFFFFFFFF)) s1
  else refuseBar f write s

/-! ## The meanings -/

/-- PERST_N_ASSERT: answers the state after its effect. -/
def execPerstNAssert (s : State) : Answer := .next (effPerstNAssert s)

/-- PERST_N_RELEASE: answers the state after its effect. -/
def execPerstNRelease (s : State) : Answer := .next (effPerstNRelease s)

/-- PCIE_LINK_UP: answers the state after its effect. -/
def execPcieLinkUp (width : Nat) (speed : Nat) (s : State) : Answer := .next (effPcieLinkUp width speed s)

/-- PCIE_CONFIG_READY: answers the state after its effect. -/
def execPcieConfigReady (s : State) : Answer := .next (effPcieConfigReady s)

/-- HOT_RESET: answers the state after its effect. -/
def execHotReset (s : State) : Answer := .next (effHotReset s)

/-- FUNCTION_LEVEL_RESET: answers the state after its effect. -/
def execFunctionLevelReset (f : Nat) (s : State) : Answer := .next (effFunctionLevelReset f s)

/-- POWER_STATE_CHANGE: answers the state after its effect. -/
def execPowerStateChange (f : Nat) (d3 : Bool) (s : State) : Answer := .next (effPowerStateChange f d3 s)

/-- CONFIGURATION_WRITE: answers the state after its effect. -/
def execConfigurationWrite (f : Nat) (c : CfgField) (s : State) : Answer := .next (effConfigurationWrite f c s)

/-- MSIX_MESSAGE: answers the state after its effect. -/
def execMsixMessage (f : Nat) (v : Nat) (s : State) : Answer := .next (effMsixMessage f v s)

/-- PM_PME: answers the state after its effect. -/
def execPmPme (f : Nat) (s : State) : Answer := .next (effPmPme f s)

/-- COMPLETION_TIMEOUT: answers the state after its effect. -/
def execCompletionTimeout (tag : Nat) (s : State) : Answer := .next (effCompletionTimeout tag s)

/-- SEND: answers the state after its effect. -/
def execSend (f : Nat) (length : Nat) (s : State) : Answer := .next (effSend f length s)

/-- ACK: answers the state after its effect. -/
def execAck (f : Nat) (s : State) : Answer := .next (effAck f s)

/-- BAR0_BAD_ACCESS: answers the state after its effect. -/
def execBar0BadAccess (f : Nat) (off : Nat) (width : Nat) (s : State) (write : Bool := false) : Answer :=
  .next (effBar0BadAccess f off width write s)

end Sys2Proof.Machine
end

