-- ==== Sys2Proof/Machine/States.lean ====
section
/-!
DEFINITION. The device states (R67 to R75): one shared transition with what every unit does when the state changes,
resets (R506 to R508), LOAD (R83), the end of CHECK (R86 to R88), RUN and SAFE.
-/
namespace Sys2Proof.Machine

/-! ## Egress at a change of state -/

/-- A state lets a frame go to a port (R67 to R69): in ARMED management-class frames and NAP responses, elsewhere NAP
responses on the management ports; requests already on their way to the object dictionary engine always arrive. -/
def stateAllows (m : Mode) (port : Nat) (h : Carriage) (announce : Bool) : Bool :=
  match m with
  | .run => true
  | .armed => port == 262 || h.mgmt || (h.source == 262 && !announce)
  | _ => port == 262 || (h.source == 262 && isMgt port)

/-- A queued reference that a state allows. -/
def refAllowed (s : State) (m : Mode) (port : Nat) (r : Ref) : Bool :=
  match AMap.find s.fabric.frames r.frame with
  | some f => stateAllows m port f.hdr f.announce
  | none => false

/-- A frame under reception that a state does not allow is dropped at ingress (R68). -/
def dropArriving (m : Mode) (s : State) (e : Nat × Inflight) : State :=
  let f := e.2
  if f.decided && !f.discarded && !(f.placed.all fun p => p.members.all fun x => stateAllows m x.1 f.hdr false) then
    ((abandonFrame f s).putInflight e.1 { f with discarded := true, placed := [] }).bumpPort f.source 0x0C
  else s

/-- Line egress stops at a change to a state that allows less (R69). -/
def stopFor (m : Mode) (s : State) : State :=
  let s1 := stopEgress (refAllowed s m) s
  s1.fabric.inflight.foldl (dropArriving m) s1

/-! ## The transition -/

/-- A commit has not yet cut over nor failed (R90). -/
def commitRuns (s : State) : Bool := 1 ≤ s.cfg.commit.status && s.cfg.commit.status ≤ 5

/-- A commit in progress meets a change of state (R92). -/
def interruptCommit (s : State) : State := if commitRuns s then endCommit 0x0506 0 0xFFFFFFFF s else s

/-- What the units do on leaving RUN (R67): no claim, triggers parked, no schedule. -/
def leaveRun (s : State) : State :=
  if s.chip.mode = .run then pairLeaveRun (trigLeaveRun (stopGates s)) else s

/-- The state registers of a transition (R70); open transfers close (R58), and a pin-controlling boundary-scan instruction
lets go outside HOLD and SAFE (R526). -/
def setMode (new : Mode) (s : State) : State :=
  { s with
    chip := { s.chip with mode := new, prev := s.chip.mode, entryTime := s.ns 0, startPending := false }
    nap := { s.nap with transfers := [] }
    pins := { s.pins with tapControl := s.pins.tapControl && (new == .hold || new == .safe) } }

/-- Lists, triggers and the pair role start with RUN (R71). -/
def enterRun (s : State) : State :=
  pairEnterRun (trigEnterRun (startGates s))

/-- A selection at its defaults, its ACTION_RESULT kept (R42, R80); the routing tables of R426 keep theirs. -/
def selectionDefault (id : Ident) (k : Nat) (c : TblCtx) : TblCtx :=
  match tableSpec id (k % 65536) with
  | some t =>
    if 0x6101 ≤ k % 65536 ∧ k % 65536 ≤ 0x6103 then c
    else { c with key := t.keyDflt, fields := rowDefault t (k % 65536) t.keyDflt, written := 0 }
  | none => c

/-- The RW entries that the engine holds for its requesters take their defaults: selections and FAIL_COUNT (R48, R80). -/
def engineLoad (s : State) : State :=
  { s with nap := { s.nap with
    ctx := s.nap.ctx.map fun e => (e.1, selectionDefault s.ident e.1 e.2)
    window := s.nap.window.map fun w => { w with failCount := 0 } } }

/-- Every RW entry and learned table takes its default on entry to LOAD, and the shadow image is discarded (R80, R83,
R96). -/
def enterLoad (s : State) : State :=
  let s1 := psfpLoad (fdbLoad (dmaLoad (engineLoad s)))
  let s2 := frerLoad (fabricLoad (resetDrr (resetShapers { s1 with linkDelay := [] })))
  { s2 with cfg := { s2.cfg with
    rw := [], shadow := {}, runningBank := 0xFF, passed := false, fallback := false, fetched := none } }

/-- What the units do on entering a state; shapers and DRR are reset on entry to ARMED (R229, R230). -/
def enterMode (new : Mode) (s : State) : State :=
  match new with
  | .run => herdEnter .run (enterRun s)
  | .load => herdEnter .load (enterLoad (trigCut s))
  | .armed => herdEnter .armed (resetDrr (resetShapers s))
  | m => herdEnter m (trigCut s)

/-- A transition between two states in which the device is alive (R71): a commit in progress fails, egress stops where
the new state allows less, every unit takes its place, and STATE_CHANGE is pulsed. -/
def transition (new : Mode) (s : State) : State :=
  let old := s.chip.mode
  let s1 := leaveRun (ppsState new (interruptCommit s))
  let s2 := if isActive old && new != .run then stopFor new s1 else s1
  let s3 := regimeChange old new (setMode new s2)
  pulse 189 (enterMode new s3)

/-- Settings of MGT0 and MGT1 change with the state (R68). -/
def settleMgt (s0 s : State) : State := [260, 261].foldl (cutMgt s0) s

/-! ## Resets -/

/-- What pins and supplies hold through a reset: the levels that come from outside the device (DESIGN CHOICE, log entry 29). -/
def outerTrig (t : Trig) : Trig :=
  { evin := (t.evin.map fun e => (e.1, ({ pin := e.2.pin, level := e.2.pin } : EvIn))).filter fun e => e.2.pin }

/-- The full-device reset (R506): every block's state is cleared; MRAM stays. The test access port has a reset of its own, and
loses its registers with the supplies only (DEDUCED, log entry 9). -/
def clearedState (m : Mode) (cause hold : Nat) (s : State) : State :=
  { pending := s.pending, cycle := s.cycle, free := s.free, out := s.out, ident := s.ident, mram := s.mram
    chip := { mode := m, prev := s.chip.mode, lastCause := cause, railsSince := s.chip.railsSince, resetHold := hold,
              refclk := s.chip.refclk, pll := s.chip.pll }
    pins := if m = .off then {} else { tapIr := s.pins.tapIr, boundary := s.pins.boundary }
    trig := outerTrig s.trig
    pcie := { perst := s.pcie.perst } }

/-- Every rail lies in its operating range (R515). -/
def railsInRange (levels : List Nat) : Bool :=
  levels.length == 8 && (upTo 8).all fun k => inOperatingRange k (levels.getD k 0)

/-- SUPPLY_IN_RANGE (R71, R507, R515): from OFF every rail enters its operating range; levels in tenths of a millivolt. -/
def effSupplyInRange (levels : List Nat) (s : State) : State :=
  if s.chip.mode = .off ∧ railsInRange levels then
    let s1 := clearedState .reset 0 (s.cycle + msCycles 1) s
    { s1 with chip := { s1.chip with railsSince := s.cycle, refclk := true, pll := 0 } }
  else s

/-- SUPPLY_OUT_OF_RANGE (R71, R515): a rail that leaves its operating range takes the device from any state to OFF, where all
but MRAM is lost. -/
def effSupplyOutOfRange (rail level ns : Nat) (s : State) : State :=
  if s.chip.mode ≠ .off ∧ leavesRange rail level ns then clearedState .off 0 0 s else s

/-- RESET_INFO at release (R508, R509). -/
def sampleStraps (straps pll : Nat) (s : State) : State :=
  let time := if s.chip.lastCause = 0 then (s.cycle - s.chip.railsSince) / usCycles 1 else 0
  { s with
    chip := { s.chip with straps := straps % 2 ^ 11, pll := pll % 64, refclk := true, releaseTime := time }
    cfg := { s.cfg with loadBy := .boot }
    fdb := { s.fdb with sweepDue := s.cycle + sCycles 300 }
    pcie := { s.pcie with since := s.cycle } }

/-- The addresses of the uncorrectable words. -/
def badWords (words : List MramWord) : List Nat := (words.filter fun w => !w.corrected).map (·.addr)

/-- One MRAM word that failed its check bits is counted, and recorded where it is uncorrectable (R495, R499). -/
def noteMramWord (s : State) (w : MramWord) : State :=
  if w.corrected then s.bump 0x0203 1 else detectFault 19 0 1 (w.addr / 1024) (s.bump 0x0203 2)

/-- The words found as the MRAM is read, and SLOTS_SKIPPED for each slot of a ring passed over (R496). -/
def noteMramWords (words : List MramWord) (s : State) : State :=
  (words.foldl noteMramWord s).bumpBy 0x0203 3 0 ((badWords words).filterMap ringSlotAt).eraseDups.length

/-- RESET_RELEASE (R507, R508): the hold has passed and the core, time, memory, management and SerDes-reference PLLs are
locked; the straps are sampled, D0 starts, the MRAM's rings and checkpoints are read (R496) and the device enters LOAD. `words`
are the MRAM words that fail their check bits. -/
def effResetRelease (straps pll : Nat) (words : List MramWord) (s : State) : State :=
  if s.chip.mode = .reset ∧ s.chip.resetHold ≤ s.cycle ∧ pll % 32 = 31 then
    noteMramWords words
      (transition .load (healthRelease (startDomain 0 (sampleStraps straps pll (rereadMram (badWords words) s)))))
  else s

/-- A configuration of R486: die density in gigabits and ranks. -/
def memSupported (density ranks : Nat) : Bool := [4, 8, 16].contains density && [1, 2].contains ranks

/-- TRAINED after training failed at channel c (R488, R498): the channels before it are trained; whether training goes on
to the channels after it the spec does not say, so their bits are free (DESIGN CHOICE, log entry 30). -/
def trainedUpTo (c : Nat) (s : State) : Nat × State :=
  let (r, s1) := s.draw
  (2 ^ c - 1 + r % 2 ^ (7 - c) * 2 ^ (c + 1), s1)

/-- MEMORY_TRAINING_DONE (R487, R488): training ends once after each reset, with the topology that MR8 reports; memory
then reads as nothing written. -/
def effMemoryTrainingDone (density ranks : Nat) (failed : Option Nat) (s : State) : State :=
  if isAlive s.chip.mode && !s.mem.trainDone then
    let s1 := { s with mem := { s.mem with trainDone := true, trained := 0xFF, cells := [], density := density, ranks := ranks } }
    if failed.isSome || !memSupported density ranks then
      let c := min 7 (failed.getD 0)
      let (t, s2) := trainedUpTo c s1
      detectFault 18 0 3 c { s2 with mem := { s2.mem with trained := t } }
    else s1
  else s

/-- RESET_DELAY_EXPIRY (R73, R506, R507): 1 ms after a RESET command the full-device reset takes place. -/
def effResetDelayExpiry (s : State) : State :=
  match s.chip.resetDue with
  | some due =>
    if due ≤ s.cycle then
      let s1 := { s with mram := { s.mram with cmdResets := (s.mram.cmdResets + 1) % 2 ^ 64 } }
      clearedState .reset 1 (s.cycle + usCycles 100) s1
    else s
  | none => s

/-! ## LOAD -/

/-- The eligible bank with the higher GENERATION, A when equal (R83). -/
def bestBank (s : State) : Option Nat :=
  let a := s.bank 0
  let b := s.bank 1
  if eligible a && (!eligible b || b.genCopy ≤ a.genCopy) then some 0
  else if eligible b then some 1
  else none

/-- The bank that LOAD selects, or the reason code for HOLD (R83, R87). -/
def selectBank (s : State) : Except Nat Nat :=
  let named := fun (b : Nat) => if eligible (s.bank b) then Except.ok b else Except.error 0x0003
  match s.cfg.loadBy with
  | .named b => named b
  | .written b => named b
  | .boot =>
    if bootSrc s = 2 then .error 0x0001
    else if bootSrc s = 3 then .error 0x0002
    else match bestBank s with
      | some b => .ok b
      | none => .error 0x0003

/-- REASON, REASON_DETAIL and REASON_UNIT (R70, R87). -/
def setReason (reason detail unit : Nat) (s : State) : State :=
  { s with chip := { s.chip with reason := reason, reasonDetail := detail, reasonUnit := unit } }

/-- The running configuration and the shadow image become an image, in table epoch 0 (R68, R80, R83, R88, R107). -/
def adoptImage (im : Image) (s : State) : State :=
  let old := s.cfg.running
  let s1 := { s with cfg := { s.cfg with running := im, shadow := im, older := none, epoch := 0 } }
  let s2 := fabricLoad (countLoadResets (frerLoad (createdRows (psfpLoad s1))))
  applyTimeSettings old (fdbCutover im (buildMasters s2))

/-- The ports and the feeds take the settings of a configuration just adopted (R107). -/
def adoptPorts (s0 s : State) : State := judgeFeeds (applyPorts s0 s0.cfg.running s)

/-- Entry to HOLD (R88) with the configuration that stage 2 passed, or the defaults. -/
def enterHold (f : CheckFail) (im : Image) (s : State) : State :=
  adoptPorts s (setReason f.reason f.detail f.unit (transition .hold (adoptImage im s)))

/-- LOAD_COMPLETE (R71, R83): the selected bank's image goes to CHECK, or the device waits in HOLD. -/
def effLoadComplete (s : State) : State :=
  if s.chip.mode = .load then
    match selectBank s with
    | .ok b =>
      transition .check { s with cfg := { s.cfg with
        fetched := some (b, (s.bank b).image), lastBank := some b, triedBanks := b :: s.cfg.triedBanks.filter (· != b) } }
    | .error reason => enterHold { reason := reason } {} s
  else s

/-! ## The end of CHECK -/

/-- A fallback remains for a failed image of a bank (R83). -/
def fallbackRemains (s : State) (b : Nat) : Bool :=
  bootSrc s == 0 && s.cfg.loadBy == .boot && eligible (s.bank (1 - b)) && !s.cfg.triedBanks.contains (1 - b)

/-- CHECK passed (R71): ARMED, with the image running; AUTO_START acts as START (R70). -/
def checkPassed (b : Nat) (im : Image) (s : State) : State :=
  let s1 := adoptImage im { s with cfg := { s.cfg with runningBank := b, passed := true, fallback := s.cfg.fallbackUsed } }
  let s2 := adoptPorts s (transition .armed s1)
  { s2 with chip := { s2.chip with startPending := s2.cfgB 0x0101 0x0A } }

/-- CHECK failed: LOAD of the other bank once, or HOLD (R83, R86). -/
def checkFailed (b : Nat) (f : CheckFail) (im : Image) (s : State) : State :=
  if fallbackRemains s b then
    transition .load (setReason f.reason f.detail f.unit
      { s with cfg := { s.cfg with loadBy := .named (1 - b), fallbackUsed := true } })
  else enterHold f im s

/-- CHECK_COMPLETE (R71, R86). -/
def effCheckComplete (s : State) : State :=
  match s.chip.mode, s.cfg.fetched with
  | .check, some (b, bytes) =>
    match checkImage s bytes with
    | { img := some im, fail := none } => checkPassed b im s
    | { img := im, fail := f } => checkFailed b (f.getD { reason := 0 }) (im.getD {}) s
  | _, _ => s

/-! ## Commands and RUN -/

/-- START sets START_PENDING (R75). -/
def cmdStart (s : State) : State := { s with chip := { s.chip with startPending := true } }

/-- STOP (R75): in ARMED it clears START_PENDING, in RUN the device enters ARMED. -/
def cmdStop (s : State) : State :=
  if s.chip.mode = .run then transition .armed s else { s with chip := { s.chip with startPending := false } }

/-- RELOAD (R75, R83). -/
def cmdReload (s : State) : State :=
  let n := s.rwN 0x0200 9
  let s1 := transition .load { s with cfg := { s.cfg with
    loadBy := if n = 0xFF then .boot else .named n, fallbackUsed := false } }
  settleMgt s s1

/-- RESET (R73, R75): the full-device reset follows in 1 ms; the health monitor writes a checkpoint (R473). -/
def cmdReset (s : State) : State :=
  if s.chip.resetDue.isSome then s
  else
    let s1 := checkpoint s
    { s1 with chip := { s1.chip with resetDue := some (s.cycle + msCycles 1) } }

/-- The entry to SAFE in the SAFE record of the configuration memory; the request for it is served (R75, R468). -/
def recordSafe (reason detail time : Nat) (s : State) : State :=
  { s with
    chip := { s.chip with safePending := none }
    mram := { s.mram with
      safeReason := reason, safeDetail := detail, safeTime := time, safeEntries := (s.mram.safeEntries + 1) % 2 ^ 64 } }

/-- Entry to SAFE (R468): REASON, the record in MRAM, and a health checkpoint. -/
def enterSafe (reason detail : Nat) (s : State) : State :=
  settleMgt s (recordSafe reason detail (s.ns 0) (checkpoint (setReason reason detail 0xFFFFFFFF (transition .safe s))))

/-- SAFE (R75): REASON 0x0000. -/
def cmdSafe (s : State) : State := enterSafe 0 0 s

/-- START_TAKEN (R71, R72): in ARMED with START_PENDING and every required domain locked, the device enters RUN. -/
def effStartTaken (s : State) : State :=
  if s.chip.mode = .armed ∧ s.chip.startPending ∧ locksMet s then transition .run s else s

/-- SAFE_ENTRY_ON_FAULT (R71, R468): in the core cycle after the fault. -/
def effSafeEntryOnFault (s : State) : State :=
  match s.chip.safePending with
  | some (reason, detail, _) => if safeDue s then enterSafe reason detail s else s
  | none => s

/-! ## The meanings -/

/-- SUPPLY_IN_RANGE: answers the state after its effect. -/
def execSupplyInRange (s : State) (levels : List Nat := [7500, 8500, 8000, 12000, 8000, 6000, 12000, 18000]) : Answer :=
  .next (effSupplyInRange levels s)

/-- SUPPLY_OUT_OF_RANGE: answers the state after its effect. -/
def execSupplyOutOfRange (s : State) (rail : Nat := 0) (level : Nat := 0) (ns : Nat := 1000) : Answer :=
  .next (effSupplyOutOfRange rail level ns s)

/-- RESET_RELEASE: answers the state after its effect. -/
def execResetRelease (straps : Nat) (pll : Nat) (s : State) (words : List MramWord := []) : Answer :=
  .next (effResetRelease straps pll words s)

/-- MEMORY_TRAINING_DONE: answers the state after its effect. -/
def execMemoryTrainingDone (density : Nat) (ranks : Nat) (failed : Option Nat) (s : State) : Answer := .next (effMemoryTrainingDone density ranks failed s)

/-- RESET_DELAY_EXPIRY: answers the state after its effect. -/
def execResetDelayExpiry (s : State) : Answer := .next (effResetDelayExpiry s)

/-- LOAD_COMPLETE: answers the state after its effect. -/
def execLoadComplete (s : State) : Answer := .next (effLoadComplete s)

/-- CHECK_COMPLETE: answers the state after its effect. -/
def execCheckComplete (s : State) : Answer := .next (effCheckComplete s)

/-- START_TAKEN: answers the state after its effect. -/
def execStartTaken (s : State) : Answer := .next (effStartTaken s)

/-- SAFE_ENTRY_ON_FAULT: answers the state after its effect. -/
def execSafeEntryOnFault (s : State) : Answer := .next (effSafeEntryOnFault s)

end Sys2Proof.Machine
end

