-- ==== Sys2Proof/Machine/Commit.lean ====
section
/-!
DEFINITION. COMMIT, the steps of R30, the cutover and the table epochs (R89 to R95).
-/
namespace Sys2Proof.Machine

/-! ## COMMIT -/

/-- COMMIT answers BUSY (R90). -/
def commitBusy (s : State) : Bool := commitRuns s || s.cfg.older.isSome

/-- The target bank of a COMMIT (R90). -/
def commitTarget (s : State) : Nat :=
  if s.chip.mode = .hold then
    match s.cfg.lastBank with
    | some b => b
    | none =>
      if !(s.bank 0).sealed then 0
      else if !(s.bank 1).sealed then 1
      else if (s.bank 1).genCopy < (s.bank 0).genCopy then 1
      else 0
  else 1 - s.cfg.runningBank

/-- GENERATION of the image that a COMMIT builds (R90). -/
def commitGeneration (s : State) : Nat :=
  let gen := fun (k : Nat) => if (s.bank k).sealed then (s.bank k).genCopy else 0
  max (gen 0) (gen 1) + 1

/-- COMMIT is accepted (R90): the staged configuration is taken as it stands. -/
def cmdCommit (s : State) : State :=
  { s with cfg := { s.cfg with commit := { s.cfg.commit with
    status := 1, target := commitTarget s, gen := commitGeneration s, next := s.cfg.shadow, built := [],
    atInstant := false } } }

/-- DISCARD (R89): staged values revert to running values. -/
def cmdDiscard (s : State) : State := { s with cfg := { s.cfg with shadow := s.cfg.running } }

/-- CANCEL finds a cutover waiting for its instant (R75). -/
def cancelAllowed (s : State) : Bool := isActive s.chip.mode && s.cfg.commit.status == 5

/-- CANCEL (R87, R92). -/
def cmdCancel (s : State) : State := endCommit 0x0502 0 0xFFFFFFFF s

/-! ## Cutover -/

/-- The configuration manager's own part of a cutover (R91, R93): the epoch advances and every staged entry takes effect. -/
def cutConfig (s : State) : State :=
  let c := s.cfg.commit
  let limit := imgNum s.ident c.next 0x0202 4
  { s with cfg := { s.cfg with
    running := c.next, shadow := c.next, older := some s.cfg.running, epoch := (s.cfg.epoch + 1) % 2 ^ 32,
    cutoverTime := s.ns 0, retireDue := s.cycle + msCycles limit, runningBank := c.target, fallback := false,
    commit := { c with
      status := 6, lastGen := c.gen, sealDue := some (c.target, s.cycle + usCycles 10), built := [], next := {} } } }

/-- What the tables of each unit do at a cutover. -/
def cutTables (s0 : State) (s : State) : State :=
  let old := s0.cfg.running
  let new := s.cfg.running
  let s1 := frerCutover old new (psfpCutover old new (fdbCutover new s))
  dmaCutover old (herdCutover old (evCutover old (trigCutover old s1)))

/-- The cutover (R91): in one core cycle, time domains, ports, schedules and tables take the new settings. -/
def cutover (s : State) : State :=
  let old := s.cfg.running
  let s1 := applyPorts s old (applyTimeSettings old (cutConfig s))
  let s2 := gatesCutover old (egressCutover s old (cutTables s s1))
  pulse 190 (judgeFeeds (disturbDigest s2))

/-- A commit waits for an instant that its domain has reached. -/
def atCutover (s : State) : Bool :=
  let c := s.cfg.commit
  c.status == 5 && c.atInstant && s.reached c.domain c.instant

/-- The instant of the commit lies in an earlier tick (R32). -/
def cutoverLate (s : State) : Bool := s.overdue s.cfg.commit.domain s.cfg.commit.instant

/-- CUTOVER (R91): the domain has reached the instant for which a commit waits; after the tick of the instant the commit fails
with CUTOVER_LATE (R32). An entry to SAFE in the same core cycle ends the commit instead (R485). -/
def effCutover (s : State) : State :=
  if atCutover s && !safeDue s then
    if cutoverLate s then endCommit 0x0501 0 0xFFFFFFFF s else cutover s
  else s

/-- A cutover that falls in this core cycle applies before a takeover of the cycle (R485). -/
def cutoverFirst (s : State) : State := if atCutover s && !cutoverLate s then cutover s else s

/-- TAKEOVER (R437): unless a higher claim arrives in the same core cycle (R438). An entry to SAFE in the same core cycle
leaves nothing of it, and a cutover of the cycle applies before it (R485). -/
def effTakeover (s : State) : State :=
  if pairRuns s && s.pair.role == 3 && s.pair.taking && !safeDue s then
    if s.pair.higherAt = some s.cycle then s.updPair fun p => { p with taking := false }
    else
      let s1 := cutoverFirst s
      if isPaired s1 && s1.pair.role == 3 then takeover s1 else s1
  else s

/-! ## The steps of a commit -/

/-- A commit's new status. -/
def setStatus (n : Nat) (s : State) : State :=
  { s with cfg := { s.cfg with commit := { s.cfg.commit with status := n } } }

/-- The image is built (step 2 of R30). -/
def commitBuilt (s : State) : State :=
  let b := buildImage s.ident s.cfg.commit.gen (s.ns 0) s.cfg.commit.next
  if bankSize < b.length then endCommit 0x0504 0 0xFFFFFFFF s
  else setStatus 2 { s with cfg := { s.cfg with commit := { s.cfg.commit with built := b } } }

/-- The image is checked (step 3 of R30); the target bank is then unsealed. -/
def commitChecked (s : State) : State :=
  match checkImage s s.cfg.commit.built with
  | { img := some _, fail := none } => setStatus 3 (s.updBank s.cfg.commit.target fun k => { k with sealed := false })
  | { img := _, fail := f } => endCommit (f.getD { reason := 0 }).reason (f.getD { reason := 0 }).detail (f.getD { reason := 0 }).unit s

/-- A COMMIT in HOLD seals its bank and enters LOAD (R92). -/
def commitInHold (s : State) : State :=
  let t := s.cfg.commit.target
  let s1 := pulse 190 (setStatus 6 (s.updBank t fun k => { k with sealed := true }))
  settleMgt s (transition .load { s1 with cfg := { s1.cfg with loadBy := .written t, fallbackUsed := false } })

/-- The image is stored and read back (step 4 of R30, R81, R464). -/
def commitStored (ok : Bool) (s : State) : State :=
  let t := s.cfg.commit.target
  let s1 := s.updBank t fun _ => writtenBank s.cfg.commit.built
  if !ok then detectFault 19 0 2 t (endCommit 0x0503 0 0xFFFFFFFF s1)
  else if s.chip.mode = .hold then commitInHold s1
  else setStatus 4 s1

/-- The tables are loaded (step 5 of R30): the cutover follows at once, waits for its instant, or fails (R91); an entry to SAFE in
the same core cycle ends the commit instead (R485). -/
def commitLoaded (s0 : State) : State :=
  let s := stageMasters s0.cfg.commit.next s0
  if safeDue s then s
  else if s.rwN 0x0201 1 = 0 then cutover s
  else
    let d := s.rwN 0x0201 2
    let t := s.rwN 0x0201 3
    if !(s.dom d).enabled then endCommit 0x0505 0 0xFFFFFFFF s
    else if s.ahead d t ≤ 0 then endCommit 0x0501 0 0xFFFFFFFF s
    else setStatus 5 { s with cfg := { s.cfg with commit := { s.cfg.commit with
      atInstant := true, domain := d, instant := t } } }

/-- COMMIT_STEP_DONE (R30, R90): the step in progress ends. -/
def effCommitStepDone (readBackOk : Bool) (s : State) : State :=
  match s.cfg.commit.status with
  | 1 => commitBuilt s
  | 2 => commitChecked s
  | 3 => commitStored readBackOk s
  | 4 => commitLoaded s
  | _ => s

/-- BANK_SEAL (R91): within 10 µs after the cutover the target bank is sealed. -/
def effBankSeal (s : State) : State :=
  match s.cfg.commit.sealDue with
  | some (b, _) =>
    let s1 := s.updBank b fun k => { k with sealed := true }
    { s1 with cfg := { s1.cfg with commit := { s1.cfg.commit with sealDue := none } } }
  | none => s

/-! ## Epochs -/

/-- The older epoch retires and its tables are released (R94). -/
def retireEpoch (s : State) : State := frerRetire { s with cfg := { s.cfg with older := none } }

/-- EPOCH_RETIRE (R94): no frame of the older epoch remains. -/
def effEpochRetire (s : State) : State :=
  if s.cfg.older.isSome ∧ olderFrames s = 0 then retireEpoch s else s

/-- A stored frame of a table epoch (R20). -/
def ofEpoch (s : State) (epoch : Nat) (id : Nat) : Bool :=
  match AMap.find s.fabric.frames id with
  | some f => f.hdr.epoch == epoch % 256
  | none => false

/-- A frame of the epoch that waits in some queue. -/
def waitingFrames (s : State) (epoch : Nat) : List Nat :=
  ((s.fabric.queues.flatMap fun e => e.2.refs.map (·.frame)).filter (ofEpoch s epoch)).eraseDups

/-- Frames of the epoch not yet linked: their cells are freed with it. -/
def arrivingFrames (s : State) (epoch : Nat) : AMap Inflight :=
  s.fabric.inflight.filter fun e => liveArriving epoch e.2

/-- A frame under reception is purged with its epoch. -/
def purgeArriving (s : State) (e : Nat × Inflight) : State :=
  (abandonFrame e.2 s).putInflight e.1 { e.2 with discarded := true, placed := [] }

/-- RETIRE_LIMIT_EXPIRY (R95): RETIRE_LIMIT after its cutover the older epoch's frames are purged and counted, and it
retires; a frame in transmission completes. -/
def effRetireLimitExpiry (s : State) : State :=
  if s.cfg.older.isSome ∧ s.cfg.retireDue ≤ s.cycle then
    let e := s.cfg.epoch + 255
    let n := (waitingFrames s e).length + (arrivingFrames s e).length
    let s1 := unlinkAll (fun _ r => ofEpoch s e r.frame) 0x57 s
    retireEpoch ((((arrivingFrames s e).foldl purgeArriving s1)).bumpBy 0x0202 6 0 n)
  else s

/-! ## The meanings -/

/-- CUTOVER: answers the state after its effect. -/
def execCutover (s : State) : Answer := .next (effCutover s)

/-- TAKEOVER: answers the state after its effect. -/
def execTakeover (s : State) : Answer := .next (effTakeover s)

/-- COMMIT_STEP_DONE: answers the state after its effect. -/
def execCommitStepDone (readBackOk : Bool) (s : State) : Answer := .next (effCommitStepDone readBackOk s)

/-- BANK_SEAL: answers the state after its effect. -/
def execBankSeal (s : State) : Answer := .next (effBankSeal s)

/-- EPOCH_RETIRE: answers the state after its effect. -/
def execEpochRetire (s : State) : Answer := .next (effEpochRetire s)

/-- RETIRE_LIMIT_EXPIRY: answers the state after its effect. -/
def execRetireLimitExpiry (s : State) : Answer := .next (effRetireLimitExpiry s)

end Sys2Proof.Machine
end

