-- ==== Sys2Proof/Machine/Reads.lean ====
section
/-!
DEFINITION. What every entry of the object dictionary and every row of its tables reads as (R33 to R44, and the object
tables of every chapter).
-/
namespace Sys2Proof.Machine

/-- ASCII bytes. -/
def ascii (t : String) : Bytes := t.toList.map fun c => BitVec.ofNat 8 c.toNat

/-- A BOOL value. -/
def vB (b : Bool) : Val := .num (b2n b)

/-! ## Identity, types, states, images (0x0000 to 0x02FF) -/

/-- The types of R35 by code: size and name. -/
def typeInfo (code : Nat) : Nat × String :=
  match code with
  | 0x10 => (1, "BOOL") | 0x11 => (1, "U8") | 0x12 => (2, "U16") | 0x13 => (4, "U32") | 0x14 => (8, "U64")
  | 0x21 => (1, "I8") | 0x22 => (2, "I16") | 0x23 => (4, "I32") | 0x24 => (8, "I64")
  | 0x30 => (6, "TIME48") | 0x31 => (12, "TIME96") | 0x40 => (0, "OCTETS") | 0x41 => (0, "TEXT")
  | 0x50 => (0, "RECORD") | _ => (0, "TABLE")

/-- ORDERING_CODE (R37). -/
def orderingCode (id : Ident) : Bytes :=
  ascii (if id.ordering = 0 then "TZ-SD2560-AX" else if id.ordering = 1 then "TZ-SD2560-CX" else "TZ-SD2560-BX")

/-- SERIAL (R38). -/
def serial (id : Ident) : Bytes := beBytes 2 0x2560 ++ beBytes 6 id.unit

/-- IDENTITY (R37). -/
def readIdentity (s : State) (sub : Nat) : Val :=
  match sub with
  | 1 => .num 0x2560
  | 2 => .oct (orderingCode s.ident)
  | 3 => .num s.ident.revision
  | 4 => .num (unitsPresent s.ident)
  | 5 => .num (if s.ident.ordering = 2 then 128 else 256)
  | _ => .oct (serial s.ident)

/-- DEVICE_STATE (R70). -/
def readDeviceState (s : State) (sub : Nat) : Val :=
  match sub with
  | 1 => .num (modeCode s.chip.mode)
  | 2 => .num (modeCode s.chip.prev)
  | 3 => .num (s.chip.entryTime % 2 ^ 64)
  | 4 => .num s.chip.reason
  | 5 => .num s.chip.reasonDetail
  | 6 => vB s.chip.startPending
  | 7 => .num (locksRequired s)
  | 8 => .num (locksHeld s)
  | 9 => .num (bootSrc s)
  | _ => .num s.chip.reasonUnit

/-- RESET_INFO (R509). -/
def readResetInfo (s : State) (sub : Nat) : Val :=
  match sub with
  | 1 => .num s.chip.lastCause
  | 2 => .num s.chip.straps
  | 3 => .num (s.chip.releaseTime % 2 ^ 32)
  | 4 => .num s.chip.pll
  | _ => .num s.mram.cmdResets

/-- IMAGE_STORE (R84); IMAGE_A and IMAGE_B hold IMAGE_LENGTH bytes (R85). -/
def readImageStore (s : State) (sub : Nat) : Val :=
  let k := s.bank (if sub ≤ 3 ∨ sub = 10 then 0 else 1)
  match sub with
  | 1 => vB k.sealed | 4 => vB k.sealed
  | 2 => .num (if k.sealed then k.genCopy else 0) | 5 => .num (if k.sealed then k.genCopy else 0)
  | 3 => .num (if k.sealed then hdrLength k.image else 0) | 6 => .num (if k.sealed then hdrLength k.image else 0)
  | 7 => .num s.cfg.runningBank
  | 8 => vB s.cfg.fallback
  | _ => .oct (padTo (hdrLength k.image) k.image)

/-- Keys of two maps at which they differ. -/
def differing {α : Type} [DecidableEq α] (a b : AMap α) : Nat :=
  (a.filter fun e => AMap.find b e.1 != some e.2).length + (b.filter fun e => !AMap.has a e.1).length

/-- Entries and rows that differ between two configurations (R89). -/
def stagedCount (a b : Image) : Nat :=
  let tables := ((a.tables.map (·.1)) ++ (b.tables.map (·.1))).eraseDups
  differing a.entries b.entries + (tables.map fun t => differing (imgTable a t) (imgTable b t)).sum

/-- COMMIT (R89). -/
def readCommit (s : State) (sub : Nat) : Val :=
  let c := s.cfg.commit
  match sub with
  | 5 => .num c.status
  | 6 => .num c.reason
  | 7 => .num c.detail
  | 8 => .num (stagedCount s.cfg.shadow s.cfg.running)
  | 9 => .num c.lastGen
  | _ => .num c.unit

/-- EPOCH (R93). -/
def readEpoch (s : State) (sub : Nat) : Val :=
  match sub with
  | 1 => .num s.cfg.epoch
  | 2 => vB s.cfg.older.isSome
  | 3 => .num (olderFrames s)
  | _ => .num (s.cfg.cutoverTime % 2 ^ 64)

/-- A key object (R62). -/
def readKeyObj (s : State) (k sub : Nat) : Val :=
  let r := s.mram.keys.getD k {}
  match sub with
  | 2 => vB r.enabled
  | 3 => .num r.rights
  | 4 => .num r.paths
  | 5 => .num r.rx
  | _ => .num r.tx

/-! ## Ports, gates, fabric, classifier, FRER (0x1000 to 0x3FFF) -/

/-- RO entries of a line or management port (R123, R125). -/
def readPort (s : State) (p sub : Nat) : Val :=
  match sub with
  | 3 => .num (lineSpeed s s.cfg.running p)
  | 0x0E => .num (fecActive s p)
  | 0x0F => .num (s.port p).ability
  | _ => .num (linkState s p)

/-- RO entries of PREEMPTION (R124). -/
def readPreempt (s : State) (p sub : Nat) : Val :=
  match sub with
  | 7 => .num (verifyStatus s p)
  | 8 => vB (preemptActive s p)
  | _ => vB ((s.gate p).hold || (s.port p).hold)

/-- RO entries of GATE_CONTROL (R310). -/
def readGate (s : State) (p sub : Nat) : Val :=
  let g := s.gate p
  let onList := fun (f : GList → Nat) => Val.num ((g.list.map f).getD 0)
  match sub with
  | 0x30 => vB (listRuns s s.cfg.running p)
  | 0x31 => onList (·.base)
  | 0x32 => onList (·.cycle)
  | 0x33 => onList (·.entries.length)
  | 0x34 => vB g.pending.isSome
  | 0x35 => .num ((g.pending.map (·.2)).getD 0)
  | 0x36 => .num (if gatesRun s p then g.entry else 0)
  | 0x37 => .num (if gatesRun s p then g.states else 0xFF)
  | 0x38 => vB ((g.list.map isPaged).getD false)
  | 0x39 => .num (txLead s p)
  | 0x3A => .num (holdAdvance s p)
  | _ => .oct ((upTo 8).flatMap fun tc => beBytes 4 (min 0xFFFFFFFF ((maxWindow s p tc).getD 0xFFFFFFFF)))

/-- The port of a gate object. -/
def gateObjPort (idx : Nat) : Nat := if idx = 0x0404 then 260 else if idx = 0x0405 then 261 else idx - 0x1400

/-- FRER_CONFIG (R183). -/
def readFrerConfig (s : State) (sub : Nat) : Val :=
  match sub with
  | 4 => .num (imgTable s.cfg.running 0x3001).length
  | 5 => .num (imgTable s.cfg.running 0x3003).length
  | _ => .num (latentActive s)

/-! ## Time, triggers, ring (0x4000 to 0x5FFF) -/

/-- RO entries of TIME_DOMAIN (R257). -/
def readDomain (s : State) (d sub : Nat) : Val :=
  let x := s.dom d
  match sub with
  | 0x14 => .num x.mode
  | 0x15 => vB x.stepUsed
  | 0x16 => vB x.locked
  | 0x17 => .num (ofSigned 64 (x.lastOffset.tdiv 65536))
  | 0x18 => .num x.inc.toNat
  | _ => .num x.value.toNat

/-- RO entries of TRIGGER (R323, R324). -/
def readTrigger (s : State) (n sub : Nat) : Val :=
  match sub with
  | 0x10 => .num (s.trigger n).state
  | 0x11 => .num (((s.trigger n).armed.getD 0) / 4 % 2 ^ 48)
  | 0x12 => .num (s.trigger n).left
  | 0x28 => .num (s.trigger (32 + 2 * n)).state
  | _ => .num (s.trigger (33 + 2 * n)).state

/-- RO entries of HERD_CONFIG (R361). -/
def readHerd (s : State) (sub : Nat) : Val :=
  let a := (ringPort s 0).inUse
  let b := (ringPort s 1).inUse
  match sub with
  | 0x30 => .num s.herd.role
  | 0x31 => .num ((s.herd.current.map (·.id)).getD 0xFF)
  | 0x32 => .num ((s.herd.current.map (·.addr)).getD 0)
  | 0x33 => .num (if a && b then 1 else if a || b then 2 else 3)
  | 0x34 => .num (b2n a + 2 * b2n b)
  | 0x35 => .num (forwardDelay (herdN s 6))
  | 0x36 => .num (if s.herd.dValid then (s.herd.d / 2 ^ 14).toNat % 2 ^ 32 else 0xFFFFFFFF)
  | 0x37 => .num s.herd.loopShown
  | 0x38 => .num (cycleNumber s)
  | _ => .num s.herd.bank

/-! ## Memory, pairing, faults, health (0x6000 to 0x8FFF) -/

/-- RO entries of MEMORY (R498). -/
def readMemory (s : State) (sub : Nat) : Val :=
  match sub with
  | 1 => .num (rawSize s)
  | 2 => .num (dataSize s)
  | 3 => .num (reservedBase s)
  | 4 => .num s.mem.ranks
  | 5 => .num s.mem.density
  | _ => .num s.mem.trained

/-- RO entries of PAIR_CONFIG (R455). -/
def readPair (s : State) (sub : Nat) : Val :=
  match sub with
  | 0x10 => .num s.pair.role
  | 0x11 => .num (rankOf s)
  | 0x12 => vB (preferredOf s)
  | 0x13 => .num s.mram.pairEpoch
  | 0x14 => .num s.pair.claim
  | 0x15 => .num (partnerClaim s)
  | 0x16 => .num (if partnerHeard s then (s.pair.partner.map (·.state)).getD 0xFF else 0xFF)
  | 0x17 => vB s.pair.ready
  | 0x18 => .num (appliedShown s)
  | _ => .num (s.pair.takeoverTime % 2 ^ 64)

/-- RO and CONST entries of FEED_CONFIG (R456). -/
def readFeeds (s : State) (sub : Nat) : Val :=
  match sub with
  | 5 => .num (fullLoad s)
  | 6 => vB s.feeds.short
  | _ => vB (!s.feeds.shedding.isEmpty)

/-- RO entries of FAULT_GLOBAL (R474). -/
def readFaultGlobal (s : State) (sub : Nat) : Val :=
  match sub with
  | 1 => .num s.mram.safeReason
  | 2 => .num s.mram.safeDetail
  | 3 => .num (s.mram.safeTime % 2 ^ 64)
  | _ => .num s.mram.safeEntries

/-- RO entries of HEALTH_CONFIG (R476). -/
def readHealth (s : State) (sub : Nat) : Val :=
  match sub with
  | 0x10 => .num (ofSigned 16 s.health.tj)
  | 0x11 => .num s.health.eolHours
  | _ => .num s.health.eolCause

/-! ## Entries -/

/-- RO and CONST entries from 0x1000 upward. -/
def readUnit (s : State) (idx sub : Nat) : Val :=
  if idx < 0x1100 then readPort s (idx - 0x1000) sub
  else if idx < 0x1200 then readPreempt s (idx - 0x1100) sub
  else if idx < 0x1500 then readGate s (idx - 0x1400) sub
  else if idx = 0x1800 then .num (fencedCount s)
  else if idx = 0x2000 then .num s.fdb.learned.length
  else if idx = 0x3000 then readFrerConfig s sub
  else if idx < 0x4008 then readDomain s (idx - 0x4000) sub
  else if idx < 0x4120 then readTrigger s (idx - 0x4100) sub
  else if idx < 0x4210 then vB (s.ev (idx - 0x4200)).level
  else if idx < 0x4312 then vB (s.pins.squelched.getD (idx - 0x4310) true)
  else if idx = 0x5000 then readHerd s sub
  else if idx = 0x6005 then readMemory s sub
  else if idx = 0x7000 then readPair s sub
  else if idx = 0x7001 then readFeeds s sub
  else if idx = 0x8000 then readFaultGlobal s sub
  else readHealth s sub

/-- RO and CONST entries of every object. -/
def readFixed (s : State) (idx sub : Nat) : Val :=
  match idx with
  | 0x0100 => readIdentity s sub
  | 0x0101 => readDeviceState s sub
  | 0x0103 => readResetInfo s sub
  | 0x0200 => readImageStore s sub
  | 0x0201 => readCommit s sub
  | 0x0202 => readEpoch s sub
  | 0x0402 => readPort s 260 0x0D
  | 0x0403 => readPort s 261 0x0D
  | 0x0404 => readGate s 260 sub
  | 0x0405 => readGate s 261 sub
  | _ =>
    if idx < 0x0100 then (if sub = 1 then .num (typeInfo idx).1 else .oct (ascii (typeInfo idx).2))
    else if 0x0410 ≤ idx ∧ idx < 0x0420 then readKeyObj s (idx - 0x0410) sub
    else readUnit s idx sub

/-- An entry held outside the RW store: the images and the key objects. -/
def ownStore (idx sub : Nat) : Bool := (idx == 0x0200 && 10 ≤ sub) || (0x0410 ≤ idx && idx < 0x0420)

/-- The configuration that an RWS entry reads (R41): the staged one, or the running one where that is asked for or where,
in LOAD and CHECK, nothing is staged. -/
def readImage (s : State) (running : Bool) : Image :=
  if running || s.chip.mode == .load || s.chip.mode == .check then s.cfg.running else s.cfg.shadow

/-- The value of an entry, the selection entries of tables apart (R34, R41): RWS entries read the staged value, or the
running one where that is asked for. -/
def entryValue (s : State) (o : ObjSpec) (idx : Nat) (e : EntrySpec) (running : Bool) : Val :=
  if e.sub = 0 then .num o.highest
  else match e.acc with
    | .counter => .num (s.counter idx e.sub 0)
    | .rws => imgVal s.ident (readImage s running) idx e.sub
    | .rw =>
      if ownStore idx e.sub then readFixed s idx e.sub
      else (AMap.find s.cfg.rw (entryKey idx e.sub)).getD (entryDefault s.ident idx e.sub)
    | _ => readFixed s idx e.sub

/-! ## Tables -/

/-- The configured table whose rows a state or counter table follows (R159, R185, R187, R188). -/
def followedTable (idx : Nat) : Option Nat :=
  match idx with
  | 0x2104 => some 0x2100
  | 0x2105 => some 0x2103
  | 0x3002 => some 0x3001
  | 0x3004 => some 0x3003
  | 0x3005 => some 0x3003
  | _ => none

/-- A key for which a table that has a row for every key has one. -/
def keyPresent (s : State) (t : TableSpec) (idx key : Nat) : Bool :=
  keyOk t idx key && !absentKey s.ident idx key &&
  (!(0x8041 ≤ idx && idx ≤ 0x8056) || instancePresent s (idx - 0x8040) key)

/-- The rows that a table holds as a map, where it is not one with a row for every key. -/
def heldKeys (s : State) (t : TableSpec) (idx : Nat) : Option (List Nat) :=
  match t.kind with
  | .staged => some (AMap.keys (imgTable s.cfg.shadow idx))
  | .fdb =>
    let static := imgTable s.cfg.shadow idx
    some (AMap.keys (s.fdb.learned.foldl (fun m e => AMap.set m e.1 ()) (static.map fun e => (e.1, ()))))
  | .immediate => none
  | .readOnly => (followedTable idx).map fun tbl => AMap.keys (imgTable s.cfg.running tbl)

/-- The table has a row with a key. -/
def hasRow (s : State) (t : TableSpec) (idx key : Nat) : Bool :=
  match heldKeys s t idx with
  | some l => l.contains key
  | none => keyPresent s t idx key

/-- The smallest key above one (R44 NEXT). -/
def nextKey (s : State) (t : TableSpec) (idx key : Nat) : Option Nat :=
  match heldKeys s t idx with
  | some l => l.find? fun k => key < k
  | none => (upTo (t.keyHi + 1)).find? fun k => key < k && keyPresent s t idx k

/-- ENTRY_COUNT (R42). -/
def entryCount (s : State) (t : TableSpec) (idx : Nat) : Nat :=
  match heldKeys s t idx with
  | some l => l.length
  | none => ((upTo (t.keyHi + 1)).filter (keyPresent s t idx)).length

/-- The counter fields of a row. -/
def counterRow (s : State) (t : TableSpec) (idx key : Nat) : Row := t.fields.map fun e => .num (s.counter idx e.sub key)

/-- QUEUE_STATE (R235). -/
def rowQueueState (s : State) (key : Nat) : Row :=
  let p := key / 8
  let tc := key % 8
  let v := (s.queue p tc).shaper / 2 ^ 32
  [vB (isStrict s p tc), .num (s.queue p tc).deficit, .num (if shaperKind s p tc = 0 then 0 else ofSigned 32 v),
    .num (headState s p tc)]

/-- XPOINT_STATS (R216). -/
def rowXpoint (s : State) (key : Nat) : Row :=
  let x := s.xp key
  [.num (xpCells key - x.cells.length), .num (x.minFree.getD (xpCells key)),
    .oct ((upTo 8).flatMap fun c => beBytes 2 (usedCells x c)),
    .num (s.counter 0x9200 5 key), .num (s.counter 0x9200 6 key), .num (s.counter 0x9200 7 key)]

/-- QUEUE_DEPTH (R216). -/
def rowDepth (s : State) (key : Nat) : Row :=
  [.num (queueDepth s (key / 8) (key % 8)), .num ((s.queue (key / 8) (key % 8)).avg / 65536),
    vB (isProtected s s.cfg.running (key / 8) (key % 8))]

/-- RECOVERY_STATE (R187). -/
def rowRecovery (s : State) (key : Nat) : Row :=
  let x := s.recov key
  let ports := recField s s.cfg.running key 9
  let seqs := ((upTo 4).map fun i =>
    let m := x.members.getD i {}
    if field ports (16 * i) 16 = 0xFFFF ∨ m.takeAny then 0 else m.recov * 2 ^ (16 * i)).sum
  let h := x.history.take (recField s s.cfg.running key 5)
  [.num x.recov, vB x.takeAny, vB x.guard, .oct (historyBytes h), vB x.latentError, .num seqs]

/-- A static or learned FDB row (R138). -/
def rowFdb (s : State) (key : Nat) : Row :=
  match imgRow s.cfg.shadow 0x2004 key with
  | some r => [r.getD 0 (.num 0), r.getD 1 (.num 0), .num 0, .num 0]
  | none =>
    match AMap.find s.fdb.learned key with
    | some l => [.num 0, .num l.port, .num 1, vB l.hit]
    | none => [.num 0, .num 0, .num 0, .num 0]

/-- HERD_NODES (R363). -/
def rowNode (s : State) (key : Nat) : Row :=
  let n := AMap.get {} s.herd.nodes key
  [.num n.visited, .num n.offset, .num n.rate, .num n.flags, vB n.inAverage]

/-- CLAIM_TABLE (R458). -/
def rowClaim (s : State) (key : Nat) : Row :=
  match AMap.find s.pair.best key with
  | some (c, t) => [.num c, .num (min 0xFFFFFFFF ((s.cycle - t) / usCycles 1)), vB (claimFresh s key)]
  | none => [.num 0, .num 0xFFFFFFFF, vB false]

/-- FAULT_STATE (R475). -/
def rowFault (s : State) (b key : Nat) : Row :=
  let x := s.fault b key
  [.num x.status, .num x.hist.length, .num x.lost, .oct (padTo 64 (x.hist.flatMap (beBytes 8)))]

/-- A number saturated to 32 bits. -/
def sat32 (n : Nat) : Nat := min 0xFFFFFFFF n

/-- ANTLER (R476): REMAINING of a monitor without degradation is free. -/
def rowAntler (s : State) (k : Nat) : Row :=
  let h := s.health
  let left := remainingMonitor (s.cfgN 0x8100 5) (h.deg.getD k 0) (h.teq.getD k 0) (h.af.getD k 0)
  [.num (sat32 (h.deg.getD k 0)), .num (sat32 (h.teq.getD k 0 / hourUnits)),
    .num (sat32 (left.getD (Config.noRemaining k).toNat))]

/-- RAIL (R476): REMAINING of a rail without wear is free. -/
def rowRail (s : State) (r : Nat) : Row :=
  let h := s.health
  let left := remainingRail (s.cfgN 0x8100 6) (h.dmg.getD r 0) (h.wear.getD r 0)
  [.num (s.counter 0x8103 2 r), .num (sat32 (h.dmg.getD r 0 / hourUnits)),
    .num (sat32 (left.getD (Config.noRemaining (128 + r)).toNat))]

/-- A row of the tables that answer READ and NEXT only. -/
def readOnlyRow (s : State) (t : TableSpec) (idx key : Nat) : Row :=
  match idx with
  | 0x1202 => rowQueueState s key
  | 0x3002 => .num (genNumber s false key) :: (counterRow s t idx key).drop 1
  | 0x3004 => rowRecovery s key
  | 0x5003 => rowNode s key
  | 0x6006 =>
    let c := s.mem.channels.getD key {}
    [.num (s.counter idx 2 key), .num (s.counter idx 3 key), .num c.refreshRate, .num c.lastError, .num (s.counter idx 6 key)]
  | 0x7004 => rowClaim s key
  | 0x8101 =>
    let r := s.health.sensors.getD key (0, false)
    [.num (ofSigned 16 r.1), vB r.2]
  | 0x8102 => rowAntler s key
  | 0x8103 => rowRail s key
  | 0x8104 => [.num (min 0xFFFF ((marginTrend s key).getD 0xFFFF))]
  | 0x9200 => rowXpoint s key
  | 0x9201 => rowDepth s key
  | _ => if 0x8041 ≤ idx ∧ idx ≤ 0x8056 then rowFault s (idx - 0x8040) key else counterRow s t idx key

/-- A row with a field replaced. -/
def overlay (t : TableSpec) (r : Row) (sub : Nat) (v : Val) : Row := r.set (fieldPos t sub) v

/-- The fields of a row as READ and NEXT copy them (R44). -/
def tableRow (s : State) (t : TableSpec) (idx key : Nat) : Row :=
  let staged := (imgRow s.cfg.shadow idx key).getD (rowDefault t idx key)
  match idx with
  | 0x2004 => rowFdb s key
  | 0x2008 => [.num (AMap.get 0 s.psfp.portState key)]
  | 0x2100 => overlay t staged 8 (vB (filterBlocked s key))
  | 0x2101 => overlay t staged 9 (.num (s.sgate key).latched)
  | 0x4303 => [.num (AMap.get 0 s.linkDelay key)]
  | 0x6101 => intRowRead s idx key
  | 0x6102 => intRowRead s idx key
  | 0x6103 => intRowRead s idx key
  | _ => if t.kind = .readOnly then readOnlyRow s t idx key else staged

end Sys2Proof.Machine
end

