-- ==== Sys2Proof/Machine/Dict.lean ====
section
/-!
DEFINITION. The object dictionary engine: one access under R50, with the access contexts and table actions of R42 to R44,
the rights of R53 and R62, and what the entries with a behaviour of their own do when written.
-/
namespace Sys2Proof.Machine

/-! ## Abort codes of R49 -/

def aOk : Nat := 0x00
def aNoObject : Nat := 0x01
def aNoSubindex : Nat := 0x02
def aTypeMismatch : Nat := 0x03
def aReadOnly : Nat := 0x04
def aWriteOnly : Nat := 0x05
def aStateConflict : Nat := 0x06
def aOutOfRange : Nat := 0x07
def aTableFull : Nat := 0x08
def aBusy : Nat := 0x09
def aIntegrity : Nat := 0x0A
def aAbsentUnit : Nat := 0x0B
def aClaimLost : Nat := 0x0C

/-! ## Requesters -/

/-- The bit of PATHS (R62). -/
def pathBit : Path → Nat
  | .mgt m => m
  | .line _ => 2
  | .ring => 3
  | _ => 4

/-- A key object's record. -/
def State.keyRec (s : State) (k : Nat) : KeyRec := s.mram.keys.getD (k - 1) {}

/-- KEY_ID names an enabled key (R60, R62). -/
def keyEnabled (s : State) (k : Nat) : Bool := 1 ≤ k && k ≤ 16 && (s.keyRec k).enabled && (s.keyRec k).written

/-- A request of this origin can have been accepted (R53, R60). -/
def reqOk (s : State) (r : Requester) : Bool :=
  match r.path with
  | .bar2 f => r.key == 0 && f < 4
  | .mailbox f => f < 4 && (r.key == 0 || (keyEnabled s r.key && bit (s.keyRec r.key).paths 4))
  | p => keyEnabled s r.key && bit (s.keyRec r.key).paths (pathBit p)

/-- RIGHTS of a request (R53, R62): [0] READ, [1] WRITE, [2] COMMAND, [3] PROVISION. -/
def rightsOf (s : State) (r : Requester) : Nat :=
  if r.key = 0 then (if pathCode r.path = 0 then 15 else if pathCode r.path < 4 then 1 else 0)
  else (s.keyRec r.key).rights

/-- The right that a write in an area needs (R62). -/
def areaRight (idx : Nat) : Nat :=
  if 0x0100 ≤ idx ∧ idx ≤ 0x02FF then 2 else if 0x0400 ≤ idx ∧ idx ≤ 0x04FF then 3 else 1

/-- A write to a key value comes over PF0's mailbox or a management port (R64). -/
def keyPathOk (r : Requester) (idx sub : Nat) : Bool :=
  if 0x0410 ≤ idx ∧ idx < 0x0420 ∧ sub = 1 then
    match r.path with
    | .mailbox f => f == 0
    | .mgt _ => true
    | _ => false
  else true

/-! ## Written values -/

/-- A value as written: by a row of the command table, as the DATA of a PDU with its TYPE, or through the BAR2 window with
the byte of the slot and the width. -/
inductive Datum where
  | val (v : Val)
  | nap (tt : Nat) (b : Bytes)
  | bar2 (byte width value : Nat)
deriving DecidableEq, Repr, Inhabited

/-- A type that reads sign-extended (R46). -/
def isSigned : Ty → Bool
  | .i _ => true
  | _ => false

/-- A number of a type extended to a width in bytes (R46). -/
def extendTo (t : Ty) (width n : Nat) : Nat :=
  if isSigned t then ofSigned (8 * width) (toSigned (8 * t.size) n) else n

/-- The type, or the width and place, fits the entry (R46, R50). -/
def Datum.typeOk (d : Datum) (e : EntrySpec) : Bool :=
  match d with
  | .val _ => true
  | .nap tt _ => tt == e.ty.code
  | .bar2 byte width _ => e.ty.scalar && byte == 0 && e.ty.size ≤ width

/-- The value, if it can be encoded in the entry's type (R35, R46). -/
def Datum.value (d : Datum) (e : EntrySpec) : Option Val :=
  match d with
  | .val v => if e.ty.encodes v then some v else none
  | .nap _ b => (e.ty.decode b).filter e.ty.encodes
  | .bar2 _ width value =>
    let n := value % 2 ^ (8 * e.ty.size)
    if extendTo e.ty width n = value ∧ e.ty.encodes (.num n) then some (.num n) else none

/-! ## Access contexts -/

/-- The key of a table's selection in a context (R43). -/
def ctxKey (r : Requester) (idx : Nat) : Nat := (pathCode r.path * 17 + r.key) * 65536 + idx

/-- A context's selection in a table. -/
def tblCtx (s : State) (r : Requester) (t : TableSpec) (idx : Nat) : TblCtx :=
  (AMap.find s.nap.ctx (ctxKey r idx)).getD { key := t.keyDflt, fields := rowDefault t idx t.keyDflt }

/-- Stores a context's selection. -/
def putCtx (r : Requester) (idx : Nat) (c : TblCtx) (s : State) : State :=
  { s with nap := { s.nap with ctx := AMap.set s.nap.ctx (ctxKey r idx) c } }

/-- A key as a value of its type. -/
def keyVal (t : TableSpec) (k : Nat) : Val :=
  match t.keyTy with
  | .octets n => .oct (beBytes n k)
  | _ => .num k

/-- The key that a value of its type names. -/
def valKey : Val → Nat
  | .num n => n
  | .oct b => beNat b

/-! ## Table actions (R44) -/

/-- A hashed table has no free place for a new key (R138, R144). -/
def bucketFull (s : State) (idx key : Nat) : Bool :=
  let rows := imgTable s.cfg.shadow idx
  let full := fun (h : Nat → Nat) => 8 ≤ (rows.filter fun e => h e.1 == h key).length
  match idx with
  | 0x2004 => full fdbBucket
  | 0x2006 => full streamBucket
  | _ => false

/-- The row that WRITE takes from the fields of a context. -/
def writtenRow (t : TableSpec) (fields : Row) : Row :=
  (t.fields.zip fields).map fun x => if x.1.acc = .rw then x.2 else x.1.dflt

/-- WRITE of a table that takes effect at once (R131, R283, R426). -/
def writeNow (idx key : Nat) (row : Row) (s : State) : State :=
  match idx with
  | 0x2008 => { s with psfp := { s.psfp with portState := AMap.put 0 s.psfp.portState key (fieldNo row 0) } }
  | 0x4303 => { s with linkDelay := AMap.put 0 s.linkDelay key (fieldNo row 0) }
  | _ => intRowWrite idx key row s

/-- WRITE of a staged table changes the shadow image (R44). -/
def stageRow (idx key : Nat) (row : Row) (s : State) : State :=
  { s with cfg := { s.cfg with shadow := imgPutRow s.cfg.shadow idx key row } }

/-- WRITE. -/
def tableWrite (t : TableSpec) (idx : Nat) (c : TblCtx) (s : State) : Nat × State :=
  let row := writtenRow t c.fields
  if !(keyOk t idx c.key && fieldsOk t.fields row && rowOk idx row) then (aOutOfRange, s)
  else if absentKey s.ident idx c.key then (aAbsentUnit, s)
  else if t.kind = .immediate then (aOk, writeNow idx c.key row s)
  else if (imgRow s.cfg.shadow idx c.key).isNone && (tableFull t s.cfg.shadow idx c.key || bucketFull s idx c.key) then
    (aTableFull, s)
  else (aOk, stageRow idx c.key row s)

/-- DELETE. -/
def tableDelete (t : TableSpec) (idx : Nat) (c : TblCtx) (s : State) : Nat × State :=
  if !keyOk t idx c.key then (aNoObject, s)
  else if absentKey s.ident idx c.key then (aAbsentUnit, s)
  else if t.kind = .immediate then (aOk, writeNow idx c.key (rowDefault t idx c.key) s)
  else if (imgRow s.cfg.shadow idx c.key).isNone then (aNoObject, s)
  else (aOk, { s with cfg := { s.cfg with shadow := imgDelRow s.cfg.shadow idx c.key } })

/-- Every field of a selection was copied. -/
def allFields : Nat := 0xFFFF

/-- A selection under a new key: a field that was neither written nor copied stands at its default, which for some tables
is the key's (R42, R130, R133, R426; DEDUCED, log entry 35). -/
def selectKey (t : TableSpec) (idx key : Nat) (c : TblCtx) : TblCtx :=
  { c with
    key := key
    fields := ((rowDefault t idx key).zip c.fields).zipIdx.map fun x => if bit c.written x.2 then x.1.2 else x.1.1 }

/-- READ: the code and the context afterwards. -/
def tableRead (s : State) (t : TableSpec) (idx : Nat) (c : TblCtx) : Nat × TblCtx :=
  if !keyOk t idx c.key then (aNoObject, c)
  else if absentKey s.ident idx c.key then (aAbsentUnit, c)
  else if hasRow s t idx c.key then (aOk, { c with fields := tableRow s t idx c.key, written := allFields })
  else (aNoObject, c)

/-- NEXT: the code and the context afterwards. -/
def tableNext (s : State) (t : TableSpec) (idx : Nat) (c : TblCtx) : Nat × TblCtx :=
  match nextKey s t idx c.key with
  | some k => (aOk, { c with key := k, fields := tableRow s t idx k, written := allFields })
  | none => (aNoObject, c)

/-- An action that changes only the context: its result goes to ACTION_RESULT (R49). -/
def noteAction (r : Requester) (idx : Nat) (x : Nat × TblCtx) (s : State) : Nat × State :=
  (x.1, putCtx r idx { x.2 with result := x.1 } s)

/-- An action that changes the table: its result goes to ACTION_RESULT (R49). -/
def noteChange (r : Requester) (idx : Nat) (c : TblCtx) (x : Nat × State) : Nat × State :=
  (x.1, putCtx r idx { c with result := x.1 } x.2)

/-- A write to ACTION (R44). -/
def tableAction (r : Requester) (t : TableSpec) (idx code : Nat) (s : State) : Nat × State :=
  let c := tblCtx s r t idx
  match code with
  | 1 => noteAction r idx (tableRead s t idx c) s
  | 4 => noteAction r idx (tableNext s t idx c) s
  | _ =>
    if t.kind = .readOnly then noteAction r idx (aReadOnly, c) s
    else if code = 2 then noteChange r idx c (tableWrite t idx c s)
    else noteChange r idx c (tableDelete t idx c s)

/-- A selection write to KEY or a field (R44). -/
def selectWrite (r : Requester) (t : TableSpec) (idx sub : Nat) (v : Val) (s : State) : State :=
  let c := tblCtx s r t idx
  putCtx r idx (if sub = 1 then selectKey t idx (valKey v) c
    else { c with fields := overlay t c.fields sub v, written := c.written ||| 2 ^ fieldPos t sub }) s

/-! ## Entries with a behaviour of their own -/

/-- COMMAND (R74, R75). -/
def command (n : Nat) (s : State) : State :=
  match n with
  | 1 => cmdStart s
  | 2 => cmdStop s
  | 3 => cmdReload s
  | 4 => cmdReset s
  | _ => cmdSafe s

/-- The states of a command (R75). -/
def commandAllowed (s : State) (n : Nat) : Bool :=
  match n, s.chip.mode with
  | 1, .armed => true
  | 2, .armed => s.chip.startPending
  | 2, .run => true
  | 3, .hold => true
  | 3, .armed => true
  | 5, .safe => false
  | 1, _ => false
  | 2, _ => false
  | 3, _ => false
  | _, m => Wr.hars.allows m

/-- A COMMIT in progress targets a bank (R85). -/
def bankBusy (s : State) (b : Nat) : Bool := commitRuns s && s.cfg.commit.target == b

/-- The last segment of a write to IMAGE_A or IMAGE_B (R85). -/
def uploadImage (b : Nat) (bytes : Bytes) (s : State) : Nat × State :=
  if bankBusy s b then (aBusy, s)
  else if s.cfg.runningBank = b ∧ s.cfg.passed then (aStateConflict, s)
  else
    let (k, good) := uploadedBank bytes
    (if good then aOk else aIntegrity, s.updBank b fun _ => k)

/-- ACTION of COMMIT (R89, R90, R92). -/
def commitAction (n : Nat) (s : State) : Nat × State :=
  match n with
  | 1 => if commitBusy s then (aBusy, s) else (aOk, cmdCommit s)
  | 2 => (aOk, cmdDiscard s)
  | _ => if cancelAllowed s then (aOk, cmdCancel s) else (aStateConflict, s)

/-- Changes a key record in MRAM (R62). -/
def State.updKey (s : State) (k : Nat) (f : KeyRec → KeyRec) : State :=
  { s with mram := { s.mram with keys := updAt s.mram.keys (k - 1) f } }

/-- RX_REPLAY of a key takes a new value, stored in its ring (R60, R61, R496). -/
def setRxReplay (k v : Nat) (s : State) : State := ringWrite (replayRing k 0) v (s.updKey k fun x => { x with rx := v })

/-- TX_REPLAY of a key counts a response, stored in its ring (R61, R496). It stays at 2^64 - 1 (DEDUCED, log entry 62). -/
def countTxReplay (k : Nat) (s : State) : State :=
  let v := min ((s.keyRec k).tx + 1) (2 ^ 64 - 1)
  ringWrite (replayRing k 1) v (s.updKey k fun x => { x with tx := v })

/-- A write to KEY (R63): the value, replay counters zero, open transfers under the KEY_ID closed. -/
def writeKey (k : Nat) (b : Bytes) (s : State) : State :=
  let s1 := ringClear (replayRing k 0) (ringClear (replayRing k 1)
    (s.updKey k fun r => { r with key := b, written := true, rx := 0, tx := 0 }))
  { s1 with nap := { s1.nap with transfers := s1.nap.transfers.filter fun t => t.req.key != k } }

/-- A write to a key object (R62). -/
def keyWrite (k sub : Nat) (v : Val) (s : State) : Nat × State :=
  match sub with
  | 1 => (aOk, writeKey k v.b s)
  | 2 => if v.n = 1 ∧ !(s.keyRec k).written then (aOutOfRange, s) else (aOk, s.updKey k fun r => { r with enabled := v.n == 1 })
  | 3 => (aOk, s.updKey k fun r => { r with rights := v.n })
  | _ => (aOk, s.updKey k fun r => { r with paths := v.n })

/-- FLUSH_PORT, UNBLOCK_FILTER and RESET_GATE (R141). -/
def classifierAction (sub n : Nat) (s : State) : Nat × State :=
  match sub with
  | 3 => if n ≠ 0xFFFF ∧ !portPresent s.ident n then (aAbsentUnit, s) else (aOk, flushPort n s)
  | 5 =>
    if (s.row 0x2100 n).isNone then (aNoObject, s)
    else (aOk, { s with psfp := { s.psfp with blocked := AMap.del s.psfp.blocked n } })
  | _ =>
    if n < 4352 ∧ absentKey s.ident 0x2101 n then (aAbsentUnit, s)
    else if (s.row 0x2101 n).isNone then (aNoObject, s)
    else (aOk, s.updSgate n fun g => { g with latched := 0 })

/-- RESET_RECOVERY and RESET_GENERATION (R161, R169, R176, R183). -/
def frerAction (sub n : Nat) (s : State) : Nat × State :=
  let tbl := if sub = 2 then 0x3003 else 0x3001
  let keys := AMap.keys (imgTable s.cfg.running tbl)
  let reset := fun (s : State) (k : Nat) => if sub = 2 then resetRecoveryKey s k else resetGen s k
  if n = 0xFFFFFFFF then (aOk, keys.foldl reset s)
  else if !(tableSpec s.ident tbl).any (fun t => keyOk t tbl n) then (aOutOfRange, s)
  else if absentKey s.ident tbl n then (aAbsentUnit, s)
  else if keys.contains n then (aOk, reset s n)
  else (aNoObject, s)

/-- CLEAR of FAULT_GLOBAL (R465, R474). -/
def clearAction (n : Nat) (s : State) : Nat × State :=
  let b := n / 65536
  let i := n / 256 % 256
  let a := n % 256
  if b = 0 ∨ 22 < b ∨ instanceCount b ≤ i ∨ a = 0 ∨ 3 < a then (aOutOfRange, s)
  else if !instancePresent s b i then (aAbsentUnit, s)
  else (aOk, clearFault b i a s)

/-- HANDOVER (R440). -/
def handoverAction (s : State) : Nat × State := if handoverAllowed s then (aOk, yieldPair s) else (aStateConflict, s)

/-- A staged entry (R89, R466); a bit of LINE_PORTS for an absent port is refused (R65). -/
def stageEntry (idx sub : Nat) (v : Val) (s : State) : Nat × State :=
  if idx = 0x0400 ∧ sub = 2 ∧ !(bitMembers v.b 256).all (linePortPresent s.ident) then (aAbsentUnit, s)
  else (aOk, { s with cfg := { s.cfg with shadow := imgPut s.ident s.cfg.shadow idx sub (settleVal idx sub v) } })

/-- What a write to an entry other than a table's own does. -/
def performEntry (idx : Nat) (e : EntrySpec) (v : Val) (s : State) : Nat × State :=
  match idx, e.sub with
  | 0x0102, _ => (aOk, command v.n s)
  | 0x0200, 10 => uploadImage 0 v.b s
  | 0x0200, 11 => uploadImage 1 v.b s
  | 0x0201, 4 => commitAction v.n s
  | 0x7000, 8 => handoverAction s
  | 0x8000, _ => clearAction v.n s
  | _, _ =>
    if 0x0410 ≤ idx ∧ idx < 0x0420 then keyWrite (idx - 0x0410 + 1) e.sub v s
    else if e.acc = .rws then stageEntry idx e.sub v s
    else if e.acc = .rw then (aOk, s.rwPut idx e.sub v)
    else if idx = 0x2000 then classifierAction e.sub v.n s
    else if idx = 0x3000 then frerAction e.sub v.n s
    else if 0x4000 ≤ idx ∧ idx < 0x4008 then (aOk, armDomain (idx - 0x4000) v.n s)
    else (aOk, s)

/-! ## Writes under R50 -/

/-- A selection write (R44). -/
def isSelection (o : ObjSpec) (sub : Nat) (v : Option Val) : Bool :=
  o.table.isSome && ((1 ≤ sub && sub ≤ 0x0F) || (sub == 0x10 && (v == some (.num 1) || v == some (.num 4))))

/-- The device state allows a write (R11, R39, R74). -/
def stateAllowsWrite (s : State) (idx : Nat) (e : EntrySpec) (v : Option Val) : Bool :=
  match idx, v with
  | 0x0102, some (.num n) => if n = 0 ∨ 5 < n then e.wr.allows s.chip.mode else commandAllowed s n
  | _, _ => e.wr.allows s.chip.mode

/-- A pair-scoped entry on a paired unit that does not hold ACTIVE (R445). -/
def claimRefuses (s : State) (idx sub : Nat) : Bool :=
  ((idx == 0x3000 && (sub == 2 || sub == 3)) || (idx == 0x7000 && sub == 8)) && isPaired s && s.pair.role != 2

/-- The ARM entry of a disabled domain (R245). -/
def armRefuses (s : State) (idx sub : Nat) : Bool :=
  0x4000 ≤ idx && idx < 0x4008 && sub == 0x13 && !(s.dom (idx - 0x4000)).enabled

/-- LOAD and CHECK serve only reads of 0x0100 to 0x01FF (R39). -/
def engineBusy : Mode → Bool
  | .load => true
  | .check => true
  | _ => false

/-- The steps of R50 on a write up to its value: the object, the entry and whether it is a selection write. -/
def admitWrite (s : State) (r : Requester) (idx sub : Nat) (d : Datum) : Except Nat (ObjSpec × EntrySpec × Bool) :=
  if engineBusy s.chip.mode then .error aBusy
  else if absentIndex s.ident idx then .error aAbsentUnit
  else
    match objSpec s.ident idx with
    | none => .error aNoObject
    | some o =>
      match o.entry sub with
      | none => .error aNoSubindex
      | some e =>
        let v := d.value e
        let sel := isSelection o sub v
        if sel && !bit (rightsOf s r) 0 then .error aNoObject
        else if !sel && !(bit (rightsOf s r) (areaRight idx) && keyPathOk r idx sub) then .error aReadOnly
        else if e.acc = .ro ∨ e.acc = .const ∨ e.acc = .counter then .error aReadOnly
        else if !d.typeOk e then .error aTypeMismatch
        else if !sel && !stateAllowsWrite s idx e v then .error aStateConflict
        else if armRefuses s idx sub then .error aStateConflict
        else if claimRefuses s idx sub then .error aClaimLost
        else .ok (o, e, sel)

/-- A WRITE or DELETE action on a staged table (R41). -/
def stagedAction (o : ObjSpec) (e : EntrySpec) (v : Val) : Bool :=
  match o.table with
  | some t => e.sub == 0x10 && (v.n == 2 || v.n == 3) && (t.kind == .staged || t.kind == .fdb)
  | none => false

/-- Performs a write that R50 has passed. -/
def performWrite (r : Requester) (o : ObjSpec) (idx : Nat) (e : EntrySpec) (v : Val) (s : State) : Nat × State :=
  match o.table with
  | some t =>
    if 1 ≤ e.sub ∧ e.sub ≤ 0x0F then (aOk, selectWrite r t idx e.sub v s)
    else if e.sub = 0x10 then tableAction r t idx v.n s
    else performEntry idx e v s
  | none => performEntry idx e v s

/-- One write under R50: its abort code and the state after it. A table action refused here leaves ACTION_RESULT (DEDUCED, log
entry 62). -/
def objWrite (r : Requester) (idx sub : Nat) (d : Datum) (s : State) : Nat × State :=
  match admitWrite s r idx sub d with
  | .error c => (c, s)
  | .ok (o, e, sel) =>
    match d.value e with
    | none => (aOutOfRange, s)
    | some v =>
      if !sel && !e.rng.ok e.ty v then (aOutOfRange, s)
      else if commitRuns s && (e.acc == .rws || stagedAction o e v) then (aBusy, s)
      else performWrite r o idx e v s

/-! ## Reads under R50 -/

/-- A gate control list (R310). -/
def isGateTable (idx : Nat) : Bool := decide (0x1400 ≤ idx ∧ idx ≤ 0x14FF) || idx == 0x0404 || idx == 0x0405

/-- The running value of a list row (R310): the list committed last; the defaults where it has no such row (DESIGN CHOICE,
DEDUCED, log entry 62). -/
def runningRow (s : State) (t : TableSpec) (idx key : Nat) : Row :=
  (imgRow s.cfg.running idx key).getD (rowDefault t idx key)

/-- The value of an entry for a requester, the selection of its context included (R42, R43). -/
def valueFor (s : State) (r : Requester) (o : ObjSpec) (idx : Nat) (e : EntrySpec) (running : Bool) : Val :=
  match o.table with
  | some t =>
    let c := tblCtx s r t idx
    if e.sub = 1 then keyVal t c.key
    else if 2 ≤ e.sub ∧ e.sub ≤ 0x0F then
      rowField t (if running && isGateTable idx then runningRow s t idx c.key else c.fields) e.sub
    else if e.sub = 0x11 then .num c.result
    else if e.sub = 0x12 then .num (entryCount s t idx)
    else if e.sub = 0x13 then .num t.cap
    else entryValue s o idx e running
  | none => entryValue s o idx e running

/-- A read of IMAGE_A or IMAGE_B that cannot be served (R85). -/
def imageRefusal (s : State) (idx sub : Nat) : Option Nat :=
  if idx = 0x0200 ∧ 10 ≤ sub then
    (if bankBusy s (sub - 10) then some aBusy else if (s.bank (sub - 10)).sealed then none else some aNoObject)
  else none

/-- The steps of R50 on a read up to its value: the object and the entry. `typeOk` is the test of the TYPE given. -/
def admitRead (s : State) (r : Requester) (idx sub : Nat) (typeOk : EntrySpec → Bool) : Except Nat (ObjSpec × EntrySpec) :=
  if engineBusy s.chip.mode && !(0x0100 ≤ idx && idx ≤ 0x01FF) then .error aBusy
  else if absentIndex s.ident idx then .error aAbsentUnit
  else if !bit (rightsOf s r) 0 then .error aNoObject
  else
    match objSpec s.ident idx with
    | none => .error aNoObject
    | some o =>
      match o.entry sub with
      | none => .error aNoSubindex
      | some e =>
        if e.acc = .wo then .error aWriteOnly
        else if !typeOk e then .error aTypeMismatch
        else .ok (o, e)

/-- One read under R50: the entry and its value, or the abort code. -/
def objRead (s : State) (r : Requester) (idx sub : Nat) (typeOk : EntrySpec → Bool) (running : Bool) :
    Except Nat (EntrySpec × Val) :=
  match admitRead s r idx sub typeOk with
  | .error c => .error c
  | .ok (o, e) =>
    match imageRefusal s idx sub with
    | some c => .error c
    | none => .ok (e, valueFor s r o idx e running)

end Sys2Proof.Machine
end

