-- ==== Sys2Proof/Machine/Sha.lean ====
section
/-!
DEFINITION. SHA-256 and HMAC-SHA-256 (FIPS 180-4, RFC 2104), which R59 names for the TAG of a NAP PDU.
-/
namespace Sys2Proof.Machine

/-- The largest number below 2^bits above `r` whose power `e` does not exceed n, one bit at a time. -/
def rootBits (e n : Nat) : Nat → Nat → Nat
  | 0, r => r
  | b + 1, r => rootBits e n b (if (r + 2 ^ b) ^ e ≤ n then r + 2 ^ b else r)

/-- The first 32 fraction bits of the e-th root of a number below 512. -/
def rootFraction (e p : Nat) : BitVec 32 := BitVec.ofNat 32 (rootBits e (p * 2 ^ (32 * e)) 37 0)

/-- The primes below 312, of which there are 64. -/
def smallPrimes : List Nat := (upTo 312).filter fun n => 2 ≤ n && (upTo n).all fun d => d < 2 || n % d != 0

/-- The round constants: the fractions of the cube roots of the first 64 primes. -/
def shaK : List (BitVec 32) := smallPrimes.map (rootFraction 3)

/-- The eight working words. -/
structure Sha where
  a : BitVec 32
  b : BitVec 32
  c : BitVec 32
  d : BitVec 32
  e : BitVec 32
  f : BitVec 32
  g : BitVec 32
  h : BitVec 32
deriving DecidableEq, Repr, Inhabited

/-- The initial hash value: the fractions of the square roots of the first eight primes. -/
def shaInit : Sha :=
  { a := rootFraction 2 2, b := rootFraction 2 3, c := rootFraction 2 5, d := rootFraction 2 7,
    e := rootFraction 2 11, f := rootFraction 2 13, g := rootFraction 2 17, h := rootFraction 2 19 }

/-- One round with its constant and message word. -/
def shaRound (x : Sha) (k w : BitVec 32) : Sha :=
  let s1 := x.e.rotateRight 6 ^^^ x.e.rotateRight 11 ^^^ x.e.rotateRight 25
  let ch := (x.e &&& x.f) ^^^ (~~~ x.e &&& x.g)
  let t1 := x.h + s1 + ch + k + w
  let s0 := x.a.rotateRight 2 ^^^ x.a.rotateRight 13 ^^^ x.a.rotateRight 22
  let maj := (x.a &&& x.b) ^^^ (x.a &&& x.c) ^^^ (x.b &&& x.c)
  { a := t1 + (s0 + maj), b := x.a, c := x.b, d := x.c, e := x.d + t1, f := x.e, g := x.f, h := x.g }

/-- The next word of the message schedule from the last sixteen. -/
def shaNext (w : List (BitVec 32)) : BitVec 32 :=
  let x := w.getD 1 0
  let y := w.getD 14 0
  (y.rotateRight 17 ^^^ y.rotateRight 19 ^^^ (y >>> 10)) + w.getD 9 0 +
    (x.rotateRight 7 ^^^ x.rotateRight 18 ^^^ (x >>> 3)) + w.getD 0 0

/-- The rounds of one block, the schedule held as its last sixteen words. -/
def shaRounds : List (BitVec 32) → List (BitVec 32) → Sha → Sha
  | [], _, x => x
  | k :: ks, w, x => shaRounds ks (w.drop 1 ++ [shaNext w]) (shaRound x k (w.getD 0 0))

/-- The sixteen words of a block. -/
def shaWords (b : Bytes) : List (BitVec 32) := (upTo 16).map fun i => BitVec.ofNat 32 (beAt b (4 * i) 4)

/-- One block. -/
def shaBlock (x : Sha) (b : Bytes) : Sha :=
  let y := shaRounds shaK (shaWords b) x
  { a := x.a + y.a, b := x.b + y.b, c := x.c + y.c, d := x.d + y.d,
    e := x.e + y.e, f := x.f + y.f, g := x.g + y.g, h := x.h + y.h }

/-- A number of 64-byte blocks. -/
def shaBlocks : Nat → Bytes → Sha → Sha
  | 0, _, x => x
  | n + 1, b, x => shaBlocks n (b.drop 64) (shaBlock x (b.take 64))

/-- The padded message. -/
def shaPad (b : Bytes) : Bytes := b ++ [0x80] ++ zeros ((119 - b.length % 64) % 64) ++ beBytes 8 (8 * b.length)

/-- SHA-256. -/
def sha256 (b : Bytes) : Bytes :=
  let p := shaPad b
  let x := shaBlocks (p.length / 64) p shaInit
  [x.a, x.b, x.c, x.d, x.e, x.f, x.g, x.h].flatMap fun w => beBytes 4 w.toNat

/-- HMAC-SHA-256 under a key of at most 64 bytes. -/
def hmacSha256 (key msg : Bytes) : Bytes :=
  let k := padTo 64 key
  sha256 (k.map (· ^^^ 0x5C) ++ sha256 (k.map (· ^^^ 0x36) ++ msg))

/-- TAG of R59: the first 16 bytes. -/
def napTag (key msg : Bytes) : Bytes := (hmacSha256 key msg).take 16

end Sys2Proof.Machine
end

