-- ==== Sys2Proof/Machine/Nap.lean ====
section
/-!
DEFINITION. The NAP (R51 to R61): acceptance of a PDU, evaluation, segmented transfers, responses; and the BAR2 window
(R45 to R48).
-/
namespace Sys2Proof.Machine

/-! ## Fields of a PDU (R51) -/

def pduLength (b : Bytes) : Nat := beAt b 2 2
def pduKey (b : Bytes) : Nat := beAt b 4 2
def pduFlags (b : Bytes) : Nat := beAt b 6 1
def pduOpcode (b : Bytes) : Nat := beAt b 7 1
def pduReplay (b : Bytes) : Nat := beAt b 8 8
def pduTrans (b : Bytes) : Nat := beAt b 16 2
def pduIndex (b : Bytes) : Nat := beAt b 18 2
def pduSub (b : Bytes) : Nat := beAt b 20 1
def pduType (b : Bytes) : Nat := beAt b 21 1
def pduOffset (b : Bytes) : Nat := beAt b 24 4
def pduTotal (b : Bytes) : Nat := beAt b 28 4
def pduData (b : Bytes) : Bytes := slice b 32 (pduLength b - 48)
def pduTag (b : Bytes) : Bytes := slice b (pduLength b - 16) 16

/-- The bytes that TAG covers (R59). -/
def pduSigned (b : Bytes) : Bytes := b.take (pduLength b - 16)

/-- What a response says: ABORT, SEGMENTED and LAST of FLAGS, TYPE, TOTAL, DATA. -/
structure Reply where
  abort : Nat
  flags : Nat := 0x20
  ty    : Nat
  total : Nat := 0
  data  : Bytes := []
deriving DecidableEq, Repr, Inhabited

/-- The response PDU without its TAG (R51, R54), fields of the request echoed. -/
def responseBody (b : Bytes) (replay : Nat) (r : Reply) : Bytes :=
  let data := if r.abort = 0 then r.data else []
  [0x01, 0x01] ++ beBytes 2 (48 + data.length) ++ beBytes 2 (pduKey b) ++ beBytes 1 (0x80 + r.flags) ++
    beBytes 1 (pduOpcode b) ++ beBytes 8 replay ++ beBytes 2 (pduTrans b) ++ beBytes 2 (pduIndex b) ++
    beBytes 1 (pduSub b) ++ beBytes 1 r.ty ++ beBytes 1 r.abort ++ [0] ++ beBytes 4 (pduOffset b) ++
    beBytes 4 r.total ++ data

/-! ## Responses -/

/-- The frame that carries a response to a request that came in a frame (R52), without its FCS; TPID 0x8100 and DEI 0 of its
tag are the model's (DEDUCED, log entry 62). -/
def responseFrame (s : State) (q : NapReq) (pdu : Bytes) : Bytes :=
  let station := imgNum s.ident (steerImage s) 0x0400 3
  let tag : Bytes :=
    match q.vtag with
    | some t => [0x81, 0x00] ++ beBytes 2 (t &&& 0xEFFF)
    | none => []
  let f := beBytes 6 q.src ++ beBytes 6 station ++ tag ++ [0x88, 0xB5] ++ pdu
  f ++ zeros (60 - f.length)

/-- A response goes out on the request's path (R52, R53, R380); one whose function was reset meanwhile is discarded
(R382). -/
def sendResponse (q : NapReq) (pdu : Bytes) (s : State) : State :=
  let tc := imgNum s.ident (steerImage s) 0x0400 4
  let s1 := s.emit (.nap q.path pdu)
  match q.path with
  | .mailbox f => if q.src = 1 then s else mboxRespond f pdu s1
  | .bar2 _ => s
  | .ring => mailRespond q.src pdu s1
  | .mgt m => issueFrame (260 + m) tc false (responseFrame s q pdu) s1
  | .line p => issueFrame p tc false (responseFrame s q pdu) s1

/-- A response under KEY_ID 0: zero TAG, the local response count (R53). -/
def respondLocal (q : NapReq) (f : Nat) (r : Reply) (s : State) : State :=
  let s1 := if q.src = 1 then s else { s with nap := { s.nap with localCount := updAt s.nap.localCount f (· + 1) } }
  sendResponse q (responseBody q.pdu (s1.nap.localCount.getD f 0 % 2 ^ 64) r ++ zeros 16) s1

/-- A response under a key: TX_REPLAY incremented first (R61), TAG of R59. TX_REPLAY stays at 2^64 - 1, and the response to a
KEY write is signed with the new key (DEDUCED, log entry 62). -/
def respondKeyed (q : NapReq) (r : Reply) (s : State) : State :=
  let k := pduKey q.pdu
  let s1 := countTxReplay k s
  let body := responseBody q.pdu (s1.keyRec k).tx r
  sendResponse q (body ++ napTag (s1.keyRec k).key body) s1

/-- The one response to an accepted request (R54). -/
def napRespond (q : NapReq) (r : Reply) (s : State) : State :=
  let s1 := if r.abort = 0 then s else s.bump 0x0401 7
  if pduKey q.pdu = 0 then
    match q.path with
    | .mailbox f => respondLocal q f r s1
    | _ => s1
  else respondKeyed q r s1

/-- A PDU is discarded without a response and counted (R60, R380). -/
def napDiscard (q : NapReq) (counter : Nat) (s : State) : State :=
  let s1 := s.bump 0x0401 counter
  match q.path with
  | .mailbox f => if q.src = 1 then s1 else mboxDiscard f s1
  | _ => s1

/-! ## Transfers -/

/-- The requester of a PDU. -/
def pduReq (q : NapReq) : Requester := { path := q.path, key := pduKey q.pdu }

/-- A transfer belongs to a KEY_ID, path and TRANSACTION (R55). -/
def transferIs (r : Requester) (trans : Nat) (t : Transfer) : Bool :=
  t.req.key == r.key && pathCode t.req.path == pathCode r.path && t.trans == trans

/-- The open transfer of a request. -/
def openTransfer (s : State) (q : NapReq) : Option Transfer :=
  s.nap.transfers.find? (transferIs (pduReq q) (pduTrans q.pdu))

/-- A transfer closes without applying anything (R58). -/
def closeTransfer (r : Requester) (trans : Nat) (s : State) : State :=
  { s with nap := { s.nap with transfers := s.nap.transfers.filter fun t => !transferIs r trans t } }

/-- Closes the transfer of a request. -/
def closeOwn (q : NapReq) (s : State) : State := closeTransfer (pduReq q) (pduTrans q.pdu) s

/-- Keeps a transfer open, its timeout restarted (R58). -/
def keepTransfer (q : NapReq) (t : Transfer) (s : State) : State :=
  let s1 := closeOwn q s
  let t1 := { t with due := s.cycle + msCycles (s.rwN 0x0400 5) }
  { s1 with nap := { s1.nap with transfers := s1.nap.transfers ++ [t1] } }

/-- SEGMENTED of FLAGS. -/
def flagSegmented (b : Bytes) : Bool := bit (pduFlags b) 6

/-- LAST of FLAGS. -/
def flagLast (b : Bytes) : Bool := bit (pduFlags b) 5

/-- FLAGS of a response to a WRITE: SEGMENTED and LAST as in the request (DEDUCED, log entry 31). -/
def echoFlags (b : Bytes) : Nat := pduFlags b &&& 0x60

/-- A response that carries only a code: TOTAL is echoed to a WRITE (DEDUCED, log entry 31). -/
def codeReply (q : NapReq) (code : Nat) : Reply :=
  if pduOpcode q.pdu = 2 then
    { abort := code, flags := echoFlags q.pdu, ty := pduType q.pdu, total := pduTotal q.pdu }
  else { abort := code, ty := pduType q.pdu }

/-- Answers with a code. -/
def answerCode (q : NapReq) (code : Nat) (s : State) : State := napRespond q (codeReply q code) s

/-- INTEGRITY, the transfer closed (R56, R57, R58). -/
def answerBroken (q : NapReq) (s : State) : State := answerCode q aIntegrity (closeOwn q s)

/-- One segment of a snapshot (R56): the segment that reaches TOTAL carries LAST and closes the transfer. -/
def readSegment (q : NapReq) (t : Transfer) (s : State) : State :=
  let off := pduOffset q.pdu
  let d := slice t.data off 1024
  let last := t.total ≤ off + d.length
  let r : Reply := { abort := aOk, flags := 0x40 + (if last then 0x20 else 0), ty := t.ty, total := t.total, data := d }
  napRespond q r (if last then closeOwn q s else keepTransfer q { t with prevOff := off, nextOff := off + d.length } s)

/-- A request for a transfer that is not carried out restarts its timeout (R58). -/
def touchTransfer (q : NapReq) (s : State) : State :=
  match openTransfer s q with
  | some t => keepTransfer q t s
  | none => s

/-- Answers with a code, a transfer that the request names staying open. -/
def answerKept (q : NapReq) (code : Nat) (s : State) : State := answerCode q code (touchTransfer q s)

/-- A READ with no transfer open (R56), its entry and value found. -/
def readFresh (q : NapReq) (e : EntrySpec) (v : Val) (s : State) : State :=
  let b := q.pdu
  let d := e.ty.encode v
  if pduOffset b ≠ 0 then answerCode q aIntegrity s
  else if d.length ≤ 1024 then
    napRespond q { abort := aOk, ty := e.ty.code, total := d.length, data := d } s
  else if 8 ≤ s.nap.transfers.length then answerCode q aBusy s
  else
    readSegment q
      { req := pduReq q, trans := pduTrans b, isWrite := false, ty := e.ty.code, idx := pduIndex b, sub := pduSub b,
        total := d.length, data := d, prevOff := 0, nextOff := 0, due := 0 } s

/-- A READ of an open transfer (R56), served from its snapshot. -/
def readNext (q : NapReq) (t : Transfer) (s : State) : State :=
  if pduOffset q.pdu = t.nextOff ∨ pduOffset q.pdu = t.prevOff then readSegment q t s else answerBroken q s

/-- A READ (R56): the tests of R50 and R85 stand before those of its OFFSET. -/
def napRead (q : NapReq) (s : State) : State :=
  let b := q.pdu
  let ok := fun (e : EntrySpec) => pduType b == 0 || pduType b == e.ty.code
  match openTransfer s q, admitRead s (pduReq q) (pduIndex b) (pduSub b) ok with
  | _, .error c => answerKept q c s
  | some t, .ok _ =>
    if imageRefusal s (pduIndex b) (pduSub b) = some aBusy then answerKept q aBusy s else readNext q t s
  | none, .ok (o, e) =>
    match imageRefusal s (pduIndex b) (pduSub b) with
    | some c => answerCode q c s
    | none => readFresh q e (valueFor s (pduReq q) o (pduIndex b) e (bit (pduFlags b) 4)) s

/-- The largest size of an entry's value (R35, R55). -/
def maxSize : Ty → Nat
  | .octetsMax n => min n bankSize
  | .text n => n
  | t => t.size

/-- A segment is in order (R57). -/
def segmentGood (q : NapReq) (t : Transfer) : Bool :=
  let off := pduOffset q.pdu
  let n := (pduData q.pdu).length
  pduTotal q.pdu == t.total && decide (1 ≤ n) && decide (n ≤ 1024) && (off == t.nextOff || off == t.prevOff) &&
    decide (off + n ≤ t.total)

/-- A segment of a write (R57): the last one ends at TOTAL, and R50 is evaluated again on the whole value. -/
def writeSegment (q : NapReq) (t : Transfer) (s : State) : State :=
  let b := q.pdu
  if !segmentGood q t then answerBroken q s
  else
    let off := pduOffset b
    let data := t.data.take off ++ pduData b
    if flagLast b then
      if data.length = t.total then
        let x := objWrite (pduReq q) (pduIndex b) (pduSub b) (.nap (pduType b) data) (closeOwn q s)
        answerCode q x.1 x.2
      else answerBroken q s
    else answerCode q aOk (keepTransfer q { t with data := data, prevOff := off, nextOff := data.length } s)

/-- Why an admitted WRITE cannot open a transfer (R55, R57, R85). -/
def openRefusal (q : NapReq) (e : EntrySpec) (s : State) : Option Nat :=
  let b := q.pdu
  if pduOffset b ≠ 0 then some aIntegrity
  else if maxSize e.ty < pduTotal b then some aOutOfRange
  else if pduIndex b == 0x0200 && decide (10 ≤ pduSub b) && bankBusy s (pduSub b - 10) then some aBusy
  else if 8 ≤ s.nap.transfers.length then some aBusy
  else none

/-- An admitted WRITE with no transfer open (R57). -/
def writeFresh (q : NapReq) (e : EntrySpec) (s : State) : State :=
  let b := q.pdu
  match openRefusal q e s with
  | some c => answerCode q c s
  | none =>
    writeSegment q
      { req := pduReq q, trans := pduTrans b, isWrite := true, idx := pduIndex b, sub := pduSub b, total := pduTotal b,
        data := [], prevOff := 0, nextOff := 0, due := 0 } s

/-- A WRITE with SEGMENTED set, or of an open transfer (R57): the tests of R50 that its value does not enter stand before
those of its OFFSET and TOTAL. -/
def writeSegmented (q : NapReq) (s : State) : State :=
  let b := q.pdu
  match admitWrite s (pduReq q) (pduIndex b) (pduSub b) (.nap (pduType b) (pduData b)) with
  | .error c => answerKept q c s
  | .ok (_, e, _) =>
    if commitRuns s && e.acc == .rws then answerKept q aBusy s
    else
      match openTransfer s q with
      | some t => writeSegment q t s
      | none => writeFresh q e s

/-- A WRITE (R57). An unsegmented one that names an open transfer of its own entry is taken as a segment of it (DEDUCED,
log entry 62). -/
def napWrite (q : NapReq) (s : State) : State :=
  let b := q.pdu
  if !flagSegmented b && (openTransfer s q).isNone then
    let x := objWrite (pduReq q) (pduIndex b) (pduSub b) (.nap (pduType b) (pduData b)) s
    answerCode q x.1 x.2
  else writeSegmented q s

/-! ## Evaluation and acceptance -/

/-- A request names an open transfer and differs from it in opcode, INDEX or SUBINDEX (R50, R58). -/
def mismatches (s : State) (q : NapReq) : Bool :=
  match openTransfer s q with
  | some t => t.isWrite != (pduOpcode q.pdu == 2) || t.idx != pduIndex q.pdu || t.sub != pduSub q.pdu
  | none => false

/-- An unsegmented WRITE whose OFFSET or TOTAL is inconsistent (R57). -/
def totalsBroken (b : Bytes) : Bool :=
  pduOpcode b == 2 && !flagSegmented b && (pduOffset b != 0 || pduTotal b != (pduData b).length)

/-- LOAD and CHECK answer BUSY (R39, R50). -/
def napBusy (s : State) (b : Bytes) : Bool :=
  engineBusy s.chip.mode && !(pduOpcode b == 1 && 0x0100 ≤ pduIndex b && pduIndex b ≤ 0x01FF)

/-- R50 on an accepted request. -/
def napEvaluate (q : NapReq) (s : State) : State :=
  let op := pduOpcode q.pdu
  if op = 0 ∨ 3 < op then answerCode q aIntegrity s
  else if napBusy s q.pdu then answerCode q aBusy s
  else if op = 3 then answerCode q aOk (closeOwn q s)
  else if mismatches s q then answerBroken q s
  else if totalsBroken q.pdu then answerCode q aIntegrity s
  else if op = 1 then napRead q s
  else napWrite q s

/-- PATHS of a key includes a path (R62). -/
def keyOnPath (s : State) (r : Requester) : Bool := keyEnabled s r.key && bit (s.keyRec r.key).paths (pathBit r.path)

/-- KEY_ID 0 is accepted over the PCIe mailbox (R53). -/
def isMailbox : Path → Bool
  | .mailbox _ => true
  | _ => false

/-- RESPONSE of FLAGS: such a PDU passes as no request (R59). -/
def flagResponse (b : Bytes) : Bool := bit (pduFlags b) 7

/-- NAP is served on a path in the present device state (R67): on line ports and the Herd Ring in ARMED and RUN only. A
request that waited for longer is discarded for its path (DEDUCED, log entry 62). -/
def pathServed (s : State) : Path → Bool
  | .line _ => isActive s.chip.mode
  | .ring => isActive s.chip.mode
  | _ => true

/-- The acceptance steps after the length (R60); a response PDU is discarded and counted as of wrong format (R59; DEDUCED,
log entry 62). -/
def napAccept (q : NapReq) (s : State) : State :=
  let b := q.pdu
  let k := pduKey b
  if k = 0 then
    if !isMailbox q.path then napDiscard q 3 s
    else if flagResponse b then napDiscard q 2 s
    else napEvaluate q (s.bump 0x0401 1)
  else if !keyOnPath s (pduReq q) || !pathServed s q.path then napDiscard q 3 s
  else if napTag (s.keyRec k).key (pduSigned b) ≠ pduTag b then napDiscard q 4 s
  else if pduReplay b ≤ (s.keyRec k).rx then napDiscard q 5 s
  else if flagResponse b then napDiscard q 2 s
  else napEvaluate q ((setRxReplay k (pduReplay b) s).bump 0x0401 1)

/-- R60 from its first step; it gives LENGTH no upper bound (DEDUCED, log entry 62). -/
def napRun (q : NapReq) (s : State) : State :=
  let b := q.pdu
  if b.length < 48 ∨ beAt b 0 1 ≠ 1 ∨ beAt b 1 1 ≠ 1 then napDiscard q 2 s
  else if pduLength b < 48 ∨ b.length < pduLength b then
    if keyEnabled s (pduKey b) then answerCode q aIntegrity s else napDiscard q 2 s
  else napAccept q s

/-- The engine takes what it has to take before an access that arrives now on a path (R40, R47). -/
def engineTurn (p : Path) (s : State) : State :=
  if isAlive s.chip.mode then
    (aheadOf s p).foldl (fun t q => napRun q t) { s with nap := { s.nap with queue := behindOf s p } }
  else s

/-- Which command takes a request: 2 NAP_WRITE, 3 NAP_ABORT_TRANSFER, 1 NAP_READ for every other. -/
def requestKind (q : NapReq) : Nat :=
  let op := pduOpcode q.pdu
  if op = 2 ∨ op = 3 then op else 1

/-- The engine takes the request at the front of its input queue (R40), when it is of the command's kind. -/
def napTake (kind : Nat) (s : State) : State :=
  match s.nap.queue with
  | [] => s
  | q :: rest =>
    if isAlive s.chip.mode && requestKind q == kind then napRun q { s with nap := { s.nap with queue := rest } } else s

/-- NAP_READ. -/
def effNapRead (s : State) : State := napTake 1 s

/-- NAP_WRITE. -/
def effNapWrite (s : State) : State := napTake 2 s

/-- NAP_ABORT_TRANSFER. -/
def effNapAbortTransfer (s : State) : State := napTake 3 s

/-- SEGMENT_TIMEOUT (R58, R66). -/
def effSegmentTimeout (req : Requester) (trans : Nat) (s : State) : State :=
  match s.nap.transfers.find? (transferIs req trans) with
  | some t => if t.due ≤ s.cycle then (closeTransfer req trans s).bump 0x0401 8 else s
  | none => s

/-! ## The BAR2 window -/

/-- Changes a function's window status record. -/
def State.updWindow (s : State) (f : Nat) (g : Window → Window) : State :=
  { s with nap := { s.nap with window := updAt s.nap.window f g } }

/-- A function's window status record. -/
def State.winRec (s : State) (f : Nat) : Window := s.nap.window.getD f {}

/-- What an access through the window leaves in the status record (R48). -/
def noteWindow (off code : Nat) (w : Window) : Window :=
  if code = 0 then { w with lastAbort := 0 }
  else { lastAbort := code, lastFail := off, failCount := min (w.failCount + 1) 0xFFFFFFFF }

/-- Widths and places of a read (R46). -/
def readPlace (off width : Nat) : Bool :=
  [1, 2, 4, 8].contains width && decide (off % width = 0)

/-- The bytes of a slot that a read takes (R46). -/
def windowSlot (t : Ty) (n off width : Nat) : Bytes := slice (leBytes 8 (extendTo t 8 n)) (off % 8) width

/-- An entry of the window status record (R48): its type and value. -/
def windowEntry (w : Window) (sub : Nat) : Option (Ty × Nat) :=
  match sub with
  | 0 => some (.u 1, 3)
  | 1 => some (.u 1, w.lastAbort)
  | 2 => some (.u 4, w.lastFail)
  | 3 => some (.u 4, w.failCount)
  | _ => none

/-- A read of the window status record: its code and bytes. -/
def readWindowRecord (s : State) (f off width : Nat) : Nat × Bytes :=
  if engineBusy s.chip.mode then (aBusy, [])
  else
    match windowEntry (s.winRec f) (off % 2048 / 8) with
    | none => (aNoSubindex, [])
    | some (t, n) => if readPlace off width then (aOk, windowSlot t n off width) else (aTypeMismatch, [])

/-- A read of an entry through the window: its code and bytes. -/
def readSlot (s : State) (f off width : Nat) : Nat × Bytes :=
  match objRead s { path := .bar2 f, key := 0 } (off / 2048) (off % 2048 / 8) (fun e => e.ty.scalar && readPlace off width) false with
  | .ok (e, v) => (aOk, windowSlot e.ty v.n off width)
  | .error c => (c, [])

/-- The bytes that a read returns: 0xFF where it aborts (R47). -/
def windowBytes (width : Nat) (x : Nat × Bytes) : Bytes := if x.1 = 0 then x.2 else List.replicate width 0xFF

/-- A read through the window once the engine takes it (R46 to R48). -/
def windowRead (f off width : Nat) (s : State) : State :=
  if off / 2048 = 0xFFFF then
    let x := readWindowRecord s f off width
    s.emit (.window f x.1 (windowBytes width x))
  else
    let x := readSlot s f off width
    (s.updWindow f (noteWindow off x.1)).emit (.window f x.1 (windowBytes width x))

/-- BAR2_READ. An offset beyond the window falls in no BAR (R369). -/
def effBar2Read (f off width : Nat) (s : State) : State :=
  if s.barReach f then
    if off < 2 ^ 27 then windowRead f off width (engineTurn (.bar2 f) s) else unsupported f false s
  else refuseBar f false s

/-- A write to the window status record (R48): a 0 to FAIL_COUNT clears it; accesses to the record do not update it. -/
def writeWindowRecord (f off width value : Nat) (s : State) : State :=
  if Wr.hars.allows s.chip.mode && decide (off % 2048 = 24) && decide (4 ≤ width) && decide (width ≤ 8) && value == 0 then
    s.updWindow f fun w => { w with failCount := 0 }
  else s

/-- A write of an entry through the window (R46). -/
def writeSlot (f off width value : Nat) (s : State) : State :=
  let d : Datum := .bar2 (if width ≤ 8 then off % 8 else 1) width value
  let x := objWrite { path := .bar2 f, key := 0 } (off / 2048) (off % 2048 / 8) d s
  x.2.updWindow f (noteWindow off x.1)

/-- A write through the window once the engine takes it (R46, R48). -/
def windowWrite (f off width value : Nat) (s : State) : State :=
  if off / 2048 = 0xFFFF then writeWindowRecord f off width value s else writeSlot f off width value s

/-- BAR2_WRITE. An offset beyond the window falls in no BAR (R369). -/
def effBar2Write (f off width value : Nat) (s : State) : State :=
  if s.barReach f then
    if off < 2 ^ 27 then windowWrite f off width (value % 2 ^ (8 * width)) (engineTurn (.bar2 f) s) else unsupported f true s
  else refuseBar f true s

/-- FAIL_COUNT_CLEAR: the write of 0 to FAIL_COUNT. -/
def effFailCountClear (f : Nat) (s : State) : State := effBar2Write f 0x07FFF818 4 0 s

/-! ## The meanings -/

/-- NAP_READ: answers the state after its effect. -/
def execNapRead (s : State) : Answer := .next (effNapRead s)

/-- NAP_WRITE: answers the state after its effect. -/
def execNapWrite (s : State) : Answer := .next (effNapWrite s)

/-- NAP_ABORT_TRANSFER: answers the state after its effect. -/
def execNapAbortTransfer (s : State) : Answer := .next (effNapAbortTransfer s)

/-- SEGMENT_TIMEOUT: answers the state after its effect. -/
def execSegmentTimeout (req : Requester) (trans : Nat) (s : State) : Answer := .next (effSegmentTimeout req trans s)

/-- BAR2_READ: answers the state after its effect. -/
def execBar2Read (f : Nat) (off : Nat) (width : Nat) (s : State) : Answer := .next (effBar2Read f off width s)

/-- BAR2_WRITE: answers the state after its effect. -/
def execBar2Write (f : Nat) (off : Nat) (width : Nat) (value : Nat) (s : State) : Answer := .next (effBar2Write f off width value s)

/-- FAIL_COUNT_CLEAR: answers the state after its effect. -/
def execFailCountClear (f : Nat) (s : State) : Answer := .next (effFailCountClear f s)

end Sys2Proof.Machine
end

