-- ==== Sys2Proof/Machine/Access.lean ====
section
/-!
DEFINITION. The commands that reach the object dictionary engine as accesses: entry writes, selections and table actions,
key writes, image transfers, and the commands and resets that are writes to entries of their own (R39 to R48).
-/
namespace Sys2Proof.Machine

/-- The value that a write of a whole slot carries (R46): a number of a signed type sign-extended to 64 bits. A value of a
type the window does not reach cannot be written there; the write is TYPE_MISMATCH whatever it carries (R45, R49). -/
def slotValue (s : State) (idx sub : Nat) : Val → Nat
  | .oct _ => 0
  | .num n => (match (objSpec s.ident idx).bind fun o => o.entry sub with
    | some e => extendTo e.ty 8 n
    | none => n) % 2 ^ 64

/-- A write by an accepted request (R50, R54): an access through the BAR2 window is posted and leaves its status record
(R45 to R48), and every other is answered. -/
def answerWrite (r : Requester) (idx sub : Nat) (v : Val) (s : State) : State :=
  match r.path with
  | .bar2 f => effBar2Write f (idx * 2048 + sub * 8) 8 (slotValue s idx sub v) s
  | p =>
    let s1 := engineTurn p s
    if isAlive s1.chip.mode && reqOk s1 r then
      let x := objWrite r idx sub (.val v) s1
      x.2.emit (.answer r x.1 none)
    else s1

/-- A read by an accepted request (R50, R54), through the BAR2 window as a read of a whole slot. -/
def answerRead (r : Requester) (idx sub : Nat) (s : State) : State :=
  match r.path with
  | .bar2 f => effBar2Read f (idx * 2048 + sub * 8) 8 s
  | p =>
    let s1 := engineTurn p s
    if isAlive s1.chip.mode && reqOk s1 r then
      match objRead s1 r idx sub (fun _ => true) false with
      | .ok x => s1.emit (.answer r aOk (some x.2))
      | .error c => s1.emit (.answer r c none)
    else s1

/-- ENTRY_WRITE. -/
def effEntryWrite (req : Requester) (idx sub : Nat) (v : Val) (s : State) : State := answerWrite req idx sub v s

/-- SELECTION_WRITE. -/
def effSelectionWrite (req : Requester) (idx sub : Nat) (v : Val) (s : State) : State := answerWrite req idx sub v s

/-- READ. -/
def effRead (req : Requester) (idx : Nat) (s : State) : State := answerWrite req idx 0x10 (.num 1) s

/-- WRITE. -/
def effWrite (req : Requester) (idx : Nat) (s : State) : State := answerWrite req idx 0x10 (.num 2) s

/-- DELETE. -/
def effDelete (req : Requester) (idx : Nat) (s : State) : State := answerWrite req idx 0x10 (.num 3) s

/-- NEXT. -/
def effNext (req : Requester) (idx : Nat) (s : State) : State := answerWrite req idx 0x10 (.num 4) s

/-- KEY_WRITE: KEY of key object `key`. -/
def effKeyWrite (req : Requester) (key : Nat) (b : Bytes) (s : State) : State :=
  if 1 ≤ key ∧ key ≤ 16 then answerWrite req (0x0410 + (key - 1)) 1 (.oct b) s else s

/-- IMAGE_UPLOAD: the last segment of a write to the bank's image has arrived. -/
def effImageUpload (req : Requester) (bank : Nat) (b : Bytes) (s : State) : State :=
  if bank < 2 then answerWrite req 0x0200 (10 + bank) (.oct b) s else s

/-- IMAGE_READ: the image, as the read transfer hands it over. -/
def effImageRead (req : Requester) (bank : Nat) (s : State) : State :=
  if bank < 2 then answerRead req 0x0200 (10 + bank) s else s

/-- START. -/
def effStart (req : Requester) (s : State) : State := answerWrite req 0x0102 1 (.num 1) s

/-- STOP. -/
def effStop (req : Requester) (s : State) : State := answerWrite req 0x0102 1 (.num 2) s

/-- RELOAD. -/
def effReload (req : Requester) (s : State) : State := answerWrite req 0x0102 1 (.num 3) s

/-- RESET_COMMAND. -/
def effResetCommand (req : Requester) (s : State) : State := answerWrite req 0x0102 1 (.num 4) s

/-- SAFE_COMMAND. -/
def effSafeCommand (req : Requester) (s : State) : State := answerWrite req 0x0102 1 (.num 5) s

/-- COMMIT. -/
def effCommit (req : Requester) (s : State) : State := answerWrite req 0x0201 4 (.num 1) s

/-- DISCARD. -/
def effDiscard (req : Requester) (s : State) : State := answerWrite req 0x0201 4 (.num 2) s

/-- CANCEL. -/
def effCancel (req : Requester) (s : State) : State := answerWrite req 0x0201 4 (.num 3) s

/-- FLUSH_PORT. -/
def effFlushPort (req : Requester) (p : Nat) (s : State) : State := answerWrite req 0x2000 3 (.num p) s

/-- UNBLOCK_FILTER. -/
def effUnblockFilter (req : Requester) (k : Nat) (s : State) : State := answerWrite req 0x2000 5 (.num k) s

/-- RESET_GATE. -/
def effResetGate (req : Requester) (k : Nat) (s : State) : State := answerWrite req 0x2000 6 (.num k) s

/-- RESET_RECOVERY. -/
def effResetRecovery (req : Requester) (k : Nat) (s : State) : State := answerWrite req 0x3000 2 (.num k) s

/-- RESET_GENERATION. -/
def effResetGeneration (req : Requester) (k : Nat) (s : State) : State := answerWrite req 0x3000 3 (.num k) s

/-- ARM (R244, R245): the entry of a domain's object, or the register where no requester is given. -/
def effArm (req : Option Requester) (f d v : Nat) (s : State) : State :=
  match req with
  | none => armRegister f d v s
  | some r => if d < 8 then answerWrite r (0x4000 + d) 0x13 (.num v) s else s

/-- HANDOVER. -/
def effHandover (req : Requester) (s : State) : State := answerWrite req 0x7000 8 (.num 1) s

/-- A write to CLEAR of FAULT_GLOBAL (R474). -/
def answerClear (req : Requester) (b i action : Nat) (s : State) : State :=
  if b < 65536 ∧ i < 256 then answerWrite req 0x8000 5 (.num (b * 65536 + i * 256 + action)) s else s

/-- CLEAR_STATUS. -/
def effClearStatus (req : Requester) (b i : Nat) (s : State) : State := answerClear req b i 1 s

/-- CLEAR_HISTORY. -/
def effClearHistory (req : Requester) (b i : Nat) (s : State) : State := answerClear req b i 2 s

/-- CLEAR_BOTH. -/
def effClearBoth (req : Requester) (b i : Nat) (s : State) : State := answerClear req b i 3 s

/-! ## The meanings -/

/-- ENTRY_WRITE: answers the state after its effect. -/
def execEntryWrite (req : Requester) (idx : Nat) (sub : Nat) (v : Val) (s : State) : Answer := .next (effEntryWrite req idx sub v s)

/-- SELECTION_WRITE: answers the state after its effect. -/
def execSelectionWrite (req : Requester) (idx : Nat) (sub : Nat) (v : Val) (s : State) : Answer := .next (effSelectionWrite req idx sub v s)

/-- READ: answers the state after its effect. -/
def execRead (req : Requester) (idx : Nat) (s : State) : Answer := .next (effRead req idx s)

/-- WRITE: answers the state after its effect. -/
def execWrite (req : Requester) (idx : Nat) (s : State) : Answer := .next (effWrite req idx s)

/-- DELETE: answers the state after its effect. -/
def execDelete (req : Requester) (idx : Nat) (s : State) : Answer := .next (effDelete req idx s)

/-- NEXT: answers the state after its effect. -/
def execNext (req : Requester) (idx : Nat) (s : State) : Answer := .next (effNext req idx s)

/-- KEY_WRITE: answers the state after its effect. -/
def execKeyWrite (req : Requester) (key : Nat) (b : Bytes) (s : State) : Answer := .next (effKeyWrite req key b s)

/-- IMAGE_UPLOAD: answers the state after its effect. -/
def execImageUpload (req : Requester) (bank : Nat) (b : Bytes) (s : State) : Answer := .next (effImageUpload req bank b s)

/-- IMAGE_READ: answers the state after its effect. -/
def execImageRead (req : Requester) (bank : Nat) (s : State) : Answer := .next (effImageRead req bank s)

/-- START: answers the state after its effect. -/
def execStart (req : Requester) (s : State) : Answer := .next (effStart req s)

/-- STOP: answers the state after its effect. -/
def execStop (req : Requester) (s : State) : Answer := .next (effStop req s)

/-- RELOAD: answers the state after its effect. -/
def execReload (req : Requester) (s : State) : Answer := .next (effReload req s)

/-- RESET_COMMAND: answers the state after its effect. -/
def execResetCommand (req : Requester) (s : State) : Answer := .next (effResetCommand req s)

/-- SAFE_COMMAND: answers the state after its effect. -/
def execSafeCommand (req : Requester) (s : State) : Answer := .next (effSafeCommand req s)

/-- COMMIT: answers the state after its effect. -/
def execCommit (req : Requester) (s : State) : Answer := .next (effCommit req s)

/-- DISCARD: answers the state after its effect. -/
def execDiscard (req : Requester) (s : State) : Answer := .next (effDiscard req s)

/-- CANCEL: answers the state after its effect. -/
def execCancel (req : Requester) (s : State) : Answer := .next (effCancel req s)

/-- FLUSH_PORT: answers the state after its effect. -/
def execFlushPort (req : Requester) (p : Nat) (s : State) : Answer := .next (effFlushPort req p s)

/-- UNBLOCK_FILTER: answers the state after its effect. -/
def execUnblockFilter (req : Requester) (k : Nat) (s : State) : Answer := .next (effUnblockFilter req k s)

/-- RESET_GATE: answers the state after its effect. -/
def execResetGate (req : Requester) (k : Nat) (s : State) : Answer := .next (effResetGate req k s)

/-- RESET_RECOVERY: answers the state after its effect. -/
def execResetRecovery (req : Requester) (k : Nat) (s : State) : Answer := .next (effResetRecovery req k s)

/-- RESET_GENERATION: answers the state after its effect. -/
def execResetGeneration (req : Requester) (k : Nat) (s : State) : Answer := .next (effResetGeneration req k s)

/-- ARM: answers the state after its effect. -/
def execArm (req : Option Requester) (f : Nat) (d : Nat) (v : Nat) (s : State) : Answer := .next (effArm req f d v s)

/-- HANDOVER: answers the state after its effect. -/
def execHandover (req : Requester) (s : State) : Answer := .next (effHandover req s)

/-- CLEAR_STATUS: answers the state after its effect. -/
def execClearStatus (req : Requester) (b : Nat) (i : Nat) (s : State) : Answer := .next (effClearStatus req b i s)

/-- CLEAR_HISTORY: answers the state after its effect. -/
def execClearHistory (req : Requester) (b : Nat) (i : Nat) (s : State) : Answer := .next (effClearHistory req b i s)

/-- CLEAR_BOTH: answers the state after its effect. -/
def execClearBoth (req : Requester) (b : Nat) (i : Nat) (s : State) : Answer := .next (effClearBoth req b i s)

end Sys2Proof.Machine
end

