-- ==== Sys2Proof/Machine/Balls.lean ====
section
/-!
DEFINITION. The ball map (R528 to R536): which signal each ball carries, its name, and the cells of the boundary register
(R525).
-/
namespace Sys2Proof.Machine

/-- A pin of a memory channel (R532). -/
inductive MemPin where
  | dq (k : Nat) | dmi (k : Nat) | dqsT (k : Nat) | dqsC (k : Nat) | ckT | ckC | ca (k : Nat) | cs (k : Nat) | cke (k : Nat)
deriving DecidableEq, Repr, Inhabited

/-- A port outside the line sides with one receive and one transmit pair (R531). -/
inductive Single where
  | mgt (k : Nat) | ring (k : Nat) | pair (k : Nat)
deriving DecidableEq, Repr, Inhabited

/-- What a ball carries; `n` marks the N pin of a pair, `supply` the rail of R510. -/
inductive Signal where
  | lineRx (lane : Nat) (n : Bool) | lineTx (lane : Nat) (n : Bool)
  | singleRx (p : Single) (n : Bool) | singleTx (p : Single) (n : Bool)
  | pcieRx (lane : Nat) (n : Bool) | pcieTx (lane : Nat) (n : Bool)
  | mem (channel : Nat) (pin : MemPin) | memResetN | memRcal
  | trigOut (k : Nat) | ppsOut (k : Nat) | synceClk (k : Nat) | safeN | alive | intN | wakeN
  | evIn (k : Nat) | ppsIn (k : Nat) | feedOk (line : Nat) | perstN | bootSrc (k : Nat) | pairRole | pairRank (k : Nat)
  | tck | tms | tdi | tdo | trstN
  | refclk (n : Bool) | serdesRcal | pcieRefclk (n : Bool) | pcieRcal | tdiode (n : Bool)
  | supply (rail : Nat) | vss | rsvd
deriving DecidableEq, Repr, Inhabited

/-! ## Rows -/

/-- The 19 letters of the row names. -/
def rowLetters : List String :=
  ["A", "B", "C", "D", "E", "F", "G", "H", "J", "K", "L", "M", "N", "P", "T", "U", "V", "W", "Y"]

/-- The name of row r, 1 to 63 (R528). -/
def rowName (r : Nat) : String := ["", "A", "B", "C"].getD ((r - 1) / 19) "" ++ rowLetters.getD ((r - 1) % 19) ""

/-- The name of a ball (R528). -/
def ballName (r c : Nat) : String := rowName r ++ toString c

/-! ## Regions -/

/-- Both bounds included. -/
def within (x lo hi : Nat) : Bool := decide (lo ≤ x) && decide (x ≤ hi)

/-- A position without a ball (R529). -/
def unpopulated (r c : Nat) : Bool :=
  (within r 1 4 && within c 1 4) || (within r 1 3 && within c 61 63) ||
  (within r 61 63 && (within c 61 63 || within c 1 3)) || (within r 31 33 && within c 31 33)

/-- The signal of a quad's tile at depth d, place t = 3k + o along side s (R530). -/
def lineBall (side d t : Nat) : Signal :=
  let lane := 4 * (16 * side + t / 3)
  if t % 3 = 2 then .vss
  else if d ≤ 4 then .lineRx (lane + d - 1) (t % 3 == 1)
  else .lineTx (lane + d - 5) (t % 3 == 1)

/-- The four pins of a single port in the order of R531. -/
def singlePins (p : Single) : List Signal := [.singleRx p false, .singleRx p true, .singleTx p false, .singleTx p true]

/-- A corner's list given to the populated positions of its area in ascending row and then column, those of `fixed` apart
(R531). -/
def cornerBall (rows cols : List Nat) (fixed : Nat → Nat → Bool) (l : List Signal) (r c : Nat) : Signal :=
  let area := rows.flatMap fun a => (cols.filter fun b => !unpopulated a b && !fixed a b).map fun b => (a, b)
  l.getD (area.findIdx fun x => x == (r, c)) .vss

/-- Numbers from `lo` to `hi`. -/
def fromTo (lo hi : Nat) : List Nat := (List.range (hi + 1 - lo)).map (· + lo)

/-- Corner TL (R531). -/
def cornerTL (r c : Nat) : Signal :=
  if c = 7 then .supply 6
  else cornerBall (fromTo 1 8) (fromTo 1 6) (fun _ _ => false)
    (singlePins (.mgt 0) ++ singlePins (.mgt 1) ++ List.replicate 6 .vss ++
      [.refclk false, .refclk true, .vss, .vss, .serdesRcal]) r c

/-- Corner TR (R531). -/
def cornerTR (r c : Nat) : Signal :=
  if r ≤ 4 ∧ c ≤ 59 then
    (singlePins (match r with | 1 => .ring 0 | 2 => .ring 1 | 3 => .pair 0 | _ => .pair 1)).getD (c - 56) .vss
  else .vss

/-- Corner BR (R531). -/
def cornerBR (r c : Nat) : Signal :=
  if c = 57 then .supply 7
  else cornerBall (fromTo 56 63) (fromTo 58 63) (fun _ _ => false)
    ((List.range 32).map .trigOut ++ [.ppsOut 0, .ppsOut 1, .synceClk 0, .synceClk 1, .safeN, .alive, .intN]) r c

/-- Corner BL (R531). -/
def cornerBL (r c : Nat) : Signal :=
  if r = 57 then .supply 7
  else cornerBall (fromTo 58 63) (fromTo 1 8) (fun _ _ => false)
    ((List.range 16).map .evIn ++ [.ppsIn 0, .ppsIn 1, .feedOk 0, .feedOk 1, .wakeN, .perstN, .bootSrc 0, .bootSrc 1, .pairRole] ++
      (List.range 8).map .pairRank ++ [.tck, .tms, .tdi, .tdo, .trstN]) r c

/-- Row k of a memory channel's block (R532). -/
def memRow (ch k : Nat) : List Signal :=
  let m := Signal.mem ch
  let q := Signal.supply 5
  match k with
  | 0 => [m (.dq 0), m (.dq 1), m (.dq 2), m (.dq 3), q]
  | 1 => [m (.dq 4), m (.dq 5), m (.dq 6), m (.dq 7), m (.dmi 0)]
  | 2 => [m (.dqsT 0), m (.dqsC 0), .vss, m .ckT, m .ckC]
  | 3 => [m (.ca 0), m (.ca 1), m (.ca 2), m (.ca 3), q]
  | 4 => [m (.ca 4), m (.ca 5), m (.cs 0), m (.cs 1), m (.cke 0)]
  | 5 => [m (.cke 1), .vss, m (.dqsT 1), m (.dqsC 1), q]
  | 6 => [m (.dq 8), m (.dq 9), m (.dq 10), m (.dq 11), m (.dmi 1)]
  | _ => [m (.dq 12), m (.dq 13), m (.dq 14), m (.dq 15), q]

/-- The memory region (R532). -/
def memBall (r c : Nat) : Signal :=
  if r = 9 ∧ c = 9 then .memResetN
  else if r = 9 ∧ c = 10 then .memRcal
  else if 13 ≤ c ∧ c < 53 then (memRow ((c - 13) / 5) (r - 9)).getD ((c - 13) % 5) .vss
  else .vss

/-- The PCIe region (R533). -/
def pcieBall (r c : Nat) : Signal :=
  if r = 48 ∧ c = 12 then .pcieRefclk false
  else if r = 48 ∧ c = 13 then .pcieRefclk true
  else if r = 48 ∧ c = 14 then .pcieRcal
  else if r = 52 ∧ within c 16 31 then .supply 4
  else if r = 48 ∧ within c 16 47 then .pcieRx ((c - 16) / 2) (c % 2 == 1)
  else if r = 50 ∧ within c 16 47 then .pcieTx ((c - 16) / 2) (c % 2 == 1)
  else .vss

/-- The core region: the first rule of R534 that applies. -/
def coreBall (r c : Nat) : Signal :=
  if within r 30 34 ∧ within c 30 34 then
    (if r = 30 ∧ c = 32 then .tdiode false
      else if r = 34 ∧ c = 32 then .tdiode true
      else if (r + c) % 2 = 1 then .rsvd else .vss)
  else if within r 53 55 then (if c % 2 = 1 then .supply 2 else .vss)
  else if c = 9 ∨ c = 55 then .supply 2
  else if c = 10 ∨ c = 54 then (if r % 2 = 1 then .supply 3 else .vss)
  else if within r 17 19 ∨ within r 45 47 then (if c % 2 = 1 then .supply 1 else .vss)
  else if (r + c) % 2 = 1 then .supply 0 else .vss

/-- The ball at row r and column c, in the first region of R529 that contains it; none where there is no ball. -/
def ballAt (r c : Nat) : Option Signal :=
  if !(within r 1 63 && within c 1 63) || unpopulated r c then none
  else if within r 1 8 && within c 8 55 then some (lineBall 0 r (c - 8))
  else if within r 8 55 && within c 56 63 then some (lineBall 1 (64 - c) (r - 8))
  else if within r 56 63 && within c 9 56 then some (lineBall 2 (64 - r) (56 - c))
  else if within r 9 56 && within c 1 8 then some (lineBall 3 c (56 - r))
  else if within r 1 8 && within c 1 7 then some (cornerTL r c)
  else if within r 1 7 && within c 56 63 then some (cornerTR r c)
  else if within r 56 63 && within c 57 63 then some (cornerBR r c)
  else if within r 57 63 && within c 1 8 then some (cornerBL r c)
  else if within r 9 16 then some (memBall r c)
  else if within r 48 52 then some (pcieBall r c)
  else some (coreBall r c)

/-- Every ball in ascending row and then ascending column. -/
def balls : List Signal := (fromTo 1 63).flatMap fun r => (fromTo 1 63).filterMap (ballAt r)

/-! ## The boundary register -/

/-- What a cell of the boundary register belongs to (R525): an input (a test receiver at SerDes and PCIe pins), an output, or
the enable of an output. -/
inductive CellKind where
  | input | output | enable
deriving DecidableEq, Repr, Inhabited

/-- The cells of a ball in their order (R525). -/
def ballCells : Signal → List CellKind
  | .evIn _ | .ppsIn _ | .feedOk _ | .perstN | .bootSrc _ | .pairRole | .pairRank _ => [.input]
  | .trigOut _ | .ppsOut _ | .synceClk _ | .safeN | .alive => [.output, .enable]
  | .intN | .wakeN => [.output]
  | .mem _ (.dq _) | .mem _ (.dmi _) | .mem _ (.dqsT _) | .mem _ (.dqsC _) => [.input, .output, .enable]
  | .mem _ _ | .memResetN => [.output, .enable]
  | .lineRx _ _ | .singleRx _ _ | .pcieRx _ _ => [.input]
  | .lineTx _ n | .singleTx _ n | .pcieTx _ n => [if n then .enable else .output]
  | _ => []

/-- The cells of the boundary register, from TDO towards TDI (R525). -/
def boundaryCells : List (Signal × CellKind) := balls.flatMap fun b => (ballCells b).map fun k => (b, k)

/-- The length of the boundary register (R525). -/
def boundaryLength : Nat := 1944

end Sys2Proof.Machine
end

