-- ==== Sys2Proof/Machine/Pins.lean ====
section
/-!
DEFINITION. What the device drives on its pins (R512, R532), the test access port and the boundary register (R506, R524 to
R526).
-/
namespace Sys2Proof.Machine

/-! ## Output levels -/

/-- What an output does (R512). -/
inductive Drive where
  | unpowered | highZ | released | low | high | electricalIdle
  | line (o : LineOut)
  | clock (hertz : Nat)
  | training | running | heartbeats | perTap
deriving DecidableEq, Repr, Inhabited

/-- A level. -/
def driveOf (level : Bool) : Drive := if level then .high else .low

/-- A SerDes transmitter: unpowered in OFF, in electrical idle in RESET, else as given. -/
def serdesDrive (s : State) (d : Drive) : Drive :=
  match s.chip.mode with
  | .off => .unpowered
  | .reset => .electricalIdle
  | _ => d

/-- A line or management transmitter: what R105 gives its port. -/
def lineDrive (s : State) (p : Nat) : Drive := serdesDrive s (.line (lineOut s p))

/-- An output that OFF leaves at high impedance and that RESET, LOAD, CHECK, HOLD and SAFE hold low. -/
def quietDrive (s : State) (d : Drive) : Drive :=
  match s.chip.mode with
  | .off => .highZ
  | .armed => d
  | .run => d
  | _ => .low

/-- An output of the memory interface: low in RESET, in training until training has ended, then running (R488, R512). -/
def memDrive (s : State) : Drive :=
  match s.chip.mode with
  | .off => .unpowered
  | .reset => .low
  | _ => if s.mem.trainDone then .running else .training

/-- A pin of a memory channel. With one rank CS[1] and CKE[1] are inactive (R532): low, as JESD209-4 has them (PRESUMED, log
entry 87). The table has no row for DQ, DMI and DQS. -/
def memPinDrive (s : State) : MemPin → Option Drive
  | .ckT | .ckC | .ca _ => some (memDrive s)
  | .cs k | .cke k =>
    some (if isAlive s.chip.mode && s.mem.trainDone && s.mem.ranks == 1 && k == 1 then .low else memDrive s)
  | _ => none

/-- RESET_n of the memory: low in RESET, released to high with training (R512; PRESUMED, log entry 87). -/
def memResetDrive (s : State) : Drive :=
  match s.chip.mode with
  | .off => .unpowered
  | .reset => .low
  | _ => .high

/-- The transmitters of the ports outside the line sides (R122, R327, R436). -/
def singleDrive (s : State) : Single → Option Drive
  | .mgt k => some (lineDrive s (260 + k))
  | .ring _ => some (serdesDrive s (if ringOn s then .running else .electricalIdle))
  | .pair _ => if s.ident.ordering = 0 then some (serdesDrive s .heartbeats) else none

/-- An output that a pull-down holds until the device drives it from LOAD on (R469). -/
def pulledDrive (s : State) (level : Bool) : Drive := if isAlive s.chip.mode then driveOf level else .released

/-- An open-drain output (R417, R375). -/
def openDrain (low : Bool) : Drive := if low then .low else .released

/-- What the device drives on an output while no boundary-scan instruction controls the pins (R512). -/
def ownDrive (s : State) : Signal → Option Drive
  | .lineTx lane _ => some (lineDrive s (lanePort s lane))
  | .singleTx p _ => singleDrive s p
  | .pcieTx _ _ => some (serdesDrive s (if s.pcie.linkUp then .running else .training))
  | .mem _ p => memPinDrive s p
  | .memResetN => some (memResetDrive s)
  | .trigOut n => some (match trigLevel s n with | 0 => .low | 1 => .high | _ => .highZ)
  | .ppsOut k => some (quietDrive s (driveOf (s.time.pps.getD k {}).active))
  | .synceClk k =>
    some (match s.chip.mode with
      | .off => .highZ
      | .reset => .low
      | .safe => .low
      | _ => if synceOut s k = 0 then .low else .clock (synceOut s k))
  | .safeN => some (pulledDrive s (safeNHigh s))
  | .alive => some (pulledDrive s s.health.alive)
  | .intN => some (openDrain (intNLow s))
  | .wakeN => some (openDrain (isAlive s.chip.mode && !s.pcie.wakeN))
  | .tdo => some (if s.chip.mode = .off then .highZ else .perTap)
  | _ => none

/-! ## The test access port -/

/-- The instructions that control pins (R524). -/
def tapControls (code : Nat) : Bool := [0x00, 0x03, 0x04, 0x05, 0x06].contains code

/-- The instruction that acts (R524, R526): BYPASS for an opcode outside the table and for one that may not control. -/
def tapActs (s : State) : Nat :=
  let ir := s.pins.tapIr
  if tapControls ir then (if s.pins.tapControl then ir else 0xFF)
  else if ir = 0x01 ∨ ir = 0x02 then ir else 0xFF

/-- IDCODE (R524). -/
def idcode (id : Ident) : Nat := id.revision % 16 * 2 ^ 28 + 0x025605E3

/-- The latch of a signal's cell in the boundary register. -/
def cellLatch (s : State) (g : Signal) (k : CellKind) : Bool :=
  s.pins.boundary.getLsbD (boundaryCells.findIdx fun c => c == (g, k))

/-- The cells that stand for an output: of a transmit pair, the output on its P pin and the enable on its N pin (R525). -/
def outputCell : Signal → Signal
  | .lineTx l _ => .lineTx l false
  | .singleTx p _ => .singleTx p false
  | .pcieTx l _ => .pcieTx l false
  | g => g
def enableCell : Signal → Signal
  | .lineTx l _ => .lineTx l true
  | .singleTx p _ => .singleTx p true
  | .pcieTx l _ => .pcieTx l true
  | g => g

/-- An open-drain pin, which has no enable (R525). -/
def isOpenDrain : Signal → Bool
  | .intN | .wakeN => true
  | _ => false

/-- A pin with an output cell. -/
def isScanOutput (g : Signal) : Bool := (ballCells (outputCell g)).contains .output

/-- The N pin of a transmit pair carries the inverse of its cell. -/
def isInverted : Signal → Bool
  | .lineTx _ n | .singleTx _ n | .pcieTx _ n => n
  | _ => false

/-- What the boundary register's latches drive on a pin: the output's level while its enable is set; an open-drain pin is pulled
low by its cell at 0 (PRESUMED, log entry 9). -/
def cellDrive (s : State) (g : Signal) : Drive :=
  let level := cellLatch s (outputCell g) .output
  if isOpenDrain g then openDrain (!level)
  else if cellLatch s (enableCell g) .enable then driveOf (level != isInverted g)
  else .highZ

/-- What stands on an output pin (R512, R526): under HIGHZ nothing, under the other controlling instructions the boundary
register's latches, else the device's own drive. -/
def pinDrive (s : State) (g : Signal) : Option Drive :=
  if !isScanOutput g || !tapControls (tapActs s) then ownDrive s g
  else if tapActs s = 0x04 then some .highZ
  else some (cellDrive s g)

/-! ## Scans -/

/-- The data register that the acting instruction selects is the boundary register (R524). -/
def selectsBoundary (s : State) : Bool := [0x00, 0x02, 0x05, 0x06].contains (tapActs s)

/-- What a cell captures: an input the level outside, an output the level that the device drives where it drives one, an enable
whether it drives. -/
def cellCapture (s : State) (outside : Bool) (c : Signal × CellKind) : Bool :=
  match c.2, pinDrive s (outputCell c.1) with
  | .output, some .low => false
  | .output, some .high => true
  | .enable, some .highZ => false
  | .enable, some .released => false
  | .enable, some .unpowered => false
  | .enable, some _ => true
  | _, _ => outside

/-- The bits of a number, the least significant first. -/
def lowBits (n v : Nat) : List Bool := (upTo n).map fun k => bit v k

/-- What the selected data register captures, the bit nearest TDO first: IDCODE, the boundary register, or one bit of BYPASS. -/
def drCapture (levels : Nat) (s : State) : List Bool :=
  if tapActs s = 0x01 then lowBits 32 (idcode s.ident)
  else if selectsBoundary s then boundaryCells.zipIdx.map fun c => cellCapture s (bit levels c.2) c.1
  else [false]

/-- The number whose bits stand in a list, the least significant first. -/
def ofBits (l : List Bool) : Nat := l.foldr (fun b n => b2n b + 2 * n) 0

/-- A scan of the selected data register: TDO puts out what it captured and then what came in, and at its end the boundary
register's latches take what it holds (IEEE 1149.1; PRESUMED, log entry 9). -/
def scanData (x : TapScan) (s : State) : State :=
  let bits := drCapture x.levels s ++ x.tdi
  let s1 := s.emit (.tdo (bits.take x.tdi.length))
  if selectsBoundary s then
    { s1 with pins := { s1.pins with boundary := BitVec.ofNat 1944 (ofBits (bits.drop x.tdi.length)) } }
  else s1

/-- TAP_RESET (R506, R524): the instruction register selects IDCODE. -/
def effTapReset (s : State) : State :=
  if s.chip.mode = .off then s else { s with pins := { s.pins with tapIr := 0x01, tapControl := false } }

/-- The instruction register takes a new instruction; what it had captured goes out at TDO (R524, R526). -/
def loadInstruction (code : Nat) (s : State) : State :=
  let control := tapControls (code % 256) && (s.chip.mode == .hold || s.chip.mode == .safe)
  { s.emit (.tdo (lowBits 8 0x01)) with pins := { s.pins with tapIr := code % 256, tapControl := control } }

/-- TAP_INSTRUCTION (R524 to R526): an instruction that controls pins takes control only in HOLD or SAFE, and acts as BYPASS
when loaded elsewhere; a scan of the data register that it selects may follow. -/
def effTapInstruction (code : TapCode) (scan : Option TapScan) (s : State) : State :=
  if s.chip.mode = .off then s
  else
    let s1 := loadInstruction code s
    match scan with
    | some x => scanData x s1
    | none => s1

/-! ## The meanings -/

/-- TAP_RESET: answers the state after its effect. -/
def execTapReset (s : State) : Answer := .next (effTapReset s)

/-- TAP_INSTRUCTION: answers the state after its effect. -/
def execTapInstruction (code : TapCode) (s : State) (scan : Option TapScan := none) : Answer :=
  .next (effTapInstruction code scan s)

end Sys2Proof.Machine
end

