-- ==== Sys2Proof/Machine/Regs.lean ====
section
/-!
DEFINITION. Writes and readings of the BAR0 registers (R12, R370 to R372) by region, and of the MSI-X table in BAR4
(R369, R373).
-/
namespace Sys2Proof.Machine

/-! ## DMA channels (R402, R409) -/

/-- CONTROL: RESET, ABORT, PAUSE, RUN, DOORBELL act in this order (R402). -/
def writeControl (f c v : Nat) (s : State) : State :=
  let s1 := if bit v 3 then effChannelReset f c s else s
  let s2 := if bit v 2 then effAbort f c s1 else s1
  let s3 := effPause f c (bit v 1) s2
  let s4 := if bit v 0 then effRun f c s3 else s3
  if bit v 4 then effDoorbell f c s4 else s4

/-- A write to a channel's registers. -/
def dmaWrite (f off v : Nat) (s : State) : State :=
  let c := off / 0x100
  if off % 0x100 = 0x0C then writeControl f c v s else chanWrite f c (dmaRegWrite c (off % 0x100) v) s

/-! ## Time domains (R258) -/

/-- STATUS of a domain: a written 1 clears bits 8 to 12. -/
def writeDomStatus (d v : Nat) (s : State) : State :=
  s.updDom d fun x =>
    { x with
      stepRefused := s.w1c (.domStatus d 8) x.stepRefused (bit v 8)
      rateRefused := s.w1c (.domStatus d 9) x.rateRefused (bit v 9)
      lockLost := s.w1c (.domStatus d 10) x.lockLost (bit v 10)
      steppedOver := s.w1c (.domStatus d 11) x.steppedOver (bit v 11)
      ppsMissing := s.w1c (.domStatus d 12) x.ppsMissing (bit v 12) }

/-- A write to a domain's registers; the staged words are the writing function's own (R242). -/
def timeWrite (f off v : Nat) (s : State) : State :=
  let d := off / 0x100
  if d < 8 then
    match off % 0x100 with
    | 0x0C => writeDomStatus d v s
    | 0x10 => s.updFnTime f d fun w => { w with incLo := v }
    | 0x14 => effIncrementHiWrite f d v s
    | 0x18 => s.updFnTime f d fun w => { w with adjLo := v }
    | 0x1C => s.updDom d fun x => { x with adjHi := v % 256 }
    | 0x20 => effAdjTicksWrite f d v s
    | 0x24 => s.updFnTime f d fun w => { w with stepFrac := v }
    | 0x28 => s.updFnTime f d fun w => { w with stepLo := v }
    | 0x2C => s.updFnTime f d fun w => { w with stepHi := v }
    | 0x30 => effGo f d v s
    | 0x34 => armRegister f d v s
    | 0x38 => effOffsetReport f d v s
    | _ => s
  else s

/-! ## Triggers (R326) -/

/-- A written 1 clears the skipped bit of a trigger. -/
def clearSkipped (base v : Nat) (s : State) : State :=
  (upTo 32).foldl (fun s b => if bit v b then s.updTrig (base + b) fun x =>
    { x with skippedBit := s.w1c (.skipped (base + b)) x.skippedBit true } else s) s

/-- A write to the time-trigger unit. -/
def trigWrite (f off v : Nat) (s : State) : State :=
  match off with
  | 0x04 => clearSkipped 0 v s
  | 0x10 => clearSkipped 32 v s
  | 0x14 => clearSkipped 64 v s
  | 0x18 => effOutArm f v s
  | 0x1C => effIntArm f false v s
  | 0x20 => effIntArm f true v s
  | _ => s

/-! ## Tine FIFOs (R277, R278) -/

/-- A write of DRAIN and BATCH by which BATCH + 1 records are held that were not requested before requests at once (R277;
DEDUCED, log entry 34). -/
def drainTurned (k : Nat) (was : Fifo) (s : State) : State :=
  let x := s.fifo k
  let s1 := s.updFifo k fun y => { y with since := drainSince s.cycle y.records.length y.batch y.since }
  if x.drain ∧ x.batch < x.records.length ∧ !(was.drain && decide (was.batch < x.records.length)) then
    oweRequest (17 + k) { at_ := s.cycle, bytes := 16 * (x.batch + 1) } s1
  else s1

/-- A write to a FIFO's registers. -/
def tineWrite (f off v : Nat) (s : State) : State :=
  let k := off / 0x100
  if k < 2 then
    match off % 0x100 with
    | 0x14 => s.updFifo k fun x => { x with overflowed := s.w1c (.overflowed k) x.overflowed (bit v 2) }
    | 0x18 =>
      let was := s.fifo k
      let s1 := drainTurned k was
        (s.updFifo k fun x => { x with drain := bit v 0, batch := field v 1 5, watermark := min 4096 (field v 6 13) })
      if bit v 19 then effFlush f k s1 else s1
    | _ => s
  else s

/-! ## Pairing and feeds (R459) -/

/-- A write to the pairing region; only PF0 writes here (R372). -/
def pairWrite (f off v : Nat) (s : State) : State :=
  if f ≠ 0 then denyWrite f s
  else
    match off with
    | 0x10 =>
      { s with feeds := { s.feeds with
        aLost := s.w1c (.feedLost 0) s.feeds.aLost (bit v 4), bLost := s.w1c (.feedLost 1) s.feeds.bLost (bit v 5) } }
    | 0x14 => s.updPair fun p =>
      { p with events := packBits 8 fun n => s.w1c (.pairEvent n) (bit p.events n) (bit v n) }
    | 0x18 =>
      if bit v 0 && pairPresent s then (if handoverAllowed s then yieldPair s else pairEvent 6 s) else s
    | _ => s

/-! ## The MSI-X table (R373) -/

/-- A word of an MSI-X entry: address low and high, data, and the mask bit of vector control. -/
def msixWord (word v : Nat) (e : MsixEntry) : MsixEntry :=
  match word with
  | 0 => { e with addr := setField e.addr 0 32 (v - v % 4) }
  | 1 => { e with addr := setField e.addr 32 32 v }
  | 2 => { e with data := v }
  | _ => { e with masked := bit v 0 }

/-- A write to BAR4: the MSI-X table; the pending bit array is read only. -/
def bar4Write (f off v : Nat) (s : State) : State :=
  if off < 0x400 then
    s.updPf f fun p => { p with table := AMap.upd {} p.table (off / 16) (msixWord (off % 16 / 4) v) }
  else s

/-! ## The register map (R370) -/

/-- A 32-bit write by region. An offset from 0x40_0000 upward is BAR4's, less 0x40_0000 (DEDUCED, log entry 33). -/
def bar0Write (f off v : Nat) (s : State) : State :=
  let o := off % 0x10000
  if 0x400000 ≤ off then (if off < 0x410000 then bar4Write f (off - 0x400000) v s else s)
  else
    match off / 0x10000 with
    | 0 => globalRegWrite f o v s
    | 1 => intRegWrite f o v s
    | 2 => dmaWrite f o v s
    | 3 => timeWrite f o v s
    | 4 => trigWrite f o v s
    | 5 => tineWrite f o v s
    | 6 => pairWrite f o v s
    | 7 => healthRegWrite f o v s
    | 8 => mboxRegWrite f o v s
    | _ => s

/-- A write of a good form: 32 bits, or 64 bits as two writes in ascending address order (R371). -/
def wideWrite (f off v width : Nat) (s : State) : State :=
  let s1 := bar0Write f off (v % 2 ^ 32) s
  if width = 8 then bar0Write f (off + 4) (v / 2 ^ 32 % 2 ^ 32) s1 else s1

/-- REGISTER_WRITE: a 32-bit or 64-bit write of BAR0, or of BAR4 from 0x40_0000 upward (R12, R369, R371); an offset beyond both
falls in no BAR. -/
def effRegisterWrite (f off v width : Nat) (s : State) : State :=
  if s.barReach f then
    if 0x410000 ≤ off then unsupported f true s
    else if goodAccess off width then wideWrite f off v width s
    else if off < 0x400000 then noteBadAccess f s
    else s
  else refuseBar f true s

/-! ## The meanings -/

/-- REGISTER_WRITE: answers the state after its effect. -/
def execRegisterWrite (f : Nat) (off : Nat) (v : Nat) (s : State) (width : Nat := 4) : Answer :=
  .next (effRegisterWrite f off v width s)

end Sys2Proof.Machine
end

