-- ==== Sys2Proof/Machine/Dispatch.lean ====
section
/-!
DEFINITION. The dispatch table: one arm for each command, in the order of the opcode table.
-/
namespace Sys2Proof.Machine

/-- The effect of a command on everything but the queue. -/
def exec (i : Instr) (s : State) : Host.Outcome State Fault Refusal :=
  match i with
  | .supplyInRange levels => Sys2Proof.Machine.execSupplyInRange s levels
  | .supplyOutOfRange rail level ns => Sys2Proof.Machine.execSupplyOutOfRange s rail level ns
  | .resetRelease straps pll words => Sys2Proof.Machine.execResetRelease straps pll s words
  | .memoryTrainingDone density ranks failed => Sys2Proof.Machine.execMemoryTrainingDone density ranks failed s
  | .loadComplete => Sys2Proof.Machine.execLoadComplete s
  | .checkComplete => Sys2Proof.Machine.execCheckComplete s
  | .start req => Sys2Proof.Machine.execStart req s
  | .stop req => Sys2Proof.Machine.execStop req s
  | .reload req => Sys2Proof.Machine.execReload req s
  | .resetCommand req => Sys2Proof.Machine.execResetCommand req s
  | .resetDelayExpiry => Sys2Proof.Machine.execResetDelayExpiry s
  | .safeCommand req => Sys2Proof.Machine.execSafeCommand req s
  | .startTaken => Sys2Proof.Machine.execStartTaken s
  | .safeEntryOnFault => Sys2Proof.Machine.execSafeEntryOnFault s
  | .napRead => Sys2Proof.Machine.execNapRead s
  | .napWrite => Sys2Proof.Machine.execNapWrite s
  | .napAbortTransfer => Sys2Proof.Machine.execNapAbortTransfer s
  | .segmentTimeout req tr => Sys2Proof.Machine.execSegmentTimeout req tr s
  | .bar2Read f off width => Sys2Proof.Machine.execBar2Read f off width s
  | .bar2Write f off width value => Sys2Proof.Machine.execBar2Write f off width value s
  | .failCountClear f => Sys2Proof.Machine.execFailCountClear f s
  | .entryWrite req idx sub v => Sys2Proof.Machine.execEntryWrite req idx sub v s
  | .selectionWrite req idx sub v => Sys2Proof.Machine.execSelectionWrite req idx sub v s
  | .read req idx => Sys2Proof.Machine.execRead req idx s
  | .write req idx => Sys2Proof.Machine.execWrite req idx s
  | .delete req idx => Sys2Proof.Machine.execDelete req idx s
  | .next req idx => Sys2Proof.Machine.execNext req idx s
  | .keyWrite req key b => Sys2Proof.Machine.execKeyWrite req key b s
  | .imageUpload req bank b => Sys2Proof.Machine.execImageUpload req bank b s
  | .imageRead req bank => Sys2Proof.Machine.execImageRead req bank s
  | .commit req => Sys2Proof.Machine.execCommit req s
  | .discard req => Sys2Proof.Machine.execDiscard req s
  | .cancel req => Sys2Proof.Machine.execCancel req s
  | .commitStepDone readBackOk => Sys2Proof.Machine.execCommitStepDone readBackOk s
  | .cutover => Sys2Proof.Machine.execCutover s
  | .bankSeal => Sys2Proof.Machine.execBankSeal s
  | .epochRetire => Sys2Proof.Machine.execEpochRetire s
  | .retireLimitExpiry => Sys2Proof.Machine.execRetireLimitExpiry s
  | .linkUp p => Sys2Proof.Machine.execLinkUp p s
  | .linkDown p cause => Sys2Proof.Machine.execLinkDown p cause s
  | .linkUpHoldExpiry p => Sys2Proof.Machine.execLinkUpHoldExpiry p s
  | .linkDownHoldExpiry p => Sys2Proof.Machine.execLinkDownHoldExpiry p s
  | .anResolution p ability => Sys2Proof.Machine.execAnResolution p ability s
  | .anFailure p ability => Sys2Proof.Machine.execAnFailure p ability s
  | .frameReceived p smd b err quarter corrected bad => Sys2Proof.Machine.execFrameReceived p smd b err quarter s corrected bad
  | .ingressDecision id => Sys2Proof.Machine.execIngressDecision id s
  | .receivedAndChecked id => Sys2Proof.Machine.execReceivedAndChecked id s
  | .learnApply => Sys2Proof.Machine.execLearnApply s
  | .ageingSweep => Sys2Proof.Machine.execAgeingSweep s
  | .flushPort req p => Sys2Proof.Machine.execFlushPort req p s
  | .unblockFilter req k => Sys2Proof.Machine.execUnblockFilter req k s
  | .resetGate req k => Sys2Proof.Machine.execResetGate req k s
  | .pauseReceived p quanta => Sys2Proof.Machine.execPauseReceived p quanta s
  | .pauseExpiry p => Sys2Proof.Machine.execPauseExpiry p s
  | .frameSelected p hdr => Sys2Proof.Machine.execFrameSelected p hdr s
  | .frameTransmitted p body => Sys2Proof.Machine.execFrameTransmitted p body s
  | .verifyFrameReceived p => Sys2Proof.Machine.execVerifyFrameReceived p s
  | .respondFrameReceived p => Sys2Proof.Machine.execRespondFrameReceived p s
  | .verifyTimeExpiry p => Sys2Proof.Machine.execVerifyTimeExpiry p s
  | .averageDepthUpdate => Sys2Proof.Machine.execAverageDepthUpdate s
  | .parityFence inst j => Sys2Proof.Machine.execParityFence inst j s
  | .fenceUnlink inst j => Sys2Proof.Machine.execFenceUnlink inst j s
  | .fenceRebuild inst j => Sys2Proof.Machine.execFenceRebuild inst j s
  | .resetRecovery req k => Sys2Proof.Machine.execResetRecovery req k s
  | .resetGeneration req k => Sys2Proof.Machine.execResetGeneration req k s
  | .recoveryResetTimer k => Sys2Proof.Machine.execRecoveryResetTimer k s
  | .memberResetTimer k m => Sys2Proof.Machine.execMemberResetTimer k m s
  | .latentTest k => Sys2Proof.Machine.execLatentTest k s
  | .latentReset k => Sys2Proof.Machine.execLatentReset k s
  | .incrementHiWrite f d v => Sys2Proof.Machine.execIncrementHiWrite f d v s
  | .adjTicksWrite f d v => Sys2Proof.Machine.execAdjTicksWrite f d v s
  | .adjWindowEnd d => Sys2Proof.Machine.execAdjWindowEnd d s
  | .go f d v => Sys2Proof.Machine.execGo f d v s
  | .stepApply d => Sys2Proof.Machine.execStepApply d s
  | .arm req f d v => Sys2Proof.Machine.execArm req f d v s
  | .offsetReport f d v => Sys2Proof.Machine.execOffsetReport f d v s
  | .timeFracRead f d => Sys2Proof.Machine.execTimeFracRead f d s
  | .ppsEdge input rising quarter => Sys2Proof.Machine.execPpsEdge input rising quarter s
  | .measureTimeout d => Sys2Proof.Machine.execMeasureTimeout d s
  | .ppsOutPulse k => Sys2Proof.Machine.execPpsOutPulse k s
  | .ppsOutWidthEnd k => Sys2Proof.Machine.execPpsOutWidthEnd k s
  | .tineRecordRead f fifo => Sys2Proof.Machine.execTineRecordRead f fifo s
  | .tineDrainTimer fifo => Sys2Proof.Machine.execTineDrainTimer fifo s
  | .flush f fifo => Sys2Proof.Machine.execFlush f fifo s
  | .gateEntryTransition p => Sys2Proof.Machine.execGateEntryTransition p s
  | .pageArrived p page ok => Sys2Proof.Machine.execPageArrived p page ok s
  | .holdIssue p => Sys2Proof.Machine.execHoldIssue p s
  | .gateConfigChange p => Sys2Proof.Machine.execGateConfigChange p s
  | .triggerStart n => Sys2Proof.Machine.execTriggerStart n s
  | .outArm f mask => Sys2Proof.Machine.execOutArm f mask s
  | .intArm f hi mask => Sys2Proof.Machine.execIntArm f hi mask s
  | .triggerInstant n => Sys2Proof.Machine.execTriggerInstant n s
  | .triggerPulseEnd n => Sys2Proof.Machine.execTriggerPulseEnd n s
  | .intTrig k => Sys2Proof.Machine.execIntTrig k s
  | .evInChange inst level quarter => Sys2Proof.Machine.execEvInChange inst level quarter s
  | .evCapture inst => Sys2Proof.Machine.execEvCapture inst s
  | .capStatusRead f inst => Sys2Proof.Machine.execCapStatusRead f inst s
  | .herdCycle => Sys2Proof.Machine.execHerdCycle s
  | .assemblyInstant => Sys2Proof.Machine.execAssemblyInstant s
  | .summationFrameRx port b fcsOk quarter => Sys2Proof.Machine.execSummationFrameRx port b fcsOk quarter s
  | .nullFrameRx port b fcsOk quarter => Sys2Proof.Machine.execNullFrameRx port b fcsOk s quarter
  | .rutBidRx port b fcsOk => Sys2Proof.Machine.execRutBidRx port b fcsOk s
  | .otherRingFrameRx port b fcsOk => Sys2Proof.Machine.execOtherRingFrameRx port b fcsOk s
  | .mailboxRetryExpiry sender => Sys2Proof.Machine.execMailboxRetryExpiry sender s
  | .ringPortLinkLost port => Sys2Proof.Machine.execRingPortLinkLost port s
  | .herdCp k => Sys2Proof.Machine.execHerdCp k s
  | .perstNAssert => Sys2Proof.Machine.execPerstNAssert s
  | .perstNRelease => Sys2Proof.Machine.execPerstNRelease s
  | .hotReset => Sys2Proof.Machine.execHotReset s
  | .functionLevelReset f => Sys2Proof.Machine.execFunctionLevelReset f s
  | .powerStateChange f d3 => Sys2Proof.Machine.execPowerStateChange f d3 s
  | .msixMessage f v => Sys2Proof.Machine.execMsixMessage f v s
  | .pmPme f => Sys2Proof.Machine.execPmPme f s
  | .completionTimeout tag => Sys2Proof.Machine.execCompletionTimeout tag s
  | .send f length => Sys2Proof.Machine.execSend f length s
  | .ack f => Sys2Proof.Machine.execAck f s
  | .bar0BadAccess f off width write => Sys2Proof.Machine.execBar0BadAccess f off width s write
  | .registerWrite f off v width => Sys2Proof.Machine.execRegisterWrite f off v s width
  | .run f c => Sys2Proof.Machine.execRun f c s
  | .pause f c v => Sys2Proof.Machine.execPause f c v s
  | .abort f c => Sys2Proof.Machine.execAbort f c s
  | .channelReset f c => Sys2Proof.Machine.execChannelReset f c s
  | .doorbell f c => Sys2Proof.Machine.execDoorbell f c s
  | .pollIntervalExpiry c => Sys2Proof.Machine.execPollIntervalExpiry c s
  | .descriptorFetched c r => Sys2Proof.Machine.execDescriptorFetched c r s
  | .burstGrant => Sys2Proof.Machine.execBurstGrant s
  | .burstReadDone tag r => Sys2Proof.Machine.execBurstReadDone tag r s
  | .writeAcknowledged c => Sys2Proof.Machine.execWriteAcknowledged c s
  | .descriptorComplete c => Sys2Proof.Machine.execDescriptorComplete c s
  | .hostTxFrame c => Sys2Proof.Machine.execHostTxFrame c s
  | .dmaTimeout c => Sys2Proof.Machine.execDmaTimeout c s
  | .lateCompletion tag => Sys2Proof.Machine.execLateCompletion tag s
  | .requestPulse l => Sys2Proof.Machine.execRequestPulse l s
  | .requestExpired l => Sys2Proof.Machine.execRequestExpired l s
  | .eventPulse l => Sys2Proof.Machine.execEventPulse l s
  | .claim f t => Sys2Proof.Machine.execClaim f t s
  | .eoi f t v => Sys2Proof.Machine.execEoi f t v s
  | .softSet f v => Sys2Proof.Machine.execSoftSet f v s
  | .countRead f src => Sys2Proof.Machine.execCountRead f src s
  | .sleep f t => Sys2Proof.Machine.execSleep f t s
  | .holdoffExpiry g => Sys2Proof.Machine.execHoldoffExpiry g s
  | .feedLineChange line level => Sys2Proof.Machine.execFeedLineChange line level s
  | .restoreHoldExpiry => Sys2Proof.Machine.execRestoreHoldExpiry s
  | .pairLaneChange lane up => Sys2Proof.Machine.execPairLaneChange lane up s
  | .heartbeatTx => Sys2Proof.Machine.execHeartbeatTx s
  | .heartbeatRx lane b => Sys2Proof.Machine.execHeartbeatRx lane b s
  | .pairLinkFrameError lane => Sys2Proof.Machine.execPairLinkFrameError lane s
  | .heartbeatTimeout => Sys2Proof.Machine.execHeartbeatTimeout s
  | .takeover => Sys2Proof.Machine.execTakeover s
  | .handover req => Sys2Proof.Machine.execHandover req s
  | .announcement => Sys2Proof.Machine.execAnnouncement s
  | .copyInstant => Sys2Proof.Machine.execCopyInstant s
  | .copyDeadline => Sys2Proof.Machine.execCopyDeadline s
  | .copyDataRx lane b => Sys2Proof.Machine.execCopyDataRx lane b s
  | .copyEndRx lane b => Sys2Proof.Machine.execCopyEndRx lane b s
  | .copyMissing => Sys2Proof.Machine.execCopyMissing s
  | .digestClose => Sys2Proof.Machine.execDigestClose s
  | .clearStatus req b inst => Sys2Proof.Machine.execClearStatus req b inst s
  | .clearHistory req b inst => Sys2Proof.Machine.execClearHistory req b inst s
  | .clearBoth req b inst => Sys2Proof.Machine.execClearBoth req b inst s
  | .histHiRead f b inst => Sys2Proof.Machine.execHistHiRead f b inst s
  | .faultLostRead f b inst => Sys2Proof.Machine.execFaultLostRead f b inst s
  | .faultRegisterScrub bad => Sys2Proof.Machine.execFaultRegisterScrub bad s
  | .aliveHalfPeriod core time mem => Sys2Proof.Machine.execAliveHalfPeriod core time mem s
  | .thermalSample readings => Sys2Proof.Machine.execThermalSample readings s
  | .supplyDroop rail level ns => Sys2Proof.Machine.execSupplyDroop rail s level ns
  | .marginReport lane mv => Sys2Proof.Machine.execMarginReport lane mv s
  | .ageingUpdate minute volts freq current => Sys2Proof.Machine.execAgeingUpdate minute volts freq current s
  | .healthCheckpoint => Sys2Proof.Machine.execHealthCheckpoint s
  | .zqCalibration => Sys2Proof.Machine.execZqCalibration s
  | .dqsOscillatorRead c drift => Sys2Proof.Machine.execDqsOscillatorRead c drift s
  | .mr4Read c v => Sys2Proof.Machine.execMr4Read c v s
  | .patrolScrub addr corrected uncorrectable => Sys2Proof.Machine.execPatrolScrub addr corrected uncorrectable s
  | .refclkLoss => Sys2Proof.Machine.execRefclkLoss s
  | .pllUnlock k => Sys2Proof.Machine.execPllUnlock k s
  | .synceSquelch k => Sys2Proof.Machine.execSynceSquelch k s
  | .tapReset => Sys2Proof.Machine.execTapReset s
  | .tapInstruction code scan => Sys2Proof.Machine.execTapInstruction code s scan
  | .tineLostRead f fifo => Sys2Proof.Machine.execTineLostRead f fifo s
  | .copyEndMarkerSent => Sys2Proof.Machine.execCopyEndMarkerSent s
  | .flushComplete => Sys2Proof.Machine.execFlushComplete s
  | .pcieLinkUp width speed => Sys2Proof.Machine.execPcieLinkUp width speed s
  | .pcieConfigReady => Sys2Proof.Machine.execPcieConfigReady s
  | .configurationWrite f c => Sys2Proof.Machine.execConfigurationWrite f c s
  | .lpiReceived p => Sys2Proof.Machine.execLpiReceived p s
  | .rateChangeDue d => Sys2Proof.Machine.execRateChangeDue d s

end Sys2Proof.Machine
end

