-- ==== Sys2Proof/Machine/Idle.lean ====
section
/-!
DEFINITION. The core-clock cycle that passes when no command waits (DESIGN CHOICE, log entry 4).
-/
namespace Sys2Proof.Machine

/-- The ports with a verify or respond frame due. -/
def owing (s : State) : List Nat := (s.ports.filter fun e => !e.2.owed.isEmpty).map (·.1)

/-- The end of a core cycle: the waiting of the queues' heads counts (R236), empty queues lose positive credit (R227), and
with the last cycle of a tick the departures of that tick are stamped (R260). -/
def endCycle (s : State) : State :=
  let s1 := endShapers ((busyQueues s).foldl tickHead s)
  if tickOf s.cycle < tickOf (s.cycle + 1) then departures s1 else s1

/-- One cycle: what its end settles, then the domains' ticks, the shapers' refill (R225), the verify and respond frames that
waited, the host reads that the read limit now lets out (R376), and the new cycle's scan of the interrupt targets (R416). -/
def idle (s : State) : State :=
  if isAlive s.chip.mode then
    let s1 := issueDue (growFrames (tickShapers (idleCycle (noteWakes (endCycle s)))))
    scanTargets (kickReads ((owing s1).foldl (fun s p => sendControl p s) s1))
  else idleCycle s

end Sys2Proof.Machine
end

