-- ==== Sys2Proof/WellFormed.lean ====
section
/-!
DEFINITION. Which commands can come from outside: the operand ranges that the spec's numbering of functions, ports,
domains, entries and bytes sets (R2, R8, R34, R40, R53). The meanings do not rest on it: a command outside it leaves the
state as it is, or answers the code of R49.
-/
namespace Sys2Proof

/-- A path of R40 and R53 by its numbers. -/
def Path.wf : Path → Bool
  | .mailbox f => f < 4
  | .bar2 f => f < 4
  | .mgt m => m < 2
  | .line p => p < 256
  | .ring => true

/-- A requester: KEY_ID at most 16, 0 over the window, and over other paths than the PCIe mailbox not 0 (R53). -/
def Requester.wf (r : Requester) : Bool :=
  r.path.wf &&
    match r.path with
    | .mailbox _ => decide (r.key ≤ 16)
    | .bar2 _ => r.key == 0
    | _ => decide (1 ≤ r.key ∧ r.key ≤ 16)

/-- A value of an entry: at most 96 bits, or at most 16 MiB (R35, R55). -/
def Val.wf : Val → Bool
  | .num n => decide (n < 2 ^ 96)
  | .oct b => decide (b.length ≤ 16777216)

/-- A port with a MAC: a line port or a management port (R2). -/
def isMacPort (p : Nat) : Bool := decide (p < 256) || p == 260 || p == 261

/-- A port whose link comes up: a MAC port or a ring port (264, 265; DEDUCED, log entry 20). -/
def isLinkPort (p : Nat) : Bool := isMacPort p || p == 264 || p == 265

/-- A 32-bit register value. -/
def isWord (v : Nat) : Bool := decide (v < 2 ^ 32)

/-- A frame without its FCS has at most 16,000 bytes (R123). -/
def isFrame (b : Bytes) : Bool := decide (b.length ≤ 16000)

/-- The numbers of a delimiter: frame counts and fragment counts are below 4 (R114). -/
def Smd.wf : Smd → Bool
  | .first n _ => decide (n < 4)
  | .more n k _ => decide (n < 4 ∧ k < 4)
  | _ => true

/-- A crosspoint's slices (R3, R191). -/
def isCross (i j : Nat) : Bool := decide (i < 17 ∧ j < 17)

/-- The operands of a configuration write fit their fields. -/
def CfgField.wf : CfgField → Bool
  | .bar k v => decide (k < 3 ∧ v < 2 ^ 64)
  | .completionTimeout r _ => decide (r < 16)
  | .errorReporting e => decide (e < 16)
  | .deviceStatusClear m => decide (m < 16)
  | .aerClear u c => isWord u && isWord c
  | .aerMasks u v c => isWord u && isWord v && isWord c
  | _ => true

/-- The operands of a command lie in the ranges of the spec's numbering. -/
def wellFormed : Instr → Bool
  | .supplyInRange l => l.length == 8
  | .supplyOutOfRange r _ _ => decide (r < 8)
  | .resetRelease straps pll words => decide (straps < 2 ^ 11 ∧ pll < 2 ^ 32) && words.all fun w => decide (w.addr < 2 ^ 26)
  | .memoryTrainingDone density ranks failed => decide (density < 256 ∧ ranks < 256) && (failed.all fun c => decide (c < 8))
  | .loadComplete => true
  | .checkComplete => true
  | .start r => r.wf
  | .stop r => r.wf
  | .reload r => r.wf
  | .resetCommand r => r.wf
  | .resetDelayExpiry => true
  | .safeCommand r => r.wf
  | .startTaken => true
  | .safeEntryOnFault => true
  | .napRead => true
  | .napWrite => true
  | .napAbortTransfer => true
  | .segmentTimeout r t => r.wf && decide (t < 65536)
  | .bar2Read f off w => decide (f < 4 ∧ off < 2 ^ 32 ∧ 1 ≤ w ∧ w ≤ 8)
  | .bar2Write f off w v => decide (f < 4 ∧ off < 2 ^ 32 ∧ 1 ≤ w ∧ w ≤ 8 ∧ v < 2 ^ (8 * w))
  | .failCountClear f => decide (f < 4)
  | .entryWrite r i k v => r.wf && decide (i < 65536 ∧ k < 256) && v.wf
  | .selectionWrite r i k v => r.wf && decide (i < 65536 ∧ 1 ≤ k ∧ k ≤ 16) && v.wf
  | .read r i => r.wf && decide (i < 65536)
  | .write r i => r.wf && decide (i < 65536)
  | .delete r i => r.wf && decide (i < 65536)
  | .next r i => r.wf && decide (i < 65536)
  | .keyWrite r k b => r.wf && decide (1 ≤ k ∧ k ≤ 16 ∧ b.length = 32)
  | .imageUpload r b i => r.wf && decide (b < 2 ∧ i.length ≤ 16777216)
  | .imageRead r b => r.wf && decide (b < 2)
  | .commit r => r.wf
  | .discard r => r.wf
  | .cancel r => r.wf
  | .commitStepDone _ => true
  | .cutover => true
  | .bankSeal => true
  | .epochRetire => true
  | .retireLimitExpiry => true
  | .linkUp p => isLinkPort p
  | .linkDown p c => isMacPort p && decide (c < 256)
  | .linkUpHoldExpiry p => isMacPort p
  | .linkDownHoldExpiry p => isMacPort p
  | .anResolution p a => isMacPort p && decide (a < 2 ^ 48)
  | .anFailure p a => isMacPort p && decide (a < 2 ^ 48)
  | .frameReceived p smd b _ q _ _ => isMacPort p && smd.wf && isFrame b && decide (q < 4)
  | .ingressDecision _ => true
  | .receivedAndChecked _ => true
  | .learnApply => true
  | .ageingSweep => true
  | .flushPort r p => r.wf && decide (p < 65536)
  | .unblockFilter r k => r.wf && decide (k < 65536)
  | .resetGate r k => r.wf && decide (k < 65536)
  | .pauseReceived p q => isMacPort p && decide (q < 65536)
  | .pauseExpiry p => isMacPort p
  | .frameSelected p _ => decide (p < 263)
  | .frameTransmitted p _ => decide (p < 263)
  | .verifyFrameReceived p => decide (p < 256)
  | .respondFrameReceived p => decide (p < 256)
  | .verifyTimeExpiry p => decide (p < 256)
  | .averageDepthUpdate => true
  | .parityFence i j => isCross i j
  | .fenceUnlink i j => isCross i j
  | .fenceRebuild i j => isCross i j
  | .resetRecovery r k => r.wf && isWord k
  | .resetGeneration r k => r.wf && isWord k
  | .recoveryResetTimer k => isWord k
  | .memberResetTimer k m => isWord k && decide (m < 4)
  | .latentTest k => isWord k
  | .latentReset k => isWord k
  | .incrementHiWrite f d v => decide (f < 4 ∧ d < 8) && isWord v
  | .adjTicksWrite f d v => decide (f < 4 ∧ d < 8) && isWord v
  | .adjWindowEnd d => decide (d < 8)
  | .go f d v => decide (f < 4 ∧ d < 8) && isWord v
  | .stepApply d => decide (d < 8)
  | .arm r f d v => (r.all fun x => x.wf) && decide (f < 4 ∧ d < 8) && isWord v
  | .offsetReport f d v => decide (f < 4 ∧ d < 8) && isWord v
  | .timeFracRead f d => decide (f < 4 ∧ d < 8)
  | .ppsEdge i _ q => decide (i < 2 ∧ q < 4)
  | .measureTimeout d => decide (d < 8)
  | .ppsOutPulse k => decide (k < 2)
  | .ppsOutWidthEnd k => decide (k < 2)
  | .tineRecordRead f k => decide (f < 4 ∧ k < 2)
  | .tineDrainTimer k => decide (k < 2)
  | .flush f k => decide (f < 4 ∧ k < 2)
  | .gateEntryTransition p => decide (p < 263)
  | .pageArrived p g _ => decide (p < 263 ∧ g < 65536)
  | .holdIssue p => decide (p < 263)
  | .gateConfigChange p => decide (p < 263)
  | .triggerStart n => decide (n < 96)
  | .outArm f m => decide (f < 4) && isWord m
  | .intArm f _ m => decide (f < 4) && isWord m
  | .triggerInstant n => decide (n < 96)
  | .triggerPulseEnd n => decide (n < 32)
  | .intTrig k => decide (k < 64)
  | .evInChange i _ q => decide (i < 16 ∧ q < 4)
  | .evCapture i => decide (i < 16)
  | .capStatusRead f i => decide (f < 4 ∧ i < 16)
  | .herdCycle => true
  | .assemblyInstant => true
  | .summationFrameRx p b _ q => decide (p < 2 ∧ q < 4) && isFrame b
  | .nullFrameRx p b _ q => decide (p < 2 ∧ q < 4) && isFrame b
  | .rutBidRx p b _ => decide (p < 2) && isFrame b
  | .otherRingFrameRx p b _ => decide (p < 2) && isFrame b
  | .mailboxRetryExpiry n => decide (n < 256)
  | .ringPortLinkLost p => decide (p < 2)
  | .herdCp k => decide (k < 16)
  | .perstNAssert => true
  | .perstNRelease => true
  | .hotReset => true
  | .functionLevelReset f => decide (f < 4)
  | .powerStateChange f _ => decide (f < 4)
  | .msixMessage f v => decide (f < 4 ∧ v < 64)
  | .pmPme f => decide (f < 4)
  | .completionTimeout t => decide (t < 4096)
  | .send f n => decide (f < 4 ∧ n < 2048)
  | .ack f => decide (f < 4)
  | .bar0BadAccess f off w _ => decide (f < 4 ∧ off < 0x400000 ∧ 1 ≤ w ∧ w ≤ 4096)
  | .registerWrite f off v w => decide (f < 4 ∧ off < 2 ^ 32) && (w == 4 || w == 8) && decide (off % w = 0 ∧ v < 2 ^ (8 * w))
  | .run f c => decide (f < 4 ∧ c < 32)
  | .pause f c _ => decide (f < 4 ∧ c < 32)
  | .abort f c => decide (f < 4 ∧ c < 32)
  | .channelReset f c => decide (f < 4 ∧ c < 32)
  | .doorbell f c => decide (f < 4 ∧ c < 32)
  | .pollIntervalExpiry c => decide (c < 31)
  | .descriptorFetched c _ => decide (c < 31)
  | .burstGrant => true
  | .burstReadDone t _ => decide (t < 4096)
  | .writeAcknowledged c => decide (c < 31)
  | .descriptorComplete c => decide (c < 31)
  | .hostTxFrame c => decide (c < 31)
  | .dmaTimeout c => decide (c < 32)
  | .lateCompletion t => decide (t < 4096)
  | .requestPulse l => decide (l < 128)
  | .requestExpired l => decide (l < 128)
  | .eventPulse l => decide (l < 256)
  | .claim f t => decide (f < 4 ∧ t < 64)
  | .eoi f t v => decide (f < 4 ∧ t < 64) && isWord v
  | .softSet f v => decide (f < 4) && isWord v
  | .countRead f n => decide (f < 4 ∧ n < 2048)
  | .sleep f t => decide (f < 4 ∧ t < 64)
  | .holdoffExpiry g => decide (g < 64)
  | .feedLineChange l _ => decide (l < 2)
  | .restoreHoldExpiry => true
  | .pairLaneChange l _ => decide (l < 2)
  | .heartbeatTx => true
  | .heartbeatRx l b => decide (l < 2) && isFrame b
  | .pairLinkFrameError l => decide (l < 2)
  | .heartbeatTimeout => true
  | .takeover => true
  | .handover r => r.wf
  | .announcement => true
  | .copyInstant => true
  | .copyDeadline => true
  | .copyDataRx l b => decide (l < 2) && isFrame b
  | .copyEndRx l b => decide (l < 2) && isFrame b
  | .copyMissing => true
  | .digestClose => true
  | .clearStatus r b i => r.wf && decide (b < 65536 ∧ i < 256)
  | .clearHistory r b i => r.wf && decide (b < 65536 ∧ i < 256)
  | .clearBoth r b i => r.wf && decide (b < 65536 ∧ i < 256)
  | .histHiRead f b i => decide (f < 4 ∧ 1 ≤ b ∧ b ≤ 22 ∧ i < 32)
  | .faultLostRead f b i => decide (f < 4 ∧ 1 ≤ b ∧ b ≤ 22 ∧ i < 32)
  | .faultRegisterScrub bad => bad.all fun k => decide (k < 1024)
  | .aliveHalfPeriod _ _ _ => true
  | .thermalSample l => l.length == 32
  | .supplyDroop r _ _ => decide (r < 8)
  | .marginReport l mv => decide (l < 256 ∧ mv < 65536)
  | .ageingUpdate _ v f c => v.length == 64 && f.length == 128 && c.length == 8
  | .healthCheckpoint => true
  | .zqCalibration => true
  | .dqsOscillatorRead c _ => decide (c < 8)
  | .mr4Read c v => decide (c < 8 ∧ v < 256)
  | .patrolScrub a _ _ => decide (a < 2 ^ 34)
  | .refclkLoss => true
  | .pllUnlock k => decide (k < 128)
  | .synceSquelch k => decide (k < 2)
  | .tapReset => true
  | .tapInstruction c scan => decide (c < 256) && scan.all fun x => decide (x.levels < 2 ^ 1944)
  | .tineLostRead f k => decide (f < 4 ∧ k < 2)
  | .copyEndMarkerSent => true
  | .flushComplete => true
  | .pcieLinkUp w sp => decide (w ≤ 32 ∧ sp ≤ 6)
  | .pcieConfigReady => true
  | .configurationWrite f c => decide (f < 4) && c.wf
  | .lpiReceived p => decide (p < 256)
  | .rateChangeDue d => decide (d < 8)

end Sys2Proof
end

