-- ==== Sys2Proof/Safety.lean ====
section
/-!
DEFINITION. The terms that statements use: the parts of the state, what it means that a command leaves a part as it is,
and the invariant of every step.
-/
namespace Sys2Proof.Machine

/-- The parts of the state: its fields, with the request to enter SAFE (R468) apart from the other registers of the device
state. -/
inductive Part where
  | pending | cycle | free | out | ident | chip | mram | cfg | nap | cnt | fabric | ports | fdb | psfp | gates | tine
  | dma | feeds | pair | linkDelay | frer | time | trig | herd | intc | faults | health | pcie | mem | pins | safeRequest
  | hits
deriving DecidableEq, Repr

/-- A part is the same in two states. -/
def Part.Same : Part → State → State → Prop
  | .pending, s, t => t.pending = s.pending
  | .cycle, s, t => t.cycle = s.cycle
  | .free, s, t => t.free = s.free
  | .out, s, t => t.out = s.out
  | .ident, s, t => t.ident = s.ident
  | .chip, s, t => { t.chip with safePending := none } = { s.chip with safePending := none }
  | .mram, s, t => t.mram = s.mram
  | .cfg, s, t => t.cfg = s.cfg
  | .nap, s, t => t.nap = s.nap
  | .cnt, s, t => t.cnt = s.cnt
  | .fabric, s, t => t.fabric = s.fabric
  | .ports, s, t => t.ports = s.ports
  | .fdb, s, t => t.fdb = s.fdb
  | .psfp, s, t => t.psfp = s.psfp
  | .gates, s, t => t.gates = s.gates
  | .tine, s, t => t.tine = s.tine
  | .dma, s, t => t.dma = s.dma
  | .feeds, s, t => t.feeds = s.feeds
  | .pair, s, t => t.pair = s.pair
  | .linkDelay, s, t => t.linkDelay = s.linkDelay
  | .frer, s, t => t.frer = s.frer
  | .time, s, t => t.time = s.time
  | .trig, s, t => t.trig = s.trig
  | .herd, s, t => t.herd = s.herd
  | .intc, s, t => t.intc = s.intc
  | .faults, s, t => t.faults = s.faults
  | .health, s, t => t.health = s.health
  | .pcie, s, t => t.pcie = s.pcie
  | .mem, s, t => t.mem = s.mem
  | .pins, s, t => t.pins = s.pins
  | .safeRequest, s, t => t.chip.safePending = s.chip.safePending
  | .hits, s, t => t.hits = s.hits

/-- What every step keeps: device memory and the Herd Ring TX memory in canonical form, at most 64 requests in the engine's
queue (R40) and eight open transfers (R55), at most 4,096 records in a Tine FIFO (R276), at most 8 entries in a fault
history (R462). -/
structure Inv (s : State) : Prop where
  mem : Memory.wf s.mem.cells = true
  txMem : Memory.wf s.herd.txMem = true
  queue : s.nap.queue.length ≤ 64
  transfers : s.nap.transfers.length ≤ 8
  fifos : ∀ x ∈ s.tine, x.records.length ≤ 4096
  history : ∀ e ∈ s.faults, e.2.hist.length ≤ 8

/-- The parts that a write through the object dictionary may change: COMMAND, COMMIT and the staged and immediate entries
reach most units. -/
def dictionaryParts : List Part :=
  [.free, .out, .chip, .mram, .cfg, .nap, .cnt, .fabric, .ports, .fdb, .psfp, .gates, .dma, .pair, .linkDelay,
    .frer, .time, .trig, .herd, .intc, .faults, .health, .pcie, .pins, .safeRequest, .hits]

/-- What a full-device reset may change: everything but the queue, the cycle count, the free values drawn, the record of
outputs, the identity and the configuration memory (R506). -/
def resetParts : List Part :=
  [.chip, .cfg, .nap, .cnt, .fabric, .ports, .fdb, .psfp, .gates, .tine, .dma, .feeds, .pair, .linkDelay, .frer,
    .time, .trig, .herd, .intc, .faults, .health, .pcie, .mem, .pins, .safeRequest, .hits]

/-- The parts of the state that a command may change, in any state and with any operands; every other part stays as it is. -/
def changes : Instr → List Part
  | .supplyInRange _ => resetParts
  | .supplyOutOfRange _ _ _ => resetParts
  | .resetRelease _ _ _ =>
    [.out, .chip, .mram, .cfg, .nap, .cnt, .fabric, .ports, .fdb, .psfp, .gates, .dma, .pair, .linkDelay, .frer,
       .time, .trig, .herd, .intc, .faults, .health, .pcie, .pins, .safeRequest, .hits]
  | .memoryTrainingDone _ _ _ => [.free, .intc, .faults, .mem, .safeRequest, .hits]
  | .loadComplete =>
    [.out, .chip, .mram, .cfg, .nap, .cnt, .fabric, .ports, .fdb, .psfp, .gates, .dma, .feeds, .pair, .linkDelay,
       .frer, .time, .trig, .herd, .intc, .faults, .health, .pcie, .mem, .pins, .safeRequest, .hits]
  | .checkComplete =>
    [.out, .chip, .mram, .cfg, .nap, .cnt, .fabric, .ports, .fdb, .psfp, .gates, .dma, .feeds, .pair, .linkDelay,
       .frer, .time, .trig, .herd, .intc, .faults, .health, .pcie, .mem, .pins, .safeRequest, .hits]
  | .start _ => dictionaryParts
  | .stop _ => dictionaryParts
  | .reload _ => dictionaryParts
  | .resetCommand _ => dictionaryParts
  | .resetDelayExpiry => .mram :: resetParts
  | .safeCommand _ => dictionaryParts
  | .startTaken =>
    [.out, .chip, .mram, .cfg, .nap, .cnt, .fabric, .ports, .fdb, .psfp, .gates, .dma, .pair, .linkDelay, .frer,
       .time, .trig, .herd, .intc, .faults, .pcie, .pins, .safeRequest, .hits]
  | .safeEntryOnFault =>
    [.out, .chip, .mram, .cfg, .nap, .cnt, .fabric, .ports, .fdb, .psfp, .gates, .dma, .pair, .linkDelay, .frer,
       .time, .trig, .herd, .intc, .faults, .health, .pcie, .pins, .safeRequest, .hits]
  | .napRead =>
    [.out, .chip, .mram, .cfg, .nap, .cnt, .fabric, .ports, .fdb, .psfp, .gates, .dma, .pair, .linkDelay, .frer,
       .time, .trig, .herd, .intc, .faults, .health, .pcie, .pins, .safeRequest, .hits]
  | .napWrite =>
    [.out, .chip, .mram, .cfg, .nap, .cnt, .fabric, .ports, .fdb, .psfp, .gates, .dma, .pair, .linkDelay, .frer,
       .time, .trig, .herd, .intc, .faults, .health, .pcie, .pins, .safeRequest, .hits]
  | .napAbortTransfer =>
    [.out, .chip, .mram, .cfg, .nap, .cnt, .fabric, .ports, .fdb, .psfp, .gates, .dma, .pair, .linkDelay, .frer,
       .time, .trig, .herd, .intc, .faults, .health, .pcie, .pins, .safeRequest, .hits]
  | .segmentTimeout _ _ => [.nap, .cnt]
  | .bar2Read _ _ _ => dictionaryParts
  | .bar2Write _ _ _ _ => dictionaryParts
  | .failCountClear _ => dictionaryParts
  | .entryWrite _ _ _ _ => dictionaryParts
  | .selectionWrite _ _ _ _ => dictionaryParts
  | .read _ _ => dictionaryParts
  | .write _ _ => dictionaryParts
  | .delete _ _ => dictionaryParts
  | .next _ _ => dictionaryParts
  | .keyWrite _ _ _ => dictionaryParts
  | .imageUpload _ _ _ => dictionaryParts
  | .imageRead _ _ => dictionaryParts
  | .commit _ => dictionaryParts
  | .discard _ => dictionaryParts
  | .cancel _ => dictionaryParts
  | .commitStepDone _ =>
    [.out, .chip, .mram, .cfg, .nap, .cnt, .fabric, .ports, .fdb, .psfp, .gates, .dma, .feeds, .pair, .linkDelay,
       .frer, .time, .trig, .herd, .intc, .faults, .health, .pcie, .mem, .pins, .safeRequest, .hits]
  | .cutover =>
    [.out, .cfg, .cnt, .fabric, .ports, .fdb, .psfp, .gates, .dma, .feeds, .pair, .frer, .time, .trig, .herd,
       .intc, .faults, .health, .pcie, .mem, .safeRequest, .hits]
  | .bankSeal => [.mram, .cfg]
  | .epochRetire => [.cfg, .frer]
  | .retireLimitExpiry => [.cfg, .cnt, .fabric, .frer]
  | .linkUp _ => [.out, .cnt, .ports, .herd]
  | .linkDown _ _ => [.cnt, .ports, .intc, .faults, .health, .safeRequest, .hits]
  | .linkUpHoldExpiry _ => [.cnt, .ports, .intc]
  | .linkDownHoldExpiry _ => [.cnt, .ports, .intc]
  | .anResolution _ _ => [.out, .cnt, .ports]
  | .anFailure _ _ => [.out, .cnt, .ports]
  | .frameReceived _ _ _ _ _ _ _ => [.out, .mram, .cnt, .fabric, .ports, .pair, .intc, .hits]
  | .ingressDecision _ => [.cnt, .fabric, .psfp]
  | .receivedAndChecked _ =>
    [.cnt, .fabric, .fdb, .psfp, .tine, .dma, .pair, .frer, .intc, .faults, .safeRequest, .hits]
  | .learnApply => [.cnt, .fdb]
  | .ageingSweep => [.fdb]
  | .flushPort _ _ => dictionaryParts
  | .unblockFilter _ _ => dictionaryParts
  | .resetGate _ _ => dictionaryParts
  | .pauseReceived _ _ => [.cnt, .ports]
  | .pauseExpiry _ => [.ports]
  | .frameSelected _ _ =>
    [.out, .cnt, .fabric, .ports, .gates, .dma, .pair, .frer, .intc, .faults, .pcie, .safeRequest, .hits]
  | .frameTransmitted _ _ =>
    [.out, .mram, .nap, .cnt, .fabric, .ports, .tine, .dma, .pair, .herd, .intc, .faults, .pcie, .mem,
       .safeRequest, .hits]
  | .verifyFrameReceived _ => [.out, .cnt, .ports]
  | .respondFrameReceived _ => [.cnt, .ports]
  | .verifyTimeExpiry _ => [.out, .cnt, .ports]
  | .averageDepthUpdate => [.fabric]
  | .parityFence _ _ => [.fabric, .intc, .faults, .safeRequest, .hits]
  | .fenceUnlink _ _ => [.cnt, .fabric]
  | .fenceRebuild _ _ => [.cnt, .fabric]
  | .resetRecovery _ _ => dictionaryParts
  | .resetGeneration _ _ => dictionaryParts
  | .recoveryResetTimer _ => [.cnt, .frer]
  | .memberResetTimer _ _ => [.cnt, .frer]
  | .latentTest _ => [.cnt, .frer, .intc, .faults, .safeRequest, .hits]
  | .latentReset _ => [.cnt, .frer]
  | .incrementHiWrite _ _ _ => [.free, .out, .cnt, .time, .pcie, .hits]
  | .adjTicksWrite _ _ _ => [.free, .out, .cnt, .time, .pcie, .hits]
  | .adjWindowEnd _ => [.time]
  | .go _ _ _ => [.free, .out, .cnt, .time, .pcie, .hits]
  | .stepApply _ =>
    [.cfg, .cnt, .fabric, .ports, .gates, .dma, .pair, .time, .trig, .herd, .intc, .faults, .safeRequest, .hits]
  | .arm _ _ _ _ => dictionaryParts
  | .offsetReport _ _ _ => [.free, .out, .cnt, .time, .intc, .faults, .pcie, .safeRequest, .hits]
  | .timeFracRead _ _ => [.free, .out, .time, .pcie]
  | .ppsEdge _ _ _ => [.cnt, .time, .intc, .faults, .safeRequest, .hits]
  | .measureTimeout _ => [.cnt, .time, .intc, .faults, .safeRequest, .hits]
  | .ppsOutPulse _ => [.time]
  | .ppsOutWidthEnd _ => [.time]
  | .tineRecordRead _ _ => [.free, .out, .cnt, .tine, .dma, .intc, .pcie, .hits]
  | .tineDrainTimer _ => [.tine, .dma]
  | .flush _ _ => [.free, .out, .cnt, .tine, .dma, .intc, .pcie, .hits]
  | .gateEntryTransition _ => [.cnt, .fabric, .ports, .gates, .dma, .pair, .intc, .faults, .safeRequest, .hits]
  | .pageArrived _ _ _ => [.cnt, .gates]
  | .holdIssue _ => [.cnt, .ports, .gates]
  | .gateConfigChange _ => [.cnt, .fabric, .ports, .gates, .dma, .pair, .intc, .faults, .safeRequest, .hits]
  | .triggerStart _ => [.cnt, .trig, .intc, .faults, .safeRequest, .hits]
  | .outArm _ _ => [.free, .out, .cnt, .trig, .intc, .faults, .pcie, .safeRequest, .hits]
  | .intArm _ _ _ => [.free, .out, .cnt, .trig, .intc, .faults, .pcie, .safeRequest, .hits]
  | .triggerInstant _ => [.cnt, .trig, .intc, .faults, .safeRequest, .hits]
  | .triggerPulseEnd _ => [.trig]
  | .intTrig _ => [.cnt, .trig, .intc, .faults, .safeRequest, .hits]
  | .evInChange _ _ _ => [.cnt, .trig]
  | .evCapture _ => [.cnt, .tine, .dma, .trig, .intc, .faults, .safeRequest, .hits]
  | .capStatusRead _ _ => [.free, .out, .cnt, .trig, .intc, .pcie, .hits]
  | .herdCycle => [.out, .cnt, .herd, .intc]
  | .assemblyInstant => [.mram, .nap, .cnt, .pair, .time, .herd, .intc, .faults, .safeRequest, .hits]
  | .summationFrameRx _ _ _ _ =>
    [.free, .out, .mram, .nap, .cnt, .pair, .time, .herd, .intc, .faults, .safeRequest, .hits]
  | .nullFrameRx _ _ _ _ => [.free, .out, .mram, .nap, .cnt, .pair, .time, .herd, .intc, .faults, .safeRequest, .hits]
  | .rutBidRx _ _ _ => [.out, .cnt, .herd]
  | .otherRingFrameRx _ _ _ => [.cnt]
  | .mailboxRetryExpiry _ => [.cnt, .herd]
  | .ringPortLinkLost _ => [.out, .cnt, .herd, .intc, .faults, .safeRequest, .hits]
  | .herdCp _ => [.cnt, .herd, .intc]
  | .perstNAssert => [.nap, .cnt, .dma, .time, .intc, .faults, .pcie, .safeRequest, .hits]
  | .perstNRelease => [.pcie]
  | .hotReset => [.nap, .cnt, .dma, .time, .intc, .faults, .pcie, .safeRequest, .hits]
  | .functionLevelReset _ => [.out, .nap, .cnt, .dma, .time, .intc, .faults, .pcie, .safeRequest, .hits]
  | .powerStateChange _ _ => [.out, .pcie]
  | .msixMessage _ _ => [.out, .pcie]
  | .pmPme _ => [.out, .pcie]
  | .completionTimeout _ => [.free, .out, .cnt, .dma, .intc, .faults, .pcie, .safeRequest, .hits]
  | .send _ _ => [.free, .out, .nap, .cnt, .intc, .pcie, .hits]
  | .ack _ => [.free, .out, .nap, .pcie]
  | .bar0BadAccess _ _ _ _ => [.free, .out, .pcie, .hits]
  | .registerWrite _ _ _ _ =>
    [.free, .out, .nap, .cnt, .tine, .dma, .feeds, .pair, .time, .trig, .intc, .faults, .health, .pcie,
       .safeRequest, .hits]
  | .run _ _ => [.free, .out, .cnt, .dma, .intc, .faults, .pcie, .safeRequest, .hits]
  | .pause _ _ _ => [.free, .out, .cnt, .dma, .intc, .faults, .pcie, .safeRequest, .hits]
  | .abort _ _ => [.free, .out, .cnt, .dma, .intc, .faults, .pcie, .safeRequest, .hits]
  | .channelReset _ _ => [.free, .out, .cnt, .dma, .pcie, .hits]
  | .doorbell _ _ => [.free, .out, .cnt, .dma, .intc, .faults, .pcie, .safeRequest, .hits]
  | .pollIntervalExpiry _ => [.out, .cnt, .dma, .intc, .faults, .pcie, .safeRequest, .hits]
  | .descriptorFetched _ _ => [.free, .out, .cnt, .dma, .herd, .intc, .faults, .pcie, .mem, .safeRequest, .hits]
  | .burstGrant => [.out, .cnt, .tine, .dma, .intc, .faults, .pcie, .safeRequest, .hits]
  | .burstReadDone _ _ => [.free, .out, .cnt, .gates, .dma, .herd, .intc, .faults, .pcie, .mem, .safeRequest, .hits]
  | .writeAcknowledged _ => [.out, .cnt, .dma, .herd, .intc, .faults, .pcie, .mem, .safeRequest, .hits]
  | .descriptorComplete _ => [.out, .cnt, .dma, .herd, .intc, .faults, .pcie, .mem, .safeRequest, .hits]
  | .hostTxFrame _ => [.out, .cnt, .fabric, .dma, .intc, .faults, .pcie, .safeRequest, .hits]
  | .dmaTimeout _ => [.free, .out, .cnt, .dma, .intc, .faults, .pcie, .safeRequest, .hits]
  | .lateCompletion _ => [.free, .out, .cnt, .dma, .pcie]
  | .requestPulse _ => [.cnt, .dma]
  | .requestExpired _ => [.cnt, .dma]
  | .eventPulse _ => [.dma, .trig, .intc, .hits]
  | .claim _ _ => [.free, .out, .intc, .pcie, .hits]
  | .eoi _ _ _ => [.free, .out, .intc, .pcie, .hits]
  | .softSet _ _ => [.free, .out, .intc, .pcie, .hits]
  | .countRead _ _ => [.free, .out, .intc, .pcie, .hits]
  | .sleep _ _ => [.free, .out, .intc, .pcie, .hits]
  | .holdoffExpiry _ => [.intc]
  | .feedLineChange _ _ => [.out, .cnt, .ports, .feeds, .pair, .intc, .faults, .health, .safeRequest, .hits]
  | .restoreHoldExpiry => [.out, .cnt, .ports, .feeds, .intc, .health]
  | .pairLaneChange _ _ => [.pair, .intc, .faults, .safeRequest, .hits]
  | .heartbeatTx => [.out, .cnt, .pair]
  | .heartbeatRx _ _ => [.mram, .cnt, .pair, .intc, .faults, .safeRequest, .hits]
  | .pairLinkFrameError _ => [.cnt]
  | .heartbeatTimeout => [.cnt, .pair, .intc, .faults, .safeRequest, .hits]
  | .takeover =>
    [.out, .mram, .cfg, .cnt, .fabric, .ports, .fdb, .psfp, .gates, .dma, .feeds, .pair, .frer, .time, .trig,
       .herd, .intc, .faults, .health, .pcie, .mem, .safeRequest, .hits]
  | .handover _ => dictionaryParts
  | .announcement => [.cnt, .fabric, .pair]
  | .copyInstant => [.out, .cnt, .pair, .frer, .hits]
  | .copyDeadline => [.out, .cnt, .pair, .frer, .hits]
  | .copyDataRx _ _ => [.cnt, .pair, .intc, .faults, .safeRequest, .hits]
  | .copyEndRx _ _ => [.cnt, .fabric, .psfp, .pair, .frer, .intc, .faults, .safeRequest, .hits]
  | .copyMissing => [.cnt, .pair, .intc, .faults, .safeRequest, .hits]
  | .digestClose => [.pair]
  | .clearStatus _ _ _ => dictionaryParts
  | .clearHistory _ _ _ => dictionaryParts
  | .clearBoth _ _ _ => dictionaryParts
  | .histHiRead _ _ _ => [.free, .out, .faults, .pcie]
  | .faultLostRead _ _ _ => [.free, .out, .faults, .pcie, .hits]
  | .faultRegisterScrub _ => [.safeRequest]
  | .aliveHalfPeriod _ _ _ => [.cnt, .intc, .faults, .health, .safeRequest, .hits]
  | .thermalSample _ => [.cnt, .intc, .faults, .health, .safeRequest, .hits]
  | .supplyDroop _ _ _ => [.cnt, .intc, .faults, .health, .safeRequest, .hits]
  | .marginReport _ _ => [.cnt, .intc, .faults, .health, .safeRequest, .hits]
  | .ageingUpdate _ _ _ _ => [.cnt, .intc, .faults, .health, .safeRequest, .hits]
  | .healthCheckpoint => [.mram, .health]
  | .zqCalibration => []
  | .dqsOscillatorRead _ _ => [.cnt]
  | .mr4Read _ _ => [.mem]
  | .patrolScrub _ _ _ => [.cnt, .intc, .faults, .mem, .safeRequest, .hits]
  | .refclkLoss => [.chip, .intc, .faults, .safeRequest, .hits]
  | .pllUnlock _ => [.chip, .intc, .faults, .safeRequest, .hits]
  | .synceSquelch _ => [.cnt, .pins]
  | .tapReset => [.pins]
  | .tapInstruction _ _ => [.out, .pins]
  | .tineLostRead _ _ => [.free, .out, .tine, .pcie, .hits]
  | .copyEndMarkerSent => [.out, .cnt, .pair, .intc]
  | .flushComplete => [.fdb]
  | .pcieLinkUp _ _ => [.pcie]
  | .pcieConfigReady => [.pcie]
  | .configurationWrite _ _ => [.out, .pcie]
  | .lpiReceived _ => [.cnt]
  | .rateChangeDue _ => [.time]

/-- A requester that comes through the BAR2 window. -/
def overWindow (r : Requester) : Bool :=
  match r.path with
  | .bar2 _ => true
  | _ => false

/-- What an access through the object dictionary engine may change while no NAP request waits there: the engine then performs
that access alone (R40). Other commands change what `changes` says. -/
def changesAlone (c : Instr) : List Part :=
  match c with
  | .start r => if overWindow r then dictionaryParts else [.out, .chip]
  | .resetCommand r => if overWindow r then dictionaryParts else [.out, .chip, .mram, .health]
  | .keyWrite r _ _ => if overWindow r then dictionaryParts else [.out, .mram, .nap]
  | .imageUpload r _ _ => if overWindow r then dictionaryParts else [.out, .mram]
  | .commit r => if overWindow r then dictionaryParts else [.out, .cfg]
  | .discard r => if overWindow r then dictionaryParts else [.out, .cfg]
  | .cancel r => if overWindow r then dictionaryParts else [.out, .cfg, .cnt, .intc]
  | .flushPort r _ => if overWindow r then dictionaryParts else [.out, .fdb]
  | .unblockFilter r _ => if overWindow r then dictionaryParts else [.out, .psfp]
  | .resetGate r _ => if overWindow r then dictionaryParts else [.out, .psfp]
  | .resetRecovery r _ => if overWindow r then dictionaryParts else [.out, .cnt, .frer]
  | .resetGeneration r _ => if overWindow r then dictionaryParts else [.out, .cnt, .frer]
  | .arm (some r) _ _ _ => if overWindow r then dictionaryParts else [.out, .cnt, .time]
  | .handover r => if overWindow r then dictionaryParts else [.out, .pair]
  | .clearStatus r _ _ => if overWindow r then dictionaryParts else [.out, .faults]
  | .clearHistory r _ _ => if overWindow r then dictionaryParts else [.out, .faults]
  | .clearBoth r _ _ => if overWindow r then dictionaryParts else [.out, .faults]
  | c => changes c

/-- A requester that does not come through the BAR2 window, whose request can be accepted in this state of the engine (R53,
R60). -/
def Accepted (r : Requester) (s : State) : Prop :=
  overWindow r = false ∧ isAlive s.chip.mode = true ∧ reqOk s r = true

/-- A step that ends in a next state. -/
def Completes (o : Host.Outcome State Fault Refusal) : Prop := ∃ t, o = .next t

/-- A command in a state ends in a next state of which `P` holds. -/
def Gives (c : Instr) (s : State) (P : State → Prop) : Prop := ∃ t, exec c s = .next t ∧ P t

/-- Every part but those listed is the same in two states. -/
def Only (ps : List Part) (s t : State) : Prop := ∀ p : Part, p ∉ ps → p.Same s t

/-- What a full-device reset clears (R506): every unit's state stands as right after reset. From before it stay PERST_N, the
levels that stand at the event inputs, and, outside OFF, the instruction and boundary registers of the test port. -/
def Cleared (s t : State) : Prop :=
  (∀ p ∈ [Part.cfg, .nap, .cnt, .fabric, .ports, .fdb, .psfp, .gates, .tine, .dma, .feeds, .pair, .linkDelay, .frer, .time,
    .herd, .intc, .faults, .health, .mem, .hits], p.Same State.reset t) ∧
  t.pcie = { State.reset.pcie with perst := s.pcie.perst } ∧
  t.pins = (if t.chip.mode = .off then State.reset.pins else
    { State.reset.pins with tapIr := s.pins.tapIr, boundary := s.pins.boundary }) ∧
  { t.trig with evin := [] } = State.reset.trig ∧
  (∀ e ∈ t.trig.evin, e.2 = { pin := true, level := true } ∧ ∃ x, (e.1, x) ∈ s.trig.evin ∧ x.pin = true) ∧
  ∀ e ∈ s.trig.evin, e.2.pin = true → (e.1, { pin := true, level := true }) ∈ t.trig.evin

/-- A state with another shadow image. -/
def withShadow (im : Image) (s : State) : State := { s with cfg := { s.cfg with shadow := im } }

/-- What a cutover leaves (R91, R93): the commit's image runs and is the shadow image, the one before is the older epoch's,
CURRENT_EPOCH has advanced, the target bank runs and waits for its seal, STATUS is 6 and COMMIT_DONE is raised. -/
def CutOver (s t : State) : Prop :=
  t.cfg.running = s.cfg.commit.next ∧ t.cfg.shadow = s.cfg.commit.next ∧ t.cfg.older = some s.cfg.running ∧
  t.cfg.epoch = (s.cfg.epoch + 1) % 2 ^ 32 ∧ t.cfg.cutoverTime = s.ns 0 ∧
  t.cfg.retireDue = s.cycle + 1600000 * imgNum s.ident s.cfg.commit.next 0x0202 4 ∧
  t.cfg.runningBank = s.cfg.commit.target ∧ t.cfg.commit.status = 6 ∧ t.cfg.commit.lastGen = s.cfg.commit.gen ∧
  t.cfg.commit.sealDue = some (s.cfg.commit.target, s.cycle + 16000) ∧ (190, s.cycle) ∈ t.intc.pulses ∧
  t.chip.mode = s.chip.mode ∧ t.mram = s.mram

end Sys2Proof.Machine
end

