-- ==== Sys2Proof/Certificates/Slice0/Obligations.lean ====
section
/-!
DEFINITION. The statements for the provers: what the commands do, family by family, and what every step keeps.
-/
open Sys2Proof Sys2Proof.Machine

/-- O1. With a command at the front of the queue, a step is that command's effect on the state with the rest of the queue. The
queue is the model's own (log entry 1). -/
def Obligations.CommandAtFrontRuns : Prop :=
  ∀ (c : Instr) (rest : List Instr) (s : State), s.pending = c :: rest →
    step s = exec c { s with pending := rest }

/-- O2. On an empty queue a step answers a next state in which one core-clock cycle has passed: where the cycle begins a tick
of the time clock and the device is in LOAD or a later state, each enabled domain advances by its increment (modulo
2^96) and every other domain's value stands; nothing changes but the parts of the list (the cycle count, the domains,
and what falls due in a cycle by itself: queues' shapers and waiting heads, frames that grow on the wire and leave it,
triggers' edges, host reads that waited, the scan of the interrupt targets). That a step of an empty queue is one
cycle is the model's choice (log entry 4). -/
def Obligations.IdleCyclePasses : Prop :=
  ∀ s : State, s.pending = [] →
    ∃ t, step s = .next t ∧ t.pending = [] ∧ t.cycle = s.cycle + 1 ∧
      Only [.cycle, .out, .hits, .mram, .cnt, .fabric, .ports, .tine, .dma, .pair, .time, .trig, .intc, .faults, .pcie,
        .safeRequest] s t ∧
      ∀ d, (t.dom d).value =
        if isAlive s.chip.mode = true ∧ tickOf s.cycle < tickOf (s.cycle + 1) ∧ (s.dom d).enabled = true then
          (s.dom d).value + (incNow (s.dom d)).zeroExtend 96
        else (s.dom d).value

/-- O3. For every command, every state and every operand: in the next state every part that the table changes does not list
for the command is the same as before. No command changes the queue, the cycle count or the device's identity. While
no NAP request waits for the object dictionary engine, which would be served first (R40), an access through that
engine changes no part but those that changesAlone lists for it. -/
def Obligations.CommandsChangeOnlyTheirParts : Prop :=
  ∀ (c : Instr) (s t : State), exec c s = .next t →
    Only (changes c) s t ∧ t.pending = s.pending ∧ t.cycle = s.cycle ∧ t.ident = s.ident ∧
    (s.nap.queue = [] → Only (changesAlone c) s t)

/-- O4. From every state that meets it, a step leads to a state that meets it: device memory and the Herd Ring TX memory are
in canonical form (log entry 11), at most 64 requests wait for the engine, at most eight transfers are open, a Tine
FIFO holds at most 4,096 records and a fault history at most 8 entries. -/
def Obligations.InvariantKept : Prop :=
  ∀ s t : State, Inv s → step s = .next t → Inv t

/-- O5. The state right after reset meets the invariant of every step. -/
def Obligations.InvariantAtReset : Prop :=
  Inv State.reset

/-- O6. Whatever the command, the state and the operands, the device state after it is the one before it, or a state that the
table of R71 allows to follow it. A full-device reset may come from any state, since a RESET command given earlier
ends in it 1 ms later whatever the state has become (R73, R507). Where NAP requests wait for the engine, which an
access serves first (R40), they may take two arrows within one command: STOP from RUN to ARMED and RELOAD from there
to LOAD. -/
def Obligations.StateChangesFollowTheTable : Prop :=
  ∀ (c : Instr) (s t : State), exec c s = .next t →
    t.chip.mode = s.chip.mode ∨ t.chip.mode = .reset ∨ t.chip.mode = .off ∨
    (s.chip.mode, t.chip.mode) ∈
      [(Mode.reset, Mode.load), (.load, .check), (.load, .hold), (.check, .armed), (.check, .load), (.check, .hold),
       (.hold, .load), (.armed, .run), (.armed, .load), (.run, .armed), (.load, .safe), (.check, .safe), (.hold, .safe),
       (.armed, .safe), (.run, .safe)] ∨
    (s.nap.queue ≠ [] ∧ s.chip.mode = .run ∧ t.chip.mode = .load)

/-- O7. Right after reset the device is in RESET with reason 0 and REASON_UNIT 0xFFFFFFFF and no START pending; no command,
frame, learned address or output is held; every counter is 0, every fault status 0 and every interrupt source neither
enabled nor pending; domain D0 is enabled with value 0 and nominal increment, D1 to D7 are disabled; no function may
use the bus or memory space and the PCIe link is down. -/
def Obligations.ResetState : Prop :=
  State.reset.chip.mode = .reset ∧ State.reset.chip.reason = 0 ∧ State.reset.chip.reasonUnit = 0xFFFFFFFF ∧
  State.reset.chip.startPending = false ∧ State.reset.pending = [] ∧ State.reset.out = [] ∧
  State.reset.fabric.frames = [] ∧ State.reset.fdb.learned = [] ∧
  (∀ idx sub key, State.reset.counter idx sub key = 0) ∧ (∀ b i, (State.reset.fault b i).status = 0) ∧
  (∀ n, (State.reset.source n).enable = false ∧ (State.reset.source n).pending = false) ∧
  (State.reset.dom 0).enabled = true ∧ (State.reset.dom 0).value = 0 ∧ (State.reset.dom 0).inc = 0x0100000000 ∧
  (∀ d, d ≠ 0 → (State.reset.dom d).enabled = false) ∧
  State.reset.pcie.linkUp = false ∧ ∀ f, (State.reset.pf f).bme = false ∧ (State.reset.pf f).mse = false

/-- O8. From OFF, with every rail in its operating range, the device enters RESET, held for 1 ms of core cycles, with reset
cause 0; a rail that stays outside its operating range for 1 us or more leads from any other state to OFF; when the
delay after a RESET command has run out the device enters RESET with reset cause 1, held for 100 us, and the count of
commanded resets in MRAM rises by one. Each clears every unit, but for what stands at pins: PERST_N, the levels of the
event inputs, and outside OFF the instruction and boundary registers of the test port. Supplies leave MRAM as it was.
In the other cases (a device that has its supplies, a rail out of range, a rail inside its range or outside it for
less than 1 us, a reset not yet due or not commanded) nothing changes. -/
def Obligations.SuppliesAndResets : Prop :=
  (∀ (levels : List Nat) (s : State),
    (s.chip.mode = .off → railsInRange levels = true → Gives (.supplyInRange levels) s fun t =>
      t.chip = { State.reset.chip with prev := .off, railsSince := s.cycle, resetHold := s.cycle + 1600000 } ∧
      t.chip.mode = .reset ∧ t.chip.lastCause = 0 ∧ t.mram = s.mram ∧ Cleared s t ∧ Only resetParts s t) ∧
    (s.chip.mode ≠ .off ∨ railsInRange levels = false → exec (.supplyInRange levels) s = .next s)) ∧
  (∀ (rail level ns : Nat) (s : State),
    (s.chip.mode ≠ .off → leavesRange rail level ns = true → Gives (.supplyOutOfRange rail level ns) s fun t =>
      t.chip.mode = .off ∧ t.chip.prev = s.chip.mode ∧ t.chip.startPending = false ∧ t.chip.resetDue = none ∧
      t.chip.safePending = none ∧ t.mram = s.mram ∧ Cleared s t ∧ Only resetParts s t) ∧
    (s.chip.mode = .off ∨ leavesRange rail level ns = false → exec (.supplyOutOfRange rail level ns) s = .next s)) ∧
  (∀ s : State,
    (∀ due, s.chip.resetDue = some due → due ≤ s.cycle → Gives .resetDelayExpiry s fun t =>
      t.chip = { State.reset.chip with
        prev := s.chip.mode, lastCause := 1, railsSince := s.chip.railsSince, resetHold := s.cycle + 160000,
        refclk := s.chip.refclk, pll := s.chip.pll } ∧
      t.chip.mode = .reset ∧ t.mram = { s.mram with cmdResets := (s.mram.cmdResets + 1) % 2 ^ 64 } ∧
      Cleared s t ∧ Only (.mram :: resetParts) s t) ∧
    (∀ due, s.chip.resetDue = some due → s.cycle < due → exec .resetDelayExpiry s = .next s) ∧
    (s.chip.resetDue = none → exec .resetDelayExpiry s = .next s))

/-- O9. In RESET, once the hold has passed and the five PLLs that reset waits for are locked, the device enters LOAD: the
straps and PLL bits are sampled, an image is to be selected by the boot straps, D0 starts (enabled, its value 0 at the
nominal increment), every RW entry is at its default and no transfer is open. Where no MRAM word fails its check bits
MRAM is as it was, and the health monitor's integrals resume from its checkpoint. Before the hold has passed, without
those locks, or outside RESET nothing changes. -/
def Obligations.ResetReleases : Prop :=
  ∀ (straps pll : Nat) (words : List MramWord) (s : State),
    (s.chip.mode = .reset → s.chip.resetHold ≤ s.cycle → pll % 32 = 31 → Gives (.resetRelease straps pll words) s fun t =>
      t.chip.mode = .load ∧ t.chip.prev = .reset ∧ t.chip.straps = straps % 2 ^ 11 ∧ t.chip.pll = pll % 64 ∧
      t.chip.startPending = false ∧ t.cfg.loadBy = .boot ∧ t.cfg.rw = [] ∧ t.cfg.shadow = {} ∧ t.nap.transfers = [] ∧
      (0 < s.time.domains.length →
        (t.dom 0).enabled = true ∧ (t.dom 0).value = 0 ∧ (t.dom 0).inc = 0x0100000000) ∧
      (words = [] → t.mram = s.mram ∧
        (∀ k, k < 64 → t.health.teq.getD k 0 = s.mram.checkpoint.teq.getD k 0) ∧
        ∀ k, k < 8 → t.health.dmg.getD k 0 = s.mram.checkpoint.dmg.getD k 0)) ∧
    (s.chip.mode ≠ .reset ∨ s.cycle < s.chip.resetHold ∨ pll % 32 ≠ 31 → exec (.resetRelease straps pll words) s = .next s)

/-- O10. The first end of training after a reset, with a topology of R486 and no channel failed, leaves every channel trained,
the topology noted and memory as nothing written. Where a channel failed, or the topology is none of R486 (channel 0
then), block 18 records TRAINING_FAILED, channels below the failed one are trained and it is not; the bits of the
channels above it are free (log entry 30). After training has ended, or before LOAD, nothing changes. -/
def Obligations.MemoryTrains : Prop :=
  ∀ (density ranks : Nat) (s : State),
    (isAlive s.chip.mode = true → s.mem.trainDone = false →
      (memSupported density ranks = true → exec (.memoryTrainingDone density ranks none) s =
        .next { s with mem := { s.mem with
          trainDone := true, trained := 0xFF, cells := [], density := density, ranks := ranks } }) ∧
      (∀ failed c, c < 8 → failed = some c ∨ failed = none ∧ c = 0 ∧ memSupported density ranks = false →
        Gives (.memoryTrainingDone density ranks failed) s fun t =>
          t.mem.trainDone = true ∧ t.mem.cells = [] ∧ t.mem.density = density ∧ t.mem.ranks = ranks ∧
          (∀ j, j < c → bit t.mem.trained j = true) ∧ bit t.mem.trained c = false ∧
          bit (t.fault 18 0).status 2 = true)) ∧
    (isAlive s.chip.mode = false ∨ s.mem.trainDone = true → ∀ failed,
      exec (.memoryTrainingDone density ranks failed) s = .next s)

/-- O11. With a bank selected, LOAD ends in CHECK with that bank's image fetched; with none, in HOLD with the reason of R87.
With an image that every stage passes, CHECK ends in ARMED with that image running from its bank, START pending
exactly where AUTO_START is set in it; with one that fails and no fallback left, in HOLD with the failing rule's
reason, detail and unit; with a fallback left, in LOAD of the other bank. -/
def Obligations.LoadAndCheckEnd : Prop :=
  (∀ (s : State) (b : Nat), s.chip.mode = .load → selectBank s = .ok b → Gives .loadComplete s fun t =>
    t.chip.mode = .check ∧ t.chip.prev = .load ∧ t.cfg.fetched = some (b, (s.bank b).image) ∧ t.cfg.lastBank = some b) ∧
  (∀ (s : State) (reason : Nat), s.chip.mode = .load → selectBank s = .error reason → Gives .loadComplete s fun t =>
    t.chip.mode = .hold ∧ t.chip.prev = .load ∧ t.chip.reason = reason ∧ t.cfg.running = {} ∧ t.cfg.shadow = {}) ∧
  (∀ (s : State) (b : Nat) (bytes : Bytes) (im : Image), s.chip.mode = .check → s.cfg.fetched = some (b, bytes) →
    (checkImage s bytes).img = some im → (checkImage s bytes).fail = none → Gives .checkComplete s fun t =>
      t.chip.mode = .armed ∧ t.chip.prev = .check ∧ t.cfg.running = im ∧ t.cfg.shadow = im ∧ t.cfg.runningBank = b ∧
      t.cfg.passed = true ∧ t.chip.startPending = t.cfgB 0x0101 0x0A) ∧
  (∀ (s : State) (b : Nat) (bytes : Bytes) (f : CheckFail), s.chip.mode = .check → s.cfg.fetched = some (b, bytes) →
    (checkImage s bytes).fail = some f → fallbackRemains s b = false → Gives .checkComplete s fun t =>
      t.chip.mode = .hold ∧ t.chip.prev = .check ∧ t.chip.reason = f.reason ∧ t.chip.reasonDetail = f.detail ∧
      t.chip.reasonUnit = f.unit ∧ t.cfg.running = ((checkImage s bytes).img.getD {})) ∧
  (∀ (s : State) (b : Nat) (bytes : Bytes) (f : CheckFail), s.chip.mode = .check → s.cfg.fetched = some (b, bytes) →
    (checkImage s bytes).fail = some f → fallbackRemains s b = true → Gives .checkComplete s fun t =>
      t.chip.mode = .load ∧ t.cfg.loadBy = .named (1 - b) ∧ t.cfg.fallbackUsed = true)

/-- O12. For an accepted request with the COMMAND right, in the state s in which the engine performs it (the requests ahead of
it served, R40): START in ARMED sets START_PENDING; STOP in ARMED clears a START_PENDING that is set, and in RUN leads
to ARMED, where no claim is held; RELOAD in HOLD and ARMED leads to LOAD by RELOAD_BANK, or by the boot straps when it
is 0xFF; RESET in HOLD, ARMED, RUN and SAFE, where none is due, leaves the reset due in 1 ms and a health checkpoint
in MRAM, in the slot of its number; SAFE in HOLD, ARMED and RUN leads to SAFE with reason 0 and its record in MRAM.
START in HOLD, RUN and SAFE, STOP in HOLD and SAFE and in ARMED without a START_PENDING, RELOAD in RUN and SAFE, and
SAFE in SAFE answer STATE_CONFLICT (code 6) and change nothing. -/
def Obligations.StateCommands : Prop :=
  ∀ (r : Requester) (s0 s : State), s = engineTurn r.path s0 → Accepted r s → bit (rightsOf s r) 2 = true →
    (s.chip.mode = .armed → exec (.start r) s0 =
      .next { s with chip := { s.chip with startPending := true }, out := .answer r 0 none :: s.out }) ∧
    (s.chip.mode = .armed → s.chip.startPending = true → exec (.stop r) s0 =
      .next { s with chip := { s.chip with startPending := false }, out := .answer r 0 none :: s.out }) ∧
    (s.chip.mode = .run → Gives (.stop r) s0 fun t =>
      t.chip.mode = .armed ∧ t.chip.prev = .run ∧ t.chip.startPending = false ∧ t.pair.role = 0 ∧ t.pair.claim = 0 ∧
      t.out.head? = some (.answer r 0 none)) ∧
    (s.chip.mode = .hold ∨ s.chip.mode = .armed → Gives (.reload r) s0 fun t =>
      t.chip.mode = .load ∧ t.chip.prev = s.chip.mode ∧ t.nap.transfers = [] ∧ t.cfg.rw = [] ∧
      t.cfg.loadBy = (if s.rwN 0x0200 9 = 0xFF then .boot else .named (s.rwN 0x0200 9)) ∧
      t.out.head? = some (.answer r 0 none)) ∧
    (s.chip.mode ∈ [.hold, .armed, .run, .safe] → s.chip.resetDue = none →
      ∀ cp : Checkpoint, cp = { seq := s.mram.checkpoint.seq + 1, teq := s.health.teq, dmg := s.health.dmg } →
      exec (.resetCommand r) s0 = .next { s with
        chip := { s.chip with resetDue := some (s.cycle + 1600000) }
        health := { s.health with checkAt := s.cycle }
        mram := { s.mram with checkpoint := cp, checkpoints := AMap.set s.mram.checkpoints (cp.seq % 16) cp }
        out := .answer r 0 none :: s.out }) ∧
    (s.chip.mode ∈ [.hold, .armed, .run] → Gives (.safeCommand r) s0 fun t =>
      t.chip.mode = .safe ∧ t.chip.prev = s.chip.mode ∧ t.chip.reason = 0 ∧ t.chip.reasonDetail = 0 ∧
      t.chip.startPending = false ∧ t.mram.safeReason = 0 ∧ t.mram.safeDetail = 0 ∧ t.mram.safeTime = s.ns 0 ∧
      t.mram.safeEntries = (s.mram.safeEntries + 1) % 2 ^ 64 ∧ t.out.head? = some (.answer r 0 none)) ∧
    (∀ c ∈ [Instr.start r, .stop r, .reload r, .safeCommand r],
      (match c, s.chip.mode with
        | .start _, .hold => True | .start _, .run => True | .start _, .safe => True
        | .stop _, .hold => True | .stop _, .safe => True | .stop _, .armed => s.chip.startPending = false
        | .reload _, .run => True | .reload _, .safe => True | .safeCommand _, .safe => True
        | _, _ => False) →
      exec c s0 = .next { s with out := .answer r 6 none :: s.out })

/-- O13. In ARMED with START_PENDING set and every domain of LOCKS_REQUIRED locked, the device enters RUN; an unpaired unit
then holds the claim of its pair epoch raised by one, which stands in MRAM with its ring slot. Without one of these
nothing changes. Once the core cycle of a fault whose SAFE_ON bit is set is past, the device enters SAFE from LOAD,
CHECK, HOLD, ARMED and RUN: REASON and REASON_DETAIL take the fault's numbers and MRAM records them with the time of
D0 and one more entry. In the core cycle of the fault, in other states, and without such a fault nothing changes. -/
def Obligations.RunAndSafeEntry : Prop :=
  (∀ s : State,
    (s.chip.mode = .armed → s.chip.startPending = true → locksMet s = true → Gives .startTaken s fun t =>
      t.chip.mode = .run ∧ t.chip.prev = .armed ∧ t.chip.startPending = false ∧ t.chip.entryTime = s.ns 0 ∧
      (isPaired s = false → ∀ e, e = min 0xFFFFFF (s.mram.pairEpoch + 1) →
        t.pair.role = 1 ∧ t.pair.claim = e * 256 + rankOf s ∧
        t.mram = { s.mram with pairEpoch := e, rings := AMap.set s.mram.rings (epochRing * 1024 + e % 1024) e })) ∧
    (s.chip.mode ≠ .armed ∨ s.chip.startPending = false ∨ locksMet s = false → exec .startTaken s = .next s)) ∧
  (∀ s : State,
    (∀ reason detail at_, s.chip.safePending = some (reason, detail, at_) →
      (at_ < s.cycle → s.chip.mode ∈ [.load, .check, .hold, .armed, .run] → Gives .safeEntryOnFault s fun t =>
        t.chip.mode = .safe ∧ t.chip.prev = s.chip.mode ∧ t.chip.reason = reason ∧ t.chip.reasonDetail = detail ∧
        t.chip.startPending = false ∧ t.chip.safePending = none ∧ t.nap.transfers = [] ∧
        t.mram.safeReason = reason ∧ t.mram.safeDetail = detail ∧ t.mram.safeTime = s.ns 0 ∧
        t.mram.safeEntries = (s.mram.safeEntries + 1) % 2 ^ 64) ∧
      (s.cycle ≤ at_ ∨ s.chip.mode ∉ [.load, .check, .hold, .armed, .run] → exec .safeEntryOnFault s = .next s)) ∧
    (s.chip.safePending = none → exec .safeEntryOnFault s = .next s))

/-- O14. The command of its kind (READ and opcodes out of range, WRITE, ABORT_TRANSFER) takes the oldest request from the input
queue. On a network path a PDU shorter than 48 bytes or with another subtype or version is discarded and counted at 2;
a LENGTH below 48 or beyond the bytes received is INTEGRITY under an enabled key, else counted at 2; a KEY_ID that is
not enabled on the path, or a path not served in this state, at 3; a wrong TAG at 4; a REPLAY number not above the
stored one at 5; a response PDU at 2. An accepted request is counted, its REPLAY number stored, and evaluated. Of the
evaluation, outside LOAD and CHECK: ABORT_TRANSFER closes the transfer of its KEY_ID, path and TRANSACTION and answers
OK; an unsegmented READ of an entry that the tests of R50 admit, whose value has at most 1,024 octets, answers that
value; an unsegmented WRITE with its own TOTAL performs the write and answers its code; the other opcodes answer
INTEGRITY. When SEGMENT_TIMEOUT has passed for an open transfer it closes without applying anything, and is counted;
until then nothing changes. -/
def Obligations.PdusTaken : Prop :=
  (∀ (s : State) (q : NapReq) (rest : List NapReq), isAlive s.chip.mode = true → s.nap.queue = q :: rest →
    (requestKind q = 1 → exec .napRead s = .next (napRun q { s with nap := { s.nap with queue := rest } })) ∧
    (requestKind q = 2 → exec .napWrite s = .next (napRun q { s with nap := { s.nap with queue := rest } })) ∧
    (requestKind q = 3 → exec .napAbortTransfer s = .next (napRun q { s with nap := { s.nap with queue := rest } }))) ∧
  (∀ (s : State) (q : NapReq) (k : Nat), isMailbox q.path = false → k = pduKey q.pdu →
    (q.pdu.length < 48 ∨ beAt q.pdu 0 1 ≠ 1 ∨ beAt q.pdu 1 1 ≠ 1 → napRun q s = s.bump 0x0401 2) ∧
    (48 ≤ q.pdu.length → beAt q.pdu 0 1 = 1 → beAt q.pdu 1 1 = 1 →
      (pduLength q.pdu < 48 ∨ q.pdu.length < pduLength q.pdu →
        (keyEnabled s k = true → napRun q s = answerCode q 10 s) ∧
        (keyEnabled s k = false → napRun q s = s.bump 0x0401 2)) ∧
      (48 ≤ pduLength q.pdu → pduLength q.pdu ≤ q.pdu.length →
        (k = 0 ∨ keyEnabled s k = false ∨ bit (s.keyRec k).paths (pathBit q.path) = false ∨ pathServed s q.path = false →
          napRun q s = s.bump 0x0401 3) ∧
        (k ≠ 0 → keyEnabled s k = true → bit (s.keyRec k).paths (pathBit q.path) = true → pathServed s q.path = true →
          (napTag (s.keyRec k).key (pduSigned q.pdu) ≠ pduTag q.pdu → napRun q s = s.bump 0x0401 4) ∧
          (napTag (s.keyRec k).key (pduSigned q.pdu) = pduTag q.pdu →
            (pduReplay q.pdu ≤ (s.keyRec k).rx → napRun q s = s.bump 0x0401 5) ∧
            ((s.keyRec k).rx < pduReplay q.pdu → flagResponse q.pdu = true → napRun q s = s.bump 0x0401 2) ∧
            ((s.keyRec k).rx < pduReplay q.pdu → flagResponse q.pdu = false → napRun q s =
              napEvaluate q ((setRxReplay k (pduReplay q.pdu) s).bump 0x0401 1))))))) ∧
  (∀ (s : State) (q : NapReq), engineBusy s.chip.mode = false →
    (pduOpcode q.pdu = 3 → napEvaluate q s =
      answerCode q 0 { s with nap := { s.nap with
        transfers := s.nap.transfers.filter fun t => !transferIs (pduReq q) (pduTrans q.pdu) t } }) ∧
    (pduOpcode q.pdu = 0 ∨ 3 < pduOpcode q.pdu → napEvaluate q s = answerCode q 10 s) ∧
    (openTransfer s q = none →
      (∀ o e d, pduOpcode q.pdu = 1 → pduOffset q.pdu = 0 → imageRefusal s (pduIndex q.pdu) (pduSub q.pdu) = none →
        admitRead s (pduReq q) (pduIndex q.pdu) (pduSub q.pdu)
          (fun e => pduType q.pdu == 0 || pduType q.pdu == e.ty.code) = .ok (o, e) →
        d = e.ty.encode (valueFor s (pduReq q) o (pduIndex q.pdu) e (bit (pduFlags q.pdu) 4)) → d.length ≤ 1024 →
        napEvaluate q s = napRespond q { abort := 0, ty := e.ty.code, total := d.length, data := d } s) ∧
      (∀ code s', pduOpcode q.pdu = 2 → flagSegmented q.pdu = false → pduOffset q.pdu = 0 →
        pduTotal q.pdu = (pduData q.pdu).length →
        objWrite (pduReq q) (pduIndex q.pdu) (pduSub q.pdu) (.nap (pduType q.pdu) (pduData q.pdu)) s = (code, s') →
        napEvaluate q s = answerCode q code s'))) ∧
  (∀ (s : State) (r : Requester) (trans : Nat) (t : Transfer), s.nap.transfers.find? (transferIs r trans) = some t →
    (t.due ≤ s.cycle → exec (.segmentTimeout r trans) s =
      .next (State.bump { s with nap := { s.nap with
        transfers := s.nap.transfers.filter fun x => !transferIs r trans x } } 0x0401 8)) ∧
    (s.cycle < t.due → exec (.segmentTimeout r trans) s = .next s))

/-- O15. The engine performs an access through a function's window in the state s that the requests ahead of it leave (R40). A
read returns the entry's bytes, or all ones where it aborts; the status record then holds the abort code, and after an
abort the offset and one more failure. A write has the effect and the code of R50 and leaves the same record, without
an answer. A read of the record returns its own entry and leaves it as it is, and a write of 0 to FAIL_COUNT in HOLD,
ARMED, RUN and SAFE clears it. An offset outside the window is an Unsupported Request. An entry write, a selection
write or an image read that comes through the window is the window's access to the whole slot. -/
def Obligations.WindowAccesses : Prop :=
  (∀ (f off width : Nat) (s0 s : State), s0.barReach f = true → s = engineTurn (.bar2 f) s0 → f < s.nap.window.length →
    (off < 2 ^ 27 → off / 2048 ≠ 0xFFFF → ∀ (code : Nat) (b : Bytes), readSlot s f off width = (code, b) →
      Gives (.bar2Read f off width) s0 fun t =>
        t.out = .window f code (if code = 0 then b else List.replicate width 0xFF) :: s.out ∧
        t.winRec f = (if code = 0 then { s.winRec f with lastAbort := 0 } else
          { lastAbort := code, lastFail := off, failCount := min ((s.winRec f).failCount + 1) 0xFFFFFFFF }) ∧
        (∀ g, g ≠ f → t.winRec g = s.winRec g) ∧ Only [.out, .nap] s t) ∧
    (∀ sub ty n, windowEntry (s.winRec f) sub = some (ty, n) → engineBusy s.chip.mode = false →
      exec (.bar2Read f (0xFFFF * 2048 + sub * 8) 8) s0 =
        .next { s with out := .window f 0 (leBytes 8 (extendTo ty 8 n)) :: s.out }) ∧
    (∀ value, off < 2 ^ 27 → off / 2048 ≠ 0xFFFF → width ≤ 8 → ∀ (code : Nat) (s' : State),
      objWrite { path := .bar2 f, key := 0 } (off / 2048) (off % 2048 / 8)
        (.bar2 (off % 8) width (value % 2 ^ (8 * width))) s = (code, s') →
      exec (.bar2Write f off width value) s0 = .next (s'.updWindow f fun w =>
        if code = 0 then { w with lastAbort := 0 } else
          { lastAbort := code, lastFail := off, failCount := min (w.failCount + 1) 0xFFFFFFFF })) ∧
    (s.chip.mode ∈ [.hold, .armed, .run, .safe] → exec (.failCountClear f) s0 =
      .next (s.updWindow f fun w => { w with failCount := 0 }))) ∧
  (∀ (f off width value : Nat) (s : State), s.barReach f = true → 2 ^ 27 ≤ off →
    exec (.bar2Read f off width) s = .next (unsupported f false s) ∧
    exec (.bar2Write f off width value) s = .next (unsupported f true s)) ∧
  (∀ (r : Requester) (f : Nat) (s : State), r.path = .bar2 f →
    (∀ idx sub v, ∀ c ∈ [Instr.entryWrite r idx sub v, .selectionWrite r idx sub v],
      exec c s = exec (.bar2Write f (idx * 2048 + sub * 8) 8 (slotValue s idx sub v)) s) ∧
    (∀ k, k < 2 → exec (.imageRead r k) s = exec (.bar2Read f (0x0200 * 2048 + (10 + k) * 8) 8) s))

/-- O16. For an accepted request, in the state s in which the engine performs it: a write that the tests of R50 refuse answers
their code and changes nothing; one that they admit, with a value that its type encodes, answers OUT_OF_RANGE outside
its range and BUSY where a commit in progress holds it up, and is else performed and answered with its code. Two
entries show what that is: a write of THERMAL_ALARM (RWS) from 60 to 105 in HOLD, ARMED or RUN stages it in the shadow
image and leaves the running configuration, and a write of RELOAD_BANK (RW) in HOLD or ARMED takes effect at once. A
selection write of KEY changes the requester's own selection of the table and nothing else: the key, and with it the
fields that were neither written nor copied, which take the defaults of that key. Each command that writes an entry of
its own is the write of that entry. -/
def Obligations.EntryWrites : Prop :=
  (∀ (r : Requester) (s0 s : State), s = engineTurn r.path s0 → Accepted r s →
    (∀ (idx sub : Nat) (v : Val), ∀ c ∈ [Instr.entryWrite r idx sub v, .selectionWrite r idx sub v],
      (∀ code, admitWrite s r idx sub (.val v) = .error code → exec c s0 = .next (s.emit (.answer r code none))) ∧
      (∀ o e sel, admitWrite s r idx sub (.val v) = .ok (o, e, sel) → e.ty.encodes v = true →
        (sel = false → e.rng.ok e.ty v = false → exec c s0 = .next (s.emit (.answer r 7 none))) ∧
        (sel = true ∨ e.rng.ok e.ty v = true →
          ((commitRuns s && (e.acc == .rws || stagedAction o e v)) = true →
            exec c s0 = .next (s.emit (.answer r 9 none))) ∧
          ((commitRuns s && (e.acc == .rws || stagedAction o e v)) = false → exec c s0 =
            .next ((performWrite r o idx e v s).2.emit (.answer r (performWrite r o idx e v s).1 none)))))) ∧
    (∀ n, bit (rightsOf s r) 1 = true → 60 ≤ n → n ≤ 105 → s.chip.mode ∈ [.hold, .armed, .run] → commitRuns s = false →
      exec (.entryWrite r 0x8100 1 (.num n)) s0 = .next { s with
        cfg := { s.cfg with shadow := imgPut s.ident s.cfg.shadow 0x8100 1 (.num n) }
        out := .answer r 0 none :: s.out }) ∧
    (∀ n, bit (rightsOf s r) 2 = true → n = 0 ∨ n = 1 ∨ n = 0xFF → s.chip.mode ∈ [.hold, .armed] →
      exec (.entryWrite r 0x0200 9 (.num n)) s0 = .next ((s.rwPut 0x0200 9 (.num n)).emit (.answer r 0 none))) ∧
    (∀ (idx : Nat) (v : Val) (o : ObjSpec) (t : TableSpec) (e : EntrySpec),
      admitWrite s r idx 1 (.val v) = .ok (o, e, true) → o.table = some t → e.ty.encodes v = true →
      exec (.selectionWrite r idx 1 v) s0 =
        .next ((putCtx r idx (selectKey t idx (valKey v) (tblCtx s r t idx)) s).emit (.answer r 0 none)))) ∧
  (∀ (r : Requester) (s : State),
    (∀ x ∈ [(Instr.start r, 0x0102, 1, 1), (.stop r, 0x0102, 1, 2), (.reload r, 0x0102, 1, 3), (.resetCommand r, 0x0102, 1, 4),
        (.safeCommand r, 0x0102, 1, 5), (.commit r, 0x0201, 4, 1), (.discard r, 0x0201, 4, 2), (.cancel r, 0x0201, 4, 3),
        (.handover r, 0x7000, 8, 1)],
      exec x.1 s = exec (.entryWrite r x.2.1 x.2.2.1 (.num x.2.2.2)) s) ∧
    (∀ idx, ∀ x ∈ [(Instr.read r idx, 1), (.write r idx, 2), (.delete r idx, 3), (.next r idx, 4)],
      exec x.1 s = exec (.entryWrite r idx 0x10 (.num x.2)) s) ∧
    (∀ k, ∀ x ∈ [(Instr.flushPort r k, 0x2000, 3), (.unblockFilter r k, 0x2000, 5), (.resetGate r k, 0x2000, 6),
        (.resetRecovery r k, 0x3000, 2), (.resetGeneration r k, 0x3000, 3)],
      exec x.1 s = exec (.entryWrite r x.2.1 x.2.2 (.num k)) s) ∧
    (∀ k b, 1 ≤ k → k ≤ 16 → exec (.keyWrite r k b) s = exec (.entryWrite r (0x0410 + (k - 1)) 1 (.oct b)) s) ∧
    (∀ k b, k < 2 → exec (.imageUpload r k b) s = exec (.entryWrite r 0x0200 (10 + k) (.oct b)) s) ∧
    (∀ f d v, d < 8 → exec (.arm (some r) f d v) s = exec (.entryWrite r (0x4000 + d) 0x13 (.num v)) s) ∧
    (∀ b i, b < 65536 → i < 256 → ∀ x ∈ [(Instr.clearStatus r b i, 1), (.clearHistory r b i, 2), (.clearBoth r b i, 3)],
      exec x.1 s = exec (.entryWrite r 0x8000 5 (.num (b * 65536 + i * 256 + x.2))) s))

/-- O17. For an admitted action of an accepted request on a staged table, in the state s in which the engine performs it: READ
copies the row of the selected key into the fields, or answers NO_OBJECT and leaves them; NEXT selects the next key
and copies its row, or answers NO_OBJECT; WRITE with a key and fields in range, of present units, and room for the row
creates or replaces the row of the shadow image from the fields; DELETE removes it, or answers NO_OBJECT. The code
stands in ACTION_RESULT and in the answer; the running configuration is left. -/
def Obligations.TableActions : Prop :=
  ∀ (r : Requester) (idx : Nat) (o : ObjSpec) (t : TableSpec) (e : EntrySpec) (s0 s : State) (x : TblCtx),
    s = engineTurn r.path s0 → Accepted r s → o.table = some t → t.kind = .staged → x = tblCtx s r t idx →
    (admitWrite s r idx 0x10 (.val (.num 1)) = .ok (o, e, true) → keyOk t idx x.key = true →
      absentKey s.ident idx x.key = false →
      (hasRow s t idx x.key = true → exec (.read r idx) s0 =
        .next ((putCtx r idx { x with fields := tableRow s t idx x.key, written := allFields, result := 0 } s).emit
          (.answer r 0 none))) ∧
      (hasRow s t idx x.key = false → exec (.read r idx) s0 =
        .next ((putCtx r idx { x with result := 1 } s).emit (.answer r 1 none)))) ∧
    (admitWrite s r idx 0x10 (.val (.num 4)) = .ok (o, e, true) →
      (∀ k, nextKey s t idx x.key = some k → exec (.next r idx) s0 =
        .next ((putCtx r idx { key := k, fields := tableRow s t idx k, written := allFields, result := 0 } s).emit
          (.answer r 0 none))) ∧
      (nextKey s t idx x.key = none → exec (.next r idx) s0 =
        .next ((putCtx r idx { x with result := 1 } s).emit (.answer r 1 none)))) ∧
    (commitRuns s = false → absentKey s.ident idx x.key = false →
      keyOk t idx x.key = true →
      (admitWrite s r idx 0x10 (.val (.num 2)) = .ok (o, e, false) →
        fieldsOk t.fields (writtenRow t x.fields) = true →
        rowOk idx (writtenRow t x.fields) = true →
        ((imgRow s.cfg.shadow idx x.key).isSome = true ∨
          (tableFull t s.cfg.shadow idx x.key = false ∧
            bucketFull s idx x.key = false)) →
        exec (.write r idx) s0 = .next ((putCtx r idx { x with result := 0 }
          (withShadow (imgPutRow s.cfg.shadow idx x.key
            (writtenRow t x.fields)) s)).emit (.answer r 0 none))) ∧
      (admitWrite s r idx 0x10 (.val (.num 3)) = .ok (o, e, false) →
        ((imgRow s.cfg.shadow idx x.key).isSome = true → exec (.delete r idx) s0 =
          .next ((putCtx r idx { x with result := 0 }
            (withShadow (imgDelRow s.cfg.shadow idx x.key) s)).emit (.answer r 0 none))) ∧
        ((imgRow s.cfg.shadow idx x.key).isSome = false → exec (.delete r idx) s0 =
          .next ((putCtx r idx { x with result := 1 } s).emit (.answer r 1 none)))))

/-- O18. An accepted KEY_WRITE with the PROVISION right, through PF0's mailbox or a management port in HOLD, ARMED and RUN, of
32 octets that are not all zero, performed in the state s that the requests ahead of it leave: the key is stored and
RX_REPLAY and TX_REPLAY become zero, every open transfer under that KEY_ID and no other closes, and ENABLED, RIGHTS
and PATHS and every other key's record stay. A request under that KEY_ID that is evaluated afterwards, queued before
or not, is checked against the new key. -/
def Obligations.KeyWritten : Prop :=
  ∀ (r : Requester) (k : Nat) (b : Bytes) (s0 s : State), s = engineTurn r.path s0 → Accepted r s →
    bit (rightsOf s r) 3 = true → (r.path = .mailbox 0 ∨ ∃ m, r.path = .mgt m) → 1 ≤ k → k ≤ 16 →
    s.chip.mode ∈ [.hold, .armed, .run] → b.length = 32 → b.any (fun x => x != 0) = true →
    ∀ c ∈ [Instr.keyWrite r k b, .entryWrite r (0x0410 + (k - 1)) 1 (.oct b)],
      exec c s0 = .next ((writeKey k b s).emit (.answer r 0 none)) ∧
      ∀ t, exec c s0 = .next t →
        (k ≤ s.mram.keys.length → (t.keyRec k).key = b ∧ (t.keyRec k).written = true) ∧
        (t.keyRec k).rx = 0 ∧ (t.keyRec k).tx = 0 ∧ (t.keyRec k).enabled = (s.keyRec k).enabled ∧
        (t.keyRec k).rights = (s.keyRec k).rights ∧ (t.keyRec k).paths = (s.keyRec k).paths ∧
        (∀ j, 1 ≤ j → j ≠ k → t.keyRec j = s.keyRec j) ∧
        t.nap.transfers = s.nap.transfers.filter (fun x => x.req.key != k) ∧ t.nap.queue = s.nap.queue ∧
        (∀ q : NapReq, 48 ≤ pduLength q.pdu → pduLength q.pdu ≤ q.pdu.length → beAt q.pdu 0 1 = 1 → beAt q.pdu 1 1 = 1 →
          pduKey q.pdu = k → keyOnPath t (pduReq q) = true → pathServed t q.path = true →
          (napTag (t.keyRec k).key (pduSigned q.pdu) ≠ pduTag q.pdu → napRun q t = napDiscard q 4 t) ∧
          (napTag (t.keyRec k).key (pduSigned q.pdu) = pduTag q.pdu → 0 < pduReplay q.pdu → flagResponse q.pdu = false →
            napRun q t = napEvaluate q ((setRxReplay k (pduReplay q.pdu) t).bump 0x0401 1)))

/-- O19. In HOLD the last segment of an accepted upload with the COMMAND right writes the image and seals the bank when the
transfer's TOTAL is the IMAGE_LENGTH of its header and the image meets R82 with its CRC; otherwise the bank stays
unsealed and INTEGRITY is answered. A bank that a COMMIT targets answers BUSY, the running bank STATE_CONFLICT, as
does any upload in ARMED, RUN and SAFE, and nothing changes. A read returns a sealed bank's image, NO_OBJECT from an
unsealed one, BUSY while a COMMIT targets it. The state is the one in which the engine performs the access. -/
def Obligations.ImageBanks : Prop :=
  ∀ (r : Requester) (k : Nat) (s0 s : State), s = engineTurn r.path s0 → Accepted r s → k < 2 →
    (bit (rightsOf s r) 2 = true → ∀ b : Bytes, b.length ≤ bankSize →
      (s.chip.mode ∈ [.armed, .run, .safe] →
        exec (.imageUpload r k b) s0 = .next { s with out := .answer r 6 none :: s.out }) ∧
      (s.chip.mode = .hold → bankBusy s k = true →
        exec (.imageUpload r k b) s0 = .next { s with out := .answer r 9 none :: s.out }) ∧
      (s.chip.mode = .hold → bankBusy s k = false → s.cfg.runningBank = k → s.cfg.passed = true →
        exec (.imageUpload r k b) s0 = .next { s with out := .answer r 6 none :: s.out }) ∧
      (s.chip.mode = .hold → bankBusy s k = false → ¬(s.cfg.runningBank = k ∧ s.cfg.passed = true) →
        (b.length = hdrLength b → meetsR82 (writtenBank b) = true → imageCrcGood b = true →
          exec (.imageUpload r k b) s0 =
            .next ((s.updBank k fun _ => { writtenBank b with sealed := true }).emit (.answer r 0 none))) ∧
        (b.length ≠ hdrLength b ∨ meetsR82 (writtenBank b) = false ∨ imageCrcGood b = false →
          exec (.imageUpload r k b) s0 =
            .next ((s.updBank k fun _ => { writtenBank b with sealed := false }).emit (.answer r 10 none))))) ∧
    (s.chip.mode ∈ [.hold, .armed, .run, .safe] → bit (rightsOf s r) 0 = true →
      (bankBusy s k = true → exec (.imageRead r k) s0 = .next { s with out := .answer r 9 none :: s.out }) ∧
      (bankBusy s k = false → (s.bank k).sealed = false →
        exec (.imageRead r k) s0 = .next { s with out := .answer r 1 none :: s.out }) ∧
      (bankBusy s k = false → (s.bank k).sealed = true →
        exec (.imageRead r k) s0 = .next { s with out := .answer r 0 (some (.oct (s.bank k).image)) :: s.out }))

/-- O20. For an accepted request with the COMMAND right in HOLD, ARMED and RUN, performed in the state s that the requests
ahead of it leave: COMMIT answers BUSY and does nothing while a commit runs or an older epoch is live, else it takes
the shadow image as it stands with STATUS 1, a target bank (outside HOLD the one that is not running; in HOLD the one
LOAD selected, or, where it selected none, an unsealed one, else the one of lower GENERATION) and a GENERATION one
above the higher sealed one, 1 where none is sealed. DISCARD makes the shadow image the running one. CANCEL in ARMED
or RUN while a cutover waits ends the commit with reason 0x0502 and STATUS 7 and pulses COMMIT_DONE; otherwise it
answers STATE_CONFLICT and changes nothing. -/
def Obligations.CommitActions : Prop :=
  ∀ (r : Requester) (s0 s : State), s = engineTurn r.path s0 → Accepted r s → bit (rightsOf s r) 2 = true →
    s.chip.mode ∈ [.hold, .armed, .run] →
    (s.cfg.commit.status ∈ [1, 2, 3, 4, 5] ∨ s.cfg.older.isSome = true →
      exec (.commit r) s0 = .next { s with out := .answer r 9 none :: s.out }) ∧
    (s.cfg.commit.status ∉ [1, 2, 3, 4, 5] → s.cfg.older = none → ∃ target gen : Nat,
      exec (.commit r) s0 = .next { s with
        cfg := { s.cfg with commit := { s.cfg.commit with
          status := 1, target := target, gen := gen, next := s.cfg.shadow, built := [], atInstant := false } }
        out := .answer r 0 none :: s.out } ∧
      (s.chip.mode ≠ .hold → target = 1 - s.cfg.runningBank) ∧
      (s.chip.mode = .hold →
        (∀ b, s.cfg.lastBank = some b → target = b) ∧
        (s.cfg.lastBank = none →
          ((s.bank 0).sealed = false → target = 0) ∧
          ((s.bank 0).sealed = true → (s.bank 1).sealed = false → target = 1) ∧
          ((s.bank 0).sealed = true → (s.bank 1).sealed = true →
            target = if (s.bank 1).genCopy < (s.bank 0).genCopy then 1 else 0))) ∧
      (∀ k, k < 2 → (s.bank k).sealed = true → (s.bank k).genCopy < gen) ∧
      (gen = 1 ∨ ∃ k, k < 2 ∧ (s.bank k).sealed = true ∧ gen = (s.bank k).genCopy + 1) ∧
      ((s.bank 0).sealed = false → (s.bank 1).sealed = false → gen = 1)) ∧
    exec (.discard r) s0 =
      .next { s with cfg := { s.cfg with shadow := s.cfg.running }, out := .answer r 0 none :: s.out } ∧
    (s.chip.mode ∈ [.armed, .run] → s.cfg.commit.status = 5 → Gives (.cancel r) s0 fun t =>
      t.cfg = { s.cfg with commit := { s.cfg.commit with
        status := 7, reason := 0x0502, detail := 0, unit := 0xFFFFFFFF, built := [], next := {} } } ∧
      t.out = .answer r 0 none :: s.out ∧ (190, s.cycle) ∈ t.intc.pulses ∧ Only [.out, .cfg, .cnt, .intc] s t) ∧
    (s.chip.mode = .hold ∨ s.cfg.commit.status ≠ 5 →
      exec (.cancel r) s0 = .next { s with out := .answer r 6 none :: s.out })

/-- O21. As a step ends: the built image is kept, or the commit fails with 0x0504 where it exceeds a bank; an image that CHECK
passes unseals the target bank, another fails with the failing rule's numbers; a stored image stands in the target
bank, unsealed, and the tables load (in HOLD the bank is sealed instead and the device enters LOAD from it), while a
bad read-back fails with 0x0503 and block 19's fault; with the tables loaded (master copies of paged gate lists in
memory) the commit cuts over at once with CUTOVER_MODE 0, else waits for an instant ahead in an enabled domain, or
fails with 0x0501 or 0x0505. In a core cycle of entry to SAFE it does none of these. A commit that fails keeps the
running configuration, the shadow image and MRAM, has STATUS 7 with its reason, and pulses COMMIT_DONE. With no step
in progress nothing changes. -/
def Obligations.CommitSteps : Prop :=
  (∀ (ok : Bool) (s : State),
    (s.cfg.commit.status = 1 → ∀ b, buildImage s.ident s.cfg.commit.gen (s.ns 0) s.cfg.commit.next = b →
      (bankSize < b.length → exec (.commitStepDone ok) s = .next (endCommit 0x0504 0 0xFFFFFFFF s)) ∧
      (b.length ≤ bankSize → exec (.commitStepDone ok) s =
        .next { s with cfg := { s.cfg with commit := { s.cfg.commit with status := 2, built := b } } })) ∧
    (s.cfg.commit.status = 2 →
      (∀ im, (checkImage s s.cfg.commit.built).img = some im → (checkImage s s.cfg.commit.built).fail = none →
        exec (.commitStepDone ok) s =
          .next (setStatus 3 (s.updBank s.cfg.commit.target fun k => { k with sealed := false }))) ∧
      (∀ f, (checkImage s s.cfg.commit.built).fail = some f →
        exec (.commitStepDone ok) s = .next (endCommit f.reason f.detail f.unit s))) ∧
    (s.cfg.commit.status = 3 →
      (ok = true → s.chip.mode ≠ .hold → exec (.commitStepDone ok) s =
        .next (setStatus 4 (s.updBank s.cfg.commit.target fun _ => writtenBank s.cfg.commit.built))) ∧
      (ok = true → s.chip.mode = .hold → Gives (.commitStepDone ok) s fun t =>
        t.chip.mode = .load ∧ t.cfg.loadBy = .written s.cfg.commit.target ∧
        t.mram.banks = updAt s.mram.banks s.cfg.commit.target (fun _ => { writtenBank s.cfg.commit.built with sealed := true })) ∧
      (ok = false → Gives (.commitStepDone ok) s fun t =>
        t.cfg.commit.status = 7 ∧ t.cfg.commit.reason = 0x0503 ∧ t.cfg.running = s.cfg.running ∧
        t.mram.banks = updAt s.mram.banks s.cfg.commit.target (fun _ => writtenBank s.cfg.commit.built) ∧
        (isAlive s.chip.mode = true → bit (t.fault 19 0).status 1 = true))) ∧
    (s.cfg.commit.status = 4 → ∀ u, u = stageMasters s.cfg.commit.next s →
      Only [.gates, .mem] s u ∧
      (safeDue s = true → exec (.commitStepDone ok) s = .next u) ∧
      (safeDue s = false →
        (s.rwN 0x0201 1 = 0 → Gives (.commitStepDone ok) s (CutOver s)) ∧
        (s.rwN 0x0201 1 ≠ 0 → (s.dom (s.rwN 0x0201 2)).enabled = false →
          exec (.commitStepDone ok) s = .next (endCommit 0x0505 0 0xFFFFFFFF u)) ∧
        (s.rwN 0x0201 1 ≠ 0 → (s.dom (s.rwN 0x0201 2)).enabled = true → s.ahead (s.rwN 0x0201 2) (s.rwN 0x0201 3) ≤ 0 →
          exec (.commitStepDone ok) s = .next (endCommit 0x0501 0 0xFFFFFFFF u)) ∧
        (s.rwN 0x0201 1 ≠ 0 → (s.dom (s.rwN 0x0201 2)).enabled = true → 0 < s.ahead (s.rwN 0x0201 2) (s.rwN 0x0201 3) →
          exec (.commitStepDone ok) s = .next { u with cfg := { u.cfg with commit := { u.cfg.commit with
            status := 5, atInstant := true, domain := s.rwN 0x0201 2, instant := s.rwN 0x0201 3 } } }))) ∧
    (s.cfg.commit.status ∉ [1, 2, 3, 4] → exec (.commitStepDone ok) s = .next s)) ∧
  (∀ (s : State) (reason detail unit : Nat) (u : State), u = endCommit reason detail unit s →
    u.cfg.commit.status = 7 ∧ u.cfg.commit.reason = reason ∧ u.cfg.commit.detail = detail ∧ u.cfg.commit.unit = unit ∧
    u.cfg.running = s.cfg.running ∧ u.cfg.shadow = s.cfg.shadow ∧ u.mram = s.mram ∧ (190, s.cycle) ∈ u.intc.pulses)

/-- O22. In the tick in which its domain reaches the instant, the commit waiting for it cuts over: the image that it built runs
and is the shadow image, the one before becomes the older epoch's, CURRENT_EPOCH advances, and STATUS is 6; in a later
tick it fails with 0x0501 instead; while the instant is ahead, in a core cycle of entry to SAFE, and without a waiting
commit nothing changes. The target bank is then sealed. The older epoch retires when none of its frames is left;
RETIRE_LIMIT after its cutover its waiting and arriving frames are purged, counted in EXPIRED_FRAMES, and it retires;
before that, and without an older epoch, nothing changes. -/
def Obligations.EpochsChange : Prop :=
  ∀ s : State,
    (s.cfg.commit.status = 5 → s.cfg.commit.atInstant = true →
      (s.reached s.cfg.commit.domain s.cfg.commit.instant = true → safeDue s = false →
        (cutoverLate s = false → Gives .cutover s (CutOver s)) ∧
        (cutoverLate s = true → exec .cutover s = .next (endCommit 0x0501 0 0xFFFFFFFF s))) ∧
      (s.reached s.cfg.commit.domain s.cfg.commit.instant = false ∨ safeDue s = true → exec .cutover s = .next s)) ∧
    (s.cfg.commit.status ≠ 5 ∨ s.cfg.commit.atInstant = false → exec .cutover s = .next s) ∧
    (∀ b due, s.cfg.commit.sealDue = some (b, due) → Gives .bankSeal s fun t =>
      t.mram.banks = updAt s.mram.banks b (fun k => { k with sealed := true }) ∧ t.cfg.commit.sealDue = none ∧
      t.cfg.running = s.cfg.running ∧ Only [.mram, .cfg] s t) ∧
    (s.cfg.commit.sealDue = none → exec .bankSeal s = .next s) ∧
    (s.cfg.older.isSome = true →
      (olderFrames s = 0 → Gives .epochRetire s fun t =>
        t.cfg = { s.cfg with older := none } ∧ t.frer.olderGens = [] ∧ Only [.cfg, .frer] s t) ∧
      (olderFrames s ≠ 0 → exec .epochRetire s = .next s) ∧
      (s.cfg.retireDue ≤ s.cycle → Gives .retireLimitExpiry s fun t =>
        t.cfg = { s.cfg with older := none } ∧ t.frer.olderGens = [] ∧
        t.counter 0x0202 6 0 = (s.counter 0x0202 6 0 + (waitingFrames s (s.cfg.epoch + 255)).length +
          (arrivingFrames s (s.cfg.epoch + 255)).length) % 2 ^ 64) ∧
      (s.cycle < s.cfg.retireDue → exec .retireLimitExpiry s = .next s)) ∧
    (s.cfg.older = none → exec .epochRetire s = .next s ∧ exec .retireLimitExpiry s = .next s)

/-- O23. For a line or management port that can have a link: LINK_UP on a link that is down brings it up without a fault and
leaves every other port. Where verification does not run and no respond frame is due nothing more happens. Where it
runs (outside near-end loopback) it is in progress; with no respond frame due its first verify frame goes at once
where the port can start one (it transmits frames, the line is free, the frame ends before every closing), else it
stays due. LINK_DOWN on a link that is up takes it down with the fault its cause names, returns VERIFY_STATUS to
INITIAL, discards the frame under assembly and counts a local or a remote fault; a line port's local fault in RUN
stands in block 2. Once LINK_UP_HOLD has passed LINK_STATE shows UP; once LINK_DOWN_HOLD has passed it shows the fault
or lost lock, a transition from UP is counted, and a change pulses LINK_CHANGE; before that nothing changes. -/
def Obligations.LinkChanges : Prop :=
  ∀ (p : Nat) (s : State), linkable s p = true →
    ((s.port p).up = false → ∀ u, u = s.updPort p (fun x => { x with up := true, fault := 1, changedAt := s.cycle }) →
      (Gives (.linkUp p) s fun t =>
        (t.port p).up = true ∧ (t.port p).fault = 1 ∧ (t.port p).changedAt = s.cycle ∧ (t.port p).shown = (s.port p).shown ∧
        ∀ q, q ≠ p → t.port q = s.port q) ∧
      (verifies s p = false → (s.port p).owed = [] → exec (.linkUp p) s = .next u) ∧
      (verifies s p = true → loopbackOf s p ≠ 1 → Gives (.linkUp p) s fun t => (t.port p).verify = 2) ∧
      (verifies s p = true → loopbackOf s p ≠ 1 → (s.port p).owed = [] →
        ∀ w, w = u.updPort p (fun x => { x with verify := 2, verifySent := 0, owed := [true] }) →
        (controlFree w p = true → Gives (.linkUp p) s fun t => (t.port p).verifySent = 1 ∧ (t.port p).owed = [] ∧
          (t.port p).verifyDue = s.cycle + 1600000 * preemptCfg s p 4 ∧ t.out = .verifyFrame p :: s.out) ∧
        (controlFree w p = false → exec (.linkUp p) s = .next w))) ∧
    ((s.port p).up = true → ∀ cause, Gives (.linkDown p cause) s fun t =>
      (t.port p).up = false ∧ (t.port p).fault = (if cause = 3 ∨ cause = 4 then cause else 0) ∧
      (t.port p).changedAt = s.cycle ∧ (t.port p).shown = (s.port p).shown ∧ (t.port p).verify = 1 ∧ (t.port p).asm = none ∧
      (∀ q, q ≠ p → t.port q = s.port q) ∧
      (cause = 3 → t.counter (portCounters p) 0x21 0 = (s.counter (portCounters p) 0x21 0 + 1) % 2 ^ 64) ∧
      (cause = 4 → t.counter (portCounters p) 0x22 0 = (s.counter (portCounters p) 0x22 0 + 1) % 2 ^ 64) ∧
      (cause = 3 → s.chip.mode = .run → p < 256 → bit (t.fault 2 (sliceOf p)).status 0 = true)) ∧
    ((s.port p).up = true →
      (s.cycle < (s.port p).changedAt + upHold s p → exec (.linkUpHoldExpiry p) s = .next s) ∧
      ((s.port p).changedAt + upHold s p ≤ s.cycle → Gives (.linkUpHoldExpiry p) s fun t =>
        t.port p = { s.port p with shown := 2 } ∧ (∀ q, q ≠ p → t.port q = s.port q) ∧
        (linkState s p ≠ 2 → (191, s.cycle) ∈ t.intc.pulses) ∧ Only [.ports, .intc, .cnt] s t)) ∧
    ((s.port p).up = false →
      (s.cycle < (s.port p).changedAt + downHold s p → exec (.linkDownHoldExpiry p) s = .next s) ∧
      ((s.port p).changedAt + downHold s p ≤ s.cycle → Gives (.linkDownHoldExpiry p) s fun t =>
        t.port p = { s.port p with
          shown := if (s.port p).fault = 3 ∨ (s.port p).fault = 4 then (s.port p).fault else unlocked s p } ∧
        (∀ q, q ≠ p → t.port q = s.port q) ∧
        (linkState s p = 2 → (191, s.cycle) ∈ t.intc.pulses ∧
          t.counter (portCounters p) 0x20 0 = (s.counter (portCounters p) 0x20 0 + 1) % 2 ^ 64) ∧
        Only [.ports, .intc, .cnt] s t))

/-- O24. On a port that negotiates, a resolution stores the partner's base page of a line port and the FEC where negotiation
decides it, but for a page that sets F2 at a 25 Gbit/s port with FEC_MODE NONE, which is a failure; a failure stores
the page of a line port, is counted, and on a line port the base page is sent again. A received LPI is counted and
nothing else. A PAUSE frame is counted and, with PAUSE_MODE 1, stops the port for its quanta of 512 bit times, rounded
up to core cycles, from the next core cycle on; when that time has passed the pause ends, and before that nothing
changes. -/
def Obligations.NegotiationAndPause : Prop :=
  ∀ (p : Nat) (s : State),
    (∀ ability page, page = ability % 2 ^ 48 → linkable s p = true → autoneg s p = true →
      ∀ u, u = State.bumpPort (s.updPort p fun x => { x with ability := if p < 256 then page else x.ability }) p 0x23 →
      (p < 256 ∧ refusesFec s p page = true → exec (.anResolution p ability) s = exec (.anFailure p ability) s) ∧
      (256 ≤ p ∨ refusesFec s p page = false → exec (.anResolution p ability) s = .next (s.updPort p fun x =>
        { x with
          ability := if p < 256 then page else x.ability
          fec := if fecNegotiated s s.cfg.running p then b2n (requestsRsFec page) else x.fec })) ∧
      exec (.anFailure p ability) s = .next (if p < 256 then u.emit (.basePage p (basePage u p)) else u)) ∧
    (macReceives s p = true → exec (.lpiReceived p) s = .next (s.bumpPort p 0x0B)) ∧
    (∀ quanta, quanta < 65536 → macReceives s p = true →
      (pauseMode s p = 1 → exec (.pauseReceived p quanta) s = .next ((s.bumpPort p 0x07).updPort p fun x =>
        { x with
          pauseWas := if x.pauseAt = s.cycle then x.pauseWas else x.pauseUntil
          pauseAt := s.cycle
          pauseUntil := s.cycle + 1 +
            (quanta * 4096 + 5 * max 1 (portRate s p) - 1) / (5 * max 1 (portRate s p)) })) ∧
      (pauseMode s p ≠ 1 → exec (.pauseReceived p quanta) s = .next (s.bumpPort p 0x07))) ∧
    ((s.port p).pauseUntil ≤ s.cycle → exec (.pauseExpiry p) s = .next (s.updPort p fun x => { x with pauseUntil := 0 })) ∧
    (s.cycle < (s.port p).pauseUntil → exec (.pauseExpiry p) s = .next s)

/-- O25. At a port whose MAC receives, after its FEC counters: a whole frame that R110 discards counts at its counter, and
where its decision would not come before its FCS verdict nothing else changes; one that is accepted, is no MAC control
frame and whose pair tag the claim filter leaves alone is counted with its length and enters the classifier with the
next frame number, its bytes, its time, and (above the 128 bytes of the parse window) the instant from which the rest
arrives. A good first fragment opens an assembly with its frame count; a good continuation with the next counts adds
its bytes. Any other delimiter counts at a line port. In far-end loopback a port sends back what it receives. -/
def Obligations.FramesReceived : Prop :=
  ∀ (p : Nat) (b : Bytes) (quarter corrected bad : Nat) (s : State),
    (macReceives s p = true → ∀ err u, u = noteFec p err corrected bad s →
      (∀ sub, macDiscard s p b err = some sub → Gives (.frameReceived p .express b err quarter corrected bad) s fun t =>
        t.counter (portCounters p) sub 0 = (u.counter (portCounters p) sub 0 + 1) % 2 ^ 64 ∧
        (decidedFirst s p (b.length + 4) = false → Only [.cnt] s t)) ∧
      (macDiscard s p b err = none → beAt b 12 2 ≠ 0x8808 → claimFilter p b u = (.untouched, u) →
        Gives (.frameReceived p .express b err quarter corrected bad) s fun t =>
          AMap.find t.fabric.inflight s.fabric.nextId = some
            { bytes := b, source := p, stamps := stampsNow s quarter, steps := stepsNow s,
              since := if b.length ≤ 128 then none else some (nowPs s) } ∧
          t.fabric.nextId = s.fabric.nextId + 1 ∧
          (∀ id, id ≠ s.fabric.nextId → AMap.find t.fabric.inflight id = AMap.find s.fabric.inflight id) ∧
          t.counter (portCounters p) 0x01 0 = (s.counter (portCounters p) 0x01 0 + 1) % 2 ^ 64 ∧
          t.counter (portCounters p) 0x02 0 = (s.counter (portCounters p) 0x02 0 + (b.length + 4)) % 2 ^ 64 ∧
          Only [.cnt, .fabric] s t) ∧
      exec (.frameReceived p .unknown b err quarter corrected bad) s = .next (if p < 256 then u.bumpPort p 0x19 else u) ∧
      (err = .good → preemptCfg s p 1 = 1 →
        (∀ n, (s.port p).asm = none → exec (.frameReceived p (.first n false) b err quarter corrected bad) s =
          .next (u.updPort p fun x => { x with asm := some ⟨n % 4, 0, b, stampsNow s quarter, stepsNow s⟩ })) ∧
        (∀ n k a, (s.port p).asm = some a → a.count = n % 4 → a.next = k % 4 →
          exec (.frameReceived p (.more n k false) b err quarter corrected bad) s =
            .next ((u.bumpPort p 0x1B).updPort p fun x =>
              { x with asm := some ⟨a.count, (a.next + 1) % 4, a.bytes ++ b, a.stamps, a.steps⟩ })))) ∧
    (pcsReceives s p = true → loopbackOf s p = 2 → ∀ smd err, exec (.frameReceived p smd b err quarter corrected bad) s =
      .next ((noteFec p err corrected bad s).emit (.retransmit p smd b err)))

/-- O26. The decision of a frame that the MAC accepted keeps its bytes, source and stamps and stores and links nothing. A frame
that the device state does not admit is discarded and counted, as is, without that count, one that forwarding gives no
egress. With an egress and no matching filter it is not discarded: it has its carriage header, and the places that
admission to the crosspoints of its members gives it, or, with no member left, no place and the counter that will
count it. The decision of a frame that the MAC has discarded counts nothing: it leaves flight, or only holds its
cells. A frame decided already, or not in flight, is left. -/
def Obligations.IngressDecided : Prop :=
  ∀ (id : Nat) (s : State),
    (∀ f, AMap.find s.fabric.inflight id = some f → f.decided = false → f.lost = false →
      Gives (.ingressDecision id) s fun t =>
        ∃ g, AMap.find t.fabric.inflight id = some g ∧ g.decided = true ∧ g.bytes = f.bytes ∧ g.source = f.source ∧
          g.stamps = f.stamps ∧ t.fabric.frames = s.fabric.frames ∧ t.fabric.queues = s.fabric.queues ∧
          ∀ q, q = parse (sTpid s) f.bytes →
            (stateAdmits s f.source q = false → g.discarded = true ∧ t = (s.bumpPort f.source 0x0C).putInflight id g) ∧
            (stateAdmits s f.source q = true → ∀ r u, forward s.cfg.running f.source q f.bytes s = (r, u) →
              (r.egress = none → g.discarded = true ∧ t = u.putInflight id g) ∧
              (r.egress.isSome = true →
                matchFilter s.cfg.running (r.stream.map (·.handle)) (framePriority s s.cfg.running f.source q) = none →
                ∀ m, m = membersOf u s.cfg.running f.source (effectiveVid u s.cfg.running f.source q) r →
                  g.discarded = f.discarded ∧
                  g.hdr = buildHeader u s.cfg.running f q r (trafficClass u s.cfg.running f.source q r.stream)
                    (initialColour u s.cfg.running f.source q) ∧
                  (m = [] → g.placed = f.placed ∧ g.late.emptied = noMembers f.source r ∧ t = u.putInflight id g) ∧
                  (m ≠ [] → g.placed = (admitFrame s.cfg.running id g.hdr (24 + arrived u f) m u).1 ∧
                    t = (admitFrame s.cfg.running id g.hdr (24 + arrived u f) m u).2.putInflight id g)))) ∧
    (∀ f, AMap.find s.fabric.inflight id = some f → f.decided = false → f.lost = true →
      Gives (.ingressDecision id) s fun t => Only [.fabric] s t ∧ t.fabric.frames = s.fabric.frames ∧
        t.fabric.queues = s.fabric.queues ∧ ∀ g, AMap.find t.fabric.inflight id = some g → g.bytes = f.bytes ∧ g.lost = true) ∧
    (∀ f, AMap.find s.fabric.inflight id = some f → f.decided = true → exec (.ingressDecision id) s = .next s) ∧
    (AMap.find s.fabric.inflight id = none → exec (.ingressDecision id) s = .next s)

/-- O27. A decided frame leaves the frames in flight. One discarded by its decision is not stored. One with a place, all of
whose cells it holds by then, with no pair tag and no filter, is stored with its bytes, and every member of every
place it was written to has a reference to it in its queue of the frame's class, with that member's MARK_CE, linked 8
core cycles later. One that the MAC had discarded returns its cells, and nothing else. A frame not decided stays. -/
def Obligations.FramesLinked : Prop :=
  ∀ (id : Nat) (f : Inflight) (s : State), AMap.find s.fabric.inflight id = some f →
    (f.lost = false → f.decided = true → Gives (.receivedAndChecked id) s fun t =>
      AMap.find t.fabric.inflight id = none ∧
      (f.discarded = true → t.fabric.frames = s.fabric.frames ∧ t.fabric.queues = s.fabric.queues) ∧
      (f.discarded = false → f.placed ≠ [] → f.claim = none → f.late.filter = none → f.late.emptied = none →
        (∀ pl ∈ f.placed, (pl.offset + (24 + f.bytes.length) + 63) / 64 ≤ pl.cells.length) →
        ∃ g, AMap.find t.fabric.frames id = some g ∧ g.bytes = f.bytes ∧ g.checkedAt = s.cycle ∧ g.hdr.tc = f.hdr.tc ∧
          ∀ pl ∈ f.placed, ∀ m ∈ pl.members, ∃ r ∈ (t.queue m.1 g.hdr.tc).refs,
            r.frame = id ∧ r.markCe = m.2 ∧ r.linkedAt = s.cycle + 8)) ∧
    (f.lost = true → exec (.receivedAndChecked id) s = .next (abandonFrame f (s.dropInflight id))) ∧
    (f.lost = false → f.decided = false → exec (.receivedAndChecked id) s = .next s)

/-- O28. LEARN_APPLY applies the first request and only it: with a static row of its key, or an entry on the same port, nothing
is learned; an entry on another port moves when the port has room and is counted as a move; an unknown address takes
the lowest free way of its bucket when there is one and the port has room and is counted as learned; otherwise the
refusal is counted and the database stays. With no request nothing changes. A sweep that is due deletes the entries
not hit since the last one, clears HIT of the others and is due again AGEING_TIME later; before that nothing changes.
FLUSH_COMPLETE ends the flush and keeps what is learned. -/
def Obligations.AddressesLearned : Prop :=
  (∀ (r : LearnReq) (l : List LearnReq) (s : State), s.fdb.requests = r :: l → Gives .learnApply s fun t =>
    t.fdb.requests = l ∧ Only [.fdb, .cnt] s t ∧
    (∀ k, k ≠ r.key → AMap.find t.fdb.learned k = AMap.find s.fdb.learned k) ∧
    ((s.row 0x2004 r.key).isSome = true → t.fdb.learned = s.fdb.learned) ∧
    ((s.row 0x2004 r.key).isSome = false →
      (∀ e, AMap.find s.fdb.learned r.key = some e → e.port = r.port → t.fdb.learned = s.fdb.learned) ∧
      (∀ e, AMap.find s.fdb.learned r.key = some e → e.port ≠ r.port → learnRoom s r.port = true →
        AMap.find t.fdb.learned r.key = some { e with port := r.port, hit := true } ∧ t.cnt = (s.bumpPort r.port 0x38).cnt) ∧
      (∀ w, AMap.find s.fdb.learned r.key = none →
        freeWay (waysUsed s.fdb.learned s.fdb.staticWay (fdbBucket r.key)) = some w → learnRoom s r.port = true →
        AMap.find t.fdb.learned r.key = some { port := r.port, hit := true, way := w } ∧
          t.cnt = (s.bumpPort r.port 0x37).cnt) ∧
      (AMap.find s.fdb.learned r.key = none →
        freeWay (waysUsed s.fdb.learned s.fdb.staticWay (fdbBucket r.key)) = none ∨ learnRoom s r.port = false →
        t.fdb.learned = s.fdb.learned ∧ t.cnt = (s.bumpPort r.port 0x39).cnt))) ∧
  (∀ s : State, s.fdb.requests = [] → exec .learnApply s = .next s) ∧
  (∀ s : State, isAlive s.chip.mode = true → s.fdb.sweepDue ≤ s.cycle → Gives .ageingSweep s fun t =>
    t.fdb.sweepDue = s.cycle + 1600000000 * s.cfgN 0x2000 1 ∧ Only [.fdb] s t ∧
    (∀ e ∈ t.fdb.learned, e.2.hit = false ∧ (e.1, { e.2 with hit := true }) ∈ s.fdb.learned) ∧
    (∀ e ∈ s.fdb.learned, e.2.hit = true → (e.1, { e.2 with hit := false }) ∈ t.fdb.learned)) ∧
  (∀ s : State, s.cycle < s.fdb.sweepDue → exec .ageingSweep s = .next s) ∧
  (∀ s : State, exec .flushComplete s = .next { s with fdb := { s.fdb with flush := none } })

/-- O29. For an accepted request with the WRITE right in HOLD, ARMED and RUN, performed in the state s that the requests ahead
of it leave: FLUSH_PORT deletes the learned entries of a present port, or of every port with 0xFFFF, and the flush is
in progress; UNBLOCK_FILTER of a filter that has a row clears its BLOCKED; RESET_GATE of a gate that has a row clears
its LATCHED. A port or a gate that is absent answers ABSENT_UNIT, a filter or a gate without a row NO_OBJECT; nothing
then changes. -/
def Obligations.ClassifierActions : Prop :=
  ∀ (r : Requester) (s0 s : State), s = engineTurn r.path s0 → Accepted r s → bit (rightsOf s r) 1 = true →
    s.chip.mode ∈ [.hold, .armed, .run] →
    (∀ p, p < 263 → portPresent s.ident p = true → exec (.flushPort r p) s0 =
      .next { s with
        fdb := { s.fdb with learned := s.fdb.learned.filter (fun e => e.2.port != p), flush := some p }
        out := .answer r 0 none :: s.out }) ∧
    (∀ p, p < 263 → portPresent s.ident p = false →
      exec (.flushPort r p) s0 = .next { s with out := .answer r 11 none :: s.out }) ∧
    exec (.flushPort r 0xFFFF) s0 =
      .next { s with fdb := { s.fdb with learned := [], flush := some 0xFFFF }, out := .answer r 0 none :: s.out } ∧
    (∀ k, k < 65536 →
      ((s.row 0x2100 k).isSome = true → exec (.unblockFilter r k) s0 =
        .next { s with psfp := { s.psfp with blocked := AMap.del s.psfp.blocked k }, out := .answer r 0 none :: s.out }) ∧
      ((s.row 0x2100 k).isSome = false →
        exec (.unblockFilter r k) s0 = .next { s with out := .answer r 1 none :: s.out })) ∧
    (∀ k, k < 65536 →
      (k < 4352 → absentKey s.ident 0x2101 k = true →
        exec (.resetGate r k) s0 = .next { s with out := .answer r 11 none :: s.out }) ∧
      (¬(k < 4352 ∧ absentKey s.ident 0x2101 k = true) → (s.row 0x2101 k).isSome = false →
        exec (.resetGate r k) s0 = .next { s with out := .answer r 1 none :: s.out }) ∧
      (¬(k < 4352 ∧ absentKey s.ident 0x2101 k = true) → (s.row 0x2101 k).isSome = true → exec (.resetGate r k) s0 =
        .next ((s.updSgate k fun g => { g with latched := 0 }).emit (.answer r 0 none))))

/-- O30. At a port that may transmit and holds no frame, selection takes the head of the queue that R221 and R222 choose out of
its queue and disposes of it, or lets a held fragment go on when they choose none; elsewhere nothing changes. A head
whose header read found an uncorrectable word is dropped and counted, as is one whose link is down; one that recovery
discards is dropped. At a line or management port with its link up, a frame that recovery passes, whose tags fit and
that is no MAC control frame goes to the MAC: to the preemptable one where its class is preemptable, else to the
express one, with its reference, its class and its bytes as edited for the port. -/
def Obligations.FramesSelected : Prop :=
  (∀ (p : Nat) (hdr : ReadBack) (s : State),
    (p < 263 → egressOn s p = true → (s.port p).tx = none → (isHost p = true → hostAsks s (p - 256) = true) →
      (∀ s2, choose p (testHeads p (gateTick p s)) = (none, s2) →
        exec (.frameSelected p hdr) s = .next (resumeFragment p s2)) ∧
      (∀ tc s2 r f, choose p (testHeads p (gateTick p s)) = (some tc, s2) → headRef s2 p tc = some r →
        AMap.find s2.fabric.frames r.frame = some f → exec (.frameSelected p hdr) s =
          .next (emptyQueue p tc (dispose p tc r f hdr (s2.updQueue p tc fun q =>
            { q with refs := q.refs.tail, servedAt := some s2.cycle }))))) ∧
    (263 ≤ p ∨ egressOn s p = false ∨ (s.port p).tx.isSome = true ∨ (isHost p = true ∧ hostAsks s (p - 256) = false) →
      exec (.frameSelected p hdr) s = .next s)) ∧
  (∀ (p tc : Nat) (r : Ref) (f : Stored) (hdr : ReadBack) (s : State) (x : Form), x = egressForm s p f r.markCe →
    (0 < hdr.bad → (dispose p tc r f hdr s).ports = s.ports ∧ (dispose p tc r f hdr s).out = s.out ∧
      (p < 256 → (dispose p tc r f hdr s).counter (portCounters p) 0x55 0 = (s.counter (portCounters p) 0x55 0 + 1) % 2 ^ 64)) ∧
    (∀ s1, hdr.bad = 0 → p ≠ 262 → recoverFrame p f.hdr (countEcc f p hdr s) = (false, s1) →
      (dispose p tc r f hdr s).ports = s.ports ∧ (dispose p tc r f hdr s).out = s.out) ∧
    (∀ s1, hdr.bad = 0 → p < 256 → recoverFrame p f.hdr (countEcc f p hdr s) = (true, s1) → (s.port p).up = false →
      (dispose p tc r f hdr s).ports = s.ports ∧ (dispose p tc r f hdr s).out = s.out ∧
      (dispose p tc r f hdr s).counter (portCounters p) 0x13 0 = (s.counter (portCounters p) 0x13 0 + 1) % 2 ^ 64) ∧
    (∀ s1, hdr.bad = 0 → p < 256 ∨ p = 260 ∨ p = 261 → recoverFrame p f.hdr (countEcc f p hdr s) = (true, s1) →
      (s.port p).up = true → x.rtagOver = false → x.pairOver = false → macControl p x = false →
      ∃ y : Tx, y.ref = r ∧ y.tc = tc ∧ y.frame = f ∧ y.bytes = x.bytes ∧
        (preemptable s p tc = true → ((dispose p tc r f hdr s).port p).pre = some y) ∧
        (preemptable s p tc = false → ((dispose p tc r f hdr s).port p).tx = some y)))

/-- O31. When the line time of an express or ordinary frame at a line or management port has passed, with no fragment in
transmission and no verify or respond frame due, the frame leaves the port. With nothing before it that still waits
for its departure stamp, and its own stamp taken where it needs one: its bytes go out (stomped where its carriage
check fails or it could not be edited, and outside near-end loopback) and it is counted; sent into the shadow it only
counts. A frame whose stamp is still to come waits. Before the line time has passed nothing changes. Every 64 core
cycles each queue's average moves toward its depth by the weight's fraction. -/
def Obligations.FramesTransmitted : Prop :=
  (∀ (p : Nat) (body : ReadBack) (x : Tx) (s : State), p < 256 ∨ p = 260 ∨ p = 261 →
    (s.port p).pre = none → (s.port p).tx = some x →
    (lineDone s p x.start (8 + x.bytes.length + 4) = false → exec (.frameTransmitted p body) s = .next s) ∧
    (lineDone s p x.start (8 + x.bytes.length + 4) = true → (s.port p).owed = [] →
      ∀ bad, bad = carriageBad x.frame (joinReads x.reads body) → Gives (.frameTransmitted p body) s fun t =>
        (t.port p).tx = none ∧
        (t.port p).freeAt = max (s.port p).freeAt (x.start + (8 + (x.bytes.length + 4) + 12) * byteTime s p) ∧
        ((s.port p).leaving = [] → x.stamped = true → x.stamp = none →
          (t.port p).leaving = [{ tx := x, pre := false, len := x.bytes.length - x.sent, last := true, bad := bad }] ∧
          t.out = s.out ∧ t.counter (portCounters p) 0x10 0 = s.counter (portCounters p) 0x10 0) ∧
        ((s.port p).leaving = [] → x.stamped = false ∨ x.stamp.isSome = true → (t.port p).leaving = [] ∧
          (x.shadow = true → t.counter (portCounters p) 0x95 0 = (s.counter (portCounters p) 0x95 0 + 1) % 2 ^ 64) ∧
          (x.shadow = false → loopbackOf s p ≠ 1 → .frame p x.bytes (bad || x.noEdit || x.ended) ∈ t.out ∧
            t.counter (portCounters p) 0x10 0 = (s.counter (portCounters p) 0x10 0 + 1) % 2 ^ 64)))) ∧
  (∀ s : State, isAlive s.chip.mode = true →
    (s.fabric.avgAt + 64 ≤ s.cycle → Gives .averageDepthUpdate s fun t =>
      t.fabric.avgAt = s.cycle - s.cycle % 64 ∧ Only [.fabric] s t ∧
      t.fabric.queues = s.fabric.queues.map fun e =>
        (e.1, { e.2 with avg := avgStep (s.cfgN 0x1800 1) e.2.avg (queueDepth s (e.1 / 8) (e.1 % 8)) })) ∧
    (s.cycle < s.fabric.avgAt + 64 → exec .averageDepthUpdate s = .next s))

/-- O32. A verify frame at a port with pre-emption enabled makes a respond frame due; with none due before it that frame goes
at once where the port can start one, else it stays due. Where pre-emption is not enabled it counts as an unexpected
delimiter, as a respond frame does. A respond frame to a port that is verifying, or had failed, gives SUCCEEDED and
takes back verify frames still due. When VERIFY_TIME has passed on an up link with frames left to send, the next
verify frame goes the same way; with none left, VERIFY_STATUS is FAILED and the failure is counted; until then nothing
changes. -/
def Obligations.VerificationRuns : Prop :=
  ∀ (p : Nat) (s : State),
    (macReceives s p = true → preemptCfg s p 1 = 1 →
      ∀ u, u = s.updPort p (fun x => { x with owed := x.owed ++ [false] }) → (s.port p).owed = [] →
      (controlFree u p = true → Gives (.verifyFrameReceived p) s fun t =>
        t.out = .respondFrame p :: s.out ∧ (t.port p).owed = [] ∧ (t.port p).verify = (s.port p).verify) ∧
      (controlFree u p = false → exec (.verifyFrameReceived p) s = .next u)) ∧
    (macReceives s p = true → preemptCfg s p 1 ≠ 1 → (s.port p).owed = [] →
      exec (.verifyFrameReceived p) s = .next (if p < 256 then s.bumpPort p 0x19 else s) ∧
      exec (.respondFrameReceived p) s = .next (if p < 256 then s.bumpPort p 0x19 else s)) ∧
    (macReceives s p = true → preemptCfg s p 1 = 1 → (s.port p).verify = 2 ∨ (s.port p).verify = 4 →
      exec (.respondFrameReceived p) s =
        .next (s.updPort p fun x => { x with verify := 3, owed := x.owed.filter (!·) })) ∧
    (preemptCfg s p 1 = 1 → (s.port p).up = true → (s.port p).verify = 2 → (s.port p).owed = [] →
      (s.cycle < (s.port p).verifyDue → exec (.verifyTimeExpiry p) s = .next s) ∧
      ((s.port p).verifyDue ≤ s.cycle → preemptCfg s p 5 ≤ (s.port p).verifySent → exec (.verifyTimeExpiry p) s =
        .next ((s.updPort p fun x => { x with verify := 4 }).bumpPort p 0x1E)) ∧
      ((s.port p).verifyDue ≤ s.cycle → (s.port p).verifySent < preemptCfg s p 5 → loopbackOf s p ≠ 1 →
        ∀ u, u = s.updPort p (fun x => { x with owed := [true] }) →
        (controlFree u p = true → Gives (.verifyTimeExpiry p) s fun t =>
          (t.port p).verify = 2 ∧ (t.port p).verifySent = (s.port p).verifySent + 1 ∧
          (t.port p).verifyDue = s.cycle + 1600000 * preemptCfg s p 4 ∧ t.out = .verifyFrame p :: s.out) ∧
        (controlFree u p = false → exec (.verifyTimeExpiry p) s = .next u)))

/-- O33. A parity error in a crosspoint of two present slices fences it, with its fault in block 7; a second one within 1 s of
the last leaves it fenced until RESET, and further ones then change nothing. FENCE_UNLINK takes every reference to a
frame of the crosspoint that is not in transmission out of the queues. FENCE_REBUILD then frees its cells and tails,
lifts the fence and counts it; at a fence in force for good it does nothing. In the other cases, and before LOAD,
nothing changes. -/
def Obligations.FencesHeal : Prop :=
  ∀ (i j : Nat) (s : State), slicePresent s.ident i = true → slicePresent s.ident j = true → i < 17 → j < 17 →
    (isAlive s.chip.mode = true → (s.xp (xpKey i j)).fence ≠ .permanent →
      ((s.xp (xpKey i j)).lastError = none ∨
          (∃ at_, (s.xp (xpKey i j)).lastError = some at_ ∧ at_ + 1600000000 ≤ s.cycle) →
        Gives (.parityFence i j) s fun t =>
        (t.xp (xpKey i j)).fence = .fenced ∧ (t.xp (xpKey i j)).lastError = some s.cycle ∧
        bit (t.fault 7 j).status 1 = true ∧ (∀ x, x ≠ xpKey i j → t.xp x = s.xp x)) ∧
      (∀ at_, (s.xp (xpKey i j)).lastError = some at_ → s.cycle < at_ + 1600000000 → Gives (.parityFence i j) s fun t =>
        (t.xp (xpKey i j)).fence = .permanent ∧ bit (t.fault 7 j).status 2 = true ∧
        (∀ x, x ≠ xpKey i j → t.xp x = s.xp x))) ∧
    (isAlive s.chip.mode = false ∨ (s.xp (xpKey i j)).fence = .permanent → exec (.parityFence i j) s = .next s) ∧
    ((s.xp (xpKey i j)).fence = .fenced ∨ (s.xp (xpKey i j)).fence = .permanent → Gives (.fenceUnlink i j) s fun t =>
      ((s.xp (xpKey i j)).fence = .fenced → (t.xp (xpKey i j)).fence = .unlinked) ∧
      ((s.xp (xpKey i j)).fence = .permanent → (t.xp (xpKey i j)).fence = .permanent) ∧ t.ports = s.ports ∧
      ∀ p tc, p < 263 → tc < 8 → ∀ r ∈ (t.queue p tc).refs, refInXp s (xpKey i j) p r = false) ∧
    ((s.xp (xpKey i j)).fence = .unlinked → exec (.fenceUnlink i j) s = .next s ∧ Gives (.fenceRebuild i j) s fun t =>
      (t.xp (xpKey i j)).fence = .none ∧ (t.xp (xpKey i j)).cells = [] ∧ (t.xp (xpKey i j)).tails = [] ∧
      t.counter 0x9200 7 (xpKey i j) = (s.counter 0x9200 7 (xpKey i j) + 1) % 2 ^ 64) ∧
    ((s.xp (xpKey i j)).fence = .none → exec (.fenceUnlink i j) s = .next s) ∧
    ((s.xp (xpKey i j)).fence ≠ .unlinked → exec (.fenceRebuild i j) s = .next s)

/-- O34. For an accepted request with the WRITE right in HOLD, ARMED and RUN, performed in the state s that the requests ahead
of it leave, on a unit that is unpaired or holds ACTIVE: RESET_RECOVERY of a row's key makes the context take any
number next, ends its guard, empties its history, stops its timers and those of its members, keeps RecovSeqNum and
counts; RESET_GENERATION of a row's key sets GEN_SEQ_NUM to 0 and counts; 0xFFFFFFFF does so for every row. A key
beyond its slice's range answers OUT_OF_RANGE, one of an absent slice ABSENT_UNIT, and another without a row
NO_OBJECT; nothing then changes. On a paired unit without ACTIVE both answer CLAIM_LOST and change nothing. -/
def Obligations.FrerResets : Prop :=
  ∀ (r : Requester) (k : Nat) (s0 s : State), s = engineTurn r.path s0 → Accepted r s → bit (rightsOf s r) 1 = true →
    s.chip.mode ∈ [.hold, .armed, .run] → k < 2 ^ 32 →
    (isPaired s = true → s.pair.role ≠ 2 →
      exec (.resetRecovery r k) s0 = .next { s with out := .answer r 12 none :: s.out } ∧
      exec (.resetGeneration r k) s0 = .next { s with out := .answer r 12 none :: s.out }) ∧
    (isPaired s = false ∨ s.pair.role = 2 →
      (k = 0xFFFFFFFF →
        exec (.resetRecovery r k) s0 = .next (((AMap.keys (imgTable s.cfg.running 0x3003)).foldl resetRecoveryKey s).emit
          (.answer r 0 none)) ∧
        exec (.resetGeneration r k) s0 = .next (((AMap.keys (imgTable s.cfg.running 0x3001)).foldl resetGen s).emit
          (.answer r 0 none))) ∧
      (k ≠ 0xFFFFFFFF → ¬(k < 17 * 16384 ∧ (k / 16384 = 16 ∨ k % 16384 < 15360)) →
        exec (.resetRecovery r k) s0 = .next { s with out := .answer r 7 none :: s.out }) ∧
      (k < 17 * 16384 → k / 16384 = 16 ∨ k % 16384 < 15360 →
        (slicePresent s.ident (k / 16384) = false →
          exec (.resetRecovery r k) s0 = .next { s with out := .answer r 11 none :: s.out }) ∧
        (slicePresent s.ident (k / 16384) = true → (s.row 0x3003 k).isSome = false →
          exec (.resetRecovery r k) s0 = .next { s with out := .answer r 1 none :: s.out }) ∧
        (slicePresent s.ident (k / 16384) = true → (s.row 0x3003 k).isSome = true → Gives (.resetRecovery r k) s0 fun t =>
          t.recov k = resetContext (s.recov k) ∧ (t.recov k).takeAny = true ∧ (t.recov k).history = [] ∧
          (t.recov k).guard = false ∧ (t.recov k).timerOn = false ∧ (∀ m ∈ (t.recov k).members, m.timerOn = false) ∧
          (t.recov k).recov = (s.recov k).recov ∧ (∀ j, j ≠ k → t.recov j = s.recov j) ∧
          t.counter 0x3005 8 k = (s.counter 0x3005 8 k + 1) % 2 ^ 64 ∧ t.out = .answer r 0 none :: s.out ∧
          Only [.frer, .cnt, .out] s t)) ∧
      (k ≠ 0xFFFFFFFF → ¬(k < 17 * 4096 ∧ (k / 4096 = 16 ∨ k % 4096 < 3840)) →
        exec (.resetGeneration r k) s0 = .next { s with out := .answer r 7 none :: s.out }) ∧
      (k < 17 * 4096 → k / 4096 = 16 ∨ k % 4096 < 3840 →
        (slicePresent s.ident (k / 4096) = false →
          exec (.resetGeneration r k) s0 = .next { s with out := .answer r 11 none :: s.out }) ∧
        (slicePresent s.ident (k / 4096) = true → (s.row 0x3001 k).isSome = false →
          exec (.resetGeneration r k) s0 = .next { s with out := .answer r 1 none :: s.out }) ∧
        (slicePresent s.ident (k / 4096) = true → (s.row 0x3001 k).isSome = true → Gives (.resetGeneration r k) s0 fun t =>
          AMap.get 0 t.frer.gens k = 0 ∧ (∀ j, j ≠ k → AMap.get 0 t.frer.gens j = AMap.get 0 s.frer.gens j) ∧
          t.frer.recs = s.frer.recs ∧ t.counter 0x3002 5 k = (s.counter 0x3002 5 k + 1) % 2 ^ 64 ∧
          t.out = .answer r 0 none :: s.out ∧ Only [.frer, .cnt, .out] s t)))

/-- O35. For a context that has a row: a reset timer that runs and has reached RESET_TIME resets the context, or the member
state under INDIVIDUAL recovery, and counts; until then nothing changes (that it runs from its restart to the next
reset is log entry 13). A latent test that is due compares the counts of passed and discarded frames: a difference
above the limit sets LATENT_ERROR and counts, and where it was 0 pulses the slice's line and stands in block 5 from
LOAD on; another clears it. A latent reset that is due, with no test due at or before it, clears the two counts and
counts. Where latent detection does not run, and before they are due, test and reset change nothing. -/
def Obligations.FrerTimers : Prop :=
  ∀ (k : Nat) (s : State), (s.row 0x3003 k).isSome = true →
    ((s.recov k).timerOn = true →
      ((s.recov k).timerAt + 1600 * recField s s.cfg.running k 6 ≤ s.cycle → exec (.recoveryResetTimer k) s =
        .next ((s.updRecov k resetContext).bumpK 0x3005 8 k)) ∧
      (s.cycle < (s.recov k).timerAt + 1600 * recField s s.cfg.running k 6 → exec (.recoveryResetTimer k) s = .next s)) ∧
    ((s.recov k).timerOn = false → exec (.recoveryResetTimer k) s = .next s) ∧
    (∀ (m : Nat) (y : Member), m < 4 → recField s s.cfg.running k 8 = 1 → (s.recov k).members[m]? = some y →
      y.timerOn = true →
      (y.timerAt + 1600 * recField s s.cfg.running k 6 ≤ s.cycle → Gives (.memberResetTimer k m) s fun t =>
        (t.recov k).members[m]? = some (resetMember y) ∧ (t.recov k).recov = (s.recov k).recov ∧
        (∀ n, n ≠ m → (t.recov k).members[n]? = (s.recov k).members[n]?) ∧ (∀ j, j ≠ k → t.recov j = s.recov j) ∧
        (t.recov k).takeAny = (s.recov k).takeAny ∧ t.counter 0x3005 8 k = (s.counter 0x3005 8 k + 1) % 2 ^ 64 ∧
        Only [.frer, .cnt] s t) ∧
      (s.cycle < y.timerAt + 1600 * recField s s.cfg.running k 6 → exec (.memberResetTimer k m) s = .next s)) ∧
    (latentOn s k = false ∨ s.cycle < latentTestDue s k → exec (.latentTest k) s = .next s) ∧
    (latentOn s k = true → latentTestDue s k ≤ s.cycle → ∀ drifts : Prop,
      (drifts ↔ recField s s.cfg.running k 12 <
        (((s.recov k).pw : Int) * (recField s s.cfg.running k 11 - 1 : Nat) - (s.recov k).dw).natAbs) →
      Gives (.latentTest k) s fun t =>
        (t.recov k).testAt = latentTestDue s k ∧ (t.recov k).pw = (s.recov k).pw ∧ (t.recov k).dw = (s.recov k).dw ∧
        ((t.recov k).latentError = true ↔ drifts) ∧
        (drifts → t.counter 0x3005 9 k = (s.counter 0x3005 9 k + 1) % 2 ^ 64) ∧
        (¬drifts → Only [.frer] s t) ∧
        (drifts → (s.recov k).latentError = true → Only [.frer, .cnt] s t) ∧
        (drifts → (s.recov k).latentError = false → (192 + recSlice k, s.cycle) ∈ t.intc.pulses ∧
          (isAlive s.chip.mode = true → blockPresent s.ident 5 = true → bit (t.fault 5 (recSlice k)).status 0 = true))) ∧
    (latentOn s k = true →
      (s.recov k).latentResetAt + 1600000 * recField s s.cfg.running k 14 ≤ s.cycle →
      (s.recov k).latentResetAt + 1600000 * recField s s.cfg.running k 14 < latentTestDue s k →
      Gives (.latentReset k) s fun t =>
        (t.recov k).pw = 0 ∧ (t.recov k).dw = 0 ∧ (t.recov k).recov = (s.recov k).recov ∧
        t.counter 0x3005 0x0A k = (s.counter 0x3005 0x0A k + 1) % 2 ^ 64 ∧ Only [.frer, .cnt] s t) ∧
    (latentOn s k = false ∨ s.cycle < (s.recov k).latentResetAt + 1600000 * recField s s.cfg.running k 14 ∨
      latentTestDue s k ≤ (s.recov k).latentResetAt + 1600000 * recField s s.cfg.running k 14 →
      exec (.latentReset k) s = .next s)

/-- O36. Through a function that reaches the device, for an enabled domain whose SOURCE leaves rates to software in HOLD, ARMED
and RUN: an increment within R239 is committed, behind those that wait, for the first tick that starts 8 ns or later,
and an adjustment window of the written number of ticks likewise; an increment outside R239, another owner, a disabled
domain or another state refuses the write, sets RATE_REFUSED (noted as an event of this core cycle, R14) and counts.
At an enabled domain the changes due by the next tick are taken in their order: the last window due opens, restarts or
with 0 ticks closes, and outside a window the last increment due applies; those not yet due wait. A window whose ticks
have run out closes and lets the committed increments through, or the running increment applies. At a disabled domain,
and for a window that is closed or has ticks left, nothing changes. -/
def Obligations.RateCommands : Prop :=
  ∀ (f d v : Nat) (s : State), d < 8 →
    (s.barReach f = true →
      (∀ inc, inc = v % 256 * 2 ^ 32 + (s.fnTime f d).incLo →
        (rateOwnerRefuses s d = false → incAllowed inc = true →
          exec (.incrementHiWrite f d v) s = .next (s.updDom d fun x =>
            { x with incNext := x.incNext ++ [(BitVec.ofNat 40 inc, (5 * s.cycle + 7) / 8 + 8)] })) ∧
        (rateOwnerRefuses s d = true ∨ incAllowed inc = false → exec (.incrementHiWrite f d v) s =
          .next (((s.updDom d fun x => { x with rateRefused := true }).hit (.domStatus d 9) 0).bump (domObj d) 0x22))) ∧
      (∀ inc, inc = (s.dom d).adjHi % 256 * 2 ^ 32 + (s.fnTime f d).adjLo → v < 2 ^ 32 →
        (rateOwnerRefuses s d = false → v = 0 ∨ incAllowed inc = true → exec (.adjTicksWrite f d v) s =
          .next (s.updDom d fun x =>
            { x with adjNext := x.adjNext ++ [(BitVec.ofNat 40 inc, v, (5 * s.cycle + 7) / 8 + 8)] })) ∧
        (rateOwnerRefuses s d = true ∨ v ≠ 0 ∧ incAllowed inc = false → exec (.adjTicksWrite f d v) s =
          .next (((s.updDom d fun x => { x with rateRefused := true }).hit (.domStatus d 9) 0).bump (domObj d) 0x22)))) ∧
    (rateOwnerRefuses s d = false ↔
      s.domSource d ≠ 2 ∧ s.domSource d ≠ 3 ∧ (s.dom d).enabled = true ∧ s.chip.mode ∈ [.hold, .armed, .run]) ∧
    ((s.dom d).enabled = true →
      ∀ now later, now = (s.dom d).incNext.filter (fun e => decide (e.2 ≤ tickOf s.cycle + 1)) →
        later = (s.dom d).incNext.filter (fun e => decide (tickOf s.cycle + 1 < e.2)) →
        ∀ wNow wLater, wNow = (s.dom d).adjNext.filter (fun e => decide (e.2.2 ≤ tickOf s.cycle + 1)) →
        wLater = (s.dom d).adjNext.filter (fun e => decide (tickOf s.cycle + 1 < e.2.2)) →
        Gives (.rateChangeDue d) s fun t =>
          (∀ e, e ≠ d → t.dom e = s.dom e) ∧ Only [.time] s t ∧
          (wNow = [] → (s.dom d).adjOpen = true → t.dom d = s.dom d) ∧
          (wNow = [] → (s.dom d).adjOpen = false →
            t.dom d = { s.dom d with inc := (now.getLast?.map (·.1)).getD (s.dom d).inc, incNext := later }) ∧
          (∀ before inc n tick, wNow = before ++ [(inc, n, tick)] →
            (0 < n → t.dom d = { s.dom d with adjInc := inc, adjLeft := n, adjOpen := true, adjNext := wLater }) ∧
            (n = 0 → t.dom d = { s.dom d with
              adjInc := inc, adjLeft := 0, adjOpen := false, adjNext := wLater
              inc := (now.getLast?.map (·.1)).getD (s.dom d).inc, incNext := later }))) ∧
    ((s.dom d).enabled = false → exec (.rateChangeDue d) s = .next s) ∧
    ((s.dom d).adjOpen = true → (s.dom d).adjLeft = 0 → Gives (.adjWindowEnd d) s fun t =>
      t.dom d = { s.dom d with
        adjOpen := false
        inc := (((s.dom d).incNext.filter fun e => decide (e.2 ≤ tickOf s.cycle + 1)).getLast?.map (·.1)).getD (s.dom d).inc
        incNext := (s.dom d).incNext.filter fun e => decide (tickOf s.cycle + 1 < e.2) } ∧
      (∀ e, e ≠ d → t.dom e = s.dom e) ∧ Only [.time] s t) ∧
    ((s.dom d).adjOpen = false ∨ (s.dom d).adjLeft ≠ 0 → exec (.adjWindowEnd d) s = .next s)

/-- O37. Through a function that reaches the device: a write of STEP_CTRL with GO, for an enabled domain whose SOURCE leaves it
to software in HOLD, ARMED and RUN, in a mode that allows a step and with none pending, leaves the staged step pending
for the first tick that starts 8 ns or later; a step refused sets STEP_REFUSED (noted as an event of this core cycle,
R14) and counts, and KIND stays as it was; without GO only KIND is set. In its tick the step changes the domain's
value by itself, counts, pulses the step line, and leaves no step pending; the other domains keep their values; before
it nothing changes. ARM of an enabled domain arms it in the mode written, by register or, performed in the state that
the requests ahead of it leave, by its entry; the register at a disabled one refuses, sets RATE_REFUSED and counts. -/
def Obligations.StepsAndArming : Prop :=
  ∀ (f d v : Nat) (s : State), d < 8 →
    (s.barReach f = true → bit v 0 = true →
      (rateOwnerRefuses s d = false → stepAllowed (s.dom d) = true → (s.dom d).step = none →
        exec (.go f d v) s = .next (s.updDom d fun x =>
          { x with kind := bit v 1, step := some (bit v 1, stagedStep (s.fnTime f d), (5 * s.cycle + 7) / 8 + 8) })) ∧
      (rateOwnerRefuses s d = true ∨ stepAllowed (s.dom d) = false ∨ (s.dom d).step.isSome = true →
        exec (.go f d v) s = .next
          (((s.updDom d fun x => { x with stepRefused := true }).hit (.domStatus d 8) 0).bump (domObj d) 0x21))) ∧
    (s.barReach f = true → bit v 0 = false →
      exec (.go f d v) s = .next (s.updDom d fun x => { x with kind := bit v 1 })) ∧
    ((s.dom d).step = none → exec (.stepApply d) s = .next s) ∧
    (∀ absolute amount due, (s.dom d).step = some (absolute, amount, due) →
      (tickOf s.cycle < due → exec (.stepApply d) s = .next s) ∧
      (due ≤ tickOf s.cycle → (s.dom d).enabled = true → isAlive s.chip.mode = true → Gives (.stepApply d) s fun t =>
        (t.dom d).value = (if absolute then amount else (s.dom d).value + amount) ∧ (t.dom d).step = none ∧
        (t.dom d).steps = (s.dom d).steps + 1 ∧ (∀ e, e ≠ d → (t.dom e).value = (s.dom e).value) ∧
        t.counter (domObj d) 0x20 0 = (s.counter (domObj d) 0x20 0 + 1) % 2 ^ 64 ∧ (171 + d, s.cycle) ∈ t.intc.pulses)) ∧
    (s.barReach f = true → (s.dom d).enabled = true →
      exec (.arm none f d v) s = .next (s.updDom d fun x => { x with mode := v % 2, stepUsed := false, integ := 0 })) ∧
    (s.barReach f = true → (s.dom d).enabled = false → exec (.arm none f d v) s = .next
      (((s.updDom d fun x => { x with rateRefused := true }).hit (.domStatus d 9) 0).bump (domObj d) 0x22)) ∧
    (∀ (r : Requester) (s0 : State), s = engineTurn r.path s0 → Accepted r s → bit (rightsOf s r) 1 = true →
      s.chip.mode ∈ [.hold, .armed, .run] → (s.dom d).enabled = true → v < 2 → exec (.arm (some r) f d v) s0 =
        .next ((s.updDom d fun x => { x with mode := v, stepUsed := false, integ := 0 }).emit (.answer r 0 none)))

/-- O38. Under SOURCE SOFTWARE a report through a function that reaches the device is one measurement of that many nanoseconds;
under another source it is ignored. An edge of a PPS input less than 100 ns after the last accepted one is rejected
and changes nothing (log entry 75). Another, at an enabled domain that names the input and the edge and less than 500
ms after the last one there, is counted and not measured; otherwise it is noted, and under SOURCE PPS it measures the
offset of the captured time from the nearest second. Without a measurement for MEASURE_TIMEOUT the domain is no longer
locked, PPS_MISSING is set and block 11 records it from LOAD on; before that nothing changes. A read of TIME_FRAC
latches NS for its function and returns the fraction. In ARMED and RUN, when the domain that drives a PPS output has
first reached a later second, the output goes active for PPS_OUT_WIDTH and that second is noted; at the end of its
width it is inactive again; in the other cases nothing changes. -/
def Obligations.OffsetsMeasured : Prop :=
  (∀ (f d : Nat) (s : State), d < 8 →
    (s.barReach f = true → (s.dom d).enabled = true → ∀ v,
      (s.domSource d = 1 → Gives (.offsetReport f d v) s fun t =>
        (t.dom d).lastOffset = toSigned 32 v * 2 ^ 16 ∧ (t.dom d).measuredAt = s.cycle ∧ (t.dom d).value = (s.dom d).value ∧
        t.counter (domObj d) 0x24 0 = (s.counter (domObj d) 0x24 0 + 1) % 2 ^ 64) ∧
      (s.domSource d ≠ 1 → exec (.offsetReport f d v) s = .next s)) ∧
    (s.barReach f = true → exec (.timeFracRead f d) s =
      .next ((s.updFnTime f d fun w => { w with latchNs := s.ns d }).emit
        (.reg f (0x030000 + d * 0x100) ((s.dom d).value.toNat % 2 ^ 32)))) ∧
    (∀ (input : Nat) (rising : Bool) (quarter : Nat), isAlive s.chip.mode = true → input < 2 → (s.dom d).enabled = true →
      s.cfgN (domObj d) 4 = input → s.cfgB (domObj d) 5 = (!rising) →
      (∀ seen, s.time.ppsSeen.getD input none = some seen → seen + 160 ≤ s.cycle) →
      (∀ last, (s.dom d).lastPps = some last → s.cycle < last + 800000000 → Gives (.ppsEdge input rising quarter) s fun t =>
        t.dom d = s.dom d ∧ t.counter (domObj d) 0x25 0 = (s.counter (domObj d) 0x25 0 + 1) % 2 ^ 64) ∧
      ((∀ last, (s.dom d).lastPps = some last → last + 800000000 ≤ s.cycle) → Gives (.ppsEdge input rising quarter) s fun t =>
        (t.dom d).lastPps = some s.cycle ∧ (t.dom d).value = (s.dom d).value ∧
        (s.domSource d = 2 → (t.dom d).measuredAt = s.cycle ∧
          (t.dom d).lastOffset = ppsOffset (ppsCapture s d quarter) * 2 ^ 14))) ∧
    (∀ (input : Nat) (rising : Bool) (quarter seen : Nat), s.time.ppsSeen.getD input none = some seen →
      s.cycle < seen + 160 → exec (.ppsEdge input rising quarter) s = .next s) ∧
    ((s.dom d).enabled = true → s.domSource d ≠ 0 →
      (s.cycle < (s.dom d).measuredAt + 1600000 * s.cfgN (domObj d) 0x0E → exec (.measureTimeout d) s = .next s) ∧
      ((s.dom d).measuredAt + 1600000 * s.cfgN (domObj d) 0x0E ≤ s.cycle → Gives (.measureTimeout d) s fun t =>
        (t.dom d).locked = false ∧ (t.dom d).ppsMissing = true ∧ (t.dom d).measuredAt = s.cycle ∧ (t.dom d).good = 0 ∧
        (isAlive s.chip.mode = true → bit (t.fault 11 d).status 1 = true)))) ∧
  (∀ (k d : Nat) (s : State), k < 2 → ppsDomain s k = some d →
    (isActive s.chip.mode = true → (s.time.pps.getD k {}).last < ppsSecond s d →
      exec (.ppsOutPulse k) s = .next (s.updPps k fun o =>
        { o with active := true, last := ppsSecond s d, endAt := s.cycle + nsCycles (s.cfgN (domObj d) 0x11) })) ∧
    (isActive s.chip.mode = false ∨ ppsSecond s d ≤ (s.time.pps.getD k {}).last → exec (.ppsOutPulse k) s = .next s)) ∧
  (∀ (k : Nat) (s : State),
    (ppsDomain s k = none → exec (.ppsOutPulse k) s = .next s) ∧
    ((s.time.pps.getD k {}).active = true → (s.time.pps.getD k {}).endAt ≤ s.cycle →
      exec (.ppsOutWidthEnd k) s = .next (s.updPps k fun y => { y with active := false })) ∧
    ((s.time.pps.getD k {}).active = false ∨ s.cycle < (s.time.pps.getD k {}).endAt →
      exec (.ppsOutWidthEnd k) s = .next s))

/-- O39. Through a function that reaches the device: a read of RECORD_3 under DRAIN 0 returns the last four bytes of the oldest
record and removes it, and where records were lost and there is room for two the OVERFLOW record enters behind the
rest; of an empty FIFO, under DRAIN 1, or of one whose head has entered an empty FIFO in this core cycle (R14), it
returns 0 and removes nothing. A read of LOST returns the records lost since the last one and clears the count; where
a loss falls in this core cycle it returns the count before it and leaves what the loss added. FLUSH empties the FIFO
without counting loss; an OVERFLOW record that was due then enters. Under DRAIN 1, a level that has stayed between 1
and BATCH for 10 us requests that many records of 16 bytes; before that, and otherwise, nothing changes. -/
def Obligations.FifosDrain : Prop :=
  ∀ (f k : Nat) (s : State), k < 2 →
    (s.barReach f = true →
      (∀ rec rest, (s.fifo k).records = rec :: rest → (s.fifo k).drain = false → s.hitOf (.fifoHead k) = none →
        ((s.fifo k).lostNow = 0 ∨ 4096 < rest.length + 2 → Gives (.tineRecordRead f k) s fun t =>
          (t.fifo k).records = rest ∧ (t.fifo k).lost = (s.fifo k).lost ∧
          t.out = .reg f (0x05000C + k * 0x100) (leNat (slice rec 12 4)) :: s.out ∧ Only [.tine, .out] s t) ∧
        (0 < (s.fifo k).lostNow → rest.length + 2 ≤ 4096 → Gives (.tineRecordRead f k) s fun t =>
          (∃ overflow, (t.fifo k).records = rest ++ [overflow]) ∧ (t.fifo k).lostNow = 0 ∧
          t.out = .reg f (0x05000C + k * 0x100) (leNat (slice rec 12 4)) :: s.out)) ∧
      ((s.fifo k).records = [] ∨ (s.fifo k).drain = true ∨ (s.hitOf (.fifoHead k)).isSome = true →
        exec (.tineRecordRead f k) s = .next { s with out := .reg f (0x05000C + k * 0x100) 0 :: s.out }) ∧
      Gives (.tineLostRead f k) s (fun t =>
        (s.hitOf (.fifoLost k) = none → (t.fifo k).lost = 0 ∧
          t.out = .reg f (0x05001C + k * 0x100) (s.fifo k).lost :: s.out) ∧
        (∀ before, s.hitOf (.fifoLost k) = some before → before ≤ (s.fifo k).lost →
          (t.fifo k).lost = (s.fifo k).lost - before ∧ t.out = .reg f (0x05001C + k * 0x100) before :: s.out) ∧
        (t.fifo k).records = (s.fifo k).records ∧ Only [.tine, .out, .hits] s t) ∧
      ((s.fifo k).lostNow = 0 → exec (.flush f k) s = .next (s.updFifo k fun y => { y with records := [], since := none })) ∧
      (0 < (s.fifo k).lostNow → Gives (.flush f k) s fun t =>
        (∃ overflow, (t.fifo k).records = [overflow]) ∧ (t.fifo k).lostNow = 0 ∧ (t.fifo k).lost = (s.fifo k).lost)) ∧
    ((s.fifo k).since = none ∨ (s.fifo k).drain = false → exec (.tineDrainTimer k) s = .next s) ∧
    (∀ at_, (s.fifo k).since = some at_ → (s.fifo k).drain = true →
      (s.cycle < at_ + 16000 → exec (.tineDrainTimer k) s = .next s) ∧
      (at_ + 16000 ≤ s.cycle → (s.fifo k).records ≠ [] → Gives (.tineDrainTimer k) s fun t =>
        t.dma.owed = s.dma.owed ++ [(17 + k, { at_ := s.cycle, bytes := 16 * (s.fifo k).records.length })] ∧
        (t.fifo k).records = (s.fifo k).records ∧ (t.fifo k).since = none ∧ Only [.tine, .dma] s t))

/-- O40. At a transition of a running list the port takes the entry in force after the starts and pages of R308 and its states
as its slot holds them, and every class among its period-bound ones that closes loses the frames linked so far. A
pending list is taken at its instant, the change counted and pulsed; before it nothing changes. A page that was
requested and has arrived is on chip and counted, and its slot holds the entries that the page's four quarters in
LPDDR4X spell; one that could not be read is not. A page not requested changes nothing. A hold that is due is issued;
with pre-emption active it is counted and ends the fragment in transmission at the boundary R115 allows. A hold
already issued or not due changes nothing. -/
def Obligations.GateTransitions : Prop :=
  ∀ (p : Nat) (s : State),
    (gatesRun s p = false → exec (.gateEntryTransition p) s = .next s) ∧
    (gatesRun s p = true → ∀ u v w x now, u = takeStarts p s →
      v = (match (u.gate p).list with | some l => reanchor p l u | none => u) → w = enterEntry p v →
      x = segmentAt w p 0 →
      now = (if x.inList = true then (slotStates (w.gate p) x.entry).getD x.states else x.states) →
      Gives (.gateEntryTransition p) s fun t =>
        (t.gate p).entry = x.entry ∧ (t.gate p).states = now ∧
        ∀ tc, tc < 8 → bit (s.gate p).states tc = true → bit now tc = false →
          periodBound s s.cfg.running p tc = true → ∀ r ∈ (t.queue p tc).refs, s.cycle < r.linkedAt) ∧
    ((s.gate p).pending = none ∨ gatesRun s p = false → exec (.gateConfigChange p) s = .next s) ∧
    (∀ l x, (s.gate p).pending = some (l, x) → gatesRun s p = true →
      (0 < offsetOf (ballNow s p l.domain) x → exec (.gateConfigChange p) s = .next s) ∧
      (offsetOf (ballNow s p l.domain) x ≤ 0 → Gives (.gateConfigChange p) s fun t =>
        (t.gate p).list = some l ∧ (t.gate p).pending = none ∧ (226 + sliceOf p, s.cycle) ∈ t.intc.pulses ∧
        (p < 256 → t.counter (portCounters p) 0x85 0 = (s.counter (portCounters p) 0x85 0 + 1) % 2 ^ 64))) ∧
    (∀ page ok, (s.gate p).requested.any (fun x => x.1 == page) = false → exec (.pageArrived p page ok) s = .next s) ∧
    (∀ page ok, (s.gate p).requested.any (fun x => x.1 == page) = true → Gives (.pageArrived p page ok) s fun t =>
      (t.gate p).requested = (s.gate p).requested.filter (fun x => x.1 != page) ∧
      (t.gate p).onChip = (if ok then (s.gate p).onChip ++ [page] else (s.gate p).onChip) ∧
      (t.gate p).list = (s.gate p).list ∧ Only [.gates, .cnt] s t ∧
      (ok = false → (t.gate p).slots = (s.gate p).slots ∧ t.cnt = s.cnt) ∧
      (ok = true → p < 256 → t.counter (portCounters p) 0x83 0 = (s.counter (portCounters p) 0x83 0 + 1) % 2 ^ 64) ∧
      (ok = true → ∀ l, (s.gate p).list = some l → ∀ k, k < pageEntries l page →
        (slotOf (t.gate p) page)[k]? =
          some ((unpackEntries (memRead s.mem.cells (quarterAt (s.gate p).master page (k / 64)) 512) 64).getD (k % 64)
            (0, 0, 0)))) ∧
    (gatesRun s p = false ∨ (s.gate p).hold = true ∨ holdAt s p (holdAhead s p) = false → exec (.holdIssue p) s = .next s) ∧
    (gatesRun s p = true → (s.gate p).hold = false → holdAt s p (holdAhead s p) = true →
      (preemptActive s p = false → exec (.holdIssue p) s = .next (s.updGate p fun g => { g with hold := true })) ∧
      (preemptActive s p = true → ∀ u, u = s.updGate p (fun g => { g with hold := true }) → Gives (.holdIssue p) s fun t =>
        t.gate p = u.gate p ∧ (t.gate p).hold = true ∧
        (∀ tx, (s.port p).pre = some tx → tx.active = true →
          ∃ stop, (t.port p).pre = some { tx with stopAt := stop } ∧
            stop = stopFrom (u.bumpPort p 0x1D) p (holdInstant s p) tx) ∧
        t.counter (portCounters p) 0x1D 0 = (s.counter (portCounters p) 0x1D 0 + 1) % 2 ^ 64))

/-- O41. At an own cycle start later than the last, with the ring on, HERD_CYCLE is pulsed, the cycle is noted, silence is
counted or ended, and the running layout is in force. A master sends on every IN_USE port, and shows the loop delay it
measured last. A candidate that has sent its bids becomes master of the ring, its D 0 and valid; one with bids left
sends one more. After 3 silent cycles a listener with a rank becomes candidate and bids, and a node listens or becomes
candidate at once; otherwise a listener listens and a node keeps its master. Before the ring base, with the ring off,
and at a cycle start already taken nothing changes. -/
def Obligations.HerdCycles : Prop :=
  ∀ (s : State),
    (cycleIndex s = none ∨ ringOn s = false → exec .herdCycle s = .next s) ∧
    ∀ i, cycleIndex s = some i → ringOn s = true →
    (∀ j, s.herd.cycleNow = some j → i ≤ j → exec .herdCycle s = .next s) ∧
    ((∀ j, s.herd.cycleNow = some j → j < i) → ∀ silence, silence = (if s.herd.heard then 0 else s.herd.silence + 1) →
      Gives .herdCycle s fun t =>
      t.herd.cycleNow = some i ∧ t.herd.heard = false ∧ t.herd.silence = silence ∧
      t.herd.layout = imgTable s.cfg.running 0x5001 ∧ t.herd.layoutId = s.cfgN 0x5000 0x0A ∧
      (97, s.cycle) ∈ t.intc.pulses ∧
      (s.herd.role = 3 → t.herd.role = 3 ∧ t.herd.assembled = none ∧
        t.herd.loopShown = s.herd.loop.getD 0xFFFFFFFF % 2 ^ 32 ∧
        ∀ k, k < 2 → (ringPort t k).inUse = true → ∃ b, .ring k b false ∈ t.out) ∧
      (s.herd.role = 2 → herdN s 0x0E ≤ s.herd.bids → t.herd.role = 3 ∧ t.herd.current = some (selfMaster s) ∧
        t.herd.d = 0 ∧ t.herd.dValid = true) ∧
      (s.herd.role = 2 → s.herd.bids < herdN s 0x0E → t.herd.role = 2 ∧ t.herd.bids = s.herd.bids + 1) ∧
      (s.herd.role = 1 → silence = 3 → herdN s 4 ≠ 0 → t.herd.role = 2 ∧ t.herd.bids = 1) ∧
      (s.herd.role = 1 → silence ≠ 3 ∨ herdN s 4 = 0 → t.herd.role = 1) ∧
      (s.herd.role = 4 → silence ≠ 3 → t.herd.role = 4 ∧ t.herd.current = s.herd.current) ∧
      (s.herd.role = 4 → silence = 3 →
        t.herd.role = (if herdN s 4 = 0 then 1 else 2) ∧ t.herd.current = none))

/-- O42. 2 us before the next own cycle start a device that will originate its frame and has none assembled assembles it: a
null frame, the copies that have not begun to arrive counted, where a returned copy is still being received, else a
summation frame of the next cycle; before that instant nothing changes. A cycle point that is reached, in its tick,
pulses its line and is armed for a later cycle; one whose tick has passed is skipped, counted and armed anew without a
pulse; one not reached or not armed changes nothing. An own message not acknowledged for MAILBOX_RETRY cycles is
abandoned and counted, as is the unfinished assembly of another's; before that nothing changes. A ring port whose link
is lost has no link; where it was in use it is at once NOT_IN_USE, counted and pulsed, frames in transmission on it
are lost, and from LOAD on block 14 records it. -/
def Obligations.HerdTimers : Prop :=
  ∀ s : State,
    (∀ i, cycleIndex s = some i → originatesNext s = true → s.herd.assembled = none →
      (s.ns (herdDom s) + 2000 < ringStart s (i + 1) → exec .assemblyInstant s = .next s) ∧
      (ringStart s (i + 1) ≤ s.ns (herdDom s) + 2000 →
        (stillReceiving s = true → exec .assemblyInstant s =
          .next ((s.bumpBy 0x5002 0x11 0 (missingCopies s)).updHerd fun h => { h with
            assembled := some (ringFrame s 3 ((i + 1) % 2 ^ 32) (2 ^ herdId s) 0xFFFFFFFF 0 [], true) })) ∧
        (stillReceiving s = false → Gives .assemblyInstant s fun t =>
          ∃ u a, u.cfg = s.cfg ∧ u.herd.layoutId = s.herd.layoutId ∧ t.herd.assembled =
            some (ringFrame u 1 ((i + 1) % 2 ^ 32) (2 ^ herdId s) 0xFFFFFFFF 0 a, false)))) ∧
    (originatesNext s = false ∨ s.herd.assembled.isSome = true ∨ cycleIndex s = none →
      exec .assemblyInstant s = .next s) ∧
    (∀ k, AMap.find s.herd.cps k = none → exec (.herdCp k) s = .next s) ∧
    (∀ k i, k < 16 → AMap.find s.herd.cps k = some i →
      (s.reached (herdDom s) (pointInstant s k i) = false → exec (.herdCp k) s = .next s) ∧
      (s.reached (herdDom s) (pointInstant s k i) = true → s.overdue (herdDom s) (pointInstant s k i) = false →
        Gives (.herdCp k) s fun t =>
          (81 + k, s.cycle) ∈ t.intc.pulses ∧
          AMap.find t.herd.cps k = some (max (i + 1) (nextPoint s (herdN s (0x20 + k)))) ∧
          ∀ j, j ≠ k → AMap.find t.herd.cps j = AMap.find s.herd.cps j) ∧
      (s.overdue (herdDom s) (pointInstant s k i) = true → ∀ next, next = max i (nextPoint s (herdN s (0x20 + k))) →
        exec (.herdCp k) s = .next ((s.bumpBy 0x5002 0x1D 0 (next - i)).updHerd fun h =>
          { h with cps := AMap.set h.cps k next }))) ∧
    (ringOn s = true → s.herd.mailOut ≠ [] →
      (s.herd.mailSince + herdN s 0x0F ≤ (cycleIndex s).getD 0 →
        exec (.mailboxRetryExpiry (herdId s)) s = .next ((mailNext s).bumpHerd 0x1B)) ∧
      ((cycleIndex s).getD 0 < s.herd.mailSince + herdN s 0x0F → exec (.mailboxRetryExpiry (herdId s)) s = .next s)) ∧
    (mailNext s).herd.mailOut = s.herd.mailOut.drop 1 ∧ (mailNext s).herd.mailSeq = (s.herd.mailSeq + 1) % 256 ∧
    (mailNext s).herd.mailChunk = 0 ∧
    (∀ n m, ringOn s = true → n ≠ herdId s → AMap.find s.herd.mailIn n = some m →
      (m.done = false → m.cycle + herdN s 0x0F ≤ (cycleIndex s).getD 0 → exec (.mailboxRetryExpiry n) s =
        .next ((s.updHerd fun h => { h with mailIn := AMap.del h.mailIn n }).bumpHerd 0x1B)) ∧
      (m.done = true ∨ (cycleIndex s).getD 0 < m.cycle + herdN s 0x0F → exec (.mailboxRetryExpiry n) s = .next s)) ∧
    (∀ k, ringOn s = true → k < 2 → (ringPort s k).link = true → Gives (.ringPortLinkLost k) s fun t =>
      (ringPort t k).link = false ∧ (ringPort t k).inUse = false ∧ (∀ j, j ≠ k → ringPort t j = ringPort s j) ∧
      ((ringPort s k).inUse = true → (99, s.cycle) ∈ t.intc.pulses ∧
        t.counter 0x5002 0x16 0 = (s.counter 0x5002 0x16 0 + 1) % 2 ^ 64 ∧
        (∀ x ∈ s.herd.sending, x.port = k → s.cycle < x.ends → .ringLost k x.bytes ∈ t.out) ∧
        (isAlive s.chip.mode = true → blockPresent s.ident 14 = true → bit (t.fault 14 0).status 0 = true)) ∧
      ((ringPort s k).inUse = false → Only [.herd] s t)) ∧
    (∀ k, (ringPort s k).link = false → exec (.ringPortLinkLost k) s = .next s)

/-- O43. A frame of another kind than its command's changes nothing. A summation frame, null frame or bid whose CYCLE is not
within one of the own cycle is counted (a null frame also as such) and goes no further. A node with both ports in use
that receives on HRB a summation frame of its master, fit to be processed, sends it on, its FCS stomped where it was
bad, counts it and notes its cycle; with a good FCS it stores the RX image. A good null frame it passes unchanged. A
listener becomes a node of the frame's master. A master counts a bid, and another's frame that does not outrank it; a
candidate that a bid outranks becomes a node. A frame that is no Herd frame, or has a format error, is discarded and
counted. -/
def Obligations.HerdFramesReceived : Prop :=
  ∀ (k : Nat) (b : Bytes) (s : State),
    (∀ ok q, (ringHears s k b ok 1 = false → exec (.summationFrameRx k b ok q) s = .next s) ∧
      (ringHears s k b ok 3 = false → exec (.nullFrameRx k b ok q) s = .next s) ∧
      (ringHears s k b ok 2 = false → exec (.rutBidRx k b ok) s = .next s)) ∧
    (∀ ok q, freshCycle s b = false →
      (ringHears s k b ok 1 = true → exec (.summationFrameRx k b ok q) s = .next (s.bumpHerd 0x0D)) ∧
      (ringHears s k b ok 3 = true → exec (.nullFrameRx k b ok q) s = .next ((s.bumpHerd 5).bumpHerd 0x0D)) ∧
      (ringHears s k b ok 2 = true → exec (.rutBidRx k b ok) s = .next (s.bumpHerd 0x0D))) ∧
    (∀ ok q, ringHears s 1 b ok 1 = true → freshCycle s b = true → (ringPort s 0).inUse = true → s.herd.role = 4 →
      s.herd.current = some (hfMaster b) → notProcessed s b = none → Gives (.summationFrameRx 1 b ok q) s fun t =>
        t.herd.role = 4 ∧ t.herd.processed = hfCycle b :: s.herd.processed.filter (nearCycle (hfCycle b)) ∧
        (∃ b1, .ring 0 b1 (!ok) ∈ t.out) ∧ t.counter 0x5002 1 0 = (s.counter 0x5002 1 0 + 1) % 2 ^ 64 ∧
        (ok = true → t.herd.bank = 1 - s.herd.bank ∧ (98, s.cycle) ∈ t.intc.pulses) ∧
        (ok = false → t.herd.bank = s.herd.bank)) ∧
    (∀ q, ringHears s 1 b true 3 = true → freshCycle s b = true → (ringPort s 0).inUse = true → s.herd.role = 4 →
      s.herd.current = some (hfMaster b) → Gives (.nullFrameRx 1 b true q) s fun t =>
        .ring 0 b false ∈ t.out ∧ t.herd.bank = s.herd.bank ∧
        t.counter 0x5002 2 0 = (s.counter 0x5002 2 0 + 1) % 2 ^ 64 ∧
        t.counter 0x5002 5 0 = (s.counter 0x5002 5 0 + 1) % 2 ^ 64) ∧
    (∀ q, freshCycle s b = true → s.herd.role = 1 →
      (ringHears s k b true 1 = true → Gives (.summationFrameRx k b true q) s fun t =>
        t.herd.role = 4 ∧ t.herd.current = some (hfMaster b) ∧ t.herd.heard = true) ∧
      (ringHears s k b true 3 = true → Gives (.nullFrameRx k b true q) s fun t =>
        t.herd.role = 4 ∧ t.herd.current = some (hfMaster b) ∧ t.herd.heard = true)) ∧
    (∀ q, freshCycle s b = true → s.herd.role = 3 → (hfMaster b).addr ≠ herdN s 5 →
      outranks (hfMaster b) (selfMaster s) = false →
      (ringHears s k b true 1 = true → exec (.summationFrameRx k b true q) s = .next (s.bumpHerd 0x0E)) ∧
      (ringHears s k b true 3 = true → exec (.nullFrameRx k b true q) s = .next ((s.bumpHerd 5).bumpHerd 0x0E))) ∧
    (ringHears s k b true 2 = true → freshCycle s b = true →
      (s.herd.role = 3 → exec (.rutBidRx k b true) s = .next (s.bumpHerd 0x14)) ∧
      (s.herd.role = 2 → (hfMaster b).addr ≠ herdN s 5 → outranks (hfMaster b) (selfMaster s) = true →
        Gives (.rutBidRx k b true) s fun t =>
          t.herd.role = 4 ∧ t.herd.bids = 0 ∧ t.counter 0x5002 0x13 0 = (s.counter 0x5002 0x13 0 + 1) % 2 ^ 64)) ∧
    (∀ ok, ringOn s = true → k < 2 → (ringPort s k).link = true →
      (hfClass b ok = 1 → exec (.otherRingFrameRx k b ok) s = .next (s.bumpHerd 9)) ∧
      (hfClass b ok = 2 → exec (.otherRingFrameRx k b ok) s = .next (s.bumpHerd 8)) ∧
      (hfClass b ok = 3 → exec (.otherRingFrameRx k b ok) s = .next s))

/-- O44. PERST_N asserted, or a Hot Reset of a link that is up, takes the link down and resets every function: its
configuration space and MSI-X table are at their defaults but for PME_En and PME_Status, which stay (log entry 23),
its mailbox is as after reset, the transfers it opened close and its response count is 0; with a PME_Status set WAKE_N
is driven low, and a link that was up stands in block 15 from LOAD on. PERST_N released leaves the link down and
releases WAKE_N. A function-level reset does the same to its function, PME_En and PME_Status among it, and leaves the
others. From LOAD onwards with PERST_N released, a link with a host that offers 4 lanes or more comes up at the
highest width and rate both support, and configuration requests are then answered once the device is ready; before
that the answer is Configuration Request Retry Status, and without a link there is none. A function whose
configuration requests are answered takes its power state and the fields that the host writes; WAKE_N is released when
no function has PME_Status set. In the other cases nothing changes. -/
def Obligations.FunctionsReset : Prop :=
  ∀ s : State,
    (s.pcie.perst = false → Gives .perstNAssert s fun t =>
      t.pcie.perst = true ∧ t.pcie.linkUp = false ∧ t.pcie.cfgReady = false ∧
      (∀ f, f < 4 → { t.pf f with pmeEnable := false, pmeStatus := false, wakeSeen := false, reads := 0 } = ({} : Pf) ∧
        (t.pf f).pmeEnable = (s.pf f).pmeEnable ∧ (t.pf f).pmeStatus = (s.pf f).pmeStatus ∧
        { t.mailbox f with resetAt := none } = {} ∧ t.nap.localCount.getD f 0 = 0) ∧
      (∀ x ∈ t.nap.transfers, ∀ f, f < 4 → x.req.path ≠ .mailbox f) ∧
      (s.pcie.pfs.any (fun p => p.pmeStatus) = true → t.pcie.wakeN = false) ∧
      (s.pcie.linkUp = true → isAlive s.chip.mode = true → blockPresent s.ident 15 = true →
        bit (t.fault 15 0).status 1 = true)) ∧
    (s.pcie.perst = true → exec .perstNAssert s = .next s ∧ exec .perstNRelease s =
      .next { s with pcie := { s.pcie with perst := false, since := s.cycle, wakeN := true } }) ∧
    (s.pcie.perst = false → exec .perstNRelease s = .next s) ∧
    (s.pcie.linkUp = true → Gives .hotReset s fun t =>
      t.pcie.linkUp = false ∧ t.pcie.width = 0 ∧ t.pcie.speed = 0 ∧ t.pcie.perst = s.pcie.perst ∧
      (∀ f, f < 4 → { t.pf f with pmeEnable := false, pmeStatus := false, wakeSeen := false, reads := 0 } = ({} : Pf) ∧
        (t.pf f).pmeEnable = (s.pf f).pmeEnable ∧ (t.pf f).pmeStatus = (s.pf f).pmeStatus ∧
        { t.mailbox f with resetAt := none } = {} ∧ t.nap.localCount.getD f 0 = 0) ∧
      (∀ x ∈ t.nap.transfers, ∀ f, f < 4 → x.req.path ≠ .mailbox f) ∧
      (s.pcie.pfs.any (fun p => p.pmeStatus) = true → t.pcie.wakeN = false) ∧
      (isAlive s.chip.mode = true → blockPresent s.ident 15 = true → bit (t.fault 15 0).status 1 = true)) ∧
    (s.pcie.linkUp = false → exec .hotReset s = .next s) ∧
    (∀ f, f < 4 → s.pcie.linkUp = true → s.pcie.cfgReady = true → Gives (.functionLevelReset f) s fun t =>
      { t.pf f with wakeSeen := false, reads := 0 } = ({} : Pf) ∧ { t.mailbox f with resetAt := none } = {} ∧
      t.nap.localCount.getD f 0 = 0 ∧ (∀ x ∈ t.nap.transfers, x.req.path ≠ .mailbox f) ∧ t.pcie.linkUp = true ∧
      (∀ g, g ≠ f → (t.pf g).bme = (s.pf g).bme ∧ (t.pf g).mse = (s.pf g).mse ∧ (t.pf g).table = (s.pf g).table ∧
        (t.pf g).pmeStatus = (s.pf g).pmeStatus ∧ t.mailbox g = s.mailbox g)) ∧
    (∀ width speed,
      (isAlive s.chip.mode = true → s.pcie.perst = false → s.pcie.linkUp = false → 4 ≤ width → 1 ≤ speed →
        exec (.pcieLinkUp width speed) s = .next { s with pcie := { s.pcie with
          linkUp := true
          width := if 16 ≤ width then 16 else if 8 ≤ width then 8 else 4
          speed := if speed ≤ 4 then speed else 4 } }) ∧
      (isAlive s.chip.mode = false ∨ s.pcie.perst = true ∨ s.pcie.linkUp = true ∨ width < 4 ∨ speed = 0 →
        exec (.pcieLinkUp width speed) s = .next s)) ∧
    (isAlive s.chip.mode = true → s.pcie.perst = false →
      exec .pcieConfigReady s = .next { s with pcie := { s.pcie with cfgReady := true } }) ∧
    (isAlive s.chip.mode = false ∨ s.pcie.perst = true → exec .pcieConfigReady s = .next s) ∧
    (∀ f c d3, f < 4 → s.pcie.linkUp = true →
      (s.pcie.cfgReady = true →
        exec (.configurationWrite f c) s = .next (judgeWake (s.updPf f (cfgField c))) ∧
        exec (.powerStateChange f d3) s = .next (s.updPf f fun p => { p with d3 := d3 })) ∧
      (s.pcie.cfgReady = false → ∀ u, u = s.emit (.configRetry f) → exec (.configurationWrite f c) s = .next u ∧
        exec (.powerStateChange f d3) s = .next u ∧ exec (.functionLevelReset f) s = .next u)) ∧
    (∀ f c d3, s.pcie.linkUp = false → exec (.configurationWrite f c) s = .next s ∧
      exec (.powerStateChange f d3) s = .next s ∧ exec (.functionLevelReset f) s = .next s) ∧
    (∀ (p : Pf) (v w : Bool) (n : Nat), cfgField (.busMaster v) p = { p with bme := v } ∧
      cfgField (.memorySpace v) p = { p with mse := v } ∧ cfgField (.pmeEnable v) p = { p with pmeEnable := v } ∧
      cfgField .pmeStatusClear p = { p with pmeStatus := false } ∧
      cfgField (.msix v w) p = { p with msixEnable := v, msixMask := w } ∧
      cfgField (.tags v w) p = { p with extTag := v, tag10 := w } ∧ cfgField (.aspm v) p = { p with aspmL1 := v } ∧
      cfgField (.errorReporting n) p = { p with errEnable := n % 16 } ∧
      (n ∈ [128, 256, 512] → cfgField (.payload n n) p = { p with mps := n, mrrs := n }) ∧
      cfgField (.ecrc v w) p = { p with aer := { p.aer with ecrcGen := v, ecrcChk := w } }) ∧
    (∀ u : State, judgeWake u =
      (if u.pcie.pfs.any (fun p => p.pmeStatus) = true then u else { u with pcie := { u.pcie with wakeN := true } }))

/-- O45. A pending vector whose message is allowed sends its address and data and is no longer pending; otherwise nothing
changes. A wake condition that arises for a function with PME_En set sets PME_Status, and where it was clear signals
PM_PME on a link that is up with PERST_N released, WAKE_N otherwise; with PME_Status set and the link up the message
is sent again 100 ms after the last. SEND of a request of 48 to 1,072 bytes with nothing outstanding and room in the
engine puts the first bytes of the buffer into its queue, behind the requests that go first; with no room, or of
another length, it is discarded and counted; one more while a request is outstanding is refused; one in the core cycle
of a reset of the function is lost. ACK takes the response. A host read without completion within the time the host
set sets TIMEOUT, is reported as one, and halts its channel with READ_TIMEOUT. An access to BAR0 of another width or
alignment sets BAD_ACCESS and writes nothing; a read answers all ones in every doubleword it touches. -/
def Obligations.MessagesAndMailbox : Prop :=
  ∀ (f : Nat) (s : State),
    (∀ v, (f < 4 → AMap.get false (s.pf f).pending v = true → msixAllowed s f v = true → exec (.msixMessage f v) s =
        .next ((s.updPf f fun p => { p with pending := AMap.put false p.pending v false }).emit
          (.msix f v (msixEntry (s.pf f) v).addr (msixEntry (s.pf f) v).data))) ∧
      (AMap.get false (s.pf f).pending v = false ∨ msixAllowed s f v = false → exec (.msixMessage f v) s = .next s)) ∧
    (f < 4 → isAlive s.chip.mode = true →
      ((s.pf f).pmeEnable = true → (s.pf f).pmeStatus = false → (s.pf f).wakeSeen = false →
        wakeCondition s f = true → Gives (.pmPme f) s fun t =>
          (t.pf f).pmeStatus = true ∧ (t.pf f).wakeSeen = true ∧
          (s.pcie.linkUp = true → s.pcie.perst = false → t.out = .pme f :: s.out) ∧
          (s.pcie.linkUp = false ∨ s.pcie.perst = true → t.pcie.wakeN = false ∧ t.out = s.out)) ∧
      ((s.pf f).pmeStatus = true → s.pcie.linkUp = true → s.pcie.perst = false →
        s.pcie.pmeAt.getD f 0 + 160000000 ≤ s.cycle → Gives (.pmPme f) s fun t =>
          t.out = .pme f :: s.out ∧ Only [.pcie, .out] s t) ∧
      ((s.pf f).pmeStatus = false → (s.pf f).pmeEnable = false ∨ (s.pf f).wakeSeen = true ∨ wakeCondition s f = false →
        exec (.pmPme f) s = .next s)) ∧
    (s.barReach f = true → ∀ n, n < 2048 →
      ((s.mailbox f).resetAt = some s.cycle → exec (.send f n) s = .next s) ∧
      ((s.mailbox f).resetAt ≠ some s.cycle →
        ((s.mailbox f).outstanding = true → exec (.send f n) s =
          .next (((s.updMbox f fun m => { m with sendLength := n }).updMbox f fun m => { m with sendRefused := true }).hit
            (.mailbox f 3) 0)) ∧
        ((s.mailbox f).outstanding = false → 48 ≤ n → n ≤ 1072 → s.nap.queue.length < 64 → Gives (.send f n) s fun t =>
          t.nap.queue = aheadOf s (.mailbox f) ++
            { path := .mailbox f, pdu := (s.mailbox f).request.take n, came := s.cycle } :: behindOf s (.mailbox f) ∧
          Only [.nap] s t) ∧
        ((s.mailbox f).outstanding = false → n < 48 ∨ 1072 < n → Gives (.send f n) s fun t =>
          t.nap.queue = s.nap.queue ∧ (t.mailbox f).outstanding = false ∧
          t.counter 0x0401 2 0 = (s.counter 0x0401 2 0 + 1) % 2 ^ 64 ∧ (185 + f, s.cycle) ∈ t.intc.pulses) ∧
        ((s.mailbox f).outstanding = false → 48 ≤ n → n ≤ 1072 → 64 ≤ s.nap.queue.length → Gives (.send f n) s fun t =>
          t.nap.queue = s.nap.queue ∧ (t.mailbox f).outstanding = false ∧
          t.counter 0x0401 6 0 = (s.counter 0x0401 6 0 + 1) % 2 ^ 64 ∧ (185 + f, s.cycle) ∈ t.intc.pulses))) ∧
    (s.barReach f = true → (s.mailbox f).respValid = true → exec (.ack f) s =
      .next (s.updMbox f fun m => { m with respValid := false, outstanding := false })) ∧
    (∀ tag b, AMap.find s.dma.bursts tag = some b → b.data = none → b.aborted = false → b.source.1 = true → b.chan < 31 →
      (hostLate s b.fn b.at_ = true → exec (.completionTimeout tag) s =
        .next (haltChan b.chan 0x04 b.source.2
          (noteAer b.fn 14 false ((s.updPf b.fn fun p => { p with timeout := true }).hit (.hostError b.fn 2) 0)))) ∧
      (hostLate s b.fn b.at_ = false → exec (.completionTimeout tag) s = .next s)) ∧
    (∀ off width, s.barReach f = true → ¬(width = 4 ∧ off % 4 = 0) → ¬(width = 8 ∧ off % 8 = 0) →
      ∀ u, u = (s.updPf f fun p => { p with badAccess := true }).hit (.hostError f 1) 0 →
      exec (.bar0BadAccess f off width true) s = .next u ∧
      exec (.bar0BadAccess f off width false) s =
        .next ((doublewords off width).foldl (fun u o => u.emit (.reg f o 0xFFFFFFFF)) u) ∧
      ∀ o, o ∈ doublewords off width ↔ o % 4 = 0 ∧ o < off + width ∧ off < o + 4)

/-- O46. Through a function that reaches the device, an aligned 32-bit write does what its register says: SCRATCH holds the
value; a 1 clears a bit of HOST_ERRORS that no event of this core cycle has set (R14); the mailbox buffer takes it
while no request is outstanding; INCREMENT_LO of a domain is staged for that function; POLL_INTERVAL of a DMA channel
changes for the functions that may write it and is denied to others; a write whose register is one of the table's
commands has that command's effect. An aligned 64-bit write is the two 32-bit writes in ascending order. A write of
another form changes nothing but sets BAD_ACCESS, and one beyond every BAR is an unsupported request. An access by a
command of a function's registers that does not reach the device changes nothing where the link is down or the
registers do not exist; where the function is in D3hot or has no memory space it is reported and, if a read, answered
as an unsupported request. -/
def Obligations.RegisterWrites : Prop :=
  ∀ (f : Nat) (s : State),
    (s.barReach f = true →
      (∀ v, v < 2 ^ 32 → exec (.registerWrite f 0x18 v 4) s = .next (s.updPf f fun p => { p with scratch := v })) ∧
      (∀ v, v < 2 ^ 32 → (∀ k, k < 4 → s.hitOf (.hostError f k) = none) →
        exec (.registerWrite f 0x14 v 4) s = .next (s.updPf f fun p => { p with
          writeDenied := p.writeDenied && !bit v 0, badAccess := p.badAccess && !bit v 1
          timeout := p.timeout && !bit v 2, poisoned := p.poisoned && !bit v 3 })) ∧
      (∀ off v, v < 2 ^ 32 → off < 1072 → off % 4 = 0 →
        ((s.mailbox f).outstanding = false → exec (.registerWrite f (0x080000 + off) v 4) s =
          .next (s.updMbox f fun m => { m with request := putBytes m.request off (leBytes 4 v) })) ∧
        ((s.mailbox f).outstanding = true → exec (.registerWrite f (0x080000 + off) v 4) s =
          .next ((s.updMbox f fun m => { m with writeIgnored := true }).hit (.mailbox f 4) 0))) ∧
      (∀ d v, d < 8 → v < 2 ^ 32 →
        exec (.registerWrite f (0x030000 + d * 0x100 + 0x10) v 4) s =
          .next (s.updFnTime f d fun w => { w with incLo := v }) ∧
        exec (.registerWrite f (0x030000 + d * 0x100 + 0x14) v 4) s = exec (.incrementHiWrite f d v) s) ∧
      (∀ c v, c < 31 → v < 2 ^ 32 → exec (.registerWrite f (0x020000 + c * 0x100 + 0x34) v 4) s =
        .next (if chanMay s f c then s.updChan c fun x => { x with poll := v % 65536 } else denyWrite f s)) ∧
      (∀ off v u, off % 8 = 0 → off < 0x410000 → exec (.registerWrite f off (v % 2 ^ 32) 4) s = .next u → u.barReach f = true →
        exec (.registerWrite f off v 8) s = exec (.registerWrite f (off + 4) (v / 2 ^ 32 % 2 ^ 32) 4) u) ∧
      (∀ off v width, off < 0x400000 → ¬(width = 4 ∧ off % 4 = 0) → ¬(width = 8 ∧ off % 8 = 0) →
        exec (.registerWrite f off v width) s =
          .next ((s.updPf f fun p => { p with badAccess := true }).hit (.hostError f 1) 0)) ∧
      (∀ off v width, 0x410000 ≤ off → exec (.registerWrite f off v width) s = .next (unsupported f true s))) ∧
    (s.barReach f = false →
      (∀ (n m : Nat) (v : Bool), ∀ c ∈ [Instr.send f n, .ack f, .bar0BadAccess f n m true, .registerWrite f n m 4,
          .incrementHiWrite f n m, .adjTicksWrite f n m, .go f n m, .arm none f n m, .offsetReport f n m, .flush f n,
          .outArm f n, .intArm f v n, .run f n, .pause f n v, .abort f n, .channelReset f n, .doorbell f n, .eoi f (n % 64) m,
          .softSet f n, .sleep f (n % 64)],
        exec c s = .next (if refusesBar s f = true then unsupported f true s else s)) ∧
      (∀ n m, ∀ c ∈ [Instr.bar0BadAccess f n m false, .timeFracRead f n, .tineRecordRead f n, .tineLostRead f n,
          .capStatusRead f n, .claim f n, .countRead f n, .histHiRead f n m, .faultLostRead f n m],
        exec c s = .next (if refusesBar s f = true then unsupported f false s else s))) ∧
    (refusesBar s f = true ↔ f < 4 ∧ s.pcie.linkUp = true ∧ isAlive s.chip.mode = true ∧
      ((s.pf f).d3 = true ∨ (s.pf f).mse = false)) ∧
    ∀ write t, t = unsupported f write s →
      (∃ more, t.out = .unsupported f write :: more) ∧ Only [.pcie, .out, .free] s t

/-- O47. A function that may not write a channel is denied. RUN starts an IDLE channel at its ring's first descriptor, a HALTED
one where it stands (or leaves it PAUSED while PAUSE is 1), and in RUNNING reads again where the channel waits for
software, as DOORBELL does, this also for a transmit channel in PAUSING that completes its frame. PAUSE 1 takes a
RUNNING channel to PAUSING, and to PAUSED once nothing is outstanding; PAUSE 0 returns a PAUSING or PAUSED one to
RUNNING, going on as its role does (log entry 54); in the other states PAUSE is only held. ABORT halts a RUNNING,
PAUSING or PAUSED channel with ABORTED at its current descriptor. RESET returns the channel to IDLE with its ring
registers kept. A halt sets the state, ERROR_CODE and ERROR_ADDRESS, counts, pulses, and aborts the channel's bursts. -/
def Obligations.DmaControl : Prop :=
  (∀ (f c : Nat) (s : State), s.barReach f = true → c < 31 →
    (chanMay s f c = false → ∀ v, exec (.run f c) s = .next (denyWrite f s) ∧ exec (.pause f c v) s = .next (denyWrite f s) ∧
      exec (.abort f c) s = .next (denyWrite f s) ∧ exec (.channelReset f c) s = .next (denyWrite f s) ∧
      exec (.doorbell f c) s = .next (denyWrite f s)) ∧
    (chanMay s f c = true →
      ((s.chan c).state = 0 → exec (.run f c) s = .next (startFetch c (s.updChan c fun x => freshSum
        { x with
          state := 1, cur := x.ringBase, curHost := x.ringHost, error := 0, next := 0, done := 0, resume := false }))) ∧
      ((s.chan c).state = 4 → (s.chan c).pause = true →
        exec (.run f c) s = .next (s.updChan c fun x => { x with state := 3, error := 0 })) ∧
      ((s.chan c).state = 4 → (s.chan c).pause = false →
        exec (.run f c) s = .next (startFetch c (s.updChan c fun x => { x with state := 1, error := 0 }))) ∧
      ((s.chan c).state = 1 → (s.chan c).waitSw = true → exec (.run f c) s = .next (startFetch c s)) ∧
      ((s.chan c).state = 1 → (s.chan c).waitSw = false → exec (.run f c) s = .next s) ∧
      ((s.chan c).state = 2 ∨ (s.chan c).state = 3 → exec (.run f c) s = .next s) ∧
      ((s.chan c).state = 1 ∨ endsFrame s c = true → (s.chan c).waitSw = true →
        exec (.doorbell f c) s = .next (startFetch c s)) ∧
      ((s.chan c).waitSw = false ∨ (s.chan c).state ≠ 1 ∧ endsFrame s c = false → exec (.doorbell f c) s = .next s) ∧
      (∀ u v, u = s.updChan c (fun x => { x with pause := true }) → v = s.updChan c (fun x => { x with pause := false }) →
        ((s.chan c).state = 1 →
          exec (.pause f c true) s = .next (settle c (u.updChan c fun x => { x with state := 2 }))) ∧
        ((s.chan c).state ≠ 1 → exec (.pause f c true) s = .next u) ∧
        ((s.chan c).state = 3 →
          exec (.pause f c false) s = .next (startFetch c (v.updChan c fun x => { x with state := 1 }))) ∧
        ((s.chan c).state ≠ 2 → (s.chan c).state ≠ 3 → exec (.pause f c false) s = .next v) ∧
        ((s.chan c).state = 2 → ∀ w, w = v.updChan c (fun x => { x with state := 1 }) →
          (chanRole s c = 0 →
            exec (.pause f c false) s = .next (settle c (w.updChan c fun x => { x with reread := true }))) ∧
          (chanRole s c = 1 → exec (.pause f c false) s = .next (if (s.chan c).waitSw then startFetch c w else w)) ∧
          (chanRole s c ≠ 0 → chanRole s c ≠ 1 →
            exec (.pause f c false) s = .next (startFetch c ((dropFetch c w).updChan c carryOn.rewind))))) ∧
      ((s.chan c).state ∈ [1, 2, 3] → exec (.abort f c) s = .next (haltChan c 0x0B (curDesc (s.chan c)).1 s)) ∧
      ((s.chan c).state = 0 ∨ (s.chan c).state = 4 → exec (.abort f c) s = .next s) ∧
      Gives (.channelReset f c) s fun t =>
        t.chan c = { ringBase := (s.chan c).ringBase, ringSize := (s.chan c).ringSize, ringHost := (s.chan c).ringHost } ∧
        (∀ e, e ≠ c → t.chan e = s.chan e))) ∧
  (∀ (c code addr : Nat) (s : State), (s.chan c).state ≠ 0 → ∀ t, t = haltChan c code addr s →
    (t.chan c).state = 4 ∧ (t.chan c).error = code ∧ (t.chan c).errAddr = addr ∧ (t.chan c).desc = none ∧
    (∀ e, e ≠ c → t.chan e = s.chan e) ∧ (∀ x ∈ t.dma.bursts, x.2.chan = c → x.2.aborted = true) ∧
    (132 + c, s.cycle) ∈ t.intc.pulses ∧ (c < 31 → t.counter 0x6003 5 c = (s.counter 0x6003 5 c + 1) % 2 ^ 64))

/-- O48. A channel whose ring lies in reachable host space reads its descriptor there with 32 bytes under its own number,
counted against its function's limit, or waits while the limit leaves no room; where the space cannot be reached it
halts with the error and the address. A poll whose interval has passed reads again for a channel waiting for software,
in RUNNING or completing its frame. An arrived descriptor still owned by software leaves the channel waiting. Another
sets HOP_COUNT to 0 unless it is a link; one badly formed halts with 0x01, a link beyond the hop limit with 0x03 at
the link; a link leads to the descriptor it names; a memory descriptor or transmit descriptor in order is taken in
hand, and a receive descriptor joins those read ahead, which are at most 64. A read poisoned or failing its ECRC halts
the channel with 0x06 and marks and reports it; an uncorrectable device word halts it with 0x0C. Where no read is
outstanding nothing changes. -/
def Obligations.DescriptorReads : Prop :=
  (∀ (c : Nat) (s : State), (s.chan c).state ≠ 0 →
    (∀ e, accessError s c (s.chan c).curHost false (s.chan c).cur 32 = some e →
      startFetch c s = haltChan c e (s.chan c).cur s) ∧
    (accessError s c (s.chan c).curHost false (s.chan c).cur 32 = none → (s.chan c).curHost = true →
      (readsAllowed s (chanCfg s c 3) 1 = true →
        (startFetch c s).out = .hostRead (chanCfg s c 3) (s.chan c).cur 32 c :: s.out ∧
        ((startFetch c s).chan c).fetching = some s.cycle ∧ ((startFetch c s).chan c).waitSw = false) ∧
      (readsAllowed s (chanCfg s c 3) 1 = false →
        startFetch c s = s.updChan c fun x => { x with wants := true, waitSw := false, reread := false })) ∧
    (accessError s c (s.chan c).curHost false (s.chan c).cur 32 = none → (s.chan c).curHost = false →
      (startFetch c s).out = s.out ∧ ((startFetch c s).chan c).fetching = some s.cycle)) ∧
  (∀ (c : Nat) (s : State),
    (0 < (s.chan c).poll → (s.chan c).pollAt + 1600 * (s.chan c).poll ≤ s.cycle →
      (s.chan c).state = 1 ∨ endsFrame s c = true → (s.chan c).waitSw = true →
      exec (.pollIntervalExpiry c) s = .next (startFetch c s)) ∧
    ((s.chan c).poll = 0 ∨ s.cycle < (s.chan c).pollAt + 1600 * (s.chan c).poll ∨ (s.chan c).waitSw = false →
      exec (.pollIntervalExpiry c) s = .next s)) ∧
  (∀ (c : Nat) (b : Bytes) (s u : State) (d : Desc), c < 31 → (s.chan c).fetching.isSome = true →
    ((s.chan c).curHost = true ∧ b.length = 32 ∧ d = descOf (s.chan c).cur true b ∨
      (s.chan c).curHost = false ∧ d = descOf (s.chan c).cur false (devRead s (s.chan c).cur 32)) →
    u = dropFetch c (s.updChan c fun y => { y with fetching := none }) →
    (d.own = false → exec (.descriptorFetched c (.data b)) s =
      .next (u.updChan c fun x => { x with waitSw := true, pollAt := s.cycle })) ∧
    (d.own = true → ∀ w, w = u.updChan c (fun x => if d.mode = 3 then x else { x with hops := 0 }) →
      (descOk (chanRole s c) d = false → exec (.descriptorFetched c (.data b)) s = .next (haltChan c 0x01 d.addr w)) ∧
      (descOk (chanRole s c) d = true → d.mode = 3 →
        (chanCfg s c 7 ≤ (w.chan c).hops → exec (.descriptorFetched c (.data b)) s =
          .next (haltChan c 0x03 d.addr (w.updChan c fun x => { x with window := [], held := [] }))) ∧
        ((w.chan c).hops < chanCfg s c 7 → exec (.descriptorFetched c (.data b)) s = .next (startFetch c
          (w.updChan c fun x => { x with hops := x.hops + 1, cur := d.w0, curHost := d.srcHost })))) ∧
      (descOk (chanRole s c) d = true → d.mode ≠ 3 →
        (chanRole s c = 0 → lengthOk d = true →
          exec (.descriptorFetched c (.data b)) s = .next (startMemory c d w)) ∧
        (chanRole s c = 0 → lengthOk d = false →
          exec (.descriptorFetched c (.data b)) s = .next (haltChan c 0x02 d.addr w)) ∧
        (chanRole s c = 1 → exec (.descriptorFetched c (.data b)) s = .next (startTx c d w)) ∧
        (chanRole s c ≠ 0 → chanRole s c ≠ 1 → ∀ v, v = w.updChan c (fun x => advance { x with window := x.window ++ [d] }) →
          exec (.descriptorFetched c (.data b)) s =
            .next (if (v.chan c).window.length < 64 then startFetch c v else v))))) ∧
  (∀ (c : Nat) (s u : State), c < 31 → (s.chan c).fetching.isSome = true →
    u = dropFetch c (s.updChan c fun y => { y with fetching := none }) →
    ((s.chan c).curHost = true →
      exec (.descriptorFetched c .poisoned) s = .next (haltChan c 0x06 (s.chan c).cur (readSpoilt (chanCfg s c 3) false u)) ∧
      exec (.descriptorFetched c .ecrc) s = .next (haltChan c 0x06 (s.chan c).cur (readSpoilt (chanCfg s c 3) true u))) ∧
    ((s.chan c).curHost = false → exec (.descriptorFetched c .eccError) s =
      .next (haltChan c 0x0C (s.chan c).cur (memUncorrectable (s.chan c).cur u)))) ∧
  (∀ (c : Nat) (r : ReadEnd) (s : State), (s.chan c).fetching = none → exec (.descriptorFetched c r) s = .next s)

/-- O49. Requests that have expired are discarded before a grant. A grant goes to the oldest paging request, else to the ready
channel that R385 picks, and takes the lowest free tag; without a request, a ready channel or a tag no burst is
issued. A burst that the channel can reach is issued as a read of its bytes under its tag, in host space as read
requests no longer than the host's maximum. The data of a read that arrives is taken for its burst, in device space
that of the unit read; a host read poisoned or failing its ECRC halts the channel with 0x06, marks and reports its
function; an uncorrectable device word halts it with 0x0C. The data of a paging burst frees its tag, counts 512 bytes,
and where its page is still requested goes to the page's slot. A completion for an aborted burst is dropped, counted,
gives the tag back, and from the host is reported as unexpected. -/
def Obligations.BurstsMove : Prop :=
  (∀ s u : State, isAlive s.chip.mode = true → u = purgeLines s →
    (∀ l tag, pagingLine u = some l → freeTagIn u 0 256 = some tag → exec .burstGrant s = .next (issuePage l tag u)) ∧
    (pagingLine u = none ∨ freeTagIn u 0 256 = none →
      (∀ c tag o, granted u = some c → freeTagIn u 256 3840 = some tag → chanReady u c = some o →
        exec .burstGrant s = .next (issueBurst c tag o u)) ∧
      (granted u = none ∨ freeTagIn u 256 3840 = none → exec .burstGrant s = .next u))) ∧
  (∀ s : State, isAlive s.chip.mode = false → exec .burstGrant s = .next s) ∧
  (∀ (c tag : Nat) (o : Offer) (s : State), o.host = true → o.paced = false →
    (∀ e, accessError s c true false o.addr o.len = some e → issueBurst c tag o s = haltChan c e o.addr s) ∧
    (accessError s c true false o.addr o.len = none →
      (∃ reads, (issueBurst c tag o s).out = reads ++ s.out ∧
        (∀ x ∈ reads, ∃ addr n, x = .hostRead (chanCfg s c 3) addr n tag ∧ n ≤ max 1 (s.pf (chanCfg s c 3)).mrrs) ∧
        (0 < o.len → o.len ≤ (s.pf (chanCfg s c 3)).mrrs → reads = [.hostRead (chanCfg s c 3) o.addr o.len tag])) ∧
      ∃ b, AMap.find (issueBurst c tag o s).dma.bursts tag = some b ∧ b.chan = c ∧ b.len = o.len ∧ b.off = o.off ∧
        b.move = o.move ∧ b.data = none ∧ b.aborted = false ∧ b.at_ = s.cycle ∧
        b.tlps = readTlps s (chanCfg s c 3) o.len)) ∧
  (∀ (tag : Nat) (b : Burst) (s : State), AMap.find s.dma.bursts tag = some b →
    (b.aborted = false → b.data = none → b.chan ≠ 31 → ∀ u, u = endReads b.fn b.tlps s →
      (b.source.1 = true →
        (∀ bytes, bytes.length = b.len → exec (.burstReadDone tag (.data bytes)) s = .next (burstArrived tag b bytes u)) ∧
        exec (.burstReadDone tag .poisoned) s =
          .next (haltChan b.chan 0x06 b.source.2 (readSpoilt b.fn false (freeTag tag u))) ∧
        exec (.burstReadDone tag .ecrc) s =
          .next (haltChan b.chan 0x06 b.source.2 (readSpoilt b.fn true (freeTag tag u)))) ∧
      (b.source.1 = false →
        (∀ bytes, exec (.burstReadDone tag (.data bytes)) s =
          .next (burstArrived tag b (if b.pre.isEmpty then devRead s b.source.2 b.len else b.pre) u)) ∧
        exec (.burstReadDone tag .eccError) s =
          .next (haltChan b.chan 0x0C b.source.2 (memUncorrectable b.source.2 (freeTag tag u))))) ∧
    (b.aborted = false → b.data = none → b.chan = 31 → ∀ p j q bytes, b.move = .page p j q →
      ∀ u, u = (freeTag tag s).bumpBy 0x6003 3 31 512 → exec (.burstReadDone tag (.data bytes)) s =
        .next (if (s.gate p).requested.any (fun x => x.1 == j) = true then moveQuarter p j q u else u)) ∧
    (b.aborted = true → ∀ r u, u = endReads b.fn b.tlps ((freeTag tag s).bumpK 0x6003 6 b.chan) →
      exec (.burstReadDone tag r) s = .next s ∧
      (b.source.1 = true → exec (.lateCompletion tag) s = .next (noteAer b.fn 16 true u)) ∧
      (b.source.1 = false → exec (.lateCompletion tag) s = .next u)) ∧
    (b.aborted = false → exec (.lateCompletion tag) s = .next s)) ∧
  (∀ (f : Nat) (ecrc : Bool) (s : State), readSpoilt f ecrc s =
    noteAer f (if ecrc then 19 else 12) false ((s.updPf f fun p => { p with poisoned := true }).hit (.hostError f 3) 0))

/-- O50. An acknowledgement passes the barrier of the oldest descriptor that awaits one, which then goes to its writeback and
gives back the tags its barrier held, or lets a descriptor leave whose CTRL write has arrived; where none is awaited
it is that of the oldest data write, whose tag it gives back. A writeback that can be made stores the descriptor's
fields and CTRL with OWN 0, counts the descriptor and completes it (DONE pulses), a barrier descriptor once its CTRL
has arrived; one that cannot halts the channel. A transmit frame gathered whole enters the classifier with the next
frame number from its host port, padded to 60 bytes, and its descriptors go to their writeback. A read or write of a
running or pausing channel that is late halts it; a late host read is marked and reported. -/
def Obligations.DescriptorsComplete : Prop :=
  (∀ (c : Nat) (s : State),
    (∀ x, (s.chan c).fin.find? (fun x => x.stage != 1) = some x →
      (x.stage = 2 → exec (.writeAcknowledged c) s = .next (finDone c s)) ∧
      (x.stage ≠ 2 → x.asked = true → exec (.writeAcknowledged c) s = .next (passBarrier c x s)) ∧
      (x.stage ≠ 2 → x.asked = false → ∀ tag, oldestWritten s c = some tag →
        exec (.writeAcknowledged c) s = .next (freeTag tag s))) ∧
    ((s.chan c).fin.find? (fun x => x.stage != 1) = none →
      (∀ tag, oldestWritten s c = some tag → exec (.writeAcknowledged c) s = .next (freeTag tag s)) ∧
      (oldestWritten s c = none → exec (.writeAcknowledged c) s = .next s))) ∧
  (∀ (c : Nat) (x : Fin) (rest : List Fin) (s : State), (s.chan c).fin = x :: rest →
    (x.stage = 0 → (s.chan c).state = 1 → (s.chan c).reread = false → (s.chan c).placing = [] →
      ((passBarrier c x s).chan c).fin = { x with stage := 1, since := s.cycle } :: rest ∧
      ∀ e ∈ (passBarrier c x s).dma.bursts, ¬(e.2.chan = c ∧ e.2.written = true ∧ e.2.owner = x.desc.addr)) ∧
    (x.stage ≠ 1 → exec (.descriptorComplete c) s = .next s) ∧
    (x.stage = 1 → (s.chan c).state = 1 ∨ (s.chan c).state = 2 ∨ chanRole s c ≠ 0 →
      (∀ e, accessError s c x.desc.host true x.desc.addr 32 = some e →
        exec (.descriptorComplete c) s =
          .next (if (s.chan c).state = 4 then s else haltChan c e x.desc.addr s)) ∧
      (accessError s c x.desc.host true x.desc.addr 32 = none → x.desc.barrier = false ∨ chanRole s c = 1 →
        exec (.descriptorComplete c) s = .next (finDone c (((writeBack c x s).bumpK 0x6003 2 c).updChan c fun y =>
          { y with completed := (y.completed + 1) % 2 ^ 32 }))) ∧
      (accessError s c x.desc.host true x.desc.addr 32 = none → x.desc.barrier = true → chanRole s c ≠ 1 →
        Gives (.descriptorComplete c) s fun t =>
          (t.chan c).fin = { x with stage := 2, since := s.cycle } :: rest ∧
          (t.chan c).completed = ((s.chan c).completed + 1) % 2 ^ 32 ∧
          t.counter 0x6003 2 c = (s.counter 0x6003 2 c + 1) % 2 ^ 64))) ∧
  (∀ (c : Nat) (s : State), (101 + c, s.cycle) ∈ (finDone c s).intc.pulses) ∧
  (∀ (c : Nat) (s : State), (s.chan c).frame = none → exec (.hostTxFrame c) s = .next s) ∧
  (∀ (c : Nat) (x : TxFrame) (s : State), (s.chan c).frame = some x →
    (x.ready = false → exec (.hostTxFrame c) s = .next s) ∧
    (x.ready = true → Gives (.hostTxFrame c) s fun t =>
      AMap.find t.fabric.inflight s.fabric.nextId = some
        { bytes := padTo (max 60 x.bytes.length) x.bytes, source := 256 + chanCfg s c 4, stamps := stampsNow s 0,
          steps := stepsNow s, hostTag := x.tag } ∧
      t.fabric.nextId = s.fabric.nextId + 1 ∧
      ((s.chan c).state ≠ 1 → chanRole s c ≠ 0 →
        (t.chan c).fin = (s.chan c).fin ++ x.descs.map (returned 0 s.cycle)))) ∧
  (∀ (c : Nat) (s : State),
    (31 ≤ c ∨ (s.chan c).state ≠ 1 ∧ (s.chan c).state ≠ 2 → exec (.dmaTimeout c) s = .next s) ∧
    (c < 31 → (s.chan c).state = 1 ∨ (s.chan c).state = 2 →
      (timedOut s c = none → exec (.dmaTimeout c) s = .next s) ∧
      (∀ code addr, timedOut s c = some (code, addr, none) → exec (.dmaTimeout c) s = .next (haltChan c code addr s)) ∧
      (∀ code addr f, timedOut s c = some (code, addr, some f) → exec (.dmaTimeout c) s =
        .next (haltChan c code addr
          (noteAer f 14 false ((s.updPf f fun p => { p with timeout := true }).hit (.hostError f 2) 0))))))

/-- O51. A request line receives the oldest request pulsed on it and counts it; requests that have expired are gone before, and
with DEPTH requests pending the oldest of them is discarded and counted. A request past its LIFETIME or deadline is
discarded and counted, one at a time. Where there is none, nothing changes. -/
def Obligations.RequestLines : Prop :=
  ∀ (l : Nat) (s : State),
    (takeOwed l s.dma.owed = none → exec (.requestPulse l) s = .next s) ∧
    (∀ r rest kept, takeOwed l s.dma.owed = some (r, rest) →
      kept = (pendingReqs s l).filter (fun x => !reqExpired s l x) → Gives (.requestPulse l) s fun t =>
      t.dma.owed = rest ∧ pendingReqs t l = (if lineDepth s l ≤ kept.length then kept.drop 1 ++ [r] else kept ++ [r]) ∧
      (∀ j, j ≠ l → pendingReqs t j = pendingReqs s j) ∧ t.dma.chans = s.dma.chans ∧
      (l < 2 ^ 32 → t.counter 0x6004 2 l = (s.counter 0x6004 2 l + 1) % 2 ^ 64) ∧
      (l < 2 ^ 32 → lineDepth s l ≤ kept.length → t.counter 0x6004 5 l = (s.counter 0x6004 5 l + 1) % 2 ^ 64) ∧
      (l < 2 ^ 32 → kept.length < (pendingReqs s l).length → t.counter 0x6004 4 l =
        (s.counter 0x6004 4 l + ((pendingReqs s l).length - kept.length)) % 2 ^ 64) ∧ Only [.dma, .cnt] s t) ∧
    ((pendingReqs s l).any (reqExpired s l) = false → exec (.requestExpired l) s = .next s) ∧
    (∀ r, (pendingReqs s l).find? (reqExpired s l) = some r → Gives (.requestExpired l) s fun t =>
      pendingReqs t l = (pendingReqs s l).erase r ∧ (∀ j, j ≠ l → pendingReqs t j = pendingReqs s j) ∧
      t.counter 0x6004 4 l = (s.counter 0x6004 4 l + 1) % 2 ^ 64 ∧ Only [.dma, .cnt] s t)

/-- O52. Two core cycles after its issue an event pulse leaves the matrix and raises its source; before that it waits. A CLAIM
by the target's function returns the deliverable source of the highest level, which is no longer pending but for a
raise of this core cycle (R14) and, in stack mode, is pushed with its level; it returns 2,047 when there is none or to
another function. EOI pops the stack (below the entry that a CLAIM of this core cycle has pushed), or sets
EOI_UNDERFLOW where it finds it empty, and does nothing in threshold mode; SOFT_SET by PF0 raises a software source.
Reading SOURCE_CONFIG returns level, target and count, and clears the count; in the core cycle of a raise it returns
the count before it and leaves what the raise added. SLEEP sets SLEEP. A hold-off that has run out ends. A write
without the right is denied. -/
def Obligations.InterruptsServed : Prop :=
  (∀ (l at_ : Nat) (s : State), s.intc.pulses.find? (fun p => p.1 == l && decide (p.2 + 2 ≤ s.cycle)) = some (l, at_) →
    1 ≤ l → l < 256 → Gives (.eventPulse l) s fun t =>
      (t.source l).pending = true ∧ (t.source l).count = min 255 ((s.source l).count + 1) ∧
      t.intc.pulses = s.intc.pulses.erase (l, at_)) ∧
  (∀ (l : Nat) (s : State), s.intc.pulses.any (fun p => p.1 == l && decide (p.2 + 2 ≤ s.cycle)) = false →
    exec (.eventPulse l) s = .next s) ∧
  (∀ (f t : Nat) (s : State), s.barReach f = true → t < 64 →
    ((s.target t).function ≠ f ∨ bestSource s t = none →
      exec (.claim f t) s = .next { s with out := .reg f (0x010000 + t * 0x10) 2047 :: s.out }) ∧
    (∀ n lvl, (s.target t).function = f → bestSource s t = some (n, lvl) → Gives (.claim f t) s fun u =>
      (u.source n).pending = ((s.source n).pending && (s.hitOf (.pending n)).isSome) ∧
      u.out.head? = some (.reg f (0x010000 + t * 0x10) n) ∧
      (u.target t).stack = (if thresholdMode s.chip.mode (s.target t) || decide (s.intc.targets.length ≤ t)
        then (s.target t).stack else (n, lvl) :: (s.target t).stack)) ∧
    (∀ v, targetRight s f t = false →
      exec (.eoi f t v) s = .next (denyWrite f s) ∧ exec (.sleep f t) s = .next (denyWrite f s)) ∧
    (targetRight s f t = true →
      (∀ v, thresholdMode s.chip.mode (s.target t) = true → exec (.eoi f t v) s = .next s) ∧
      (∀ v, thresholdMode s.chip.mode (s.target t) = false →
        ((s.target t).stack = [] ∨ (s.hitOf (.claim t)).isSome = true ∧ (s.target t).stack.length = 1 →
          exec (.eoi f t v) s = .next ((s.updTarget t fun x => { x with underflow := true }).hit (.underflow t) 0)) ∧
        (∀ top rest, (s.target t).stack = top :: rest → s.hitOf (.claim t) = none →
          Gives (.eoi f t v) s fun u => (u.target t).stack = rest ∧ u.intc.sources = s.intc.sources) ∧
        (∀ top below rest, (s.target t).stack = top :: below :: rest → (s.hitOf (.claim t)).isSome = true →
          Gives (.eoi f t v) s fun u => (u.target t).stack = top :: rest ∧ u.intc.sources = s.intc.sources)) ∧
      ((s.target t).function = f → t < s.intc.targets.length → Gives (.sleep f t) s fun u =>
        (u.target t).sleep = true ∧ (u.target t).stack = (s.target t).stack ∧ u.intc.sources = s.intc.sources))) ∧
  (∀ (f v : Nat) (s : State), s.barReach f = true → v < 2048 →
    (f ≠ 0 → exec (.softSet f v) s = .next (denyWrite f s)) ∧
    (f = 0 → 1216 ≤ v → v ≤ 1279 → Gives (.softSet f v) s fun t =>
      (t.source v).pending = true ∧ (t.source v).count = min 255 ((s.source v).count + 1)) ∧
    (f = 0 → v < 1216 ∨ 1279 < v → exec (.softSet f v) s = .next s) ∧
    (srcExists v = true → ∀ old, old = (s.hitOf (.count v)).getD (s.source v).count → Gives (.countRead f v) s fun t =>
      t.out = .reg f (0x010800 + v * 4) ((s.source v).level + (s.source v).target * 16 + old * 65536) :: s.out ∧
      (s.hitOf (.count v) = none → (t.source v).count = 0) ∧
      ((s.hitOf (.count v)).isSome = true → (t.source v).count = (s.source v).count - old) ∧
      (t.source v).pending = (s.source v).pending ∧ Only [.intc, .out, .hits] s t)) ∧
  (∀ (g : Nat) (s : State),
    ((s.group g).runs = none → exec (.holdoffExpiry g) s = .next s) ∧
    ∀ until_, (s.group g).runs = some until_ →
    (s.cycle < until_ → exec (.holdoffExpiry g) s = .next s) ∧
    (until_ ≤ s.cycle → Gives (.holdoffExpiry g) s fun t => (t.group g).runs = none ∧ t.intc.sources = s.intc.sources))

/-- O53. The instant that a start begins from is the first of the grid that lies far enough ahead. A start owed to a working
trigger, or written to OUT_ARM or INT_ARM with an ARM_LINE, is taken: while a burst runs it is ignored and counted,
but one in the tick of the burst's last instant waits for it, and one of an internal trigger's own line begins the
burst anew; else a grid instant from that first one on is armed. An armed instant fires only once it is reached, in
its tick: an output's pulse of WIDTH in its active level is placed unless its edge has been issued already, an
internal trigger's line is pulsed, the instant is counted, and what is armed next is a later one. After its tick it is
skipped: nothing is placed, pulsed for it or counted as fired. A pulse ends with its width. A change of an input waits
for FILTER; one that turns back within it is rejected and counted; one within 4 ns of a captured one is rejected and
counted; a captured one is counted and pulsed, and in 0640 mode sets the capture registers, or counts an overrun while
VALID is 1. A read of CAP_STATUS returns it and clears VALID and OVERRUN; where a capture was lost in its core cycle,
that capture stands (R14). In the other cases nothing changes. -/
def Obligations.TriggersAndEvents : Prop :=
  (∀ (s : State) (n i q j : Nat) (a : Int), firstAhead s n i q = some j →
    a = (((trigSet s n 3 * 2 ^ 32 + trigSet s n 4 + i * trigPeriod s n : Nat) : Int) -
      ((s.ns (trigSet s n 2) * 2 ^ 32 : Nat) : Int) + 2 ^ 79) % 2 ^ 80 - 2 ^ 79 →
    i ≤ j ∧ (q * 2 ^ 30 : Int) ≤ a + ((j - i) * trigPeriod s n : Nat) + 2 ^ 29 ∧
    ∀ k, i ≤ k → k < j → a + ((k - i) * trigPeriod s n : Nat) + 2 ^ 29 < (q * 2 ^ 30 : Int)) ∧
  (∀ (n : Nat) (s : State), n < 96 →
    ((s.trigger n).starts = 0 ∨ trigWorks s n = false → exec (.triggerStart n) s = .next s) ∧
    (trigWorks s n = true → 0 < (s.trigger n).starts → Gives (.triggerStart n) s fun t =>
      (t.trigger n).starts = (s.trigger n).starts - 1 ∧ (∀ m, m ≠ n → t.trigger m = s.trigger m) ∧
      ((s.trigger n).state = 2 → armsItself s n = false → (t.trigger n).armed = (s.trigger n).armed ∧
        (lastNow s n = true → trigSet s n 0x0B ≠ 0xFFFF → (t.trigger n).again = true ∧ Only [.trig] s t) ∧
        (lastNow s n = false ∨ trigSet s n 0x0B = 0xFFFF → n < 32 →
          t.counter (trigObj n) 0x15 0 = (s.counter (trigObj n) 0x15 0 + 1) % 2 ^ 64)) ∧
      ((s.trigger n).state ≠ 2 ∨ armsItself s n = true → ∀ q, (t.trigger n).armed = some q →
        ∃ j0 j, firstAhead s n 0 64 = some j0 ∧ j0 ≤ j ∧ q = gridInstant s n j)) ∧
    ((s.trigger n).armed = none ∨ trigWorks s n = false → exec (.triggerInstant n) s = .next s) ∧
    (∀ q, (s.trigger n).armed = some q → trigWorks s n = true →
      (s.reached (trigSet s n 2) (q / 4) = false → exec (.triggerInstant n) s = .next s) ∧
      (s.reached (trigSet s n 2) (q / 4) = true → s.overdue (trigSet s n 2) (q / 4) = false →
        Gives (.triggerInstant n) s fun t =>
        (∀ e, e = edgeAt s n (tickOf s.cycle) q → n < 32 →
          (t.trigger n).pulses = (if 0 < (s.trigger n).issued then (s.trigger n).pulses
            else ((s.trigger n).pulses.filter fun u => decide (quarterNow s < u.off)) ++
              [{ on := e, off := e + (trigSet s n 7 : Nat), high := trigSet s n 9 == 0 }]) ∧
          t.counter (trigObj n) 0x13 0 = (s.counter (trigObj n) 0x13 0 + 1) % 2 ^ 64) ∧
        (32 ≤ n → (1 + (n - 32), s.cycle) ∈ t.intc.pulses ∧ exec (.intTrig (n - 32)) s = .next t) ∧
        (∀ m, m ≠ n → t.trigger m = s.trigger m) ∧
        ((s.trigger n).again = false →
          ∀ r, (t.trigger n).armed = some r → ∃ j, (s.trigger n).j < j ∧ r = gridInstant s n j)) ∧
      (s.overdue (trigSet s n 2) (q / 4) = true → (s.trigger n).again = false → Gives (.triggerInstant n) s fun t =>
        (t.trigger n).pulses = (s.trigger n).pulses ∧ (∀ m, m ≠ n → t.trigger m = s.trigger m) ∧
        (n < 32 → t.counter (trigObj n) 0x13 0 = s.counter (trigObj n) 0x13 0) ∧
        ∀ r, (t.trigger n).armed = some r → ∃ j, (s.trigger n).j ≤ j ∧ r = gridInstant s n j)) ∧
    ((s.trigger n).pulses.any (fun u => decide (u.off ≤ quarterNow s)) = true → exec (.triggerPulseEnd n) s =
      .next (s.updTrig n fun x => { x with pulses := x.pulses.filter fun u => decide (quarterNow s < u.off) })) ∧
    ((s.trigger n).pulses.any (fun u => decide (u.off ≤ quarterNow s)) = false →
      exec (.triggerPulseEnd n) s = .next s)) ∧
  (∀ (f b : Nat) (s : State), s.barReach f = true → b < 32 →
    (trigWorks s b = true → trigSet s b 0x0B ≠ 0xFFFF → exec (.outArm f (2 ^ b)) s = .next (takeTrigStart b s)) ∧
    (trigWorks s b = false ∨ trigSet s b 0x0B = 0xFFFF → exec (.outArm f (2 ^ b)) s = .next s) ∧
    (∀ hi n, n = (if hi = true then 64 else 32) + b →
      (trigWorks s n = true → trigSet s n 0x0B ≠ 0xFFFF → exec (.intArm f hi (2 ^ b)) s = .next (takeTrigStart n s)) ∧
      (trigWorks s n = false ∨ trigSet s n 0x0B = 0xFFFF → exec (.intArm f hi (2 ^ b)) s = .next s))) ∧
  (∀ (i : Nat) (s : State), i < 16 →
    (∀ level q, isAlive s.chip.mode = false ∨ (s.ev i).pin = level → exec (.evInChange i level q) s = .next s) ∧
    (∀ level q at_, isAlive s.chip.mode = true → (s.ev i).pin ≠ level → at_ = 4 * tickOf s.cycle + q % 4 →
      (lastLevel (s.ev i) = level → exec (.evInChange i level q) s = .next (s.updEv i fun x => { x with pin := level })) ∧
      (lastLevel (s.ev i) ≠ level →
        ((s.ev i).changes = [] → Gives (.evInChange i level q) s fun t =>
          t.ev i = { s.ev i with pin := level, changes := [(stampsNow s q, at_, level)] } ∧ ∀ j, j ≠ i → t.ev j = s.ev j) ∧
        (∀ before c, (s.ev i).changes = before ++ [c] → c.2.1 + 4 * evSet s i 3 ≤ at_ → Gives (.evInChange i level q) s fun t =>
          t.ev i = { s.ev i with pin := level, changes := before ++ [c, (stampsNow s q, at_, level)] } ∧
          ∀ j, j ≠ i → t.ev j = s.ev j) ∧
        (∀ before c, (s.ev i).changes = before ++ [c] → at_ < c.2.1 + 4 * evSet s i 3 → Gives (.evInChange i level q) s fun t =>
          t.ev i = { s.ev i with pin := level, changes := before } ∧
          t.counter (0x4200 + i) 0x11 0 = (s.counter (0x4200 + i) 0x11 0 + 1) % 2 ^ 64))) ∧
    ((s.ev i).changes = [] → exec (.evCapture i) s = .next s) ∧
    (∀ stamps at_ rising rest, (s.ev i).changes = (stamps, at_, rising) :: rest →
      (4 * tickOf s.cycle + 3 < at_ + 4 * evSet s i 3 → exec (.evCapture i) s = .next s) ∧
      (at_ + 4 * evSet s i 3 ≤ 4 * tickOf s.cycle + 3 →
        (nearCapture (s.ev i) at_ = true → Gives (.evCapture i) s fun t => t.ev i = { s.ev i with changes := rest } ∧
          t.counter (0x4200 + i) 0x11 0 = (s.counter (0x4200 + i) 0x11 0 + 1) % 2 ^ 64) ∧
        (nearCapture (s.ev i) at_ = false → Gives (.evCapture i) s fun t =>
          (t.ev i).level = rising ∧ (t.ev i).changes = rest ∧
          (evCaptures s.chip.mode = true → evSet s i 1 = 1 → bit (evSet s i 2) (if rising then 0 else 1) = true →
            (t.ev i).lastCapture = some at_ ∧
            t.counter (0x4200 + i) 0x10 0 = (s.counter (0x4200 + i) 0x10 0 + 1) % 2 ^ 64 ∧ (65 + i, s.cycle) ∈ t.intc.pulses ∧
            (evSet s i 6 = 1 → (s.ev i).valid = false →
              (t.ev i).valid = true ∧ (t.ev i).rising = rising ∧ (t.source (256 + i)).pending = true) ∧
            (evSet s i 6 = 1 → (s.ev i).valid = true → (t.ev i).overrun = min 255 ((s.ev i).overrun + 1) ∧
              (t.ev i).rising = (s.ev i).rising ∧ (t.ev i).sec = (s.ev i).sec ∧ (t.ev i).nsec = (s.ev i).nsec ∧
              t.counter (0x4200 + i) 0x12 0 = (s.counter (0x4200 + i) 0x12 0 + 1) % 2 ^ 64))))) ∧
    (∀ f, s.barReach f = true →
      (evSet s i 6 = 1 → s.hitOf (.capture i) = none →
        (∀ at_ rising q, (s.ev i).lostAt = some (at_, rising, q) → at_ ≠ s.cycle) → Gives (.capStatusRead f i) s fun t =>
        t.out = .reg f (0x040108 + 16 * i) (capStatus (s.ev i)) :: s.out ∧ (t.ev i).valid = false ∧ (t.ev i).overrun = 0 ∧
        (t.ev i).pin = (s.ev i).pin ∧ (t.ev i).changes = (s.ev i).changes ∧ ∀ j, j ≠ i → t.ev j = s.ev j) ∧
      (∀ rising q, evSet s i 6 = 1 → (s.ev i).lostAt = some (s.cycle, rising, q) → Gives (.capStatusRead f i) s fun t =>
        t.out = .reg f (0x040108 + 16 * i) ((s.hitOf (.capture i)).getD (capStatus (s.ev i))) :: s.out ∧
        (t.ev i).valid = true ∧ (t.ev i).rising = rising ∧ (t.ev i).overrun = 0) ∧
      (evSet s i 6 ≠ 1 → exec (.capStatusRead f i) s = .next (s.emit (.reg f (0x040108 + 16 * i) 0)))))

/-- O54. A feed line's change that its filter can have accepted (log entry 84) is noted with its core cycle and raises its
source; a loss is noted and counted; the device is short exactly by R428 and then sheds the ports of R429, which stay
shed until RESTORE_HOLD after the shortage. A pair lane that comes up changes nothing else, and one that goes down
sets LANE_DOWN and stands in block 20. Every 10 us a heartbeat goes out on every lane that is up, each counted. On a
lane that is up a pair-link frame that fails R435 is counted, one of another EtherType and one that is no heartbeat
change nothing, and a valid new heartbeat is counted and its partner and time noted; the same heartbeat again changes
nothing. A STANDBY unit that has heard none for 32 us begins its takeover and drops a pending copy. In the other cases
nothing changes. -/
def Obligations.FeedsAndHeartbeats : Prop :=
  (∀ (line : Nat) (level : Bool) (s : State), isAlive s.chip.mode = true → line < 2 →
    ((if line = 0 then s.feeds.aOk else s.feeds.bOk) = level ∨ feedHeld s line = false →
      exec (.feedLineChange line level) s = .next s) ∧
    ((if line = 0 then s.feeds.aOk else s.feeds.bOk) ≠ level → feedHeld s line = true →
      Gives (.feedLineChange line level) s fun t =>
      (line = 0 → t.feeds.aOk = level ∧ t.feeds.bOk = s.feeds.bOk ∧ t.feeds.aAt = some s.cycle) ∧
      (line = 1 → t.feeds.bOk = level ∧ t.feeds.aOk = s.feeds.aOk ∧ t.feeds.bAt = some s.cycle) ∧
      (t.source (272 + line)).pending = true ∧ t.feeds.short = isShort t ∧
      (t.feeds.short = true → t.feeds.shedding = shedPorts s ∧ t.feeds.okSince = none) ∧
      (t.feeds.short = false → t.feeds.shedding = s.feeds.shedding) ∧
      (t.feeds.short = false → s.feeds.short = true → t.feeds.okSince = some s.cycle) ∧
      (level = false → (line = 0 → t.feeds.aLost = true) ∧ (line = 1 → t.feeds.bLost = true) ∧
        t.counter 0x7005 (0x0F + line) 0 = (s.counter 0x7005 (0x0F + line) 0 + 1) % 2 ^ 64))) ∧
  (∀ s : State, s.feeds.okSince = none ∨ s.feeds.short = true → exec .restoreHoldExpiry s = .next s) ∧
  (∀ (s : State) (at_ : Nat), s.feeds.okSince = some at_ → isAlive s.chip.mode = true → s.feeds.short = false →
    (s.cycle < at_ + msCycles (s.cfgN 0x7001 4) → exec .restoreHoldExpiry s = .next s) ∧
    (at_ + msCycles (s.cfgN 0x7001 4) ≤ s.cycle → Gives .restoreHoldExpiry s fun t =>
      t.feeds = { s.feeds with shedding := [], okSince := none } ∧
      (s.feeds.shedding ≠ [] → (243, s.cycle) ∈ t.intc.pulses))) ∧
  (∀ (lane : Nat) (s : State), pairPresent s = true → isAlive s.chip.mode = true → lane < 2 →
    (∀ up, s.pair.lanes.getD lane false = up → exec (.pairLaneChange lane up) s = .next s) ∧
    (∀ up, s.pair.lanes.getD lane false ≠ up → Gives (.pairLaneChange lane up) s fun t =>
      t.pair.lanes = setAt s.pair.lanes lane up ∧
      (up = true → t = s.updPair fun p => { p with lanes := setAt p.lanes lane up }) ∧
      (up = false → bit t.pair.events 7 = true ∧ bit (t.fault 20 0).status 0 = true)) ∧
    (s.pair.lanes.getD lane false = true → exec (.pairLinkFrameError lane) s = .next (s.bumpPair 3) ∧
      (∀ b, beAt b 12 2 ≠ 0x88B5 → exec (.heartbeatRx lane b) s = .next s) ∧
      (∀ b, beAt b 12 2 = 0x88B5 → pairFrameOk b = false → exec (.heartbeatRx lane b) s = .next (s.bumpPair 3)) ∧
      (∀ b, beAt b 12 2 = 0x88B5 → pairFrameOk b = true → beAt b 14 1 ≠ 3 ∨ beAt b 16 2 ≠ 48 →
        exec (.heartbeatRx lane b) s = .next s) ∧
      (∀ b, beAt b 12 2 = 0x88B5 → pairFrameOk b = true → beAt b 14 1 = 3 → beAt b 16 2 = 48 →
        (partnerHeard s = true → s.pair.partner.map (·.seq) = some (beAt b 30 4) →
          exec (.heartbeatRx lane b) s = .next s) ∧
        (partnerHeard s = false ∨ s.pair.partner.map (·.seq) ≠ some (beAt b 30 4) →
          Gives (.heartbeatRx lane b) s fun t =>
            t.pair.partner = some (partnerOf b) ∧ t.pair.heardAt = some s.cycle ∧
            t.counter 0x7005 2 0 = (s.counter 0x7005 2 0 + 1) % 2 ^ 64))) ∧
    (s.pair.lanes.getD lane false = false → exec (.pairLinkFrameError lane) s = .next s ∧
      ∀ b, exec (.heartbeatRx lane b) s = .next s)) ∧
  (∀ s : State, pairPresent s = true → isAlive s.chip.mode = true →
    (s.cycle < s.pair.hbAt + usCycles 10 → exec .heartbeatTx s = .next s) ∧
    (s.pair.hbAt + usCycles 10 ≤ s.cycle → Gives .heartbeatTx s fun t =>
      t.pair.hbAt = s.cycle ∧ t.pair.hbCount = (s.pair.hbCount + 1) % 2 ^ 32 ∧
      (∀ l ∈ lanesUp s, .pair l (pairFrame s 3 0 s.pair.hbCount (heartbeatBody s)) ∈ t.out) ∧
      (lanesUp s ≠ [] → t.counter 0x7005 1 0 = (s.counter 0x7005 1 0 + (lanesUp s).length) % 2 ^ 64))) ∧
  (∀ s : State, s.pair.heardAt = none ∨ pairRuns s = false ∨ s.pair.role ≠ 3 ∨ s.pair.taking = true →
    exec .heartbeatTimeout s = .next s) ∧
  (∀ (s : State) (at_ : Nat), s.pair.heardAt = some at_ → pairRuns s = true → s.pair.role = 3 → s.pair.taking = false →
    s.pair.roleAt ≤ at_ + usCycles 32 →
    (s.cycle < at_ + usCycles 32 → exec .heartbeatTimeout s = .next s) ∧
    (at_ + usCycles 32 ≤ s.cycle → Gives .heartbeatTimeout s fun t =>
      t.pair.taking = true ∧ t.pair.rx = none ∧ t.pair.role = 3 ∧
      (s.pair.rx = none → t = s.updPair fun p => { p with taking := true })))

/-- O55. A takeover makes a STANDBY unit ACTIVE under a new epoch above every one seen, kept in MRAM, after the cutover that
falls in its core cycle, unless a higher claim came in the cycle or the cycle is one of entry to SAFE. HANDOVER,
performed in the state that the requests ahead of it leave, yields only when ACTIVE with a READY partner, and answers
CLAIM_LOST to a unit that is not ACTIVE. At a copy instant the ACTIVE unit takes one snapshot, after an earlier one
not fully sent is abandoned, and its end marker ends it; one late by 5 us before the next instant is abandoned and
counted. The STANDBY unit holds the records pending, discards a pending copy when a frame of another arrives, applies
a copy that is complete under its end marker and discards any other, as it does one whose end marker never came.
Announcements go every 10 us in RUN. The digest of a cycle closes 1 us after it. In the other cases nothing changes. -/
def Obligations.RolesAndCopies : Prop :=
  (∀ s : State, pairRuns s = false ∨ s.pair.role ≠ 3 ∨ s.pair.taking = false ∨ safeDue s = true →
    exec .takeover s = .next s) ∧
  (∀ s : State, pairRuns s = true → s.pair.role = 3 → s.pair.taking = true → safeDue s = false →
    (s.pair.higherAt = some s.cycle → exec .takeover s = .next (s.updPair fun p => { p with taking := false })) ∧
    (s.pair.higherAt ≠ some s.cycle →
      (atCutover s = false ∨ cutoverLate s = true → cutoverFirst s = s) ∧
      ∀ u, u = cutoverFirst s →
        (isPaired u = false ∨ u.pair.role ≠ 3 → exec .takeover s = .next u) ∧
        (isPaired u = true → u.pair.role = 3 → Gives .takeover s fun t =>
          t.pair.role = 2 ∧ t.mram.pairEpoch = min 0xFFFFFF (max u.mram.pairEpoch u.pair.seen + 1) ∧
          t.pair.claim = activeClaim t.mram.pairEpoch (rankOf u) ∧ t.pair.taking = false ∧ t.pair.ready = false ∧
          t.pair.takeoverTime = u.ns 0 ∧ t.pair.sendFull = true ∧ bit t.pair.events 0 = true ∧
          (244, u.cycle) ∈ t.intc.pulses ∧ t.counter 0x7005 4 0 = (u.counter 0x7005 4 0 + 1) % 2 ^ 64))) ∧
  (∀ (r : Requester) (s0 s : State), s = engineTurn r.path s0 → Accepted r s → s.chip.mode = .run →
    bit (rightsOf s r) 1 = true → isPaired s = true →
    (handoverAllowed s = true →
      exec (.handover r) s0 = .next ((s.updPair fun p => { p with yield := true }).emit (.answer r 0 none))) ∧
    (s.pair.role = 2 → handoverAllowed s = false → exec (.handover r) s0 = .next (s.emit (.answer r 6 none))) ∧
    (s.pair.role ≠ 2 → exec (.handover r) s0 = .next (s.emit (.answer r 12 none)))) ∧
  (∀ s : State, (s.chip.mode ≠ .run → exec .announcement s = .next s) ∧ (s.chip.mode = .run →
    (s.cycle < s.pair.announceAt + usCycles 10 → exec .announcement s = .next s) ∧
    (s.pair.announceAt + usCycles 10 ≤ s.cycle → Gives .announcement s fun t => t.pair.announceAt = s.cycle ∧
      (taggedPorts s = [] → t = s.updPair fun p => { p with announceAt := s.cycle })))) ∧
  (∀ (s : State) (x : CopyTx), s.pair.tx = some x → x.num ≠ copyNumber s →
    exec .copyInstant s = exec .copyInstant (abandonCopy x s)) ∧
  (∀ s : State, s.pair.tx = none → pairRuns s = false ∨ s.pair.role ≠ 2 → exec .copyInstant s = .next s) ∧
  (∀ s : State, pairRuns s = true → s.pair.role = 2 → (∀ x, s.pair.tx = some x → x.num = copyNumber s) →
    (s.pair.copyLast = some (copyNumber s) → exec .copyInstant s = .next s) ∧
    (s.pair.copyLast ≠ some (copyNumber s) → Gives .copyInstant s fun t =>
      t.pair.copyLast = some (copyNumber s) ∧ t.pair.sendFull = false ∧
      ∃ x, t.pair.tx = some x ∧ x.num = copyNumber s ∧ x.full = s.pair.sendFull ∧
        x.frames = packRecords ((snapshotEntries s).1.map (copyRecord s)) [] ∧
        (s.pair.sendFull = true → x.entries.map (·.1) = copyEntries s))) ∧
  (∀ s : State, s.pair.tx = none → exec .copyDeadline s = .next s ∧ exec .copyEndMarkerSent s = .next s) ∧
  (∀ (s : State) (x : CopyTx), s.pair.tx = some x →
    (x.num = copyNumber s → copyPhase s + 5000 < copyNs s → exec .copyDeadline s = .next s) ∧
    (x.num ≠ copyNumber s ∨ copyNs s ≤ copyPhase s + 5000 → Gives .copyDeadline s fun t =>
      t.pair.tx = none ∧ bit t.pair.events 3 = true ∧ t.counter 0x7005 8 0 = (s.counter 0x7005 8 0 + 1) % 2 ^ 64 ∧
      (∀ e ∈ x.entries, AMap.find t.pair.carried e.1 = none) ∧
      ∀ l ∈ lanesUp s, .pair l (pairFrame s 5 x.num x.frames.length (endMarker x true)) ∈ t.out) ∧
    (x.sent = true → lanesUp s ≠ [] → x.num = copyNumber s → copyPhase s + 5000 ≤ copyNs s →
      Gives .copyEndMarkerSent s fun t =>
      t.pair.tx = none ∧ (245, s.cycle) ∈ t.intc.pulses ∧ t.counter 0x7005 7 0 = (s.counter 0x7005 7 0 + 1) % 2 ^ 64 ∧
      ∀ l ∈ lanesUp s, .pair l (pairFrame s 5 x.num x.frames.length (endMarker x false)) ∈ t.out) ∧
    (x.sent = false ∨ lanesUp s = [] ∨ x.num ≠ copyNumber s ∨ copyNs s < copyPhase s + 5000 →
      exec .copyEndMarkerSent s = .next s)) ∧
  (∀ (lane : Nat) (b : Bytes) (s : State),
    (pairHears s lane = false ∨ beAt b 12 2 ≠ 0x88B5 →
      exec (.copyDataRx lane b) s = .next s ∧ exec (.copyEndRx lane b) s = .next s) ∧
    (pairHears s lane = true → beAt b 12 2 = 0x88B5 → pairFrameOk b = false →
      exec (.copyDataRx lane b) s = .next (s.bumpPair 3) ∧ exec (.copyEndRx lane b) s = .next (s.bumpPair 3)) ∧
    (pairHears s lane = true → beAt b 12 2 = 0x88B5 → pairFrameOk b = true → s.pair.role ≠ 3 →
      exec (.copyDataRx lane b) s = .next s ∧ exec (.copyEndRx lane b) s = .next s)) ∧
  (∀ (lane m : Nat) (b : Bytes) (s : State), pairHears s lane = true → s.pair.role = 3 → beAt b 12 2 = 0x88B5 →
    pairFrameOk b = true → beAt b 26 4 = m →
    (∀ c, s.pair.rx = some c → c.num ≠ m →
      (beAt b 14 1 = 4 → exec (.copyDataRx lane b) s = exec (.copyDataRx lane b) (discardCopy c.num s)) ∧
      (beAt b 14 1 = 5 → exec (.copyEndRx lane b) s = exec (.copyEndRx lane b) (discardCopy c.num s))) ∧
    (s.pair.rx = none → s.pair.lastEnd ≠ some m → beAt b 14 1 = 4 → Gives (.copyDataRx lane b) s fun t =>
      t.pair.rx = some { num := m, frames := [(beAt b 30 4, pairBody b)] } ∧ Only [.pair] s t) ∧
    (s.pair.lastEnd = some m → (∀ c, s.pair.rx = some c → c.num = m) → exec (.copyDataRx lane b) s = .next s ∧
      exec (.copyEndRx lane b) s = .next s) ∧
    ∀ c, s.pair.rx = some c → c.num = m → s.pair.lastEnd ≠ some m →
    (beAt b 14 1 = 4 → c.frames.any (fun e => e.1 == beAt b 30 4) = false → Gives (.copyDataRx lane b) s fun t =>
      t.pair.rx = some { c with frames := AMap.set c.frames (beAt b 30 4) (pairBody b) } ∧ Only [.pair] s t) ∧
    (beAt b 14 1 = 4 → c.frames.any (fun e => e.1 == beAt b 30 4) = true → exec (.copyDataRx lane b) s = .next s) ∧
    (beAt b 14 1 = 5 → ∀ bytes, bytes = (c.frames.map (·.2)).flatten →
      (∀ rs, parseRecords bytes.length bytes = some rs → bit (beAt b 50 1) 0 = false →
        framesComplete c.frames (beAt b 38 4) = true → rs.length = beAt b 42 4 → crc32c bytes = beAt b 46 4 →
        Gives (.copyEndRx lane b) s fun t =>
          t.pair.applied = m ∧ t.pair.rx = none ∧ t.pair.lastEnd = some m ∧ (s.pair.ready = true → t.pair.ready = true) ∧
          t.counter 0x7005 9 0 = (s.counter 0x7005 9 0 + 1) % 2 ^ 64) ∧
      (parseRecords bytes.length bytes = none ∨ bit (beAt b 50 1) 0 = true ∨
        framesComplete c.frames (beAt b 38 4) = false ∨ crc32c bytes ≠ beAt b 46 4 ∨
        (∃ rs, parseRecords bytes.length bytes = some rs ∧ rs.length ≠ beAt b 42 4) →
        Gives (.copyEndRx lane b) s fun t =>
          t.pair.applied = s.pair.applied ∧ t.pair.rx = none ∧ t.pair.lastEnd = some m ∧ t.pair.ready = false ∧
          bit t.pair.events 4 = true ∧ t.counter 0x7005 0x0A 0 = (s.counter 0x7005 0x0A 0 + 1) % 2 ^ 64 ∧
          t.frer = s.frer ∧ t.psfp = s.psfp))) ∧
  (∀ s : State, pairRuns s = false ∨ s.pair.role ≠ 3 → exec .copyMissing s = .next s) ∧
  (∀ s : State, pairRuns s = true → s.pair.role = 3 →
    (∀ c, s.pair.rx = some c → c.num = copyNumber s → exec .copyMissing s = .next s) ∧
    (∀ n, (∃ c, s.pair.rx = some c ∧ c.num = n ∧ n ≠ copyNumber s) ∨
        (s.pair.rx = none ∧ n = (copyNumber s + 2 ^ 32 - 1) % 2 ^ 32 ∧
          ∃ e, s.pair.lastEnd = some e ∧ e ≠ copyNumber s ∧ e ≠ n) →
      Gives .copyMissing s fun t =>
      t.pair.rx = none ∧ t.pair.ready = false ∧ t.pair.lastEnd = some n ∧ bit t.pair.events 4 = true ∧
      t.counter 0x7005 0x0A 0 = (s.counter 0x7005 0x0A 0 + 1) % 2 ^ 64)) ∧
  (∀ (s : State) (m : Nat), m = (copyNumber s + 2 ^ 32 - 1) % 2 ^ 32 →
    (pairRuns s = false ∨ copyPhase s < 1000 ∨ (∃ d, s.pair.digest = some d ∧ d.cycle = m) →
      exec .digestClose s = .next s) ∧
    (pairRuns s = true → 1000 ≤ copyPhase s → (∀ d, s.pair.digest = some d → d.cycle ≠ m) → Gives .digestClose s fun t =>
      ∃ d, t.pair.digest = some d ∧ d.cycle = m ∧ (d ∈ s.pair.open_ ∨ d.count = 0 ∧ d.sum = 0) ∧ Only [.pair] s t))

/-- O56. A fault that an instance of a present block detects sets its STATUS bit; where the bit was clear, a history entry of
TIME, CODE and DETAIL is written, those of one core cycle in ascending code order, or LOST counts at eight, and the
enabled source is raised; where it was set the registers stay. A SAFE_ON fault asks for SAFE either way, and of one
core cycle the lowest block and code names the reason. For an accepted request with the WRITE right CLEAR_STATUS,
CLEAR_HISTORY and CLEAR_BOTH clear exactly what they name in one instance; a block or instance that does not exist
answers OUT_OF_RANGE, an absent one ABSENT_UNIT. A write of ones clears STATUS bits of one instance, but not one
detected in that core cycle, which is recorded as found clear. HIST_HI and LOST reads return the value and remove it,
but not what an event of the core cycle has written; windows of absent instances read 0. A parity error of the fault
registers is code 0xFF. -/
def Obligations.FaultsRecorded : Prop :=
  (∀ (b i c d : Nat) (s : State), isAlive s.chip.mode = true → blockPresent s.ident b = true → i < 32 → 1 ≤ c →
    bit ((detectFault b i c d s).fault b i).status (c - 1) = true ∧
    (∀ x y, y < 32 → ¬(x = b ∧ y = i) → (detectFault b i c d s).fault x y = s.fault x y) ∧
    (bit (s.fault b i).status (c - 1) = true → (detectFault b i c d s).fault b i = s.fault b i) ∧
    (bit (s.fault b i).status (c - 1) = false → (detectFault b i c d s).fault b i =
      pushHistory s.cycle (s.ns 0 % 2 ^ 40 * 2 ^ 24 + c % 256 * 2 ^ 16 + d % 2 ^ 16)
        { s.fault b i with status := (s.fault b i).status ||| 2 ^ (c - 1) }) ∧
    (bit (s.fault b i).status (c - 1) = false → bit (s.cfgN (0x8000 + b) 1) (c - 1) = true →
      ((detectFault b i c d s).source (512 + (b - 1) * 32 + i)).pending = true) ∧
    (bit (safeOn s b) (c - 1) = true → canEnterSafe s.chip.mode = true →
      (∀ r y k, s.chip.safePending = some (r, y, k) → k = s.cycle ∧ b * 256 + c < r) →
      (detectFault b i c d s).chip.safePending = some (b * 256 + c, d, s.cycle)) ∧
    (∀ r y k, s.chip.safePending = some (r, y, k) → k < s.cycle ∨ r ≤ b * 256 + c → (detectFault b i c d s).chip = s.chip) ∧
    (bit (safeOn s b) (c - 1) = false → (detectFault b i c d s).chip = s.chip)) ∧
  (∀ (now e : Nat) (x y : FaultInst), y = pushHistory now e x → y.status = x.status ∧
    (x.hist.length < 8 → y.lost = x.lost ∧ y.hist.length = x.hist.length + 1) ∧
    (8 ≤ x.hist.length → y.lost = min 0xFFFFFFFF (x.lost + 1)) ∧
    (x.freshAt ≠ now → y.hist = (x.hist ++ [e]).take 8) ∧
    (x.freshAt = now → ∀ old, old = x.hist.length - x.fresh →
      y.hist = (x.hist.take old ++ insertEntry e (x.hist.drop old)).take 8)) ∧
  (∀ (e : Nat) (l : List Nat), (insertEntry e l).Perm (e :: l) ∧
    ((l.map entryCode).Pairwise (· ≤ ·) → ((insertEntry e l).map entryCode).Pairwise (· ≤ ·))) ∧
  (∀ (r : Requester) (b i : Nat) (s0 s : State), s = engineTurn r.path s0 → Accepted r s →
    bit (rightsOf s r) 1 = true → b < 65536 → i < 256 → s.chip.mode ∈ [.hold, .armed, .run] →
    (∀ c ∈ [Instr.clearStatus r b i, .clearHistory r b i, .clearBoth r b i],
      (b = 0 ∨ 22 < b ∨ instanceCount b ≤ i → exec c s0 = .next (s.emit (.answer r 7 none))) ∧
      (1 ≤ b → b ≤ 22 → i < instanceCount b → instancePresent s b i = false →
        exec c s0 = .next (s.emit (.answer r 11 none)))) ∧
    (instancePresent s b i = true →
      exec (.clearStatus r b i) s0 = .next ((s.updFault b i fun x => { x with status := 0 }).emit (.answer r 0 none)) ∧
      exec (.clearHistory r b i) s0 =
        .next ((s.updFault b i fun x => { x with hist := [], lost := 0 }).emit (.answer r 0 none)) ∧
      exec (.clearBoth r b i) s0 =
        .next ((s.updFault b i fun x => { x with status := 0, hist := [], lost := 0 }).emit (.answer r 0 none)))) ∧
  (∀ (b i v : Nat) (s : State), s.barReach 0 = true → instancePresent s b i = true → v < 2 ^ 32 →
    Gives (.registerWrite 0 (0x071000 + (b - 1) * 0x400 + i * 0x20) v 4) s fun t => ∀ c, 1 ≤ c → c ≤ 17 →
      (bit v (c - 1) = false → bit (t.fault b i).status (c - 1) = bit (s.fault b i).status (c - 1)) ∧
      ((s.hitOf (.faultStatus b i c)).isSome = true → bit (s.fault b i).status (c - 1) = true →
        bit (t.fault b i).status (c - 1) = true) ∧
      (bit v (c - 1) = true → s.hitOf (.faultStatus b i c) = none → bit (t.fault b i).status (c - 1) = false) ∧
      ((∀ k, k < 17 → bit v k = true → s.hitOf (.faultStatus b i (k + 1)) = none) →
        (t.fault b i).hist = (s.fault b i).hist ∧ (t.fault b i).lost = (s.fault b i).lost)) ∧
  (∀ (f b i : Nat) (s : State), s.barReach f = true →
    (instancePresent s b i = false →
      exec (.histHiRead f b i) s = .next (s.emit (.reg f (0x071000 + (b - 1) * 0x400 + i * 0x20 + 0x0C) 0)) ∧
      exec (.faultLostRead f b i) s = .next (s.emit (.reg f (0x071000 + (b - 1) * 0x400 + i * 0x20 + 0x10) 0))) ∧
    (instancePresent s b i = true →
      ((s.hitOf (.faultHead b i)).isSome = true →
        exec (.histHiRead f b i) s = .next (s.emit (.reg f (0x071000 + (b - 1) * 0x400 + i * 0x20 + 0x0C) 0))) ∧
      (s.hitOf (.faultHead b i) = none → Gives (.histHiRead f b i) s fun t =>
        (∀ e rest, (s.fault b i).hist = e :: rest →
          t.out = .reg f (0x071000 + (b - 1) * 0x400 + i * 0x20 + 0x0C) (e / 2 ^ 32) :: s.out ∧
          t.fault b i = { s.fault b i with hist := rest }) ∧
        ((s.fault b i).hist = [] → t.out = .reg f (0x071000 + (b - 1) * 0x400 + i * 0x20 + 0x0C) 0 :: s.out ∧
          t.fault b i = s.fault b i) ∧
        (∀ x y, y < 32 → ¬(x = b ∧ y = i) → t.fault x y = s.fault x y) ∧ Only [.out, .faults] s t) ∧
      Gives (.faultLostRead f b i) s fun t =>
        (s.hitOf (.faultLost b i) = none →
          t.out = .reg f (0x071000 + (b - 1) * 0x400 + i * 0x20 + 0x10) (s.fault b i).lost :: s.out ∧
          t.fault b i = { s.fault b i with lost := 0 }) ∧
        (∀ was, s.hitOf (.faultLost b i) = some was →
          t.out = .reg f (0x071000 + (b - 1) * 0x400 + i * 0x20 + 0x10) was :: s.out ∧
          t.fault b i = { s.fault b i with lost := (s.fault b i).lost - was }) ∧
        (∀ x y, y < 32 → ¬(x = b ∧ y = i) → t.fault x y = s.fault x y) ∧ Only [.out, .faults, .hits] s t)) ∧
  (∀ (b i : Nat) (s : State), exec (.faultRegisterScrub none) s = .next s ∧
    (i < 32 → instancePresent s b i = false → exec (.faultRegisterScrub (some (b * 32 + i))) s = .next s) ∧
    (i < 32 → instancePresent s b i = true → canEnterSafe s.chip.mode = true →
      (∀ r y k, s.chip.safePending = some (r, y, k) → k = s.cycle ∧ b * 256 + 0xFF < r) →
      exec (.faultRegisterScrub (some (b * 32 + i))) s =
        .next { s with chip := { s.chip with safePending := some (b * 256 + 0xFF, i, s.cycle) } }))

/-- O57. In a half period with every clock within 1 % ALIVE toggles; with one outside it stops for good with ALIVE_STOPPED. TJ
is the highest valid reading; a sensor outside its range records SENSOR_FAULT; reaching THERMAL_ALARM sets the alarm,
falling 5 degC below it clears the alarm, and four samples at THERMAL_SAFE record THERMAL_SAFE. A rail below nominal
by more than DROOP_LIMIT per cent for 20 ns, without leaving its operating range for 1 us, is a droop: it counts and
is recorded; another fall changes nothing. A lane whose link is up keeps its last 16 margins and records MARGIN_LOW
when their mean falls below the limit. Each second teq and dmg grow by af and w, each minute deg is measured, limits
that are reached are recorded, and EOL_HOURS is the least remaining life. Every 3,600 s teq and dmg are checkpointed
in the next slot. Before LOAD nothing changes. -/
def Obligations.HealthMonitored : Prop :=
  (∀ (s : State) (l : List Int) (n m k : Nat) (v f a : List Nat) (minute : Bool), isAlive s.chip.mode = false →
    ∀ c ∈ [Instr.aliveHalfPeriod n m k, .thermalSample l, .supplyDroop n m k, .marginReport n m, .ageingUpdate minute v f a,
      .healthCheckpoint], exec c s = .next s) ∧
  ∀ s : State, isAlive s.chip.mode = true →
    (∀ core time mem : Nat,
      (s.health.aliveStopped = true → exec (.aliveHalfPeriod core time mem) s = .next s) ∧
      (s.health.aliveStopped = false → countOk core 800000 = true → countOk time 500000 = true → countOk mem 250000 = true →
        exec (.aliveHalfPeriod core time mem) s = .next (s.updHealth fun h => { h with alive := !h.alive, running := true })) ∧
      (s.health.aliveStopped = false → countOk core 800000 = false ∨ countOk time 500000 = false ∨ countOk mem 250000 = false →
        Gives (.aliveHalfPeriod core time mem) s fun t =>
          t.health = { s.health with alive := false, running := false, aliveStopped := true } ∧
          bit (t.fault 21 0).status 9 = true)) ∧
    (∀ (l : List Int) (k : Nat) (tj : Int), l.length = 32 → k < 32 → l.getD k 0 = tj → -320 ≤ tj → tj ≤ 1200 →
      (∀ j, j < 32 → -320 ≤ l.getD j 0 → l.getD j 0 ≤ 1200 → l.getD j 0 ≤ tj) → Gives (.thermalSample l) s fun t =>
        t.health.tj = tj ∧ t.health.hotRun = (if 8 * (s.cfgN 0x8100 2 : Int) ≤ tj then s.health.hotRun + 1 else 0) ∧
        (∀ j, j < 32 → ¬(-320 ≤ l.getD j 0 ∧ l.getD j 0 ≤ 1200) → bit (t.fault 21 0).status 0x0A = true) ∧
        (8 * (s.cfgN 0x8100 1 : Int) ≤ tj → t.health.alarm = true) ∧
        (8 * (s.cfgN 0x8100 1 : Int) ≤ tj → s.health.alarm = false → bit (t.fault 21 0).status 0 = true) ∧
        (tj < 8 * (s.cfgN 0x8100 1 : Int) - 40 → t.health.alarm = false) ∧
        (tj < 8 * (s.cfgN 0x8100 1 : Int) → 8 * (s.cfgN 0x8100 1 : Int) - 40 ≤ tj → t.health.alarm = s.health.alarm) ∧
        (4 ≤ t.health.hotRun → bit (t.fault 21 0).status 1 = true)) ∧
    (∀ rail level ns : Nat, ∀ fallen : Prop, (fallen ↔ rail < 8 ∧
        level * 100 < (railOf rail).nominal * (100 - s.cfgN 0x8100 3) ∧ 20 ≤ ns ∧
        (inOperatingRange rail level = true ∨ ns < 1000)) →
      (¬fallen → exec (.supplyDroop rail level ns) s = .next s) ∧
      (fallen → Gives (.supplyDroop rail level ns) s fun t =>
        t.health = { s.health with droop := true } ∧ bit (t.fault 21 0).status 2 = true ∧
        t.counter 0x8103 2 rail = (s.counter 0x8103 2 rail + 1) % 2 ^ 64)) ∧
    (∀ lane mv l, l = (mv :: AMap.get [] s.health.margins lane).take 16 → linePortPresent s.ident lane = true →
      ((s.port (lanePort s lane)).up = false → exec (.marginReport lane mv) s = .next s) ∧
      ((s.port (lanePort s lane)).up = true → Gives (.marginReport lane mv) s fun t =>
        AMap.find t.health.margins lane = some l ∧
        (∀ j, j ≠ lane → AMap.find t.health.margins j = AMap.find s.health.margins j) ∧
        (l.sum / l.length < s.cfgN 0x8100 4 → (∀ m, marginTrend s lane = some m → s.cfgN 0x8100 4 ≤ m) →
          t.health.marginLow = true ∧ bit (t.fault 21 0).status 6 = true) ∧
        (s.cfgN 0x8100 4 ≤ l.sum / l.length ∨ (∃ m, marginTrend s lane = some m ∧ m < s.cfgN 0x8100 4) →
          t.health.marginLow = s.health.marginLow ∧ t.faults = s.faults))) ∧
    (∀ minute volts freq current, Gives (.ageingUpdate minute volts freq current) s fun t =>
      (∀ k, k < 64 → t.health.teq.getD k 0 = s.health.teq.getD k 0 + t.health.af.getD k 0) ∧
      (∀ r, r < 8 → t.health.dmg.getD r 0 = s.health.dmg.getD r 0 + t.health.wear.getD r 0) ∧
      (minute = false → t.health.deg = s.health.deg) ∧
      (minute = true → ∀ k, k < 64 → 0 < freq.getD k 0 →
        t.health.deg.getD k 0 = (freq.getD k 0 - freq.getD (64 + k) 0) * 10 ^ 6 / freq.getD k 0) ∧
      (∀ k, k ∈ t.health.aged ↔ k < 64 ∧ s.cfgN 0x8100 5 ≤ t.health.deg.getD k 0) ∧
      (∀ r, r ∈ t.health.worn ↔ r < 8 ∧ s.cfgN 0x8100 6 * hourUnits ≤ t.health.dmg.getD r 0) ∧
      (∀ k, k ∈ t.health.aged → k ∉ s.health.aged → bit (t.fault 21 0).status 3 = true) ∧
      (∀ r, r ∈ t.health.worn → r ∉ s.health.worn → bit (t.fault 21 0).status 4 = true) ∧
      t.health.eolHours = (leastLife (remainings t)).2 ∧ t.health.eolAlert = decide (t.health.eolHours < s.cfgN 0x8100 7) ∧
      (t.health.eolAlert = true → s.health.eolAlert = false → bit (t.fault 21 0).status 5 = true)) ∧
    (s.cycle < s.health.checkAt + sCycles 3600 → exec .healthCheckpoint s = .next s) ∧
    (s.health.checkAt + sCycles 3600 ≤ s.cycle → ∀ n : Checkpoint,
      n = { seq := s.mram.checkpoint.seq + 1, teq := s.health.teq, dmg := s.health.dmg } → Gives .healthCheckpoint s fun t =>
      t.mram = { s.mram with checkpoint := n, checkpoints := AMap.set s.mram.checkpoints (n.seq % 16) n } ∧
      t.health = { s.health with checkAt := s.cycle } ∧ Only [.mram, .health] s t)

/-- O58. A ZQ calibration changes nothing. A DQS oscillator read with a drift counts a retraining; an MR4 read keeps the
refresh rate. The patrol scrub visits a word: a corrected one is counted, an uncorrectable one counted, recorded with
its address and left as it is. A lost REFCLK or an unlocked core PLL is noted, recorded and asks for SAFE; a quad's
transmit PLL is recorded at its slice. Before LOAD REFCLK and the PLLs are noted only. A SYNCE output follows its
squelch cause, and a squelch counts. TAP_RESET selects IDCODE; an instruction is loaded, and one that controls pins
takes them only in HOLD or SAFE; a scan puts out what the selected register captured, followed by what came in, and
the boundary register keeps what it then holds (log entry 9). In OFF the test port does nothing. -/
def Obligations.MemoryAndClocks : Prop :=
  (∀ s : State, exec .zqCalibration s = .next s) ∧
  (∀ s : State, isAlive s.chip.mode = true →
    (∀ c, c < 8 → exec (.dqsOscillatorRead c true) s = .next (s.bumpK 0x6006 6 c) ∧
      exec (.dqsOscillatorRead c false) s = .next s) ∧
    (∀ c v x, s.mem.channels[c]? = some x → Gives (.mr4Read c v) s fun t =>
      t.mem.channels[c]? = some { x with refreshRate := v % 8 } ∧
      (∀ j, j ≠ c → t.mem.channels[j]? = s.mem.channels[j]?) ∧ t.mem.cells = s.mem.cells ∧ Only [.mem] s t) ∧
    (∀ addr, addr < dataSize s →
      exec (.patrolScrub addr false false) s = .next { s with mem := { s.mem with scrubPos := addr } } ∧
      (Gives (.patrolScrub addr true false) s fun t => t.mem = { s.mem with scrubPos := addr } ∧
        bit (t.fault 18 0).status 1 = true ∧
        t.counter 0x6006 2 (addr / 448 % 8) = (s.counter 0x6006 2 (addr / 448 % 8) + 1) % 2 ^ 64) ∧
      ∀ corrected, Gives (.patrolScrub addr corrected true) s fun t =>
        t.mem.cells = s.mem.cells ∧ t.mem.scrubPos = addr ∧ bit (t.fault 18 0).status 0 = true ∧
        (∀ x, s.mem.channels[addr / 448 % 8]? = some x →
          t.mem.channels[addr / 448 % 8]? = some { x with lastError := addr }) ∧
        t.counter 0x6006 3 (addr / 448 % 8) = (s.counter 0x6006 3 (addr / 448 % 8) + 1) % 2 ^ 64) ∧
    (∀ addr c u, dataSize s ≤ addr → exec (.patrolScrub addr c u) s = .next s) ∧
    (Gives .refclkLoss s fun t => t.chip.refclk = false ∧ t.chip.mode = s.chip.mode ∧ bit (t.fault 22 0).status 0 = true ∧
      (canEnterSafe s.chip.mode = true → s.chip.safePending = none → t.chip.safePending = some (22 * 256 + 1, 0, s.cycle))) ∧
    (∀ k, k < 5 → Gives (.pllUnlock k) s fun t =>
      t.chip.pll = setField s.chip.pll k 1 0 ∧ bit (t.fault 22 0).status 1 = true ∧
      (canEnterSafe s.chip.mode = true → s.chip.safePending = none → t.chip.safePending = some (22 * 256 + 2, k, s.cycle))) ∧
    (∀ q, q < 64 → linePortPresent s.ident (4 * q) = true → exec (.pllUnlock (64 + q)) s =
      .next (detectFault 1 (q / 4) 1 q s))) ∧
  (∀ s : State, isAlive s.chip.mode = false →
    (∀ c d v, exec (.dqsOscillatorRead c d) s = .next s ∧ exec (.mr4Read c v) s = .next s) ∧
    (∀ addr c u, exec (.patrolScrub addr c u) s = .next s) ∧
    (s.chip.mode ≠ .off → exec .refclkLoss s = .next { s with chip := { s.chip with refclk := false } } ∧
      ∀ k, k < 6 → exec (.pllUnlock k) s = .next { s with chip := { s.chip with pll := setField s.chip.pll k 1 0 } })) ∧
  (∀ (k : Nat) (s : State), k < 2 → k < s.pins.squelched.length →
    (squelchCause s k = s.pins.squelched.getD k true → exec (.synceSquelch k) s = .next s) ∧
    (squelchCause s k ≠ s.pins.squelched.getD k true → Gives (.synceSquelch k) s fun t =>
      t.pins.squelched.getD k true = squelchCause s k ∧
      t.counter (0x4310 + k) 5 0 = (if squelchCause s k = true then (s.counter (0x4310 + k) 5 0 + 1) % 2 ^ 64
        else s.counter (0x4310 + k) 5 0) ∧ Only [.pins, .cnt] s t)) ∧
  (∀ s : State, s.chip.mode = .off → ∀ code scan, exec .tapReset s = .next s ∧ exec (.tapInstruction code scan) s = .next s) ∧
  (∀ s : State, s.chip.mode ≠ .off →
    exec .tapReset s = .next { s with pins := { s.pins with tapIr := 0x01, tapControl := false } } ∧
    ∀ code : TapCode, code < 256 → ∀ u, exec (.tapInstruction code none) s = .next u →
      u.pins.tapIr = code ∧ u.pins.boundary = s.pins.boundary ∧
      u.out = .tdo [true, false, false, false, false, false, false, false] :: s.out ∧ Only [.pins, .out] s u ∧
      (u.pins.tapControl = true ↔ code ∈ [0x00, 0x03, 0x04, 0x05, 0x06] ∧ s.chip.mode ∈ [.hold, .safe]) ∧
      ∀ (x : TapScan) (bits : List Bool), bits = drCapture x.levels u ++ x.tdi → Gives (.tapInstruction code (some x)) s fun t =>
        t.out = .tdo (bits.take x.tdi.length) :: u.out ∧ Only [.pins, .out] u t ∧ t.pins.tapIr = code ∧
        t.pins.tapControl = u.pins.tapControl ∧
        (code = 0x01 → drCapture x.levels u = (List.range 32).map (bit (s.ident.revision % 16 * 2 ^ 28 + 0x025605E3))) ∧
        (selectsBoundary u = true → (drCapture x.levels u).length = 1944 ∧ ∀ k, k < 1944 →
          t.pins.boundary.getLsbD k = (bits.drop x.tdi.length).getD k false) ∧
        (selectsBoundary u = false → t.pins.boundary = u.pins.boundary) ∧
        (selectsBoundary u = false → code ≠ 0x01 → drCapture x.levels u = [false])) ∧
  ∀ (code : TapCode) (s : State), s.chip.mode ≠ .off → code < 256 → Completes (exec (.tapInstruction code none) s)

/-- O59. RESET_RECOVERY, RESET_GENERATION and HANDOVER are pair-scoped. On a paired unit whose role is not ACTIVE, a write to
one of them that passes the other tests of R50 answers CLAIM_LOST and changes nothing, and no write to them is
performed; so answer their commands, performed in the state that the requests ahead of them leave. On an unpaired unit
no write to them answers CLAIM_LOST. -/
def Obligations.ClaimScopedEntries : Prop :=
  (∀ (r : Requester) (d : Datum) (s : State), ∀ p ∈ [(0x3000, 2), (0x3000, 3), (0x7000, 8)],
      (isPaired s = true → s.pair.role ≠ 2 →
        (objWrite r p.1 p.2 d s).2 = s ∧ (objWrite r p.1 p.2 d s).1 ≠ 0 ∧
        (∀ x, admitWrite (s.updPair fun y => { y with role := 2 }) r p.1 p.2 d = .ok x → objWrite r p.1 p.2 d s = (12, s))) ∧
      (isPaired s = false → (objWrite r p.1 p.2 d s).1 ≠ 12)) ∧
  ∀ (r : Requester) (s0 s : State), s = engineTurn r.path s0 → Accepted r s → bit (rightsOf s r) 1 = true →
    isPaired s = true → s.pair.role ≠ 2 →
    (s.chip.mode ∈ [.hold, .armed, .run] → ∀ k, k < 2 ^ 32 →
      exec (.resetRecovery r k) s0 = .next (s.emit (.answer r 12 none)) ∧
      exec (.resetGeneration r k) s0 = .next (s.emit (.answer r 12 none))) ∧
    (s.chip.mode = .run → exec (.handover r) s0 = .next (s.emit (.answer r 12 none)))

/-- O60. A register write by PF1, PF2 or PF3 to the global, pairing or health region is ignored and sets WRITE_DENIED of the
writing function's HOST_ERRORS, and changes nothing else but the note that an event of this core cycle has set that
bit. Only its own SCRATCH may be written, and the bits of its own HOST_ERRORS may be cleared by writing ones, but for
one that an event of this core cycle has set (R14); no function's write there touches another function's. -/
def Obligations.RegionRights : Prop :=
  ∀ (f v : Nat) (s : State), 1 ≤ f → f ≤ 3 → s.barReach f = true → v < 2 ^ 32 →
    (∀ off, off % 4 = 0 → off / 0x10000 ∈ [0, 6, 7] → off ≠ 0x14 → off ≠ 0x18 → Gives (.registerWrite f off v 4) s fun t =>
      t = (s.updPf f (fun p => { p with writeDenied := true })).hit (.hostError f 0) 0 ∧
      (f < s.pcie.pfs.length → t.pf f = { s.pf f with writeDenied := true }) ∧
      (∀ g, g ≠ f → t.pf g = s.pf g) ∧ Only [.pcie, .hits] s t) ∧
    (Gives (.registerWrite f 0x18 v 4) s fun t =>
      t = s.updPf f (fun p => { p with scratch := v }) ∧ ∀ g, g ≠ f → t.pf g = s.pf g) ∧
    (Gives (.registerWrite f 0x14 v 4) s fun t =>
      t = s.updPf f (fun p => { p with
        writeDenied := p.writeDenied && (!bit v 0 || (s.hitOf (.hostError f 0)).isSome)
        badAccess := p.badAccess && (!bit v 1 || (s.hitOf (.hostError f 1)).isSome)
        timeout := p.timeout && (!bit v 2 || (s.hitOf (.hostError f 2)).isSome)
        poisoned := p.poisoned && (!bit v 3 || (s.hitOf (.hostError f 3)).isSome) }) ∧ ∀ g, g ≠ f → t.pf g = s.pf g)
end

