-- ==== Sys2Proof/Laws/Keeps.lean ====
section
/-!
SUPPORT. The relation in which every operation of the model is described once: which parts of the state it may change,
and that it keeps the invariant. A set of parts is a number, bit by bit in the order of `Part`.
-/
namespace Sys2Proof.Machine

/-- The bit of a part. -/
def Part.idx : Part → Nat
  | .pending => 0 | .cycle => 1 | .free => 2 | .out => 3 | .ident => 4 | .chip => 5 | .mram => 6 | .cfg => 7 | .nap => 8
  | .cnt => 9 | .fabric => 10 | .ports => 11 | .fdb => 12 | .psfp => 13 | .gates => 14 | .tine => 15 | .dma => 16
  | .feeds => 17 | .pair => 18 | .linkDelay => 19 | .frer => 20 | .time => 21 | .trig => 22 | .herd => 23 | .intc => 24
  | .faults => 25 | .health => 26 | .pcie => 27 | .mem => 28 | .pins => 29 | .safeRequest => 30 | .hits => 31

/-- Every part in `a` is in `m`. -/
def Sub (a m : Nat) : Prop := ∀ i, a.testBit i = true → m.testBit i = true

theorem Sub.of {a m : Nat} (h : a ||| m = m) : Sub a m := by
  intro i hi
  rw [← h, Nat.testBit_or, hi, Bool.true_or]

theorem Sub.trans {a b c : Nat} (h : Sub a b) (k : Sub b c) : Sub a c := fun i hi => k i (h i hi)

/-- The set of a list of parts. -/
def maskOf (l : List Part) : Nat := l.foldr (fun p m => m ||| 2 ^ p.idx) 0

theorem maskOf_testBit {l : List Part} {p : Part} (h : p ∉ l) : (maskOf l).testBit p.idx = false := by
  induction l with
  | nil => exact Nat.zero_testBit _
  | cons q r ih =>
    rw [List.mem_cons, not_or] at h
    have hne : q.idx ≠ p.idx := fun e => h.1 (by revert e; cases p <;> cases q <;> decide)
    show ((maskOf r) ||| 2 ^ q.idx).testBit p.idx = false
    rw [Nat.testBit_or, ih h.2, Nat.testBit_two_pow_of_ne hne]
    rfl

/-- From `s` to `t` only the parts in `m` change, and the invariant is kept. -/
structure Keeps (m : Nat) (s t : State) : Prop where
  same : ∀ p : Part, m.testBit p.idx = false → p.Same s t
  inv : Inv s → Inv t

theorem Part.Same.refl (p : Part) (s : State) : p.Same s s := by cases p <;> rfl

theorem Part.Same.trans {p : Part} {s t u : State} (h : p.Same s t) (k : p.Same t u) : p.Same s u := by
  cases p <;> exact Eq.trans k h

theorem Keeps.refl (m : Nat) (s : State) : Keeps m s s := ⟨fun p _ => Part.Same.refl p s, id⟩

theorem Keeps.trans {m : Nat} {s t u : State} (h : Keeps m s t) (k : Keeps m t u) : Keeps m s u :=
  ⟨fun p hp => (h.same p hp).trans (k.same p hp), fun i => k.inv (h.inv i)⟩

theorem Keeps.only {l : List Part} {s t : State} (h : Keeps (maskOf l) s t) : Only l s t :=
  fun _ hp => h.same _ (maskOf_testBit hp)

/-- A change of one state into another that touches the parts in `a` only. -/
theorem Keeps.change {a m : Nat} {s t u : State} (h : Keeps m s t) (hm : Sub a m) (k : Keeps a t u) : Keeps m s u := by
  refine h.trans ⟨fun p hp => k.same p ?_, k.inv⟩
  cases e : a.testBit p.idx with
  | false => rfl
  | true => rw [hm _ e] at hp; exact absurd hp (by decide)

theorem Keeps.ite {m : Nat} {s a b : State} {c : Prop} [Decidable c] (h : Keeps m s a) (k : Keeps m s b) :
    Keeps m s (if c then a else b) := by
  split
  · exact h
  · exact k

theorem Keeps.iteSnd {α : Type} {m : Nat} {s : State} {a b : α × State} {c : Prop} [Decidable c] (h : Keeps m s a.2)
    (k : Keeps m s b.2) : Keeps m s (if c then a else b).2 := by
  split
  · exact h
  · exact k

theorem Keeps.iteTrd {α β : Type} {m : Nat} {s : State} {a b : α × β × State} {c : Prop} [Decidable c]
    (h : Keeps m s a.2.2) (k : Keeps m s b.2.2) : Keeps m s (if c then a else b).2.2 := by
  split
  · exact h
  · exact k

theorem Keeps.foldl {α : Type} {m : Nat} {s t : State} {f : State → α → State} (l : List α)
    (hf : ∀ u x, Keeps m s u → Keeps m s (f u x)) (h : Keeps m s t) : Keeps m s (l.foldl f t) := by
  induction l generalizing t with
  | nil => exact h
  | cons x r ih => exact ih (hf t x h)

theorem Keeps.foldlSnd {α β : Type} {m : Nat} {s : State} {b : β} {t : State} {f : β × State → α → β × State} (l : List α)
    (hf : ∀ c u x, Keeps m s u → Keeps m s (f (c, u) x).2) (h : Keeps m s t) : Keeps m s (l.foldl f (b, t)).2 := by
  induction l generalizing b t with
  | nil => exact h
  | cons x r ih => exact ih (b := (f (b, t) x).1) (t := (f (b, t) x).2) (hf b t x h)

theorem Keeps.ofPair {α : Type} {m : Nat} {s u : State} {x : α} {p : α × State} (e : p = (x, u)) (h : Keeps m s p.2) :
    Keeps m s u := by
  rw [e] at h; exact h

theorem Keeps.ofTriple {α β : Type} {m : Nat} {s u : State} {x : α} {y : β} {p : α × β × State} (e : p = (x, y, u))
    (h : Keeps m s p.2.2) : Keeps m s u := by
  rw [e] at h; exact h

/-! A property of every entry of a sparse map is kept by its operations. -/

theorem AMap.set_all {α : Type} {p : α → Prop} (m : AMap α) (k : Nat) (a : α) (hm : ∀ e ∈ m, p e.2) (ha : p a) :
    ∀ e ∈ AMap.set m k a, p e.2 := by
  induction m with
  | nil => intro e he; simp [AMap.set] at he; subst he; exact ha
  | cons x r ih =>
    obtain ⟨j, b⟩ := x
    intro e he
    unfold AMap.set at he
    split at he
    · rcases List.mem_cons.1 he with rfl | h
      · exact ha
      · exact hm e h
    · split at he
      · rcases List.mem_cons.1 he with rfl | h
        · exact ha
        · exact hm e (List.mem_cons_of_mem _ h)
      · rcases List.mem_cons.1 he with rfl | h
        · exact hm (j, b) (List.mem_cons_self ..)
        · exact ih (fun e he => hm e (List.mem_cons_of_mem _ he)) e h

theorem AMap.del_all {α : Type} {p : α → Prop} (m : AMap α) (k : Nat) (hm : ∀ e ∈ m, p e.2) :
    ∀ e ∈ AMap.del m k, p e.2 := by
  induction m with
  | nil => intro e he; simp [AMap.del] at he
  | cons x r ih =>
    obtain ⟨j, b⟩ := x
    intro e he
    unfold AMap.del at he
    split at he
    · exact ih (fun e he => hm e (List.mem_cons_of_mem _ he)) e he
    · rcases List.mem_cons.1 he with rfl | h
      · exact hm (j, b) (List.mem_cons_self ..)
      · exact ih (fun e he => hm e (List.mem_cons_of_mem _ he)) e h

theorem AMap.find_all {α : Type} {p : α → Prop} (m : AMap α) (k : Nat) (hm : ∀ e ∈ m, p e.2) {a : α}
    (h : AMap.find m k = some a) : p a := by
  induction m with
  | nil => simp [AMap.find] at h
  | cons x r ih =>
    obtain ⟨j, b⟩ := x
    unfold AMap.find at h
    split at h
    · cases h; exact hm (j, _) (List.mem_cons_self ..)
    · exact ih (fun e he => hm e (List.mem_cons_of_mem _ he)) h

theorem AMap.upd_all {α : Type} [DecidableEq α] {d : α} {p : α → Prop} {m : AMap α} {k : Nat} {f : α → α} (hd : p d)
    (hf : ∀ a, p a → p (f a)) (hm : ∀ e ∈ m, p e.2) : ∀ e ∈ AMap.upd d m k f, p e.2 := by
  have hg : p (AMap.get d m k) := by
    unfold AMap.get
    cases h : AMap.find m k with
    | none => exact hd
    | some a => exact AMap.find_all m k hm h
  unfold AMap.upd AMap.put
  split
  · exact AMap.del_all m k hm
  · exact AMap.set_all m k _ hm (hf _ hg)

theorem updAt_all {α : Type} {p : α → Prop} (l : List α) (i : Nat) (f : α → α) (hl : ∀ x ∈ l, p x)
    (hf : ∀ x, l[i]? = some x → p (f x)) : ∀ y ∈ updAt l i f, p y := by
  unfold updAt
  induction l generalizing i with
  | nil => intro y hy; simp at hy
  | cons a r ih =>
    cases i with
    | zero =>
      intro y hy
      rw [List.modify_zero_cons] at hy
      rcases List.mem_cons.1 hy with rfl | h
      · exact hf a rfl
      · exact hl y (List.mem_cons_of_mem _ h)
    | succ n =>
      intro y hy
      rw [List.modify_succ_cons] at hy
      rcases List.mem_cons.1 hy with rfl | h
      · exact hl y (List.mem_cons_self ..)
      · exact ih n (fun x hx => hl x (List.mem_cons_of_mem _ hx)) (fun x hx => hf x hx) y h

/-! One field. -/

theorem Keeps.setFree {m : Nat} {s t : State} {x} (h : Keeps m s t) (hm : Sub 0x4 m) :
    Keeps m s { t with free := x } :=
  h.change hm ⟨fun p hp => by cases p <;> first | rfl | exact absurd hp (by decide), fun i => ⟨i.1, i.2, i.3, i.4, i.5, i.6⟩⟩

theorem Keeps.setOut {m : Nat} {s t : State} {x} (h : Keeps m s t) (hm : Sub 0x8 m) :
    Keeps m s { t with out := x } :=
  h.change hm ⟨fun p hp => by cases p <;> first | rfl | exact absurd hp (by decide), fun i => ⟨i.1, i.2, i.3, i.4, i.5, i.6⟩⟩

theorem Keeps.setHits {m : Nat} {s t : State} {x} (h : Keeps m s t) (hm : Sub 0x80000000 m) :
    Keeps m s { t with hits := x } :=
  h.change hm ⟨fun p hp => by cases p <;> first | rfl | exact absurd hp (by decide), fun i => ⟨i.1, i.2, i.3, i.4, i.5, i.6⟩⟩

theorem Keeps.setChip {m : Nat} {s t : State} {x} (h : Keeps m s t) (hm : Sub 0x40000020 m) :
    Keeps m s { t with chip := x } :=
  h.change hm ⟨fun p hp => by cases p <;> first | rfl | exact absurd hp (by decide), fun i => ⟨i.1, i.2, i.3, i.4, i.5, i.6⟩⟩

theorem Keeps.setMram {m : Nat} {s t : State} {x} (h : Keeps m s t) (hm : Sub 0x40 m) :
    Keeps m s { t with mram := x } :=
  h.change hm ⟨fun p hp => by cases p <;> first | rfl | exact absurd hp (by decide), fun i => ⟨i.1, i.2, i.3, i.4, i.5, i.6⟩⟩

theorem Keeps.setCfg {m : Nat} {s t : State} {x} (h : Keeps m s t) (hm : Sub 0x80 m) :
    Keeps m s { t with cfg := x } :=
  h.change hm ⟨fun p hp => by cases p <;> first | rfl | exact absurd hp (by decide), fun i => ⟨i.1, i.2, i.3, i.4, i.5, i.6⟩⟩

theorem Keeps.setNap {m : Nat} {s t : State} {x} (h : Keeps m s t) (hm : Sub 0x100 m) (hi : t.nap.queue.length ≤ 64 → x.queue.length ≤ 64)
    (hj : t.nap.transfers.length ≤ 8 → x.transfers.length ≤ 8) :
    Keeps m s { t with nap := x } :=
  h.change hm ⟨fun p hp => by cases p <;> first | rfl | exact absurd hp (by decide), fun i => ⟨i.1, i.2, hi i.3, hj i.4, i.5, i.6⟩⟩

theorem Keeps.setCnt {m : Nat} {s t : State} {x} (h : Keeps m s t) (hm : Sub 0x200 m) :
    Keeps m s { t with cnt := x } :=
  h.change hm ⟨fun p hp => by cases p <;> first | rfl | exact absurd hp (by decide), fun i => ⟨i.1, i.2, i.3, i.4, i.5, i.6⟩⟩

theorem Keeps.setFabric {m : Nat} {s t : State} {x} (h : Keeps m s t) (hm : Sub 0x400 m) :
    Keeps m s { t with fabric := x } :=
  h.change hm ⟨fun p hp => by cases p <;> first | rfl | exact absurd hp (by decide), fun i => ⟨i.1, i.2, i.3, i.4, i.5, i.6⟩⟩

theorem Keeps.setPorts {m : Nat} {s t : State} {x} (h : Keeps m s t) (hm : Sub 0x800 m) :
    Keeps m s { t with ports := x } :=
  h.change hm ⟨fun p hp => by cases p <;> first | rfl | exact absurd hp (by decide), fun i => ⟨i.1, i.2, i.3, i.4, i.5, i.6⟩⟩

theorem Keeps.setFdb {m : Nat} {s t : State} {x} (h : Keeps m s t) (hm : Sub 0x1000 m) :
    Keeps m s { t with fdb := x } :=
  h.change hm ⟨fun p hp => by cases p <;> first | rfl | exact absurd hp (by decide), fun i => ⟨i.1, i.2, i.3, i.4, i.5, i.6⟩⟩

theorem Keeps.setPsfp {m : Nat} {s t : State} {x} (h : Keeps m s t) (hm : Sub 0x2000 m) :
    Keeps m s { t with psfp := x } :=
  h.change hm ⟨fun p hp => by cases p <;> first | rfl | exact absurd hp (by decide), fun i => ⟨i.1, i.2, i.3, i.4, i.5, i.6⟩⟩

theorem Keeps.setGates {m : Nat} {s t : State} {x} (h : Keeps m s t) (hm : Sub 0x4000 m) :
    Keeps m s { t with gates := x } :=
  h.change hm ⟨fun p hp => by cases p <;> first | rfl | exact absurd hp (by decide), fun i => ⟨i.1, i.2, i.3, i.4, i.5, i.6⟩⟩

theorem Keeps.setTine {m : Nat} {s t : State} {x} (h : Keeps m s t) (hm : Sub 0x8000 m) (hi : (∀ x ∈ t.tine, x.records.length ≤ 4096) → ∀ y ∈ x, y.records.length ≤ 4096) :
    Keeps m s { t with tine := x } :=
  h.change hm ⟨fun p hp => by cases p <;> first | rfl | exact absurd hp (by decide), fun i => ⟨i.1, i.2, i.3, i.4, hi i.5, i.6⟩⟩

theorem Keeps.setDma {m : Nat} {s t : State} {x} (h : Keeps m s t) (hm : Sub 0x10000 m) :
    Keeps m s { t with dma := x } :=
  h.change hm ⟨fun p hp => by cases p <;> first | rfl | exact absurd hp (by decide), fun i => ⟨i.1, i.2, i.3, i.4, i.5, i.6⟩⟩

theorem Keeps.setFeeds {m : Nat} {s t : State} {x} (h : Keeps m s t) (hm : Sub 0x20000 m) :
    Keeps m s { t with feeds := x } :=
  h.change hm ⟨fun p hp => by cases p <;> first | rfl | exact absurd hp (by decide), fun i => ⟨i.1, i.2, i.3, i.4, i.5, i.6⟩⟩

theorem Keeps.setPair {m : Nat} {s t : State} {x} (h : Keeps m s t) (hm : Sub 0x40000 m) :
    Keeps m s { t with pair := x } :=
  h.change hm ⟨fun p hp => by cases p <;> first | rfl | exact absurd hp (by decide), fun i => ⟨i.1, i.2, i.3, i.4, i.5, i.6⟩⟩

theorem Keeps.setLinkDelay {m : Nat} {s t : State} {x} (h : Keeps m s t) (hm : Sub 0x80000 m) :
    Keeps m s { t with linkDelay := x } :=
  h.change hm ⟨fun p hp => by cases p <;> first | rfl | exact absurd hp (by decide), fun i => ⟨i.1, i.2, i.3, i.4, i.5, i.6⟩⟩

theorem Keeps.setFrer {m : Nat} {s t : State} {x} (h : Keeps m s t) (hm : Sub 0x100000 m) :
    Keeps m s { t with frer := x } :=
  h.change hm ⟨fun p hp => by cases p <;> first | rfl | exact absurd hp (by decide), fun i => ⟨i.1, i.2, i.3, i.4, i.5, i.6⟩⟩

theorem Keeps.setTime {m : Nat} {s t : State} {x} (h : Keeps m s t) (hm : Sub 0x200000 m) :
    Keeps m s { t with time := x } :=
  h.change hm ⟨fun p hp => by cases p <;> first | rfl | exact absurd hp (by decide), fun i => ⟨i.1, i.2, i.3, i.4, i.5, i.6⟩⟩

theorem Keeps.setTrig {m : Nat} {s t : State} {x} (h : Keeps m s t) (hm : Sub 0x400000 m) :
    Keeps m s { t with trig := x } :=
  h.change hm ⟨fun p hp => by cases p <;> first | rfl | exact absurd hp (by decide), fun i => ⟨i.1, i.2, i.3, i.4, i.5, i.6⟩⟩

theorem Keeps.setHerd {m : Nat} {s t : State} {x} (h : Keeps m s t) (hm : Sub 0x800000 m) (hi : Memory.wf t.herd.txMem = true → Memory.wf x.txMem = true) :
    Keeps m s { t with herd := x } :=
  h.change hm ⟨fun p hp => by cases p <;> first | rfl | exact absurd hp (by decide), fun i => ⟨i.1, hi i.2, i.3, i.4, i.5, i.6⟩⟩

theorem Keeps.setIntc {m : Nat} {s t : State} {x} (h : Keeps m s t) (hm : Sub 0x1000000 m) :
    Keeps m s { t with intc := x } :=
  h.change hm ⟨fun p hp => by cases p <;> first | rfl | exact absurd hp (by decide), fun i => ⟨i.1, i.2, i.3, i.4, i.5, i.6⟩⟩

theorem Keeps.setFaults {m : Nat} {s t : State} {x} (h : Keeps m s t) (hm : Sub 0x2000000 m) (hi : (∀ e ∈ t.faults, e.2.hist.length ≤ 8) → ∀ e ∈ x, e.2.hist.length ≤ 8) :
    Keeps m s { t with faults := x } :=
  h.change hm ⟨fun p hp => by cases p <;> first | rfl | exact absurd hp (by decide), fun i => ⟨i.1, i.2, i.3, i.4, i.5, hi i.6⟩⟩

theorem Keeps.setHealth {m : Nat} {s t : State} {x} (h : Keeps m s t) (hm : Sub 0x4000000 m) :
    Keeps m s { t with health := x } :=
  h.change hm ⟨fun p hp => by cases p <;> first | rfl | exact absurd hp (by decide), fun i => ⟨i.1, i.2, i.3, i.4, i.5, i.6⟩⟩

theorem Keeps.setPcie {m : Nat} {s t : State} {x} (h : Keeps m s t) (hm : Sub 0x8000000 m) :
    Keeps m s { t with pcie := x } :=
  h.change hm ⟨fun p hp => by cases p <;> first | rfl | exact absurd hp (by decide), fun i => ⟨i.1, i.2, i.3, i.4, i.5, i.6⟩⟩

theorem Keeps.setMem {m : Nat} {s t : State} {x} (h : Keeps m s t) (hm : Sub 0x10000000 m) (hi : Memory.wf t.mem.cells = true → Memory.wf x.cells = true) :
    Keeps m s { t with mem := x } :=
  h.change hm ⟨fun p hp => by cases p <;> first | rfl | exact absurd hp (by decide), fun i => ⟨hi i.1, i.2, i.3, i.4, i.5, i.6⟩⟩

theorem Keeps.setPins {m : Nat} {s t : State} {x} (h : Keeps m s t) (hm : Sub 0x20000000 m) :
    Keeps m s { t with pins := x } :=
  h.change hm ⟨fun p hp => by cases p <;> first | rfl | exact absurd hp (by decide), fun i => ⟨i.1, i.2, i.3, i.4, i.5, i.6⟩⟩

theorem Keeps.setSafeRequest {m : Nat} {s t : State} {x} (h : Keeps m s t) (hm : Sub 0x40000000 m) :
    Keeps m s { t with chip := { t.chip with safePending := x } } :=
  h.change hm ⟨fun p hp => by cases p <;> first | rfl | exact absurd hp (by decide), fun i => ⟨i.1, i.2, i.3, i.4, i.5, i.6⟩⟩

theorem Keeps.setChipOnly {m : Nat} {s t : State} {x : Chip} (h : Keeps m s t) (hm : Sub 0x20 m)
    (hx : x.safePending = t.chip.safePending) : Keeps m s { t with chip := x } :=
  h.change hm ⟨fun p hp => by cases p <;> first | rfl | exact hx | exact absurd hp (by decide), fun i => ⟨i.1, i.2, i.3, i.4, i.5, i.6⟩⟩

end Sys2Proof.Machine
end

