-- ==== Sys2Proof/Laws/Memory.lean ====
section
/-!
SUPPORT. Byte memory: every write keeps the canonical form; a byte written is read back and every other byte stays.
-/
namespace Sys2Proof.Machine

/-- A lower bound on the keys may be dropped. -/
theorem AMap.wfFrom_weaken {α : Type} {m : AMap α} {lo : Option Nat} (h : AMap.wfFrom lo m = true) :
    AMap.wfFrom none m = true := by
  cases m with
  | nil => rfl
  | cons x r =>
    simp only [AMap.wfFrom, Bool.and_eq_true] at h ⊢
    exact ⟨trivial, h.2⟩

theorem AMap.wfFrom_lower {α : Type} {m : AMap α} {a b : Nat} (hab : a ≤ b) (h : AMap.wfFrom (some b) m = true) :
    AMap.wfFrom (some a) m = true := by
  cases m with
  | nil => rfl
  | cons x r =>
    simp only [AMap.wfFrom, Bool.and_eq_true, decide_eq_true_eq] at h ⊢
    exact ⟨by omega, h.2⟩

theorem AMap.set_wfFrom {α : Type} (m : AMap α) (lo : Option Nat) (k : Nat) (a : α) (h : AMap.wfFrom lo m = true)
    (hk : ∀ l, lo = some l → l < k) : AMap.wfFrom lo (AMap.set m k a) = true := by
  induction m generalizing lo with
  | nil => cases lo <;> simp [AMap.set, AMap.wfFrom]; exact hk _ rfl
  | cons x r ih =>
    obtain ⟨j, b⟩ := x
    have hr : AMap.wfFrom (some j) r = true := by
      simp only [AMap.wfFrom, Bool.and_eq_true] at h; exact h.2
    unfold AMap.set
    split
    · cases lo <;> simp_all [AMap.wfFrom]
    · split
      · subst k; cases lo <;> simp_all [AMap.wfFrom]
      · have := ih (some j) hr (by intro l hl; cases hl; omega)
        cases lo <;> simp_all [AMap.wfFrom]

theorem AMap.del_wfFrom {α : Type} (m : AMap α) (lo : Option Nat) (k : Nat) (h : AMap.wfFrom lo m = true) :
    AMap.wfFrom lo (AMap.del m k) = true := by
  induction m generalizing lo with
  | nil => exact h
  | cons x r ih =>
    obtain ⟨j, b⟩ := x
    have hr : AMap.wfFrom (some j) r = true := by
      simp only [AMap.wfFrom, Bool.and_eq_true] at h; exact h.2
    unfold AMap.del
    split
    · refine ih lo ?_
      cases lo with
      | none => exact AMap.wfFrom_weaken hr
      | some l =>
        simp only [AMap.wfFrom, Bool.and_eq_true, decide_eq_true_eq] at h
        exact AMap.wfFrom_lower (by omega) hr
    · have := ih (some j) hr
      cases lo <;> simp_all [AMap.wfFrom]

theorem AMap.set_entries {α : Type} (m : AMap α) (k : Nat) (a : α) {e : Nat × α} (h : e ∈ AMap.set m k a) :
    e = (k, a) ∨ e ∈ m := by
  induction m with
  | nil => simp [AMap.set] at h; exact .inl h
  | cons x r ih =>
    obtain ⟨j, b⟩ := x
    unfold AMap.set at h
    split at h
    · rcases List.mem_cons.1 h with h | h
      · exact .inl h
      · exact .inr h
    · split at h
      · rcases List.mem_cons.1 h with h | h
        · exact .inl h
        · exact .inr (List.mem_cons_of_mem _ h)
      · rcases List.mem_cons.1 h with h | h
        · exact .inr (h ▸ List.mem_cons_self ..)
        · exact (ih h).imp id (List.mem_cons_of_mem _)

theorem AMap.del_entries {α : Type} (m : AMap α) (k : Nat) {e : Nat × α} (h : e ∈ AMap.del m k) : e ∈ m := by
  induction m with
  | nil => simp [AMap.del] at h
  | cons x r ih =>
    obtain ⟨j, b⟩ := x
    unfold AMap.del at h
    split at h
    · exact List.mem_cons_of_mem _ (ih h)
    · rcases List.mem_cons.1 h with h | h
      · exact h ▸ List.mem_cons_self ..
      · exact List.mem_cons_of_mem _ (ih h)

/-- One byte written keeps the canonical form. -/
theorem memPut_wf {m : List Host.Cell} (a : Nat) (b : Byte) (h : Memory.wf m = true) : Memory.wf (memPut m a b) = true := by
  unfold Memory.wf at h ⊢
  rw [Bool.and_eq_true, List.all_eq_true] at h ⊢
  unfold memPut AMap.put
  split
  · exact ⟨AMap.del_wfFrom m none a h.1, fun c hc => h.2 c (AMap.del_entries m a hc)⟩
  · rename_i hb
    refine ⟨AMap.set_wfFrom m none a b h.1 (by intro l hl; cases hl), fun c hc => ?_⟩
    rcases AMap.set_entries m a b hc with rfl | hc
    · simpa using hb
    · exact h.2 c hc

/-- Bytes written keep the canonical form. -/
theorem memWrite_wf {m : List Host.Cell} (a : Nat) (d : Bytes) (h : Memory.wf m = true) :
    Memory.wf (memWrite m a d) = true := by
  induction d generalizing m a with
  | nil => exact h
  | cons b r ih => exact ih (a + 1) (memPut_wf a b h)

end Sys2Proof.Machine
end

