-- ==== Sys2Proof/Laws/Ops.lean ====
section
/-!
SUPPORT. What each operation of Machine/Ops.lean may change: the parts of the state in the set `hm`, no others, the invariant
kept. Cite these lemmas; do not unfold the operations.
-/
namespace Sys2Proof.Machine

theorem State.rwPut_keeps {m : Nat} {s t : State} {a1 : Nat} {a2 : Nat} {a3 : Val} (h : Keeps m s t)
    (hm : Sub 0x80 m) : Keeps m s (State.rwPut t a1 a2 a3) := by
  unfold State.rwPut
  try dsimp only
  repeat' first
    | with_reducible exact h
    | exact Sub.trans (Sub.of (by decide)) hm
    | with_reducible apply Keeps.setCfg

theorem State.bumpBy_keeps {m : Nat} {s t : State} {a1 : Nat} {a2 : Nat} {a3 : Nat} {a4 : Nat} (h : Keeps m s t)
    (hm : Sub 0x200 m) : Keeps m s (State.bumpBy t a1 a2 a3 a4) := by
  unfold State.bumpBy
  try dsimp only
  repeat' first
    | with_reducible exact h
    | exact Sub.trans (Sub.of (by decide)) hm
    | with_reducible apply Keeps.setCnt

theorem State.bump_keeps {m : Nat} {s t : State} {a1 : Nat} {a2 : Nat} (h : Keeps m s t)
    (hm : Sub 0x200 m) : Keeps m s (State.bump t a1 a2) := by
  unfold State.bump
  try dsimp only
  repeat' first
    | with_reducible exact h
    | exact Sub.trans (Sub.of (by decide)) hm
    | with_reducible apply State.bumpBy_keeps

theorem State.bumpK_keeps {m : Nat} {s t : State} {a1 : Nat} {a2 : Nat} {a3 : Nat} (h : Keeps m s t)
    (hm : Sub 0x200 m) : Keeps m s (State.bumpK t a1 a2 a3) := by
  unfold State.bumpK
  try dsimp only
  repeat' first
    | with_reducible exact h
    | exact Sub.trans (Sub.of (by decide)) hm
    | with_reducible apply State.bumpBy_keeps

theorem State.bumpPort_keeps {m : Nat} {s t : State} {a1 : Nat} {a2 : Nat} (h : Keeps m s t)
    (hm : Sub 0x200 m) : Keeps m s (State.bumpPort t a1 a2) := by
  unfold State.bumpPort
  try dsimp only
  repeat' first
    | with_reducible exact h
    | exact Sub.trans (Sub.of (by decide)) hm
    | with_reducible apply Keeps.ite
    | with_reducible apply State.bump_keeps

theorem State.bumpPortBy_keeps {m : Nat} {s t : State} {a1 : Nat} {a2 : Nat} {a3 : Nat} (h : Keeps m s t)
    (hm : Sub 0x200 m) : Keeps m s (State.bumpPortBy t a1 a2 a3) := by
  unfold State.bumpPortBy
  try dsimp only
  repeat' first
    | with_reducible exact h
    | exact Sub.trans (Sub.of (by decide)) hm
    | with_reducible apply Keeps.ite
    | with_reducible apply State.bumpBy_keeps

theorem State.zeroCounter_keeps {m : Nat} {s t : State} {a1 : Nat} {a2 : Nat} {a3 : Nat} (h : Keeps m s t)
    (hm : Sub 0x200 m) : Keeps m s (State.zeroCounter t a1 a2 a3) := by
  unfold State.zeroCounter
  try dsimp only
  repeat' first
    | with_reducible exact h
    | exact Sub.trans (Sub.of (by decide)) hm
    | with_reducible apply Keeps.setCnt

theorem State.hit_keeps {m : Nat} {s t : State} {a1 : Sticky} {a2 : Nat} (h : Keeps m s t)
    (hm : Sub 0x80000000 m) : Keeps m s (State.hit t a1 a2) := by
  unfold State.hit
  try dsimp only
  repeat' first
    | with_reducible exact h
    | exact Sub.trans (Sub.of (by decide)) hm
    | with_reducible apply Keeps.ite
    | with_reducible apply Keeps.setHits

theorem State.rehit_keeps {m : Nat} {s t : State} {a1 : Sticky} (h : Keeps m s t)
    (hm : Sub 0x80000000 m) : Keeps m s (State.rehit t a1) := by
  unfold State.rehit
  try dsimp only
  repeat' first
    | with_reducible exact h
    | exact Sub.trans (Sub.of (by decide)) hm
    | with_reducible apply Keeps.ite
    | with_reducible apply Keeps.setHits

theorem State.emit_keeps {m : Nat} {s t : State} {a1 : OutEvent} (h : Keeps m s t)
    (hm : Sub 0x8 m) : Keeps m s (State.emit t a1) := by
  unfold State.emit
  try dsimp only
  repeat' first
    | with_reducible exact h
    | exact Sub.trans (Sub.of (by decide)) hm
    | with_reducible apply Keeps.setOut

theorem State.draw_keeps {m : Nat} {s t : State} (h : Keeps m s t)
    (hm : Sub 0x4 m) : Keeps m s (State.draw t).2 := by
  unfold State.draw
  try dsimp only
  repeat' first
    | with_reducible exact h
    | exact Sub.trans (Sub.of (by decide)) hm
    | dsimp only
    | with_reducible apply Keeps.setFree

theorem State.updPort_keeps {m : Nat} {s t : State} {a1 : Nat} {a2 : Port → Port} (h : Keeps m s t)
    (hm : Sub 0x800 m) : Keeps m s (State.updPort t a1 a2) := by
  unfold State.updPort
  try dsimp only
  repeat' first
    | with_reducible exact h
    | exact Sub.trans (Sub.of (by decide)) hm
    | with_reducible apply Keeps.setPorts

theorem State.updPf_keeps {m : Nat} {s t : State} {a1 : Nat} {a2 : Pf → Pf} (h : Keeps m s t)
    (hm : Sub 0x8000000 m) : Keeps m s (State.updPf t a1 a2) := by
  unfold State.updPf
  try dsimp only
  repeat' first
    | with_reducible exact h
    | exact Sub.trans (Sub.of (by decide)) hm
    | with_reducible apply Keeps.setPcie

theorem State.updDom_keeps {m : Nat} {s t : State} {a1 : Nat} {a2 : Domain → Domain} (h : Keeps m s t)
    (hm : Sub 0x200000 m) : Keeps m s (State.updDom t a1 a2) := by
  unfold State.updDom
  try dsimp only
  repeat' first
    | with_reducible exact h
    | exact Sub.trans (Sub.of (by decide)) hm
    | with_reducible apply Keeps.setTime

theorem oweRequest_keeps {m : Nat} {s t : State} {a0 : Nat} {a1 : Req} (h : Keeps m s t)
    (hm : Sub 0x10000 m) : Keeps m s (oweRequest a0 a1 t) := by
  unfold oweRequest
  try dsimp only
  repeat' first
    | with_reducible exact h
    | exact Sub.trans (Sub.of (by decide)) hm
    | with_reducible apply Keeps.setDma

theorem aheadOf_behindOf (s : State) (p : Path) :
    (aheadOf s p).length + (behindOf s p).length = s.nap.queue.length := by
  rw [← List.length_append, aheadOf, behindOf, List.takeWhile_append_dropWhile]

theorem napEnqueue_keeps {m : Nat} {s t : State} {a0 : NapReq} (h : Keeps m s t)
    (hm : Sub 0x300 m) : Keeps m s (napEnqueue a0 t) := by
  unfold napEnqueue
  split
  · rename_i c
    exact h.setNap (Sub.trans (Sub.of (by decide)) hm)
      (fun _ => by have := aheadOf_behindOf t a0.path; simp; omega) id
  · exact State.bump_keeps h (Sub.trans (Sub.of (by decide)) hm)

theorem ringWrite_keeps {m : Nat} {s t : State} {a0 : Nat} {a1 : Nat} (h : Keeps m s t)
    (hm : Sub 0x40 m) : Keeps m s (ringWrite a0 a1 t) := by
  unfold ringWrite
  try dsimp only
  repeat' first
    | with_reducible exact h
    | exact Sub.trans (Sub.of (by decide)) hm
    | with_reducible apply Keeps.setMram

theorem ringClear_keeps {m : Nat} {s t : State} {a0 : Nat} (h : Keeps m s t)
    (hm : Sub 0x40 m) : Keeps m s (ringClear a0 t) := by
  unfold ringClear
  try dsimp only
  repeat' first
    | with_reducible exact h
    | exact Sub.trans (Sub.of (by decide)) hm
    | with_reducible apply Keeps.setMram

theorem rereadMram_keeps {m : Nat} {s t : State} {a0 : List Nat} (h : Keeps m s t)
    (hm : Sub 0x40 m) : Keeps m s (rereadMram a0 t) := by
  unfold rereadMram
  try dsimp only
  repeat' first
    | with_reducible exact h
    | exact Sub.trans (Sub.of (by decide)) hm
    | with_reducible apply Keeps.ite
    | dsimp only
    | with_reducible apply Keeps.setMram

end Sys2Proof.Machine
end

