-- ==== Sys2Proof/Laws/Flags.lean ====
section
/-!
SUPPORT. What each operation of Machine/Flags.lean may change: the parts of the state in the set `hm`, no others, the invariant
kept. Cite these lemmas; do not unfold the operations.
-/
namespace Sys2Proof.Machine

theorem sendMsix_keeps {m : Nat} {s t : State} {a0 : Nat} {a1 : Nat} (h : Keeps m s t)
    (hm : Sub 0x8000008 m) : Keeps m s (sendMsix a0 a1 t) := by
  unfold sendMsix
  try dsimp only
  repeat' first
    | with_reducible exact h
    | exact Sub.trans (Sub.of (by decide)) hm
    | with_reducible apply Keeps.ite
    | with_reducible apply State.emit_keeps
    | with_reducible apply State.updPf_keeps

theorem State.updSource_keeps {m : Nat} {s t : State} {a1 : Nat} {a2 : IntSource → IntSource} (h : Keeps m s t)
    (hm : Sub 0x1000000 m) : Keeps m s (State.updSource t a1 a2) := by
  unfold State.updSource
  try dsimp only
  repeat' first
    | with_reducible exact h
    | exact Sub.trans (Sub.of (by decide)) hm
    | with_reducible apply Keeps.setIntc

theorem State.updGroup_keeps {m : Nat} {s t : State} {a1 : Nat} {a2 : IntGroup → IntGroup} (h : Keeps m s t)
    (hm : Sub 0x1000000 m) : Keeps m s (State.updGroup t a1 a2) := by
  unfold State.updGroup
  try dsimp only
  repeat' first
    | with_reducible exact h
    | exact Sub.trans (Sub.of (by decide)) hm
    | with_reducible apply Keeps.setIntc

theorem State.updTarget_keeps {m : Nat} {s t : State} {a1 : Nat} {a2 : IntTarget → IntTarget} (h : Keeps m s t)
    (hm : Sub 0x1000000 m) : Keeps m s (State.updTarget t a1 a2) := by
  unfold State.updTarget
  try dsimp only
  repeat' first
    | with_reducible exact h
    | exact Sub.trans (Sub.of (by decide)) hm
    | with_reducible apply Keeps.setIntc

theorem scanTarget_keeps {m : Nat} {s t : State} {a0 : Nat → Bool} {a2 : Nat} (h : Keeps m s t)
    (hm : Sub 0x9000008 m) : Keeps m s (scanTarget a0 t a2) := by
  unfold scanTarget
  try dsimp only
  repeat' first
    | with_reducible exact h
    | exact Sub.trans (Sub.of (by decide)) hm
    | with_reducible apply Keeps.ite
    | with_reducible apply State.updTarget_keeps
    | with_reducible apply sendMsix_keeps
    | dsimp only

theorem clearActed_keeps {m : Nat} {s t : State} (h : Keeps m s t)
    (hm : Sub 0x1000000 m) : Keeps m s (clearActed t) := by
  unfold clearActed
  try dsimp only
  repeat' first
    | with_reducible exact h
    | exact Sub.trans (Sub.of (by decide)) hm
    | with_reducible apply Keeps.ite
    | with_reducible apply Keeps.setIntc

theorem scanTargets_keeps {m : Nat} {s t : State} (h : Keeps m s t)
    (hm : Sub 0x9000008 m) : Keeps m s (scanTargets t) := by
  unfold scanTargets
  try dsimp only
  repeat' first
    | with_reducible exact h
    | with_reducible assumption
    | exact Sub.trans (Sub.of (by decide)) hm
    | (intro (_ : State) hu; first | with_reducible exact hu | skip)
    | exact id
    | exact fun _ h => h
    | with_reducible apply Keeps.ite
    | with_reducible apply clearActed_keeps
    | with_reducible apply scanTarget_keeps
    | (with_reducible refine Keeps.foldl _ (fun _ _ _ => ?_) ?_)
    | dsimp only
    | split
    | (with_reducible refine Keeps.ofPair (by assumption) ?_)
    | (with_reducible refine Keeps.ofTriple (by assumption) ?_)

theorem noteActed_keeps {m : Nat} {s t : State} {a0 : List Nat} (h : Keeps m s t)
    (hm : Sub 0x1000000 m) : Keeps m s (noteActed a0 t) := by
  unfold noteActed
  try dsimp only
  repeat' first
    | with_reducible exact h
    | exact Sub.trans (Sub.of (by decide)) hm
    | with_reducible apply Keeps.ite
    | with_reducible apply Keeps.setIntc

theorem startHoldoff_keeps {m : Nat} {s t : State} {a0 : Nat} {a1 : Nat} (h : Keeps m s t)
    (hm : Sub 0x1000000 m) : Keeps m s (startHoldoff a0 a1 t) := by
  unfold startHoldoff
  try dsimp only
  repeat' first
    | with_reducible exact h
    | exact Sub.trans (Sub.of (by decide)) hm
    | with_reducible apply Keeps.ite
    | with_reducible apply State.updGroup_keeps

theorem raiseSource_keeps {m : Nat} {s t : State} {a0 : Nat} (h : Keeps m s t)
    (hm : Sub 0x81000000 m) : Keeps m s (raiseSource a0 t) := by
  unfold raiseSource
  try dsimp only
  repeat' first
    | with_reducible exact h
    | exact Sub.trans (Sub.of (by decide)) hm
    | with_reducible apply Keeps.ite
    | with_reducible apply State.hit_keeps
    | with_reducible apply State.updSource_keeps
    | with_reducible apply startHoldoff_keeps
    | dsimp only

theorem regimeChange_keeps {m : Nat} {s t : State} {a0 : Mode} {a1 : Mode} (h : Keeps m s t)
    (hm : Sub 0x1000000 m) : Keeps m s (regimeChange a0 a1 t) := by
  unfold regimeChange
  try dsimp only
  repeat' first
    | with_reducible exact h
    | exact Sub.trans (Sub.of (by decide)) hm
    | with_reducible apply Keeps.setIntc

theorem pulse_keeps {m : Nat} {s t : State} {a0 : Nat} (h : Keeps m s t)
    (hm : Sub 0x1000200 m) : Keeps m s (pulse a0 t) := by
  unfold pulse
  try dsimp only
  repeat' first
    | with_reducible exact h
    | exact Sub.trans (Sub.of (by decide)) hm
    | with_reducible apply Keeps.ite
    | with_reducible apply State.bumpK_keeps
    | with_reducible apply Keeps.setIntc

theorem State.updFault_keeps {m : Nat} {s t : State} {a1 : Nat} {a2 : Nat} {a3 : FaultInst → FaultInst} (h : Keeps m s t)
    (hm : Sub 0x2000000 m) (hf : ∀ x : FaultInst, x.hist.length ≤ 8 → (a3 x).hist.length ≤ 8) :
    Keeps m s (t.updFault a1 a2 a3) := by
  unfold State.updFault
  exact h.setFaults hm (AMap.upd_all (by simp) (fun x => hf x))

theorem requestSafe_keeps {m : Nat} {s t : State} {a0 : Nat} {a1 : Nat} (h : Keeps m s t)
    (hm : Sub 0x40000000 m) : Keeps m s (requestSafe a0 a1 t) := by
  unfold requestSafe
  try dsimp only
  repeat' first
    | with_reducible exact h
    | exact Sub.trans (Sub.of (by decide)) hm
    | with_reducible apply Keeps.ite
    | with_reducible apply Keeps.setSafeRequest
    | with_reducible apply Keeps.setChip

theorem pushHistory_hist (now e : Nat) (x : FaultInst) : (pushHistory now e x).hist.length ≤ 8 := by
  unfold pushHistory
  dsimp only
  rw [List.length_take]
  exact Nat.min_le_left ..

theorem recordFault_keeps {m : Nat} {s t : State} {a0 : Nat} {a1 : Nat} {a2 : Nat} {a3 : Nat} (h : Keeps m s t)
    (hm : Sub 0x83000000 m) : Keeps m s (recordFault a0 a1 a2 a3 t) := by
  unfold recordFault
  try dsimp only
  repeat' first
    | with_reducible exact h
    | exact Sub.trans (Sub.of (by decide)) hm
    | exact id
    | exact fun _ h => h
    | exact fun _ _ => pushHistory_hist ..
    | with_reducible apply Keeps.ite
    | with_reducible apply State.hit_keeps
    | with_reducible apply State.updFault_keeps
    | with_reducible apply raiseSource_keeps
    | dsimp only

theorem clearFaultBit_keeps {m : Nat} {s t : State} {a0 : Nat} {a1 : Nat} {a2 : Nat} (h : Keeps m s t)
    (hm : Sub 0x83000000 m) : Keeps m s (clearFaultBit a0 a1 a2 t) := by
  unfold clearFaultBit
  try dsimp only
  repeat' first
    | with_reducible exact h
    | exact Sub.trans (Sub.of (by decide)) hm
    | exact id
    | exact fun _ h => h
    | with_reducible apply State.rehit_keeps
    | with_reducible apply State.updFault_keeps
    | with_reducible apply recordFault_keeps
    | split

theorem detectFault_keeps {m : Nat} {s t : State} {a0 : Nat} {a1 : Nat} {a2 : Nat} {a3 : Nat} (h : Keeps m s t)
    (hm : Sub 0xc3000000 m) : Keeps m s (detectFault a0 a1 a2 a3 t) := by
  unfold detectFault
  try dsimp only
  repeat' first
    | with_reducible exact h
    | exact Sub.trans (Sub.of (by decide)) hm
    | with_reducible apply Keeps.ite
    | with_reducible apply State.hit_keeps
    | with_reducible apply recordFault_keeps
    | with_reducible apply requestSafe_keeps
    | dsimp only

theorem detectMachinery_keeps {m : Nat} {s t : State} {a0 : Nat} {a1 : Nat} (h : Keeps m s t)
    (hm : Sub 0x40000000 m) : Keeps m s (detectMachinery a0 a1 t) := by
  unfold detectMachinery
  try dsimp only
  repeat' first
    | with_reducible exact h
    | exact Sub.trans (Sub.of (by decide)) hm
    | with_reducible apply Keeps.ite
    | with_reducible apply requestSafe_keeps

theorem healthFault_keeps {m : Nat} {s t : State} {a0 : Nat} {a1 : Nat} (h : Keeps m s t)
    (hm : Sub 0xc3000200 m) : Keeps m s (healthFault a0 a1 t) := by
  unfold healthFault
  try dsimp only
  repeat' first
    | with_reducible exact h
    | exact Sub.trans (Sub.of (by decide)) hm
    | with_reducible apply Keeps.ite
    | with_reducible apply detectFault_keeps
    | with_reducible apply pulse_keeps
    | dsimp only

theorem denyWrite_keeps {m : Nat} {s t : State} {a0 : Nat} (h : Keeps m s t)
    (hm : Sub 0x88000000 m) : Keeps m s (denyWrite a0 t) := by
  unfold denyWrite
  try dsimp only
  repeat' first
    | with_reducible exact h
    | exact Sub.trans (Sub.of (by decide)) hm
    | with_reducible apply State.hit_keeps
    | with_reducible apply State.updPf_keeps

theorem noteTimeout_keeps {m : Nat} {s t : State} {a0 : Nat} (h : Keeps m s t)
    (hm : Sub 0x88000000 m) : Keeps m s (noteTimeout a0 t) := by
  unfold noteTimeout
  try dsimp only
  repeat' first
    | with_reducible exact h
    | exact Sub.trans (Sub.of (by decide)) hm
    | with_reducible apply State.hit_keeps
    | with_reducible apply State.updPf_keeps

theorem notePoisoned_keeps {m : Nat} {s t : State} {a0 : Nat} (h : Keeps m s t)
    (hm : Sub 0x88000000 m) : Keeps m s (notePoisoned a0 t) := by
  unfold notePoisoned
  try dsimp only
  repeat' first
    | with_reducible exact h
    | exact Sub.trans (Sub.of (by decide)) hm
    | with_reducible apply State.hit_keeps
    | with_reducible apply State.updPf_keeps

theorem noteAer.drawHeader_keeps {m : Nat} {s t : State} (h : Keeps m s t)
    (hm : Sub 0x4 m) : Keeps m s (noteAer.drawHeader t).2 := by
  unfold noteAer.drawHeader
  try dsimp only
  repeat' first
    | with_reducible exact h
    | exact Sub.trans (Sub.of (by decide)) hm
    | with_reducible apply Keeps.ite
    | with_reducible apply Keeps.iteSnd
    | with_reducible apply State.draw_keeps
    | dsimp only
    | split
    | (with_reducible refine Keeps.ofPair (by assumption) ?_)

theorem noteAer_keeps {m : Nat} {s t : State} {a0 : Nat} {a1 : Nat} {a2 : Bool} (h : Keeps m s t)
    (hm : Sub 0x800000c m) : Keeps m s (noteAer a0 a1 a2 t) := by
  unfold noteAer
  try dsimp only
  repeat' first
    | with_reducible exact h
    | exact Sub.trans (Sub.of (by decide)) hm
    | with_reducible apply Keeps.ite
    | with_reducible apply State.emit_keeps
    | with_reducible apply State.updPf_keeps
    | with_reducible apply noteAer.drawHeader_keeps
    | dsimp only
    | split
    | (with_reducible refine Keeps.ofPair (by assumption) ?_)

theorem unsupported_keeps {m : Nat} {s t : State} {a0 : Nat} {a1 : Bool} (h : Keeps m s t)
    (hm : Sub 0x800000c m) : Keeps m s (unsupported a0 a1 t) := by
  unfold unsupported
  try dsimp only
  repeat' first
    | with_reducible exact h
    | exact Sub.trans (Sub.of (by decide)) hm
    | with_reducible apply State.emit_keeps
    | with_reducible apply noteAer_keeps

theorem refuseBar_keeps {m : Nat} {s t : State} {a0 : Nat} {a1 : Bool} (h : Keeps m s t)
    (hm : Sub 0x800000c m) : Keeps m s (refuseBar a0 a1 t) := by
  unfold refuseBar
  try dsimp only
  repeat' first
    | with_reducible exact h
    | exact Sub.trans (Sub.of (by decide)) hm
    | with_reducible apply Keeps.ite
    | with_reducible apply unsupported_keeps

end Sys2Proof.Machine
end

