-- ==== Sys2Proof/Laws/Tine.lean ====
section
/-!
SUPPORT. What each operation of Machine/Tine.lean may change: the parts of the state in the set `hm`, no others, the invariant
kept. Cite these lemmas; do not unfold the operations.
-/
namespace Sys2Proof.Machine

theorem State.updFifo_keeps {m : Nat} {s t : State} {a1 : Nat} {a2 : Fifo → Fifo} (h : Keeps m s t)
    (hm : Sub 0x8000 m) (hf : (t.fifo a1).records.length ≤ 4096 → (a2 (t.fifo a1)).records.length ≤ 4096) :
    Keeps m s (t.updFifo a1 a2) := by
  unfold State.updFifo
  refine h.setTine hm fun hall => updAt_all t.tine a1 a2 hall fun x hx => ?_
  have e : t.fifo a1 = x := by unfold State.fifo; rw [List.getD_eq_getElem?_getD, hx]; rfl
  rw [e] at hf
  exact hf (hall x (List.mem_of_getElem? hx))

theorem placeRecord_records (cycle : Nat) (key : Nat × Nat) (mk : Nat → Bytes) (y : Fifo) :
    (placeRecord cycle key mk y).records.length = y.records.length + 1 := by
  simp [placeRecord]; omega

theorem dropLastRecord_records (y : Fifo) : (dropLastRecord y).records.length = y.records.length - 1 := by
  simp [dropLastRecord]

theorem displaces_records {cycle : Nat} {key : Nat × Nat} {y : Fifo} (h : displaces cycle key y = true) :
    0 < y.records.length := by
  rcases Nat.eq_zero_or_pos y.records.length with e | e
  · have : freshKeys cycle y = [] := by
      unfold freshKeys; rw [e]
      split
      · exact List.drop_eq_nil_of_le (Nat.le_refl _)
      · rfl
    simp [displaces, this] at h
  · exact e

theorem enterRecord_keeps {m : Nat} {s t : State} {a0 : Nat} {a1 : Nat × Nat} {a2 : Nat → Bytes} (h : Keeps m s t)
    (hm : Sub 0x81018200 m) (hc : (t.fifo a0).records.length < 4096) : Keeps m s (enterRecord a0 a1 a2 t) := by
  unfold enterRecord
  try dsimp only
  repeat' first
    | with_reducible exact h
    | exact Sub.trans (Sub.of (by decide)) hm
    | (intro _; rw [placeRecord_records]; exact hc)
    | with_reducible apply Keeps.ite
    | with_reducible apply State.bump_keeps
    | with_reducible apply State.updFifo_keeps
    | with_reducible apply oweRequest_keeps
    | with_reducible apply State.hit_keeps
    | with_reducible apply pulse_keeps

theorem loseRecord_keeps {m : Nat} {s t : State} {a0 : Nat} {a1 : Nat} (h : Keeps m s t)
    (hm : Sub 0xc3008200 m) : Keeps m s (loseRecord a0 a1 t) := by
  unfold loseRecord
  try dsimp only
  repeat' first
    | with_reducible exact h
    | exact Sub.trans (Sub.of (by decide)) hm
    | exact id
    | exact fun _ h => h
    | with_reducible apply State.bump_keeps
    | with_reducible apply State.hit_keeps
    | with_reducible apply State.updFifo_keeps
    | with_reducible apply detectFault_keeps
    | with_reducible apply pulse_keeps
    | dsimp only

theorem writeRecord_keeps {m : Nat} {s t : State} {a0 : Nat} {a1 : Nat} {a2 : Nat} {a3 : Nat} {a4 : Nat → Bytes} (h : Keeps m s t)
    (hm : Sub 0xc3018200 m) : Keeps m s (writeRecord a0 a1 a2 a3 a4 t) := by
  unfold writeRecord
  dsimp only
  split
  · split
    · rename_i hd
      have := displaces_records hd
      refine loseRecord_keeps (State.updFifo_keeps h (Sub.trans (Sub.of (by decide)) hm) fun _ => ?_)
        (Sub.trans (Sub.of (by decide)) hm)
      rw [placeRecord_records, dropLastRecord_records]; omega
    · exact loseRecord_keeps h (Sub.trans (Sub.of (by decide)) hm)
  · exact enterRecord_keeps h (Sub.trans (Sub.of (by decide)) hm) (by omega)

theorem writeOverflow_keeps {m : Nat} {s t : State} {a0 : Nat} (h : Keeps m s t)
    (hm : Sub 0x81018200 m) : Keeps m s (writeOverflow a0 t) := by
  unfold writeOverflow
  dsimp only
  split
  · exact State.updFifo_keeps (enterRecord_keeps h hm (by omega)) (Sub.trans (Sub.of (by decide)) hm) id
  · exact h

theorem dropRecords_keeps {m : Nat} {s t : State} {a0 : Nat} {a1 : Nat} (h : Keeps m s t)
    (hm : Sub 0x81018200 m) : Keeps m s (dropRecords a0 a1 t) := by
  unfold dropRecords
  try dsimp only
  repeat' first
    | with_reducible exact h
    | exact Sub.trans (Sub.of (by decide)) hm
    | exact id
    | exact fun _ h => h
    | (intro _; simp; omega)
    | with_reducible apply Keeps.ite
    | with_reducible apply State.updFifo_keeps
    | with_reducible apply oweRequest_keeps
    | with_reducible apply writeOverflow_keeps
    | dsimp only

theorem effTineRecordRead_keeps {m : Nat} {s t : State} {a0 : Nat} {a1 : Nat} (h : Keeps m s t)
    (hm : Sub 0x8901820c m) : Keeps m s (effTineRecordRead a0 a1 t) := by
  unfold effTineRecordRead
  try dsimp only
  repeat' first
    | with_reducible exact h
    | exact Sub.trans (Sub.of (by decide)) hm
    | with_reducible apply Keeps.ite
    | with_reducible apply State.emit_keeps
    | with_reducible apply dropRecords_keeps
    | with_reducible apply refuseBar_keeps
    | dsimp only
    | split

theorem effTineLostRead_keeps {m : Nat} {s t : State} {a0 : Nat} {a1 : Nat} (h : Keeps m s t)
    (hm : Sub 0x8800800c m) : Keeps m s (effTineLostRead a0 a1 t) := by
  unfold effTineLostRead
  try dsimp only
  repeat' first
    | with_reducible exact h
    | exact Sub.trans (Sub.of (by decide)) hm
    | exact id
    | exact fun _ h => h
    | with_reducible apply Keeps.ite
    | with_reducible apply State.emit_keeps
    | with_reducible apply State.rehit_keeps
    | with_reducible apply State.updFifo_keeps
    | with_reducible apply refuseBar_keeps
    | dsimp only

theorem effTineDrainTimer_keeps {m : Nat} {s t : State} {a0 : Nat} (h : Keeps m s t)
    (hm : Sub 0x18000 m) : Keeps m s (effTineDrainTimer a0 t) := by
  unfold effTineDrainTimer
  try dsimp only
  repeat' first
    | with_reducible exact h
    | exact Sub.trans (Sub.of (by decide)) hm
    | exact id
    | exact fun _ h => h
    | with_reducible apply Keeps.ite
    | with_reducible apply State.updFifo_keeps
    | with_reducible apply oweRequest_keeps
    | dsimp only
    | split

theorem effFlush_keeps {m : Nat} {s t : State} {a0 : Nat} {a1 : Nat} (h : Keeps m s t)
    (hm : Sub 0x8901820c m) : Keeps m s (effFlush a0 a1 t) := by
  unfold effFlush
  try dsimp only
  repeat' first
    | with_reducible exact h
    | exact Sub.trans (Sub.of (by decide)) hm
    | exact id
    | exact fun _ h => h
    | (intro _; simp)
    | with_reducible apply Keeps.ite
    | with_reducible apply State.updFifo_keeps
    | with_reducible apply refuseBar_keeps
    | with_reducible apply writeOverflow_keeps

end Sys2Proof.Machine
end

