-- ==== Sys2Proof/Laws/DevMem.lean ====
section
/-!
SUPPORT. What each operation of Machine/DevMem.lean may change: the parts of the state in the set `hm`, no others, the invariant
kept. Cite these lemmas; do not unfold the operations.
-/
namespace Sys2Proof.Machine

theorem herdTxWrite_keeps {m : Nat} {s t : State} {a1 : Nat} {a2 : Bytes} (h : Keeps m s t)
    (hm : Sub 0x800000 m) : Keeps m s (herdTxWrite t a1 a2) := by
  unfold herdTxWrite
  try dsimp only
  repeat' first
    | with_reducible exact h
    | exact Sub.trans (Sub.of (by decide)) hm
    | exact id
    | exact fun _ h => h
    | exact memWrite_wf _ _
    | with_reducible apply Keeps.setHerd

theorem devWrite_keeps {m : Nat} {s t : State} {a0 : Nat} {a1 : Bytes} (h : Keeps m s t)
    (hm : Sub 0x10800000 m) : Keeps m s (devWrite a0 a1 t) := by
  unfold devWrite
  try dsimp only
  repeat' first
    | with_reducible exact h
    | exact Sub.trans (Sub.of (by decide)) hm
    | exact id
    | exact fun _ h => h
    | exact memWrite_wf _ _
    | with_reducible apply Keeps.ite
    | with_reducible apply herdTxWrite_keeps
    | with_reducible apply Keeps.setMem

theorem memUncorrectable_keeps {m : Nat} {s t : State} {a0 : Nat} (h : Keeps m s t)
    (hm : Sub 0xd3000200 m) : Keeps m s (memUncorrectable a0 t) := by
  unfold memUncorrectable
  try dsimp only
  repeat' first
    | with_reducible exact h
    | exact Sub.trans (Sub.of (by decide)) hm
    | exact id
    | exact fun _ h => h
    | with_reducible apply State.bumpK_keeps
    | with_reducible apply detectFault_keeps
    | dsimp only
    | with_reducible apply Keeps.setMem

theorem memCorrected_keeps {m : Nat} {s t : State} {a0 : Nat} (h : Keeps m s t)
    (hm : Sub 0xc3000200 m) : Keeps m s (memCorrected a0 t) := by
  unfold memCorrected
  try dsimp only
  repeat' first
    | with_reducible exact h
    | exact Sub.trans (Sub.of (by decide)) hm
    | with_reducible apply State.bumpK_keeps
    | with_reducible apply detectFault_keeps

end Sys2Proof.Machine
end

