-- ==== Sys2Proof/Laws/PortSet.lean ====
section
/-!
SUPPORT. What each operation of Machine/PortSet.lean may change: the parts of the state in the set `hm`, no others, the invariant
kept. Cite these lemmas; do not unfold the operations.
-/
namespace Sys2Proof.Machine

theorem holdFragment_keeps {m : Nat} {s t : State} {a0 : Nat} {a1 : Nat} (h : Keeps m s t)
    (hm : Sub 0x800 m) : Keeps m s (holdFragment a0 a1 t) := by
  unfold holdFragment
  try dsimp only
  repeat' first
    | with_reducible exact h
    | exact Sub.trans (Sub.of (by decide)) hm
    | with_reducible apply Keeps.ite
    | with_reducible apply State.updPort_keeps
    | split

end Sys2Proof.Machine
end

