-- ==== Sys2Proof/Laws/Fabric.lean ====
section
/-!
SUPPORT. What each operation of Machine/Fabric.lean may change: the parts of the state in the set `hm`, no others, the invariant
kept. Cite these lemmas; do not unfold the operations.
-/
namespace Sys2Proof.Machine

theorem State.updXp_keeps {m : Nat} {s t : State} {a1 : Nat} {a2 : XPoint → XPoint} (h : Keeps m s t)
    (hm : Sub 0x400 m) : Keeps m s (State.updXp t a1 a2) := by
  unfold State.updXp
  try dsimp only
  repeat' first
    | with_reducible exact h
    | exact Sub.trans (Sub.of (by decide)) hm
    | with_reducible apply Keeps.setFabric

theorem freePlace_keeps {m : Nat} {s t : State} {a1 : Placed} (h : Keeps m s t)
    (hm : Sub 0x400 m) : Keeps m s (freePlace t a1) := by
  unfold freePlace
  try dsimp only
  repeat' first
    | with_reducible exact h
    | exact Sub.trans (Sub.of (by decide)) hm
    | with_reducible apply State.updXp_keeps
    | (with_reducible refine Keeps.foldl _ (fun _ _ _ => ?_) ?_)

theorem abandonPlace_keeps {m : Nat} {s t : State} {a1 : Placed} (h : Keeps m s t)
    (hm : Sub 0x400 m) : Keeps m s (abandonPlace t a1) := by
  unfold abandonPlace
  try dsimp only
  repeat' first
    | with_reducible exact h
    | exact Sub.trans (Sub.of (by decide)) hm
    | with_reducible apply State.updXp_keeps
    | (with_reducible refine Keeps.foldl _ (fun _ _ _ => ?_) ?_)

theorem drawRandom_keeps {m : Nat} {s t : State} {a0 : Nat} (h : Keeps m s t)
    (hm : Sub 0x400 m) : Keeps m s (drawRandom a0 t).2 := by
  unfold drawRandom
  try dsimp only
  repeat' first
    | with_reducible exact h
    | exact Sub.trans (Sub.of (by decide)) hm
    | dsimp only
    | with_reducible apply Keeps.setFabric

theorem State.updQueue_keeps {m : Nat} {s t : State} {a1 : Nat} {a2 : Nat} {a3 : Queue → Queue} (h : Keeps m s t)
    (hm : Sub 0x400 m) : Keeps m s (State.updQueue t a1 a2 a3) := by
  unfold State.updQueue
  try dsimp only
  repeat' first
    | with_reducible exact h
    | exact Sub.trans (Sub.of (by decide)) hm
    | with_reducible apply Keeps.setFabric

theorem earlyDrop_keeps {m : Nat} {s t : State} {a0 : Image} {a1 : Nat} {a2 : Nat} {a3 : Nat} {a4 : Nat} {a5 : Nat} {a6 : Bool} (h : Keeps m s t)
    (hm : Sub 0x400 m) : Keeps m s (earlyDrop a0 a1 a2 a3 a4 a5 a6 t).2 := by
  unfold earlyDrop
  try dsimp only
  repeat' first
    | with_reducible exact h
    | exact Sub.trans (Sub.of (by decide)) hm
    | with_reducible apply Keeps.ite
    | with_reducible apply Keeps.iteSnd
    | with_reducible apply drawRandom_keeps
    | dsimp only
    | split
    | (with_reducible refine Keeps.ofPair (by assumption) ?_)

theorem memberResult_keeps {m : Nat} {s t : State} {a0 : Image} {a1 : Carriage} {a2 : Nat} (h : Keeps m s t)
    (hm : Sub 0x400 m) : Keeps m s (memberResult a0 a1 a2 t).2 := by
  unfold memberResult
  try dsimp only
  repeat' first
    | with_reducible exact h
    | exact Sub.trans (Sub.of (by decide)) hm
    | with_reducible apply Keeps.ite
    | with_reducible apply Keeps.iteSnd
    | with_reducible apply earlyDrop_keeps
    | dsimp only
    | split
    | (with_reducible refine Keeps.ofPair (by assumption) ?_)

theorem judgeMembers_keeps {m : Nat} {s t : State} {a0 : Image} {a1 : Carriage} {a2 : List Nat} (h : Keeps m s t)
    (hm : Sub 0x600 m) : Keeps m s (judgeMembers a0 a1 a2 t).2 := by
  induction a2 generalizing t a0 a1 with
  | nil =>
    unfold judgeMembers
    repeat' first
      | with_reducible exact h
      | exact Sub.trans (Sub.of (by decide)) hm
      | with_reducible apply memberResult_keeps
      | with_reducible apply State.bumpPort_keeps
      | with_reducible apply Keeps.ite
      | with_reducible apply Keeps.iteSnd
      | dsimp only
      | split
  | cons _ _ ih =>
    unfold judgeMembers
    try dsimp only
    repeat' first
      | with_reducible exact h
      | exact Sub.trans (Sub.of (by decide)) hm
      | with_reducible apply ih
      | with_reducible apply memberResult_keeps
      | with_reducible apply State.bumpPort_keeps
      | with_reducible apply Keeps.ite
      | with_reducible apply Keeps.iteSnd
      | dsimp only
      | split

theorem countAt_keeps {m : Nat} {s t : State} {a0 : List Nat} {a1 : Nat} (h : Keeps m s t)
    (hm : Sub 0x200 m) : Keeps m s (countAt a0 a1 t) := by
  unfold countAt
  try dsimp only
  repeat' first
    | with_reducible exact h
    | with_reducible assumption
    | exact Sub.trans (Sub.of (by decide)) hm
    | (intro (_ : State) hu; first | with_reducible exact hu | skip)
    | exact id
    | exact fun _ h => h
    | with_reducible apply Keeps.ite
    | with_reducible apply State.bumpPort_keeps
    | (with_reducible refine Keeps.foldl _ (fun _ _ _ => ?_) ?_)
    | dsimp only
    | split
    | (with_reducible refine Keeps.ofPair (by assumption) ?_)
    | (with_reducible refine Keeps.ofTriple (by assumption) ?_)

theorem admitXp_keeps {m : Nat} {s t : State} {a0 : Image} {a1 : Nat} {a2 : Carriage} {a3 : Nat} {a4 : Nat} {a5 : List Nat} (h : Keeps m s t)
    (hm : Sub 0x600 m) : Keeps m s (admitXp a0 a1 a2 a3 a4 a5 t).2.2 := by
  unfold admitXp
  try dsimp only
  repeat' first
    | with_reducible exact h
    | exact Sub.trans (Sub.of (by decide)) hm
    | with_reducible apply Keeps.ite
    | with_reducible apply Keeps.iteTrd
    | with_reducible apply State.updXp_keeps
    | with_reducible apply countAt_keeps
    | with_reducible apply judgeMembers_keeps
    | dsimp only
    | split
    | (with_reducible refine Keeps.ofPair (by assumption) ?_)

theorem growPlace_keeps {m : Nat} {s t : State} {a0 : Image} {a1 : Nat} {a2 : Nat} {a3 : Placed} (h : Keeps m s t)
    (hm : Sub 0x600 m) : Keeps m s (growPlace a0 a1 a2 a3 t).2 := by
  unfold growPlace
  try dsimp only
  repeat' first
    | with_reducible exact h
    | exact Sub.trans (Sub.of (by decide)) hm
    | with_reducible apply State.updXp_keeps
    | with_reducible apply abandonPlace_keeps
    | with_reducible apply countAt_keeps
    | dsimp only
    | split

theorem growPlaces_keeps {m : Nat} {s t : State} {a0 : Image} {a1 : Nat} {a2 : Nat} {a3 : List Placed} (h : Keeps m s t)
    (hm : Sub 0x600 m) : Keeps m s (growPlaces a0 a1 a2 a3 t).2 := by
  induction a3 generalizing t a0 a1 a2 with
  | nil =>
    unfold growPlaces
    repeat' first
      | with_reducible exact h
      | exact Sub.trans (Sub.of (by decide)) hm
      | with_reducible apply growPlace_keeps
      | dsimp only
      | split
  | cons _ _ ih =>
    unfold growPlaces
    try dsimp only
    repeat' first
      | with_reducible exact h
      | exact Sub.trans (Sub.of (by decide)) hm
      | with_reducible apply ih
      | with_reducible apply growPlace_keeps
      | dsimp only
      | split

theorem admitRow_keeps {m : Nat} {s t : State} {a0 : Image} {a1 : Nat} {a2 : Carriage} {a3 : Nat} {a4 : List Nat} {a5 : List Nat} (h : Keeps m s t)
    (hm : Sub 0x600 m) : Keeps m s (admitRow a0 a1 a2 a3 a4 a5 t).2.2 := by
  induction a5 generalizing t a0 a1 a2 a3 a4 with
  | nil =>
    unfold admitRow
    repeat' first
      | with_reducible exact h
      | exact Sub.trans (Sub.of (by decide)) hm
      | with_reducible apply admitXp_keeps
      | with_reducible apply Keeps.ite
      | with_reducible apply Keeps.iteTrd
      | dsimp only
      | split
  | cons _ _ ih =>
    unfold admitRow
    try dsimp only
    repeat' first
      | with_reducible exact h
      | exact Sub.trans (Sub.of (by decide)) hm
      | with_reducible apply ih
      | with_reducible apply admitXp_keeps
      | with_reducible apply Keeps.ite
      | with_reducible apply Keeps.iteTrd
      | dsimp only
      | split

theorem admitFrame_keeps {m : Nat} {s t : State} {a0 : Image} {a1 : Nat} {a2 : Carriage} {a3 : Nat} {a4 : List Nat} (h : Keeps m s t)
    (hm : Sub 0x600 m) : Keeps m s (admitFrame a0 a1 a2 a3 a4 t).2 := by
  unfold admitFrame
  try dsimp only
  repeat' first
    | with_reducible exact h
    | exact Sub.trans (Sub.of (by decide)) hm
    | with_reducible apply Keeps.ite
    | with_reducible apply Keeps.iteSnd
    | with_reducible apply State.bumpPort_keeps
    | with_reducible apply admitRow_keeps
    | dsimp only
    | split
    | (with_reducible refine Keeps.ofTriple (by assumption) ?_)

theorem linkMember_keeps {m : Nat} {s t : State} {a0 : Nat} {a1 : Nat} {a2 : Nat} {a4 : Prod Nat Bool} (h : Keeps m s t)
    (hm : Sub 0x400 m) : Keeps m s (linkMember a0 a1 a2 t a4) := by
  unfold linkMember
  try dsimp only
  repeat' first
    | with_reducible exact h
    | exact Sub.trans (Sub.of (by decide)) hm
    | with_reducible apply State.updQueue_keeps

theorem linkPlace_keeps {m : Nat} {s t : State} {a0 : Nat} {a1 : Nat} {a2 : Nat} {a3 : Nat} {a5 : Placed} (h : Keeps m s t)
    (hm : Sub 0x400 m) : Keeps m s (linkPlace a0 a1 a2 a3 t a5) := by
  unfold linkPlace
  try dsimp only
  repeat' first
    | with_reducible exact h
    | with_reducible assumption
    | exact Sub.trans (Sub.of (by decide)) hm
    | (intro (_ : State) hu; first | with_reducible exact hu | skip)
    | exact id
    | exact fun _ h => h
    | with_reducible apply Keeps.ite
    | with_reducible apply State.updXp_keeps
    | with_reducible apply linkMember_keeps
    | (with_reducible refine Keeps.foldl _ (fun _ _ _ => ?_) ?_)
    | dsimp only
    | split
    | (with_reducible refine Keeps.ofPair (by assumption) ?_)
    | (with_reducible refine Keeps.ofTriple (by assumption) ?_)

theorem linkFrame_keeps {m : Nat} {s t : State} {a0 : Nat} {a1 : Stored} (h : Keeps m s t)
    (hm : Sub 0x400 m) : Keeps m s (linkFrame a0 a1 t) := by
  unfold linkFrame
  try dsimp only
  repeat' first
    | with_reducible exact h
    | with_reducible assumption
    | exact Sub.trans (Sub.of (by decide)) hm
    | (intro (_ : State) hu; first | with_reducible exact hu | skip)
    | exact id
    | exact fun _ h => h
    | with_reducible apply Keeps.ite
    | with_reducible apply linkPlace_keeps
    | (with_reducible refine Keeps.foldl _ (fun _ _ _ => ?_) ?_)
    | dsimp only
    | split
    | (with_reducible refine Keeps.ofPair (by assumption) ?_)
    | (with_reducible refine Keeps.ofTriple (by assumption) ?_)
    | with_reducible apply Keeps.setFabric

theorem releasePlace_keeps {m : Nat} {s t : State} {a1 : Placed} (h : Keeps m s t)
    (hm : Sub 0x400 m) : Keeps m s (releasePlace t a1).2 := by
  unfold releasePlace
  try dsimp only
  repeat' first
    | with_reducible exact h
    | exact Sub.trans (Sub.of (by decide)) hm
    | with_reducible apply Keeps.ite
    | with_reducible apply Keeps.iteSnd
    | with_reducible apply freePlace_keeps
    | dsimp only

theorem putPlaces_keeps {m : Nat} {s t : State} {a0 : Nat} {a1 : Stored} {a2 : List Placed} (h : Keeps m s t)
    (hm : Sub 0x400 m) : Keeps m s (putPlaces a0 a1 a2 t) := by
  unfold putPlaces
  try dsimp only
  repeat' first
    | with_reducible exact h
    | exact Sub.trans (Sub.of (by decide)) hm
    | with_reducible apply Keeps.ite
    | with_reducible apply Keeps.setFabric

theorem releaseRef_keeps {m : Nat} {s t : State} {a0 : Nat} {a1 : Nat} (h : Keeps m s t)
    (hm : Sub 0x400 m) : Keeps m s (releaseRef a0 a1 t) := by
  unfold releaseRef
  try dsimp only
  repeat' first
    | with_reducible exact h
    | exact Sub.trans (Sub.of (by decide)) hm
    | with_reducible apply Keeps.ite
    | with_reducible apply putPlaces_keeps
    | with_reducible apply releasePlace_keeps
    | dsimp only
    | split
    | (with_reducible refine Keeps.ofPair (by assumption) ?_)

theorem unlinkRef_keeps {m : Nat} {s t : State} {a0 : Nat} {a1 : Nat} {a2 : Ref} (h : Keeps m s t)
    (hm : Sub 0x400 m) : Keeps m s (unlinkRef a0 a1 a2 t) := by
  unfold unlinkRef
  try dsimp only
  repeat' first
    | with_reducible exact h
    | exact Sub.trans (Sub.of (by decide)) hm
    | with_reducible apply State.updQueue_keeps
    | with_reducible apply releaseRef_keeps

theorem unlinkWhere_keeps {m : Nat} {s t : State} {a0 : Ref → Bool} {a1 : Nat} {a2 : Nat} {a3 : Nat} (h : Keeps m s t)
    (hm : Sub 0x600 m) : Keeps m s (unlinkWhere a0 a1 a2 a3 t) := by
  unfold unlinkWhere
  try dsimp only
  repeat' first
    | with_reducible exact h
    | with_reducible assumption
    | exact Sub.trans (Sub.of (by decide)) hm
    | (intro (_ : State) hu; first | with_reducible exact hu | skip)
    | exact id
    | exact fun _ h => h
    | with_reducible apply Keeps.ite
    | with_reducible apply State.bumpPort_keeps
    | with_reducible apply unlinkRef_keeps
    | (with_reducible refine Keeps.foldl _ (fun _ _ _ => ?_) ?_)
    | dsimp only
    | split
    | (with_reducible refine Keeps.ofPair (by assumption) ?_)
    | (with_reducible refine Keeps.ofTriple (by assumption) ?_)

theorem emptyQueue_keeps {m : Nat} {s t : State} {a0 : Nat} {a1 : Nat} (h : Keeps m s t)
    (hm : Sub 0x400 m) : Keeps m s (emptyQueue a0 a1 t) := by
  unfold emptyQueue
  try dsimp only
  repeat' first
    | with_reducible exact h
    | exact Sub.trans (Sub.of (by decide)) hm
    | with_reducible apply Keeps.ite
    | with_reducible apply State.updQueue_keeps

theorem unlinkAll_keeps {m : Nat} {s t : State} {a0 : Nat → Ref → Bool} {a1 : Nat} (h : Keeps m s t)
    (hm : Sub 0x600 m) : Keeps m s (unlinkAll a0 a1 t) := by
  unfold unlinkAll
  try dsimp only
  repeat' first
    | with_reducible exact h
    | with_reducible assumption
    | exact Sub.trans (Sub.of (by decide)) hm
    | (intro (_ : State) hu; first | with_reducible exact hu | skip)
    | exact id
    | exact fun _ h => h
    | with_reducible apply Keeps.ite
    | with_reducible apply emptyQueue_keeps
    | with_reducible apply unlinkWhere_keeps
    | (with_reducible refine Keeps.foldl _ (fun _ _ _ => ?_) ?_)
    | dsimp only
    | split
    | (with_reducible refine Keeps.ofPair (by assumption) ?_)
    | (with_reducible refine Keeps.ofTriple (by assumption) ?_)

theorem effAverageDepthUpdate_keeps {m : Nat} {s t : State} (h : Keeps m s t)
    (hm : Sub 0x400 m) : Keeps m s (effAverageDepthUpdate t) := by
  unfold effAverageDepthUpdate
  try dsimp only
  repeat' first
    | with_reducible exact h
    | exact Sub.trans (Sub.of (by decide)) hm
    | with_reducible apply Keeps.ite
    | dsimp only
    | with_reducible apply Keeps.setFabric

theorem effParityFence_keeps {m : Nat} {s t : State} {a0 : Nat} {a1 : Nat} (h : Keeps m s t)
    (hm : Sub 0xc3000400 m) : Keeps m s (effParityFence a0 a1 t) := by
  unfold effParityFence
  try dsimp only
  repeat' first
    | with_reducible exact h
    | exact Sub.trans (Sub.of (by decide)) hm
    | with_reducible apply Keeps.ite
    | with_reducible apply State.updXp_keeps
    | with_reducible apply detectFault_keeps
    | dsimp only
    | split

theorem effFenceUnlink_keeps {m : Nat} {s t : State} {a0 : Nat} {a1 : Nat} (h : Keeps m s t)
    (hm : Sub 0x600 m) : Keeps m s (effFenceUnlink a0 a1 t) := by
  unfold effFenceUnlink
  try dsimp only
  repeat' first
    | with_reducible exact h
    | exact Sub.trans (Sub.of (by decide)) hm
    | with_reducible apply Keeps.ite
    | with_reducible apply State.updXp_keeps
    | with_reducible apply unlinkAll_keeps
    | dsimp only

theorem forgetWriting_keeps {m : Nat} {s t : State} {a0 : Nat} (h : Keeps m s t)
    (hm : Sub 0x600 m) : Keeps m s (forgetWriting a0 t) := by
  unfold forgetWriting
  try dsimp only
  repeat' first
    | with_reducible exact h
    | exact Sub.trans (Sub.of (by decide)) hm
    | with_reducible apply countAt_keeps
    | dsimp only
    | with_reducible apply Keeps.setFabric

theorem effFenceRebuild_keeps {m : Nat} {s t : State} {a0 : Nat} {a1 : Nat} (h : Keeps m s t)
    (hm : Sub 0x600 m) : Keeps m s (effFenceRebuild a0 a1 t) := by
  unfold effFenceRebuild
  try dsimp only
  repeat' first
    | with_reducible exact h
    | exact Sub.trans (Sub.of (by decide)) hm
    | with_reducible apply Keeps.ite
    | with_reducible apply State.bumpK_keeps
    | with_reducible apply State.updXp_keeps
    | with_reducible apply forgetWriting_keeps
    | with_reducible apply unlinkAll_keeps
    | dsimp only
    | with_reducible apply Keeps.setFabric

theorem fabricLoad_keeps {m : Nat} {s t : State} (h : Keeps m s t)
    (hm : Sub 0x400 m) : Keeps m s (fabricLoad t) := by
  unfold fabricLoad
  try dsimp only
  repeat' first
    | with_reducible exact h
    | exact Sub.trans (Sub.of (by decide)) hm
    | with_reducible apply Keeps.setFabric

end Sys2Proof.Machine
end

