-- ==== Sys2Proof/Laws/Psfp.lean ====
section
/-!
SUPPORT. What each operation of Machine/Psfp.lean may change: the parts of the state in the set `hm`, no others, the invariant
kept. Cite these lemmas; do not unfold the operations.
-/
namespace Sys2Proof.Machine

theorem countFilter_keeps {m : Nat} {s t : State} {a0 : Nat} {a1 : List Nat} (h : Keeps m s t)
    (hm : Sub 0x200 m) : Keeps m s (countFilter a0 a1 t) := by
  unfold countFilter
  try dsimp only
  repeat' first
    | with_reducible exact h
    | with_reducible assumption
    | exact Sub.trans (Sub.of (by decide)) hm
    | (intro (_ : State) hu; first | with_reducible exact hu | skip)
    | exact id
    | exact fun _ h => h
    | with_reducible apply Keeps.ite
    | with_reducible apply State.bumpK_keeps
    | (with_reducible refine Keeps.foldl _ (fun _ _ _ => ?_) ?_)
    | dsimp only
    | split
    | (with_reducible refine Keeps.ofPair (by assumption) ?_)
    | (with_reducible refine Keeps.ofTriple (by assumption) ?_)

theorem filterDrop_keeps {m : Nat} {s t : State} {a0 : Nat} {a1 : Nat} {a2 : Nat} (h : Keeps m s t)
    (hm : Sub 0x200 m) : Keeps m s (filterDrop a0 a1 a2 t) := by
  unfold filterDrop
  try dsimp only
  repeat' first
    | with_reducible exact h
    | exact Sub.trans (Sub.of (by decide)) hm
    | with_reducible apply State.bumpPort_keeps
    | with_reducible apply countFilter_keeps

theorem State.updSgate_keeps {m : Nat} {s t : State} {a1 : Nat} {a2 : SGate → SGate} (h : Keeps m s t)
    (hm : Sub 0x2000 m) : Keeps m s (State.updSgate t a1 a2) := by
  unfold State.updSgate
  try dsimp only
  repeat' first
    | with_reducible exact h
    | exact Sub.trans (Sub.of (by decide)) hm
    | with_reducible apply Keeps.setPsfp

theorem addOctets_keeps {m : Nat} {s t : State} {a0 : Nat} {a1 : Nat} {a2 : Nat} (h : Keeps m s t)
    (hm : Sub 0x2000 m) : Keeps m s (addOctets a0 a1 a2 t) := by
  unfold addOctets
  try dsimp only
  repeat' first
    | with_reducible exact h
    | exact Sub.trans (Sub.of (by decide)) hm
    | with_reducible apply State.updSgate_keeps
    | dsimp only
    | split

theorem latchGate_keeps {m : Nat} {s t : State} {a0 : Image} {a1 : Nat} {a2 : Nat} {a3 : Nat} (h : Keeps m s t)
    (hm : Sub 0x2000 m) : Keeps m s (latchGate a0 a1 a2 a3 t) := by
  unfold latchGate
  try dsimp only
  repeat' first
    | with_reducible exact h
    | exact Sub.trans (Sub.of (by decide)) hm
    | with_reducible apply Keeps.ite
    | with_reducible apply State.updSgate_keeps

theorem State.putMeter_keeps {m : Nat} {s t : State} {a1 : Nat} {a2 : Meter} (h : Keeps m s t)
    (hm : Sub 0x2000 m) : Keeps m s (State.putMeter t a1 a2) := by
  unfold State.putMeter
  try dsimp only
  repeat' first
    | with_reducible exact h
    | exact Sub.trans (Sub.of (by decide)) hm
    | with_reducible apply Keeps.setPsfp

theorem meterFrame_keeps {m : Nat} {s t : State} {a0 : Image} {a1 : Nat} {a2 : Nat} {a3 : Nat} (h : Keeps m s t)
    (hm : Sub 0x2200 m) : Keeps m s (meterFrame a0 a1 a2 a3 t).2.2 := by
  unfold meterFrame
  try dsimp only
  repeat' first
    | with_reducible exact h
    | exact Sub.trans (Sub.of (by decide)) hm
    | with_reducible apply Keeps.ite
    | with_reducible apply Keeps.iteTrd
    | with_reducible apply State.bumpK_keeps
    | with_reducible apply State.putMeter_keeps
    | dsimp only
    | split

theorem zeroKeyCounters_keeps {m : Nat} {s t : State} {a0 : Nat} {a1 : List Nat} {a3 : Nat} (h : Keeps m s t)
    (hm : Sub 0x200 m) : Keeps m s (zeroKeyCounters a0 a1 t a3) := by
  unfold zeroKeyCounters
  try dsimp only
  repeat' first
    | with_reducible exact h
    | with_reducible assumption
    | exact Sub.trans (Sub.of (by decide)) hm
    | (intro (_ : State) hu; first | with_reducible exact hu | skip)
    | exact id
    | exact fun _ h => h
    | with_reducible apply Keeps.ite
    | with_reducible apply State.zeroCounter_keeps
    | (with_reducible refine Keeps.foldl _ (fun _ _ _ => ?_) ?_)
    | dsimp only
    | split
    | (with_reducible refine Keeps.ofPair (by assumption) ?_)
    | (with_reducible refine Keeps.ofTriple (by assumption) ?_)

theorem psfpCutover_keeps {m : Nat} {s t : State} {a0 : Image} {a1 : Image} (h : Keeps m s t)
    (hm : Sub 0x2200 m) : Keeps m s (psfpCutover a0 a1 t) := by
  unfold psfpCutover
  try dsimp only
  repeat' first
    | with_reducible exact h
    | with_reducible assumption
    | exact Sub.trans (Sub.of (by decide)) hm
    | (intro (_ : State) hu; first | with_reducible exact hu | skip)
    | exact id
    | exact fun _ h => h
    | with_reducible apply Keeps.ite
    | with_reducible apply zeroKeyCounters_keeps
    | (with_reducible refine Keeps.foldl _ (fun _ _ _ => ?_) ?_)
    | dsimp only
    | split
    | (with_reducible refine Keeps.ofPair (by assumption) ?_)
    | (with_reducible refine Keeps.ofTriple (by assumption) ?_)
    | with_reducible apply Keeps.setPsfp

theorem psfpLoad_keeps {m : Nat} {s t : State} (h : Keeps m s t)
    (hm : Sub 0x2000 m) : Keeps m s (psfpLoad t) := by
  unfold psfpLoad
  try dsimp only
  repeat' first
    | with_reducible exact h
    | exact Sub.trans (Sub.of (by decide)) hm
    | with_reducible apply Keeps.setPsfp

end Sys2Proof.Machine
end

