-- ==== Sys2Proof/Laws/Fdb.lean ====
section
/-!
SUPPORT. What each operation of Machine/Fdb.lean may change: the parts of the state in the set `hm`, no others, the invariant
kept. Cite these lemmas; do not unfold the operations.
-/
namespace Sys2Proof.Machine

theorem State.updLearned_keeps {m : Nat} {s t : State} {a1 : AMap Learned → AMap Learned} (h : Keeps m s t)
    (hm : Sub 0x1000 m) : Keeps m s (State.updLearned t a1) := by
  unfold State.updLearned
  try dsimp only
  repeat' first
    | with_reducible exact h
    | exact Sub.trans (Sub.of (by decide)) hm
    | with_reducible apply Keeps.setFdb

theorem fdbHit_keeps {m : Nat} {s t : State} {a0 : Nat} (h : Keeps m s t)
    (hm : Sub 0x1000 m) : Keeps m s (fdbHit a0 t) := by
  unfold fdbHit
  try dsimp only
  repeat' first
    | with_reducible exact h
    | exact Sub.trans (Sub.of (by decide)) hm
    | with_reducible apply State.updLearned_keeps
    | split

theorem applyLearn_keeps {m : Nat} {s t : State} {a0 : LearnReq} (h : Keeps m s t)
    (hm : Sub 0x1200 m) : Keeps m s (applyLearn a0 t) := by
  unfold applyLearn
  try dsimp only
  repeat' first
    | with_reducible exact h
    | exact Sub.trans (Sub.of (by decide)) hm
    | with_reducible apply Keeps.ite
    | with_reducible apply State.bumpPort_keeps
    | with_reducible apply State.updLearned_keeps
    | split

theorem requestLearn_keeps {m : Nat} {s t : State} {a0 : LearnReq} (h : Keeps m s t)
    (hm : Sub 0x1000 m) : Keeps m s (requestLearn a0 t) := by
  unfold requestLearn
  try dsimp only
  repeat' first
    | with_reducible exact h
    | exact Sub.trans (Sub.of (by decide)) hm
    | with_reducible apply Keeps.setFdb

theorem effLearnApply_keeps {m : Nat} {s t : State} (h : Keeps m s t)
    (hm : Sub 0x1200 m) : Keeps m s (effLearnApply t) := by
  unfold effLearnApply
  try dsimp only
  repeat' first
    | with_reducible exact h
    | exact Sub.trans (Sub.of (by decide)) hm
    | with_reducible apply applyLearn_keeps
    | split
    | with_reducible apply Keeps.setFdb

theorem effAgeingSweep_keeps {m : Nat} {s t : State} (h : Keeps m s t)
    (hm : Sub 0x1000 m) : Keeps m s (effAgeingSweep t) := by
  unfold effAgeingSweep
  try dsimp only
  repeat' first
    | with_reducible exact h
    | exact Sub.trans (Sub.of (by decide)) hm
    | with_reducible apply Keeps.ite
    | with_reducible apply Keeps.setFdb

theorem flushPort_keeps {m : Nat} {s t : State} {a0 : Nat} (h : Keeps m s t)
    (hm : Sub 0x1000 m) : Keeps m s (flushPort a0 t) := by
  unfold flushPort
  try dsimp only
  repeat' first
    | with_reducible exact h
    | exact Sub.trans (Sub.of (by decide)) hm
    | with_reducible apply Keeps.ite
    | with_reducible apply Keeps.setFdb

theorem effFlushComplete_keeps {m : Nat} {s t : State} (h : Keeps m s t)
    (hm : Sub 0x1000 m) : Keeps m s (effFlushComplete t) := by
  unfold effFlushComplete
  try dsimp only
  repeat' first
    | with_reducible exact h
    | exact Sub.trans (Sub.of (by decide)) hm
    | with_reducible apply Keeps.setFdb

theorem enterStatic_keeps {m : Nat} {s t : State} {a1 : Nat} (h : Keeps m s t)
    (hm : Sub 0x1000 m) : Keeps m s (enterStatic t a1) := by
  unfold enterStatic
  try dsimp only
  repeat' first
    | with_reducible exact h
    | exact Sub.trans (Sub.of (by decide)) hm
    | with_reducible apply Keeps.ite
    | with_reducible apply State.updLearned_keeps
    | dsimp only
    | split
    | with_reducible apply Keeps.setFdb

theorem fdbCutover_keeps {m : Nat} {s t : State} {a0 : Image} (h : Keeps m s t)
    (hm : Sub 0x1000 m) : Keeps m s (fdbCutover a0 t) := by
  unfold fdbCutover
  try dsimp only
  repeat' first
    | with_reducible exact h
    | with_reducible assumption
    | exact Sub.trans (Sub.of (by decide)) hm
    | (intro (_ : State) hu; first | with_reducible exact hu | skip)
    | exact id
    | exact fun _ h => h
    | with_reducible apply Keeps.ite
    | with_reducible apply enterStatic_keeps
    | (with_reducible refine Keeps.foldl _ (fun _ _ _ => ?_) ?_)
    | dsimp only
    | split
    | (with_reducible refine Keeps.ofPair (by assumption) ?_)
    | (with_reducible refine Keeps.ofTriple (by assumption) ?_)
    | with_reducible apply Keeps.setFdb

theorem fdbLoad_keeps {m : Nat} {s t : State} (h : Keeps m s t)
    (hm : Sub 0x1000 m) : Keeps m s (fdbLoad t) := by
  unfold fdbLoad
  try dsimp only
  repeat' first
    | with_reducible exact h
    | exact Sub.trans (Sub.of (by decide)) hm
    | with_reducible apply Keeps.setFdb

end Sys2Proof.Machine
end

