-- ==== Sys2Proof/Laws/Frer.lean ====
section
/-!
SUPPORT. What each operation of Machine/Frer.lean may change: the parts of the state in the set `hm`, no others, the invariant
kept. Cite these lemmas; do not unfold the operations.
-/
namespace Sys2Proof.Machine

theorem State.updRecov_keeps {m : Nat} {s t : State} {a1 : Nat} {a2 : Recov → Recov} (h : Keeps m s t)
    (hm : Sub 0x100000 m) : Keeps m s (State.updRecov t a1 a2) := by
  unfold State.updRecov
  try dsimp only
  repeat' first
    | with_reducible exact h
    | exact Sub.trans (Sub.of (by decide)) hm
    | with_reducible apply Keeps.setFrer

theorem putGenNumber_keeps {m : Nat} {s t : State} {a0 : Bool} {a1 : Nat} {a2 : Nat} (h : Keeps m s t)
    (hm : Sub 0x100000 m) : Keeps m s (putGenNumber a0 a1 a2 t) := by
  unfold putGenNumber
  try dsimp only
  repeat' first
    | with_reducible exact h
    | exact Sub.trans (Sub.of (by decide)) hm
    | with_reducible apply Keeps.ite
    | with_reducible apply Keeps.setFrer

theorem numberFrame_keeps {m : Nat} {s t : State} {a0 : Carriage} (h : Keeps m s t)
    (hm : Sub 0x100200 m) : Keeps m s (numberFrame a0 t).2 := by
  unfold numberFrame
  try dsimp only
  repeat' first
    | with_reducible exact h
    | exact Sub.trans (Sub.of (by decide)) hm
    | with_reducible apply Keeps.ite
    | with_reducible apply Keeps.iteSnd
    | with_reducible apply State.bumpK_keeps
    | with_reducible apply putGenNumber_keeps
    | dsimp only
    | split

theorem resetGen_keeps {m : Nat} {s t : State} {a1 : Nat} (h : Keeps m s t)
    (hm : Sub 0x100200 m) : Keeps m s (resetGen t a1) := by
  unfold resetGen
  try dsimp only
  repeat' first
    | with_reducible exact h
    | exact Sub.trans (Sub.of (by decide)) hm
    | with_reducible apply Keeps.ite
    | with_reducible apply State.bumpK_keeps
    | with_reducible apply putGenNumber_keeps
    | dsimp only
    | with_reducible apply Keeps.setFrer

theorem recoverFrame_keeps {m : Nat} {s t : State} {a0 : Nat} {a1 : Carriage} (h : Keeps m s t)
    (hm : Sub 0x100200 m) : Keeps m s (recoverFrame a0 a1 t).2 := by
  unfold recoverFrame
  try dsimp only
  repeat' first
    | with_reducible exact h
    | with_reducible assumption
    | exact Sub.trans (Sub.of (by decide)) hm
    | (intro (_ : State) hu; first | with_reducible exact hu | skip)
    | exact id
    | exact fun _ h => h
    | with_reducible apply Keeps.ite
    | with_reducible apply Keeps.iteSnd
    | with_reducible apply State.bumpK_keeps
    | with_reducible apply State.bumpPort_keeps
    | with_reducible apply State.updRecov_keeps
    | (with_reducible refine Keeps.foldl _ (fun _ _ _ => ?_) ?_)
    | dsimp only
    | split
    | (with_reducible refine Keeps.ofPair (by assumption) ?_)
    | (with_reducible refine Keeps.ofTriple (by assumption) ?_)

theorem resetRecoveryKey_keeps {m : Nat} {s t : State} {a1 : Nat} (h : Keeps m s t)
    (hm : Sub 0x100200 m) : Keeps m s (resetRecoveryKey t a1) := by
  unfold resetRecoveryKey
  try dsimp only
  repeat' first
    | with_reducible exact h
    | exact Sub.trans (Sub.of (by decide)) hm
    | with_reducible apply State.bumpK_keeps
    | with_reducible apply State.updRecov_keeps

theorem effRecoveryResetTimer_keeps {m : Nat} {s t : State} {a0 : Nat} (h : Keeps m s t)
    (hm : Sub 0x100200 m) : Keeps m s (effRecoveryResetTimer a0 t) := by
  unfold effRecoveryResetTimer
  try dsimp only
  repeat' first
    | with_reducible exact h
    | exact Sub.trans (Sub.of (by decide)) hm
    | with_reducible apply Keeps.ite
    | with_reducible apply resetRecoveryKey_keeps
    | dsimp only

theorem effMemberResetTimer_keeps {m : Nat} {s t : State} {a0 : Nat} {a1 : Nat} (h : Keeps m s t)
    (hm : Sub 0x100200 m) : Keeps m s (effMemberResetTimer a0 a1 t) := by
  unfold effMemberResetTimer
  try dsimp only
  repeat' first
    | with_reducible exact h
    | exact Sub.trans (Sub.of (by decide)) hm
    | with_reducible apply Keeps.ite
    | with_reducible apply State.bumpK_keeps
    | with_reducible apply State.updRecov_keeps
    | dsimp only

theorem effLatentTest_keeps {m : Nat} {s t : State} {a0 : Nat} (h : Keeps m s t)
    (hm : Sub 0xc3100200 m) : Keeps m s (effLatentTest a0 t) := by
  unfold effLatentTest
  try dsimp only
  repeat' first
    | with_reducible exact h
    | exact Sub.trans (Sub.of (by decide)) hm
    | with_reducible apply Keeps.ite
    | with_reducible apply State.bumpK_keeps
    | with_reducible apply State.updRecov_keeps
    | with_reducible apply detectFault_keeps
    | with_reducible apply pulse_keeps
    | dsimp only

theorem effLatentReset_keeps {m : Nat} {s t : State} {a0 : Nat} (h : Keeps m s t)
    (hm : Sub 0x100200 m) : Keeps m s (effLatentReset a0 t) := by
  unfold effLatentReset
  try dsimp only
  repeat' first
    | with_reducible exact h
    | exact Sub.trans (Sub.of (by decide)) hm
    | with_reducible apply Keeps.ite
    | with_reducible apply State.bumpK_keeps
    | with_reducible apply State.updRecov_keeps
    | dsimp only

theorem countLoadResets_keeps {m : Nat} {s t : State} (h : Keeps m s t)
    (hm : Sub 0x200 m) : Keeps m s (countLoadResets t) := by
  unfold countLoadResets
  try dsimp only
  repeat' first
    | with_reducible exact h
    | with_reducible assumption
    | exact Sub.trans (Sub.of (by decide)) hm
    | (intro (_ : State) hu; first | with_reducible exact hu | skip)
    | exact id
    | exact fun _ h => h
    | with_reducible apply Keeps.ite
    | with_reducible apply State.bumpK_keeps
    | (with_reducible refine Keeps.foldl _ (fun _ _ _ => ?_) ?_)
    | dsimp only
    | split
    | (with_reducible refine Keeps.ofPair (by assumption) ?_)
    | (with_reducible refine Keeps.ofTriple (by assumption) ?_)

theorem createdRows_keeps {m : Nat} {s t : State} (h : Keeps m s t)
    (hm : Sub 0x200 m) : Keeps m s (createdRows t) := by
  unfold createdRows
  try dsimp only
  repeat' first
    | with_reducible exact h
    | exact Sub.trans (Sub.of (by decide)) hm
    | with_reducible apply Keeps.setCnt

theorem frerLoad_keeps {m : Nat} {s t : State} (h : Keeps m s t)
    (hm : Sub 0x100000 m) : Keeps m s (frerLoad t) := by
  unfold frerLoad
  try dsimp only
  repeat' first
    | with_reducible exact h
    | exact Sub.trans (Sub.of (by decide)) hm
    | with_reducible apply Keeps.setFrer

theorem frerCutover_keeps {m : Nat} {s t : State} {a0 : Image} {a1 : Image} (h : Keeps m s t)
    (hm : Sub 0x100200 m) : Keeps m s (frerCutover a0 a1 t) := by
  unfold frerCutover
  try dsimp only
  repeat' first
    | with_reducible exact h
    | with_reducible assumption
    | exact Sub.trans (Sub.of (by decide)) hm
    | (intro (_ : State) hu; first | with_reducible exact hu | skip)
    | exact id
    | exact fun _ h => h
    | with_reducible apply Keeps.ite
    | with_reducible apply zeroKeyCounters_keeps
    | (with_reducible refine Keeps.foldl _ (fun _ _ _ => ?_) ?_)
    | dsimp only
    | split
    | (with_reducible refine Keeps.ofPair (by assumption) ?_)
    | (with_reducible refine Keeps.ofTriple (by assumption) ?_)
    | with_reducible apply Keeps.setFrer

theorem frerRetire_keeps {m : Nat} {s t : State} (h : Keeps m s t)
    (hm : Sub 0x100000 m) : Keeps m s (frerRetire t) := by
  unfold frerRetire
  try dsimp only
  repeat' first
    | with_reducible exact h
    | exact Sub.trans (Sub.of (by decide)) hm
    | with_reducible apply Keeps.setFrer

theorem takeoverContext_keeps {m : Nat} {s t : State} {a0 : State} {a2 : Prod Nat Recov} (h : Keeps m s t)
    (hm : Sub 0x100200 m) : Keeps m s (takeoverContext a0 t a2) := by
  unfold takeoverContext
  try dsimp only
  repeat' first
    | with_reducible exact h
    | exact Sub.trans (Sub.of (by decide)) hm
    | with_reducible apply Keeps.ite
    | with_reducible apply State.bumpK_keeps
    | with_reducible apply State.updRecov_keeps
    | dsimp only

theorem takeoverGen_keeps {m : Nat} {s t : State} {a0 : State} {a2 : Prod Nat Row} (h : Keeps m s t)
    (hm : Sub 0x100000 m) : Keeps m s (takeoverGen a0 t a2) := by
  unfold takeoverGen
  try dsimp only
  repeat' first
    | with_reducible exact h
    | exact Sub.trans (Sub.of (by decide)) hm
    | with_reducible apply putGenNumber_keeps

theorem frerTakeover_keeps {m : Nat} {s t : State} (h : Keeps m s t)
    (hm : Sub 0x100200 m) : Keeps m s (frerTakeover t) := by
  unfold frerTakeover
  try dsimp only
  repeat' first
    | with_reducible exact h
    | with_reducible assumption
    | exact Sub.trans (Sub.of (by decide)) hm
    | (intro (_ : State) hu; first | with_reducible exact hu | skip)
    | exact id
    | exact fun _ h => h
    | with_reducible apply Keeps.ite
    | with_reducible apply takeoverContext_keeps
    | with_reducible apply takeoverGen_keeps
    | (with_reducible refine Keeps.foldl _ (fun _ _ _ => ?_) ?_)
    | dsimp only
    | split
    | (with_reducible refine Keeps.ofPair (by assumption) ?_)
    | (with_reducible refine Keeps.ofTriple (by assumption) ?_)
    | with_reducible apply Keeps.setFrer

end Sys2Proof.Machine
end

