-- ==== Sys2Proof/Laws/Time.lean ====
section
/-!
SUPPORT. What each operation of Machine/Time.lean may change: the parts of the state in the set `hm`, no others, the invariant
kept. Cite these lemmas; do not unfold the operations.
-/
namespace Sys2Proof.Machine

theorem idleCycle_keeps {m : Nat} {s t : State} (h : Keeps m s t)
    (hm : Sub 0x200002 m) : Keeps m s (idleCycle t) := by
  refine h.change hm ⟨fun p hp => ?_, fun i => ?_⟩
  · unfold idleCycle
    dsimp only
    split <;> cases p <;> first | rfl | exact absurd hp (by decide)
  · unfold idleCycle
    dsimp only
    split <;> exact ⟨i.1, i.2, i.3, i.4, i.5, i.6⟩

theorem setLocked_keeps {m : Nat} {s t : State} {a0 : Nat} {a1 : Bool} (h : Keeps m s t)
    (hm : Sub 0xc3200200 m) : Keeps m s (setLocked a0 a1 t) := by
  unfold setLocked
  try dsimp only
  repeat' first
    | with_reducible exact h
    | exact Sub.trans (Sub.of (by decide)) hm
    | with_reducible apply Keeps.ite
    | with_reducible apply State.bump_keeps
    | with_reducible apply State.hit_keeps
    | with_reducible apply State.updDom_keeps
    | with_reducible apply detectFault_keeps
    | with_reducible apply pulse_keeps
    | dsimp only

theorem loseLock_keeps {m : Nat} {s t : State} {a0 : Nat} (h : Keeps m s t)
    (hm : Sub 0xc3200200 m) : Keeps m s (loseLock a0 t) := by
  unfold loseLock
  try dsimp only
  repeat' first
    | with_reducible exact h
    | exact Sub.trans (Sub.of (by decide)) hm
    | with_reducible apply State.updDom_keeps
    | with_reducible apply setLocked_keeps

theorem measure_keeps {m : Nat} {s t : State} {a0 : Nat} {a1 : Int} {a2 : Nat} (h : Keeps m s t)
    (hm : Sub 0xc3200200 m) : Keeps m s (measure a0 a1 a2 t) := by
  unfold measure
  try dsimp only
  repeat' first
    | with_reducible exact h
    | exact Sub.trans (Sub.of (by decide)) hm
    | with_reducible apply Keeps.ite
    | with_reducible apply State.bump_keeps
    | with_reducible apply State.updDom_keeps
    | with_reducible apply setLocked_keeps
    | dsimp only

theorem armDomain_keeps {m : Nat} {s t : State} {a0 : Nat} {a1 : Nat} (h : Keeps m s t)
    (hm : Sub 0x200000 m) : Keeps m s (armDomain a0 a1 t) := by
  unfold armDomain
  try dsimp only
  repeat' first
    | with_reducible exact h
    | exact Sub.trans (Sub.of (by decide)) hm
    | with_reducible apply State.updDom_keeps

theorem State.updPps_keeps {m : Nat} {s t : State} {a1 : Nat} {a2 : PpsOut → PpsOut} (h : Keeps m s t)
    (hm : Sub 0x200000 m) : Keeps m s (State.updPps t a1 a2) := by
  unfold State.updPps
  try dsimp only
  repeat' first
    | with_reducible exact h
    | exact Sub.trans (Sub.of (by decide)) hm
    | with_reducible apply Keeps.setTime

theorem ppsNote_keeps {m : Nat} {s t : State} {a1 : Nat} (h : Keeps m s t)
    (hm : Sub 0x200000 m) : Keeps m s (ppsNote t a1) := by
  unfold ppsNote
  try dsimp only
  repeat' first
    | with_reducible exact h
    | exact Sub.trans (Sub.of (by decide)) hm
    | with_reducible apply State.updPps_keeps
    | split

theorem ppsStart_keeps {m : Nat} {s t : State} {a0 : Nat} {a2 : Nat} (h : Keeps m s t)
    (hm : Sub 0x200000 m) : Keeps m s (ppsStart a0 t a2) := by
  unfold ppsStart
  try dsimp only
  repeat' first
    | with_reducible exact h
    | exact Sub.trans (Sub.of (by decide)) hm
    | with_reducible apply Keeps.ite
    | with_reducible apply State.updPps_keeps

theorem startDomain_keeps {m : Nat} {s t : State} {a0 : Nat} (h : Keeps m s t)
    (hm : Sub 0xc3200200 m) : Keeps m s (startDomain a0 t) := by
  unfold startDomain
  try dsimp only
  repeat' first
    | with_reducible exact h
    | with_reducible assumption
    | exact Sub.trans (Sub.of (by decide)) hm
    | (intro (_ : State) hu; first | with_reducible exact hu | skip)
    | exact id
    | exact fun _ h => h
    | with_reducible apply Keeps.ite
    | with_reducible apply State.updDom_keeps
    | with_reducible apply armDomain_keeps
    | with_reducible apply ppsStart_keeps
    | with_reducible apply setLocked_keeps
    | (with_reducible refine Keeps.foldl _ (fun _ _ _ => ?_) ?_)
    | dsimp only
    | split
    | (with_reducible refine Keeps.ofPair (by assumption) ?_)
    | (with_reducible refine Keeps.ofTriple (by assumption) ?_)

theorem stopDomain_keeps {m : Nat} {s t : State} {a0 : Nat} (h : Keeps m s t)
    (hm : Sub 0xc3200200 m) : Keeps m s (stopDomain a0 t) := by
  unfold stopDomain
  try dsimp only
  repeat' first
    | with_reducible exact h
    | exact Sub.trans (Sub.of (by decide)) hm
    | with_reducible apply State.updDom_keeps
    | with_reducible apply loseLock_keeps

theorem applyDomain_keeps {m : Nat} {s t : State} {a0 : Image} {a2 : Nat} (h : Keeps m s t)
    (hm : Sub 0xc3200200 m) : Keeps m s (applyDomain a0 t a2) := by
  unfold applyDomain
  try dsimp only
  repeat' first
    | with_reducible exact h
    | with_reducible assumption
    | exact Sub.trans (Sub.of (by decide)) hm
    | (intro (_ : State) hu; first | with_reducible exact hu | skip)
    | exact id
    | exact fun _ h => h
    | with_reducible apply Keeps.ite
    | with_reducible apply State.updDom_keeps
    | with_reducible apply armDomain_keeps
    | with_reducible apply loseLock_keeps
    | with_reducible apply ppsNote_keeps
    | with_reducible apply ppsStart_keeps
    | with_reducible apply setLocked_keeps
    | with_reducible apply startDomain_keeps
    | with_reducible apply stopDomain_keeps
    | (with_reducible refine Keeps.foldl _ (fun _ _ _ => ?_) ?_)
    | dsimp only
    | split
    | (with_reducible refine Keeps.ofPair (by assumption) ?_)
    | (with_reducible refine Keeps.ofTriple (by assumption) ?_)

theorem applyTimeSettings_keeps {m : Nat} {s t : State} {a0 : Image} (h : Keeps m s t)
    (hm : Sub 0xc3200200 m) : Keeps m s (applyTimeSettings a0 t) := by
  unfold applyTimeSettings
  try dsimp only
  repeat' first
    | with_reducible exact h
    | with_reducible assumption
    | exact Sub.trans (Sub.of (by decide)) hm
    | (intro (_ : State) hu; first | with_reducible exact hu | skip)
    | exact id
    | exact fun _ h => h
    | with_reducible apply Keeps.ite
    | with_reducible apply applyDomain_keeps
    | (with_reducible refine Keeps.foldl _ (fun _ _ _ => ?_) ?_)
    | dsimp only
    | split
    | (with_reducible refine Keeps.ofPair (by assumption) ?_)
    | (with_reducible refine Keeps.ofTriple (by assumption) ?_)

theorem refuseRate_keeps {m : Nat} {s t : State} {a0 : Nat} (h : Keeps m s t)
    (hm : Sub 0x80200200 m) : Keeps m s (refuseRate a0 t) := by
  unfold refuseRate
  try dsimp only
  repeat' first
    | with_reducible exact h
    | exact Sub.trans (Sub.of (by decide)) hm
    | with_reducible apply State.bump_keeps
    | with_reducible apply State.hit_keeps
    | with_reducible apply State.updDom_keeps

theorem refuseStep_keeps {m : Nat} {s t : State} {a0 : Nat} (h : Keeps m s t)
    (hm : Sub 0x80200200 m) : Keeps m s (refuseStep a0 t) := by
  unfold refuseStep
  try dsimp only
  repeat' first
    | with_reducible exact h
    | exact Sub.trans (Sub.of (by decide)) hm
    | with_reducible apply State.bump_keeps
    | with_reducible apply State.hit_keeps
    | with_reducible apply State.updDom_keeps

theorem State.updFnTime_keeps {m : Nat} {s t : State} {a1 : Nat} {a2 : Nat} {a3 : FnTime → FnTime} (h : Keeps m s t)
    (hm : Sub 0x200000 m) : Keeps m s (State.updFnTime t a1 a2 a3) := by
  unfold State.updFnTime
  try dsimp only
  repeat' first
    | with_reducible exact h
    | exact Sub.trans (Sub.of (by decide)) hm
    | with_reducible apply Keeps.setTime

theorem effIncrementHiWrite_keeps {m : Nat} {s t : State} {a0 : Nat} {a1 : Nat} {a2 : Nat} (h : Keeps m s t)
    (hm : Sub 0x8820020c m) : Keeps m s (effIncrementHiWrite a0 a1 a2 t) := by
  unfold effIncrementHiWrite
  try dsimp only
  repeat' first
    | with_reducible exact h
    | exact Sub.trans (Sub.of (by decide)) hm
    | with_reducible apply Keeps.ite
    | with_reducible apply State.updDom_keeps
    | with_reducible apply refuseBar_keeps
    | with_reducible apply refuseRate_keeps
    | dsimp only

theorem effAdjTicksWrite_keeps {m : Nat} {s t : State} {a0 : Nat} {a1 : Nat} {a2 : Nat} (h : Keeps m s t)
    (hm : Sub 0x8820020c m) : Keeps m s (effAdjTicksWrite a0 a1 a2 t) := by
  unfold effAdjTicksWrite
  try dsimp only
  repeat' first
    | with_reducible exact h
    | exact Sub.trans (Sub.of (by decide)) hm
    | with_reducible apply Keeps.ite
    | with_reducible apply State.updDom_keeps
    | with_reducible apply refuseBar_keeps
    | with_reducible apply refuseRate_keeps
    | dsimp only

theorem effRateChangeDue_keeps {m : Nat} {s t : State} {a0 : Nat} (h : Keeps m s t)
    (hm : Sub 0x200000 m) : Keeps m s (effRateChangeDue a0 t) := by
  unfold effRateChangeDue
  try dsimp only
  repeat' first
    | with_reducible exact h
    | exact Sub.trans (Sub.of (by decide)) hm
    | with_reducible apply Keeps.ite
    | with_reducible apply State.updDom_keeps
    | dsimp only

theorem effAdjWindowEnd_keeps {m : Nat} {s t : State} {a0 : Nat} (h : Keeps m s t)
    (hm : Sub 0x200000 m) : Keeps m s (effAdjWindowEnd a0 t) := by
  unfold effAdjWindowEnd
  try dsimp only
  repeat' first
    | with_reducible exact h
    | exact Sub.trans (Sub.of (by decide)) hm
    | with_reducible apply Keeps.ite
    | with_reducible apply State.updDom_keeps

theorem effGo_keeps {m : Nat} {s t : State} {a0 : Nat} {a1 : Nat} {a2 : Nat} (h : Keeps m s t)
    (hm : Sub 0x8820020c m) : Keeps m s (effGo a0 a1 a2 t) := by
  unfold effGo
  try dsimp only
  repeat' first
    | with_reducible exact h
    | exact Sub.trans (Sub.of (by decide)) hm
    | with_reducible apply Keeps.ite
    | with_reducible apply State.updDom_keeps
    | with_reducible apply refuseBar_keeps
    | with_reducible apply refuseStep_keeps

theorem armRegister_keeps {m : Nat} {s t : State} {a0 : Nat} {a1 : Nat} {a2 : Nat} (h : Keeps m s t)
    (hm : Sub 0x8820020c m) : Keeps m s (armRegister a0 a1 a2 t) := by
  unfold armRegister
  try dsimp only
  repeat' first
    | with_reducible exact h
    | exact Sub.trans (Sub.of (by decide)) hm
    | with_reducible apply Keeps.ite
    | with_reducible apply armDomain_keeps
    | with_reducible apply refuseBar_keeps
    | with_reducible apply refuseRate_keeps

theorem effOffsetReport_keeps {m : Nat} {s t : State} {a0 : Nat} {a1 : Nat} {a2 : Nat} (h : Keeps m s t)
    (hm : Sub 0xcb20020c m) : Keeps m s (effOffsetReport a0 a1 a2 t) := by
  unfold effOffsetReport
  try dsimp only
  repeat' first
    | with_reducible exact h
    | exact Sub.trans (Sub.of (by decide)) hm
    | with_reducible apply Keeps.ite
    | with_reducible apply measure_keeps
    | with_reducible apply refuseBar_keeps

theorem effTimeFracRead_keeps {m : Nat} {s t : State} {a0 : Nat} {a1 : Nat} (h : Keeps m s t)
    (hm : Sub 0x820000c m) : Keeps m s (effTimeFracRead a0 a1 t) := by
  unfold effTimeFracRead
  try dsimp only
  repeat' first
    | with_reducible exact h
    | exact Sub.trans (Sub.of (by decide)) hm
    | with_reducible apply Keeps.ite
    | with_reducible apply State.emit_keeps
    | with_reducible apply State.updFnTime_keeps
    | with_reducible apply refuseBar_keeps

theorem ppsServo_keeps {m : Nat} {s t : State} {a0 : Nat} {a1 : Int} (h : Keeps m s t)
    (hm : Sub 0x200000 m) : Keeps m s (ppsServo a0 a1 t) := by
  unfold ppsServo
  try dsimp only
  repeat' first
    | with_reducible exact h
    | exact Sub.trans (Sub.of (by decide)) hm
    | with_reducible apply Keeps.ite
    | with_reducible apply State.updDom_keeps
    | dsimp only

theorem ppsEdgeAt_keeps {m : Nat} {s t : State} {a0 : Nat} {a1 : Bool} {a2 : Nat} {a4 : Nat} (h : Keeps m s t)
    (hm : Sub 0xc3200200 m) : Keeps m s (ppsEdgeAt a0 a1 a2 t a4) := by
  unfold ppsEdgeAt
  try dsimp only
  repeat' first
    | with_reducible exact h
    | exact Sub.trans (Sub.of (by decide)) hm
    | with_reducible apply Keeps.ite
    | with_reducible apply State.bump_keeps
    | with_reducible apply State.updDom_keeps
    | with_reducible apply measure_keeps
    | with_reducible apply ppsServo_keeps
    | dsimp only
    | split

theorem effPpsEdge_keeps {m : Nat} {s t : State} {a0 : Nat} {a1 : Bool} {a2 : Nat} (h : Keeps m s t)
    (hm : Sub 0xc3200200 m) : Keeps m s (effPpsEdge a0 a1 a2 t) := by
  unfold effPpsEdge
  try dsimp only
  repeat' first
    | with_reducible exact h
    | with_reducible assumption
    | exact Sub.trans (Sub.of (by decide)) hm
    | (intro (_ : State) hu; first | with_reducible exact hu | skip)
    | exact id
    | exact fun _ h => h
    | with_reducible apply Keeps.ite
    | with_reducible apply ppsEdgeAt_keeps
    | (with_reducible refine Keeps.foldl _ (fun _ _ _ => ?_) ?_)
    | dsimp only
    | split
    | (with_reducible refine Keeps.ofPair (by assumption) ?_)
    | (with_reducible refine Keeps.ofTriple (by assumption) ?_)
    | with_reducible apply Keeps.setTime

theorem effMeasureTimeout_keeps {m : Nat} {s t : State} {a0 : Nat} (h : Keeps m s t)
    (hm : Sub 0xc3200200 m) : Keeps m s (effMeasureTimeout a0 t) := by
  unfold effMeasureTimeout
  try dsimp only
  repeat' first
    | with_reducible exact h
    | exact Sub.trans (Sub.of (by decide)) hm
    | with_reducible apply Keeps.ite
    | with_reducible apply State.hit_keeps
    | with_reducible apply State.updDom_keeps
    | with_reducible apply detectFault_keeps
    | with_reducible apply loseLock_keeps
    | dsimp only

theorem effPpsOutPulse_keeps {m : Nat} {s t : State} {a0 : Nat} (h : Keeps m s t)
    (hm : Sub 0x200000 m) : Keeps m s (effPpsOutPulse a0 t) := by
  unfold effPpsOutPulse
  try dsimp only
  repeat' first
    | with_reducible exact h
    | exact Sub.trans (Sub.of (by decide)) hm
    | with_reducible apply Keeps.ite
    | with_reducible apply State.updPps_keeps
    | split

theorem effPpsOutWidthEnd_keeps {m : Nat} {s t : State} {a0 : Nat} (h : Keeps m s t)
    (hm : Sub 0x200000 m) : Keeps m s (effPpsOutWidthEnd a0 t) := by
  unfold effPpsOutWidthEnd
  try dsimp only
  repeat' first
    | with_reducible exact h
    | exact Sub.trans (Sub.of (by decide)) hm
    | with_reducible apply Keeps.ite
    | with_reducible apply State.updPps_keeps
    | dsimp only

theorem ppsSkip_keeps {m : Nat} {s t : State} {a0 : Nat} {a2 : Nat} (h : Keeps m s t)
    (hm : Sub 0x200200 m) : Keeps m s (ppsSkip a0 t a2) := by
  unfold ppsSkip
  try dsimp only
  repeat' first
    | with_reducible exact h
    | exact Sub.trans (Sub.of (by decide)) hm
    | with_reducible apply Keeps.ite
    | with_reducible apply State.bumpBy_keeps
    | with_reducible apply State.updPps_keeps
    | dsimp only

theorem ppsState_keeps {m : Nat} {s t : State} {a0 : Mode} (h : Keeps m s t)
    (hm : Sub 0x200000 m) : Keeps m s (ppsState a0 t) := by
  unfold ppsState
  try dsimp only
  repeat' first
    | with_reducible exact h
    | with_reducible assumption
    | exact Sub.trans (Sub.of (by decide)) hm
    | (intro (_ : State) hu; first | with_reducible exact hu | skip)
    | exact id
    | exact fun _ h => h
    | with_reducible apply Keeps.ite
    | with_reducible apply ppsNote_keeps
    | (with_reducible refine Keeps.foldl _ (fun _ _ _ => ?_) ?_)
    | dsimp only
    | split
    | (with_reducible refine Keeps.ofPair (by assumption) ?_)
    | (with_reducible refine Keeps.ofTriple (by assumption) ?_)
    | with_reducible apply Keeps.setTime

end Sys2Proof.Machine
end

