-- ==== Sys2Proof/Laws/Pairing.lean ====
section
/-!
SUPPORT. What each operation of Machine/Pairing.lean may change: the parts of the state in the set `hm`, no others, the invariant
kept. Cite these lemmas; do not unfold the operations.
-/
namespace Sys2Proof.Machine

theorem State.updPair_keeps {m : Nat} {s t : State} {a1 : Pair → Pair} (h : Keeps m s t)
    (hm : Sub 0x40000 m) : Keeps m s (State.updPair t a1) := by
  unfold State.updPair
  try dsimp only
  repeat' first
    | with_reducible exact h
    | exact Sub.trans (Sub.of (by decide)) hm
    | with_reducible apply Keeps.setPair

theorem State.bumpPair_keeps {m : Nat} {s t : State} {a1 : Nat} (h : Keeps m s t)
    (hm : Sub 0x200 m) : Keeps m s (State.bumpPair t a1) := by
  unfold State.bumpPair
  try dsimp only
  repeat' first
    | with_reducible exact h
    | exact Sub.trans (Sub.of (by decide)) hm
    | with_reducible apply State.bump_keeps

theorem pairEvent_keeps {m : Nat} {s t : State} {a0 : Nat} (h : Keeps m s t)
    (hm : Sub 0x80040000 m) : Keeps m s (pairEvent a0 t) := by
  unfold pairEvent
  try dsimp only
  repeat' first
    | with_reducible exact h
    | exact Sub.trans (Sub.of (by decide)) hm
    | with_reducible apply State.hit_keeps
    | with_reducible apply State.updPair_keeps

theorem persistEpoch_keeps {m : Nat} {s t : State} {a0 : Nat} (h : Keeps m s t)
    (hm : Sub 0x40 m) : Keeps m s (persistEpoch a0 t) := by
  unfold persistEpoch
  try dsimp only
  repeat' first
    | with_reducible exact h
    | exact Sub.trans (Sub.of (by decide)) hm
    | with_reducible apply ringWrite_keeps
    | with_reducible apply Keeps.setMram

theorem disturbDigest_keeps {m : Nat} {s t : State} (h : Keeps m s t)
    (hm : Sub 0x40000 m) : Keeps m s (disturbDigest t) := by
  unfold disturbDigest
  try dsimp only
  repeat' first
    | with_reducible exact h
    | exact Sub.trans (Sub.of (by decide)) hm
    | with_reducible apply State.updPair_keeps

theorem setRole_keeps {m : Nat} {s t : State} {a0 : Nat} {a1 : Nat} (h : Keeps m s t)
    (hm : Sub 0x1040200 m) : Keeps m s (setRole a0 a1 t) := by
  unfold setRole
  try dsimp only
  repeat' first
    | with_reducible exact h
    | exact Sub.trans (Sub.of (by decide)) hm
    | with_reducible apply Keeps.ite
    | with_reducible apply State.updPair_keeps
    | with_reducible apply pulse_keeps
    | dsimp only

theorem becomeActive_keeps {m : Nat} {s t : State} (h : Keeps m s t)
    (hm : Sub 0x1040240 m) : Keeps m s (becomeActive t) := by
  unfold becomeActive
  try dsimp only
  repeat' first
    | with_reducible exact h
    | exact Sub.trans (Sub.of (by decide)) hm
    | with_reducible apply persistEpoch_keeps
    | with_reducible apply setRole_keeps
    | dsimp only

theorem becomeStandby_keeps {m : Nat} {s t : State} {a0 : Nat} (h : Keeps m s t)
    (hm : Sub 0x1040240 m) : Keeps m s (becomeStandby a0 t) := by
  unfold becomeStandby
  try dsimp only
  repeat' first
    | with_reducible exact h
    | exact Sub.trans (Sub.of (by decide)) hm
    | with_reducible apply Keeps.ite
    | with_reducible apply persistEpoch_keeps
    | with_reducible apply setRole_keeps
    | dsimp only

theorem becomeConflict_keeps {m : Nat} {s t : State} {a0 : Partner} (h : Keeps m s t)
    (hm : Sub 0xc3040200 m) : Keeps m s (becomeConflict a0 t) := by
  unfold becomeConflict
  try dsimp only
  repeat' first
    | with_reducible exact h
    | exact Sub.trans (Sub.of (by decide)) hm
    | with_reducible apply detectFault_keeps
    | with_reducible apply pairEvent_keeps
    | with_reducible apply setRole_keeps

theorem takeRole_keeps {m : Nat} {s t : State} (h : Keeps m s t)
    (hm : Sub 0xc3040240 m) : Keeps m s (takeRole t) := by
  unfold takeRole
  try dsimp only
  repeat' first
    | with_reducible exact h
    | exact Sub.trans (Sub.of (by decide)) hm
    | with_reducible apply Keeps.ite
    | with_reducible apply becomeActive_keeps
    | with_reducible apply becomeConflict_keeps
    | with_reducible apply becomeStandby_keeps
    | split

theorem pairEnterRun_keeps {m : Nat} {s t : State} (h : Keeps m s t)
    (hm : Sub 0xc3040240 m) : Keeps m s (pairEnterRun t) := by
  unfold pairEnterRun
  try dsimp only
  repeat' first
    | with_reducible exact h
    | exact Sub.trans (Sub.of (by decide)) hm
    | with_reducible apply Keeps.ite
    | with_reducible apply persistEpoch_keeps
    | with_reducible apply setRole_keeps
    | with_reducible apply takeRole_keeps
    | dsimp only

theorem pairLeaveRun_keeps {m : Nat} {s t : State} (h : Keeps m s t)
    (hm : Sub 0x1040200 m) : Keeps m s (pairLeaveRun t) := by
  unfold pairLeaveRun
  try dsimp only
  repeat' first
    | with_reducible exact h
    | exact Sub.trans (Sub.of (by decide)) hm
    | with_reducible apply State.updPair_keeps
    | with_reducible apply setRole_keeps

theorem demote_keeps {m : Nat} {s t : State} {a0 : Nat} (h : Keeps m s t)
    (hm : Sub 0x81040240 m) : Keeps m s (demote a0 t) := by
  unfold demote
  try dsimp only
  repeat' first
    | with_reducible exact h
    | exact Sub.trans (Sub.of (by decide)) hm
    | with_reducible apply State.bumpPair_keeps
    | with_reducible apply State.updPair_keeps
    | with_reducible apply becomeStandby_keeps
    | with_reducible apply disturbDigest_keeps
    | with_reducible apply pairEvent_keeps

theorem offerClaim_keeps {m : Nat} {s t : State} {a0 : Nat} (h : Keeps m s t)
    (hm : Sub 0x81040240 m) : Keeps m s (offerClaim a0 t) := by
  unfold offerClaim
  try dsimp only
  repeat' first
    | with_reducible exact h
    | exact Sub.trans (Sub.of (by decide)) hm
    | with_reducible apply Keeps.ite
    | with_reducible apply State.updPair_keeps
    | with_reducible apply becomeStandby_keeps
    | with_reducible apply demote_keeps
    | dsimp only

theorem yieldPair_keeps {m : Nat} {s t : State} (h : Keeps m s t)
    (hm : Sub 0x40000 m) : Keeps m s (yieldPair t) := by
  unfold yieldPair
  try dsimp only
  repeat' first
    | with_reducible exact h
    | exact Sub.trans (Sub.of (by decide)) hm
    | with_reducible apply State.updPair_keeps

theorem claimFilter_keeps {m : Nat} {s t : State} {a0 : Nat} {a1 : Bytes} (h : Keeps m s t)
    (hm : Sub 0x81040240 m) : Keeps m s (claimFilter a0 a1 t).2 := by
  unfold claimFilter
  try dsimp only
  repeat' first
    | with_reducible exact h
    | exact Sub.trans (Sub.of (by decide)) hm
    | with_reducible apply Keeps.ite
    | with_reducible apply Keeps.iteSnd
    | with_reducible apply State.bumpPort_keeps
    | with_reducible apply offerClaim_keeps
    | dsimp only

theorem claimTaken_keeps {m : Nat} {s t : State} {a0 : Nat} {a1 : Nat} {a2 : Bool} (h : Keeps m s t)
    (hm : Sub 0x40000 m) : Keeps m s (claimTaken a0 a1 a2 t) := by
  unfold claimTaken
  try dsimp only
  repeat' first
    | with_reducible exact h
    | exact Sub.trans (Sub.of (by decide)) hm
    | with_reducible apply Keeps.ite
    | with_reducible apply State.updPair_keeps

theorem effHeartbeatTx_keeps {m : Nat} {s t : State} (h : Keeps m s t)
    (hm : Sub 0x40208 m) : Keeps m s (effHeartbeatTx t) := by
  unfold effHeartbeatTx
  try dsimp only
  repeat' first
    | with_reducible exact h
    | with_reducible assumption
    | exact Sub.trans (Sub.of (by decide)) hm
    | (intro (_ : State) hu; first | with_reducible exact hu | skip)
    | exact id
    | exact fun _ h => h
    | with_reducible apply Keeps.ite
    | with_reducible apply State.bumpPair_keeps
    | with_reducible apply State.emit_keeps
    | with_reducible apply State.updPair_keeps
    | (with_reducible refine Keeps.foldl _ (fun _ _ _ => ?_) ?_)
    | dsimp only
    | split
    | (with_reducible refine Keeps.ofPair (by assumption) ?_)
    | (with_reducible refine Keeps.ofTriple (by assumption) ?_)

theorem effPairLaneChange_keeps {m : Nat} {s t : State} {a0 : Nat} {a1 : Bool} (h : Keeps m s t)
    (hm : Sub 0xc3040000 m) : Keeps m s (effPairLaneChange a0 a1 t) := by
  unfold effPairLaneChange
  try dsimp only
  repeat' first
    | with_reducible exact h
    | exact Sub.trans (Sub.of (by decide)) hm
    | with_reducible apply Keeps.ite
    | with_reducible apply State.updPair_keeps
    | with_reducible apply detectFault_keeps
    | with_reducible apply pairEvent_keeps
    | dsimp only

theorem effPairLinkFrameError_keeps {m : Nat} {s t : State} {a0 : Nat} (h : Keeps m s t)
    (hm : Sub 0x200 m) : Keeps m s (effPairLinkFrameError a0 t) := by
  unfold effPairLinkFrameError
  try dsimp only
  repeat' first
    | with_reducible exact h
    | exact Sub.trans (Sub.of (by decide)) hm
    | with_reducible apply Keeps.ite
    | with_reducible apply State.bumpPair_keeps

theorem pairReceive_keeps {m : Nat} {s t : State} {a0 : Nat} {a1 : Bytes} {a2 : State → State} (h : Keeps m s t)
    (h2 : ∀ u0, Keeps m s u0 → Keeps m s (a2 u0))
    (hm : Sub 0x200 m) : Keeps m s (pairReceive a0 a1 a2 t) := by
  unfold pairReceive
  try dsimp only
  repeat' first
    | with_reducible exact h
    | with_reducible assumption
    | exact Sub.trans (Sub.of (by decide)) hm
    | with_reducible apply Keeps.ite
    | with_reducible apply State.bumpPair_keeps
    | with_reducible apply h2

theorem heartbeatRole_keeps {m : Nat} {s t : State} {a0 : Partner} (h : Keeps m s t)
    (hm : Sub 0xc3040240 m) : Keeps m s (heartbeatRole a0 t) := by
  unfold heartbeatRole
  try dsimp only
  repeat' first
    | with_reducible exact h
    | exact Sub.trans (Sub.of (by decide)) hm
    | with_reducible apply Keeps.ite
    | with_reducible apply State.updPair_keeps
    | with_reducible apply becomeConflict_keeps
    | with_reducible apply offerClaim_keeps
    | with_reducible apply takeRole_keeps
    | dsimp only

theorem compareDigest_keeps {m : Nat} {s t : State} {a0 : Partner} (h : Keeps m s t)
    (hm : Sub 0xc3040200 m) : Keeps m s (compareDigest a0 t) := by
  unfold compareDigest
  try dsimp only
  repeat' first
    | with_reducible exact h
    | exact Sub.trans (Sub.of (by decide)) hm
    | with_reducible apply Keeps.ite
    | with_reducible apply State.bumpPair_keeps
    | with_reducible apply State.updPair_keeps
    | with_reducible apply detectFault_keeps
    | with_reducible apply pairEvent_keeps
    | with_reducible apply pulse_keeps
    | dsimp only
    | split

theorem notePartner_keeps {m : Nat} {s t : State} {a0 : Partner} {a1 : Digest} (h : Keeps m s t)
    (hm : Sub 0x40000 m) : Keeps m s (notePartner a0 a1 t) := by
  unfold notePartner
  try dsimp only
  repeat' first
    | with_reducible exact h
    | exact Sub.trans (Sub.of (by decide)) hm
    | with_reducible apply Keeps.ite
    | with_reducible apply State.updPair_keeps
    | with_reducible apply disturbDigest_keeps
    | dsimp only

theorem effHeartbeatRx_keeps {m : Nat} {s t : State} {a0 : Nat} {a1 : Bytes} (h : Keeps m s t)
    (hm : Sub 0xc3040240 m) : Keeps m s (effHeartbeatRx a0 a1 t) := by
  unfold effHeartbeatRx
  try dsimp only
  repeat' first
    | with_reducible exact h
    | with_reducible assumption
    | exact Sub.trans (Sub.of (by decide)) hm
    | (intro (_ : State) hu; first | with_reducible exact hu | skip)
    | exact id
    | exact fun _ h => h
    | with_reducible apply Keeps.ite
    | with_reducible apply State.bumpPair_keeps
    | with_reducible apply compareDigest_keeps
    | with_reducible apply heartbeatRole_keeps
    | with_reducible apply notePartner_keeps
    | with_reducible apply pairReceive_keeps
    | (with_reducible refine Keeps.foldl _ (fun _ _ _ => ?_) ?_)
    | dsimp only
    | split
    | (with_reducible refine Keeps.ofPair (by assumption) ?_)
    | (with_reducible refine Keeps.ofTriple (by assumption) ?_)

end Sys2Proof.Machine
end

