-- ==== Sys2Proof/Laws/Ingress.lean ====
section
/-!
SUPPORT. What each operation of Machine/Ingress.lean may change: the parts of the state in the set `hm`, no others, the invariant
kept. Cite these lemmas; do not unfold the operations.
-/
namespace Sys2Proof.Machine

theorem State.putInflight_keeps {m : Nat} {s t : State} {a1 : Nat} {a2 : Inflight} (h : Keeps m s t)
    (hm : Sub 0x400 m) : Keeps m s (State.putInflight t a1 a2) := by
  unfold State.putInflight
  try dsimp only
  repeat' first
    | with_reducible exact h
    | exact Sub.trans (Sub.of (by decide)) hm
    | with_reducible apply Keeps.setFabric

theorem State.dropInflight_keeps {m : Nat} {s t : State} {a1 : Nat} (h : Keeps m s t)
    (hm : Sub 0x400 m) : Keeps m s (State.dropInflight t a1) := by
  unfold State.dropInflight
  try dsimp only
  repeat' first
    | with_reducible exact h
    | exact Sub.trans (Sub.of (by decide)) hm
    | with_reducible apply Keeps.setFabric

theorem enterFrame_keeps {m : Nat} {s t : State} {a0 : Inflight} (h : Keeps m s t)
    (hm : Sub 0x400 m) : Keeps m s (enterFrame a0 t) := by
  unfold enterFrame
  try dsimp only
  repeat' first
    | with_reducible exact h
    | exact Sub.trans (Sub.of (by decide)) hm
    | dsimp only
    | with_reducible apply Keeps.setFabric

theorem pauseFrame_keeps {m : Nat} {s t : State} {a0 : Nat} {a1 : Nat} (h : Keeps m s t)
    (hm : Sub 0xa00 m) : Keeps m s (pauseFrame a0 a1 t) := by
  unfold pauseFrame
  try dsimp only
  repeat' first
    | with_reducible exact h
    | exact Sub.trans (Sub.of (by decide)) hm
    | with_reducible apply Keeps.ite
    | with_reducible apply State.bumpPort_keeps
    | with_reducible apply State.updPort_keeps
    | dsimp only

theorem passToClassifier_keeps {m : Nat} {s t : State} {a0 : Nat} {a1 : Inflight} (h : Keeps m s t)
    (hm : Sub 0x600 m) : Keeps m s (passToClassifier a0 a1 t) := by
  unfold passToClassifier
  try dsimp only
  repeat' first
    | with_reducible exact h
    | exact Sub.trans (Sub.of (by decide)) hm
    | with_reducible apply Keeps.ite
    | with_reducible apply State.bumpPort_keeps
    | with_reducible apply State.bumpPortBy_keeps
    | with_reducible apply enterFrame_keeps
    | dsimp only

theorem noteFec_keeps {m : Nat} {s t : State} {a0 : Nat} {a1 : RxErr} {a2 : Nat} {a3 : Nat} (h : Keeps m s t)
    (hm : Sub 0x200 m) : Keeps m s (noteFec a0 a1 a2 a3 t) := by
  unfold noteFec
  try dsimp only
  repeat' first
    | with_reducible exact h
    | exact Sub.trans (Sub.of (by decide)) hm
    | with_reducible apply Keeps.ite
    | with_reducible apply State.bumpPortBy_keeps

theorem loseFrame_keeps {m : Nat} {s t : State} {a0 : Nat} {a1 : Bytes} {a2 : List Nat} {a3 : List Nat} {a4 : Bool} (h : Keeps m s t)
    (hm : Sub 0x81040640 m) : Keeps m s (loseFrame a0 a1 a2 a3 a4 t) := by
  unfold loseFrame
  try dsimp only
  repeat' first
    | with_reducible exact h
    | exact Sub.trans (Sub.of (by decide)) hm
    | with_reducible apply Keeps.ite
    | with_reducible apply claimFilter_keeps
    | with_reducible apply enterFrame_keeps
    | (with_reducible refine Keeps.ofPair (by assumption) ?_)

theorem receiveWhole_keeps {m : Nat} {s t : State} {a0 : Nat} {a1 : Bytes} {a2 : RxErr} {a3 : List Nat} {a4 : List Nat} {a5 : Bool} (h : Keeps m s t)
    (hm : Sub 0x81040e40 m) : Keeps m s (receiveWhole a0 a1 a2 a3 a4 a5 t) := by
  unfold receiveWhole
  try dsimp only
  repeat' first
    | with_reducible exact h
    | exact Sub.trans (Sub.of (by decide)) hm
    | with_reducible apply Keeps.ite
    | with_reducible apply State.bumpPort_keeps
    | with_reducible apply claimFilter_keeps
    | with_reducible apply loseFrame_keeps
    | with_reducible apply passToClassifier_keeps
    | with_reducible apply pauseFrame_keeps
    | dsimp only
    | split
    | (with_reducible refine Keeps.ofPair (by assumption) ?_)

theorem assemblyError_keeps {m : Nat} {s t : State} {a0 : Nat} (h : Keeps m s t)
    (hm : Sub 0xa00 m) : Keeps m s (assemblyError a0 t) := by
  unfold assemblyError
  try dsimp only
  repeat' first
    | with_reducible exact h
    | exact Sub.trans (Sub.of (by decide)) hm
    | with_reducible apply State.bumpPort_keeps
    | with_reducible apply State.updPort_keeps

theorem fragmentError_keeps {m : Nat} {s t : State} {a0 : Nat} {a1 : RxErr} {a2 : Bytes} {a3 : List Nat} {a4 : List Nat} (h : Keeps m s t)
    (hm : Sub 0x81040e40 m) : Keeps m s (fragmentError a0 a1 a2 a3 a4 t) := by
  unfold fragmentError
  try dsimp only
  repeat' first
    | with_reducible exact h
    | exact Sub.trans (Sub.of (by decide)) hm
    | with_reducible apply Keeps.ite
    | with_reducible apply State.bumpPort_keeps
    | with_reducible apply State.updPort_keeps
    | with_reducible apply loseFrame_keeps

theorem assembled_keeps {m : Nat} {s t : State} {a0 : Nat} {a1 : Asm} (h : Keeps m s t)
    (hm : Sub 0x81040e40 m) : Keeps m s (assembled a0 a1 t) := by
  unfold assembled
  try dsimp only
  repeat' first
    | with_reducible exact h
    | exact Sub.trans (Sub.of (by decide)) hm
    | with_reducible apply State.bumpPort_keeps
    | with_reducible apply State.updPort_keeps
    | with_reducible apply receiveWhole_keeps

theorem startFragment_keeps {m : Nat} {s t : State} {a0 : Nat} {a1 : Nat} {a2 : Bool} {a3 : Bytes} {a4 : RxErr} {a5 : Nat} (h : Keeps m s t)
    (hm : Sub 0x81040e40 m) : Keeps m s (startFragment a0 a1 a2 a3 a4 a5 t) := by
  unfold startFragment
  try dsimp only
  repeat' first
    | with_reducible exact h
    | exact Sub.trans (Sub.of (by decide)) hm
    | with_reducible apply Keeps.ite
    | with_reducible apply State.updPort_keeps
    | with_reducible apply assembled_keeps
    | with_reducible apply assemblyError_keeps
    | with_reducible apply fragmentError_keeps
    | dsimp only

theorem moreFragment_keeps {m : Nat} {s t : State} {a0 : Nat} {a1 : Nat} {a2 : Nat} {a3 : Bool} {a4 : Bytes} {a5 : RxErr} (h : Keeps m s t)
    (hm : Sub 0x81040e40 m) : Keeps m s (moreFragment a0 a1 a2 a3 a4 a5 t) := by
  unfold moreFragment
  try dsimp only
  repeat' first
    | with_reducible exact h
    | exact Sub.trans (Sub.of (by decide)) hm
    | with_reducible apply Keeps.ite
    | with_reducible apply State.bumpPort_keeps
    | with_reducible apply State.updPort_keeps
    | with_reducible apply assembled_keeps
    | with_reducible apply assemblyError_keeps
    | with_reducible apply fragmentError_keeps
    | dsimp only
    | split

theorem smdError_keeps {m : Nat} {s t : State} {a0 : Nat} (h : Keeps m s t)
    (hm : Sub 0x200 m) : Keeps m s (smdError a0 t) := by
  unfold smdError
  try dsimp only
  repeat' first
    | with_reducible exact h
    | exact Sub.trans (Sub.of (by decide)) hm
    | with_reducible apply Keeps.ite
    | with_reducible apply State.bumpPort_keeps

theorem fragmentRefused_keeps {m : Nat} {s t : State} {a0 : Nat} (h : Keeps m s t)
    (hm : Sub 0xa00 m) : Keeps m s (fragmentRefused a0 t) := by
  unfold fragmentRefused
  try dsimp only
  repeat' first
    | with_reducible exact h
    | exact Sub.trans (Sub.of (by decide)) hm
    | with_reducible apply State.updPort_keeps
    | with_reducible apply smdError_keeps

theorem macTakes_keeps {m : Nat} {s t : State} {a0 : Nat} {a1 : Smd} {a2 : Bytes} {a3 : RxErr} {a4 : Nat} (h : Keeps m s t)
    (hm : Sub 0x81040e40 m) : Keeps m s (macTakes a0 a1 a2 a3 a4 t) := by
  unfold macTakes
  try dsimp only
  repeat' first
    | with_reducible exact h
    | exact Sub.trans (Sub.of (by decide)) hm
    | with_reducible apply Keeps.ite
    | with_reducible apply fragmentRefused_keeps
    | with_reducible apply moreFragment_keeps
    | with_reducible apply receiveWhole_keeps
    | with_reducible apply smdError_keeps
    | with_reducible apply startFragment_keeps
    | split

theorem effFrameReceived_keeps {m : Nat} {s t : State} {a0 : Nat} {a1 : Smd} {a2 : Bytes} {a3 : RxErr} {a4 : Nat} {a5 : Nat} {a6 : Nat} (h : Keeps m s t)
    (hm : Sub 0x81040e48 m) : Keeps m s (effFrameReceived a0 a1 a2 a3 a4 a5 a6 t) := by
  unfold effFrameReceived
  try dsimp only
  repeat' first
    | with_reducible exact h
    | exact Sub.trans (Sub.of (by decide)) hm
    | with_reducible apply Keeps.ite
    | with_reducible apply State.emit_keeps
    | with_reducible apply macTakes_keeps
    | with_reducible apply noteFec_keeps
    | dsimp only
    | split

theorem effPauseReceived_keeps {m : Nat} {s t : State} {a0 : Nat} {a1 : Nat} (h : Keeps m s t)
    (hm : Sub 0xa00 m) : Keeps m s (effPauseReceived a0 a1 t) := by
  unfold effPauseReceived
  try dsimp only
  repeat' first
    | with_reducible exact h
    | exact Sub.trans (Sub.of (by decide)) hm
    | with_reducible apply Keeps.ite
    | with_reducible apply pauseFrame_keeps

theorem effPauseExpiry_keeps {m : Nat} {s t : State} {a0 : Nat} (h : Keeps m s t)
    (hm : Sub 0x800 m) : Keeps m s (effPauseExpiry a0 t) := by
  unfold effPauseExpiry
  try dsimp only
  repeat' first
    | with_reducible exact h
    | exact Sub.trans (Sub.of (by decide)) hm
    | with_reducible apply Keeps.ite
    | with_reducible apply State.updPort_keeps

theorem fdbEgress_keeps {m : Nat} {s t : State} {a0 : Image} {a1 : Nat} {a2 : Nat} {a3 : Parsed} (h : Keeps m s t)
    (hm : Sub 0x200 m) : Keeps m s (fdbEgress a0 a1 a2 a3 t).2 := by
  unfold fdbEgress
  try dsimp only
  repeat' first
    | with_reducible exact h
    | exact Sub.trans (Sub.of (by decide)) hm
    | with_reducible apply Keeps.ite
    | with_reducible apply Keeps.iteSnd
    | with_reducible apply State.bumpPort_keeps
    | dsimp only
    | split

theorem streamRoute_keeps {m : Nat} {s t : State} {a0 : Image} {a1 : Nat} {a2 : Nat} {a3 : Parsed} {a4 : Option StreamHit} (h : Keeps m s t)
    (hm : Sub 0x200 m) : Keeps m s (streamRoute a0 a1 a2 a3 a4 t).2 := by
  unfold streamRoute
  try dsimp only
  repeat' first
    | with_reducible exact h
    | exact Sub.trans (Sub.of (by decide)) hm
    | with_reducible apply Keeps.ite
    | with_reducible apply Keeps.iteSnd
    | with_reducible apply fdbEgress_keeps
    | dsimp only
    | split
    | (with_reducible refine Keeps.ofPair (by assumption) ?_)

theorem chooseRoute_keeps {m : Nat} {s t : State} {a0 : Image} {a1 : Nat} {a2 : Parsed} {a3 : Bytes} {a4 : Option StreamHit} (h : Keeps m s t)
    (hm : Sub 0x200 m) : Keeps m s (chooseRoute a0 a1 a2 a3 a4 t).2 := by
  unfold chooseRoute
  try dsimp only
  repeat' first
    | with_reducible exact h
    | exact Sub.trans (Sub.of (by decide)) hm
    | with_reducible apply Keeps.ite
    | with_reducible apply Keeps.iteSnd
    | with_reducible apply State.bumpPort_keeps
    | with_reducible apply streamRoute_keeps
    | dsimp only
    | split
    | (with_reducible refine Keeps.ofPair (by assumption) ?_)

theorem forward_keeps {m : Nat} {s t : State} {a0 : Image} {a1 : Nat} {a2 : Parsed} {a3 : Bytes} (h : Keeps m s t)
    (hm : Sub 0x200 m) : Keeps m s (forward a0 a1 a2 a3 t).2 := by
  unfold forward
  try dsimp only
  repeat' first
    | with_reducible exact h
    | exact Sub.trans (Sub.of (by decide)) hm
    | with_reducible apply Keeps.ite
    | with_reducible apply Keeps.iteSnd
    | with_reducible apply State.bumpPort_keeps
    | with_reducible apply chooseRoute_keeps
    | dsimp only
    | (with_reducible refine Keeps.ofPair (by assumption) ?_)

theorem earlyChecks_keeps {m : Nat} {s t : State} {a0 : Image} {a1 : Nat} {a2 : Nat} (h : Keeps m s t)
    (hm : Sub 0x2200 m) : Keeps m s (earlyChecks a0 a1 a2 t).2 := by
  unfold earlyChecks
  try dsimp only
  repeat' first
    | with_reducible exact h
    | exact Sub.trans (Sub.of (by decide)) hm
    | with_reducible apply Keeps.ite
    | with_reducible apply Keeps.iteSnd
    | with_reducible apply filterDrop_keeps
    | with_reducible apply latchGate_keeps
    | dsimp only
    | split

theorem decideEgress_keeps {m : Nat} {s t : State} {a0 : Image} {a1 : Nat} {a2 : Inflight} {a3 : Parsed} {a4 : Route} (h : Keeps m s t)
    (hm : Sub 0x2600 m) : Keeps m s (decideEgress a0 a1 a2 a3 a4 t) := by
  unfold decideEgress
  try dsimp only
  repeat' first
    | with_reducible exact h
    | exact Sub.trans (Sub.of (by decide)) hm
    | with_reducible apply Keeps.ite
    | with_reducible apply State.putInflight_keeps
    | with_reducible apply admitFrame_keeps
    | with_reducible apply earlyChecks_keeps
    | dsimp only
    | split
    | (with_reducible refine Keeps.ofPair (by assumption) ?_)

theorem decideFrame_keeps {m : Nat} {s t : State} {a0 : Nat} {a1 : Inflight} (h : Keeps m s t)
    (hm : Sub 0x2600 m) : Keeps m s (decideFrame a0 a1 t) := by
  unfold decideFrame
  try dsimp only
  repeat' first
    | with_reducible exact h
    | exact Sub.trans (Sub.of (by decide)) hm
    | with_reducible apply Keeps.ite
    | with_reducible apply State.bumpPort_keeps
    | with_reducible apply State.putInflight_keeps
    | with_reducible apply decideEgress_keeps
    | with_reducible apply forward_keeps
    | dsimp only
    | split
    | (with_reducible refine Keeps.ofPair (by assumption) ?_)

theorem decideLost_keeps {m : Nat} {s t : State} {a0 : Nat} {a1 : Inflight} (h : Keeps m s t)
    (hm : Sub 0x2600 m) : Keeps m s (decideLost a0 a1 t) := by
  unfold decideLost
  try dsimp only
  repeat' first
    | with_reducible exact h
    | exact Sub.trans (Sub.of (by decide)) hm
    | with_reducible apply Keeps.ite
    | with_reducible apply State.dropInflight_keeps
    | with_reducible apply State.putInflight_keeps
    | with_reducible apply decideFrame_keeps
    | dsimp only
    | with_reducible apply Keeps.setFabric

theorem effIngressDecision_keeps {m : Nat} {s t : State} {a0 : Nat} (h : Keeps m s t)
    (hm : Sub 0x2600 m) : Keeps m s (effIngressDecision a0 t) := by
  unfold effIngressDecision
  try dsimp only
  repeat' first
    | with_reducible exact h
    | exact Sub.trans (Sub.of (by decide)) hm
    | with_reducible apply Keeps.ite
    | with_reducible apply decideFrame_keeps
    | with_reducible apply decideLost_keeps
    | split

theorem growFrame_keeps {m : Nat} {s t : State} {a1 : Prod Nat Inflight} (h : Keeps m s t)
    (hm : Sub 0x600 m) : Keeps m s (growFrame t a1) := by
  unfold growFrame
  try dsimp only
  repeat' first
    | with_reducible exact h
    | exact Sub.trans (Sub.of (by decide)) hm
    | with_reducible apply Keeps.ite
    | with_reducible apply State.putInflight_keeps
    | with_reducible apply growPlaces_keeps
    | dsimp only
    | split
    | (with_reducible refine Keeps.ofPair (by assumption) ?_)

theorem growFrames_keeps {m : Nat} {s t : State} (h : Keeps m s t)
    (hm : Sub 0x600 m) : Keeps m s (growFrames t) := by
  unfold growFrames
  try dsimp only
  repeat' first
    | with_reducible exact h
    | with_reducible assumption
    | exact Sub.trans (Sub.of (by decide)) hm
    | (intro (_ : State) hu; first | with_reducible exact hu | skip)
    | exact id
    | exact fun _ h => h
    | with_reducible apply Keeps.ite
    | with_reducible apply growFrame_keeps
    | (with_reducible refine Keeps.foldl _ (fun _ _ _ => ?_) ?_)
    | dsimp only
    | split
    | (with_reducible refine Keeps.ofPair (by assumption) ?_)
    | (with_reducible refine Keeps.ofTriple (by assumption) ?_)

theorem octetCheck_keeps {m : Nat} {s t : State} {a0 : Image} {a1 : Option (Prod Nat (Prod Nat Nat))} {a2 : Nat} (h : Keeps m s t)
    (hm : Sub 0x2000 m) : Keeps m s (octetCheck a0 a1 a2 t).2 := by
  unfold octetCheck
  try dsimp only
  repeat' first
    | with_reducible exact h
    | exact Sub.trans (Sub.of (by decide)) hm
    | with_reducible apply Keeps.ite
    | with_reducible apply Keeps.iteSnd
    | with_reducible apply addOctets_keeps
    | with_reducible apply latchGate_keeps
    | dsimp only
    | split

theorem meterCheck_keeps {m : Nat} {s t : State} {a0 : Image} {a1 : Nat} {a2 : Nat} {a3 : Nat} (h : Keeps m s t)
    (hm : Sub 0x2200 m) : Keeps m s (meterCheck a0 a1 a2 a3 t).2 := by
  unfold meterCheck
  try dsimp only
  repeat' first
    | with_reducible exact h
    | exact Sub.trans (Sub.of (by decide)) hm
    | with_reducible apply Keeps.ite
    | with_reducible apply Keeps.iteSnd
    | with_reducible apply meterFrame_keeps
    | dsimp only
    | split
    | (with_reducible refine Keeps.ofTriple (by assumption) ?_)

theorem blockFilter_keeps {m : Nat} {s t : State} {a0 : Image} {a1 : Nat} (h : Keeps m s t)
    (hm : Sub 0x2000 m) : Keeps m s (blockFilter a0 a1 t) := by
  unfold blockFilter
  try dsimp only
  repeat' first
    | with_reducible exact h
    | exact Sub.trans (Sub.of (by decide)) hm
    | with_reducible apply Keeps.ite
    | with_reducible apply Keeps.setPsfp

theorem lateChecks_keeps {m : Nat} {s t : State} {a0 : Image} {a1 : Carriage} {a2 : Late} (h : Keeps m s t)
    (hm : Sub 0x2200 m) : Keeps m s (lateChecks a0 a1 a2 t).2 := by
  unfold lateChecks
  try dsimp only
  repeat' first
    | with_reducible exact h
    | exact Sub.trans (Sub.of (by decide)) hm
    | with_reducible apply Keeps.ite
    | with_reducible apply Keeps.iteSnd
    | with_reducible apply blockFilter_keeps
    | with_reducible apply countFilter_keeps
    | with_reducible apply filterDrop_keeps
    | with_reducible apply meterCheck_keeps
    | with_reducible apply octetCheck_keeps
    | dsimp only
    | split
    | (with_reducible refine Keeps.ofPair (by assumption) ?_)

theorem rxRecord_keeps {m : Nat} {s t : State} {a0 : Image} {a1 : Inflight} (h : Keeps m s t)
    (hm : Sub 0xc3018200 m) : Keeps m s (rxRecord a0 a1 t) := by
  unfold rxRecord
  try dsimp only
  repeat' first
    | with_reducible exact h
    | exact Sub.trans (Sub.of (by decide)) hm
    | with_reducible apply Keeps.ite
    | with_reducible apply writeRecord_keeps
    | dsimp only

theorem checkedLearn_keeps {m : Nat} {s t : State} {a0 : Inflight} (h : Keeps m s t)
    (hm : Sub 0x1000 m) : Keeps m s (checkedLearn a0 t) := by
  unfold checkedLearn
  try dsimp only
  repeat' first
    | with_reducible exact h
    | exact Sub.trans (Sub.of (by decide)) hm
    | with_reducible apply Keeps.ite
    | with_reducible apply fdbHit_keeps
    | with_reducible apply requestLearn_keeps
    | dsimp only
    | split

theorem abandonFrame_keeps {m : Nat} {s t : State} {a0 : Inflight} (h : Keeps m s t)
    (hm : Sub 0x400 m) : Keeps m s (abandonFrame a0 t) := by
  unfold abandonFrame
  try dsimp only
  repeat' first
    | with_reducible exact h
    | with_reducible assumption
    | exact Sub.trans (Sub.of (by decide)) hm
    | (intro (_ : State) hu; first | with_reducible exact hu | skip)
    | exact id
    | exact fun _ h => h
    | with_reducible apply Keeps.ite
    | with_reducible apply abandonPlace_keeps
    | (with_reducible refine Keeps.foldl _ (fun _ _ _ => ?_) ?_)
    | dsimp only
    | split
    | (with_reducible refine Keeps.ofPair (by assumption) ?_)
    | (with_reducible refine Keeps.ofTriple (by assumption) ?_)

theorem checkedClaim_keeps {m : Nat} {s t : State} {a0 : Inflight} (h : Keeps m s t)
    (hm : Sub 0x40200 m) : Keeps m s (checkedClaim a0 t).2 := by
  unfold checkedClaim
  try dsimp only
  repeat' first
    | with_reducible exact h
    | exact Sub.trans (Sub.of (by decide)) hm
    | with_reducible apply Keeps.ite
    | with_reducible apply Keeps.iteSnd
    | with_reducible apply State.bumpPort_keeps
    | with_reducible apply claimTaken_keeps
    | dsimp only
    | split

theorem linkChecked_keeps {m : Nat} {s t : State} {a0 : Nat} {a1 : Inflight} {a2 : Nat} (h : Keeps m s t)
    (hm : Sub 0x100600 m) : Keeps m s (linkChecked a0 a1 a2 t) := by
  unfold linkChecked
  try dsimp only
  repeat' first
    | with_reducible exact h
    | exact Sub.trans (Sub.of (by decide)) hm
    | with_reducible apply Keeps.ite
    | with_reducible apply State.bumpPort_keeps
    | with_reducible apply growPlaces_keeps
    | with_reducible apply linkFrame_keeps
    | with_reducible apply numberFrame_keeps
    | dsimp only
    | split
    | (with_reducible refine Keeps.ofPair (by assumption) ?_)

theorem checkFrame_keeps {m : Nat} {s t : State} {a0 : Nat} {a1 : Inflight} (h : Keeps m s t)
    (hm : Sub 0xc315b600 m) : Keeps m s (checkFrame a0 a1 t) := by
  unfold checkFrame
  try dsimp only
  repeat' first
    | with_reducible exact h
    | exact Sub.trans (Sub.of (by decide)) hm
    | with_reducible apply Keeps.ite
    | with_reducible apply State.dropInflight_keeps
    | with_reducible apply abandonFrame_keeps
    | with_reducible apply checkedClaim_keeps
    | with_reducible apply checkedLearn_keeps
    | with_reducible apply lateChecks_keeps
    | with_reducible apply linkChecked_keeps
    | with_reducible apply rxRecord_keeps
    | dsimp only
    | split
    | (with_reducible refine Keeps.ofPair (by assumption) ?_)

theorem effReceivedAndChecked_keeps {m : Nat} {s t : State} {a0 : Nat} (h : Keeps m s t)
    (hm : Sub 0xc315b600 m) : Keeps m s (effReceivedAndChecked a0 t) := by
  unfold effReceivedAndChecked
  try dsimp only
  repeat' first
    | with_reducible exact h
    | exact Sub.trans (Sub.of (by decide)) hm
    | with_reducible apply Keeps.ite
    | with_reducible apply State.dropInflight_keeps
    | with_reducible apply abandonFrame_keeps
    | with_reducible apply checkFrame_keeps
    | split

theorem issueFrame_keeps {m : Nat} {s t : State} {a0 : Nat} {a1 : Nat} {a2 : Bool} {a3 : Bytes} (h : Keeps m s t)
    (hm : Sub 0x600 m) : Keeps m s (issueFrame a0 a1 a2 a3 t) := by
  unfold issueFrame
  try dsimp only
  repeat' first
    | with_reducible exact h
    | exact Sub.trans (Sub.of (by decide)) hm
    | with_reducible apply Keeps.ite
    | with_reducible apply admitFrame_keeps
    | with_reducible apply linkFrame_keeps
    | dsimp only
    | split
    | (with_reducible refine Keeps.ofPair (by assumption) ?_)
    | with_reducible apply Keeps.setFabric

end Sys2Proof.Machine
end

