-- ==== Sys2Proof/Laws/Gates.lean ====
section
/-!
SUPPORT. What each operation of Machine/Gates.lean may change: the parts of the state in the set `hm`, no others, the invariant
kept. Cite these lemmas; do not unfold the operations.
-/
namespace Sys2Proof.Machine

theorem State.updGate_keeps {m : Nat} {s t : State} {a1 : Nat} {a2 : Gate → Gate} (h : Keeps m s t)
    (hm : Sub 0x4000 m) : Keeps m s (State.updGate t a1 a2) := by
  unfold State.updGate
  try dsimp only
  repeat' first
    | with_reducible exact h
    | exact Sub.trans (Sub.of (by decide)) hm
    | with_reducible apply Keeps.setGates

theorem foldl_memWrite_wf {α : Type} (f : α → Nat) (g : α → Bytes) (l : List α) (m : List Host.Cell)
    (h : Memory.wf m = true) : Memory.wf (l.foldl (fun m e => memWrite m (f e) (g e)) m) = true := by
  induction l generalizing m with
  | nil => exact h
  | cons x r ih => exact ih _ (memWrite_wf _ _ h)

theorem writeMasters_keeps {m : Nat} {s t : State} {a0 : List (Nat × Nat × GList)} (h : Keeps m s t)
    (hm : Sub 0x10000000 m) : Keeps m s (writeMasters a0 t) := by
  unfold writeMasters
  exact h.setMem hm (foldl_memWrite_wf _ _ _ _)

theorem moveQuarter_keeps {m : Nat} {s t : State} {a0 : Nat} {a1 : Nat} {a2 : Nat} (h : Keeps m s t)
    (hm : Sub 0x4000 m) : Keeps m s (moveQuarter a0 a1 a2 t) := by
  unfold moveQuarter
  try dsimp only
  repeat' first
    | with_reducible exact h
    | exact Sub.trans (Sub.of (by decide)) hm
    | with_reducible apply Keeps.ite
    | with_reducible apply State.updGate_keeps
    | dsimp only
    | split

theorem decisionRecord_keeps {m : Nat} {s t : State} {a0 : Nat} {a1 : Nat} {a2 : Carriage} {a3 : Nat} {a4 : Int} (h : Keeps m s t)
    (hm : Sub 0x40000 m) : Keeps m s (decisionRecord a0 a1 a2 a3 a4 t) := by
  unfold decisionRecord
  try dsimp only
  repeat' first
    | with_reducible exact h
    | exact Sub.trans (Sub.of (by decide)) hm
    | with_reducible apply Keeps.ite
    | with_reducible apply State.updPair_keeps
    | dsimp only

theorem recordRef_keeps {m : Nat} {s t : State} {a0 : Nat} {a1 : Nat} {a2 : Int} {a4 : Ref} (h : Keeps m s t)
    (hm : Sub 0x40000 m) : Keeps m s (recordRef a0 a1 a2 t a4) := by
  unfold recordRef
  try dsimp only
  repeat' first
    | with_reducible exact h
    | exact Sub.trans (Sub.of (by decide)) hm
    | with_reducible apply decisionRecord_keeps
    | split

theorem requestPage_keeps {m : Nat} {s t : State} {a0 : Nat} {a1 : Nat} {a2 : Nat} {a3 : Nat} (h : Keeps m s t)
    (hm : Sub 0x14000 m) : Keeps m s (requestPage a0 a1 a2 a3 t) := by
  unfold requestPage
  try dsimp only
  repeat' first
    | with_reducible exact h
    | with_reducible assumption
    | exact Sub.trans (Sub.of (by decide)) hm
    | (intro (_ : State) hu; first | with_reducible exact hu | skip)
    | exact id
    | exact fun _ h => h
    | with_reducible apply Keeps.ite
    | with_reducible apply State.updGate_keeps
    | with_reducible apply oweRequest_keeps
    | (with_reducible refine Keeps.foldl _ (fun _ _ _ => ?_) ?_)
    | dsimp only
    | split
    | (with_reducible refine Keeps.ofPair (by assumption) ?_)
    | (with_reducible refine Keeps.ofTriple (by assumption) ?_)

theorem dropPaging_keeps {m : Nat} {s t : State} {a0 : Nat} (h : Keeps m s t)
    (hm : Sub 0x14000 m) : Keeps m s (dropPaging a0 t) := by
  unfold dropPaging
  try dsimp only
  repeat' first
    | with_reducible exact h
    | exact Sub.trans (Sub.of (by decide)) hm
    | with_reducible apply State.updGate_keeps
    | dsimp only
    | with_reducible apply Keeps.setDma

theorem requestPages_keeps {m : Nat} {s t : State} {a0 : Nat} {a1 : GList} {a2 : Nat} {a3 : List Nat} (h : Keeps m s t)
    (hm : Sub 0x14000 m) : Keeps m s (requestPages a0 a1 a2 a3 t) := by
  unfold requestPages
  try dsimp only
  repeat' first
    | with_reducible exact h
    | with_reducible assumption
    | exact Sub.trans (Sub.of (by decide)) hm
    | (intro (_ : State) hu; first | with_reducible exact hu | skip)
    | exact id
    | exact fun _ h => h
    | with_reducible apply Keeps.ite
    | with_reducible apply requestPage_keeps
    | (with_reducible refine Keeps.foldl _ (fun _ _ _ => ?_) ?_)
    | dsimp only
    | split
    | (with_reducible refine Keeps.ofPair (by assumption) ?_)
    | (with_reducible refine Keeps.ofTriple (by assumption) ?_)

theorem startPage_keeps {m : Nat} {s t : State} {a0 : Nat} {a1 : GList} {a2 : Nat} (h : Keeps m s t)
    (hm : Sub 0x14000 m) : Keeps m s (startPage a0 a1 a2 t) := by
  unfold startPage
  try dsimp only
  repeat' first
    | with_reducible exact h
    | exact Sub.trans (Sub.of (by decide)) hm
    | with_reducible apply Keeps.ite
    | with_reducible apply State.updGate_keeps
    | with_reducible apply requestPages_keeps
    | dsimp only

theorem effPageArrived_keeps {m : Nat} {s t : State} {a0 : Nat} {a1 : Nat} {a2 : Bool} (h : Keeps m s t)
    (hm : Sub 0x4200 m) : Keeps m s (effPageArrived a0 a1 a2 t) := by
  unfold effPageArrived
  try dsimp only
  repeat' first
    | with_reducible exact h
    | with_reducible assumption
    | exact Sub.trans (Sub.of (by decide)) hm
    | (intro (_ : State) hu; first | with_reducible exact hu | skip)
    | exact id
    | exact fun _ h => h
    | with_reducible apply Keeps.ite
    | with_reducible apply State.bumpPort_keeps
    | with_reducible apply State.updGate_keeps
    | with_reducible apply moveQuarter_keeps
    | (with_reducible refine Keeps.foldl _ (fun _ _ _ => ?_) ?_)
    | dsimp only
    | split
    | (with_reducible refine Keeps.ofPair (by assumption) ?_)
    | (with_reducible refine Keeps.ofTriple (by assumption) ?_)

theorem refitStop_keeps {m : Nat} {s t : State} {a0 : Nat} (h : Keeps m s t)
    (hm : Sub 0x800 m) : Keeps m s (refitStop a0 t) := by
  unfold refitStop
  try dsimp only
  repeat' first
    | with_reducible exact h
    | exact Sub.trans (Sub.of (by decide)) hm
    | with_reducible apply Keeps.ite
    | with_reducible apply State.updPort_keeps
    | split

theorem periodDrop_keeps {m : Nat} {s t : State} {a0 : Nat} {a1 : Nat} {a2 : Int} (h : Keeps m s t)
    (hm : Sub 0x40600 m) : Keeps m s (periodDrop a0 a1 a2 t) := by
  unfold periodDrop
  try dsimp only
  repeat' first
    | with_reducible exact h
    | with_reducible assumption
    | exact Sub.trans (Sub.of (by decide)) hm
    | (intro (_ : State) hu; first | with_reducible exact hu | skip)
    | exact id
    | exact fun _ h => h
    | with_reducible apply Keeps.ite
    | with_reducible apply emptyQueue_keeps
    | with_reducible apply recordRef_keeps
    | with_reducible apply unlinkWhere_keeps
    | (with_reducible refine Keeps.foldl _ (fun _ _ _ => ?_) ?_)
    | dsimp only
    | split
    | (with_reducible refine Keeps.ofPair (by assumption) ?_)
    | (with_reducible refine Keeps.ofTriple (by assumption) ?_)

theorem takeChange_keeps {m : Nat} {s t : State} {a0 : Nat} {a1 : GList} {a2 : Nat} (h : Keeps m s t)
    (hm : Sub 0x1014200 m) : Keeps m s (takeChange a0 a1 a2 t) := by
  unfold takeChange
  try dsimp only
  repeat' first
    | with_reducible exact h
    | exact Sub.trans (Sub.of (by decide)) hm
    | with_reducible apply Keeps.ite
    | with_reducible apply State.bumpPort_keeps
    | with_reducible apply State.updGate_keeps
    | with_reducible apply dropPaging_keeps
    | with_reducible apply pulse_keeps
    | with_reducible apply requestPages_keeps
    | dsimp only

theorem latePage_keeps {m : Nat} {s t : State} {a0 : Nat} {a1 : GList} (h : Keeps m s t)
    (hm : Sub 0xc3054a00 m) : Keeps m s (latePage a0 a1 t) := by
  unfold latePage
  try dsimp only
  repeat' first
    | with_reducible exact h
    | exact Sub.trans (Sub.of (by decide)) hm
    | with_reducible apply Keeps.ite
    | with_reducible apply State.bumpPort_keeps
    | with_reducible apply State.updGate_keeps
    | with_reducible apply detectFault_keeps
    | with_reducible apply disturbDigest_keeps
    | with_reducible apply dropPaging_keeps
    | with_reducible apply pulse_keeps
    | with_reducible apply refitStop_keeps
    | with_reducible apply requestPages_keeps
    | dsimp only

theorem takeStarts.startList_keeps {m : Nat} {s t : State} {a0 : Nat} {a1 : Gate} (h : Keeps m s t)
    (hm : Sub 0x4000 m) : Keeps m s (takeStarts.startList a0 a1 t) := by
  unfold takeStarts.startList
  try dsimp only
  repeat' first
    | with_reducible exact h
    | exact Sub.trans (Sub.of (by decide)) hm
    | with_reducible apply Keeps.ite
    | with_reducible apply State.updGate_keeps
    | dsimp only
    | split

theorem takeStarts_keeps {m : Nat} {s t : State} {a0 : Nat} (h : Keeps m s t)
    (hm : Sub 0x1014200 m) : Keeps m s (takeStarts a0 t) := by
  unfold takeStarts
  try dsimp only
  repeat' first
    | with_reducible exact h
    | exact Sub.trans (Sub.of (by decide)) hm
    | with_reducible apply Keeps.ite
    | with_reducible apply takeChange_keeps
    | with_reducible apply takeStarts.startList_keeps
    | dsimp only
    | split

theorem applyHold_keeps {m : Nat} {s t : State} {a0 : Nat} (h : Keeps m s t)
    (hm : Sub 0x4a00 m) : Keeps m s (applyHold a0 t) := by
  unfold applyHold
  try dsimp only
  repeat' first
    | with_reducible exact h
    | exact Sub.trans (Sub.of (by decide)) hm
    | with_reducible apply Keeps.ite
    | with_reducible apply State.bumpPort_keeps
    | with_reducible apply State.updGate_keeps
    | with_reducible apply holdFragment_keeps
    | dsimp only

theorem closeFragment_keeps {m : Nat} {s t : State} {a0 : Nat} {a1 : Nat} (h : Keeps m s t)
    (hm : Sub 0x800 m) : Keeps m s (closeFragment a0 a1 t) := by
  unfold closeFragment
  try dsimp only
  repeat' first
    | with_reducible exact h
    | exact Sub.trans (Sub.of (by decide)) hm
    | with_reducible apply Keeps.ite
    | with_reducible apply State.updPort_keeps
    | split

theorem reanchor_keeps {m : Nat} {s t : State} {a0 : Nat} {a1 : GList} (h : Keeps m s t)
    (hm : Sub 0x4000 m) : Keeps m s (reanchor a0 a1 t) := by
  unfold reanchor
  try dsimp only
  repeat' first
    | with_reducible exact h
    | exact Sub.trans (Sub.of (by decide)) hm
    | with_reducible apply Keeps.ite
    | with_reducible apply State.updGate_keeps
    | dsimp only

theorem enterEntry_keeps {m : Nat} {s t : State} {a0 : Nat} (h : Keeps m s t)
    (hm : Sub 0xc3054a00 m) : Keeps m s (enterEntry a0 t) := by
  unfold enterEntry
  try dsimp only
  repeat' first
    | with_reducible exact h
    | exact Sub.trans (Sub.of (by decide)) hm
    | with_reducible apply Keeps.ite
    | with_reducible apply latePage_keeps
    | with_reducible apply startPage_keeps
    | dsimp only
    | split

theorem gateTick_keeps {m : Nat} {s t : State} {a0 : Nat} (h : Keeps m s t)
    (hm : Sub 0xc3054e00 m) : Keeps m s (gateTick a0 t) := by
  unfold gateTick
  try dsimp only
  repeat' first
    | with_reducible exact h
    | with_reducible assumption
    | exact Sub.trans (Sub.of (by decide)) hm
    | (intro (_ : State) hu; first | with_reducible exact hu | skip)
    | exact id
    | exact fun _ h => h
    | with_reducible apply Keeps.ite
    | with_reducible apply State.updGate_keeps
    | with_reducible apply applyHold_keeps
    | with_reducible apply closeFragment_keeps
    | with_reducible apply enterEntry_keeps
    | with_reducible apply periodDrop_keeps
    | with_reducible apply reanchor_keeps
    | with_reducible apply takeStarts_keeps
    | (with_reducible refine Keeps.foldl _ (fun _ _ _ => ?_) ?_)
    | dsimp only
    | split
    | (with_reducible refine Keeps.ofPair (by assumption) ?_)
    | (with_reducible refine Keeps.ofTriple (by assumption) ?_)

theorem effGateEntryTransition_keeps {m : Nat} {s t : State} {a0 : Nat} (h : Keeps m s t)
    (hm : Sub 0xc3054e00 m) : Keeps m s (effGateEntryTransition a0 t) := by
  unfold effGateEntryTransition
  try dsimp only
  repeat' first
    | with_reducible exact h
    | exact Sub.trans (Sub.of (by decide)) hm
    | with_reducible apply gateTick_keeps

theorem effGateConfigChange_keeps {m : Nat} {s t : State} {a0 : Nat} (h : Keeps m s t)
    (hm : Sub 0xc3054e00 m) : Keeps m s (effGateConfigChange a0 t) := by
  unfold effGateConfigChange
  try dsimp only
  repeat' first
    | with_reducible exact h
    | exact Sub.trans (Sub.of (by decide)) hm
    | with_reducible apply Keeps.ite
    | with_reducible apply gateTick_keeps
    | split

theorem buildMasters_keeps {m : Nat} {s t : State} (h : Keeps m s t)
    (hm : Sub 0x10000000 m) : Keeps m s (buildMasters t) := by
  unfold buildMasters
  try dsimp only
  repeat' first
    | with_reducible exact h
    | exact Sub.trans (Sub.of (by decide)) hm
    | with_reducible apply writeMasters_keeps

theorem settleMasters_keeps {m : Nat} {s t : State} (h : Keeps m s t)
    (hm : Sub 0x10004000 m) : Keeps m s (settleMasters t) := by
  unfold settleMasters
  try dsimp only
  repeat' first
    | with_reducible exact h
    | with_reducible assumption
    | exact Sub.trans (Sub.of (by decide)) hm
    | (intro (_ : State) hu; first | with_reducible exact hu | skip)
    | exact id
    | exact fun _ h => h
    | with_reducible apply Keeps.ite
    | with_reducible apply State.updGate_keeps
    | with_reducible apply writeMasters_keeps
    | (with_reducible refine Keeps.foldl _ (fun _ _ _ => ?_) ?_)
    | dsimp only
    | split
    | (with_reducible refine Keeps.ofPair (by assumption) ?_)
    | (with_reducible refine Keeps.ofTriple (by assumption) ?_)

theorem stageMasters_keeps {m : Nat} {s t : State} {a0 : Image} (h : Keeps m s t)
    (hm : Sub 0x10004000 m) : Keeps m s (stageMasters a0 t) := by
  unfold stageMasters
  try dsimp only
  repeat' first
    | with_reducible exact h
    | exact Sub.trans (Sub.of (by decide)) hm
    | with_reducible apply Keeps.ite
    | with_reducible apply settleMasters_keeps
    | with_reducible apply writeMasters_keeps
    | dsimp only

theorem startGate_keeps {m : Nat} {s t : State} {a0 : Nat} (h : Keeps m s t)
    (hm : Sub 0xc3054e00 m) : Keeps m s (startGate a0 t) := by
  unfold startGate
  try dsimp only
  repeat' first
    | with_reducible exact h
    | exact Sub.trans (Sub.of (by decide)) hm
    | with_reducible apply Keeps.ite
    | with_reducible apply gateTick_keeps
    | with_reducible apply requestPages_keeps
    | dsimp only
    | with_reducible apply Keeps.setGates

theorem startGates_keeps {m : Nat} {s t : State} (h : Keeps m s t)
    (hm : Sub 0xc3054e00 m) : Keeps m s (startGates t) := by
  unfold startGates
  try dsimp only
  repeat' first
    | with_reducible exact h
    | with_reducible assumption
    | exact Sub.trans (Sub.of (by decide)) hm
    | (intro (_ : State) hu; first | with_reducible exact hu | skip)
    | exact id
    | exact fun _ h => h
    | with_reducible apply Keeps.ite
    | with_reducible apply startGate_keeps
    | (with_reducible refine Keeps.foldl _ (fun _ _ _ => ?_) ?_)
    | dsimp only
    | split
    | (with_reducible refine Keeps.ofPair (by assumption) ?_)
    | (with_reducible refine Keeps.ofTriple (by assumption) ?_)
    | with_reducible apply Keeps.setGates

theorem stopGates_keeps {m : Nat} {s t : State} (h : Keeps m s t)
    (hm : Sub 0x4000 m) : Keeps m s (stopGates t) := by
  unfold stopGates
  try dsimp only
  repeat' first
    | with_reducible exact h
    | exact Sub.trans (Sub.of (by decide)) hm
    | with_reducible apply Keeps.setGates

theorem changeGate_keeps {m : Nat} {s t : State} {a0 : Image} {a2 : Nat} (h : Keeps m s t)
    (hm : Sub 0xc3054e00 m) : Keeps m s (changeGate a0 t a2) := by
  unfold changeGate
  try dsimp only
  repeat' first
    | with_reducible exact h
    | exact Sub.trans (Sub.of (by decide)) hm
    | with_reducible apply Keeps.ite
    | with_reducible apply State.updGate_keeps
    | with_reducible apply gateTick_keeps
    | dsimp only

theorem cutGate_keeps {m : Nat} {s t : State} {a0 : Image} {a2 : Nat} (h : Keeps m s t)
    (hm : Sub 0xc3054e00 m) : Keeps m s (cutGate a0 t a2) := by
  unfold cutGate
  try dsimp only
  repeat' first
    | with_reducible exact h
    | exact Sub.trans (Sub.of (by decide)) hm
    | with_reducible apply Keeps.ite
    | with_reducible apply changeGate_keeps
    | with_reducible apply refitStop_keeps
    | dsimp only

theorem gatesCutover_keeps {m : Nat} {s t : State} {a0 : Image} (h : Keeps m s t)
    (hm : Sub 0xd3054e00 m) : Keeps m s (gatesCutover a0 t) := by
  unfold gatesCutover
  try dsimp only
  repeat' first
    | with_reducible exact h
    | with_reducible assumption
    | exact Sub.trans (Sub.of (by decide)) hm
    | (intro (_ : State) hu; first | with_reducible exact hu | skip)
    | exact id
    | exact fun _ h => h
    | with_reducible apply Keeps.ite
    | with_reducible apply buildMasters_keeps
    | with_reducible apply cutGate_keeps
    | (with_reducible refine Keeps.foldl _ (fun _ _ _ => ?_) ?_)
    | dsimp only
    | split
    | (with_reducible refine Keeps.ofPair (by assumption) ?_)
    | (with_reducible refine Keeps.ofTriple (by assumption) ?_)

theorem gatesStep_keeps {m : Nat} {s t : State} {a0 : Nat} (h : Keeps m s t)
    (hm : Sub 0xc3054e00 m) : Keeps m s (gatesStep a0 t) := by
  unfold gatesStep
  try dsimp only
  repeat' first
    | with_reducible exact h
    | with_reducible assumption
    | exact Sub.trans (Sub.of (by decide)) hm
    | (intro (_ : State) hu; first | with_reducible exact hu | skip)
    | exact id
    | exact fun _ h => h
    | with_reducible apply Keeps.ite
    | with_reducible apply gateTick_keeps
    | (with_reducible refine Keeps.foldl _ (fun _ _ _ => ?_) ?_)
    | dsimp only
    | split
    | (with_reducible refine Keeps.ofPair (by assumption) ?_)
    | (with_reducible refine Keeps.ofTriple (by assumption) ?_)

end Sys2Proof.Machine
end

