-- ==== Sys2Proof/Laws/Dma.lean ====
section
/-!
SUPPORT. What each operation of Machine/Dma.lean may change: the parts of the state in the set `hm`, no others, the invariant
kept. Cite these lemmas; do not unfold the operations.
-/
namespace Sys2Proof.Machine

theorem State.updChan_keeps {m : Nat} {s t : State} {a1 : Nat} {a2 : Chan → Chan} (h : Keeps m s t)
    (hm : Sub 0x10000 m) : Keeps m s (State.updChan t a1 a2) := by
  unfold State.updChan
  try dsimp only
  repeat' first
    | with_reducible exact h
    | exact Sub.trans (Sub.of (by decide)) hm
    | with_reducible apply Keeps.setDma

theorem chanWrite_keeps {m : Nat} {s t : State} {a0 : Nat} {a1 : Nat} {a2 : State → State} (h : Keeps m s t)
    (h2 : ∀ u0, Keeps m s u0 → Keeps m s (a2 u0))
    (hm : Sub 0x8800000c m) : Keeps m s (chanWrite a0 a1 a2 t) := by
  unfold chanWrite
  try dsimp only
  repeat' first
    | with_reducible exact h
    | with_reducible assumption
    | exact Sub.trans (Sub.of (by decide)) hm
    | with_reducible apply Keeps.ite
    | with_reducible apply denyWrite_keeps
    | with_reducible apply refuseBar_keeps
    | with_reducible apply h2

theorem addReads_keeps {m : Nat} {s t : State} {a0 : Nat} {a1 : Nat} (h : Keeps m s t)
    (hm : Sub 0x8000000 m) : Keeps m s (addReads a0 a1 t) := by
  unfold addReads
  try dsimp only
  repeat' first
    | with_reducible exact h
    | exact Sub.trans (Sub.of (by decide)) hm
    | with_reducible apply State.updPf_keeps

theorem endReads_keeps {m : Nat} {s t : State} {a0 : Nat} {a1 : Nat} (h : Keeps m s t)
    (hm : Sub 0x8000000 m) : Keeps m s (endReads a0 a1 t) := by
  unfold endReads
  try dsimp only
  repeat' first
    | with_reducible exact h
    | exact Sub.trans (Sub.of (by decide)) hm
    | with_reducible apply State.updPf_keeps

theorem dropFetch_keeps {m : Nat} {s t : State} {a0 : Nat} (h : Keeps m s t)
    (hm : Sub 0x8010000 m) : Keeps m s (dropFetch a0 t) := by
  unfold dropFetch
  try dsimp only
  repeat' first
    | with_reducible exact h
    | exact Sub.trans (Sub.of (by decide)) hm
    | with_reducible apply State.updChan_keeps
    | with_reducible apply endReads_keeps
    | split

theorem dropBarriers_keeps {m : Nat} {s t : State} {a0 : Nat} (h : Keeps m s t)
    (hm : Sub 0x8000000 m) : Keeps m s (dropBarriers a0 t) := by
  unfold dropBarriers
  try dsimp only
  repeat' first
    | with_reducible exact h
    | with_reducible assumption
    | exact Sub.trans (Sub.of (by decide)) hm
    | (intro (_ : State) hu; first | with_reducible exact hu | skip)
    | exact id
    | exact fun _ h => h
    | exact memWrite_wf _ _
    | with_reducible apply Keeps.ite
    | with_reducible apply endReads_keeps
    | (with_reducible refine Keeps.foldl _ (fun _ _ _ => ?_) ?_)
    | dsimp only
    | split
    | (with_reducible refine Keeps.ofPair (by assumption) ?_)
    | (with_reducible refine Keeps.ofTriple (by assumption) ?_)

theorem readLost_keeps {m : Nat} {s t : State} {a0 : Nat} (h : Keeps m s t)
    (hm : Sub 0x8800000c m) : Keeps m s (readLost a0 t) := by
  unfold readLost
  try dsimp only
  repeat' first
    | with_reducible exact h
    | exact Sub.trans (Sub.of (by decide)) hm
    | with_reducible apply noteAer_keeps
    | with_reducible apply noteTimeout_keeps

theorem readSpoilt_keeps {m : Nat} {s t : State} {a0 : Nat} {a1 : Bool} (h : Keeps m s t)
    (hm : Sub 0x8800000c m) : Keeps m s (readSpoilt a0 a1 t) := by
  unfold readSpoilt
  try dsimp only
  repeat' first
    | with_reducible exact h
    | exact Sub.trans (Sub.of (by decide)) hm
    | with_reducible apply Keeps.ite
    | with_reducible apply noteAer_keeps
    | with_reducible apply notePoisoned_keeps

theorem askHost_keeps {m : Nat} {s t : State} {a0 : Nat} {a1 : Nat} {a2 : Nat} {a3 : Nat} {a4 : Nat} (h : Keeps m s t)
    (hm : Sub 0x8000008 m) : Keeps m s (askHost a0 a1 a2 a3 a4 t) := by
  unfold askHost
  try dsimp only
  repeat' first
    | with_reducible exact h
    | with_reducible assumption
    | exact Sub.trans (Sub.of (by decide)) hm
    | (intro (_ : State) hu; first | with_reducible exact hu | skip)
    | exact id
    | exact fun _ h => h
    | exact memWrite_wf _ _
    | with_reducible apply Keeps.ite
    | with_reducible apply State.emit_keeps
    | with_reducible apply addReads_keeps
    | (with_reducible refine Keeps.foldl _ (fun _ _ _ => ?_) ?_)
    | dsimp only
    | split
    | (with_reducible refine Keeps.ofPair (by assumption) ?_)
    | (with_reducible refine Keeps.ofTriple (by assumption) ?_)

theorem chanStore_keeps {m : Nat} {s t : State} {a0 : Nat} {a1 : Bool} {a2 : Nat} {a3 : Bytes} (h : Keeps m s t)
    (hm : Sub 0x10800008 m) : Keeps m s (chanStore a0 a1 a2 a3 t) := by
  unfold chanStore
  try dsimp only
  repeat' first
    | with_reducible exact h
    | with_reducible assumption
    | exact Sub.trans (Sub.of (by decide)) hm
    | (intro (_ : State) hu; first | with_reducible exact hu | skip)
    | exact id
    | exact fun _ h => h
    | exact memWrite_wf _ _
    | with_reducible apply Keeps.ite
    | with_reducible apply State.emit_keeps
    | with_reducible apply devWrite_keeps
    | (with_reducible refine Keeps.foldl _ (fun _ _ _ => ?_) ?_)
    | dsimp only
    | split
    | (with_reducible refine Keeps.ofPair (by assumption) ?_)
    | (with_reducible refine Keeps.ofTriple (by assumption) ?_)

theorem freeTag_keeps {m : Nat} {s t : State} {a0 : Nat} (h : Keeps m s t)
    (hm : Sub 0x10000 m) : Keeps m s (freeTag a0 t) := by
  unfold freeTag
  try dsimp only
  repeat' first
    | with_reducible exact h
    | exact Sub.trans (Sub.of (by decide)) hm
    | with_reducible apply Keeps.setDma

theorem abortBursts_keeps {m : Nat} {s t : State} {a0 : Nat} (h : Keeps m s t)
    (hm : Sub 0x10000 m) : Keeps m s (abortBursts a0 t) := by
  unfold abortBursts
  try dsimp only
  repeat' first
    | with_reducible exact h
    | exact Sub.trans (Sub.of (by decide)) hm
    | with_reducible apply Keeps.ite
    | dsimp only
    | with_reducible apply Keeps.setDma

theorem freeWritten_keeps {m : Nat} {s t : State} {a0 : Nat} {a1 : Nat} (h : Keeps m s t)
    (hm : Sub 0x10000 m) : Keeps m s (freeWritten a0 a1 t) := by
  unfold freeWritten
  try dsimp only
  repeat' first
    | with_reducible exact h
    | exact Sub.trans (Sub.of (by decide)) hm
    | with_reducible apply Keeps.setDma

theorem endPartFrame_keeps {m : Nat} {s t : State} {a0 : Nat} (h : Keeps m s t)
    (hm : Sub 0x200 m) : Keeps m s (endPartFrame a0 t) := by
  unfold endPartFrame
  try dsimp only
  repeat' first
    | with_reducible exact h
    | exact Sub.trans (Sub.of (by decide)) hm
    | with_reducible apply Keeps.ite
    | with_reducible apply State.bumpPort_keeps
    | split

theorem haltChan_keeps {m : Nat} {s t : State} {a0 : Nat} {a1 : Nat} {a2 : Nat} (h : Keeps m s t)
    (hm : Sub 0xcb010200 m) : Keeps m s (haltChan a0 a1 a2 t) := by
  unfold haltChan
  try dsimp only
  repeat' first
    | with_reducible exact h
    | exact Sub.trans (Sub.of (by decide)) hm
    | with_reducible apply Keeps.ite
    | with_reducible apply State.bumpK_keeps
    | with_reducible apply State.updChan_keeps
    | with_reducible apply abortBursts_keeps
    | with_reducible apply detectFault_keeps
    | with_reducible apply dropBarriers_keeps
    | with_reducible apply dropFetch_keeps
    | with_reducible apply endPartFrame_keeps
    | with_reducible apply pulse_keeps
    | dsimp only

theorem startFetch_keeps {m : Nat} {s t : State} {a0 : Nat} (h : Keeps m s t)
    (hm : Sub 0xcb010208 m) : Keeps m s (startFetch a0 t) := by
  unfold startFetch
  try dsimp only
  repeat' first
    | with_reducible exact h
    | exact Sub.trans (Sub.of (by decide)) hm
    | with_reducible apply Keeps.ite
    | with_reducible apply State.emit_keeps
    | with_reducible apply State.updChan_keeps
    | with_reducible apply addReads_keeps
    | with_reducible apply haltChan_keeps
    | dsimp only
    | split

theorem settle_keeps {m : Nat} {s t : State} {a0 : Nat} (h : Keeps m s t)
    (hm : Sub 0xcb010208 m) : Keeps m s (settle a0 t) := by
  unfold settle
  try dsimp only
  repeat' first
    | with_reducible exact h
    | exact Sub.trans (Sub.of (by decide)) hm
    | with_reducible apply Keeps.ite
    | with_reducible apply State.updChan_keeps
    | with_reducible apply dropFetch_keeps
    | with_reducible apply startFetch_keeps
    | dsimp only

theorem askBarrier_keeps {m : Nat} {s t : State} {a0 : Nat} {a1 : Nat} {a2 : Fin} (h : Keeps m s t)
    (hm : Sub 0x8000008 m) : Keeps m s (askBarrier a0 a1 a2 t) := by
  unfold askBarrier
  try dsimp only
  repeat' first
    | with_reducible exact h
    | exact Sub.trans (Sub.of (by decide)) hm
    | with_reducible apply Keeps.ite
    | with_reducible apply State.emit_keeps
    | with_reducible apply addReads_keeps

theorem pushFin_keeps {m : Nat} {s t : State} {a0 : Nat} {a1 : Fin} (h : Keeps m s t)
    (hm : Sub 0x8010008 m) : Keeps m s (pushFin a0 a1 t) := by
  unfold pushFin
  try dsimp only
  repeat' first
    | with_reducible exact h
    | exact Sub.trans (Sub.of (by decide)) hm
    | with_reducible apply Keeps.ite
    | with_reducible apply State.updChan_keeps
    | with_reducible apply askBarrier_keeps
    | dsimp only

theorem finishData_keeps {m : Nat} {s t : State} {a0 : Nat} {a1 : Desc} (h : Keeps m s t)
    (hm : Sub 0xdb810208 m) : Keeps m s (finishData a0 a1 t) := by
  unfold finishData
  try dsimp only
  repeat' first
    | with_reducible exact h
    | exact Sub.trans (Sub.of (by decide)) hm
    | with_reducible apply Keeps.ite
    | with_reducible apply chanStore_keeps
    | with_reducible apply haltChan_keeps
    | with_reducible apply pushFin_keeps
    | dsimp only
    | split

theorem startMemory_keeps {m : Nat} {s t : State} {a0 : Nat} {a1 : Desc} (h : Keeps m s t)
    (hm : Sub 0xdb810208 m) : Keeps m s (startMemory a0 a1 t) := by
  unfold startMemory
  try dsimp only
  repeat' first
    | with_reducible exact h
    | exact Sub.trans (Sub.of (by decide)) hm
    | with_reducible apply Keeps.ite
    | with_reducible apply State.updChan_keeps
    | with_reducible apply finishData_keeps
    | dsimp only

theorem dropTx_keeps {m : Nat} {s t : State} {a0 : Nat} {a1 : List Desc} (h : Keeps m s t)
    (hm : Sub 0x10200 m) : Keeps m s (dropTx a0 a1 t) := by
  unfold dropTx
  try dsimp only
  repeat' first
    | with_reducible exact h
    | exact Sub.trans (Sub.of (by decide)) hm
    | with_reducible apply State.bumpK_keeps
    | with_reducible apply State.updChan_keeps
    | dsimp only

theorem txGathered_keeps {m : Nat} {s t : State} {a0 : Nat} {a1 : Desc} (h : Keeps m s t)
    (hm : Sub 0xcb010208 m) : Keeps m s (txGathered a0 a1 t) := by
  unfold txGathered
  try dsimp only
  repeat' first
    | with_reducible exact h
    | exact Sub.trans (Sub.of (by decide)) hm
    | with_reducible apply Keeps.ite
    | with_reducible apply State.updChan_keeps
    | with_reducible apply dropTx_keeps
    | with_reducible apply settle_keeps
    | with_reducible apply startFetch_keeps
    | dsimp only
    | split

theorem startTx_keeps {m : Nat} {s t : State} {a0 : Nat} {a1 : Desc} (h : Keeps m s t)
    (hm : Sub 0xcb010208 m) : Keeps m s (startTx a0 a1 t) := by
  unfold startTx
  try dsimp only
  repeat' first
    | with_reducible exact h
    | exact Sub.trans (Sub.of (by decide)) hm
    | with_reducible apply Keeps.ite
    | with_reducible apply State.updChan_keeps
    | with_reducible apply dropTx_keeps
    | with_reducible apply txGathered_keeps
    | dsimp only
    | split

theorem gotDesc_keeps {m : Nat} {s t : State} {a0 : Nat} {a1 : Desc} (h : Keeps m s t)
    (hm : Sub 0xdb810208 m) : Keeps m s (gotDesc a0 a1 t) := by
  unfold gotDesc
  try dsimp only
  repeat' first
    | with_reducible exact h
    | exact Sub.trans (Sub.of (by decide)) hm
    | with_reducible apply Keeps.ite
    | with_reducible apply State.updChan_keeps
    | with_reducible apply haltChan_keeps
    | with_reducible apply startFetch_keeps
    | with_reducible apply startMemory_keeps
    | with_reducible apply startTx_keeps
    | dsimp only

theorem effDescriptorFetched_keeps {m : Nat} {s t : State} {a0 : Nat} {a1 : ReadEnd} (h : Keeps m s t)
    (hm : Sub 0xdb81020c m) : Keeps m s (effDescriptorFetched a0 a1 t) := by
  unfold effDescriptorFetched
  try dsimp only
  repeat' first
    | with_reducible exact h
    | exact Sub.trans (Sub.of (by decide)) hm
    | with_reducible apply Keeps.ite
    | with_reducible apply State.updChan_keeps
    | with_reducible apply dropFetch_keeps
    | with_reducible apply gotDesc_keeps
    | with_reducible apply haltChan_keeps
    | with_reducible apply memUncorrectable_keeps
    | with_reducible apply readSpoilt_keeps
    | dsimp only
    | split

theorem putReqs_keeps {m : Nat} {s t : State} {a0 : Nat} {a1 : List Req} (h : Keeps m s t)
    (hm : Sub 0x10000 m) : Keeps m s (putReqs a0 a1 t) := by
  unfold putReqs
  try dsimp only
  repeat' first
    | with_reducible exact h
    | exact Sub.trans (Sub.of (by decide)) hm
    | with_reducible apply Keeps.setDma

theorem purgeLine_keeps {m : Nat} {s t : State} {a0 : Nat} (h : Keeps m s t)
    (hm : Sub 0x10200 m) : Keeps m s (purgeLine a0 t) := by
  unfold purgeLine
  try dsimp only
  repeat' first
    | with_reducible exact h
    | exact Sub.trans (Sub.of (by decide)) hm
    | with_reducible apply Keeps.ite
    | with_reducible apply State.bumpBy_keeps
    | with_reducible apply putReqs_keeps
    | dsimp only

theorem purgeLines_keeps {m : Nat} {s t : State} (h : Keeps m s t)
    (hm : Sub 0x10200 m) : Keeps m s (purgeLines t) := by
  unfold purgeLines
  try dsimp only
  repeat' first
    | with_reducible exact h
    | with_reducible assumption
    | exact Sub.trans (Sub.of (by decide)) hm
    | (intro (_ : State) hu; first | with_reducible exact hu | skip)
    | exact id
    | exact fun _ h => h
    | exact memWrite_wf _ _
    | with_reducible apply Keeps.ite
    | with_reducible apply purgeLine_keeps
    | (with_reducible refine Keeps.foldl _ (fun _ _ _ => ?_) ?_)
    | dsimp only
    | split
    | (with_reducible refine Keeps.ofPair (by assumption) ?_)
    | (with_reducible refine Keeps.ofTriple (by assumption) ?_)

theorem issuePage_keeps {m : Nat} {s t : State} {a0 : Nat} {a1 : Nat} (h : Keeps m s t)
    (hm : Sub 0x10200 m) : Keeps m s (issuePage a0 a1 t) := by
  unfold issuePage
  try dsimp only
  repeat' first
    | with_reducible exact h
    | exact Sub.trans (Sub.of (by decide)) hm
    | with_reducible apply State.bumpK_keeps
    | with_reducible apply putReqs_keeps
    | dsimp only
    | split
    | with_reducible apply Keeps.setDma

theorem takeFifo_keeps {m : Nat} {s t : State} {a0 : Nat} {a1 : Nat} (h : Keeps m s t)
    (hm : Sub 0x81018200 m) : Keeps m s (takeFifo a0 a1 t).2 := by
  unfold takeFifo
  try dsimp only
  repeat' first
    | with_reducible exact h
    | exact Sub.trans (Sub.of (by decide)) hm
    | with_reducible apply Keeps.ite
    | with_reducible apply Keeps.iteSnd
    | with_reducible apply dropRecords_keeps
    | dsimp only

theorem issueBurst_keeps {m : Nat} {s t : State} {a0 : Nat} {a1 : Nat} {a2 : Offer} (h : Keeps m s t)
    (hm : Sub 0xcb018208 m) : Keeps m s (issueBurst a0 a1 a2 t) := by
  unfold issueBurst
  try dsimp only
  repeat' first
    | with_reducible exact h
    | exact Sub.trans (Sub.of (by decide)) hm
    | with_reducible apply Keeps.ite
    | with_reducible apply State.bumpK_keeps
    | with_reducible apply State.updChan_keeps
    | with_reducible apply askHost_keeps
    | with_reducible apply haltChan_keeps
    | with_reducible apply putReqs_keeps
    | with_reducible apply takeFifo_keeps
    | dsimp only
    | split
    | (with_reducible refine Keeps.ofPair (by assumption) ?_)
    | with_reducible apply Keeps.setDma

theorem effBurstGrant_keeps {m : Nat} {s t : State} (h : Keeps m s t)
    (hm : Sub 0xcb018208 m) : Keeps m s (effBurstGrant t) := by
  unfold effBurstGrant
  try dsimp only
  repeat' first
    | with_reducible exact h
    | exact Sub.trans (Sub.of (by decide)) hm
    | with_reducible apply Keeps.ite
    | with_reducible apply issueBurst_keeps
    | with_reducible apply issuePage_keeps
    | with_reducible apply purgeLines_keeps
    | dsimp only
    | split

theorem retireTag_keeps {m : Nat} {s t : State} {a0 : Nat} {a1 : Burst} {a2 : Bool} (h : Keeps m s t)
    (hm : Sub 0x10000 m) : Keeps m s (retireTag a0 a1 a2 t) := by
  unfold retireTag
  try dsimp only
  repeat' first
    | with_reducible exact h
    | exact Sub.trans (Sub.of (by decide)) hm
    | with_reducible apply Keeps.ite
    | with_reducible apply freeTag_keeps
    | with_reducible apply Keeps.setDma

theorem writeBurst_keeps {m : Nat} {s t : State} {a0 : Nat} {a1 : Burst} {a2 : Bytes} (h : Keeps m s t)
    (hm : Sub 0xdb810208 m) : Keeps m s (writeBurst a0 a1 a2 t) := by
  unfold writeBurst
  try dsimp only
  repeat' first
    | with_reducible exact h
    | exact Sub.trans (Sub.of (by decide)) hm
    | with_reducible apply Keeps.ite
    | with_reducible apply State.bumpBy_keeps
    | with_reducible apply State.updChan_keeps
    | with_reducible apply chanStore_keeps
    | with_reducible apply finishData_keeps
    | with_reducible apply freeTag_keeps
    | with_reducible apply haltChan_keeps
    | with_reducible apply retireTag_keeps
    | with_reducible apply txGathered_keeps
    | dsimp only
    | split

theorem drainWrites_keeps {m : Nat} {s t : State} {a0 : Nat} {a1 : Nat} (h : Keeps m s t)
    (hm : Sub 0xdb810208 m) : Keeps m s (drainWrites a0 a1 t) := by
  induction a1 generalizing t a0 with
  | zero =>
    unfold drainWrites
    repeat' first
      | with_reducible exact h
      | exact Sub.trans (Sub.of (by decide)) hm
      | with_reducible apply writeBurst_keeps
      | split
  | succ _ ih =>
    unfold drainWrites
    try dsimp only
    repeat' first
      | with_reducible exact h
      | exact Sub.trans (Sub.of (by decide)) hm
      | with_reducible apply ih
      | with_reducible apply writeBurst_keeps
      | split

theorem burstArrived_keeps {m : Nat} {s t : State} {a0 : Nat} {a1 : Burst} {a2 : Bytes} (h : Keeps m s t)
    (hm : Sub 0xdb810208 m) : Keeps m s (burstArrived a0 a1 a2 t) := by
  unfold burstArrived
  try dsimp only
  repeat' first
    | with_reducible exact h
    | exact Sub.trans (Sub.of (by decide)) hm
    | with_reducible apply drainWrites_keeps
    | with_reducible apply settle_keeps
    | dsimp only
    | with_reducible apply Keeps.setDma

theorem pageRead_keeps {m : Nat} {s t : State} {a0 : Nat} {a1 : Burst} {a2 : ReadEnd} (h : Keeps m s t)
    (hm : Sub 0xd3014200 m) : Keeps m s (pageRead a0 a1 a2 t) := by
  unfold pageRead
  try dsimp only
  repeat' first
    | with_reducible exact h
    | exact Sub.trans (Sub.of (by decide)) hm
    | with_reducible apply Keeps.ite
    | with_reducible apply State.bumpBy_keeps
    | with_reducible apply freeTag_keeps
    | with_reducible apply memUncorrectable_keeps
    | with_reducible apply moveQuarter_keeps
    | dsimp only
    | split

theorem effBurstReadDone_keeps {m : Nat} {s t : State} {a0 : Nat} {a1 : ReadEnd} (h : Keeps m s t)
    (hm : Sub 0xdb81420c m) : Keeps m s (effBurstReadDone a0 a1 t) := by
  unfold effBurstReadDone
  try dsimp only
  repeat' first
    | with_reducible exact h
    | exact Sub.trans (Sub.of (by decide)) hm
    | with_reducible apply Keeps.ite
    | with_reducible apply burstArrived_keeps
    | with_reducible apply endReads_keeps
    | with_reducible apply freeTag_keeps
    | with_reducible apply haltChan_keeps
    | with_reducible apply memUncorrectable_keeps
    | with_reducible apply pageRead_keeps
    | with_reducible apply readSpoilt_keeps
    | dsimp only
    | split

theorem effLateCompletion_keeps {m : Nat} {s t : State} {a0 : Nat} (h : Keeps m s t)
    (hm : Sub 0x801020c m) : Keeps m s (effLateCompletion a0 t) := by
  unfold effLateCompletion
  try dsimp only
  repeat' first
    | with_reducible exact h
    | exact Sub.trans (Sub.of (by decide)) hm
    | with_reducible apply Keeps.ite
    | with_reducible apply State.bumpK_keeps
    | with_reducible apply endReads_keeps
    | with_reducible apply freeTag_keeps
    | with_reducible apply noteAer_keeps
    | dsimp only
    | split

theorem holdTag_keeps {m : Nat} {s t : State} {a0 : Nat} {a1 : Desc} {a2 : Prod Nat Nat} (h : Keeps m s t)
    (hm : Sub 0x10000 m) : Keeps m s (holdTag a0 a1 a2 t) := by
  unfold holdTag
  try dsimp only
  repeat' first
    | with_reducible exact h
    | exact Sub.trans (Sub.of (by decide)) hm
    | dsimp only
    | split
    | with_reducible apply Keeps.setDma

theorem placePiece_keeps {m : Nat} {s t : State} {a0 : Nat} {a1 : Fin} {a2 : Bytes} (h : Keeps m s t)
    (hm : Sub 0x18810208 m) : Keeps m s (placePiece a0 a1 a2 t) := by
  unfold placePiece
  try dsimp only
  repeat' first
    | with_reducible exact h
    | with_reducible assumption
    | exact Sub.trans (Sub.of (by decide)) hm
    | (intro (_ : State) hu; first | with_reducible exact hu | skip)
    | exact id
    | exact fun _ h => h
    | exact memWrite_wf _ _
    | with_reducible apply Keeps.ite
    | with_reducible apply State.bumpBy_keeps
    | with_reducible apply chanStore_keeps
    | with_reducible apply holdTag_keeps
    | with_reducible apply pushFin_keeps
    | (with_reducible refine Keeps.foldl _ (fun _ _ _ => ?_) ?_)
    | dsimp only
    | split
    | (with_reducible refine Keeps.ofPair (by assumption) ?_)
    | (with_reducible refine Keeps.ofTriple (by assumption) ?_)

theorem placeMore_keeps {m : Nat} {s t : State} {a0 : Nat} {a1 : Nat} (h : Keeps m s t)
    (hm : Sub 0xdb810208 m) : Keeps m s (placeMore a0 a1 t) := by
  induction a1 generalizing t a0 with
  | zero =>
    unfold placeMore
    repeat' first
      | with_reducible exact h
      | exact Sub.trans (Sub.of (by decide)) hm
      | with_reducible apply haltChan_keeps
      | with_reducible apply placePiece_keeps
      | with_reducible apply State.updChan_keeps
      | with_reducible apply Keeps.ite
      | split
  | succ _ ih =>
    unfold placeMore
    try dsimp only
    repeat' first
      | with_reducible exact h
      | exact Sub.trans (Sub.of (by decide)) hm
      | with_reducible apply ih
      | with_reducible apply haltChan_keeps
      | with_reducible apply placePiece_keeps
      | with_reducible apply State.updChan_keeps
      | with_reducible apply Keeps.ite
      | split

theorem State.updFin_keeps {m : Nat} {s t : State} {a1 : Nat} {a2 : Fin → Fin} (h : Keeps m s t)
    (hm : Sub 0x10000 m) : Keeps m s (State.updFin t a1 a2) := by
  unfold State.updFin
  try dsimp only
  repeat' first
    | with_reducible exact h
    | exact Sub.trans (Sub.of (by decide)) hm
    | with_reducible apply State.updChan_keeps
    | split

theorem finDone_keeps {m : Nat} {s t : State} {a0 : Nat} (h : Keeps m s t)
    (hm : Sub 0xcb010208 m) : Keeps m s (finDone a0 t) := by
  unfold finDone
  try dsimp only
  repeat' first
    | with_reducible exact h
    | exact Sub.trans (Sub.of (by decide)) hm
    | with_reducible apply Keeps.ite
    | with_reducible apply State.updChan_keeps
    | with_reducible apply pulse_keeps
    | with_reducible apply settle_keeps
    | with_reducible apply startFetch_keeps
    | dsimp only

theorem passBarrier_keeps {m : Nat} {s t : State} {a0 : Nat} {a1 : Fin} (h : Keeps m s t)
    (hm : Sub 0xdb810208 m) : Keeps m s (passBarrier a0 a1 t) := by
  unfold passBarrier
  try dsimp only
  repeat' first
    | with_reducible exact h
    | exact Sub.trans (Sub.of (by decide)) hm
    | with_reducible apply Keeps.ite
    | with_reducible apply State.updChan_keeps
    | with_reducible apply endReads_keeps
    | with_reducible apply freeWritten_keeps
    | with_reducible apply placeMore_keeps
    | with_reducible apply settle_keeps
    | dsimp only

theorem writeAcked_keeps {m : Nat} {s t : State} {a0 : Nat} (h : Keeps m s t)
    (hm : Sub 0x10000 m) : Keeps m s (writeAcked a0 t) := by
  unfold writeAcked
  try dsimp only
  repeat' first
    | with_reducible exact h
    | exact Sub.trans (Sub.of (by decide)) hm
    | with_reducible apply freeTag_keeps
    | split

theorem effWriteAcknowledged_keeps {m : Nat} {s t : State} {a0 : Nat} (h : Keeps m s t)
    (hm : Sub 0xdb810208 m) : Keeps m s (effWriteAcknowledged a0 t) := by
  unfold effWriteAcknowledged
  try dsimp only
  repeat' first
    | with_reducible exact h
    | exact Sub.trans (Sub.of (by decide)) hm
    | with_reducible apply Keeps.ite
    | with_reducible apply finDone_keeps
    | with_reducible apply passBarrier_keeps
    | with_reducible apply writeAcked_keeps
    | split

theorem writeBack_keeps {m : Nat} {s t : State} {a0 : Nat} {a1 : Fin} (h : Keeps m s t)
    (hm : Sub 0x10800008 m) : Keeps m s (writeBack a0 a1 t) := by
  unfold writeBack
  try dsimp only
  repeat' first
    | with_reducible exact h
    | exact Sub.trans (Sub.of (by decide)) hm
    | with_reducible apply chanStore_keeps
    | dsimp only
    | split

theorem effDescriptorComplete_keeps {m : Nat} {s t : State} {a0 : Nat} (h : Keeps m s t)
    (hm : Sub 0xdb810208 m) : Keeps m s (effDescriptorComplete a0 t) := by
  unfold effDescriptorComplete
  try dsimp only
  repeat' first
    | with_reducible exact h
    | exact Sub.trans (Sub.of (by decide)) hm
    | with_reducible apply Keeps.ite
    | with_reducible apply State.bumpK_keeps
    | with_reducible apply State.updChan_keeps
    | with_reducible apply State.updFin_keeps
    | with_reducible apply finDone_keeps
    | with_reducible apply haltChan_keeps
    | with_reducible apply writeBack_keeps
    | dsimp only
    | split

theorem effHostTxFrame_keeps {m : Nat} {s t : State} {a0 : Nat} (h : Keeps m s t)
    (hm : Sub 0xcb010608 m) : Keeps m s (effHostTxFrame a0 t) := by
  unfold effHostTxFrame
  try dsimp only
  repeat' first
    | with_reducible exact h
    | exact Sub.trans (Sub.of (by decide)) hm
    | with_reducible apply Keeps.ite
    | with_reducible apply State.updChan_keeps
    | with_reducible apply enterFrame_keeps
    | with_reducible apply settle_keeps
    | with_reducible apply startFetch_keeps
    | dsimp only
    | split

theorem rxReserve_keeps {m : Nat} {s t u : State} {c len : Nat} (h : Keeps m s t) (hm : Sub 0xcb010208 m)
    (e : rxReserve c len t = some u) : Keeps m s u := by
  unfold rxReserve at e
  dsimp only at e
  split at e
  · split at e
    · rw [← Option.some.inj e]
      have k := fun f => State.updChan_keeps (a1 := c) (a2 := f) h (Sub.trans (Sub.of (by decide)) hm)
      exact Keeps.ite (startFetch_keeps (k _) hm) (k _)
    · cases e
  · cases e

theorem rxDeliver_keeps {m : Nat} {s t : State} {a0 : Nat} {a1 : Carriage} {a2 : Bool} {a3 : Bytes} (h : Keeps m s t)
    (hm : Sub 0xdb810208 m) : Keeps m s (rxDeliver a0 a1 a2 a3 t) := by
  unfold rxDeliver
  try dsimp only
  repeat' first
    | with_reducible exact h
    | with_reducible assumption
    | exact Sub.trans (Sub.of (by decide)) hm
    | (intro (_ : State) hu; first | with_reducible exact hu | skip)
    | exact id
    | exact fun _ h => h
    | exact memWrite_wf _ _
    | with_reducible apply Keeps.ite
    | with_reducible apply State.updChan_keeps
    | with_reducible apply placeMore_keeps
    | with_reducible apply settle_keeps
    | (with_reducible refine Keeps.foldl _ (fun _ _ _ => ?_) ?_)
    | dsimp only
    | split
    | (with_reducible refine Keeps.ofPair (by assumption) ?_)
    | (with_reducible refine Keeps.ofTriple (by assumption) ?_)

theorem effRun_keeps {m : Nat} {s t : State} {a0 : Nat} {a1 : Nat} (h : Keeps m s t)
    (hm : Sub 0xcb01020c m) : Keeps m s (effRun a0 a1 t) := by
  unfold effRun
  try dsimp only
  repeat' first
    | with_reducible exact h
    | with_reducible assumption
    | exact Sub.trans (Sub.of (by decide)) hm
    | (intro (_ : State) hu; first | with_reducible exact hu | skip)
    | exact id
    | exact fun _ h => h
    | exact memWrite_wf _ _
    | with_reducible apply Keeps.ite
    | with_reducible apply State.updChan_keeps
    | with_reducible apply chanWrite_keeps
    | with_reducible apply startFetch_keeps
    | (with_reducible refine Keeps.foldl _ (fun _ _ _ => ?_) ?_)
    | dsimp only
    | split
    | (with_reducible refine Keeps.ofPair (by assumption) ?_)
    | (with_reducible refine Keeps.ofTriple (by assumption) ?_)

theorem carryOn_keeps {m : Nat} {s t : State} {a0 : Nat} (h : Keeps m s t)
    (hm : Sub 0xcb010208 m) : Keeps m s (carryOn a0 t) := by
  unfold carryOn
  try dsimp only
  repeat' first
    | with_reducible exact h
    | exact Sub.trans (Sub.of (by decide)) hm
    | with_reducible apply Keeps.ite
    | with_reducible apply State.updChan_keeps
    | with_reducible apply dropFetch_keeps
    | with_reducible apply settle_keeps
    | with_reducible apply startFetch_keeps
    | dsimp only
    | split

theorem effPause_keeps {m : Nat} {s t : State} {a0 : Nat} {a1 : Nat} {a2 : Bool} (h : Keeps m s t)
    (hm : Sub 0xcb01020c m) : Keeps m s (effPause a0 a1 a2 t) := by
  unfold effPause
  try dsimp only
  repeat' first
    | with_reducible exact h
    | with_reducible assumption
    | exact Sub.trans (Sub.of (by decide)) hm
    | (intro (_ : State) hu; first | with_reducible exact hu | skip)
    | exact id
    | exact fun _ h => h
    | exact memWrite_wf _ _
    | with_reducible apply Keeps.ite
    | with_reducible apply State.updChan_keeps
    | with_reducible apply carryOn_keeps
    | with_reducible apply chanWrite_keeps
    | with_reducible apply settle_keeps
    | with_reducible apply startFetch_keeps
    | (with_reducible refine Keeps.foldl _ (fun _ _ _ => ?_) ?_)
    | dsimp only
    | split
    | (with_reducible refine Keeps.ofPair (by assumption) ?_)
    | (with_reducible refine Keeps.ofTriple (by assumption) ?_)

theorem effAbort_keeps {m : Nat} {s t : State} {a0 : Nat} {a1 : Nat} (h : Keeps m s t)
    (hm : Sub 0xcb01020c m) : Keeps m s (effAbort a0 a1 t) := by
  unfold effAbort
  try dsimp only
  repeat' first
    | with_reducible exact h
    | with_reducible assumption
    | exact Sub.trans (Sub.of (by decide)) hm
    | (intro (_ : State) hu; first | with_reducible exact hu | skip)
    | exact id
    | exact fun _ h => h
    | exact memWrite_wf _ _
    | with_reducible apply Keeps.ite
    | with_reducible apply chanWrite_keeps
    | with_reducible apply haltChan_keeps
    | (with_reducible refine Keeps.foldl _ (fun _ _ _ => ?_) ?_)
    | dsimp only
    | split
    | (with_reducible refine Keeps.ofPair (by assumption) ?_)
    | (with_reducible refine Keeps.ofTriple (by assumption) ?_)

theorem dmaReset_keeps {m : Nat} {s t : State} {a0 : Nat} (h : Keeps m s t)
    (hm : Sub 0x8010200 m) : Keeps m s (dmaReset a0 t) := by
  unfold dmaReset
  try dsimp only
  repeat' first
    | with_reducible exact h
    | exact Sub.trans (Sub.of (by decide)) hm
    | with_reducible apply State.updChan_keeps
    | with_reducible apply abortBursts_keeps
    | with_reducible apply dropBarriers_keeps
    | with_reducible apply dropFetch_keeps
    | with_reducible apply endPartFrame_keeps

theorem effChannelReset_keeps {m : Nat} {s t : State} {a0 : Nat} {a1 : Nat} (h : Keeps m s t)
    (hm : Sub 0x8801020c m) : Keeps m s (effChannelReset a0 a1 t) := by
  unfold effChannelReset
  try dsimp only
  repeat' first
    | with_reducible exact h
    | with_reducible assumption
    | exact Sub.trans (Sub.of (by decide)) hm
    | (intro (_ : State) hu; first | with_reducible exact hu | skip)
    | exact id
    | exact fun _ h => h
    | exact memWrite_wf _ _
    | with_reducible apply Keeps.ite
    | with_reducible apply chanWrite_keeps
    | with_reducible apply dmaReset_keeps
    | (with_reducible refine Keeps.foldl _ (fun _ _ _ => ?_) ?_)
    | dsimp only
    | split
    | (with_reducible refine Keeps.ofPair (by assumption) ?_)
    | (with_reducible refine Keeps.ofTriple (by assumption) ?_)

theorem retryFetch_keeps {m : Nat} {s t : State} {a0 : Nat} (h : Keeps m s t)
    (hm : Sub 0xcb010208 m) : Keeps m s (retryFetch a0 t) := by
  unfold retryFetch
  try dsimp only
  repeat' first
    | with_reducible exact h
    | exact Sub.trans (Sub.of (by decide)) hm
    | with_reducible apply Keeps.ite
    | with_reducible apply startFetch_keeps

theorem effDoorbell_keeps {m : Nat} {s t : State} {a0 : Nat} {a1 : Nat} (h : Keeps m s t)
    (hm : Sub 0xcb01020c m) : Keeps m s (effDoorbell a0 a1 t) := by
  unfold effDoorbell
  try dsimp only
  repeat' first
    | with_reducible exact h
    | with_reducible assumption
    | exact Sub.trans (Sub.of (by decide)) hm
    | (intro (_ : State) hu; first | with_reducible exact hu | skip)
    | exact id
    | exact fun _ h => h
    | exact memWrite_wf _ _
    | with_reducible apply Keeps.ite
    | with_reducible apply chanWrite_keeps
    | with_reducible apply retryFetch_keeps
    | (with_reducible refine Keeps.foldl _ (fun _ _ _ => ?_) ?_)
    | dsimp only
    | split
    | (with_reducible refine Keeps.ofPair (by assumption) ?_)
    | (with_reducible refine Keeps.ofTriple (by assumption) ?_)

theorem kickChan_keeps {m : Nat} {s t : State} {a1 : Nat} (h : Keeps m s t)
    (hm : Sub 0xcb010208 m) : Keeps m s (kickChan t a1) := by
  unfold kickChan
  try dsimp only
  repeat' first
    | with_reducible exact h
    | exact Sub.trans (Sub.of (by decide)) hm
    | with_reducible apply Keeps.ite
    | with_reducible apply State.updChan_keeps
    | with_reducible apply askBarrier_keeps
    | with_reducible apply startFetch_keeps
    | dsimp only
    | split

theorem kickReads_keeps {m : Nat} {s t : State} (h : Keeps m s t)
    (hm : Sub 0xcb010208 m) : Keeps m s (kickReads t) := by
  unfold kickReads
  try dsimp only
  repeat' first
    | with_reducible exact h
    | with_reducible assumption
    | exact Sub.trans (Sub.of (by decide)) hm
    | (intro (_ : State) hu; first | with_reducible exact hu | skip)
    | exact id
    | exact fun _ h => h
    | exact memWrite_wf _ _
    | with_reducible apply Keeps.ite
    | with_reducible apply kickChan_keeps
    | (with_reducible refine Keeps.foldl _ (fun _ _ _ => ?_) ?_)
    | dsimp only
    | split
    | (with_reducible refine Keeps.ofPair (by assumption) ?_)
    | (with_reducible refine Keeps.ofTriple (by assumption) ?_)

theorem effPollIntervalExpiry_keeps {m : Nat} {s t : State} {a0 : Nat} (h : Keeps m s t)
    (hm : Sub 0xcb010208 m) : Keeps m s (effPollIntervalExpiry a0 t) := by
  unfold effPollIntervalExpiry
  try dsimp only
  repeat' first
    | with_reducible exact h
    | exact Sub.trans (Sub.of (by decide)) hm
    | with_reducible apply Keeps.ite
    | with_reducible apply retryFetch_keeps
    | dsimp only

theorem dmaRegWrite_keeps {m : Nat} {s t : State} {a0 : Nat} {a1 : Nat} {a2 : Nat} (h : Keeps m s t)
    (hm : Sub 0x10000 m) : Keeps m s (dmaRegWrite a0 a1 a2 t) := by
  unfold dmaRegWrite
  try dsimp only
  repeat' first
    | with_reducible exact h
    | exact Sub.trans (Sub.of (by decide)) hm
    | with_reducible apply Keeps.ite
    | with_reducible apply State.updChan_keeps

theorem effDmaTimeout_keeps {m : Nat} {s t : State} {a0 : Nat} (h : Keeps m s t)
    (hm : Sub 0xcb01020c m) : Keeps m s (effDmaTimeout a0 t) := by
  unfold effDmaTimeout
  try dsimp only
  repeat' first
    | with_reducible exact h
    | exact Sub.trans (Sub.of (by decide)) hm
    | with_reducible apply Keeps.ite
    | with_reducible apply haltChan_keeps
    | with_reducible apply readLost_keeps
    | split

theorem effRequestPulse_keeps {m : Nat} {s t : State} {a0 : Nat} (h : Keeps m s t)
    (hm : Sub 0x10200 m) : Keeps m s (effRequestPulse a0 t) := by
  unfold effRequestPulse
  try dsimp only
  repeat' first
    | with_reducible exact h
    | exact Sub.trans (Sub.of (by decide)) hm
    | with_reducible apply Keeps.ite
    | with_reducible apply State.bumpK_keeps
    | with_reducible apply purgeLine_keeps
    | with_reducible apply putReqs_keeps
    | dsimp only
    | split
    | with_reducible apply Keeps.setDma

theorem effRequestExpired_keeps {m : Nat} {s t : State} {a0 : Nat} (h : Keeps m s t)
    (hm : Sub 0x10200 m) : Keeps m s (effRequestExpired a0 t) := by
  unfold effRequestExpired
  try dsimp only
  repeat' first
    | with_reducible exact h
    | exact Sub.trans (Sub.of (by decide)) hm
    | with_reducible apply State.bumpK_keeps
    | with_reducible apply putReqs_keeps
    | split

theorem lineRequests_keeps {m : Nat} {s t : State} {a0 : Nat} (h : Keeps m s t)
    (hm : Sub 0x10000 m) : Keeps m s (lineRequests a0 t) := by
  unfold lineRequests
  try dsimp only
  repeat' first
    | with_reducible exact h
    | with_reducible assumption
    | exact Sub.trans (Sub.of (by decide)) hm
    | (intro (_ : State) hu; first | with_reducible exact hu | skip)
    | exact id
    | exact fun _ h => h
    | exact memWrite_wf _ _
    | with_reducible apply Keeps.ite
    | with_reducible apply oweRequest_keeps
    | (with_reducible refine Keeps.foldl _ (fun _ _ _ => ?_) ?_)
    | dsimp only
    | split
    | (with_reducible refine Keeps.ofPair (by assumption) ?_)
    | (with_reducible refine Keeps.ofTriple (by assumption) ?_)

theorem dmaLoad_keeps {m : Nat} {s t : State} (h : Keeps m s t)
    (hm : Sub 0x8010200 m) : Keeps m s (dmaLoad t) := by
  unfold dmaLoad
  try dsimp only
  repeat' first
    | with_reducible exact h
    | with_reducible assumption
    | exact Sub.trans (Sub.of (by decide)) hm
    | (intro (_ : State) hu; first | with_reducible exact hu | skip)
    | exact id
    | exact fun _ h => h
    | exact memWrite_wf _ _
    | with_reducible apply Keeps.ite
    | with_reducible apply dmaReset_keeps
    | (with_reducible refine Keeps.foldl _ (fun _ _ _ => ?_) ?_)
    | dsimp only
    | split
    | (with_reducible refine Keeps.ofPair (by assumption) ?_)
    | (with_reducible refine Keeps.ofTriple (by assumption) ?_)

theorem cutChan_keeps {m : Nat} {s t : State} {a0 : Image} {a2 : Nat} (h : Keeps m s t)
    (hm : Sub 0xcb010200 m) : Keeps m s (cutChan a0 t a2) := by
  unfold cutChan
  try dsimp only
  repeat' first
    | with_reducible exact h
    | exact Sub.trans (Sub.of (by decide)) hm
    | with_reducible apply Keeps.ite
    | with_reducible apply haltChan_keeps
    | dsimp only

theorem dmaCutover_keeps {m : Nat} {s t : State} {a0 : Image} (h : Keeps m s t)
    (hm : Sub 0xcb010200 m) : Keeps m s (dmaCutover a0 t) := by
  unfold dmaCutover
  try dsimp only
  repeat' first
    | with_reducible exact h
    | with_reducible assumption
    | exact Sub.trans (Sub.of (by decide)) hm
    | (intro (_ : State) hu; first | with_reducible exact hu | skip)
    | exact id
    | exact fun _ h => h
    | exact memWrite_wf _ _
    | with_reducible apply Keeps.ite
    | with_reducible apply cutChan_keeps
    | (with_reducible refine Keeps.foldl _ (fun _ _ _ => ?_) ?_)
    | dsimp only
    | split
    | (with_reducible refine Keeps.ofPair (by assumption) ?_)
    | (with_reducible refine Keeps.ofTriple (by assumption) ?_)

theorem dmaFunctionReset_keeps {m : Nat} {s t : State} {a0 : Nat} (h : Keeps m s t)
    (hm : Sub 0xcb010200 m) : Keeps m s (dmaFunctionReset a0 t) := by
  unfold dmaFunctionReset
  try dsimp only
  repeat' first
    | with_reducible exact h
    | with_reducible assumption
    | exact Sub.trans (Sub.of (by decide)) hm
    | (intro (_ : State) hu; first | with_reducible exact hu | skip)
    | exact id
    | exact fun _ h => h
    | exact memWrite_wf _ _
    | with_reducible apply Keeps.ite
    | with_reducible apply haltChan_keeps
    | (with_reducible refine Keeps.foldl _ (fun _ _ _ => ?_) ?_)
    | dsimp only
    | split
    | (with_reducible refine Keeps.ofPair (by assumption) ?_)
    | (with_reducible refine Keeps.ofTriple (by assumption) ?_)

end Sys2Proof.Machine
end

