-- ==== Sys2Proof/Laws/Egress.lean ====
section
/-!
SUPPORT. What each operation of Machine/Egress.lean may change: the parts of the state in the set `hm`, no others, the invariant
kept. Cite these lemmas; do not unfold the operations.
-/
namespace Sys2Proof.Machine

theorem resetShaper_keeps {m : Nat} {s t : State} {a0 : Nat} {a1 : Nat} (h : Keeps m s t)
    (hm : Sub 0x400 m) : Keeps m s (resetShaper a0 a1 t) := by
  unfold resetShaper
  try dsimp only
  repeat' first
    | with_reducible exact h
    | exact Sub.trans (Sub.of (by decide)) hm
    | with_reducible apply Keeps.ite
    | with_reducible apply State.updQueue_keeps

theorem endShapers_keeps {m : Nat} {s t : State} (h : Keeps m s t)
    (hm : Sub 0x400 m) : Keeps m s (endShapers t) := by
  unfold endShapers
  try dsimp only
  repeat' first
    | with_reducible exact h
    | with_reducible assumption
    | exact Sub.trans (Sub.of (by decide)) hm
    | (intro (_ : State) hu; first | with_reducible exact hu | skip)
    | exact id
    | exact fun _ h => h
    | with_reducible apply Keeps.ite
    | with_reducible apply State.updQueue_keeps
    | (with_reducible refine Keeps.foldl _ (fun _ _ _ => ?_) ?_)
    | dsimp only
    | split
    | (with_reducible refine Keeps.ofPair (by assumption) ?_)
    | (with_reducible refine Keeps.ofTriple (by assumption) ?_)

theorem tickShapers_keeps {m : Nat} {s t : State} (h : Keeps m s t)
    (hm : Sub 0x400 m) : Keeps m s (tickShapers t) := by
  unfold tickShapers
  try dsimp only
  repeat' first
    | with_reducible exact h
    | with_reducible assumption
    | exact Sub.trans (Sub.of (by decide)) hm
    | (intro (_ : State) hu; first | with_reducible exact hu | skip)
    | exact id
    | exact fun _ h => h
    | with_reducible apply Keeps.ite
    | with_reducible apply State.updQueue_keeps
    | (with_reducible refine Keeps.foldl _ (fun _ _ _ => ?_) ?_)
    | dsimp only
    | split
    | (with_reducible refine Keeps.ofPair (by assumption) ?_)
    | (with_reducible refine Keeps.ofTriple (by assumption) ?_)

theorem resetShapers_keeps {m : Nat} {s t : State} (h : Keeps m s t)
    (hm : Sub 0x400 m) : Keeps m s (resetShapers t) := by
  unfold resetShapers
  try dsimp only
  repeat' first
    | with_reducible exact h
    | with_reducible assumption
    | exact Sub.trans (Sub.of (by decide)) hm
    | (intro (_ : State) hu; first | with_reducible exact hu | skip)
    | exact id
    | exact fun _ h => h
    | with_reducible apply Keeps.ite
    | with_reducible apply resetShaper_keeps
    | (with_reducible refine Keeps.foldl _ (fun _ _ _ => ?_) ?_)
    | dsimp only
    | split
    | (with_reducible refine Keeps.ofPair (by assumption) ?_)
    | (with_reducible refine Keeps.ofTriple (by assumption) ?_)

theorem noteGuard_keeps {m : Nat} {s t : State} {a0 : Nat} {a1 : Nat} (h : Keeps m s t)
    (hm : Sub 0x600 m) : Keeps m s (noteGuard a0 a1 t) := by
  unfold noteGuard
  try dsimp only
  repeat' first
    | with_reducible exact h
    | exact Sub.trans (Sub.of (by decide)) hm
    | with_reducible apply Keeps.ite
    | with_reducible apply State.bumpPort_keeps
    | with_reducible apply State.updQueue_keeps
    | split

theorem dropOversize_keeps {m : Nat} {s t : State} {a0 : Nat} {a1 : Nat} (h : Keeps m s t)
    (hm : Sub 0x40600 m) : Keeps m s (dropOversize a0 a1 t) := by
  unfold dropOversize
  try dsimp only
  repeat' first
    | with_reducible exact h
    | exact Sub.trans (Sub.of (by decide)) hm
    | with_reducible apply Keeps.ite
    | with_reducible apply State.bumpPort_keeps
    | with_reducible apply emptyQueue_keeps
    | with_reducible apply recordRef_keeps
    | with_reducible apply unlinkRef_keeps
    | split

theorem testHeads_keeps {m : Nat} {s t : State} {a0 : Nat} (h : Keeps m s t)
    (hm : Sub 0x40600 m) : Keeps m s (testHeads a0 t) := by
  unfold testHeads
  try dsimp only
  repeat' first
    | with_reducible exact h
    | with_reducible assumption
    | exact Sub.trans (Sub.of (by decide)) hm
    | (intro (_ : State) hu; first | with_reducible exact hu | skip)
    | exact id
    | exact fun _ h => h
    | with_reducible apply Keeps.ite
    | with_reducible apply dropOversize_keeps
    | with_reducible apply noteGuard_keeps
    | (with_reducible refine Keeps.foldl _ (fun _ _ _ => ?_) ?_)
    | dsimp only
    | split
    | (with_reducible refine Keeps.ofPair (by assumption) ?_)
    | (with_reducible refine Keeps.ofTriple (by assumption) ?_)

theorem tickHead_keeps {m : Nat} {s t : State} {a1 : Prod Nat Nat} (h : Keeps m s t)
    (hm : Sub 0x40600 m) : Keeps m s (tickHead t a1) := by
  unfold tickHead
  try dsimp only
  repeat' first
    | with_reducible exact h
    | exact Sub.trans (Sub.of (by decide)) hm
    | with_reducible apply Keeps.ite
    | with_reducible apply State.bumpK_keeps
    | with_reducible apply dropOversize_keeps
    | with_reducible apply noteGuard_keeps
    | dsimp only

theorem State.updDrr_keeps {m : Nat} {s t : State} {a1 : Nat} {a2 : Drr → Drr} (h : Keeps m s t)
    (hm : Sub 0x400 m) : Keeps m s (State.updDrr t a1 a2) := by
  unfold State.updDrr
  try dsimp only
  repeat' first
    | with_reducible exact h
    | exact Sub.trans (Sub.of (by decide)) hm
    | with_reducible apply Keeps.setFabric

theorem selectDrr_keeps {m : Nat} {s t : State} {a0 : Nat} {a1 : List Nat} {a2 : Nat} (h : Keeps m s t)
    (hm : Sub 0x400 m) : Keeps m s (selectDrr a0 a1 a2 t).2 := by
  induction a2 generalizing t a0 a1 with
  | zero =>
    unfold selectDrr
    repeat' first
      | with_reducible exact h
      | exact Sub.trans (Sub.of (by decide)) hm
      | with_reducible apply State.updDrr_keeps
      | with_reducible apply State.updQueue_keeps
      | with_reducible apply Keeps.ite
      | with_reducible apply Keeps.iteSnd
      | dsimp only
  | succ _ ih =>
    unfold selectDrr
    try dsimp only
    repeat' first
      | with_reducible exact h
      | exact Sub.trans (Sub.of (by decide)) hm
      | with_reducible apply ih
      | with_reducible apply State.updDrr_keeps
      | with_reducible apply State.updQueue_keeps
      | with_reducible apply Keeps.ite
      | with_reducible apply Keeps.iteSnd
      | dsimp only

theorem choose_keeps {m : Nat} {s t : State} {a0 : Nat} (h : Keeps m s t)
    (hm : Sub 0x400 m) : Keeps m s (choose a0 t).2 := by
  unfold choose
  try dsimp only
  repeat' first
    | with_reducible exact h
    | exact Sub.trans (Sub.of (by decide)) hm
    | with_reducible apply Keeps.ite
    | with_reducible apply Keeps.iteSnd
    | with_reducible apply selectDrr_keeps
    | dsimp only
    | split
    | (with_reducible refine Keeps.ofPair (by assumption) ?_)

theorem debit_keeps {m : Nat} {s t : State} {a0 : Nat} {a1 : Nat} {a2 : Nat} (h : Keeps m s t)
    (hm : Sub 0x600 m) : Keeps m s (debit a0 a1 a2 t) := by
  unfold debit
  try dsimp only
  repeat' first
    | with_reducible exact h
    | exact Sub.trans (Sub.of (by decide)) hm
    | with_reducible apply Keeps.ite
    | with_reducible apply State.bumpBy_keeps
    | with_reducible apply State.bumpK_keeps
    | with_reducible apply State.updQueue_keeps
    | dsimp only

theorem emitPiece_keeps {m : Nat} {s t : State} {a0 : Nat} {a1 : Piece} {a2 : Bool} (h : Keeps m s t)
    (hm : Sub 0x81040e48 m) : Keeps m s (emitPiece a0 a1 a2 t) := by
  unfold emitPiece
  try dsimp only
  repeat' first
    | with_reducible exact h
    | exact Sub.trans (Sub.of (by decide)) hm
    | with_reducible apply Keeps.ite
    | with_reducible apply State.emit_keeps
    | with_reducible apply macTakes_keeps
    | dsimp only

theorem txRecords_keeps {m : Nat} {s t : State} {a0 : Nat} {a1 : Tx} (h : Keeps m s t)
    (hm : Sub 0xc3018200 m) : Keeps m s (txRecords a0 a1 t) := by
  unfold txRecords
  try dsimp only
  repeat' first
    | with_reducible exact h
    | exact Sub.trans (Sub.of (by decide)) hm
    | with_reducible apply Keeps.ite
    | with_reducible apply writeRecord_keeps
    | dsimp only
    | split

theorem txCounters_keeps {m : Nat} {s t : State} {a0 : Nat} {a1 : Tx} {a2 : Bool} (h : Keeps m s t)
    (hm : Sub 0x200 m) : Keeps m s (txCounters a0 a1 a2 t) := by
  unfold txCounters
  try dsimp only
  repeat' first
    | with_reducible exact h
    | exact Sub.trans (Sub.of (by decide)) hm
    | with_reducible apply Keeps.ite
    | with_reducible apply State.bumpPort_keeps
    | with_reducible apply State.bumpPortBy_keeps
    | dsimp only

theorem sendPiece_keeps {m : Nat} {s t : State} {a0 : Nat} {a1 : Piece} (h : Keeps m s t)
    (hm : Sub 0xc3058e48 m) : Keeps m s (sendPiece a0 a1 t) := by
  unfold sendPiece
  try dsimp only
  repeat' first
    | with_reducible exact h
    | exact Sub.trans (Sub.of (by decide)) hm
    | with_reducible apply Keeps.ite
    | with_reducible apply State.bumpPort_keeps
    | with_reducible apply emitPiece_keeps
    | with_reducible apply txCounters_keeps
    | with_reducible apply txRecords_keeps
    | dsimp only

theorem leave_keeps {m : Nat} {s t : State} {a0 : Nat} {a1 : List Piece} (h : Keeps m s t)
    (hm : Sub 0xc3058e48 m) : Keeps m s (leave a0 a1 t) := by
  induction a1 generalizing t a0 with
  | nil =>
    unfold leave
    repeat' first
      | with_reducible exact h
      | exact Sub.trans (Sub.of (by decide)) hm
      | with_reducible apply sendPiece_keeps
      | with_reducible apply State.updPort_keeps
      | with_reducible apply Keeps.ite
  | cons _ _ ih =>
    unfold leave
    try dsimp only
    repeat' first
      | with_reducible exact h
      | exact Sub.trans (Sub.of (by decide)) hm
      | with_reducible apply ih
      | with_reducible apply sendPiece_keeps
      | with_reducible apply State.updPort_keeps
      | with_reducible apply Keeps.ite

theorem handOn_keeps {m : Nat} {s t : State} {a0 : Nat} {a1 : Piece} (h : Keeps m s t)
    (hm : Sub 0xc3058e48 m) : Keeps m s (handOn a0 a1 t) := by
  unfold handOn
  try dsimp only
  repeat' first
    | with_reducible exact h
    | exact Sub.trans (Sub.of (by decide)) hm
    | with_reducible apply leave_keeps

theorem departPort_keeps {m : Nat} {s t : State} {a1 : Nat} (h : Keeps m s t)
    (hm : Sub 0xc3058e48 m) : Keeps m s (departPort t a1) := by
  unfold departPort
  try dsimp only
  repeat' first
    | with_reducible exact h
    | exact Sub.trans (Sub.of (by decide)) hm
    | with_reducible apply State.updPort_keeps
    | with_reducible apply leave_keeps
    | dsimp only

theorem departures_keeps {m : Nat} {s t : State} (h : Keeps m s t)
    (hm : Sub 0xc3058e48 m) : Keeps m s (departures t) := by
  unfold departures
  try dsimp only
  repeat' first
    | with_reducible exact h
    | with_reducible assumption
    | exact Sub.trans (Sub.of (by decide)) hm
    | (intro (_ : State) hu; first | with_reducible exact hu | skip)
    | exact id
    | exact fun _ h => h
    | with_reducible apply Keeps.ite
    | with_reducible apply departPort_keeps
    | (with_reducible refine Keeps.foldl _ (fun _ _ _ => ?_) ?_)
    | dsimp only
    | split
    | (with_reducible refine Keeps.ofPair (by assumption) ?_)
    | (with_reducible refine Keeps.ofTriple (by assumption) ?_)

theorem countEcc_keeps {m : Nat} {s t : State} {a0 : Stored} {a1 : Nat} {a2 : ReadBack} (h : Keeps m s t)
    (hm : Sub 0x200 m) : Keeps m s (countEcc a0 a1 a2 t) := by
  unfold countEcc
  try dsimp only
  repeat' first
    | with_reducible exact h
    | exact Sub.trans (Sub.of (by decide)) hm
    | with_reducible apply State.bumpBy_keeps
    | dsimp only

theorem endFragment_keeps {m : Nat} {s t : State} {a0 : Nat} {a1 : Nat} {a2 : Tx} {a3 : ReadBack} (h : Keeps m s t)
    (hm : Sub 0xc3058e48 m) : Keeps m s (endFragment a0 a1 a2 a3 t) := by
  unfold endFragment
  try dsimp only
  repeat' first
    | with_reducible exact h
    | exact Sub.trans (Sub.of (by decide)) hm
    | with_reducible apply State.updPort_keeps
    | with_reducible apply countEcc_keeps
    | with_reducible apply handOn_keeps
    | dsimp only

theorem preempt_keeps {m : Nat} {s t : State} {a0 : Nat} (h : Keeps m s t)
    (hm : Sub 0x800 m) : Keeps m s (preempt a0 t) := by
  unfold preempt
  try dsimp only
  repeat' first
    | with_reducible exact h
    | exact Sub.trans (Sub.of (by decide)) hm
    | with_reducible apply Keeps.ite
    | with_reducible apply State.updPort_keeps
    | split

theorem oweControl_keeps {m : Nat} {s t : State} {a0 : Nat} {a1 : Bool} (h : Keeps m s t)
    (hm : Sub 0x800 m) : Keeps m s (oweControl a0 a1 t) := by
  unfold oweControl
  try dsimp only
  repeat' first
    | with_reducible exact h
    | exact Sub.trans (Sub.of (by decide)) hm
    | with_reducible apply State.updPort_keeps

theorem takeVerify_keeps {m : Nat} {s t : State} {a0 : Nat} (h : Keeps m s t)
    (hm : Sub 0xa00 m) : Keeps m s (takeVerify a0 t) := by
  unfold takeVerify
  try dsimp only
  repeat' first
    | with_reducible exact h
    | exact Sub.trans (Sub.of (by decide)) hm
    | with_reducible apply Keeps.ite
    | with_reducible apply oweControl_keeps
    | with_reducible apply smdError_keeps

theorem takeRespond_keeps {m : Nat} {s t : State} {a0 : Nat} (h : Keeps m s t)
    (hm : Sub 0xa00 m) : Keeps m s (takeRespond a0 t) := by
  unfold takeRespond
  try dsimp only
  repeat' first
    | with_reducible exact h
    | exact Sub.trans (Sub.of (by decide)) hm
    | with_reducible apply Keeps.ite
    | with_reducible apply State.updPort_keeps
    | with_reducible apply smdError_keeps

theorem sendControl_keeps {m : Nat} {s t : State} {a0 : Nat} (h : Keeps m s t)
    (hm : Sub 0xa08 m) : Keeps m s (sendControl a0 t) := by
  unfold sendControl
  try dsimp only
  repeat' first
    | with_reducible exact h
    | exact Sub.trans (Sub.of (by decide)) hm
    | with_reducible apply Keeps.ite
    | with_reducible apply State.emit_keeps
    | with_reducible apply State.updPort_keeps
    | with_reducible apply preempt_keeps
    | with_reducible apply takeRespond_keeps
    | with_reducible apply takeVerify_keeps
    | dsimp only
    | split

theorem startTx'_keeps {m : Nat} {s t : State} {a0 : Nat} {a1 : Nat} {a2 : Ref} {a3 : Stored} {a4 : Form} {a5 : ReadBack} (h : Keeps m s t)
    (hm : Sub 0x800 m) : Keeps m s (startTx' a0 a1 a2 a3 a4 a5 t) := by
  unfold startTx'
  try dsimp only
  repeat' first
    | with_reducible exact h
    | exact Sub.trans (Sub.of (by decide)) hm
    | with_reducible apply Keeps.ite
    | with_reducible apply State.updPort_keeps
    | with_reducible apply preempt_keeps
    | dsimp only

theorem startHost_keeps {m : Nat} {s t : State} {a0 : Nat} {a1 : Nat} {a2 : Ref} {a3 : Stored} {a4 : Form}
    {a5 : ReadBack} (h : Keeps m s t) (hm : Sub 0xcb010e08 m) : Keeps m s (startHost a0 a1 a2 a3 a4 a5 t) := by
  unfold startHost
  split
  · rename_i e
    obtain ⟨c, _, e⟩ := Option.bind_eq_some_iff.1 e
    exact State.updPort_keeps (rxReserve_keeps h (Sub.trans (Sub.of (by decide)) hm) e) (Sub.trans (Sub.of (by decide)) hm)
  · exact State.bumpPort_keeps (releaseRef_keeps h (Sub.trans (Sub.of (by decide)) hm)) (Sub.trans (Sub.of (by decide)) hm)

theorem dispose_keeps {m : Nat} {s t : State} {a0 : Nat} {a1 : Nat} {a2 : Ref} {a3 : Stored} {a4 : ReadBack} (h : Keeps m s t)
    (hm : Sub 0xcb150e08 m) : Keeps m s (dispose a0 a1 a2 a3 a4 t) := by
  unfold dispose
  try dsimp only
  repeat' first
    | with_reducible exact h
    | with_reducible assumption
    | exact Sub.trans (Sub.of (by decide)) hm
    | (intro (_ : State) hu; first | with_reducible exact hu | skip)
    | exact id
    | exact fun _ h => h
    | with_reducible apply Keeps.ite
    | with_reducible apply State.bumpPort_keeps
    | with_reducible apply countEcc_keeps
    | with_reducible apply debit_keeps
    | with_reducible apply decisionRecord_keeps
    | with_reducible apply recoverFrame_keeps
    | with_reducible apply releaseRef_keeps
    | with_reducible apply startHost_keeps
    | with_reducible apply startTx'_keeps
    | (with_reducible refine Keeps.foldl _ (fun _ _ _ => ?_) ?_)
    | dsimp only
    | split
    | (with_reducible refine Keeps.ofPair (by assumption) ?_)
    | (with_reducible refine Keeps.ofTriple (by assumption) ?_)

theorem selectHead_keeps {m : Nat} {s t : State} {a0 : Nat} {a1 : Nat} {a2 : ReadBack} (h : Keeps m s t)
    (hm : Sub 0xcb150e08 m) : Keeps m s (selectHead a0 a1 a2 t) := by
  unfold selectHead
  try dsimp only
  repeat' first
    | with_reducible exact h
    | exact Sub.trans (Sub.of (by decide)) hm
    | with_reducible apply State.updQueue_keeps
    | with_reducible apply dispose_keeps
    | with_reducible apply emptyQueue_keeps
    | split

theorem resumeFragment_keeps {m : Nat} {s t : State} {a0 : Nat} (h : Keeps m s t)
    (hm : Sub 0xa00 m) : Keeps m s (resumeFragment a0 t) := by
  unfold resumeFragment
  try dsimp only
  repeat' first
    | with_reducible exact h
    | exact Sub.trans (Sub.of (by decide)) hm
    | with_reducible apply Keeps.ite
    | with_reducible apply State.bumpPort_keeps
    | with_reducible apply State.updPort_keeps
    | dsimp only
    | split

theorem effFrameSelected_keeps {m : Nat} {s t : State} {a0 : Nat} {a1 : ReadBack} (h : Keeps m s t)
    (hm : Sub 0xcb154e08 m) : Keeps m s (effFrameSelected a0 a1 t) := by
  unfold effFrameSelected
  try dsimp only
  repeat' first
    | with_reducible exact h
    | exact Sub.trans (Sub.of (by decide)) hm
    | with_reducible apply Keeps.ite
    | with_reducible apply choose_keeps
    | with_reducible apply gateTick_keeps
    | with_reducible apply resumeFragment_keeps
    | with_reducible apply selectHead_keeps
    | with_reducible apply testHeads_keeps
    | dsimp only
    | split
    | (with_reducible refine Keeps.ofPair (by assumption) ?_)

theorem noteCarriage_keeps {m : Nat} {s t : State} {a0 : Bool} {a1 : Bool} {a2 : Nat} (h : Keeps m s t)
    (hm : Sub 0xc3000200 m) : Keeps m s (noteCarriage a0 a1 a2 t) := by
  unfold noteCarriage
  try dsimp only
  repeat' first
    | with_reducible exact h
    | exact Sub.trans (Sub.of (by decide)) hm
    | with_reducible apply Keeps.ite
    | with_reducible apply State.bump_keeps
    | with_reducible apply State.bumpPort_keeps
    | with_reducible apply detectFault_keeps

theorem engineTakes_keeps {m : Nat} {s t : State} {a0 : Bool} {a1 : Stored} (h : Keeps m s t)
    (hm : Sub 0x300 m) : Keeps m s (engineTakes a0 a1 t) := by
  unfold engineTakes
  try dsimp only
  repeat' first
    | with_reducible exact h
    | exact Sub.trans (Sub.of (by decide)) hm
    | with_reducible apply Keeps.ite
    | with_reducible apply napEnqueue_keeps
    | dsimp only

theorem sentAt_keeps {m : Nat} {s t : State} {a0 : Nat} {a1 : Tx} {a2 : Bool} {a3 : ReadBack} (h : Keeps m s t)
    (hm : Sub 0xdb858f48 m) : Keeps m s (sentAt a0 a1 a2 a3 t) := by
  unfold sentAt
  try dsimp only
  repeat' first
    | with_reducible exact h
    | exact Sub.trans (Sub.of (by decide)) hm
    | with_reducible apply Keeps.ite
    | with_reducible apply State.bumpPort_keeps
    | with_reducible apply countEcc_keeps
    | with_reducible apply engineTakes_keeps
    | with_reducible apply handOn_keeps
    | with_reducible apply noteCarriage_keeps
    | with_reducible apply rxDeliver_keeps
    | dsimp only
    | split

theorem finishTx_keeps {m : Nat} {s t : State} {a0 : Nat} {a1 : Tx} {a2 : Bool} {a3 : ReadBack} (h : Keeps m s t)
    (hm : Sub 0xdb858f48 m) : Keeps m s (finishTx a0 a1 a2 a3 t) := by
  unfold finishTx
  try dsimp only
  repeat' first
    | with_reducible exact h
    | exact Sub.trans (Sub.of (by decide)) hm
    | with_reducible apply Keeps.ite
    | with_reducible apply State.updPort_keeps
    | with_reducible apply emptyQueue_keeps
    | with_reducible apply releaseRef_keeps
    | with_reducible apply sendControl_keeps
    | with_reducible apply sentAt_keeps
    | dsimp only

theorem effFrameTransmitted.finishPlain_keeps {m : Nat} {s t : State} {a0 : Nat} {a1 : ReadBack} (h : Keeps m s t)
    (hm : Sub 0xdb858f48 m) : Keeps m s (effFrameTransmitted.finishPlain a0 a1 t) := by
  unfold effFrameTransmitted.finishPlain
  try dsimp only
  repeat' first
    | with_reducible exact h
    | exact Sub.trans (Sub.of (by decide)) hm
    | with_reducible apply Keeps.ite
    | with_reducible apply finishTx_keeps
    | dsimp only
    | split

theorem effFrameTransmitted_keeps {m : Nat} {s t : State} {a0 : Nat} {a1 : ReadBack} (h : Keeps m s t)
    (hm : Sub 0xdb858f48 m) : Keeps m s (effFrameTransmitted a0 a1 t) := by
  unfold effFrameTransmitted
  try dsimp only
  repeat' first
    | with_reducible exact h
    | exact Sub.trans (Sub.of (by decide)) hm
    | with_reducible apply Keeps.ite
    | with_reducible apply State.bumpPort_keeps
    | with_reducible apply effFrameTransmitted.finishPlain_keeps
    | with_reducible apply endFragment_keeps
    | with_reducible apply finishTx_keeps
    | dsimp only
    | split

theorem effHoldIssue_keeps {m : Nat} {s t : State} {a0 : Nat} (h : Keeps m s t)
    (hm : Sub 0x4a00 m) : Keeps m s (effHoldIssue a0 t) := by
  unfold effHoldIssue
  try dsimp only
  repeat' first
    | with_reducible exact h
    | exact Sub.trans (Sub.of (by decide)) hm
    | with_reducible apply Keeps.ite
    | with_reducible apply State.bumpPort_keeps
    | with_reducible apply State.updGate_keeps
    | with_reducible apply holdFragment_keeps
    | dsimp only

theorem expressOverrun_keeps {m : Nat} {s t : State} {a0 : Nat} (h : Keeps m s t)
    (hm : Sub 0xa00 m) : Keeps m s (expressOverrun a0 t) := by
  unfold expressOverrun
  try dsimp only
  repeat' first
    | with_reducible exact h
    | exact Sub.trans (Sub.of (by decide)) hm
    | with_reducible apply Keeps.ite
    | with_reducible apply State.bumpPort_keeps
    | with_reducible apply State.updPort_keeps
    | split

theorem fragmentOverrun_keeps {m : Nat} {s t : State} {a0 : Nat} (h : Keeps m s t)
    (hm : Sub 0xa00 m) : Keeps m s (fragmentOverrun a0 t) := by
  unfold fragmentOverrun
  try dsimp only
  repeat' first
    | with_reducible exact h
    | exact Sub.trans (Sub.of (by decide)) hm
    | with_reducible apply Keeps.ite
    | with_reducible apply State.bumpPort_keeps
    | with_reducible apply State.updPort_keeps
    | dsimp only
    | split

theorem stepOverrun_keeps {m : Nat} {s t : State} {a0 : Nat} (h : Keeps m s t)
    (hm : Sub 0xa00 m) : Keeps m s (stepOverrun a0 t) := by
  unfold stepOverrun
  try dsimp only
  repeat' first
    | with_reducible exact h
    | exact Sub.trans (Sub.of (by decide)) hm
    | with_reducible apply expressOverrun_keeps
    | with_reducible apply fragmentOverrun_keeps

theorem gateStepOverruns_keeps {m : Nat} {s t : State} {a0 : Nat} (h : Keeps m s t)
    (hm : Sub 0xa00 m) : Keeps m s (gateStepOverruns a0 t) := by
  unfold gateStepOverruns
  try dsimp only
  repeat' first
    | with_reducible exact h
    | with_reducible assumption
    | exact Sub.trans (Sub.of (by decide)) hm
    | (intro (_ : State) hu; first | with_reducible exact hu | skip)
    | exact id
    | exact fun _ h => h
    | with_reducible apply Keeps.ite
    | with_reducible apply stepOverrun_keeps
    | (with_reducible refine Keeps.foldl _ (fun _ _ _ => ?_) ?_)
    | dsimp only
    | split
    | (with_reducible refine Keeps.ofPair (by assumption) ?_)
    | (with_reducible refine Keeps.ofTriple (by assumption) ?_)

theorem endPreemptable_keeps {m : Nat} {s t : State} {a0 : Nat} (h : Keeps m s t)
    (hm : Sub 0xa00 m) : Keeps m s (endPreemptable a0 t) := by
  unfold endPreemptable
  try dsimp only
  repeat' first
    | with_reducible exact h
    | exact Sub.trans (Sub.of (by decide)) hm
    | with_reducible apply Keeps.ite
    | with_reducible apply State.bumpPort_keeps
    | with_reducible apply State.updPort_keeps
    | dsimp only
    | split

theorem dropSending_keeps {m : Nat} {s t : State} {a0 : Nat} (h : Keeps m s t)
    (hm : Sub 0xe00 m) : Keeps m s (dropSending a0 t) := by
  unfold dropSending
  try dsimp only
  repeat' first
    | with_reducible exact h
    | with_reducible assumption
    | exact Sub.trans (Sub.of (by decide)) hm
    | (intro (_ : State) hu; first | with_reducible exact hu | skip)
    | exact id
    | exact fun _ h => h
    | with_reducible apply Keeps.ite
    | with_reducible apply State.bumpPort_keeps
    | with_reducible apply State.updPort_keeps
    | with_reducible apply emptyQueue_keeps
    | with_reducible apply releaseRef_keeps
    | (with_reducible refine Keeps.foldl _ (fun _ _ _ => ?_) ?_)
    | dsimp only
    | split
    | (with_reducible refine Keeps.ofPair (by assumption) ?_)
    | (with_reducible refine Keeps.ofTriple (by assumption) ?_)

theorem stopEgress_keeps {m : Nat} {s t : State} {a0 : Nat → Ref → Bool} (h : Keeps m s t)
    (hm : Sub 0xe00 m) : Keeps m s (stopEgress a0 t) := by
  unfold stopEgress
  try dsimp only
  repeat' first
    | with_reducible exact h
    | with_reducible assumption
    | exact Sub.trans (Sub.of (by decide)) hm
    | (intro (_ : State) hu; first | with_reducible exact hu | skip)
    | exact id
    | exact fun _ h => h
    | with_reducible apply Keeps.ite
    | with_reducible apply endPreemptable_keeps
    | with_reducible apply unlinkAll_keeps
    | (with_reducible refine Keeps.foldl _ (fun _ _ _ => ?_) ?_)
    | dsimp only
    | split
    | (with_reducible refine Keeps.ofPair (by assumption) ?_)
    | (with_reducible refine Keeps.ofTriple (by assumption) ?_)

theorem resetDrr_keeps {m : Nat} {s t : State} (h : Keeps m s t)
    (hm : Sub 0x400 m) : Keeps m s (resetDrr t) := by
  unfold resetDrr
  try dsimp only
  repeat' first
    | with_reducible exact h
    | exact Sub.trans (Sub.of (by decide)) hm
    | dsimp only
    | with_reducible apply Keeps.setFabric

theorem cutDrrQueue_keeps {m : Nat} {s t : State} {a0 : State} {a2 : Prod Nat Nat} (h : Keeps m s t)
    (hm : Sub 0x400 m) : Keeps m s (cutDrrQueue a0 t a2) := by
  unfold cutDrrQueue
  try dsimp only
  repeat' first
    | with_reducible exact h
    | exact Sub.trans (Sub.of (by decide)) hm
    | with_reducible apply Keeps.ite
    | with_reducible apply State.updQueue_keeps

theorem cutShaper_keeps {m : Nat} {s t : State} {a0 : State} {a1 : Image} {a3 : Prod Nat Nat} (h : Keeps m s t)
    (hm : Sub 0x400 m) : Keeps m s (cutShaper a0 a1 t a3) := by
  unfold cutShaper
  try dsimp only
  repeat' first
    | with_reducible exact h
    | exact Sub.trans (Sub.of (by decide)) hm
    | with_reducible apply Keeps.ite
    | with_reducible apply resetShaper_keeps
    | dsimp only

theorem egressCutover_keeps {m : Nat} {s t : State} {a0 : State} {a1 : Image} (h : Keeps m s t)
    (hm : Sub 0x400 m) : Keeps m s (egressCutover a0 a1 t) := by
  unfold egressCutover
  try dsimp only
  repeat' first
    | with_reducible exact h
    | with_reducible assumption
    | exact Sub.trans (Sub.of (by decide)) hm
    | (intro (_ : State) hu; first | with_reducible exact hu | skip)
    | exact id
    | exact fun _ h => h
    | with_reducible apply Keeps.ite
    | with_reducible apply cutDrrQueue_keeps
    | with_reducible apply cutShaper_keeps
    | (with_reducible refine Keeps.foldl _ (fun _ _ _ => ?_) ?_)
    | dsimp only
    | split
    | (with_reducible refine Keeps.ofPair (by assumption) ?_)
    | (with_reducible refine Keeps.ofTriple (by assumption) ?_)

end Sys2Proof.Machine
end

