-- ==== Sys2Proof/Laws/Herd.lean ====
section
/-!
SUPPORT. What each operation of Machine/Herd.lean may change: the parts of the state in the set `hm`, no others, the invariant
kept. Cite these lemmas; do not unfold the operations.
-/
namespace Sys2Proof.Machine

theorem State.updHerd_keeps {m : Nat} {s t : State} {a1 : Herd → Herd} (h : Keeps m s t)
    (hm : Sub 0x800000 m) (hf : Memory.wf t.herd.txMem = true → Memory.wf (a1 t.herd).txMem = true) :
    Keeps m s (t.updHerd a1) := by
  unfold State.updHerd
  exact h.setHerd hm hf

theorem State.bumpHerd_keeps {m : Nat} {s t : State} {a1 : Nat} (h : Keeps m s t)
    (hm : Sub 0x200 m) : Keeps m s (State.bumpHerd t a1) := by
  unfold State.bumpHerd
  try dsimp only
  repeat' first
    | with_reducible exact h
    | exact Sub.trans (Sub.of (by decide)) hm
    | with_reducible apply State.bump_keeps

theorem ringLinkUp_keeps {m : Nat} {s t : State} {a0 : Nat} (h : Keeps m s t)
    (hm : Sub 0x800000 m) : Keeps m s (ringLinkUp a0 t) := by
  unfold ringLinkUp
  try dsimp only
  repeat' first
    | with_reducible exact h
    | exact Sub.trans (Sub.of (by decide)) hm
    | exact id
    | exact fun _ h => h
    | with_reducible apply Keeps.ite
    | with_reducible apply State.updHerd_keeps

theorem leaveRing_keeps {m : Nat} {s t : State} {a0 : Nat} (h : Keeps m s t)
    (hm : Sub 0x1800208 m) : Keeps m s (leaveRing a0 t) := by
  unfold leaveRing
  try dsimp only
  repeat' first
    | with_reducible exact h
    | with_reducible assumption
    | exact Sub.trans (Sub.of (by decide)) hm
    | (intro (_ : State) hu; first | with_reducible exact hu | skip)
    | exact id
    | exact fun _ h => h
    | exact memWrite_wf _ _
    | with_reducible apply Keeps.ite
    | with_reducible apply State.bumpHerd_keeps
    | with_reducible apply State.emit_keeps
    | with_reducible apply State.updHerd_keeps
    | with_reducible apply pulse_keeps
    | (with_reducible refine Keeps.foldl _ (fun _ _ _ => ?_) ?_)
    | dsimp only
    | split
    | (with_reducible refine Keeps.ofPair (by assumption) ?_)
    | (with_reducible refine Keeps.ofTriple (by assumption) ?_)

theorem effRingPortLinkLost_keeps {m : Nat} {s t : State} {a0 : Nat} (h : Keeps m s t)
    (hm : Sub 0xc3800208 m) : Keeps m s (effRingPortLinkLost a0 t) := by
  unfold effRingPortLinkLost
  try dsimp only
  repeat' first
    | with_reducible exact h
    | exact Sub.trans (Sub.of (by decide)) hm
    | exact id
    | exact fun _ h => h
    | with_reducible apply Keeps.ite
    | with_reducible apply State.updHerd_keeps
    | with_reducible apply detectFault_keeps
    | with_reducible apply leaveRing_keeps
    | dsimp only

theorem rejoinPort_keeps {m : Nat} {s t : State} {a1 : Nat} (h : Keeps m s t)
    (hm : Sub 0x1800200 m) : Keeps m s (rejoinPort t a1) := by
  unfold rejoinPort
  try dsimp only
  repeat' first
    | with_reducible exact h
    | exact Sub.trans (Sub.of (by decide)) hm
    | exact id
    | exact fun _ h => h
    | with_reducible apply Keeps.ite
    | with_reducible apply State.bumpHerd_keeps
    | with_reducible apply State.updHerd_keeps
    | with_reducible apply pulse_keeps
    | dsimp only

theorem sendRing_keeps {m : Nat} {s t : State} {a0 : Nat} {a1 : Nat} {a2 : Bytes} {a3 : Bool} (h : Keeps m s t)
    (hm : Sub 0x800008 m) : Keeps m s (sendRing a0 a1 a2 a3 t) := by
  unfold sendRing
  try dsimp only
  repeat' first
    | with_reducible exact h
    | exact Sub.trans (Sub.of (by decide)) hm
    | exact id
    | exact fun _ h => h
    | with_reducible apply State.emit_keeps
    | with_reducible apply State.updHerd_keeps
    | dsimp only

theorem originate_keeps {m : Nat} {s t : State} {a0 : Bytes} (h : Keeps m s t)
    (hm : Sub 0x800208 m) : Keeps m s (originate a0 t) := by
  unfold originate
  try dsimp only
  repeat' first
    | with_reducible exact h
    | with_reducible assumption
    | exact Sub.trans (Sub.of (by decide)) hm
    | (intro (_ : State) hu; first | with_reducible exact hu | skip)
    | exact id
    | exact fun _ h => h
    | exact memWrite_wf _ _
    | with_reducible apply Keeps.ite
    | with_reducible apply State.bumpHerd_keeps
    | with_reducible apply sendRing_keeps
    | (with_reducible refine Keeps.foldl _ (fun _ _ _ => ?_) ?_)
    | dsimp only
    | split
    | (with_reducible refine Keeps.ofPair (by assumption) ?_)
    | (with_reducible refine Keeps.ofTriple (by assumption) ?_)

theorem setMaster_keeps {m : Nat} {s t : State} {a0 : Option Master} (h : Keeps m s t)
    (hm : Sub 0x1800200 m) : Keeps m s (setMaster a0 t) := by
  unfold setMaster
  try dsimp only
  repeat' first
    | with_reducible exact h
    | exact Sub.trans (Sub.of (by decide)) hm
    | exact id
    | exact fun _ h => h
    | with_reducible apply Keeps.ite
    | with_reducible apply State.bumpHerd_keeps
    | with_reducible apply State.updHerd_keeps
    | with_reducible apply pulse_keeps

theorem setHerdRole_keeps {m : Nat} {s t : State} {a0 : Nat} (h : Keeps m s t)
    (hm : Sub 0x800000 m) : Keeps m s (setHerdRole a0 t) := by
  unfold setHerdRole
  try dsimp only
  repeat' first
    | with_reducible exact h
    | exact Sub.trans (Sub.of (by decide)) hm
    | exact id
    | exact fun _ h => h
    | with_reducible apply State.updHerd_keeps

theorem ringYield_keeps {m : Nat} {s t : State} (h : Keeps m s t)
    (hm : Sub 0x800200 m) : Keeps m s (ringYield t) := by
  unfold ringYield
  try dsimp only
  repeat' first
    | with_reducible exact h
    | exact Sub.trans (Sub.of (by decide)) hm
    | exact id
    | exact fun _ h => h
    | with_reducible apply State.bumpHerd_keeps
    | with_reducible apply State.updHerd_keeps
    | with_reducible apply setHerdRole_keeps

theorem armPoints_keeps {m : Nat} {s t : State} (h : Keeps m s t)
    (hm : Sub 0x800000 m) : Keeps m s (armPoints t) := by
  unfold armPoints
  try dsimp only
  repeat' first
    | with_reducible exact h
    | exact Sub.trans (Sub.of (by decide)) hm
    | exact id
    | exact fun _ h => h
    | with_reducible apply Keeps.ite
    | with_reducible apply State.updHerd_keeps
    | (with_reducible refine Keeps.foldl _ (fun _ _ _ => ?_) ?_)
    | dsimp only

theorem takeLayout_keeps {m : Nat} {s t : State} (h : Keeps m s t)
    (hm : Sub 0x800000 m) : Keeps m s (takeLayout t) := by
  unfold takeLayout
  try dsimp only
  repeat' first
    | with_reducible exact h
    | exact Sub.trans (Sub.of (by decide)) hm
    | exact id
    | exact fun _ h => h
    | with_reducible apply State.updHerd_keeps

theorem herdListen_keeps {m : Nat} {s t : State} (h : Keeps m s t)
    (hm : Sub 0x1800200 m) : Keeps m s (herdListen t) := by
  unfold herdListen
  try dsimp only
  repeat' first
    | with_reducible exact h
    | exact Sub.trans (Sub.of (by decide)) hm
    | exact id
    | exact fun _ h => h
    | with_reducible apply State.updHerd_keeps
    | with_reducible apply armPoints_keeps
    | with_reducible apply setHerdRole_keeps
    | with_reducible apply setMaster_keeps
    | dsimp only

theorem herdStart_keeps {m : Nat} {s t : State} (h : Keeps m s t)
    (hm : Sub 0x1800200 m) : Keeps m s (herdStart t) := by
  unfold herdStart
  try dsimp only
  repeat' first
    | with_reducible exact h
    | exact Sub.trans (Sub.of (by decide)) hm
    | exact id
    | exact fun _ h => h
    | with_reducible apply State.updHerd_keeps
    | with_reducible apply herdListen_keeps
    | with_reducible apply takeLayout_keeps

theorem herdOff_keeps {m : Nat} {s t : State} (h : Keeps m s t)
    (hm : Sub 0x1800208 m) : Keeps m s (herdOff t) := by
  unfold herdOff
  try dsimp only
  repeat' first
    | with_reducible exact h
    | with_reducible assumption
    | exact Sub.trans (Sub.of (by decide)) hm
    | (intro (_ : State) hu; first | with_reducible exact hu | skip)
    | exact id
    | exact fun _ h => h
    | exact memWrite_wf _ _
    | with_reducible apply Keeps.ite
    | with_reducible apply State.updHerd_keeps
    | with_reducible apply leaveRing_keeps
    | with_reducible apply setHerdRole_keeps
    | with_reducible apply setMaster_keeps
    | (with_reducible refine Keeps.foldl _ (fun _ _ _ => ?_) ?_)
    | dsimp only
    | split
    | (with_reducible refine Keeps.ofPair (by assumption) ?_)
    | (with_reducible refine Keeps.ofTriple (by assumption) ?_)

theorem herdEnter_keeps {m : Nat} {s t : State} {a0 : Mode} (h : Keeps m s t)
    (hm : Sub 0x1800208 m) : Keeps m s (herdEnter a0 t) := by
  unfold herdEnter
  try dsimp only
  repeat' first
    | with_reducible exact h
    | exact Sub.trans (Sub.of (by decide)) hm
    | exact id
    | exact fun _ h => h
    | with_reducible apply Keeps.ite
    | with_reducible apply State.updHerd_keeps
    | with_reducible apply herdOff_keeps
    | with_reducible apply herdStart_keeps
    | with_reducible apply setHerdRole_keeps
    | split

theorem herdCutover_keeps {m : Nat} {s t : State} {a0 : Image} (h : Keeps m s t)
    (hm : Sub 0x1800208 m) : Keeps m s (herdCutover a0 t) := by
  unfold herdCutover
  try dsimp only
  repeat' first
    | with_reducible exact h
    | exact Sub.trans (Sub.of (by decide)) hm
    | with_reducible apply Keeps.ite
    | with_reducible apply armPoints_keeps
    | with_reducible apply herdListen_keeps
    | with_reducible apply herdOff_keeps
    | with_reducible apply herdStart_keeps
    | dsimp only

theorem writeDataSlot_keeps {m : Nat} {s t : State} {cyc : Nat} {area : Bytes} {e : Nat × Row} (h : Keeps m s t)
    (hm : Sub 0x800200 m) : Keeps m s (writeDataSlot cyc (area, t) e).2 := by
  unfold writeDataSlot
  dsimp only
  split
  · dsimp only
    exact State.updHerd_keeps h (Sub.trans (Sub.of (by decide)) hm) id
  · exact Keeps.ite h (State.bumpHerd_keeps h (Sub.trans (Sub.of (by decide)) hm))

theorem writeMailSlot_keeps {m : Nat} {s t : State} {area : Bytes} {r : Row} (h : Keeps m s t)
    (hm : Sub 0x800000 m) : Keeps m s (writeMailSlot (area, t) r).2 := by
  unfold writeMailSlot
  dsimp only
  exact State.updHerd_keeps h hm id

theorem ownWrites_keeps {m : Nat} {s t : State} {a0 : Nat → Bool} {a1 : Nat} {a2 : Bytes} (h : Keeps m s t)
    (hm : Sub 0x800200 m) : Keeps m s (ownWrites a0 a1 a2 t).2 := by
  unfold ownWrites
  dsimp only
  refine Keeps.foldlSnd _ (fun _ _ _ hu => writeDataSlot_keeps hu hm) ?_
  split
  · exact writeMailSlot_keeps h (Sub.trans (Sub.of (by decide)) hm)
  · exact h

theorem fitSigned_keeps {m : Nat} {s t : State} {a0 : Nat} {a1 : Int} (h : Keeps m s t)
    (hm : Sub 0x4 m) : Keeps m s (fitSigned a0 a1 t).2 := by
  unfold fitSigned
  try dsimp only
  repeat' first
    | with_reducible exact h
    | exact Sub.trans (Sub.of (by decide)) hm
    | with_reducible apply Keeps.ite
    | with_reducible apply Keeps.iteSnd
    | with_reducible apply State.draw_keeps
    | dsimp only
    | split
    | (with_reducible refine Keeps.ofPair (by assumption) ?_)

theorem curBlock_keeps {m : Nat} {s t : State} {a1 : Nat} {a2 : Nat} {a3 : Nat} {a4 : Int} (h : Keeps m s t)
    (hm : Sub 0x800204 m) : Keeps m s (curBlock t a1 a2 a3 a4).2 := by
  unfold curBlock
  try dsimp only
  repeat' first
    | with_reducible exact h
    | exact Sub.trans (Sub.of (by decide)) hm
    | exact id
    | exact fun _ h => h
    | with_reducible apply Keeps.ite
    | with_reducible apply Keeps.iteSnd
    | with_reducible apply State.bumpHerd_keeps
    | with_reducible apply State.updHerd_keeps
    | with_reducible apply fitSigned_keeps
    | dsimp only
    | split
    | (with_reducible refine Keeps.ofPair (by assumption) ?_)

theorem ringCorrect_keeps {m : Nat} {s t : State} {a0 : Prod Int Nat} {a1 : Option (Prod Int Nat)} (h : Keeps m s t)
    (hm : Sub 0x200000 m) : Keeps m s (ringCorrect a0 a1 t) := by
  unfold ringCorrect
  try dsimp only
  repeat' first
    | with_reducible exact h
    | exact Sub.trans (Sub.of (by decide)) hm
    | with_reducible apply Keeps.ite
    | with_reducible apply State.updDom_keeps
    | dsimp only
    | split

theorem noteNodes_keeps {m : Nat} {s t : State} {a0 : Bytes} {a1 : Nat} {a2 : Nat} {a3 : List Nat} (h : Keeps m s t)
    (hm : Sub 0x800000 m) : Keeps m s (noteNodes a0 a1 a2 a3 t) := by
  unfold noteNodes
  try dsimp only
  repeat' first
    | with_reducible exact h
    | exact Sub.trans (Sub.of (by decide)) hm
    | exact id
    | exact fun _ h => h
    | with_reducible apply Keeps.ite
    | with_reducible apply State.updHerd_keeps
    | (with_reducible refine Keeps.foldl _ (fun _ _ _ => ?_) ?_)
    | dsimp only
    | split

theorem averageFrame_keeps {m : Nat} {s t : State} {a0 : Bytes} {a1 : Nat} {a2 : Nat} {a3 : Nat} (h : Keeps m s t)
    (hm : Sub 0xc3a00200 m) : Keeps m s (averageFrame a0 a1 a2 a3 t) := by
  unfold averageFrame
  try dsimp only
  repeat' first
    | with_reducible exact h
    | exact Sub.trans (Sub.of (by decide)) hm
    | with_reducible apply Keeps.ite
    | with_reducible apply State.bumpHerd_keeps
    | with_reducible apply measure_keeps
    | with_reducible apply noteNodes_keeps
    | with_reducible apply ringCorrect_keeps
    | dsimp only
    | split

theorem takeDelay_keeps {m : Nat} {s t : State} {a0 : Nat} {a1 : Nat} {a2 : Nat} (h : Keeps m s t)
    (hm : Sub 0x800000 m) : Keeps m s (takeDelay a0 a1 a2 t) := by
  unfold takeDelay
  try dsimp only
  repeat' first
    | with_reducible exact h
    | with_reducible assumption
    | exact Sub.trans (Sub.of (by decide)) hm
    | (intro (_ : State) hu; first | with_reducible exact hu | skip)
    | exact id
    | exact fun _ h => h
    | exact memWrite_wf _ _
    | with_reducible apply Keeps.ite
    | with_reducible apply State.updHerd_keeps
    | (with_reducible refine Keeps.foldl _ (fun _ _ _ => ?_) ?_)
    | dsimp only
    | split
    | (with_reducible refine Keeps.ofPair (by assumption) ?_)
    | (with_reducible refine Keeps.ofTriple (by assumption) ?_)

theorem noteCopy_keeps {m : Nat} {s t : State} {a0 : Bytes} {a1 : Nat} {a2 : Nat} (h : Keeps m s t)
    (hm : Sub 0x800000 m) : Keeps m s (noteCopy a0 a1 a2 t) := by
  unfold noteCopy
  try dsimp only
  repeat' first
    | with_reducible exact h
    | exact Sub.trans (Sub.of (by decide)) hm
    | exact id
    | exact fun _ h => h
    | with_reducible apply Keeps.ite
    | with_reducible apply State.updHerd_keeps
    | with_reducible apply takeDelay_keeps
    | dsimp only
    | split

theorem mailNext_keeps {m : Nat} {s t : State} (h : Keeps m s t)
    (hm : Sub 0x800000 m) : Keeps m s (mailNext t) := by
  unfold mailNext
  try dsimp only
  repeat' first
    | with_reducible exact h
    | exact Sub.trans (Sub.of (by decide)) hm
    | exact id
    | exact fun _ h => h
    | with_reducible apply State.updHerd_keeps

theorem mailRespond_keeps {m : Nat} {s t : State} {a0 : Nat} {a1 : Bytes} (h : Keeps m s t)
    (hm : Sub 0x800200 m) : Keeps m s (mailRespond a0 a1 t) := by
  unfold mailRespond
  try dsimp only
  repeat' first
    | with_reducible exact h
    | exact Sub.trans (Sub.of (by decide)) hm
    | exact id
    | exact fun _ h => h
    | with_reducible apply Keeps.ite
    | with_reducible apply State.bumpHerd_keeps
    | with_reducible apply State.updHerd_keeps

theorem mailAcked_keeps {m : Nat} {s t : State} {a0 : Nat} {a1 : Bytes} {a2 : Nat} (h : Keeps m s t)
    (hm : Sub 0x800000 m) : Keeps m s (mailAcked a0 a1 a2 t) := by
  unfold mailAcked
  try dsimp only
  repeat' first
    | with_reducible exact h
    | exact Sub.trans (Sub.of (by decide)) hm
    | exact id
    | exact fun _ h => h
    | with_reducible apply Keeps.ite
    | with_reducible apply State.updHerd_keeps
    | with_reducible apply mailNext_keeps
    | split

theorem oweAck_keeps {m : Nat} {s t : State} {a0 : Nat} {a1 : Nat} {a2 : Nat} (h : Keeps m s t)
    (hm : Sub 0x800000 m) : Keeps m s (oweAck a0 a1 a2 t) := by
  unfold oweAck
  try dsimp only
  repeat' first
    | with_reducible exact h
    | exact Sub.trans (Sub.of (by decide)) hm
    | exact id
    | exact fun _ h => h
    | with_reducible apply State.updHerd_keeps

theorem deliverMail_keeps {m : Nat} {s t : State} {a0 : Nat} {a1 : Bytes} (h : Keeps m s t)
    (hm : Sub 0x300 m) : Keeps m s (deliverMail a0 a1 t) := by
  unfold deliverMail
  try dsimp only
  repeat' first
    | with_reducible exact h
    | exact Sub.trans (Sub.of (by decide)) hm
    | with_reducible apply Keeps.ite
    | with_reducible apply State.bumpHerd_keeps
    | with_reducible apply napEnqueue_keeps
    | dsimp only

theorem storeChunk_keeps {m : Nat} {s t : State} {a0 : Nat} {a1 : Nat} {a2 : Nat} {a3 : Bytes} {a4 : Bool} (h : Keeps m s t)
    (hm : Sub 0x800300 m) : Keeps m s (storeChunk a0 a1 a2 a3 a4 t) := by
  unfold storeChunk
  try dsimp only
  repeat' first
    | with_reducible exact h
    | exact Sub.trans (Sub.of (by decide)) hm
    | exact id
    | exact fun _ h => h
    | with_reducible apply Keeps.ite
    | with_reducible apply State.updHerd_keeps
    | with_reducible apply deliverMail_keeps
    | with_reducible apply oweAck_keeps
    | dsimp only

theorem mailChunkIn_keeps {m : Nat} {s t : State} {a0 : Nat} {a1 : Bytes} (h : Keeps m s t)
    (hm : Sub 0x800300 m) : Keeps m s (mailChunkIn a0 a1 t) := by
  unfold mailChunkIn
  try dsimp only
  repeat' first
    | with_reducible exact h
    | exact Sub.trans (Sub.of (by decide)) hm
    | exact id
    | exact fun _ h => h
    | with_reducible apply Keeps.ite
    | with_reducible apply State.bumpHerd_keeps
    | with_reducible apply State.updHerd_keeps
    | with_reducible apply oweAck_keeps
    | with_reducible apply storeChunk_keeps
    | dsimp only
    | split

theorem readMail_keeps {m : Nat} {s t : State} {a0 : Bytes} (h : Keeps m s t)
    (hm : Sub 0x800300 m) : Keeps m s (readMail a0 t) := by
  unfold readMail
  try dsimp only
  repeat' first
    | with_reducible exact h
    | with_reducible assumption
    | exact Sub.trans (Sub.of (by decide)) hm
    | (intro (_ : State) hu; first | with_reducible exact hu | skip)
    | exact id
    | exact fun _ h => h
    | exact memWrite_wf _ _
    | with_reducible apply Keeps.ite
    | with_reducible apply mailAcked_keeps
    | with_reducible apply mailChunkIn_keeps
    | (with_reducible refine Keeps.foldl _ (fun _ _ _ => ?_) ?_)
    | dsimp only
    | split
    | (with_reducible refine Keeps.ofPair (by assumption) ?_)
    | (with_reducible refine Keeps.ofTriple (by assumption) ?_)

theorem effMailboxRetryExpiry_keeps {m : Nat} {s t : State} {a0 : Nat} (h : Keeps m s t)
    (hm : Sub 0x800200 m) : Keeps m s (effMailboxRetryExpiry a0 t) := by
  unfold effMailboxRetryExpiry
  try dsimp only
  repeat' first
    | with_reducible exact h
    | exact Sub.trans (Sub.of (by decide)) hm
    | exact id
    | exact fun _ h => h
    | with_reducible apply Keeps.ite
    | with_reducible apply State.bumpHerd_keeps
    | with_reducible apply State.updHerd_keeps
    | with_reducible apply mailNext_keeps
    | dsimp only
    | split

theorem filterSlot_keeps {m : Nat} {s t : State} {n : Nat} {seen area : Bytes} {e : Nat × Row} (h : Keeps m s t)
    (hm : Sub 0x200 m) : Keeps m s (filterSlot n seen (area, t) e).2 := by
  unfold filterSlot
  dsimp only
  split
  · exact State.bumpHerd_keeps h hm
  · exact h

theorem storeImage_keeps {m : Nat} {s t : State} {a0 : Nat} {a1 : Bytes} (h : Keeps m s t)
    (hm : Sub 0x1800200 m) : Keeps m s (storeImage a0 a1 t) := by
  unfold storeImage
  try dsimp only
  repeat' first
    | with_reducible exact h
    | exact Sub.trans (Sub.of (by decide)) hm
    | exact id
    | exact fun _ h => h
    | (with_reducible refine Keeps.foldlSnd _ (fun _ _ _ hu => filterSlot_keeps hu (Sub.trans (Sub.of (by decide)) hm)) ?_)
    | with_reducible apply State.updHerd_keeps
    | with_reducible apply filterSlot_keeps
    | with_reducible apply pulse_keeps
    | (with_reducible refine Keeps.foldl _ (fun _ _ _ => ?_) ?_)
    | dsimp only
    | split
    | (with_reducible refine Keeps.ofPair (by assumption) ?_)

theorem claimsSeen_keeps {m : Nat} {s t : State} {a0 : Nat} {a1 : Bytes} (h : Keeps m s t)
    (hm : Sub 0x81040240 m) : Keeps m s (claimsSeen a0 a1 t) := by
  unfold claimsSeen
  try dsimp only
  repeat' first
    | with_reducible exact h
    | with_reducible assumption
    | exact Sub.trans (Sub.of (by decide)) hm
    | (intro (_ : State) hu; first | with_reducible exact hu | skip)
    | exact id
    | exact fun _ h => h
    | exact memWrite_wf _ _
    | with_reducible apply Keeps.ite
    | with_reducible apply offerClaim_keeps
    | (with_reducible refine Keeps.foldl _ (fun _ _ _ => ?_) ?_)
    | dsimp only
    | split
    | (with_reducible refine Keeps.ofPair (by assumption) ?_)
    | (with_reducible refine Keeps.ofTriple (by assumption) ?_)

theorem takeFrame_keeps {m : Nat} {s t : State} {a0 : Bytes} {a1 : Nat} {a2 : Nat} {a3 : Nat} (h : Keeps m s t)
    (hm : Sub 0xc3a40340 m) : Keeps m s (takeFrame a0 a1 a2 a3 t) := by
  unfold takeFrame
  try dsimp only
  repeat' first
    | with_reducible exact h
    | exact Sub.trans (Sub.of (by decide)) hm
    | with_reducible apply averageFrame_keeps
    | with_reducible apply claimsSeen_keeps
    | with_reducible apply readMail_keeps
    | with_reducible apply storeImage_keeps

theorem passFrame_keeps {m : Nat} {s t : State} {a0 : Nat} {a1 : Bytes} {a2 : Bool} (h : Keeps m s t)
    (hm : Sub 0x800208 m) : Keeps m s (passFrame a0 a1 a2 t) := by
  unfold passFrame
  try dsimp only
  repeat' first
    | with_reducible exact h
    | exact Sub.trans (Sub.of (by decide)) hm
    | with_reducible apply State.bumpHerd_keeps
    | with_reducible apply sendRing_keeps

theorem writeClock_keeps {m : Nat} {s t : State} {a0 : Nat} {a1 : Nat} {a2 : Nat} {a3 : Int} {a4 : Bytes} (h : Keeps m s t)
    (hm : Sub 0x800204 m) : Keeps m s (writeClock a0 a1 a2 a3 a4 t).2 := by
  unfold writeClock
  try dsimp only
  repeat' first
    | with_reducible exact h
    | exact Sub.trans (Sub.of (by decide)) hm
    | with_reducible apply curBlock_keeps
    | dsimp only
    | split
    | (with_reducible refine Keeps.ofPair (by assumption) ?_)

theorem processFrame_keeps {m : Nat} {s t : State} {a0 : Nat} {a1 : Bytes} {a2 : Bool} {a3 : Nat} (h : Keeps m s t)
    (hm : Sub 0xc3a4034c m) : Keeps m s (processFrame a0 a1 a2 a3 t) := by
  unfold processFrame
  try dsimp only
  repeat' first
    | with_reducible exact h
    | exact Sub.trans (Sub.of (by decide)) hm
    | exact id
    | exact fun _ h => h
    | with_reducible apply Keeps.ite
    | with_reducible apply State.bumpHerd_keeps
    | with_reducible apply State.updHerd_keeps
    | with_reducible apply ownWrites_keeps
    | with_reducible apply sendRing_keeps
    | with_reducible apply takeFrame_keeps
    | with_reducible apply writeClock_keeps
    | dsimp only
    | split
    | (with_reducible refine Keeps.ofPair (by assumption) ?_)

theorem noteLoop_keeps {m : Nat} {s t : State} {a0 : Bytes} (h : Keeps m s t)
    (hm : Sub 0x800000 m) : Keeps m s (noteLoop a0 t) := by
  unfold noteLoop
  try dsimp only
  repeat' first
    | with_reducible exact h
    | exact Sub.trans (Sub.of (by decide)) hm
    | exact id
    | exact fun _ h => h
    | with_reducible apply State.updHerd_keeps

theorem markedFrame_keeps {m : Nat} {s t : State} {a0 : Nat} {a1 : Bytes} {a2 : Bool} {a3 : Nat} (h : Keeps m s t)
    (hm : Sub 0xc3a4034c m) : Keeps m s (markedFrame a0 a1 a2 a3 t) := by
  unfold markedFrame
  try dsimp only
  repeat' first
    | with_reducible exact h
    | exact Sub.trans (Sub.of (by decide)) hm
    | with_reducible apply Keeps.ite
    | with_reducible apply State.bumpHerd_keeps
    | with_reducible apply detectFault_keeps
    | with_reducible apply passFrame_keeps
    | with_reducible apply processFrame_keeps
    | dsimp only
    | split

theorem routeFrame_keeps {m : Nat} {s t : State} {a0 : Nat} {a1 : Bytes} {a2 : Bool} {a3 : Nat} (h : Keeps m s t)
    (hm : Sub 0xc3a4034c m) : Keeps m s (routeFrame a0 a1 a2 a3 t) := by
  unfold routeFrame
  try dsimp only
  repeat' first
    | with_reducible exact h
    | exact Sub.trans (Sub.of (by decide)) hm
    | with_reducible apply Keeps.ite
    | with_reducible apply markedFrame_keeps
    | with_reducible apply noteCopy_keeps
    | with_reducible apply noteLoop_keeps
    | with_reducible apply passFrame_keeps
    | dsimp only
    | split

theorem keepCopy_keeps {m : Nat} {s t : State} {a0 : Nat} {a1 : Bytes} {a2 : Bool} {a3 : Nat} (h : Keeps m s t)
    (hm : Sub 0x800000 m) : Keeps m s (keepCopy a0 a1 a2 a3 t) := by
  unfold keepCopy
  try dsimp only
  repeat' first
    | with_reducible exact h
    | exact Sub.trans (Sub.of (by decide)) hm
    | exact id
    | exact fun _ h => h
    | with_reducible apply Keeps.ite
    | with_reducible apply State.updHerd_keeps
    | dsimp only

theorem underLayout_keeps {m : Nat} {s t : State} {a0 : AMap Row} {a1 : State → State} (h : Keeps m s t)
    (h1 : ∀ u0, Keeps m s u0 → Keeps m s (a1 u0))
    (hm : Sub 0x800000 m) : Keeps m s (underLayout a0 a1 t) := by
  unfold underLayout
  try dsimp only
  repeat' first
    | with_reducible exact h
    | with_reducible assumption
    | exact Sub.trans (Sub.of (by decide)) hm
    | exact id
    | exact fun _ h => h
    | with_reducible apply State.updHerd_keeps
    | with_reducible apply h1

theorem assembleFrame_keeps {m : Nat} {s t : State} {a0 : Nat} {a1 : Nat} (h : Keeps m s t)
    (hm : Sub 0xc3a40340 m) : Keeps m s (assembleFrame a0 a1 t) := by
  unfold assembleFrame
  try dsimp only
  repeat' first
    | with_reducible exact h
    | with_reducible assumption
    | exact Sub.trans (Sub.of (by decide)) hm
    | (intro (_ : State) hu; first | with_reducible exact hu | skip)
    | exact id
    | exact fun _ h => h
    | exact memWrite_wf _ _
    | with_reducible apply Keeps.ite
    | with_reducible apply State.updHerd_keeps
    | with_reducible apply ownWrites_keeps
    | with_reducible apply takeFrame_keeps
    | with_reducible apply underLayout_keeps
    | (with_reducible refine Keeps.foldl _ (fun _ _ _ => ?_) ?_)
    | dsimp only
    | split
    | (with_reducible refine Keeps.ofPair (by assumption) ?_)
    | (with_reducible refine Keeps.ofTriple (by assumption) ?_)

theorem effAssemblyInstant_keeps {m : Nat} {s t : State} (h : Keeps m s t)
    (hm : Sub 0xc3a40340 m) : Keeps m s (effAssemblyInstant t) := by
  unfold effAssemblyInstant
  try dsimp only
  repeat' first
    | with_reducible exact h
    | exact Sub.trans (Sub.of (by decide)) hm
    | exact id
    | exact fun _ h => h
    | with_reducible apply Keeps.ite
    | with_reducible apply State.bumpBy_keeps
    | with_reducible apply State.updHerd_keeps
    | with_reducible apply assembleFrame_keeps
    | dsimp only

theorem sendMaster_keeps {m : Nat} {s t : State} {a0 : Nat} (h : Keeps m s t)
    (hm : Sub 0x800208 m) : Keeps m s (sendMaster a0 t) := by
  unfold sendMaster
  try dsimp only
  repeat' first
    | with_reducible exact h
    | exact Sub.trans (Sub.of (by decide)) hm
    | exact id
    | exact fun _ h => h
    | with_reducible apply Keeps.ite
    | with_reducible apply State.bumpHerd_keeps
    | with_reducible apply State.updHerd_keeps
    | with_reducible apply originate_keeps
    | dsimp only
    | split

theorem sendBid_keeps {m : Nat} {s t : State} {a0 : Nat} (h : Keeps m s t)
    (hm : Sub 0x800208 m) : Keeps m s (sendBid a0 t) := by
  unfold sendBid
  try dsimp only
  repeat' first
    | with_reducible exact h
    | exact Sub.trans (Sub.of (by decide)) hm
    | exact id
    | exact fun _ h => h
    | with_reducible apply State.bumpHerd_keeps
    | with_reducible apply State.updHerd_keeps
    | with_reducible apply originate_keeps

theorem listenStart_keeps {m : Nat} {s t : State} {a0 : Nat} (h : Keeps m s t)
    (hm : Sub 0x800208 m) : Keeps m s (listenStart a0 t) := by
  unfold listenStart
  try dsimp only
  repeat' first
    | with_reducible exact h
    | exact Sub.trans (Sub.of (by decide)) hm
    | exact id
    | exact fun _ h => h
    | with_reducible apply Keeps.ite
    | with_reducible apply State.updHerd_keeps
    | with_reducible apply sendBid_keeps
    | with_reducible apply setHerdRole_keeps

theorem roleStart_keeps {m : Nat} {s t : State} {a0 : Nat} (h : Keeps m s t)
    (hm : Sub 0x1800208 m) : Keeps m s (roleStart a0 t) := by
  unfold roleStart
  try dsimp only
  repeat' first
    | with_reducible exact h
    | exact Sub.trans (Sub.of (by decide)) hm
    | exact id
    | exact fun _ h => h
    | with_reducible apply Keeps.ite
    | with_reducible apply State.updHerd_keeps
    | with_reducible apply listenStart_keeps
    | with_reducible apply sendBid_keeps
    | with_reducible apply sendMaster_keeps
    | with_reducible apply setHerdRole_keeps
    | with_reducible apply setMaster_keeps
    | dsimp only
    | split

theorem countCycle_keeps {m : Nat} {s t : State} {a0 : Nat} (h : Keeps m s t)
    (hm : Sub 0x800000 m) : Keeps m s (countCycle a0 t) := by
  unfold countCycle
  try dsimp only
  repeat' first
    | with_reducible exact h
    | exact Sub.trans (Sub.of (by decide)) hm
    | exact id
    | exact fun _ h => h
    | with_reducible apply Keeps.ite
    | with_reducible apply State.updHerd_keeps
    | dsimp only

theorem effHerdCycle_keeps {m : Nat} {s t : State} (h : Keeps m s t)
    (hm : Sub 0x1800208 m) : Keeps m s (effHerdCycle t) := by
  unfold effHerdCycle
  try dsimp only
  repeat' first
    | with_reducible exact h
    | with_reducible assumption
    | exact Sub.trans (Sub.of (by decide)) hm
    | (intro (_ : State) hu; first | with_reducible exact hu | skip)
    | exact id
    | exact fun _ h => h
    | exact memWrite_wf _ _
    | with_reducible apply Keeps.ite
    | with_reducible apply countCycle_keeps
    | with_reducible apply pulse_keeps
    | with_reducible apply rejoinPort_keeps
    | with_reducible apply roleStart_keeps
    | with_reducible apply takeLayout_keeps
    | (with_reducible refine Keeps.foldl _ (fun _ _ _ => ?_) ?_)
    | dsimp only
    | split
    | (with_reducible refine Keeps.ofPair (by assumption) ?_)
    | (with_reducible refine Keeps.ofTriple (by assumption) ?_)

theorem countEnd_keeps {m : Nat} {s t : State} {a0 : Bytes} {a1 : Bool} (h : Keeps m s t)
    (hm : Sub 0x200 m) : Keeps m s (countEnd a0 a1 t) := by
  unfold countEnd
  try dsimp only
  repeat' first
    | with_reducible exact h
    | exact Sub.trans (Sub.of (by decide)) hm
    | with_reducible apply Keeps.ite
    | with_reducible apply State.bumpHerd_keeps

theorem followFrame_keeps {m : Nat} {s t : State} {a0 : Nat} {a1 : Bytes} {a2 : Bool} {a3 : Nat} (h : Keeps m s t)
    (hm : Sub 0xc3a4034c m) : Keeps m s (followFrame a0 a1 a2 a3 t) := by
  unfold followFrame
  try dsimp only
  repeat' first
    | with_reducible exact h
    | exact Sub.trans (Sub.of (by decide)) hm
    | exact id
    | exact fun _ h => h
    | with_reducible apply State.updHerd_keeps
    | with_reducible apply routeFrame_keeps
    | with_reducible apply setHerdRole_keeps
    | with_reducible apply setMaster_keeps

theorem masterFrame_keeps {m : Nat} {s t : State} {a0 : Nat} {a1 : Bytes} {a2 : Bool} {a3 : Nat} (h : Keeps m s t)
    (hm : Sub 0xc3a4034c m) : Keeps m s (masterFrame a0 a1 a2 a3 t) := by
  unfold masterFrame
  try dsimp only
  repeat' first
    | with_reducible exact h
    | exact Sub.trans (Sub.of (by decide)) hm
    | with_reducible apply Keeps.ite
    | with_reducible apply State.bumpHerd_keeps
    | with_reducible apply followFrame_keeps
    | with_reducible apply keepCopy_keeps
    | with_reducible apply ringYield_keeps
    | with_reducible apply routeFrame_keeps
    | dsimp only
    | split

theorem ringFrameIn_keeps {m : Nat} {s t : State} {a0 : Nat} {a1 : Bytes} {a2 : Bool} {a3 : Nat} (h : Keeps m s t)
    (hm : Sub 0xc3a4034c m) : Keeps m s (ringFrameIn a0 a1 a2 a3 t) := by
  unfold ringFrameIn
  try dsimp only
  repeat' first
    | with_reducible exact h
    | exact Sub.trans (Sub.of (by decide)) hm
    | with_reducible apply Keeps.ite
    | with_reducible apply State.bumpHerd_keeps
    | with_reducible apply countEnd_keeps
    | with_reducible apply masterFrame_keeps

theorem effSummationFrameRx_keeps {m : Nat} {s t : State} {a0 : Nat} {a1 : Bytes} {a2 : Bool} {a3 : Nat} (h : Keeps m s t)
    (hm : Sub 0xc3a4034c m) : Keeps m s (effSummationFrameRx a0 a1 a2 a3 t) := by
  unfold effSummationFrameRx
  try dsimp only
  repeat' first
    | with_reducible exact h
    | exact Sub.trans (Sub.of (by decide)) hm
    | with_reducible apply Keeps.ite
    | with_reducible apply ringFrameIn_keeps

theorem effNullFrameRx_keeps {m : Nat} {s t : State} {a0 : Nat} {a1 : Bytes} {a2 : Bool} {a3 : Nat} (h : Keeps m s t)
    (hm : Sub 0xc3a4034c m) : Keeps m s (effNullFrameRx a0 a1 a2 a3 t) := by
  unfold effNullFrameRx
  try dsimp only
  repeat' first
    | with_reducible exact h
    | exact Sub.trans (Sub.of (by decide)) hm
    | with_reducible apply Keeps.ite
    | with_reducible apply State.bumpHerd_keeps
    | with_reducible apply ringFrameIn_keeps

theorem routeBid_keeps {m : Nat} {s t : State} {a0 : Nat} {a1 : Bytes} {a2 : Bool} (h : Keeps m s t)
    (hm : Sub 0x800208 m) : Keeps m s (routeBid a0 a1 a2 t) := by
  unfold routeBid
  try dsimp only
  repeat' first
    | with_reducible exact h
    | exact Sub.trans (Sub.of (by decide)) hm
    | with_reducible apply passFrame_keeps
    | split

theorem bidFrame_keeps {m : Nat} {s t : State} {a0 : Nat} {a1 : Bytes} {a2 : Bool} (h : Keeps m s t)
    (hm : Sub 0x800208 m) : Keeps m s (bidFrame a0 a1 a2 t) := by
  unfold bidFrame
  try dsimp only
  repeat' first
    | with_reducible exact h
    | exact Sub.trans (Sub.of (by decide)) hm
    | with_reducible apply Keeps.ite
    | with_reducible apply State.bumpHerd_keeps
    | with_reducible apply ringYield_keeps
    | with_reducible apply routeBid_keeps
    | dsimp only
    | split

theorem effRutBidRx_keeps {m : Nat} {s t : State} {a0 : Nat} {a1 : Bytes} {a2 : Bool} (h : Keeps m s t)
    (hm : Sub 0x800208 m) : Keeps m s (effRutBidRx a0 a1 a2 t) := by
  unfold effRutBidRx
  try dsimp only
  repeat' first
    | with_reducible exact h
    | exact Sub.trans (Sub.of (by decide)) hm
    | with_reducible apply Keeps.ite
    | with_reducible apply State.bumpHerd_keeps
    | with_reducible apply bidFrame_keeps
    | with_reducible apply countEnd_keeps

theorem effOtherRingFrameRx_keeps {m : Nat} {s t : State} {a0 : Nat} {a1 : Bytes} {a2 : Bool} (h : Keeps m s t)
    (hm : Sub 0x200 m) : Keeps m s (effOtherRingFrameRx a0 a1 a2 t) := by
  unfold effOtherRingFrameRx
  try dsimp only
  repeat' first
    | with_reducible exact h
    | exact Sub.trans (Sub.of (by decide)) hm
    | with_reducible apply Keeps.ite
    | with_reducible apply State.bumpHerd_keeps
    | split

theorem armPoint_keeps {m : Nat} {s t : State} {a0 : Nat} {a1 : Nat} (h : Keeps m s t)
    (hm : Sub 0x800200 m) : Keeps m s (armPoint a0 a1 t) := by
  unfold armPoint
  try dsimp only
  repeat' first
    | with_reducible exact h
    | exact Sub.trans (Sub.of (by decide)) hm
    | exact id
    | exact fun _ h => h
    | with_reducible apply State.bumpBy_keeps
    | with_reducible apply State.updHerd_keeps
    | dsimp only

theorem effHerdCp_keeps {m : Nat} {s t : State} {a0 : Nat} (h : Keeps m s t)
    (hm : Sub 0x1800200 m) : Keeps m s (effHerdCp a0 t) := by
  unfold effHerdCp
  try dsimp only
  repeat' first
    | with_reducible exact h
    | exact Sub.trans (Sub.of (by decide)) hm
    | with_reducible apply Keeps.ite
    | with_reducible apply armPoint_keeps
    | with_reducible apply pulse_keeps
    | dsimp only
    | split

theorem herdStep_keeps {m : Nat} {s t : State} {a0 : Nat} (h : Keeps m s t)
    (hm : Sub 0x800200 m) : Keeps m s (herdStep a0 t) := by
  unfold herdStep
  try dsimp only
  repeat' first
    | with_reducible exact h
    | with_reducible assumption
    | exact Sub.trans (Sub.of (by decide)) hm
    | (intro (_ : State) hu; first | with_reducible exact hu | skip)
    | exact id
    | exact fun _ h => h
    | exact memWrite_wf _ _
    | with_reducible apply Keeps.ite
    | with_reducible apply State.updHerd_keeps
    | with_reducible apply armPoint_keeps
    | (with_reducible refine Keeps.foldl _ (fun _ _ _ => ?_) ?_)
    | dsimp only
    | split
    | (with_reducible refine Keeps.ofPair (by assumption) ?_)
    | (with_reducible refine Keeps.ofTriple (by assumption) ?_)

end Sys2Proof.Machine
end

