-- ==== Sys2Proof/Laws/Triggers.lean ====
section
/-!
SUPPORT. What each operation of Machine/Triggers.lean may change: the parts of the state in the set `hm`, no others, the invariant
kept. Cite these lemmas; do not unfold the operations.
-/
namespace Sys2Proof.Machine

theorem countTrig_keeps {m : Nat} {s t : State} {a0 : Nat} {a1 : Nat} {a2 : Nat} (h : Keeps m s t)
    (hm : Sub 0x200 m) : Keeps m s (countTrig a0 a1 a2 t) := by
  unfold countTrig
  try dsimp only
  repeat' first
    | with_reducible exact h
    | exact Sub.trans (Sub.of (by decide)) hm
    | with_reducible apply Keeps.ite
    | with_reducible apply State.bumpBy_keeps

theorem State.updTrig_keeps {m : Nat} {s t : State} {a1 : Nat} {a2 : Trigger → Trigger} (h : Keeps m s t)
    (hm : Sub 0x400000 m) : Keeps m s (State.updTrig t a1 a2) := by
  unfold State.updTrig
  try dsimp only
  repeat' first
    | with_reducible exact h
    | exact Sub.trans (Sub.of (by decide)) hm
    | with_reducible apply Keeps.setTrig

theorem trigDone_keeps {m : Nat} {s t : State} {a0 : Nat} (h : Keeps m s t)
    (hm : Sub 0x400000 m) : Keeps m s (trigDone a0 t) := by
  unfold trigDone
  try dsimp only
  repeat' first
    | with_reducible exact h
    | exact Sub.trans (Sub.of (by decide)) hm
    | with_reducible apply Keeps.ite
    | with_reducible apply State.updTrig_keeps

theorem trigSkip_keeps {m : Nat} {s t : State} {a0 : Nat} {a1 : Nat} (h : Keeps m s t)
    (hm : Sub 0xc3400200 m) : Keeps m s (trigSkip a0 a1 t) := by
  unfold trigSkip
  try dsimp only
  repeat' first
    | with_reducible exact h
    | exact Sub.trans (Sub.of (by decide)) hm
    | with_reducible apply Keeps.ite
    | with_reducible apply State.hit_keeps
    | with_reducible apply State.updTrig_keeps
    | with_reducible apply countTrig_keeps
    | with_reducible apply detectFault_keeps

theorem armInstant_keeps {m : Nat} {s t : State} {a0 : Nat} {a1 : Nat} {a2 : Nat} (h : Keeps m s t)
    (hm : Sub 0xc3400200 m) : Keeps m s (armInstant a0 a1 a2 t) := by
  have k1 : Sub 0x400000 m := Sub.trans (Sub.of (by decide)) hm
  unfold armInstant
  dsimp only
  generalize firstAhead t a0 a1 4 = o
  cases o with
  | none => exact trigDone_keeps (trigSkip_keeps h hm) k1
  | some j1 => exact Keeps.ite (trigDone_keeps (trigSkip_keeps h hm) k1) (State.updTrig_keeps (trigSkip_keeps h hm) k1)

theorem openBurst_keeps {m : Nat} {s t : State} {a0 : Nat} (h : Keeps m s t)
    (hm : Sub 0xc3400200 m) : Keeps m s (openBurst a0 t) := by
  have k1 : Sub 0x400000 m := Sub.trans (Sub.of (by decide)) hm
  unfold openBurst
  dsimp only
  generalize firstAhead t a0 0 64 = o
  cases o with
  | none => exact trigDone_keeps h k1
  | some j0 => exact Keeps.ite (Keeps.ite (trigDone_keeps h k1) (armInstant_keeps h hm)) (armInstant_keeps h hm)

theorem takeTrigStart_keeps {m : Nat} {s t : State} {a0 : Nat} (h : Keeps m s t)
    (hm : Sub 0xc3400200 m) : Keeps m s (takeTrigStart a0 t) := by
  unfold takeTrigStart
  exact Keeps.ite
    (Keeps.ite (State.updTrig_keeps h (Sub.trans (Sub.of (by decide)) hm))
      (countTrig_keeps h (Sub.trans (Sub.of (by decide)) hm)))
    (openBurst_keeps h hm)

theorem effTriggerStart_keeps {m : Nat} {s t : State} {a0 : Nat} (h : Keeps m s t)
    (hm : Sub 0xc3400200 m) : Keeps m s (effTriggerStart a0 t) := by
  unfold effTriggerStart
  try dsimp only
  repeat' first
    | with_reducible exact h
    | exact Sub.trans (Sub.of (by decide)) hm
    | with_reducible apply Keeps.ite
    | with_reducible apply State.updTrig_keeps
    | with_reducible apply openBurst_keeps
    | with_reducible apply takeTrigStart_keeps
    | dsimp only

theorem armMask_keeps {m : Nat} {s t : State} {a0 : Nat} {a1 : Nat} (h : Keeps m s t)
    (hm : Sub 0xc3400200 m) : Keeps m s (armMask a0 a1 t) := by
  unfold armMask
  try dsimp only
  repeat' first
    | with_reducible exact h
    | with_reducible assumption
    | exact Sub.trans (Sub.of (by decide)) hm
    | (intro (_ : State) hu; first | with_reducible exact hu | skip)
    | exact id
    | exact fun _ h => h
    | with_reducible apply Keeps.ite
    | with_reducible apply takeTrigStart_keeps
    | (with_reducible refine Keeps.foldl _ (fun _ _ _ => ?_) ?_)
    | dsimp only
    | split
    | (with_reducible refine Keeps.ofPair (by assumption) ?_)
    | (with_reducible refine Keeps.ofTriple (by assumption) ?_)

theorem effOutArm_keeps {m : Nat} {s t : State} {a0 : Nat} {a1 : Nat} (h : Keeps m s t)
    (hm : Sub 0xcb40020c m) : Keeps m s (effOutArm a0 a1 t) := by
  unfold effOutArm
  try dsimp only
  repeat' first
    | with_reducible exact h
    | exact Sub.trans (Sub.of (by decide)) hm
    | with_reducible apply Keeps.ite
    | with_reducible apply armMask_keeps
    | with_reducible apply refuseBar_keeps

theorem effIntArm_keeps {m : Nat} {s t : State} {a0 : Nat} {a1 : Bool} {a2 : Nat} (h : Keeps m s t)
    (hm : Sub 0xcb40020c m) : Keeps m s (effIntArm a0 a1 a2 t) := by
  unfold effIntArm
  try dsimp only
  repeat' first
    | with_reducible exact h
    | exact Sub.trans (Sub.of (by decide)) hm
    | with_reducible apply Keeps.ite
    | with_reducible apply armMask_keeps
    | with_reducible apply refuseBar_keeps

theorem lineStarts_keeps {m : Nat} {s t : State} {a0 : Nat} (h : Keeps m s t)
    (hm : Sub 0x400000 m) : Keeps m s (lineStarts a0 t) := by
  unfold lineStarts
  try dsimp only
  repeat' first
    | with_reducible exact h
    | with_reducible assumption
    | exact Sub.trans (Sub.of (by decide)) hm
    | (intro (_ : State) hu; first | with_reducible exact hu | skip)
    | exact id
    | exact fun _ h => h
    | with_reducible apply Keeps.ite
    | with_reducible apply State.updTrig_keeps
    | (with_reducible refine Keeps.foldl _ (fun _ _ _ => ?_) ?_)
    | dsimp only
    | split
    | (with_reducible refine Keeps.ofPair (by assumption) ?_)
    | (with_reducible refine Keeps.ofTriple (by assumption) ?_)

theorem placePulse_keeps {m : Nat} {s t : State} {a0 : Nat} {a1 : Int} (h : Keeps m s t)
    (hm : Sub 0x400000 m) : Keeps m s (placePulse a0 a1 t) := by
  unfold placePulse
  try dsimp only
  repeat' first
    | with_reducible exact h
    | exact Sub.trans (Sub.of (by decide)) hm
    | with_reducible apply State.updTrig_keeps

theorem issueEdges_keeps {m : Nat} {s t : State} {a0 : Nat} {a1 : Nat} (h : Keeps m s t)
    (hm : Sub 0x400000 m) : Keeps m s (issueEdges a0 a1 t) := by
  induction a1 generalizing t a0 with
  | zero =>
    unfold issueEdges
    repeat' first
      | with_reducible exact h
      | exact Sub.trans (Sub.of (by decide)) hm
      | with_reducible apply State.updTrig_keeps
      | with_reducible apply placePulse_keeps
      | with_reducible apply Keeps.ite
      | dsimp only
      | split
  | succ _ ih =>
    unfold issueEdges
    try dsimp only
    repeat' first
      | with_reducible exact h
      | exact Sub.trans (Sub.of (by decide)) hm
      | with_reducible apply ih
      | with_reducible apply State.updTrig_keeps
      | with_reducible apply placePulse_keeps
      | with_reducible apply Keeps.ite
      | dsimp only
      | split

theorem issueDue_keeps {m : Nat} {s t : State} (h : Keeps m s t)
    (hm : Sub 0x400000 m) : Keeps m s (issueDue t) := by
  unfold issueDue
  try dsimp only
  repeat' first
    | with_reducible exact h
    | with_reducible assumption
    | exact Sub.trans (Sub.of (by decide)) hm
    | (intro (_ : State) hu; first | with_reducible exact hu | skip)
    | exact id
    | exact fun _ h => h
    | with_reducible apply Keeps.ite
    | with_reducible apply issueEdges_keeps
    | (with_reducible refine Keeps.foldl _ (fun _ _ _ => ?_) ?_)
    | dsimp only
    | split
    | (with_reducible refine Keeps.ofPair (by assumption) ?_)
    | (with_reducible refine Keeps.ofTriple (by assumption) ?_)

theorem placeInstant_keeps {m : Nat} {s t : State} {a0 : Nat} {a1 : Nat} (h : Keeps m s t)
    (hm : Sub 0x400000 m) : Keeps m s (placeInstant a0 a1 t) := by
  unfold placeInstant
  try dsimp only
  repeat' first
    | with_reducible exact h
    | exact Sub.trans (Sub.of (by decide)) hm
    | with_reducible apply Keeps.ite
    | with_reducible apply State.updTrig_keeps
    | with_reducible apply placePulse_keeps

theorem takeAgain_keeps {m : Nat} {s t : State} {a0 : Nat} (h : Keeps m s t)
    (hm : Sub 0xc3400200 m) : Keeps m s (takeAgain a0 t) := by
  unfold takeAgain
  try dsimp only
  repeat' first
    | with_reducible exact h
    | exact Sub.trans (Sub.of (by decide)) hm
    | with_reducible apply Keeps.ite
    | with_reducible apply State.updTrig_keeps
    | with_reducible apply openBurst_keeps
    | dsimp only

theorem fireInstant_keeps {m : Nat} {s t : State} {a0 : Nat} {a1 : Nat} (h : Keeps m s t)
    (hm : Sub 0xc3400200 m) : Keeps m s (fireInstant a0 a1 t) := by
  unfold fireInstant
  try dsimp only
  repeat' first
    | with_reducible exact h
    | exact Sub.trans (Sub.of (by decide)) hm
    | with_reducible apply Keeps.ite
    | with_reducible apply armInstant_keeps
    | with_reducible apply countTrig_keeps
    | with_reducible apply placeInstant_keeps
    | with_reducible apply pulse_keeps
    | with_reducible apply trigDone_keeps
    | dsimp only

theorem effTriggerInstant_keeps {m : Nat} {s t : State} {a0 : Nat} (h : Keeps m s t)
    (hm : Sub 0xc3400200 m) : Keeps m s (effTriggerInstant a0 t) := by
  unfold effTriggerInstant
  try dsimp only
  repeat' first
    | with_reducible exact h
    | exact Sub.trans (Sub.of (by decide)) hm
    | with_reducible apply Keeps.ite
    | with_reducible apply armInstant_keeps
    | with_reducible apply fireInstant_keeps
    | with_reducible apply takeAgain_keeps
    | dsimp only
    | split

theorem effIntTrig_keeps {m : Nat} {s t : State} {a0 : Nat} (h : Keeps m s t)
    (hm : Sub 0xc3400200 m) : Keeps m s (effIntTrig a0 t) := by
  unfold effIntTrig
  try dsimp only
  repeat' first
    | with_reducible exact h
    | exact Sub.trans (Sub.of (by decide)) hm
    | with_reducible apply Keeps.ite
    | with_reducible apply effTriggerInstant_keeps

theorem effTriggerPulseEnd_keeps {m : Nat} {s t : State} {a0 : Nat} (h : Keeps m s t)
    (hm : Sub 0x400000 m) : Keeps m s (effTriggerPulseEnd a0 t) := by
  unfold effTriggerPulseEnd
  try dsimp only
  repeat' first
    | with_reducible exact h
    | exact Sub.trans (Sub.of (by decide)) hm
    | with_reducible apply Keeps.ite
    | with_reducible apply State.updTrig_keeps

theorem trigStep_keeps {m : Nat} {s t : State} {a0 : Nat} (h : Keeps m s t)
    (hm : Sub 0xc3400200 m) : Keeps m s (trigStep a0 t) := by
  unfold trigStep
  try dsimp only
  repeat' first
    | with_reducible exact h
    | with_reducible assumption
    | exact Sub.trans (Sub.of (by decide)) hm
    | (intro (_ : State) hu; first | with_reducible exact hu | skip)
    | exact id
    | exact fun _ h => h
    | with_reducible apply Keeps.ite
    | with_reducible apply armInstant_keeps
    | (with_reducible refine Keeps.foldl _ (fun _ _ _ => ?_) ?_)
    | dsimp only
    | split
    | (with_reducible refine Keeps.ofPair (by assumption) ?_)
    | (with_reducible refine Keeps.ofTriple (by assumption) ?_)

theorem trigBegin_keeps {m : Nat} {s t : State} {a0 : Nat} (h : Keeps m s t)
    (hm : Sub 0x400000 m) : Keeps m s (trigBegin a0 t) := by
  unfold trigBegin
  try dsimp only
  repeat' first
    | with_reducible exact h
    | exact Sub.trans (Sub.of (by decide)) hm
    | with_reducible apply Keeps.ite
    | with_reducible apply State.updTrig_keeps
    | dsimp only

theorem trigEnterRun_keeps {m : Nat} {s t : State} (h : Keeps m s t)
    (hm : Sub 0x400000 m) : Keeps m s (trigEnterRun t) := by
  unfold trigEnterRun
  try dsimp only
  repeat' first
    | with_reducible exact h
    | with_reducible assumption
    | exact Sub.trans (Sub.of (by decide)) hm
    | (intro (_ : State) hu; first | with_reducible exact hu | skip)
    | exact id
    | exact fun _ h => h
    | with_reducible apply Keeps.ite
    | with_reducible apply trigBegin_keeps
    | (with_reducible refine Keeps.foldl _ (fun _ _ _ => ?_) ?_)
    | dsimp only
    | split
    | (with_reducible refine Keeps.ofPair (by assumption) ?_)
    | (with_reducible refine Keeps.ofTriple (by assumption) ?_)

theorem trigLeaveRun_keeps {m : Nat} {s t : State} (h : Keeps m s t)
    (hm : Sub 0x400000 m) : Keeps m s (trigLeaveRun t) := by
  unfold trigLeaveRun
  try dsimp only
  repeat' first
    | with_reducible exact h
    | exact Sub.trans (Sub.of (by decide)) hm
    | with_reducible apply Keeps.setTrig

theorem trigCut_keeps {m : Nat} {s t : State} (h : Keeps m s t)
    (hm : Sub 0x400000 m) : Keeps m s (trigCut t) := by
  unfold trigCut
  try dsimp only
  repeat' first
    | with_reducible exact h
    | exact Sub.trans (Sub.of (by decide)) hm
    | with_reducible apply Keeps.setTrig

theorem trigCutover_keeps {m : Nat} {s t : State} {a0 : Image} (h : Keeps m s t)
    (hm : Sub 0x400000 m) : Keeps m s (trigCutover a0 t) := by
  unfold trigCutover
  try dsimp only
  repeat' first
    | with_reducible exact h
    | with_reducible assumption
    | exact Sub.trans (Sub.of (by decide)) hm
    | (intro (_ : State) hu; first | with_reducible exact hu | skip)
    | exact id
    | exact fun _ h => h
    | with_reducible apply Keeps.ite
    | with_reducible apply trigBegin_keeps
    | (with_reducible refine Keeps.foldl _ (fun _ _ _ => ?_) ?_)
    | dsimp only
    | split
    | (with_reducible refine Keeps.ofPair (by assumption) ?_)
    | (with_reducible refine Keeps.ofTriple (by assumption) ?_)

theorem State.updEv_keeps {m : Nat} {s t : State} {a1 : Nat} {a2 : EvIn → EvIn} (h : Keeps m s t)
    (hm : Sub 0x400000 m) : Keeps m s (State.updEv t a1 a2) := by
  unfold State.updEv
  try dsimp only
  repeat' first
    | with_reducible exact h
    | exact Sub.trans (Sub.of (by decide)) hm
    | with_reducible apply Keeps.setTrig

theorem rejectChange_keeps {m : Nat} {s t : State} {a0 : Nat} (h : Keeps m s t)
    (hm : Sub 0x200 m) : Keeps m s (rejectChange a0 t) := by
  unfold rejectChange
  try dsimp only
  repeat' first
    | with_reducible exact h
    | exact Sub.trans (Sub.of (by decide)) hm
    | with_reducible apply State.bump_keeps

theorem takeChangeAt_keeps {m : Nat} {s t : State} {a0 : Nat} {a1 : Bool} {a2 : Nat} (h : Keeps m s t)
    (hm : Sub 0x400200 m) : Keeps m s (takeChangeAt a0 a1 a2 t) := by
  unfold takeChangeAt
  try dsimp only
  repeat' first
    | with_reducible exact h
    | exact Sub.trans (Sub.of (by decide)) hm
    | with_reducible apply Keeps.ite
    | with_reducible apply State.updEv_keeps
    | with_reducible apply rejectChange_keeps
    | dsimp only
    | split

theorem effEvInChange_keeps {m : Nat} {s t : State} {a0 : Nat} {a1 : Bool} {a2 : Nat} (h : Keeps m s t)
    (hm : Sub 0x400200 m) : Keeps m s (effEvInChange a0 a1 a2 t) := by
  unfold effEvInChange
  try dsimp only
  repeat' first
    | with_reducible exact h
    | exact Sub.trans (Sub.of (by decide)) hm
    | with_reducible apply Keeps.ite
    | with_reducible apply State.updEv_keeps
    | with_reducible apply takeChangeAt_keeps
    | dsimp only

theorem standCapture_keeps {m : Nat} {s t : State} {a0 : Nat} {a1 : Bool} {a2 : Nat} (h : Keeps m s t)
    (hm : Sub 0x81400000 m) : Keeps m s (standCapture a0 a1 a2 t) := by
  unfold standCapture
  try dsimp only
  repeat' first
    | with_reducible exact h
    | exact Sub.trans (Sub.of (by decide)) hm
    | with_reducible apply State.updEv_keeps
    | with_reducible apply raiseSource_keeps

theorem capture0640_keeps {m : Nat} {s t : State} {a0 : Nat} {a1 : Bool} {a2 : Nat} (h : Keeps m s t)
    (hm : Sub 0x81400200 m) : Keeps m s (capture0640 a0 a1 a2 t) := by
  unfold capture0640
  try dsimp only
  repeat' first
    | with_reducible exact h
    | exact Sub.trans (Sub.of (by decide)) hm
    | with_reducible apply Keeps.ite
    | with_reducible apply State.bump_keeps
    | with_reducible apply State.hit_keeps
    | with_reducible apply State.updEv_keeps
    | with_reducible apply standCapture_keeps
    | dsimp only

theorem captureChange_keeps {m : Nat} {s t : State} {a0 : Nat} {a1 : Bool} {a2 : List Nat} (h : Keeps m s t)
    (hm : Sub 0xc3418200 m) : Keeps m s (captureChange a0 a1 a2 t) := by
  unfold captureChange
  try dsimp only
  repeat' first
    | with_reducible exact h
    | exact Sub.trans (Sub.of (by decide)) hm
    | with_reducible apply Keeps.ite
    | with_reducible apply State.bump_keeps
    | with_reducible apply capture0640_keeps
    | with_reducible apply pulse_keeps
    | with_reducible apply writeRecord_keeps
    | dsimp only

theorem effEvCapture_keeps {m : Nat} {s t : State} {a0 : Nat} (h : Keeps m s t)
    (hm : Sub 0xc3418200 m) : Keeps m s (effEvCapture a0 t) := by
  unfold effEvCapture
  try dsimp only
  repeat' first
    | with_reducible exact h
    | exact Sub.trans (Sub.of (by decide)) hm
    | with_reducible apply Keeps.ite
    | with_reducible apply State.updEv_keeps
    | with_reducible apply captureChange_keeps
    | with_reducible apply rejectChange_keeps
    | dsimp only
    | split

theorem clearCapture_keeps {m : Nat} {s t : State} {a0 : Nat} (h : Keeps m s t)
    (hm : Sub 0x400000 m) : Keeps m s (clearCapture a0 t) := by
  unfold clearCapture
  try dsimp only
  repeat' first
    | with_reducible exact h
    | exact Sub.trans (Sub.of (by decide)) hm
    | with_reducible apply State.updEv_keeps

theorem readCapture_keeps {m : Nat} {s t : State} {a0 : Nat} (h : Keeps m s t)
    (hm : Sub 0x81400200 m) : Keeps m s (readCapture a0 t) := by
  unfold readCapture
  try dsimp only
  repeat' first
    | with_reducible exact h
    | exact Sub.trans (Sub.of (by decide)) hm
    | with_reducible apply Keeps.ite
    | with_reducible apply State.bumpBy_keeps
    | with_reducible apply State.updEv_keeps
    | with_reducible apply clearCapture_keeps
    | with_reducible apply standCapture_keeps
    | split

theorem effCapStatusRead_keeps {m : Nat} {s t : State} {a0 : Nat} {a1 : Nat} (h : Keeps m s t)
    (hm : Sub 0x8940020c m) : Keeps m s (effCapStatusRead a0 a1 t) := by
  unfold effCapStatusRead
  try dsimp only
  repeat' first
    | with_reducible exact h
    | exact Sub.trans (Sub.of (by decide)) hm
    | with_reducible apply Keeps.ite
    | with_reducible apply State.emit_keeps
    | with_reducible apply State.rehit_keeps
    | with_reducible apply readCapture_keeps
    | with_reducible apply refuseBar_keeps
    | dsimp only

theorem evCutover_keeps {m : Nat} {s t : State} {a0 : Image} (h : Keeps m s t)
    (hm : Sub 0x400000 m) : Keeps m s (evCutover a0 t) := by
  unfold evCutover
  try dsimp only
  repeat' first
    | with_reducible exact h
    | with_reducible assumption
    | exact Sub.trans (Sub.of (by decide)) hm
    | (intro (_ : State) hu; first | with_reducible exact hu | skip)
    | exact id
    | exact fun _ h => h
    | with_reducible apply Keeps.ite
    | with_reducible apply State.updEv_keeps
    | (with_reducible refine Keeps.foldl _ (fun _ _ _ => ?_) ?_)
    | dsimp only
    | split
    | (with_reducible refine Keeps.ofPair (by assumption) ?_)
    | (with_reducible refine Keeps.ofTriple (by assumption) ?_)

end Sys2Proof.Machine
end

