-- ==== Sys2Proof/Laws/Compares.lean ====
section
/-!
SUPPORT. What each operation of Machine/Compares.lean may change: the parts of the state in the set `hm`, no others, the invariant
kept. Cite these lemmas; do not unfold the operations.
-/
namespace Sys2Proof.Machine

theorem endCommit_keeps {m : Nat} {s t : State} {a0 : Nat} {a1 : Nat} {a2 : Nat} (h : Keeps m s t)
    (hm : Sub 0x1000280 m) : Keeps m s (endCommit a0 a1 a2 t) := by
  unfold endCommit
  try dsimp only
  repeat' first
    | with_reducible exact h
    | exact Sub.trans (Sub.of (by decide)) hm
    | with_reducible apply pulse_keeps
    | with_reducible apply Keeps.setCfg

theorem markCommit_keeps {m : Nat} {s t : State} {a0 : Nat} (h : Keeps m s t)
    (hm : Sub 0x1000280 m) : Keeps m s (markCommit a0 t) := by
  unfold markCommit
  try dsimp only
  repeat' first
    | with_reducible exact h
    | exact Sub.trans (Sub.of (by decide)) hm
    | with_reducible apply Keeps.ite
    | with_reducible apply endCommit_keeps

theorem stepOverCompares_keeps {m : Nat} {s t : State} {a0 : Nat} (h : Keeps m s t)
    (hm : Sub 0xc3e00280 m) : Keeps m s (stepOverCompares a0 t) := by
  unfold stepOverCompares
  try dsimp only
  repeat' first
    | with_reducible exact h
    | exact Sub.trans (Sub.of (by decide)) hm
    | with_reducible apply Keeps.ite
    | with_reducible apply State.bumpBy_keeps
    | with_reducible apply State.hit_keeps
    | with_reducible apply State.updDom_keeps
    | with_reducible apply herdStep_keeps
    | with_reducible apply markCommit_keeps
    | with_reducible apply trigStep_keeps
    | dsimp only

theorem stepForward_keeps {m : Nat} {s t : State} {a0 : Nat} (h : Keeps m s t)
    (hm : Sub 0xc3e00280 m) : Keeps m s (stepForward a0 t) := by
  unfold stepForward
  try dsimp only
  repeat' first
    | with_reducible exact h
    | with_reducible assumption
    | exact Sub.trans (Sub.of (by decide)) hm
    | (intro (_ : State) hu; first | with_reducible exact hu | skip)
    | exact id
    | exact fun _ h => h
    | with_reducible apply Keeps.ite
    | with_reducible apply ppsSkip_keeps
    | with_reducible apply stepOverCompares_keeps
    | (with_reducible refine Keeps.foldl _ (fun _ _ _ => ?_) ?_)
    | dsimp only
    | split
    | (with_reducible refine Keeps.ofPair (by assumption) ?_)
    | (with_reducible refine Keeps.ofTriple (by assumption) ?_)

theorem effStepApply_keeps {m : Nat} {s t : State} {a0 : Nat} (h : Keeps m s t)
    (hm : Sub 0xc3e54e80 m) : Keeps m s (effStepApply a0 t) := by
  unfold effStepApply
  try dsimp only
  repeat' first
    | with_reducible exact h
    | exact Sub.trans (Sub.of (by decide)) hm
    | with_reducible apply Keeps.ite
    | with_reducible apply State.bump_keeps
    | with_reducible apply State.updDom_keeps
    | with_reducible apply gateStepOverruns_keeps
    | with_reducible apply gatesStep_keeps
    | with_reducible apply loseLock_keeps
    | with_reducible apply pulse_keeps
    | with_reducible apply stepForward_keeps
    | dsimp only
    | split

end Sys2Proof.Machine
end

