-- ==== Sys2Proof/Laws/Ports.lean ====
section
/-!
SUPPORT. What each operation of Machine/Ports.lean may change: the parts of the state in the set `hm`, no others, the invariant
kept. Cite these lemmas; do not unfold the operations.
-/
namespace Sys2Proof.Machine

theorem noteLink_keeps {m : Nat} {s t : State} {a0 : Nat} {a1 : Nat} (h : Keeps m s t)
    (hm : Sub 0x1000200 m) : Keeps m s (noteLink a0 a1 t) := by
  unfold noteLink
  try dsimp only
  repeat' first
    | with_reducible exact h
    | exact Sub.trans (Sub.of (by decide)) hm
    | with_reducible apply Keeps.ite
    | with_reducible apply State.bumpPort_keeps
    | with_reducible apply pulse_keeps
    | dsimp only

theorem sendVerify_keeps {m : Nat} {s t : State} {a0 : Nat} {a1 : Nat} (h : Keeps m s t)
    (hm : Sub 0xa08 m) : Keeps m s (sendVerify a0 a1 t) := by
  unfold sendVerify
  try dsimp only
  repeat' first
    | with_reducible exact h
    | exact Sub.trans (Sub.of (by decide)) hm
    | with_reducible apply State.updPort_keeps
    | with_reducible apply sendControl_keeps

theorem effVerifyFrameReceived_keeps {m : Nat} {s t : State} {a0 : Nat} (h : Keeps m s t)
    (hm : Sub 0xa08 m) : Keeps m s (effVerifyFrameReceived a0 t) := by
  unfold effVerifyFrameReceived
  try dsimp only
  repeat' first
    | with_reducible exact h
    | exact Sub.trans (Sub.of (by decide)) hm
    | with_reducible apply Keeps.ite
    | with_reducible apply sendControl_keeps
    | with_reducible apply takeVerify_keeps

theorem effRespondFrameReceived_keeps {m : Nat} {s t : State} {a0 : Nat} (h : Keeps m s t)
    (hm : Sub 0xa00 m) : Keeps m s (effRespondFrameReceived a0 t) := by
  unfold effRespondFrameReceived
  try dsimp only
  repeat' first
    | with_reducible exact h
    | exact Sub.trans (Sub.of (by decide)) hm
    | with_reducible apply Keeps.ite
    | with_reducible apply takeRespond_keeps

theorem effVerifyTimeExpiry_keeps {m : Nat} {s t : State} {a0 : Nat} (h : Keeps m s t)
    (hm : Sub 0xa08 m) : Keeps m s (effVerifyTimeExpiry a0 t) := by
  unfold effVerifyTimeExpiry
  try dsimp only
  repeat' first
    | with_reducible exact h
    | exact Sub.trans (Sub.of (by decide)) hm
    | with_reducible apply Keeps.ite
    | with_reducible apply State.bumpPort_keeps
    | with_reducible apply State.updPort_keeps
    | with_reducible apply sendVerify_keeps
    | dsimp only

theorem effLinkUp_keeps {m : Nat} {s t : State} {a0 : Nat} (h : Keeps m s t)
    (hm : Sub 0x800a08 m) : Keeps m s (effLinkUp a0 t) := by
  unfold effLinkUp
  try dsimp only
  repeat' first
    | with_reducible exact h
    | exact Sub.trans (Sub.of (by decide)) hm
    | with_reducible apply Keeps.ite
    | with_reducible apply State.updPort_keeps
    | with_reducible apply ringLinkUp_keeps
    | with_reducible apply sendControl_keeps
    | with_reducible apply sendVerify_keeps
    | dsimp only

theorem dropAssembly_keeps {m : Nat} {s t : State} {a0 : Nat} (h : Keeps m s t)
    (hm : Sub 0xa00 m) : Keeps m s (dropAssembly a0 t) := by
  unfold dropAssembly
  try dsimp only
  repeat' first
    | with_reducible exact h
    | exact Sub.trans (Sub.of (by decide)) hm
    | with_reducible apply Keeps.ite
    | with_reducible apply assemblyError_keeps

theorem dropMargins_keeps {m : Nat} {s t : State} {a0 : Nat} (h : Keeps m s t)
    (hm : Sub 0x4000000 m) : Keeps m s (dropMargins a0 t) := by
  unfold dropMargins
  try dsimp only
  repeat' first
    | with_reducible exact h
    | exact Sub.trans (Sub.of (by decide)) hm
    | with_reducible apply Keeps.setHealth

theorem fallLink_keeps {m : Nat} {s t : State} {a0 : Nat} {a1 : Nat} (h : Keeps m s t)
    (hm : Sub 0x4000a00 m) : Keeps m s (fallLink a0 a1 t) := by
  unfold fallLink
  try dsimp only
  repeat' first
    | with_reducible exact h
    | exact Sub.trans (Sub.of (by decide)) hm
    | with_reducible apply State.updPort_keeps
    | with_reducible apply dropAssembly_keeps
    | with_reducible apply dropMargins_keeps

theorem effLinkDown_keeps {m : Nat} {s t : State} {a0 : Nat} {a1 : Nat} (h : Keeps m s t)
    (hm : Sub 0xc7000a00 m) : Keeps m s (effLinkDown a0 a1 t) := by
  unfold effLinkDown
  try dsimp only
  repeat' first
    | with_reducible exact h
    | exact Sub.trans (Sub.of (by decide)) hm
    | with_reducible apply Keeps.ite
    | with_reducible apply State.bumpPort_keeps
    | with_reducible apply detectFault_keeps
    | with_reducible apply fallLink_keeps
    | dsimp only

theorem effLinkUpHoldExpiry_keeps {m : Nat} {s t : State} {a0 : Nat} (h : Keeps m s t)
    (hm : Sub 0x1000a00 m) : Keeps m s (effLinkUpHoldExpiry a0 t) := by
  unfold effLinkUpHoldExpiry
  try dsimp only
  repeat' first
    | with_reducible exact h
    | exact Sub.trans (Sub.of (by decide)) hm
    | with_reducible apply Keeps.ite
    | with_reducible apply State.updPort_keeps
    | with_reducible apply noteLink_keeps

theorem effLinkDownHoldExpiry_keeps {m : Nat} {s t : State} {a0 : Nat} (h : Keeps m s t)
    (hm : Sub 0x1000a00 m) : Keeps m s (effLinkDownHoldExpiry a0 t) := by
  unfold effLinkDownHoldExpiry
  try dsimp only
  repeat' first
    | with_reducible exact h
    | exact Sub.trans (Sub.of (by decide)) hm
    | with_reducible apply Keeps.ite
    | with_reducible apply State.updPort_keeps
    | with_reducible apply noteLink_keeps
    | dsimp only

theorem failAn_keeps {m : Nat} {s t : State} {a0 : Nat} {a1 : Nat} (h : Keeps m s t)
    (hm : Sub 0xa08 m) : Keeps m s (failAn a0 a1 t) := by
  unfold failAn
  try dsimp only
  repeat' first
    | with_reducible exact h
    | exact Sub.trans (Sub.of (by decide)) hm
    | with_reducible apply Keeps.ite
    | with_reducible apply State.bumpPort_keeps
    | with_reducible apply State.emit_keeps
    | with_reducible apply State.updPort_keeps
    | dsimp only

theorem effAnResolution_keeps {m : Nat} {s t : State} {a0 : Nat} {a1 : Nat} (h : Keeps m s t)
    (hm : Sub 0xa08 m) : Keeps m s (effAnResolution a0 a1 t) := by
  unfold effAnResolution
  try dsimp only
  repeat' first
    | with_reducible exact h
    | exact Sub.trans (Sub.of (by decide)) hm
    | with_reducible apply Keeps.ite
    | with_reducible apply State.updPort_keeps
    | with_reducible apply failAn_keeps
    | dsimp only

theorem effAnFailure_keeps {m : Nat} {s t : State} {a0 : Nat} {a1 : Nat} (h : Keeps m s t)
    (hm : Sub 0xa08 m) : Keeps m s (effAnFailure a0 a1 t) := by
  unfold effAnFailure
  try dsimp only
  repeat' first
    | with_reducible exact h
    | exact Sub.trans (Sub.of (by decide)) hm
    | with_reducible apply Keeps.ite
    | with_reducible apply failAn_keeps

theorem effLpiReceived_keeps {m : Nat} {s t : State} {a0 : Nat} (h : Keeps m s t)
    (hm : Sub 0x200 m) : Keeps m s (effLpiReceived a0 t) := by
  unfold effLpiReceived
  try dsimp only
  repeat' first
    | with_reducible exact h
    | exact Sub.trans (Sub.of (by decide)) hm
    | with_reducible apply Keeps.ite
    | with_reducible apply State.bumpPort_keeps

theorem startLink_keeps {m : Nat} {s t : State} {a0 : Nat} (h : Keeps m s t)
    (hm : Sub 0x4000a08 m) : Keeps m s (startLink a0 t) := by
  unfold startLink
  try dsimp only
  repeat' first
    | with_reducible exact h
    | exact Sub.trans (Sub.of (by decide)) hm
    | with_reducible apply Keeps.ite
    | with_reducible apply State.emit_keeps
    | with_reducible apply State.updPort_keeps
    | with_reducible apply fallLink_keeps
    | dsimp only

theorem restartLink_keeps {m : Nat} {s t : State} {a0 : Nat} (h : Keeps m s t)
    (hm : Sub 0x4000a08 m) : Keeps m s (restartLink a0 t) := by
  unfold restartLink
  try dsimp only
  repeat' first
    | with_reducible exact h
    | exact Sub.trans (Sub.of (by decide)) hm
    | with_reducible apply State.updPort_keeps
    | with_reducible apply startLink_keeps

theorem linkPower_keeps {m : Nat} {s t : State} {a0 : Nat} {a1 : Bool} (h : Keeps m s t)
    (hm : Sub 0x4000a08 m) : Keeps m s (linkPower a0 a1 t) := by
  unfold linkPower
  try dsimp only
  repeat' first
    | with_reducible exact h
    | exact Sub.trans (Sub.of (by decide)) hm
    | with_reducible apply Keeps.ite
    | with_reducible apply startLink_keeps

theorem cutVerify_keeps {m : Nat} {s t : State} {a0 : Bool} {a1 : Image} {a2 : Nat} (h : Keeps m s t)
    (hm : Sub 0xa08 m) : Keeps m s (cutVerify a0 a1 a2 t) := by
  unfold cutVerify
  try dsimp only
  repeat' first
    | with_reducible exact h
    | exact Sub.trans (Sub.of (by decide)) hm
    | with_reducible apply Keeps.ite
    | with_reducible apply State.updPort_keeps
    | with_reducible apply sendVerify_keeps
    | dsimp only

theorem cutPort_keeps {m : Nat} {s t : State} {a0 : State} {a1 : Image} {a3 : Nat} (h : Keeps m s t)
    (hm : Sub 0x5000e08 m) : Keeps m s (cutPort a0 a1 t a3) := by
  unfold cutPort
  try dsimp only
  repeat' first
    | with_reducible exact h
    | with_reducible assumption
    | exact Sub.trans (Sub.of (by decide)) hm
    | (intro (_ : State) hu; first | with_reducible exact hu | skip)
    | exact id
    | exact fun _ h => h
    | with_reducible apply Keeps.ite
    | with_reducible apply cutVerify_keeps
    | with_reducible apply dropSending_keeps
    | with_reducible apply emptyQueue_keeps
    | with_reducible apply linkPower_keeps
    | with_reducible apply noteLink_keeps
    | with_reducible apply restartLink_keeps
    | with_reducible apply unlinkWhere_keeps
    | (with_reducible refine Keeps.foldl _ (fun _ _ _ => ?_) ?_)
    | dsimp only
    | split
    | (with_reducible refine Keeps.ofPair (by assumption) ?_)
    | (with_reducible refine Keeps.ofTriple (by assumption) ?_)

theorem cutMgt_keeps {m : Nat} {s t : State} {a0 : State} {a2 : Nat} (h : Keeps m s t)
    (hm : Sub 0x5000a08 m) : Keeps m s (cutMgt a0 t a2) := by
  unfold cutMgt
  try dsimp only
  repeat' first
    | with_reducible exact h
    | exact Sub.trans (Sub.of (by decide)) hm
    | with_reducible apply Keeps.ite
    | with_reducible apply linkPower_keeps
    | with_reducible apply noteLink_keeps
    | with_reducible apply restartLink_keeps
    | dsimp only

theorem applyPorts_keeps {m : Nat} {s t : State} {a0 : State} {a1 : Image} (h : Keeps m s t)
    (hm : Sub 0x5000e08 m) : Keeps m s (applyPorts a0 a1 t) := by
  unfold applyPorts
  try dsimp only
  repeat' first
    | with_reducible exact h
    | with_reducible assumption
    | exact Sub.trans (Sub.of (by decide)) hm
    | (intro (_ : State) hu; first | with_reducible exact hu | skip)
    | exact id
    | exact fun _ h => h
    | with_reducible apply Keeps.ite
    | with_reducible apply cutMgt_keeps
    | with_reducible apply cutPort_keeps
    | (with_reducible refine Keeps.foldl _ (fun _ _ _ => ?_) ?_)
    | dsimp only
    | split
    | (with_reducible refine Keeps.ofPair (by assumption) ?_)
    | (with_reducible refine Keeps.ofTriple (by assumption) ?_)

end Sys2Proof.Machine
end

