-- ==== Sys2Proof/Laws/Copy.lean ====
section
/-!
SUPPORT. What each operation of Machine/Copy.lean may change: the parts of the state in the set `hm`, no others, the invariant
kept. Cite these lemmas; do not unfold the operations.
-/
namespace Sys2Proof.Machine

theorem clearMarks_keeps {m : Nat} {s t : State} {a0 : List Nat} (h : Keeps m s t)
    (hm : Sub 0x100000 m) : Keeps m s (clearMarks a0 t) := by
  unfold clearMarks
  try dsimp only
  repeat' first
    | with_reducible exact h
    | with_reducible assumption
    | exact Sub.trans (Sub.of (by decide)) hm
    | (intro (_ : State) hu; first | with_reducible exact hu | skip)
    | exact id
    | exact fun _ h => h
    | with_reducible apply Keeps.ite
    | with_reducible apply State.updRecov_keeps
    | (with_reducible refine Keeps.foldl _ (fun _ _ _ => ?_) ?_)
    | dsimp only
    | split
    | (with_reducible refine Keeps.ofPair (by assumption) ?_)
    | (with_reducible refine Keeps.ofTriple (by assumption) ?_)
    | with_reducible apply Keeps.setFrer

theorem restoreMarks_keeps {m : Nat} {s t : State} {a0 : List (Prod Nat Nat)} (h : Keeps m s t)
    (hm : Sub 0x100000 m) : Keeps m s (restoreMarks a0 t) := by
  unfold restoreMarks
  try dsimp only
  repeat' first
    | with_reducible exact h
    | with_reducible assumption
    | exact Sub.trans (Sub.of (by decide)) hm
    | (intro (_ : State) hu; first | with_reducible exact hu | skip)
    | exact id
    | exact fun _ h => h
    | with_reducible apply Keeps.ite
    | with_reducible apply State.updRecov_keeps
    | (with_reducible refine Keeps.foldl _ (fun _ _ _ => ?_) ?_)
    | dsimp only
    | split
    | (with_reducible refine Keeps.ofPair (by assumption) ?_)
    | (with_reducible refine Keeps.ofTriple (by assumption) ?_)
    | with_reducible apply Keeps.setFrer

theorem sendCopyFrames_keeps {m : Nat} {s t : State} {a0 : Nat} {a2 : Nat} {a3 : List Bytes} (h : Keeps m s t)
    (hm : Sub 0x208 m) : Keeps m s (sendCopyFrames a0 t a2 a3) := by
  induction a3 generalizing t a0 a2 with
  | nil =>
    unfold sendCopyFrames
    repeat' first
      | with_reducible exact h
      | with_reducible assumption
      | exact Sub.trans (Sub.of (by decide)) hm
      | (intro (_ : State) hu; first | with_reducible exact hu | skip)
      | exact id
      | exact fun _ h => h
      | with_reducible apply State.emit_keeps
      | with_reducible apply State.bumpBy_keeps
      | with_reducible apply Keeps.ite
      | (with_reducible refine Keeps.foldl _ (fun _ _ _ => ?_) ?_)
      | dsimp only
      | split
      | (with_reducible refine Keeps.ofPair (by assumption) ?_)
      | (with_reducible refine Keeps.ofTriple (by assumption) ?_)
  | cons _ _ ih =>
    unfold sendCopyFrames
    try dsimp only
    repeat' first
      | with_reducible exact h
      | with_reducible assumption
      | with_reducible apply ih
      | exact Sub.trans (Sub.of (by decide)) hm
      | (intro (_ : State) hu; first | with_reducible exact hu | skip)
      | exact id
      | exact fun _ h => h
      | with_reducible apply State.emit_keeps
      | with_reducible apply State.bumpBy_keeps
      | with_reducible apply Keeps.ite
      | (with_reducible refine Keeps.foldl _ (fun _ _ _ => ?_) ?_)
      | dsimp only
      | split
      | (with_reducible refine Keeps.ofPair (by assumption) ?_)
      | (with_reducible refine Keeps.ofTriple (by assumption) ?_)

theorem sendEnd_keeps {m : Nat} {s t : State} {a0 : CopyTx} {a1 : Bool} (h : Keeps m s t)
    (hm : Sub 0x40008 m) : Keeps m s (sendEnd a0 a1 t) := by
  unfold sendEnd
  try dsimp only
  repeat' first
    | with_reducible exact h
    | with_reducible assumption
    | exact Sub.trans (Sub.of (by decide)) hm
    | (intro (_ : State) hu; first | with_reducible exact hu | skip)
    | exact id
    | exact fun _ h => h
    | with_reducible apply Keeps.ite
    | with_reducible apply State.emit_keeps
    | with_reducible apply State.updPair_keeps
    | (with_reducible refine Keeps.foldl _ (fun _ _ _ => ?_) ?_)
    | dsimp only
    | split
    | (with_reducible refine Keeps.ofPair (by assumption) ?_)
    | (with_reducible refine Keeps.ofTriple (by assumption) ?_)

theorem abandonCopy_keeps {m : Nat} {s t : State} {a0 : CopyTx} (h : Keeps m s t)
    (hm : Sub 0x80140208 m) : Keeps m s (abandonCopy a0 t) := by
  unfold abandonCopy
  try dsimp only
  repeat' first
    | with_reducible exact h
    | exact Sub.trans (Sub.of (by decide)) hm
    | with_reducible apply State.bumpPair_keeps
    | with_reducible apply State.updPair_keeps
    | with_reducible apply pairEvent_keeps
    | with_reducible apply restoreMarks_keeps
    | with_reducible apply sendEnd_keeps
    | (with_reducible refine Keeps.foldl _ (fun _ _ _ => ?_) ?_)
    | dsimp only

theorem effCopyDeadline_keeps {m : Nat} {s t : State} (h : Keeps m s t)
    (hm : Sub 0x80140208 m) : Keeps m s (effCopyDeadline t) := by
  unfold effCopyDeadline
  try dsimp only
  repeat' first
    | with_reducible exact h
    | exact Sub.trans (Sub.of (by decide)) hm
    | with_reducible apply Keeps.ite
    | with_reducible apply abandonCopy_keeps
    | split

theorem effCopyInstant_keeps {m : Nat} {s t : State} (h : Keeps m s t)
    (hm : Sub 0x80140208 m) : Keeps m s (effCopyInstant t) := by
  unfold effCopyInstant
  try dsimp only
  repeat' first
    | with_reducible exact h
    | exact Sub.trans (Sub.of (by decide)) hm
    | with_reducible apply Keeps.ite
    | with_reducible apply State.updPair_keeps
    | with_reducible apply abandonCopy_keeps
    | with_reducible apply clearMarks_keeps
    | with_reducible apply sendCopyFrames_keeps
    | (with_reducible refine Keeps.foldl _ (fun _ _ _ => ?_) ?_)
    | dsimp only
    | split

theorem effCopyEndMarkerSent_keeps {m : Nat} {s t : State} (h : Keeps m s t)
    (hm : Sub 0x1040208 m) : Keeps m s (effCopyEndMarkerSent t) := by
  unfold effCopyEndMarkerSent
  try dsimp only
  repeat' first
    | with_reducible exact h
    | exact Sub.trans (Sub.of (by decide)) hm
    | with_reducible apply Keeps.ite
    | with_reducible apply State.bumpPair_keeps
    | with_reducible apply pulse_keeps
    | with_reducible apply sendEnd_keeps
    | split

theorem discardCopy_keeps {m : Nat} {s t : State} {a0 : Nat} (h : Keeps m s t)
    (hm : Sub 0xc3040200 m) : Keeps m s (discardCopy a0 t) := by
  unfold discardCopy
  try dsimp only
  repeat' first
    | with_reducible exact h
    | exact Sub.trans (Sub.of (by decide)) hm
    | with_reducible apply State.bumpPair_keeps
    | with_reducible apply State.updPair_keeps
    | with_reducible apply detectFault_keeps
    | with_reducible apply pairEvent_keeps
    | dsimp only

theorem supersede_keeps {m : Nat} {s t : State} {a0 : Nat} (h : Keeps m s t)
    (hm : Sub 0xc3040200 m) : Keeps m s (supersede a0 t) := by
  unfold supersede
  try dsimp only
  repeat' first
    | with_reducible exact h
    | exact Sub.trans (Sub.of (by decide)) hm
    | with_reducible apply Keeps.ite
    | with_reducible apply discardCopy_keeps
    | split

theorem holdCopy_keeps {m : Nat} {s t : State} {a0 : Nat} {a1 : Nat} {a2 : Bytes} (h : Keeps m s t)
    (hm : Sub 0x40000 m) : Keeps m s (holdCopy a0 a1 a2 t) := by
  unfold holdCopy
  try dsimp only
  repeat' first
    | with_reducible exact h
    | exact Sub.trans (Sub.of (by decide)) hm
    | with_reducible apply Keeps.ite
    | with_reducible apply State.updPair_keeps
    | dsimp only
    | split

theorem effCopyDataRx_keeps {m : Nat} {s t : State} {a0 : Nat} {a1 : Bytes} (h : Keeps m s t)
    (hm : Sub 0xc3040200 m) : Keeps m s (effCopyDataRx a0 a1 t) := by
  unfold effCopyDataRx
  try dsimp only
  repeat' first
    | with_reducible exact h
    | with_reducible assumption
    | exact Sub.trans (Sub.of (by decide)) hm
    | (intro (_ : State) hu; first | with_reducible exact hu | skip)
    | exact id
    | exact fun _ h => h
    | with_reducible apply Keeps.ite
    | with_reducible apply holdCopy_keeps
    | with_reducible apply pairReceive_keeps
    | with_reducible apply supersede_keeps
    | (with_reducible refine Keeps.foldl _ (fun _ _ _ => ?_) ?_)
    | dsimp only
    | split
    | (with_reducible refine Keeps.ofPair (by assumption) ?_)
    | (with_reducible refine Keeps.ofTriple (by assumption) ?_)

theorem applyRecord_keeps {m : Nat} {s t : State} {a1 : Prod Nat Bytes} (h : Keeps m s t)
    (hm : Sub 0x102400 m) : Keeps m s (applyRecord t a1) := by
  unfold applyRecord
  try dsimp only
  repeat' first
    | with_reducible exact h
    | exact Sub.trans (Sub.of (by decide)) hm
    | with_reducible apply Keeps.ite
    | with_reducible apply State.putMeter_keeps
    | with_reducible apply State.updDrr_keeps
    | with_reducible apply State.updQueue_keeps
    | with_reducible apply State.updRecov_keeps
    | with_reducible apply putGenNumber_keeps
    | dsimp only
    | split

theorem applyCopy_keeps {m : Nat} {s t : State} {a0 : Nat} {a1 : List (Prod Nat Bytes)} {a2 : Nat} (h : Keeps m s t)
    (hm : Sub 0x1142600 m) : Keeps m s (applyCopy a0 a1 a2 t) := by
  unfold applyCopy
  try dsimp only
  repeat' first
    | with_reducible exact h
    | with_reducible assumption
    | exact Sub.trans (Sub.of (by decide)) hm
    | (intro (_ : State) hu; first | with_reducible exact hu | skip)
    | exact id
    | exact fun _ h => h
    | with_reducible apply Keeps.ite
    | with_reducible apply State.bumpBy_keeps
    | with_reducible apply State.bumpPair_keeps
    | with_reducible apply State.updPair_keeps
    | with_reducible apply applyRecord_keeps
    | with_reducible apply pulse_keeps
    | (with_reducible refine Keeps.foldl _ (fun _ _ _ => ?_) ?_)
    | dsimp only
    | split
    | (with_reducible refine Keeps.ofPair (by assumption) ?_)
    | (with_reducible refine Keeps.ofTriple (by assumption) ?_)

theorem endCopy_keeps {m : Nat} {s t : State} {a0 : Nat} {a1 : Bytes} (h : Keeps m s t)
    (hm : Sub 0xc3142600 m) : Keeps m s (endCopy a0 a1 t) := by
  unfold endCopy
  try dsimp only
  repeat' first
    | with_reducible exact h
    | exact Sub.trans (Sub.of (by decide)) hm
    | with_reducible apply Keeps.ite
    | with_reducible apply applyCopy_keeps
    | with_reducible apply discardCopy_keeps
    | dsimp only
    | split

theorem effCopyEndRx_keeps {m : Nat} {s t : State} {a0 : Nat} {a1 : Bytes} (h : Keeps m s t)
    (hm : Sub 0xc3142600 m) : Keeps m s (effCopyEndRx a0 a1 t) := by
  unfold effCopyEndRx
  try dsimp only
  repeat' first
    | with_reducible exact h
    | with_reducible assumption
    | exact Sub.trans (Sub.of (by decide)) hm
    | (intro (_ : State) hu; first | with_reducible exact hu | skip)
    | exact id
    | exact fun _ h => h
    | with_reducible apply Keeps.ite
    | with_reducible apply endCopy_keeps
    | with_reducible apply pairReceive_keeps
    | with_reducible apply supersede_keeps
    | (with_reducible refine Keeps.foldl _ (fun _ _ _ => ?_) ?_)
    | dsimp only
    | split
    | (with_reducible refine Keeps.ofPair (by assumption) ?_)
    | (with_reducible refine Keeps.ofTriple (by assumption) ?_)

theorem effCopyMissing_keeps {m : Nat} {s t : State} (h : Keeps m s t)
    (hm : Sub 0xc3040200 m) : Keeps m s (effCopyMissing t) := by
  unfold effCopyMissing
  try dsimp only
  repeat' first
    | with_reducible exact h
    | exact Sub.trans (Sub.of (by decide)) hm
    | with_reducible apply Keeps.ite
    | with_reducible apply discardCopy_keeps
    | dsimp only
    | split

theorem dropPending_keeps {m : Nat} {s t : State} (h : Keeps m s t)
    (hm : Sub 0xc3040200 m) : Keeps m s (dropPending t) := by
  unfold dropPending
  try dsimp only
  repeat' first
    | with_reducible exact h
    | exact Sub.trans (Sub.of (by decide)) hm
    | with_reducible apply discardCopy_keeps
    | split

theorem effHeartbeatTimeout_keeps {m : Nat} {s t : State} (h : Keeps m s t)
    (hm : Sub 0xc3040200 m) : Keeps m s (effHeartbeatTimeout t) := by
  unfold effHeartbeatTimeout
  try dsimp only
  repeat' first
    | with_reducible exact h
    | exact Sub.trans (Sub.of (by decide)) hm
    | with_reducible apply Keeps.ite
    | with_reducible apply State.updPair_keeps
    | with_reducible apply dropPending_keeps
    | split

theorem takeoverFlush_keeps {m : Nat} {s t : State} (h : Keeps m s t)
    (hm : Sub 0x600 m) : Keeps m s (takeoverFlush t) := by
  unfold takeoverFlush
  try dsimp only
  repeat' first
    | with_reducible exact h
    | with_reducible assumption
    | exact Sub.trans (Sub.of (by decide)) hm
    | (intro (_ : State) hu; first | with_reducible exact hu | skip)
    | exact id
    | exact fun _ h => h
    | with_reducible apply Keeps.ite
    | with_reducible apply State.bumpBy_keeps
    | with_reducible apply emptyQueue_keeps
    | with_reducible apply unlinkRef_keeps
    | (with_reducible refine Keeps.foldl _ (fun _ _ _ => ?_) ?_)
    | dsimp only
    | split
    | (with_reducible refine Keeps.ofPair (by assumption) ?_)
    | (with_reducible refine Keeps.ofTriple (by assumption) ?_)

theorem takeServo_keeps {m : Nat} {s t : State} {a1 : Nat} (h : Keeps m s t)
    (hm : Sub 0xc3200200 m) : Keeps m s (takeServo t a1) := by
  unfold takeServo
  try dsimp only
  repeat' first
    | with_reducible exact h
    | exact Sub.trans (Sub.of (by decide)) hm
    | with_reducible apply Keeps.ite
    | with_reducible apply State.updDom_keeps
    | with_reducible apply setLocked_keeps
    | split

theorem takeSlot_keeps {m : Nat} {s t : State} {a1 : Prod Nat Bytes} (h : Keeps m s t)
    (hm : Sub 0x800000 m) : Keeps m s (takeSlot t a1) := by
  unfold takeSlot
  try dsimp only
  repeat' first
    | with_reducible exact h
    | exact Sub.trans (Sub.of (by decide)) hm
    | exact id
    | exact fun _ h => h
    | exact memWrite_wf _ _
    | with_reducible apply Keeps.ite
    | with_reducible apply State.updHerd_keeps
    | dsimp only
    | split

theorem takeMirror_keeps {m : Nat} {s t : State} (h : Keeps m s t)
    (hm : Sub 0xc3a00200 m) : Keeps m s (takeMirror t) := by
  unfold takeMirror
  try dsimp only
  repeat' first
    | with_reducible exact h
    | with_reducible assumption
    | exact Sub.trans (Sub.of (by decide)) hm
    | (intro (_ : State) hu; first | with_reducible exact hu | skip)
    | exact id
    | exact fun _ h => h
    | with_reducible apply Keeps.ite
    | with_reducible apply takeServo_keeps
    | with_reducible apply takeSlot_keeps
    | (with_reducible refine Keeps.foldl _ (fun _ _ _ => ?_) ?_)
    | dsimp only
    | split
    | (with_reducible refine Keeps.ofPair (by assumption) ?_)
    | (with_reducible refine Keeps.ofTriple (by assumption) ?_)

theorem takeover_keeps {m : Nat} {s t : State} (h : Keeps m s t)
    (hm : Sub 0xc3b40640 m) : Keeps m s (takeover t) := by
  unfold takeover
  try dsimp only
  repeat' first
    | with_reducible exact h
    | exact Sub.trans (Sub.of (by decide)) hm
    | with_reducible apply State.bumpPair_keeps
    | with_reducible apply State.updPair_keeps
    | with_reducible apply becomeActive_keeps
    | with_reducible apply disturbDigest_keeps
    | with_reducible apply dropPending_keeps
    | with_reducible apply frerTakeover_keeps
    | with_reducible apply pairEvent_keeps
    | with_reducible apply takeMirror_keeps
    | with_reducible apply takeoverFlush_keeps
    | dsimp only

theorem announcePort_keeps {m : Nat} {s t : State} {a1 : Nat} (h : Keeps m s t)
    (hm : Sub 0x600 m) : Keeps m s (announcePort t a1) := by
  unfold announcePort
  try dsimp only
  repeat' first
    | with_reducible exact h
    | with_reducible assumption
    | exact Sub.trans (Sub.of (by decide)) hm
    | (intro (_ : State) hu; first | with_reducible exact hu | skip)
    | exact id
    | exact fun _ h => h
    | with_reducible apply Keeps.ite
    | with_reducible apply emptyQueue_keeps
    | with_reducible apply issueFrame_keeps
    | with_reducible apply unlinkRef_keeps
    | (with_reducible refine Keeps.foldl _ (fun _ _ _ => ?_) ?_)
    | dsimp only
    | split
    | (with_reducible refine Keeps.ofPair (by assumption) ?_)
    | (with_reducible refine Keeps.ofTriple (by assumption) ?_)

theorem effAnnouncement_keeps {m : Nat} {s t : State} (h : Keeps m s t)
    (hm : Sub 0x40600 m) : Keeps m s (effAnnouncement t) := by
  unfold effAnnouncement
  try dsimp only
  repeat' first
    | with_reducible exact h
    | with_reducible assumption
    | exact Sub.trans (Sub.of (by decide)) hm
    | (intro (_ : State) hu; first | with_reducible exact hu | skip)
    | exact id
    | exact fun _ h => h
    | with_reducible apply Keeps.ite
    | with_reducible apply State.updPair_keeps
    | with_reducible apply announcePort_keeps
    | (with_reducible refine Keeps.foldl _ (fun _ _ _ => ?_) ?_)
    | dsimp only
    | split
    | (with_reducible refine Keeps.ofPair (by assumption) ?_)
    | (with_reducible refine Keeps.ofTriple (by assumption) ?_)

theorem effDigestClose_keeps {m : Nat} {s t : State} (h : Keeps m s t)
    (hm : Sub 0x40000 m) : Keeps m s (effDigestClose t) := by
  unfold effDigestClose
  try dsimp only
  repeat' first
    | with_reducible exact h
    | exact Sub.trans (Sub.of (by decide)) hm
    | with_reducible apply Keeps.ite
    | with_reducible apply State.updPair_keeps
    | dsimp only
    | split

theorem State.updFeeds_keeps {m : Nat} {s t : State} {a1 : Feeds → Feeds} (h : Keeps m s t)
    (hm : Sub 0x20000 m) : Keeps m s (State.updFeeds t a1) := by
  unfold State.updFeeds
  try dsimp only
  repeat' first
    | with_reducible exact h
    | exact Sub.trans (Sub.of (by decide)) hm
    | with_reducible apply Keeps.setFeeds

theorem setShedding_keeps {m : Nat} {s t : State} {a0 : List Nat} (h : Keeps m s t)
    (hm : Sub 0x5020a08 m) : Keeps m s (setShedding a0 t) := by
  unfold setShedding
  try dsimp only
  repeat' first
    | with_reducible exact h
    | with_reducible assumption
    | exact Sub.trans (Sub.of (by decide)) hm
    | (intro (_ : State) hu; first | with_reducible exact hu | skip)
    | exact id
    | exact fun _ h => h
    | with_reducible apply Keeps.ite
    | with_reducible apply State.bumpPair_keeps
    | with_reducible apply State.updFeeds_keeps
    | with_reducible apply linkPower_keeps
    | with_reducible apply noteLink_keeps
    | with_reducible apply pulse_keeps
    | (with_reducible refine Keeps.foldl _ (fun _ _ _ => ?_) ?_)
    | dsimp only
    | split
    | (with_reducible refine Keeps.ofPair (by assumption) ?_)
    | (with_reducible refine Keeps.ofTriple (by assumption) ?_)

theorem judgeFeeds_keeps {m : Nat} {s t : State} (h : Keeps m s t)
    (hm : Sub 0x5020a08 m) : Keeps m s (judgeFeeds t) := by
  unfold judgeFeeds
  try dsimp only
  repeat' first
    | with_reducible exact h
    | exact Sub.trans (Sub.of (by decide)) hm
    | with_reducible apply Keeps.ite
    | with_reducible apply State.updFeeds_keeps
    | with_reducible apply setShedding_keeps
    | dsimp only

theorem feedLost_keeps {m : Nat} {s t : State} {a0 : Nat} (h : Keeps m s t)
    (hm : Sub 0xc3060200 m) : Keeps m s (feedLost a0 t) := by
  unfold feedLost
  try dsimp only
  repeat' first
    | with_reducible exact h
    | exact Sub.trans (Sub.of (by decide)) hm
    | with_reducible apply Keeps.ite
    | with_reducible apply State.bumpPair_keeps
    | with_reducible apply State.hit_keeps
    | with_reducible apply State.updFeeds_keeps
    | with_reducible apply healthFault_keeps
    | with_reducible apply yieldPair_keeps
    | dsimp only
    | split

theorem acceptFeed_keeps {m : Nat} {s t : State} {a0 : Nat} {a1 : Bool} (h : Keeps m s t)
    (hm : Sub 0x20000 m) : Keeps m s (acceptFeed a0 a1 t) := by
  unfold acceptFeed
  try dsimp only
  repeat' first
    | with_reducible exact h
    | exact Sub.trans (Sub.of (by decide)) hm
    | with_reducible apply Keeps.ite
    | with_reducible apply State.updFeeds_keeps

theorem effFeedLineChange_keeps {m : Nat} {s t : State} {a0 : Nat} {a1 : Bool} (h : Keeps m s t)
    (hm : Sub 0xc7060a08 m) : Keeps m s (effFeedLineChange a0 a1 t) := by
  unfold effFeedLineChange
  try dsimp only
  repeat' first
    | with_reducible exact h
    | exact Sub.trans (Sub.of (by decide)) hm
    | with_reducible apply Keeps.ite
    | with_reducible apply acceptFeed_keeps
    | with_reducible apply feedLost_keeps
    | with_reducible apply judgeFeeds_keeps
    | with_reducible apply raiseSource_keeps
    | dsimp only

theorem effRestoreHoldExpiry_keeps {m : Nat} {s t : State} (h : Keeps m s t)
    (hm : Sub 0x5020a08 m) : Keeps m s (effRestoreHoldExpiry t) := by
  unfold effRestoreHoldExpiry
  try dsimp only
  repeat' first
    | with_reducible exact h
    | exact Sub.trans (Sub.of (by decide)) hm
    | with_reducible apply Keeps.ite
    | with_reducible apply State.updFeeds_keeps
    | with_reducible apply setShedding_keeps
    | split

end Sys2Proof.Machine
end

