-- ==== Sys2Proof/Laws/Health.lean ====
section
/-!
SUPPORT. What each operation of Machine/Health.lean may change: the parts of the state in the set `hm`, no others, the invariant
kept. Cite these lemmas; do not unfold the operations.
-/
namespace Sys2Proof.Machine

theorem clearFault_keeps {m : Nat} {s t : State} {a0 : Nat} {a1 : Nat} {a2 : Nat} (h : Keeps m s t)
    (hm : Sub 0x2000000 m) : Keeps m s (clearFault a0 a1 a2 t) := by
  unfold clearFault
  try dsimp only
  repeat' first
    | with_reducible exact h
    | with_reducible assumption
    | exact Sub.trans (Sub.of (by decide)) hm
    | (intro (_ : State) hu; first | with_reducible exact hu | skip)
    | exact id
    | exact fun _ h => h
    | exact fun _ _ => Nat.zero_le _
    | with_reducible apply Keeps.ite
    | with_reducible apply State.updFault_keeps
    | (with_reducible refine Keeps.foldl _ (fun _ _ _ => ?_) ?_)
    | dsimp only
    | split
    | (with_reducible refine Keeps.ofPair (by assumption) ?_)
    | (with_reducible refine Keeps.ofTriple (by assumption) ?_)

theorem effHistHiRead_keeps {m : Nat} {s t : State} {a0 : Nat} {a1 : Nat} {a2 : Nat} (h : Keeps m s t)
    (hm : Sub 0xa00000c m) : Keeps m s (effHistHiRead a0 a1 a2 t) := by
  unfold effHistHiRead
  try dsimp only
  repeat' first
    | with_reducible exact h
    | exact Sub.trans (Sub.of (by decide)) hm
    | exact id
    | exact fun _ h => h
    | (intro x hx; rw [List.length_drop]; exact Nat.le_trans (Nat.sub_le ..) hx)
    | with_reducible apply Keeps.ite
    | with_reducible apply State.emit_keeps
    | with_reducible apply State.updFault_keeps
    | with_reducible apply refuseBar_keeps
    | dsimp only

theorem effFaultLostRead_keeps {m : Nat} {s t : State} {a0 : Nat} {a1 : Nat} {a2 : Nat} (h : Keeps m s t)
    (hm : Sub 0x8a00000c m) : Keeps m s (effFaultLostRead a0 a1 a2 t) := by
  unfold effFaultLostRead
  try dsimp only
  repeat' first
    | with_reducible exact h
    | exact Sub.trans (Sub.of (by decide)) hm
    | exact id
    | exact fun _ h => h
    | with_reducible apply Keeps.ite
    | with_reducible apply State.emit_keeps
    | with_reducible apply State.rehit_keeps
    | with_reducible apply State.updFault_keeps
    | with_reducible apply refuseBar_keeps
    | dsimp only

theorem effFaultRegisterScrub_keeps {m : Nat} {s t : State} {a0 : Option Nat} (h : Keeps m s t)
    (hm : Sub 0x40000000 m) : Keeps m s (effFaultRegisterScrub a0 t) := by
  unfold effFaultRegisterScrub
  try dsimp only
  repeat' first
    | with_reducible exact h
    | exact Sub.trans (Sub.of (by decide)) hm
    | with_reducible apply Keeps.ite
    | with_reducible apply detectMachinery_keeps
    | split

theorem healthRegWrite_keeps {m : Nat} {s t : State} {a0 : Nat} {a1 : Nat} {a2 : Nat} (h : Keeps m s t)
    (hm : Sub 0x8f000000 m) : Keeps m s (healthRegWrite a0 a1 a2 t) := by
  unfold healthRegWrite
  try dsimp only
  repeat' first
    | with_reducible exact h
    | with_reducible assumption
    | exact Sub.trans (Sub.of (by decide)) hm
    | (intro (_ : State) hu; first | with_reducible exact hu | skip)
    | exact id
    | exact fun _ h => h
    | with_reducible apply Keeps.ite
    | with_reducible apply clearFaultBit_keeps
    | with_reducible apply denyWrite_keeps
    | (with_reducible refine Keeps.foldl _ (fun _ _ _ => ?_) ?_)
    | dsimp only
    | split
    | (with_reducible refine Keeps.ofPair (by assumption) ?_)
    | (with_reducible refine Keeps.ofTriple (by assumption) ?_)
    | with_reducible apply Keeps.setHealth

theorem State.updHealth_keeps {m : Nat} {s t : State} {a1 : Health → Health} (h : Keeps m s t)
    (hm : Sub 0x4000000 m) : Keeps m s (State.updHealth t a1) := by
  unfold State.updHealth
  try dsimp only
  repeat' first
    | with_reducible exact h
    | exact Sub.trans (Sub.of (by decide)) hm
    | with_reducible apply Keeps.setHealth

theorem effAliveHalfPeriod_keeps {m : Nat} {s t : State} {a0 : Nat} {a1 : Nat} {a2 : Nat} (h : Keeps m s t)
    (hm : Sub 0xc7000200 m) : Keeps m s (effAliveHalfPeriod a0 a1 a2 t) := by
  unfold effAliveHalfPeriod
  try dsimp only
  repeat' first
    | with_reducible exact h
    | with_reducible assumption
    | exact Sub.trans (Sub.of (by decide)) hm
    | (intro (_ : State) hu; first | with_reducible exact hu | skip)
    | exact id
    | exact fun _ h => h
    | with_reducible apply Keeps.ite
    | with_reducible apply State.updHealth_keeps
    | with_reducible apply healthFault_keeps
    | (with_reducible refine Keeps.foldl _ (fun _ _ _ => ?_) ?_)
    | dsimp only
    | split
    | (with_reducible refine Keeps.ofPair (by assumption) ?_)
    | (with_reducible refine Keeps.ofTriple (by assumption) ?_)

theorem judgeHeat_keeps {m : Nat} {s t : State} (h : Keeps m s t)
    (hm : Sub 0xc7000200 m) : Keeps m s (judgeHeat t) := by
  unfold judgeHeat
  try dsimp only
  repeat' first
    | with_reducible exact h
    | exact Sub.trans (Sub.of (by decide)) hm
    | with_reducible apply Keeps.ite
    | with_reducible apply State.updHealth_keeps
    | with_reducible apply healthFault_keeps
    | with_reducible apply pulse_keeps
    | dsimp only

theorem effThermalSample_keeps {m : Nat} {s t : State} {a0 : List Int} (h : Keeps m s t)
    (hm : Sub 0xc7000200 m) : Keeps m s (effThermalSample a0 t) := by
  unfold effThermalSample
  try dsimp only
  repeat' first
    | with_reducible exact h
    | with_reducible assumption
    | exact Sub.trans (Sub.of (by decide)) hm
    | (intro (_ : State) hu; first | with_reducible exact hu | skip)
    | exact id
    | exact fun _ h => h
    | with_reducible apply Keeps.ite
    | with_reducible apply State.updHealth_keeps
    | with_reducible apply healthFault_keeps
    | with_reducible apply judgeHeat_keeps
    | (with_reducible refine Keeps.foldl _ (fun _ _ _ => ?_) ?_)
    | dsimp only
    | split
    | (with_reducible refine Keeps.ofPair (by assumption) ?_)
    | (with_reducible refine Keeps.ofTriple (by assumption) ?_)

theorem effSupplyDroop_keeps {m : Nat} {s t : State} {a0 : Nat} {a1 : Nat} {a2 : Nat} (h : Keeps m s t)
    (hm : Sub 0xc7000200 m) : Keeps m s (effSupplyDroop a0 a1 a2 t) := by
  unfold effSupplyDroop
  try dsimp only
  repeat' first
    | with_reducible exact h
    | exact Sub.trans (Sub.of (by decide)) hm
    | with_reducible apply Keeps.ite
    | with_reducible apply State.bumpK_keeps
    | with_reducible apply State.hit_keeps
    | with_reducible apply State.updHealth_keeps
    | with_reducible apply healthFault_keeps

theorem effMarginReport_keeps {m : Nat} {s t : State} {a0 : Nat} {a1 : Nat} (h : Keeps m s t)
    (hm : Sub 0xc7000200 m) : Keeps m s (effMarginReport a0 a1 t) := by
  unfold effMarginReport
  try dsimp only
  repeat' first
    | with_reducible exact h
    | exact Sub.trans (Sub.of (by decide)) hm
    | with_reducible apply Keeps.ite
    | with_reducible apply State.hit_keeps
    | with_reducible apply State.updHealth_keeps
    | with_reducible apply healthFault_keeps
    | dsimp only
    | split

theorem ageSecond_keeps {m : Nat} {s t : State} {a0 : List Nat} {a1 : List Nat} (h : Keeps m s t)
    (hm : Sub 0x4000000 m) : Keeps m s (ageSecond a0 a1 t) := by
  unfold ageSecond
  try dsimp only
  repeat' first
    | with_reducible exact h
    | exact Sub.trans (Sub.of (by decide)) hm
    | with_reducible apply State.updHealth_keeps
    | dsimp only

theorem ageMinute_keeps {m : Nat} {s t : State} {a0 : List Nat} (h : Keeps m s t)
    (hm : Sub 0x4000000 m) : Keeps m s (ageMinute a0 t) := by
  unfold ageMinute
  try dsimp only
  repeat' first
    | with_reducible exact h
    | exact Sub.trans (Sub.of (by decide)) hm
    | with_reducible apply State.updHealth_keeps

theorem judgeAgeing_keeps {m : Nat} {s t : State} {a0 : Health} (h : Keeps m s t)
    (hm : Sub 0xc7000200 m) : Keeps m s (judgeAgeing a0 t) := by
  unfold judgeAgeing
  try dsimp only
  repeat' first
    | with_reducible exact h
    | with_reducible assumption
    | exact Sub.trans (Sub.of (by decide)) hm
    | (intro (_ : State) hu; first | with_reducible exact hu | skip)
    | exact id
    | exact fun _ h => h
    | with_reducible apply Keeps.ite
    | with_reducible apply State.updHealth_keeps
    | with_reducible apply healthFault_keeps
    | (with_reducible refine Keeps.foldl _ (fun _ _ _ => ?_) ?_)
    | dsimp only
    | split
    | (with_reducible refine Keeps.ofPair (by assumption) ?_)
    | (with_reducible refine Keeps.ofTriple (by assumption) ?_)

theorem effAgeingUpdate_keeps {m : Nat} {s t : State} {a0 : Bool} {a1 : List Nat} {a2 : List Nat} {a3 : List Nat} (h : Keeps m s t)
    (hm : Sub 0xc7000200 m) : Keeps m s (effAgeingUpdate a0 a1 a2 a3 t) := by
  unfold effAgeingUpdate
  try dsimp only
  repeat' first
    | with_reducible exact h
    | exact Sub.trans (Sub.of (by decide)) hm
    | with_reducible apply Keeps.ite
    | with_reducible apply ageMinute_keeps
    | with_reducible apply ageSecond_keeps
    | with_reducible apply judgeAgeing_keeps
    | dsimp only

theorem checkpoint_keeps {m : Nat} {s t : State} (h : Keeps m s t)
    (hm : Sub 0x4000040 m) : Keeps m s (checkpoint t) := by
  unfold checkpoint
  try dsimp only
  repeat' first
    | with_reducible exact h
    | exact Sub.trans (Sub.of (by decide)) hm
    | with_reducible apply State.updHealth_keeps
    | dsimp only
    | with_reducible apply Keeps.setMram

theorem effHealthCheckpoint_keeps {m : Nat} {s t : State} (h : Keeps m s t)
    (hm : Sub 0x4000040 m) : Keeps m s (effHealthCheckpoint t) := by
  unfold effHealthCheckpoint
  try dsimp only
  repeat' first
    | with_reducible exact h
    | exact Sub.trans (Sub.of (by decide)) hm
    | with_reducible apply Keeps.ite
    | with_reducible apply checkpoint_keeps

theorem healthRelease_keeps {m : Nat} {s t : State} (h : Keeps m s t)
    (hm : Sub 0x4000000 m) : Keeps m s (healthRelease t) := by
  unfold healthRelease
  try dsimp only
  repeat' first
    | with_reducible exact h
    | exact Sub.trans (Sub.of (by decide)) hm
    | with_reducible apply Keeps.setHealth

end Sys2Proof.Machine
end

