-- ==== Sys2Proof/Laws/Kelry.lean ====
section
/-!
SUPPORT. What each operation of Machine/Kelry.lean may change: the parts of the state in the set `hm`, no others, the invariant
kept. Cite these lemmas; do not unfold the operations.
-/
namespace Sys2Proof.Machine

theorem State.updBank_keeps {m : Nat} {s t : State} {a1 : Nat} {a2 : Bank → Bank} (h : Keeps m s t)
    (hm : Sub 0x40 m) : Keeps m s (State.updBank t a1 a2) := by
  unfold State.updBank
  try dsimp only
  repeat' first
    | with_reducible exact h
    | exact Sub.trans (Sub.of (by decide)) hm
    | with_reducible apply Keeps.setMram

end Sys2Proof.Machine
end

