-- ==== Sys2Proof/Laws/MemClk.lean ====
section
/-!
SUPPORT. What each operation of Machine/MemClk.lean may change: the parts of the state in the set `hm`, no others, the invariant
kept. Cite these lemmas; do not unfold the operations.
-/
namespace Sys2Proof.Machine

theorem effZqCalibration_keeps {m : Nat} {s t : State} (h : Keeps m s t)
    (_ : Sub 0x0 m) : Keeps m s (effZqCalibration t) := by
  unfold effZqCalibration
  try dsimp only
  repeat' first
    | with_reducible exact h

theorem effDqsOscillatorRead_keeps {m : Nat} {s t : State} {a0 : Nat} {a1 : Bool} (h : Keeps m s t)
    (hm : Sub 0x200 m) : Keeps m s (effDqsOscillatorRead a0 a1 t) := by
  unfold effDqsOscillatorRead
  try dsimp only
  repeat' first
    | with_reducible exact h
    | exact Sub.trans (Sub.of (by decide)) hm
    | with_reducible apply Keeps.ite
    | with_reducible apply State.bumpK_keeps

theorem effMr4Read_keeps {m : Nat} {s t : State} {a0 : Nat} {a1 : Nat} (h : Keeps m s t)
    (hm : Sub 0x10000000 m) : Keeps m s (effMr4Read a0 a1 t) := by
  unfold effMr4Read
  try dsimp only
  repeat' first
    | with_reducible exact h
    | exact Sub.trans (Sub.of (by decide)) hm
    | exact id
    | exact fun _ h => h
    | with_reducible apply Keeps.ite
    | with_reducible apply Keeps.setMem

theorem effPatrolScrub_keeps {m : Nat} {s t : State} {a0 : Nat} {a1 : Bool} {a2 : Bool} (h : Keeps m s t)
    (hm : Sub 0xd3000200 m) : Keeps m s (effPatrolScrub a0 a1 a2 t) := by
  unfold effPatrolScrub
  try dsimp only
  repeat' first
    | with_reducible exact h
    | exact Sub.trans (Sub.of (by decide)) hm
    | exact id
    | exact fun _ h => h
    | with_reducible apply Keeps.ite
    | with_reducible apply memCorrected_keeps
    | with_reducible apply memUncorrectable_keeps
    | dsimp only
    | with_reducible apply Keeps.setMem

theorem effRefclkLoss_keeps {m : Nat} {s t : State} (h : Keeps m s t)
    (hm : Sub 0xc3000020 m) : Keeps m s (effRefclkLoss t) := by
  unfold effRefclkLoss
  try dsimp only
  repeat' first
    | with_reducible exact h
    | exact Sub.trans (Sub.of (by decide)) hm
    | with_reducible apply Keeps.ite
    | with_reducible apply detectFault_keeps
    | (with_reducible refine Keeps.setChipOnly ?_ ?_ rfl)
    | with_reducible apply Keeps.setChip

theorem effPllUnlock_keeps {m : Nat} {s t : State} {a0 : Nat} (h : Keeps m s t)
    (hm : Sub 0xc3000020 m) : Keeps m s (effPllUnlock a0 t) := by
  unfold effPllUnlock
  try dsimp only
  repeat' first
    | with_reducible exact h
    | exact Sub.trans (Sub.of (by decide)) hm
    | with_reducible apply Keeps.ite
    | with_reducible apply detectFault_keeps
    | dsimp only
    | (with_reducible refine Keeps.setChipOnly ?_ ?_ rfl)
    | with_reducible apply Keeps.setChip

theorem effSynceSquelch_keeps {m : Nat} {s t : State} {a0 : Nat} (h : Keeps m s t)
    (hm : Sub 0x20000200 m) : Keeps m s (effSynceSquelch a0 t) := by
  unfold effSynceSquelch
  try dsimp only
  repeat' first
    | with_reducible exact h
    | exact Sub.trans (Sub.of (by decide)) hm
    | with_reducible apply Keeps.ite
    | with_reducible apply State.bump_keeps
    | dsimp only
    | with_reducible apply Keeps.setPins

end Sys2Proof.Machine
end

