-- ==== Sys2Proof/Laws/Interrupts.lean ====
section
/-!
SUPPORT. What each operation of Machine/Interrupts.lean may change: the parts of the state in the set `hm`, no others, the invariant
kept. Cite these lemmas; do not unfold the operations.
-/
namespace Sys2Proof.Machine

theorem effEventPulse_keeps {m : Nat} {s t : State} {a0 : Nat} (h : Keeps m s t)
    (hm : Sub 0x81410000 m) : Keeps m s (effEventPulse a0 t) := by
  unfold effEventPulse
  try dsimp only
  repeat' first
    | with_reducible exact h
    | exact Sub.trans (Sub.of (by decide)) hm
    | with_reducible apply lineRequests_keeps
    | with_reducible apply lineStarts_keeps
    | with_reducible apply raiseSource_keeps
    | dsimp only
    | split
    | with_reducible apply Keeps.setIntc

theorem withRight_keeps {m : Nat} {s t : State} {a0 : Bool} {a1 : Nat} {a2 : State → State} (h : Keeps m s t)
    (h2 : ∀ u0, Keeps m s u0 → Keeps m s (a2 u0))
    (hm : Sub 0x8800000c m) : Keeps m s (withRight a0 a1 a2 t) := by
  unfold withRight
  try dsimp only
  repeat' first
    | with_reducible exact h
    | with_reducible assumption
    | exact Sub.trans (Sub.of (by decide)) hm
    | with_reducible apply Keeps.ite
    | with_reducible apply denyWrite_keeps
    | with_reducible apply refuseBar_keeps
    | with_reducible apply h2

theorem takeClaim_keeps {m : Nat} {s t : State} {a0 : Nat} {a1 : Nat} {a2 : Nat} (h : Keeps m s t)
    (hm : Sub 0x81000000 m) : Keeps m s (takeClaim a0 a1 a2 t) := by
  unfold takeClaim
  try dsimp only
  repeat' first
    | with_reducible exact h
    | exact Sub.trans (Sub.of (by decide)) hm
    | with_reducible apply Keeps.ite
    | with_reducible apply State.hit_keeps
    | with_reducible apply State.updSource_keeps
    | with_reducible apply State.updTarget_keeps
    | with_reducible apply noteActed_keeps
    | dsimp only

theorem effClaim_keeps {m : Nat} {s t : State} {a0 : Nat} {a1 : Nat} (h : Keeps m s t)
    (hm : Sub 0x8900000c m) : Keeps m s (effClaim a0 a1 t) := by
  unfold effClaim
  try dsimp only
  repeat' first
    | with_reducible exact h
    | exact Sub.trans (Sub.of (by decide)) hm
    | with_reducible apply Keeps.ite
    | with_reducible apply State.emit_keeps
    | with_reducible apply refuseBar_keeps
    | with_reducible apply takeClaim_keeps
    | split

theorem endInterrupt_keeps {m : Nat} {s t : State} {a0 : Nat} (h : Keeps m s t)
    (hm : Sub 0x81000000 m) : Keeps m s (endInterrupt a0 t) := by
  unfold endInterrupt
  try dsimp only
  repeat' first
    | with_reducible exact h
    | exact Sub.trans (Sub.of (by decide)) hm
    | with_reducible apply Keeps.ite
    | with_reducible apply State.hit_keeps
    | with_reducible apply State.updTarget_keeps
    | with_reducible apply noteActed_keeps
    | split

theorem effEoi_keeps {m : Nat} {s t : State} {a0 : Nat} {a1 : Nat} {a2 : Nat} (h : Keeps m s t)
    (hm : Sub 0x8900000c m) : Keeps m s (effEoi a0 a1 a2 t) := by
  unfold effEoi
  try dsimp only
  repeat' first
    | with_reducible exact h
    | with_reducible assumption
    | exact Sub.trans (Sub.of (by decide)) hm
    | (intro (_ : State) hu; first | with_reducible exact hu | skip)
    | exact id
    | exact fun _ h => h
    | with_reducible apply Keeps.ite
    | with_reducible apply endInterrupt_keeps
    | with_reducible apply withRight_keeps
    | (with_reducible refine Keeps.foldl _ (fun _ _ _ => ?_) ?_)
    | dsimp only
    | split
    | (with_reducible refine Keeps.ofPair (by assumption) ?_)
    | (with_reducible refine Keeps.ofTriple (by assumption) ?_)

theorem effSoftSet_keeps {m : Nat} {s t : State} {a0 : Nat} {a1 : Nat} (h : Keeps m s t)
    (hm : Sub 0x8900000c m) : Keeps m s (effSoftSet a0 a1 t) := by
  unfold effSoftSet
  try dsimp only
  repeat' first
    | with_reducible exact h
    | with_reducible assumption
    | exact Sub.trans (Sub.of (by decide)) hm
    | (intro (_ : State) hu; first | with_reducible exact hu | skip)
    | exact id
    | exact fun _ h => h
    | with_reducible apply Keeps.ite
    | with_reducible apply raiseSource_keeps
    | with_reducible apply withRight_keeps
    | (with_reducible refine Keeps.foldl _ (fun _ _ _ => ?_) ?_)
    | dsimp only
    | split
    | (with_reducible refine Keeps.ofPair (by assumption) ?_)
    | (with_reducible refine Keeps.ofTriple (by assumption) ?_)

theorem effCountRead_keeps {m : Nat} {s t : State} {a0 : Nat} {a1 : Nat} (h : Keeps m s t)
    (hm : Sub 0x8900000c m) : Keeps m s (effCountRead a0 a1 t) := by
  unfold effCountRead
  try dsimp only
  repeat' first
    | with_reducible exact h
    | exact Sub.trans (Sub.of (by decide)) hm
    | with_reducible apply Keeps.ite
    | with_reducible apply State.emit_keeps
    | with_reducible apply State.rehit_keeps
    | with_reducible apply State.updSource_keeps
    | with_reducible apply refuseBar_keeps
    | dsimp only

theorem putToSleep_keeps {m : Nat} {s t : State} {a0 : Nat} (h : Keeps m s t)
    (hm : Sub 0x1000000 m) : Keeps m s (putToSleep a0 t) := by
  unfold putToSleep
  try dsimp only
  repeat' first
    | with_reducible exact h
    | with_reducible assumption
    | exact Sub.trans (Sub.of (by decide)) hm
    | (intro (_ : State) hu; first | with_reducible exact hu | skip)
    | exact id
    | exact fun _ h => h
    | with_reducible apply Keeps.ite
    | with_reducible apply State.updGroup_keeps
    | with_reducible apply State.updTarget_keeps
    | (with_reducible refine Keeps.foldl _ (fun _ _ _ => ?_) ?_)
    | dsimp only
    | split
    | (with_reducible refine Keeps.ofPair (by assumption) ?_)
    | (with_reducible refine Keeps.ofTriple (by assumption) ?_)

theorem effSleep_keeps {m : Nat} {s t : State} {a0 : Nat} {a1 : Nat} (h : Keeps m s t)
    (hm : Sub 0x8900000c m) : Keeps m s (effSleep a0 a1 t) := by
  unfold effSleep
  try dsimp only
  repeat' first
    | with_reducible exact h
    | with_reducible assumption
    | exact Sub.trans (Sub.of (by decide)) hm
    | (intro (_ : State) hu; first | with_reducible exact hu | skip)
    | exact id
    | exact fun _ h => h
    | with_reducible apply Keeps.ite
    | with_reducible apply putToSleep_keeps
    | with_reducible apply withRight_keeps
    | (with_reducible refine Keeps.foldl _ (fun _ _ _ => ?_) ?_)
    | dsimp only
    | split
    | (with_reducible refine Keeps.ofPair (by assumption) ?_)
    | (with_reducible refine Keeps.ofTriple (by assumption) ?_)

theorem effHoldoffExpiry_keeps {m : Nat} {s t : State} {a0 : Nat} (h : Keeps m s t)
    (hm : Sub 0x1000000 m) : Keeps m s (effHoldoffExpiry a0 t) := by
  unfold effHoldoffExpiry
  try dsimp only
  repeat' first
    | with_reducible exact h
    | exact Sub.trans (Sub.of (by decide)) hm
    | with_reducible apply Keeps.ite
    | with_reducible apply State.updGroup_keeps
    | split

theorem setTarget_keeps {m : Nat} {s t : State} {a0 : Nat} {a1 : IntTarget → IntTarget} (h : Keeps m s t)
    (hm : Sub 0x1000000 m) : Keeps m s (setTarget a0 a1 t) := by
  unfold setTarget
  try dsimp only
  repeat' first
    | with_reducible exact h
    | exact Sub.trans (Sub.of (by decide)) hm
    | with_reducible apply Keeps.ite
    | with_reducible apply State.updTarget_keeps
    | with_reducible apply putToSleep_keeps
    | dsimp only

theorem setSource_keeps {m : Nat} {s t : State} {a0 : Nat} {a1 : IntSource → IntSource} (h : Keeps m s t)
    (hm : Sub 0x1000000 m) : Keeps m s (setSource a0 a1 t) := by
  unfold setSource
  try dsimp only
  repeat' first
    | with_reducible exact h
    | exact Sub.trans (Sub.of (by decide)) hm
    | with_reducible apply Keeps.ite
    | with_reducible apply State.updSource_keeps
    | with_reducible apply startHoldoff_keeps

theorem writeTargetControl_keeps {m : Nat} {s t : State} {a0 : Nat} {a1 : Nat} (h : Keeps m s t)
    (hm : Sub 0x1000000 m) : Keeps m s (writeTargetControl a0 a1 t) := by
  unfold writeTargetControl
  try dsimp only
  repeat' first
    | with_reducible exact h
    | exact Sub.trans (Sub.of (by decide)) hm
    | with_reducible apply setTarget_keeps

theorem writeGroupEnable_keeps {m : Nat} {s t : State} {a0 : Nat} {a1 : Nat} (h : Keeps m s t)
    (hm : Sub 0x1000000 m) : Keeps m s (writeGroupEnable a0 a1 t) := by
  unfold writeGroupEnable
  try dsimp only
  repeat' first
    | with_reducible exact h
    | with_reducible assumption
    | exact Sub.trans (Sub.of (by decide)) hm
    | (intro (_ : State) hu; first | with_reducible exact hu | skip)
    | exact id
    | exact fun _ h => h
    | with_reducible apply Keeps.ite
    | with_reducible apply State.updSource_keeps
    | with_reducible apply startHoldoff_keeps
    | (with_reducible refine Keeps.foldl _ (fun _ _ _ => ?_) ?_)
    | dsimp only
    | split
    | (with_reducible refine Keeps.ofPair (by assumption) ?_)
    | (with_reducible refine Keeps.ofTriple (by assumption) ?_)

theorem writeGroupPending_keeps {m : Nat} {s t : State} {a0 : Nat} {a1 : Nat} {a2 : Nat} (h : Keeps m s t)
    (hm : Sub 0x89000000 m) : Keeps m s (writeGroupPending a0 a1 a2 t) := by
  unfold writeGroupPending
  try dsimp only
  repeat' first
    | with_reducible exact h
    | with_reducible assumption
    | exact Sub.trans (Sub.of (by decide)) hm
    | (intro (_ : State) hu; first | with_reducible exact hu | skip)
    | exact id
    | exact fun _ h => h
    | with_reducible apply Keeps.ite
    | with_reducible apply State.updSource_keeps
    | with_reducible apply denyWrite_keeps
    | with_reducible apply noteActed_keeps
    | (with_reducible refine Keeps.foldl _ (fun _ _ _ => ?_) ?_)
    | dsimp only
    | split
    | (with_reducible refine Keeps.ofPair (by assumption) ?_)
    | (with_reducible refine Keeps.ofTriple (by assumption) ?_)

theorem intRegWrite_keeps {m : Nat} {s t : State} {a0 : Nat} {a1 : Nat} {a2 : Nat} (h : Keeps m s t)
    (hm : Sub 0x8900000c m) : Keeps m s (intRegWrite a0 a1 a2 t) := by
  unfold intRegWrite
  try dsimp only
  repeat' first
    | with_reducible exact h
    | with_reducible assumption
    | exact Sub.trans (Sub.of (by decide)) hm
    | (intro (_ : State) hu; first | with_reducible exact hu | skip)
    | exact id
    | exact fun _ h => h
    | with_reducible apply Keeps.ite
    | with_reducible apply State.updGroup_keeps
    | with_reducible apply State.updTarget_keeps
    | with_reducible apply effEoi_keeps
    | with_reducible apply effSoftSet_keeps
    | with_reducible apply setSource_keeps
    | with_reducible apply withRight_keeps
    | with_reducible apply writeGroupEnable_keeps
    | with_reducible apply writeGroupPending_keeps
    | with_reducible apply writeTargetControl_keeps
    | (with_reducible refine Keeps.foldl _ (fun _ _ _ => ?_) ?_)
    | dsimp only
    | split
    | (with_reducible refine Keeps.ofPair (by assumption) ?_)
    | (with_reducible refine Keeps.ofTriple (by assumption) ?_)

theorem intRowWrite_keeps {m : Nat} {s t : State} {a0 : Nat} {a1 : Nat} {a2 : Row} (h : Keeps m s t)
    (hm : Sub 0x1000000 m) : Keeps m s (intRowWrite a0 a1 a2 t) := by
  unfold intRowWrite
  try dsimp only
  repeat' first
    | with_reducible exact h
    | exact Sub.trans (Sub.of (by decide)) hm
    | with_reducible apply State.updGroup_keeps
    | with_reducible apply setSource_keeps
    | with_reducible apply setTarget_keeps
    | dsimp only
    | split

theorem intcFunctionReset_keeps {m : Nat} {s t : State} {a0 : Nat} (h : Keeps m s t)
    (hm : Sub 0x1000000 m) : Keeps m s (intcFunctionReset a0 t) := by
  unfold intcFunctionReset
  try dsimp only
  repeat' first
    | with_reducible exact h
    | exact Sub.trans (Sub.of (by decide)) hm
    | with_reducible apply Keeps.ite
    | with_reducible apply Keeps.setIntc

end Sys2Proof.Machine
end

