-- ==== Sys2Proof/Laws/Pcie.lean ====
section
/-!
SUPPORT. What each operation of Machine/Pcie.lean may change: the parts of the state in the set `hm`, no others, the invariant
kept. Cite these lemmas; do not unfold the operations.
-/
namespace Sys2Proof.Machine

theorem State.updPcie_keeps {m : Nat} {s t : State} {a1 : Pcie → Pcie} (h : Keeps m s t)
    (hm : Sub 0x8000000 m) : Keeps m s (State.updPcie t a1) := by
  unfold State.updPcie
  try dsimp only
  repeat' first
    | with_reducible exact h
    | exact Sub.trans (Sub.of (by decide)) hm
    | with_reducible apply Keeps.setPcie

theorem State.updMbox_keeps {m : Nat} {s t : State} {a1 : Nat} {a2 : Mailbox → Mailbox} (h : Keeps m s t)
    (hm : Sub 0x100 m) : Keeps m s (State.updMbox t a1 a2) := by
  unfold State.updMbox
  try dsimp only
  repeat' first
    | with_reducible exact h
    | exact Sub.trans (Sub.of (by decide)) hm
    | exact id
    | exact fun _ h => h
    | with_reducible apply Keeps.setNap

theorem closeMailboxTransfers_keeps {m : Nat} {s t : State} {a0 : Nat} (h : Keeps m s t)
    (hm : Sub 0x100 m) : Keeps m s (closeMailboxTransfers a0 t) := by
  unfold closeMailboxTransfers
  try dsimp only
  repeat' first
    | with_reducible exact h
    | exact Sub.trans (Sub.of (by decide)) hm
    | exact id
    | exact fun _ h => h
    | exact fun h => Nat.le_trans (List.length_filter_le ..) h
    | with_reducible apply Keeps.setNap

theorem voidResponses_keeps {m : Nat} {s t : State} {a0 : Nat} (h : Keeps m s t)
    (hm : Sub 0x100 m) : Keeps m s (voidResponses a0 t) := by
  unfold voidResponses
  try dsimp only
  repeat' first
    | with_reducible exact h
    | exact Sub.trans (Sub.of (by decide)) hm
    | exact id
    | exact fun _ h => h
    | (intro hl; rw [List.length_map]; exact Nat.le_trans (List.length_filter_le ..) hl)
    | dsimp only
    | with_reducible apply Keeps.setNap

theorem clearCount_keeps {m : Nat} {s t : State} {a0 : Nat} (h : Keeps m s t)
    (hm : Sub 0x100 m) : Keeps m s (clearCount a0 t) := by
  unfold clearCount
  try dsimp only
  repeat' first
    | with_reducible exact h
    | exact Sub.trans (Sub.of (by decide)) hm
    | exact id
    | exact fun _ h => h
    | with_reducible apply Keeps.setNap

theorem resetFunction_keeps {m : Nat} {s t : State} {a0 : Bool} {a2 : Nat} (h : Keeps m s t)
    (hm : Sub 0xcb210300 m) : Keeps m s (resetFunction a0 t a2) := by
  unfold resetFunction
  try dsimp only
  repeat' first
    | with_reducible exact h
    | exact Sub.trans (Sub.of (by decide)) hm
    | with_reducible apply State.updMbox_keeps
    | with_reducible apply State.updPf_keeps
    | with_reducible apply clearCount_keeps
    | with_reducible apply closeMailboxTransfers_keeps
    | with_reducible apply dmaFunctionReset_keeps
    | with_reducible apply intcFunctionReset_keeps
    | with_reducible apply voidResponses_keeps
    | dsimp only
    | with_reducible apply Keeps.setTime

theorem dropLink_keeps {m : Nat} {s t : State} (h : Keeps m s t)
    (hm : Sub 0xcb210300 m) : Keeps m s (dropLink t) := by
  unfold dropLink
  try dsimp only
  repeat' first
    | with_reducible exact h
    | with_reducible assumption
    | exact Sub.trans (Sub.of (by decide)) hm
    | (intro (_ : State) hu; first | with_reducible exact hu | skip)
    | exact id
    | exact fun _ h => h
    | with_reducible apply Keeps.ite
    | with_reducible apply State.updPcie_keeps
    | with_reducible apply detectFault_keeps
    | with_reducible apply resetFunction_keeps
    | (with_reducible refine Keeps.foldl _ (fun _ _ _ => ?_) ?_)
    | dsimp only
    | split
    | (with_reducible refine Keeps.ofPair (by assumption) ?_)
    | (with_reducible refine Keeps.ofTriple (by assumption) ?_)

theorem effPerstNAssert_keeps {m : Nat} {s t : State} (h : Keeps m s t)
    (hm : Sub 0xcb210300 m) : Keeps m s (effPerstNAssert t) := by
  unfold effPerstNAssert
  try dsimp only
  repeat' first
    | with_reducible exact h
    | exact Sub.trans (Sub.of (by decide)) hm
    | with_reducible apply Keeps.ite
    | with_reducible apply State.updPcie_keeps
    | with_reducible apply dropLink_keeps

theorem effPerstNRelease_keeps {m : Nat} {s t : State} (h : Keeps m s t)
    (hm : Sub 0x8000000 m) : Keeps m s (effPerstNRelease t) := by
  unfold effPerstNRelease
  try dsimp only
  repeat' first
    | with_reducible exact h
    | exact Sub.trans (Sub.of (by decide)) hm
    | with_reducible apply Keeps.ite
    | with_reducible apply State.updPcie_keeps

theorem effPcieLinkUp_keeps {m : Nat} {s t : State} {a0 : Nat} {a1 : Nat} (h : Keeps m s t)
    (hm : Sub 0x8000000 m) : Keeps m s (effPcieLinkUp a0 a1 t) := by
  unfold effPcieLinkUp
  try dsimp only
  repeat' first
    | with_reducible exact h
    | exact Sub.trans (Sub.of (by decide)) hm
    | with_reducible apply Keeps.ite
    | with_reducible apply State.updPcie_keeps

theorem effPcieConfigReady_keeps {m : Nat} {s t : State} (h : Keeps m s t)
    (hm : Sub 0x8000000 m) : Keeps m s (effPcieConfigReady t) := by
  unfold effPcieConfigReady
  try dsimp only
  repeat' first
    | with_reducible exact h
    | exact Sub.trans (Sub.of (by decide)) hm
    | with_reducible apply Keeps.ite
    | with_reducible apply State.updPcie_keeps

theorem effHotReset_keeps {m : Nat} {s t : State} (h : Keeps m s t)
    (hm : Sub 0xcb210300 m) : Keeps m s (effHotReset t) := by
  unfold effHotReset
  try dsimp only
  repeat' first
    | with_reducible exact h
    | exact Sub.trans (Sub.of (by decide)) hm
    | with_reducible apply Keeps.ite
    | with_reducible apply dropLink_keeps

theorem cfgRequest_keeps {m : Nat} {s t : State} {a0 : Nat} {a1 : State → State} (h : Keeps m s t)
    (h1 : ∀ u0, Keeps m s u0 → Keeps m s (a1 u0))
    (hm : Sub 0x8 m) : Keeps m s (cfgRequest a0 a1 t) := by
  unfold cfgRequest
  try dsimp only
  repeat' first
    | with_reducible exact h
    | with_reducible assumption
    | exact Sub.trans (Sub.of (by decide)) hm
    | with_reducible apply Keeps.ite
    | with_reducible apply State.emit_keeps
    | with_reducible apply h1

theorem judgeWake_keeps {m : Nat} {s t : State} (h : Keeps m s t)
    (hm : Sub 0x8000000 m) : Keeps m s (judgeWake t) := by
  unfold judgeWake
  try dsimp only
  repeat' first
    | with_reducible exact h
    | exact Sub.trans (Sub.of (by decide)) hm
    | with_reducible apply Keeps.ite
    | with_reducible apply State.updPcie_keeps

theorem effFunctionLevelReset_keeps {m : Nat} {s t : State} {a0 : Nat} (h : Keeps m s t)
    (hm : Sub 0xcb210308 m) : Keeps m s (effFunctionLevelReset a0 t) := by
  unfold effFunctionLevelReset
  try dsimp only
  repeat' first
    | with_reducible exact h
    | with_reducible assumption
    | exact Sub.trans (Sub.of (by decide)) hm
    | (intro (_ : State) hu; first | with_reducible exact hu | skip)
    | exact id
    | exact fun _ h => h
    | with_reducible apply Keeps.ite
    | with_reducible apply cfgRequest_keeps
    | with_reducible apply judgeWake_keeps
    | with_reducible apply resetFunction_keeps
    | (with_reducible refine Keeps.foldl _ (fun _ _ _ => ?_) ?_)
    | dsimp only
    | split
    | (with_reducible refine Keeps.ofPair (by assumption) ?_)
    | (with_reducible refine Keeps.ofTriple (by assumption) ?_)

theorem effPowerStateChange_keeps {m : Nat} {s t : State} {a0 : Nat} {a1 : Bool} (h : Keeps m s t)
    (hm : Sub 0x8000008 m) : Keeps m s (effPowerStateChange a0 a1 t) := by
  unfold effPowerStateChange
  try dsimp only
  repeat' first
    | with_reducible exact h
    | with_reducible assumption
    | exact Sub.trans (Sub.of (by decide)) hm
    | (intro (_ : State) hu; first | with_reducible exact hu | skip)
    | exact id
    | exact fun _ h => h
    | with_reducible apply Keeps.ite
    | with_reducible apply State.updPf_keeps
    | with_reducible apply cfgRequest_keeps
    | (with_reducible refine Keeps.foldl _ (fun _ _ _ => ?_) ?_)
    | dsimp only
    | split
    | (with_reducible refine Keeps.ofPair (by assumption) ?_)
    | (with_reducible refine Keeps.ofTriple (by assumption) ?_)

theorem effConfigurationWrite_keeps {m : Nat} {s t : State} {a0 : Nat} {a1 : CfgField} (h : Keeps m s t)
    (hm : Sub 0x8000008 m) : Keeps m s (effConfigurationWrite a0 a1 t) := by
  unfold effConfigurationWrite
  try dsimp only
  repeat' first
    | with_reducible exact h
    | with_reducible assumption
    | exact Sub.trans (Sub.of (by decide)) hm
    | (intro (_ : State) hu; first | with_reducible exact hu | skip)
    | exact id
    | exact fun _ h => h
    | with_reducible apply Keeps.ite
    | with_reducible apply State.updPf_keeps
    | with_reducible apply cfgRequest_keeps
    | with_reducible apply judgeWake_keeps
    | (with_reducible refine Keeps.foldl _ (fun _ _ _ => ?_) ?_)
    | dsimp only
    | split
    | (with_reducible refine Keeps.ofPair (by assumption) ?_)
    | (with_reducible refine Keeps.ofTriple (by assumption) ?_)

theorem effMsixMessage_keeps {m : Nat} {s t : State} {a0 : Nat} {a1 : Nat} (h : Keeps m s t)
    (hm : Sub 0x8000008 m) : Keeps m s (effMsixMessage a0 a1 t) := by
  unfold effMsixMessage
  try dsimp only
  repeat' first
    | with_reducible exact h
    | exact Sub.trans (Sub.of (by decide)) hm
    | with_reducible apply Keeps.ite
    | with_reducible apply State.emit_keeps
    | with_reducible apply State.updPf_keeps

theorem signalWake_keeps {m : Nat} {s t : State} {a0 : Nat} (h : Keeps m s t)
    (hm : Sub 0x8000008 m) : Keeps m s (signalWake a0 t) := by
  unfold signalWake
  try dsimp only
  repeat' first
    | with_reducible exact h
    | exact Sub.trans (Sub.of (by decide)) hm
    | with_reducible apply Keeps.ite
    | with_reducible apply State.emit_keeps
    | with_reducible apply State.updPcie_keeps

theorem effPmPme_keeps {m : Nat} {s t : State} {a0 : Nat} (h : Keeps m s t)
    (hm : Sub 0x8000008 m) : Keeps m s (effPmPme a0 t) := by
  unfold effPmPme
  try dsimp only
  repeat' first
    | with_reducible exact h
    | exact Sub.trans (Sub.of (by decide)) hm
    | with_reducible apply Keeps.ite
    | with_reducible apply State.updPf_keeps
    | with_reducible apply signalWake_keeps
    | dsimp only

theorem noteWake_keeps {m : Nat} {s t : State} {a1 : Nat} (h : Keeps m s t)
    (hm : Sub 0x8000000 m) : Keeps m s (noteWake t a1) := by
  unfold noteWake
  try dsimp only
  repeat' first
    | with_reducible exact h
    | exact Sub.trans (Sub.of (by decide)) hm
    | with_reducible apply Keeps.ite
    | with_reducible apply State.updPf_keeps
    | dsimp only

theorem noteWakes_keeps {m : Nat} {s t : State} (h : Keeps m s t)
    (hm : Sub 0x8000000 m) : Keeps m s (noteWakes t) := by
  unfold noteWakes
  try dsimp only
  repeat' first
    | with_reducible exact h
    | with_reducible assumption
    | exact Sub.trans (Sub.of (by decide)) hm
    | (intro (_ : State) hu; first | with_reducible exact hu | skip)
    | exact id
    | exact fun _ h => h
    | with_reducible apply Keeps.ite
    | with_reducible apply noteWake_keeps
    | (with_reducible refine Keeps.foldl _ (fun _ _ _ => ?_) ?_)
    | dsimp only
    | split
    | (with_reducible refine Keeps.ofPair (by assumption) ?_)
    | (with_reducible refine Keeps.ofTriple (by assumption) ?_)

theorem effCompletionTimeout_keeps {m : Nat} {s t : State} {a0 : Nat} (h : Keeps m s t)
    (hm : Sub 0xcb01020c m) : Keeps m s (effCompletionTimeout a0 t) := by
  unfold effCompletionTimeout
  try dsimp only
  repeat' first
    | with_reducible exact h
    | exact Sub.trans (Sub.of (by decide)) hm
    | with_reducible apply Keeps.ite
    | with_reducible apply haltChan_keeps
    | with_reducible apply readLost_keeps
    | split

theorem mboxDiscard_keeps {m : Nat} {s t : State} {a0 : Nat} (h : Keeps m s t)
    (hm : Sub 0x81000300 m) : Keeps m s (mboxDiscard a0 t) := by
  unfold mboxDiscard
  try dsimp only
  repeat' first
    | with_reducible exact h
    | exact Sub.trans (Sub.of (by decide)) hm
    | with_reducible apply State.hit_keeps
    | with_reducible apply State.updMbox_keeps
    | with_reducible apply pulse_keeps

theorem mboxSubmit_keeps {m : Nat} {s t : State} {a0 : Nat} {a1 : Nat} (h : Keeps m s t)
    (hm : Sub 0x81000300 m) : Keeps m s (mboxSubmit a0 a1 t) := by
  unfold mboxSubmit
  try dsimp only
  repeat' first
    | with_reducible exact h
    | exact Sub.trans (Sub.of (by decide)) hm
    | with_reducible apply Keeps.ite
    | with_reducible apply State.bump_keeps
    | with_reducible apply State.updMbox_keeps
    | with_reducible apply mboxDiscard_keeps
    | with_reducible apply napEnqueue_keeps
    | dsimp only

theorem effSend_keeps {m : Nat} {s t : State} {a0 : Nat} {a1 : Nat} (h : Keeps m s t)
    (hm : Sub 0x8900030c m) : Keeps m s (effSend a0 a1 t) := by
  unfold effSend
  try dsimp only
  repeat' first
    | with_reducible exact h
    | exact Sub.trans (Sub.of (by decide)) hm
    | with_reducible apply Keeps.ite
    | with_reducible apply State.hit_keeps
    | with_reducible apply State.updMbox_keeps
    | with_reducible apply mboxSubmit_keeps
    | with_reducible apply refuseBar_keeps
    | dsimp only

theorem effAck_keeps {m : Nat} {s t : State} {a0 : Nat} (h : Keeps m s t)
    (hm : Sub 0x800010c m) : Keeps m s (effAck a0 t) := by
  unfold effAck
  try dsimp only
  repeat' first
    | with_reducible exact h
    | exact Sub.trans (Sub.of (by decide)) hm
    | with_reducible apply Keeps.ite
    | with_reducible apply State.updMbox_keeps
    | with_reducible apply refuseBar_keeps

theorem mboxRespond_keeps {m : Nat} {s t : State} {a0 : Nat} {a1 : Bytes} (h : Keeps m s t)
    (hm : Sub 0x1000300 m) : Keeps m s (mboxRespond a0 a1 t) := by
  unfold mboxRespond
  try dsimp only
  repeat' first
    | with_reducible exact h
    | exact Sub.trans (Sub.of (by decide)) hm
    | with_reducible apply State.updMbox_keeps
    | with_reducible apply pulse_keeps

theorem mboxRegWrite_keeps {m : Nat} {s t : State} {a0 : Nat} {a1 : Nat} {a2 : Nat} (h : Keeps m s t)
    (hm : Sub 0x8900030c m) : Keeps m s (mboxRegWrite a0 a1 a2 t) := by
  unfold mboxRegWrite
  try dsimp only
  repeat' first
    | with_reducible exact h
    | exact Sub.trans (Sub.of (by decide)) hm
    | with_reducible apply Keeps.ite
    | with_reducible apply State.hit_keeps
    | with_reducible apply State.updMbox_keeps
    | with_reducible apply effAck_keeps
    | with_reducible apply effSend_keeps
    | dsimp only

theorem globalRegWrite_keeps {m : Nat} {s t : State} {a0 : Nat} {a1 : Nat} {a2 : Nat} (h : Keeps m s t)
    (hm : Sub 0x88000000 m) : Keeps m s (globalRegWrite a0 a1 a2 t) := by
  unfold globalRegWrite
  try dsimp only
  repeat' first
    | with_reducible exact h
    | exact Sub.trans (Sub.of (by decide)) hm
    | with_reducible apply Keeps.ite
    | with_reducible apply State.updPf_keeps
    | with_reducible apply denyWrite_keeps

theorem noteBadAccess_keeps {m : Nat} {s t : State} {a0 : Nat} (h : Keeps m s t)
    (hm : Sub 0x88000000 m) : Keeps m s (noteBadAccess a0 t) := by
  unfold noteBadAccess
  try dsimp only
  repeat' first
    | with_reducible exact h
    | exact Sub.trans (Sub.of (by decide)) hm
    | with_reducible apply State.hit_keeps
    | with_reducible apply State.updPf_keeps

theorem effBar0BadAccess_keeps {m : Nat} {s t : State} {a0 : Nat} {a1 : Nat} {a2 : Nat} {a3 : Bool} (h : Keeps m s t)
    (hm : Sub 0x8800000c m) : Keeps m s (effBar0BadAccess a0 a1 a2 a3 t) := by
  unfold effBar0BadAccess
  try dsimp only
  repeat' first
    | with_reducible exact h
    | with_reducible assumption
    | exact Sub.trans (Sub.of (by decide)) hm
    | (intro (_ : State) hu; first | with_reducible exact hu | skip)
    | exact id
    | exact fun _ h => h
    | with_reducible apply Keeps.ite
    | with_reducible apply State.emit_keeps
    | with_reducible apply noteBadAccess_keeps
    | with_reducible apply refuseBar_keeps
    | (with_reducible refine Keeps.foldl _ (fun _ _ _ => ?_) ?_)
    | dsimp only
    | split
    | (with_reducible refine Keeps.ofPair (by assumption) ?_)
    | (with_reducible refine Keeps.ofTriple (by assumption) ?_)

end Sys2Proof.Machine
end

