-- ==== Sys2Proof/Laws/States.lean ====
section
/-!
SUPPORT. What each operation of Machine/States.lean may change: the parts of the state in the set `hm`, no others, the invariant
kept. Cite these lemmas; do not unfold the operations.
-/
namespace Sys2Proof.Machine

theorem dropArriving_keeps {m : Nat} {s t : State} {a0 : Mode} {a2 : Prod Nat Inflight} (h : Keeps m s t)
    (hm : Sub 0x600 m) : Keeps m s (dropArriving a0 t a2) := by
  unfold dropArriving
  try dsimp only
  repeat' first
    | with_reducible exact h
    | exact Sub.trans (Sub.of (by decide)) hm
    | with_reducible apply Keeps.ite
    | with_reducible apply State.bumpPort_keeps
    | with_reducible apply State.putInflight_keeps
    | with_reducible apply abandonFrame_keeps
    | dsimp only

theorem stopFor_keeps {m : Nat} {s t : State} {a0 : Mode} (h : Keeps m s t)
    (hm : Sub 0xe00 m) : Keeps m s (stopFor a0 t) := by
  unfold stopFor
  try dsimp only
  repeat' first
    | with_reducible exact h
    | with_reducible assumption
    | exact Sub.trans (Sub.of (by decide)) hm
    | (intro (_ : State) hu; first | with_reducible exact hu | skip)
    | exact id
    | exact fun _ h => h
    | exact memWrite_wf _ _
    | with_reducible apply Keeps.ite
    | with_reducible apply dropArriving_keeps
    | with_reducible apply stopEgress_keeps
    | (with_reducible refine Keeps.foldl _ (fun _ _ _ => ?_) ?_)
    | dsimp only
    | split
    | (with_reducible refine Keeps.ofPair (by assumption) ?_)
    | (with_reducible refine Keeps.ofTriple (by assumption) ?_)

theorem interruptCommit_keeps {m : Nat} {s t : State} (h : Keeps m s t)
    (hm : Sub 0x1000280 m) : Keeps m s (interruptCommit t) := by
  unfold interruptCommit
  try dsimp only
  repeat' first
    | with_reducible exact h
    | exact Sub.trans (Sub.of (by decide)) hm
    | with_reducible apply Keeps.ite
    | with_reducible apply endCommit_keeps

theorem leaveRun_keeps {m : Nat} {s t : State} (h : Keeps m s t)
    (hm : Sub 0x1444200 m) : Keeps m s (leaveRun t) := by
  unfold leaveRun
  try dsimp only
  repeat' first
    | with_reducible exact h
    | exact Sub.trans (Sub.of (by decide)) hm
    | with_reducible apply Keeps.ite
    | with_reducible apply pairLeaveRun_keeps
    | with_reducible apply stopGates_keeps
    | with_reducible apply trigLeaveRun_keeps

theorem setMode_keeps {m : Nat} {s t : State} {a0 : Mode} (h : Keeps m s t)
    (hm : Sub 0x20000120 m) : Keeps m s (setMode a0 t) :=
  h.change hm ⟨fun p hp => by cases p <;> first | rfl | exact absurd hp (by decide), fun i => ⟨i.1, i.2, i.3, Nat.zero_le _, i.5, i.6⟩⟩

theorem enterRun_keeps {m : Nat} {s t : State} (h : Keeps m s t)
    (hm : Sub 0xc3454e40 m) : Keeps m s (enterRun t) := by
  unfold enterRun
  try dsimp only
  repeat' first
    | with_reducible exact h
    | exact Sub.trans (Sub.of (by decide)) hm
    | with_reducible apply pairEnterRun_keeps
    | with_reducible apply startGates_keeps
    | with_reducible apply trigEnterRun_keeps

theorem engineLoad_keeps {m : Nat} {s t : State} (h : Keeps m s t)
    (hm : Sub 0x100 m) : Keeps m s (engineLoad t) := by
  unfold engineLoad
  try dsimp only
  repeat' first
    | with_reducible exact h
    | exact Sub.trans (Sub.of (by decide)) hm
    | exact id
    | exact fun _ h => h
    | with_reducible apply Keeps.setNap

theorem enterLoad_keeps {m : Nat} {s t : State} (h : Keeps m s t)
    (hm : Sub 0x8193780 m) : Keeps m s (enterLoad t) := by
  unfold enterLoad
  try dsimp only
  repeat' first
    | with_reducible exact h
    | exact Sub.trans (Sub.of (by decide)) hm
    | with_reducible apply dmaLoad_keeps
    | with_reducible apply engineLoad_keeps
    | with_reducible apply fabricLoad_keeps
    | with_reducible apply fdbLoad_keeps
    | with_reducible apply frerLoad_keeps
    | with_reducible apply psfpLoad_keeps
    | with_reducible apply resetDrr_keeps
    | with_reducible apply resetShapers_keeps
    | dsimp only
    | with_reducible apply Keeps.setCfg
    | with_reducible apply Keeps.setLinkDelay

theorem enterMode_keeps {m : Nat} {s t : State} {a0 : Mode} (h : Keeps m s t)
    (hm : Sub 0xcbdd7fc8 m) : Keeps m s (enterMode a0 t) := by
  unfold enterMode
  try dsimp only
  repeat' first
    | with_reducible exact h
    | exact Sub.trans (Sub.of (by decide)) hm
    | with_reducible apply enterLoad_keeps
    | with_reducible apply enterRun_keeps
    | with_reducible apply herdEnter_keeps
    | with_reducible apply resetDrr_keeps
    | with_reducible apply resetShapers_keeps
    | with_reducible apply trigCut_keeps
    | split

theorem transition_keeps {m : Nat} {s t : State} {a0 : Mode} (h : Keeps m s t)
    (hm : Sub 0xebfd7fe8 m) : Keeps m s (transition a0 t) := by
  unfold transition
  try dsimp only
  repeat' first
    | with_reducible exact h
    | exact Sub.trans (Sub.of (by decide)) hm
    | with_reducible apply Keeps.ite
    | with_reducible apply enterMode_keeps
    | with_reducible apply interruptCommit_keeps
    | with_reducible apply leaveRun_keeps
    | with_reducible apply ppsState_keeps
    | with_reducible apply pulse_keeps
    | with_reducible apply regimeChange_keeps
    | with_reducible apply setMode_keeps
    | with_reducible apply stopFor_keeps
    | dsimp only

theorem settleMgt_keeps {m : Nat} {s t : State} {a0 : State} (h : Keeps m s t)
    (hm : Sub 0x5000a08 m) : Keeps m s (settleMgt a0 t) := by
  unfold settleMgt
  try dsimp only
  repeat' first
    | with_reducible exact h
    | with_reducible assumption
    | exact Sub.trans (Sub.of (by decide)) hm
    | (intro (_ : State) hu; first | with_reducible exact hu | skip)
    | exact id
    | exact fun _ h => h
    | exact memWrite_wf _ _
    | with_reducible apply Keeps.ite
    | with_reducible apply cutMgt_keeps
    | (with_reducible refine Keeps.foldl _ (fun _ _ _ => ?_) ?_)
    | dsimp only
    | split
    | (with_reducible refine Keeps.ofPair (by assumption) ?_)
    | (with_reducible refine Keeps.ofTriple (by assumption) ?_)

theorem clearedState_keeps {m : Nat} {s t : State} {a0 : Mode} {a1 : Nat} {a2 : Nat} (h : Keeps m s t)
    (hm : Sub 0xffffffa0 m) : Keeps m s (clearedState a0 a1 a2 t) :=
  h.change hm ⟨fun p hp => by cases p <;> first | rfl | exact absurd hp (by decide), fun _ =>
    ⟨rfl, rfl, Nat.zero_le _, Nat.zero_le _, fun x h => by
      rcases List.mem_cons.1 h with rfl | h
      · exact Nat.zero_le _
      · rw [List.mem_singleton.1 h]; exact Nat.zero_le _, fun _ h => by simp [clearedState] at h⟩⟩

theorem effSupplyInRange_keeps {m : Nat} {s t : State} {a0 : List Nat} (h : Keeps m s t)
    (hm : Sub 0xffffffa0 m) : Keeps m s (effSupplyInRange a0 t) := by
  unfold effSupplyInRange
  try dsimp only
  repeat' first
    | with_reducible exact h
    | exact Sub.trans (Sub.of (by decide)) hm
    | with_reducible apply Keeps.ite
    | with_reducible apply clearedState_keeps
    | dsimp only
    | (with_reducible refine Keeps.setChipOnly ?_ ?_ rfl)
    | with_reducible apply Keeps.setChip

theorem effSupplyOutOfRange_keeps {m : Nat} {s t : State} {a0 : Nat} {a1 : Nat} {a2 : Nat} (h : Keeps m s t)
    (hm : Sub 0xffffffa0 m) : Keeps m s (effSupplyOutOfRange a0 a1 a2 t) := by
  unfold effSupplyOutOfRange
  try dsimp only
  repeat' first
    | with_reducible exact h
    | exact Sub.trans (Sub.of (by decide)) hm
    | with_reducible apply Keeps.ite
    | with_reducible apply clearedState_keeps

theorem sampleStraps_keeps {m : Nat} {s t : State} {a0 : Nat} {a1 : Nat} (h : Keeps m s t)
    (hm : Sub 0x80010a0 m) : Keeps m s (sampleStraps a0 a1 t) :=
  h.change hm ⟨fun p hp => by cases p <;> first | rfl | exact absurd hp (by decide), fun i => ⟨i.1, i.2, i.3, i.4, i.5, i.6⟩⟩

theorem noteMramWord_keeps {m : Nat} {s t : State} {a1 : MramWord} (h : Keeps m s t)
    (hm : Sub 0xc3000200 m) : Keeps m s (noteMramWord t a1) := by
  unfold noteMramWord
  try dsimp only
  repeat' first
    | with_reducible exact h
    | exact Sub.trans (Sub.of (by decide)) hm
    | with_reducible apply Keeps.ite
    | with_reducible apply State.bump_keeps
    | with_reducible apply detectFault_keeps

theorem noteMramWords_keeps {m : Nat} {s t : State} {a0 : List MramWord} (h : Keeps m s t)
    (hm : Sub 0xc3000200 m) : Keeps m s (noteMramWords a0 t) := by
  unfold noteMramWords
  try dsimp only
  repeat' first
    | with_reducible exact h
    | with_reducible assumption
    | exact Sub.trans (Sub.of (by decide)) hm
    | (intro (_ : State) hu; first | with_reducible exact hu | skip)
    | exact id
    | exact fun _ h => h
    | exact memWrite_wf _ _
    | with_reducible apply Keeps.ite
    | with_reducible apply State.bumpBy_keeps
    | with_reducible apply noteMramWord_keeps
    | (with_reducible refine Keeps.foldl _ (fun _ _ _ => ?_) ?_)
    | dsimp only
    | split
    | (with_reducible refine Keeps.ofPair (by assumption) ?_)
    | (with_reducible refine Keeps.ofTriple (by assumption) ?_)

theorem effResetRelease_keeps {m : Nat} {s t : State} {a0 : Nat} {a1 : Nat} {a2 : List MramWord} (h : Keeps m s t)
    (hm : Sub 0xeffd7fe8 m) : Keeps m s (effResetRelease a0 a1 a2 t) := by
  unfold effResetRelease
  try dsimp only
  repeat' first
    | with_reducible exact h
    | exact Sub.trans (Sub.of (by decide)) hm
    | with_reducible apply Keeps.ite
    | with_reducible apply healthRelease_keeps
    | with_reducible apply noteMramWords_keeps
    | with_reducible apply rereadMram_keeps
    | with_reducible apply sampleStraps_keeps
    | with_reducible apply startDomain_keeps
    | with_reducible apply transition_keeps

theorem trainedUpTo_keeps {m : Nat} {s t : State} {a0 : Nat} (h : Keeps m s t)
    (hm : Sub 0x4 m) : Keeps m s (trainedUpTo a0 t).2 := by
  unfold trainedUpTo
  try dsimp only
  repeat' first
    | with_reducible exact h
    | exact Sub.trans (Sub.of (by decide)) hm
    | with_reducible apply State.draw_keeps
    | dsimp only
    | split
    | (with_reducible refine Keeps.ofPair (by assumption) ?_)

theorem effMemoryTrainingDone_keeps {m : Nat} {s t : State} {a0 : Nat} {a1 : Nat} {a2 : Option Nat} (h : Keeps m s t)
    (hm : Sub 0xd3000004 m) : Keeps m s (effMemoryTrainingDone a0 a1 a2 t) := by
  unfold effMemoryTrainingDone
  try dsimp only
  repeat' first
    | with_reducible exact h
    | exact Sub.trans (Sub.of (by decide)) hm
    | exact id
    | exact fun _ h => h
    | exact fun _ => rfl
    | with_reducible apply Keeps.ite
    | with_reducible apply detectFault_keeps
    | with_reducible apply trainedUpTo_keeps
    | dsimp only
    | split
    | (with_reducible refine Keeps.ofPair (by assumption) ?_)
    | with_reducible apply Keeps.setMem

theorem effResetDelayExpiry_keeps {m : Nat} {s t : State} (h : Keeps m s t)
    (hm : Sub 0xffffffe0 m) : Keeps m s (effResetDelayExpiry t) := by
  unfold effResetDelayExpiry
  try dsimp only
  repeat' first
    | with_reducible exact h
    | exact Sub.trans (Sub.of (by decide)) hm
    | with_reducible apply Keeps.ite
    | with_reducible apply clearedState_keeps
    | dsimp only
    | split
    | with_reducible apply Keeps.setMram

theorem setReason_keeps {m : Nat} {s t : State} {a0 : Nat} {a1 : Nat} {a2 : Nat} (h : Keeps m s t)
    (hm : Sub 0x20 m) : Keeps m s (setReason a0 a1 a2 t) := by
  unfold setReason
  try dsimp only
  repeat' first
    | with_reducible exact h
    | exact Sub.trans (Sub.of (by decide)) hm
    | (with_reducible refine Keeps.setChipOnly ?_ ?_ rfl)
    | with_reducible apply Keeps.setChip

theorem adoptImage_keeps {m : Nat} {s t : State} {a0 : Image} (h : Keeps m s t)
    (hm : Sub 0xd3303680 m) : Keeps m s (adoptImage a0 t) := by
  unfold adoptImage
  try dsimp only
  repeat' first
    | with_reducible exact h
    | exact Sub.trans (Sub.of (by decide)) hm
    | with_reducible apply applyTimeSettings_keeps
    | with_reducible apply buildMasters_keeps
    | with_reducible apply countLoadResets_keeps
    | with_reducible apply createdRows_keeps
    | with_reducible apply fabricLoad_keeps
    | with_reducible apply fdbCutover_keeps
    | with_reducible apply frerLoad_keeps
    | with_reducible apply psfpLoad_keeps
    | dsimp only
    | with_reducible apply Keeps.setCfg

theorem adoptPorts_keeps {m : Nat} {s t : State} {a0 : State} (h : Keeps m s t)
    (hm : Sub 0x5020e08 m) : Keeps m s (adoptPorts a0 t) := by
  unfold adoptPorts
  try dsimp only
  repeat' first
    | with_reducible exact h
    | exact Sub.trans (Sub.of (by decide)) hm
    | with_reducible apply applyPorts_keeps
    | with_reducible apply judgeFeeds_keeps

theorem enterHold_keeps {m : Nat} {s t : State} {a0 : CheckFail} {a1 : Image} (h : Keeps m s t)
    (hm : Sub 0xffff7fe8 m) : Keeps m s (enterHold a0 a1 t) := by
  unfold enterHold
  try dsimp only
  repeat' first
    | with_reducible exact h
    | exact Sub.trans (Sub.of (by decide)) hm
    | with_reducible apply adoptImage_keeps
    | with_reducible apply adoptPorts_keeps
    | with_reducible apply setReason_keeps
    | with_reducible apply transition_keeps

theorem effLoadComplete_keeps {m : Nat} {s t : State} (h : Keeps m s t)
    (hm : Sub 0xffff7fe8 m) : Keeps m s (effLoadComplete t) := by
  unfold effLoadComplete
  try dsimp only
  repeat' first
    | with_reducible exact h
    | exact Sub.trans (Sub.of (by decide)) hm
    | with_reducible apply Keeps.ite
    | with_reducible apply enterHold_keeps
    | with_reducible apply transition_keeps
    | split
    | with_reducible apply Keeps.setCfg

theorem checkPassed_keeps {m : Nat} {s t : State} {a0 : Nat} {a1 : Image} (h : Keeps m s t)
    (hm : Sub 0xffff7fe8 m) : Keeps m s (checkPassed a0 a1 t) := by
  unfold checkPassed
  try dsimp only
  repeat' first
    | with_reducible exact h
    | exact Sub.trans (Sub.of (by decide)) hm
    | with_reducible apply adoptImage_keeps
    | with_reducible apply adoptPorts_keeps
    | with_reducible apply transition_keeps
    | dsimp only
    | (with_reducible refine Keeps.setChipOnly ?_ ?_ rfl)
    | with_reducible apply Keeps.setChip
    | with_reducible apply Keeps.setCfg

theorem checkFailed_keeps {m : Nat} {s t : State} {a0 : Nat} {a1 : CheckFail} {a2 : Image} (h : Keeps m s t)
    (hm : Sub 0xffff7fe8 m) : Keeps m s (checkFailed a0 a1 a2 t) := by
  unfold checkFailed
  try dsimp only
  repeat' first
    | with_reducible exact h
    | exact Sub.trans (Sub.of (by decide)) hm
    | with_reducible apply Keeps.ite
    | with_reducible apply enterHold_keeps
    | with_reducible apply setReason_keeps
    | with_reducible apply transition_keeps
    | with_reducible apply Keeps.setCfg

theorem effCheckComplete_keeps {m : Nat} {s t : State} (h : Keeps m s t)
    (hm : Sub 0xffff7fe8 m) : Keeps m s (effCheckComplete t) := by
  unfold effCheckComplete
  try dsimp only
  repeat' first
    | with_reducible exact h
    | exact Sub.trans (Sub.of (by decide)) hm
    | with_reducible apply checkFailed_keeps
    | with_reducible apply checkPassed_keeps
    | split

theorem cmdStart_keeps {m : Nat} {s t : State} (h : Keeps m s t)
    (hm : Sub 0x20 m) : Keeps m s (cmdStart t) := by
  unfold cmdStart
  try dsimp only
  repeat' first
    | with_reducible exact h
    | exact Sub.trans (Sub.of (by decide)) hm
    | (with_reducible refine Keeps.setChipOnly ?_ ?_ rfl)
    | with_reducible apply Keeps.setChip

theorem cmdStop_keeps {m : Nat} {s t : State} (h : Keeps m s t)
    (hm : Sub 0xebfd7fe8 m) : Keeps m s (cmdStop t) := by
  unfold cmdStop
  try dsimp only
  repeat' first
    | with_reducible exact h
    | exact Sub.trans (Sub.of (by decide)) hm
    | with_reducible apply Keeps.ite
    | with_reducible apply transition_keeps
    | (with_reducible refine Keeps.setChipOnly ?_ ?_ rfl)
    | with_reducible apply Keeps.setChip

theorem cmdReload_keeps {m : Nat} {s t : State} (h : Keeps m s t)
    (hm : Sub 0xeffd7fe8 m) : Keeps m s (cmdReload t) := by
  unfold cmdReload
  try dsimp only
  repeat' first
    | with_reducible exact h
    | exact Sub.trans (Sub.of (by decide)) hm
    | with_reducible apply Keeps.ite
    | with_reducible apply settleMgt_keeps
    | with_reducible apply transition_keeps
    | dsimp only
    | with_reducible apply Keeps.setCfg

theorem cmdReset_keeps {m : Nat} {s t : State} (h : Keeps m s t)
    (hm : Sub 0x4000060 m) : Keeps m s (cmdReset t) := by
  unfold cmdReset
  try dsimp only
  repeat' first
    | with_reducible exact h
    | exact Sub.trans (Sub.of (by decide)) hm
    | with_reducible apply Keeps.ite
    | with_reducible apply checkpoint_keeps
    | dsimp only
    | (with_reducible refine Keeps.setChipOnly ?_ ?_ rfl)
    | with_reducible apply Keeps.setChip

theorem recordSafe_keeps {m : Nat} {s t : State} {a0 : Nat} {a1 : Nat} {a2 : Nat} (h : Keeps m s t)
    (hm : Sub 0x40000040 m) : Keeps m s (recordSafe a0 a1 a2 t) :=
  h.change hm ⟨fun p hp => by cases p <;> first | rfl | exact absurd hp (by decide), fun i => ⟨i.1, i.2, i.3, i.4, i.5, i.6⟩⟩

theorem enterSafe_keeps {m : Nat} {s t : State} {a0 : Nat} {a1 : Nat} (h : Keeps m s t)
    (hm : Sub 0xeffd7fe8 m) : Keeps m s (enterSafe a0 a1 t) := by
  unfold enterSafe
  try dsimp only
  repeat' first
    | with_reducible exact h
    | exact Sub.trans (Sub.of (by decide)) hm
    | with_reducible apply checkpoint_keeps
    | with_reducible apply recordSafe_keeps
    | with_reducible apply setReason_keeps
    | with_reducible apply settleMgt_keeps
    | with_reducible apply transition_keeps

theorem cmdSafe_keeps {m : Nat} {s t : State} (h : Keeps m s t)
    (hm : Sub 0xeffd7fe8 m) : Keeps m s (cmdSafe t) := by
  unfold cmdSafe
  try dsimp only
  repeat' first
    | with_reducible exact h
    | exact Sub.trans (Sub.of (by decide)) hm
    | with_reducible apply enterSafe_keeps

theorem effStartTaken_keeps {m : Nat} {s t : State} (h : Keeps m s t)
    (hm : Sub 0xebfd7fe8 m) : Keeps m s (effStartTaken t) := by
  unfold effStartTaken
  try dsimp only
  repeat' first
    | with_reducible exact h
    | exact Sub.trans (Sub.of (by decide)) hm
    | with_reducible apply Keeps.ite
    | with_reducible apply transition_keeps

theorem effSafeEntryOnFault_keeps {m : Nat} {s t : State} (h : Keeps m s t)
    (hm : Sub 0xeffd7fe8 m) : Keeps m s (effSafeEntryOnFault t) := by
  unfold effSafeEntryOnFault
  try dsimp only
  repeat' first
    | with_reducible exact h
    | exact Sub.trans (Sub.of (by decide)) hm
    | with_reducible apply Keeps.ite
    | with_reducible apply enterSafe_keeps
    | split

end Sys2Proof.Machine
end

