-- ==== Sys2Proof/Laws/Commit.lean ====
section
/-!
SUPPORT. What each operation of Machine/Commit.lean may change: the parts of the state in the set `hm`, no others, the invariant
kept. Cite these lemmas; do not unfold the operations.
-/
namespace Sys2Proof.Machine

theorem cmdCommit_keeps {m : Nat} {s t : State} (h : Keeps m s t)
    (hm : Sub 0x80 m) : Keeps m s (cmdCommit t) := by
  unfold cmdCommit
  try dsimp only
  repeat' first
    | with_reducible exact h
    | exact Sub.trans (Sub.of (by decide)) hm
    | with_reducible apply Keeps.setCfg

theorem cmdDiscard_keeps {m : Nat} {s t : State} (h : Keeps m s t)
    (hm : Sub 0x80 m) : Keeps m s (cmdDiscard t) := by
  unfold cmdDiscard
  try dsimp only
  repeat' first
    | with_reducible exact h
    | exact Sub.trans (Sub.of (by decide)) hm
    | with_reducible apply Keeps.setCfg

theorem cmdCancel_keeps {m : Nat} {s t : State} (h : Keeps m s t)
    (hm : Sub 0x1000280 m) : Keeps m s (cmdCancel t) := by
  unfold cmdCancel
  try dsimp only
  repeat' first
    | with_reducible exact h
    | exact Sub.trans (Sub.of (by decide)) hm
    | with_reducible apply endCommit_keeps

theorem cutConfig_keeps {m : Nat} {s t : State} (h : Keeps m s t)
    (hm : Sub 0x80 m) : Keeps m s (cutConfig t) := by
  unfold cutConfig
  try dsimp only
  repeat' first
    | with_reducible exact h
    | exact Sub.trans (Sub.of (by decide)) hm
    | dsimp only
    | with_reducible apply Keeps.setCfg

theorem cutTables_keeps {m : Nat} {s t : State} {a0 : State} (h : Keeps m s t)
    (hm : Sub 0xcbd13208 m) : Keeps m s (cutTables a0 t) := by
  unfold cutTables
  try dsimp only
  repeat' first
    | with_reducible exact h
    | exact Sub.trans (Sub.of (by decide)) hm
    | with_reducible apply dmaCutover_keeps
    | with_reducible apply evCutover_keeps
    | with_reducible apply fdbCutover_keeps
    | with_reducible apply frerCutover_keeps
    | with_reducible apply herdCutover_keeps
    | with_reducible apply psfpCutover_keeps
    | with_reducible apply trigCutover_keeps
    | dsimp only

theorem cutover_keeps {m : Nat} {s t : State} (h : Keeps m s t)
    (hm : Sub 0xdff77e88 m) : Keeps m s (cutover t) := by
  unfold cutover
  try dsimp only
  repeat' first
    | with_reducible exact h
    | exact Sub.trans (Sub.of (by decide)) hm
    | with_reducible apply applyPorts_keeps
    | with_reducible apply applyTimeSettings_keeps
    | with_reducible apply cutConfig_keeps
    | with_reducible apply cutTables_keeps
    | with_reducible apply disturbDigest_keeps
    | with_reducible apply egressCutover_keeps
    | with_reducible apply gatesCutover_keeps
    | with_reducible apply judgeFeeds_keeps
    | with_reducible apply pulse_keeps
    | dsimp only

theorem effCutover_keeps {m : Nat} {s t : State} (h : Keeps m s t)
    (hm : Sub 0xdff77e88 m) : Keeps m s (effCutover t) := by
  unfold effCutover
  try dsimp only
  repeat' first
    | with_reducible exact h
    | exact Sub.trans (Sub.of (by decide)) hm
    | with_reducible apply Keeps.ite
    | with_reducible apply cutover_keeps
    | with_reducible apply endCommit_keeps

theorem cutoverFirst_keeps {m : Nat} {s t : State} (h : Keeps m s t)
    (hm : Sub 0xdff77e88 m) : Keeps m s (cutoverFirst t) := by
  unfold cutoverFirst
  try dsimp only
  repeat' first
    | with_reducible exact h
    | exact Sub.trans (Sub.of (by decide)) hm
    | with_reducible apply Keeps.ite
    | with_reducible apply cutover_keeps

theorem effTakeover_keeps {m : Nat} {s t : State} (h : Keeps m s t)
    (hm : Sub 0xdff77ec8 m) : Keeps m s (effTakeover t) := by
  unfold effTakeover
  try dsimp only
  repeat' first
    | with_reducible exact h
    | exact Sub.trans (Sub.of (by decide)) hm
    | with_reducible apply Keeps.ite
    | with_reducible apply State.updPair_keeps
    | with_reducible apply cutoverFirst_keeps
    | with_reducible apply takeover_keeps
    | dsimp only

theorem setStatus_keeps {m : Nat} {s t : State} {a0 : Nat} (h : Keeps m s t)
    (hm : Sub 0x80 m) : Keeps m s (setStatus a0 t) := by
  unfold setStatus
  try dsimp only
  repeat' first
    | with_reducible exact h
    | exact Sub.trans (Sub.of (by decide)) hm
    | with_reducible apply Keeps.setCfg

theorem commitBuilt_keeps {m : Nat} {s t : State} (h : Keeps m s t)
    (hm : Sub 0x1000280 m) : Keeps m s (commitBuilt t) := by
  unfold commitBuilt
  try dsimp only
  repeat' first
    | with_reducible exact h
    | exact Sub.trans (Sub.of (by decide)) hm
    | with_reducible apply Keeps.ite
    | with_reducible apply endCommit_keeps
    | with_reducible apply setStatus_keeps
    | dsimp only
    | with_reducible apply Keeps.setCfg

theorem commitChecked_keeps {m : Nat} {s t : State} (h : Keeps m s t)
    (hm : Sub 0x10002c0 m) : Keeps m s (commitChecked t) := by
  unfold commitChecked
  try dsimp only
  repeat' first
    | with_reducible exact h
    | exact Sub.trans (Sub.of (by decide)) hm
    | with_reducible apply State.updBank_keeps
    | with_reducible apply endCommit_keeps
    | with_reducible apply setStatus_keeps
    | split

theorem commitInHold_keeps {m : Nat} {s t : State} (h : Keeps m s t)
    (hm : Sub 0xeffd7fe8 m) : Keeps m s (commitInHold t) := by
  unfold commitInHold
  try dsimp only
  repeat' first
    | with_reducible exact h
    | exact Sub.trans (Sub.of (by decide)) hm
    | with_reducible apply State.updBank_keeps
    | with_reducible apply pulse_keeps
    | with_reducible apply setStatus_keeps
    | with_reducible apply settleMgt_keeps
    | with_reducible apply transition_keeps
    | dsimp only
    | with_reducible apply Keeps.setCfg

theorem commitStored_keeps {m : Nat} {s t : State} {a0 : Bool} (h : Keeps m s t)
    (hm : Sub 0xeffd7fe8 m) : Keeps m s (commitStored a0 t) := by
  unfold commitStored
  try dsimp only
  repeat' first
    | with_reducible exact h
    | exact Sub.trans (Sub.of (by decide)) hm
    | with_reducible apply Keeps.ite
    | with_reducible apply State.updBank_keeps
    | with_reducible apply commitInHold_keeps
    | with_reducible apply detectFault_keeps
    | with_reducible apply endCommit_keeps
    | with_reducible apply setStatus_keeps
    | dsimp only

theorem commitLoaded_keeps {m : Nat} {s t : State} (h : Keeps m s t)
    (hm : Sub 0xdff77e88 m) : Keeps m s (commitLoaded t) := by
  unfold commitLoaded
  try dsimp only
  repeat' first
    | with_reducible exact h
    | exact Sub.trans (Sub.of (by decide)) hm
    | with_reducible apply Keeps.ite
    | with_reducible apply cutover_keeps
    | with_reducible apply endCommit_keeps
    | with_reducible apply setStatus_keeps
    | with_reducible apply stageMasters_keeps
    | dsimp only
    | with_reducible apply Keeps.setCfg

theorem effCommitStepDone_keeps {m : Nat} {s t : State} {a0 : Bool} (h : Keeps m s t)
    (hm : Sub 0xffff7fe8 m) : Keeps m s (effCommitStepDone a0 t) := by
  unfold effCommitStepDone
  try dsimp only
  repeat' first
    | with_reducible exact h
    | exact Sub.trans (Sub.of (by decide)) hm
    | with_reducible apply commitBuilt_keeps
    | with_reducible apply commitChecked_keeps
    | with_reducible apply commitLoaded_keeps
    | with_reducible apply commitStored_keeps
    | split

theorem effBankSeal_keeps {m : Nat} {s t : State} (h : Keeps m s t)
    (hm : Sub 0xc0 m) : Keeps m s (effBankSeal t) := by
  unfold effBankSeal
  try dsimp only
  repeat' first
    | with_reducible exact h
    | exact Sub.trans (Sub.of (by decide)) hm
    | with_reducible apply State.updBank_keeps
    | dsimp only
    | split
    | with_reducible apply Keeps.setCfg

theorem retireEpoch_keeps {m : Nat} {s t : State} (h : Keeps m s t)
    (hm : Sub 0x100080 m) : Keeps m s (retireEpoch t) := by
  unfold retireEpoch
  try dsimp only
  repeat' first
    | with_reducible exact h
    | exact Sub.trans (Sub.of (by decide)) hm
    | with_reducible apply frerRetire_keeps
    | with_reducible apply Keeps.setCfg

theorem effEpochRetire_keeps {m : Nat} {s t : State} (h : Keeps m s t)
    (hm : Sub 0x100080 m) : Keeps m s (effEpochRetire t) := by
  unfold effEpochRetire
  try dsimp only
  repeat' first
    | with_reducible exact h
    | exact Sub.trans (Sub.of (by decide)) hm
    | with_reducible apply Keeps.ite
    | with_reducible apply retireEpoch_keeps

theorem purgeArriving_keeps {m : Nat} {s t : State} {a1 : Prod Nat Inflight} (h : Keeps m s t)
    (hm : Sub 0x400 m) : Keeps m s (purgeArriving t a1) := by
  unfold purgeArriving
  try dsimp only
  repeat' first
    | with_reducible exact h
    | exact Sub.trans (Sub.of (by decide)) hm
    | with_reducible apply State.putInflight_keeps
    | with_reducible apply abandonFrame_keeps

theorem effRetireLimitExpiry_keeps {m : Nat} {s t : State} (h : Keeps m s t)
    (hm : Sub 0x100680 m) : Keeps m s (effRetireLimitExpiry t) := by
  unfold effRetireLimitExpiry
  try dsimp only
  repeat' first
    | with_reducible exact h
    | with_reducible assumption
    | exact Sub.trans (Sub.of (by decide)) hm
    | (intro (_ : State) hu; first | with_reducible exact hu | skip)
    | exact id
    | exact fun _ h => h
    | with_reducible apply Keeps.ite
    | with_reducible apply State.bumpBy_keeps
    | with_reducible apply purgeArriving_keeps
    | with_reducible apply retireEpoch_keeps
    | with_reducible apply unlinkAll_keeps
    | (with_reducible refine Keeps.foldl _ (fun _ _ _ => ?_) ?_)
    | dsimp only
    | split
    | (with_reducible refine Keeps.ofPair (by assumption) ?_)
    | (with_reducible refine Keeps.ofTriple (by assumption) ?_)

end Sys2Proof.Machine
end

