-- ==== Sys2Proof/Laws/Dict.lean ====
section
/-!
SUPPORT. What each operation of Machine/Dict.lean may change: the parts of the state in the set `hm`, no others, the invariant
kept. Cite these lemmas; do not unfold the operations.
-/
namespace Sys2Proof.Machine

theorem putCtx_keeps {m : Nat} {s t : State} {a0 : Requester} {a1 : Nat} {a2 : TblCtx} (h : Keeps m s t)
    (hm : Sub 0x100 m) : Keeps m s (putCtx a0 a1 a2 t) := by
  unfold putCtx
  try dsimp only
  repeat' first
    | with_reducible exact h
    | exact Sub.trans (Sub.of (by decide)) hm
    | exact id
    | exact fun _ h => h
    | with_reducible apply Keeps.setNap

theorem writeNow_keeps {m : Nat} {s t : State} {a0 : Nat} {a1 : Nat} {a2 : Row} (h : Keeps m s t)
    (hm : Sub 0x1082000 m) : Keeps m s (writeNow a0 a1 a2 t) := by
  unfold writeNow
  try dsimp only
  repeat' first
    | with_reducible exact h
    | exact Sub.trans (Sub.of (by decide)) hm
    | with_reducible apply intRowWrite_keeps
    | split
    | with_reducible apply Keeps.setPsfp
    | with_reducible apply Keeps.setLinkDelay

theorem stageRow_keeps {m : Nat} {s t : State} {a0 : Nat} {a1 : Nat} {a2 : Row} (h : Keeps m s t)
    (hm : Sub 0x80 m) : Keeps m s (stageRow a0 a1 a2 t) := by
  unfold stageRow
  try dsimp only
  repeat' first
    | with_reducible exact h
    | exact Sub.trans (Sub.of (by decide)) hm
    | with_reducible apply Keeps.setCfg

theorem tableWrite_keeps {m : Nat} {s t : State} {a0 : TableSpec} {a1 : Nat} {a2 : TblCtx} (h : Keeps m s t)
    (hm : Sub 0x1082080 m) : Keeps m s (tableWrite a0 a1 a2 t).2 := by
  unfold tableWrite
  try dsimp only
  repeat' first
    | with_reducible exact h
    | exact Sub.trans (Sub.of (by decide)) hm
    | with_reducible apply Keeps.ite
    | with_reducible apply Keeps.iteSnd
    | with_reducible apply stageRow_keeps
    | with_reducible apply writeNow_keeps
    | dsimp only

theorem tableDelete_keeps {m : Nat} {s t : State} {a0 : TableSpec} {a1 : Nat} {a2 : TblCtx} (h : Keeps m s t)
    (hm : Sub 0x1082080 m) : Keeps m s (tableDelete a0 a1 a2 t).2 := by
  unfold tableDelete
  try dsimp only
  repeat' first
    | with_reducible exact h
    | exact Sub.trans (Sub.of (by decide)) hm
    | with_reducible apply Keeps.ite
    | with_reducible apply Keeps.iteSnd
    | with_reducible apply writeNow_keeps
    | dsimp only
    | with_reducible apply Keeps.setCfg

theorem noteAction_keeps {m : Nat} {s t : State} {a0 : Requester} {a1 : Nat} {a2 : Prod Nat TblCtx} (h : Keeps m s t)
    (hm : Sub 0x100 m) : Keeps m s (noteAction a0 a1 a2 t).2 := by
  unfold noteAction
  try dsimp only
  repeat' first
    | with_reducible exact h
    | exact Sub.trans (Sub.of (by decide)) hm
    | with_reducible apply putCtx_keeps
    | dsimp only

theorem noteChange_keeps {m : Nat} {s : State} {x : Nat × State} {r : Requester} {idx : Nat} {c : TblCtx} (h : Keeps m s x.2)
    (hm : Sub 0x100 m) : Keeps m s (noteChange r idx c x).2 := by
  unfold noteChange
  exact putCtx_keeps h hm

theorem tableAction_keeps {m : Nat} {s t : State} {a0 : Requester} {a1 : TableSpec} {a2 : Nat} {a3 : Nat} (h : Keeps m s t)
    (hm : Sub 0x1082180 m) : Keeps m s (tableAction a0 a1 a2 a3 t).2 := by
  unfold tableAction
  try dsimp only
  repeat' first
    | with_reducible exact h
    | exact Sub.trans (Sub.of (by decide)) hm
    | with_reducible apply Keeps.ite
    | with_reducible apply Keeps.iteSnd
    | with_reducible apply noteAction_keeps
    | with_reducible apply noteChange_keeps
    | with_reducible apply tableDelete_keeps
    | with_reducible apply tableWrite_keeps
    | dsimp only
    | split
    | (with_reducible refine Keeps.ofPair (by assumption) ?_)

theorem selectWrite_keeps {m : Nat} {s t : State} {a0 : Requester} {a1 : TableSpec} {a2 : Nat} {a3 : Nat} {a4 : Val} (h : Keeps m s t)
    (hm : Sub 0x100 m) : Keeps m s (selectWrite a0 a1 a2 a3 a4 t) := by
  unfold selectWrite
  try dsimp only
  repeat' first
    | with_reducible exact h
    | exact Sub.trans (Sub.of (by decide)) hm
    | with_reducible apply Keeps.ite
    | with_reducible apply putCtx_keeps
    | dsimp only

theorem command_keeps {m : Nat} {s t : State} {a0 : Nat} (h : Keeps m s t)
    (hm : Sub 0xeffd7fe8 m) : Keeps m s (command a0 t) := by
  unfold command
  try dsimp only
  repeat' first
    | with_reducible exact h
    | exact Sub.trans (Sub.of (by decide)) hm
    | with_reducible apply cmdReload_keeps
    | with_reducible apply cmdReset_keeps
    | with_reducible apply cmdSafe_keeps
    | with_reducible apply cmdStart_keeps
    | with_reducible apply cmdStop_keeps
    | split

theorem uploadImage_keeps {m : Nat} {s t : State} {a0 : Nat} {a1 : Bytes} (h : Keeps m s t)
    (hm : Sub 0x40 m) : Keeps m s (uploadImage a0 a1 t).2 := by
  unfold uploadImage
  try dsimp only
  repeat' first
    | with_reducible exact h
    | exact Sub.trans (Sub.of (by decide)) hm
    | with_reducible apply Keeps.ite
    | with_reducible apply Keeps.iteSnd
    | with_reducible apply State.updBank_keeps
    | dsimp only
    | split

theorem commitAction_keeps {m : Nat} {s t : State} {a0 : Nat} (h : Keeps m s t)
    (hm : Sub 0x1000280 m) : Keeps m s (commitAction a0 t).2 := by
  unfold commitAction
  try dsimp only
  repeat' first
    | with_reducible exact h
    | exact Sub.trans (Sub.of (by decide)) hm
    | with_reducible apply Keeps.ite
    | with_reducible apply Keeps.iteSnd
    | with_reducible apply cmdCancel_keeps
    | with_reducible apply cmdCommit_keeps
    | with_reducible apply cmdDiscard_keeps
    | dsimp only
    | split

theorem State.updKey_keeps {m : Nat} {s t : State} {a1 : Nat} {a2 : KeyRec → KeyRec} (h : Keeps m s t)
    (hm : Sub 0x40 m) : Keeps m s (State.updKey t a1 a2) := by
  unfold State.updKey
  try dsimp only
  repeat' first
    | with_reducible exact h
    | exact Sub.trans (Sub.of (by decide)) hm
    | with_reducible apply Keeps.setMram

theorem setRxReplay_keeps {m : Nat} {s t : State} {a0 : Nat} {a1 : Nat} (h : Keeps m s t)
    (hm : Sub 0x40 m) : Keeps m s (setRxReplay a0 a1 t) := by
  unfold setRxReplay
  try dsimp only
  repeat' first
    | with_reducible exact h
    | exact Sub.trans (Sub.of (by decide)) hm
    | with_reducible apply State.updKey_keeps
    | with_reducible apply ringWrite_keeps

theorem countTxReplay_keeps {m : Nat} {s t : State} {a0 : Nat} (h : Keeps m s t)
    (hm : Sub 0x40 m) : Keeps m s (countTxReplay a0 t) := by
  unfold countTxReplay
  try dsimp only
  repeat' first
    | with_reducible exact h
    | exact Sub.trans (Sub.of (by decide)) hm
    | with_reducible apply State.updKey_keeps
    | with_reducible apply ringWrite_keeps
    | dsimp only

theorem writeKey_keeps {m : Nat} {s t : State} {a0 : Nat} {a1 : Bytes} (h : Keeps m s t)
    (hm : Sub 0x140 m) : Keeps m s (writeKey a0 a1 t) := by
  unfold writeKey
  try dsimp only
  repeat' first
    | with_reducible exact h
    | exact Sub.trans (Sub.of (by decide)) hm
    | exact id
    | exact fun _ h => h
    | exact fun h => Nat.le_trans (List.length_filter_le ..) h
    | with_reducible apply State.updKey_keeps
    | with_reducible apply ringClear_keeps
    | dsimp only
    | with_reducible apply Keeps.setNap

theorem keyWrite_keeps {m : Nat} {s t : State} {a0 : Nat} {a1 : Nat} {a2 : Val} (h : Keeps m s t)
    (hm : Sub 0x140 m) : Keeps m s (keyWrite a0 a1 a2 t).2 := by
  unfold keyWrite
  try dsimp only
  repeat' first
    | with_reducible exact h
    | exact Sub.trans (Sub.of (by decide)) hm
    | with_reducible apply Keeps.ite
    | with_reducible apply Keeps.iteSnd
    | with_reducible apply State.updKey_keeps
    | with_reducible apply writeKey_keeps
    | dsimp only
    | split

theorem classifierAction_keeps {m : Nat} {s t : State} {a0 : Nat} {a1 : Nat} (h : Keeps m s t)
    (hm : Sub 0x3000 m) : Keeps m s (classifierAction a0 a1 t).2 := by
  unfold classifierAction
  try dsimp only
  repeat' first
    | with_reducible exact h
    | exact Sub.trans (Sub.of (by decide)) hm
    | with_reducible apply Keeps.ite
    | with_reducible apply Keeps.iteSnd
    | with_reducible apply State.updSgate_keeps
    | with_reducible apply flushPort_keeps
    | dsimp only
    | split
    | with_reducible apply Keeps.setPsfp

theorem frerAction_keeps {m : Nat} {s t : State} {a0 : Nat} {a1 : Nat} (h : Keeps m s t)
    (hm : Sub 0x100200 m) : Keeps m s (frerAction a0 a1 t).2 := by
  unfold frerAction
  try dsimp only
  repeat' first
    | with_reducible exact h
    | with_reducible assumption
    | exact Sub.trans (Sub.of (by decide)) hm
    | (intro (_ : State) hu; first | with_reducible exact hu | skip)
    | exact id
    | exact fun _ h => h
    | with_reducible apply Keeps.ite
    | with_reducible apply Keeps.iteSnd
    | with_reducible apply resetGen_keeps
    | with_reducible apply resetRecoveryKey_keeps
    | (with_reducible refine Keeps.foldl _ (fun _ _ _ => ?_) ?_)
    | dsimp only
    | split
    | (with_reducible refine Keeps.ofPair (by assumption) ?_)
    | (with_reducible refine Keeps.ofTriple (by assumption) ?_)

theorem clearAction_keeps {m : Nat} {s t : State} {a0 : Nat} (h : Keeps m s t)
    (hm : Sub 0x2000000 m) : Keeps m s (clearAction a0 t).2 := by
  unfold clearAction
  try dsimp only
  repeat' first
    | with_reducible exact h
    | exact Sub.trans (Sub.of (by decide)) hm
    | with_reducible apply Keeps.ite
    | with_reducible apply Keeps.iteSnd
    | with_reducible apply clearFault_keeps
    | dsimp only

theorem handoverAction_keeps {m : Nat} {s t : State} (h : Keeps m s t)
    (hm : Sub 0x40000 m) : Keeps m s (handoverAction t).2 := by
  unfold handoverAction
  try dsimp only
  repeat' first
    | with_reducible exact h
    | exact Sub.trans (Sub.of (by decide)) hm
    | with_reducible apply Keeps.ite
    | with_reducible apply Keeps.iteSnd
    | with_reducible apply yieldPair_keeps
    | dsimp only

theorem stageEntry_keeps {m : Nat} {s t : State} {a0 : Nat} {a1 : Nat} {a2 : Val} (h : Keeps m s t)
    (hm : Sub 0x80 m) : Keeps m s (stageEntry a0 a1 a2 t).2 := by
  unfold stageEntry
  try dsimp only
  repeat' first
    | with_reducible exact h
    | exact Sub.trans (Sub.of (by decide)) hm
    | with_reducible apply Keeps.ite
    | with_reducible apply Keeps.iteSnd
    | dsimp only
    | with_reducible apply Keeps.setCfg

theorem performEntry_keeps {m : Nat} {s t : State} {a0 : Nat} {a1 : EntrySpec} {a2 : Val} (h : Keeps m s t)
    (hm : Sub 0xeffd7fe8 m) : Keeps m s (performEntry a0 a1 a2 t).2 := by
  unfold performEntry
  try dsimp only
  repeat' first
    | with_reducible exact h
    | exact Sub.trans (Sub.of (by decide)) hm
    | with_reducible apply Keeps.ite
    | with_reducible apply Keeps.iteSnd
    | with_reducible apply State.rwPut_keeps
    | with_reducible apply armDomain_keeps
    | with_reducible apply classifierAction_keeps
    | with_reducible apply clearAction_keeps
    | with_reducible apply command_keeps
    | with_reducible apply commitAction_keeps
    | with_reducible apply frerAction_keeps
    | with_reducible apply handoverAction_keeps
    | with_reducible apply keyWrite_keeps
    | with_reducible apply stageEntry_keeps
    | with_reducible apply uploadImage_keeps
    | dsimp only
    | split
    | (with_reducible refine Keeps.ofPair (by assumption) ?_)

theorem performWrite_keeps {m : Nat} {s t : State} {a0 : Requester} {a1 : ObjSpec} {a2 : Nat} {a3 : EntrySpec} {a4 : Val} (h : Keeps m s t)
    (hm : Sub 0xeffd7fe8 m) : Keeps m s (performWrite a0 a1 a2 a3 a4 t).2 := by
  unfold performWrite
  try dsimp only
  repeat' first
    | with_reducible exact h
    | exact Sub.trans (Sub.of (by decide)) hm
    | with_reducible apply Keeps.ite
    | with_reducible apply Keeps.iteSnd
    | with_reducible apply performEntry_keeps
    | with_reducible apply selectWrite_keeps
    | with_reducible apply tableAction_keeps
    | dsimp only
    | split
    | (with_reducible refine Keeps.ofPair (by assumption) ?_)

theorem objWrite_keeps {m : Nat} {s t : State} {a0 : Requester} {a1 : Nat} {a2 : Nat} {a3 : Datum} (h : Keeps m s t)
    (hm : Sub 0xeffd7fe8 m) : Keeps m s (objWrite a0 a1 a2 a3 t).2 := by
  unfold objWrite
  try dsimp only
  repeat' first
    | with_reducible exact h
    | exact Sub.trans (Sub.of (by decide)) hm
    | with_reducible apply Keeps.ite
    | with_reducible apply Keeps.iteSnd
    | with_reducible apply performWrite_keeps
    | dsimp only
    | split
    | (with_reducible refine Keeps.ofPair (by assumption) ?_)

end Sys2Proof.Machine
end

