-- ==== Sys2Proof/Laws/Nap.lean ====
section
/-!
SUPPORT. What each operation of Machine/Nap.lean may change: the parts of the state in the set `hm`, no others, the invariant
kept. Cite these lemmas; do not unfold the operations.
-/
namespace Sys2Proof.Machine

theorem sendResponse_keeps {m : Nat} {s t : State} {a0 : NapReq} {a1 : Bytes} (h : Keeps m s t)
    (hm : Sub 0x1800708 m) : Keeps m s (sendResponse a0 a1 t) := by
  unfold sendResponse
  try dsimp only
  repeat' first
    | with_reducible exact h
    | exact Sub.trans (Sub.of (by decide)) hm
    | with_reducible apply Keeps.ite
    | with_reducible apply State.emit_keeps
    | with_reducible apply issueFrame_keeps
    | with_reducible apply mailRespond_keeps
    | with_reducible apply mboxRespond_keeps
    | dsimp only
    | split

theorem respondLocal_keeps {m : Nat} {s t : State} {a0 : NapReq} {a1 : Nat} {a2 : Reply} (h : Keeps m s t)
    (hm : Sub 0x1800708 m) : Keeps m s (respondLocal a0 a1 a2 t) := by
  unfold respondLocal
  try dsimp only
  repeat' first
    | with_reducible exact h
    | exact Sub.trans (Sub.of (by decide)) hm
    | exact id
    | exact fun _ h => h
    | with_reducible apply Keeps.ite
    | with_reducible apply sendResponse_keeps
    | dsimp only
    | with_reducible apply Keeps.setNap

theorem respondKeyed_keeps {m : Nat} {s t : State} {a0 : NapReq} {a1 : Reply} (h : Keeps m s t)
    (hm : Sub 0x1800748 m) : Keeps m s (respondKeyed a0 a1 t) := by
  unfold respondKeyed
  try dsimp only
  repeat' first
    | with_reducible exact h
    | exact Sub.trans (Sub.of (by decide)) hm
    | with_reducible apply countTxReplay_keeps
    | with_reducible apply sendResponse_keeps
    | dsimp only

theorem napRespond_keeps {m : Nat} {s t : State} {a0 : NapReq} {a1 : Reply} (h : Keeps m s t)
    (hm : Sub 0x1800748 m) : Keeps m s (napRespond a0 a1 t) := by
  unfold napRespond
  try dsimp only
  repeat' first
    | with_reducible exact h
    | exact Sub.trans (Sub.of (by decide)) hm
    | with_reducible apply Keeps.ite
    | with_reducible apply State.bump_keeps
    | with_reducible apply respondKeyed_keeps
    | with_reducible apply respondLocal_keeps
    | dsimp only
    | split

theorem napDiscard_keeps {m : Nat} {s t : State} {a0 : NapReq} {a1 : Nat} (h : Keeps m s t)
    (hm : Sub 0x81000300 m) : Keeps m s (napDiscard a0 a1 t) := by
  unfold napDiscard
  try dsimp only
  repeat' first
    | with_reducible exact h
    | exact Sub.trans (Sub.of (by decide)) hm
    | with_reducible apply Keeps.ite
    | with_reducible apply State.bump_keeps
    | with_reducible apply mboxDiscard_keeps
    | dsimp only
    | split

theorem closeTransfer_keeps {m : Nat} {s t : State} {a0 : Requester} {a1 : Nat} (h : Keeps m s t)
    (hm : Sub 0x100 m) : Keeps m s (closeTransfer a0 a1 t) := by
  unfold closeTransfer
  try dsimp only
  repeat' first
    | with_reducible exact h
    | exact Sub.trans (Sub.of (by decide)) hm
    | exact id
    | exact fun _ h => h
    | exact fun h => Nat.le_trans (List.length_filter_le ..) h
    | with_reducible apply Keeps.setNap

theorem closeOwn_keeps {m : Nat} {s t : State} {a0 : NapReq} (h : Keeps m s t)
    (hm : Sub 0x100 m) : Keeps m s (closeOwn a0 t) := by
  unfold closeOwn
  try dsimp only
  repeat' first
    | with_reducible exact h
    | exact Sub.trans (Sub.of (by decide)) hm
    | with_reducible apply closeTransfer_keeps

/-- A request of an open transfer, or with fewer than eight open, leaves room for the transfer it keeps (R55). -/
theorem closeOwn_room {t : State} {q : NapReq} (ho : (openTransfer t q).isSome ∨ t.nap.transfers.length < 8)
    (hl : t.nap.transfers.length ≤ 8) : (closeOwn q t).nap.transfers.length < 8 := by
  have hle := List.length_filter_le (fun x => !transferIs (pduReq q) (pduTrans q.pdu) x) t.nap.transfers
  rcases ho with ho | ho
  · obtain ⟨x, hx⟩ := Option.isSome_iff_exists.1 ho
    have hp : transferIs (pduReq q) (pduTrans q.pdu) x = true := List.find?_some hx
    have hmem : x ∈ t.nap.transfers := List.mem_of_find?_eq_some hx
    have hne : (t.nap.transfers.filter fun x => !transferIs (pduReq q) (pduTrans q.pdu) x).length ≠ t.nap.transfers.length := by
      intro he
      have := List.length_filter_eq_length_iff.1 he x hmem
      rw [hp] at this
      cases this
    show (t.nap.transfers.filter fun x => !transferIs (pduReq q) (pduTrans q.pdu) x).length < 8
    omega
  · show (t.nap.transfers.filter fun x => !transferIs (pduReq q) (pduTrans q.pdu) x).length < 8
    omega

theorem keepTransfer_keeps {m : Nat} {s t : State} {a0 : NapReq} {a1 : Transfer} (h : Keeps m s t)
    (hm : Sub 0x100 m) (ho : (openTransfer t a0).isSome ∨ t.nap.transfers.length < 8) :
    Keeps m s (keepTransfer a0 a1 t) := by
  refine h.change hm ⟨fun p hp => by cases p <;> first | rfl | exact absurd hp (by decide),
    fun i => ⟨i.1, i.2, i.3, ?_, i.5, i.6⟩⟩
  have := closeOwn_room ho i.4
  unfold keepTransfer
  simp only [List.length_append, List.length_singleton]
  exact this

theorem answerCode_keeps {m : Nat} {s t : State} {a0 : NapReq} {a1 : Nat} (h : Keeps m s t)
    (hm : Sub 0x1800748 m) : Keeps m s (answerCode a0 a1 t) := by
  unfold answerCode
  try dsimp only
  repeat' first
    | with_reducible exact h
    | exact Sub.trans (Sub.of (by decide)) hm
    | with_reducible apply napRespond_keeps

theorem answerBroken_keeps {m : Nat} {s t : State} {a0 : NapReq} (h : Keeps m s t)
    (hm : Sub 0x1800748 m) : Keeps m s (answerBroken a0 t) := by
  unfold answerBroken
  try dsimp only
  repeat' first
    | with_reducible exact h
    | exact Sub.trans (Sub.of (by decide)) hm
    | with_reducible apply answerCode_keeps
    | with_reducible apply closeOwn_keeps

theorem readSegment_keeps {m : Nat} {s t : State} {a0 : NapReq} {a1 : Transfer} (h : Keeps m s t)
    (hm : Sub 0x1800748 m) (ho : (openTransfer t a0).isSome ∨ t.nap.transfers.length < 8) :
    Keeps m s (readSegment a0 a1 t) := by
  have k : Sub 0x100 m := Sub.trans (Sub.of (by decide)) hm
  unfold readSegment
  exact napRespond_keeps (Keeps.ite (closeOwn_keeps h k) (keepTransfer_keeps h k ho)) hm

theorem touchTransfer_keeps {m : Nat} {s t : State} {a0 : NapReq} (h : Keeps m s t)
    (hm : Sub 0x100 m) : Keeps m s (touchTransfer a0 t) := by
  unfold touchTransfer
  split
  · rename_i e
    exact keepTransfer_keeps h hm (.inl (by rw [e]; rfl))
  · exact h

theorem answerKept_keeps {m : Nat} {s t : State} {a0 : NapReq} {a1 : Nat} (h : Keeps m s t)
    (hm : Sub 0x1800748 m) : Keeps m s (answerKept a0 a1 t) := by
  unfold answerKept
  try dsimp only
  repeat' first
    | with_reducible exact h
    | exact Sub.trans (Sub.of (by decide)) hm
    | with_reducible apply answerCode_keeps
    | with_reducible apply touchTransfer_keeps

theorem readFresh_keeps {m : Nat} {s t : State} {a0 : NapReq} {a1 : EntrySpec} {a2 : Val} (h : Keeps m s t)
    (hm : Sub 0x1800748 m) : Keeps m s (readFresh a0 a1 a2 t) := by
  unfold readFresh
  dsimp only
  refine Keeps.ite (answerCode_keeps h hm) (Keeps.ite (napRespond_keeps h hm) ?_)
  split
  · exact answerCode_keeps h hm
  · exact readSegment_keeps h hm (.inr (by omega))

theorem readNext_keeps {m : Nat} {s t : State} {a0 : NapReq} {a1 : Transfer} (h : Keeps m s t)
    (hm : Sub 0x1800748 m) (ho : (openTransfer t a0).isSome) : Keeps m s (readNext a0 a1 t) := by
  unfold readNext
  exact Keeps.ite (readSegment_keeps h hm (.inl ho)) (answerBroken_keeps h hm)

theorem napRead_keeps {m : Nat} {s t : State} {a0 : NapReq} (h : Keeps m s t)
    (hm : Sub 0x1800748 m) : Keeps m s (napRead a0 t) := by
  unfold napRead
  dsimp only
  split
  · exact answerKept_keeps h hm
  · rename_i e _
    exact Keeps.ite (answerKept_keeps h hm) (readNext_keeps h hm (by rw [e]; rfl))
  · split
    · exact answerCode_keeps h hm
    · exact readFresh_keeps h hm

theorem writeSegment_keeps {m : Nat} {s t : State} {a0 : NapReq} {a1 : Transfer} (h : Keeps m s t)
    (hm : Sub 0xeffd7fe8 m) (ho : (openTransfer t a0).isSome ∨ t.nap.transfers.length < 8) :
    Keeps m s (writeSegment a0 a1 t) := by
  have k : Sub 0x1800748 m := Sub.trans (Sub.of (by decide)) hm
  have k1 : Sub 0x100 m := Sub.trans (Sub.of (by decide)) hm
  unfold writeSegment
  dsimp only
  split
  · exact answerBroken_keeps h k
  · split
    · split
      · exact answerCode_keeps (objWrite_keeps (closeOwn_keeps h k1) hm) k
      · exact answerBroken_keeps h k
    · exact answerCode_keeps (keepTransfer_keeps h k1 ho) k

theorem writeFresh_keeps {m : Nat} {s t : State} {a0 : NapReq} {a1 : EntrySpec} (h : Keeps m s t)
    (hm : Sub 0xeffd7fe8 m) : Keeps m s (writeFresh a0 a1 t) := by
  have k : Sub 0x1800748 m := Sub.trans (Sub.of (by decide)) hm
  unfold writeFresh
  dsimp only
  split
  · exact answerCode_keeps h k
  · rename_i e
    refine writeSegment_keeps h hm (.inr ?_)
    unfold openRefusal at e
    dsimp only at e
    split at e
    · cases e
    · split at e
      · cases e
      · split at e
        · cases e
        · split at e
          · cases e
          · omega

theorem writeSegmented_keeps {m : Nat} {s t : State} {a0 : NapReq} (h : Keeps m s t)
    (hm : Sub 0xeffd7fe8 m) : Keeps m s (writeSegmented a0 t) := by
  have k : Sub 0x1800748 m := Sub.trans (Sub.of (by decide)) hm
  unfold writeSegmented
  dsimp only
  split
  · exact answerKept_keeps h k
  · refine Keeps.ite (answerKept_keeps h k) ?_
    split
    · rename_i e
      exact writeSegment_keeps h hm (.inl (by rw [e]; rfl))
    · exact writeFresh_keeps h hm

theorem napWrite_keeps {m : Nat} {s t : State} {a0 : NapReq} (h : Keeps m s t)
    (hm : Sub 0xeffd7fe8 m) : Keeps m s (napWrite a0 t) := by
  unfold napWrite
  exact Keeps.ite (answerCode_keeps (objWrite_keeps h hm) (Sub.trans (Sub.of (by decide)) hm)) (writeSegmented_keeps h hm)

theorem napEvaluate_keeps {m : Nat} {s t : State} {a0 : NapReq} (h : Keeps m s t)
    (hm : Sub 0xeffd7fe8 m) : Keeps m s (napEvaluate a0 t) := by
  unfold napEvaluate
  try dsimp only
  repeat' first
    | with_reducible exact h
    | exact Sub.trans (Sub.of (by decide)) hm
    | with_reducible apply Keeps.ite
    | with_reducible apply answerBroken_keeps
    | with_reducible apply answerCode_keeps
    | with_reducible apply closeOwn_keeps
    | with_reducible apply napRead_keeps
    | with_reducible apply napWrite_keeps
    | dsimp only
    | split

theorem napAccept_keeps {m : Nat} {s t : State} {a0 : NapReq} (h : Keeps m s t)
    (hm : Sub 0xeffd7fe8 m) : Keeps m s (napAccept a0 t) := by
  unfold napAccept
  try dsimp only
  repeat' first
    | with_reducible exact h
    | exact Sub.trans (Sub.of (by decide)) hm
    | with_reducible apply Keeps.ite
    | with_reducible apply State.bump_keeps
    | with_reducible apply napDiscard_keeps
    | with_reducible apply napEvaluate_keeps
    | with_reducible apply setRxReplay_keeps
    | dsimp only

theorem napRun_keeps {m : Nat} {s t : State} {a0 : NapReq} (h : Keeps m s t)
    (hm : Sub 0xeffd7fe8 m) : Keeps m s (napRun a0 t) := by
  unfold napRun
  try dsimp only
  repeat' first
    | with_reducible exact h
    | exact Sub.trans (Sub.of (by decide)) hm
    | with_reducible apply Keeps.ite
    | with_reducible apply answerCode_keeps
    | with_reducible apply napAccept_keeps
    | with_reducible apply napDiscard_keeps
    | dsimp only

theorem engineTurn_keeps {m : Nat} {s t : State} {a0 : Path} (h : Keeps m s t)
    (hm : Sub 0xeffd7fe8 m) : Keeps m s (engineTurn a0 t) := by
  unfold engineTurn
  refine Keeps.ite (Keeps.foldl _ (fun _ _ hu => napRun_keeps hu hm) ?_) h
  have e := aheadOf_behindOf t a0
  exact h.setNap (Sub.trans (Sub.of (by decide)) hm) (fun i => by show (behindOf t a0).length ≤ 64; omega) id

theorem napTake_keeps {m : Nat} {s t : State} {a0 : Nat} (h : Keeps m s t)
    (hm : Sub 0xeffd7fe8 m) : Keeps m s (napTake a0 t) := by
  unfold napTake
  split
  · exact h
  · rename_i q rest e
    refine Keeps.ite (napRun_keeps (h.setNap (Sub.trans (Sub.of (by decide)) hm) (fun i => ?_) id) hm) h
    rw [e] at i
    exact Nat.le_of_succ_le i

theorem effNapRead_keeps {m : Nat} {s t : State} (h : Keeps m s t)
    (hm : Sub 0xeffd7fe8 m) : Keeps m s (effNapRead t) := by
  unfold effNapRead
  try dsimp only
  repeat' first
    | with_reducible exact h
    | exact Sub.trans (Sub.of (by decide)) hm
    | with_reducible apply napTake_keeps

theorem effNapWrite_keeps {m : Nat} {s t : State} (h : Keeps m s t)
    (hm : Sub 0xeffd7fe8 m) : Keeps m s (effNapWrite t) := by
  unfold effNapWrite
  try dsimp only
  repeat' first
    | with_reducible exact h
    | exact Sub.trans (Sub.of (by decide)) hm
    | with_reducible apply napTake_keeps

theorem effNapAbortTransfer_keeps {m : Nat} {s t : State} (h : Keeps m s t)
    (hm : Sub 0xeffd7fe8 m) : Keeps m s (effNapAbortTransfer t) := by
  unfold effNapAbortTransfer
  try dsimp only
  repeat' first
    | with_reducible exact h
    | exact Sub.trans (Sub.of (by decide)) hm
    | with_reducible apply napTake_keeps

theorem effSegmentTimeout_keeps {m : Nat} {s t : State} {a0 : Requester} {a1 : Nat} (h : Keeps m s t)
    (hm : Sub 0x300 m) : Keeps m s (effSegmentTimeout a0 a1 t) := by
  unfold effSegmentTimeout
  try dsimp only
  repeat' first
    | with_reducible exact h
    | exact Sub.trans (Sub.of (by decide)) hm
    | with_reducible apply Keeps.ite
    | with_reducible apply State.bump_keeps
    | with_reducible apply closeTransfer_keeps
    | split

theorem State.updWindow_keeps {m : Nat} {s t : State} {a1 : Nat} {a2 : Window → Window} (h : Keeps m s t)
    (hm : Sub 0x100 m) : Keeps m s (State.updWindow t a1 a2) := by
  unfold State.updWindow
  try dsimp only
  repeat' first
    | with_reducible exact h
    | exact Sub.trans (Sub.of (by decide)) hm
    | exact id
    | exact fun _ h => h
    | with_reducible apply Keeps.setNap

theorem windowRead_keeps {m : Nat} {s t : State} {a0 : Nat} {a1 : Nat} {a2 : Nat} (h : Keeps m s t)
    (hm : Sub 0x108 m) : Keeps m s (windowRead a0 a1 a2 t) := by
  unfold windowRead
  try dsimp only
  repeat' first
    | with_reducible exact h
    | exact Sub.trans (Sub.of (by decide)) hm
    | with_reducible apply Keeps.ite
    | with_reducible apply State.emit_keeps
    | with_reducible apply State.updWindow_keeps
    | dsimp only

theorem effBar2Read_keeps {m : Nat} {s t : State} {a0 : Nat} {a1 : Nat} {a2 : Nat} (h : Keeps m s t)
    (hm : Sub 0xeffd7fec m) : Keeps m s (effBar2Read a0 a1 a2 t) := by
  unfold effBar2Read
  try dsimp only
  repeat' first
    | with_reducible exact h
    | with_reducible assumption
    | exact Sub.trans (Sub.of (by decide)) hm
    | (intro (_ : State) hu; first | with_reducible exact hu | skip)
    | exact id
    | exact fun _ h => h
    | with_reducible apply Keeps.ite
    | with_reducible apply engineTurn_keeps
    | with_reducible apply refuseBar_keeps
    | with_reducible apply unsupported_keeps
    | with_reducible apply windowRead_keeps
    | (with_reducible refine Keeps.foldl _ (fun _ _ _ => ?_) ?_)
    | dsimp only
    | split
    | (with_reducible refine Keeps.ofPair (by assumption) ?_)
    | (with_reducible refine Keeps.ofTriple (by assumption) ?_)

theorem writeWindowRecord_keeps {m : Nat} {s t : State} {a0 : Nat} {a1 : Nat} {a2 : Nat} {a3 : Nat} (h : Keeps m s t)
    (hm : Sub 0x100 m) : Keeps m s (writeWindowRecord a0 a1 a2 a3 t) := by
  unfold writeWindowRecord
  try dsimp only
  repeat' first
    | with_reducible exact h
    | exact Sub.trans (Sub.of (by decide)) hm
    | with_reducible apply Keeps.ite
    | with_reducible apply State.updWindow_keeps

theorem writeSlot_keeps {m : Nat} {s t : State} {a0 : Nat} {a1 : Nat} {a2 : Nat} {a3 : Nat} (h : Keeps m s t)
    (hm : Sub 0xeffd7fe8 m) : Keeps m s (writeSlot a0 a1 a2 a3 t) := by
  unfold writeSlot
  try dsimp only
  repeat' first
    | with_reducible exact h
    | exact Sub.trans (Sub.of (by decide)) hm
    | with_reducible apply Keeps.ite
    | with_reducible apply State.updWindow_keeps
    | with_reducible apply objWrite_keeps
    | dsimp only
    | (with_reducible refine Keeps.ofPair (by assumption) ?_)

theorem windowWrite_keeps {m : Nat} {s t : State} {a0 : Nat} {a1 : Nat} {a2 : Nat} {a3 : Nat} (h : Keeps m s t)
    (hm : Sub 0xeffd7fe8 m) : Keeps m s (windowWrite a0 a1 a2 a3 t) := by
  unfold windowWrite
  try dsimp only
  repeat' first
    | with_reducible exact h
    | exact Sub.trans (Sub.of (by decide)) hm
    | with_reducible apply Keeps.ite
    | with_reducible apply writeSlot_keeps
    | with_reducible apply writeWindowRecord_keeps

theorem effBar2Write_keeps {m : Nat} {s t : State} {a0 : Nat} {a1 : Nat} {a2 : Nat} {a3 : Nat} (h : Keeps m s t)
    (hm : Sub 0xeffd7fec m) : Keeps m s (effBar2Write a0 a1 a2 a3 t) := by
  unfold effBar2Write
  try dsimp only
  repeat' first
    | with_reducible exact h
    | with_reducible assumption
    | exact Sub.trans (Sub.of (by decide)) hm
    | (intro (_ : State) hu; first | with_reducible exact hu | skip)
    | exact id
    | exact fun _ h => h
    | with_reducible apply Keeps.ite
    | with_reducible apply engineTurn_keeps
    | with_reducible apply refuseBar_keeps
    | with_reducible apply unsupported_keeps
    | with_reducible apply windowWrite_keeps
    | (with_reducible refine Keeps.foldl _ (fun _ _ _ => ?_) ?_)
    | dsimp only
    | split
    | (with_reducible refine Keeps.ofPair (by assumption) ?_)
    | (with_reducible refine Keeps.ofTriple (by assumption) ?_)

theorem effFailCountClear_keeps {m : Nat} {s t : State} {a0 : Nat} (h : Keeps m s t)
    (hm : Sub 0xeffd7fec m) : Keeps m s (effFailCountClear a0 t) := by
  unfold effFailCountClear
  try dsimp only
  repeat' first
    | with_reducible exact h
    | exact Sub.trans (Sub.of (by decide)) hm
    | with_reducible apply effBar2Write_keeps

end Sys2Proof.Machine
end

