-- ==== Sys2Proof/Laws/Access.lean ====
section
/-!
SUPPORT. What each operation of Machine/Access.lean may change: the parts of the state in the set `hm`, no others, the invariant
kept. Cite these lemmas; do not unfold the operations.
-/
namespace Sys2Proof.Machine

theorem answerWrite_keeps {m : Nat} {s t : State} {a0 : Requester} {a1 : Nat} {a2 : Nat} {a3 : Val} (h : Keeps m s t)
    (hm : Sub 0xeffd7fec m) : Keeps m s (answerWrite a0 a1 a2 a3 t) := by
  unfold answerWrite
  try dsimp only
  repeat' first
    | with_reducible exact h
    | exact Sub.trans (Sub.of (by decide)) hm
    | with_reducible apply Keeps.ite
    | with_reducible apply State.emit_keeps
    | with_reducible apply effBar2Write_keeps
    | with_reducible apply engineTurn_keeps
    | with_reducible apply objWrite_keeps
    | dsimp only
    | split
    | (with_reducible refine Keeps.ofPair (by assumption) ?_)

theorem answerRead_keeps {m : Nat} {s t : State} {a0 : Requester} {a1 : Nat} {a2 : Nat} (h : Keeps m s t)
    (hm : Sub 0xeffd7fec m) : Keeps m s (answerRead a0 a1 a2 t) := by
  unfold answerRead
  try dsimp only
  repeat' first
    | with_reducible exact h
    | exact Sub.trans (Sub.of (by decide)) hm
    | with_reducible apply Keeps.ite
    | with_reducible apply State.emit_keeps
    | with_reducible apply effBar2Read_keeps
    | with_reducible apply engineTurn_keeps
    | dsimp only
    | split

theorem effEntryWrite_keeps {m : Nat} {s t : State} {a0 : Requester} {a1 : Nat} {a2 : Nat} {a3 : Val} (h : Keeps m s t)
    (hm : Sub 0xeffd7fec m) : Keeps m s (effEntryWrite a0 a1 a2 a3 t) := by
  unfold effEntryWrite
  try dsimp only
  repeat' first
    | with_reducible exact h
    | exact Sub.trans (Sub.of (by decide)) hm
    | with_reducible apply answerWrite_keeps

theorem effSelectionWrite_keeps {m : Nat} {s t : State} {a0 : Requester} {a1 : Nat} {a2 : Nat} {a3 : Val} (h : Keeps m s t)
    (hm : Sub 0xeffd7fec m) : Keeps m s (effSelectionWrite a0 a1 a2 a3 t) := by
  unfold effSelectionWrite
  try dsimp only
  repeat' first
    | with_reducible exact h
    | exact Sub.trans (Sub.of (by decide)) hm
    | with_reducible apply answerWrite_keeps

theorem effRead_keeps {m : Nat} {s t : State} {a0 : Requester} {a1 : Nat} (h : Keeps m s t)
    (hm : Sub 0xeffd7fec m) : Keeps m s (effRead a0 a1 t) := by
  unfold effRead
  try dsimp only
  repeat' first
    | with_reducible exact h
    | exact Sub.trans (Sub.of (by decide)) hm
    | with_reducible apply answerWrite_keeps

theorem effWrite_keeps {m : Nat} {s t : State} {a0 : Requester} {a1 : Nat} (h : Keeps m s t)
    (hm : Sub 0xeffd7fec m) : Keeps m s (effWrite a0 a1 t) := by
  unfold effWrite
  try dsimp only
  repeat' first
    | with_reducible exact h
    | exact Sub.trans (Sub.of (by decide)) hm
    | with_reducible apply answerWrite_keeps

theorem effDelete_keeps {m : Nat} {s t : State} {a0 : Requester} {a1 : Nat} (h : Keeps m s t)
    (hm : Sub 0xeffd7fec m) : Keeps m s (effDelete a0 a1 t) := by
  unfold effDelete
  try dsimp only
  repeat' first
    | with_reducible exact h
    | exact Sub.trans (Sub.of (by decide)) hm
    | with_reducible apply answerWrite_keeps

theorem effNext_keeps {m : Nat} {s t : State} {a0 : Requester} {a1 : Nat} (h : Keeps m s t)
    (hm : Sub 0xeffd7fec m) : Keeps m s (effNext a0 a1 t) := by
  unfold effNext
  try dsimp only
  repeat' first
    | with_reducible exact h
    | exact Sub.trans (Sub.of (by decide)) hm
    | with_reducible apply answerWrite_keeps

theorem effKeyWrite_keeps {m : Nat} {s t : State} {a0 : Requester} {a1 : Nat} {a2 : Bytes} (h : Keeps m s t)
    (hm : Sub 0xeffd7fec m) : Keeps m s (effKeyWrite a0 a1 a2 t) := by
  unfold effKeyWrite
  try dsimp only
  repeat' first
    | with_reducible exact h
    | exact Sub.trans (Sub.of (by decide)) hm
    | with_reducible apply Keeps.ite
    | with_reducible apply answerWrite_keeps

theorem effImageUpload_keeps {m : Nat} {s t : State} {a0 : Requester} {a1 : Nat} {a2 : Bytes} (h : Keeps m s t)
    (hm : Sub 0xeffd7fec m) : Keeps m s (effImageUpload a0 a1 a2 t) := by
  unfold effImageUpload
  try dsimp only
  repeat' first
    | with_reducible exact h
    | exact Sub.trans (Sub.of (by decide)) hm
    | with_reducible apply Keeps.ite
    | with_reducible apply answerWrite_keeps

theorem effImageRead_keeps {m : Nat} {s t : State} {a0 : Requester} {a1 : Nat} (h : Keeps m s t)
    (hm : Sub 0xeffd7fec m) : Keeps m s (effImageRead a0 a1 t) := by
  unfold effImageRead
  try dsimp only
  repeat' first
    | with_reducible exact h
    | exact Sub.trans (Sub.of (by decide)) hm
    | with_reducible apply Keeps.ite
    | with_reducible apply answerRead_keeps

theorem effStart_keeps {m : Nat} {s t : State} {a0 : Requester} (h : Keeps m s t)
    (hm : Sub 0xeffd7fec m) : Keeps m s (effStart a0 t) := by
  unfold effStart
  try dsimp only
  repeat' first
    | with_reducible exact h
    | exact Sub.trans (Sub.of (by decide)) hm
    | with_reducible apply answerWrite_keeps

theorem effStop_keeps {m : Nat} {s t : State} {a0 : Requester} (h : Keeps m s t)
    (hm : Sub 0xeffd7fec m) : Keeps m s (effStop a0 t) := by
  unfold effStop
  try dsimp only
  repeat' first
    | with_reducible exact h
    | exact Sub.trans (Sub.of (by decide)) hm
    | with_reducible apply answerWrite_keeps

theorem effReload_keeps {m : Nat} {s t : State} {a0 : Requester} (h : Keeps m s t)
    (hm : Sub 0xeffd7fec m) : Keeps m s (effReload a0 t) := by
  unfold effReload
  try dsimp only
  repeat' first
    | with_reducible exact h
    | exact Sub.trans (Sub.of (by decide)) hm
    | with_reducible apply answerWrite_keeps

theorem effResetCommand_keeps {m : Nat} {s t : State} {a0 : Requester} (h : Keeps m s t)
    (hm : Sub 0xeffd7fec m) : Keeps m s (effResetCommand a0 t) := by
  unfold effResetCommand
  try dsimp only
  repeat' first
    | with_reducible exact h
    | exact Sub.trans (Sub.of (by decide)) hm
    | with_reducible apply answerWrite_keeps

theorem effSafeCommand_keeps {m : Nat} {s t : State} {a0 : Requester} (h : Keeps m s t)
    (hm : Sub 0xeffd7fec m) : Keeps m s (effSafeCommand a0 t) := by
  unfold effSafeCommand
  try dsimp only
  repeat' first
    | with_reducible exact h
    | exact Sub.trans (Sub.of (by decide)) hm
    | with_reducible apply answerWrite_keeps

theorem effCommit_keeps {m : Nat} {s t : State} {a0 : Requester} (h : Keeps m s t)
    (hm : Sub 0xeffd7fec m) : Keeps m s (effCommit a0 t) := by
  unfold effCommit
  try dsimp only
  repeat' first
    | with_reducible exact h
    | exact Sub.trans (Sub.of (by decide)) hm
    | with_reducible apply answerWrite_keeps

theorem effDiscard_keeps {m : Nat} {s t : State} {a0 : Requester} (h : Keeps m s t)
    (hm : Sub 0xeffd7fec m) : Keeps m s (effDiscard a0 t) := by
  unfold effDiscard
  try dsimp only
  repeat' first
    | with_reducible exact h
    | exact Sub.trans (Sub.of (by decide)) hm
    | with_reducible apply answerWrite_keeps

theorem effCancel_keeps {m : Nat} {s t : State} {a0 : Requester} (h : Keeps m s t)
    (hm : Sub 0xeffd7fec m) : Keeps m s (effCancel a0 t) := by
  unfold effCancel
  try dsimp only
  repeat' first
    | with_reducible exact h
    | exact Sub.trans (Sub.of (by decide)) hm
    | with_reducible apply answerWrite_keeps

theorem effFlushPort_keeps {m : Nat} {s t : State} {a0 : Requester} {a1 : Nat} (h : Keeps m s t)
    (hm : Sub 0xeffd7fec m) : Keeps m s (effFlushPort a0 a1 t) := by
  unfold effFlushPort
  try dsimp only
  repeat' first
    | with_reducible exact h
    | exact Sub.trans (Sub.of (by decide)) hm
    | with_reducible apply answerWrite_keeps

theorem effUnblockFilter_keeps {m : Nat} {s t : State} {a0 : Requester} {a1 : Nat} (h : Keeps m s t)
    (hm : Sub 0xeffd7fec m) : Keeps m s (effUnblockFilter a0 a1 t) := by
  unfold effUnblockFilter
  try dsimp only
  repeat' first
    | with_reducible exact h
    | exact Sub.trans (Sub.of (by decide)) hm
    | with_reducible apply answerWrite_keeps

theorem effResetGate_keeps {m : Nat} {s t : State} {a0 : Requester} {a1 : Nat} (h : Keeps m s t)
    (hm : Sub 0xeffd7fec m) : Keeps m s (effResetGate a0 a1 t) := by
  unfold effResetGate
  try dsimp only
  repeat' first
    | with_reducible exact h
    | exact Sub.trans (Sub.of (by decide)) hm
    | with_reducible apply answerWrite_keeps

theorem effResetRecovery_keeps {m : Nat} {s t : State} {a0 : Requester} {a1 : Nat} (h : Keeps m s t)
    (hm : Sub 0xeffd7fec m) : Keeps m s (effResetRecovery a0 a1 t) := by
  unfold effResetRecovery
  try dsimp only
  repeat' first
    | with_reducible exact h
    | exact Sub.trans (Sub.of (by decide)) hm
    | with_reducible apply answerWrite_keeps

theorem effResetGeneration_keeps {m : Nat} {s t : State} {a0 : Requester} {a1 : Nat} (h : Keeps m s t)
    (hm : Sub 0xeffd7fec m) : Keeps m s (effResetGeneration a0 a1 t) := by
  unfold effResetGeneration
  try dsimp only
  repeat' first
    | with_reducible exact h
    | exact Sub.trans (Sub.of (by decide)) hm
    | with_reducible apply answerWrite_keeps

theorem effArm_keeps {m : Nat} {s t : State} {a0 : Option Requester} {a1 : Nat} {a2 : Nat} {a3 : Nat} (h : Keeps m s t)
    (hm : Sub 0xeffd7fec m) : Keeps m s (effArm a0 a1 a2 a3 t) := by
  unfold effArm
  try dsimp only
  repeat' first
    | with_reducible exact h
    | exact Sub.trans (Sub.of (by decide)) hm
    | with_reducible apply Keeps.ite
    | with_reducible apply answerWrite_keeps
    | with_reducible apply armRegister_keeps
    | split

theorem effHandover_keeps {m : Nat} {s t : State} {a0 : Requester} (h : Keeps m s t)
    (hm : Sub 0xeffd7fec m) : Keeps m s (effHandover a0 t) := by
  unfold effHandover
  try dsimp only
  repeat' first
    | with_reducible exact h
    | exact Sub.trans (Sub.of (by decide)) hm
    | with_reducible apply answerWrite_keeps

theorem answerClear_keeps {m : Nat} {s t : State} {a0 : Requester} {a1 : Nat} {a2 : Nat} {a3 : Nat} (h : Keeps m s t)
    (hm : Sub 0xeffd7fec m) : Keeps m s (answerClear a0 a1 a2 a3 t) := by
  unfold answerClear
  try dsimp only
  repeat' first
    | with_reducible exact h
    | exact Sub.trans (Sub.of (by decide)) hm
    | with_reducible apply Keeps.ite
    | with_reducible apply answerWrite_keeps

theorem effClearStatus_keeps {m : Nat} {s t : State} {a0 : Requester} {a1 : Nat} {a2 : Nat} (h : Keeps m s t)
    (hm : Sub 0xeffd7fec m) : Keeps m s (effClearStatus a0 a1 a2 t) := by
  unfold effClearStatus
  try dsimp only
  repeat' first
    | with_reducible exact h
    | exact Sub.trans (Sub.of (by decide)) hm
    | with_reducible apply answerClear_keeps

theorem effClearHistory_keeps {m : Nat} {s t : State} {a0 : Requester} {a1 : Nat} {a2 : Nat} (h : Keeps m s t)
    (hm : Sub 0xeffd7fec m) : Keeps m s (effClearHistory a0 a1 a2 t) := by
  unfold effClearHistory
  try dsimp only
  repeat' first
    | with_reducible exact h
    | exact Sub.trans (Sub.of (by decide)) hm
    | with_reducible apply answerClear_keeps

theorem effClearBoth_keeps {m : Nat} {s t : State} {a0 : Requester} {a1 : Nat} {a2 : Nat} (h : Keeps m s t)
    (hm : Sub 0xeffd7fec m) : Keeps m s (effClearBoth a0 a1 a2 t) := by
  unfold effClearBoth
  try dsimp only
  repeat' first
    | with_reducible exact h
    | exact Sub.trans (Sub.of (by decide)) hm
    | with_reducible apply answerClear_keeps

end Sys2Proof.Machine
end

