-- ==== Sys2Proof/Laws/Idle.lean ====
section
/-!
SUPPORT. What each operation of Machine/Idle.lean may change: the parts of the state in the set `hm`, no others, the invariant
kept. Cite these lemmas; do not unfold the operations.
-/
namespace Sys2Proof.Machine

theorem endCycle_keeps {m : Nat} {s t : State} (h : Keeps m s t)
    (hm : Sub 0xc3058e48 m) : Keeps m s (endCycle t) := by
  unfold endCycle
  try dsimp only
  repeat' first
    | with_reducible exact h
    | with_reducible assumption
    | exact Sub.trans (Sub.of (by decide)) hm
    | (intro (_ : State) hu; first | with_reducible exact hu | skip)
    | exact id
    | exact fun _ h => h
    | exact memWrite_wf _ _
    | with_reducible apply Keeps.ite
    | with_reducible apply departures_keeps
    | with_reducible apply endShapers_keeps
    | with_reducible apply tickHead_keeps
    | (with_reducible refine Keeps.foldl _ (fun _ _ _ => ?_) ?_)
    | dsimp only
    | split
    | (with_reducible refine Keeps.ofPair (by assumption) ?_)
    | (with_reducible refine Keeps.ofTriple (by assumption) ?_)

theorem idle_keeps {m : Nat} {s t : State} (h : Keeps m s t)
    (hm : Sub 0xcb658e4a m) : Keeps m s (idle t) := by
  unfold idle
  try dsimp only
  repeat' first
    | with_reducible exact h
    | with_reducible assumption
    | exact Sub.trans (Sub.of (by decide)) hm
    | (intro (_ : State) hu; first | with_reducible exact hu | skip)
    | exact id
    | exact fun _ h => h
    | exact memWrite_wf _ _
    | with_reducible apply Keeps.ite
    | with_reducible apply endCycle_keeps
    | with_reducible apply growFrames_keeps
    | with_reducible apply idleCycle_keeps
    | with_reducible apply issueDue_keeps
    | with_reducible apply kickReads_keeps
    | with_reducible apply noteWakes_keeps
    | with_reducible apply scanTargets_keeps
    | with_reducible apply sendControl_keeps
    | with_reducible apply tickShapers_keeps
    | (with_reducible refine Keeps.foldl _ (fun _ _ _ => ?_) ?_)
    | dsimp only
    | split
    | (with_reducible refine Keeps.ofPair (by assumption) ?_)
    | (with_reducible refine Keeps.ofTriple (by assumption) ?_)

end Sys2Proof.Machine
end

