-- ==== Sys2Proof/Laws/Maps.lean ====
section
/-!
SUPPORT. Reading a sparse map after a write: the written key has the written value, every other key the value it had. The
counters and byte memory follow.
-/
namespace Sys2Proof.Machine

theorem AMap.find_set {α : Type} (m : AMap α) (k j : Nat) (a : α) :
    AMap.find (AMap.set m k a) j = if k = j then some a else AMap.find m j := by
  induction m with
  | nil => simp [AMap.set, AMap.find]
  | cons x r ih =>
    obtain ⟨i, b⟩ := x
    unfold AMap.set
    split
    · simp [AMap.find]
    · split
      · subst k; by_cases h : i = j <;> simp [AMap.find, h]
      · rename_i h1 h2
        simp only [AMap.find, ih]
        by_cases h : i = j
        · subst h; simp [h2]
        · simp [h]

theorem AMap.find_del {α : Type} (m : AMap α) (k j : Nat) :
    AMap.find (AMap.del m k) j = if k = j then none else AMap.find m j := by
  induction m with
  | nil => simp [AMap.del, AMap.find]
  | cons x r ih =>
    obtain ⟨i, b⟩ := x
    unfold AMap.del
    split
    · rename_i h
      subst h
      rw [ih]
      by_cases h : k = j <;> simp [AMap.find, h]
    · rename_i h
      simp only [AMap.find, ih]
      by_cases h1 : i = j
      · subst h1; simp [h]
      · simp [h1]

@[simp] theorem AMap.get_set_same {α : Type} (d : α) (m : AMap α) (k : Nat) (a : α) : AMap.get d (AMap.set m k a) k = a := by
  simp [AMap.get, AMap.find_set]

theorem AMap.get_set_other {α : Type} (d : α) (m : AMap α) {k j : Nat} (a : α) (h : k ≠ j) :
    AMap.get d (AMap.set m k a) j = AMap.get d m j := by
  simp [AMap.get, AMap.find_set, h]

@[simp] theorem AMap.get_put_same {α : Type} [DecidableEq α] (d : α) (m : AMap α) (k : Nat) (a : α) :
    AMap.get d (AMap.put d m k a) k = a := by
  unfold AMap.put
  split
  · rename_i h; simp [AMap.get, AMap.find_del, h]
  · simp

theorem AMap.get_put_other {α : Type} [DecidableEq α] (d : α) (m : AMap α) {k j : Nat} (a : α) (h : k ≠ j) :
    AMap.get d (AMap.put d m k a) j = AMap.get d m j := by
  unfold AMap.put
  split
  · simp [AMap.get, AMap.find_del, h]
  · exact AMap.get_set_other d m a h

@[simp] theorem AMap.get_upd_same {α : Type} [DecidableEq α] (d : α) (m : AMap α) (k : Nat) (f : α → α) :
    AMap.get d (AMap.upd d m k f) k = f (AMap.get d m k) := by
  simp [AMap.upd]

theorem AMap.get_upd_other {α : Type} [DecidableEq α] (d : α) (m : AMap α) {k j : Nat} (f : α → α) (h : k ≠ j) :
    AMap.get d (AMap.upd d m k f) j = AMap.get d m j := by
  simp [AMap.upd, AMap.get_put_other d m _ h]

/-! Counters -/

@[simp] theorem State.counter_bumpBy_same (s : State) (idx sub key n : Nat) :
    (s.bumpBy idx sub key n).counter idx sub key = (s.counter idx sub key + n) % 2 ^ 64 := by
  simp [State.counter, State.bumpBy]

theorem State.counter_bumpBy_other (s : State) {idx sub key i u k : Nat} (n : Nat)
    (h : cntKey idx sub key ≠ cntKey i u k) : (s.bumpBy idx sub key n).counter i u k = s.counter i u k := by
  simp [State.counter, State.bumpBy, AMap.get_upd_other _ _ _ h]

@[simp] theorem State.counter_bump_same (s : State) (idx sub : Nat) :
    (s.bump idx sub).counter idx sub 0 = (s.counter idx sub 0 + 1) % 2 ^ 64 := State.counter_bumpBy_same s idx sub 0 1

@[simp] theorem State.counter_bumpK_same (s : State) (idx sub key : Nat) :
    (s.bumpK idx sub key).counter idx sub key = (s.counter idx sub key + 1) % 2 ^ 64 := State.counter_bumpBy_same s idx sub key 1

/-! Lists changed at an index -/

theorem updAt_getD_same {α : Type} (l : List α) (i : Nat) (f : α → α) (d : α) (h : i < l.length) :
    (updAt l i f).getD i d = f (l.getD i d) := by
  simp [updAt, List.getD_eq_getElem?_getD, h]

theorem updAt_getD_other {α : Type} (l : List α) {i j : Nat} (f : α → α) (d : α) (h : i ≠ j) :
    (updAt l i f).getD j d = l.getD j d := by
  simp [updAt, List.getD_eq_getElem?_getD, h]

/-! Byte memory -/

theorem memGet_memPut (m : List Host.Cell) (a x : Nat) (b : Byte) :
    memGet (memPut m a b) x = if a = x then b else memGet m x := by
  unfold memGet memPut
  split
  · rename_i h; subst h; exact AMap.get_put_same _ _ _ _
  · rename_i h; exact AMap.get_put_other _ _ _ h

/-- Bytes written are read back, and every other byte stays as it was. -/
theorem memGet_memWrite (d : Bytes) : ∀ (m : List Host.Cell) (a x : Nat),
    memGet (memWrite m a d) x = if a ≤ x ∧ x < a + d.length then d.getD (x - a) 0 else memGet m x := by
  induction d with
  | nil => intro m a x; rw [if_neg (by simp only [List.length_nil]; omega)]; rfl
  | cons b r ih =>
    intro m a x
    rw [memWrite, ih, memGet_memPut, List.length_cons]
    by_cases h : a = x
    · subst h
      rw [if_neg (by omega), if_pos rfl, if_pos (by omega), Nat.sub_self]; rfl
    · rw [if_neg h]
      by_cases h2 : a + 1 ≤ x ∧ x < a + 1 + r.length
      · have h4 : x - a = (x - (a + 1)) + 1 := by omega
        rw [if_pos h2, if_pos (by omega), h4]; rfl
      · rw [if_neg h2, if_neg (by omega)]

end Sys2Proof.Machine
end

