-- ==== Sys2Proof/Laws/Pins.lean ====
section
/-!
SUPPORT. What each operation of Machine/Pins.lean may change: the parts of the state in the set `hm`, no others, the invariant
kept. Cite these lemmas; do not unfold the operations.
-/
namespace Sys2Proof.Machine

theorem scanData_keeps {m : Nat} {s t : State} {a0 : TapScan} (h : Keeps m s t)
    (hm : Sub 0x20000008 m) : Keeps m s (scanData a0 t) := by
  unfold scanData
  try dsimp only
  repeat' first
    | with_reducible exact h
    | exact Sub.trans (Sub.of (by decide)) hm
    | with_reducible apply Keeps.ite
    | with_reducible apply State.emit_keeps
    | dsimp only
    | with_reducible apply Keeps.setPins

theorem effTapReset_keeps {m : Nat} {s t : State} (h : Keeps m s t)
    (hm : Sub 0x20000000 m) : Keeps m s (effTapReset t) := by
  unfold effTapReset
  try dsimp only
  repeat' first
    | with_reducible exact h
    | exact Sub.trans (Sub.of (by decide)) hm
    | with_reducible apply Keeps.ite
    | with_reducible apply Keeps.setPins

theorem loadInstruction_keeps {m : Nat} {s t : State} {a0 : Nat} (h : Keeps m s t)
    (hm : Sub 0x20000008 m) : Keeps m s (loadInstruction a0 t) := by
  unfold loadInstruction
  try dsimp only
  repeat' first
    | with_reducible exact h
    | exact Sub.trans (Sub.of (by decide)) hm
    | with_reducible apply State.emit_keeps
    | dsimp only
    | with_reducible apply Keeps.setPins

theorem effTapInstruction_keeps {m : Nat} {s t : State} {a0 : TapCode} {a1 : Option TapScan} (h : Keeps m s t)
    (hm : Sub 0x20000008 m) : Keeps m s (effTapInstruction a0 a1 t) := by
  unfold effTapInstruction
  try dsimp only
  repeat' first
    | with_reducible exact h
    | exact Sub.trans (Sub.of (by decide)) hm
    | with_reducible apply Keeps.ite
    | with_reducible apply loadInstruction_keeps
    | with_reducible apply scanData_keeps
    | dsimp only
    | split

end Sys2Proof.Machine
end

