-- ==== Sys2Proof/Laws/Regs.lean ====
section
/-!
SUPPORT. What each operation of Machine/Regs.lean may change: the parts of the state in the set `hm`, no others, the invariant
kept. Cite these lemmas; do not unfold the operations.
-/
namespace Sys2Proof.Machine

theorem writeControl_keeps {m : Nat} {s t : State} {a0 : Nat} {a1 : Nat} {a2 : Nat} (h : Keeps m s t)
    (hm : Sub 0xcb01020c m) : Keeps m s (writeControl a0 a1 a2 t) := by
  unfold writeControl
  try dsimp only
  repeat' first
    | with_reducible exact h
    | exact Sub.trans (Sub.of (by decide)) hm
    | with_reducible apply Keeps.ite
    | with_reducible apply effAbort_keeps
    | with_reducible apply effChannelReset_keeps
    | with_reducible apply effDoorbell_keeps
    | with_reducible apply effPause_keeps
    | with_reducible apply effRun_keeps
    | dsimp only

theorem dmaWrite_keeps {m : Nat} {s t : State} {a0 : Nat} {a1 : Nat} {a2 : Nat} (h : Keeps m s t)
    (hm : Sub 0xcb01020c m) : Keeps m s (dmaWrite a0 a1 a2 t) := by
  unfold dmaWrite
  try dsimp only
  repeat' first
    | with_reducible exact h
    | with_reducible assumption
    | exact Sub.trans (Sub.of (by decide)) hm
    | (intro (_ : State) hu; first | with_reducible exact hu | skip)
    | exact id
    | exact fun _ h => h
    | with_reducible apply Keeps.ite
    | with_reducible apply chanWrite_keeps
    | with_reducible apply dmaRegWrite_keeps
    | with_reducible apply writeControl_keeps
    | (with_reducible refine Keeps.foldl _ (fun _ _ _ => ?_) ?_)
    | dsimp only
    | split
    | (with_reducible refine Keeps.ofPair (by assumption) ?_)
    | (with_reducible refine Keeps.ofTriple (by assumption) ?_)

theorem writeDomStatus_keeps {m : Nat} {s t : State} {a0 : Nat} {a1 : Nat} (h : Keeps m s t)
    (hm : Sub 0x200000 m) : Keeps m s (writeDomStatus a0 a1 t) := by
  unfold writeDomStatus
  try dsimp only
  repeat' first
    | with_reducible exact h
    | exact Sub.trans (Sub.of (by decide)) hm
    | with_reducible apply State.updDom_keeps

theorem timeWrite_keeps {m : Nat} {s t : State} {a0 : Nat} {a1 : Nat} {a2 : Nat} (h : Keeps m s t)
    (hm : Sub 0xcb20020c m) : Keeps m s (timeWrite a0 a1 a2 t) := by
  unfold timeWrite
  try dsimp only
  repeat' first
    | with_reducible exact h
    | exact Sub.trans (Sub.of (by decide)) hm
    | with_reducible apply Keeps.ite
    | with_reducible apply State.updDom_keeps
    | with_reducible apply State.updFnTime_keeps
    | with_reducible apply armRegister_keeps
    | with_reducible apply effAdjTicksWrite_keeps
    | with_reducible apply effGo_keeps
    | with_reducible apply effIncrementHiWrite_keeps
    | with_reducible apply effOffsetReport_keeps
    | with_reducible apply writeDomStatus_keeps
    | dsimp only
    | split

theorem clearSkipped_keeps {m : Nat} {s t : State} {a0 : Nat} {a1 : Nat} (h : Keeps m s t)
    (hm : Sub 0x400000 m) : Keeps m s (clearSkipped a0 a1 t) := by
  unfold clearSkipped
  try dsimp only
  repeat' first
    | with_reducible exact h
    | with_reducible assumption
    | exact Sub.trans (Sub.of (by decide)) hm
    | (intro (_ : State) hu; first | with_reducible exact hu | skip)
    | exact id
    | exact fun _ h => h
    | with_reducible apply Keeps.ite
    | with_reducible apply State.updTrig_keeps
    | (with_reducible refine Keeps.foldl _ (fun _ _ _ => ?_) ?_)
    | dsimp only
    | split
    | (with_reducible refine Keeps.ofPair (by assumption) ?_)
    | (with_reducible refine Keeps.ofTriple (by assumption) ?_)

theorem trigWrite_keeps {m : Nat} {s t : State} {a0 : Nat} {a1 : Nat} {a2 : Nat} (h : Keeps m s t)
    (hm : Sub 0xcb40020c m) : Keeps m s (trigWrite a0 a1 a2 t) := by
  unfold trigWrite
  try dsimp only
  repeat' first
    | with_reducible exact h
    | exact Sub.trans (Sub.of (by decide)) hm
    | with_reducible apply clearSkipped_keeps
    | with_reducible apply effIntArm_keeps
    | with_reducible apply effOutArm_keeps
    | split

theorem drainTurned_keeps {m : Nat} {s t : State} {a0 : Nat} {a1 : Fifo} (h : Keeps m s t)
    (hm : Sub 0x18000 m) : Keeps m s (drainTurned a0 a1 t) := by
  unfold drainTurned
  try dsimp only
  repeat' first
    | with_reducible exact h
    | exact Sub.trans (Sub.of (by decide)) hm
    | exact id
    | exact fun _ h => h
    | with_reducible apply Keeps.ite
    | with_reducible apply State.updFifo_keeps
    | with_reducible apply oweRequest_keeps
    | dsimp only

theorem tineWrite_keeps {m : Nat} {s t : State} {a0 : Nat} {a1 : Nat} {a2 : Nat} (h : Keeps m s t)
    (hm : Sub 0x8901820c m) : Keeps m s (tineWrite a0 a1 a2 t) := by
  unfold tineWrite
  try dsimp only
  repeat' first
    | with_reducible exact h
    | exact Sub.trans (Sub.of (by decide)) hm
    | exact id
    | exact fun _ h => h
    | with_reducible apply Keeps.ite
    | with_reducible apply State.updFifo_keeps
    | with_reducible apply drainTurned_keeps
    | with_reducible apply effFlush_keeps
    | dsimp only
    | split

theorem pairWrite_keeps {m : Nat} {s t : State} {a0 : Nat} {a1 : Nat} {a2 : Nat} (h : Keeps m s t)
    (hm : Sub 0x88060000 m) : Keeps m s (pairWrite a0 a1 a2 t) := by
  unfold pairWrite
  try dsimp only
  repeat' first
    | with_reducible exact h
    | exact Sub.trans (Sub.of (by decide)) hm
    | with_reducible apply Keeps.ite
    | with_reducible apply State.updPair_keeps
    | with_reducible apply denyWrite_keeps
    | with_reducible apply pairEvent_keeps
    | with_reducible apply yieldPair_keeps
    | split
    | with_reducible apply Keeps.setFeeds

theorem bar4Write_keeps {m : Nat} {s t : State} {a0 : Nat} {a1 : Nat} {a2 : Nat} (h : Keeps m s t)
    (hm : Sub 0x8000000 m) : Keeps m s (bar4Write a0 a1 a2 t) := by
  unfold bar4Write
  try dsimp only
  repeat' first
    | with_reducible exact h
    | exact Sub.trans (Sub.of (by decide)) hm
    | with_reducible apply Keeps.ite
    | with_reducible apply State.updPf_keeps

theorem bar0Write_keeps {m : Nat} {s t : State} {a0 : Nat} {a1 : Nat} {a2 : Nat} (h : Keeps m s t)
    (hm : Sub 0xcf67830c m) : Keeps m s (bar0Write a0 a1 a2 t) := by
  unfold bar0Write
  try dsimp only
  repeat' first
    | with_reducible exact h
    | exact Sub.trans (Sub.of (by decide)) hm
    | with_reducible apply Keeps.ite
    | with_reducible apply bar4Write_keeps
    | with_reducible apply dmaWrite_keeps
    | with_reducible apply globalRegWrite_keeps
    | with_reducible apply healthRegWrite_keeps
    | with_reducible apply intRegWrite_keeps
    | with_reducible apply mboxRegWrite_keeps
    | with_reducible apply pairWrite_keeps
    | with_reducible apply timeWrite_keeps
    | with_reducible apply tineWrite_keeps
    | with_reducible apply trigWrite_keeps
    | dsimp only
    | split

theorem wideWrite_keeps {m : Nat} {s t : State} {a0 : Nat} {a1 : Nat} {a2 : Nat} {a3 : Nat} (h : Keeps m s t)
    (hm : Sub 0xcf67830c m) : Keeps m s (wideWrite a0 a1 a2 a3 t) := by
  unfold wideWrite
  try dsimp only
  repeat' first
    | with_reducible exact h
    | exact Sub.trans (Sub.of (by decide)) hm
    | with_reducible apply Keeps.ite
    | with_reducible apply bar0Write_keeps
    | dsimp only

theorem effRegisterWrite_keeps {m : Nat} {s t : State} {a0 : Nat} {a1 : Nat} {a2 : Nat} {a3 : Nat} (h : Keeps m s t)
    (hm : Sub 0xcf67830c m) : Keeps m s (effRegisterWrite a0 a1 a2 a3 t) := by
  unfold effRegisterWrite
  try dsimp only
  repeat' first
    | with_reducible exact h
    | exact Sub.trans (Sub.of (by decide)) hm
    | with_reducible apply Keeps.ite
    | with_reducible apply noteBadAccess_keeps
    | with_reducible apply refuseBar_keeps
    | with_reducible apply unsupported_keeps
    | with_reducible apply wideWrite_keeps

end Sys2Proof.Machine
end

