-- ==== Sys2Proof/Laws/State.lean ====
section
/-!
SUPPORT. What each named update of the state leaves as it was, field by field, and what it reads as afterwards.
-/
namespace Sys2Proof.Machine

/-! updSource -/

@[simp] theorem State.updSource_pending (s : State) (n : Nat) (f : IntSource → IntSource) : (s.updSource n f).pending = s.pending := rfl
@[simp] theorem State.updSource_cycle (s : State) (n : Nat) (f : IntSource → IntSource) : (s.updSource n f).cycle = s.cycle := rfl
@[simp] theorem State.updSource_free (s : State) (n : Nat) (f : IntSource → IntSource) : (s.updSource n f).free = s.free := rfl
@[simp] theorem State.updSource_out (s : State) (n : Nat) (f : IntSource → IntSource) : (s.updSource n f).out = s.out := rfl
@[simp] theorem State.updSource_hits (s : State) (n : Nat) (f : IntSource → IntSource) : (s.updSource n f).hits = s.hits := rfl
@[simp] theorem State.updSource_ident (s : State) (n : Nat) (f : IntSource → IntSource) : (s.updSource n f).ident = s.ident := rfl
@[simp] theorem State.updSource_chip (s : State) (n : Nat) (f : IntSource → IntSource) : (s.updSource n f).chip = s.chip := rfl
@[simp] theorem State.updSource_mram (s : State) (n : Nat) (f : IntSource → IntSource) : (s.updSource n f).mram = s.mram := rfl
@[simp] theorem State.updSource_cfg (s : State) (n : Nat) (f : IntSource → IntSource) : (s.updSource n f).cfg = s.cfg := rfl
@[simp] theorem State.updSource_nap (s : State) (n : Nat) (f : IntSource → IntSource) : (s.updSource n f).nap = s.nap := rfl
@[simp] theorem State.updSource_cnt (s : State) (n : Nat) (f : IntSource → IntSource) : (s.updSource n f).cnt = s.cnt := rfl
@[simp] theorem State.updSource_fabric (s : State) (n : Nat) (f : IntSource → IntSource) : (s.updSource n f).fabric = s.fabric := rfl
@[simp] theorem State.updSource_ports (s : State) (n : Nat) (f : IntSource → IntSource) : (s.updSource n f).ports = s.ports := rfl
@[simp] theorem State.updSource_fdb (s : State) (n : Nat) (f : IntSource → IntSource) : (s.updSource n f).fdb = s.fdb := rfl
@[simp] theorem State.updSource_psfp (s : State) (n : Nat) (f : IntSource → IntSource) : (s.updSource n f).psfp = s.psfp := rfl
@[simp] theorem State.updSource_gates (s : State) (n : Nat) (f : IntSource → IntSource) : (s.updSource n f).gates = s.gates := rfl
@[simp] theorem State.updSource_tine (s : State) (n : Nat) (f : IntSource → IntSource) : (s.updSource n f).tine = s.tine := rfl
@[simp] theorem State.updSource_dma (s : State) (n : Nat) (f : IntSource → IntSource) : (s.updSource n f).dma = s.dma := rfl
@[simp] theorem State.updSource_feeds (s : State) (n : Nat) (f : IntSource → IntSource) : (s.updSource n f).feeds = s.feeds := rfl
@[simp] theorem State.updSource_pair (s : State) (n : Nat) (f : IntSource → IntSource) : (s.updSource n f).pair = s.pair := rfl
@[simp] theorem State.updSource_linkDelay (s : State) (n : Nat) (f : IntSource → IntSource) : (s.updSource n f).linkDelay = s.linkDelay := rfl
@[simp] theorem State.updSource_frer (s : State) (n : Nat) (f : IntSource → IntSource) : (s.updSource n f).frer = s.frer := rfl
@[simp] theorem State.updSource_time (s : State) (n : Nat) (f : IntSource → IntSource) : (s.updSource n f).time = s.time := rfl
@[simp] theorem State.updSource_trig (s : State) (n : Nat) (f : IntSource → IntSource) : (s.updSource n f).trig = s.trig := rfl
@[simp] theorem State.updSource_herd (s : State) (n : Nat) (f : IntSource → IntSource) : (s.updSource n f).herd = s.herd := rfl
@[simp] theorem State.updSource_faults (s : State) (n : Nat) (f : IntSource → IntSource) : (s.updSource n f).faults = s.faults := rfl
@[simp] theorem State.updSource_health (s : State) (n : Nat) (f : IntSource → IntSource) : (s.updSource n f).health = s.health := rfl
@[simp] theorem State.updSource_pcie (s : State) (n : Nat) (f : IntSource → IntSource) : (s.updSource n f).pcie = s.pcie := rfl
@[simp] theorem State.updSource_mem (s : State) (n : Nat) (f : IntSource → IntSource) : (s.updSource n f).mem = s.mem := rfl
@[simp] theorem State.updSource_pins (s : State) (n : Nat) (f : IntSource → IntSource) : (s.updSource n f).pins = s.pins := rfl

/-! updGroup -/

@[simp] theorem State.updGroup_pending (s : State) (g : Nat) (f : IntGroup → IntGroup) : (s.updGroup g f).pending = s.pending := rfl
@[simp] theorem State.updGroup_cycle (s : State) (g : Nat) (f : IntGroup → IntGroup) : (s.updGroup g f).cycle = s.cycle := rfl
@[simp] theorem State.updGroup_free (s : State) (g : Nat) (f : IntGroup → IntGroup) : (s.updGroup g f).free = s.free := rfl
@[simp] theorem State.updGroup_out (s : State) (g : Nat) (f : IntGroup → IntGroup) : (s.updGroup g f).out = s.out := rfl
@[simp] theorem State.updGroup_hits (s : State) (g : Nat) (f : IntGroup → IntGroup) : (s.updGroup g f).hits = s.hits := rfl
@[simp] theorem State.updGroup_ident (s : State) (g : Nat) (f : IntGroup → IntGroup) : (s.updGroup g f).ident = s.ident := rfl
@[simp] theorem State.updGroup_chip (s : State) (g : Nat) (f : IntGroup → IntGroup) : (s.updGroup g f).chip = s.chip := rfl
@[simp] theorem State.updGroup_mram (s : State) (g : Nat) (f : IntGroup → IntGroup) : (s.updGroup g f).mram = s.mram := rfl
@[simp] theorem State.updGroup_cfg (s : State) (g : Nat) (f : IntGroup → IntGroup) : (s.updGroup g f).cfg = s.cfg := rfl
@[simp] theorem State.updGroup_nap (s : State) (g : Nat) (f : IntGroup → IntGroup) : (s.updGroup g f).nap = s.nap := rfl
@[simp] theorem State.updGroup_cnt (s : State) (g : Nat) (f : IntGroup → IntGroup) : (s.updGroup g f).cnt = s.cnt := rfl
@[simp] theorem State.updGroup_fabric (s : State) (g : Nat) (f : IntGroup → IntGroup) : (s.updGroup g f).fabric = s.fabric := rfl
@[simp] theorem State.updGroup_ports (s : State) (g : Nat) (f : IntGroup → IntGroup) : (s.updGroup g f).ports = s.ports := rfl
@[simp] theorem State.updGroup_fdb (s : State) (g : Nat) (f : IntGroup → IntGroup) : (s.updGroup g f).fdb = s.fdb := rfl
@[simp] theorem State.updGroup_psfp (s : State) (g : Nat) (f : IntGroup → IntGroup) : (s.updGroup g f).psfp = s.psfp := rfl
@[simp] theorem State.updGroup_gates (s : State) (g : Nat) (f : IntGroup → IntGroup) : (s.updGroup g f).gates = s.gates := rfl
@[simp] theorem State.updGroup_tine (s : State) (g : Nat) (f : IntGroup → IntGroup) : (s.updGroup g f).tine = s.tine := rfl
@[simp] theorem State.updGroup_dma (s : State) (g : Nat) (f : IntGroup → IntGroup) : (s.updGroup g f).dma = s.dma := rfl
@[simp] theorem State.updGroup_feeds (s : State) (g : Nat) (f : IntGroup → IntGroup) : (s.updGroup g f).feeds = s.feeds := rfl
@[simp] theorem State.updGroup_pair (s : State) (g : Nat) (f : IntGroup → IntGroup) : (s.updGroup g f).pair = s.pair := rfl
@[simp] theorem State.updGroup_linkDelay (s : State) (g : Nat) (f : IntGroup → IntGroup) : (s.updGroup g f).linkDelay = s.linkDelay := rfl
@[simp] theorem State.updGroup_frer (s : State) (g : Nat) (f : IntGroup → IntGroup) : (s.updGroup g f).frer = s.frer := rfl
@[simp] theorem State.updGroup_time (s : State) (g : Nat) (f : IntGroup → IntGroup) : (s.updGroup g f).time = s.time := rfl
@[simp] theorem State.updGroup_trig (s : State) (g : Nat) (f : IntGroup → IntGroup) : (s.updGroup g f).trig = s.trig := rfl
@[simp] theorem State.updGroup_herd (s : State) (g : Nat) (f : IntGroup → IntGroup) : (s.updGroup g f).herd = s.herd := rfl
@[simp] theorem State.updGroup_faults (s : State) (g : Nat) (f : IntGroup → IntGroup) : (s.updGroup g f).faults = s.faults := rfl
@[simp] theorem State.updGroup_health (s : State) (g : Nat) (f : IntGroup → IntGroup) : (s.updGroup g f).health = s.health := rfl
@[simp] theorem State.updGroup_pcie (s : State) (g : Nat) (f : IntGroup → IntGroup) : (s.updGroup g f).pcie = s.pcie := rfl
@[simp] theorem State.updGroup_mem (s : State) (g : Nat) (f : IntGroup → IntGroup) : (s.updGroup g f).mem = s.mem := rfl
@[simp] theorem State.updGroup_pins (s : State) (g : Nat) (f : IntGroup → IntGroup) : (s.updGroup g f).pins = s.pins := rfl

/-! updTarget -/

@[simp] theorem State.updTarget_pending (s : State) (t : Nat) (f : IntTarget → IntTarget) : (s.updTarget t f).pending = s.pending := rfl
@[simp] theorem State.updTarget_cycle (s : State) (t : Nat) (f : IntTarget → IntTarget) : (s.updTarget t f).cycle = s.cycle := rfl
@[simp] theorem State.updTarget_free (s : State) (t : Nat) (f : IntTarget → IntTarget) : (s.updTarget t f).free = s.free := rfl
@[simp] theorem State.updTarget_out (s : State) (t : Nat) (f : IntTarget → IntTarget) : (s.updTarget t f).out = s.out := rfl
@[simp] theorem State.updTarget_hits (s : State) (t : Nat) (f : IntTarget → IntTarget) : (s.updTarget t f).hits = s.hits := rfl
@[simp] theorem State.updTarget_ident (s : State) (t : Nat) (f : IntTarget → IntTarget) : (s.updTarget t f).ident = s.ident := rfl
@[simp] theorem State.updTarget_chip (s : State) (t : Nat) (f : IntTarget → IntTarget) : (s.updTarget t f).chip = s.chip := rfl
@[simp] theorem State.updTarget_mram (s : State) (t : Nat) (f : IntTarget → IntTarget) : (s.updTarget t f).mram = s.mram := rfl
@[simp] theorem State.updTarget_cfg (s : State) (t : Nat) (f : IntTarget → IntTarget) : (s.updTarget t f).cfg = s.cfg := rfl
@[simp] theorem State.updTarget_nap (s : State) (t : Nat) (f : IntTarget → IntTarget) : (s.updTarget t f).nap = s.nap := rfl
@[simp] theorem State.updTarget_cnt (s : State) (t : Nat) (f : IntTarget → IntTarget) : (s.updTarget t f).cnt = s.cnt := rfl
@[simp] theorem State.updTarget_fabric (s : State) (t : Nat) (f : IntTarget → IntTarget) : (s.updTarget t f).fabric = s.fabric := rfl
@[simp] theorem State.updTarget_ports (s : State) (t : Nat) (f : IntTarget → IntTarget) : (s.updTarget t f).ports = s.ports := rfl
@[simp] theorem State.updTarget_fdb (s : State) (t : Nat) (f : IntTarget → IntTarget) : (s.updTarget t f).fdb = s.fdb := rfl
@[simp] theorem State.updTarget_psfp (s : State) (t : Nat) (f : IntTarget → IntTarget) : (s.updTarget t f).psfp = s.psfp := rfl
@[simp] theorem State.updTarget_gates (s : State) (t : Nat) (f : IntTarget → IntTarget) : (s.updTarget t f).gates = s.gates := rfl
@[simp] theorem State.updTarget_tine (s : State) (t : Nat) (f : IntTarget → IntTarget) : (s.updTarget t f).tine = s.tine := rfl
@[simp] theorem State.updTarget_dma (s : State) (t : Nat) (f : IntTarget → IntTarget) : (s.updTarget t f).dma = s.dma := rfl
@[simp] theorem State.updTarget_feeds (s : State) (t : Nat) (f : IntTarget → IntTarget) : (s.updTarget t f).feeds = s.feeds := rfl
@[simp] theorem State.updTarget_pair (s : State) (t : Nat) (f : IntTarget → IntTarget) : (s.updTarget t f).pair = s.pair := rfl
@[simp] theorem State.updTarget_linkDelay (s : State) (t : Nat) (f : IntTarget → IntTarget) : (s.updTarget t f).linkDelay = s.linkDelay := rfl
@[simp] theorem State.updTarget_frer (s : State) (t : Nat) (f : IntTarget → IntTarget) : (s.updTarget t f).frer = s.frer := rfl
@[simp] theorem State.updTarget_time (s : State) (t : Nat) (f : IntTarget → IntTarget) : (s.updTarget t f).time = s.time := rfl
@[simp] theorem State.updTarget_trig (s : State) (t : Nat) (f : IntTarget → IntTarget) : (s.updTarget t f).trig = s.trig := rfl
@[simp] theorem State.updTarget_herd (s : State) (t : Nat) (f : IntTarget → IntTarget) : (s.updTarget t f).herd = s.herd := rfl
@[simp] theorem State.updTarget_faults (s : State) (t : Nat) (f : IntTarget → IntTarget) : (s.updTarget t f).faults = s.faults := rfl
@[simp] theorem State.updTarget_health (s : State) (t : Nat) (f : IntTarget → IntTarget) : (s.updTarget t f).health = s.health := rfl
@[simp] theorem State.updTarget_pcie (s : State) (t : Nat) (f : IntTarget → IntTarget) : (s.updTarget t f).pcie = s.pcie := rfl
@[simp] theorem State.updTarget_mem (s : State) (t : Nat) (f : IntTarget → IntTarget) : (s.updTarget t f).mem = s.mem := rfl
@[simp] theorem State.updTarget_pins (s : State) (t : Nat) (f : IntTarget → IntTarget) : (s.updTarget t f).pins = s.pins := rfl

/-! updFault -/

@[simp] theorem State.updFault_pending (s : State) (b i : Nat) (f : FaultInst → FaultInst) : (s.updFault b i f).pending = s.pending := rfl
@[simp] theorem State.updFault_cycle (s : State) (b i : Nat) (f : FaultInst → FaultInst) : (s.updFault b i f).cycle = s.cycle := rfl
@[simp] theorem State.updFault_free (s : State) (b i : Nat) (f : FaultInst → FaultInst) : (s.updFault b i f).free = s.free := rfl
@[simp] theorem State.updFault_out (s : State) (b i : Nat) (f : FaultInst → FaultInst) : (s.updFault b i f).out = s.out := rfl
@[simp] theorem State.updFault_hits (s : State) (b i : Nat) (f : FaultInst → FaultInst) : (s.updFault b i f).hits = s.hits := rfl
@[simp] theorem State.updFault_ident (s : State) (b i : Nat) (f : FaultInst → FaultInst) : (s.updFault b i f).ident = s.ident := rfl
@[simp] theorem State.updFault_chip (s : State) (b i : Nat) (f : FaultInst → FaultInst) : (s.updFault b i f).chip = s.chip := rfl
@[simp] theorem State.updFault_mram (s : State) (b i : Nat) (f : FaultInst → FaultInst) : (s.updFault b i f).mram = s.mram := rfl
@[simp] theorem State.updFault_cfg (s : State) (b i : Nat) (f : FaultInst → FaultInst) : (s.updFault b i f).cfg = s.cfg := rfl
@[simp] theorem State.updFault_nap (s : State) (b i : Nat) (f : FaultInst → FaultInst) : (s.updFault b i f).nap = s.nap := rfl
@[simp] theorem State.updFault_cnt (s : State) (b i : Nat) (f : FaultInst → FaultInst) : (s.updFault b i f).cnt = s.cnt := rfl
@[simp] theorem State.updFault_fabric (s : State) (b i : Nat) (f : FaultInst → FaultInst) : (s.updFault b i f).fabric = s.fabric := rfl
@[simp] theorem State.updFault_ports (s : State) (b i : Nat) (f : FaultInst → FaultInst) : (s.updFault b i f).ports = s.ports := rfl
@[simp] theorem State.updFault_fdb (s : State) (b i : Nat) (f : FaultInst → FaultInst) : (s.updFault b i f).fdb = s.fdb := rfl
@[simp] theorem State.updFault_psfp (s : State) (b i : Nat) (f : FaultInst → FaultInst) : (s.updFault b i f).psfp = s.psfp := rfl
@[simp] theorem State.updFault_gates (s : State) (b i : Nat) (f : FaultInst → FaultInst) : (s.updFault b i f).gates = s.gates := rfl
@[simp] theorem State.updFault_tine (s : State) (b i : Nat) (f : FaultInst → FaultInst) : (s.updFault b i f).tine = s.tine := rfl
@[simp] theorem State.updFault_dma (s : State) (b i : Nat) (f : FaultInst → FaultInst) : (s.updFault b i f).dma = s.dma := rfl
@[simp] theorem State.updFault_feeds (s : State) (b i : Nat) (f : FaultInst → FaultInst) : (s.updFault b i f).feeds = s.feeds := rfl
@[simp] theorem State.updFault_pair (s : State) (b i : Nat) (f : FaultInst → FaultInst) : (s.updFault b i f).pair = s.pair := rfl
@[simp] theorem State.updFault_linkDelay (s : State) (b i : Nat) (f : FaultInst → FaultInst) : (s.updFault b i f).linkDelay = s.linkDelay := rfl
@[simp] theorem State.updFault_frer (s : State) (b i : Nat) (f : FaultInst → FaultInst) : (s.updFault b i f).frer = s.frer := rfl
@[simp] theorem State.updFault_time (s : State) (b i : Nat) (f : FaultInst → FaultInst) : (s.updFault b i f).time = s.time := rfl
@[simp] theorem State.updFault_trig (s : State) (b i : Nat) (f : FaultInst → FaultInst) : (s.updFault b i f).trig = s.trig := rfl
@[simp] theorem State.updFault_herd (s : State) (b i : Nat) (f : FaultInst → FaultInst) : (s.updFault b i f).herd = s.herd := rfl
@[simp] theorem State.updFault_intc (s : State) (b i : Nat) (f : FaultInst → FaultInst) : (s.updFault b i f).intc = s.intc := rfl
@[simp] theorem State.updFault_health (s : State) (b i : Nat) (f : FaultInst → FaultInst) : (s.updFault b i f).health = s.health := rfl
@[simp] theorem State.updFault_pcie (s : State) (b i : Nat) (f : FaultInst → FaultInst) : (s.updFault b i f).pcie = s.pcie := rfl
@[simp] theorem State.updFault_mem (s : State) (b i : Nat) (f : FaultInst → FaultInst) : (s.updFault b i f).mem = s.mem := rfl
@[simp] theorem State.updFault_pins (s : State) (b i : Nat) (f : FaultInst → FaultInst) : (s.updFault b i f).pins = s.pins := rfl

/-! updLearned -/

@[simp] theorem State.updLearned_pending (s : State) (f : AMap Learned → AMap Learned) : (s.updLearned f).pending = s.pending := rfl
@[simp] theorem State.updLearned_cycle (s : State) (f : AMap Learned → AMap Learned) : (s.updLearned f).cycle = s.cycle := rfl
@[simp] theorem State.updLearned_free (s : State) (f : AMap Learned → AMap Learned) : (s.updLearned f).free = s.free := rfl
@[simp] theorem State.updLearned_out (s : State) (f : AMap Learned → AMap Learned) : (s.updLearned f).out = s.out := rfl
@[simp] theorem State.updLearned_hits (s : State) (f : AMap Learned → AMap Learned) : (s.updLearned f).hits = s.hits := rfl
@[simp] theorem State.updLearned_ident (s : State) (f : AMap Learned → AMap Learned) : (s.updLearned f).ident = s.ident := rfl
@[simp] theorem State.updLearned_chip (s : State) (f : AMap Learned → AMap Learned) : (s.updLearned f).chip = s.chip := rfl
@[simp] theorem State.updLearned_mram (s : State) (f : AMap Learned → AMap Learned) : (s.updLearned f).mram = s.mram := rfl
@[simp] theorem State.updLearned_cfg (s : State) (f : AMap Learned → AMap Learned) : (s.updLearned f).cfg = s.cfg := rfl
@[simp] theorem State.updLearned_nap (s : State) (f : AMap Learned → AMap Learned) : (s.updLearned f).nap = s.nap := rfl
@[simp] theorem State.updLearned_cnt (s : State) (f : AMap Learned → AMap Learned) : (s.updLearned f).cnt = s.cnt := rfl
@[simp] theorem State.updLearned_fabric (s : State) (f : AMap Learned → AMap Learned) : (s.updLearned f).fabric = s.fabric := rfl
@[simp] theorem State.updLearned_ports (s : State) (f : AMap Learned → AMap Learned) : (s.updLearned f).ports = s.ports := rfl
@[simp] theorem State.updLearned_psfp (s : State) (f : AMap Learned → AMap Learned) : (s.updLearned f).psfp = s.psfp := rfl
@[simp] theorem State.updLearned_gates (s : State) (f : AMap Learned → AMap Learned) : (s.updLearned f).gates = s.gates := rfl
@[simp] theorem State.updLearned_tine (s : State) (f : AMap Learned → AMap Learned) : (s.updLearned f).tine = s.tine := rfl
@[simp] theorem State.updLearned_dma (s : State) (f : AMap Learned → AMap Learned) : (s.updLearned f).dma = s.dma := rfl
@[simp] theorem State.updLearned_feeds (s : State) (f : AMap Learned → AMap Learned) : (s.updLearned f).feeds = s.feeds := rfl
@[simp] theorem State.updLearned_pair (s : State) (f : AMap Learned → AMap Learned) : (s.updLearned f).pair = s.pair := rfl
@[simp] theorem State.updLearned_linkDelay (s : State) (f : AMap Learned → AMap Learned) : (s.updLearned f).linkDelay = s.linkDelay := rfl
@[simp] theorem State.updLearned_frer (s : State) (f : AMap Learned → AMap Learned) : (s.updLearned f).frer = s.frer := rfl
@[simp] theorem State.updLearned_time (s : State) (f : AMap Learned → AMap Learned) : (s.updLearned f).time = s.time := rfl
@[simp] theorem State.updLearned_trig (s : State) (f : AMap Learned → AMap Learned) : (s.updLearned f).trig = s.trig := rfl
@[simp] theorem State.updLearned_herd (s : State) (f : AMap Learned → AMap Learned) : (s.updLearned f).herd = s.herd := rfl
@[simp] theorem State.updLearned_intc (s : State) (f : AMap Learned → AMap Learned) : (s.updLearned f).intc = s.intc := rfl
@[simp] theorem State.updLearned_faults (s : State) (f : AMap Learned → AMap Learned) : (s.updLearned f).faults = s.faults := rfl
@[simp] theorem State.updLearned_health (s : State) (f : AMap Learned → AMap Learned) : (s.updLearned f).health = s.health := rfl
@[simp] theorem State.updLearned_pcie (s : State) (f : AMap Learned → AMap Learned) : (s.updLearned f).pcie = s.pcie := rfl
@[simp] theorem State.updLearned_mem (s : State) (f : AMap Learned → AMap Learned) : (s.updLearned f).mem = s.mem := rfl
@[simp] theorem State.updLearned_pins (s : State) (f : AMap Learned → AMap Learned) : (s.updLearned f).pins = s.pins := rfl

/-! updPps -/

@[simp] theorem State.updPps_pending (s : State) (k : Nat) (f : PpsOut → PpsOut) : (s.updPps k f).pending = s.pending := rfl
@[simp] theorem State.updPps_cycle (s : State) (k : Nat) (f : PpsOut → PpsOut) : (s.updPps k f).cycle = s.cycle := rfl
@[simp] theorem State.updPps_free (s : State) (k : Nat) (f : PpsOut → PpsOut) : (s.updPps k f).free = s.free := rfl
@[simp] theorem State.updPps_out (s : State) (k : Nat) (f : PpsOut → PpsOut) : (s.updPps k f).out = s.out := rfl
@[simp] theorem State.updPps_hits (s : State) (k : Nat) (f : PpsOut → PpsOut) : (s.updPps k f).hits = s.hits := rfl
@[simp] theorem State.updPps_ident (s : State) (k : Nat) (f : PpsOut → PpsOut) : (s.updPps k f).ident = s.ident := rfl
@[simp] theorem State.updPps_chip (s : State) (k : Nat) (f : PpsOut → PpsOut) : (s.updPps k f).chip = s.chip := rfl
@[simp] theorem State.updPps_mram (s : State) (k : Nat) (f : PpsOut → PpsOut) : (s.updPps k f).mram = s.mram := rfl
@[simp] theorem State.updPps_cfg (s : State) (k : Nat) (f : PpsOut → PpsOut) : (s.updPps k f).cfg = s.cfg := rfl
@[simp] theorem State.updPps_nap (s : State) (k : Nat) (f : PpsOut → PpsOut) : (s.updPps k f).nap = s.nap := rfl
@[simp] theorem State.updPps_cnt (s : State) (k : Nat) (f : PpsOut → PpsOut) : (s.updPps k f).cnt = s.cnt := rfl
@[simp] theorem State.updPps_fabric (s : State) (k : Nat) (f : PpsOut → PpsOut) : (s.updPps k f).fabric = s.fabric := rfl
@[simp] theorem State.updPps_ports (s : State) (k : Nat) (f : PpsOut → PpsOut) : (s.updPps k f).ports = s.ports := rfl
@[simp] theorem State.updPps_fdb (s : State) (k : Nat) (f : PpsOut → PpsOut) : (s.updPps k f).fdb = s.fdb := rfl
@[simp] theorem State.updPps_psfp (s : State) (k : Nat) (f : PpsOut → PpsOut) : (s.updPps k f).psfp = s.psfp := rfl
@[simp] theorem State.updPps_gates (s : State) (k : Nat) (f : PpsOut → PpsOut) : (s.updPps k f).gates = s.gates := rfl
@[simp] theorem State.updPps_tine (s : State) (k : Nat) (f : PpsOut → PpsOut) : (s.updPps k f).tine = s.tine := rfl
@[simp] theorem State.updPps_dma (s : State) (k : Nat) (f : PpsOut → PpsOut) : (s.updPps k f).dma = s.dma := rfl
@[simp] theorem State.updPps_feeds (s : State) (k : Nat) (f : PpsOut → PpsOut) : (s.updPps k f).feeds = s.feeds := rfl
@[simp] theorem State.updPps_pair (s : State) (k : Nat) (f : PpsOut → PpsOut) : (s.updPps k f).pair = s.pair := rfl
@[simp] theorem State.updPps_linkDelay (s : State) (k : Nat) (f : PpsOut → PpsOut) : (s.updPps k f).linkDelay = s.linkDelay := rfl
@[simp] theorem State.updPps_frer (s : State) (k : Nat) (f : PpsOut → PpsOut) : (s.updPps k f).frer = s.frer := rfl
@[simp] theorem State.updPps_trig (s : State) (k : Nat) (f : PpsOut → PpsOut) : (s.updPps k f).trig = s.trig := rfl
@[simp] theorem State.updPps_herd (s : State) (k : Nat) (f : PpsOut → PpsOut) : (s.updPps k f).herd = s.herd := rfl
@[simp] theorem State.updPps_intc (s : State) (k : Nat) (f : PpsOut → PpsOut) : (s.updPps k f).intc = s.intc := rfl
@[simp] theorem State.updPps_faults (s : State) (k : Nat) (f : PpsOut → PpsOut) : (s.updPps k f).faults = s.faults := rfl
@[simp] theorem State.updPps_health (s : State) (k : Nat) (f : PpsOut → PpsOut) : (s.updPps k f).health = s.health := rfl
@[simp] theorem State.updPps_pcie (s : State) (k : Nat) (f : PpsOut → PpsOut) : (s.updPps k f).pcie = s.pcie := rfl
@[simp] theorem State.updPps_mem (s : State) (k : Nat) (f : PpsOut → PpsOut) : (s.updPps k f).mem = s.mem := rfl
@[simp] theorem State.updPps_pins (s : State) (k : Nat) (f : PpsOut → PpsOut) : (s.updPps k f).pins = s.pins := rfl

/-! updFnTime -/

@[simp] theorem State.updFnTime_pending (s : State) (f d : Nat) (g : FnTime → FnTime) : (s.updFnTime f d g).pending = s.pending := rfl
@[simp] theorem State.updFnTime_cycle (s : State) (f d : Nat) (g : FnTime → FnTime) : (s.updFnTime f d g).cycle = s.cycle := rfl
@[simp] theorem State.updFnTime_free (s : State) (f d : Nat) (g : FnTime → FnTime) : (s.updFnTime f d g).free = s.free := rfl
@[simp] theorem State.updFnTime_out (s : State) (f d : Nat) (g : FnTime → FnTime) : (s.updFnTime f d g).out = s.out := rfl
@[simp] theorem State.updFnTime_hits (s : State) (f d : Nat) (g : FnTime → FnTime) : (s.updFnTime f d g).hits = s.hits := rfl
@[simp] theorem State.updFnTime_ident (s : State) (f d : Nat) (g : FnTime → FnTime) : (s.updFnTime f d g).ident = s.ident := rfl
@[simp] theorem State.updFnTime_chip (s : State) (f d : Nat) (g : FnTime → FnTime) : (s.updFnTime f d g).chip = s.chip := rfl
@[simp] theorem State.updFnTime_mram (s : State) (f d : Nat) (g : FnTime → FnTime) : (s.updFnTime f d g).mram = s.mram := rfl
@[simp] theorem State.updFnTime_cfg (s : State) (f d : Nat) (g : FnTime → FnTime) : (s.updFnTime f d g).cfg = s.cfg := rfl
@[simp] theorem State.updFnTime_nap (s : State) (f d : Nat) (g : FnTime → FnTime) : (s.updFnTime f d g).nap = s.nap := rfl
@[simp] theorem State.updFnTime_cnt (s : State) (f d : Nat) (g : FnTime → FnTime) : (s.updFnTime f d g).cnt = s.cnt := rfl
@[simp] theorem State.updFnTime_fabric (s : State) (f d : Nat) (g : FnTime → FnTime) : (s.updFnTime f d g).fabric = s.fabric := rfl
@[simp] theorem State.updFnTime_ports (s : State) (f d : Nat) (g : FnTime → FnTime) : (s.updFnTime f d g).ports = s.ports := rfl
@[simp] theorem State.updFnTime_fdb (s : State) (f d : Nat) (g : FnTime → FnTime) : (s.updFnTime f d g).fdb = s.fdb := rfl
@[simp] theorem State.updFnTime_psfp (s : State) (f d : Nat) (g : FnTime → FnTime) : (s.updFnTime f d g).psfp = s.psfp := rfl
@[simp] theorem State.updFnTime_gates (s : State) (f d : Nat) (g : FnTime → FnTime) : (s.updFnTime f d g).gates = s.gates := rfl
@[simp] theorem State.updFnTime_tine (s : State) (f d : Nat) (g : FnTime → FnTime) : (s.updFnTime f d g).tine = s.tine := rfl
@[simp] theorem State.updFnTime_dma (s : State) (f d : Nat) (g : FnTime → FnTime) : (s.updFnTime f d g).dma = s.dma := rfl
@[simp] theorem State.updFnTime_feeds (s : State) (f d : Nat) (g : FnTime → FnTime) : (s.updFnTime f d g).feeds = s.feeds := rfl
@[simp] theorem State.updFnTime_pair (s : State) (f d : Nat) (g : FnTime → FnTime) : (s.updFnTime f d g).pair = s.pair := rfl
@[simp] theorem State.updFnTime_linkDelay (s : State) (f d : Nat) (g : FnTime → FnTime) : (s.updFnTime f d g).linkDelay = s.linkDelay := rfl
@[simp] theorem State.updFnTime_frer (s : State) (f d : Nat) (g : FnTime → FnTime) : (s.updFnTime f d g).frer = s.frer := rfl
@[simp] theorem State.updFnTime_trig (s : State) (f d : Nat) (g : FnTime → FnTime) : (s.updFnTime f d g).trig = s.trig := rfl
@[simp] theorem State.updFnTime_herd (s : State) (f d : Nat) (g : FnTime → FnTime) : (s.updFnTime f d g).herd = s.herd := rfl
@[simp] theorem State.updFnTime_intc (s : State) (f d : Nat) (g : FnTime → FnTime) : (s.updFnTime f d g).intc = s.intc := rfl
@[simp] theorem State.updFnTime_faults (s : State) (f d : Nat) (g : FnTime → FnTime) : (s.updFnTime f d g).faults = s.faults := rfl
@[simp] theorem State.updFnTime_health (s : State) (f d : Nat) (g : FnTime → FnTime) : (s.updFnTime f d g).health = s.health := rfl
@[simp] theorem State.updFnTime_pcie (s : State) (f d : Nat) (g : FnTime → FnTime) : (s.updFnTime f d g).pcie = s.pcie := rfl
@[simp] theorem State.updFnTime_mem (s : State) (f d : Nat) (g : FnTime → FnTime) : (s.updFnTime f d g).mem = s.mem := rfl
@[simp] theorem State.updFnTime_pins (s : State) (f d : Nat) (g : FnTime → FnTime) : (s.updFnTime f d g).pins = s.pins := rfl

/-! updSgate -/

@[simp] theorem State.updSgate_pending (s : State) (k : Nat) (f : SGate → SGate) : (s.updSgate k f).pending = s.pending := rfl
@[simp] theorem State.updSgate_cycle (s : State) (k : Nat) (f : SGate → SGate) : (s.updSgate k f).cycle = s.cycle := rfl
@[simp] theorem State.updSgate_free (s : State) (k : Nat) (f : SGate → SGate) : (s.updSgate k f).free = s.free := rfl
@[simp] theorem State.updSgate_out (s : State) (k : Nat) (f : SGate → SGate) : (s.updSgate k f).out = s.out := rfl
@[simp] theorem State.updSgate_hits (s : State) (k : Nat) (f : SGate → SGate) : (s.updSgate k f).hits = s.hits := rfl
@[simp] theorem State.updSgate_ident (s : State) (k : Nat) (f : SGate → SGate) : (s.updSgate k f).ident = s.ident := rfl
@[simp] theorem State.updSgate_chip (s : State) (k : Nat) (f : SGate → SGate) : (s.updSgate k f).chip = s.chip := rfl
@[simp] theorem State.updSgate_mram (s : State) (k : Nat) (f : SGate → SGate) : (s.updSgate k f).mram = s.mram := rfl
@[simp] theorem State.updSgate_cfg (s : State) (k : Nat) (f : SGate → SGate) : (s.updSgate k f).cfg = s.cfg := rfl
@[simp] theorem State.updSgate_nap (s : State) (k : Nat) (f : SGate → SGate) : (s.updSgate k f).nap = s.nap := rfl
@[simp] theorem State.updSgate_cnt (s : State) (k : Nat) (f : SGate → SGate) : (s.updSgate k f).cnt = s.cnt := rfl
@[simp] theorem State.updSgate_fabric (s : State) (k : Nat) (f : SGate → SGate) : (s.updSgate k f).fabric = s.fabric := rfl
@[simp] theorem State.updSgate_ports (s : State) (k : Nat) (f : SGate → SGate) : (s.updSgate k f).ports = s.ports := rfl
@[simp] theorem State.updSgate_fdb (s : State) (k : Nat) (f : SGate → SGate) : (s.updSgate k f).fdb = s.fdb := rfl
@[simp] theorem State.updSgate_gates (s : State) (k : Nat) (f : SGate → SGate) : (s.updSgate k f).gates = s.gates := rfl
@[simp] theorem State.updSgate_tine (s : State) (k : Nat) (f : SGate → SGate) : (s.updSgate k f).tine = s.tine := rfl
@[simp] theorem State.updSgate_dma (s : State) (k : Nat) (f : SGate → SGate) : (s.updSgate k f).dma = s.dma := rfl
@[simp] theorem State.updSgate_feeds (s : State) (k : Nat) (f : SGate → SGate) : (s.updSgate k f).feeds = s.feeds := rfl
@[simp] theorem State.updSgate_pair (s : State) (k : Nat) (f : SGate → SGate) : (s.updSgate k f).pair = s.pair := rfl
@[simp] theorem State.updSgate_linkDelay (s : State) (k : Nat) (f : SGate → SGate) : (s.updSgate k f).linkDelay = s.linkDelay := rfl
@[simp] theorem State.updSgate_frer (s : State) (k : Nat) (f : SGate → SGate) : (s.updSgate k f).frer = s.frer := rfl
@[simp] theorem State.updSgate_time (s : State) (k : Nat) (f : SGate → SGate) : (s.updSgate k f).time = s.time := rfl
@[simp] theorem State.updSgate_trig (s : State) (k : Nat) (f : SGate → SGate) : (s.updSgate k f).trig = s.trig := rfl
@[simp] theorem State.updSgate_herd (s : State) (k : Nat) (f : SGate → SGate) : (s.updSgate k f).herd = s.herd := rfl
@[simp] theorem State.updSgate_intc (s : State) (k : Nat) (f : SGate → SGate) : (s.updSgate k f).intc = s.intc := rfl
@[simp] theorem State.updSgate_faults (s : State) (k : Nat) (f : SGate → SGate) : (s.updSgate k f).faults = s.faults := rfl
@[simp] theorem State.updSgate_health (s : State) (k : Nat) (f : SGate → SGate) : (s.updSgate k f).health = s.health := rfl
@[simp] theorem State.updSgate_pcie (s : State) (k : Nat) (f : SGate → SGate) : (s.updSgate k f).pcie = s.pcie := rfl
@[simp] theorem State.updSgate_mem (s : State) (k : Nat) (f : SGate → SGate) : (s.updSgate k f).mem = s.mem := rfl
@[simp] theorem State.updSgate_pins (s : State) (k : Nat) (f : SGate → SGate) : (s.updSgate k f).pins = s.pins := rfl

/-! putMeter -/

@[simp] theorem State.putMeter_pending (s : State) (k : Nat) (m : Meter) : (s.putMeter k m).pending = s.pending := rfl
@[simp] theorem State.putMeter_cycle (s : State) (k : Nat) (m : Meter) : (s.putMeter k m).cycle = s.cycle := rfl
@[simp] theorem State.putMeter_free (s : State) (k : Nat) (m : Meter) : (s.putMeter k m).free = s.free := rfl
@[simp] theorem State.putMeter_out (s : State) (k : Nat) (m : Meter) : (s.putMeter k m).out = s.out := rfl
@[simp] theorem State.putMeter_hits (s : State) (k : Nat) (m : Meter) : (s.putMeter k m).hits = s.hits := rfl
@[simp] theorem State.putMeter_ident (s : State) (k : Nat) (m : Meter) : (s.putMeter k m).ident = s.ident := rfl
@[simp] theorem State.putMeter_chip (s : State) (k : Nat) (m : Meter) : (s.putMeter k m).chip = s.chip := rfl
@[simp] theorem State.putMeter_mram (s : State) (k : Nat) (m : Meter) : (s.putMeter k m).mram = s.mram := rfl
@[simp] theorem State.putMeter_cfg (s : State) (k : Nat) (m : Meter) : (s.putMeter k m).cfg = s.cfg := rfl
@[simp] theorem State.putMeter_nap (s : State) (k : Nat) (m : Meter) : (s.putMeter k m).nap = s.nap := rfl
@[simp] theorem State.putMeter_cnt (s : State) (k : Nat) (m : Meter) : (s.putMeter k m).cnt = s.cnt := rfl
@[simp] theorem State.putMeter_fabric (s : State) (k : Nat) (m : Meter) : (s.putMeter k m).fabric = s.fabric := rfl
@[simp] theorem State.putMeter_ports (s : State) (k : Nat) (m : Meter) : (s.putMeter k m).ports = s.ports := rfl
@[simp] theorem State.putMeter_fdb (s : State) (k : Nat) (m : Meter) : (s.putMeter k m).fdb = s.fdb := rfl
@[simp] theorem State.putMeter_gates (s : State) (k : Nat) (m : Meter) : (s.putMeter k m).gates = s.gates := rfl
@[simp] theorem State.putMeter_tine (s : State) (k : Nat) (m : Meter) : (s.putMeter k m).tine = s.tine := rfl
@[simp] theorem State.putMeter_dma (s : State) (k : Nat) (m : Meter) : (s.putMeter k m).dma = s.dma := rfl
@[simp] theorem State.putMeter_feeds (s : State) (k : Nat) (m : Meter) : (s.putMeter k m).feeds = s.feeds := rfl
@[simp] theorem State.putMeter_pair (s : State) (k : Nat) (m : Meter) : (s.putMeter k m).pair = s.pair := rfl
@[simp] theorem State.putMeter_linkDelay (s : State) (k : Nat) (m : Meter) : (s.putMeter k m).linkDelay = s.linkDelay := rfl
@[simp] theorem State.putMeter_frer (s : State) (k : Nat) (m : Meter) : (s.putMeter k m).frer = s.frer := rfl
@[simp] theorem State.putMeter_time (s : State) (k : Nat) (m : Meter) : (s.putMeter k m).time = s.time := rfl
@[simp] theorem State.putMeter_trig (s : State) (k : Nat) (m : Meter) : (s.putMeter k m).trig = s.trig := rfl
@[simp] theorem State.putMeter_herd (s : State) (k : Nat) (m : Meter) : (s.putMeter k m).herd = s.herd := rfl
@[simp] theorem State.putMeter_intc (s : State) (k : Nat) (m : Meter) : (s.putMeter k m).intc = s.intc := rfl
@[simp] theorem State.putMeter_faults (s : State) (k : Nat) (m : Meter) : (s.putMeter k m).faults = s.faults := rfl
@[simp] theorem State.putMeter_health (s : State) (k : Nat) (m : Meter) : (s.putMeter k m).health = s.health := rfl
@[simp] theorem State.putMeter_pcie (s : State) (k : Nat) (m : Meter) : (s.putMeter k m).pcie = s.pcie := rfl
@[simp] theorem State.putMeter_mem (s : State) (k : Nat) (m : Meter) : (s.putMeter k m).mem = s.mem := rfl
@[simp] theorem State.putMeter_pins (s : State) (k : Nat) (m : Meter) : (s.putMeter k m).pins = s.pins := rfl

/-! updFifo -/

@[simp] theorem State.updFifo_pending (s : State) (k : Nat) (f : Fifo → Fifo) : (s.updFifo k f).pending = s.pending := rfl
@[simp] theorem State.updFifo_cycle (s : State) (k : Nat) (f : Fifo → Fifo) : (s.updFifo k f).cycle = s.cycle := rfl
@[simp] theorem State.updFifo_free (s : State) (k : Nat) (f : Fifo → Fifo) : (s.updFifo k f).free = s.free := rfl
@[simp] theorem State.updFifo_out (s : State) (k : Nat) (f : Fifo → Fifo) : (s.updFifo k f).out = s.out := rfl
@[simp] theorem State.updFifo_hits (s : State) (k : Nat) (f : Fifo → Fifo) : (s.updFifo k f).hits = s.hits := rfl
@[simp] theorem State.updFifo_ident (s : State) (k : Nat) (f : Fifo → Fifo) : (s.updFifo k f).ident = s.ident := rfl
@[simp] theorem State.updFifo_chip (s : State) (k : Nat) (f : Fifo → Fifo) : (s.updFifo k f).chip = s.chip := rfl
@[simp] theorem State.updFifo_mram (s : State) (k : Nat) (f : Fifo → Fifo) : (s.updFifo k f).mram = s.mram := rfl
@[simp] theorem State.updFifo_cfg (s : State) (k : Nat) (f : Fifo → Fifo) : (s.updFifo k f).cfg = s.cfg := rfl
@[simp] theorem State.updFifo_nap (s : State) (k : Nat) (f : Fifo → Fifo) : (s.updFifo k f).nap = s.nap := rfl
@[simp] theorem State.updFifo_cnt (s : State) (k : Nat) (f : Fifo → Fifo) : (s.updFifo k f).cnt = s.cnt := rfl
@[simp] theorem State.updFifo_fabric (s : State) (k : Nat) (f : Fifo → Fifo) : (s.updFifo k f).fabric = s.fabric := rfl
@[simp] theorem State.updFifo_ports (s : State) (k : Nat) (f : Fifo → Fifo) : (s.updFifo k f).ports = s.ports := rfl
@[simp] theorem State.updFifo_fdb (s : State) (k : Nat) (f : Fifo → Fifo) : (s.updFifo k f).fdb = s.fdb := rfl
@[simp] theorem State.updFifo_psfp (s : State) (k : Nat) (f : Fifo → Fifo) : (s.updFifo k f).psfp = s.psfp := rfl
@[simp] theorem State.updFifo_gates (s : State) (k : Nat) (f : Fifo → Fifo) : (s.updFifo k f).gates = s.gates := rfl
@[simp] theorem State.updFifo_dma (s : State) (k : Nat) (f : Fifo → Fifo) : (s.updFifo k f).dma = s.dma := rfl
@[simp] theorem State.updFifo_feeds (s : State) (k : Nat) (f : Fifo → Fifo) : (s.updFifo k f).feeds = s.feeds := rfl
@[simp] theorem State.updFifo_pair (s : State) (k : Nat) (f : Fifo → Fifo) : (s.updFifo k f).pair = s.pair := rfl
@[simp] theorem State.updFifo_linkDelay (s : State) (k : Nat) (f : Fifo → Fifo) : (s.updFifo k f).linkDelay = s.linkDelay := rfl
@[simp] theorem State.updFifo_frer (s : State) (k : Nat) (f : Fifo → Fifo) : (s.updFifo k f).frer = s.frer := rfl
@[simp] theorem State.updFifo_time (s : State) (k : Nat) (f : Fifo → Fifo) : (s.updFifo k f).time = s.time := rfl
@[simp] theorem State.updFifo_trig (s : State) (k : Nat) (f : Fifo → Fifo) : (s.updFifo k f).trig = s.trig := rfl
@[simp] theorem State.updFifo_herd (s : State) (k : Nat) (f : Fifo → Fifo) : (s.updFifo k f).herd = s.herd := rfl
@[simp] theorem State.updFifo_intc (s : State) (k : Nat) (f : Fifo → Fifo) : (s.updFifo k f).intc = s.intc := rfl
@[simp] theorem State.updFifo_faults (s : State) (k : Nat) (f : Fifo → Fifo) : (s.updFifo k f).faults = s.faults := rfl
@[simp] theorem State.updFifo_health (s : State) (k : Nat) (f : Fifo → Fifo) : (s.updFifo k f).health = s.health := rfl
@[simp] theorem State.updFifo_pcie (s : State) (k : Nat) (f : Fifo → Fifo) : (s.updFifo k f).pcie = s.pcie := rfl
@[simp] theorem State.updFifo_mem (s : State) (k : Nat) (f : Fifo → Fifo) : (s.updFifo k f).mem = s.mem := rfl
@[simp] theorem State.updFifo_pins (s : State) (k : Nat) (f : Fifo → Fifo) : (s.updFifo k f).pins = s.pins := rfl

/-! updWindow -/

@[simp] theorem State.updWindow_pending (s : State) (f : Nat) (g : Window → Window) : (s.updWindow f g).pending = s.pending := rfl
@[simp] theorem State.updWindow_cycle (s : State) (f : Nat) (g : Window → Window) : (s.updWindow f g).cycle = s.cycle := rfl
@[simp] theorem State.updWindow_free (s : State) (f : Nat) (g : Window → Window) : (s.updWindow f g).free = s.free := rfl
@[simp] theorem State.updWindow_out (s : State) (f : Nat) (g : Window → Window) : (s.updWindow f g).out = s.out := rfl
@[simp] theorem State.updWindow_hits (s : State) (f : Nat) (g : Window → Window) : (s.updWindow f g).hits = s.hits := rfl
@[simp] theorem State.updWindow_ident (s : State) (f : Nat) (g : Window → Window) : (s.updWindow f g).ident = s.ident := rfl
@[simp] theorem State.updWindow_chip (s : State) (f : Nat) (g : Window → Window) : (s.updWindow f g).chip = s.chip := rfl
@[simp] theorem State.updWindow_mram (s : State) (f : Nat) (g : Window → Window) : (s.updWindow f g).mram = s.mram := rfl
@[simp] theorem State.updWindow_cfg (s : State) (f : Nat) (g : Window → Window) : (s.updWindow f g).cfg = s.cfg := rfl
@[simp] theorem State.updWindow_cnt (s : State) (f : Nat) (g : Window → Window) : (s.updWindow f g).cnt = s.cnt := rfl
@[simp] theorem State.updWindow_fabric (s : State) (f : Nat) (g : Window → Window) : (s.updWindow f g).fabric = s.fabric := rfl
@[simp] theorem State.updWindow_ports (s : State) (f : Nat) (g : Window → Window) : (s.updWindow f g).ports = s.ports := rfl
@[simp] theorem State.updWindow_fdb (s : State) (f : Nat) (g : Window → Window) : (s.updWindow f g).fdb = s.fdb := rfl
@[simp] theorem State.updWindow_psfp (s : State) (f : Nat) (g : Window → Window) : (s.updWindow f g).psfp = s.psfp := rfl
@[simp] theorem State.updWindow_gates (s : State) (f : Nat) (g : Window → Window) : (s.updWindow f g).gates = s.gates := rfl
@[simp] theorem State.updWindow_tine (s : State) (f : Nat) (g : Window → Window) : (s.updWindow f g).tine = s.tine := rfl
@[simp] theorem State.updWindow_dma (s : State) (f : Nat) (g : Window → Window) : (s.updWindow f g).dma = s.dma := rfl
@[simp] theorem State.updWindow_feeds (s : State) (f : Nat) (g : Window → Window) : (s.updWindow f g).feeds = s.feeds := rfl
@[simp] theorem State.updWindow_pair (s : State) (f : Nat) (g : Window → Window) : (s.updWindow f g).pair = s.pair := rfl
@[simp] theorem State.updWindow_linkDelay (s : State) (f : Nat) (g : Window → Window) : (s.updWindow f g).linkDelay = s.linkDelay := rfl
@[simp] theorem State.updWindow_frer (s : State) (f : Nat) (g : Window → Window) : (s.updWindow f g).frer = s.frer := rfl
@[simp] theorem State.updWindow_time (s : State) (f : Nat) (g : Window → Window) : (s.updWindow f g).time = s.time := rfl
@[simp] theorem State.updWindow_trig (s : State) (f : Nat) (g : Window → Window) : (s.updWindow f g).trig = s.trig := rfl
@[simp] theorem State.updWindow_herd (s : State) (f : Nat) (g : Window → Window) : (s.updWindow f g).herd = s.herd := rfl
@[simp] theorem State.updWindow_intc (s : State) (f : Nat) (g : Window → Window) : (s.updWindow f g).intc = s.intc := rfl
@[simp] theorem State.updWindow_faults (s : State) (f : Nat) (g : Window → Window) : (s.updWindow f g).faults = s.faults := rfl
@[simp] theorem State.updWindow_health (s : State) (f : Nat) (g : Window → Window) : (s.updWindow f g).health = s.health := rfl
@[simp] theorem State.updWindow_pcie (s : State) (f : Nat) (g : Window → Window) : (s.updWindow f g).pcie = s.pcie := rfl
@[simp] theorem State.updWindow_mem (s : State) (f : Nat) (g : Window → Window) : (s.updWindow f g).mem = s.mem := rfl
@[simp] theorem State.updWindow_pins (s : State) (f : Nat) (g : Window → Window) : (s.updWindow f g).pins = s.pins := rfl

/-! updHealth -/

@[simp] theorem State.updHealth_pending (s : State) (f : Health → Health) : (s.updHealth f).pending = s.pending := rfl
@[simp] theorem State.updHealth_cycle (s : State) (f : Health → Health) : (s.updHealth f).cycle = s.cycle := rfl
@[simp] theorem State.updHealth_free (s : State) (f : Health → Health) : (s.updHealth f).free = s.free := rfl
@[simp] theorem State.updHealth_out (s : State) (f : Health → Health) : (s.updHealth f).out = s.out := rfl
@[simp] theorem State.updHealth_hits (s : State) (f : Health → Health) : (s.updHealth f).hits = s.hits := rfl
@[simp] theorem State.updHealth_ident (s : State) (f : Health → Health) : (s.updHealth f).ident = s.ident := rfl
@[simp] theorem State.updHealth_chip (s : State) (f : Health → Health) : (s.updHealth f).chip = s.chip := rfl
@[simp] theorem State.updHealth_mram (s : State) (f : Health → Health) : (s.updHealth f).mram = s.mram := rfl
@[simp] theorem State.updHealth_cfg (s : State) (f : Health → Health) : (s.updHealth f).cfg = s.cfg := rfl
@[simp] theorem State.updHealth_nap (s : State) (f : Health → Health) : (s.updHealth f).nap = s.nap := rfl
@[simp] theorem State.updHealth_cnt (s : State) (f : Health → Health) : (s.updHealth f).cnt = s.cnt := rfl
@[simp] theorem State.updHealth_fabric (s : State) (f : Health → Health) : (s.updHealth f).fabric = s.fabric := rfl
@[simp] theorem State.updHealth_ports (s : State) (f : Health → Health) : (s.updHealth f).ports = s.ports := rfl
@[simp] theorem State.updHealth_fdb (s : State) (f : Health → Health) : (s.updHealth f).fdb = s.fdb := rfl
@[simp] theorem State.updHealth_psfp (s : State) (f : Health → Health) : (s.updHealth f).psfp = s.psfp := rfl
@[simp] theorem State.updHealth_gates (s : State) (f : Health → Health) : (s.updHealth f).gates = s.gates := rfl
@[simp] theorem State.updHealth_tine (s : State) (f : Health → Health) : (s.updHealth f).tine = s.tine := rfl
@[simp] theorem State.updHealth_dma (s : State) (f : Health → Health) : (s.updHealth f).dma = s.dma := rfl
@[simp] theorem State.updHealth_feeds (s : State) (f : Health → Health) : (s.updHealth f).feeds = s.feeds := rfl
@[simp] theorem State.updHealth_pair (s : State) (f : Health → Health) : (s.updHealth f).pair = s.pair := rfl
@[simp] theorem State.updHealth_linkDelay (s : State) (f : Health → Health) : (s.updHealth f).linkDelay = s.linkDelay := rfl
@[simp] theorem State.updHealth_frer (s : State) (f : Health → Health) : (s.updHealth f).frer = s.frer := rfl
@[simp] theorem State.updHealth_time (s : State) (f : Health → Health) : (s.updHealth f).time = s.time := rfl
@[simp] theorem State.updHealth_trig (s : State) (f : Health → Health) : (s.updHealth f).trig = s.trig := rfl
@[simp] theorem State.updHealth_herd (s : State) (f : Health → Health) : (s.updHealth f).herd = s.herd := rfl
@[simp] theorem State.updHealth_intc (s : State) (f : Health → Health) : (s.updHealth f).intc = s.intc := rfl
@[simp] theorem State.updHealth_faults (s : State) (f : Health → Health) : (s.updHealth f).faults = s.faults := rfl
@[simp] theorem State.updHealth_pcie (s : State) (f : Health → Health) : (s.updHealth f).pcie = s.pcie := rfl
@[simp] theorem State.updHealth_mem (s : State) (f : Health → Health) : (s.updHealth f).mem = s.mem := rfl
@[simp] theorem State.updHealth_pins (s : State) (f : Health → Health) : (s.updHealth f).pins = s.pins := rfl

/-! updGate -/

@[simp] theorem State.updGate_pending (s : State) (p : Nat) (f : Gate → Gate) : (s.updGate p f).pending = s.pending := rfl
@[simp] theorem State.updGate_cycle (s : State) (p : Nat) (f : Gate → Gate) : (s.updGate p f).cycle = s.cycle := rfl
@[simp] theorem State.updGate_free (s : State) (p : Nat) (f : Gate → Gate) : (s.updGate p f).free = s.free := rfl
@[simp] theorem State.updGate_out (s : State) (p : Nat) (f : Gate → Gate) : (s.updGate p f).out = s.out := rfl
@[simp] theorem State.updGate_hits (s : State) (p : Nat) (f : Gate → Gate) : (s.updGate p f).hits = s.hits := rfl
@[simp] theorem State.updGate_ident (s : State) (p : Nat) (f : Gate → Gate) : (s.updGate p f).ident = s.ident := rfl
@[simp] theorem State.updGate_chip (s : State) (p : Nat) (f : Gate → Gate) : (s.updGate p f).chip = s.chip := rfl
@[simp] theorem State.updGate_mram (s : State) (p : Nat) (f : Gate → Gate) : (s.updGate p f).mram = s.mram := rfl
@[simp] theorem State.updGate_cfg (s : State) (p : Nat) (f : Gate → Gate) : (s.updGate p f).cfg = s.cfg := rfl
@[simp] theorem State.updGate_nap (s : State) (p : Nat) (f : Gate → Gate) : (s.updGate p f).nap = s.nap := rfl
@[simp] theorem State.updGate_cnt (s : State) (p : Nat) (f : Gate → Gate) : (s.updGate p f).cnt = s.cnt := rfl
@[simp] theorem State.updGate_fabric (s : State) (p : Nat) (f : Gate → Gate) : (s.updGate p f).fabric = s.fabric := rfl
@[simp] theorem State.updGate_ports (s : State) (p : Nat) (f : Gate → Gate) : (s.updGate p f).ports = s.ports := rfl
@[simp] theorem State.updGate_fdb (s : State) (p : Nat) (f : Gate → Gate) : (s.updGate p f).fdb = s.fdb := rfl
@[simp] theorem State.updGate_psfp (s : State) (p : Nat) (f : Gate → Gate) : (s.updGate p f).psfp = s.psfp := rfl
@[simp] theorem State.updGate_tine (s : State) (p : Nat) (f : Gate → Gate) : (s.updGate p f).tine = s.tine := rfl
@[simp] theorem State.updGate_dma (s : State) (p : Nat) (f : Gate → Gate) : (s.updGate p f).dma = s.dma := rfl
@[simp] theorem State.updGate_feeds (s : State) (p : Nat) (f : Gate → Gate) : (s.updGate p f).feeds = s.feeds := rfl
@[simp] theorem State.updGate_pair (s : State) (p : Nat) (f : Gate → Gate) : (s.updGate p f).pair = s.pair := rfl
@[simp] theorem State.updGate_linkDelay (s : State) (p : Nat) (f : Gate → Gate) : (s.updGate p f).linkDelay = s.linkDelay := rfl
@[simp] theorem State.updGate_frer (s : State) (p : Nat) (f : Gate → Gate) : (s.updGate p f).frer = s.frer := rfl
@[simp] theorem State.updGate_time (s : State) (p : Nat) (f : Gate → Gate) : (s.updGate p f).time = s.time := rfl
@[simp] theorem State.updGate_trig (s : State) (p : Nat) (f : Gate → Gate) : (s.updGate p f).trig = s.trig := rfl
@[simp] theorem State.updGate_herd (s : State) (p : Nat) (f : Gate → Gate) : (s.updGate p f).herd = s.herd := rfl
@[simp] theorem State.updGate_intc (s : State) (p : Nat) (f : Gate → Gate) : (s.updGate p f).intc = s.intc := rfl
@[simp] theorem State.updGate_faults (s : State) (p : Nat) (f : Gate → Gate) : (s.updGate p f).faults = s.faults := rfl
@[simp] theorem State.updGate_health (s : State) (p : Nat) (f : Gate → Gate) : (s.updGate p f).health = s.health := rfl
@[simp] theorem State.updGate_pcie (s : State) (p : Nat) (f : Gate → Gate) : (s.updGate p f).pcie = s.pcie := rfl
@[simp] theorem State.updGate_mem (s : State) (p : Nat) (f : Gate → Gate) : (s.updGate p f).mem = s.mem := rfl
@[simp] theorem State.updGate_pins (s : State) (p : Nat) (f : Gate → Gate) : (s.updGate p f).pins = s.pins := rfl

/-! updChan -/

@[simp] theorem State.updChan_pending (s : State) (c : Nat) (f : Chan → Chan) : (s.updChan c f).pending = s.pending := rfl
@[simp] theorem State.updChan_cycle (s : State) (c : Nat) (f : Chan → Chan) : (s.updChan c f).cycle = s.cycle := rfl
@[simp] theorem State.updChan_free (s : State) (c : Nat) (f : Chan → Chan) : (s.updChan c f).free = s.free := rfl
@[simp] theorem State.updChan_out (s : State) (c : Nat) (f : Chan → Chan) : (s.updChan c f).out = s.out := rfl
@[simp] theorem State.updChan_hits (s : State) (c : Nat) (f : Chan → Chan) : (s.updChan c f).hits = s.hits := rfl
@[simp] theorem State.updChan_ident (s : State) (c : Nat) (f : Chan → Chan) : (s.updChan c f).ident = s.ident := rfl
@[simp] theorem State.updChan_chip (s : State) (c : Nat) (f : Chan → Chan) : (s.updChan c f).chip = s.chip := rfl
@[simp] theorem State.updChan_mram (s : State) (c : Nat) (f : Chan → Chan) : (s.updChan c f).mram = s.mram := rfl
@[simp] theorem State.updChan_cfg (s : State) (c : Nat) (f : Chan → Chan) : (s.updChan c f).cfg = s.cfg := rfl
@[simp] theorem State.updChan_nap (s : State) (c : Nat) (f : Chan → Chan) : (s.updChan c f).nap = s.nap := rfl
@[simp] theorem State.updChan_cnt (s : State) (c : Nat) (f : Chan → Chan) : (s.updChan c f).cnt = s.cnt := rfl
@[simp] theorem State.updChan_fabric (s : State) (c : Nat) (f : Chan → Chan) : (s.updChan c f).fabric = s.fabric := rfl
@[simp] theorem State.updChan_ports (s : State) (c : Nat) (f : Chan → Chan) : (s.updChan c f).ports = s.ports := rfl
@[simp] theorem State.updChan_fdb (s : State) (c : Nat) (f : Chan → Chan) : (s.updChan c f).fdb = s.fdb := rfl
@[simp] theorem State.updChan_psfp (s : State) (c : Nat) (f : Chan → Chan) : (s.updChan c f).psfp = s.psfp := rfl
@[simp] theorem State.updChan_gates (s : State) (c : Nat) (f : Chan → Chan) : (s.updChan c f).gates = s.gates := rfl
@[simp] theorem State.updChan_tine (s : State) (c : Nat) (f : Chan → Chan) : (s.updChan c f).tine = s.tine := rfl
@[simp] theorem State.updChan_feeds (s : State) (c : Nat) (f : Chan → Chan) : (s.updChan c f).feeds = s.feeds := rfl
@[simp] theorem State.updChan_pair (s : State) (c : Nat) (f : Chan → Chan) : (s.updChan c f).pair = s.pair := rfl
@[simp] theorem State.updChan_linkDelay (s : State) (c : Nat) (f : Chan → Chan) : (s.updChan c f).linkDelay = s.linkDelay := rfl
@[simp] theorem State.updChan_frer (s : State) (c : Nat) (f : Chan → Chan) : (s.updChan c f).frer = s.frer := rfl
@[simp] theorem State.updChan_time (s : State) (c : Nat) (f : Chan → Chan) : (s.updChan c f).time = s.time := rfl
@[simp] theorem State.updChan_trig (s : State) (c : Nat) (f : Chan → Chan) : (s.updChan c f).trig = s.trig := rfl
@[simp] theorem State.updChan_herd (s : State) (c : Nat) (f : Chan → Chan) : (s.updChan c f).herd = s.herd := rfl
@[simp] theorem State.updChan_intc (s : State) (c : Nat) (f : Chan → Chan) : (s.updChan c f).intc = s.intc := rfl
@[simp] theorem State.updChan_faults (s : State) (c : Nat) (f : Chan → Chan) : (s.updChan c f).faults = s.faults := rfl
@[simp] theorem State.updChan_health (s : State) (c : Nat) (f : Chan → Chan) : (s.updChan c f).health = s.health := rfl
@[simp] theorem State.updChan_pcie (s : State) (c : Nat) (f : Chan → Chan) : (s.updChan c f).pcie = s.pcie := rfl
@[simp] theorem State.updChan_mem (s : State) (c : Nat) (f : Chan → Chan) : (s.updChan c f).mem = s.mem := rfl
@[simp] theorem State.updChan_pins (s : State) (c : Nat) (f : Chan → Chan) : (s.updChan c f).pins = s.pins := rfl

/-! updFin -/

@[simp] theorem State.updFin_pending (s : State) (c : Nat) (f : Fin → Fin) : (s.updFin c f).pending = s.pending := rfl
@[simp] theorem State.updFin_cycle (s : State) (c : Nat) (f : Fin → Fin) : (s.updFin c f).cycle = s.cycle := rfl
@[simp] theorem State.updFin_free (s : State) (c : Nat) (f : Fin → Fin) : (s.updFin c f).free = s.free := rfl
@[simp] theorem State.updFin_out (s : State) (c : Nat) (f : Fin → Fin) : (s.updFin c f).out = s.out := rfl
@[simp] theorem State.updFin_hits (s : State) (c : Nat) (f : Fin → Fin) : (s.updFin c f).hits = s.hits := rfl
@[simp] theorem State.updFin_ident (s : State) (c : Nat) (f : Fin → Fin) : (s.updFin c f).ident = s.ident := rfl
@[simp] theorem State.updFin_chip (s : State) (c : Nat) (f : Fin → Fin) : (s.updFin c f).chip = s.chip := rfl
@[simp] theorem State.updFin_mram (s : State) (c : Nat) (f : Fin → Fin) : (s.updFin c f).mram = s.mram := rfl
@[simp] theorem State.updFin_cfg (s : State) (c : Nat) (f : Fin → Fin) : (s.updFin c f).cfg = s.cfg := rfl
@[simp] theorem State.updFin_nap (s : State) (c : Nat) (f : Fin → Fin) : (s.updFin c f).nap = s.nap := rfl
@[simp] theorem State.updFin_cnt (s : State) (c : Nat) (f : Fin → Fin) : (s.updFin c f).cnt = s.cnt := rfl
@[simp] theorem State.updFin_fabric (s : State) (c : Nat) (f : Fin → Fin) : (s.updFin c f).fabric = s.fabric := rfl
@[simp] theorem State.updFin_ports (s : State) (c : Nat) (f : Fin → Fin) : (s.updFin c f).ports = s.ports := rfl
@[simp] theorem State.updFin_fdb (s : State) (c : Nat) (f : Fin → Fin) : (s.updFin c f).fdb = s.fdb := rfl
@[simp] theorem State.updFin_psfp (s : State) (c : Nat) (f : Fin → Fin) : (s.updFin c f).psfp = s.psfp := rfl
@[simp] theorem State.updFin_gates (s : State) (c : Nat) (f : Fin → Fin) : (s.updFin c f).gates = s.gates := rfl
@[simp] theorem State.updFin_tine (s : State) (c : Nat) (f : Fin → Fin) : (s.updFin c f).tine = s.tine := rfl
@[simp] theorem State.updFin_feeds (s : State) (c : Nat) (f : Fin → Fin) : (s.updFin c f).feeds = s.feeds := rfl
@[simp] theorem State.updFin_pair (s : State) (c : Nat) (f : Fin → Fin) : (s.updFin c f).pair = s.pair := rfl
@[simp] theorem State.updFin_linkDelay (s : State) (c : Nat) (f : Fin → Fin) : (s.updFin c f).linkDelay = s.linkDelay := rfl
@[simp] theorem State.updFin_frer (s : State) (c : Nat) (f : Fin → Fin) : (s.updFin c f).frer = s.frer := rfl
@[simp] theorem State.updFin_time (s : State) (c : Nat) (f : Fin → Fin) : (s.updFin c f).time = s.time := rfl
@[simp] theorem State.updFin_trig (s : State) (c : Nat) (f : Fin → Fin) : (s.updFin c f).trig = s.trig := rfl
@[simp] theorem State.updFin_herd (s : State) (c : Nat) (f : Fin → Fin) : (s.updFin c f).herd = s.herd := rfl
@[simp] theorem State.updFin_intc (s : State) (c : Nat) (f : Fin → Fin) : (s.updFin c f).intc = s.intc := rfl
@[simp] theorem State.updFin_faults (s : State) (c : Nat) (f : Fin → Fin) : (s.updFin c f).faults = s.faults := rfl
@[simp] theorem State.updFin_health (s : State) (c : Nat) (f : Fin → Fin) : (s.updFin c f).health = s.health := rfl
@[simp] theorem State.updFin_pcie (s : State) (c : Nat) (f : Fin → Fin) : (s.updFin c f).pcie = s.pcie := rfl
@[simp] theorem State.updFin_mem (s : State) (c : Nat) (f : Fin → Fin) : (s.updFin c f).mem = s.mem := rfl
@[simp] theorem State.updFin_pins (s : State) (c : Nat) (f : Fin → Fin) : (s.updFin c f).pins = s.pins := rfl

/-! updKey -/

@[simp] theorem State.updKey_pending (s : State) (k : Nat) (f : KeyRec → KeyRec) : (s.updKey k f).pending = s.pending := rfl
@[simp] theorem State.updKey_cycle (s : State) (k : Nat) (f : KeyRec → KeyRec) : (s.updKey k f).cycle = s.cycle := rfl
@[simp] theorem State.updKey_free (s : State) (k : Nat) (f : KeyRec → KeyRec) : (s.updKey k f).free = s.free := rfl
@[simp] theorem State.updKey_out (s : State) (k : Nat) (f : KeyRec → KeyRec) : (s.updKey k f).out = s.out := rfl
@[simp] theorem State.updKey_hits (s : State) (k : Nat) (f : KeyRec → KeyRec) : (s.updKey k f).hits = s.hits := rfl
@[simp] theorem State.updKey_ident (s : State) (k : Nat) (f : KeyRec → KeyRec) : (s.updKey k f).ident = s.ident := rfl
@[simp] theorem State.updKey_chip (s : State) (k : Nat) (f : KeyRec → KeyRec) : (s.updKey k f).chip = s.chip := rfl
@[simp] theorem State.updKey_cfg (s : State) (k : Nat) (f : KeyRec → KeyRec) : (s.updKey k f).cfg = s.cfg := rfl
@[simp] theorem State.updKey_nap (s : State) (k : Nat) (f : KeyRec → KeyRec) : (s.updKey k f).nap = s.nap := rfl
@[simp] theorem State.updKey_cnt (s : State) (k : Nat) (f : KeyRec → KeyRec) : (s.updKey k f).cnt = s.cnt := rfl
@[simp] theorem State.updKey_fabric (s : State) (k : Nat) (f : KeyRec → KeyRec) : (s.updKey k f).fabric = s.fabric := rfl
@[simp] theorem State.updKey_ports (s : State) (k : Nat) (f : KeyRec → KeyRec) : (s.updKey k f).ports = s.ports := rfl
@[simp] theorem State.updKey_fdb (s : State) (k : Nat) (f : KeyRec → KeyRec) : (s.updKey k f).fdb = s.fdb := rfl
@[simp] theorem State.updKey_psfp (s : State) (k : Nat) (f : KeyRec → KeyRec) : (s.updKey k f).psfp = s.psfp := rfl
@[simp] theorem State.updKey_gates (s : State) (k : Nat) (f : KeyRec → KeyRec) : (s.updKey k f).gates = s.gates := rfl
@[simp] theorem State.updKey_tine (s : State) (k : Nat) (f : KeyRec → KeyRec) : (s.updKey k f).tine = s.tine := rfl
@[simp] theorem State.updKey_dma (s : State) (k : Nat) (f : KeyRec → KeyRec) : (s.updKey k f).dma = s.dma := rfl
@[simp] theorem State.updKey_feeds (s : State) (k : Nat) (f : KeyRec → KeyRec) : (s.updKey k f).feeds = s.feeds := rfl
@[simp] theorem State.updKey_pair (s : State) (k : Nat) (f : KeyRec → KeyRec) : (s.updKey k f).pair = s.pair := rfl
@[simp] theorem State.updKey_linkDelay (s : State) (k : Nat) (f : KeyRec → KeyRec) : (s.updKey k f).linkDelay = s.linkDelay := rfl
@[simp] theorem State.updKey_frer (s : State) (k : Nat) (f : KeyRec → KeyRec) : (s.updKey k f).frer = s.frer := rfl
@[simp] theorem State.updKey_time (s : State) (k : Nat) (f : KeyRec → KeyRec) : (s.updKey k f).time = s.time := rfl
@[simp] theorem State.updKey_trig (s : State) (k : Nat) (f : KeyRec → KeyRec) : (s.updKey k f).trig = s.trig := rfl
@[simp] theorem State.updKey_herd (s : State) (k : Nat) (f : KeyRec → KeyRec) : (s.updKey k f).herd = s.herd := rfl
@[simp] theorem State.updKey_intc (s : State) (k : Nat) (f : KeyRec → KeyRec) : (s.updKey k f).intc = s.intc := rfl
@[simp] theorem State.updKey_faults (s : State) (k : Nat) (f : KeyRec → KeyRec) : (s.updKey k f).faults = s.faults := rfl
@[simp] theorem State.updKey_health (s : State) (k : Nat) (f : KeyRec → KeyRec) : (s.updKey k f).health = s.health := rfl
@[simp] theorem State.updKey_pcie (s : State) (k : Nat) (f : KeyRec → KeyRec) : (s.updKey k f).pcie = s.pcie := rfl
@[simp] theorem State.updKey_mem (s : State) (k : Nat) (f : KeyRec → KeyRec) : (s.updKey k f).mem = s.mem := rfl
@[simp] theorem State.updKey_pins (s : State) (k : Nat) (f : KeyRec → KeyRec) : (s.updKey k f).pins = s.pins := rfl

/-! putInflight -/

@[simp] theorem State.putInflight_pending (s : State) (id : Nat) (f : Inflight) : (s.putInflight id f).pending = s.pending := rfl
@[simp] theorem State.putInflight_cycle (s : State) (id : Nat) (f : Inflight) : (s.putInflight id f).cycle = s.cycle := rfl
@[simp] theorem State.putInflight_free (s : State) (id : Nat) (f : Inflight) : (s.putInflight id f).free = s.free := rfl
@[simp] theorem State.putInflight_out (s : State) (id : Nat) (f : Inflight) : (s.putInflight id f).out = s.out := rfl
@[simp] theorem State.putInflight_hits (s : State) (id : Nat) (f : Inflight) : (s.putInflight id f).hits = s.hits := rfl
@[simp] theorem State.putInflight_ident (s : State) (id : Nat) (f : Inflight) : (s.putInflight id f).ident = s.ident := rfl
@[simp] theorem State.putInflight_chip (s : State) (id : Nat) (f : Inflight) : (s.putInflight id f).chip = s.chip := rfl
@[simp] theorem State.putInflight_mram (s : State) (id : Nat) (f : Inflight) : (s.putInflight id f).mram = s.mram := rfl
@[simp] theorem State.putInflight_cfg (s : State) (id : Nat) (f : Inflight) : (s.putInflight id f).cfg = s.cfg := rfl
@[simp] theorem State.putInflight_nap (s : State) (id : Nat) (f : Inflight) : (s.putInflight id f).nap = s.nap := rfl
@[simp] theorem State.putInflight_cnt (s : State) (id : Nat) (f : Inflight) : (s.putInflight id f).cnt = s.cnt := rfl
@[simp] theorem State.putInflight_ports (s : State) (id : Nat) (f : Inflight) : (s.putInflight id f).ports = s.ports := rfl
@[simp] theorem State.putInflight_fdb (s : State) (id : Nat) (f : Inflight) : (s.putInflight id f).fdb = s.fdb := rfl
@[simp] theorem State.putInflight_psfp (s : State) (id : Nat) (f : Inflight) : (s.putInflight id f).psfp = s.psfp := rfl
@[simp] theorem State.putInflight_gates (s : State) (id : Nat) (f : Inflight) : (s.putInflight id f).gates = s.gates := rfl
@[simp] theorem State.putInflight_tine (s : State) (id : Nat) (f : Inflight) : (s.putInflight id f).tine = s.tine := rfl
@[simp] theorem State.putInflight_dma (s : State) (id : Nat) (f : Inflight) : (s.putInflight id f).dma = s.dma := rfl
@[simp] theorem State.putInflight_feeds (s : State) (id : Nat) (f : Inflight) : (s.putInflight id f).feeds = s.feeds := rfl
@[simp] theorem State.putInflight_pair (s : State) (id : Nat) (f : Inflight) : (s.putInflight id f).pair = s.pair := rfl
@[simp] theorem State.putInflight_linkDelay (s : State) (id : Nat) (f : Inflight) : (s.putInflight id f).linkDelay = s.linkDelay := rfl
@[simp] theorem State.putInflight_frer (s : State) (id : Nat) (f : Inflight) : (s.putInflight id f).frer = s.frer := rfl
@[simp] theorem State.putInflight_time (s : State) (id : Nat) (f : Inflight) : (s.putInflight id f).time = s.time := rfl
@[simp] theorem State.putInflight_trig (s : State) (id : Nat) (f : Inflight) : (s.putInflight id f).trig = s.trig := rfl
@[simp] theorem State.putInflight_herd (s : State) (id : Nat) (f : Inflight) : (s.putInflight id f).herd = s.herd := rfl
@[simp] theorem State.putInflight_intc (s : State) (id : Nat) (f : Inflight) : (s.putInflight id f).intc = s.intc := rfl
@[simp] theorem State.putInflight_faults (s : State) (id : Nat) (f : Inflight) : (s.putInflight id f).faults = s.faults := rfl
@[simp] theorem State.putInflight_health (s : State) (id : Nat) (f : Inflight) : (s.putInflight id f).health = s.health := rfl
@[simp] theorem State.putInflight_pcie (s : State) (id : Nat) (f : Inflight) : (s.putInflight id f).pcie = s.pcie := rfl
@[simp] theorem State.putInflight_mem (s : State) (id : Nat) (f : Inflight) : (s.putInflight id f).mem = s.mem := rfl
@[simp] theorem State.putInflight_pins (s : State) (id : Nat) (f : Inflight) : (s.putInflight id f).pins = s.pins := rfl

/-! updPcie -/

@[simp] theorem State.updPcie_pending (s : State) (f : Pcie → Pcie) : (s.updPcie f).pending = s.pending := rfl
@[simp] theorem State.updPcie_cycle (s : State) (f : Pcie → Pcie) : (s.updPcie f).cycle = s.cycle := rfl
@[simp] theorem State.updPcie_free (s : State) (f : Pcie → Pcie) : (s.updPcie f).free = s.free := rfl
@[simp] theorem State.updPcie_out (s : State) (f : Pcie → Pcie) : (s.updPcie f).out = s.out := rfl
@[simp] theorem State.updPcie_hits (s : State) (f : Pcie → Pcie) : (s.updPcie f).hits = s.hits := rfl
@[simp] theorem State.updPcie_ident (s : State) (f : Pcie → Pcie) : (s.updPcie f).ident = s.ident := rfl
@[simp] theorem State.updPcie_chip (s : State) (f : Pcie → Pcie) : (s.updPcie f).chip = s.chip := rfl
@[simp] theorem State.updPcie_mram (s : State) (f : Pcie → Pcie) : (s.updPcie f).mram = s.mram := rfl
@[simp] theorem State.updPcie_cfg (s : State) (f : Pcie → Pcie) : (s.updPcie f).cfg = s.cfg := rfl
@[simp] theorem State.updPcie_nap (s : State) (f : Pcie → Pcie) : (s.updPcie f).nap = s.nap := rfl
@[simp] theorem State.updPcie_cnt (s : State) (f : Pcie → Pcie) : (s.updPcie f).cnt = s.cnt := rfl
@[simp] theorem State.updPcie_fabric (s : State) (f : Pcie → Pcie) : (s.updPcie f).fabric = s.fabric := rfl
@[simp] theorem State.updPcie_ports (s : State) (f : Pcie → Pcie) : (s.updPcie f).ports = s.ports := rfl
@[simp] theorem State.updPcie_fdb (s : State) (f : Pcie → Pcie) : (s.updPcie f).fdb = s.fdb := rfl
@[simp] theorem State.updPcie_psfp (s : State) (f : Pcie → Pcie) : (s.updPcie f).psfp = s.psfp := rfl
@[simp] theorem State.updPcie_gates (s : State) (f : Pcie → Pcie) : (s.updPcie f).gates = s.gates := rfl
@[simp] theorem State.updPcie_tine (s : State) (f : Pcie → Pcie) : (s.updPcie f).tine = s.tine := rfl
@[simp] theorem State.updPcie_dma (s : State) (f : Pcie → Pcie) : (s.updPcie f).dma = s.dma := rfl
@[simp] theorem State.updPcie_feeds (s : State) (f : Pcie → Pcie) : (s.updPcie f).feeds = s.feeds := rfl
@[simp] theorem State.updPcie_pair (s : State) (f : Pcie → Pcie) : (s.updPcie f).pair = s.pair := rfl
@[simp] theorem State.updPcie_linkDelay (s : State) (f : Pcie → Pcie) : (s.updPcie f).linkDelay = s.linkDelay := rfl
@[simp] theorem State.updPcie_frer (s : State) (f : Pcie → Pcie) : (s.updPcie f).frer = s.frer := rfl
@[simp] theorem State.updPcie_time (s : State) (f : Pcie → Pcie) : (s.updPcie f).time = s.time := rfl
@[simp] theorem State.updPcie_trig (s : State) (f : Pcie → Pcie) : (s.updPcie f).trig = s.trig := rfl
@[simp] theorem State.updPcie_herd (s : State) (f : Pcie → Pcie) : (s.updPcie f).herd = s.herd := rfl
@[simp] theorem State.updPcie_intc (s : State) (f : Pcie → Pcie) : (s.updPcie f).intc = s.intc := rfl
@[simp] theorem State.updPcie_faults (s : State) (f : Pcie → Pcie) : (s.updPcie f).faults = s.faults := rfl
@[simp] theorem State.updPcie_health (s : State) (f : Pcie → Pcie) : (s.updPcie f).health = s.health := rfl
@[simp] theorem State.updPcie_mem (s : State) (f : Pcie → Pcie) : (s.updPcie f).mem = s.mem := rfl
@[simp] theorem State.updPcie_pins (s : State) (f : Pcie → Pcie) : (s.updPcie f).pins = s.pins := rfl

/-! updMbox -/

@[simp] theorem State.updMbox_pending (s : State) (f : Nat) (g : Mailbox → Mailbox) : (s.updMbox f g).pending = s.pending := rfl
@[simp] theorem State.updMbox_cycle (s : State) (f : Nat) (g : Mailbox → Mailbox) : (s.updMbox f g).cycle = s.cycle := rfl
@[simp] theorem State.updMbox_free (s : State) (f : Nat) (g : Mailbox → Mailbox) : (s.updMbox f g).free = s.free := rfl
@[simp] theorem State.updMbox_out (s : State) (f : Nat) (g : Mailbox → Mailbox) : (s.updMbox f g).out = s.out := rfl
@[simp] theorem State.updMbox_hits (s : State) (f : Nat) (g : Mailbox → Mailbox) : (s.updMbox f g).hits = s.hits := rfl
@[simp] theorem State.updMbox_ident (s : State) (f : Nat) (g : Mailbox → Mailbox) : (s.updMbox f g).ident = s.ident := rfl
@[simp] theorem State.updMbox_chip (s : State) (f : Nat) (g : Mailbox → Mailbox) : (s.updMbox f g).chip = s.chip := rfl
@[simp] theorem State.updMbox_mram (s : State) (f : Nat) (g : Mailbox → Mailbox) : (s.updMbox f g).mram = s.mram := rfl
@[simp] theorem State.updMbox_cfg (s : State) (f : Nat) (g : Mailbox → Mailbox) : (s.updMbox f g).cfg = s.cfg := rfl
@[simp] theorem State.updMbox_cnt (s : State) (f : Nat) (g : Mailbox → Mailbox) : (s.updMbox f g).cnt = s.cnt := rfl
@[simp] theorem State.updMbox_fabric (s : State) (f : Nat) (g : Mailbox → Mailbox) : (s.updMbox f g).fabric = s.fabric := rfl
@[simp] theorem State.updMbox_ports (s : State) (f : Nat) (g : Mailbox → Mailbox) : (s.updMbox f g).ports = s.ports := rfl
@[simp] theorem State.updMbox_fdb (s : State) (f : Nat) (g : Mailbox → Mailbox) : (s.updMbox f g).fdb = s.fdb := rfl
@[simp] theorem State.updMbox_psfp (s : State) (f : Nat) (g : Mailbox → Mailbox) : (s.updMbox f g).psfp = s.psfp := rfl
@[simp] theorem State.updMbox_gates (s : State) (f : Nat) (g : Mailbox → Mailbox) : (s.updMbox f g).gates = s.gates := rfl
@[simp] theorem State.updMbox_tine (s : State) (f : Nat) (g : Mailbox → Mailbox) : (s.updMbox f g).tine = s.tine := rfl
@[simp] theorem State.updMbox_dma (s : State) (f : Nat) (g : Mailbox → Mailbox) : (s.updMbox f g).dma = s.dma := rfl
@[simp] theorem State.updMbox_feeds (s : State) (f : Nat) (g : Mailbox → Mailbox) : (s.updMbox f g).feeds = s.feeds := rfl
@[simp] theorem State.updMbox_pair (s : State) (f : Nat) (g : Mailbox → Mailbox) : (s.updMbox f g).pair = s.pair := rfl
@[simp] theorem State.updMbox_linkDelay (s : State) (f : Nat) (g : Mailbox → Mailbox) : (s.updMbox f g).linkDelay = s.linkDelay := rfl
@[simp] theorem State.updMbox_frer (s : State) (f : Nat) (g : Mailbox → Mailbox) : (s.updMbox f g).frer = s.frer := rfl
@[simp] theorem State.updMbox_time (s : State) (f : Nat) (g : Mailbox → Mailbox) : (s.updMbox f g).time = s.time := rfl
@[simp] theorem State.updMbox_trig (s : State) (f : Nat) (g : Mailbox → Mailbox) : (s.updMbox f g).trig = s.trig := rfl
@[simp] theorem State.updMbox_herd (s : State) (f : Nat) (g : Mailbox → Mailbox) : (s.updMbox f g).herd = s.herd := rfl
@[simp] theorem State.updMbox_intc (s : State) (f : Nat) (g : Mailbox → Mailbox) : (s.updMbox f g).intc = s.intc := rfl
@[simp] theorem State.updMbox_faults (s : State) (f : Nat) (g : Mailbox → Mailbox) : (s.updMbox f g).faults = s.faults := rfl
@[simp] theorem State.updMbox_health (s : State) (f : Nat) (g : Mailbox → Mailbox) : (s.updMbox f g).health = s.health := rfl
@[simp] theorem State.updMbox_pcie (s : State) (f : Nat) (g : Mailbox → Mailbox) : (s.updMbox f g).pcie = s.pcie := rfl
@[simp] theorem State.updMbox_mem (s : State) (f : Nat) (g : Mailbox → Mailbox) : (s.updMbox f g).mem = s.mem := rfl
@[simp] theorem State.updMbox_pins (s : State) (f : Nat) (g : Mailbox → Mailbox) : (s.updMbox f g).pins = s.pins := rfl

/-! updXp -/

@[simp] theorem State.updXp_pending (s : State) (x : Nat) (f : XPoint → XPoint) : (s.updXp x f).pending = s.pending := rfl
@[simp] theorem State.updXp_cycle (s : State) (x : Nat) (f : XPoint → XPoint) : (s.updXp x f).cycle = s.cycle := rfl
@[simp] theorem State.updXp_free (s : State) (x : Nat) (f : XPoint → XPoint) : (s.updXp x f).free = s.free := rfl
@[simp] theorem State.updXp_out (s : State) (x : Nat) (f : XPoint → XPoint) : (s.updXp x f).out = s.out := rfl
@[simp] theorem State.updXp_hits (s : State) (x : Nat) (f : XPoint → XPoint) : (s.updXp x f).hits = s.hits := rfl
@[simp] theorem State.updXp_ident (s : State) (x : Nat) (f : XPoint → XPoint) : (s.updXp x f).ident = s.ident := rfl
@[simp] theorem State.updXp_chip (s : State) (x : Nat) (f : XPoint → XPoint) : (s.updXp x f).chip = s.chip := rfl
@[simp] theorem State.updXp_mram (s : State) (x : Nat) (f : XPoint → XPoint) : (s.updXp x f).mram = s.mram := rfl
@[simp] theorem State.updXp_cfg (s : State) (x : Nat) (f : XPoint → XPoint) : (s.updXp x f).cfg = s.cfg := rfl
@[simp] theorem State.updXp_nap (s : State) (x : Nat) (f : XPoint → XPoint) : (s.updXp x f).nap = s.nap := rfl
@[simp] theorem State.updXp_cnt (s : State) (x : Nat) (f : XPoint → XPoint) : (s.updXp x f).cnt = s.cnt := rfl
@[simp] theorem State.updXp_ports (s : State) (x : Nat) (f : XPoint → XPoint) : (s.updXp x f).ports = s.ports := rfl
@[simp] theorem State.updXp_fdb (s : State) (x : Nat) (f : XPoint → XPoint) : (s.updXp x f).fdb = s.fdb := rfl
@[simp] theorem State.updXp_psfp (s : State) (x : Nat) (f : XPoint → XPoint) : (s.updXp x f).psfp = s.psfp := rfl
@[simp] theorem State.updXp_gates (s : State) (x : Nat) (f : XPoint → XPoint) : (s.updXp x f).gates = s.gates := rfl
@[simp] theorem State.updXp_tine (s : State) (x : Nat) (f : XPoint → XPoint) : (s.updXp x f).tine = s.tine := rfl
@[simp] theorem State.updXp_dma (s : State) (x : Nat) (f : XPoint → XPoint) : (s.updXp x f).dma = s.dma := rfl
@[simp] theorem State.updXp_feeds (s : State) (x : Nat) (f : XPoint → XPoint) : (s.updXp x f).feeds = s.feeds := rfl
@[simp] theorem State.updXp_pair (s : State) (x : Nat) (f : XPoint → XPoint) : (s.updXp x f).pair = s.pair := rfl
@[simp] theorem State.updXp_linkDelay (s : State) (x : Nat) (f : XPoint → XPoint) : (s.updXp x f).linkDelay = s.linkDelay := rfl
@[simp] theorem State.updXp_frer (s : State) (x : Nat) (f : XPoint → XPoint) : (s.updXp x f).frer = s.frer := rfl
@[simp] theorem State.updXp_time (s : State) (x : Nat) (f : XPoint → XPoint) : (s.updXp x f).time = s.time := rfl
@[simp] theorem State.updXp_trig (s : State) (x : Nat) (f : XPoint → XPoint) : (s.updXp x f).trig = s.trig := rfl
@[simp] theorem State.updXp_herd (s : State) (x : Nat) (f : XPoint → XPoint) : (s.updXp x f).herd = s.herd := rfl
@[simp] theorem State.updXp_intc (s : State) (x : Nat) (f : XPoint → XPoint) : (s.updXp x f).intc = s.intc := rfl
@[simp] theorem State.updXp_faults (s : State) (x : Nat) (f : XPoint → XPoint) : (s.updXp x f).faults = s.faults := rfl
@[simp] theorem State.updXp_health (s : State) (x : Nat) (f : XPoint → XPoint) : (s.updXp x f).health = s.health := rfl
@[simp] theorem State.updXp_pcie (s : State) (x : Nat) (f : XPoint → XPoint) : (s.updXp x f).pcie = s.pcie := rfl
@[simp] theorem State.updXp_mem (s : State) (x : Nat) (f : XPoint → XPoint) : (s.updXp x f).mem = s.mem := rfl
@[simp] theorem State.updXp_pins (s : State) (x : Nat) (f : XPoint → XPoint) : (s.updXp x f).pins = s.pins := rfl

/-! updQueue -/

@[simp] theorem State.updQueue_pending (s : State) (port tc : Nat) (f : Queue → Queue) : (s.updQueue port tc f).pending = s.pending := rfl
@[simp] theorem State.updQueue_cycle (s : State) (port tc : Nat) (f : Queue → Queue) : (s.updQueue port tc f).cycle = s.cycle := rfl
@[simp] theorem State.updQueue_free (s : State) (port tc : Nat) (f : Queue → Queue) : (s.updQueue port tc f).free = s.free := rfl
@[simp] theorem State.updQueue_out (s : State) (port tc : Nat) (f : Queue → Queue) : (s.updQueue port tc f).out = s.out := rfl
@[simp] theorem State.updQueue_hits (s : State) (port tc : Nat) (f : Queue → Queue) : (s.updQueue port tc f).hits = s.hits := rfl
@[simp] theorem State.updQueue_ident (s : State) (port tc : Nat) (f : Queue → Queue) : (s.updQueue port tc f).ident = s.ident := rfl
@[simp] theorem State.updQueue_chip (s : State) (port tc : Nat) (f : Queue → Queue) : (s.updQueue port tc f).chip = s.chip := rfl
@[simp] theorem State.updQueue_mram (s : State) (port tc : Nat) (f : Queue → Queue) : (s.updQueue port tc f).mram = s.mram := rfl
@[simp] theorem State.updQueue_cfg (s : State) (port tc : Nat) (f : Queue → Queue) : (s.updQueue port tc f).cfg = s.cfg := rfl
@[simp] theorem State.updQueue_nap (s : State) (port tc : Nat) (f : Queue → Queue) : (s.updQueue port tc f).nap = s.nap := rfl
@[simp] theorem State.updQueue_cnt (s : State) (port tc : Nat) (f : Queue → Queue) : (s.updQueue port tc f).cnt = s.cnt := rfl
@[simp] theorem State.updQueue_ports (s : State) (port tc : Nat) (f : Queue → Queue) : (s.updQueue port tc f).ports = s.ports := rfl
@[simp] theorem State.updQueue_fdb (s : State) (port tc : Nat) (f : Queue → Queue) : (s.updQueue port tc f).fdb = s.fdb := rfl
@[simp] theorem State.updQueue_psfp (s : State) (port tc : Nat) (f : Queue → Queue) : (s.updQueue port tc f).psfp = s.psfp := rfl
@[simp] theorem State.updQueue_gates (s : State) (port tc : Nat) (f : Queue → Queue) : (s.updQueue port tc f).gates = s.gates := rfl
@[simp] theorem State.updQueue_tine (s : State) (port tc : Nat) (f : Queue → Queue) : (s.updQueue port tc f).tine = s.tine := rfl
@[simp] theorem State.updQueue_dma (s : State) (port tc : Nat) (f : Queue → Queue) : (s.updQueue port tc f).dma = s.dma := rfl
@[simp] theorem State.updQueue_feeds (s : State) (port tc : Nat) (f : Queue → Queue) : (s.updQueue port tc f).feeds = s.feeds := rfl
@[simp] theorem State.updQueue_pair (s : State) (port tc : Nat) (f : Queue → Queue) : (s.updQueue port tc f).pair = s.pair := rfl
@[simp] theorem State.updQueue_linkDelay (s : State) (port tc : Nat) (f : Queue → Queue) : (s.updQueue port tc f).linkDelay = s.linkDelay := rfl
@[simp] theorem State.updQueue_frer (s : State) (port tc : Nat) (f : Queue → Queue) : (s.updQueue port tc f).frer = s.frer := rfl
@[simp] theorem State.updQueue_time (s : State) (port tc : Nat) (f : Queue → Queue) : (s.updQueue port tc f).time = s.time := rfl
@[simp] theorem State.updQueue_trig (s : State) (port tc : Nat) (f : Queue → Queue) : (s.updQueue port tc f).trig = s.trig := rfl
@[simp] theorem State.updQueue_herd (s : State) (port tc : Nat) (f : Queue → Queue) : (s.updQueue port tc f).herd = s.herd := rfl
@[simp] theorem State.updQueue_intc (s : State) (port tc : Nat) (f : Queue → Queue) : (s.updQueue port tc f).intc = s.intc := rfl
@[simp] theorem State.updQueue_faults (s : State) (port tc : Nat) (f : Queue → Queue) : (s.updQueue port tc f).faults = s.faults := rfl
@[simp] theorem State.updQueue_health (s : State) (port tc : Nat) (f : Queue → Queue) : (s.updQueue port tc f).health = s.health := rfl
@[simp] theorem State.updQueue_pcie (s : State) (port tc : Nat) (f : Queue → Queue) : (s.updQueue port tc f).pcie = s.pcie := rfl
@[simp] theorem State.updQueue_mem (s : State) (port tc : Nat) (f : Queue → Queue) : (s.updQueue port tc f).mem = s.mem := rfl
@[simp] theorem State.updQueue_pins (s : State) (port tc : Nat) (f : Queue → Queue) : (s.updQueue port tc f).pins = s.pins := rfl

/-! updFeeds -/

@[simp] theorem State.updFeeds_pending (s : State) (f : Feeds → Feeds) : (s.updFeeds f).pending = s.pending := rfl
@[simp] theorem State.updFeeds_cycle (s : State) (f : Feeds → Feeds) : (s.updFeeds f).cycle = s.cycle := rfl
@[simp] theorem State.updFeeds_free (s : State) (f : Feeds → Feeds) : (s.updFeeds f).free = s.free := rfl
@[simp] theorem State.updFeeds_out (s : State) (f : Feeds → Feeds) : (s.updFeeds f).out = s.out := rfl
@[simp] theorem State.updFeeds_hits (s : State) (f : Feeds → Feeds) : (s.updFeeds f).hits = s.hits := rfl
@[simp] theorem State.updFeeds_ident (s : State) (f : Feeds → Feeds) : (s.updFeeds f).ident = s.ident := rfl
@[simp] theorem State.updFeeds_chip (s : State) (f : Feeds → Feeds) : (s.updFeeds f).chip = s.chip := rfl
@[simp] theorem State.updFeeds_mram (s : State) (f : Feeds → Feeds) : (s.updFeeds f).mram = s.mram := rfl
@[simp] theorem State.updFeeds_cfg (s : State) (f : Feeds → Feeds) : (s.updFeeds f).cfg = s.cfg := rfl
@[simp] theorem State.updFeeds_nap (s : State) (f : Feeds → Feeds) : (s.updFeeds f).nap = s.nap := rfl
@[simp] theorem State.updFeeds_cnt (s : State) (f : Feeds → Feeds) : (s.updFeeds f).cnt = s.cnt := rfl
@[simp] theorem State.updFeeds_fabric (s : State) (f : Feeds → Feeds) : (s.updFeeds f).fabric = s.fabric := rfl
@[simp] theorem State.updFeeds_ports (s : State) (f : Feeds → Feeds) : (s.updFeeds f).ports = s.ports := rfl
@[simp] theorem State.updFeeds_fdb (s : State) (f : Feeds → Feeds) : (s.updFeeds f).fdb = s.fdb := rfl
@[simp] theorem State.updFeeds_psfp (s : State) (f : Feeds → Feeds) : (s.updFeeds f).psfp = s.psfp := rfl
@[simp] theorem State.updFeeds_gates (s : State) (f : Feeds → Feeds) : (s.updFeeds f).gates = s.gates := rfl
@[simp] theorem State.updFeeds_tine (s : State) (f : Feeds → Feeds) : (s.updFeeds f).tine = s.tine := rfl
@[simp] theorem State.updFeeds_dma (s : State) (f : Feeds → Feeds) : (s.updFeeds f).dma = s.dma := rfl
@[simp] theorem State.updFeeds_pair (s : State) (f : Feeds → Feeds) : (s.updFeeds f).pair = s.pair := rfl
@[simp] theorem State.updFeeds_linkDelay (s : State) (f : Feeds → Feeds) : (s.updFeeds f).linkDelay = s.linkDelay := rfl
@[simp] theorem State.updFeeds_frer (s : State) (f : Feeds → Feeds) : (s.updFeeds f).frer = s.frer := rfl
@[simp] theorem State.updFeeds_time (s : State) (f : Feeds → Feeds) : (s.updFeeds f).time = s.time := rfl
@[simp] theorem State.updFeeds_trig (s : State) (f : Feeds → Feeds) : (s.updFeeds f).trig = s.trig := rfl
@[simp] theorem State.updFeeds_herd (s : State) (f : Feeds → Feeds) : (s.updFeeds f).herd = s.herd := rfl
@[simp] theorem State.updFeeds_intc (s : State) (f : Feeds → Feeds) : (s.updFeeds f).intc = s.intc := rfl
@[simp] theorem State.updFeeds_faults (s : State) (f : Feeds → Feeds) : (s.updFeeds f).faults = s.faults := rfl
@[simp] theorem State.updFeeds_health (s : State) (f : Feeds → Feeds) : (s.updFeeds f).health = s.health := rfl
@[simp] theorem State.updFeeds_pcie (s : State) (f : Feeds → Feeds) : (s.updFeeds f).pcie = s.pcie := rfl
@[simp] theorem State.updFeeds_mem (s : State) (f : Feeds → Feeds) : (s.updFeeds f).mem = s.mem := rfl
@[simp] theorem State.updFeeds_pins (s : State) (f : Feeds → Feeds) : (s.updFeeds f).pins = s.pins := rfl

/-! rwPut -/

@[simp] theorem State.rwPut_pending (s : State) (idx sub : Nat) (v : Val) : (s.rwPut idx sub v).pending = s.pending := rfl
@[simp] theorem State.rwPut_cycle (s : State) (idx sub : Nat) (v : Val) : (s.rwPut idx sub v).cycle = s.cycle := rfl
@[simp] theorem State.rwPut_free (s : State) (idx sub : Nat) (v : Val) : (s.rwPut idx sub v).free = s.free := rfl
@[simp] theorem State.rwPut_out (s : State) (idx sub : Nat) (v : Val) : (s.rwPut idx sub v).out = s.out := rfl
@[simp] theorem State.rwPut_hits (s : State) (idx sub : Nat) (v : Val) : (s.rwPut idx sub v).hits = s.hits := rfl
@[simp] theorem State.rwPut_ident (s : State) (idx sub : Nat) (v : Val) : (s.rwPut idx sub v).ident = s.ident := rfl
@[simp] theorem State.rwPut_chip (s : State) (idx sub : Nat) (v : Val) : (s.rwPut idx sub v).chip = s.chip := rfl
@[simp] theorem State.rwPut_mram (s : State) (idx sub : Nat) (v : Val) : (s.rwPut idx sub v).mram = s.mram := rfl
@[simp] theorem State.rwPut_nap (s : State) (idx sub : Nat) (v : Val) : (s.rwPut idx sub v).nap = s.nap := rfl
@[simp] theorem State.rwPut_cnt (s : State) (idx sub : Nat) (v : Val) : (s.rwPut idx sub v).cnt = s.cnt := rfl
@[simp] theorem State.rwPut_fabric (s : State) (idx sub : Nat) (v : Val) : (s.rwPut idx sub v).fabric = s.fabric := rfl
@[simp] theorem State.rwPut_ports (s : State) (idx sub : Nat) (v : Val) : (s.rwPut idx sub v).ports = s.ports := rfl
@[simp] theorem State.rwPut_fdb (s : State) (idx sub : Nat) (v : Val) : (s.rwPut idx sub v).fdb = s.fdb := rfl
@[simp] theorem State.rwPut_psfp (s : State) (idx sub : Nat) (v : Val) : (s.rwPut idx sub v).psfp = s.psfp := rfl
@[simp] theorem State.rwPut_gates (s : State) (idx sub : Nat) (v : Val) : (s.rwPut idx sub v).gates = s.gates := rfl
@[simp] theorem State.rwPut_tine (s : State) (idx sub : Nat) (v : Val) : (s.rwPut idx sub v).tine = s.tine := rfl
@[simp] theorem State.rwPut_dma (s : State) (idx sub : Nat) (v : Val) : (s.rwPut idx sub v).dma = s.dma := rfl
@[simp] theorem State.rwPut_feeds (s : State) (idx sub : Nat) (v : Val) : (s.rwPut idx sub v).feeds = s.feeds := rfl
@[simp] theorem State.rwPut_pair (s : State) (idx sub : Nat) (v : Val) : (s.rwPut idx sub v).pair = s.pair := rfl
@[simp] theorem State.rwPut_linkDelay (s : State) (idx sub : Nat) (v : Val) : (s.rwPut idx sub v).linkDelay = s.linkDelay := rfl
@[simp] theorem State.rwPut_frer (s : State) (idx sub : Nat) (v : Val) : (s.rwPut idx sub v).frer = s.frer := rfl
@[simp] theorem State.rwPut_time (s : State) (idx sub : Nat) (v : Val) : (s.rwPut idx sub v).time = s.time := rfl
@[simp] theorem State.rwPut_trig (s : State) (idx sub : Nat) (v : Val) : (s.rwPut idx sub v).trig = s.trig := rfl
@[simp] theorem State.rwPut_herd (s : State) (idx sub : Nat) (v : Val) : (s.rwPut idx sub v).herd = s.herd := rfl
@[simp] theorem State.rwPut_intc (s : State) (idx sub : Nat) (v : Val) : (s.rwPut idx sub v).intc = s.intc := rfl
@[simp] theorem State.rwPut_faults (s : State) (idx sub : Nat) (v : Val) : (s.rwPut idx sub v).faults = s.faults := rfl
@[simp] theorem State.rwPut_health (s : State) (idx sub : Nat) (v : Val) : (s.rwPut idx sub v).health = s.health := rfl
@[simp] theorem State.rwPut_pcie (s : State) (idx sub : Nat) (v : Val) : (s.rwPut idx sub v).pcie = s.pcie := rfl
@[simp] theorem State.rwPut_mem (s : State) (idx sub : Nat) (v : Val) : (s.rwPut idx sub v).mem = s.mem := rfl
@[simp] theorem State.rwPut_pins (s : State) (idx sub : Nat) (v : Val) : (s.rwPut idx sub v).pins = s.pins := rfl

/-! bumpBy -/

@[simp] theorem State.bumpBy_pending (s : State) (idx sub key n : Nat) : (s.bumpBy idx sub key n).pending = s.pending := rfl
@[simp] theorem State.bumpBy_cycle (s : State) (idx sub key n : Nat) : (s.bumpBy idx sub key n).cycle = s.cycle := rfl
@[simp] theorem State.bumpBy_free (s : State) (idx sub key n : Nat) : (s.bumpBy idx sub key n).free = s.free := rfl
@[simp] theorem State.bumpBy_out (s : State) (idx sub key n : Nat) : (s.bumpBy idx sub key n).out = s.out := rfl
@[simp] theorem State.bumpBy_hits (s : State) (idx sub key n : Nat) : (s.bumpBy idx sub key n).hits = s.hits := rfl
@[simp] theorem State.bumpBy_ident (s : State) (idx sub key n : Nat) : (s.bumpBy idx sub key n).ident = s.ident := rfl
@[simp] theorem State.bumpBy_chip (s : State) (idx sub key n : Nat) : (s.bumpBy idx sub key n).chip = s.chip := rfl
@[simp] theorem State.bumpBy_mram (s : State) (idx sub key n : Nat) : (s.bumpBy idx sub key n).mram = s.mram := rfl
@[simp] theorem State.bumpBy_cfg (s : State) (idx sub key n : Nat) : (s.bumpBy idx sub key n).cfg = s.cfg := rfl
@[simp] theorem State.bumpBy_nap (s : State) (idx sub key n : Nat) : (s.bumpBy idx sub key n).nap = s.nap := rfl
@[simp] theorem State.bumpBy_fabric (s : State) (idx sub key n : Nat) : (s.bumpBy idx sub key n).fabric = s.fabric := rfl
@[simp] theorem State.bumpBy_ports (s : State) (idx sub key n : Nat) : (s.bumpBy idx sub key n).ports = s.ports := rfl
@[simp] theorem State.bumpBy_fdb (s : State) (idx sub key n : Nat) : (s.bumpBy idx sub key n).fdb = s.fdb := rfl
@[simp] theorem State.bumpBy_psfp (s : State) (idx sub key n : Nat) : (s.bumpBy idx sub key n).psfp = s.psfp := rfl
@[simp] theorem State.bumpBy_gates (s : State) (idx sub key n : Nat) : (s.bumpBy idx sub key n).gates = s.gates := rfl
@[simp] theorem State.bumpBy_tine (s : State) (idx sub key n : Nat) : (s.bumpBy idx sub key n).tine = s.tine := rfl
@[simp] theorem State.bumpBy_dma (s : State) (idx sub key n : Nat) : (s.bumpBy idx sub key n).dma = s.dma := rfl
@[simp] theorem State.bumpBy_feeds (s : State) (idx sub key n : Nat) : (s.bumpBy idx sub key n).feeds = s.feeds := rfl
@[simp] theorem State.bumpBy_pair (s : State) (idx sub key n : Nat) : (s.bumpBy idx sub key n).pair = s.pair := rfl
@[simp] theorem State.bumpBy_linkDelay (s : State) (idx sub key n : Nat) : (s.bumpBy idx sub key n).linkDelay = s.linkDelay := rfl
@[simp] theorem State.bumpBy_frer (s : State) (idx sub key n : Nat) : (s.bumpBy idx sub key n).frer = s.frer := rfl
@[simp] theorem State.bumpBy_time (s : State) (idx sub key n : Nat) : (s.bumpBy idx sub key n).time = s.time := rfl
@[simp] theorem State.bumpBy_trig (s : State) (idx sub key n : Nat) : (s.bumpBy idx sub key n).trig = s.trig := rfl
@[simp] theorem State.bumpBy_herd (s : State) (idx sub key n : Nat) : (s.bumpBy idx sub key n).herd = s.herd := rfl
@[simp] theorem State.bumpBy_intc (s : State) (idx sub key n : Nat) : (s.bumpBy idx sub key n).intc = s.intc := rfl
@[simp] theorem State.bumpBy_faults (s : State) (idx sub key n : Nat) : (s.bumpBy idx sub key n).faults = s.faults := rfl
@[simp] theorem State.bumpBy_health (s : State) (idx sub key n : Nat) : (s.bumpBy idx sub key n).health = s.health := rfl
@[simp] theorem State.bumpBy_pcie (s : State) (idx sub key n : Nat) : (s.bumpBy idx sub key n).pcie = s.pcie := rfl
@[simp] theorem State.bumpBy_mem (s : State) (idx sub key n : Nat) : (s.bumpBy idx sub key n).mem = s.mem := rfl
@[simp] theorem State.bumpBy_pins (s : State) (idx sub key n : Nat) : (s.bumpBy idx sub key n).pins = s.pins := rfl

/-! bump -/

@[simp] theorem State.bump_pending (s : State) (idx sub : Nat) : (s.bump idx sub).pending = s.pending := rfl
@[simp] theorem State.bump_cycle (s : State) (idx sub : Nat) : (s.bump idx sub).cycle = s.cycle := rfl
@[simp] theorem State.bump_free (s : State) (idx sub : Nat) : (s.bump idx sub).free = s.free := rfl
@[simp] theorem State.bump_out (s : State) (idx sub : Nat) : (s.bump idx sub).out = s.out := rfl
@[simp] theorem State.bump_hits (s : State) (idx sub : Nat) : (s.bump idx sub).hits = s.hits := rfl
@[simp] theorem State.bump_ident (s : State) (idx sub : Nat) : (s.bump idx sub).ident = s.ident := rfl
@[simp] theorem State.bump_chip (s : State) (idx sub : Nat) : (s.bump idx sub).chip = s.chip := rfl
@[simp] theorem State.bump_mram (s : State) (idx sub : Nat) : (s.bump idx sub).mram = s.mram := rfl
@[simp] theorem State.bump_cfg (s : State) (idx sub : Nat) : (s.bump idx sub).cfg = s.cfg := rfl
@[simp] theorem State.bump_nap (s : State) (idx sub : Nat) : (s.bump idx sub).nap = s.nap := rfl
@[simp] theorem State.bump_fabric (s : State) (idx sub : Nat) : (s.bump idx sub).fabric = s.fabric := rfl
@[simp] theorem State.bump_ports (s : State) (idx sub : Nat) : (s.bump idx sub).ports = s.ports := rfl
@[simp] theorem State.bump_fdb (s : State) (idx sub : Nat) : (s.bump idx sub).fdb = s.fdb := rfl
@[simp] theorem State.bump_psfp (s : State) (idx sub : Nat) : (s.bump idx sub).psfp = s.psfp := rfl
@[simp] theorem State.bump_gates (s : State) (idx sub : Nat) : (s.bump idx sub).gates = s.gates := rfl
@[simp] theorem State.bump_tine (s : State) (idx sub : Nat) : (s.bump idx sub).tine = s.tine := rfl
@[simp] theorem State.bump_dma (s : State) (idx sub : Nat) : (s.bump idx sub).dma = s.dma := rfl
@[simp] theorem State.bump_feeds (s : State) (idx sub : Nat) : (s.bump idx sub).feeds = s.feeds := rfl
@[simp] theorem State.bump_pair (s : State) (idx sub : Nat) : (s.bump idx sub).pair = s.pair := rfl
@[simp] theorem State.bump_linkDelay (s : State) (idx sub : Nat) : (s.bump idx sub).linkDelay = s.linkDelay := rfl
@[simp] theorem State.bump_frer (s : State) (idx sub : Nat) : (s.bump idx sub).frer = s.frer := rfl
@[simp] theorem State.bump_time (s : State) (idx sub : Nat) : (s.bump idx sub).time = s.time := rfl
@[simp] theorem State.bump_trig (s : State) (idx sub : Nat) : (s.bump idx sub).trig = s.trig := rfl
@[simp] theorem State.bump_herd (s : State) (idx sub : Nat) : (s.bump idx sub).herd = s.herd := rfl
@[simp] theorem State.bump_intc (s : State) (idx sub : Nat) : (s.bump idx sub).intc = s.intc := rfl
@[simp] theorem State.bump_faults (s : State) (idx sub : Nat) : (s.bump idx sub).faults = s.faults := rfl
@[simp] theorem State.bump_health (s : State) (idx sub : Nat) : (s.bump idx sub).health = s.health := rfl
@[simp] theorem State.bump_pcie (s : State) (idx sub : Nat) : (s.bump idx sub).pcie = s.pcie := rfl
@[simp] theorem State.bump_mem (s : State) (idx sub : Nat) : (s.bump idx sub).mem = s.mem := rfl
@[simp] theorem State.bump_pins (s : State) (idx sub : Nat) : (s.bump idx sub).pins = s.pins := rfl

/-! bumpK -/

@[simp] theorem State.bumpK_pending (s : State) (idx sub key : Nat) : (s.bumpK idx sub key).pending = s.pending := rfl
@[simp] theorem State.bumpK_cycle (s : State) (idx sub key : Nat) : (s.bumpK idx sub key).cycle = s.cycle := rfl
@[simp] theorem State.bumpK_free (s : State) (idx sub key : Nat) : (s.bumpK idx sub key).free = s.free := rfl
@[simp] theorem State.bumpK_out (s : State) (idx sub key : Nat) : (s.bumpK idx sub key).out = s.out := rfl
@[simp] theorem State.bumpK_hits (s : State) (idx sub key : Nat) : (s.bumpK idx sub key).hits = s.hits := rfl
@[simp] theorem State.bumpK_ident (s : State) (idx sub key : Nat) : (s.bumpK idx sub key).ident = s.ident := rfl
@[simp] theorem State.bumpK_chip (s : State) (idx sub key : Nat) : (s.bumpK idx sub key).chip = s.chip := rfl
@[simp] theorem State.bumpK_mram (s : State) (idx sub key : Nat) : (s.bumpK idx sub key).mram = s.mram := rfl
@[simp] theorem State.bumpK_cfg (s : State) (idx sub key : Nat) : (s.bumpK idx sub key).cfg = s.cfg := rfl
@[simp] theorem State.bumpK_nap (s : State) (idx sub key : Nat) : (s.bumpK idx sub key).nap = s.nap := rfl
@[simp] theorem State.bumpK_fabric (s : State) (idx sub key : Nat) : (s.bumpK idx sub key).fabric = s.fabric := rfl
@[simp] theorem State.bumpK_ports (s : State) (idx sub key : Nat) : (s.bumpK idx sub key).ports = s.ports := rfl
@[simp] theorem State.bumpK_fdb (s : State) (idx sub key : Nat) : (s.bumpK idx sub key).fdb = s.fdb := rfl
@[simp] theorem State.bumpK_psfp (s : State) (idx sub key : Nat) : (s.bumpK idx sub key).psfp = s.psfp := rfl
@[simp] theorem State.bumpK_gates (s : State) (idx sub key : Nat) : (s.bumpK idx sub key).gates = s.gates := rfl
@[simp] theorem State.bumpK_tine (s : State) (idx sub key : Nat) : (s.bumpK idx sub key).tine = s.tine := rfl
@[simp] theorem State.bumpK_dma (s : State) (idx sub key : Nat) : (s.bumpK idx sub key).dma = s.dma := rfl
@[simp] theorem State.bumpK_feeds (s : State) (idx sub key : Nat) : (s.bumpK idx sub key).feeds = s.feeds := rfl
@[simp] theorem State.bumpK_pair (s : State) (idx sub key : Nat) : (s.bumpK idx sub key).pair = s.pair := rfl
@[simp] theorem State.bumpK_linkDelay (s : State) (idx sub key : Nat) : (s.bumpK idx sub key).linkDelay = s.linkDelay := rfl
@[simp] theorem State.bumpK_frer (s : State) (idx sub key : Nat) : (s.bumpK idx sub key).frer = s.frer := rfl
@[simp] theorem State.bumpK_time (s : State) (idx sub key : Nat) : (s.bumpK idx sub key).time = s.time := rfl
@[simp] theorem State.bumpK_trig (s : State) (idx sub key : Nat) : (s.bumpK idx sub key).trig = s.trig := rfl
@[simp] theorem State.bumpK_herd (s : State) (idx sub key : Nat) : (s.bumpK idx sub key).herd = s.herd := rfl
@[simp] theorem State.bumpK_intc (s : State) (idx sub key : Nat) : (s.bumpK idx sub key).intc = s.intc := rfl
@[simp] theorem State.bumpK_faults (s : State) (idx sub key : Nat) : (s.bumpK idx sub key).faults = s.faults := rfl
@[simp] theorem State.bumpK_health (s : State) (idx sub key : Nat) : (s.bumpK idx sub key).health = s.health := rfl
@[simp] theorem State.bumpK_pcie (s : State) (idx sub key : Nat) : (s.bumpK idx sub key).pcie = s.pcie := rfl
@[simp] theorem State.bumpK_mem (s : State) (idx sub key : Nat) : (s.bumpK idx sub key).mem = s.mem := rfl
@[simp] theorem State.bumpK_pins (s : State) (idx sub key : Nat) : (s.bumpK idx sub key).pins = s.pins := rfl

/-! zeroCounter -/

@[simp] theorem State.zeroCounter_pending (s : State) (idx sub key : Nat) : (s.zeroCounter idx sub key).pending = s.pending := rfl
@[simp] theorem State.zeroCounter_cycle (s : State) (idx sub key : Nat) : (s.zeroCounter idx sub key).cycle = s.cycle := rfl
@[simp] theorem State.zeroCounter_free (s : State) (idx sub key : Nat) : (s.zeroCounter idx sub key).free = s.free := rfl
@[simp] theorem State.zeroCounter_out (s : State) (idx sub key : Nat) : (s.zeroCounter idx sub key).out = s.out := rfl
@[simp] theorem State.zeroCounter_hits (s : State) (idx sub key : Nat) : (s.zeroCounter idx sub key).hits = s.hits := rfl
@[simp] theorem State.zeroCounter_ident (s : State) (idx sub key : Nat) : (s.zeroCounter idx sub key).ident = s.ident := rfl
@[simp] theorem State.zeroCounter_chip (s : State) (idx sub key : Nat) : (s.zeroCounter idx sub key).chip = s.chip := rfl
@[simp] theorem State.zeroCounter_mram (s : State) (idx sub key : Nat) : (s.zeroCounter idx sub key).mram = s.mram := rfl
@[simp] theorem State.zeroCounter_cfg (s : State) (idx sub key : Nat) : (s.zeroCounter idx sub key).cfg = s.cfg := rfl
@[simp] theorem State.zeroCounter_nap (s : State) (idx sub key : Nat) : (s.zeroCounter idx sub key).nap = s.nap := rfl
@[simp] theorem State.zeroCounter_fabric (s : State) (idx sub key : Nat) : (s.zeroCounter idx sub key).fabric = s.fabric := rfl
@[simp] theorem State.zeroCounter_ports (s : State) (idx sub key : Nat) : (s.zeroCounter idx sub key).ports = s.ports := rfl
@[simp] theorem State.zeroCounter_fdb (s : State) (idx sub key : Nat) : (s.zeroCounter idx sub key).fdb = s.fdb := rfl
@[simp] theorem State.zeroCounter_psfp (s : State) (idx sub key : Nat) : (s.zeroCounter idx sub key).psfp = s.psfp := rfl
@[simp] theorem State.zeroCounter_gates (s : State) (idx sub key : Nat) : (s.zeroCounter idx sub key).gates = s.gates := rfl
@[simp] theorem State.zeroCounter_tine (s : State) (idx sub key : Nat) : (s.zeroCounter idx sub key).tine = s.tine := rfl
@[simp] theorem State.zeroCounter_dma (s : State) (idx sub key : Nat) : (s.zeroCounter idx sub key).dma = s.dma := rfl
@[simp] theorem State.zeroCounter_feeds (s : State) (idx sub key : Nat) : (s.zeroCounter idx sub key).feeds = s.feeds := rfl
@[simp] theorem State.zeroCounter_pair (s : State) (idx sub key : Nat) : (s.zeroCounter idx sub key).pair = s.pair := rfl
@[simp] theorem State.zeroCounter_linkDelay (s : State) (idx sub key : Nat) : (s.zeroCounter idx sub key).linkDelay = s.linkDelay := rfl
@[simp] theorem State.zeroCounter_frer (s : State) (idx sub key : Nat) : (s.zeroCounter idx sub key).frer = s.frer := rfl
@[simp] theorem State.zeroCounter_time (s : State) (idx sub key : Nat) : (s.zeroCounter idx sub key).time = s.time := rfl
@[simp] theorem State.zeroCounter_trig (s : State) (idx sub key : Nat) : (s.zeroCounter idx sub key).trig = s.trig := rfl
@[simp] theorem State.zeroCounter_herd (s : State) (idx sub key : Nat) : (s.zeroCounter idx sub key).herd = s.herd := rfl
@[simp] theorem State.zeroCounter_intc (s : State) (idx sub key : Nat) : (s.zeroCounter idx sub key).intc = s.intc := rfl
@[simp] theorem State.zeroCounter_faults (s : State) (idx sub key : Nat) : (s.zeroCounter idx sub key).faults = s.faults := rfl
@[simp] theorem State.zeroCounter_health (s : State) (idx sub key : Nat) : (s.zeroCounter idx sub key).health = s.health := rfl
@[simp] theorem State.zeroCounter_pcie (s : State) (idx sub key : Nat) : (s.zeroCounter idx sub key).pcie = s.pcie := rfl
@[simp] theorem State.zeroCounter_mem (s : State) (idx sub key : Nat) : (s.zeroCounter idx sub key).mem = s.mem := rfl
@[simp] theorem State.zeroCounter_pins (s : State) (idx sub key : Nat) : (s.zeroCounter idx sub key).pins = s.pins := rfl

/-! hit -/

@[simp] theorem State.hit_pending (s : State) (c : Sticky) (before : Nat) : (s.hit c before).pending = s.pending := rfl
@[simp] theorem State.hit_cycle (s : State) (c : Sticky) (before : Nat) : (s.hit c before).cycle = s.cycle := rfl
@[simp] theorem State.hit_free (s : State) (c : Sticky) (before : Nat) : (s.hit c before).free = s.free := rfl
@[simp] theorem State.hit_out (s : State) (c : Sticky) (before : Nat) : (s.hit c before).out = s.out := rfl
@[simp] theorem State.hit_ident (s : State) (c : Sticky) (before : Nat) : (s.hit c before).ident = s.ident := rfl
@[simp] theorem State.hit_chip (s : State) (c : Sticky) (before : Nat) : (s.hit c before).chip = s.chip := rfl
@[simp] theorem State.hit_mram (s : State) (c : Sticky) (before : Nat) : (s.hit c before).mram = s.mram := rfl
@[simp] theorem State.hit_cfg (s : State) (c : Sticky) (before : Nat) : (s.hit c before).cfg = s.cfg := rfl
@[simp] theorem State.hit_nap (s : State) (c : Sticky) (before : Nat) : (s.hit c before).nap = s.nap := rfl
@[simp] theorem State.hit_cnt (s : State) (c : Sticky) (before : Nat) : (s.hit c before).cnt = s.cnt := rfl
@[simp] theorem State.hit_fabric (s : State) (c : Sticky) (before : Nat) : (s.hit c before).fabric = s.fabric := rfl
@[simp] theorem State.hit_ports (s : State) (c : Sticky) (before : Nat) : (s.hit c before).ports = s.ports := rfl
@[simp] theorem State.hit_fdb (s : State) (c : Sticky) (before : Nat) : (s.hit c before).fdb = s.fdb := rfl
@[simp] theorem State.hit_psfp (s : State) (c : Sticky) (before : Nat) : (s.hit c before).psfp = s.psfp := rfl
@[simp] theorem State.hit_gates (s : State) (c : Sticky) (before : Nat) : (s.hit c before).gates = s.gates := rfl
@[simp] theorem State.hit_tine (s : State) (c : Sticky) (before : Nat) : (s.hit c before).tine = s.tine := rfl
@[simp] theorem State.hit_dma (s : State) (c : Sticky) (before : Nat) : (s.hit c before).dma = s.dma := rfl
@[simp] theorem State.hit_feeds (s : State) (c : Sticky) (before : Nat) : (s.hit c before).feeds = s.feeds := rfl
@[simp] theorem State.hit_pair (s : State) (c : Sticky) (before : Nat) : (s.hit c before).pair = s.pair := rfl
@[simp] theorem State.hit_linkDelay (s : State) (c : Sticky) (before : Nat) : (s.hit c before).linkDelay = s.linkDelay := rfl
@[simp] theorem State.hit_frer (s : State) (c : Sticky) (before : Nat) : (s.hit c before).frer = s.frer := rfl
@[simp] theorem State.hit_time (s : State) (c : Sticky) (before : Nat) : (s.hit c before).time = s.time := rfl
@[simp] theorem State.hit_trig (s : State) (c : Sticky) (before : Nat) : (s.hit c before).trig = s.trig := rfl
@[simp] theorem State.hit_herd (s : State) (c : Sticky) (before : Nat) : (s.hit c before).herd = s.herd := rfl
@[simp] theorem State.hit_intc (s : State) (c : Sticky) (before : Nat) : (s.hit c before).intc = s.intc := rfl
@[simp] theorem State.hit_faults (s : State) (c : Sticky) (before : Nat) : (s.hit c before).faults = s.faults := rfl
@[simp] theorem State.hit_health (s : State) (c : Sticky) (before : Nat) : (s.hit c before).health = s.health := rfl
@[simp] theorem State.hit_pcie (s : State) (c : Sticky) (before : Nat) : (s.hit c before).pcie = s.pcie := rfl
@[simp] theorem State.hit_mem (s : State) (c : Sticky) (before : Nat) : (s.hit c before).mem = s.mem := rfl
@[simp] theorem State.hit_pins (s : State) (c : Sticky) (before : Nat) : (s.hit c before).pins = s.pins := rfl

/-! rehit -/

@[simp] theorem State.rehit_pending (s : State) (c : Sticky) : (s.rehit c).pending = s.pending := rfl
@[simp] theorem State.rehit_cycle (s : State) (c : Sticky) : (s.rehit c).cycle = s.cycle := rfl
@[simp] theorem State.rehit_free (s : State) (c : Sticky) : (s.rehit c).free = s.free := rfl
@[simp] theorem State.rehit_out (s : State) (c : Sticky) : (s.rehit c).out = s.out := rfl
@[simp] theorem State.rehit_ident (s : State) (c : Sticky) : (s.rehit c).ident = s.ident := rfl
@[simp] theorem State.rehit_chip (s : State) (c : Sticky) : (s.rehit c).chip = s.chip := rfl
@[simp] theorem State.rehit_mram (s : State) (c : Sticky) : (s.rehit c).mram = s.mram := rfl
@[simp] theorem State.rehit_cfg (s : State) (c : Sticky) : (s.rehit c).cfg = s.cfg := rfl
@[simp] theorem State.rehit_nap (s : State) (c : Sticky) : (s.rehit c).nap = s.nap := rfl
@[simp] theorem State.rehit_cnt (s : State) (c : Sticky) : (s.rehit c).cnt = s.cnt := rfl
@[simp] theorem State.rehit_fabric (s : State) (c : Sticky) : (s.rehit c).fabric = s.fabric := rfl
@[simp] theorem State.rehit_ports (s : State) (c : Sticky) : (s.rehit c).ports = s.ports := rfl
@[simp] theorem State.rehit_fdb (s : State) (c : Sticky) : (s.rehit c).fdb = s.fdb := rfl
@[simp] theorem State.rehit_psfp (s : State) (c : Sticky) : (s.rehit c).psfp = s.psfp := rfl
@[simp] theorem State.rehit_gates (s : State) (c : Sticky) : (s.rehit c).gates = s.gates := rfl
@[simp] theorem State.rehit_tine (s : State) (c : Sticky) : (s.rehit c).tine = s.tine := rfl
@[simp] theorem State.rehit_dma (s : State) (c : Sticky) : (s.rehit c).dma = s.dma := rfl
@[simp] theorem State.rehit_feeds (s : State) (c : Sticky) : (s.rehit c).feeds = s.feeds := rfl
@[simp] theorem State.rehit_pair (s : State) (c : Sticky) : (s.rehit c).pair = s.pair := rfl
@[simp] theorem State.rehit_linkDelay (s : State) (c : Sticky) : (s.rehit c).linkDelay = s.linkDelay := rfl
@[simp] theorem State.rehit_frer (s : State) (c : Sticky) : (s.rehit c).frer = s.frer := rfl
@[simp] theorem State.rehit_time (s : State) (c : Sticky) : (s.rehit c).time = s.time := rfl
@[simp] theorem State.rehit_trig (s : State) (c : Sticky) : (s.rehit c).trig = s.trig := rfl
@[simp] theorem State.rehit_herd (s : State) (c : Sticky) : (s.rehit c).herd = s.herd := rfl
@[simp] theorem State.rehit_intc (s : State) (c : Sticky) : (s.rehit c).intc = s.intc := rfl
@[simp] theorem State.rehit_faults (s : State) (c : Sticky) : (s.rehit c).faults = s.faults := rfl
@[simp] theorem State.rehit_health (s : State) (c : Sticky) : (s.rehit c).health = s.health := rfl
@[simp] theorem State.rehit_pcie (s : State) (c : Sticky) : (s.rehit c).pcie = s.pcie := rfl
@[simp] theorem State.rehit_mem (s : State) (c : Sticky) : (s.rehit c).mem = s.mem := rfl
@[simp] theorem State.rehit_pins (s : State) (c : Sticky) : (s.rehit c).pins = s.pins := rfl

/-! emit -/

@[simp] theorem State.emit_pending (s : State) (e : OutEvent) : (s.emit e).pending = s.pending := rfl
@[simp] theorem State.emit_cycle (s : State) (e : OutEvent) : (s.emit e).cycle = s.cycle := rfl
@[simp] theorem State.emit_free (s : State) (e : OutEvent) : (s.emit e).free = s.free := rfl
@[simp] theorem State.emit_hits (s : State) (e : OutEvent) : (s.emit e).hits = s.hits := rfl
@[simp] theorem State.emit_ident (s : State) (e : OutEvent) : (s.emit e).ident = s.ident := rfl
@[simp] theorem State.emit_chip (s : State) (e : OutEvent) : (s.emit e).chip = s.chip := rfl
@[simp] theorem State.emit_mram (s : State) (e : OutEvent) : (s.emit e).mram = s.mram := rfl
@[simp] theorem State.emit_cfg (s : State) (e : OutEvent) : (s.emit e).cfg = s.cfg := rfl
@[simp] theorem State.emit_nap (s : State) (e : OutEvent) : (s.emit e).nap = s.nap := rfl
@[simp] theorem State.emit_cnt (s : State) (e : OutEvent) : (s.emit e).cnt = s.cnt := rfl
@[simp] theorem State.emit_fabric (s : State) (e : OutEvent) : (s.emit e).fabric = s.fabric := rfl
@[simp] theorem State.emit_ports (s : State) (e : OutEvent) : (s.emit e).ports = s.ports := rfl
@[simp] theorem State.emit_fdb (s : State) (e : OutEvent) : (s.emit e).fdb = s.fdb := rfl
@[simp] theorem State.emit_psfp (s : State) (e : OutEvent) : (s.emit e).psfp = s.psfp := rfl
@[simp] theorem State.emit_gates (s : State) (e : OutEvent) : (s.emit e).gates = s.gates := rfl
@[simp] theorem State.emit_tine (s : State) (e : OutEvent) : (s.emit e).tine = s.tine := rfl
@[simp] theorem State.emit_dma (s : State) (e : OutEvent) : (s.emit e).dma = s.dma := rfl
@[simp] theorem State.emit_feeds (s : State) (e : OutEvent) : (s.emit e).feeds = s.feeds := rfl
@[simp] theorem State.emit_pair (s : State) (e : OutEvent) : (s.emit e).pair = s.pair := rfl
@[simp] theorem State.emit_linkDelay (s : State) (e : OutEvent) : (s.emit e).linkDelay = s.linkDelay := rfl
@[simp] theorem State.emit_frer (s : State) (e : OutEvent) : (s.emit e).frer = s.frer := rfl
@[simp] theorem State.emit_time (s : State) (e : OutEvent) : (s.emit e).time = s.time := rfl
@[simp] theorem State.emit_trig (s : State) (e : OutEvent) : (s.emit e).trig = s.trig := rfl
@[simp] theorem State.emit_herd (s : State) (e : OutEvent) : (s.emit e).herd = s.herd := rfl
@[simp] theorem State.emit_intc (s : State) (e : OutEvent) : (s.emit e).intc = s.intc := rfl
@[simp] theorem State.emit_faults (s : State) (e : OutEvent) : (s.emit e).faults = s.faults := rfl
@[simp] theorem State.emit_health (s : State) (e : OutEvent) : (s.emit e).health = s.health := rfl
@[simp] theorem State.emit_pcie (s : State) (e : OutEvent) : (s.emit e).pcie = s.pcie := rfl
@[simp] theorem State.emit_mem (s : State) (e : OutEvent) : (s.emit e).mem = s.mem := rfl
@[simp] theorem State.emit_pins (s : State) (e : OutEvent) : (s.emit e).pins = s.pins := rfl

/-! updPort -/

@[simp] theorem State.updPort_pending (s : State) (p : Nat) (f : Port → Port) : (s.updPort p f).pending = s.pending := rfl
@[simp] theorem State.updPort_cycle (s : State) (p : Nat) (f : Port → Port) : (s.updPort p f).cycle = s.cycle := rfl
@[simp] theorem State.updPort_free (s : State) (p : Nat) (f : Port → Port) : (s.updPort p f).free = s.free := rfl
@[simp] theorem State.updPort_out (s : State) (p : Nat) (f : Port → Port) : (s.updPort p f).out = s.out := rfl
@[simp] theorem State.updPort_hits (s : State) (p : Nat) (f : Port → Port) : (s.updPort p f).hits = s.hits := rfl
@[simp] theorem State.updPort_ident (s : State) (p : Nat) (f : Port → Port) : (s.updPort p f).ident = s.ident := rfl
@[simp] theorem State.updPort_chip (s : State) (p : Nat) (f : Port → Port) : (s.updPort p f).chip = s.chip := rfl
@[simp] theorem State.updPort_mram (s : State) (p : Nat) (f : Port → Port) : (s.updPort p f).mram = s.mram := rfl
@[simp] theorem State.updPort_cfg (s : State) (p : Nat) (f : Port → Port) : (s.updPort p f).cfg = s.cfg := rfl
@[simp] theorem State.updPort_nap (s : State) (p : Nat) (f : Port → Port) : (s.updPort p f).nap = s.nap := rfl
@[simp] theorem State.updPort_cnt (s : State) (p : Nat) (f : Port → Port) : (s.updPort p f).cnt = s.cnt := rfl
@[simp] theorem State.updPort_fabric (s : State) (p : Nat) (f : Port → Port) : (s.updPort p f).fabric = s.fabric := rfl
@[simp] theorem State.updPort_fdb (s : State) (p : Nat) (f : Port → Port) : (s.updPort p f).fdb = s.fdb := rfl
@[simp] theorem State.updPort_psfp (s : State) (p : Nat) (f : Port → Port) : (s.updPort p f).psfp = s.psfp := rfl
@[simp] theorem State.updPort_gates (s : State) (p : Nat) (f : Port → Port) : (s.updPort p f).gates = s.gates := rfl
@[simp] theorem State.updPort_tine (s : State) (p : Nat) (f : Port → Port) : (s.updPort p f).tine = s.tine := rfl
@[simp] theorem State.updPort_dma (s : State) (p : Nat) (f : Port → Port) : (s.updPort p f).dma = s.dma := rfl
@[simp] theorem State.updPort_feeds (s : State) (p : Nat) (f : Port → Port) : (s.updPort p f).feeds = s.feeds := rfl
@[simp] theorem State.updPort_pair (s : State) (p : Nat) (f : Port → Port) : (s.updPort p f).pair = s.pair := rfl
@[simp] theorem State.updPort_linkDelay (s : State) (p : Nat) (f : Port → Port) : (s.updPort p f).linkDelay = s.linkDelay := rfl
@[simp] theorem State.updPort_frer (s : State) (p : Nat) (f : Port → Port) : (s.updPort p f).frer = s.frer := rfl
@[simp] theorem State.updPort_time (s : State) (p : Nat) (f : Port → Port) : (s.updPort p f).time = s.time := rfl
@[simp] theorem State.updPort_trig (s : State) (p : Nat) (f : Port → Port) : (s.updPort p f).trig = s.trig := rfl
@[simp] theorem State.updPort_herd (s : State) (p : Nat) (f : Port → Port) : (s.updPort p f).herd = s.herd := rfl
@[simp] theorem State.updPort_intc (s : State) (p : Nat) (f : Port → Port) : (s.updPort p f).intc = s.intc := rfl
@[simp] theorem State.updPort_faults (s : State) (p : Nat) (f : Port → Port) : (s.updPort p f).faults = s.faults := rfl
@[simp] theorem State.updPort_health (s : State) (p : Nat) (f : Port → Port) : (s.updPort p f).health = s.health := rfl
@[simp] theorem State.updPort_pcie (s : State) (p : Nat) (f : Port → Port) : (s.updPort p f).pcie = s.pcie := rfl
@[simp] theorem State.updPort_mem (s : State) (p : Nat) (f : Port → Port) : (s.updPort p f).mem = s.mem := rfl
@[simp] theorem State.updPort_pins (s : State) (p : Nat) (f : Port → Port) : (s.updPort p f).pins = s.pins := rfl

/-! updPf -/

@[simp] theorem State.updPf_pending (s : State) (f : Nat) (g : Pf → Pf) : (s.updPf f g).pending = s.pending := rfl
@[simp] theorem State.updPf_cycle (s : State) (f : Nat) (g : Pf → Pf) : (s.updPf f g).cycle = s.cycle := rfl
@[simp] theorem State.updPf_free (s : State) (f : Nat) (g : Pf → Pf) : (s.updPf f g).free = s.free := rfl
@[simp] theorem State.updPf_out (s : State) (f : Nat) (g : Pf → Pf) : (s.updPf f g).out = s.out := rfl
@[simp] theorem State.updPf_hits (s : State) (f : Nat) (g : Pf → Pf) : (s.updPf f g).hits = s.hits := rfl
@[simp] theorem State.updPf_ident (s : State) (f : Nat) (g : Pf → Pf) : (s.updPf f g).ident = s.ident := rfl
@[simp] theorem State.updPf_chip (s : State) (f : Nat) (g : Pf → Pf) : (s.updPf f g).chip = s.chip := rfl
@[simp] theorem State.updPf_mram (s : State) (f : Nat) (g : Pf → Pf) : (s.updPf f g).mram = s.mram := rfl
@[simp] theorem State.updPf_cfg (s : State) (f : Nat) (g : Pf → Pf) : (s.updPf f g).cfg = s.cfg := rfl
@[simp] theorem State.updPf_nap (s : State) (f : Nat) (g : Pf → Pf) : (s.updPf f g).nap = s.nap := rfl
@[simp] theorem State.updPf_cnt (s : State) (f : Nat) (g : Pf → Pf) : (s.updPf f g).cnt = s.cnt := rfl
@[simp] theorem State.updPf_fabric (s : State) (f : Nat) (g : Pf → Pf) : (s.updPf f g).fabric = s.fabric := rfl
@[simp] theorem State.updPf_ports (s : State) (f : Nat) (g : Pf → Pf) : (s.updPf f g).ports = s.ports := rfl
@[simp] theorem State.updPf_fdb (s : State) (f : Nat) (g : Pf → Pf) : (s.updPf f g).fdb = s.fdb := rfl
@[simp] theorem State.updPf_psfp (s : State) (f : Nat) (g : Pf → Pf) : (s.updPf f g).psfp = s.psfp := rfl
@[simp] theorem State.updPf_gates (s : State) (f : Nat) (g : Pf → Pf) : (s.updPf f g).gates = s.gates := rfl
@[simp] theorem State.updPf_tine (s : State) (f : Nat) (g : Pf → Pf) : (s.updPf f g).tine = s.tine := rfl
@[simp] theorem State.updPf_dma (s : State) (f : Nat) (g : Pf → Pf) : (s.updPf f g).dma = s.dma := rfl
@[simp] theorem State.updPf_feeds (s : State) (f : Nat) (g : Pf → Pf) : (s.updPf f g).feeds = s.feeds := rfl
@[simp] theorem State.updPf_pair (s : State) (f : Nat) (g : Pf → Pf) : (s.updPf f g).pair = s.pair := rfl
@[simp] theorem State.updPf_linkDelay (s : State) (f : Nat) (g : Pf → Pf) : (s.updPf f g).linkDelay = s.linkDelay := rfl
@[simp] theorem State.updPf_frer (s : State) (f : Nat) (g : Pf → Pf) : (s.updPf f g).frer = s.frer := rfl
@[simp] theorem State.updPf_time (s : State) (f : Nat) (g : Pf → Pf) : (s.updPf f g).time = s.time := rfl
@[simp] theorem State.updPf_trig (s : State) (f : Nat) (g : Pf → Pf) : (s.updPf f g).trig = s.trig := rfl
@[simp] theorem State.updPf_herd (s : State) (f : Nat) (g : Pf → Pf) : (s.updPf f g).herd = s.herd := rfl
@[simp] theorem State.updPf_intc (s : State) (f : Nat) (g : Pf → Pf) : (s.updPf f g).intc = s.intc := rfl
@[simp] theorem State.updPf_faults (s : State) (f : Nat) (g : Pf → Pf) : (s.updPf f g).faults = s.faults := rfl
@[simp] theorem State.updPf_health (s : State) (f : Nat) (g : Pf → Pf) : (s.updPf f g).health = s.health := rfl
@[simp] theorem State.updPf_mem (s : State) (f : Nat) (g : Pf → Pf) : (s.updPf f g).mem = s.mem := rfl
@[simp] theorem State.updPf_pins (s : State) (f : Nat) (g : Pf → Pf) : (s.updPf f g).pins = s.pins := rfl

/-! updDom -/

@[simp] theorem State.updDom_pending (s : State) (d : Nat) (f : Domain → Domain) : (s.updDom d f).pending = s.pending := rfl
@[simp] theorem State.updDom_cycle (s : State) (d : Nat) (f : Domain → Domain) : (s.updDom d f).cycle = s.cycle := rfl
@[simp] theorem State.updDom_free (s : State) (d : Nat) (f : Domain → Domain) : (s.updDom d f).free = s.free := rfl
@[simp] theorem State.updDom_out (s : State) (d : Nat) (f : Domain → Domain) : (s.updDom d f).out = s.out := rfl
@[simp] theorem State.updDom_hits (s : State) (d : Nat) (f : Domain → Domain) : (s.updDom d f).hits = s.hits := rfl
@[simp] theorem State.updDom_ident (s : State) (d : Nat) (f : Domain → Domain) : (s.updDom d f).ident = s.ident := rfl
@[simp] theorem State.updDom_chip (s : State) (d : Nat) (f : Domain → Domain) : (s.updDom d f).chip = s.chip := rfl
@[simp] theorem State.updDom_mram (s : State) (d : Nat) (f : Domain → Domain) : (s.updDom d f).mram = s.mram := rfl
@[simp] theorem State.updDom_cfg (s : State) (d : Nat) (f : Domain → Domain) : (s.updDom d f).cfg = s.cfg := rfl
@[simp] theorem State.updDom_nap (s : State) (d : Nat) (f : Domain → Domain) : (s.updDom d f).nap = s.nap := rfl
@[simp] theorem State.updDom_cnt (s : State) (d : Nat) (f : Domain → Domain) : (s.updDom d f).cnt = s.cnt := rfl
@[simp] theorem State.updDom_fabric (s : State) (d : Nat) (f : Domain → Domain) : (s.updDom d f).fabric = s.fabric := rfl
@[simp] theorem State.updDom_ports (s : State) (d : Nat) (f : Domain → Domain) : (s.updDom d f).ports = s.ports := rfl
@[simp] theorem State.updDom_fdb (s : State) (d : Nat) (f : Domain → Domain) : (s.updDom d f).fdb = s.fdb := rfl
@[simp] theorem State.updDom_psfp (s : State) (d : Nat) (f : Domain → Domain) : (s.updDom d f).psfp = s.psfp := rfl
@[simp] theorem State.updDom_gates (s : State) (d : Nat) (f : Domain → Domain) : (s.updDom d f).gates = s.gates := rfl
@[simp] theorem State.updDom_tine (s : State) (d : Nat) (f : Domain → Domain) : (s.updDom d f).tine = s.tine := rfl
@[simp] theorem State.updDom_dma (s : State) (d : Nat) (f : Domain → Domain) : (s.updDom d f).dma = s.dma := rfl
@[simp] theorem State.updDom_feeds (s : State) (d : Nat) (f : Domain → Domain) : (s.updDom d f).feeds = s.feeds := rfl
@[simp] theorem State.updDom_pair (s : State) (d : Nat) (f : Domain → Domain) : (s.updDom d f).pair = s.pair := rfl
@[simp] theorem State.updDom_linkDelay (s : State) (d : Nat) (f : Domain → Domain) : (s.updDom d f).linkDelay = s.linkDelay := rfl
@[simp] theorem State.updDom_frer (s : State) (d : Nat) (f : Domain → Domain) : (s.updDom d f).frer = s.frer := rfl
@[simp] theorem State.updDom_trig (s : State) (d : Nat) (f : Domain → Domain) : (s.updDom d f).trig = s.trig := rfl
@[simp] theorem State.updDom_herd (s : State) (d : Nat) (f : Domain → Domain) : (s.updDom d f).herd = s.herd := rfl
@[simp] theorem State.updDom_intc (s : State) (d : Nat) (f : Domain → Domain) : (s.updDom d f).intc = s.intc := rfl
@[simp] theorem State.updDom_faults (s : State) (d : Nat) (f : Domain → Domain) : (s.updDom d f).faults = s.faults := rfl
@[simp] theorem State.updDom_health (s : State) (d : Nat) (f : Domain → Domain) : (s.updDom d f).health = s.health := rfl
@[simp] theorem State.updDom_pcie (s : State) (d : Nat) (f : Domain → Domain) : (s.updDom d f).pcie = s.pcie := rfl
@[simp] theorem State.updDom_mem (s : State) (d : Nat) (f : Domain → Domain) : (s.updDom d f).mem = s.mem := rfl
@[simp] theorem State.updDom_pins (s : State) (d : Nat) (f : Domain → Domain) : (s.updDom d f).pins = s.pins := rfl

/-! updBank -/

@[simp] theorem State.updBank_pending (s : State) (k : Nat) (f : Bank → Bank) : (s.updBank k f).pending = s.pending := rfl
@[simp] theorem State.updBank_cycle (s : State) (k : Nat) (f : Bank → Bank) : (s.updBank k f).cycle = s.cycle := rfl
@[simp] theorem State.updBank_free (s : State) (k : Nat) (f : Bank → Bank) : (s.updBank k f).free = s.free := rfl
@[simp] theorem State.updBank_out (s : State) (k : Nat) (f : Bank → Bank) : (s.updBank k f).out = s.out := rfl
@[simp] theorem State.updBank_hits (s : State) (k : Nat) (f : Bank → Bank) : (s.updBank k f).hits = s.hits := rfl
@[simp] theorem State.updBank_ident (s : State) (k : Nat) (f : Bank → Bank) : (s.updBank k f).ident = s.ident := rfl
@[simp] theorem State.updBank_chip (s : State) (k : Nat) (f : Bank → Bank) : (s.updBank k f).chip = s.chip := rfl
@[simp] theorem State.updBank_cfg (s : State) (k : Nat) (f : Bank → Bank) : (s.updBank k f).cfg = s.cfg := rfl
@[simp] theorem State.updBank_nap (s : State) (k : Nat) (f : Bank → Bank) : (s.updBank k f).nap = s.nap := rfl
@[simp] theorem State.updBank_cnt (s : State) (k : Nat) (f : Bank → Bank) : (s.updBank k f).cnt = s.cnt := rfl
@[simp] theorem State.updBank_fabric (s : State) (k : Nat) (f : Bank → Bank) : (s.updBank k f).fabric = s.fabric := rfl
@[simp] theorem State.updBank_ports (s : State) (k : Nat) (f : Bank → Bank) : (s.updBank k f).ports = s.ports := rfl
@[simp] theorem State.updBank_fdb (s : State) (k : Nat) (f : Bank → Bank) : (s.updBank k f).fdb = s.fdb := rfl
@[simp] theorem State.updBank_psfp (s : State) (k : Nat) (f : Bank → Bank) : (s.updBank k f).psfp = s.psfp := rfl
@[simp] theorem State.updBank_gates (s : State) (k : Nat) (f : Bank → Bank) : (s.updBank k f).gates = s.gates := rfl
@[simp] theorem State.updBank_tine (s : State) (k : Nat) (f : Bank → Bank) : (s.updBank k f).tine = s.tine := rfl
@[simp] theorem State.updBank_dma (s : State) (k : Nat) (f : Bank → Bank) : (s.updBank k f).dma = s.dma := rfl
@[simp] theorem State.updBank_feeds (s : State) (k : Nat) (f : Bank → Bank) : (s.updBank k f).feeds = s.feeds := rfl
@[simp] theorem State.updBank_pair (s : State) (k : Nat) (f : Bank → Bank) : (s.updBank k f).pair = s.pair := rfl
@[simp] theorem State.updBank_linkDelay (s : State) (k : Nat) (f : Bank → Bank) : (s.updBank k f).linkDelay = s.linkDelay := rfl
@[simp] theorem State.updBank_frer (s : State) (k : Nat) (f : Bank → Bank) : (s.updBank k f).frer = s.frer := rfl
@[simp] theorem State.updBank_time (s : State) (k : Nat) (f : Bank → Bank) : (s.updBank k f).time = s.time := rfl
@[simp] theorem State.updBank_trig (s : State) (k : Nat) (f : Bank → Bank) : (s.updBank k f).trig = s.trig := rfl
@[simp] theorem State.updBank_herd (s : State) (k : Nat) (f : Bank → Bank) : (s.updBank k f).herd = s.herd := rfl
@[simp] theorem State.updBank_intc (s : State) (k : Nat) (f : Bank → Bank) : (s.updBank k f).intc = s.intc := rfl
@[simp] theorem State.updBank_faults (s : State) (k : Nat) (f : Bank → Bank) : (s.updBank k f).faults = s.faults := rfl
@[simp] theorem State.updBank_health (s : State) (k : Nat) (f : Bank → Bank) : (s.updBank k f).health = s.health := rfl
@[simp] theorem State.updBank_pcie (s : State) (k : Nat) (f : Bank → Bank) : (s.updBank k f).pcie = s.pcie := rfl
@[simp] theorem State.updBank_mem (s : State) (k : Nat) (f : Bank → Bank) : (s.updBank k f).mem = s.mem := rfl
@[simp] theorem State.updBank_pins (s : State) (k : Nat) (f : Bank → Bank) : (s.updBank k f).pins = s.pins := rfl

/-! updTrig -/

@[simp] theorem State.updTrig_pending (s : State) (n : Nat) (f : Trigger → Trigger) : (s.updTrig n f).pending = s.pending := rfl
@[simp] theorem State.updTrig_cycle (s : State) (n : Nat) (f : Trigger → Trigger) : (s.updTrig n f).cycle = s.cycle := rfl
@[simp] theorem State.updTrig_free (s : State) (n : Nat) (f : Trigger → Trigger) : (s.updTrig n f).free = s.free := rfl
@[simp] theorem State.updTrig_out (s : State) (n : Nat) (f : Trigger → Trigger) : (s.updTrig n f).out = s.out := rfl
@[simp] theorem State.updTrig_hits (s : State) (n : Nat) (f : Trigger → Trigger) : (s.updTrig n f).hits = s.hits := rfl
@[simp] theorem State.updTrig_ident (s : State) (n : Nat) (f : Trigger → Trigger) : (s.updTrig n f).ident = s.ident := rfl
@[simp] theorem State.updTrig_chip (s : State) (n : Nat) (f : Trigger → Trigger) : (s.updTrig n f).chip = s.chip := rfl
@[simp] theorem State.updTrig_mram (s : State) (n : Nat) (f : Trigger → Trigger) : (s.updTrig n f).mram = s.mram := rfl
@[simp] theorem State.updTrig_cfg (s : State) (n : Nat) (f : Trigger → Trigger) : (s.updTrig n f).cfg = s.cfg := rfl
@[simp] theorem State.updTrig_nap (s : State) (n : Nat) (f : Trigger → Trigger) : (s.updTrig n f).nap = s.nap := rfl
@[simp] theorem State.updTrig_cnt (s : State) (n : Nat) (f : Trigger → Trigger) : (s.updTrig n f).cnt = s.cnt := rfl
@[simp] theorem State.updTrig_fabric (s : State) (n : Nat) (f : Trigger → Trigger) : (s.updTrig n f).fabric = s.fabric := rfl
@[simp] theorem State.updTrig_ports (s : State) (n : Nat) (f : Trigger → Trigger) : (s.updTrig n f).ports = s.ports := rfl
@[simp] theorem State.updTrig_fdb (s : State) (n : Nat) (f : Trigger → Trigger) : (s.updTrig n f).fdb = s.fdb := rfl
@[simp] theorem State.updTrig_psfp (s : State) (n : Nat) (f : Trigger → Trigger) : (s.updTrig n f).psfp = s.psfp := rfl
@[simp] theorem State.updTrig_gates (s : State) (n : Nat) (f : Trigger → Trigger) : (s.updTrig n f).gates = s.gates := rfl
@[simp] theorem State.updTrig_tine (s : State) (n : Nat) (f : Trigger → Trigger) : (s.updTrig n f).tine = s.tine := rfl
@[simp] theorem State.updTrig_dma (s : State) (n : Nat) (f : Trigger → Trigger) : (s.updTrig n f).dma = s.dma := rfl
@[simp] theorem State.updTrig_feeds (s : State) (n : Nat) (f : Trigger → Trigger) : (s.updTrig n f).feeds = s.feeds := rfl
@[simp] theorem State.updTrig_pair (s : State) (n : Nat) (f : Trigger → Trigger) : (s.updTrig n f).pair = s.pair := rfl
@[simp] theorem State.updTrig_linkDelay (s : State) (n : Nat) (f : Trigger → Trigger) : (s.updTrig n f).linkDelay = s.linkDelay := rfl
@[simp] theorem State.updTrig_frer (s : State) (n : Nat) (f : Trigger → Trigger) : (s.updTrig n f).frer = s.frer := rfl
@[simp] theorem State.updTrig_time (s : State) (n : Nat) (f : Trigger → Trigger) : (s.updTrig n f).time = s.time := rfl
@[simp] theorem State.updTrig_herd (s : State) (n : Nat) (f : Trigger → Trigger) : (s.updTrig n f).herd = s.herd := rfl
@[simp] theorem State.updTrig_intc (s : State) (n : Nat) (f : Trigger → Trigger) : (s.updTrig n f).intc = s.intc := rfl
@[simp] theorem State.updTrig_faults (s : State) (n : Nat) (f : Trigger → Trigger) : (s.updTrig n f).faults = s.faults := rfl
@[simp] theorem State.updTrig_health (s : State) (n : Nat) (f : Trigger → Trigger) : (s.updTrig n f).health = s.health := rfl
@[simp] theorem State.updTrig_pcie (s : State) (n : Nat) (f : Trigger → Trigger) : (s.updTrig n f).pcie = s.pcie := rfl
@[simp] theorem State.updTrig_mem (s : State) (n : Nat) (f : Trigger → Trigger) : (s.updTrig n f).mem = s.mem := rfl
@[simp] theorem State.updTrig_pins (s : State) (n : Nat) (f : Trigger → Trigger) : (s.updTrig n f).pins = s.pins := rfl

/-! updEv -/

@[simp] theorem State.updEv_pending (s : State) (i : Nat) (f : EvIn → EvIn) : (s.updEv i f).pending = s.pending := rfl
@[simp] theorem State.updEv_cycle (s : State) (i : Nat) (f : EvIn → EvIn) : (s.updEv i f).cycle = s.cycle := rfl
@[simp] theorem State.updEv_free (s : State) (i : Nat) (f : EvIn → EvIn) : (s.updEv i f).free = s.free := rfl
@[simp] theorem State.updEv_out (s : State) (i : Nat) (f : EvIn → EvIn) : (s.updEv i f).out = s.out := rfl
@[simp] theorem State.updEv_hits (s : State) (i : Nat) (f : EvIn → EvIn) : (s.updEv i f).hits = s.hits := rfl
@[simp] theorem State.updEv_ident (s : State) (i : Nat) (f : EvIn → EvIn) : (s.updEv i f).ident = s.ident := rfl
@[simp] theorem State.updEv_chip (s : State) (i : Nat) (f : EvIn → EvIn) : (s.updEv i f).chip = s.chip := rfl
@[simp] theorem State.updEv_mram (s : State) (i : Nat) (f : EvIn → EvIn) : (s.updEv i f).mram = s.mram := rfl
@[simp] theorem State.updEv_cfg (s : State) (i : Nat) (f : EvIn → EvIn) : (s.updEv i f).cfg = s.cfg := rfl
@[simp] theorem State.updEv_nap (s : State) (i : Nat) (f : EvIn → EvIn) : (s.updEv i f).nap = s.nap := rfl
@[simp] theorem State.updEv_cnt (s : State) (i : Nat) (f : EvIn → EvIn) : (s.updEv i f).cnt = s.cnt := rfl
@[simp] theorem State.updEv_fabric (s : State) (i : Nat) (f : EvIn → EvIn) : (s.updEv i f).fabric = s.fabric := rfl
@[simp] theorem State.updEv_ports (s : State) (i : Nat) (f : EvIn → EvIn) : (s.updEv i f).ports = s.ports := rfl
@[simp] theorem State.updEv_fdb (s : State) (i : Nat) (f : EvIn → EvIn) : (s.updEv i f).fdb = s.fdb := rfl
@[simp] theorem State.updEv_psfp (s : State) (i : Nat) (f : EvIn → EvIn) : (s.updEv i f).psfp = s.psfp := rfl
@[simp] theorem State.updEv_gates (s : State) (i : Nat) (f : EvIn → EvIn) : (s.updEv i f).gates = s.gates := rfl
@[simp] theorem State.updEv_tine (s : State) (i : Nat) (f : EvIn → EvIn) : (s.updEv i f).tine = s.tine := rfl
@[simp] theorem State.updEv_dma (s : State) (i : Nat) (f : EvIn → EvIn) : (s.updEv i f).dma = s.dma := rfl
@[simp] theorem State.updEv_feeds (s : State) (i : Nat) (f : EvIn → EvIn) : (s.updEv i f).feeds = s.feeds := rfl
@[simp] theorem State.updEv_pair (s : State) (i : Nat) (f : EvIn → EvIn) : (s.updEv i f).pair = s.pair := rfl
@[simp] theorem State.updEv_linkDelay (s : State) (i : Nat) (f : EvIn → EvIn) : (s.updEv i f).linkDelay = s.linkDelay := rfl
@[simp] theorem State.updEv_frer (s : State) (i : Nat) (f : EvIn → EvIn) : (s.updEv i f).frer = s.frer := rfl
@[simp] theorem State.updEv_time (s : State) (i : Nat) (f : EvIn → EvIn) : (s.updEv i f).time = s.time := rfl
@[simp] theorem State.updEv_herd (s : State) (i : Nat) (f : EvIn → EvIn) : (s.updEv i f).herd = s.herd := rfl
@[simp] theorem State.updEv_intc (s : State) (i : Nat) (f : EvIn → EvIn) : (s.updEv i f).intc = s.intc := rfl
@[simp] theorem State.updEv_faults (s : State) (i : Nat) (f : EvIn → EvIn) : (s.updEv i f).faults = s.faults := rfl
@[simp] theorem State.updEv_health (s : State) (i : Nat) (f : EvIn → EvIn) : (s.updEv i f).health = s.health := rfl
@[simp] theorem State.updEv_pcie (s : State) (i : Nat) (f : EvIn → EvIn) : (s.updEv i f).pcie = s.pcie := rfl
@[simp] theorem State.updEv_mem (s : State) (i : Nat) (f : EvIn → EvIn) : (s.updEv i f).mem = s.mem := rfl
@[simp] theorem State.updEv_pins (s : State) (i : Nat) (f : EvIn → EvIn) : (s.updEv i f).pins = s.pins := rfl

/-! updPair -/

@[simp] theorem State.updPair_pending (s : State) (f : Pair → Pair) : (s.updPair f).pending = s.pending := rfl
@[simp] theorem State.updPair_cycle (s : State) (f : Pair → Pair) : (s.updPair f).cycle = s.cycle := rfl
@[simp] theorem State.updPair_free (s : State) (f : Pair → Pair) : (s.updPair f).free = s.free := rfl
@[simp] theorem State.updPair_out (s : State) (f : Pair → Pair) : (s.updPair f).out = s.out := rfl
@[simp] theorem State.updPair_hits (s : State) (f : Pair → Pair) : (s.updPair f).hits = s.hits := rfl
@[simp] theorem State.updPair_ident (s : State) (f : Pair → Pair) : (s.updPair f).ident = s.ident := rfl
@[simp] theorem State.updPair_chip (s : State) (f : Pair → Pair) : (s.updPair f).chip = s.chip := rfl
@[simp] theorem State.updPair_mram (s : State) (f : Pair → Pair) : (s.updPair f).mram = s.mram := rfl
@[simp] theorem State.updPair_cfg (s : State) (f : Pair → Pair) : (s.updPair f).cfg = s.cfg := rfl
@[simp] theorem State.updPair_nap (s : State) (f : Pair → Pair) : (s.updPair f).nap = s.nap := rfl
@[simp] theorem State.updPair_cnt (s : State) (f : Pair → Pair) : (s.updPair f).cnt = s.cnt := rfl
@[simp] theorem State.updPair_fabric (s : State) (f : Pair → Pair) : (s.updPair f).fabric = s.fabric := rfl
@[simp] theorem State.updPair_ports (s : State) (f : Pair → Pair) : (s.updPair f).ports = s.ports := rfl
@[simp] theorem State.updPair_fdb (s : State) (f : Pair → Pair) : (s.updPair f).fdb = s.fdb := rfl
@[simp] theorem State.updPair_psfp (s : State) (f : Pair → Pair) : (s.updPair f).psfp = s.psfp := rfl
@[simp] theorem State.updPair_gates (s : State) (f : Pair → Pair) : (s.updPair f).gates = s.gates := rfl
@[simp] theorem State.updPair_tine (s : State) (f : Pair → Pair) : (s.updPair f).tine = s.tine := rfl
@[simp] theorem State.updPair_dma (s : State) (f : Pair → Pair) : (s.updPair f).dma = s.dma := rfl
@[simp] theorem State.updPair_feeds (s : State) (f : Pair → Pair) : (s.updPair f).feeds = s.feeds := rfl
@[simp] theorem State.updPair_linkDelay (s : State) (f : Pair → Pair) : (s.updPair f).linkDelay = s.linkDelay := rfl
@[simp] theorem State.updPair_frer (s : State) (f : Pair → Pair) : (s.updPair f).frer = s.frer := rfl
@[simp] theorem State.updPair_time (s : State) (f : Pair → Pair) : (s.updPair f).time = s.time := rfl
@[simp] theorem State.updPair_trig (s : State) (f : Pair → Pair) : (s.updPair f).trig = s.trig := rfl
@[simp] theorem State.updPair_herd (s : State) (f : Pair → Pair) : (s.updPair f).herd = s.herd := rfl
@[simp] theorem State.updPair_intc (s : State) (f : Pair → Pair) : (s.updPair f).intc = s.intc := rfl
@[simp] theorem State.updPair_faults (s : State) (f : Pair → Pair) : (s.updPair f).faults = s.faults := rfl
@[simp] theorem State.updPair_health (s : State) (f : Pair → Pair) : (s.updPair f).health = s.health := rfl
@[simp] theorem State.updPair_pcie (s : State) (f : Pair → Pair) : (s.updPair f).pcie = s.pcie := rfl
@[simp] theorem State.updPair_mem (s : State) (f : Pair → Pair) : (s.updPair f).mem = s.mem := rfl
@[simp] theorem State.updPair_pins (s : State) (f : Pair → Pair) : (s.updPair f).pins = s.pins := rfl

/-! bumpPair -/

@[simp] theorem State.bumpPair_pending (s : State) (sub : Nat) : (s.bumpPair sub).pending = s.pending := rfl
@[simp] theorem State.bumpPair_cycle (s : State) (sub : Nat) : (s.bumpPair sub).cycle = s.cycle := rfl
@[simp] theorem State.bumpPair_free (s : State) (sub : Nat) : (s.bumpPair sub).free = s.free := rfl
@[simp] theorem State.bumpPair_out (s : State) (sub : Nat) : (s.bumpPair sub).out = s.out := rfl
@[simp] theorem State.bumpPair_hits (s : State) (sub : Nat) : (s.bumpPair sub).hits = s.hits := rfl
@[simp] theorem State.bumpPair_ident (s : State) (sub : Nat) : (s.bumpPair sub).ident = s.ident := rfl
@[simp] theorem State.bumpPair_chip (s : State) (sub : Nat) : (s.bumpPair sub).chip = s.chip := rfl
@[simp] theorem State.bumpPair_mram (s : State) (sub : Nat) : (s.bumpPair sub).mram = s.mram := rfl
@[simp] theorem State.bumpPair_cfg (s : State) (sub : Nat) : (s.bumpPair sub).cfg = s.cfg := rfl
@[simp] theorem State.bumpPair_nap (s : State) (sub : Nat) : (s.bumpPair sub).nap = s.nap := rfl
@[simp] theorem State.bumpPair_fabric (s : State) (sub : Nat) : (s.bumpPair sub).fabric = s.fabric := rfl
@[simp] theorem State.bumpPair_ports (s : State) (sub : Nat) : (s.bumpPair sub).ports = s.ports := rfl
@[simp] theorem State.bumpPair_fdb (s : State) (sub : Nat) : (s.bumpPair sub).fdb = s.fdb := rfl
@[simp] theorem State.bumpPair_psfp (s : State) (sub : Nat) : (s.bumpPair sub).psfp = s.psfp := rfl
@[simp] theorem State.bumpPair_gates (s : State) (sub : Nat) : (s.bumpPair sub).gates = s.gates := rfl
@[simp] theorem State.bumpPair_tine (s : State) (sub : Nat) : (s.bumpPair sub).tine = s.tine := rfl
@[simp] theorem State.bumpPair_dma (s : State) (sub : Nat) : (s.bumpPair sub).dma = s.dma := rfl
@[simp] theorem State.bumpPair_feeds (s : State) (sub : Nat) : (s.bumpPair sub).feeds = s.feeds := rfl
@[simp] theorem State.bumpPair_pair (s : State) (sub : Nat) : (s.bumpPair sub).pair = s.pair := rfl
@[simp] theorem State.bumpPair_linkDelay (s : State) (sub : Nat) : (s.bumpPair sub).linkDelay = s.linkDelay := rfl
@[simp] theorem State.bumpPair_frer (s : State) (sub : Nat) : (s.bumpPair sub).frer = s.frer := rfl
@[simp] theorem State.bumpPair_time (s : State) (sub : Nat) : (s.bumpPair sub).time = s.time := rfl
@[simp] theorem State.bumpPair_trig (s : State) (sub : Nat) : (s.bumpPair sub).trig = s.trig := rfl
@[simp] theorem State.bumpPair_herd (s : State) (sub : Nat) : (s.bumpPair sub).herd = s.herd := rfl
@[simp] theorem State.bumpPair_intc (s : State) (sub : Nat) : (s.bumpPair sub).intc = s.intc := rfl
@[simp] theorem State.bumpPair_faults (s : State) (sub : Nat) : (s.bumpPair sub).faults = s.faults := rfl
@[simp] theorem State.bumpPair_health (s : State) (sub : Nat) : (s.bumpPair sub).health = s.health := rfl
@[simp] theorem State.bumpPair_pcie (s : State) (sub : Nat) : (s.bumpPair sub).pcie = s.pcie := rfl
@[simp] theorem State.bumpPair_mem (s : State) (sub : Nat) : (s.bumpPair sub).mem = s.mem := rfl
@[simp] theorem State.bumpPair_pins (s : State) (sub : Nat) : (s.bumpPair sub).pins = s.pins := rfl

/-! updDrr -/

@[simp] theorem State.updDrr_pending (s : State) (p : Nat) (f : Drr → Drr) : (s.updDrr p f).pending = s.pending := rfl
@[simp] theorem State.updDrr_cycle (s : State) (p : Nat) (f : Drr → Drr) : (s.updDrr p f).cycle = s.cycle := rfl
@[simp] theorem State.updDrr_free (s : State) (p : Nat) (f : Drr → Drr) : (s.updDrr p f).free = s.free := rfl
@[simp] theorem State.updDrr_out (s : State) (p : Nat) (f : Drr → Drr) : (s.updDrr p f).out = s.out := rfl
@[simp] theorem State.updDrr_hits (s : State) (p : Nat) (f : Drr → Drr) : (s.updDrr p f).hits = s.hits := rfl
@[simp] theorem State.updDrr_ident (s : State) (p : Nat) (f : Drr → Drr) : (s.updDrr p f).ident = s.ident := rfl
@[simp] theorem State.updDrr_chip (s : State) (p : Nat) (f : Drr → Drr) : (s.updDrr p f).chip = s.chip := rfl
@[simp] theorem State.updDrr_mram (s : State) (p : Nat) (f : Drr → Drr) : (s.updDrr p f).mram = s.mram := rfl
@[simp] theorem State.updDrr_cfg (s : State) (p : Nat) (f : Drr → Drr) : (s.updDrr p f).cfg = s.cfg := rfl
@[simp] theorem State.updDrr_nap (s : State) (p : Nat) (f : Drr → Drr) : (s.updDrr p f).nap = s.nap := rfl
@[simp] theorem State.updDrr_cnt (s : State) (p : Nat) (f : Drr → Drr) : (s.updDrr p f).cnt = s.cnt := rfl
@[simp] theorem State.updDrr_ports (s : State) (p : Nat) (f : Drr → Drr) : (s.updDrr p f).ports = s.ports := rfl
@[simp] theorem State.updDrr_fdb (s : State) (p : Nat) (f : Drr → Drr) : (s.updDrr p f).fdb = s.fdb := rfl
@[simp] theorem State.updDrr_psfp (s : State) (p : Nat) (f : Drr → Drr) : (s.updDrr p f).psfp = s.psfp := rfl
@[simp] theorem State.updDrr_gates (s : State) (p : Nat) (f : Drr → Drr) : (s.updDrr p f).gates = s.gates := rfl
@[simp] theorem State.updDrr_tine (s : State) (p : Nat) (f : Drr → Drr) : (s.updDrr p f).tine = s.tine := rfl
@[simp] theorem State.updDrr_dma (s : State) (p : Nat) (f : Drr → Drr) : (s.updDrr p f).dma = s.dma := rfl
@[simp] theorem State.updDrr_feeds (s : State) (p : Nat) (f : Drr → Drr) : (s.updDrr p f).feeds = s.feeds := rfl
@[simp] theorem State.updDrr_pair (s : State) (p : Nat) (f : Drr → Drr) : (s.updDrr p f).pair = s.pair := rfl
@[simp] theorem State.updDrr_linkDelay (s : State) (p : Nat) (f : Drr → Drr) : (s.updDrr p f).linkDelay = s.linkDelay := rfl
@[simp] theorem State.updDrr_frer (s : State) (p : Nat) (f : Drr → Drr) : (s.updDrr p f).frer = s.frer := rfl
@[simp] theorem State.updDrr_time (s : State) (p : Nat) (f : Drr → Drr) : (s.updDrr p f).time = s.time := rfl
@[simp] theorem State.updDrr_trig (s : State) (p : Nat) (f : Drr → Drr) : (s.updDrr p f).trig = s.trig := rfl
@[simp] theorem State.updDrr_herd (s : State) (p : Nat) (f : Drr → Drr) : (s.updDrr p f).herd = s.herd := rfl
@[simp] theorem State.updDrr_intc (s : State) (p : Nat) (f : Drr → Drr) : (s.updDrr p f).intc = s.intc := rfl
@[simp] theorem State.updDrr_faults (s : State) (p : Nat) (f : Drr → Drr) : (s.updDrr p f).faults = s.faults := rfl
@[simp] theorem State.updDrr_health (s : State) (p : Nat) (f : Drr → Drr) : (s.updDrr p f).health = s.health := rfl
@[simp] theorem State.updDrr_pcie (s : State) (p : Nat) (f : Drr → Drr) : (s.updDrr p f).pcie = s.pcie := rfl
@[simp] theorem State.updDrr_mem (s : State) (p : Nat) (f : Drr → Drr) : (s.updDrr p f).mem = s.mem := rfl
@[simp] theorem State.updDrr_pins (s : State) (p : Nat) (f : Drr → Drr) : (s.updDrr p f).pins = s.pins := rfl

/-! updHerd -/

@[simp] theorem State.updHerd_pending (s : State) (f : Herd → Herd) : (s.updHerd f).pending = s.pending := rfl
@[simp] theorem State.updHerd_cycle (s : State) (f : Herd → Herd) : (s.updHerd f).cycle = s.cycle := rfl
@[simp] theorem State.updHerd_free (s : State) (f : Herd → Herd) : (s.updHerd f).free = s.free := rfl
@[simp] theorem State.updHerd_out (s : State) (f : Herd → Herd) : (s.updHerd f).out = s.out := rfl
@[simp] theorem State.updHerd_hits (s : State) (f : Herd → Herd) : (s.updHerd f).hits = s.hits := rfl
@[simp] theorem State.updHerd_ident (s : State) (f : Herd → Herd) : (s.updHerd f).ident = s.ident := rfl
@[simp] theorem State.updHerd_chip (s : State) (f : Herd → Herd) : (s.updHerd f).chip = s.chip := rfl
@[simp] theorem State.updHerd_mram (s : State) (f : Herd → Herd) : (s.updHerd f).mram = s.mram := rfl
@[simp] theorem State.updHerd_cfg (s : State) (f : Herd → Herd) : (s.updHerd f).cfg = s.cfg := rfl
@[simp] theorem State.updHerd_nap (s : State) (f : Herd → Herd) : (s.updHerd f).nap = s.nap := rfl
@[simp] theorem State.updHerd_cnt (s : State) (f : Herd → Herd) : (s.updHerd f).cnt = s.cnt := rfl
@[simp] theorem State.updHerd_fabric (s : State) (f : Herd → Herd) : (s.updHerd f).fabric = s.fabric := rfl
@[simp] theorem State.updHerd_ports (s : State) (f : Herd → Herd) : (s.updHerd f).ports = s.ports := rfl
@[simp] theorem State.updHerd_fdb (s : State) (f : Herd → Herd) : (s.updHerd f).fdb = s.fdb := rfl
@[simp] theorem State.updHerd_psfp (s : State) (f : Herd → Herd) : (s.updHerd f).psfp = s.psfp := rfl
@[simp] theorem State.updHerd_gates (s : State) (f : Herd → Herd) : (s.updHerd f).gates = s.gates := rfl
@[simp] theorem State.updHerd_tine (s : State) (f : Herd → Herd) : (s.updHerd f).tine = s.tine := rfl
@[simp] theorem State.updHerd_dma (s : State) (f : Herd → Herd) : (s.updHerd f).dma = s.dma := rfl
@[simp] theorem State.updHerd_feeds (s : State) (f : Herd → Herd) : (s.updHerd f).feeds = s.feeds := rfl
@[simp] theorem State.updHerd_pair (s : State) (f : Herd → Herd) : (s.updHerd f).pair = s.pair := rfl
@[simp] theorem State.updHerd_linkDelay (s : State) (f : Herd → Herd) : (s.updHerd f).linkDelay = s.linkDelay := rfl
@[simp] theorem State.updHerd_frer (s : State) (f : Herd → Herd) : (s.updHerd f).frer = s.frer := rfl
@[simp] theorem State.updHerd_time (s : State) (f : Herd → Herd) : (s.updHerd f).time = s.time := rfl
@[simp] theorem State.updHerd_trig (s : State) (f : Herd → Herd) : (s.updHerd f).trig = s.trig := rfl
@[simp] theorem State.updHerd_intc (s : State) (f : Herd → Herd) : (s.updHerd f).intc = s.intc := rfl
@[simp] theorem State.updHerd_faults (s : State) (f : Herd → Herd) : (s.updHerd f).faults = s.faults := rfl
@[simp] theorem State.updHerd_health (s : State) (f : Herd → Herd) : (s.updHerd f).health = s.health := rfl
@[simp] theorem State.updHerd_pcie (s : State) (f : Herd → Herd) : (s.updHerd f).pcie = s.pcie := rfl
@[simp] theorem State.updHerd_mem (s : State) (f : Herd → Herd) : (s.updHerd f).mem = s.mem := rfl
@[simp] theorem State.updHerd_pins (s : State) (f : Herd → Herd) : (s.updHerd f).pins = s.pins := rfl

/-! bumpHerd -/

@[simp] theorem State.bumpHerd_pending (s : State) (sub : Nat) : (s.bumpHerd sub).pending = s.pending := rfl
@[simp] theorem State.bumpHerd_cycle (s : State) (sub : Nat) : (s.bumpHerd sub).cycle = s.cycle := rfl
@[simp] theorem State.bumpHerd_free (s : State) (sub : Nat) : (s.bumpHerd sub).free = s.free := rfl
@[simp] theorem State.bumpHerd_out (s : State) (sub : Nat) : (s.bumpHerd sub).out = s.out := rfl
@[simp] theorem State.bumpHerd_hits (s : State) (sub : Nat) : (s.bumpHerd sub).hits = s.hits := rfl
@[simp] theorem State.bumpHerd_ident (s : State) (sub : Nat) : (s.bumpHerd sub).ident = s.ident := rfl
@[simp] theorem State.bumpHerd_chip (s : State) (sub : Nat) : (s.bumpHerd sub).chip = s.chip := rfl
@[simp] theorem State.bumpHerd_mram (s : State) (sub : Nat) : (s.bumpHerd sub).mram = s.mram := rfl
@[simp] theorem State.bumpHerd_cfg (s : State) (sub : Nat) : (s.bumpHerd sub).cfg = s.cfg := rfl
@[simp] theorem State.bumpHerd_nap (s : State) (sub : Nat) : (s.bumpHerd sub).nap = s.nap := rfl
@[simp] theorem State.bumpHerd_fabric (s : State) (sub : Nat) : (s.bumpHerd sub).fabric = s.fabric := rfl
@[simp] theorem State.bumpHerd_ports (s : State) (sub : Nat) : (s.bumpHerd sub).ports = s.ports := rfl
@[simp] theorem State.bumpHerd_fdb (s : State) (sub : Nat) : (s.bumpHerd sub).fdb = s.fdb := rfl
@[simp] theorem State.bumpHerd_psfp (s : State) (sub : Nat) : (s.bumpHerd sub).psfp = s.psfp := rfl
@[simp] theorem State.bumpHerd_gates (s : State) (sub : Nat) : (s.bumpHerd sub).gates = s.gates := rfl
@[simp] theorem State.bumpHerd_tine (s : State) (sub : Nat) : (s.bumpHerd sub).tine = s.tine := rfl
@[simp] theorem State.bumpHerd_dma (s : State) (sub : Nat) : (s.bumpHerd sub).dma = s.dma := rfl
@[simp] theorem State.bumpHerd_feeds (s : State) (sub : Nat) : (s.bumpHerd sub).feeds = s.feeds := rfl
@[simp] theorem State.bumpHerd_pair (s : State) (sub : Nat) : (s.bumpHerd sub).pair = s.pair := rfl
@[simp] theorem State.bumpHerd_linkDelay (s : State) (sub : Nat) : (s.bumpHerd sub).linkDelay = s.linkDelay := rfl
@[simp] theorem State.bumpHerd_frer (s : State) (sub : Nat) : (s.bumpHerd sub).frer = s.frer := rfl
@[simp] theorem State.bumpHerd_time (s : State) (sub : Nat) : (s.bumpHerd sub).time = s.time := rfl
@[simp] theorem State.bumpHerd_trig (s : State) (sub : Nat) : (s.bumpHerd sub).trig = s.trig := rfl
@[simp] theorem State.bumpHerd_herd (s : State) (sub : Nat) : (s.bumpHerd sub).herd = s.herd := rfl
@[simp] theorem State.bumpHerd_intc (s : State) (sub : Nat) : (s.bumpHerd sub).intc = s.intc := rfl
@[simp] theorem State.bumpHerd_faults (s : State) (sub : Nat) : (s.bumpHerd sub).faults = s.faults := rfl
@[simp] theorem State.bumpHerd_health (s : State) (sub : Nat) : (s.bumpHerd sub).health = s.health := rfl
@[simp] theorem State.bumpHerd_pcie (s : State) (sub : Nat) : (s.bumpHerd sub).pcie = s.pcie := rfl
@[simp] theorem State.bumpHerd_mem (s : State) (sub : Nat) : (s.bumpHerd sub).mem = s.mem := rfl
@[simp] theorem State.bumpHerd_pins (s : State) (sub : Nat) : (s.bumpHerd sub).pins = s.pins := rfl

/-! updRecov -/

@[simp] theorem State.updRecov_pending (s : State) (k : Nat) (f : Recov → Recov) : (s.updRecov k f).pending = s.pending := rfl
@[simp] theorem State.updRecov_cycle (s : State) (k : Nat) (f : Recov → Recov) : (s.updRecov k f).cycle = s.cycle := rfl
@[simp] theorem State.updRecov_free (s : State) (k : Nat) (f : Recov → Recov) : (s.updRecov k f).free = s.free := rfl
@[simp] theorem State.updRecov_out (s : State) (k : Nat) (f : Recov → Recov) : (s.updRecov k f).out = s.out := rfl
@[simp] theorem State.updRecov_hits (s : State) (k : Nat) (f : Recov → Recov) : (s.updRecov k f).hits = s.hits := rfl
@[simp] theorem State.updRecov_ident (s : State) (k : Nat) (f : Recov → Recov) : (s.updRecov k f).ident = s.ident := rfl
@[simp] theorem State.updRecov_chip (s : State) (k : Nat) (f : Recov → Recov) : (s.updRecov k f).chip = s.chip := rfl
@[simp] theorem State.updRecov_mram (s : State) (k : Nat) (f : Recov → Recov) : (s.updRecov k f).mram = s.mram := rfl
@[simp] theorem State.updRecov_cfg (s : State) (k : Nat) (f : Recov → Recov) : (s.updRecov k f).cfg = s.cfg := rfl
@[simp] theorem State.updRecov_nap (s : State) (k : Nat) (f : Recov → Recov) : (s.updRecov k f).nap = s.nap := rfl
@[simp] theorem State.updRecov_cnt (s : State) (k : Nat) (f : Recov → Recov) : (s.updRecov k f).cnt = s.cnt := rfl
@[simp] theorem State.updRecov_fabric (s : State) (k : Nat) (f : Recov → Recov) : (s.updRecov k f).fabric = s.fabric := rfl
@[simp] theorem State.updRecov_ports (s : State) (k : Nat) (f : Recov → Recov) : (s.updRecov k f).ports = s.ports := rfl
@[simp] theorem State.updRecov_fdb (s : State) (k : Nat) (f : Recov → Recov) : (s.updRecov k f).fdb = s.fdb := rfl
@[simp] theorem State.updRecov_psfp (s : State) (k : Nat) (f : Recov → Recov) : (s.updRecov k f).psfp = s.psfp := rfl
@[simp] theorem State.updRecov_gates (s : State) (k : Nat) (f : Recov → Recov) : (s.updRecov k f).gates = s.gates := rfl
@[simp] theorem State.updRecov_tine (s : State) (k : Nat) (f : Recov → Recov) : (s.updRecov k f).tine = s.tine := rfl
@[simp] theorem State.updRecov_dma (s : State) (k : Nat) (f : Recov → Recov) : (s.updRecov k f).dma = s.dma := rfl
@[simp] theorem State.updRecov_feeds (s : State) (k : Nat) (f : Recov → Recov) : (s.updRecov k f).feeds = s.feeds := rfl
@[simp] theorem State.updRecov_pair (s : State) (k : Nat) (f : Recov → Recov) : (s.updRecov k f).pair = s.pair := rfl
@[simp] theorem State.updRecov_linkDelay (s : State) (k : Nat) (f : Recov → Recov) : (s.updRecov k f).linkDelay = s.linkDelay := rfl
@[simp] theorem State.updRecov_time (s : State) (k : Nat) (f : Recov → Recov) : (s.updRecov k f).time = s.time := rfl
@[simp] theorem State.updRecov_trig (s : State) (k : Nat) (f : Recov → Recov) : (s.updRecov k f).trig = s.trig := rfl
@[simp] theorem State.updRecov_herd (s : State) (k : Nat) (f : Recov → Recov) : (s.updRecov k f).herd = s.herd := rfl
@[simp] theorem State.updRecov_intc (s : State) (k : Nat) (f : Recov → Recov) : (s.updRecov k f).intc = s.intc := rfl
@[simp] theorem State.updRecov_faults (s : State) (k : Nat) (f : Recov → Recov) : (s.updRecov k f).faults = s.faults := rfl
@[simp] theorem State.updRecov_health (s : State) (k : Nat) (f : Recov → Recov) : (s.updRecov k f).health = s.health := rfl
@[simp] theorem State.updRecov_pcie (s : State) (k : Nat) (f : Recov → Recov) : (s.updRecov k f).pcie = s.pcie := rfl
@[simp] theorem State.updRecov_mem (s : State) (k : Nat) (f : Recov → Recov) : (s.updRecov k f).mem = s.mem := rfl
@[simp] theorem State.updRecov_pins (s : State) (k : Nat) (f : Recov → Recov) : (s.updRecov k f).pins = s.pins := rfl

/-! ringWrite -/

@[simp] theorem ringWrite_pending (r v : Nat) (s : State) : (ringWrite r v s).pending = s.pending := rfl
@[simp] theorem ringWrite_cycle (r v : Nat) (s : State) : (ringWrite r v s).cycle = s.cycle := rfl
@[simp] theorem ringWrite_free (r v : Nat) (s : State) : (ringWrite r v s).free = s.free := rfl
@[simp] theorem ringWrite_out (r v : Nat) (s : State) : (ringWrite r v s).out = s.out := rfl
@[simp] theorem ringWrite_hits (r v : Nat) (s : State) : (ringWrite r v s).hits = s.hits := rfl
@[simp] theorem ringWrite_ident (r v : Nat) (s : State) : (ringWrite r v s).ident = s.ident := rfl
@[simp] theorem ringWrite_chip (r v : Nat) (s : State) : (ringWrite r v s).chip = s.chip := rfl
@[simp] theorem ringWrite_cfg (r v : Nat) (s : State) : (ringWrite r v s).cfg = s.cfg := rfl
@[simp] theorem ringWrite_nap (r v : Nat) (s : State) : (ringWrite r v s).nap = s.nap := rfl
@[simp] theorem ringWrite_cnt (r v : Nat) (s : State) : (ringWrite r v s).cnt = s.cnt := rfl
@[simp] theorem ringWrite_fabric (r v : Nat) (s : State) : (ringWrite r v s).fabric = s.fabric := rfl
@[simp] theorem ringWrite_ports (r v : Nat) (s : State) : (ringWrite r v s).ports = s.ports := rfl
@[simp] theorem ringWrite_fdb (r v : Nat) (s : State) : (ringWrite r v s).fdb = s.fdb := rfl
@[simp] theorem ringWrite_psfp (r v : Nat) (s : State) : (ringWrite r v s).psfp = s.psfp := rfl
@[simp] theorem ringWrite_gates (r v : Nat) (s : State) : (ringWrite r v s).gates = s.gates := rfl
@[simp] theorem ringWrite_tine (r v : Nat) (s : State) : (ringWrite r v s).tine = s.tine := rfl
@[simp] theorem ringWrite_dma (r v : Nat) (s : State) : (ringWrite r v s).dma = s.dma := rfl
@[simp] theorem ringWrite_feeds (r v : Nat) (s : State) : (ringWrite r v s).feeds = s.feeds := rfl
@[simp] theorem ringWrite_pair (r v : Nat) (s : State) : (ringWrite r v s).pair = s.pair := rfl
@[simp] theorem ringWrite_linkDelay (r v : Nat) (s : State) : (ringWrite r v s).linkDelay = s.linkDelay := rfl
@[simp] theorem ringWrite_frer (r v : Nat) (s : State) : (ringWrite r v s).frer = s.frer := rfl
@[simp] theorem ringWrite_time (r v : Nat) (s : State) : (ringWrite r v s).time = s.time := rfl
@[simp] theorem ringWrite_trig (r v : Nat) (s : State) : (ringWrite r v s).trig = s.trig := rfl
@[simp] theorem ringWrite_herd (r v : Nat) (s : State) : (ringWrite r v s).herd = s.herd := rfl
@[simp] theorem ringWrite_intc (r v : Nat) (s : State) : (ringWrite r v s).intc = s.intc := rfl
@[simp] theorem ringWrite_faults (r v : Nat) (s : State) : (ringWrite r v s).faults = s.faults := rfl
@[simp] theorem ringWrite_health (r v : Nat) (s : State) : (ringWrite r v s).health = s.health := rfl
@[simp] theorem ringWrite_pcie (r v : Nat) (s : State) : (ringWrite r v s).pcie = s.pcie := rfl
@[simp] theorem ringWrite_mem (r v : Nat) (s : State) : (ringWrite r v s).mem = s.mem := rfl
@[simp] theorem ringWrite_pins (r v : Nat) (s : State) : (ringWrite r v s).pins = s.pins := rfl
@[simp] theorem ringWrite_mram_banks (r v : Nat) (s : State) : (ringWrite r v s).mram.banks = s.mram.banks := rfl
@[simp] theorem ringWrite_mram_keys (r v : Nat) (s : State) : (ringWrite r v s).mram.keys = s.mram.keys := rfl
@[simp] theorem ringWrite_mram_pairEpoch (r v : Nat) (s : State) : (ringWrite r v s).mram.pairEpoch = s.mram.pairEpoch := rfl
@[simp] theorem ringWrite_mram_safeReason (r v : Nat) (s : State) : (ringWrite r v s).mram.safeReason = s.mram.safeReason := rfl
@[simp] theorem ringWrite_mram_safeDetail (r v : Nat) (s : State) : (ringWrite r v s).mram.safeDetail = s.mram.safeDetail := rfl
@[simp] theorem ringWrite_mram_safeTime (r v : Nat) (s : State) : (ringWrite r v s).mram.safeTime = s.mram.safeTime := rfl
@[simp] theorem ringWrite_mram_safeEntries (r v : Nat) (s : State) : (ringWrite r v s).mram.safeEntries = s.mram.safeEntries := rfl
@[simp] theorem ringWrite_mram_checkpoint (r v : Nat) (s : State) : (ringWrite r v s).mram.checkpoint = s.mram.checkpoint := rfl
@[simp] theorem ringWrite_mram_cmdResets (r v : Nat) (s : State) : (ringWrite r v s).mram.cmdResets = s.mram.cmdResets := rfl
@[simp] theorem ringWrite_mram_checkpoints (r v : Nat) (s : State) : (ringWrite r v s).mram.checkpoints = s.mram.checkpoints := rfl

/-! ringClear -/

@[simp] theorem ringClear_pending (r : Nat) (s : State) : (ringClear r s).pending = s.pending := rfl
@[simp] theorem ringClear_cycle (r : Nat) (s : State) : (ringClear r s).cycle = s.cycle := rfl
@[simp] theorem ringClear_free (r : Nat) (s : State) : (ringClear r s).free = s.free := rfl
@[simp] theorem ringClear_out (r : Nat) (s : State) : (ringClear r s).out = s.out := rfl
@[simp] theorem ringClear_hits (r : Nat) (s : State) : (ringClear r s).hits = s.hits := rfl
@[simp] theorem ringClear_ident (r : Nat) (s : State) : (ringClear r s).ident = s.ident := rfl
@[simp] theorem ringClear_chip (r : Nat) (s : State) : (ringClear r s).chip = s.chip := rfl
@[simp] theorem ringClear_cfg (r : Nat) (s : State) : (ringClear r s).cfg = s.cfg := rfl
@[simp] theorem ringClear_nap (r : Nat) (s : State) : (ringClear r s).nap = s.nap := rfl
@[simp] theorem ringClear_cnt (r : Nat) (s : State) : (ringClear r s).cnt = s.cnt := rfl
@[simp] theorem ringClear_fabric (r : Nat) (s : State) : (ringClear r s).fabric = s.fabric := rfl
@[simp] theorem ringClear_ports (r : Nat) (s : State) : (ringClear r s).ports = s.ports := rfl
@[simp] theorem ringClear_fdb (r : Nat) (s : State) : (ringClear r s).fdb = s.fdb := rfl
@[simp] theorem ringClear_psfp (r : Nat) (s : State) : (ringClear r s).psfp = s.psfp := rfl
@[simp] theorem ringClear_gates (r : Nat) (s : State) : (ringClear r s).gates = s.gates := rfl
@[simp] theorem ringClear_tine (r : Nat) (s : State) : (ringClear r s).tine = s.tine := rfl
@[simp] theorem ringClear_dma (r : Nat) (s : State) : (ringClear r s).dma = s.dma := rfl
@[simp] theorem ringClear_feeds (r : Nat) (s : State) : (ringClear r s).feeds = s.feeds := rfl
@[simp] theorem ringClear_pair (r : Nat) (s : State) : (ringClear r s).pair = s.pair := rfl
@[simp] theorem ringClear_linkDelay (r : Nat) (s : State) : (ringClear r s).linkDelay = s.linkDelay := rfl
@[simp] theorem ringClear_frer (r : Nat) (s : State) : (ringClear r s).frer = s.frer := rfl
@[simp] theorem ringClear_time (r : Nat) (s : State) : (ringClear r s).time = s.time := rfl
@[simp] theorem ringClear_trig (r : Nat) (s : State) : (ringClear r s).trig = s.trig := rfl
@[simp] theorem ringClear_herd (r : Nat) (s : State) : (ringClear r s).herd = s.herd := rfl
@[simp] theorem ringClear_intc (r : Nat) (s : State) : (ringClear r s).intc = s.intc := rfl
@[simp] theorem ringClear_faults (r : Nat) (s : State) : (ringClear r s).faults = s.faults := rfl
@[simp] theorem ringClear_health (r : Nat) (s : State) : (ringClear r s).health = s.health := rfl
@[simp] theorem ringClear_pcie (r : Nat) (s : State) : (ringClear r s).pcie = s.pcie := rfl
@[simp] theorem ringClear_mem (r : Nat) (s : State) : (ringClear r s).mem = s.mem := rfl
@[simp] theorem ringClear_pins (r : Nat) (s : State) : (ringClear r s).pins = s.pins := rfl
@[simp] theorem ringClear_mram_banks (r : Nat) (s : State) : (ringClear r s).mram.banks = s.mram.banks := rfl
@[simp] theorem ringClear_mram_keys (r : Nat) (s : State) : (ringClear r s).mram.keys = s.mram.keys := rfl
@[simp] theorem ringClear_mram_pairEpoch (r : Nat) (s : State) : (ringClear r s).mram.pairEpoch = s.mram.pairEpoch := rfl
@[simp] theorem ringClear_mram_safeReason (r : Nat) (s : State) : (ringClear r s).mram.safeReason = s.mram.safeReason := rfl
@[simp] theorem ringClear_mram_safeDetail (r : Nat) (s : State) : (ringClear r s).mram.safeDetail = s.mram.safeDetail := rfl
@[simp] theorem ringClear_mram_safeTime (r : Nat) (s : State) : (ringClear r s).mram.safeTime = s.mram.safeTime := rfl
@[simp] theorem ringClear_mram_safeEntries (r : Nat) (s : State) : (ringClear r s).mram.safeEntries = s.mram.safeEntries := rfl
@[simp] theorem ringClear_mram_checkpoint (r : Nat) (s : State) : (ringClear r s).mram.checkpoint = s.mram.checkpoint := rfl
@[simp] theorem ringClear_mram_cmdResets (r : Nat) (s : State) : (ringClear r s).mram.cmdResets = s.mram.cmdResets := rfl
@[simp] theorem ringClear_mram_checkpoints (r : Nat) (s : State) : (ringClear r s).mram.checkpoints = s.mram.checkpoints := rfl

/-! What is read back -/

@[simp] theorem State.updPort_port (s : State) (p : Nat) (f : Port → Port) : (s.updPort p f).port p = f (s.port p) :=
  AMap.get_upd_same _ _ _ _

theorem State.updPort_port_other (s : State) {p q : Nat} (f : Port → Port) (h : p ≠ q) :
    (s.updPort p f).port q = s.port q := AMap.get_upd_other _ _ _ h

@[simp] theorem State.updTrig_trigger (s : State) (n : Nat) (f : Trigger → Trigger) :
    (s.updTrig n f).trigger n = f (s.trigger n) := AMap.get_upd_same _ _ _ _

@[simp] theorem State.updEv_ev (s : State) (i : Nat) (f : EvIn → EvIn) : (s.updEv i f).ev i = f (s.ev i) :=
  AMap.get_upd_same _ _ _ _

@[simp] theorem State.updGate_gate (s : State) (p : Nat) (f : Gate → Gate) : (s.updGate p f).gate p = f (s.gate p) :=
  AMap.get_upd_same _ _ _ _

@[simp] theorem State.updFault_fault (s : State) (b i : Nat) (f : FaultInst → FaultInst) :
    (s.updFault b i f).fault b i = f (s.fault b i) := AMap.get_upd_same _ _ _ _

@[simp] theorem State.updSource_source (s : State) (n : Nat) (f : IntSource → IntSource) :
    (s.updSource n f).source n = f (s.source n) := AMap.get_upd_same _ _ _ _

@[simp] theorem State.updGroup_group (s : State) (g : Nat) (f : IntGroup → IntGroup) :
    (s.updGroup g f).group g = f (s.group g) := AMap.get_upd_same _ _ _ _

@[simp] theorem State.updRecov_recov (s : State) (k : Nat) (f : Recov → Recov) :
    (s.updRecov k f).recov k = f (s.recov k) := AMap.get_set_same _ _ _ _

theorem State.updDom_dom (s : State) (d : Nat) (f : Domain → Domain) (h : d < s.time.domains.length) :
    (s.updDom d f).dom d = f (s.dom d) := updAt_getD_same _ _ _ _ h

theorem State.updDom_dom_other (s : State) {d e : Nat} (f : Domain → Domain) (h : d ≠ e) :
    (s.updDom d f).dom e = s.dom e := updAt_getD_other _ _ _ h

theorem State.updPf_pf (s : State) (f : Nat) (g : Pf → Pf) (h : f < s.pcie.pfs.length) :
    (s.updPf f g).pf f = g (s.pf f) := updAt_getD_same _ _ _ _ h

theorem State.updPf_pf_other (s : State) {f e : Nat} (g : Pf → Pf) (h : f ≠ e) : (s.updPf f g).pf e = s.pf e :=
  updAt_getD_other _ _ _ h

theorem State.updFifo_fifo (s : State) (k : Nat) (f : Fifo → Fifo) (h : k < s.tine.length) :
    (s.updFifo k f).fifo k = f (s.fifo k) := updAt_getD_same _ _ _ _ h

theorem State.updChan_chan (s : State) (c : Nat) (f : Chan → Chan) (h : c < s.dma.chans.length) :
    (s.updChan c f).chan c = f (s.chan c) := updAt_getD_same _ _ _ _ h

theorem State.updChan_chan_other (s : State) {c e : Nat} (f : Chan → Chan) (h : c ≠ e) :
    (s.updChan c f).chan e = s.chan e := updAt_getD_other _ _ _ h

end Sys2Proof.Machine
end

