-- ==== Sys2Proof/Laws/Transition.lean ====
section
/-!
SUPPORT. What a change of device state leaves in the state registers (R70), whatever the units do beside it.
-/
namespace Sys2Proof.Machine

/-- From an equality of the device states apart from the request for SAFE. -/
theorem chip_of_same {s t : State} (h : Part.Same .chip s t) :
    t.chip.mode = s.chip.mode ∧ t.chip.prev = s.chip.prev ∧ t.chip.entryTime = s.chip.entryTime ∧
    t.chip.reason = s.chip.reason ∧ t.chip.reasonDetail = s.chip.reasonDetail ∧ t.chip.reasonUnit = s.chip.reasonUnit ∧
    t.chip.startPending = s.chip.startPending ∧ t.chip.straps = s.chip.straps ∧ t.chip.lastCause = s.chip.lastCause ∧
    t.chip.releaseTime = s.chip.releaseTime ∧ t.chip.railsSince = s.chip.railsSince ∧ t.chip.refclk = s.chip.refclk ∧
    t.chip.pll = s.chip.pll ∧ t.chip.resetDue = s.chip.resetDue ∧ t.chip.resetHold = s.chip.resetHold := by
  have h' : ({ t.chip with safePending := none } : Chip) = { s.chip with safePending := none } := h
  simpa [Chip.mk.injEq, and_assoc] using h'

/-- The state registers after a transition. -/
theorem transition_chip (new : Mode) (s : State) :
    (transition new s).chip.mode = new ∧ (transition new s).chip.prev = s.chip.mode ∧
    (transition new s).chip.reason = s.chip.reason ∧ (transition new s).chip.reasonDetail = s.chip.reasonDetail ∧
    (transition new s).chip.reasonUnit = s.chip.reasonUnit ∧ (transition new s).chip.startPending = false ∧
    (transition new s).chip.straps = s.chip.straps ∧ (transition new s).chip.lastCause = s.chip.lastCause ∧
    (transition new s).chip.pll = s.chip.pll := by
  unfold transition
  dsimp only
  generalize hs2 : (if (isActive s.chip.mode && new != .run) = true then
    stopFor new (leaveRun (ppsState new (interruptCommit s))) else leaveRun (ppsState new (interruptCommit s))) = s2
  have h2 : Keeps 0xbfffffdf s s2 := by
    rw [← hs2]
    refine Keeps.ite (stopFor_keeps ?_ (Sub.of (by decide))) ?_ <;>
    exact leaveRun_keeps (ppsState_keeps (interruptCommit_keeps (Keeps.refl _ s) (Sub.of (by decide))) (Sub.of (by decide)))
      (Sub.of (by decide))
  have e2 := chip_of_same (h2.same .chip (by decide))
  have h3 : Keeps 0xffffffdf (setMode new s2)
      (pulse 189 (enterMode new (regimeChange s.chip.mode new (setMode new s2)))) :=
    pulse_keeps (enterMode_keeps (regimeChange_keeps (Keeps.refl _ _) (Sub.of (by decide))) (Sub.of (by decide)))
      (Sub.of (by decide))
  have e3 := chip_of_same (h3.same .chip (by decide))
  obtain ⟨a1, a2, a3, a4, a5, a6, a7, a8, a9, a10, a11, a12, a13, a14, a15⟩ := e2
  obtain ⟨b1, b2, b3, b4, b5, b6, b7, b8, b9, b10, b11, b12, b13, b14, b15⟩ := e3
  exact ⟨b1, b2.trans a1, b4.trans a4, b5.trans a5, b6.trans a6, b7, b8.trans a8, b9.trans a9, b13.trans a13⟩

/-- Entry to a state other than LOAD leaves the dictionary engine alone. -/
theorem enterMode_other {new : Mode} (hn : new ≠ .load) (s : State) : Keeps 0xfffffedf s (enterMode new s) := by
  unfold enterMode
  split
  · exact herdEnter_keeps (enterRun_keeps (Keeps.refl _ _) (Sub.of (by decide))) (Sub.of (by decide))
  · exact absurd rfl hn
  · exact herdEnter_keeps (resetDrr_keeps (resetShapers_keeps (Keeps.refl _ _) (Sub.of (by decide))) (Sub.of (by decide)))
      (Sub.of (by decide))
  · exact herdEnter_keeps (trigCut_keeps (Keeps.refl _ _) (Sub.of (by decide))) (Sub.of (by decide))

/-- A transition to a state other than LOAD closes the open transfers and leaves the rest of the engine as it was (R58). -/
theorem transition_nap {new : Mode} (hn : new ≠ .load) (s : State) :
    (transition new s).nap = { s.nap with transfers := [] } := by
  unfold transition
  dsimp only
  generalize hs2 : (if (isActive s.chip.mode && new != .run) = true then
    stopFor new (leaveRun (ppsState new (interruptCommit s))) else leaveRun (ppsState new (interruptCommit s))) = s2
  have h2 : Keeps 0xbffffedf s s2 := by
    rw [← hs2]
    refine Keeps.ite (stopFor_keeps ?_ (Sub.of (by decide))) ?_ <;>
    exact leaveRun_keeps (ppsState_keeps (interruptCommit_keeps (Keeps.refl _ s) (Sub.of (by decide))) (Sub.of (by decide)))
      (Sub.of (by decide))
  have h3 : Keeps 0xfffffedf (setMode new s2)
      (pulse 189 (enterMode new (regimeChange s.chip.mode new (setMode new s2)))) :=
    pulse_keeps (Keeps.trans (regimeChange_keeps (Keeps.refl _ _) (Sub.of (by decide))) (enterMode_other hn _))
      (Sub.of (by decide))
  have e2 : s2.nap = s.nap := h2.same .nap (by decide)
  have e3 : _ = (setMode new s2).nap := h3.same .nap (by decide)
  rw [e3]
  simp only [setMode, e2]

end Sys2Proof.Machine
end

