-- ==== Sys2Proof/Laws/Writes.lean ====
section
/-!
SUPPORT. What an access that is no access through the BAR2 window does, said once: in the state in which the engine performs it,
it answers an abort code and changes nothing else, or performs the write and answers.
-/
namespace Sys2Proof.Machine

/-- A write that R50 admits is one of an entry of the dictionary. -/
theorem admitWrite_ok {s : State} {r : Requester} {idx sub : Nat} {d : Datum} {o : ObjSpec} {e : EntrySpec} {sel : Bool}
    (h : admitWrite s r idx sub d = .ok (o, e, sel)) : objSpec s.ident idx = some o ∧ o.entry sub = some e := by
  unfold admitWrite at h
  split at h
  · cases h
  · split at h
    · cases h
    · split at h
      · cases h
      · rename_i o' ho
        split at h
        · cases h
        · rename_i e' he
          have hoe : o' = o ∧ e' = e := by
            dsimp only at h
            repeat' first
              | exact ⟨congrArg Prod.fst (Except.ok.inj h), congrArg (fun x => x.2.1) (Except.ok.inj h)⟩
              | contradiction
              | split at h
          exact ⟨hoe.1 ▸ ho, hoe.1 ▸ hoe.2 ▸ he⟩

/-- An accepted write is the write of R50 in the state that the engine's turn leaves, with its answer. -/
theorem answerWrite_turn {r : Requester} {s0 s : State} (hs : s = engineTurn r.path s0) (ha : Accepted r s) (idx sub : Nat)
    (v : Val) : answerWrite r idx sub v s0 =
      (objWrite r idx sub (.val v) s).2.emit (.answer r (objWrite r idx sub (.val v) s).1 none) := by
  subst hs
  obtain ⟨h1, h2, h3⟩ := ha
  unfold answerWrite
  split
  · rename_i hp
    rw [overWindow, hp] at h1
    cases h1
  · simp only [h2, h3]
    rfl

/-- The write of R50: an abort code and the state as it was, or the entry's write performed. -/
theorem objWrite_cases (r : Requester) (idx sub : Nat) (v : Val) (s : State) :
    (∃ c, objWrite r idx sub (.val v) s = (c, s)) ∨
    (∃ o e, objSpec s.ident idx = some o ∧ o.entry sub = some e ∧
      objWrite r idx sub (.val v) s = performWrite r o idx e v s) := by
  unfold objWrite
  split
  · exact .inl ⟨_, rfl⟩
  · rename_i o e sel hadm
    split
    · exact .inl ⟨_, rfl⟩
    · rename_i w hw
      split
      · exact .inl ⟨_, rfl⟩
      · split
        · exact .inl ⟨_, rfl⟩
        · have h := admitWrite_ok hadm
          refine .inr ⟨o, e, h.1, h.2, ?_⟩
          have hwv : w = v := by
            simp only [Datum.value] at hw
            split at hw
            · exact (Option.some.inj hw).symm
            · cases hw
          subst hwv; rfl

/-- A write that R50 refuses changes nothing but the answer. -/
theorem answerWrite_refused {r : Requester} {s0 s : State} {idx sub c : Nat} {v : Val} (hs : s = engineTurn r.path s0)
    (ha : Accepted r s) (h : admitWrite s r idx sub (.val v) = .error c) :
    answerWrite r idx sub v s0 = s.emit (.answer r c none) := by
  rw [answerWrite_turn hs ha, objWrite, h]

/-- A write that R50 lets through, with a value of the entry's type and range, while no commit holds it up, is performed. -/
theorem answerWrite_performs {r : Requester} {s0 s : State} {idx sub : Nat} {v : Val} {o : ObjSpec} {e : EntrySpec} {sel : Bool}
    (hs : s = engineTurn r.path s0) (ha : Accepted r s) (h : admitWrite s r idx sub (.val v) = .ok (o, e, sel))
    (hv : e.ty.encodes v = true) (hg : (!sel && !e.rng.ok e.ty v) = false)
    (hb : (commitRuns s && (e.acc == .rws || stagedAction o e v)) = false) :
    answerWrite r idx sub v s0 = (performWrite r o idx e v s).2.emit (.answer r (performWrite r o idx e v s).1 none) := by
  rw [answerWrite_turn hs ha]
  simp [objWrite, h, Datum.value, hv, hg, hb]

/-- While no request waits for the engine its turn changes nothing. -/
theorem engineTurn_empty (p : Path) {s : State} (h : s.nap.queue = []) : engineTurn p s = s := by
  unfold engineTurn aheadOf behindOf
  rw [h]
  split
  · show ({ s with nap := { s.nap with queue := [] } } : State) = s
    rw [← h]
  · rfl

/-- While no request waits, a write to an entry known beforehand changes what performing it changes, and answers. -/
theorem answerWrite_alone {m : Nat} (r : Requester) (idx sub : Nat) (v : Val) {s : State} (hq : s.nap.queue = [])
    (hw : overWindow r = false) (o : ObjSpec) (e : EntrySpec) (ho : objSpec s.ident idx = some o) (he : o.entry sub = some e)
    (hm : Sub 8 m) (hp : Keeps m s (performWrite r o idx e v s).2) : Keeps m s (answerWrite r idx sub v s) := by
  by_cases ha : isAlive s.chip.mode = true ∧ reqOk s r = true
  · rw [answerWrite_turn (engineTurn_empty _ hq).symm ⟨hw, ha.1, ha.2⟩]
    rcases objWrite_cases r idx sub v s with ⟨c, h⟩ | ⟨o', e', h1, h2, h⟩
    · rw [h]; exact State.emit_keeps (Keeps.refl _ _) hm
    · rw [h]
      have h3 : o' = o := Option.some.inj (h1.symm.trans ho)
      subst h3
      have h4 : e' = e := Option.some.inj (h2.symm.trans he)
      subst h4
      exact State.emit_keeps hp hm
  · unfold answerWrite
    split
    · rename_i hp
      rw [overWindow, hp] at hw
      cases hw
    · dsimp only
      rw [engineTurn_empty _ hq]
      split
      · rename_i hx
        rw [Bool.and_eq_true] at hx
        exact absurd hx ha
      · exact Keeps.refl _ _

end Sys2Proof.Machine
end

