-- ==== Sys2Proof/Machine/RegRead.lean ====
section
/-!
DEFINITION. What the BAR0 registers read (R12, R258, R278, R326, R370, R379, R383, R409, R427, R459, R477), as a function
of the state. The reads that change the state are commands of their own (TIME_FRAC_READ, TINE_RECORD_READ, CLAIM ...);
this function is the value any read returns.
-/
namespace Sys2Proof.Machine

/-- A word from fields given as (low bit, value). -/
def packed (l : List (Nat × Nat)) : Nat := (l.map fun x => x.2 * 2 ^ x.1).sum

/-- The low and high word of a 64-bit value. -/
def lo32 (n : Nat) : Nat := n % 2 ^ 32
def hi32 (n : Nat) : Nat := n / 2 ^ 32 % 2 ^ 32

/-- HOST_READS' OUTSTANDING of a function is what the DMA engine has outstanding (R376, R383). -/
def readGlobalReg (s : State) (f off : Nat) : Nat :=
  let p := s.pf f
  match off with
  | 0x00 => 0x2560
  | 0x04 => packed [(0, s.ident.revision), (8, s.ident.ordering)]
  | 0x08 =>
    let busy := b2n (decide (1 ≤ s.cfg.commit.status ∧ s.cfg.commit.status ≤ 5))
    packed [(0, modeCode s.chip.mode), (4, b2n s.chip.startPending), (5, busy), (6, b2n s.cfg.older.isSome), (8, locksHeld s),
      (16, locksRequired s)]
  | 0x0C => s.chip.reason
  | 0x10 =>
    packed [(0, f), (8, s.pcie.width), (13, s.pcie.speed), (16, b2n p.tag10), (17, if p.d3 then 3 else 0), (19, b2n (s.hostUp f))]
  | 0x14 => packed [(0, b2n p.writeDenied), (1, b2n p.badAccess), (2, b2n p.timeout), (3, b2n p.poisoned)]
  | 0x18 => p.scratch
  | 0x1C => packed [(0, p.reads), (16, readLimit p)]
  | 0x20 => s.chip.reasonDetail
  | 0x24 => s.chip.reasonUnit
  | _ => 0

/-- TARGET_STATUS (R427). -/
def targetStatus (s : State) (t : Nat) : Nat :=
  let x := s.target t
  let top := x.stack.headD (0, 0)
  packed [(0, runningPriority x), (4, x.stack.length), (8, b2n (thresholdMode s.chip.mode x)), (9, b2n x.request),
    (10, b2n (targetWakes s t)), (11, b2n x.underflow), (12, top.1)]

/-- The bits of a group's 32 sources that meet a test. -/
def groupBits (s : State) (g : Nat) (p : IntSource → Bool) : Nat :=
  packed ((upTo 32).map fun i => (i, b2n (p (s.source (32 * g + i)))))

/-- The interrupt controller's registers. CLAIM reads what the claim would return. -/
def readIntReg (s : State) (f off : Nat) : Nat :=
  if off < 0x400 then
    let t := off / 0x10
    let x := s.target t
    match off % 0x10 with
    | 0 => if x.function = f then ((bestSource s t).map (·.1)).getD 2047 else 2047
    | 8 => packed [(0, x.mode), (1, b2n x.mask), (2, b2n x.sleep), (4, x.threshold)]
    | 0xC => targetStatus s t
    | _ => 0
  else if off < 0x800 then
    let g := (off - 0x400) / 0x10
    match off % 0x10 with
    | 0 => groupBits s g (·.pending)
    | 4 => groupBits s g (·.enable)
    | 8 => (s.group g).holdoff
    | _ => b2n (holdoffRuns s g)
  else if off < 0x2800 then
    let x := s.source ((off - 0x800) / 4)
    packed [(0, x.level), (4, x.target), (16, x.count)]
  else if off = 0x2804 then packed [(0, b2n s.feeds.aOk), (1, b2n s.feeds.bOk)]
  else 0

/-- WAIT of a channel's STATUS (R409). -/
def chanWait (s : State) (c : Nat) : Nat :=
  let x := s.chan c
  if x.state ≠ 1 && !endsFrame s c then 0
  else if x.waitSw then 1
  else if x.wants then 4
  else
    match offerOf s c with
    | some o =>
      if o.paced && (pendingReqs s (chanCfg s c 6)).isEmpty then 2 else if (chanReady s c).isSome then 0 else 4
    | none => if x.fin.any (·.stage == 0) then 3 else 0

/-- A channel's registers (R409). -/
def readDmaReg (s : State) (off : Nat) : Nat :=
  let c := off / 0x100
  let x := s.chan c
  let sumState :=
    if x.sumKind = 1 then x.crc
    else if x.sumKind = 2 then packed [(0, fold16 8 x.ones), (16, b2n x.odd.isSome), (24, x.odd.getD 0)]
    else 0
  let bursts := s.dma.bursts.filter fun (e : Nat × Burst) => e.2.chan == c
  let held := bursts.length
  let hostReads := ((bursts.filter fun (e : Nat × Burst) => e.2.data.isNone).map (·.2.tlps)).sum +
    b2n x.fetchFn.isSome + (x.fin.filter fun f => f.stage == 0 && f.host && f.asked).length
  if 32 ≤ c then 0
  else if c = 31 then
    match off % 0x100 with
    | 0x08 => 2 ^ 31 + 1
    | 0x10 => b2n (isAlive s.chip.mode)
    | 0x2C => held
    | _ => 0
  else
    match off % 0x100 with
    | 0x00 => lo32 x.ringBase
    | 0x04 => hi32 x.ringBase
    | 0x08 => packed [(0, x.ringSize), (31, b2n x.ringHost)]
    | 0x0C => packed [(1, b2n x.pause)]
    | 0x10 => packed [(0, x.state), (4, chanWait s c), (8, x.error), (16, x.hops)]
    | 0x14 => lo32 (curDesc x).1
    | 0x18 => hi32 (curDesc x).1
    | 0x1C => x.done % 2 ^ 20
    | 0x20 => sumState
    | 0x24 => lo32 x.errAddr
    | 0x28 => hi32 x.errAddr
    | 0x2C => packed [(0, held), (16, hostReads)]
    | 0x30 => x.completed % 2 ^ 32
    | 0x34 => x.poll
    | _ => 0

/-- LAST_OFFSET saturated to I32 (R258). -/
def lastOffset32 (x : Domain) : Nat := ofSigned 32 (clampInt (x.lastOffset.tdiv 65536) (-2 ^ 31) (2 ^ 31 - 1))

/-- A domain's registers (R258). -/
def readTimeReg (s : State) (f off : Nat) : Nat :=
  let d := off / 0x100
  let x := s.dom d
  let w := s.fnTime f d
  if 8 ≤ d then 0
  else
    match off % 0x100 with
    | 0x00 => x.value.toNat % 2 ^ 32
    | 0x04 => lo32 w.latchNs
    | 0x08 => hi32 w.latchNs
    | 0x0C =>
      packed [(0, b2n x.enabled), (1, x.mode), (2, b2n x.stepUsed), (3, b2n x.step.isSome), (4, b2n x.adjOpen),
        (5, b2n x.locked), (6, s.domSource d), (8, b2n x.stepRefused), (9, b2n x.rateRefused), (10, b2n x.lockLost),
        (11, b2n x.steppedOver), (12, b2n x.ppsMissing)]
    | 0x10 => x.inc.toNat % 2 ^ 32
    | 0x14 => x.inc.toNat / 2 ^ 32
    | 0x18 => w.adjLo
    | 0x1C => x.adjHi
    | 0x20 => if x.adjOpen then x.adjLeft else 0
    | 0x24 => w.stepFrac
    | 0x28 => w.stepLo
    | 0x2C => w.stepHi
    | 0x30 => packed [(1, b2n x.kind)]
    | 0x3C => lastOffset32 x
    | _ => 0

/-- Bits of 32 triggers that meet a test. -/
def trigBits (s : State) (base : Nat) (p : Trigger → Bool) : Nat :=
  packed ((upTo 32).map fun b => (b, b2n (p (s.trigger (base + b)))))

/-- The time-trigger unit's registers (R326). -/
def readTrigReg (s : State) (off : Nat) : Nat :=
  let running := fun (x : Trigger) => x.state == 1 || x.state == 2
  if off < 0x100 then
    match off with
    | 0x00 => trigBits s 0 running
    | 0x04 => trigBits s 0 (·.skippedBit)
    | 0x08 => trigBits s 32 running
    | 0x0C => trigBits s 64 running
    | 0x10 => trigBits s 32 (·.skippedBit)
    | 0x14 => trigBits s 64 (·.skippedBit)
    | 0x24 => packed ((upTo 16).map fun i => (i, b2n (s.ev i).level))
    | _ => 0
  else if off < 0x200 then
    let i := (off - 0x100) / 16
    if evSet s i 6 = 0 then 0
    else
      match off % 16 with
      | 0 => (s.ev i).sec
      | 4 => (s.ev i).nsec
      | 8 => capStatus (s.ev i)
      | _ => 0
  else 0

/-- A Tine FIFO's registers (R278). -/
def readTineReg (s : State) (off : Nat) : Nat :=
  let x := s.fifo (off / 0x100)
  let head : Bytes := if x.drain then [] else x.records.headD []
  let o := off % 0x100
  if 0x200 ≤ off then 0
  else if o < 0x10 then leNat (slice head o 4)
  else
    match o with
    | 0x10 => x.records.length
    | 0x14 =>
      let level := x.records.length
      packed [(0, b2n (decide (0 < level))), (1, b2n (decide (watermarkOf x ≤ level))), (2, b2n x.overflowed)]
    | 0x18 => packed [(0, b2n x.drain), (1, x.batch), (6, watermarkOf x)]
    | 0x1C => x.lost
    | _ => 0

/-- The pairing region (R459): without the pairing unit only CLAIM and FEED_STATUS read other than zero. -/
def readPairReg (s : State) (off : Nat) : Nat :=
  let p := s.pair
  let here := pairPresent s
  let status :=
    packed [(0, p.role), (3, b2n (partnerHeard s)), (4, b2n (readyShown s)), (5, b2n (p.lanes.getD 0 false)),
      (6, b2n (p.lanes.getD 1 false)), (8, rankOf s), (16, pairGroup s)]
  match off with
  | 0x00 => if here then status else 0
  | 0x04 => p.claim
  | 0x08 => if here then partnerClaim s else 0
  | 0x0C => if here then appliedShown s else 0
  | 0x10 =>
    let fd := s.feeds
    packed [(0, b2n fd.aOk), (1, b2n fd.bOk), (2, b2n fd.short), (3, b2n (!fd.shedding.isEmpty)), (4, b2n fd.aLost),
      (5, b2n fd.bLost)]
  | 0x14 => if here then p.events else 0
  | _ => 0

/-- The health region (R477). -/
def readHealthReg (s : State) (off : Nat) : Nat :=
  let h := s.health
  if off < 0x1000 then
    match off with
    | 0x00 =>
      packed [(0, b2n h.alarm), (1, b2n h.droop), (2, b2n h.ageingLimit), (3, b2n h.emLimit), (4, b2n h.eolAlert),
        (5, b2n h.marginLow), (6, b2n h.running), (7, b2n (safeNHigh s))]
    | 0x04 => ofSigned 16 h.tj
    | 0x08 => h.hottest
    | 0x0C => h.eolHours
    | 0x10 => h.eolCause
    | _ => 0
  else if off < 0x6800 then
    let b := (off - 0x1000) / 0x400 + 1
    let i := (off - 0x1000) % 0x400 / 0x20
    let x := s.fault b i
    if instancePresent s b i then
      match off % 0x20 with
      | 0x00 => x.status
      | 0x04 => x.hist.length
      | 0x08 => lo32 (x.hist.headD 0)
      | 0x0C => hi32 (x.hist.headD 0)
      | 0x10 => x.lost
      | _ => 0
    else 0
  else 0

/-- A function's mailbox (R379): byte 4j + i of a buffer in bits [8i + 7:8i]. -/
def readMboxReg (s : State) (f off : Nat) : Nat :=
  let m := s.mailbox f
  if off < 0x800 then leNat (slice m.request off 4)
  else if off < 0x1000 then leNat (slice m.response (off - 0x800) 4)
  else
    match off with
    | 0x1000 => m.sendLength
    | 0x1004 =>
      packed [(0, b2n m.outstanding), (1, b2n m.respValid), (2, b2n m.discarded), (3, b2n m.sendRefused),
        (4, b2n m.writeIgnored), (16, m.respLength)]
    | _ => 0

/-- The value that an aligned 32-bit read of BAR0 returns to a function (R370); undefined offsets read zero (R13). -/
def bar0Word (s : State) (f off : Nat) : Nat :=
  let o := off % 0x10000
  match off / 0x10000 with
  | 0 => readGlobalReg s f o
  | 1 => readIntReg s f o
  | 2 => readDmaReg s o
  | 3 => readTimeReg s f o
  | 4 => readTrigReg s o
  | 5 => readTineReg s o
  | 6 => readPairReg s o
  | 7 => readHealthReg s o
  | 8 => readMboxReg s f o
  | _ => 0

/-! ## BAR4 and configuration space -/

/-- The value that an aligned 32-bit read of BAR4 returns (R369, R373): the MSI-X table at 0x0000 and the pending bit array at
0x8000. -/
def bar4Word (s : State) (f off : Nat) : Nat :=
  let p := s.pf f
  if off < 0x400 then
    let e := msixEntry p (off / 16)
    match off % 16 with
    | 0 => lo32 e.addr
    | 4 => hi32 e.addr
    | 8 => e.data
    | _ => b2n e.masked
  else if off = 0x8000 ∨ off = 0x8004 then
    packed ((upTo 32).map fun i => (i, b2n (AMap.get false p.pending ((off - 0x8000) * 8 + i))))
  else 0

/-- The value that a read returns of a register offset, BAR4's from 0x40_0000 upward (DEDUCED, log entry 33). -/
def barWord (s : State) (f off : Nat) : Nat := if off < 0x400000 then bar0Word s f off else bar4Word s f (off - 0x400000)

/-- A 64-bit read: two 32-bit ones in ascending address order (R371). -/
def barWide (s : State) (f off : Nat) : Nat := barWord s f off + barWord s f (off + 4) * 2 ^ 32

/-- The base address registers, each a 64-bit non-prefetchable memory BAR (R369). -/
def barRegister (p : Pf) (off : Nat) : Nat :=
  let v := p.bars.getD ((off - 0x10) / 8) 0
  if off % 8 = 0 then lo32 v + 4 else hi32 v

/-- The PCI Power Management capability at 0x40 and the MSI-X capability at 0x50 (R368). -/
def pmMsixWord (p : Pf) (off : Nat) : Nat :=
  match off with
  | 0x40 => packed [(0, 0x01), (8, 0x50), (16, 3), (30, 1)]
  | 0x44 => packed [(0, if p.d3 then 3 else 0), (3, 1), (8, b2n p.pmeEnable), (15, b2n p.pmeStatus)]
  | 0x50 => packed [(0, 0x11), (8, 0x70), (16, 63), (30, b2n p.msixMask), (31, b2n p.msixEnable)]
  | 0x54 => 4
  | 0x58 => 0x8000 + 4
  | _ => 0

/-- The code of a payload or read request size of 128, 256 or 512 bytes. -/
def sizeCode (n : Nat) : Nat := if n = 128 then 0 else if n = 256 then 1 else 2

/-- The PCI Express capability at 0x70 (R365, R368): endpoint, Function Level Reset, extended and 10-bit tags, Completion Timeout
ranges A and B, ASPM L1 with an exit latency of 4 to 8 microseconds. -/
def pcieCapWord (s : State) (p : Pf) (off : Nat) : Nat :=
  match off with
  | 0x70 => packed [(0, 0x10), (16, 2)]
  | 0x74 => packed [(0, 2), (5, 1), (15, 1), (28, 1)]
  | 0x78 =>
    packed [(0, p.errEnable), (5, sizeCode p.mps), (8, b2n p.extTag), (12, sizeCode p.mrrs), (16, p.devStatus),
      (21, b2n (decide (0 < p.reads)))]
  | 0x7C => packed [(0, 4), (4, 16), (10, 2), (15, 3), (22, 1)]
  | 0x80 => packed [(1, b2n p.aspmL1), (16, s.pcie.speed), (20, s.pcie.width), (28, 1)]
  | 0x94 => packed [(0, 3), (4, 1), (16, 1), (17, 1)]
  | 0x98 => packed [(0, p.ctoRange), (4, b2n p.ctoOff), (12, b2n p.tag10)]
  | 0x9C => 0x1E
  | 0xA0 => 4
  | _ => 0

/-- The Advanced Error Reporting capability at 0x100 and the Device Serial Number at 0x150 (R368, R376). -/
def extendedWord (s : State) (p : Pf) (off : Nat) : Nat :=
  match off with
  | 0x100 => packed [(0, 1), (16, 2), (20, 0x150)]
  | 0x104 => p.aer.unc
  | 0x108 => p.aer.uncMask
  | 0x10C => p.aer.uncSev
  | 0x110 => p.aer.cor
  | 0x114 => p.aer.corMask
  | 0x118 => packed [(0, p.aer.first), (5, 1), (6, b2n p.aer.ecrcGen), (7, 1), (8, b2n p.aer.ecrcChk)]
  | 0x11C => p.aer.header.getD 0 0
  | 0x120 => p.aer.header.getD 1 0
  | 0x124 => p.aer.header.getD 2 0
  | 0x128 => p.aer.header.getD 3 0
  | 0x150 => packed [(0, 3), (16, 1)]
  | 0x154 => lo32 (beNat (serial s.ident))
  | 0x158 => hi32 (beNat (serial s.ident))
  | _ => 0

/-- The value that a read of a doubleword of a function's configuration space returns: its Type 0 header and its capabilities
(R368, R369). Where each stands is PCI Express Base 4.0's for the header, and the model's for the capabilities (PRESUMED, log
entry 83). -/
def cfgWord (s : State) (f off : Nat) : Nat :=
  let p := s.pf f
  if off < 0x40 then
    match off with
    | 0x00 => packed [(0, 0x1D7A), (16, 0x2560)]
    | 0x04 => packed [(1, b2n p.mse), (2, b2n p.bme), (20, 1)]
    | 0x08 => packed [(0, s.ident.revision), (8, 0x020000)]
    | 0x0C => packed [(16, 0x80)]
    | 0x2C => packed [(0, 0x1D7A), (16, 0x2560)]
    | 0x34 => 0x40
    | _ => if 0x10 ≤ off ∧ off < 0x28 then barRegister p off else 0
  else if off < 0x70 then pmMsixWord p off
  else if off < 0x100 then pcieCapWord s p off
  else extendedWord s p off

end Sys2Proof.Machine
end

