-- ==== Sys2Proof/Tests/Slice0.lean ====
section
/-!
SUPPORT. Tests: every check of WellFormed refuses an ill-formed term, the spec's worked examples, and for each statement
states and operands that meet its hypotheses.
-/
set_option maxRecDepth 100000
namespace Sys2Proof.Tests
open Sys2Proof Sys2Proof.Machine

/-! ## States and requesters -/

/-- The state right after reset in another device state. -/
def at_ (m : Mode) : State := { State.reset with chip := { State.reset.chip with mode := m } }

/-- Every function's registers can be reached. -/
def live (m : Mode) : State :=
  { at_ m with pcie := { State.reset.pcie with
    perst := false, linkUp := true, cfgReady := true, pfs := List.replicate 4 { bme := true, mse := true } } }

/-- A running configuration with these entries and rows. -/
def conf (es : List (Nat × Nat × Nat)) (rows : AMap (AMap Row)) (s : State) : State :=
  { s with cfg := { s.cfg with running := {
    entries := es.map fun e => (entryKey e.1 e.2.1, .num e.2.2), tables := rows } } }

/-- PF0's mailbox and window, and a key over MGT0. -/
def pf0 : Requester := { path := .mailbox 0, key := 0 }
def win0 : Requester := { path := .bar2 0, key := 0 }
def mgt0 : Requester := { path := .mgt 0, key := 1 }

/-- A requester not over the window that a state with an empty input queue accepts. -/
def ready (s : State) (r : Requester) : Bool := s.nap.queue.isEmpty && !overWindow r && isAlive s.chip.mode && reqOk s r

/-- Such a state is the one in which the engine performs the request, so it meets the hypotheses on it. -/
theorem ready_accepted {s : State} {r : Requester} (h : ready s r = true) : s = engineTurn r.path s ∧ Accepted r s := by
  simp only [ready, Bool.and_eq_true, List.isEmpty_iff, Bool.not_eq_true'] at h
  exact ⟨(engineTurn_empty _ h.1.1.1).symm, h.1.1.2, h.1.2, h.2⟩

/-- KEY_ID 1 written and enabled for MGT0. -/
def keyed (s : State) : State :=
  { s with mram := { s.mram with keys := { key := List.replicate 32 1, written := true, enabled := true, rights := 15, paths := 31 } :: List.replicate 15 {} } }

/-- An image without records (R77 to R79). -/
def imageBytes : Bytes :=
  let h := beBytes 4 0x4B4C5259 ++ beBytes 2 1 ++ beBytes 2 0 ++ beBytes 8 1 ++ beBytes 4 0x2560 ++ [7, 0, 0, 0] ++
    beBytes 4 72 ++ beBytes 8 0 ++ zeros 24
  let a := h ++ beBytes 4 (crc32c h) ++ beBytes 4 0x4B454E44
  a ++ beBytes 4 (crc32c a)

/-- Bank 0 holds that image, sealed. -/
def banked (s : State) : State :=
  { s with mram := { s.mram with banks := [{ writtenBank imageBytes with sealed := true }, {}] } }

/-- The image fetched from a bank in CHECK. -/
def fetched (b : Nat) (bytes : Bytes) : State :=
  { banked (at_ .check) with cfg := { State.reset.cfg with fetched := some (b, bytes) } }

/-- A commit in a step. -/
def committing (m : Mode) (n : Nat) : State :=
  { at_ m with cfg := { State.reset.cfg with commit := { status := n } } }

/-! ## Witnesses: states and configuration -/

theorem witness_CommandAtFrontRuns :
    ({ State.reset with pending := [.startTaken, .cutover] } : State).pending = .startTaken :: [.cutover] := by decide

theorem witness_IdleCyclePasses :
    State.reset.pending = [] ∧ isAlive (at_ .load).chip.mode = true ∧ tickOf 1 < tickOf 2 ∧ ((at_ .load).dom 0).enabled = true := by
  decide

theorem witness_CommandsChangeOnlyTheirParts :
    exec (.supplyOutOfRange 7 0 1000) (at_ .run) = .next (effSupplyOutOfRange 7 0 1000 (at_ .run)) ∧ (at_ .run).nap.queue = [] := by
  exact ⟨rfl, rfl⟩

theorem witness_StateChangesFollowTheTable :
    exec (.supplyOutOfRange 7 0 1000) (at_ .run) = .next (effSupplyOutOfRange 7 0 1000 (at_ .run)) ∧
    (effSupplyOutOfRange 7 0 1000 (at_ .run)).chip.mode = .off := by
  exact ⟨rfl, by decide⟩

theorem witness_InvariantKept :
    Inv (at_ .run) ∧ step (at_ .run) = .next (idle (at_ .run)) := by
  exact ⟨⟨by decide, by decide, by decide, by decide, by decide, by decide⟩, rfl⟩

theorem witness_SuppliesAndResets :
    (at_ .off).chip.mode = .off ∧ railsInRange [6750, 7650, 7200, 10800, 7200, 5400, 10800, 16200] = true ∧
    railsInRange [7950, 9010, 8480, 12720, 8480, 6650, 12720, 19080] = true ∧
    railsInRange [7950, 9010, 8480, 12720, 8480, 6650, 12720, 19081] = false ∧ (at_ .safe).chip.mode ≠ .off ∧
    leavesRange 7 16199 1000 = true ∧ leavesRange 0 7951 1000 = true ∧ leavesRange 7 16199 999 = false ∧ leavesRange 7 16200 1000 = false ∧
    ({ at_ .run with chip := { (at_ .run).chip with resetDue := some 0 } } : State).chip.resetDue = some 0 ∧ 0 ≤ (at_ .run).cycle ∧
    (at_ .run).cycle < 1 ∧ (at_ .run).chip.resetDue = none := by decide

theorem witness_ResetReleases :
    State.reset.chip.mode = .reset ∧ ({ State.reset with cycle := 1600000 } : State).chip.resetHold ≤ 1600000 ∧ 31 % 32 = 31 ∧
    63 % 32 = 31 ∧ 30 % 32 ≠ 31 ∧ 0 < State.reset.time.domains.length ∧ (at_ .load).chip.mode ≠ .reset ∧
    ({ State.reset with chip := { State.reset.chip with resetHold := 1 } } : State).cycle < 1 := by decide

theorem witness_MemoryTrains :
    isAlive (at_ .load).chip.mode = true ∧ (at_ .load).mem.trainDone = false ∧ memSupported 16 2 = true ∧ 7 < 8 ∧
    memSupported 5 1 = false ∧ isAlive State.reset.chip.mode = false ∧
    ({ at_ .run with mem := { State.reset.mem with trainDone := true } } : State).mem.trainDone = true := by decide

theorem witness_LoadAndCheckEnd_load :
    (banked (at_ .load)).chip.mode = .load ∧ selectBank (banked (at_ .load)) = .ok 0 ∧ selectBank (at_ .load) = .error 3 := by
  have h : bestBank (banked (at_ .load)) = some 0 := by decide +kernel
  refine ⟨rfl, ?_, rfl⟩
  show (match bestBank (banked (at_ .load)) with | some b => Except.ok b | none => Except.error 3) = .ok 0
  rw [h]

theorem witness_LoadAndCheckEnd_passes :
    (fetched 0 imageBytes).chip.mode = .check ∧ (fetched 0 imageBytes).cfg.fetched = some (0, imageBytes) ∧
    (checkImage (fetched 0 imageBytes) imageBytes).img = some {} ∧ (checkImage (fetched 0 imageBytes) imageBytes).fail = none := by
  decide +kernel

theorem witness_LoadAndCheckEnd_fails :
    (fetched 0 []).chip.mode = .check ∧ (fetched 0 []).cfg.fetched = some (0, []) ∧ (checkImage (fetched 0 []) []).fail.isSome = true ∧
    fallbackRemains (fetched 0 []) 0 = false ∧ fallbackRemains (fetched 1 []) 1 = true := by decide +kernel

theorem witness_StateCommands :
    ready (at_ .armed) pf0 = true ∧ bit (rightsOf (at_ .armed) pf0) 2 = true ∧ (at_ .armed).chip.mode = .armed ∧
    ({ at_ .armed with chip := { (at_ .armed).chip with startPending := true } } : State).chip.startPending = true ∧
    (at_ .armed).chip.startPending = false ∧ ready (at_ .run) pf0 = true ∧ bit (rightsOf (at_ .run) pf0) 2 = true ∧
    ready (at_ .safe) pf0 = true ∧ bit (rightsOf (at_ .safe) pf0) 2 = true ∧ (at_ .safe).chip.resetDue = none ∧
    ready (keyed (at_ .hold)) mgt0 = true ∧ bit (rightsOf (keyed (at_ .hold)) mgt0) 2 = true := by decide

theorem witness_RunAndSafeEntry :
    let p : State := { at_ .load with cycle := 1, chip := { (at_ .load).chip with safePending := some (0x1203, 7, 0) } }
    locksMet { at_ .armed with chip := { (at_ .armed).chip with startPending := true } } = true ∧ isPaired (at_ .armed) = false ∧
    locksMet (conf [(0x4007, 0x0F, 1)] [] (at_ .armed)) = false ∧
    p.chip.safePending = some (0x1203, 7, 0) ∧ 0 < p.cycle ∧ p.chip.mode ∈ [.load, .check, .hold, .armed, .run] ∧
    ({ p with cycle := 0 } : State).cycle ≤ 0 ∧ (at_ .safe).chip.mode ∉ [.load, .check, .hold, .armed, .run] ∧
    (at_ .run).chip.safePending = none := by decide

/-- A PDU of 48 bytes under KEY_ID 1 with an OPCODE and a REPLAY number, and its TAG under the key of `keyed` (R51, R59). -/
def pduOf (op replay : Nat) : Bytes :=
  let b := [1, 1] ++ beBytes 2 48 ++ beBytes 2 1 ++ [0, BitVec.ofNat 8 op] ++ beBytes 8 replay ++ zeros 16
  b ++ napTag (List.replicate 32 1) b

/-- Such a request over MGT0. -/
def reqOf (op replay : Nat) : NapReq := { path := .mgt 0, pdu := pduOf op replay }

/-- An open transfer under KEY_ID 1. -/
def oneTransfer : Transfer :=
  { req := mgt0, trans := 5, isWrite := true, idx := 0x0200, sub := 10, total := 2000, data := [], prevOff := 0, nextOff := 0, due := 9 }

theorem witness_PdusTaken_kinds :
    isAlive (at_ .hold).chip.mode = true ∧ requestKind { path := .mgt 0, pdu := [1, 1, 0, 48, 0, 1, 0, 1] } = 1 ∧
    requestKind { path := .mgt 0, pdu := [1, 1, 0, 48, 0, 1, 0, 2] } = 2 ∧
    requestKind { path := .mgt 0, pdu := [1, 1, 0, 48, 0, 1, 0, 3] } = 3 ∧
    [oneTransfer].find? (transferIs mgt0 5) = some oneTransfer ∧ oneTransfer.due ≤ 9 ∧ 8 < oneTransfer.due := by decide

theorem witness_PdusTaken_checks :
    isMailbox (reqOf 1 7).path = false ∧ (pduOf 1 7).length = 48 ∧ beAt (pduOf 1 7) 0 1 = 1 ∧ beAt (pduOf 1 7) 1 1 = 1 ∧
    pduLength (pduOf 1 7) = 48 ∧ pduLength ([1, 1, 0, 47] ++ zeros 44) = 47 ∧ pduLength ([1, 1, 0, 49] ++ zeros 44) = 49 ∧
    ([1, 1, 0, 49] ++ zeros 44 : Bytes).length = 48 ∧ pduKey (pduOf 1 7) = 1 ∧ keyEnabled (keyed (at_ .hold)) 1 = true ∧
    bit ((keyed (at_ .hold)).keyRec 1).paths 0 = true ∧ pathServed (at_ .hold) (.mgt 0) = true ∧ pathServed (at_ .hold) (.line 0) = false ∧
    napTag (((keyed (at_ .hold)).keyRec 1).key) (pduSigned (pduOf 1 7)) = pduTag (pduOf 1 7) ∧
    ((keyed (at_ .hold)).keyRec 1).rx < pduReplay (pduOf 1 7) ∧ pduReplay (pduOf 1 0) ≤ 0 ∧ flagResponse (pduOf 1 7) = false ∧
    flagResponse ([1, 1, 0, 48, 0, 1, 0x80, 1] ++ zeros 40) = true ∧ keyEnabled (at_ .hold) 1 = false := by decide +kernel

/-- An unsegmented READ of 0x0100:0x05 and a WRITE of one byte to THERMAL_ALARM, from the mailbox without a key. -/
def readReq : NapReq := { path := .mailbox 0, pdu := [1, 1, 0, 48, 0, 0, 0, 1] ++ zeros 8 ++ [0, 1, 1, 0, 5, 0] ++ zeros 26 }
def writeReq : NapReq :=
  { path := .mailbox 0, pdu := [1, 1, 0, 49, 0, 0, 0, 2] ++ zeros 8 ++ [0, 1, 0x81, 0, 1, 0] ++ zeros 6 ++ [0, 0, 0, 1, 90] ++ zeros 16 }

theorem witness_PdusTaken_evaluates :
    engineBusy (at_ .hold).chip.mode = false ∧ pduOpcode (pduOf 3 7) = 3 ∧ pduOpcode (pduOf 0 7) = 0 ∧ 3 < pduOpcode (pduOf 4 7) ∧
    openTransfer (at_ .hold) readReq = none ∧ pduOpcode readReq.pdu = 1 ∧ pduOffset readReq.pdu = 0 ∧
    imageRefusal (at_ .hold) (pduIndex readReq.pdu) (pduSub readReq.pdu) = none ∧
    (∃ o e, admitRead (at_ .hold) (pduReq readReq) (pduIndex readReq.pdu) (pduSub readReq.pdu)
      (fun e => pduType readReq.pdu == 0 || pduType readReq.pdu == e.ty.code) = .ok (o, e) ∧
      (e.ty.encode (valueFor (at_ .hold) (pduReq readReq) o (pduIndex readReq.pdu) e (bit (pduFlags readReq.pdu) 4))).length ≤ 1024) ∧
    openTransfer (at_ .hold) writeReq = none ∧ pduOpcode writeReq.pdu = 2 ∧ flagSegmented writeReq.pdu = false ∧
    pduOffset writeReq.pdu = 0 ∧ pduTotal writeReq.pdu = (pduData writeReq.pdu).length := by
  refine ⟨rfl, rfl, rfl, by decide, rfl, rfl, rfl, rfl, ⟨_, _, rfl, by decide⟩, rfl, rfl, rfl, rfl, rfl⟩

theorem witness_PdusTaken_badTag :
    napTag (((keyed (at_ .hold)).keyRec 1).key) (pduSigned ((pduOf 1 7).take 32 ++ zeros 16)) ≠
      pduTag ((pduOf 1 7).take 32 ++ zeros 16) := by decide +kernel

theorem witness_WindowAccesses :
    (live .run).barReach 3 = true ∧ engineTurn (.bar2 3) (live .run) = live .run ∧ 3 < (live .run).nap.window.length ∧
    0x0100 * 2048 + 8 < 2 ^ 27 ∧ 2 ^ 27 - 8 < 2 ^ 27 ∧ (2 ^ 27 - 8) / 2048 = 0xFFFF ∧ 0xFFFF * 2048 - 8 < 2 ^ 27 ∧
    (0xFFFF * 2048 - 8) / 2048 ≠ 0xFFFF ∧ readSlot (live .run) 3 (0x0100 * 2048 + 8) 4 = (0, [0x60, 0x25, 0, 0]) ∧
    windowEntry ((live .run).winRec 3) 3 = some (.u 4, 0) ∧ engineBusy (live .run).chip.mode = false ∧
    (live .run).chip.mode ∈ [.hold, .armed, .run, .safe] ∧ win0.path = .bar2 0 := by
  exact ⟨rfl, engineTurn_empty _ rfl, by decide, by decide, by decide, by decide, by decide, by decide, by decide, rfl, rfl, by decide, rfl⟩

theorem witness_EntryWrites :
    ready (at_ .run) pf0 = true ∧ bit (rightsOf (at_ .run) pf0) 1 = true ∧ (at_ .run).chip.mode ∈ [.hold, .armed, .run] ∧
    (∃ c, admitWrite (at_ .run) pf0 0x0100 1 (.val (.num 0)) = .error c) ∧ commitRuns (at_ .run) = false ∧ commitRuns (committing .run 1) = true ∧
    (∃ o e, admitWrite (at_ .run) pf0 0x8100 1 (.val (.num 60)) = .ok (o, e, false) ∧ e.acc = .rws ∧ e.ty.encodes (.num 60) = true ∧
      e.ty.encodes (.num 59) = true ∧ e.rng.ok e.ty (.num 59) = false ∧ e.rng.ok e.ty (.num 60) = true ∧ e.rng.ok e.ty (.num 105) = true ∧
      e.rng.ok e.ty (.num 106) = false) ∧
    ready (at_ .armed) pf0 = true ∧ bit (rightsOf (at_ .armed) pf0) 2 = true ∧
    (∃ o e t, admitWrite (at_ .run) pf0 0x2002 1 (.val (.num 63)) = .ok (o, e, true) ∧ o.table = some t ∧
      e.ty.encodes (.num 63) = true) := by
  exact ⟨rfl, rfl, by decide, ⟨_, rfl⟩, rfl, rfl, ⟨_, _, rfl, rfl, rfl, rfl, rfl, rfl, rfl, rfl⟩, rfl, rfl, ⟨_, _, _, rfl, rfl, rfl⟩⟩

theorem witness_TableActions :
    ready (at_ .run) pf0 = true ∧ commitRuns (at_ .run) = false ∧ ∃ o t e, o.table = some t ∧ t.kind = .staged ∧ admitWrite (at_ .run) pf0 0x2002 0x10 (.val (.num 1)) = .ok (o, e, true) ∧
      admitWrite (at_ .run) pf0 0x2002 0x10 (.val (.num 4)) = .ok (o, e, true) ∧
      admitWrite (at_ .run) pf0 0x2002 0x10 (.val (.num 2)) = .ok (o, e, false) ∧
      admitWrite (at_ .run) pf0 0x2002 0x10 (.val (.num 3)) = .ok (o, e, false) ∧
      keyOk t 0x2002 (tblCtx (at_ .run) pf0 t 0x2002).key = true ∧
      absentKey (at_ .run).ident 0x2002 (tblCtx (at_ .run) pf0 t 0x2002).key = false ∧
      hasRow (at_ .run) t 0x2002 0 = false ∧ nextKey (at_ .run) t 0x2002 0 = none ∧
      fieldsOk t.fields (writtenRow t (tblCtx (at_ .run) pf0 t 0x2002).fields) = true ∧
      rowOk 0x2002 (writtenRow t (tblCtx (at_ .run) pf0 t 0x2002).fields) = true ∧
      tableFull t (at_ .run).cfg.shadow 0x2002 0 = false ∧ bucketFull (at_ .run) 0x2002 0 = false ∧
      hasRow { at_ .run with cfg := { State.reset.cfg with shadow := imgPutRow {} 0x2002 0 [.num 0, .num 0] } } t 0x2002 0 = true := by
  exact ⟨rfl, rfl, _, _, _, rfl, rfl, rfl, rfl, rfl, rfl, rfl, rfl, rfl, rfl, rfl, rfl, rfl, rfl, rfl⟩

theorem witness_KeyWritten :
    ready (at_ .hold) pf0 = true ∧ bit (rightsOf (at_ .hold) pf0) 3 = true ∧ pf0.path = .mailbox 0 ∧
    ready (keyed (at_ .run)) mgt0 = true ∧ bit (rightsOf (keyed (at_ .run)) mgt0) 3 = true ∧ mgt0.path = .mgt 0 ∧
    (List.replicate 32 (1 : Byte)).length = 32 ∧ (List.replicate 32 (1 : Byte)).any (fun x => x != 0) = true ∧
    16 ≤ (at_ .hold).mram.keys.length ∧ keyOnPath (keyed (at_ .run)) (pduReq (reqOf 1 7)) = true ∧
    pathServed (keyed (at_ .run)) (reqOf 1 7).path = true ∧ 0 < pduReplay (pduOf 1 7) := by decide

theorem witness_ImageBanks :
    ready (at_ .hold) pf0 = true ∧ bit (rightsOf (at_ .hold) pf0) 2 = true ∧ bit (rightsOf (at_ .hold) pf0) 0 = true ∧
    ready (at_ .run) pf0 = true ∧ (at_ .run).chip.mode ∈ [.armed, .run, .safe] ∧ bankBusy (at_ .hold) 1 = false ∧
    bankBusy (committing .hold 3) 0 = true ∧ ready (committing .hold 3) pf0 = true ∧
    ¬((at_ .hold).cfg.runningBank = 1 ∧ (at_ .hold).cfg.passed = true) ∧
    ({ at_ .hold with cfg := { State.reset.cfg with runningBank := 1, passed := true } } : State).cfg.passed = true ∧
    ([] : Bytes).length ≤ bankSize ∧ imageCrcGood [0x4B] = false ∧ ((at_ .hold).bank 1).sealed = false ∧
    ((banked (at_ .hold)).bank 0).sealed = true := by decide +kernel

theorem witness_ImageBanks_good :
    imageBytes.length = hdrLength imageBytes ∧ meetsR82 (writtenBank imageBytes) = true ∧ imageCrcGood imageBytes = true := by
  decide +kernel

theorem witness_CommitActions :
    ready (at_ .run) pf0 = true ∧ bit (rightsOf (at_ .run) pf0) 2 = true ∧ (at_ .run).chip.mode ∈ [.hold, .armed, .run] ∧
    ready (committing .run 5) pf0 = true ∧ (committing .run 5).cfg.commit.status = 5 ∧ (committing .run 5).chip.mode ∈ [.armed, .run] ∧
    (at_ .run).cfg.commit.status ∉ [1, 2, 3, 4, 5] ∧ (at_ .run).cfg.older = none ∧ ((banked (at_ .hold)).bank 0).sealed = true ∧
    ({ at_ .hold with cfg := { State.reset.cfg with lastBank := some 1 } } : State).cfg.lastBank = some 1 := by decide

theorem witness_CommitSteps :
    (committing .run 1).cfg.commit.status = 1 ∧ (committing .run 2).cfg.commit.status = 2 ∧
    (committing .run 3).cfg.commit.status = 3 ∧ (committing .run 4).cfg.commit.status = 4 ∧
    (committing .hold 3).chip.mode = .hold ∧ (committing .run 4).rwN 0x0201 1 = 0 ∧
    ((committing .run 4).rwPut 0x0201 1 (.num 1)).rwN 0x0201 1 ≠ 0 ∧
    (((committing .run 4).rwPut 0x0201 1 (.num 1)).dom 0).enabled = true ∧
    (((committing .run 4).rwPut 0x0201 1 (.num 1)).rwPut 0x0201 2 (.num 7)).rwN 0x0201 2 = 7 ∧ ((committing .run 4).dom 7).enabled = false ∧
    (committing .run 4).ahead 0 0 ≤ 0 ∧ 0 < (committing .run 4).ahead 0 1 ∧ safeDue (committing .run 4) = false ∧
    safeDue { committing .run 4 with cycle := 1, chip := { (at_ .run).chip with safePending := some (0x1601, 0, 0) } } = true ∧
    (committing .run 5).cfg.commit.status ∉ [1, 2, 3, 4] := by decide

theorem witness_CommitSteps_checked :
    (checkImage { fetched 0 [] with cfg := { State.reset.cfg with commit := { status := 2, built := imageBytes } } } imageBytes).img = some {} ∧
    (checkImage { fetched 0 [] with cfg := { State.reset.cfg with commit := { status := 2, built := imageBytes } } } imageBytes).fail = none ∧
    (checkImage (committing .run 2) []).fail.isSome = true := by decide +kernel

theorem witness_EpochsChange :
    let s : State := { at_ .run with cfg := { State.reset.cfg with older := some {}, commit := { status := 5, atInstant := true, sealDue := some (1, 0) } } }
    s.cfg.commit.status = 5 ∧ s.cfg.commit.atInstant = true ∧ s.reached 0 0 = true ∧ s.reached 0 1 = false ∧
    safeDue s = false ∧ cutoverLate s = false ∧
    cutoverLate (s.updDom 0 fun x => { x with value := BitVec.ofNat 96 (2 * 2 ^ 32) }) = true ∧
    s.cfg.commit.sealDue = some (1, 0) ∧ s.cfg.older.isSome = true ∧ olderFrames s = 0 ∧ s.cfg.retireDue ≤ s.cycle ∧
    s.cycle < ({ s with cfg := { s.cfg with retireDue := 1 } } : State).cfg.retireDue := by decide


/-! ## Witnesses: ports and frames -/

/-- A port's state set. -/
def withPort (p : Nat) (x : Port) (s : State) : State := s.updPort p fun _ => x

/-- P0 with pre-emption and verification on and its link up. -/
def preempting : State := withPort 0 { up := true, verify := 2 } (conf [(0x1100, 1, 1)] [] (at_ .run))

/-- A frame of 60 bytes without tags. -/
def frame60 : Bytes := List.replicate 6 2 ++ List.replicate 6 4 ++ [0x12, 0x34] ++ zeros 46

/-- A stored frame of P0, and that frame in transmission. -/
def stored : Stored := { bytes := frame60, hdr := {}, steps := [], checkedAt := 0, placed := [] }
def sending : Tx :=
  { tc := 0, ref := { frame := 0, markCe := false, linkedAt := 0 }, frame := stored, tpid := 0x88A8, bytes := frame60, charged := 84, start := 0, departs := 0 }

theorem witness_LinkChanges :
    let up := withPort 0 { up := true, fault := 1 } (conf [(0x1100, 1, 1)] [] (at_ .run))
    linkable (at_ .run) 0 = true ∧ linkable (at_ .load) 261 = true ∧ ((at_ .run).port 0).up = false ∧ verifies (at_ .run) 0 = false ∧
    ((at_ .run).port 0).owed = [] ∧ verifies (conf [(0x1100, 1, 1)] [] (at_ .run)) 0 = true ∧
    loopbackOf (conf [(0x1100, 1, 1)] [] (at_ .run)) 0 ≠ 1 ∧
    controlFree (withPort 0 { up := true, fault := 1, verify := 2, owed := [true] } up) 0 = true ∧
    controlFree (withPort 0 { up := true, fault := 1, verify := 2, owed := [true], tx := some sending } up) 0 = false ∧
    (preempting.port 0).up = true ∧ preempting.cycle < 1 + (preempting.port 0).changedAt + upHold preempting 0 ∧
    ((withPort 261 { up := true } (at_ .run)).port 261).changedAt + upHold (at_ .run) 261 ≤ 0 ∧
    (withPort 261 { up := false, shown := 2 } (at_ .run)).cycle < 1 ∧ linkState (withPort 261 { up := true, shown := 0 } (at_ .run)) 261 ≠ 2 ∧
    linkState (withPort 261 { up := false, shown := 2 } (at_ .run)) 261 = 2 := by decide

theorem witness_NegotiationAndPause :
    let an := conf [(0x1000, 6, 1), (0x1000, 5, 0)] [] (at_ .run)
    let fast := conf [(0x1000, 2, 5), (0x1000, 4, 1), (0x1000, 6, 1), (0x1000, 5, 0)] [] (at_ .run)
    linkable an 0 = true ∧ autoneg an 0 = true ∧ refusesFec an 0 0 = false ∧ autoneg fast 0 = true ∧
    refusesFec fast 0 (2 ^ 44) = true ∧ fecNegotiated an an.cfg.running 0 = false ∧
    macReceives preempting 0 = true ∧ pauseMode preempting 0 ≠ 1 ∧ 65535 < 65536 ∧
    pauseMode (withPort 0 { up := true } (conf [(0x1000, 9, 1)] [] (at_ .run))) 0 = 1 ∧
    macReceives (withPort 0 { up := true } (conf [(0x1000, 9, 1)] [] (at_ .run))) 0 = true ∧
    (preempting.port 0).pauseUntil ≤ preempting.cycle ∧ 0 < ((withPort 0 { pauseUntil := 1 } (at_ .run)).port 0).pauseUntil := by decide

theorem witness_FramesReceived :
    macReceives preempting 0 = true ∧ macDiscard preempting 0 frame60 .fcs = some 4 ∧ macDiscard preempting 0 (zeros 59) .good = some 5 ∧
    decidedFirst preempting 0 (59 + 4) = false ∧ macDiscard preempting 0 frame60 .good = none ∧ beAt frame60 12 2 ≠ 0x8808 ∧
    claimFilter 0 frame60 (noteFec 0 .good 0 0 preempting) = (.untouched, noteFec 0 .good 0 0 preempting) ∧
    preemptCfg preempting 0 1 = 1 ∧ (preempting.port 0).asm = none ∧
    ((withPort 0 { asm := some ⟨3, 2, [], [], []⟩ } preempting).port 0).asm = some ⟨7 % 4, 6 % 4, [], [], []⟩ ∧
    pcsReceives ((withPort 0 { up := true } (at_ .run)).rwPut 0x1000 0x0C (.num 2)) 0 = true ∧
    loopbackOf ((withPort 0 { up := true } (at_ .run)).rwPut 0x1000 0x0C (.num 2)) 0 = 2 := by
  exact ⟨rfl, rfl, rfl, rfl, rfl, by decide, rfl, rfl, rfl, rfl, rfl, rfl⟩

/-- A frame of P0 in reception, decided or not. -/
def inReception (f : Inflight) (s : State) : State := { s with fabric := { s.fabric with inflight := [(0, f)], nextId := 1 } }

theorem witness_IngressDecided :
    let f : Inflight := { bytes := frame60, source := 0, stamps := [], steps := [] }
    let v := conf [] [(0x2003, [(1, [.oct (List.replicate 33 255), .oct (zeros 33), .num 1, .num 1, .num 1])])] (at_ .run)
    AMap.find (inReception f (at_ .run)).fabric.inflight 0 = some f ∧ f.decided = false ∧ f.lost = false ∧
    stateAdmits (at_ .hold) 0 (parse (sTpid (at_ .hold)) frame60) = false ∧
    stateAdmits (at_ .run) 0 (parse (sTpid (at_ .run)) frame60) = true ∧
    (forward {} 0 (parse (sTpid (at_ .run)) frame60) frame60 (inReception f (at_ .run))).1.egress = none ∧
    (forward v.cfg.running 0 (parse (sTpid v) frame60) frame60 (inReception f v)).1.egress.isSome = true ∧
    matchFilter v.cfg.running none 0 = none ∧
    AMap.find (inReception { f with lost := true } (at_ .run)).fabric.inflight 0 = some { f with lost := true } ∧
    AMap.find (inReception { f with decided := true } (at_ .run)).fabric.inflight 0 = some { f with decided := true } ∧
    AMap.find (at_ .run).fabric.inflight 0 = none := by decide +kernel

/-- A decided frame placed for P1. -/
def placedFrame : Inflight :=
  { bytes := frame60, source := 0, stamps := [], steps := [], decided := true,
    placed := [{ xp := 0, chain := 0, offset := 0, cells := [0, 1], holds := true, members := [(1, false)] }] }

theorem witness_FramesLinked :
    AMap.find (inReception placedFrame (at_ .run)).fabric.inflight 0 = some placedFrame ∧ placedFrame.lost = false ∧
    placedFrame.decided = true ∧ placedFrame.discarded = false ∧ placedFrame.placed ≠ [] ∧ placedFrame.claim = none ∧
    placedFrame.late.filter = none ∧ placedFrame.late.emptied = none ∧
    (∀ pl ∈ placedFrame.placed, (pl.offset + (24 + placedFrame.bytes.length) + 63) / 64 ≤ pl.cells.length) ∧
    ({ placedFrame with lost := true } : Inflight).lost = true ∧ ({ placedFrame with decided := false } : Inflight).decided = false ∧
    ({ placedFrame with discarded := true } : Inflight).discarded = true := by decide

theorem witness_AddressesLearned :
    let s : State := { at_ .run with fdb := { requests := [{ key := 9, port := 3, at_ := 0 }], learned := [(9, { port := 2, hit := true, way := 0 })] } }
    s.fdb.requests = [{ key := 9, port := 3, at_ := 0 }] ∧ (s.row 0x2004 9).isSome = false ∧ learnRoom s 3 = true ∧
    AMap.find s.fdb.learned 9 = some { port := 2, hit := true, way := 0 } ∧ AMap.find s.fdb.learned 8 = none ∧
    freeWay (waysUsed s.fdb.learned s.fdb.staticWay (fdbBucket 8)) = some 0 ∧ freeWay (upTo 8) = none ∧
    ((conf [] [(0x2004, [(9, [])])] s).row 0x2004 9).isSome = true ∧ s.fdb.sweepDue ≤ s.cycle ∧ isAlive s.chip.mode = true ∧ s.cycle < ({ s.fdb with sweepDue := 1 } : Fdb).sweepDue ∧ (at_ .run).fdb.requests = [] ∧
    learnRoom (conf [] [(0x2001, [(2, List.replicate 9 (.num 0) ++ [.num 1, .num 1])])] s) 2 = false := by decide +kernel

theorem witness_ClassifierActions :
    let c := conf [] [(0x2100, [(65535, [])]), (0x2101, [(0, [])])] (at_ .hold)
    ready (at_ .hold) pf0 = true ∧ bit (rightsOf (at_ .hold) pf0) 1 = true ∧ (at_ .hold).chip.mode ∈ [.hold, .armed, .run] ∧
    portPresent (at_ .hold).ident 262 = true ∧ portPresent { ordering := 2, revision := 0, unit := 1 } 255 = false ∧
    ((at_ .hold).row 0x2100 0).isSome = false ∧ (c.row 0x2100 65535).isSome = true ∧ (c.row 0x2101 0).isSome = true ∧
    ((at_ .hold).row 0x2101 65535).isSome = false ∧ absentKey (at_ .hold).ident 0x2101 0 = false ∧
    absentKey { ordering := 2, revision := 0, unit := 1 } 0x2101 4095 = true := by decide

/-- That frame linked in P1's class 0 in cycle 0, in cycle 9. -/
def queued : State :=
  let s := withPort 1 { up := true } { at_ .run with cycle := 9 }
  ({ s with fabric := { s.fabric with frames := [(0, stored)] } }).updQueue 1 0 fun q =>
    { q with refs := [{ frame := 0, markCe := false, linkedAt := 0 }] }

theorem witness_FramesSelected :
    egressOn queued 1 = true ∧ (queued.port 1).tx = none ∧ isHost 1 = false ∧
    (choose 1 (testHeads 1 (gateTick 1 queued))).1 = some 0 ∧
    headRef (choose 1 (testHeads 1 (gateTick 1 queued))).2 1 0 = some { frame := 0, markCe := false, linkedAt := 0 } ∧
    AMap.find (choose 1 (testHeads 1 (gateTick 1 queued))).2.fabric.frames 0 = some stored ∧
    (choose 2 (testHeads 2 (gateTick 2 queued))).1 = none ∧ isHost 257 = true ∧ hostAsks (live .run) 1 = false ∧
    egressOn (at_ .hold) 1 = false := by decide +kernel

theorem witness_FramesSelected_dispose :
    (recoverFrame 1 stored.hdr (countEcc stored 1 {} queued)).1 = true ∧ (queued.port 1).up = true ∧ ((at_ .run).port 1).up = false ∧
    0 < ({ bad := 1 } : ReadBack).bad ∧ macControl 1 (egressForm queued 1 stored false) = false ∧
    (egressForm queued 1 stored false).rtagOver = false ∧ (egressForm queued 1 stored false).pairOver = false ∧
    preemptable queued 1 0 = false ∧
    preemptable (withPort 1 { up := true } (conf [(0x1101, 1, 1), (0x1101, 2, 1), (0x1101, 3, 1)] [] queued)) 1 0 = true := by
  decide +kernel

theorem witness_FramesTransmitted :
    let x := sending
    let s := withPort 1 { up := true, tx := some x } queued
    (s.port 1).pre = none ∧ (s.port 1).tx = some x ∧ lineDone s 1 x.start (8 + x.bytes.length + 4) = false ∧
    lineDone { s with cycle := 1000000 } 1 x.start (8 + x.bytes.length + 4) = true ∧ (s.port 1).owed = [] ∧ (s.port 1).leaving = [] ∧
    x.stamped = false ∧ ({ x with record := true } : Tx).stamped = true ∧ x.stamp = none ∧ x.shadow = false ∧ ({ x with shadow := true } : Tx).shadow = true ∧
    loopbackOf s 1 ≠ 1 ∧ isAlive s.chip.mode = true ∧ s.cycle < s.fabric.avgAt + 64 ∧
    ({ s with cycle := 64 } : State).fabric.avgAt + 64 ≤ 64 := by decide

theorem witness_VerificationRuns :
    macReceives preempting 0 = true ∧ preemptCfg preempting 0 1 = 1 ∧ (preempting.port 0).owed = [] ∧
    controlFree (withPort 0 { up := true, verify := 2, owed := [false] } preempting) 0 = true ∧
    controlFree (withPort 0 { up := true, verify := 2, owed := [false], tx := some sending } preempting) 0 = false ∧
    controlFree (withPort 0 { up := true, verify := 2, owed := [true] } preempting) 0 = true ∧
    (preempting.port 0).verify = 2 ∧ ((withPort 0 { up := true, verify := 4 } preempting).port 0).verify = 4 ∧ (preempting.port 0).up = true ∧
    (preempting.port 0).verifyDue ≤ preempting.cycle ∧ (preempting.port 0).verifySent < preemptCfg preempting 0 5 ∧ loopbackOf preempting 0 ≠ 1 ∧
    preempting.cycle < ((withPort 0 { verifyDue := 1 } preempting).port 0).verifyDue ∧
    preemptCfg preempting 0 5 ≤ ((withPort 0 { verifySent := 9, verifyDue := 1 } preempting).port 0).verifySent ∧
    preemptCfg queued 1 1 ≠ 1 ∧ macReceives queued 1 = true := by decide

theorem witness_FencesHeal :
    slicePresent (at_ .run).ident 16 = true ∧ slicePresent (at_ .run).ident 0 = true ∧ ((at_ .run).xp (xpKey 16 0)).fence ≠ .permanent ∧
    ((at_ .run).xp (xpKey 16 0)).lastError = none ∧
    (({ at_ .run with fabric := { State.reset.fabric with xps := [(272, { lastError := some 5 })] } } : State).xp (xpKey 16 0)).lastError = some 5 ∧
    (at_ .run).cycle < 5 + 1600000000 ∧ 5 + 1600000000 ≤ ({ at_ .run with cycle := 1600000005 } : State).cycle ∧ ((at_ .run).xp (xpKey 16 0)).fence = .none ∧
    (({ at_ .run with fabric := { State.reset.fabric with xps := [(0, { fence := .fenced, lastError := some 0 })] } } : State).xp (xpKey 0 0)).fence = .fenced ∧
    (({ at_ .run with fabric := { State.reset.fabric with xps := [(0, { fence := .unlinked })] } } : State).xp (xpKey 0 0)).fence = .unlinked ∧
    (({ at_ .run with fabric := { State.reset.fabric with xps := [(0, { fence := .permanent })] } } : State).xp (xpKey 0 0)).fence = .permanent := by
  decide


/-! ## Witnesses: FRER, time, Tine, gates and the Herd Ring -/

/-- A recovery context with latent detection on, and a generation function. -/
def frerRun : State :=
  conf [] [(0x3003, [(0, [.num 0, .num 0, .num 0, .num 32, .num 2000000, .num 0, .num 1, .num (2 ^ 64 - 1), .num 0, .num 2, .num 16, .num 2000, .num 30000, .num 128])]),
    (0x3001, [(0, [])])] (at_ .run)

theorem witness_FrerResets :
    ready (at_ .hold) pf0 = true ∧ bit (rightsOf (at_ .hold) pf0) 1 = true ∧ ready frerRun pf0 = true ∧ frerRun.chip.mode ∈ [.hold, .armed, .run] ∧
    isPaired (conf [(0x7000, 1, 1)] [] (at_ .hold)) = true ∧ (conf [(0x7000, 1, 1)] [] (at_ .hold)).pair.role ≠ 2 ∧
    ready (conf [(0x7000, 1, 1)] [] (at_ .hold)) pf0 = true ∧ isPaired frerRun = false ∧
    ¬(15360 < 17 * 16384 ∧ (15360 / 16384 = 16 ∨ 15360 % 16384 < 15360)) ∧ ¬(17 * 16384 < 17 * 16384) ∧ 15359 % 16384 < 15360 ∧
    (17 * 16384 - 1) / 16384 = 16 ∧ ¬(3840 < 17 * 4096 ∧ (3840 / 4096 = 16 ∨ 3840 % 4096 < 3840)) ∧ (17 * 4096 - 1) / 4096 = 16 ∧
    slicePresent { ordering := 2, revision := 0, unit := 1 } (15 * 16384 / 16384) = false ∧ slicePresent frerRun.ident (0 / 16384) = true ∧
    (frerRun.row 0x3003 0).isSome = true ∧ (frerRun.row 0x3003 1).isSome = false ∧ (frerRun.row 0x3001 0).isSome = true ∧
    (frerRun.row 0x3001 1).isSome = false := by decide

theorem witness_FrerTimers :
    let s := frerRun.updRecov 0 fun x => { x with timerOn := true, members := [{ timerOn := true }, {}, {}, {}] }
    let late : State := { s with cycle := 48000000000 }
    (s.row 0x3003 0).isSome = true ∧ (s.recov 0).timerOn = true ∧ ((frerRun.recov 0).timerOn = false) ∧ latentOn (at_ .run) 0 = false ∧
    s.cycle < latentTestDue s 0 ∧ (s.recov 0).latentError = false ∧
    (({ timerOn := true } : Member).timerAt + 1600 * recField late late.cfg.running 0 6 ≤ late.cycle) ∧ s.cycle < (s.recov 0).timerAt + 1600 * recField s s.cfg.running 0 6 ∧
    (late.recov 0).timerAt + 1600 * recField late late.cfg.running 0 6 ≤ late.cycle ∧ recField s s.cfg.running 0 8 = 1 ∧
    (s.recov 0).members[0]? = some { timerOn := true } ∧ latentOn s 0 = true ∧ latentTestDue late 0 ≤ late.cycle ∧
    (late.recov 0).latentResetAt + 1600000 * recField late late.cfg.running 0 14 ≤ late.cycle ∧
    (late.recov 0).latentResetAt + 1600000 * recField late late.cfg.running 0 14 <
      latentTestDue (late.updRecov 0 fun x => { x with testAt := 48000000000 }) 0 := by decide

theorem witness_RateCommands :
    (live .run).barReach 3 = true ∧ rateOwnerRefuses (live .run) 0 = false ∧ rateOwnerRefuses (live .run) 7 = true ∧
    incAllowed (1 % 256 * 2 ^ 32 + 0x20C49C) = true ∧ incAllowed (1 % 256 * 2 ^ 32 + 0x20C49D) = false ∧ incAllowed 0x00FFDF3B64 = true ∧
    ((live .run).dom 0).enabled = true ∧ ((live .run).dom 0).adjOpen = false ∧ ((live .run).dom 0).adjNext = [] ∧
    (((live .run).updDom 0 fun x => { x with incNext := [(0x0100000001, 1), (0x0100000002, 2)] }).dom 0).incNext.filter
      (fun e => decide (e.2 ≤ tickOf (live .run).cycle + 1)) = [(0x0100000001, 1)] ∧
    ((((live .run).updDom 0 fun x => { x with adjNext := [(0x0100000001, 0, 1), (0x0100000001, 5, 1)] }).dom 0).adjNext.filter
      fun e => decide (e.2.2 ≤ tickOf (live .run).cycle + 1)) = [(0x0100000001, 0, 1)] ++ [(0x0100000001, 5, 1)] ∧
    ((live .run).dom 1).enabled = false ∧ ((live .run).dom 0).adjLeft = 0 ∧
    (((live .run).updDom 0 fun x => { x with adjOpen := true }).dom 0).adjOpen = true := by decide

theorem witness_StepsAndArming :
    (live .hold).barReach 0 = true ∧ bit 1 0 = true ∧ bit 2 0 = false ∧ rateOwnerRefuses (live .hold) 0 = false ∧
    stepAllowed ((live .hold).dom 0) = true ∧ ((live .hold).dom 0).step = none ∧ rateOwnerRefuses (live .hold) 1 = true ∧
    (((live .hold).updDom 0 fun x => { x with step := some (true, 5, 0) }).dom 0).step = some (true, 5, 0) ∧
    isAlive (live .hold).chip.mode = true ∧ (live .hold).chip.mode ∈ [.hold, .armed, .run] ∧ 0 ≤ tickOf (live .hold).cycle ∧ tickOf (live .hold).cycle < 1 ∧ ((live .hold).dom 0).enabled = true ∧
    ((live .hold).dom 1).enabled = false ∧ ready (live .hold) pf0 = true ∧ bit (rightsOf (live .hold) pf0) 1 = true := by decide

theorem witness_OffsetsMeasured :
    let s := conf [(0x4000, 3, 1), (0x4000, 4, 0)] [] (live .run)
    let p := conf [(0x4000, 3, 2), (0x4000, 4, 1), (0x4000, 5, 1), (0x4000, 0x10, 2)] [] (live .run)
    let seen : State := { p with time := { p.time with ppsSeen := [none, some 0] } }
    s.barReach 0 = true ∧ (s.dom 0).enabled = true ∧ s.domSource 0 = 1 ∧ (live .run).domSource 0 ≠ 1 ∧
    s.cfgN (domObj 0) 4 = 0 ∧ s.cfgB (domObj 0) 5 = (!true) ∧ p.cfgN (domObj 0) 4 = 1 ∧ p.cfgB (domObj 0) 5 = (!false) ∧
    p.time.ppsSeen.getD 1 none = none ∧ seen.time.ppsSeen.getD 1 none = some 0 ∧ seen.cycle < 0 + 160 ∧ 0 + 160 ≤ ({ seen with cycle := 160 } : State).cycle ∧
    p.domSource 0 = 2 ∧ (s.dom 0).lastPps = none ∧
    ((s.updDom 0 fun x => { x with lastPps := some 0 }).dom 0).lastPps = some 0 ∧ s.cycle < 0 + 800000000 ∧
    0 + 800000000 ≤ ({ s with cycle := 800000000 } : State).cycle ∧ s.domSource 0 ≠ 0 ∧
    s.cycle < (s.dom 0).measuredAt + 1600000 * s.cfgN (domObj 0) 0x0E ∧
    (s.dom 0).measuredAt + 1600000 * s.cfgN (domObj 0) 0x0E ≤ 1600000 * 3000 ∧ ppsDomain p 1 = some 0 ∧ ppsDomain (live .run) 0 = none ∧
    isActive p.chip.mode = true ∧ ppsSecond p 0 ≤ (p.time.pps.getD 1 {}).last ∧
    (p.time.pps.getD 1 {}).last < ppsSecond (p.updDom 0 fun x => { x with value := BitVec.ofNat 96 (1000000000 * 2 ^ 32) }) 0 ∧
    ((p.updPps 1 fun o => { o with active := true, endAt := 0 }).time.pps.getD 1 {}).active = true ∧ (p.time.pps.getD 1 {}).active = false ∧
    ((p.updPps 1 fun o => { o with active := true, endAt := 1 }).time.pps.getD 1 {}).endAt = 1 := by decide

theorem witness_FifosDrain :
    let s := (live .run).updFifo 1 fun x => { x with records := [zeros 16] }
    let d := (live .run).updFifo 1 fun x => { x with records := [zeros 16], drain := true, since := some 0 }
    let l := s.updFifo 1 fun x => { x with lostNow := 3, lost := 3 }
    s.barReach 2 = true ∧ (s.fifo 1).records = [zeros 16] ∧ (s.fifo 1).drain = false ∧ (s.fifo 1).lostNow = 0 ∧
    s.hitOf (.fifoHead 1) = none ∧ ((s.hit (.fifoHead 1) 0).hitOf (.fifoHead 1)).isSome = true ∧ 0 < (l.fifo 1).lostNow ∧ 0 + 2 ≤ 4096 ∧
    s.hitOf (.fifoLost 1) = none ∧ (l.hit (.fifoLost 1) 1).hitOf (.fifoLost 1) = some 1 ∧ 1 ≤ (l.fifo 1).lost ∧ (s.fifo 1).since = none ∧
    ((live .run).fifo 0).records = [] ∧ (d.fifo 1).since = some 0 ∧ (d.fifo 1).drain = true ∧ d.cycle < 0 + 16000 ∧
    0 + 16000 ≤ ({ d with cycle := 16000 } : State).cycle ∧ (d.fifo 1).records ≠ [] := by decide

/-- A list of one hold entry runs at P0; and one is pending there for an instant. -/
def gated : State := (conf [(0x1400, 0x20, 1)] [] (at_ .run)).updGate 0 fun g =>
  { g with list := some ⟨0, 0, 1000000, 0, [(1, 0xFF, 1000000)]⟩, started := true, onChip := [0], requested := [(7, 0)] }
def gatePending (x : Nat) : State := gated.updGate 0 fun g => { g with pending := some (⟨0, 0, 1000000, 0, []⟩, x) }

theorem witness_GateTransitions :
    gatesRun (at_ .run) 0 = false ∧ gatesRun gated 0 = true ∧ (gated.gate 0).hold = false ∧
    holdAt gated 0 (holdAhead gated 0) = true ∧ preemptActive gated 0 = false ∧
    (gated.gate 0).requested.any (fun x => x.1 == 7) = true ∧
    offsetOf (ballNow (gatePending 0) 0 0) 0 ≤ 0 ∧ 0 < offsetOf (ballNow (gatePending 1000000) 0 0) 1000000 ∧
    ((gatePending 0).gate 0).pending = some (⟨0, 0, 1000000, 0, []⟩, 0) ∧ (gated.gate 0).pending = none ∧
    (gated.gate 0).list = some ⟨0, 0, 1000000, 0, [(1, 0xFF, 1000000)]⟩ ∧ 0 < pageEntries ⟨0, 0, 1000000, 0, [(1, 0xFF, 1000000)]⟩ 0 := by decide

theorem witness_GateTransitions_closing :
    let s := (conf [(0x1400, 0x20, 1), (0x1400, 0x28, 1)] [] (at_ .run)).updGate 0 fun g =>
      { g with list := some ⟨0, 0, 1000000, 0, [(0, 0xFE, 1000000)]⟩, started := true, onChip := [0] }
    bit (s.gate 0).states 0 = true ∧ periodBound s s.cfg.running 0 0 = true ∧ bit (segmentAt (enterEntry 0 (takeStarts 0 s)) 0 0).states 0 = false ∧
    preemptActive (withPort 0 { up := true } (conf [(0x1100, 1, 1), (0x1100, 3, 1)] [] gated)) 0 = true := by decide

/-- A node of the ring in a role, both ports in use. -/
def ringed (role : Nat) : State :=
  let s := conf [(0x5000, 1, 1), (0x5000, 3, 5), (0x5000, 4, 9)] [] (at_ .run)
  { s with herd := { role := role, ports := [{ link := true, inUse := true }, { link := true, inUse := true }] } }

theorem witness_HerdCycles :
    cycleIndex (ringed 1) = some 0 ∧ ringOn (ringed 1) = true ∧ ringOn (at_ .run) = false ∧
    ({ (ringed 1).herd with cycleNow := some 0 } : Herd).cycleNow = some 0 ∧ (ringPort (ringed 3) 1).inUse = true ∧ (ringed 3).herd.cycleNow = none ∧ (ringed 3).herd.role = 3 ∧
    herdN (ringed 2) 0x0E ≤ ({ (ringed 2).herd with bids := 4 } : Herd).bids ∧ (ringed 2).herd.bids < herdN (ringed 2) 0x0E ∧
    herdN (ringed 1) 4 ≠ 0 ∧ (if ({ (ringed 4).herd with silence := 2 } : Herd).heard then 0 else ({ (ringed 4).herd with silence := 2 } : Herd).silence + 1) = 3 ∧
    herdN (conf [(0x5000, 4, 0)] [] (ringed 1)) 4 = 0 := by decide

theorem witness_HerdTimers :
    let s : State := (ringed 3).updDom 0 fun x => { x with value := BitVec.ofNat 96 (998000 * 2 ^ 32) }
    let m : MailIn := { seq := 1, chunk := 0, data := [], cycle := 0 }
    let h : State := { ringed 4 with herd := { (ringed 4).herd with cps := [(15, 0)], mailOut := [(1, [])], mailIn := [(6, m)] } }
    cycleIndex s = some 0 ∧ originatesNext s = true ∧ s.herd.assembled = none ∧ ringStart s (0 + 1) ≤ s.ns (herdDom s) + 2000 ∧
    stillReceiving s = false ∧ originatesNext (ringed 1) = false ∧ AMap.find h.herd.cps 15 = some 0 ∧
    h.reached (herdDom h) (pointInstant h 15 0) = false ∧
    (conf [(0x5000, 1, 1), (0x5000, 0x2F, 0)] [] h).overdue 0 (pointInstant (conf [(0x5000, 1, 1), (0x5000, 0x2F, 0)] [] h) 15 0) = false ∧
    (conf [(0x5000, 1, 1), (0x5000, 0x2F, 0)] [] (h.updDom 0 fun x => { x with value := BitVec.ofNat 96 (5 * 2 ^ 32) })).overdue 0
      (pointInstant (conf [(0x5000, 1, 1), (0x5000, 0x2F, 0)] [] h) 15 0) = true ∧
    h.herd.mailSince + herdN (conf [(0x5000, 0x0F, 0)] [] h) 0x0F ≤ (cycleIndex h).getD 0 ∧ (cycleIndex h).getD 0 < h.herd.mailSince + herdN h 0x0F ∧
    (conf [(0x5000, 1, 1), (0x5000, 0x2F, 0)] [] h).reached 0 (pointInstant (conf [(0x5000, 1, 1), (0x5000, 0x2F, 0)] [] h) 15 0) = true ∧
    h.herd.mailOut ≠ [] ∧ 6 ≠ herdId h ∧ AMap.find h.herd.mailIn 6 = some m ∧ m.done = false ∧
    m.cycle + herdN (conf [(0x5000, 0x0F, 0)] [] h) 0x0F ≤ (cycleIndex h).getD 0 ∧ (ringPort h 1).link = true ∧ (ringPort h 0).inUse = true := by
  decide

/-- A ring frame of another node (R330): subtype and CYCLE, rank 200. -/
def ringBytes (sub cyc : Nat) : Bytes :=
  beBytes 6 0x030048520001 ++ beBytes 6 0x020000000007 ++ [0x88, 0xB6, BitVec.ofNat 8 sub, 1, 0, 40] ++ beBytes 4 cyc ++ zeros 4 ++
    [7, 200, 0, 0] ++ zeros 30

theorem witness_HerdFramesReceived :
    let s : State := { ringed 4 with herd := { (ringed 4).herd with current := some ⟨200, 0x020000000007, 7⟩ } }
    ringHears s 1 (ringBytes 1 0) true 1 = true ∧ freshCycle s (ringBytes 1 0) = true ∧ freshCycle s (ringBytes 1 2) = false ∧
    ringHears s 0 (ringBytes 2 0) true 1 = false ∧ s.herd.current = some (hfMaster (ringBytes 1 0)) ∧ notProcessed s (ringBytes 1 0) = none ∧
    ringHears s 1 (ringBytes 3 1) true 3 = true ∧ ringHears (ringed 2) 0 (ringBytes 2 0) true 2 = true ∧
    (hfMaster (ringBytes 2 0)).addr ≠ herdN (ringed 2) 5 ∧ outranks (hfMaster (ringBytes 2 0)) (selfMaster (ringed 2)) = true ∧
    ringHears (ringed 3) 1 (ringBytes 1 0) true 1 = true ∧ (ringed 3).herd.role = 3 ∧ outranks (hfMaster (ringBytes 1 0)) (selfMaster (conf [(0x5000, 4, 255)] [] (ringed 3))) = false ∧
    (ringed 1).herd.role = 1 ∧ ringHears (ringed 1) 0 (ringBytes 3 0) true 3 = true ∧ hfClass frame60 true = 1 ∧ hfClass (ringBytes 4 0) true = 2 ∧ hfClass (ringBytes 3 0) true = 3 := by decide


/-! ## Witnesses: host interface, DMA and interrupts -/

theorem witness_FunctionsReset :
    (live .run).pcie.perst = false ∧ State.reset.pcie.perst = true ∧ (live .run).pcie.linkUp = true ∧ State.reset.pcie.linkUp = false ∧
    (live .run).pcie.cfgReady = true ∧ ({ (live .run).pcie with cfgReady := false } : Pcie).cfgReady = false ∧
    isAlive (live .run).chip.mode = true ∧ isAlive State.reset.chip.mode = false ∧ blockPresent (live .run).ident 15 = true ∧
    ({ (live .run).pcie with linkUp := false } : Pcie).linkUp = false ∧ 4 ≤ 4 ∧ 1 ≤ 1 ∧ 3 < 4 ∧
    (((live .run).updPf 0 fun p => { p with pmeStatus := true }).pcie.pfs.any fun p => p.pmeStatus) = true := by decide

/-- PF3 has MSI-X on and message 5 pending; its target 48 sleeps with an enabled pending source. -/
def waking : State :=
  let s := (live .run).updPf 3 fun p => { p with msixEnable := true, pmeEnable := true, pending := [(5, true)], table := [(5, { masked := false })] }
  { s with intc := { s.intc with
    sources := [(1279, { enable := true, level := 15, target := 48, pending := true })],
    targets := (upTo 64).map fun t => { function := t / 16, mask := false, sleep := t == 48 } } }

theorem witness_MessagesAndMailbox :
    let b : Burst := { chan := 30, len := 4, move := .data true 0 true 0, at_ := 0 }
    let s : State := { live .run with dma := { State.reset.dma with bursts := [(256, b)] } }
    AMap.get false (waking.pf 3).pending 5 = true ∧ msixAllowed waking 3 5 = true ∧ AMap.get false (waking.pf 3).pending 63 = false ∧
    (waking.pf 3).pmeEnable = true ∧ (waking.pf 3).pmeStatus = false ∧ (waking.pf 3).wakeSeen = false ∧ isAlive waking.chip.mode = true ∧
    wakeCondition waking 3 = true ∧ (waking.pf 0).pmeEnable = false ∧ waking.pcie.perst = false ∧ waking.pcie.linkUp = true ∧
    ((waking.updPf 3 fun p => { p with pmeStatus := true }).pf 3).pmeStatus = true ∧
    waking.pcie.pmeAt.getD 3 0 + 160000000 ≤ ({ waking with cycle := 160000000 } : State).cycle ∧ (live .run).barReach 3 = true ∧
    ((live .run).mailbox 3).resetAt ≠ some (live .run).cycle ∧
    (((live .run).updMbox 3 fun m => { m with resetAt := some 0 }).mailbox 3).resetAt = some (live .run).cycle ∧
    ((live .run).mailbox 3).outstanding = false ∧ 48 ≤ 1072 ∧ 1073 < 2048 ∧ (live .run).nap.queue.length < 64 ∧
    64 ≤ (List.replicate 64 (reqOf 1 7)).length ∧
    (((live .run).updMbox 3 fun m => { m with outstanding := true, respValid := true }).mailbox 3).outstanding = true ∧
    AMap.find s.dma.bursts 256 = some b ∧ b.data = none ∧ b.aborted = false ∧ b.source.1 = true ∧ b.chan < 31 ∧
    hostLate s b.fn b.at_ = false ∧ hostLate { s with cycle := 80000000000 } b.fn b.at_ = true ∧
    ¬(4 = 4 ∧ 2 % 4 = 0) ∧ ¬(8 = 8 ∧ 4 % 8 = 0) := by decide

theorem witness_RegisterWrites :
    (live .run).barReach 1 = true ∧ 1068 < 1072 ∧ 1068 % 4 = 0 ∧ ((live .run).mailbox 1).outstanding = false ∧ 30 < 31 ∧ 7 < 8 ∧
    (live .run).hitOf (.hostError 1 3) = none ∧ 0x40FFF8 < 0x410000 ∧ 0x40FFF8 % 8 = 0 ∧ 0x3FFFFF < 0x400000 ∧ ¬(4 = 4 ∧ 0x1A % 4 = 0) ∧
    ¬(8 = 8 ∧ 0x1C % 8 = 0) ∧ (((live .run).updMbox 1 fun m => { m with outstanding := true }).mailbox 1).outstanding = true ∧
    State.reset.barReach 1 = false ∧ refusesBar ((live .run).updPf 1 fun p => { p with mse := false }) 1 = true := by decide

/-- Channel 30 of PF0 set. -/
def withChan (x : Chan) (s : State) : State := s.updChan 30 fun _ => x

theorem witness_DmaControl :
    (live .run).barReach 3 = true ∧ 30 < 31 ∧ chanMay (live .run) 3 30 = false ∧ chanMay (live .run) 0 30 = true ∧
    ((live .run).chan 30).state = 0 ∧ ((withChan { state := 4 } (live .run)).chan 30).state = 4 ∧
    ((withChan { state := 4 } (live .run)).chan 30).pause = false ∧ ((withChan { state := 4, pause := true } (live .run)).chan 30).pause = true ∧
    ((withChan { state := 1, waitSw := true } (live .run)).chan 30).waitSw = true ∧ ((withChan { state := 1 } (live .run)).chan 30).state ∈ [1, 2, 3] ∧
    ((withChan { state := 3 } (live .run)).chan 30).state = 3 ∧ chanRole (withChan { state := 2 } (live .run)) 30 = 0 ∧
    endsFrame (live .run) 30 = false ∧
    chanRole (conf [] [(0x6001, [(30, [.num 1])])] (live .run)) 30 = 1 ∧ chanRole (conf [] [(0x6001, [(30, [.num 2])])] (live .run)) 30 = 2 ∧
    endsFrame (conf [] [(0x6001, [(30, [.num 1])])] (withChan { state := 2, waitSw := true, frame := some {} } (live .run))) 30 = true := by decide

/-- The 32 bytes of a descriptor with a CTRL word (R388). -/
def descBytes (w0 ctrl : Nat) : Bytes := leBytes 8 w0 ++ zeros 8 ++ leBytes 4 ctrl ++ zeros 12

theorem witness_DescriptorReads :
    let s := withChan { state := 1, fetching := some 0 } (live .run)
    (s.chan 30).state ≠ 0 ∧ accessError s 30 true false 0 32 = none ∧ accessError (withChan { state := 1 } (at_ .run)) 30 true false 0 32 = some 9 ∧
    readsAllowed s (chanCfg s 30 3) 1 = true ∧ ((withChan { state := 1, curHost := false, fetching := some 0 } s).chan 30).curHost = false ∧
    accessError { s with mem := { s.mem with trainDone := true, trained := 255, density := 16, ranks := 2 } } 30 false false 0 32 = none ∧
    (s.chan 30).fetching.isSome = true ∧ (s.chan 30).curHost = true ∧ (descBytes 64 0).length = 32 ∧
    (descOf 0 true (descBytes 64 0)).own = false ∧ (descOf 0 true (descBytes 1 0x80300000)).own = true ∧
    descOk (chanRole s 30) (descOf 0 true (descBytes 1 0x80300000)) = false ∧
    descOk (chanRole s 30) (descOf 0 true (descBytes 64 0x80300000)) = true ∧ (descOf 0 true (descBytes 64 0x80300000)).mode = 3 ∧
    (s.chan 30).hops < chanCfg s 30 7 ∧ chanCfg s 30 7 ≤ ((withChan { hops := 16 } s).chan 30).hops ∧
    descOk 0 (descOf 0 true (descBytes 0 0x80000000)) = true ∧ (descOf 0 true (descBytes 0 0x80000000)).mode ≠ 3 ∧ chanRole s 30 = 0 ∧
    lengthOk (descOf 0 true (descBytes 0 0x80000000)) = true ∧ lengthOk (descOf 0 true (descBytes 0 0x80100000)) = false ∧
    0 < ((withChan { poll := 5, state := 1, waitSw := true } s).chan 30).poll := by decide

theorem witness_DescriptorReads_tx :
    let s := withChan { state := 1, fetching := some 0 } (conf [] [(0x6001, [(30, [.num 1, .num 0, .num 0, .num 0, .num 0xFF, .num 16, .num 512, .num 128])])] (live .run))
    chanRole s 30 = 1 ∧ descOk 1 (descOf 0 true (descBytes 0 0x80000000)) = true ∧ (descOf 0 true (descBytes 0 0x80000000)).mode ≠ 3 := by
  decide

/-- Channel 30 has a memory descriptor of 64 bytes in hand. -/
def moving : State :=
  withChan { state := 1, desc := some { addr := 0, host := true, w0 := 0, w1 := 0, ctrl := 0x81800040, aux := 0, w3 := 0 } } (live .run)

theorem witness_BurstsMove :
    isAlive moving.chip.mode = true ∧ purgeLines moving = moving ∧ pagingLine moving = none ∧ granted moving = some 30 ∧ freeTagIn moving 256 3840 = some 256 ∧
    (chanReady moving 30).isSome = true ∧ granted (live .run) = none := by decide +kernel

theorem witness_BurstsMove_burst :
    let b : Burst := { chan := 30, len := 4, move := .data true 0 true 0, at_ := 0 }
    let s : State := { live .run with dma := { State.reset.dma with bursts := [(256, b), (257, { b with aborted := true })] } }
    let o : Offer := { host := true, addr := 0, off := 0, len := 4, move := .data true 0 true 0 }
    AMap.find s.dma.bursts 256 = some b ∧ b.aborted = false ∧ b.data = none ∧ b.chan ≠ 31 ∧ b.source.1 = true ∧
    AMap.find s.dma.bursts 257 = some { b with aborted := true } ∧
    ({ b with chan := 31, move := .page 0 0 0 } : Burst).move = .page 0 0 0 ∧ ({ b with move := .data false 0 true 0 } : Burst).source.1 = false ∧
    0 < o.len ∧ o.len ≤ (s.pf (chanCfg s 30 3)).mrrs ∧ o.host = true ∧ o.paced = false ∧
    accessError s 30 true false o.addr o.len = none ∧ accessError (at_ .run) 30 true false o.addr o.len = some 9 ∧
    pagingLine { s with dma := { s.dma with lines := [(0, [{ at_ := 0 }])] } } = some 0 ∧ freeTagIn s 0 256 = some 0 := by decide

theorem witness_DescriptorsComplete :
    let d : Desc := { addr := 0, host := true, w0 := 0, w1 := 0, ctrl := 0, aux := 0, w3 := 0 }
    let x : Fin := { desc := d, ctrl := 0, stage := 1, since := 0 }
    let s := withChan { state := 1, fin := [x] } (live .run)
    (s.chan 30).fin = x :: [] ∧ x.stage = 1 ∧ accessError s 30 x.desc.host true x.desc.addr 32 = none ∧ x.desc.barrier = false ∧
    accessError (withChan { state := 1, fin := [x] } (at_ .run)) 30 x.desc.host true x.desc.addr 32 = some 9 ∧
    ({ d with ctrl := 2 ^ 26 } : Desc).barrier = true ∧ chanRole s 30 ≠ 1 ∧ ({ x with stage := 0, host := false } : Fin).stage = 0 ∧
    ({ x with stage := 2 } : Fin).stage = 2 ∧ ((withChan { fin := [{ x with stage := 0, asked := true }] } s).chan 30).fin.find? (fun x => x.stage != 1) =
      some { x with stage := 0, asked := true } ∧ (s.chan 30).fin.find? (fun x => x.stage != 1) = none ∧ oldestWritten s 30 = none ∧
    oldestWritten { s with dma := { s.dma with bursts := [(256, { chan := 30, len := 4, move := .data true 0 true 0, at_ := 0, written := true })] } } 30 =
      some 256 ∧ (s.chan 30).reread = false ∧ (s.chan 30).placing = [] ∧ ((withChan { frame := some { ready := true } } s).chan 30).frame = some { ready := true } ∧
    timedOut s 30 = none ∧ timedOut (withChan { state := 1, fin := [{ x with stage := 0, host := false }] } { s with cycle := 160000 }) 30 = some (5, 0, none) := by
  decide

theorem witness_RequestLines :
    let s : State := { live .run with dma := { State.reset.dma with owed := [(19, { at_ := 3 })], lines := [(20, [{ at_ := 0 }])] } }
    let c := conf [] [(0x6002, [(20, [.num 0xFFFF, .num 100, .num 1])])] { s with cycle := 1000 }
    takeOwed 19 s.dma.owed = some ({ at_ := 3 }, []) ∧ 127 < 2 ^ 32 ∧ lineDepth s 19 ≤ 16 ∧ (pendingReqs s 19).length < lineDepth s 19 ∧ takeOwed 0 s.dma.owed = none ∧ (pendingReqs s 20).any (reqExpired s 20) = false ∧
    (pendingReqs c 20).find? (reqExpired c 20) = some { at_ := 0 } := by decide

theorem witness_InterruptsServed :
    let s : State := { waking with cycle := 2, intc := { waking.intc with pulses := [(1, 0), (255, 1)] } }
    s.intc.pulses.find? (fun p => p.1 == 1 && decide (p.2 + 2 ≤ s.cycle)) = some (1, 0) ∧
    s.intc.pulses.any (fun p => p.1 == 255 && decide (p.2 + 2 ≤ s.cycle)) = false ∧ s.barReach 3 = true ∧ (s.target 48).function = 3 ∧
    bestSource (s.updTarget 48 fun x => { x with sleep := false }) 48 = some (1279, 15) ∧ (s.target 0).function ≠ 3 ∧ bestSource s 63 = none ∧
    targetRight s 3 0 = false ∧ targetRight s 3 48 = true ∧ thresholdMode s.chip.mode (s.target 48) = false ∧ (s.target 48).stack = [] ∧
    thresholdMode (at_ .hold).chip.mode (s.target 48) = true ∧
    ((s.updTarget 48 fun x => { x with stack := [(1, 2)] }).target 48).stack = (1, 2) :: [] ∧ s.hitOf (.claim 48) = none ∧
    ((s.hit (.claim 48) 0).hitOf (.claim 48)).isSome = true ∧ s.hitOf (.count 273) = none ∧ ((s.hit (.count 273) 4).hitOf (.count 273)) = some 4 ∧
    (s.group 3).runs = none ∧ 1279 < 2047 ∧ s.barReach 0 = true ∧ 48 < s.intc.targets.length ∧ srcExists 273 = true ∧
    1216 ≤ 1279 ∧ ((s.updGroup 3 fun g => { g with runs := some 2 }).group 3).runs = some 2 ∧ 2 ≤ s.cycle := by decide


/-! ## Witnesses: triggers, pairing, faults and health -/

/-- Trigger 95 on with a grid of 1,000 ns started by line 0, and input 15 on with both edges. -/
def triggered : State :=
  conf [(0x4100 + 31, 0x30, 1), (0x4100 + 31, 0x34, 1000), (0x4100 + 31, 0x36, 2), (0x4100 + 31, 0x37, 0), (0x4100, 1, 1), (0x4100, 0x0B, 0),
    (0x4100, 8, 1), (0x4100 + 31, 1, 1), (0x4100 + 31, 0x0B, 0), (0x420F, 1, 1), (0x420F, 2, 3), (0x420F, 6, 1)] [] (live .run)

theorem witness_TriggersAndEvents :
    trigWorks triggered 95 = true ∧ (triggered.trigger 95).starts = 0 ∧
    ((triggered.updTrig 95 fun x => { x with starts := 1 }).trigger 95).starts = 1 ∧ (triggered.trigger 95).state ≠ 2 ∧
    armsItself triggered 95 = false ∧ lastNow (triggered.updTrig 95 fun x => { x with state := 2 }) 95 = false ∧
    lastNow (triggered.updTrig 0 fun x => { x with state := 2, left := 1, armed := some 0 }) 0 = true ∧
    triggered.overdue (trigSet triggered 0 2) (0 / 4) = false ∧
    (triggered.updDom 0 fun x => { x with value := BitVec.ofNat 96 (9 * 2 ^ 32) }).overdue 0 0 = true ∧ (triggered.trigger 0).issued = 0 ∧
    (triggered.trigger 95).again = false ∧ (triggered.trigger 95).armed = none ∧ trigWorks (live .run) 0 = false ∧
    (triggered.trigger 0).pulses.any (fun u => decide (u.off ≤ quarterNow triggered)) = false ∧ armsItself (conf [(0x4100 + 31, 0x37, 64)] [] triggered) 95 = true ∧
    firstAhead triggered 95 0 64 = some 1 ∧ trigWorks triggered 0 = true ∧ trigSet triggered 0 0x0B ≠ 0xFFFF ∧ trigWorks triggered 31 = true ∧
    trigSet triggered 31 0x0B ≠ 0xFFFF ∧ trigSet triggered 95 0x0B ≠ 0xFFFF ∧ triggered.barReach 3 = true ∧
    triggered.reached (trigSet triggered 95 2) (4000 / 4) = false ∧ triggered.reached (trigSet triggered 0 2) (0 / 4) = true ∧
    ((triggered.updTrig 0 fun x => { x with armed := some 0, state := 2 }).trigger 0).armed = some 0 ∧
    ((triggered.updTrig 0 fun x => { x with pulses := [{ off := quarterNow triggered }] }).trigger 0).pulses.any
      (fun u => decide (u.off ≤ quarterNow triggered)) = true := by decide

theorem witness_TriggersAndEvents_inputs :
    let s := triggered.updEv 15 fun x => { x with pin := true, changes := [([0], 0, true)] }
    isAlive triggered.chip.mode = true ∧ (triggered.ev 15).pin ≠ true ∧ (triggered.ev 15).changes = [] ∧ lastLevel (triggered.ev 15) ≠ true ∧
    lastLevel (triggered.ev 15) = false ∧ isAlive State.reset.chip.mode = false ∧ lastLevel (s.ev 15) ≠ false ∧
    (s.ev 15).changes = [] ++ [([0], 0, true)] ∧ 4 * tickOf s.cycle + 3 < 0 + 4 * evSet (conf [(0x420F, 3, 1)] [] s) 15 3 ∧
    0 + 4 * evSet s 15 3 ≤ 4 * tickOf s.cycle + 3 ∧ nearCapture (s.ev 15) 0 = false ∧ nearCapture { s.ev 15 with lastCapture := some 0 } 15 = true ∧
    nearCapture { s.ev 15 with lastCapture := some 0 } 16 = false ∧ evCaptures s.chip.mode = true ∧ evSet s 15 1 = 1 ∧
    bit (evSet s 15 2) (if true then 0 else 1) = true ∧ bit (evSet s 15 2) (if false then 0 else 1) = true ∧ evSet s 15 6 = 1 ∧
    (s.ev 15).valid = false ∧ ({ s.ev 15 with valid := true } : EvIn).valid = true ∧ triggered.barReach 0 = true ∧ s.hitOf (.capture 15) = none ∧
    (s.ev 15).lostAt = none ∧ ({ s.ev 15 with lostAt := some (0, true, 7) } : EvIn).lostAt = some (s.cycle, true, 7) ∧ evSet s 0 6 ≠ 1 := by decide

/-- A heartbeat of a partner in RUN as ACTIVE of rank 7 (R435, R436). -/
def heartbeat : Bytes :=
  beBytes 6 0x0300504C0001 ++ zeros 6 ++ [0x88, 0xB5, 3, 1, 0, 48] ++ beBytes 4 0x107 ++ [0x80, 0, 7, 6] ++ zeros 4 ++ beBytes 4 1 ++ zeros 28

/-- A paired unit in RUN in a role, lane 1 up. -/
def paired (role : Nat) : State :=
  let s := conf [(0x7000, 1, 1)] [] (live .run)
  { s with pair := { role := role, lanes := [false, true], heardAt := some 0, sendFull := false } }

theorem witness_FeedsAndHeartbeats :
    let f : State := { live .run with feeds := { aOk := true, bOk := true } }
    feedHeld f 1 = true ∧ feedHeld { f with feeds := { f.feeds with bAt := some 0 } } 1 = false ∧
    isAlive f.chip.mode = true ∧ (if 1 = 0 then f.feeds.aOk else f.feeds.bOk) ≠ false ∧ (if 0 = 0 then f.feeds.aOk else f.feeds.bOk) = true ∧
    ({ f.feeds with okSince := some 0 } : Feeds).okSince = some 0 ∧ f.feeds.short = false ∧ f.cycle < 0 + msCycles (f.cfgN 0x7001 4) ∧
    0 + msCycles (f.cfgN 0x7001 4) ≤ 1600000000 ∧ pairPresent (paired 3) = true ∧ (paired 3).pair.lanes.getD 0 false ≠ true ∧
    (paired 3).pair.lanes.getD 1 false = true ∧ beAt (zeros 60) 12 2 ≠ 0x88B5 ∧ pairFrameOk (zeros 12 ++ [0x88, 0xB5] ++ zeros 46) = false ∧
    beAt (zeros 12 ++ [0x88, 0xB5] ++ zeros 46) 12 2 = 0x88B5 ∧ pairFrameOk heartbeat = true ∧ beAt heartbeat 12 2 = 0x88B5 ∧ partnerHeard (live .run) = false ∧
    (live .run).pair.heardAt = none ∧ (paired 3).pair.role = 3 ∧ (live .run).feeds.okSince = none ∧ beAt heartbeat 14 1 = 3 ∧
    beAt heartbeat 16 2 = 48 ∧ partnerHeard (paired 3) = true ∧ (paired 3).pair.partner.map (·.seq) ≠ some (beAt heartbeat 30 4) ∧
    ({ (paired 3).pair with partner := some (partnerOf heartbeat) } : Pair).partner.map (·.seq) = some (beAt heartbeat 30 4) ∧
    (paired 3).cycle < (paired 3).pair.hbAt + usCycles 10 ∧ (paired 3).pair.hbAt + usCycles 10 ≤ 16000 ∧ lanesUp (paired 3) ≠ [] ∧
    pairRuns (paired 3) = true ∧ (paired 3).pair.taking = false ∧ (paired 3).pair.roleAt ≤ 0 + usCycles 32 ∧ 0 + usCycles 32 ≤ 51200 := by
  decide

theorem witness_RolesAndCopies :
    let s : State := { paired 3 with pair := { (paired 3).pair with taking := true, rx := some { num := 1 } } }
    let a : State := { paired 2 with pair := { (paired 2).pair with readyAt := some 0 } }
    let x : CopyTx := { num := 0, full := false, entries := [(0, 0)], frames := [] }
    pairRuns s = true ∧ s.pair.role = 3 ∧ s.pair.taking = true ∧ safeDue s = false ∧ s.pair.higherAt ≠ some s.cycle ∧
    ({ s.pair with higherAt := some 0 } : Pair).higherAt = some s.cycle ∧ atCutover s = false ∧ isPaired s = true ∧ a.chip.mode = .run ∧
    (at_ .hold).chip.mode ≠ .run ∧ a.pair.role = 2 ∧ (paired 3).pair.role ≠ 2 ∧ x.sent = true ∧ ({ x with num := 1 } : CopyTx).num ≠ copyNumber a ∧
    (copyNumber s + 2 ^ 32 - 1) % 2 ^ 32 = 2 ^ 32 - 1 ∧ ({ s.pair with rx := none, lastEnd := some 7 } : Pair).lastEnd = some 7 ∧ ready a pf0 = true ∧
    bit (rightsOf a pf0) 1 = true ∧ isPaired a = true ∧ handoverAllowed a = true ∧ handoverAllowed (paired 2) = false ∧
    a.cycle < a.pair.announceAt + usCycles 10 ∧ a.pair.announceAt + usCycles 10 ≤ 16000 ∧ a.pair.tx = none ∧
    a.pair.copyLast ≠ some (copyNumber a) ∧ copyNumber a = x.num ∧ copyPhase a + 5000 < copyNs a ∧ lanesUp a ≠ [] ∧
    copyPhase a + 5000 ≤ copyNs a ∧
    copyNs a ≤ copyPhase (a.updDom 0 fun d => { d with value := BitVec.ofNat 96 (995000 * 2 ^ 32) }) + 5000 ∧
    s.pair.rx = some { num := 1 } ∧ 1 ≠ copyNumber s ∧ copyPhase a < 1000 ∧
    1000 ≤ copyPhase (a.updDom 0 fun d => { d with value := BitVec.ofNat 96 (1000 * 2 ^ 32) }) := by decide

/-- A copy-data or end frame of copy 1 without records, in a pair-link frame (R448). -/
def copyBytes (sub : Nat) : Bytes :=
  beBytes 6 0x0300504C0001 ++ zeros 6 ++ [0x88, 0xB5, BitVec.ofNat 8 sub, 1, 0, if sub = 5 then 40 else 24] ++ zeros 8 ++ beBytes 4 1 ++ zeros 30

theorem witness_RolesAndCopies_standby :
    let s : State := { paired 3 with pair := { (paired 3).pair with rx := some { num := 1 } } }
    pairHears s 1 = true ∧ pairHears s 0 = false ∧ beAt (copyBytes 4) 12 2 = 0x88B5 ∧ beAt (copyBytes 5) 12 2 = 0x88B5 ∧ s.pair.role = 3 ∧
    ({ s.pair with rx := some { num := 2 } } : Pair).rx = some { num := 2 } ∧ (paired 3).pair.rx = none ∧ (paired 3).pair.lastEnd ≠ some 1 ∧ pairFrameOk (copyBytes 4) = true ∧ pairFrameOk (copyBytes 5) = true ∧
    beAt (copyBytes 4) 26 4 = 1 ∧ beAt (copyBytes 5) 26 4 = 1 ∧ s.pair.rx = some { num := 1 } ∧ s.pair.lastEnd ≠ some 1 ∧
    beAt (copyBytes 4) 14 1 = 4 ∧ beAt (copyBytes 5) 14 1 = 5 ∧ parseRecords 0 [] = some [] ∧ bit (beAt (copyBytes 5) 50 1) 0 = false ∧
    framesComplete [] (beAt (copyBytes 5) 38 4) = true ∧ beAt (copyBytes 5) 42 4 = 0 ∧ crc32c [] = beAt (copyBytes 5) 46 4 ∧
    framesComplete [] 1 = false := by decide

theorem witness_FaultsRecorded :
    let f := (live .run).updFault 7 4 fun x => { x with status := 2 ^ 16, lost := 5 }
    (f.hit (.faultStatus 7 4 17) 1).hitOf (.faultStatus 7 4 17) = some 1 ∧ f.hitOf (.faultStatus 7 4 17) = none ∧ f.barReach 0 = true ∧
    instancePresent f 7 4 = true ∧ bit (2 ^ 16) (17 - 1) = true ∧ ((f.hit (.faultHead 7 4) 0).hitOf (.faultHead 7 4)).isSome = true ∧
    (f.hit (.faultLost 7 4) 3).hitOf (.faultLost 7 4) = some 3 ∧ f.hitOf (.faultLost 7 4) = none ∧
    (f.fault 7 4).hist.length < 8 ∧ 8 ≤ (List.replicate 8 0).length ∧ ({ freshAt := 1 } : FaultInst).freshAt ≠ 0 ∧
    ({ (at_ .run) with chip := { (at_ .run).chip with safePending := some (0x1601, 0, 0) } } : State).chip.safePending = some (0x1601, 0, 0) ∧
    0x1601 ≤ 22 * 256 + 1 ∧ (live .run).chip.mode ∈ [.hold, .armed, .run] ∧ ready (live .run) pf0 = true ∧
    isAlive (live .run).chip.mode = true ∧ blockPresent (live .run).ident 22 = true ∧ bit ((live .run).fault 22 0).status 0 = false ∧
    bit (((live .run).updFault 22 0 fun x => { x with status := 1 }).fault 22 0).status 0 = true ∧ bit (safeOn (live .run) 22) 0 = true ∧
    bit (safeOn (live .run) 7) 0 = false ∧ canEnterSafe (live .run).chip.mode = true ∧ (live .run).chip.safePending = none ∧
    bit ((live .run).cfgN (0x8000 + 7) 1) 16 = true ∧ ready (live .run) pf0 = true ∧ bit (rightsOf (live .run) pf0) 1 = true ∧
    instanceCount 16 ≤ 32 ∧ instancePresent (live .run) 16 31 = true ∧ instanceCount 7 = 17 ∧
    instancePresent { live .run with ident := { ordering := 2, revision := 0, unit := 1 } } 7 15 = false ∧ (live .run).barReach 3 = true ∧
    (((live .run).updFault 7 4 fun x => { x with hist := [5, 6] }).fault 7 4).hist = 5 :: [6] := by decide

theorem witness_HealthMonitored :
    isAlive (live .run).chip.mode = true ∧ (live .run).health.aliveStopped = false ∧ countOk 792000 800000 = true ∧
    countOk 505000 500000 = true ∧ countOk 247499 250000 = false ∧ (List.replicate 32 (200 : Int)).length = 32 ∧
    (List.replicate 32 (200 : Int)).getD 31 0 = 200 ∧ ¬(-320 ≤ (1201 : Int) ∧ (1201 : Int) ≤ 1200) ∧
    8 * ((live .run).cfgN 0x8100 1 : Int) ≤ 760 ∧ (719 : Int) < 8 * ((live .run).cfgN 0x8100 1 : Int) - 40 ∧
    8 * ((live .run).cfgN 0x8100 2 : Int) ≤ 880 ∧ linePortPresent (live .run).ident 255 = true ∧
    ((live .run).port (lanePort (live .run) 255)).up = false ∧
    ((withPort 0 { up := true } (live .run)).port (lanePort (withPort 0 { up := true } (live .run)) 0)).up = true ∧
    isAlive State.reset.chip.mode = false ∧ marginTrend (live .run) 255 = none ∧ inOperatingRange 0 6750 = true ∧
    6750 * 100 < (railOf 0).nominal * (100 - (live .run).cfgN 0x8100 3) ∧ ¬(7125 * 100 < (railOf 0).nominal * (100 - (live .run).cfgN 0x8100 3)) ∧
    inOperatingRange 0 6749 = false ∧ 20 ≤ 999 ∧
    [14].sum / [14].length < (live .run).cfgN 0x8100 4 ∧ (live .run).cfgN 0x8100 4 ≤ [15].sum / [15].length ∧
    (live .run).health.deg.getD 63 0 < (live .run).cfgN 0x8100 5 ∧ (live .run).cfgN 0x8100 5 ≤ 50000 ∧
    (live .run).cycle < (live .run).health.checkAt + sCycles 3600 ∧ (live .run).health.checkAt + sCycles 3600 ≤ 5760000000000 := by decide

theorem witness_MemoryAndClocks :
    let t : State := { live .run with mem := { State.reset.mem with density := 16, ranks := 2 } }
    isAlive t.chip.mode = true ∧ t.mem.channels[7]?.isSome = true ∧ 0 < dataSize t ∧ canEnterSafe t.chip.mode = true ∧
    t.chip.safePending = none ∧ linePortPresent t.ident (4 * 63) = true ∧ 1 < t.pins.squelched.length ∧
    squelchCause t 1 = t.pins.squelched.getD 1 true ∧
    squelchCause { t with pins := { t.pins with squelched := [false, false] } } 0 ≠ [false, false].getD 0 true ∧ t.chip.mode ≠ .off ∧
    dataSize t - 1 < dataSize t ∧ isAlive State.reset.chip.mode = false ∧ State.reset.chip.mode ≠ .off ∧ (at_ .off).chip.mode = .off ∧
    selectsBoundary { t with pins := { t.pins with tapIr := 2 } } = true ∧ selectsBoundary { t with pins := { t.pins with tapIr := 0 } } = false ∧
    selectsBoundary { t with pins := { t.pins with tapIr := 0, tapControl := true } } = true := by decide

theorem witness_ClaimScopedEntries :
    isPaired (paired 3) = true ∧ (paired 3).pair.role ≠ 2 ∧ ready (paired 3) pf0 = true ∧ bit (rightsOf (paired 3) pf0) 1 = true ∧
    (paired 3).chip.mode = .run ∧ isPaired (live .run) = false ∧ (paired 3).chip.mode ∈ [.hold, .armed, .run] ∧
    (∃ x, admitWrite ((paired 3).updPair fun y => { y with role := 2 }) pf0 0x7000 8 (.val (.num 1)) = .ok x) := by
  exact ⟨by decide, by decide, by decide, by decide, by decide, by decide, by decide, ⟨_, rfl⟩⟩

theorem witness_RegionRights :
    (live .run).barReach 3 = true ∧ 3 < (live .run).pcie.pfs.length ∧ (live .run).hitOf (.hostError 3 3) = none ∧ 0x10000 - 4 < 2 ^ 32 ∧ (0x10000 - 4) % 4 = 0 ∧
    (0x10000 - 4) / 0x10000 ∈ [0, 6, 7] ∧ 0x60000 / 0x10000 ∈ [0, 6, 7] ∧ 0x7FFFC / 0x10000 ∈ [0, 6, 7] := by decide


/-! ## WellFormed: an ill-formed term for each check -/

/-- A value beyond 96 bits; requesters that no path has. -/
def bigVal : Val := .num (2 ^ 96)
def badReqs : List Requester :=
  [⟨.mailbox 4, 0⟩, ⟨.mailbox 0, 17⟩, ⟨.bar2 4, 0⟩, ⟨.bar2 0, 1⟩, ⟨.mgt 2, 1⟩, ⟨.mgt 0, 0⟩, ⟨.mgt 0, 17⟩, ⟨.line 256, 1⟩, ⟨.line 0, 0⟩,
   ⟨.ring, 0⟩, ⟨.ring, 17⟩]
def badReq : Requester := ⟨.mgt 0, 0⟩

theorem test_wellFormed_requesters :
    badReqs.all (fun r => !r.wf) = true ∧ [pf0, win0, mgt0, ⟨.mailbox 3, 16⟩, ⟨.line 255, 1⟩, ⟨.ring, 16⟩].all (fun r => r.wf) = true := by decide

theorem test_wellFormed_values : bigVal.wf = false ∧ Val.wf (.num (2 ^ 96 - 1)) = true ∧ isFrame (zeros 16001) = false ∧
    isFrame (zeros 16000) = true ∧ isWord (2 ^ 32) = false ∧ isWord (2 ^ 32 - 1) = true := by decide +kernel

/-- Ill-formed commands: power, dictionary, commit. -/
def badTerms1 : List Instr :=
  [.supplyInRange [], .supplyOutOfRange 8 0 0, .resetRelease (2 ^ 11) 0 [], .resetRelease 0 (2 ^ 32) [], .resetRelease 0 0 [⟨2 ^ 26, true⟩], .memoryTrainingDone 256 1 none, .memoryTrainingDone 4 256 none,
   .memoryTrainingDone 4 1 (some 8), .start badReq, .stop badReq, .reload badReq, .resetCommand badReq, .safeCommand badReq,
   .segmentTimeout badReq 0, .segmentTimeout pf0 65536, .bar2Read 4 0 1, .bar2Read 0 (2 ^ 32) 1, .bar2Read 0 0 0, .bar2Read 0 0 9,
   .bar2Write 4 0 1 0, .bar2Write 0 (2 ^ 32) 1 0, .bar2Write 0 0 0 0, .bar2Write 0 0 9 0, .bar2Write 0 0 1 256, .failCountClear 4,
   .entryWrite badReq 0 0 (.num 0), .entryWrite pf0 65536 0 (.num 0), .entryWrite pf0 0 256 (.num 0), .entryWrite pf0 0 0 bigVal,
   .selectionWrite badReq 0 1 (.num 0), .selectionWrite pf0 65536 1 (.num 0), .selectionWrite pf0 0 0 (.num 0),
   .selectionWrite pf0 0 17 (.num 0), .selectionWrite pf0 0 1 bigVal, .read badReq 0, .read pf0 65536, .write badReq 0, .write pf0 65536,
   .delete badReq 0, .delete pf0 65536, .next badReq 0, .next pf0 65536, .keyWrite badReq 1 (zeros 32), .keyWrite pf0 0 (zeros 32),
   .keyWrite pf0 17 (zeros 32), .keyWrite pf0 1 (zeros 31), .imageUpload badReq 0 [], .imageUpload pf0 2 [], .imageRead badReq 0,
   .imageRead pf0 2, .commit badReq, .discard badReq, .cancel badReq]

/-- Ill-formed commands: ports, frames, FRER, fabric. -/
def badTerms2 : List Instr :=
  [.linkUp 256, .linkDown 266 0, .linkDown 0 256, .linkUpHoldExpiry 264, .linkDownHoldExpiry 262, .anResolution 256 0, .anResolution 0 (2 ^ 48),
   .anFailure 256 0, .anFailure 0 (2 ^ 48), .frameReceived 256 .express [] .good 0 0 0, .frameReceived 0 (.first 4 true) [] .good 0 0 0,
   .frameReceived 0 (.more 4 0 true) [] .good 0 0 0, .frameReceived 0 (.more 0 4 true) [] .good 0 0 0,
   .frameReceived 0 .express [] .good 4 0 0,
   .flushPort badReq 0, .flushPort pf0 65536, .unblockFilter badReq 0, .unblockFilter pf0 65536, .resetGate badReq 0,
   .resetGate pf0 65536, .pauseReceived 256 0, .pauseReceived 0 65536, .pauseExpiry 256, .frameSelected 263 {}, .frameTransmitted 263 {},
   .verifyFrameReceived 256, .respondFrameReceived 256, .verifyTimeExpiry 256, .parityFence 17 0, .parityFence 0 17, .fenceUnlink 17 0,
   .fenceUnlink 0 17, .fenceRebuild 17 0, .fenceRebuild 0 17, .resetRecovery badReq 0, .resetRecovery pf0 (2 ^ 32), .resetGeneration badReq 0,
   .resetGeneration pf0 (2 ^ 32), .recoveryResetTimer (2 ^ 32), .memberResetTimer (2 ^ 32) 0, .memberResetTimer 0 4, .latentTest (2 ^ 32),
   .latentReset (2 ^ 32), .lpiReceived 256]

/-- Ill-formed commands: time, Tine, gates, triggers, the Herd Ring. -/
def badTerms3 : List Instr :=
  [.incrementHiWrite 4 0 0, .incrementHiWrite 0 8 0, .incrementHiWrite 0 0 (2 ^ 32), .adjTicksWrite 4 0 0, .adjTicksWrite 0 8 0,
   .adjTicksWrite 0 0 (2 ^ 32), .adjWindowEnd 8, .go 4 0 0, .go 0 8 0, .go 0 0 (2 ^ 32), .stepApply 8, .arm (some badReq) 0 0 0, .arm none 4 0 0,
   .arm none 0 8 0, .arm none 0 0 (2 ^ 32), .offsetReport 4 0 0, .offsetReport 0 8 0, .offsetReport 0 0 (2 ^ 32), .timeFracRead 4 0,
   .timeFracRead 0 8, .ppsEdge 2 true 0, .ppsEdge 0 true 4, .measureTimeout 8, .ppsOutPulse 2, .ppsOutWidthEnd 2, .rateChangeDue 8,
   .tineRecordRead 4 0, .tineRecordRead 0 2, .tineDrainTimer 2, .flush 4 0, .flush 0 2, .tineLostRead 4 0, .tineLostRead 0 2,
   .gateEntryTransition 263, .pageArrived 263 0 true, .pageArrived 0 65536 true, .holdIssue 263, .gateConfigChange 263, .triggerStart 96,
   .outArm 4 0, .outArm 0 (2 ^ 32), .intArm 4 true 0, .intArm 0 true (2 ^ 32), .triggerInstant 96, .triggerPulseEnd 32, .intTrig 64,
   .evInChange 16 true 0, .evInChange 0 true 4, .evCapture 16, .capStatusRead 4 0, .capStatusRead 0 16, .summationFrameRx 2 [] true 0,
   .summationFrameRx 0 [] true 4, .nullFrameRx 2 [] true 0, .nullFrameRx 0 [] true 4, .rutBidRx 2 [] true, .otherRingFrameRx 2 [] true, .mailboxRetryExpiry 256,
   .ringPortLinkLost 2, .herdCp 16]

/-- Ill-formed commands: the host interface, DMA, interrupts. -/
def badTerms4 : List Instr :=
  [.functionLevelReset 4, .powerStateChange 4 true, .msixMessage 4 0, .msixMessage 0 64, .pmPme 4, .completionTimeout 4096, .send 4 0,
   .send 0 2048, .ack 4, .bar0BadAccess 4 0 1 true, .bar0BadAccess 0 0x400000 1 true, .bar0BadAccess 0 0 0 true, .bar0BadAccess 0 0 4097 true,
   .registerWrite 4 0 0 4, .registerWrite 0 (2 ^ 32) 0 4, .registerWrite 0 2 0 4, .registerWrite 0 4 0 8, .registerWrite 0 0 0 2,
   .registerWrite 0 0 (2 ^ 32) 4, .registerWrite 0 0 (2 ^ 64) 8, .run 4 0, .run 0 32, .pause 4 0 true, .pause 0 32 true,
   .abort 4 0, .abort 0 32, .channelReset 4 0, .channelReset 0 32, .doorbell 4 0, .doorbell 0 32, .pollIntervalExpiry 31,
   .descriptorFetched 31 .poisoned, .burstReadDone 4096 .poisoned, .writeAcknowledged 31, .descriptorComplete 31, .hostTxFrame 31,
   .dmaTimeout 32, .lateCompletion 4096, .requestPulse 128, .requestExpired 128, .eventPulse 256, .claim 4 0, .claim 0 64, .eoi 4 0 0,
   .eoi 0 64 0, .eoi 0 0 (2 ^ 32), .softSet 4 0, .softSet 0 (2 ^ 32), .countRead 4 0, .countRead 0 2048, .sleep 4 0, .sleep 0 64,
   .holdoffExpiry 64, .pcieLinkUp 33 1, .pcieLinkUp 16 7, .configurationWrite 4 .pmeStatusClear, .configurationWrite 0 (.bar 3 0),
   .configurationWrite 0 (.bar 0 (2 ^ 64)), .configurationWrite 0 (.completionTimeout 16 true), .configurationWrite 0 (.errorReporting 16),
   .configurationWrite 0 (.deviceStatusClear 16), .configurationWrite 0 (.aerClear (2 ^ 32) 0), .configurationWrite 0 (.aerClear 0 (2 ^ 32)),
   .configurationWrite 0 (.aerMasks (2 ^ 32) 0 0), .configurationWrite 0 (.aerMasks 0 (2 ^ 32) 0), .configurationWrite 0 (.aerMasks 0 0 (2 ^ 32))]

/-- Ill-formed commands: pairing, faults, health, memory, clocks, the test port. -/
def badTerms5 : List Instr :=
  [.feedLineChange 2 true, .pairLaneChange 2 true, .heartbeatRx 2 [], .pairLinkFrameError 2, .handover badReq, .copyDataRx 2 [],
   .copyEndRx 2 [], .clearStatus badReq 1 0, .clearStatus pf0 65536 0, .clearStatus pf0 1 256, .clearHistory badReq 1 0,
   .clearHistory pf0 65536 0, .clearHistory pf0 1 256, .clearBoth badReq 1 0, .clearBoth pf0 65536 0, .clearBoth pf0 1 256,
   .histHiRead 4 1 0, .histHiRead 0 0 0, .histHiRead 0 23 0, .histHiRead 0 1 32, .faultLostRead 4 1 0, .faultLostRead 0 0 0,
   .faultLostRead 0 23 0, .faultLostRead 0 1 32, .faultRegisterScrub (some 1024), .thermalSample [], .supplyDroop 8 0 0, .marginReport 256 0,
   .marginReport 0 65536, .ageingUpdate true [] (List.replicate 128 0) (List.replicate 8 0),
   .ageingUpdate true (List.replicate 64 0) [] (List.replicate 8 0), .ageingUpdate true (List.replicate 64 0) (List.replicate 128 0) [],
   .dqsOscillatorRead 8 true, .mr4Read 8 0, .mr4Read 0 256, .patrolScrub (2 ^ 34) true true, .pllUnlock 128, .synceSquelch 2, .tapInstruction 256 none,
   .tapInstruction 0 (some ⟨2 ^ 1944, []⟩)]

theorem test_wellFormed_refuses1 : badTerms1.all (fun i => !wellFormed i) = true := by decide
theorem test_wellFormed_refuses2 : badTerms2.all (fun i => !wellFormed i) = true := by decide
theorem test_wellFormed_refuses3 : badTerms3.all (fun i => !wellFormed i) = true := by decide
theorem test_wellFormed_refuses4 : badTerms4.all (fun i => !wellFormed i) = true := by decide
theorem test_wellFormed_refuses5 : badTerms5.all (fun i => !wellFormed i) = true := by decide

theorem test_wellFormed_frames :
    [Instr.frameReceived 0 .express (zeros 16001) .good 0 0 0, .summationFrameRx 0 (zeros 16001) true 0, .nullFrameRx 0 (zeros 16001) true 0,
      .rutBidRx 0 (zeros 16001) true, .otherRingFrameRx 0 (zeros 16001) true, .heartbeatRx 0 (zeros 16001), .copyDataRx 0 (zeros 16001),
      .copyEndRx 0 (zeros 16001)].all (fun i => !wellFormed i) = true := by decide +kernel

theorem test_wellFormed_accepts :
    [Instr.supplyInRange (List.replicate 8 0), .supplyOutOfRange 7 0 0, .resetRelease (2 ^ 11 - 1) 31 [⟨2 ^ 26 - 1, false⟩],
      .bar2Write 3 (2 ^ 32 - 8) 8 (2 ^ 64 - 1), .keyWrite pf0 16 (zeros 32), .linkUp 265, .linkDown 261 255,
      .frameReceived 255 (.more 3 3 true) frame60 .good 3 0 0, .frameSelected 262 {}, .parityFence 16 16, .arm none 3 7 1, .triggerStart 95,
      .registerWrite 3 0x40FFFC (2 ^ 32 - 1) 4, .registerWrite 3 0x40FFF8 (2 ^ 64 - 1) 8,
      .bar0BadAccess 3 0x3FFFFF 4096 false, .configurationWrite 3 (.bar 2 (2 ^ 64 - 1)), .tapInstruction 255 (some ⟨2 ^ 1944 - 1, [true]⟩), .run 3 31, .countRead 3 2047, .clearBoth mgt0 22 31,
      .ageingUpdate true (List.replicate 64 0) (List.replicate 128 0) (List.replicate 8 0), .patrolScrub (2 ^ 34 - 1) true false].all wellFormed =
        true := by decide

theorem test_table_spells_no_word : decodeTableWord 32 0 = none ∧ State.reset.withFetchWord 32 0 = State.reset := by decide +kernel


/-! ## The spec's worked examples: expected values from its text -/

/-- R38: SERIAL 25 60 00 00 00 12 34 56. -/
theorem test_default_addresses :
    let id : Ident := { ordering := 0, revision := 0, unit := 0x123456 }
    entryDefault id 0x0400 3 = .num 0x020000123456 ∧ entryDefault id 0x5000 5 = .num 0x021000123456 := by decide

/-- R46: 0x0100:0x05 lies at 0x0008_0028 of BAR2 and reads 256 lanes. -/
theorem test_window_reads_lanes : (effBar2Read 0 0x00080028 2 (live .run)).out = [.window 0 0 [0x00, 0x01]] := by decide +kernel

/-- The request of the exchange in hex: READ of 0x0100:0x05 under KEY_ID 3. -/
def lanesRequest : Bytes :=
  [0x01, 0x01, 0x00, 0x30, 0x00, 0x03, 0x00, 0x01, 0, 0, 0, 0, 0, 0, 0x01, 0x2C, 0x00, 0x11, 0x01, 0x00, 0x05, 0x12, 0, 0, 0, 0, 0, 0,
   0, 0, 0, 0] ++ zeros 16

/-- The exchange in hex: LENGTH 0x32, FLAGS 0xA0, REPLAY 0x57, TOTAL 2 and DATA 0x0100. -/
theorem test_nap_response :
    responseBody lanesRequest 0x57 { abort := 0, ty := 0x12, total := 2, data := [0x01, 0x00] } =
      [0x01, 0x01, 0x00, 0x32, 0x00, 0x03, 0xA0, 0x01, 0, 0, 0, 0, 0, 0, 0, 0x57, 0x00, 0x11, 0x01, 0x00, 0x05, 0x12, 0x00, 0x00,
       0, 0, 0, 0, 0, 0, 0, 0x02, 0x01, 0x00] := by decide

/-- R80: the record for NAP_TC 7. -/
theorem test_record : recordBytes 0x0400 4 1 [7] = [0x04, 0x00, 0x04, 0x01, 0, 0, 0, 0x01, 0x07, 0, 0, 0] := by decide

/-- R156, two-rate: frames 1, 2 and 4 of the table, with whole bytes in the buckets. -/
theorem test_meter_two_rate :
    colour2 false 0 1522 { tc := 3000 * 2 ^ 32, te := 6000 * 2 ^ 32, last := 0 } =
      (0, { tc := 1478 * 2 ^ 32, te := 4478 * 2 ^ 32, last := 0 }) ∧
    (colour2 false 0 1522 { tc := 1481 * 2 ^ 32, te := 4485 * 2 ^ 32, last := 0 }).1 = 1 ∧
    (colour2 false 0 1522 { tc := 1489 * 2 ^ 32, te := 1457 * 2 ^ 32, last := 0 }).1 = 2 := by decide

/-- R156, single-rate and colour-aware: 10 us refill 125 bytes, and frames 2 and 4 of the table. -/
theorem test_meter_single_rate :
    refill1 100000 2000 4000 16000 { tc := 1000 * 2 ^ 32, te := 4000 * 2 ^ 32, last := 0 } =
      { tc := 1125 * 2 ^ 32, te := 4000 * 2 ^ 32, last := 0 } ∧
    colour1 true 1 1000 { tc := 1125 * 2 ^ 32, te := 4000 * 2 ^ 32, last := 0 } =
      (1, { tc := 1125 * 2 ^ 32, te := 3000 * 2 ^ 32, last := 0 }) ∧
    colour1 true 0 1000 { tc := 375 * 2 ^ 32, te := 3000 * 2 ^ 32, last := 0 } =
      (1, { tc := 375 * 2 ^ 32, te := 2000 * 2 ^ 32, last := 0 }) := by decide

/-- A recovery context of R177's table; the history is written b0 first. -/
def context (n : Nat) (h : List Bool) : Recov := { recov := n, takeAny := false, history := h }

/-- R177: steps 1, 4, 5, 6, 14 and 16 of the table. -/
theorem test_vector_recovery :
    ((vectorStep 4 100 0 {}).2.recov, (vectorStep 4 100 0 {}).2.history) = (100, [true, true, true, true]) ∧
    ((vectorStep 4 103 0 (context 101 [true, true, true, true])).1.counts,
      (vectorStep 4 103 0 (context 101 [true, true, true, true])).2.history) = ([4, 2], [true, false, true, true]) ∧
    (vectorStep 4 101 0 (context 103 [true, false, true, true])).1 = { pass := false, counts := [3], dup := true } ∧
    (vectorStep 4 102 0 (context 103 [true, false, true, true])).2.history = [true, true, true, true] ∧
    ((vectorStep 4 108 0 (context 107 [true, true, true, false])).1.counts,
      (vectorStep 4 108 0 (context 107 [true, true, true, false])).2.recov) = ([6, 2], 108) ∧
    (vectorStep 4 90 0 (context 108 [true, true, true, true])).1 = { pass := false, counts := [5] } := by decide

/-- R178: two paths, 100,000 passed and 25,000 duplicates: a latent error. -/
theorem test_latent_error :
    let s := (frerRun.updRecov 0 fun x => { x with pw := 100000, dw := 25000 })
    ((effLatentTest 0 { s with cycle := 3200000000 }).recov 0).latentError = true ∧
    ((effLatentTest 0 { s.updRecov 0 (fun x => { x with dw := 100000 }) with cycle := 3200000000 }).recov 0).latentError = false := by
  decide +kernel

/-- R253: D3 at 0x0002_FFFF_FFFF_FF00. -/
def wrapping : State := (at_ .run).updDom 3 fun x => { x with value := 0x0002FFFFFFFFFF0000000000 }

theorem test_compare_across_wrap :
    wrapping.ahead 3 0x100 = 512 ∧ wrapping.reached 3 0x100 = false ∧ wrapping.ahead 3 0x7FFFFFFFFEFF = 2 ^ 47 - 1 ∧
    wrapping.ahead 3 0x7FFFFFFFFF00 = -2 ^ 47 ∧ wrapping.reached 3 0x7FFFFFFFFF00 = true := by decide

/-- The PPS servo's worked example: offsets, integ and the increments of steps 2 to 4. -/
theorem test_pps_servo :
    ppsOffset (4 * 42000123450) = 4 * 123450 ∧ servoInteg 0 (4 * 20000) 1 = 10000 * 2 ^ 17 ∧
    servoIncrement (-30000 * 2 ^ 17) = 0x00FFFE08AF ∧ servoIncrement (-25000 * 2 ^ 17) = 0x00FFFE5C92 ∧
    servoIncrement (-22500 * 2 ^ 17) = 0x00FFFE8683 := by decide

/-- R298: the change with cycle extension; with CYCLE_EXTENSION 100,000 ns the old cycle runs. -/
def listChange (ext : Nat) : GList := { domain := 1, base := 10000000, cycle := 200000, ext := ext, entries := [] }
def oldList : Gate := { list := some { domain := 1, base := 0, cycle := 250000, ext := 0, entries := [] }, anchor := 12000000, started := true }
def atChange : State := (at_ .run).updDom 1 fun x => { x with value := BitVec.ofNat 96 (12205000 * 2 ^ 32) }

theorem test_gate_change :
    changeTime atChange (listChange 200000) = 12400000 ∧ stretchOf atChange oldList (listChange 200000) 12400000 = some 12250000 ∧
    stretchOf atChange oldList (listChange 100000) 12400000 = none := by decide

/-- R348: a Rut bid. -/
def bidder : State :=
  let s := conf [(0x5000, 3, 5), (0x5000, 4, 200), (0x5000, 5, 0x021A7C000021)] [] (at_ .run)
  { s with herd := { s.herd with layoutId := 7 } }

theorem test_rut_bid :
    ringFrame bidder 2 100000 0 0xFFFFFFFF 0 [] =
      [0x03, 0x00, 0x48, 0x52, 0x00, 0x01, 0x02, 0x1A, 0x7C, 0x00, 0x00, 0x21, 0x88, 0xB6, 0x02, 0x01,
       0x00, 0x28, 0x00, 0x01, 0x86, 0xA0, 0x00, 0x00, 0x00, 0x07, 0x05, 0xC8, 0x00, 0x00, 0x00, 0x00,
       0x00, 0x00, 0x00, 0x00, 0x00, 0x00, 0xFF, 0xFF, 0xFF, 0xFF] ++ zeros 18 := by decide

/-- R349: LOOP_DELAY 3,861.0 ns and t_b - t_f 1,120.5 ns give D 1,250.25 ns. -/
theorem test_path_delay :
    (takeDelay (4 * 3861) 1000 (1000 + 4 * 1120 + 2) (conf [(0x5000, 6, 1)] [] (at_ .run))).herd.d = 125025 * 2 ^ 16 / 100 := by decide

/-- R352: five nodes; their PREV blocks in cycle 7, and node 1. -/
def prevBlock (node : Nat) (off rate : Int) : Bytes := clockBlock (ofSigned 64 off) (ofSigned 32 rate) 0xF0 node 6
def ringArea : Bytes :=
  prevBlock 0 0 0 ++ prevBlock 1 (12 * 65536) 80000 ++ prevBlock 2 (-8 * 65536) (-120000) ++ prevBlock 3 (4 * 65536) 20000 ++
    prevBlock 4 (250 * 65536) 3000000
def nodeOne : State :=
  let s := conf [(0x5000, 3, 1), (0x5000, 8, 250000), (0x5000, 0x0C, 1), (0x4000, 3, 3), (0x4000, 7, 1000), (0x4000, 8, 1), (0x4000, 9, 3)] []
    (at_ .run)
  { s with herd := { s.herd with layout := (upTo 5).map fun k => (k, [.num 2, .num k, .num (16 * k), .num 16]) } }

theorem test_ring_average :
    average nodeOne ringArea 7 0 = some { e := (20 * 65536, 3), r := some (140000, 3), kept := [0, 3, 1] } := by decide

theorem test_ring_correction :
    let x := (ringCorrect (20 * 65536, 3) (some (140000, 3)) nodeOne).dom 0
    x.adjNext.map (fun a => (a.1.toNat, a.2.1)) = [(2 ^ 32 - 114532, 125000)] ∧ x.incNext.map (·.1.toNat) = [2 ^ 32 - 25] := by decide

/-- R394: the bursts of the overlapping copy. -/
theorem test_bursts :
    let d : Desc := { addr := 0, host := false, w0 := 0x1000, w1 := 0x1020, ctrl := 160, aux := 0, w3 := 0 }
    [0, 32, 64, 96, 128].map (fun k => (nextData d { next := k } 64).2.2) = [32, 32, 32, 32, 32] ∧ oneInFlight d [] = true := by decide

/-- R401: 1,000 bytes in descriptors of 384 bytes. -/
def rxDesc : Desc := { addr := 0, host := true, w0 := 0, w1 := 0, ctrl := 384, aux := 0, w3 := 0 }

theorem test_rx_placement :
    (takeDescs 1000 [rxDesc, rxDesc, rxDesc]).map (·.length) = some 3 ∧ takeDescs 1000 [rxDesc, rxDesc] = none ∧
    (rxPieces { source := 3 } 1000 0 false true (zeros 1000) [rxDesc, rxDesc, rxDesc]).map
      (fun x => (field x.1.ctrl 0 20, field x.1.ctrl 27 2, x.1.word.map (field · 0 14))) =
        [(384, 1, some 0), (384, 0, some 0), (232, 2, some 1000)] := by decide +kernel

/-- The interrupt handler example: sources 101 (level 4) and 704 (level 12) of target 5. -/
def serving (p101 p704 : Bool) (stack : List (Nat × Nat)) : State :=
  let s := (live .run).updTarget 5 fun t => { t with function := 0, mask := false, stack := stack }
  let s1 := s.updSource 101 fun _ => { enable := true, level := 4, target := 5, pending := p101 }
  s1.updSource 704 fun _ => { enable := true, level := 12, target := 5, pending := p704 }

theorem test_claim :
    ((effClaim 0 5 (serving false true [(101, 4)])).target 5).stack = [(704, 12), (101, 4)] ∧
    (effClaim 0 5 (serving false true [(101, 4)])).out.head? = some (.reg 0 0x010050 704) ∧
    (effClaim 0 5 (serving true false [(704, 12)])).out.head? = some (.reg 0 0x010050 2047) := by decide +kernel

theorem test_eoi : ((effEoi 0 5 0 (serving false false [(704, 12), (101, 4)])).target 5).stack = [(101, 4)] := by decide +kernel

/-- R465: the history entry of block 7, instance 4. -/
theorem test_history_entry : historyEntry 0x1234567890 1 0x46 = 0x1234567890010046 := by decide

/-- The usual check value of CRC-32C (PRESUMED: the spec prints none). -/
theorem test_crc32c : crc32c [0x31, 0x32, 0x33, 0x34, 0x35, 0x36, 0x37, 0x38, 0x39] = 0xE3069283 := by decide

/-- R536's example: LINE_TX_N[197] lies at row 52, column 6 and MEM3_CA[4] at row 13, column 28. -/
theorem test_balls :
    ballAt 52 6 = some (.lineTx 197 true) ∧ ballName 52 6 = "BP6" ∧ ballAt 13 28 = some (.mem 3 (.ca 4)) ∧ ballName 13 28 = "N28" := by decide +kernel

/-- R525: the boundary register is 1,944 cells long. -/
theorem test_boundary_length : boundaryCells.length = 1944 := by decide +kernel

/-- R484, step 5: the guard band of 136 bytes at 100 Gbit/s with the domain at +500 ppm. -/
def fastDomain : State :=
  let s := (at_ .run).updDom 0 fun x => { x with inc := BitVec.ofNat 40 (2 ^ 32 + 2147483) }
  s.updGate 9 fun g => { g with list := some { domain := 0, base := 0, cycle := 1000, ext := 0, entries := [] } }

theorem test_line_time_in_domain :
    domainPs fastDomain 9 10880 = 10890 ∧ domainPs (at_ .run) 9 10880 = 10880 := by decide


end Sys2Proof.Tests
end

section
/-!
PROOF. Shared facts: accesses that reach the device, and changes that change nothing.
-/
namespace Sys2Proof.Machine

/-! ## Changes at an index -/

theorem getD_of_length_le {α : Type} {l : List α} {i : Nat} (x : α) (h : l.length ≤ i) : l.getD i x = x := by
  rw [List.getD_eq_getElem?_getD, List.getElem?_eq_none h, Option.getD_none]

theorem updAt_getD_of_length_le {α : Type} {l : List α} {i : Nat} (f : α → α) (x : α) (h : l.length ≤ i) :
    (updAt l i f).getD i x = x :=
  getD_of_length_le x (by rw [updAt, List.length_modify]; exact h)

/-- An index whose entry is not the default lies in the list. -/
theorem lt_length_of_getD_ne {α : Type} {l : List α} {i : Nat} {x : α} (h : l.getD i x ≠ x) : i < l.length := 
  Nat.lt_of_not_le fun hl => h (getD_of_length_le x hl)

/-- A change that leaves the entry at its index as it is leaves the list as it is. -/
theorem updAt_of_fixed {α : Type} {l : List α} {i : Nat} {f : α → α} (x : α) (h : f (l.getD i x) = l.getD i x) :
    updAt l i f = l := by
  refine List.ext_getElem? fun j => ?_
  rw [updAt, List.getElem?_modify]
  by_cases hj : i = j
  · subst hj
    rw [List.getD_eq_getElem?_getD] at h
    cases hi : l[i]? with
    | none => rfl
    | some a => simp_all
  · simp [hj]

theorem State.updDom_of_fixed {s : State} {d : Nat} {f : Domain → Domain} (h : f (s.dom d) = s.dom d) :
    s.updDom d f = s := by
  show ({ s with time := { s.time with domains := updAt s.time.domains d f } } : State) = s
  rw [updAt_of_fixed {} h]

/-- A change of one field leaves every other part. -/
theorem only_nap (s : State) (x : Nap) : Only [.nap] s { s with nap := x } := by
  intro p hp
  cases p with
  | nap => exact absurd (List.mem_singleton.2 rfl) hp
  | _ => rfl

/-- What no step of a fold changes, the fold does not change. -/
theorem foldl_same {α β : Type} (φ : State → β) {f : State → α → State} (h : ∀ s x, φ (f s x) = φ s) (l : List α) (s : State) :
    φ (l.foldl f s) = φ s := by
  induction l generalizing s with
  | nil => rfl
  | cons x r ih => exact (ih (f s x)).trans (h s x)

/-! ## Accesses that reach the device -/

theorem refusesBar_of_barReach {s : State} {f : Nat} (h : s.barReach f = true) : refusesBar s f = false := by
  simp_all [State.barReach, refusesBar, State.pf]

/-- An access that reaches the device is not refused on the link. -/
@[simp] theorem refuseBar_of_barReach {s : State} {f : Nat} (write : Bool) (h : s.barReach f = true) :
    refuseBar f write s = s := by
  simp [refuseBar, refusesBar_of_barReach h]

theorem function_lt_of_barReach {s : State} {f : Nat} (h : s.barReach f = true) : f < 4 := by
  simp_all [State.barReach]

theorem goodAccess_eq_false {off width : Nat} (h4 : ¬(width = 4 ∧ off % 4 = 0)) (h8 : ¬(width = 8 ∧ off % 8 = 0)) :
    goodAccess off width = false := by
  simp only [goodAccess, Bool.or_eq_false_iff, Bool.and_eq_false_iff, beq_eq_false_iff_ne]
  omega

/-! ## Pulses -/

theorem lineExists_low (id : Ident) {l : Nat} (h1 : 1 ≤ l) (h2 : l < 192) : lineExists id l = true := by
  have a : ¬(192 ≤ l ∧ l ≤ 208) := by omega
  have b : ¬(209 ≤ l ∧ l ≤ 225) := by omega
  have c : ¬(226 ≤ l ∧ l ≤ 242) := by omega
  rw [lineExists, if_neg a, if_neg b, if_neg c, Bool.and_true, Bool.and_eq_true, decide_eq_true_eq, decide_eq_true_eq]
  omega

/-- A pulse stands among those that wait at the matrix. -/
theorem mem_pulses_pulse {s : State} {l : Nat} (h : lineExists s.ident l = true) : (l, s.cycle) ∈ (pulse l s).intc.pulses := by
  unfold pulse
  cases hc : s.intc.pulses.contains (l, s.cycle) with
  | true =>
    rw [if_neg (by simp)]
    exact List.contains_iff_mem.1 hc
  | false =>
    rw [if_pos (by simp [h])]
    exact List.mem_append_right _ (List.mem_singleton.2 rfl)

/-- A pulse removes none that wait. -/
theorem pulses_subset_pulse (s : State) (l : Nat) : s.intc.pulses ⊆ (pulse l s).intc.pulses := by
  unfold pulse
  split
  · exact List.subset_append_left _ _
  · exact List.Subset.refl _

/-- A pulse counts at the event matrix only. -/
theorem counter_pulse (s : State) {l i u k : Nat} (h : cntKey 0x6104 2 l ≠ cntKey i u k) :
    (pulse l s).counter i u k = s.counter i u k := by
  unfold pulse
  split
  · exact State.counter_bumpBy_other _ _ h
  · rfl

theorem pulse_nap (s : State) (l : Nat) : (pulse l s).nap = s.nap :=
  (pulse_keeps (m := 0x1000200) (Keeps.refl _ s) (Sub.of (by decide))).same .nap (by decide)

end Sys2Proof.Machine
end

section
/-!
PROOF. The rate interface of a time domain: committing increments and adjustment windows (R239, R242, R245).
-/
namespace Sys2Proof.Machine

theorem dueTick_eq (n : Nat) : dueTick n = (5 * n + 7) / 8 + 8 := by rw [dueTick, Nat.mul_comm]

theorem domain_lt_of_enabled {s : State} {d : Nat} (h : (s.dom d).enabled = true) : d < s.time.domains.length :=
  lt_length_of_getD_ne fun e : s.dom d = {} => by rw [e] at h; cases h

theorem domain_lt_of_adjOpen {s : State} {d : Nat} (h : (s.dom d).adjOpen = true) : d < s.time.domains.length :=
  lt_length_of_getD_ne fun e : s.dom d = {} => by rw [e] at h; cases h

theorem updDom_only (s : State) (d : Nat) (f : Domain → Domain) : Only [.time] s (s.updDom d f) :=
  (State.updDom_keeps (Keeps.refl _ s) (Sub.of (by decide))).only

theorem rateOwnerRefuses_eq_false_iff (s : State) (d : Nat) : rateOwnerRefuses s d = false ↔
    s.domSource d ≠ 2 ∧ s.domSource d ≠ 3 ∧ (s.dom d).enabled = true ∧ s.chip.mode ∈ [.hold, .armed, .run] := by
  have hm : timeRefusedState s.chip.mode = false ↔ s.chip.mode ∈ [.hold, .armed, .run] := by
    cases s.chip.mode <;> decide
  simp [rateOwnerRefuses, ← hm, and_assoc]

/-! ## Writes of the rate registers -/

section
variable {f d v : Nat} {s : State} (hf : s.barReach f = true) (hd : d < 8)
include hf hd

theorem effIncrementHiWrite_reach {inc : Nat} (hi : inc = v % 256 * 2 ^ 32 + (s.fnTime f d).incLo) :
    effIncrementHiWrite f d v s =
      if rateOwnerRefuses s d || !incAllowed inc then refuseRate d s
      else s.updDom d fun x => { x with incNext := x.incNext ++ [(BitVec.ofNat 40 inc, (5 * s.cycle + 7) / 8 + 8)] } := by
  subst hi
  simp [effIncrementHiWrite, hf, hd, dueTick_eq]

theorem effAdjTicksWrite_reach {inc : Nat} (hi : inc = (s.dom d).adjHi % 256 * 2 ^ 32 + (s.fnTime f d).adjLo)
    (hv : v < 2 ^ 32) :
    effAdjTicksWrite f d v s =
      if rateOwnerRefuses s d || (decide (0 < v) && !incAllowed inc) then refuseRate d s
      else s.updDom d fun x =>
        { x with adjNext := x.adjNext ++ [(BitVec.ofNat 40 inc, v, (5 * s.cycle + 7) / 8 + 8)] } := by
  subst hi
  unfold effAdjTicksWrite
  rw [if_pos (by simp [hf, hd])]
  simp only [Nat.mod_eq_of_lt hv, dueTick_eq]

end

/-! ## Committing what is due -/

theorem commitWindow_none {tick : Nat} {x : Domain} (h : x.adjNext.filter (fun e => decide (e.2.2 ≤ tick)) = []) :
    commitWindow tick x = x := by
  simp only [commitWindow, h, List.getLast?_nil]

theorem commitWindow_last {tick n due : Nat} {x : Domain} {before : List (Increment × Nat × Nat)} {inc : Increment}
    (h : x.adjNext.filter (fun e => decide (e.2.2 ≤ tick)) = before ++ [(inc, n, due)]) :
    commitWindow tick x = { x with
      adjInc := inc, adjLeft := n, adjOpen := decide (0 < n),
      adjNext := x.adjNext.filter fun e => decide (tick < e.2.2) } := by
  simp only [commitWindow, h, List.getLast?_concat]

theorem commitIncrement_open {tick : Nat} {x : Domain} (h : x.adjOpen = true) : commitIncrement tick x = x := by
  simp [commitIncrement, h]

theorem commitIncrement_closed {tick : Nat} {x : Domain} (h : x.adjOpen = false) : commitIncrement tick x = { x with
      inc := ((x.incNext.filter fun e => decide (e.2 ≤ tick)).getLast?.map (·.1)).getD x.inc
      incNext := x.incNext.filter fun e => decide (tick < e.2) } := by
  simp [commitIncrement, h]

theorem effRateChangeDue_disabled {s : State} {d : Nat} (h : (s.dom d).enabled = false) : effRateChangeDue d s = s :=
  State.updDom_of_fixed (by simp [h])

theorem effRateChangeDue_dom {s : State} {d : Nat} (h : (s.dom d).enabled = true) :
    (effRateChangeDue d s).dom d = commitIncrement (tickOf s.cycle + 1) (commitWindow (tickOf s.cycle + 1) (s.dom d)) := by
  rw [effRateChangeDue, State.updDom_dom _ _ _ (domain_lt_of_enabled h), if_pos h]

/-- The window whose ticks have run out closes. -/
theorem effAdjWindowEnd_dom {s : State} {d : Nat} (ho : (s.dom d).adjOpen = true) (hl : (s.dom d).adjLeft = 0) :
    (effAdjWindowEnd d s).dom d = commitIncrement (tickOf s.cycle + 1) { s.dom d with adjOpen := false } := by
  rw [effAdjWindowEnd, State.updDom_dom _ _ _ (domain_lt_of_adjOpen ho)]
  simp [ho, hl]

theorem effAdjWindowEnd_idle {s : State} {d : Nat} (h : (s.dom d).adjOpen = false ∨ (s.dom d).adjLeft ≠ 0) :
    effAdjWindowEnd d s = s := by
  refine State.updDom_of_fixed (if_neg ?_)
  rcases h with h | h <;> simp [h]

/-- What the changes due by the next tick leave of an enabled domain (R242). -/
theorem rateChangeDue_cases {s : State} {d : Nat} (h : (s.dom d).enabled = true)
    {now later : List (Increment × Nat)} {wNow wLater : List (Increment × Nat × Nat)}
    (hn : now = (s.dom d).incNext.filter (fun e => decide (e.2 ≤ tickOf s.cycle + 1)))
    (hl : later = (s.dom d).incNext.filter (fun e => decide (tickOf s.cycle + 1 < e.2)))
    (hwn : wNow = (s.dom d).adjNext.filter (fun e => decide (e.2.2 ≤ tickOf s.cycle + 1)))
    (hwl : wLater = (s.dom d).adjNext.filter (fun e => decide (tickOf s.cycle + 1 < e.2.2))) :
    (wNow = [] → (s.dom d).adjOpen = true → (effRateChangeDue d s).dom d = s.dom d) ∧
    (wNow = [] → (s.dom d).adjOpen = false → (effRateChangeDue d s).dom d =
      { s.dom d with inc := (now.getLast?.map (·.1)).getD (s.dom d).inc, incNext := later }) ∧
    (∀ before inc n tick, wNow = before ++ [(inc, n, tick)] →
      (0 < n → (effRateChangeDue d s).dom d =
        { s.dom d with adjInc := inc, adjLeft := n, adjOpen := true, adjNext := wLater }) ∧
      (n = 0 → (effRateChangeDue d s).dom d = { s.dom d with
        adjInc := inc, adjLeft := 0, adjOpen := false, adjNext := wLater
        inc := (now.getLast?.map (·.1)).getD (s.dom d).inc, incNext := later })) := by
  subst hn hl hwl
  rw [effRateChangeDue_dom h]
  refine ⟨fun hw ho => ?_, fun hw ho => ?_, fun before inc n tick hw => ⟨fun hpos => ?_, fun h0 => ?_⟩⟩
  · rw [commitWindow_none (hwn ▸ hw), commitIncrement_open ho]
  · rw [commitWindow_none (hwn ▸ hw), commitIncrement_closed ho]
  · rw [commitWindow_last (hwn ▸ hw), commitIncrement_open (decide_eq_true hpos)]
    simp [hpos]
  · subst h0
    rw [commitWindow_last (hwn ▸ hw), commitIncrement_closed rfl]
    rfl

/-- Settles O36: a rate write is committed or refused as `rateOwnerRefuses` and R239 say, and what is due by the next tick is
taken window first, then, outside a window, the increments. -/
theorem rateCommands : Obligations.RateCommands := by
  unfold Obligations.RateCommands
  intro f d v s hd
  refine ⟨fun hf => ⟨fun inc hi => ⟨fun hr ha => ?_, fun hr => ?_⟩, fun inc hi hv => ⟨fun hr ha => ?_, fun hr => ?_⟩⟩,
    rateOwnerRefuses_eq_false_iff s d, fun he now later hn hl wNow wLater hwn hwl => ?_, fun he => ?_, fun ho hl => ?_,
    fun h => ?_⟩
  · show Host.Outcome.next (effIncrementHiWrite f d v s) = _
    rw [effIncrementHiWrite_reach hf hd hi]; simp [hr, ha]
  · show Host.Outcome.next (effIncrementHiWrite f d v s) = _
    rw [effIncrementHiWrite_reach hf hd hi, if_pos (by simpa using hr)]; rfl
  · show Host.Outcome.next (effAdjTicksWrite f d v s) = _
    rw [effAdjTicksWrite_reach hf hd hi hv, if_neg]
    rcases ha with rfl | ha
    · simp [hr]
    · simp [hr, ha]
  · show Host.Outcome.next (effAdjTicksWrite f d v s) = _
    rw [effAdjTicksWrite_reach hf hd hi hv, if_pos (by simpa [Nat.pos_iff_ne_zero] using hr)]; rfl
  · exact ⟨effRateChangeDue d s, rfl, fun e hne => State.updDom_dom_other s _ hne.symm, updDom_only _ _ _,
      rateChangeDue_cases he hn hl hwn hwl⟩
  · exact congrArg _ (effRateChangeDue_disabled he)
  · refine ⟨effAdjWindowEnd d s, rfl, ?_, fun e hne => State.updDom_dom_other s _ hne.symm, updDom_only _ _ _⟩
    rw [effAdjWindowEnd_dom ho hl, commitIncrement_closed rfl]
  · exact congrArg _ (effAdjWindowEnd_idle h)

end Sys2Proof.Machine
end

section
/-!
PROOF. Writes to the command entries of the object dictionary: plain entries that only act (R50, R62).
-/
namespace Sys2Proof.Machine

/-- An entry of a plain object that can only be written, with the WRITE right, in HOLD, ARMED and RUN. -/
structure CommandEntry (id : Ident) (idx sub : Nat) (o : ObjSpec) (e : EntrySpec) : Prop where
  spec : objSpec id idx = some o
  plain : o.table = none
  entry : o.entry sub = some e
  writeOnly : e.acc = .wo
  states : e.wr = .har
  present : absentIndex id idx = false
  area : areaRight idx = 1
  path : ∀ r, keyPathOk r idx sub = true
  notCommand : idx ≠ 0x0102

/-- A request over the engine that may write, in a state in which commands act. -/
structure MayWrite (r : Requester) (s : State) : Prop where
  accepted : Accepted r s
  right : bit (rightsOf s r) 1 = true
  mode : s.chip.mode ∈ [.hold, .armed, .run]

theorem MayWrite.served {r : Requester} {s : State} (h : MayWrite r s) :
    engineBusy s.chip.mode = false ∧ Wr.har.allows s.chip.mode = true := by
  have hm := h.mode
  generalize s.chip.mode = m at hm
  revert hm
  cases m <;> decide

section
variable {r : Requester} {s0 s : State} {idx sub : Nat} {o : ObjSpec} {e : EntrySpec} {v : Val}
  (hc : CommandEntry s.ident idx sub o e) (hr : MayWrite r s)
include hc hr

/-- What R50 says of a write to a command entry: a disabled domain or a lost claim refuses it. -/
theorem admitWrite_command : admitWrite s r idx sub (.val v) =
    if armRefuses s idx sub then .error aStateConflict
    else if claimRefuses s idx sub then .error aClaimLost else .ok (o, e, false) := by
  have hst : stateAllowsWrite s idx e (Datum.value (.val v) e) = true := by
    unfold stateAllowsWrite
    split
    · exact absurd rfl hc.notCommand
    · rw [hc.states]; exact hr.served.2
  have hsel : isSelection o sub (Datum.value (.val v) e) = false := by simp [isSelection, hc.plain]
  have hty : Datum.typeOk (.val v) e = true := rfl
  simp [admitWrite, hr.served.1, hc.present, hc.spec, hc.entry, hsel, hc.area, hr.right, hc.path, hc.writeOnly, hst, hty]

variable (hs : s = engineTurn r.path s0) (ha : armRefuses s idx sub = false)
include hs ha

theorem answerWrite_claimLost (hl : claimRefuses s idx sub = true) :
    answerWrite r idx sub v s0 = s.emit (.answer r 12 none) :=
  answerWrite_refused hs hr.accepted (by rw [admitWrite_command hc hr, ha, hl]; rfl)

/-- A value within the entry's type and range is performed and answered. -/
theorem answerWrite_command (hl : claimRefuses s idx sub = false) (hv : e.ty.encodes v = true)
    (hg : e.rng.ok e.ty v = true) : answerWrite r idx sub v s0 =
      (performEntry idx e v s).2.emit (.answer r (performEntry idx e v s).1 none) := by
  have hadm : admitWrite s r idx sub (.val v) = .ok (o, e, false) := by
    rw [admitWrite_command hc hr, ha, hl]; rfl
  have hp : performWrite r o idx e v s = performEntry idx e v s := by simp [performWrite, hc.plain]
  rw [answerWrite_performs hs hr.accepted hadm hv (by simp [hg]) (by simp [hc.writeOnly, stagedAction, hc.plain]), hp]

end

/-! ## Rows and keys -/

/-- The keys of a sparse map are those with an entry. -/
theorem AMap.contains_keys {α : Type} (m : AMap α) (k : Nat) : (AMap.keys m).contains k = (AMap.find m k).isSome := by
  induction m with
  | nil => rfl
  | cons x r ih =>
    obtain ⟨j, a⟩ := x
    unfold AMap.find
    by_cases h : j = k
    · simp [AMap.keys, h]
    · have hk : (k == j) = false := by simp [Ne.symm h]
      rw [if_neg h, ← ih]
      simp [AMap.keys, hk]

end Sys2Proof.Machine
end

section
/-!
PROOF. RESET_RECOVERY and RESET_GENERATION (R161, R169, R176, R183, R445).
-/
namespace Sys2Proof.Machine

/-! ## The entries -/

/-- The entry of RESET_RECOVERY (2) or RESET_GENERATION (3). -/
def frerResetEntry (sub : Nat) : EntrySpec := Cat.wo sub Cat.u32 .any

/-- The entries of object 0x3000. -/
def frerObject : ObjSpec :=
  { entries := [Cat.rwsO 1 33 (.bits 263), frerResetEntry 2, frerResetEntry 3, Cat.ro 4 Cat.u32,
    Cat.ro 5 Cat.u32, Cat.ro 6 Cat.u32] }

theorem frerReset_command (id : Ident) {sub : Nat} (h : sub = 2 ∨ sub = 3) :
    CommandEntry id 0x3000 sub frerObject (frerResetEntry sub) := by
  rcases h with rfl | rfl
  all_goals exact ⟨rfl, rfl, rfl, rfl, rfl, rfl, rfl, fun _ => rfl, by decide⟩

/-- The table whose rows a reset names. -/
def frerResetTable (sub : Nat) : Nat := if sub = 2 then 0x3003 else 0x3001

/-- The reset of one key. -/
def frerResetKey (sub : Nat) (s : State) (k : Nat) : State := if sub = 2 then resetRecoveryKey s k else resetGen s k

theorem frerAction_eq (sub n : Nat) (s : State) : frerAction sub n s =
    if n = 0xFFFFFFFF then (aOk, (AMap.keys (imgTable s.cfg.running (frerResetTable sub))).foldl (frerResetKey sub) s)
    else if !(tableSpec s.ident (frerResetTable sub)).any (fun t => keyOk t (frerResetTable sub) n) then (aOutOfRange, s)
    else if absentKey s.ident (frerResetTable sub) n then (aAbsentUnit, s)
    else if (s.row (frerResetTable sub) n).isSome then (aOk, frerResetKey sub s n)
    else (aNoObject, s) := by
  rw [State.row, imgRow, ← AMap.contains_keys]
  rfl

theorem performEntry_frerReset {sub : Nat} (h : sub = 2 ∨ sub = 3) (n : Nat) (s : State) :
    performEntry 0x3000 (frerResetEntry sub) (.num n) s = frerAction sub n s := by
  rcases h with rfl | rfl <;> rfl

theorem keyInRange_recovery (id : Ident) (k : Nat) : (tableSpec id 0x3003).any (fun t => keyOk t 0x3003 k) = true ↔
    k < 17 * 16384 ∧ (k / 16384 = 16 ∨ k % 16384 < 15360) := by
  show (decide (0 ≤ k) && decide (k ≤ 278527) && decide (k % 16384 < if k / 16384 = 16 then 16384 else 15360)) = true ↔ _
  simp only [Bool.and_eq_true, decide_eq_true_eq]
  split <;> omega

theorem keyInRange_generation (id : Ident) (k : Nat) : (tableSpec id 0x3001).any (fun t => keyOk t 0x3001 k) = true ↔
    k < 17 * 4096 ∧ (k / 4096 = 16 ∨ k % 4096 < 3840) := by
  show (decide (0 ≤ k) && decide (k ≤ 69631) && decide (k % 4096 < if k / 4096 = 16 then 4096 else 3840)) = true ↔ _
  simp only [Bool.and_eq_true, decide_eq_true_eq]
  split <;> omega

/-! ## What a reset does -/

theorem State.updRecov_recov_other (s : State) {k j : Nat} (f : Recov → Recov) (h : k ≠ j) :
    (s.updRecov k f).recov j = s.recov j := AMap.get_set_other _ _ _ h

/-- What RESET_RECOVERY of a key leaves (R176), its answer included. -/
theorem resetRecoveryKey_emit (s : State) (k : Nat) (e : OutEvent) {t : State} (ht : t = (resetRecoveryKey s k).emit e) :
    t.recov k = resetContext (s.recov k) ∧ (t.recov k).takeAny = true ∧ (t.recov k).history = [] ∧
    (t.recov k).guard = false ∧ (t.recov k).timerOn = false ∧ (∀ m ∈ (t.recov k).members, m.timerOn = false) ∧
    (t.recov k).recov = (s.recov k).recov ∧ (∀ j, j ≠ k → t.recov j = s.recov j) ∧
    t.counter 0x3005 8 k = (s.counter 0x3005 8 k + 1) % 2 ^ 64 ∧ t.out = e :: s.out ∧ Only [.frer, .cnt, .out] s t := by
  have hk : t.recov k = resetContext (s.recov k) := by subst ht; exact State.updRecov_recov s k resetContext
  have hm : ∀ m ∈ (resetContext (s.recov k)).members, m.timerOn = false := by
    intro m hm
    obtain ⟨x, -, rfl⟩ := List.mem_map.1 hm
    rfl
  rw [hk]
  refine ⟨rfl, rfl, rfl, rfl, rfl, hm, rfl, ?_⟩
  subst ht
  exact ⟨fun j hj => State.updRecov_recov_other s _ hj.symm, State.counter_bumpK_same (s.updRecov k resetContext) _ _ _, rfl,
    (State.emit_keeps (m := maskOf [.frer, .cnt, .out]) (resetRecoveryKey_keeps (Keeps.refl _ s) (Sub.of (by decide)))
      (Sub.of (by decide))).only⟩

/-- What RESET_GENERATION of a key leaves (R169), its answer included. -/
theorem resetGen_emit (s : State) (k : Nat) (e : OutEvent) {t : State} (ht : t = (resetGen s k).emit e) :
    AMap.get 0 t.frer.gens k = 0 ∧ (∀ j, j ≠ k → AMap.get 0 t.frer.gens j = AMap.get 0 s.frer.gens j) ∧
    t.frer.recs = s.frer.recs ∧ t.counter 0x3002 5 k = (s.counter 0x3002 5 k + 1) % 2 ^ 64 ∧
    t.out = e :: s.out ∧ Only [.frer, .cnt, .out] s t := by
  subst ht
  exact ⟨AMap.get_put_same 0 s.frer.gens k 0, fun j hj => AMap.get_put_other 0 s.frer.gens 0 hj.symm, rfl,
    State.counter_bumpK_same (putGenNumber false k 0 s) _ _ _, rfl,
    (State.emit_keeps (m := maskOf [.frer, .cnt, .out]) (resetGen_keeps (Keeps.refl _ s) (Sub.of (by decide)))
      (Sub.of (by decide))).only⟩

/-! ## The write -/

section
variable {r : Requester} {k sub : Nat} {s0 s : State} (hsub : sub = 2 ∨ sub = 3) (hs : s = engineTurn r.path s0)
  (hr : MayWrite r s)
include hsub hs hr

theorem frerReset_claimLost (hp : isPaired s = true) (hl : s.pair.role ≠ 2) :
    answerWrite r 0x3000 sub (.num k) s0 = s.emit (.answer r 12 none) := by
  refine answerWrite_claimLost (frerReset_command s.ident hsub) hr hs rfl ?_
  rcases hsub with rfl | rfl <;> simp [claimRefuses, hp, hl]

/-- On a unit that is unpaired or holds ACTIVE the write is `frerAction`. -/
theorem frerReset_acts (hc : isPaired s = false ∨ s.pair.role = 2) (hk : k < 2 ^ 32) :
    answerWrite r 0x3000 sub (.num k) s0 =
      (frerAction sub k s).2.emit (.answer r (frerAction sub k s).1 none) := by
  have hl : claimRefuses s 0x3000 sub = false := by rcases hc with h | h <;> simp [claimRefuses, h]
  have hv : (frerResetEntry sub).ty.encodes (.num k) = true := decide_eq_true hk
  rw [answerWrite_command (frerReset_command s.ident hsub) hr hs rfl hl hv rfl, performEntry_frerReset hsub]

variable (hc : isPaired s = false ∨ s.pair.role = 2)
include hc

theorem frerReset_all (hk : k = 0xFFFFFFFF) : answerWrite r 0x3000 sub (.num k) s0 =
    ((AMap.keys (imgTable s.cfg.running (frerResetTable sub))).foldl (frerResetKey sub) s).emit (.answer r 0 none) := by
  rw [frerReset_acts hsub hs hr hc (by omega), frerAction_eq, if_pos hk]
  rfl

variable (hk : k < 2 ^ 32) (hn : k ≠ 0xFFFFFFFF)
include hk hn

theorem frerReset_outOfRange
    (h : ¬(tableSpec s.ident (frerResetTable sub)).any (fun t => keyOk t (frerResetTable sub) k) = true) :
    answerWrite r 0x3000 sub (.num k) s0 = s.emit (.answer r 7 none) := by
  rw [frerReset_acts hsub hs hr hc hk, frerAction_eq, if_neg hn, if_pos (by simpa using h)]
  rfl

variable (hi : (tableSpec s.ident (frerResetTable sub)).any (fun t => keyOk t (frerResetTable sub) k) = true)
include hi

theorem frerReset_absent (h : absentKey s.ident (frerResetTable sub) k = true) :
    answerWrite r 0x3000 sub (.num k) s0 = s.emit (.answer r 11 none) := by
  rw [frerReset_acts hsub hs hr hc hk, frerAction_eq, if_neg hn, hi, h]
  rfl

variable (hp : absentKey s.ident (frerResetTable sub) k = false)
include hp

theorem frerReset_noRow (h : (s.row (frerResetTable sub) k).isSome = false) :
    answerWrite r 0x3000 sub (.num k) s0 = s.emit (.answer r 1 none) := by
  rw [frerReset_acts hsub hs hr hc hk, frerAction_eq, if_neg hn, hi, hp, h]
  rfl

theorem frerReset_row (h : (s.row (frerResetTable sub) k).isSome = true) :
    answerWrite r 0x3000 sub (.num k) s0 = (frerResetKey sub s k).emit (.answer r 0 none) := by
  rw [frerReset_acts hsub hs hr hc hk, frerAction_eq, if_neg hn, hi, hp, h]
  rfl

end

/-- Settles O34: each branch of the action of an accepted write to RESET_RECOVERY or RESET_GENERATION. -/
theorem frerResets : Obligations.FrerResets := by
  unfold Obligations.FrerResets
  intro r k s0 s hs ha hw hm hk
  have hr : MayWrite r s := ⟨ha, hw, hm⟩
  have h2 : (2 : Nat) = 2 ∨ (2 : Nat) = 3 := .inl rfl
  have h3 : (3 : Nat) = 2 ∨ (3 : Nat) = 3 := .inr rfl
  refine ⟨fun hp hl => ⟨congrArg _ (frerReset_claimLost h2 hs hr hp hl), congrArg _ (frerReset_claimLost h3 hs hr hp hl)⟩,
    fun hc => ⟨fun he => ⟨congrArg _ (frerReset_all h2 hs hr hc he), congrArg _ (frerReset_all h3 hs hr hc he)⟩,
      fun hn hi => ?_, fun hlt hi => ?_, fun hn hi => ?_, fun hlt hi => ?_⟩⟩
  · exact congrArg _ (frerReset_outOfRange h2 hs hr hc hk hn fun h => hi ((keyInRange_recovery _ _).1 h))
  · have hn : k ≠ 0xFFFFFFFF := by omega
    have hi' := (keyInRange_recovery s.ident k).2 ⟨hlt, hi⟩
    refine ⟨fun hp => ?_, fun hp hrow => ?_, fun hp hrow => ?_⟩
    · exact congrArg _ (frerReset_absent h2 hs hr hc hk hn hi' (congrArg not hp))
    · exact congrArg _ (frerReset_noRow h2 hs hr hc hk hn hi' (congrArg not hp) hrow)
    · exact ⟨_, congrArg Host.Outcome.next (frerReset_row h2 hs hr hc hk hn hi' (congrArg not hp) hrow),
        resetRecoveryKey_emit s k _ rfl⟩
  · exact congrArg _ (frerReset_outOfRange h3 hs hr hc hk hn fun h => hi ((keyInRange_generation _ _).1 h))
  · have hn : k ≠ 0xFFFFFFFF := by omega
    have hi' := (keyInRange_generation s.ident k).2 ⟨hlt, hi⟩
    refine ⟨fun hp => ?_, fun hp hrow => ?_, fun hp hrow => ?_⟩
    · exact congrArg _ (frerReset_absent h3 hs hr hc hk hn hi' (congrArg not hp))
    · exact congrArg _ (frerReset_noRow h3 hs hr hc hk hn hi' (congrArg not hp) hrow)
    · exact ⟨_, congrArg Host.Outcome.next (frerReset_row h3 hs hr hc hk hn hi' (congrArg not hp) hrow),
        resetGen_emit s k _ rfl⟩

end Sys2Proof.Machine
end

section
/-!
PROOF. MSI-X messages, wake, the mailbox, and badly formed accesses (R371 to R382).
-/
namespace Sys2Proof.Machine

/-! ## Messages and wake -/

theorem effMsixMessage_sends {f v : Nat} {s : State} (hf : f < 4) (hp : AMap.get false (s.pf f).pending v = true)
    (ha : msixAllowed s f v = true) : effMsixMessage f v s =
      (s.updPf f fun p => { p with pending := AMap.put false p.pending v false }).emit
        (.msix f v (msixEntry (s.pf f) v).addr (msixEntry (s.pf f) v).data) := if_pos ⟨hf, hp, ha⟩

theorem effMsixMessage_idle {f v : Nat} {s : State}
    (h : AMap.get false (s.pf f).pending v = false ∨ msixAllowed s f v = false) : effMsixMessage f v s = s := by
  refine if_neg fun ⟨_, hp, ha⟩ => ?_
  rcases h with h | h
  · rw [h] at hp; cases hp
  · rw [h] at ha; cases ha

theorem function_lt_of_pmeEnable {s : State} {f : Nat} (h : (s.pf f).pmeEnable = true) : f < s.pcie.pfs.length :=
  lt_length_of_getD_ne fun e : s.pf f = {} => by rw [e] at h; cases h

/-- Where the link stands a wake is a message, elsewhere WAKE_N (R375). -/
theorem signalWake_out (f : Nat) (s : State) :
    (s.pcie.linkUp = true → s.pcie.perst = false → (signalWake f s).out = .pme f :: s.out) ∧
    (s.pcie.linkUp = false ∨ s.pcie.perst = true → (signalWake f s).pcie.wakeN = false ∧ (signalWake f s).out = s.out) := by
  refine ⟨fun hl hp => ?_, fun h => ?_⟩
  · rw [signalWake, if_pos (by simp [hl, hp])]; rfl
  · rw [signalWake, if_neg (by rcases h with h | h <;> simp [h])]
    exact ⟨rfl, rfl⟩

theorem signalWake_pf (f g : Nat) (s : State) : (signalWake f s).pf g = s.pf g := by
  unfold signalWake
  split <;> rfl

theorem signalWake_only (f : Nat) (s : State) : Only [.pcie, .out] s (signalWake f s) :=
  (signalWake_keeps (m := maskOf [.pcie, .out]) (Keeps.refl _ s) (Sub.of (by decide))).only

section
variable {f : Nat} {s : State} (hf : f < 4) (ha : isAlive s.chip.mode = true)
include hf ha

/-- A wake condition that arises sets PME_Status and signals. -/
theorem effPmPme_arises (he : (s.pf f).pmeEnable = true) (hs : (s.pf f).pmeStatus = false)
    (hw : (s.pf f).wakeSeen = false) (hc : wakeCondition s f = true) : effPmPme f s =
      signalWake f (s.updPf f fun p => { p with pmeStatus := true, wakeSeen := true }) := by
  rw [effPmPme, if_pos ⟨hf, ha⟩]
  simp [pmeRepeats, he, hs, hw, hc]

theorem effPmPme_repeats (hs : (s.pf f).pmeStatus = true) (hl : s.pcie.linkUp = true)
    (hd : s.pcie.pmeAt.getD f 0 + 160000000 ≤ s.cycle) : effPmPme f s = signalWake f s := by
  rw [effPmPme, if_pos ⟨hf, ha⟩, if_pos]
  simpa [pmeRepeats, hs, hl, msCycles] using hd

theorem effPmPme_idle (hs : (s.pf f).pmeStatus = false)
    (h : (s.pf f).pmeEnable = false ∨ (s.pf f).wakeSeen = true ∨ wakeCondition s f = false) : effPmPme f s = s := by
  rw [effPmPme, if_pos ⟨hf, ha⟩, if_neg (by simp [pmeRepeats, hs]), if_neg]
  rcases h with h | h | h <;> simp [h]

end

/-! ## The mailbox -/

/-- What every change of a mailbox leaves is left. -/
theorem mailbox_updMbox_field {α : Type} (φ : Mailbox → α) (s : State) (f : Nat) {g : Mailbox → Mailbox}
    (h : ∀ m, φ (g m) = φ m) : φ ((s.updMbox f g).mailbox f) = φ (s.mailbox f) := by
  by_cases hl : f < s.nap.mbox.length
  · exact (congrArg φ (updAt_getD_same _ _ _ _ hl)).trans (h _)
  · have e : (s.updMbox f g).mailbox f = s.mailbox f := by
      show (updAt s.nap.mbox f g).getD f {} = s.nap.mbox.getD f {}
      rw [updAt_getD_of_length_le g {} (Nat.le_of_not_lt hl), getD_of_length_le {} (Nat.le_of_not_lt hl)]
    rw [e]

/-- A change that clears `outstanding` leaves nothing outstanding. -/
theorem mailbox_updMbox_idle (s : State) (f : Nat) {g : Mailbox → Mailbox} (h : ∀ m, (g m).outstanding = false) :
    ((s.updMbox f g).mailbox f).outstanding = false := by
  by_cases hl : f < s.nap.mbox.length
  · exact (congrArg Mailbox.outstanding (updAt_getD_same _ _ _ _ hl)).trans (h _)
  · show ((updAt s.nap.mbox f g).getD f {}).outstanding = false
    rw [updAt_getD_of_length_le g {} (Nat.le_of_not_lt hl)]

/-- A discarded request: counted before, nothing outstanding, its line pulsed (R380). -/
theorem mboxDiscard_discards {f : Nat} (hf : f < 4) (sub : Nat) (s : State) {t : State}
    (ht : t = mboxDiscard f (s.bump 0x0401 sub)) :
    t.nap.queue = s.nap.queue ∧ (t.mailbox f).outstanding = false ∧
    t.counter 0x0401 sub 0 = (s.counter 0x0401 sub 0 + 1) % 2 ^ 64 ∧ (185 + f, s.cycle) ∈ t.intc.pulses := by
  subst ht
  unfold mboxDiscard
  refine ⟨?_, ?_, ?_, ?_⟩
  · rw [pulse_nap]; rfl
  · rw [State.mailbox, pulse_nap]
    exact mailbox_updMbox_idle (s.bump 0x0401 sub) f fun _ => rfl
  · rw [counter_pulse _ (by unfold cntKey; omega)]
    exact State.counter_bump_same s 0x0401 sub
  · exact mem_pulses_pulse
      (s := ((s.bump 0x0401 sub).updMbox f fun m => { m with outstanding := false, discarded := true }).hit (.mailbox f 2) 0)
      (lineExists_low _ (by omega) (by omega))

section
variable {f n : Nat} {s : State} (hf : s.barReach f = true) (hn : n < 2048)
include hf

/-- A SEND in the core cycle of a reset of the function is lost (R382). -/
theorem effSend_lost (hr : (s.mailbox f).resetAt = some s.cycle) : effSend f n s = s := by
  rw [effSend, if_neg (by simp [hr]), refuseBar_of_barReach _ hf]

include hn

/-- Outside such a cycle SEND_LENGTH is written, and the request refused or submitted (R380). -/
theorem effSend_refused (hr : (s.mailbox f).resetAt ≠ some s.cycle) (ho : (s.mailbox f).outstanding = true) :
    effSend f n s =
      ((s.updMbox f fun m => { m with sendLength := n }).updMbox f fun m => { m with sendRefused := true }).hit
        (.mailbox f 3) 0 := by
  rw [effSend, if_pos (by simp [hf, hr])]
  simp only [Nat.mod_eq_of_lt hn, ho, if_true]

theorem effSend_submits (hr : (s.mailbox f).resetAt ≠ some s.cycle) (ho : (s.mailbox f).outstanding = false) :
    effSend f n s = mboxSubmit f n (s.updMbox f fun m => { m with sendLength := n }) := by
  rw [effSend, if_pos (by simp [hf, hr])]
  simp only [Nat.mod_eq_of_lt hn, ho, Bool.false_eq_true, if_false]

end

theorem napEnqueue_room {r : NapReq} {s : State} (h : s.nap.queue.length < 64) : napEnqueue r s =
    { s with nap := { s.nap with queue := aheadOf s r.path ++ { r with came := s.cycle } :: behindOf s r.path } } := if_pos h

/-- A request of 48 to 1,072 bytes takes its place in the engine's queue (R380, R40). -/
theorem mboxSubmit_enqueues {f n : Nat} (s : State) (h1 : 48 ≤ n) (h2 : n ≤ 1072) (hq : s.nap.queue.length < 64) {t : State}
    (ht : t = mboxSubmit f n (s.updMbox f fun m => { m with sendLength := n })) :
    t.nap.queue = aheadOf s (.mailbox f) ++
      { path := .mailbox f, pdu := (s.mailbox f).request.take n, came := s.cycle } :: behindOf s (.mailbox f) ∧
    Only [.nap] s t := by
  have hsub := ht.trans ((if_neg (by omega)).trans (if_neg (Nat.not_le.2 hq)))
  have hreq := (mailbox_updMbox_field Mailbox.request (s.updMbox f fun m => { m with sendLength := n }) f
    (g := fun m => { m with outstanding := true }) fun _ => rfl).trans
    (mailbox_updMbox_field Mailbox.request s f fun _ => rfl)
  rw [hreq] at hsub
  rw [hsub.trans (napEnqueue_room hq)]
  exact ⟨rfl, only_nap s _⟩

theorem mboxSubmit_badLength {f n : Nat} (s : State) (h : n < 48 ∨ 1072 < n) : mboxSubmit f n s =
    mboxDiscard f ((s.updMbox f fun m => { m with outstanding := true }).bump 0x0401 2) := if_pos h

theorem mboxSubmit_noRoom {f n : Nat} (s : State) (h1 : 48 ≤ n) (h2 : n ≤ 1072) (hq : 64 ≤ s.nap.queue.length) :
    mboxSubmit f n s = mboxDiscard f ((s.updMbox f fun m => { m with outstanding := true }).bump 0x0401 6) :=
  (if_neg (by omega)).trans (if_pos hq)

/-! ## Late completions -/

section
variable {tag : Nat} {s : State} {b : Burst} (hb : AMap.find s.dma.bursts tag = some b) (hd : b.data = none)
  (ha : b.aborted = false) (hs : b.source.1 = true) (hc : b.chan < 31)
include hb

theorem effCompletionTimeout_early (h : hostLate s b.fn b.at_ = false) : effCompletionTimeout tag s = s := by
  simp [effCompletionTimeout, hb, h]

include hd ha hs hc

theorem effCompletionTimeout_late (h : hostLate s b.fn b.at_ = true) :
    effCompletionTimeout tag s = haltChan b.chan 0x04 b.source.2 (readLost b.fn s) := by
  have hne : b.chan ≠ 31 := by omega
  simp [effCompletionTimeout, hb, hd, ha, hs, hne, h]

end

/-! ## Badly formed accesses -/

/-- The doublewords that an access touches are those that overlap it. -/
theorem mem_doublewords {o off width : Nat} : o ∈ doublewords off width ↔ o % 4 = 0 ∧ o < off + width ∧ off < o + 4 := by
  simp only [doublewords, upTo, List.mem_map, List.mem_range]
  constructor
  · rintro ⟨k, hk, rfl⟩; omega
  · rintro ⟨h4, h1, h2⟩; exact ⟨o / 4 - off / 4, by omega, by omega⟩

theorem effBar0BadAccess_reach {f off width : Nat} {write : Bool} {s : State} (hf : s.barReach f = true)
    (hg : goodAccess off width = false) : effBar0BadAccess f off width write s =
      if write then noteBadAccess f s
      else (doublewords off width).foldl (fun u o => u.emit (.reg f o 0xFFFFFFFF)) (noteBadAccess f s) := by
  rw [effBar0BadAccess, if_pos hf, if_neg (by simp [hg])]

/-- Settles O45: each operation's cases in turn. -/
theorem messagesAndMailbox : Obligations.MessagesAndMailbox := by
  unfold Obligations.MessagesAndMailbox
  intro f s
  refine ⟨fun v => ⟨fun hf hp ha => congrArg _ (effMsixMessage_sends hf hp ha), fun h => congrArg _ (effMsixMessage_idle h)⟩,
    fun hf ha => ⟨fun he hs hw hc => ?_, fun hs hl _ hd => ?_, fun hs h => congrArg _ (effPmPme_idle hf ha hs h)⟩,
    fun hf n hn => ⟨fun hr => congrArg _ (effSend_lost hf hr), fun hr => ?_⟩, fun hf hv => ?_,
    fun tag b hb hd ha hs hc => ⟨fun h => congrArg _ (effCompletionTimeout_late hb hd ha hs hc h),
      fun h => congrArg _ (effCompletionTimeout_early hb h)⟩,
    fun off width hf h4 h8 u hu => ?_⟩
  · have hpf : (s.updPf f fun p => { p with pmeStatus := true, wakeSeen := true }).pf f =
        { s.pf f with pmeStatus := true, wakeSeen := true } := State.updPf_pf s f _ (function_lt_of_pmeEnable he)
    have hout := signalWake_out f (s.updPf f fun p => { p with pmeStatus := true, wakeSeen := true })
    refine ⟨_, congrArg Host.Outcome.next (effPmPme_arises hf ha he hs hw hc), ?_, ?_, hout.1, hout.2⟩
    · rw [signalWake_pf, hpf]
    · rw [signalWake_pf, hpf]
  · rename_i hperst
    exact ⟨_, congrArg Host.Outcome.next (effPmPme_repeats hf ha hs hl hd), (signalWake_out f s).1 hl hperst,
      signalWake_only f s⟩
  · have hf4 := function_lt_of_barReach hf
    refine ⟨fun ho => congrArg _ (effSend_refused hf hn hr ho), fun ho h1 h2 hq => ?_, fun ho h => ?_, fun ho h1 h2 hq => ?_⟩
    all_goals refine ⟨_, congrArg Host.Outcome.next (effSend_submits hf hn hr ho), ?_⟩
    · exact mboxSubmit_enqueues s h1 h2 hq rfl
    · have hd := mboxDiscard_discards hf4 2 _ (mboxSubmit_badLength (s.updMbox f fun m => { m with sendLength := n }) h)
      exact hd
    · have hd := mboxDiscard_discards hf4 6 _ (mboxSubmit_noRoom (s.updMbox f fun m => { m with sendLength := n }) h1 h2 hq)
      exact hd
  · exact congrArg Host.Outcome.next (if_pos (by simp [hf, hv]))
  · have hg := goodAccess_eq_false h4 h8
    subst hu
    exact ⟨congrArg _ (effBar0BadAccess_reach (write := true) hf hg),
      congrArg _ (effBar0BadAccess_reach (write := false) hf hg), fun o => mem_doublewords⟩

end Sys2Proof.Machine
end

section
/-!
PROOF. Writes to the registers of BAR0, and accesses that do not reach the device (R12, R371, R374 to R376, R383, R409).
-/
namespace Sys2Proof.Machine

/-! ## Accesses of a good form -/

section
variable {f off v : Nat} {s : State} (hf : s.barReach f = true)
include hf

/-- An aligned 32-bit write is the write of its region. -/
theorem effRegisterWrite_word (ho : off < 0x410000) (ha : off % 4 = 0) :
    effRegisterWrite f off v 4 s = bar0Write f off (v % 2 ^ 32) s := by
  rw [effRegisterWrite, if_pos hf, if_neg (by omega), if_pos (by simp [goodAccess, ha])]
  rfl

/-- An aligned 64-bit write is the two 32-bit writes in ascending order. -/
theorem effRegisterWrite_wide (ho : off < 0x410000) (ha : off % 8 = 0) : effRegisterWrite f off v 8 s =
    bar0Write f (off + 4) (v / 2 ^ 32 % 2 ^ 32) (bar0Write f off (v % 2 ^ 32) s) := by
  rw [effRegisterWrite, if_pos hf, if_neg (by omega), if_pos (by simp [goodAccess, ha])]
  rfl

theorem effRegisterWrite_beyond {width : Nat} (ho : 0x410000 ≤ off) :
    effRegisterWrite f off v width s = unsupported f true s := by
  rw [effRegisterWrite, if_pos hf, if_pos ho]

theorem effRegisterWrite_badForm {width : Nat} (ho : off < 0x400000) (h4 : ¬(width = 4 ∧ off % 4 = 0))
    (h8 : ¬(width = 8 ∧ off % 8 = 0)) : effRegisterWrite f off v width s = noteBadAccess f s := by
  rw [effRegisterWrite, if_pos hf, if_neg (by omega), goodAccess_eq_false h4 h8, if_neg (by simp), if_pos ho]

end

/-! ## The regions -/

section
variable {f off v : Nat} {s : State}

theorem bar0Write_global (h : off / 0x10000 = 0) : bar0Write f off v s = globalRegWrite f (off % 0x10000) v s := by
  rw [bar0Write, if_neg (by omega), h]
  rfl

theorem bar0Write_dma (h : off / 0x10000 = 2) : bar0Write f off v s = dmaWrite f (off % 0x10000) v s := by
  rw [bar0Write, if_neg (by omega), h]
  rfl

theorem bar0Write_time (h : off / 0x10000 = 3) : bar0Write f off v s = timeWrite f (off % 0x10000) v s := by
  rw [bar0Write, if_neg (by omega), h]
  rfl

theorem bar0Write_health (h : off / 0x10000 = 7) : bar0Write f off v s = healthRegWrite f (off % 0x10000) v s := by
  rw [bar0Write, if_neg (by omega), h]
  rfl

theorem bar0Write_mailbox (h : off / 0x10000 = 8) : bar0Write f off v s = mboxRegWrite f (off % 0x10000) v s := by
  rw [bar0Write, if_neg (by omega), h]
  rfl

end

/-! ## Single registers -/

/-- A W1C bit that no event of this core cycle has set takes the write (R12). -/
theorem w1c_of_noHit {s : State} {c : Sticky} (h : s.hitOf c = none) (was written : Bool) :
    s.w1c c was written = (was && !written) := by
  simp [State.w1c, h]

theorem globalRegWrite_hostErrors {f v : Nat} {s : State} (h : ∀ k, k < 4 → s.hitOf (.hostError f k) = none) :
    globalRegWrite f 0x14 v s = s.updPf f fun p => { p with
      writeDenied := p.writeDenied && !bit v 0, badAccess := p.badAccess && !bit v 1
      timeout := p.timeout && !bit v 2, poisoned := p.poisoned && !bit v 3 } := by
  simp only [globalRegWrite, if_true, w1c_of_noHit (h 0 (by decide)), w1c_of_noHit (h 1 (by decide)),
    w1c_of_noHit (h 2 (by decide)), w1c_of_noHit (h 3 (by decide))]

theorem mboxRegWrite_buffer {f off v : Nat} {s : State} (ho : off < 1072) : mboxRegWrite f off v s =
    if (s.mailbox f).outstanding then (s.updMbox f fun m => { m with writeIgnored := true }).hit (.mailbox f 4) 0
    else s.updMbox f fun m => { m with request := putBytes m.request off (leBytes 4 v) } := by
  rw [mboxRegWrite, if_pos (by omega), if_pos ho]

theorem timeWrite_incrementLo {f d v : Nat} {s : State} (hd : d < 8) :
    timeWrite f (d * 0x100 + 0x10) v s = s.updFnTime f d fun w => { w with incLo := v } := by
  have h1 : (d * 0x100 + 0x10) / 0x100 = d := by omega
  have h2 : (d * 0x100 + 0x10) % 0x100 = 0x10 := by omega
  simp only [timeWrite, h1, h2, if_pos hd]

theorem timeWrite_incrementHi {f d v : Nat} {s : State} (hd : d < 8) :
    timeWrite f (d * 0x100 + 0x14) v s = effIncrementHiWrite f d v s := by
  have h1 : (d * 0x100 + 0x14) / 0x100 = d := by omega
  have h2 : (d * 0x100 + 0x14) % 0x100 = 0x14 := by omega
  simp only [timeWrite, h1, h2, if_pos hd]

/-- POLL_INTERVAL of a channel changes for the functions that may write it (R409). -/
theorem dmaWrite_poll {f c v : Nat} {s : State} (hf : s.barReach f = true) (hc : c < 31) :
    dmaWrite f (c * 0x100 + 0x34) v s =
      if chanMay s f c then s.updChan c fun x => { x with poll := v % 65536 } else denyWrite f s := by
  have h1 : (c * 0x100 + 0x34) / 0x100 = c := by omega
  have h2 : (c * 0x100 + 0x34) % 0x100 = 0x34 := by omega
  rw [dmaWrite, h1, h2, if_neg (by decide), chanWrite, if_pos (by simp [hf, hc])]
  rfl

/-! ## Accesses that do not reach the device -/

section
variable {f : Nat} {s : State} (h : s.barReach f = false)
include h

theorem chanWrite_unreached (c : Nat) (act : State → State) : chanWrite f c act s = refuseBar f true s :=
  if_neg (by simp [h])

theorem withRight_unreached (right : Bool) (act : State → State) : withRight right f act s = refuseBar f true s :=
  if_pos (by simp [h])

/-- The writes of a function's registers are refused alike (R374). -/
theorem writes_unreached (n m : Nat) (v : Bool) : ∀ c ∈ [Instr.send f n, .ack f, .bar0BadAccess f n m true,
      .registerWrite f n m 4, .incrementHiWrite f n m, .adjTicksWrite f n m, .go f n m, .arm none f n m,
      .offsetReport f n m, .flush f n, .outArm f n, .intArm f v n, .run f n, .pause f n v, .abort f n, .channelReset f n,
      .doorbell f n, .eoi f (n % 64) m, .softSet f n, .sleep f (n % 64)],
    exec c s = .next (refuseBar f true s) := by
  have hlt : n % 64 < 64 := Nat.mod_lt _ (by decide)
  simp only [List.forall_mem_cons]
  refine ⟨?_, ?_, ?_, ?_, ?_, ?_, ?_, ?_, ?_, ?_, ?_, ?_, congrArg _ (chanWrite_unreached h _ _),
    congrArg _ (chanWrite_unreached h _ _), congrArg _ (chanWrite_unreached h _ _), congrArg _ (chanWrite_unreached h _ _),
    congrArg _ (chanWrite_unreached h _ _), congrArg _ ((if_pos hlt).trans (withRight_unreached h _ _)),
    congrArg _ (withRight_unreached h _ _), congrArg _ ((if_pos hlt).trans (withRight_unreached h _ _)), nofun⟩
  all_goals exact congrArg Host.Outcome.next (if_neg (by simp [h]))

/-- The reads of a function's registers are refused alike (R374). -/
theorem reads_unreached (n m : Nat) : ∀ c ∈ [Instr.bar0BadAccess f n m false, .timeFracRead f n, .tineRecordRead f n,
      .tineLostRead f n, .capStatusRead f n, .claim f n, .countRead f n, .histHiRead f n m, .faultLostRead f n m],
    exec c s = .next (refuseBar f false s) := by
  simp only [List.forall_mem_cons]
  refine ⟨?_, ?_, ?_, ?_, ?_, ?_, ?_, ?_, ?_, nofun⟩
  all_goals exact congrArg Host.Outcome.next (if_neg (by simp [h]))

end

theorem refusesBar_iff (s : State) (f : Nat) : refusesBar s f = true ↔ f < 4 ∧ s.pcie.linkUp = true ∧
    isAlive s.chip.mode = true ∧ ((s.pf f).d3 = true ∨ (s.pf f).mse = false) := by
  simp [refusesBar, and_assoc]

theorem unsupported_only (f : Nat) (write : Bool) (s : State) : Only [.pcie, .out, .free] s (unsupported f write s) :=
  (unsupported_keeps (m := maskOf [.pcie, .out, .free]) (Keeps.refl _ s) (Sub.of (by decide))).only

/-- Settles O46: the form of the access, then its region, then its register. -/
theorem registerWrites : Obligations.RegisterWrites := by
  unfold Obligations.RegisterWrites
  intro f s
  refine ⟨fun hf => ⟨fun v hv => ?_, fun v hv hh => ?_, fun off v hv ho ha => ?_, fun d v hd hv => ?_, fun c v hc hv => ?_,
      fun off v u ha ho hu hr => ?_, fun off v width ho h4 h8 => congrArg _ (effRegisterWrite_badForm hf ho h4 h8),
      fun off v width ho => congrArg _ (effRegisterWrite_beyond hf ho)⟩,
    fun hf => ⟨writes_unreached hf, reads_unreached hf⟩, refusesBar_iff s f,
    fun write t ht => ?_⟩
  · refine congrArg Host.Outcome.next ?_
    rw [effRegisterWrite_word hf (by decide) rfl, Nat.mod_eq_of_lt hv]
    rfl
  · refine congrArg Host.Outcome.next ?_
    rw [effRegisterWrite_word hf (by decide) rfl, Nat.mod_eq_of_lt hv, bar0Write_global rfl]
    exact globalRegWrite_hostErrors hh
  · have hw : effRegisterWrite f (0x080000 + off) v 4 s = mboxRegWrite f off v s := by
      rw [effRegisterWrite_word hf (by omega) (by omega), Nat.mod_eq_of_lt hv, bar0Write_mailbox (by omega)]
      congr 1; omega
    rw [mboxRegWrite_buffer ho] at hw
    exact ⟨fun h => congrArg Host.Outcome.next (hw.trans (if_neg (by simp [h]))),
      fun h => congrArg Host.Outcome.next (hw.trans (if_pos h))⟩
  · have hw : ∀ k, k < 0x100 → k % 4 = 0 → effRegisterWrite f (0x030000 + d * 0x100 + k) v 4 s =
        timeWrite f (d * 0x100 + k) v s := fun k hk h4 => by
      rw [effRegisterWrite_word hf (by omega) (by omega), Nat.mod_eq_of_lt hv, bar0Write_time (by omega)]
      congr 1; omega
    exact ⟨congrArg Host.Outcome.next ((hw 0x10 (by decide) rfl).trans (timeWrite_incrementLo hd)),
      congrArg Host.Outcome.next ((hw 0x14 (by decide) rfl).trans (timeWrite_incrementHi hd))⟩
  · refine congrArg Host.Outcome.next ?_
    rw [effRegisterWrite_word hf (by omega) (by omega), Nat.mod_eq_of_lt hv, bar0Write_dma (by omega), ← dmaWrite_poll hf hc]
    congr 1; omega
  · have hu' : bar0Write f off (v % 2 ^ 32) s = u := by
      have e := (effRegisterWrite_word (v := v % 2 ^ 32) hf ho (by omega)).symm.trans (Host.Outcome.next.inj hu)
      rwa [Nat.mod_mod] at e
    refine congrArg Host.Outcome.next ?_
    rw [effRegisterWrite_wide hf ho ha, hu', effRegisterWrite_word hr (by omega) (by omega), Nat.mod_mod]
  · subst ht
    exact ⟨⟨_, rfl⟩, unsupported_only f write s⟩

end Sys2Proof.Machine
end

section
/-!
PROOF. The interrupt controller and the delivery of event pulses (R410 to R427).
-/
namespace Sys2Proof.Machine

/-! ## Raises -/

theorem startHoldoff_sources (g was : Nat) (s : State) : (startHoldoff g was s).intc.sources = s.intc.sources := by
  unfold startHoldoff
  split <;> rfl

theorem startHoldoff_pulses (g was : Nat) (s : State) : (startHoldoff g was s).intc.pulses = s.intc.pulses := by
  unfold startHoldoff
  split <;> rfl

/-- A raise makes its source pending and counts it (R413). -/
theorem raiseSource_source {n : Nat} (s : State) (h : srcExists n = true) :
    (raiseSource n s).source n = IntSource.raise s.cycle (s.source n) := by
  rw [raiseSource, if_pos h, State.source, startHoldoff_sources]
  exact State.updSource_source s n _

theorem raiseSource_pulses (n : Nat) (s : State) : (raiseSource n s).intc.pulses = s.intc.pulses := by
  unfold raiseSource
  split
  · exact startHoldoff_pulses _ _ _
  · rfl

theorem srcExists_low {n : Nat} (h1 : 1 ≤ n) (h2 : n < 256) : srcExists n = true := by
  have h3 : n ≤ 273 := by omega
  simp [srcExists, h1, h3]

theorem srcExists_high {n : Nat} (h1 : 512 ≤ n) (h2 : n ≤ 1279) : srcExists n = true := by simp [srcExists, h1, h2]

/-! ## Event pulses -/

theorem lineConsumers_intc (l : Nat) (s : State) : (lineRequests l (lineStarts l s)).intc = s.intc :=
  (lineRequests_keeps (m := 0x410000) (lineStarts_keeps (Keeps.refl _ s) (Sub.of (by decide))) (Sub.of (by decide))).same
    .intc (by decide)

theorem effEventPulse_due {l at_ : Nat} {s : State}
    (h : s.intc.pulses.find? (fun p => p.1 == l && decide (p.2 + 2 ≤ s.cycle)) = some (l, at_)) : effEventPulse l s =
      lineRequests l (lineStarts l (raiseSource l { s with intc := { s.intc with pulses := s.intc.pulses.erase (l, at_) } })) := by
  rw [effEventPulse, h]

/-- A pulse that acts has raised its source and is gone from the matrix (R410). -/
theorem effEventPulse_raises {l at_ : Nat} {s t : State}
    (h : s.intc.pulses.find? (fun p => p.1 == l && decide (p.2 + 2 ≤ s.cycle)) = some (l, at_)) (h1 : 1 ≤ l) (h2 : l < 256)
    (ht : t = effEventPulse l s) : (t.source l).pending = true ∧ (t.source l).count = min 255 ((s.source l).count + 1) ∧
      t.intc.pulses = s.intc.pulses.erase (l, at_) := by
  rw [effEventPulse_due h] at ht
  have hi : t.intc = (raiseSource l { s with intc := { s.intc with pulses := s.intc.pulses.erase (l, at_) } }).intc := by
    rw [ht, lineConsumers_intc]
  have hsrc : t.source l = IntSource.raise s.cycle (s.source l) := by
    rw [State.source, hi]
    exact raiseSource_source _ (srcExists_low h1 h2)
  rw [hsrc, hi, raiseSource_pulses]
  exact ⟨rfl, rfl, rfl⟩

theorem effEventPulse_waits {l : Nat} {s : State}
    (h : s.intc.pulses.any (fun p => p.1 == l && decide (p.2 + 2 ≤ s.cycle)) = false) : effEventPulse l s = s := by
  have hn : s.intc.pulses.find? (fun p => p.1 == l && decide (p.2 + 2 ≤ s.cycle)) = none := by
    rw [List.find?_eq_none]
    intro p hp
    simpa using List.any_eq_false.1 h p hp
  rw [effEventPulse, hn]

/-! ## Targets -/

theorem State.updTarget_target (s : State) {t : Nat} (g : IntTarget → IntTarget) (h : t < s.intc.targets.length) :
    (s.updTarget t g).target t = g (s.target t) := updAt_getD_same _ _ _ _ h

/-- A target that does not exist has nothing to change. -/
theorem State.updTarget_target_absent (s : State) {t : Nat} (g : IntTarget → IntTarget) (h : s.intc.targets.length ≤ t) :
    (s.updTarget t g).target t = s.target t := by
  show (updAt s.intc.targets t g).getD t {} = s.intc.targets.getD t {}
  rw [updAt_getD_of_length_le g {} h, getD_of_length_le {} h]

theorem target_lt_of_stack {s : State} {t : Nat} (h : (s.target t).stack ≠ []) : t < s.intc.targets.length :=
  lt_length_of_getD_ne fun e : s.target t = {} => h (by rw [e])

theorem withRight_reach {f : Nat} {s : State} (hf : s.barReach f = true) (right : Bool) (act : State → State) :
    withRight right f act s = if right then act s else denyWrite f s := by
  rw [withRight, if_neg (by simp [hf])]

/-! ## CLAIM -/

section
variable {f t : Nat} {s : State} (hf : s.barReach f = true) (ht : t < 64)
include hf ht

theorem effClaim_none (h : (s.target t).function ≠ f ∨ bestSource s t = none) :
    effClaim f t s = s.emit (.reg f (0x010000 + t * 0x10) 2047) := by
  rw [effClaim, if_pos (by simp [hf, ht])]
  by_cases hfn : (s.target t).function = f
  · rw [if_neg (by simp [hfn]), h.resolve_left (by simp [hfn])]
    rfl
  · rw [if_pos hfn]
    rfl

theorem effClaim_takes {n lvl : Nat} (hfn : (s.target t).function = f) (hb : bestSource s t = some (n, lvl)) :
    effClaim f t s = (takeClaim t n lvl s).emit (.reg f (0x010000 + t * 0x10) n) := by
  rw [effClaim, if_pos (by simp [hf, ht]), if_neg (by simp [hfn]), hb]
  rfl

end

/-- A claimed source is pending only by a raise of the same core cycle (R413, R14). -/
theorem takeClaim_source (t n lvl : Nat) (s : State) : ((takeClaim t n lvl s).source n).pending =
    ((s.source n).pending && (s.hitOf (.pending n)).isSome) := by
  have hs : (takeClaim t n lvl s).intc.sources =
      (s.updSource n fun x => { x with pending := s.w1c (.pending n) x.pending true }).intc.sources := by
    unfold takeClaim
    split <;> rfl
  rw [State.source, hs]
  exact congrArg IntSource.pending (State.updSource_source s n _)

/-- In stack mode the claimed source is pushed with its level (R418). -/
theorem takeClaim_stack (t n lvl : Nat) (s : State) : ((takeClaim t n lvl s).target t).stack =
    if thresholdMode s.chip.mode (s.target t) || decide (s.intc.targets.length ≤ t) then (s.target t).stack
    else (n, lvl) :: (s.target t).stack := by
  cases hm : thresholdMode s.chip.mode (s.target t) with
  | true =>
    rw [takeClaim, if_pos hm]
    rfl
  | false =>
    have ht : (takeClaim t n lvl s).target t = (s.updTarget t fun x => { x with stack := (n, lvl) :: x.stack }).target t := by
      rw [takeClaim, if_neg (by simp [hm])]
      rfl
    rw [ht]
    by_cases hl : s.intc.targets.length ≤ t
    · rw [State.updTarget_target_absent _ _ hl, if_pos (by simp [hl])]
    · rw [State.updTarget_target _ _ (by omega), if_neg (by simpa using hl)]

/-! ## EOI -/

section
variable {t : Nat} {s : State} (hm : thresholdMode s.chip.mode (s.target t) = false)
include hm

/-- With nothing left to pop an end of interrupt underflows (R419). -/
theorem endInterrupt_underflow
    (h : (s.target t).stack = [] ∨ (s.hitOf (.claim t)).isSome = true ∧ (s.target t).stack.length = 1) :
    endInterrupt t s = (s.updTarget t fun x => { x with underflow := true }).hit (.underflow t) 0 := by
  have hp : poppedStack (s.hitOf (.claim t)).isSome (s.target t).stack = none := by
    rcases h with h | ⟨hc, hl⟩
    · rw [h]; rfl
    · obtain ⟨e, he⟩ := List.length_eq_one_iff.1 hl
      rw [he, hc]; rfl
  rw [endInterrupt, if_neg (by simp [hm]), hp]

theorem endInterrupt_pops {rest : List (Nat × Nat)} (hs : (s.target t).stack ≠ [])
    (hp : poppedStack (s.hitOf (.claim t)).isSome (s.target t).stack = some rest) :
    ((endInterrupt t s).target t).stack = rest ∧ (endInterrupt t s).intc.sources = s.intc.sources := by
  rw [endInterrupt, if_neg (by simp [hm]), hp]
  exact ⟨congrArg IntTarget.stack (State.updTarget_target s _ (target_lt_of_stack hs)), rfl⟩

end

/-! ## SLEEP -/

theorem putToSleep_targets (t : Nat) (s : State) :
    (putToSleep t s).intc.targets = (s.updTarget t fun x => { x with sleep := true }).intc.targets := by
  refine foldl_same (·.intc.targets) (fun u g => ?_) _ _
  split <;> rfl

theorem putToSleep_sources (t : Nat) (s : State) : (putToSleep t s).intc.sources = s.intc.sources := by
  refine foldl_same (·.intc.sources) (fun u g => ?_) _ (s.updTarget t _)
  split <;> rfl

theorem putToSleep_sleeps {t : Nat} (s : State) (ht : t < s.intc.targets.length) :
    ((putToSleep t s).target t).sleep = true ∧ ((putToSleep t s).target t).stack = (s.target t).stack := by
  have h : (putToSleep t s).target t = { s.target t with sleep := true } := by
    rw [State.target, putToSleep_targets]
    exact State.updTarget_target s _ ht
  rw [h]
  exact ⟨rfl, rfl⟩

/-! ## Counts -/

/-- A read of SOURCE_CONFIG returns the count before the raises of its core cycle and leaves what they added (R413, R14). -/
theorem effCountRead_existing {f v : Nat} {s t : State} (hf : s.barReach f = true) (hv : v < 2048) (he : srcExists v = true)
    {old : Nat} (ho : old = (s.hitOf (.count v)).getD (s.source v).count) (ht : t = effCountRead f v s) :
    t.out = .reg f (0x010800 + v * 4) ((s.source v).level + (s.source v).target * 16 + old * 65536) :: s.out ∧
    (s.hitOf (.count v) = none → (t.source v).count = 0) ∧
    ((s.hitOf (.count v)).isSome = true → (t.source v).count = (s.source v).count - old) ∧
    (t.source v).pending = (s.source v).pending ∧ Only [.intc, .out, .hits] s t := by
  rw [effCountRead, if_pos (by simp [hf, hv])] at ht
  simp only [he, if_true] at ht
  have hsrc : t.source v = { s.source v with count := s.rcLeft (.count v) (s.source v).count } := by
    rw [ht]
    exact State.updSource_source s v _
  have honly : Only [.intc, .out, .hits] s t := by
    rw [ht]
    exact (State.emit_keeps (m := maskOf [.intc, .out, .hits])
      (State.rehit_keeps (State.updSource_keeps (Keeps.refl _ s) (Sub.of (by decide))) (Sub.of (by decide)))
      (Sub.of (by decide))).only
  refine ⟨?_, fun h => ?_, fun h => ?_, ?_, honly⟩
  · rw [ht, ho]; rfl
  · rw [hsrc]
    simp [State.rcLeft, h]
  · obtain ⟨was, hw⟩ := Option.isSome_iff_exists.1 h
    rw [hsrc, ho]
    simp [State.rcLeft, hw]
  · rw [hsrc]

/-- SOFT_SET by PF0 raises the software sources (R427). -/
theorem effSoftSet_pf0 {v : Nat} {s : State} (hf : s.barReach 0 = true) (hv : v < 2 ^ 11) :
    effSoftSet 0 v s = if 1216 ≤ v ∧ v ≤ 1279 then raiseSource v s else s := by
  rw [effSoftSet, withRight_reach hf, if_pos (beq_self_eq_true 0), Nat.mod_eq_of_lt hv]

/-! ## The statement -/

/-- Settles O52: event pulses, CLAIM, EOI and SLEEP of a target, software sources and counts, and hold-offs. -/
theorem interruptsServed : Obligations.InterruptsServed := by
  unfold Obligations.InterruptsServed
  refine ⟨fun l at_ s h h1 h2 => ⟨_, rfl, effEventPulse_raises h h1 h2 rfl⟩, fun l s h => congrArg _ (effEventPulse_waits h),
    fun f t s hf ht => ⟨fun h => congrArg _ (effClaim_none hf ht h), fun n lvl hfn hb => ?_, fun v hr => ?_, fun hr => ?_⟩,
    fun f v s hf hv => ⟨fun h0 => ?_, fun h0 h1 h2 => ?_, fun h0 h => ?_, fun he old ho => ?_⟩,
    fun g s => ⟨fun h => ?_, fun until_ h => ⟨fun hw => ?_, fun hd => ?_⟩⟩⟩
  · exact ⟨_, congrArg Host.Outcome.next (effClaim_takes hf ht hfn hb), takeClaim_source t n lvl s, rfl,
      takeClaim_stack t n lvl s⟩
  · have hd : ∀ act, withRight (targetRight s f t) f act s = denyWrite f s := fun act => by
      rw [withRight_reach hf, if_neg (by simp [hr])]
    exact ⟨congrArg Host.Outcome.next ((if_pos ht).trans (hd _)), congrArg Host.Outcome.next ((if_pos ht).trans (hd _))⟩
  · have ha : ∀ act, withRight (targetRight s f t) f act s = act s := fun act => by rw [withRight_reach hf, if_pos hr]
    have heoi : ∀ v, exec (.eoi f t v) s = .next (endInterrupt t s) := fun v =>
      congrArg Host.Outcome.next ((if_pos ht).trans (ha _))
    refine ⟨fun v hm => (heoi v).trans (congrArg _ (if_pos hm)), fun v hm => ⟨fun h => ?_, fun top rest hs hc => ?_,
      fun top below rest hs hc => ?_⟩, fun hfn hl => ?_⟩
    · exact (heoi v).trans (congrArg _ (endInterrupt_underflow hm h))
    · exact ⟨_, heoi v, endInterrupt_pops hm (by simp [hs]) (by rw [hs, hc]; rfl)⟩
    · exact ⟨_, heoi v, endInterrupt_pops hm (by simp [hs]) (by rw [hs, hc]; rfl)⟩
    · obtain ⟨h1, h2⟩ := putToSleep_sleeps s hl
      exact ⟨_, congrArg Host.Outcome.next ((if_pos ht).trans (ha _)), h1, h2, putToSleep_sources t s⟩
  · refine congrArg Host.Outcome.next ?_
    rw [effSoftSet, withRight_reach hf, if_neg (by simp [h0])]
  · subst h0
    have hsrc := raiseSource_source s (srcExists_high (n := v) (by omega) h2)
    refine ⟨_, congrArg Host.Outcome.next ((effSoftSet_pf0 hf hv).trans (if_pos ⟨h1, h2⟩)), ?_, ?_⟩
    · rw [hsrc]; rfl
    · rw [hsrc]; rfl
  · subst h0
    exact congrArg Host.Outcome.next ((effSoftSet_pf0 hf hv).trans (if_neg (by omega)))
  · exact ⟨_, rfl, effCountRead_existing hf hv he ho rfl⟩
  · refine congrArg Host.Outcome.next ?_
    rw [effHoldoffExpiry, h]
  · refine congrArg Host.Outcome.next ?_
    rw [effHoldoffExpiry, h]
    exact if_neg (by omega)
  · have he : effHoldoffExpiry g s = s.updGroup g fun x => { x with runs := none } := by
      rw [effHoldoffExpiry, h]
      exact if_pos hd
    refine ⟨_, congrArg Host.Outcome.next he, ?_, rfl⟩
    rw [State.updGroup_group]

end Sys2Proof.Machine
end

section
/-!
PROOF. Bits, sticky fields and the fault model's operations (R14, R462 to R468).
-/
namespace Sys2Proof.Machine

/-! ## Bits -/

theorem bit_eq_testBit (n i : Nat) : bit n i = n.testBit i := by
  rw [Nat.testBit_eq_decide_div_mod_eq]
  rfl

theorem bit_or_two_pow_self (n i : Nat) : bit (n ||| 2 ^ i) i = true := by
  rw [bit_eq_testBit, Nat.testBit_or, Nat.testBit_two_pow_self, Bool.or_true]

theorem bit_or_two_pow_other (n : Nat) {i j : Nat} (h : i ≠ j) : bit (n ||| 2 ^ i) j = bit n j := by
  rw [bit_eq_testBit, bit_eq_testBit, Nat.testBit_or, Nat.testBit_two_pow_of_ne h, Bool.or_false]

theorem and_two_pow_succ (n i : Nat) : n &&& 2 ^ (i + 1) = 2 * (n / 2 &&& 2 ^ i) := by
  have hp : 2 ^ (i + 1) / 2 = 2 ^ i := by rw [Nat.pow_succ, Nat.mul_div_cancel _ (by decide)]
  have hd : ∀ x : Nat, 2 * x / 2 = x := fun x => by omega
  refine Nat.eq_of_testBit_eq fun j => ?_
  cases j with
  | zero =>
    have h0 : (2 ^ (i + 1)).testBit 0 = false := Nat.testBit_two_pow_of_ne (by omega)
    have h1 : (2 * (n / 2 &&& 2 ^ i)).testBit 0 = false := by
      rw [Nat.testBit_zero]
      exact decide_eq_false (by omega)
    rw [Nat.testBit_and, h0, h1, Bool.and_false]
  | succ j => rw [Nat.testBit_succ, Nat.and_div_two, hp, Nat.testBit_succ, hd]

/-- Taking a bit out of a number. -/
theorem testBit_sub_and_two_pow (n i j : Nat) : (n - (n &&& 2 ^ i)).testBit j = (n.testBit j && decide (i ≠ j)) := by
  induction i generalizing n j with
  | zero =>
    have h0 : n &&& 2 ^ 0 = n % 2 := Nat.and_one_is_mod n
    rw [h0]
    cases j with
    | zero =>
      have h1 : (n - n % 2) % 2 = 0 := by omega
      simp [Nat.testBit_zero, h1]
    | succ j =>
      have h1 : (n - n % 2) / 2 = n / 2 := by omega
      rw [Nat.testBit_succ, h1, ← Nat.testBit_succ]
      simp
  | succ i ih =>
    rw [and_two_pow_succ]
    cases j with
    | zero =>
      have h1 : (n - 2 * (n / 2 &&& 2 ^ i)) % 2 = n % 2 := by
        have := Nat.and_le_left (n := n / 2) (m := 2 ^ i)
        omega
      simp [Nat.testBit_zero, h1]
    | succ j =>
      have h1 : (n - 2 * (n / 2 &&& 2 ^ i)) / 2 = n / 2 - (n / 2 &&& 2 ^ i) := by omega
      rw [Nat.testBit_succ, h1, ih, ← Nat.testBit_succ]
      simp

theorem bit_clear_self (n i : Nat) : bit (n - (n &&& 2 ^ i)) i = false := by
  rw [bit_eq_testBit, testBit_sub_and_two_pow]
  simp

theorem bit_clear_other (n : Nat) {i j : Nat} (h : i ≠ j) : bit (n - (n &&& 2 ^ i)) j = bit n j := by
  rw [bit_eq_testBit, bit_eq_testBit, testBit_sub_and_two_pow]
  simp [h]

/-! ## Sticky fields -/

theorem State.hitOf_congr {s t : State} (hh : t.hits = s.hits) (hc : t.cycle = s.cycle) (c : Sticky) :
    t.hitOf c = s.hitOf c := by
  unfold State.hitOf
  rw [hh, hc]

/-- An event at one field says nothing of another. -/
theorem State.hitOf_hit_other (s : State) {c e : Sticky} (before : Nat) (h : c ≠ e) : (s.hit c before).hitOf e = s.hitOf e := by
  have hne : (c == e) = false := by simpa using h
  unfold State.hit
  split
  · rename_i hat
    split
    · rfl
    · simp [State.hitOf, hat, List.find?_append, hne]
  · rename_i hat
    simp [State.hitOf, hat, hne]

theorem find?_served_other {c e : Sticky} (h : c ≠ e) (l : List (Sticky × Nat)) :
    (l.map fun x => if x.1 == c then (c, 0) else x).find? (fun x => x.1 == e) = l.find? fun x => x.1 == e := by
  have hc : (c == e) = false := by simpa using h
  induction l with
  | nil => rfl
  | cons x r ih =>
    by_cases hx : x.1 = c
    · simp only [List.map_cons, hx, beq_self_eq_true, if_true, List.find?_cons, hc, ih]
    · simp only [List.map_cons, beq_eq_false_iff_ne.2 hx, Bool.false_eq_true, if_false, List.find?_cons, ih]

theorem find?_served_self (c : Sticky) (l : List (Sticky × Nat)) :
    ((l.map fun x => if x.1 == c then (c, 0) else x).find? (fun x => x.1 == c)).isSome = (l.find? fun x => x.1 == c).isSome := by
  induction l with
  | nil => rfl
  | cons x r ih =>
    by_cases hx : x.1 = c
    · simp [hx]
    · simp only [List.map_cons, beq_eq_false_iff_ne.2 hx, Bool.false_eq_true, if_false, List.find?_cons, ih]

/-- Serving a field says nothing of another. -/
theorem State.hitOf_rehit_other (s : State) {c e : Sticky} (h : c ≠ e) : (s.rehit c).hitOf e = s.hitOf e := by
  simp only [State.hitOf, State.rehit, find?_served_other h]

/-- A served field is still one that an event has set. -/
theorem State.hitOf_rehit_self (s : State) (c : Sticky) : ((s.rehit c).hitOf c).isSome = (s.hitOf c).isSome := by
  have h : ((s.rehit c).hitOf c).isSome = (if s.hits.at_ = s.cycle then
    ((s.hits.cells.map fun x => if x.1 == c then (c, 0) else x).find? fun x => x.1 == c).map (·.2) else none).isSome := rfl
  rw [h, State.hitOf]
  split
  · simp only [Option.isSome_map, find?_served_self]
  · rfl

/-! ## Instances -/

theorem State.updFault_fault_other (s : State) {b i x y : Nat} (g : FaultInst → FaultInst) (hi : i < 32) (hy : y < 32)
    (h : ¬(x = b ∧ y = i)) : (s.updFault b i g).fault x y = s.fault x y :=
  AMap.get_upd_other _ _ _ (by omega)

theorem State.fault_congr {s t : State} (h : t.faults = s.faults) (b i : Nat) : t.fault b i = s.fault b i := by
  rw [State.fault, h, State.fault]

theorem raiseSource_faults (n : Nat) (s : State) : (raiseSource n s).faults = s.faults :=
  (raiseSource_keeps (m := 0x81000000) (Keeps.refl _ s) (Sub.of (by decide))).same .faults (by decide)

theorem raiseSource_chip (n : Nat) (s : State) : (raiseSource n s).chip = s.chip := by
  unfold raiseSource startHoldoff
  split
  · dsimp only
    split <;> simp
  · rfl

theorem startHoldoff_hitOf (g was : Nat) (s : State) (c : Sticky) : (startHoldoff g was s).hitOf c = s.hitOf c :=
  State.hitOf_congr (by unfold startHoldoff; split <;> rfl) (by unfold startHoldoff; split <;> rfl) c

/-- A raise sets no sticky field but its source's own. -/
theorem raiseSource_hitOf {n : Nat} (s : State) {c : Sticky} (hp : Sticky.pending n ≠ c) (hc : Sticky.count n ≠ c) :
    (raiseSource n s).hitOf c = s.hitOf c := by
  have hu : (s.updSource n (IntSource.raise s.cycle)).hitOf c = s.hitOf c := rfl
  unfold raiseSource
  split
  · dsimp only
    rw [startHoldoff_hitOf, State.hitOf_hit_other _ _ hc, State.hitOf_hit_other _ _ hp, hu]
  · rfl

/-! ## Recording -/

theorem pushHistory_status (now e : Nat) (x : FaultInst) : (pushHistory now e x).status = x.status := rfl

theorem recordFault_faults (b i c e : Nat) (s : State) : (recordFault b i c e s).faults =
    (s.updFault b i fun x => pushHistory s.cycle e { x with status := x.status ||| 2 ^ (c - 1) }).faults := by
  have h1 : ∀ u : State, u.faults = s.faults → (u.updFault b i fun x => pushHistory s.cycle e
      { x with status := x.status ||| 2 ^ (c - 1) }).faults = (s.updFault b i fun x => pushHistory s.cycle e
      { x with status := x.status ||| 2 ^ (c - 1) }).faults := fun u hu => by simp only [State.updFault, hu]
  unfold recordFault
  dsimp only
  split
  · rw [raiseSource_faults]
    refine h1 _ ?_
    split
    · split <;> simp
    · simp
  · refine h1 _ ?_
    split
    · split <;> simp
    · simp

/-- What recording a fault leaves of its fault registers (R464). -/
theorem recordFault_fault (b i c e : Nat) (s : State) : (recordFault b i c e s).fault b i =
    pushHistory s.cycle e { s.fault b i with status := (s.fault b i).status ||| 2 ^ (c - 1) } :=
  (State.fault_congr (recordFault_faults b i c e s) b i).trans (State.updFault_fault s b i _)

theorem recordFault_fault_other {b i c e x y : Nat} (s : State) (hi : i < 32) (hy : y < 32) (h : ¬(x = b ∧ y = i)) :
    (recordFault b i c e s).fault x y = s.fault x y :=
  (State.fault_congr (recordFault_faults b i c e s) x y).trans (State.updFault_fault_other s _ hi hy h)

theorem recordFault_chip (b i c e : Nat) (s : State) : (recordFault b i c e s).chip = s.chip := by
  unfold recordFault
  dsimp only
  split
  · rw [raiseSource_chip]
    split
    · split <;> simp
    · simp
  · split
    · split <;> simp
    · simp

theorem recordFault_cycle (b i c e : Nat) (s : State) : (recordFault b i c e s).cycle = s.cycle :=
  (recordFault_keeps (m := 0x83000000) (Keeps.refl _ s) (Sub.of (by decide))).same .cycle (by decide)

/-- The enabled source of a recorded fault is raised (R464). -/
theorem recordFault_source {b i c e : Nat} (s : State) (he : bit (s.cfgN (0x8000 + b) 1) (c - 1) = true)
    (hx : srcExists (512 + (b - 1) * 32 + i) = true) :
    ((recordFault b i c e s).source (512 + (b - 1) * 32 + i)).pending = true := by
  unfold recordFault
  dsimp only
  rw [if_pos he, raiseSource_source _ hx]
  rfl

/-- Recording a fault sets no STATUS field's mark. -/
theorem recordFault_hitOf (b i c e x y z : Nat) (s : State) :
    (recordFault b i c e s).hitOf (.faultStatus x y z) = s.hitOf (.faultStatus x y z) := by
  have h1 : (if (s.fault b i).hist.length < 8 then (if (s.fault b i).hist.isEmpty then s.hit (.faultHead b i) 0 else s)
      else s.hit (.faultLost b i) (s.fault b i).lost).hitOf (.faultStatus x y z) = s.hitOf (.faultStatus x y z) := by
    split
    · split
      · exact State.hitOf_hit_other _ _ (by simp)
      · rfl
    · exact State.hitOf_hit_other _ _ (by simp)
  unfold recordFault
  dsimp only
  split
  · rw [raiseSource_hitOf _ (by simp) (by simp)]
    exact h1
  · exact h1

/-! ## Requests for SAFE -/

theorem keepsSafe_eq_false {now reason : Nat} {p : Option (Nat × Nat × Nat)}
    (h : ∀ r y k, p = some (r, y, k) → k = now ∧ reason < r) : keepsSafe now reason p = false := by
  match p with
  | none => rfl
  | some (r, y, k) =>
    obtain ⟨hk, hr⟩ := h r y k rfl
    simp only [keepsSafe, Bool.or_eq_false_iff, decide_eq_false_iff_not]
    omega

/-- A fault asks for SAFE where no request stands that goes first (R468). -/
theorem requestSafe_asks {reason detail : Nat} {s : State} (hm : canEnterSafe s.chip.mode = true)
    (h : ∀ r y k, s.chip.safePending = some (r, y, k) → k = s.cycle ∧ reason < r) : requestSafe reason detail s =
      { s with chip := { s.chip with safePending := some (reason, detail, s.cycle) } } := by
  rw [requestSafe, keepsSafe_eq_false h, if_pos (by simp [hm])]

theorem requestSafe_gives_way {reason detail r y k : Nat} {s : State} (h : s.chip.safePending = some (r, y, k))
    (hk : k < s.cycle ∨ r ≤ reason) : requestSafe reason detail s = s := by
  have hs : keepsSafe s.cycle reason s.chip.safePending = true := by
    rw [h]
    simpa [keepsSafe] using hk
  rw [requestSafe, hs, if_neg (by simp)]

theorem requestSafe_faults (reason detail : Nat) (s : State) : (requestSafe reason detail s).faults = s.faults := by
  unfold requestSafe
  split <;> rfl

theorem requestSafe_intc (reason detail : Nat) (s : State) : (requestSafe reason detail s).intc = s.intc := by
  unfold requestSafe
  split <;> rfl

/-! ## Detections -/

/-- The part of a detection at the fault registers: recorded where its bit was clear, else only marked. -/
def noteFault (b i c detail : Nat) (s : State) : State :=
  if bit (s.fault b i).status (c - 1) then s.hit (.faultStatus b i c) (historyEntry (s.ns 0) c detail + 1)
  else recordFault b i c (historyEntry (s.ns 0) c detail) (s.hit (.faultStatus b i c) 0)

theorem detectFault_eq {b i c detail : Nat} {s : State} (ha : isAlive s.chip.mode = true)
    (hb : blockPresent s.ident b = true) : detectFault b i c detail s =
      if bit (safeOn s b) (c - 1) then requestSafe (b * 256 + c) detail (noteFault b i c detail s)
      else noteFault b i c detail s := by
  unfold detectFault noteFault
  rw [if_pos (by simp [ha, hb])]
  cases bit (s.fault b i).status (c - 1) <;> rfl

theorem noteFault_chip (b i c detail : Nat) (s : State) : (noteFault b i c detail s).chip = s.chip := by
  unfold noteFault
  split
  · simp
  · rw [recordFault_chip]; simp

theorem noteFault_cycle (b i c detail : Nat) (s : State) : (noteFault b i c detail s).cycle = s.cycle := by
  unfold noteFault
  split
  · simp
  · rw [recordFault_cycle]; simp

theorem detectFault_faults {b i c detail : Nat} {s : State} (ha : isAlive s.chip.mode = true)
    (hb : blockPresent s.ident b = true) : (detectFault b i c detail s).faults = (noteFault b i c detail s).faults := by
  rw [detectFault_eq ha hb]
  split
  · exact requestSafe_faults _ _ _
  · rfl

theorem detectFault_intc {b i c detail : Nat} {s : State} (ha : isAlive s.chip.mode = true)
    (hb : blockPresent s.ident b = true) : (detectFault b i c detail s).intc = (noteFault b i c detail s).intc := by
  rw [detectFault_eq ha hb]
  split
  · exact requestSafe_intc _ _ _
  · rfl

theorem noteFault_fault_set {b i c detail : Nat} {s : State} (h : bit (s.fault b i).status (c - 1) = true) :
    (noteFault b i c detail s).fault b i = s.fault b i := by
  rw [noteFault, if_pos h]
  exact State.fault_congr (by simp) b i

theorem noteFault_fault_clear {b i c detail : Nat} {s : State} (h : bit (s.fault b i).status (c - 1) = false) :
    (noteFault b i c detail s).fault b i = pushHistory s.cycle (historyEntry (s.ns 0) c detail)
      { s.fault b i with status := (s.fault b i).status ||| 2 ^ (c - 1) } := by
  have hf : (s.hit (.faultStatus b i c) 0).fault b i = s.fault b i := State.fault_congr (by simp) b i
  rw [noteFault, if_neg (by simp [h]), recordFault_fault, hf]
  simp

theorem noteFault_fault_other {b i c detail x y : Nat} (s : State) (hi : i < 32) (hy : y < 32) (h : ¬(x = b ∧ y = i)) :
    (noteFault b i c detail s).fault x y = s.fault x y := by
  have hf : ∀ n, (s.hit (.faultStatus b i c) n).fault x y = s.fault x y := fun n => State.fault_congr (by simp) x y
  unfold noteFault
  split
  · exact hf _
  · rw [recordFault_fault_other _ hi hy h, hf]

theorem noteFault_bit (b i c detail : Nat) (s : State) :
    bit ((noteFault b i c detail s).fault b i).status (c - 1) = true := by
  cases h : bit (s.fault b i).status (c - 1) with
  | true => rw [noteFault_fault_set h, h]
  | false => rw [noteFault_fault_clear h]; exact bit_or_two_pow_self _ _

end Sys2Proof.Machine
end

section
/-!
PROOF. Faults: the history queue, clears, the registers of one fault unit (R462 to R468, R474 to R477).
-/
namespace Sys2Proof.Machine

/-! ## The history queue -/

theorem insertEntry_perm (e : Nat) (l : List Nat) : (insertEntry e l).Perm (e :: l) := by
  induction l with
  | nil => exact .refl _
  | cons x r ih =>
    unfold insertEntry
    split
    · exact .refl _
    · exact (ih.cons x).trans (.swap e x r)

theorem insertEntry_length (e : Nat) (l : List Nat) : (insertEntry e l).length = l.length + 1 :=
  (insertEntry_perm e l).length_eq

/-- An entry takes its place in a list that stands in code order (R464). -/
theorem insertEntry_ordered (e : Nat) (l : List Nat) (h : (l.map entryCode).Pairwise (· ≤ ·)) :
    ((insertEntry e l).map entryCode).Pairwise (· ≤ ·) := by
  induction l with
  | nil => simp [insertEntry]
  | cons x r ih =>
    rw [List.map_cons, List.pairwise_cons] at h
    obtain ⟨hx, hr⟩ := h
    unfold insertEntry
    split
    · rename_i hlt
      simp only [List.map_cons, List.pairwise_cons, List.forall_mem_cons]
      exact ⟨⟨by omega, fun a ha => by have := hx a ha; omega⟩, hx, hr⟩
    · rename_i hge
      rw [List.map_cons, List.pairwise_cons]
      refine ⟨fun a ha => ?_, ih hr⟩
      obtain ⟨y, hy, rfl⟩ := List.mem_map.1 ha
      rcases List.mem_cons.1 ((insertEntry_perm e r).mem_iff.1 hy) with rfl | hy
      · omega
      · exact hx _ (List.mem_map_of_mem hy)

/-- The entries of a queue that stand from before core cycle `now`. -/
def oldEntries (now : Nat) (x : FaultInst) : Nat :=
  x.hist.length - if x.freshAt = now then min x.fresh x.hist.length else 0

theorem pushHistory_queue (now e : Nat) (x : FaultInst) : (pushHistory now e x).hist =
    (x.hist.take (oldEntries now x) ++ insertEntry e (x.hist.drop (oldEntries now x))).take 8 := rfl

theorem pushed_length (now e : Nat) (x : FaultInst) :
    (x.hist.take (oldEntries now x) ++ insertEntry e (x.hist.drop (oldEntries now x))).length = x.hist.length + 1 := by
  rw [List.length_append, insertEntry_length, List.length_take, List.length_drop]
  unfold oldEntries
  omega

theorem pushHistory_lost (now e : Nat) (x : FaultInst) : (pushHistory now e x).lost =
    if x.hist.length + 1 ≤ 8 then x.lost else min 0xFFFFFFFF (x.lost + 1) := by
  rw [← pushed_length now e x]
  rfl

/-- An entry of a later core cycle goes to the queue's end. -/
theorem pushHistory_hist_later {now : Nat} (e : Nat) {x : FaultInst} (h : x.freshAt ≠ now) :
    (pushHistory now e x).hist = (x.hist ++ [e]).take 8 := by
  have ho : oldEntries now x = x.hist.length := by simp [oldEntries, h]
  rw [pushHistory_queue, ho, List.take_length, List.drop_length]
  rfl

/-- One of the same core cycle goes among that cycle's own. -/
theorem pushHistory_hist_same {now : Nat} (e : Nat) {x : FaultInst} (h : x.freshAt = now) : (pushHistory now e x).hist =
    (x.hist.take (x.hist.length - x.fresh) ++ insertEntry e (x.hist.drop (x.hist.length - x.fresh))).take 8 := by
  have ho : oldEntries now x = x.hist.length - x.fresh := by rw [oldEntries, if_pos h]; omega
  rw [pushHistory_queue, ho]

/-- What one more entry leaves of the queue's registers (R464). -/
theorem pushHistory_spec (now e : Nat) (x y : FaultInst) (hy : y = pushHistory now e x) : y.status = x.status ∧
    (x.hist.length < 8 → y.lost = x.lost ∧ y.hist.length = x.hist.length + 1) ∧
    (8 ≤ x.hist.length → y.lost = min 0xFFFFFFFF (x.lost + 1)) ∧
    (x.freshAt ≠ now → y.hist = (x.hist ++ [e]).take 8) ∧
    (x.freshAt = now → ∀ old, old = x.hist.length - x.fresh →
      y.hist = (x.hist.take old ++ insertEntry e (x.hist.drop old)).take 8) := by
  subst hy
  refine ⟨rfl, fun h => ⟨?_, ?_⟩, fun h => ?_, pushHistory_hist_later e, fun h old ho => ?_⟩
  · rw [pushHistory_lost, if_pos (by omega)]
  · rw [pushHistory_queue, List.length_take, pushed_length]
    omega
  · rw [pushHistory_lost, if_neg (by omega)]
  · rw [pushHistory_hist_same e h, ho]

/-! ## Detections -/

theorem instancePresent_bounds {s : State} {b i : Nat} (h : instancePresent s b i = true) : 1 ≤ b ∧ b ≤ 22 ∧ i < 32 ∧
    i < instanceCount b := by
  simp only [instancePresent, blockPresent, Bool.and_eq_true, decide_eq_true_eq] at h
  obtain ⟨⟨⟨⟨h1, h2⟩, -⟩, h3⟩, -⟩ := h
  have h4 : instanceCount b ≤ 32 := by
    unfold instanceCount
    split
    · decide
    · decide
    · split
      · decide
      · split <;> decide
  omega

section
variable {b i c d : Nat} {s : State} (ha : isAlive s.chip.mode = true) (hb : blockPresent s.ident b = true)
include ha hb

theorem detectFault_source (hi : i < 32) (h : bit (s.fault b i).status (c - 1) = false)
    (he : bit (s.cfgN (0x8000 + b) 1) (c - 1) = true) :
    ((detectFault b i c d s).source (512 + (b - 1) * 32 + i)).pending = true := by
  have hb' : 1 ≤ b ∧ b ≤ 22 := by
    simp only [blockPresent, Bool.and_eq_true, decide_eq_true_eq] at hb
    exact hb.1
  have hcfg : (s.hit (.faultStatus b i c) 0).cfgN (0x8000 + b) 1 = s.cfgN (0x8000 + b) 1 := by simp [State.cfgN]
  rw [State.source, detectFault_intc ha hb, noteFault, if_neg (by simp [h])]
  exact recordFault_source (s.hit (.faultStatus b i c) 0) (by rw [hcfg, he]) (srcExists_high (by omega) (by omega))

theorem detectFault_asksSafe (ho : bit (safeOn s b) (c - 1) = true) (hm : canEnterSafe s.chip.mode = true)
    (hp : ∀ r y k, s.chip.safePending = some (r, y, k) → k = s.cycle ∧ b * 256 + c < r) :
    (detectFault b i c d s).chip.safePending = some (b * 256 + c, d, s.cycle) := by
  rw [detectFault_eq ha hb, if_pos ho, requestSafe_asks]
  · rw [noteFault_cycle]
  · rw [noteFault_chip]; exact hm
  · rw [noteFault_chip, noteFault_cycle]; exact hp

theorem detectFault_givesWay {r y k : Nat} (hp : s.chip.safePending = some (r, y, k)) (hk : k < s.cycle ∨ r ≤ b * 256 + c) :
    (detectFault b i c d s).chip = s.chip := by
  rw [detectFault_eq ha hb]
  split
  · rw [requestSafe_gives_way (r := r) (y := y) (k := k), noteFault_chip]
    · rw [noteFault_chip]; exact hp
    · rw [noteFault_cycle]; exact hk
  · exact noteFault_chip b i c d s

theorem detectFault_noSafe (ho : bit (safeOn s b) (c - 1) = false) : (detectFault b i c d s).chip = s.chip := by
  rw [detectFault_eq ha hb, if_neg (by simp [ho]), noteFault_chip]

theorem detectFault_fault (x y : Nat) : (detectFault b i c d s).fault x y = (noteFault b i c d s).fault x y :=
  State.fault_congr (detectFault_faults ha hb) x y

end

/-! ## CLEAR -/

/-- The entry CLEAR of FAULT_GLOBAL. -/
def clearEntry : EntrySpec := Cat.wo 5 Cat.u32 .any

/-- The entries of FAULT_GLOBAL. -/
def faultGlobalObject : ObjSpec :=
  { entries := [Cat.ro 1 Cat.u16, Cat.ro 2 Cat.u32, Cat.ro 3 Cat.u64, Cat.ro 4 Cat.u64, clearEntry] }

theorem clear_command (id : Ident) : CommandEntry id 0x8000 5 faultGlobalObject clearEntry :=
  ⟨rfl, rfl, rfl, rfl, rfl, rfl, rfl, fun _ => rfl, by decide⟩

theorem clearAction_eq {b i a : Nat} (hi : i < 256) (h1 : 1 ≤ a) (h3 : a ≤ 3) (s : State) :
    clearAction (b * 65536 + i * 256 + a) s =
    if b = 0 ∨ 22 < b ∨ instanceCount b ≤ i then (aOutOfRange, s)
    else if !instancePresent s b i then (aAbsentUnit, s) else (aOk, clearFault b i a s) := by
  have e1 : (b * 65536 + i * 256 + a) / 65536 = b := by omega
  have e2 : (b * 65536 + i * 256 + a) / 256 % 256 = i := by omega
  have e3 : (b * 65536 + i * 256 + a) % 256 = a := by omega
  have e4 : (b = 0 ∨ 22 < b ∨ instanceCount b ≤ i ∨ a = 0 ∨ 3 < a) ↔ (b = 0 ∨ 22 < b ∨ instanceCount b ≤ i) := by omega
  simp only [clearAction, e1, e2, e3, e4]

section
variable {r : Requester} {b i a : Nat} {s0 s : State} (hs : s = engineTurn r.path s0) (hr : MayWrite r s)
  (hb : b < 65536) (hi : i < 256) (h1 : 1 ≤ a) (h3 : a ≤ 3)
include hs hr hb hi h1 h3

/-- A CLEAR is `clearAction`, whose word names block, index and action. -/
theorem answerClear_acts : answerClear r b i a s0 =
    (clearAction (b * 65536 + i * 256 + a) s).2.emit (.answer r (clearAction (b * 65536 + i * 256 + a) s).1 none) := by
  have hv : clearEntry.ty.encodes (.num (b * 65536 + i * 256 + a)) = true :=
    decide_eq_true (show b * 65536 + i * 256 + a < 2 ^ 32 by omega)
  rw [answerClear, if_pos ⟨hb, hi⟩, answerWrite_command (clear_command s.ident) hr hs rfl (by simp [claimRefuses]) hv rfl]
  rfl

theorem answerClear_outOfRange (h : b = 0 ∨ 22 < b ∨ instanceCount b ≤ i) :
    answerClear r b i a s0 = s.emit (.answer r 7 none) := by
  rw [answerClear_acts hs hr hb hi h1 h3, clearAction_eq hi h1 h3, if_pos h]
  rfl

theorem answerClear_absent (hb1 : 1 ≤ b) (hb2 : b ≤ 22) (hn : i < instanceCount b) (hp : instancePresent s b i = false) :
    answerClear r b i a s0 = s.emit (.answer r 11 none) := by
  rw [answerClear_acts hs hr hb hi h1 h3, clearAction_eq hi h1 h3, if_neg (by omega), hp]
  rfl

/-- A CLEAR of registers that do not exist or are absent is refused. -/
theorem exec_clear_refused {c : Instr} (hx : exec c s0 = .next (answerClear r b i a s0)) :
    (b = 0 ∨ 22 < b ∨ instanceCount b ≤ i → exec c s0 = .next (s.emit (.answer r 7 none))) ∧
    (1 ≤ b → b ≤ 22 → i < instanceCount b → instancePresent s b i = false →
      exec c s0 = .next (s.emit (.answer r 11 none))) := by
  rw [hx]
  exact ⟨fun h => congrArg _ (answerClear_outOfRange hs hr hb hi h1 h3 h),
    fun hb1 hb2 hn hp => congrArg _ (answerClear_absent hs hr hb hi h1 h3 hb1 hb2 hn hp)⟩

theorem answerClear_clears (hp : instancePresent s b i = true) :
    answerClear r b i a s0 = (clearFault b i a s).emit (.answer r 0 none) := by
  obtain ⟨hb1, hb2, -, hn⟩ := instancePresent_bounds hp
  rw [answerClear_acts hs hr hb hi h1 h3, clearAction_eq hi h1 h3, if_neg (by omega), hp]
  rfl

end

/-! ## Writes of ones to STATUS (R464, R477) -/

theorem clearFaultBit_noHit {b i c : Nat} {s : State} (h : s.hitOf (.faultStatus b i c) = none) : clearFaultBit b i c s =
    s.updFault b i fun x => { x with status := x.status - (x.status &&& 2 ^ (c - 1)) } := by
  rw [clearFaultBit, h]

/-- Clearing a bit leaves the others. -/
theorem clearFaultBit_bit_other {b i k j : Nat} (h : k ≠ j) (s : State) :
    bit ((clearFaultBit b i (k + 1) s).fault b i).status j = bit (s.fault b i).status j := by
  unfold clearFaultBit
  split
  · rfl
  · rw [recordFault_fault, pushHistory_status, Nat.add_sub_cancel]
    exact bit_or_two_pow_other _ h
  · rw [State.updFault_fault, Nat.add_sub_cancel]
    exact bit_clear_other _ h

/-- A bit that a fault of this core cycle has set stays set. -/
theorem clearFaultBit_bit_marked {b i k : Nat} {s : State} (h : (s.hitOf (.faultStatus b i (k + 1))).isSome = true)
    (hb : bit (s.fault b i).status k = true) : bit ((clearFaultBit b i (k + 1) s).fault b i).status k = true := by
  unfold clearFaultBit
  split
  · exact hb
  · rw [recordFault_fault, pushHistory_status, Nat.add_sub_cancel]
    exact bit_or_two_pow_self _ _
  · rename_i hn
    simp [hn] at h

/-- Another bit is cleared. -/
theorem clearFaultBit_bit_unmarked {b i k : Nat} {s : State} (h : s.hitOf (.faultStatus b i (k + 1)) = none) :
    bit ((clearFaultBit b i (k + 1) s).fault b i).status k = false := by
  rw [clearFaultBit_noHit h, State.updFault_fault, Nat.add_sub_cancel]
  exact bit_clear_self _ _

/-- Clearing a bit neither sets nor removes the mark that a fault of this core cycle has set a bit. -/
theorem clearFaultBit_marked (b i c z : Nat) (s : State) : ((clearFaultBit b i c s).hitOf (.faultStatus b i z)).isSome =
    (s.hitOf (.faultStatus b i z)).isSome := by
  unfold clearFaultBit
  split
  · rfl
  · rw [recordFault_hitOf]
    by_cases hz : c = z
    · subst hz; exact State.hitOf_rehit_self _ _
    · rw [State.hitOf_rehit_other _ (by simp [hz])]
  · exact congrArg Option.isSome (State.hitOf_congr (s := s) rfl rfl _)

/-- One bit of a written word. -/
def clearWritten (b i v : Nat) (s : State) (k : Nat) : State := if bit v k then clearFaultBit b i (k + 1) s else s

/-- The word written to a STATUS register. -/
def clearWord (b i v : Nat) (s : State) : State := (upTo 17).foldl (clearWritten b i v) s

theorem clearWritten_marked (b i v z : Nat) (s : State) (k : Nat) :
    ((clearWritten b i v s k).hitOf (.faultStatus b i z)).isSome = (s.hitOf (.faultStatus b i z)).isSome := by
  unfold clearWritten
  split
  · exact clearFaultBit_marked b i (k + 1) z s
  · rfl

/-- A bit that is not written stays. -/
theorem clearWritten_bit_unwritten {b i v j : Nat} (h : bit v j = false) (s : State) (k : Nat) :
    bit ((clearWritten b i v s k).fault b i).status j = bit (s.fault b i).status j := by
  unfold clearWritten
  split
  · rename_i hk
    exact clearFaultBit_bit_other (fun e => by simp [e, h] at hk) s
  · rfl

/-- A bit that a fault of this core cycle has set stays. -/
theorem clearWritten_bit_marked {b i v j : Nat} {s : State} (h : (s.hitOf (.faultStatus b i (j + 1))).isSome = true)
    (hb : bit (s.fault b i).status j = true) (k : Nat) : bit ((clearWritten b i v s k).fault b i).status j = true := by
  unfold clearWritten
  split
  · by_cases hkj : k = j
    · subst hkj; exact clearFaultBit_bit_marked h hb
    · rw [clearFaultBit_bit_other hkj, hb]
  · exact hb

/-- Another bit is clear once it is written, and stays clear. -/
theorem clearWritten_bit_unmarked {b i v j : Nat} {s : State} (h : s.hitOf (.faultStatus b i (j + 1)) = none)
    (hv : bit v j = true) (k : Nat) (hb : k = j ∨ bit (s.fault b i).status j = false) :
    bit ((clearWritten b i v s k).fault b i).status j = false := by
  unfold clearWritten
  by_cases hkj : k = j
  · subst hkj
    rw [if_pos hv, clearFaultBit_bit_unmarked h]
  · have hs := hb.resolve_left hkj
    split
    · rw [clearFaultBit_bit_other hkj, hs]
    · exact hs

section
variable (b i v : Nat) (s : State)

theorem clearWord_unwritten {j : Nat} (h : bit v j = false) :
    bit ((clearWord b i v s).fault b i).status j = bit (s.fault b i).status j :=
  foldl_same (fun t => bit (t.fault b i).status j) (clearWritten_bit_unwritten h) _ s

theorem clearWord_marked {j : Nat} (h : (s.hitOf (.faultStatus b i (j + 1))).isSome = true)
    (hb : bit (s.fault b i).status j = true) : bit ((clearWord b i v s).fault b i).status j = true :=
  (List.foldlRecOn (motive := fun t => (t.hitOf (.faultStatus b i (j + 1))).isSome = true ∧
    bit (t.fault b i).status j = true) (upTo 17) (clearWritten b i v) ⟨h, hb⟩ fun t ht k _ =>
      ⟨(clearWritten_marked b i v _ t k).trans ht.1, clearWritten_bit_marked ht.1 ht.2 k⟩).2

theorem clearWritten_foldl_unmarked {j : Nat} (hv : bit v j = true) (l : List Nat) (s : State)
    (h : s.hitOf (.faultStatus b i (j + 1)) = none) (hl : j ∈ l ∨ bit (s.fault b i).status j = false) :
    bit ((l.foldl (clearWritten b i v) s).fault b i).status j = false := by
  induction l generalizing s with
  | nil => exact hl.resolve_left List.not_mem_nil
  | cons k r ih =>
    have hn : (clearWritten b i v s k).hitOf (.faultStatus b i (j + 1)) = none := by
      rw [← Option.isNone_iff_eq_none, ← Option.not_isSome, clearWritten_marked, h]
      rfl
    refine ih (clearWritten b i v s k) hn ?_
    rcases hl with hm | hb
    · rcases List.mem_cons.1 hm with rfl | hr
      · exact .inr (clearWritten_bit_unmarked h hv j (.inl rfl))
      · exact .inl hr
    · exact .inr (clearWritten_bit_unmarked h hv k (.inr hb))

theorem clearWord_unmarked {j : Nat} (hj : j < 17) (hv : bit v j = true) (h : s.hitOf (.faultStatus b i (j + 1)) = none) :
    bit ((clearWord b i v s).fault b i).status j = false :=
  clearWritten_foldl_unmarked b i v hv (upTo 17) s h (.inl (List.mem_range.2 hj))

/-- With no fault of this core cycle among the written bits the history stays. -/
theorem clearWord_history (h : ∀ k, k < 17 → bit v k = true → s.hitOf (.faultStatus b i (k + 1)) = none) :
    ((clearWord b i v s).fault b i).hist = (s.fault b i).hist ∧ ((clearWord b i v s).fault b i).lost = (s.fault b i).lost := by
  refine (List.foldlRecOn (motive := fun t => (∀ k, k < 17 → bit v k = true → t.hitOf (.faultStatus b i (k + 1)) = none) ∧
    (t.fault b i).hist = (s.fault b i).hist ∧ (t.fault b i).lost = (s.fault b i).lost) (upTo 17) (clearWritten b i v)
    ⟨h, rfl, rfl⟩ fun t ht k hk => ?_).2
  obtain ⟨hn, hh, hl⟩ := ht
  unfold clearWritten
  split
  · rename_i hv
    rw [clearFaultBit_noHit (hn k (List.mem_range.1 hk) hv), State.updFault_fault]
    exact ⟨hn, hh, hl⟩
  · exact ⟨hn, hh, hl⟩

end

/-- A write to a STATUS register clears the bits of its word. -/
theorem statusWrite_eq {b i v : Nat} {s : State} (hf : s.barReach 0 = true) (hp : instancePresent s b i = true)
    (hv : v < 2 ^ 32) : effRegisterWrite 0 (0x071000 + (b - 1) * 0x400 + i * 0x20) v 4 s = clearWord b i v s := by
  obtain ⟨h1, h2, h3, -⟩ := instancePresent_bounds hp
  have ho : (0x071000 + (b - 1) * 0x400 + i * 0x20) % 0x10000 = 0x1000 + (b - 1) * 0x400 + i * 0x20 := by omega
  have hb : (0x1000 + (b - 1) * 0x400 + i * 0x20 - 0x1000) / 0x400 + 1 = b := by omega
  have hi : (0x1000 + (b - 1) * 0x400 + i * 0x20 - 0x1000) % 0x400 / 0x20 = i := by omega
  rw [effRegisterWrite_word hf (by omega) (by omega), Nat.mod_eq_of_lt hv, bar0Write_health (by omega), ho, healthRegWrite,
    if_neg (by decide), if_neg (by omega), if_pos (by omega)]
  dsimp only
  rw [hb, hi, if_pos hp]
  rfl

/-! ## Reads that remove (R477) -/

section
variable {f b i : Nat} {s : State} (hf : s.barReach f = true)
include hf

theorem effHistHiRead_absent (hp : instancePresent s b i = false) :
    effHistHiRead f b i s = s.emit (.reg f (0x071000 + (b - 1) * 0x400 + i * 0x20 + 0x0C) 0) := by
  rw [effHistHiRead, if_pos hf, hp]
  rfl

theorem effFaultLostRead_absent (hp : instancePresent s b i = false) :
    effFaultLostRead f b i s = s.emit (.reg f (0x071000 + (b - 1) * 0x400 + i * 0x20 + 0x10) 0) := by
  rw [effFaultLostRead, if_pos hf, hp]
  rfl

variable (hp : instancePresent s b i = true)
include hp

theorem effHistHiRead_fresh (h : (s.hitOf (.faultHead b i)).isSome = true) :
    effHistHiRead f b i s = s.emit (.reg f (0x071000 + (b - 1) * 0x400 + i * 0x20 + 0x0C) 0) := by
  rw [effHistHiRead, if_pos hf, hp, h]
  rfl

theorem effHistHiRead_takes (h : s.hitOf (.faultHead b i) = none) : effHistHiRead f b i s =
    (s.updFault b i fun x => { x with hist := x.hist.drop 1 }).emit
      (.reg f (0x071000 + (b - 1) * 0x400 + i * 0x20 + 0x0C) ((s.fault b i).hist.headD 0 / 2 ^ 32)) := by
  rw [effHistHiRead, if_pos hf, hp, h]
  rfl

theorem effFaultLostRead_takes : effFaultLostRead f b i s =
    ((s.updFault b i fun x => { x with lost := s.rcLeft (.faultLost b i) (s.fault b i).lost }).rehit (.faultLost b i)).emit
      (.reg f (0x071000 + (b - 1) * 0x400 + i * 0x20 + 0x10) (s.rcValue (.faultLost b i) (s.fault b i).lost)) := by
  rw [effFaultLostRead, if_pos hf, hp]
  rfl

end

theorem State.rcLeft_noHit {s : State} {c : Sticky} {n : Nat} (h : s.hitOf c = none) : s.rcLeft c n = 0 := by
  rw [State.rcLeft, h]

theorem State.rcLeft_hit {s : State} {c : Sticky} {n was : Nat} (h : s.hitOf c = some was) : s.rcLeft c n = n - was := by
  rw [State.rcLeft, h]

theorem State.fault_of_updFault {s t : State} {b i : Nat} {g : FaultInst → FaultInst}
    (h : t.faults = (s.updFault b i g).faults) : t.fault b i = g (s.fault b i) :=
  (State.fault_congr h b i).trans (State.updFault_fault s b i g)

theorem State.fault_of_updFault_other {s t : State} {b i : Nat} {g : FaultInst → FaultInst}
    (h : t.faults = (s.updFault b i g).faults) (hi : i < 32) :
    ∀ x y, y < 32 → ¬(x = b ∧ y = i) → t.fault x y = s.fault x y := fun x y hy hne =>
  (State.fault_congr h x y).trans (State.updFault_fault_other s g hi hy hne)

section
variable {f b i o : Nat} (hi : i < 32) (s : State)
include hi

/-- What a read of the history leaves: the oldest entry is gone. -/
theorem histHiRead_takes {t : State} (ht : t = (s.updFault b i fun x => { x with hist := x.hist.drop 1 }).emit
      (.reg f o ((s.fault b i).hist.headD 0 / 2 ^ 32))) :
    (∀ e rest, (s.fault b i).hist = e :: rest →
      t.out = .reg f o (e / 2 ^ 32) :: s.out ∧ t.fault b i = { s.fault b i with hist := rest }) ∧
    ((s.fault b i).hist = [] → t.out = .reg f o 0 :: s.out ∧ t.fault b i = s.fault b i) ∧
    (∀ x y, y < 32 → ¬(x = b ∧ y = i) → t.fault x y = s.fault x y) ∧ Only [.out, .faults] s t := by
  have hft : t.faults = (s.updFault b i fun x => { x with hist := x.hist.drop 1 }).faults := by rw [ht]; rfl
  have hb : t.fault b i = { s.fault b i with hist := (s.fault b i).hist.drop 1 } := State.fault_of_updFault hft
  have hd : ∀ x : FaultInst, x.hist.length ≤ 8 → (x.hist.drop 1).length ≤ 8 := fun x hx => by
    rw [List.length_drop]; omega
  have ho := State.fault_of_updFault_other hft hi
  subst ht
  refine ⟨fun e rest h => ⟨by rw [h]; rfl, by rw [hb, h]; rfl⟩, fun h => ⟨by rw [h]; rfl, ?_⟩,
    ho, ?_⟩
  · rw [hb, h]
    cases hx : s.fault b i
    simp_all
  · exact (State.emit_keeps (m := maskOf [.out, .faults])
      (State.updFault_keeps (Keeps.refl _ s) (Sub.of (by decide)) hd) (Sub.of (by decide))).only

/-- What a read of LOST leaves: what no event of this core cycle has written is gone. -/
theorem faultLostRead_takes {t : State} (ht : t = ((s.updFault b i fun x =>
      { x with lost := s.rcLeft (.faultLost b i) (s.fault b i).lost }).rehit (.faultLost b i)).emit
      (.reg f o (s.rcValue (.faultLost b i) (s.fault b i).lost))) :
    (s.hitOf (.faultLost b i) = none →
      t.out = .reg f o (s.fault b i).lost :: s.out ∧ t.fault b i = { s.fault b i with lost := 0 }) ∧
    (∀ was, s.hitOf (.faultLost b i) = some was →
      t.out = .reg f o was :: s.out ∧ t.fault b i = { s.fault b i with lost := (s.fault b i).lost - was }) ∧
    (∀ x y, y < 32 → ¬(x = b ∧ y = i) → t.fault x y = s.fault x y) ∧ Only [.out, .faults, .hits] s t := by
  have hft : t.faults = (s.updFault b i fun x => { x with lost := s.rcLeft (.faultLost b i) (s.fault b i).lost }).faults := by
    rw [ht]; rfl
  have hb : t.fault b i = { s.fault b i with lost := s.rcLeft (.faultLost b i) (s.fault b i).lost } :=
    State.fault_of_updFault hft
  have ho := State.fault_of_updFault_other hft hi
  have hd : ∀ (n : Nat) (x : FaultInst), x.hist.length ≤ 8 → ({ x with lost := n } : FaultInst).hist.length ≤ 8 :=
    fun _ _ hx => hx
  subst ht
  refine ⟨fun h => ⟨?_, ?_⟩, fun was h => ⟨?_, ?_⟩, ho, ?_⟩
  · rw [State.rcValue, h]; rfl
  · rw [hb, State.rcLeft_noHit h]
  · rw [State.rcValue, h]; rfl
  · rw [hb, State.rcLeft_hit h]
  · exact (State.emit_keeps (m := maskOf [.out, .faults, .hits]) (State.rehit_keeps
      (State.updFault_keeps (Keeps.refl _ s) (Sub.of (by decide)) (hd _)) (Sub.of (by decide)))
      (Sub.of (by decide))).only

end

/-! ## The scrub of the fault registers (R467) -/

section
variable {b i : Nat} {s : State} (hi : i < 32)
include hi

theorem scrub_absent (hp : instancePresent s b i = false) : effFaultRegisterScrub (some (b * 32 + i)) s = s := by
  have h1 : (b * 32 + i) / 32 = b := by omega
  have h2 : (b * 32 + i) % 32 = i := by omega
  rw [effFaultRegisterScrub, h1, h2, if_neg (by simp [hp])]

/-- A parity error of present fault registers asks for SAFE with code 0xFF. -/
theorem scrub_present (hp : instancePresent s b i = true) (hm : canEnterSafe s.chip.mode = true)
    (h : ∀ r y k, s.chip.safePending = some (r, y, k) → k = s.cycle ∧ b * 256 + 0xFF < r) :
    effFaultRegisterScrub (some (b * 32 + i)) s =
      { s with chip := { s.chip with safePending := some (b * 256 + 0xFF, i, s.cycle) } } := by
  have h1 : (b * 32 + i) / 32 = b := by omega
  have h2 : (b * 32 + i) % 32 = i := by omega
  have ha : isAlive s.chip.mode = true := by
    generalize s.chip.mode = m at hm
    revert hm
    cases m <;> decide
  have hb : blockPresent s.ident b = true := by
    simp only [instancePresent, Bool.and_eq_true] at hp
    exact hp.1.1
  rw [effFaultRegisterScrub, h1, h2, if_pos hp, detectMachinery, if_pos (by simp [ha, hb]), requestSafe_asks hm h]

end

/-- Settles O56: detections by way of `noteFault`, the queue, CLEAR, the bits of a written word, the reads, the scrub. -/
theorem faultsRecorded : Obligations.FaultsRecorded := by
  unfold Obligations.FaultsRecorded
  refine ⟨fun b i c d s ha hb hi hc => ?_, pushHistory_spec, fun e l => ⟨insertEntry_perm e l, insertEntry_ordered e l⟩,
    fun r b i s0 s hs hacc hr hb hi hm => ?_, fun b i v s hf hp hv => ?_, fun f b i s hf => ?_, fun b i s => ?_⟩
  · refine ⟨?_, fun x y hy hne => ?_, fun h => ?_, fun h => ?_, detectFault_source ha hb hi, detectFault_asksSafe ha hb,
      fun r y k => detectFault_givesWay ha hb, detectFault_noSafe ha hb⟩
    · rw [detectFault_fault ha hb]; exact noteFault_bit b i c d s
    · rw [detectFault_fault ha hb]; exact noteFault_fault_other s hi hy hne
    · rw [detectFault_fault ha hb]; exact noteFault_fault_set h
    · rw [detectFault_fault ha hb]; exact noteFault_fault_clear h
  · have hw : MayWrite r s := ⟨hacc, hr, hm⟩
    refine ⟨?_, fun hp => ⟨?_, ?_, ?_⟩⟩
    · simp only [List.forall_mem_cons]
      exact ⟨exec_clear_refused hs hw hb hi (a := 1) (by decide) (by decide) rfl,
        exec_clear_refused hs hw hb hi (a := 2) (by decide) (by decide) rfl,
        exec_clear_refused hs hw hb hi (a := 3) (by decide) (by decide) rfl, nofun⟩
    · exact congrArg Host.Outcome.next (answerClear_clears (a := 1) hs hw hb hi (by decide) (by decide) hp)
    · exact congrArg Host.Outcome.next (answerClear_clears (a := 2) hs hw hb hi (by decide) (by decide) hp)
    · exact congrArg Host.Outcome.next (answerClear_clears (a := 3) hs hw hb hi (by decide) (by decide) hp)
  · refine ⟨_, congrArg Host.Outcome.next (statusWrite_eq hf hp hv), fun c h1 h2 => ?_⟩
    obtain ⟨j, rfl⟩ : ∃ j, c = j + 1 := ⟨c - 1, by omega⟩
    exact ⟨clearWord_unwritten b i v s, clearWord_marked b i v s, clearWord_unmarked b i v s (by omega),
      clearWord_history b i v s⟩
  · refine ⟨fun hp => ⟨congrArg _ (effHistHiRead_absent hf hp), congrArg _ (effFaultLostRead_absent hf hp)⟩, fun hp => ?_⟩
    obtain ⟨-, -, hi, -⟩ := instancePresent_bounds hp
    refine ⟨fun h => congrArg _ (effHistHiRead_fresh hf hp h),
      fun h => ⟨_, congrArg Host.Outcome.next (effHistHiRead_takes hf hp h), ?_⟩,
      _, congrArg Host.Outcome.next (effFaultLostRead_takes hf hp), ?_⟩
    · exact histHiRead_takes hi s rfl
    · exact faultLostRead_takes hi s rfl
  · refine ⟨rfl, fun hi hp => ?_, fun hi hp hm hs => ?_⟩
    · exact congrArg Host.Outcome.next (scrub_absent hi hp)
    · exact congrArg Host.Outcome.next (scrub_present hi hp hm hs)

end Sys2Proof.Machine
end

section
/-!
PROOF. The consumers of a domain's step (R243, R248, R250, R253, R290): what none of them touches.
-/
namespace Sys2Proof.Machine

/-- What the consumers of a step of domain d leave: the domains' values and steps, the domain's step counter, and the
pulses that wait. -/
structure StepFrame (d : Nat) (s t : State) : Prop where
  value : ∀ e, (t.dom e).value = (s.dom e).value
  step : ∀ e, (t.dom e).step = (s.dom e).step
  steps : ∀ e, (t.dom e).steps = (s.dom e).steps
  counted : t.counter (domObj d) 0x20 0 = s.counter (domObj d) 0x20 0
  pulses : s.intc.pulses ⊆ t.intc.pulses

namespace StepFrame

variable {d : Nat} {s t u : State}

theorem refl (d : Nat) (s : State) : StepFrame d s s := ⟨fun _ => rfl, fun _ => rfl, fun _ => rfl, rfl, fun _ h => h⟩

theorem trans (h : StepFrame d s t) (k : StepFrame d t u) : StepFrame d s u :=
  ⟨fun e => (k.value e).trans (h.value e), fun e => (k.step e).trans (h.step e), fun e => (k.steps e).trans (h.steps e),
    k.counted.trans h.counted, fun _ hp => k.pulses (h.pulses hp)⟩

theorem of_same_time (ht : t.time = s.time) (hc : t.counter (domObj d) 0x20 0 = s.counter (domObj d) 0x20 0)
    (hp : s.intc.pulses ⊆ t.intc.pulses) : StepFrame d s t := by
  have hd : ∀ e, t.dom e = s.dom e := fun e => by rw [State.dom, ht, State.dom]
  exact ⟨fun e => by rw [hd], fun e => by rw [hd], fun e => by rw [hd], hc, hp⟩

theorem of_same (ht : t.time = s.time) (hc : t.cnt = s.cnt) (hi : t.intc = s.intc) : StepFrame d s t :=
  of_same_time ht (by rw [State.counter, hc, State.counter]) fun _ h => by rwa [hi]

/-- A change outside the time unit, the counters and the interrupt controller. -/
theorem of_keeps {m : Nat} (h : Keeps m s t) (ht : m.testBit 21 = false) (hc : m.testBit 9 = false)
    (hi : m.testBit 24 = false) : StepFrame d s t := of_same (h.same .time ht) (h.same .cnt hc) (h.same .intc hi)

theorem ite (c : Prop) [Decidable c] (ht : c → StepFrame d s t) (hu : ¬c → StepFrame d s u) :
    StepFrame d s (if c then t else u) := by
  split
  · exact ht ‹_›
  · exact hu ‹_›

theorem foldl {α : Type} {f : State → α → State} (h : StepFrame d s t) (hf : ∀ u x, StepFrame d u (f u x)) (l : List α) :
    StepFrame d s (l.foldl f t) := by
  induction l generalizing t with
  | nil => exact h
  | cons x r ih => exact ih (h.trans (hf t x))

end StepFrame

/-! ## Pulses and faults -/

theorem recordFault_pulses (b i c e : Nat) (s : State) : (recordFault b i c e s).intc.pulses = s.intc.pulses := by
  have h1 : (if (s.fault b i).hist.length < 8 then (if (s.fault b i).hist.isEmpty then s.hit (.faultHead b i) 0 else s)
      else s.hit (.faultLost b i) (s.fault b i).lost).intc = s.intc := by
    split
    · split <;> simp
    · simp
  unfold recordFault
  dsimp only
  split
  · rw [raiseSource_pulses]
    exact congrArg Intc.pulses h1
  · exact congrArg Intc.pulses h1

theorem noteFault_pulses (b i c detail : Nat) (s : State) : (noteFault b i c detail s).intc.pulses = s.intc.pulses := by
  unfold noteFault
  split
  · simp
  · rw [recordFault_pulses]; simp

theorem detectFault_pulses (b i c detail : Nat) (s : State) : (detectFault b i c detail s).intc.pulses = s.intc.pulses := by
  by_cases h : isAlive s.chip.mode = true ∧ blockPresent s.ident b = true
  · rw [detectFault_intc h.1 h.2, noteFault_pulses]
  · rw [detectFault, if_neg (by simpa using h)]

theorem pulse_time (l : Nat) (s : State) : (pulse l s).time = s.time := by
  unfold pulse
  split <;> rfl

section
variable {d : Nat} {s t : State} (h : StepFrame d s t)
include h

theorem stepFrame_detectFault (b i c detail : Nat) : StepFrame d s (detectFault b i c detail t) := by
  have hk : Keeps 0xc3000000 t (detectFault b i c detail t) := detectFault_keeps (Keeps.refl _ t) (Sub.of (by decide))
  refine h.trans (.of_same_time (hk.same .time (by decide)) ?_ ?_)
  · rw [State.counter, hk.same .cnt (by decide), State.counter]
  · rw [detectFault_pulses]; exact fun _ hp => hp

/-! ## The operations of the state -/

/-- A counter of a later entry. -/
theorem stepFrame_bumpBy {idx sub : Nat} (key n : Nat) (hi : domObj d * 256 + 0x20 < idx * 256 + sub) :
    StepFrame d s (t.bumpBy idx sub key n) := by
  refine h.trans (.of_same_time rfl (State.counter_bumpBy_other t n ?_) fun _ hp => hp)
  unfold cntKey
  omega

theorem stepFrame_bump {idx sub : Nat} (hi : domObj d * 256 + 0x20 < idx * 256 + sub) : StepFrame d s (t.bump idx sub) :=
  stepFrame_bumpBy h 0 1 hi

theorem stepFrame_hit (c : Sticky) (n : Nat) : StepFrame d s (t.hit c n) := h.trans (.of_same (by simp) (by simp) (by simp))

theorem stepFrame_updTrig (n : Nat) (f : Trigger → Trigger) : StepFrame d s (t.updTrig n f) := h.trans (.of_same rfl rfl rfl)

theorem stepFrame_updHerd (f : Herd → Herd) : StepFrame d s (t.updHerd f) := h.trans (.of_same rfl rfl rfl)

theorem stepFrame_updGate (p : Nat) (f : Gate → Gate) : StepFrame d s (t.updGate p f) := h.trans (.of_same rfl rfl rfl)

theorem stepFrame_updPort (p : Nat) (f : Port → Port) : StepFrame d s (t.updPort p f) := h.trans (.of_same rfl rfl rfl)

theorem stepFrame_updPps (k : Nat) (f : PpsOut → PpsOut) : StepFrame d s (t.updPps k f) :=
  h.trans ⟨fun _ => rfl, fun _ => rfl, fun _ => rfl, rfl, fun _ hp => hp⟩

theorem stepFrame_updDom (e : Nat) {f : Domain → Domain} (hv : ∀ x, (f x).value = x.value) (hs : ∀ x, (f x).step = x.step)
    (hn : ∀ x, (f x).steps = x.steps) : StepFrame d s (t.updDom e f) := by
  by_cases hl : e < t.time.domains.length
  · have hd : ∀ i, (t.updDom e f).dom i = t.dom i ∨ (t.updDom e f).dom i = f (t.dom i) := fun i => by
      by_cases hi : e = i
      · subst hi; exact .inr (State.updDom_dom t e f hl)
      · exact .inl (State.updDom_dom_other t f hi)
    refine h.trans ⟨fun i => ?_, fun i => ?_, fun i => ?_, rfl, fun _ hp => hp⟩
    · rcases hd i with h | h <;> rw [h]; exact hv _
    · rcases hd i with h | h <;> rw [h]; exact hs _
    · rcases hd i with h | h <;> rw [h]; exact hn _
  · have hf : updAt t.time.domains e f = t.time.domains := List.modify_eq_self (by omega)
    have hs' : t.updDom e f = t := by
      show ({ t with time := { t.time with domains := updAt t.time.domains e f } } : State) = t
      rw [hf]
    rw [hs']
    exact h

theorem stepFrame_recordRef (p disp : Nat) (close : Int) (r : Ref) : StepFrame d s (recordRef p disp close t r) :=
  h.trans (.of_keeps (m := 0x40000) (recordRef_keeps (Keeps.refl _ t) (Sub.of (by decide))) (by decide) (by decide) (by decide))

theorem stepFrame_unlinkRef (p tc : Nat) (r : Ref) : StepFrame d s (unlinkRef p tc r t) :=
  h.trans (.of_keeps (m := 0x400) (unlinkRef_keeps (Keeps.refl _ t) (Sub.of (by decide))) (by decide) (by decide) (by decide))

theorem stepFrame_emptyQueue (p tc : Nat) : StepFrame d s (emptyQueue p tc t) :=
  h.trans (.of_keeps (m := 0x400) (emptyQueue_keeps (Keeps.refl _ t) (Sub.of (by decide))) (by decide) (by decide) (by decide))

theorem stepFrame_requestPages (p : Nat) (l : GList) (anchor : Nat) (pages : List Nat) :
    StepFrame d s (requestPages p l anchor pages t) :=
  h.trans (.of_keeps (m := 0x14000) (requestPages_keeps (Keeps.refl _ t) (Sub.of (by decide))) (by decide) (by decide)
    (by decide))

theorem stepFrame_dropPaging (p : Nat) : StepFrame d s (dropPaging p t) :=
  h.trans (.of_keeps (m := 0x14000) (dropPaging_keeps (Keeps.refl _ t) (Sub.of (by decide))) (by decide) (by decide)
    (by decide))

theorem stepFrame_startPage (p : Nat) (l : GList) (j : Nat) : StepFrame d s (startPage p l j t) :=
  h.trans (.of_keeps (m := 0x14000) (startPage_keeps (Keeps.refl _ t) (Sub.of (by decide))) (by decide) (by decide)
    (by decide))

theorem stepFrame_disturbDigest : StepFrame d s (disturbDigest t) :=
  h.trans (.of_keeps (m := 0x40000) (disturbDigest_keeps (Keeps.refl _ t) (Sub.of (by decide))) (by decide) (by decide)
    (by decide))

theorem stepFrame_refitStop (p : Nat) : StepFrame d s (refitStop p t) :=
  h.trans (.of_keeps (m := 0x800) (refitStop_keeps (Keeps.refl _ t) (Sub.of (by decide))) (by decide) (by decide) (by decide))

theorem stepFrame_holdFragment (p ps : Nat) : StepFrame d s (holdFragment p ps t) :=
  h.trans (.of_keeps (m := 0x800) (holdFragment_keeps (Keeps.refl _ t) (Sub.of (by decide))) (by decide) (by decide)
    (by decide))

theorem stepFrame_closeFragment (p n : Nat) : StepFrame d s (closeFragment p n t) :=
  h.trans (.of_keeps (m := 0x800) (closeFragment_keeps (Keeps.refl _ t) (Sub.of (by decide))) (by decide) (by decide)
    (by decide))

theorem stepFrame_reanchor (p : Nat) (l : GList) : StepFrame d s (reanchor p l t) :=
  h.trans (.of_keeps (m := 0x4000) (reanchor_keeps (Keeps.refl _ t) (Sub.of (by decide))) (by decide) (by decide)
    (by decide))

variable (hd : d < 8)
include hd

theorem stepFrame_pulse (l : Nat) : StepFrame d s (pulse l t) := by
  refine h.trans (.of_same_time (pulse_time l t) (counter_pulse t ?_) (pulses_subset_pulse t l))
  unfold cntKey domObj
  omega

theorem stepFrame_bumpPort (p sub : Nat) : StepFrame d s (t.bumpPort p sub) := by
  have hb : StepFrame d s (t.bump (portCounters p) sub) := stepFrame_bump h (by unfold domObj portCounters; split <;> omega)
  exact .ite _ (fun _ => hb) fun _ => .ite _ (fun _ => hb) fun _ => h

/-! ## Lock, PPS outputs, compares -/

theorem stepFrame_loseLock : StepFrame d s (loseLock d t) := by
  have h0 : StepFrame d s (t.updDom d fun x => { x with good := 0, bad := 0 }) :=
    stepFrame_updDom h d (fun _ => rfl) (fun _ => rfl) fun _ => rfl
  have hlock : ∀ u, StepFrame d s u → StepFrame d s (setLocked d false u) := fun u hu => by
    unfold setLocked
    refine .ite _ (fun _ => hu) fun _ => ?_
    have h2 := stepFrame_bump (idx := domObj d) (sub := 0x23) (stepFrame_hit (stepFrame_updDom
      (f := fun x => { x with lockLost := true }) (stepFrame_pulse (stepFrame_updDom (f := fun x => { x with locked := false })
        hu d (fun _ => rfl) (fun _ => rfl) fun _ => rfl) hd (163 + d)) d (fun _ => rfl) (fun _ => rfl) fun _ => rfl)
      (.domStatus d 10) 0) (by omega)
    rw [if_neg (by simp)]
    exact .ite _ (fun _ => stepFrame_detectFault h2 _ _ _ _) fun _ => h2
  exact hlock _ h0

theorem stepFrame_endCommit (reason detail unit : Nat) : StepFrame d s (endCommit reason detail unit t) := by
  unfold endCommit
  refine stepFrame_pulse ?_ hd _
  exact h.trans (.of_same rfl rfl rfl)

theorem stepFrame_markCommit : StepFrame d s (markCommit d t) :=
  .ite _ (fun _ => stepFrame_endCommit h hd _ _ _) fun _ => h

omit hd in
theorem stepFrame_ppsSkip (k : Nat) : StepFrame d s (ppsSkip d t k) :=
  .ite _ (fun _ => stepFrame_updPps (stepFrame_bumpBy h 0 _ (by omega)) k _) fun _ => h

theorem stepFrame_countTrig (n k : Nat) : StepFrame d s (countTrig n 0x14 k t) := by
  have ho : 0x4100 ≤ trigObj n := by unfold trigObj; split <;> omega
  exact .ite _ (fun _ => stepFrame_bumpBy h 0 k (by unfold domObj; omega)) fun _ =>
    .ite _ (fun _ => h) fun _ => stepFrame_bumpBy h 0 k (by unfold domObj; omega)

theorem stepFrame_trigSkip (n k : Nat) : StepFrame d s (trigSkip n k t) :=
  .ite _ (fun _ => h) fun _ => stepFrame_detectFault
    (stepFrame_countTrig (stepFrame_hit (stepFrame_updTrig h n _) _ _) hd n k) _ _ _ _

theorem stepFrame_armInstant (n j left : Nat) : StepFrame d s (armInstant n j left t) := by
  unfold armInstant
  cases firstAhead t n j 4 with
  | none => exact stepFrame_updTrig (stepFrame_trigSkip h hd n 1) n _
  | some j1 =>
    have hs := stepFrame_trigSkip h hd n (if trigSet t n 8 != 0 then min left (j1 - j) else j1 - j)
    exact .ite _ (fun _ => stepFrame_updTrig hs n _) fun _ => stepFrame_updTrig hs n _

theorem stepFrame_trigStep : StepFrame d s (trigStep d t) :=
  h.foldl (fun u _ => stepFrame_armInstant (.refl d u) hd _ _ _) _

theorem stepFrame_armPoint (k i : Nat) : StepFrame d s (armPoint k i t) := by
  unfold armPoint
  exact stepFrame_updHerd (stepFrame_bumpBy h 0 _ (by unfold domObj; omega)) _

theorem stepFrame_herdStep : StepFrame d s (herdStep d t) :=
  .ite _ (fun _ => stepFrame_updHerd (h.foldl (fun u _ => stepFrame_armPoint (.refl d u) hd _ _) _) _) fun _ => h

theorem stepFrame_stepOverCompares : StepFrame d s (stepOverCompares d t) := by
  have hn : StepFrame d s (if comparesSteppedOver d t = 0 then t else ((t.bumpBy (domObj d) 0x26 0
      (comparesSteppedOver d t)).updDom d fun x => { x with steppedOver := true }).hit (.domStatus d 11) 0) := by
    refine .ite _ (fun _ => h) fun _ => stepFrame_hit (stepFrame_updDom (stepFrame_bumpBy h 0 _ (by omega)) d ?_ ?_ ?_) _ _
    all_goals exact fun _ => rfl
  exact stepFrame_herdStep (stepFrame_trigStep (stepFrame_markCommit hn hd) hd) hd

/-- A forward step on the PPS outputs and the compares. -/
theorem stepFrame_stepForward : StepFrame d s (stepForward d t) :=
  stepFrame_stepOverCompares (h.foldl (fun u k => stepFrame_ppsSkip (.refl d u) k) _) hd

/-! ## Gates -/

theorem stepFrame_unlinkWhere (test : Ref → Bool) (p tc : Nat) : StepFrame d s (unlinkWhere test 0x81 p tc t) :=
  h.foldl (fun u r => stepFrame_bumpPort (stepFrame_unlinkRef (.refl d u) p tc r) hd p 0x81) _

theorem stepFrame_periodDrop (p tc : Nat) (close : Int) : StepFrame d s (periodDrop p tc close t) :=
  .ite _ (fun _ => stepFrame_emptyQueue (stepFrame_unlinkWhere
    (h.foldl (fun u r => stepFrame_recordRef (.refl d u) p 3 close r) _) hd _ p tc) p tc) fun _ => h

theorem stepFrame_takeChange (p : Nat) (l : GList) (x : Nat) : StepFrame d s (takeChange p l x t) := by
  unfold takeChange
  exact stepFrame_pulse (stepFrame_bumpPort (stepFrame_requestPages (stepFrame_updGate (stepFrame_dropPaging h p) p _)
    p l x _) hd p 0x85) hd _

omit hd in
theorem stepFrame_startList (p : Nat) (g : Gate) : StepFrame d s (takeStarts.startList p g t) := by
  unfold takeStarts.startList
  split
  · exact .ite _ (fun _ => stepFrame_updGate h p _) fun _ => h
  · exact .ite _ (fun _ => stepFrame_updGate h p _) fun _ => h
  · exact h

theorem stepFrame_takeStarts (p : Nat) : StepFrame d s (takeStarts p t) := by
  unfold takeStarts
  dsimp only
  split
  · exact .ite _ (fun _ => stepFrame_takeChange h hd p _ _) fun _ => stepFrame_startList h p _
  · exact stepFrame_startList h p _

theorem stepFrame_latePage (p : Nat) (l : GList) : StepFrame d s (latePage p l t) := by
  unfold latePage
  dsimp only
  refine stepFrame_detectFault (stepFrame_pulse (stepFrame_bumpPort (stepFrame_requestPages (stepFrame_refitStop
    (stepFrame_updGate (stepFrame_dropPaging ?_ p) p _) p) p l _ _) hd p 0x82) hd _) _ _ _ _
  exact .ite _ (fun _ => stepFrame_disturbDigest h) fun _ => h

theorem stepFrame_enterEntry (p : Nat) : StepFrame d s (enterEntry p t) := by
  unfold enterEntry
  dsimp only
  split
  · exact .ite _ (fun _ => stepFrame_latePage h hd p _) fun _ => .ite _ (fun _ => stepFrame_startPage h p _ _) fun _ => h
  · exact h

theorem stepFrame_applyHold (p : Nat) : StepFrame d s (applyHold p t) := by
  unfold applyHold
  dsimp only
  refine stepFrame_updGate (.ite _ (fun _ => ?_) fun _ => h) p _
  exact stepFrame_holdFragment (stepFrame_bumpPort h hd p 0x1D) p _

/-- The transition of a port at the present instant. -/
theorem stepFrame_gateTick (p : Nat) : StepFrame d s (gateTick p t) := by
  have hr : StepFrame d s
      (match ((takeStarts p t).gate p).list with | some l => reanchor p l (takeStarts p t) | none => takeStarts p t) := by
    split
    · exact stepFrame_reanchor (stepFrame_takeStarts h hd p) p _
    · exact stepFrame_takeStarts h hd p
  unfold gateTick
  refine .ite _ (fun _ => ?_) fun _ => h
  exact .foldl (stepFrame_closeFragment (stepFrame_applyHold (stepFrame_updGate (stepFrame_enterEntry hr hd p) p _) hd p) p _)
    (fun u tc => stepFrame_periodDrop (.refl d u) hd p tc _) _

theorem stepFrame_gatesStep : StepFrame d s (gatesStep d t) :=
  h.foldl (fun u (e : Nat × Gate) => stepFrame_gateTick (.refl d u) hd e.1) _

theorem stepFrame_expressOverrun (p : Nat) : StepFrame d s (expressOverrun p t) := by
  unfold expressOverrun
  split
  · exact .ite _ (fun _ => stepFrame_bumpPort (stepFrame_updPort h p _) hd p 0x86) fun _ => h
  · exact h

theorem stepFrame_fragmentOverrun (p : Nat) : StepFrame d s (fragmentOverrun p t) := by
  unfold fragmentOverrun
  split
  · refine .ite _ (fun _ => ?_) fun _ => h
    exact .ite _ (fun _ => stepFrame_bumpPort (stepFrame_updPort h p _) hd p 0x86) fun _ => stepFrame_updPort h p _
  · exact h

theorem stepFrame_gateStepOverruns : StepFrame d s (gateStepOverruns d t) :=
  h.foldl (fun u (e : Nat × Gate) => stepFrame_fragmentOverrun (stepFrame_expressOverrun (.refl d u) hd e.1) hd e.1) _

end

end Sys2Proof.Machine
end

section
/-!
PROOF. Steps of a time domain and its arming (R243 to R245, R250, R254, R270).
-/
namespace Sys2Proof.Machine

/-! ## STEP_CTRL -/

section
variable {f d v : Nat} {s : State} (hf : s.barReach f = true) (hd : d < 8)
include hf hd

theorem effGo_go (hg : bit v 0 = true) : effGo f d v s =
    if rateOwnerRefuses s d || !stepAllowed (s.dom d) || (s.dom d).step.isSome then refuseStep d s
    else s.updDom d fun x =>
      { x with kind := bit v 1, step := some (bit v 1, stagedStep (s.fnTime f d), (5 * s.cycle + 7) / 8 + 8) } := by
  simp only [effGo, hf, hd, hg, dueTick_eq, decide_true, Bool.and_self, if_true]

theorem effGo_kind (hg : bit v 0 = false) : effGo f d v s = s.updDom d fun x => { x with kind := bit v 1 } := by
  simp [effGo, hf, hd, hg]

/-! ## ARM -/

theorem armRegister_reach : armRegister f d v s = if (s.dom d).enabled then armDomain d (v % 2) s else refuseRate d s := by
  simp [armRegister, hf, hd]

end

/-- The entry ARM of a domain. -/
def armEntry : EntrySpec := Cat.wo 0x13 Cat.u8 (.rng 0 1)

theorem domain_cases {d : Nat} (hd : d < 8) : d = 0 ∨ d = 1 ∨ d = 2 ∨ d = 3 ∨ d = 4 ∨ d = 5 ∨ d = 6 ∨ d = 7 := by omega

theorem arm_command (id : Ident) {d : Nat} (hd : d < 8) :
    CommandEntry id (0x4000 + d) 0x13 { entries := domainEntries d } armEntry := by
  obtain rfl | rfl | rfl | rfl | rfl | rfl | rfl | rfl := domain_cases hd
  all_goals exact ⟨rfl, rfl, rfl, rfl, rfl, rfl, rfl, fun _ => rfl, by decide⟩

theorem performEntry_arm {d : Nat} (hd : d < 8) (v : Nat) (s : State) :
    performEntry (0x4000 + d) armEntry (.num v) s = (aOk, armDomain d v s) := by
  obtain rfl | rfl | rfl | rfl | rfl | rfl | rfl | rfl := domain_cases hd
  all_goals rfl

/-- ARM of an enabled domain by its entry. -/
theorem answerWrite_arm {r : Requester} {d v : Nat} {s0 s : State} (hd : d < 8) (hs : s = engineTurn r.path s0)
    (hr : MayWrite r s) (he : (s.dom d).enabled = true) (hv : v < 2) :
    answerWrite r (0x4000 + d) 0x13 (.num v) s0 = (armDomain d v s).emit (.answer r 0 none) := by
  have ha : armRefuses s (0x4000 + d) 0x13 = false := by simp [armRefuses, he]
  have hl : claimRefuses s (0x4000 + d) 0x13 = false := by simp [claimRefuses]
  have hty : armEntry.ty.encodes (.num v) = true := decide_eq_true (show v < 2 ^ 8 by omega)
  have hrng : armEntry.rng.ok armEntry.ty (.num v) = true := by
    obtain rfl | rfl : v = 0 ∨ v = 1 := by omega
    all_goals rfl
  rw [answerWrite_command (arm_command s.ident hd) hr hs ha hl hty hrng, performEntry_arm hd]
  rfl

/-! ## The step in its tick -/

theorem effStepApply_idle {d : Nat} {s : State} (h : (s.dom d).step = none) : effStepApply d s = s := by
  rw [effStepApply, h]

section
variable {d due : Nat} {absolute : Bool} {amount : Time96} {s : State} (hp : (s.dom d).step = some (absolute, amount, due))
include hp

theorem effStepApply_waits (h : tickOf s.cycle < due) : effStepApply d s = s := by
  rw [effStepApply, hp]
  exact if_neg (by omega)

/-- The step itself, ahead of its consumers: the value, the count, the step line. -/
def stepTaken (d : Nat) (absolute : Bool) (amount : Time96) (s : State) : State :=
  pulse (171 + d) ((s.updDom d (stepDomain absolute amount)).bump (domObj d) 0x20)

variable (hd : d < 8) (hdue : due ≤ tickOf s.cycle) (he : (s.dom d).enabled = true) (ha : isAlive s.chip.mode = true)
include hd hdue he ha

/-- Behind the step itself stand only its consumers. -/
theorem effStepApply_frame : StepFrame d (stepTaken d absolute amount s) (effStepApply d s) := by
  rw [effStepApply, hp]
  dsimp only
  rw [if_pos ⟨hdue, he, ha⟩]
  refine stepFrame_gateStepOverruns (stepFrame_gatesStep ?_ hd) hd
  have hlock : ∀ (c : Prop) [Decidable c] (u : State), StepFrame d u (if c then loseLock d u else u) := fun c _ u =>
    .ite c (fun _ => stepFrame_loseLock (.refl d u) hd) fun _ => .refl d u
  exact .ite _ (fun _ => stepFrame_stepForward (hlock _ _) hd) fun _ => hlock _ _

/-- What a step leaves in its tick (R243). -/
theorem effStepApply_due {t : State} (ht : t = effStepApply d s) :
    (t.dom d).value = (if absolute then amount else (s.dom d).value + amount) ∧ (t.dom d).step = none ∧
    (t.dom d).steps = (s.dom d).steps + 1 ∧ (∀ e, e ≠ d → (t.dom e).value = (s.dom e).value) ∧
    t.counter (domObj d) 0x20 0 = (s.counter (domObj d) 0x20 0 + 1) % 2 ^ 64 ∧ (171 + d, s.cycle) ∈ t.intc.pulses := by
  obtain ⟨hval, hstep, hsteps, hcount, hpulse⟩ := ht ▸ effStepApply_frame hp hd hdue he ha
  have htime : ∀ e, (stepTaken d absolute amount s).dom e = (s.updDom d (stepDomain absolute amount)).dom e := fun e => by
    have h : (stepTaken d absolute amount s).time = (s.updDom d (stepDomain absolute amount)).time := pulse_time _ _
    rw [State.dom, h, State.dom]
  have hdom : (stepTaken d absolute amount s).dom d = stepDomain absolute amount (s.dom d) :=
    (htime d).trans (State.updDom_dom s d _ (domain_lt_of_enabled he))
  refine ⟨?_, ?_, ?_, fun e hne => ?_, ?_, hpulse (mem_pulses_pulse (lineExists_low _ (by omega) (by omega)))⟩
  · rw [hval, hdom]; rfl
  · rw [hstep, hdom]; rfl
  · rw [hsteps, hdom]; rfl
  · rw [hval, htime, State.updDom_dom_other s _ hne.symm]
  · rw [hcount, stepTaken, counter_pulse _ (by unfold cntKey domObj; omega)]
    exact State.counter_bumpK_same (s.updDom d (stepDomain absolute amount)) (domObj d) 0x20 0

end

/-- Settles O37: the branches of STEP_CTRL and ARM, and the step with the frame of its consumers. -/
theorem stepsAndArming : Obligations.StepsAndArming := by
  unfold Obligations.StepsAndArming
  intro f d v s hd
  refine ⟨fun hf hg => ⟨fun hr ha hn => ?_, fun h => ?_⟩, fun hf hg => congrArg Host.Outcome.next (effGo_kind hf hd hg),
    fun h => congrArg Host.Outcome.next (effStepApply_idle h),
    fun absolute amount due hp => ⟨fun h => congrArg Host.Outcome.next (effStepApply_waits hp h),
      fun hdue he ha => ⟨_, rfl, effStepApply_due hp hd hdue he ha rfl⟩⟩,
    fun hf he => ?_, fun hf he => ?_, fun r s0 hs hacc hw hm he hv => ?_⟩
  · refine congrArg Host.Outcome.next ((effGo_go hf hd hg).trans (if_neg ?_))
    simp [hr, ha, hn]
  · refine congrArg Host.Outcome.next ((effGo_go hf hd hg).trans (if_pos ?_))
    simpa [or_assoc] using h
  · exact congrArg Host.Outcome.next ((armRegister_reach hf hd).trans (if_pos he))
  · exact congrArg Host.Outcome.next ((armRegister_reach hf hd).trans (if_neg (by simp [he])))
  · exact congrArg Host.Outcome.next ((if_pos hd).trans (answerWrite_arm hd hs ⟨hacc, hw, hm⟩ he hv))

end Sys2Proof.Machine
end

section
/-!
PROOF. A change of device state, part by part (R58, R67 to R72, R80, R92): what it leaves of the units, the configuration
and the memory, beside the state registers of `transition_chip`.
-/
namespace Sys2Proof.Machine

/-! ## The stages of a transition -/

/-- A transition up to its state registers: a commit in progress has failed, the units have left RUN, egress has stopped. -/
def leaveMode (new : Mode) (s : State) : State :=
  if isActive s.chip.mode && new != .run then stopFor new (leaveRun (ppsState new (interruptCommit s)))
  else leaveRun (ppsState new (interruptCommit s))

theorem transition_eq (new : Mode) (s : State) : transition new s =
    pulse 189 (enterMode new (regimeChange s.chip.mode new (setMode new (leaveMode new s)))) := rfl

theorem leaveMode_interrupted (new : Mode) (s : State) : Keeps 0x1644e00 (interruptCommit s) (leaveMode new s) :=
  have h : Keeps 0x1644e00 (interruptCommit s) (leaveRun (ppsState new (interruptCommit s))) :=
    leaveRun_keeps (ppsState_keeps (Keeps.refl _ _) (Sub.of (by decide))) (Sub.of (by decide))
  .ite (stopFor_keeps h (Sub.of (by decide))) h

theorem leaveMode_keeps (new : Mode) (s : State) : Keeps 0x1644e80 s (leaveMode new s) :=
  (interruptCommit_keeps (Keeps.refl _ s) (Sub.of (by decide))).change (Sub.of (by decide)) (leaveMode_interrupted new s)

/-- Entry to a state other than LOAD: neither the configuration nor the engine changes. -/
theorem enterMode_notLoad {new : Mode} (hn : new ≠ .load) (s : State) : Keeps 0xc3c54e48 s (enterMode new s) := by
  unfold enterMode
  split
  · exact herdEnter_keeps (enterRun_keeps (Keeps.refl _ _) (Sub.of (by decide))) (Sub.of (by decide))
  · exact absurd rfl hn
  · exact herdEnter_keeps (resetDrr_keeps (resetShapers_keeps (Keeps.refl _ _) (Sub.of (by decide))) (Sub.of (by decide)))
      (Sub.of (by decide))
  · exact herdEnter_keeps (trigCut_keeps (Keeps.refl _ _) (Sub.of (by decide))) (Sub.of (by decide))

/-- Entry to a state other than RUN: MRAM does not change. -/
theorem enterMode_notRun {new : Mode} (hn : new ≠ .run) (s : State) : Keeps 0x9d93788 s (enterMode new s) := by
  unfold enterMode
  split
  · exact absurd rfl hn
  · exact herdEnter_keeps (enterLoad_keeps (trigCut_keeps (Keeps.refl _ _) (Sub.of (by decide))) (Sub.of (by decide)))
      (Sub.of (by decide))
  · exact herdEnter_keeps (resetDrr_keeps (resetShapers_keeps (Keeps.refl _ _) (Sub.of (by decide))) (Sub.of (by decide)))
      (Sub.of (by decide))
  · exact herdEnter_keeps (trigCut_keeps (Keeps.refl _ _) (Sub.of (by decide))) (Sub.of (by decide))

/-- What every entry leaves of a state whose registers are set. -/
theorem transition_entered (new : Mode) (s : State) : Keeps 0xcbdd7fc8 (setMode new (leaveMode new s)) (transition new s) :=
  pulse_keeps (enterMode_keeps (regimeChange_keeps (Keeps.refl _ _) (Sub.of (by decide))) (Sub.of (by decide)))
    (Sub.of (by decide))

theorem transition_notLoad {new : Mode} (hn : new ≠ .load) (s : State) :
    Keeps 0xc3c54e48 (setMode new (leaveMode new s)) (transition new s) :=
  pulse_keeps ((regimeChange_keeps (Keeps.refl _ _) (Sub.of (by decide))).trans (enterMode_notLoad hn _))
    (Sub.of (by decide))

theorem transition_notRun {new : Mode} (hn : new ≠ .run) (s : State) :
    Keeps 0x9d93788 (setMode new (leaveMode new s)) (transition new s) :=
  pulse_keeps ((regimeChange_keeps (Keeps.refl _ _) (Sub.of (by decide))).trans (enterMode_notRun hn _))
    (Sub.of (by decide))

/-! ## Time -/

theorem ppsNote_domains (s : State) (k : Nat) : (ppsNote s k).time.domains = s.time.domains := by
  unfold ppsNote
  split <;> rfl

theorem ppsState_domains (entering : Mode) (s : State) : (ppsState entering s).time.domains = s.time.domains := by
  unfold ppsState
  split
  · split
    · rfl
    · exact foldl_same (·.time.domains) ppsNote_domains _ s
  · rfl

theorem leaveMode_domains (new : Mode) (s : State) : (leaveMode new s).time.domains = s.time.domains := by
  have hleft : Keeps 0x1444e00 (ppsState new (interruptCommit s)) (leaveMode new s) :=
    .ite (stopFor_keeps (leaveRun_keeps (Keeps.refl _ _) (Sub.of (by decide))) (Sub.of (by decide)))
      (leaveRun_keeps (Keeps.refl _ _) (Sub.of (by decide)))
  have hcommit : Keeps 0x1000280 s (interruptCommit s) := interruptCommit_keeps (Keeps.refl _ s) (Sub.of (by decide))
  calc (leaveMode new s).time.domains
      = (ppsState new (interruptCommit s)).time.domains := congrArg TimeBase.domains (hleft.same .time (by decide))
    _ = (interruptCommit s).time.domains := ppsState_domains new _
    _ = s.time.domains := congrArg TimeBase.domains (hcommit.same .time (by decide))

/-- No domain is touched by a change of state. -/
theorem transition_domains (new : Mode) (s : State) : (transition new s).time.domains = s.time.domains :=
  (congrArg TimeBase.domains ((transition_entered new s).same .time (by decide))).trans (leaveMode_domains new s)

/-- The time of entry is that of D0 (R70). -/
theorem transition_entryTime (new : Mode) (s : State) : (transition new s).chip.entryTime = s.ns 0 := by
  obtain ⟨-, -, h, -⟩ := chip_of_same ((transition_entered new s).same .chip (by decide))
  exact h.trans (congrArg (fun l : List Domain => nsOf (l.getD 0 {}).value) (leaveMode_domains new s))

/-! ## Configuration, engine and MRAM -/

theorem pulse_cfg (l : Nat) (s : State) : (pulse l s).cfg = s.cfg := by
  unfold pulse
  split <;> rfl

/-- Before the registers change only the commit in progress meets the change of state (R92). -/
theorem leaveMode_cfg (new : Mode) (s : State) : ∃ c, (leaveMode new s).cfg = { s.cfg with commit := c } := by
  have h : (leaveMode new s).cfg = (interruptCommit s).cfg := (leaveMode_interrupted new s).same .cfg (by decide)
  rw [h, interruptCommit]
  split
  · exact ⟨_, pulse_cfg _ _⟩
  · exact ⟨s.cfg.commit, rfl⟩

theorem transition_cfg {new : Mode} (hn : new ≠ .load) (s : State) :
    ∃ c, (transition new s).cfg = { s.cfg with commit := c } := by
  have h : (transition new s).cfg = (leaveMode new s).cfg := (transition_notLoad hn s).same .cfg (by decide)
  rw [h]
  exact leaveMode_cfg new s

/-- The configuration manager on entry to LOAD (R80, R83, R96). -/
theorem enterLoad_cfg (s : State) : (enterLoad s).cfg = { s.cfg with
    rw := [], shadow := {}, runningBank := 0xFF, passed := false, fallback := false, fetched := none } := by
  have h : Keeps 0x8193700 s (frerLoad (fabricLoad (resetDrr (resetShapers
      { psfpLoad (fdbLoad (dmaLoad (engineLoad s))) with linkDelay := [] })))) :=
    frerLoad_keeps (fabricLoad_keeps (resetDrr_keeps (resetShapers_keeps (Keeps.setLinkDelay (psfpLoad_keeps (fdbLoad_keeps
      (dmaLoad_keeps (engineLoad_keeps (Keeps.refl _ s) (Sub.of (by decide))) (Sub.of (by decide))) (Sub.of (by decide)))
      (Sub.of (by decide))) (Sub.of (by decide))) (Sub.of (by decide))) (Sub.of (by decide))) (Sub.of (by decide)))
      (Sub.of (by decide))
  unfold enterLoad
  dsimp only
  rw [h.same .cfg (by decide)]

theorem enterLoad_transfers (s : State) : (enterLoad s).nap.transfers = s.nap.transfers := by
  have h : Keeps 0x8193680 (engineLoad s) (enterLoad s) :=
    Keeps.setCfg (frerLoad_keeps (fabricLoad_keeps (resetDrr_keeps (resetShapers_keeps (Keeps.setLinkDelay (psfpLoad_keeps
      (fdbLoad_keeps (dmaLoad_keeps (Keeps.refl _ _) (Sub.of (by decide))) (Sub.of (by decide))) (Sub.of (by decide)))
      (Sub.of (by decide))) (Sub.of (by decide))) (Sub.of (by decide))) (Sub.of (by decide))) (Sub.of (by decide)))
      (Sub.of (by decide))
  have hnap : (enterLoad s).nap = (engineLoad s).nap := h.same .nap (by decide)
  rw [hnap]
  rfl

/-- Around `enterLoad` only triggers and the ring take their place in LOAD. -/
theorem enterMode_load (s : State) : Keeps 0x400000 s (trigCut s) ∧
    Keeps 0x1800208 (enterLoad (trigCut s)) (enterMode .load s) := by
  unfold enterMode
  exact ⟨trigCut_keeps (Keeps.refl _ s) (Sub.of (by decide)), herdEnter_keeps (Keeps.refl _ _) (Sub.of (by decide))⟩

theorem enterMode_load_cfg (s : State) : (enterMode .load s).cfg = { s.cfg with
    rw := [], shadow := {}, runningBank := 0xFF, passed := false, fallback := false, fetched := none } := by
  obtain ⟨hcut, hload⟩ := enterMode_load s
  have hcfg : (trigCut s).cfg = s.cfg := hcut.same .cfg (by decide)
  have henter : (enterMode .load s).cfg = (enterLoad (trigCut s)).cfg := hload.same .cfg (by decide)
  rw [henter, enterLoad_cfg, hcfg]

theorem transition_load_cfg (s : State) : ∃ c, (transition .load s).cfg = { s.cfg with
    commit := c, rw := [], shadow := {}, runningBank := 0xFF, passed := false, fallback := false, fetched := none } := by
  obtain ⟨c, hc⟩ := leaveMode_cfg .load s
  refine ⟨c, ?_⟩
  rw [transition_eq, pulse_cfg, enterMode_load_cfg]
  show ({ (leaveMode .load s).cfg with
    rw := [], shadow := {}, runningBank := 0xFF, passed := false, fallback := false, fetched := none } : Cfg) = _
  rw [hc]

theorem enterMode_transfers (new : Mode) (s : State) : (enterMode new s).nap.transfers = s.nap.transfers := by
  by_cases hn : new = .load
  · subst hn
    obtain ⟨hcut, hload⟩ := enterMode_load s
    have hnap : (trigCut s).nap = s.nap := hcut.same .nap (by decide)
    have henter : (enterMode .load s).nap = (enterLoad (trigCut s)).nap := hload.same .nap (by decide)
    rw [henter, enterLoad_transfers, hnap]
  · exact congrArg Nap.transfers ((enterMode_notLoad hn s).same .nap (by decide) : _ = s.nap)

/-- The open transfers close with every change of state (R58). -/
theorem transition_transfers (new : Mode) (s : State) : (transition new s).nap.transfers = [] := by
  rw [transition_eq, pulse_nap, enterMode_transfers]
  rfl

/-- Only entry to RUN writes MRAM (R433). -/
theorem transition_mram {new : Mode} (hn : new ≠ .run) (s : State) : (transition new s).mram = s.mram :=
  calc (transition new s).mram = (leaveMode new s).mram := (transition_notRun hn s).same .mram (by decide)
    _ = s.mram := (leaveMode_keeps new s).same .mram (by decide)

end Sys2Proof.Machine
end

section
/-!
PROOF. The state right after reset, what the supplies and a commanded reset clear, and the release of reset (R67, R70, R71,
R238, R240, R462, R473, R506 to R508).
-/
namespace Sys2Proof.Machine

/-! ## The state right after reset -/

/-- Beyond a list of defaults too the default is read. -/
theorem getD_replicate_self {α : Type} (x : α) (n i : Nat) : (List.replicate n x).getD i x = x := by
  rw [List.getD_eq_getElem?_getD, List.getElem?_replicate]
  split <;> rfl

theorem reset_pf (f : Nat) : State.reset.pf f = {} := getD_replicate_self ({} : Pf) 4 f

/-- D1 to D7 stand as a domain that never ran (R238). -/
theorem reset_dom {d : Nat} (hd : d ≠ 0) : State.reset.dom d = {} := by
  obtain ⟨e, rfl⟩ := Nat.exists_eq_succ_of_ne_zero hd
  exact getD_replicate_self ({} : Domain) 7 e

/-- Settles O7: the fields are those of the state's defaults; the indexed ones by `reset_dom` and `reset_pf`. -/
theorem resetState : Obligations.ResetState := by
  unfold Obligations.ResetState
  refine ⟨rfl, rfl, rfl, rfl, rfl, rfl, rfl, rfl, fun _ _ _ => rfl, fun _ _ => rfl, fun _ => ⟨rfl, rfl⟩, rfl, rfl, rfl,
    fun d hd => ?_, rfl, fun f => ?_⟩
  · rw [reset_dom hd]
  · rw [reset_pf]
    exact ⟨rfl, rfl⟩

/-! ## Supplies and commanded resets -/

theorem clearedState_only (m : Mode) (cause hold : Nat) (s : State) : Only resetParts s (clearedState m cause hold s) :=
  (clearedState_keeps (m := maskOf resetParts) (Keeps.refl _ s) (Sub.of (by decide))).only

/-- The event inputs that a full-device reset leaves are those whose pin stands high. -/
theorem mem_outerTrig_evin {t : Trig} {e : Nat × EvIn} : e ∈ (outerTrig t).evin ↔
    e.2 = { pin := true, level := true } ∧ ∃ x, (e.1, x) ∈ t.evin ∧ x.pin = true := by
  simp only [outerTrig, List.mem_filter, List.mem_map]
  constructor
  · rintro ⟨⟨x, hx, rfl⟩, hp⟩
    exact ⟨by simp only [show x.2.pin = true from hp], x.2, hx, hp⟩
  · rintro ⟨he, x, hx, hp⟩
    exact ⟨⟨(e.1, x), hx, Prod.ext rfl (by rw [he, hp])⟩, by rw [he]⟩

/-- What a full-device reset clears, whatever its cause and hold (R506). -/
theorem cleared_clearedState {m : Mode} (cause hold : Nat) (s : State) {x : Chip} (hx : x.mode = m) :
    Cleared s { clearedState m cause hold s with chip := x } := by
  refine ⟨?_, rfl, ?_, rfl, fun e he => mem_outerTrig_evin.1 he, fun e he hp => mem_outerTrig_evin.2 ⟨rfl, e.2, he, hp⟩⟩
  · simp only [List.forall_mem_cons]
    exact ⟨rfl, rfl, rfl, rfl, rfl, rfl, rfl, rfl, rfl, rfl, rfl, rfl, rfl, rfl, rfl, rfl, rfl, rfl, rfl, rfl, rfl, nofun⟩
  · subst hx
    rfl

theorem effSupplyInRange_off {levels : List Nat} {s : State} (ho : s.chip.mode = .off) (hr : railsInRange levels = true) :
    effSupplyInRange levels s = { clearedState .reset 0 (s.cycle + 1600000) s with chip := { State.reset.chip with
      prev := .off, railsSince := s.cycle, resetHold := s.cycle + 1600000 } } := by
  rw [effSupplyInRange, if_pos ⟨ho, hr⟩, ← ho]
  rfl

theorem effSupplyInRange_idle {levels : List Nat} {s : State} (h : s.chip.mode ≠ .off ∨ railsInRange levels = false) :
    effSupplyInRange levels s = s :=
  if_neg fun ⟨ho, hr⟩ => h.elim (· ho) fun h => by simp [h] at hr

theorem effSupplyOutOfRange_lost {rail level ns : Nat} {s : State} (ho : s.chip.mode ≠ .off)
    (hr : leavesRange rail level ns = true) : effSupplyOutOfRange rail level ns s = clearedState .off 0 0 s :=
  if_pos ⟨ho, hr⟩

theorem effSupplyOutOfRange_idle {rail level ns : Nat} {s : State}
    (h : s.chip.mode = .off ∨ leavesRange rail level ns = false) : effSupplyOutOfRange rail level ns s = s :=
  if_neg fun ⟨ho, hr⟩ => h.elim ho fun h => by simp [h] at hr

/-- A commanded reset counts in MRAM and clears the rest (R73, R506). -/
theorem effResetDelayExpiry_due {due : Nat} {s : State} (hr : s.chip.resetDue = some due) (hd : due ≤ s.cycle) :
    effResetDelayExpiry s = clearedState .reset 1 (s.cycle + 160000)
      { s with mram := { s.mram with cmdResets := (s.mram.cmdResets + 1) % 2 ^ 64 } } := by
  simp only [effResetDelayExpiry, hr, if_pos hd]
  rfl

theorem effResetDelayExpiry_waits {due : Nat} {s : State} (hr : s.chip.resetDue = some due) (hd : s.cycle < due) :
    effResetDelayExpiry s = s := by
  simp only [effResetDelayExpiry, hr, if_neg (Nat.not_le.2 hd)]

theorem effResetDelayExpiry_none {s : State} (hr : s.chip.resetDue = none) : effResetDelayExpiry s = s := by
  simp only [effResetDelayExpiry, hr]

/-- Settles O8: each way into RESET or OFF is a `clearedState`. -/
theorem suppliesAndResets : Obligations.SuppliesAndResets := by
  unfold Obligations.SuppliesAndResets
  refine ⟨fun levels s => ⟨fun ho hr => ?_, fun h => congrArg _ (effSupplyInRange_idle h)⟩,
    fun rail level ns s => ⟨fun ho hr => ?_, fun h => congrArg _ (effSupplyOutOfRange_idle h)⟩,
    fun s => ⟨fun due hr hd => ?_, fun due hr hd => congrArg _ (effResetDelayExpiry_waits hr hd),
      fun hr => congrArg _ (effResetDelayExpiry_none hr)⟩⟩
  · refine ⟨_, congrArg Host.Outcome.next (effSupplyInRange_off ho hr), rfl, rfl, rfl, rfl,
      cleared_clearedState 0 _ s rfl, ?_⟩
    rw [← effSupplyInRange_off ho hr]
    exact (effSupplyInRange_keeps (m := maskOf resetParts) (Keeps.refl _ s) (Sub.of (by decide))).only
  · exact ⟨_, congrArg Host.Outcome.next (effSupplyOutOfRange_lost ho hr), rfl, rfl, rfl, rfl, rfl, rfl,
      cleared_clearedState 0 0 s rfl, clearedState_only .off 0 0 s⟩
  · refine ⟨_, congrArg Host.Outcome.next (effResetDelayExpiry_due hr hd), rfl, rfl, rfl, ?_, ?_⟩
    · exact cleared_clearedState 1 (s.cycle + 160000)
        { s with mram := { s.mram with cmdResets := (s.mram.cmdResets + 1) % 2 ^ 64 } } rfl
    · rw [← effResetDelayExpiry_due hr hd]
      exact (effResetDelayExpiry_keeps (m := maskOf (.mram :: resetParts)) (Keeps.refl _ s) (Sub.of (by decide))).only

/-! ## The start of a domain (R240) -/

/-- What a change of a domain leaves of every domain it leaves. -/
theorem updDom_dom_field {α : Type} (φ : Domain → α) (s : State) (d e : Nat) {f : Domain → Domain}
    (h : ∀ x, φ (f x) = φ x) : φ ((s.updDom d f).dom e) = φ (s.dom e) := by
  by_cases he : d = e
  · subst he
    by_cases hl : d < s.time.domains.length
    · rw [State.updDom_dom s d f hl, h]
    · have hdom : (s.updDom d f).dom d = s.dom d :=
        (updAt_getD_of_length_le f {} (Nat.le_of_not_lt hl)).trans (getD_of_length_le {} (Nat.le_of_not_lt hl)).symm
      rw [hdom]
  · rw [State.updDom_dom_other s f he]

/-- A change of LOCKED changes nothing else of a domain but LOCK_LOST (R250). -/
theorem setLocked_dom_field {α : Type} (φ : Domain → α) (d e : Nat) (b : Bool) (s : State)
    (hlock : ∀ x, φ { x with locked := b } = φ x) (hlost : ∀ x, φ { x with lockLost := true } = φ x) :
    φ ((setLocked d b s).dom e) = φ (s.dom e) := by
  have hpulse : φ ((pulse (163 + d) (s.updDom d fun x => { x with locked := b })).dom e) = φ (s.dom e) := by
    rw [State.dom, pulse_time]
    exact updDom_dom_field φ s d e hlock
  have hfault : ∀ u, φ ((detectFault 11 d 1 0 u).dom e) = φ (u.dom e) := fun u => by
    have ht : (detectFault 11 d 1 0 u).time = u.time :=
      (detectFault_keeps (m := 0xc3000000) (Keeps.refl _ u) (Sub.of (by decide))).same .time (by decide)
    rw [State.dom, ht, State.dom]
  unfold setLocked
  split
  · rfl
  · dsimp only
    generalize pulse (163 + d) (s.updDom d fun x => { x with locked := b }) = u at hpulse ⊢
    split
    · exact hpulse
    · split
      · exact (hfault _).trans ((updDom_dom_field φ u d e hlost).trans hpulse)
      · exact (updDom_dom_field φ u d e hlost).trans hpulse

theorem ppsStart_domains (d : Nat) (s : State) (k : Nat) : (ppsStart d s k).time.domains = s.time.domains := by
  unfold ppsStart
  split <;> rfl

/-- A domain starts enabled, at zero, with the nominal increment. -/
theorem startDomain_dom {d : Nat} {s : State} (hd : d < s.time.domains.length) : ((startDomain d s).dom d).enabled = true ∧
    ((startDomain d s).dom d).value = 0 ∧ ((startDomain d s).dom d).inc = 0x0100000000 := by
  have hfield : ∀ {α : Type} (φ : Domain → α), (∀ x b, φ { x with locked := b } = φ x) →
      (∀ x, φ { x with lockLost := true } = φ x) →
      (∀ x m, φ { x with mode := m, stepUsed := false, integ := 0 } = φ x) →
      φ ((startDomain d s).dom d) = φ { s.dom d with
        enabled := true, value := 0, inc := 0x0100000000, incNext := [], adjOpen := false, adjLeft := 0, adjNext := []
        step := none, good := 0, bad := 0, integ := 0, measuredAt := s.cycle, lastPps := none } := by
    intro α φ hlock hlost harm
    unfold startDomain
    dsimp only
    rw [setLocked_dom_field φ d d _ _ (fun x => hlock x _) hlost, State.dom,
      foldl_same (·.time.domains) (ppsStart_domains d)]
    refine (updDom_dom_field φ _ d d fun x => harm x _).trans ?_
    rw [State.updDom_dom s d _ hd]
  exact ⟨hfield (·.enabled) (fun _ _ => rfl) (fun _ => rfl) fun _ _ => rfl,
    hfield (·.value) (fun _ _ => rfl) (fun _ => rfl) fun _ _ => rfl,
    hfield (·.inc) (fun _ _ => rfl) (fun _ => rfl) fun _ _ => rfl⟩

/-! ## The release of reset -/

/-- MRAM with every word good reads as it stands (R496). -/
theorem rereadMram_nil (s : State) : rereadMram [] s = s := by
  have hkeys : (s.mram.keys.mapIdx fun i k =>
      { k with rx := ringReread s [] (2 * i) k.rx, tx := ringReread s [] (2 * i + 1) k.tx }) = s.mram.keys :=
    List.mapIdx_eq_iff.2 fun i => by cases s.mram.keys[i]? <;> rfl
  show ({ s with mram := { s.mram with keys := s.mram.keys.mapIdx fun i k =>
      { k with rx := ringReread s [] (2 * i) k.rx, tx := ringReread s [] (2 * i + 1) k.tx } } } : State) = s
  rw [hkeys]

/-- The device as it leaves RESET, before LOAD is entered: straps sampled, D0 started, the integrals resumed. -/
def released (straps pll : Nat) (words : List MramWord) (s : State) : State :=
  healthRelease (startDomain 0 (sampleStraps straps pll (rereadMram (badWords words) s)))

theorem healthRelease_mram (s : State) : (healthRelease s).mram = s.mram := rfl

/-- The integrals resume from the checkpoint (R473). -/
theorem healthRelease_integrals (s : State) :
    (∀ k, k < 64 → (healthRelease s).health.teq.getD k 0 = s.mram.checkpoint.teq.getD k 0) ∧
    ∀ k, k < 8 → (healthRelease s).health.dmg.getD k 0 = s.mram.checkpoint.dmg.getD k 0 := by
  have hpad : ∀ (n : Nat) (l : List Nat) (k : Nat), k < n → (healthRelease.padNat n l).getD k 0 = l.getD k 0 :=
    fun n l k hk => by simp [healthRelease.padNat, upTo, hk]
  exact ⟨fun k hk => hpad 64 _ k hk, fun k hk => hpad 8 _ k hk⟩

theorem effResetRelease_due {straps pll : Nat} {words : List MramWord} {s : State} (hm : s.chip.mode = .reset)
    (hc : s.chip.resetHold ≤ s.cycle) (hp : pll % 32 = 31) :
    effResetRelease straps pll words s = noteMramWords words (transition .load (released straps pll words s)) :=
  if_pos ⟨hm, hc, hp⟩

theorem effResetRelease_waits {straps pll : Nat} {words : List MramWord} {s : State}
    (h : s.chip.mode ≠ .reset ∨ s.cycle < s.chip.resetHold ∨ pll % 32 ≠ 31) : effResetRelease straps pll words s = s :=
  if_neg fun ⟨hm, hc, hp⟩ => h.elim (· hm) fun h => h.elim (Nat.not_lt.2 hc) (· hp)

section
variable (straps pll : Nat) (words : List MramWord) (s : State)

/-- After the straps only D0 and the health monitor change. -/
theorem released_keeps :
    Keeps 0xc7200200 (sampleStraps straps pll (rereadMram (badWords words) s)) (released straps pll words s) :=
  healthRelease_keeps (startDomain_keeps (Keeps.refl _ _) (Sub.of (by decide))) (Sub.of (by decide))

/-- The words that failed are counted and recorded once LOAD is entered. -/
theorem noteMramWords_after (u : State) : Keeps 0xc3000200 u (noteMramWords words u) :=
  noteMramWords_keeps (Keeps.refl _ u) (Sub.of (by decide))

/-- The state registers at the release. -/
theorem released_chip {t : State} (ht : t = noteMramWords words (transition .load (released straps pll words s))) :
    t.chip.mode = .load ∧ t.chip.prev = s.chip.mode ∧ t.chip.straps = straps % 2 ^ 11 ∧ t.chip.pll = pll % 64 ∧
    t.chip.startPending = false := by
  obtain ⟨rmode, -, -, -, -, -, -, rstraps, -, -, -, -, rpll, -⟩ :=
    chip_of_same ((released_keeps straps pll words s).same .chip (by decide))
  obtain ⟨lmode, lprev, -, -, -, lstart, lstraps, -, lpll⟩ := transition_chip .load (released straps pll words s)
  obtain ⟨nmode, nprev, -, -, -, -, nstart, nstraps, -, -, -, -, npll, -⟩ :=
    chip_of_same ((noteMramWords_after words (transition .load (released straps pll words s))).same .chip (by decide))
  subst ht
  exact ⟨nmode.trans lmode, nprev.trans (lprev.trans rmode), nstraps.trans (lstraps.trans rstraps),
    npll.trans (lpll.trans rpll), nstart.trans lstart⟩

/-- The configuration and the engine at the release: an image is to be selected by the boot straps (R80, R83). -/
theorem released_cfg {t : State} (ht : t = noteMramWords words (transition .load (released straps pll words s))) :
    t.cfg.loadBy = .boot ∧ t.cfg.rw = [] ∧ t.cfg.shadow = {} ∧ t.nap.transfers = [] := by
  have hcfg : t.cfg = (transition .load (released straps pll words s)).cfg :=
    ht ▸ (noteMramWords_after words _).same .cfg (by decide)
  have hnap : t.nap = (transition .load (released straps pll words s)).nap :=
    ht ▸ (noteMramWords_after words _).same .nap (by decide)
  have hreleased : (released straps pll words s).cfg = (sampleStraps straps pll (rereadMram (badWords words) s)).cfg :=
    (released_keeps straps pll words s).same .cfg (by decide)
  obtain ⟨c, hc⟩ := transition_load_cfg (released straps pll words s)
  rw [hcfg, hnap, hc, hreleased, transition_transfers]
  exact ⟨rfl, rfl, rfl, rfl⟩

/-- D0 at the release (R240). -/
theorem released_dom {t : State} (ht : t = noteMramWords words (transition .load (released straps pll words s)))
    (hd : 0 < s.time.domains.length) :
    (t.dom 0).enabled = true ∧ (t.dom 0).value = 0 ∧ (t.dom 0).inc = 0x0100000000 := by
  have htime : t.time = (transition .load (released straps pll words s)).time :=
    ht ▸ (noteMramWords_after words _).same .time (by decide)
  have hdom : t.dom 0 = (startDomain 0 (sampleStraps straps pll (rereadMram (badWords words) s))).dom 0 := by
    rw [State.dom, htime, transition_domains]
    rfl
  rw [hdom]
  exact startDomain_dom hd

/-- With every MRAM word good, MRAM and the integrals of the health monitor (R473). -/
theorem released_good {t : State} (ht : t = noteMramWords [] (transition .load (released straps pll [] s))) :
    t.mram = s.mram ∧ (∀ k, k < 64 → t.health.teq.getD k 0 = s.mram.checkpoint.teq.getD k 0) ∧
    ∀ k, k < 8 → t.health.dmg.getD k 0 = s.mram.checkpoint.dmg.getD k 0 := by
  have hstart : (startDomain 0 (sampleStraps straps pll (rereadMram (badWords []) s))).mram = s.mram := by
    have h : Keeps 0xcb2012a0 (rereadMram (badWords []) s)
        (startDomain 0 (sampleStraps straps pll (rereadMram (badWords []) s))) :=
      startDomain_keeps (sampleStraps_keeps (Keeps.refl _ _) (Sub.of (by decide))) (Sub.of (by decide))
    have hm : _ = (rereadMram (badWords []) s).mram := h.same .mram (by decide)
    rw [hm]
    exact congrArg State.mram (rereadMram_nil s)
  have hload : (transition .load (released straps pll [] s)).health = (released straps pll [] s).health :=
    (transition_keeps (m := 0xebfd7fe8) (Keeps.refl _ _) (Sub.of (by decide))).same .health (by decide)
  have hnote : t.mram = (transition .load (released straps pll [] s)).mram :=
    ht ▸ (noteMramWords_after [] _).same .mram (by decide)
  have hhealth : t.health = (transition .load (released straps pll [] s)).health :=
    ht ▸ (noteMramWords_after [] _).same .health (by decide)
  rw [hnote, hhealth, hload, transition_mram (by decide), released, healthRelease_mram, ← hstart]
  exact ⟨rfl, healthRelease_integrals _⟩

end

/-- Settles O9: the release is `released`, the transition to LOAD and the record of the words that failed. -/
theorem resetReleases : Obligations.ResetReleases := by
  unfold Obligations.ResetReleases
  intro straps pll words s
  refine ⟨fun hm hc hp => ?_, fun h => congrArg _ (effResetRelease_waits h)⟩
  obtain ⟨hmode, hprev, hstraps, hpll, hstart⟩ := released_chip straps pll words s rfl
  obtain ⟨hboot, hrw, hshadow, htransfers⟩ := released_cfg straps pll words s rfl
  refine ⟨_, congrArg Host.Outcome.next (effResetRelease_due hm hc hp), hmode, hprev.trans hm, hstraps, hpll, hstart, hboot,
    hrw, hshadow, htransfers, released_dom straps pll words s rfl, fun hw => ?_⟩
  subst hw
  exact released_good straps pll s rfl

end Sys2Proof.Machine
end

section
/-!
PROOF. The ends of LOAD and CHECK, and the entries to HOLD, RUN and SAFE (R70 to R72, R83, R86 to R88, R433, R468, R496).
-/
namespace Sys2Proof.Machine

/-! ## Adopting a configuration -/

/-- A configuration taken up runs, and is the shadow image, in table epoch 0 (R80, R88). -/
theorem adoptImage_cfg (im : Image) (s : State) :
    (adoptImage im s).cfg = { s.cfg with running := im, shadow := im, older := none, epoch := 0 } := by
  have h : Keeps 0xd3303600
      { s with cfg := { s.cfg with running := im, shadow := im, older := none, epoch := 0 } } (adoptImage im s) :=
    applyTimeSettings_keeps (fdbCutover_keeps (buildMasters_keeps (fabricLoad_keeps (countLoadResets_keeps (frerLoad_keeps
      (createdRows_keeps (psfpLoad_keeps (Keeps.refl _ _) (Sub.of (by decide))) (Sub.of (by decide))) (Sub.of (by decide)))
      (Sub.of (by decide))) (Sub.of (by decide))) (Sub.of (by decide))) (Sub.of (by decide))) (Sub.of (by decide))
  exact h.same .cfg (by decide)

theorem adoptImage_mode (im : Image) (s : State) : (adoptImage im s).chip.mode = s.chip.mode :=
  (chip_of_same ((adoptImage_keeps (m := 0xd3303680) (Keeps.refl _ s) (Sub.of (by decide))).same .chip (by decide))).1

theorem adoptPorts_after (s0 s : State) : Keeps 0x5020e08 s (adoptPorts s0 s) :=
  adoptPorts_keeps (Keeps.refl _ s) (Sub.of (by decide))

/-- Entry to HOLD (R88): the reason, and the configuration that runs there. -/
theorem enterHold_facts (f : CheckFail) (im : Image) {s t : State} (ht : t = enterHold f im s) :
    t.chip.mode = .hold ∧ t.chip.prev = s.chip.mode ∧ t.chip.reason = f.reason ∧ t.chip.reasonDetail = f.detail ∧
    t.chip.reasonUnit = f.unit ∧ t.cfg.running = im ∧ t.cfg.shadow = im := by
  obtain ⟨hmode, hprev, -⟩ := transition_chip .hold (adoptImage im s)
  obtain ⟨c, hc⟩ := transition_cfg (new := .hold) (by decide) (adoptImage im s)
  unfold enterHold at ht
  generalize transition .hold (adoptImage im s) = u at ht hmode hprev hc
  have hports : Keeps 0x5020e08 (setReason f.reason f.detail f.unit u) t := ht ▸ adoptPorts_after s _
  obtain ⟨pmode, pprev, -, preason, pdetail, punit, -⟩ := chip_of_same (hports.same .chip (by decide))
  have hcfg : t.cfg = u.cfg := hports.same .cfg (by decide)
  rw [hcfg, hc, adoptImage_cfg]
  exact ⟨pmode.trans hmode, pprev.trans (hprev.trans (adoptImage_mode im s)), preason, pdetail, punit, rfl, rfl⟩

/-! ## The end of LOAD -/

theorem effLoadComplete_selected {s : State} {b : Nat} (hm : s.chip.mode = .load) (hb : selectBank s = .ok b) :
    effLoadComplete s = transition .check { s with cfg := { s.cfg with
      fetched := some (b, (s.bank b).image), lastBank := some b, triedBanks := b :: s.cfg.triedBanks.filter (· != b) } } := by
  rw [effLoadComplete, if_pos hm, hb]

theorem effLoadComplete_none {s : State} {reason : Nat} (hm : s.chip.mode = .load) (hb : selectBank s = .error reason) :
    effLoadComplete s = enterHold { reason := reason } {} s := by
  rw [effLoadComplete, if_pos hm, hb]

/-! ## The end of CHECK -/

section
variable {s : State} {b : Nat} {bytes : Bytes} (hm : s.chip.mode = .check) (hb : s.cfg.fetched = some (b, bytes))
include hm hb

theorem effCheckComplete_passed {im : Image} (hi : (checkImage s bytes).img = some im) (hf : (checkImage s bytes).fail = none) :
    effCheckComplete s = checkPassed b im s := by
  have hc : checkImage s bytes = { img := some im, fail := none } := by
    cases h : checkImage s bytes
    simp_all
  simp only [effCheckComplete, hm, hb, hc]

theorem effCheckComplete_failed {f : CheckFail} (hf : (checkImage s bytes).fail = some f) :
    effCheckComplete s = checkFailed b f ((checkImage s bytes).img.getD {}) s := by
  cases hc : checkImage s bytes with
  | mk img fail =>
    rw [hc] at hf
    cases hf
    simp only [effCheckComplete, hm, hb, hc, Option.getD_some]

end

/-- An image that passed runs from its bank; AUTO_START acts as START (R70). -/
theorem checkPassed_facts (b : Nat) (im : Image) {s t : State} (ht : t = checkPassed b im s) :
    t.chip.mode = .armed ∧ t.chip.prev = s.chip.mode ∧ t.cfg.running = im ∧ t.cfg.shadow = im ∧ t.cfg.runningBank = b ∧
    t.cfg.passed = true ∧ t.chip.startPending = t.cfgB 0x0101 0x0A := by
  generalize hs0 : ({ s with cfg := { s.cfg with
    runningBank := b, passed := true, fallback := s.cfg.fallbackUsed } } : State) = s0
  obtain ⟨hmode, hprev, -⟩ := transition_chip .armed (adoptImage im s0)
  obtain ⟨c, hc⟩ := transition_cfg (new := .armed) (by decide) (adoptImage im s0)
  unfold checkPassed at ht
  dsimp only at ht
  rw [hs0] at ht
  generalize transition .armed (adoptImage im s0) = u at ht hmode hprev hc
  have hports := adoptPorts_after s u
  obtain ⟨pmode, pprev, -⟩ := chip_of_same (hports.same .chip (by decide))
  have hcfg : (adoptPorts s u).cfg = u.cfg := hports.same .cfg (by decide)
  generalize adoptPorts s u = v at ht pmode pprev hcfg
  rw [hc, adoptImage_cfg, ← hs0] at hcfg
  have hmode0 : (adoptImage im s0).chip.mode = s.chip.mode := by rw [adoptImage_mode, ← hs0]
  have hrunning : v.cfg.running = im ∧ v.cfg.shadow = im ∧ v.cfg.runningBank = b ∧ v.cfg.passed = true := by
    rw [hcfg]
    exact ⟨rfl, rfl, rfl, rfl⟩
  obtain ⟨hrun, hshadow, hbank, hpassed⟩ := hrunning
  subst ht
  exact ⟨pmode.trans hmode, pprev.trans (hprev.trans hmode0), hrun, hshadow, hbank, hpassed, rfl⟩

/-- Settles O11: LOAD by the selection, CHECK by the result and the fallback. -/
theorem loadAndCheckEnd : Obligations.LoadAndCheckEnd := by
  unfold Obligations.LoadAndCheckEnd
  refine ⟨fun s b hm hb => ?_, fun s reason hm hb => ?_, fun s b bytes im hm hb hi hf => ?_,
    fun s b bytes f hm hb hf hn => ?_, fun s b bytes f hm hb hf hr => ?_⟩
  · refine ⟨_, congrArg Host.Outcome.next (effLoadComplete_selected hm hb), ?_⟩
    generalize hu : ({ s with cfg := { s.cfg with
      fetched := some (b, (s.bank b).image), lastBank := some b
      triedBanks := b :: s.cfg.triedBanks.filter (· != b) } } : State) = u
    obtain ⟨hmode, hprev, -⟩ := transition_chip .check u
    obtain ⟨c, hc⟩ := transition_cfg (new := .check) (by decide) u
    rw [hmode, hprev, hc, ← hu]
    exact ⟨rfl, hm, rfl, rfl⟩
  · obtain ⟨hmode, hprev, hreason, -, -, hrun, hshadow⟩ := enterHold_facts { reason := reason } {} (s := s) rfl
    exact ⟨_, congrArg Host.Outcome.next (effLoadComplete_none hm hb), hmode, hprev.trans hm, hreason, hrun, hshadow⟩
  · obtain ⟨hmode, hprev, hrest⟩ := checkPassed_facts b im (s := s) rfl
    exact ⟨_, congrArg Host.Outcome.next (effCheckComplete_passed hm hb hi hf), hmode, hprev.trans hm, hrest⟩
  · obtain ⟨hmode, hprev, hreason, hdetail, hunit, hrun, -⟩ :=
      enterHold_facts f ((checkImage s bytes).img.getD {}) (s := s) rfl
    exact ⟨_, congrArg Host.Outcome.next ((effCheckComplete_failed hm hb hf).trans (if_neg (by simp [hn]))), hmode,
      hprev.trans hm, hreason, hdetail, hunit, hrun⟩
  · refine ⟨_, congrArg Host.Outcome.next ((effCheckComplete_failed hm hb hf).trans (if_pos hr)), ?_⟩
    generalize hu : setReason f.reason f.detail f.unit
      { s with cfg := { s.cfg with loadBy := .named (1 - b), fallbackUsed := true } } = u
    obtain ⟨c, hc⟩ := transition_load_cfg u
    rw [(transition_chip .load u).1, hc, ← hu]
    exact ⟨rfl, rfl, rfl⟩

/-! ## Entry to RUN -/

theorem pulse_pair (l : Nat) (s : State) : (pulse l s).pair = s.pair := by
  unfold pulse
  split <;> rfl

theorem setRole_pair (role claim : Nat) (s : State) :
    (setRole role claim s).pair.role = role ∧ (setRole role claim s).pair.claim = claim := by
  unfold setRole
  split
  · exact ⟨‹_›, rfl⟩
  · dsimp only
    split
    · rw [pulse_pair]
      exact ⟨rfl, rfl⟩
    · exact ⟨rfl, rfl⟩

/-- An unpaired unit in RUN holds the claim of its pair epoch raised by one, once it stands in MRAM (R432, R433). -/
theorem pairEnterRun_unpaired {s t : State} (ht : t = pairEnterRun s) (hp : isPaired s = false) {e : Nat}
    (he : e = min 0xFFFFFF (s.mram.pairEpoch + 1)) : t.pair.role = 1 ∧ t.pair.claim = e * 256 + rankOf s ∧
    t.mram = { s.mram with pairEpoch := e, rings := AMap.set s.mram.rings (epochRing * 1024 + e % 1024) e } := by
  subst he
  obtain ⟨hrole, hclaim⟩ := setRole_pair 1 (activeClaim (min 0xFFFFFF (s.mram.pairEpoch + 1)) (rankOf s))
    (persistEpoch (min 0xFFFFFF (s.mram.pairEpoch + 1)) s)
  have hmram := (setRole_keeps (m := 0x1040200) (a0 := 1) (a1 := activeClaim (min 0xFFFFFF (s.mram.pairEpoch + 1)) (rankOf s))
    (Keeps.refl _ (persistEpoch (min 0xFFFFFF (s.mram.pairEpoch + 1)) s)) (Sub.of (by decide))).same .mram (by decide)
  rw [ht, pairEnterRun, if_neg (by simp [hp])]
  exact ⟨hrole, hclaim, hmram⟩

/-- On entry to RUN the pairing unit takes its role before the ring starts. -/
theorem enterMode_run (s : State) :
    Keeps 0x1800208 (pairEnterRun (trigEnterRun (startGates s))) (enterMode .run s) := by
  unfold enterMode enterRun
  exact herdEnter_keeps (Keeps.refl _ _) (Sub.of (by decide))

/-- What entry to RUN leaves of the claim and of MRAM is what the pairing unit does with the memory, the straps and the
settings that the device had before. -/
theorem transition_run_unpaired {s t : State} (ht : t = transition .run s) (hp : isPaired s = false) {e : Nat}
    (he : e = min 0xFFFFFF (s.mram.pairEpoch + 1)) : t.pair.role = 1 ∧ t.pair.claim = e * 256 + rankOf s ∧
    t.mram = { s.mram with pairEpoch := e, rings := AMap.set s.mram.rings (epochRing * 1024 + e % 1024) e } := by
  generalize hu : trigEnterRun (startGates (regimeChange s.chip.mode .run (setMode .run (leaveMode .run s)))) = u
  have hset : Keeps 0xc3454e00 (setMode .run (leaveMode .run s)) u := hu ▸
    trigEnterRun_keeps (startGates_keeps (regimeChange_keeps (Keeps.refl _ _) (Sub.of (by decide))) (Sub.of (by decide)))
      (Sub.of (by decide))
  have hleft := leaveMode_keeps .run s
  have hafter : Keeps 0x1800208 (pairEnterRun u) t := by
    rw [ht, transition_eq, ← hu]
    exact pulse_keeps (enterMode_run _) (Sub.of (by decide))
  have hmram : u.mram = s.mram :=
    calc u.mram = (leaveMode .run s).mram := hset.same .mram (by decide)
      _ = s.mram := hleft.same .mram (by decide)
  have hrank : rankOf u = rankOf s := by
    obtain ⟨-, -, -, -, -, -, -, hstraps, -⟩ := chip_of_same (hset.same .chip (by decide))
    obtain ⟨-, -, -, -, -, -, -, hstraps', -⟩ := chip_of_same (hleft.same .chip (by decide))
    rw [rankOf, hstraps, rankOf, ← hstraps']
    rfl
  have hpaired : isPaired u = isPaired s := by
    obtain ⟨c, hc⟩ := leaveMode_cfg .run s
    have hcfg : u.cfg = { s.cfg with commit := c } :=
      calc u.cfg = (leaveMode .run s).cfg := hset.same .cfg (by decide)
        _ = { s.cfg with commit := c } := hc
    have hident : u.ident = s.ident :=
      calc u.ident = (leaveMode .run s).ident := hset.same .ident (by decide)
        _ = s.ident := hleft.same .ident (by decide)
    simp only [isPaired, pairPresent, State.cfgB, State.cfgN, hcfg, hident]
  obtain ⟨hrole, hclaim, hepoch⟩ := pairEnterRun_unpaired (s := u) rfl (hpaired.trans hp) (hmram ▸ he)
  have hpair : t.pair = (pairEnterRun u).pair := hafter.same .pair (by decide)
  have hring : t.mram = (pairEnterRun u).mram := hafter.same .mram (by decide)
  rw [hpair, hring, hepoch, hmram, ← hrank]
  exact ⟨hrole, hclaim, rfl⟩

theorem effStartTaken_taken {s : State} (hm : s.chip.mode = .armed) (hs : s.chip.startPending = true)
    (hl : locksMet s = true) : effStartTaken s = transition .run s := if_pos ⟨hm, hs, hl⟩

theorem effStartTaken_waits {s : State} (h : s.chip.mode ≠ .armed ∨ s.chip.startPending = false ∨ locksMet s = false) :
    effStartTaken s = s :=
  if_neg fun ⟨hm, hs, hl⟩ => by
    rcases h with h | h | h
    · exact h hm
    · simp [h] at hs
    · simp [h] at hl

/-! ## Entry to SAFE -/

/-- Entry to SAFE (R468): the reason, and its record in MRAM with the time of D0. -/
theorem enterSafe_facts (reason detail : Nat) {s t : State} (ht : t = enterSafe reason detail s) :
    t.chip.mode = .safe ∧ t.chip.prev = s.chip.mode ∧ t.chip.reason = reason ∧ t.chip.reasonDetail = detail ∧
    t.chip.startPending = false ∧ t.chip.safePending = none ∧ t.nap.transfers = [] ∧ t.mram.safeReason = reason ∧
    t.mram.safeDetail = detail ∧ t.mram.safeTime = s.ns 0 ∧ t.mram.safeEntries = (s.mram.safeEntries + 1) % 2 ^ 64 := by
  obtain ⟨hmode, hprev, -, -, -, hstart, -⟩ := transition_chip .safe s
  have htransfers := transition_transfers .safe s
  have hentries := transition_mram (new := .safe) (by decide) s
  unfold enterSafe at ht
  generalize transition .safe s = u at ht hmode hprev hstart htransfers hentries
  have hsettled : Keeps 0x5000a08 (recordSafe reason detail (s.ns 0) (checkpoint (setReason reason detail 0xFFFFFFFF u))) t :=
    ht ▸ settleMgt_keeps (Keeps.refl _ _) (Sub.of (by decide))
  obtain ⟨smode, sprev, -, sreason, sdetail, -, sstart, -⟩ := chip_of_same (hsettled.same .chip (by decide))
  have hpending : t.chip.safePending = none := hsettled.same .safeRequest (by decide)
  have hnap : t.nap = u.nap := hsettled.same .nap (by decide)
  have hmram : t.mram = _ := hsettled.same .mram (by decide)
  rw [hnap, hmram, ← hentries]
  exact ⟨smode.trans hmode, sprev.trans hprev, sreason, sdetail, sstart.trans hstart, hpending, htransfers,
    rfl, rfl, rfl, rfl⟩

/-- The states of R71 from which a fault leads to SAFE. -/
theorem canEnterSafe_iff (m : Mode) : canEnterSafe m = true ↔ m ∈ [Mode.load, .check, .hold, .armed, .run] := by
  cases m <;> decide

section
variable {s : State} {reason detail at_ : Nat} (hp : s.chip.safePending = some (reason, detail, at_))
include hp

theorem effSafeEntryOnFault_due (ha : at_ < s.cycle) (hm : s.chip.mode ∈ [.load, .check, .hold, .armed, .run]) :
    effSafeEntryOnFault s = enterSafe reason detail s := by
  have hdue : safeDue s = true := by simp only [safeDue, hp, ha, (canEnterSafe_iff _).2 hm]; rfl
  simp only [effSafeEntryOnFault, hp, if_pos hdue]

theorem effSafeEntryOnFault_waits (h : s.cycle ≤ at_ ∨ s.chip.mode ∉ [.load, .check, .hold, .armed, .run]) :
    effSafeEntryOnFault s = s := by
  have hdue : ¬safeDue s = true := by
    simp only [safeDue, hp, Bool.and_eq_true, decide_eq_true_eq, canEnterSafe_iff]
    exact fun ⟨ha, hm⟩ => h.elim (Nat.not_le.2 ha) fun h => h hm
  simp only [effSafeEntryOnFault, hp, if_neg hdue]

end

theorem effSafeEntryOnFault_none {s : State} (hp : s.chip.safePending = none) : effSafeEntryOnFault s = s := by
  simp only [effSafeEntryOnFault, hp]

/-- Settles O13: RUN is `transition_run_unpaired`, SAFE is `enterSafe_facts`. -/
theorem runAndSafeEntry : Obligations.RunAndSafeEntry := by
  unfold Obligations.RunAndSafeEntry
  refine ⟨fun s => ⟨fun hm hs hl => ?_, fun h => congrArg _ (effStartTaken_waits h)⟩,
    fun s => ⟨fun reason detail at_ hp => ⟨fun ha hm => ?_, fun h => congrArg _ (effSafeEntryOnFault_waits hp h)⟩,
      fun hp => congrArg _ (effSafeEntryOnFault_none hp)⟩⟩
  · obtain ⟨hmode, hprev, -, -, -, hstart, -⟩ := transition_chip .run s
    exact ⟨_, congrArg Host.Outcome.next (effStartTaken_taken hm hs hl), hmode, hprev.trans hm, hstart,
      transition_entryTime .run s, fun hp e he => transition_run_unpaired rfl hp he⟩
  · exact ⟨_, congrArg Host.Outcome.next (effSafeEntryOnFault_due hp ha hm), enterSafe_facts reason detail rfl⟩

end Sys2Proof.Machine
end

section
/-!
PROOF. Learning and ageing in the filtering database (R138 to R142).
-/
namespace Sys2Proof.Machine

/-! ## Counting at a port -/

@[simp] theorem State.bumpPort_fdb (s : State) (p sub : Nat) : (s.bumpPort p sub).fdb = s.fdb :=
  (State.bumpPort_keeps (m := 0x200) (Keeps.refl _ s) (Sub.of (by decide))).same .fdb (by decide)

/-- What a port counts depends on the counters alone. -/
theorem State.bumpPort_cnt_congr {s t : State} (h : t.cnt = s.cnt) (p sub : Nat) :
    (t.bumpPort p sub).cnt = (s.bumpPort p sub).cnt := by
  have hbump : (t.bump (portCounters p) sub).cnt = (s.bump (portCounters p) sub).cnt :=
    congrArg (fun c => AMap.upd 0 c (cntKey (portCounters p) sub 0) fun c => (c + 1) % 2 ^ 64) h
  unfold State.bumpPort
  split
  · exact hbump
  · split
    · exact hbump
    · exact h

/-! ## One learn request (R139, R140) -/

/-- An entry stored and counted at a port: a lookup of its key finds it, and the port counts as it would alone. -/
theorem storeEntry_facts {s t : State} {k p sub : Nat} {e : Learned}
    (ht : t = (s.updLearned fun m => AMap.set m k e).bumpPort p sub) :
    AMap.find t.fdb.learned k = some e ∧ t.cnt = (s.bumpPort p sub).cnt := by
  subst ht
  refine ⟨?_, State.bumpPort_cnt_congr (s.updLearned_cnt _) p sub⟩
  rw [State.bumpPort_fdb]
  exact (AMap.find_set s.fdb.learned k k e).trans (if_pos rfl)

/-- All that a request can do to the database: nothing, or one entry stored under its key. -/
theorem applyLearn_fdb (r : LearnReq) (s : State) : (applyLearn r s).fdb = s.fdb ∨
    ∃ e, (applyLearn r s).fdb = { s.fdb with learned := AMap.set s.fdb.learned r.key e } := by
  have stored : ∀ e sub, ((s.updLearned fun m => AMap.set m r.key e).bumpPort r.port sub).fdb =
      { s.fdb with learned := AMap.set s.fdb.learned r.key e } := fun e sub => State.bumpPort_fdb _ _ _
  have refused := State.bumpPort_fdb s r.port 0x39
  unfold applyLearn
  split
  · exact .inl rfl
  · split
    · split
      · exact .inl rfl
      · split
        · exact .inr ⟨_, stored _ _⟩
        · exact .inl refused
    · split
      · split
        · exact .inr ⟨_, stored _ _⟩
        · exact .inl refused
      · exact .inl refused

theorem applyLearn_requests (r : LearnReq) (s : State) : (applyLearn r s).fdb.requests = s.fdb.requests := by
  rcases applyLearn_fdb r s with h | ⟨e, h⟩ <;> rw [h]

theorem applyLearn_find_other {r : LearnReq} {k : Nat} (h : k ≠ r.key) (s : State) :
    AMap.find (applyLearn r s).fdb.learned k = AMap.find s.fdb.learned k := by
  rcases applyLearn_fdb r s with hf | ⟨e, hf⟩
  · rw [hf]
  · rw [hf]
    exact (AMap.find_set s.fdb.learned r.key k e).trans (if_neg (Ne.symm h))

theorem applyLearn_static {r : LearnReq} {s : State} (h : (s.row 0x2004 r.key).isSome = true) : applyLearn r s = s :=
  if_pos h

section
variable {r : LearnReq} {s : State} {e : Learned} {w : Nat} (hr : (s.row 0x2004 r.key).isSome = false)
include hr

theorem applyLearn_samePort (he : AMap.find s.fdb.learned r.key = some e) (hp : e.port = r.port) : applyLearn r s = s := by
  simp only [applyLearn, hr, he, hp, Bool.false_eq_true, if_false, if_true]

theorem applyLearn_moves (he : AMap.find s.fdb.learned r.key = some e) (hp : e.port ≠ r.port)
    (hroom : learnRoom s r.port = true) : applyLearn r s =
      (s.updLearned fun m => AMap.set m r.key { e with port := r.port, hit := true }).bumpPort r.port 0x38 := by
  simp only [applyLearn, hr, he, hp, hroom, Bool.false_eq_true, if_false, if_true]

theorem applyLearn_enters (he : AMap.find s.fdb.learned r.key = none)
    (hw : freeWay (waysUsed s.fdb.learned s.fdb.staticWay (fdbBucket r.key)) = some w)
    (hroom : learnRoom s r.port = true) : applyLearn r s =
      (s.updLearned fun m => AMap.set m r.key { port := r.port, hit := true, way := w }).bumpPort r.port 0x37 := by
  simp only [applyLearn, hr, he, hw, hroom, Bool.false_eq_true, if_false, if_true]

/-- An unknown address is refused for want of a way or of room. -/
theorem applyLearn_refuses (he : AMap.find s.fdb.learned r.key = none)
    (h : freeWay (waysUsed s.fdb.learned s.fdb.staticWay (fdbBucket r.key)) = none ∨ learnRoom s r.port = false) :
    applyLearn r s = s.bumpPort r.port 0x39 := by
  simp only [applyLearn, hr, he, Bool.false_eq_true, if_false]
  split
  · next w hw =>
    have hroom : learnRoom s r.port = false := h.resolve_left (by simp [hw])
    exact if_neg (by simp [hroom])
  · rfl

end

/-- The state with another list of waiting learn requests. -/
def State.withRequests (s : State) (l : List LearnReq) : State := { s with fdb := { s.fdb with requests := l } }

/-- Counting at a port does not ask which requests wait. -/
theorem State.withRequests_bumpPort_cnt (s : State) (l : List LearnReq) (p sub : Nat) :
    ((s.withRequests l).bumpPort p sub).cnt = (s.bumpPort p sub).cnt :=
  State.bumpPort_cnt_congr (s := s) (t := s.withRequests l) rfl p sub

/-- The learning unit takes its first request off and applies it. -/
theorem effLearnApply_first {r : LearnReq} {l : List LearnReq} {s : State} (h : s.fdb.requests = r :: l) :
    effLearnApply s = applyLearn r (s.withRequests l) := by
  simp only [effLearnApply, h, State.withRequests]

theorem effLearnApply_idle {s : State} (h : s.fdb.requests = []) : effLearnApply s = s := by
  simp only [effLearnApply, h]

theorem effLearnApply_only (s : State) : Only [.fdb, .cnt] s (effLearnApply s) :=
  (effLearnApply_keeps (Keeps.refl _ s) (Sub.of (by decide))).only

/-! ## Ageing (R142) -/

/-- A sweep lets stand exactly the entries that were hit, and clears their HIT. -/
theorem mem_filterMap_sweepEntry {l : AMap Learned} {e : Nat × Learned} :
    e ∈ l.filterMap sweepEntry ↔ e.2.hit = false ∧ (e.1, { e.2 with hit := true }) ∈ l := by
  have hsweep : ∀ x, sweepEntry x = some e ↔ e.2.hit = false ∧ x = (e.1, { e.2 with hit := true }) := by
    obtain ⟨k, p, h, w⟩ := e
    rintro ⟨k', p', h', w'⟩
    cases h' <;> cases h <;> simp [sweepEntry]
  simp only [List.mem_filterMap, hsweep]
  exact ⟨fun ⟨_, hx, hh, he⟩ => ⟨hh, he ▸ hx⟩, fun ⟨hh, hx⟩ => ⟨_, hx, hh, rfl⟩⟩

theorem effAgeingSweep_due {s : State} (ha : isAlive s.chip.mode = true) (hd : s.fdb.sweepDue ≤ s.cycle) :
    effAgeingSweep s = { s with fdb := { s.fdb with
      learned := s.fdb.learned.filterMap sweepEntry, sweepDue := s.cycle + sCycles (s.cfgN 0x2000 1) } } :=
  if_pos (by simp [ha, hd])

theorem effAgeingSweep_early {s : State} (h : s.cycle < s.fdb.sweepDue) : effAgeingSweep s = s :=
  if_neg (by simp [h])

theorem effAgeingSweep_only (s : State) : Only [.fdb] s (effAgeingSweep s) :=
  (effAgeingSweep_keeps (Keeps.refl _ s) (Sub.of (by decide))).only

/-- Settles O28: the request's cases are those of `applyLearn`, read in the state without the request; a sweep is
`mem_filterMap_sweepEntry`. -/
theorem addressesLearned : Obligations.AddressesLearned := by
  unfold Obligations.AddressesLearned
  refine ⟨fun r l s hq => ?_, fun s hq => congrArg Host.Outcome.next (effLearnApply_idle hq), fun s ha hd => ?_,
    fun s hd => congrArg Host.Outcome.next (effAgeingSweep_early hd), fun s => rfl⟩
  · have hfirst := effLearnApply_first hq
    refine ⟨_, congrArg Host.Outcome.next hfirst, applyLearn_requests r (s.withRequests l), hfirst ▸ effLearnApply_only s,
      fun k hk => applyLearn_find_other hk (s.withRequests l), fun hr => ?_, fun hr => ⟨fun e he hp => ?_,
      fun e he hp hroom => ?_, fun w he hw hroom => ?_, fun he hfull => ?_⟩⟩
    · exact congrArg (·.fdb.learned) (applyLearn_static (s := s.withRequests l) hr)
    · exact congrArg (·.fdb.learned) (applyLearn_samePort (s := s.withRequests l) hr he hp)
    · obtain ⟨hfind, hcnt⟩ := storeEntry_facts (applyLearn_moves (s := s.withRequests l) hr he hp hroom)
      exact ⟨hfind, hcnt.trans (s.withRequests_bumpPort_cnt l _ _)⟩
    · obtain ⟨hfind, hcnt⟩ := storeEntry_facts (applyLearn_enters (s := s.withRequests l) hr he hw hroom)
      exact ⟨hfind, hcnt.trans (s.withRequests_bumpPort_cnt l _ _)⟩
    · rw [applyLearn_refuses (s := s.withRequests l) hr he hfull, State.bumpPort_fdb]
      exact ⟨rfl, s.withRequests_bumpPort_cnt l _ _⟩
  · have hdue := effAgeingSweep_due ha hd
    refine ⟨_, congrArg Host.Outcome.next hdue, ?_, hdue ▸ effAgeingSweep_only s,
      fun e he => mem_filterMap_sweepEntry.1 he, fun e he hh => mem_filterMap_sweepEntry.2 ⟨rfl, ?_⟩⟩
    · exact congrArg (s.cycle + ·) (Nat.mul_comm _ _)
    · obtain ⟨k, p, h, w⟩ := e
      cases hh
      exact he

end Sys2Proof.Machine
end

section
/-!
PROOF. Latent tests and the lines of absent slices (R3, R178, R179, R411).
-/
namespace Sys2Proof.Machine

/-! ## Lines of slices -/

/-- The FRER lines are those of the slices, S0 to S16 (R411). -/
theorem lineExists_frer (id : Ident) {i : Nat} (h : i ≤ 16) : lineExists id (192 + i) = slicePresent id i := by
  have hin : 192 ≤ 192 + i ∧ 192 + i ≤ 208 := by omega
  have hline : 1 ≤ 192 + i ∧ 192 + i ≤ 247 := by omega
  rw [lineExists, if_pos hin, Nat.add_sub_cancel_left, decide_eq_true hline.1, decide_eq_true hline.2]
  rfl

/-- Nothing is pulsed on a line that does not exist. -/
theorem pulse_of_not_lineExists {s : State} {l : Nat} (h : lineExists s.ident l = false) : pulse l s = s :=
  if_neg (by simp [h])

/-- Whatever a latent test finds, it pulses nothing for a context whose home slice is absent. -/
theorem effLatentTest_pulses_absentSlice {s : State} {k : Nat} (hi : recSlice k ≤ 16)
    (ha : slicePresent s.ident (recSlice k) = false) : (effLatentTest k s).intc.pulses = s.intc.pulses := by
  have hline : lineExists s.ident (192 + recSlice k) = false := (lineExists_frer s.ident hi).trans ha
  unfold effLatentTest
  split
  case isTrue =>
    dsimp only
    split
    · split
      · rfl
      · rw [detectFault_pulses, pulse_of_not_lineExists]
        · rfl
        · exact hline
    · rfl
  case isFalse => rfl

/-! ## A drifting context of an absent slice -/

/-- A BX unit has S0 to S7 and S16 only (R3); it runs with a row for context 0 of S8, two latent paths and otherwise
defaults, and 2,000 ms after the last test 100,000 frames have passed there and none was discarded. -/
def driftInAbsentSlice : State :=
  { cycle := 2000 * 1600000
    ident := { ordering := 2, revision := 0, unit := 1 }
    chip := { mode := .run }
    cfg := { running := { tables := [(0x3003, [(8 * 16384,
      [.num 0, .num 128, .num 0, .num 32, .num 2000000, .num 0, .num 0, .num (2 ^ 64 - 1), .num 0, .num 2, .num 16,
        .num 2000, .num 30000, .num 128])])] } }
    frer := { recs := [(8 * 16384, { pw := 100000 })] } }

theorem driftInAbsentSlice_row : (driftInAbsentSlice.row 0x3003 (8 * 16384)).isSome = true := by decide

/-- The test is due and finds the drift for the first time. -/
theorem driftInAbsentSlice_drifts : latentOn driftInAbsentSlice (8 * 16384) = true ∧
    latentTestDue driftInAbsentSlice (8 * 16384) ≤ driftInAbsentSlice.cycle ∧
    recField driftInAbsentSlice driftInAbsentSlice.cfg.running (8 * 16384) 12 <
      (((driftInAbsentSlice.recov (8 * 16384)).pw : Int) *
        (recField driftInAbsentSlice driftInAbsentSlice.cfg.running (8 * 16384) 11 - 1 : Nat) -
          (driftInAbsentSlice.recov (8 * 16384)).dw).natAbs ∧
    (driftInAbsentSlice.recov (8 * 16384)).latentError = false := by decide

/-- No line is pulsed there. -/
theorem driftInAbsentSlice_pulses : (effLatentTest (8 * 16384) driftInAbsentSlice).intc.pulses = [] :=
  effLatentTest_pulses_absentSlice (by decide) (by decide)

/-- Refutes O35: the statement asks for a pulse of the slice's line wherever a context has a row, and no line of an
absent slice can be pulsed (`lineExists`, R411). In `driftInAbsentSlice` LATENT_ERROR rises for a context of S8 on a
unit without S8, and no pulse stands. -/
theorem not_frerTimers : ¬ Obligations.FrerTimers := by
  unfold Obligations.FrerTimers
  intro h
  obtain ⟨-, -, -, -, htest, -⟩ := h (8 * 16384) driftInAbsentSlice driftInAbsentSlice_row
  obtain ⟨hon, hdue, hdrift, hclear⟩ := driftInAbsentSlice_drifts
  obtain ⟨t, hrun, -, -, -, -, -, -, -, hfirst⟩ := htest hon hdue _ Iff.rfl
  obtain ⟨hpulse, -⟩ := hfirst hdrift hclear
  have ht : effLatentTest (8 * 16384) driftInAbsentSlice = t := Host.Outcome.next.inj hrun
  rw [← ht, driftInAbsentSlice_pulses] at hpulse
  exact List.not_mem_nil hpulse

end Sys2Proof.Machine
end

section
/-!
PROOF. The fence of a crosspoint: parity errors, unlinking and rebuilding (R193, R194, R207).
-/
namespace Sys2Proof.Machine

/-! ## Queues and crosspoints after a write -/

/-- An entry that a lookup finds stands in the map. -/
theorem AMap.mem_of_find {α : Type} {m : AMap α} {k : Nat} {a : α} (h : AMap.find m k = some a) : (k, a) ∈ m := by
  induction m with
  | nil => cases h
  | cons e r ih =>
    obtain ⟨i, b⟩ := e
    unfold AMap.find at h
    split at h
    · rename_i hi
      cases hi; cases h
      exact List.mem_cons_self
    · exact List.mem_cons_of_mem _ (ih h)

@[simp] theorem State.updXp_xp (s : State) (x : Nat) (f : XPoint → XPoint) : (s.updXp x f).xp x = f (s.xp x) :=
  AMap.get_upd_same _ _ _ _

theorem State.updXp_xp_other (s : State) {x y : Nat} (f : XPoint → XPoint) (h : y ≠ x) : (s.updXp x f).xp y = s.xp y :=
  AMap.get_upd_other _ _ _ h.symm

theorem State.xp_congr {s t : State} (h : t.fabric.xps = s.fabric.xps) (x : Nat) : t.xp x = s.xp x := by
  rw [State.xp, h, State.xp]

@[simp] theorem State.updQueue_queue (s : State) (p tc : Nat) (f : Queue → Queue) :
    (s.updQueue p tc f).queue p tc = f (s.queue p tc) := AMap.get_upd_same _ _ _ _

theorem State.queue_congr {s t : State} (h : t.fabric.queues = s.fabric.queues) (p tc : Nat) :
    t.queue p tc = s.queue p tc := by rw [State.queue, h, State.queue]

/-- A change that makes no queue longer makes no other queue longer either. -/
theorem State.updQueue_refs_subset (s : State) (p tc : Nat) {f : Queue → Queue} (hf : ∀ q, (f q).refs ⊆ q.refs) (a b : Nat) :
    ((s.updQueue p tc f).queue a b).refs ⊆ (s.queue a b).refs := by
  by_cases h : queueKey p tc = queueKey a b
  · have hq : (s.updQueue p tc f).queue a b = f (s.queue a b) := by
      unfold State.queue State.updQueue
      rw [h]
      exact AMap.get_upd_same _ _ _ _
    rw [hq]
    exact hf _
  · have hq : (s.updQueue p tc f).queue a b = s.queue a b := AMap.get_upd_other _ _ _ h
    rw [hq]
    exact List.Subset.refl _

@[simp] theorem State.bumpPort_fabric (s : State) (p sub : Nat) : (s.bumpPort p sub).fabric = s.fabric :=
  (State.bumpPort_keeps (m := 0x200) (Keeps.refl _ s) (Sub.of (by decide))).same .fabric (by decide)

/-- The counters of ports lie below the keyed objects of the fabric. -/
theorem State.counter_bumpPort_other (s : State) (p : Nat) {sub i : Nat} (u k : Nat) (hs : sub < 256) (hi : 0x9200 ≤ i) :
    (s.bumpPort p sub).counter i u k = s.counter i u k := by
  have hbump : p ≤ 261 → (s.bump (portCounters p) sub).counter i u k = s.counter i u k := fun hp =>
    State.counter_bumpBy_other s 1 (by unfold cntKey portCounters; split <;> omega)
  unfold State.bumpPort
  split
  · exact hbump (by omega)
  · split
    · exact hbump (by omega)
    · rfl

/-! ## Releasing a reference -/

theorem dropCell_fence (y : XPoint) (c : Nat) : (dropCell y c).fence = y.fence := by
  unfold dropCell
  split
  · split <;> rfl
  · rfl

theorem freePlace_fence (s : State) (p : Placed) (x : Nat) : ((freePlace s p).xp x).fence = (s.xp x).fence := by
  have hdrop : ∀ y : XPoint, (p.cells.foldl dropCell y).fence = y.fence := fun y =>
    List.foldlRecOn (motive := fun z => z.fence = y.fence) p.cells dropCell rfl fun z hz c _ => (dropCell_fence z c).trans hz
  unfold freePlace
  by_cases h : x = p.xp
  · rw [h, State.updXp_xp, hdrop]
  · rw [State.updXp_xp_other s _ h]

theorem releasePlace_fence (s : State) (p : Placed) (x : Nat) : ((releasePlace s p).2.xp x).fence = (s.xp x).fence := by
  unfold releasePlace
  split
  · exact freePlace_fence s p x
  · rfl

theorem releasePlace_queues (s : State) (p : Placed) : (releasePlace s p).2.fabric.queues = s.fabric.queues := by
  unfold releasePlace
  split <;> rfl

/-- A release touches no queue. -/
theorem releaseRef_queues (id p : Nat) (s : State) : (releaseRef id p s).fabric.queues = s.fabric.queues := by
  unfold releaseRef
  split
  · rfl
  · split
    · rfl
    · exact releasePlace_queues s _

/-- A release lifts no fence. -/
theorem releaseRef_fence (id p : Nat) (s : State) (x : Nat) : ((releaseRef id p s).xp x).fence = (s.xp x).fence := by
  unfold releaseRef
  split
  · rfl
  · split
    · rfl
    · exact releasePlace_fence s _ x

theorem unlinkRef_refs (p tc : Nat) (r : Ref) (s : State) :
    ((unlinkRef p tc r s).queue p tc).refs = (s.queue p tc).refs.filter fun y => y.frame != r.frame := by
  rw [unlinkRef, State.queue_congr (releaseRef_queues _ _ _), State.updQueue_queue]

theorem unlinkRef_refs_subset (p tc : Nat) (r : Ref) (s : State) (a b : Nat) :
    ((unlinkRef p tc r s).queue a b).refs ⊆ (s.queue a b).refs := by
  rw [unlinkRef, State.queue_congr (releaseRef_queues _ _ _)]
  refine State.updQueue_refs_subset s p tc ?_ a b
  exact fun _ => List.filter_sublist.subset

theorem unlinkRef_fence (p tc : Nat) (r : Ref) (s : State) (x : Nat) :
    ((unlinkRef p tc r s).xp x).fence = (s.xp x).fence := releaseRef_fence _ _ _ x

theorem unlinkRef_counter (p tc : Nat) (r : Ref) (s : State) (i u k : Nat) :
    (unlinkRef p tc r s).counter i u k = s.counter i u k := by
  rw [State.counter, (unlinkRef_keeps (m := 0x400) (Keeps.refl _ s) (Sub.of (by decide))).same .cnt (by decide), State.counter]

/-! ## Unlinking in one queue -/

section
variable (p tc sub : Nat)

theorem foldl_unlinkRef_refs_subset (l : List Ref) (s : State) (a b : Nat) :
    ((l.foldl (fun s r => (unlinkRef p tc r s).bumpPort p sub) s).queue a b).refs ⊆ (s.queue a b).refs := by
  refine List.foldlRecOn (motive := fun (t : State) => (t.queue a b).refs ⊆ (s.queue a b).refs) l _ (List.Subset.refl _)
    fun t ht r _ => ?_
  rw [State.queue_congr (congrArg Fabric.queues (State.bumpPort_fabric _ _ _))]
  exact List.Subset.trans (unlinkRef_refs_subset p tc r t a b) ht

/-- Every reference of the list has left the queue. -/
theorem not_mem_foldl_unlinkRef {r : Ref} {l : List Ref} {s : State}
    (h : r ∈ ((l.foldl (fun s r => (unlinkRef p tc r s).bumpPort p sub) s).queue p tc).refs) : r ∉ l := by
  induction l generalizing s with
  | nil => exact List.not_mem_nil
  | cons x l ih =>
    refine List.not_mem_cons_of_ne_of_not_mem (fun hx => ?_) (ih h)
    have hstep := foldl_unlinkRef_refs_subset p tc sub l _ p tc h
    rw [State.queue_congr (congrArg Fabric.queues (State.bumpPort_fabric _ _ _)), unlinkRef_refs, hx] at hstep
    simp at hstep

theorem unlinkWhere_refs_subset (test : Ref → Bool) (s : State) (a b : Nat) :
    ((unlinkWhere test sub p tc s).queue a b).refs ⊆ (s.queue a b).refs :=
  foldl_unlinkRef_refs_subset p tc sub _ s a b

/-- What stays in the queue fails the test. -/
theorem unlinkWhere_refs {test : Ref → Bool} {s : State} {r : Ref}
    (h : r ∈ ((unlinkWhere test sub p tc s).queue p tc).refs) : test r = false := by
  have hin : r ∈ (s.queue p tc).refs := unlinkWhere_refs_subset p tc sub test s p tc h
  have hout := not_mem_foldl_unlinkRef p tc sub h
  simpa [hin] using hout

theorem unlinkWhere_fence (test : Ref → Bool) (s : State) (x : Nat) :
    ((unlinkWhere test sub p tc s).xp x).fence = (s.xp x).fence :=
  foldl_same (fun t => (t.xp x).fence) (fun t r => (congrArg XPoint.fence (State.xp_congr
    (congrArg Fabric.xps (State.bumpPort_fabric _ _ _)) x)).trans (unlinkRef_fence p tc r t x)) _ s

theorem unlinkWhere_counter (test : Ref → Bool) (s : State) {i : Nat} (u k : Nat) (hs : sub < 256) (hi : 0x9200 ≤ i) :
    (unlinkWhere test sub p tc s).counter i u k = s.counter i u k :=
  foldl_same (fun t => t.counter i u k) (fun t r => (State.counter_bumpPort_other _ p u k hs hi).trans
    (unlinkRef_counter p tc r t i u k)) _ s

theorem emptyQueue_refs_subset (s : State) (a b : Nat) : ((emptyQueue p tc s).queue a b).refs ⊆ (s.queue a b).refs := by
  unfold emptyQueue
  split
  · refine State.updQueue_refs_subset s p tc ?_ a b
    exact fun _ => List.Subset.refl _
  · exact List.Subset.refl _

theorem emptyQueue_fence (s : State) (x : Nat) : ((emptyQueue p tc s).xp x).fence = (s.xp x).fence := by
  unfold emptyQueue
  split <;> rfl

theorem emptyQueue_counter (s : State) (i u k : Nat) : (emptyQueue p tc s).counter i u k = s.counter i u k := by
  unfold emptyQueue
  split <;> rfl

end

/-! ## Unlinking in every queue -/

/-- One queue's turn of `unlinkAll`. -/
def unlinkTurn (test : Nat → Ref → Bool) (sub : Nat) (s : State) (q : Nat × Nat) : State :=
  emptyQueue q.1 q.2 (unlinkWhere (test q.1) sub q.1 q.2 s)

theorem unlinkAll_eq (test : Nat → Ref → Bool) (sub : Nat) (s : State) :
    unlinkAll test sub s = (busyQueues s).foldl (unlinkTurn test sub) s := rfl

section
variable (test : Nat → Ref → Bool) (sub : Nat)

theorem unlinkTurn_refs_subset (s : State) (q : Nat × Nat) (a b : Nat) :
    ((unlinkTurn test sub s q).queue a b).refs ⊆ (s.queue a b).refs :=
  List.Subset.trans (emptyQueue_refs_subset q.1 q.2 _ a b) (unlinkWhere_refs_subset q.1 q.2 sub _ s a b)

theorem unlinkTurn_fence (s : State) (q : Nat × Nat) (x : Nat) :
    ((unlinkTurn test sub s q).xp x).fence = (s.xp x).fence :=
  (emptyQueue_fence q.1 q.2 _ x).trans (unlinkWhere_fence q.1 q.2 sub _ s x)

theorem unlinkTurn_counter (s : State) (q : Nat × Nat) {i : Nat} (u k : Nat) (hs : sub < 256) (hi : 0x9200 ≤ i) :
    (unlinkTurn test sub s q).counter i u k = s.counter i u k :=
  (emptyQueue_counter q.1 q.2 _ i u k).trans (unlinkWhere_counter q.1 q.2 sub _ s u k hs hi)

theorem foldl_unlinkTurn_refs_subset (l : List (Nat × Nat)) (s : State) (a b : Nat) :
    ((l.foldl (unlinkTurn test sub) s).queue a b).refs ⊆ (s.queue a b).refs :=
  List.foldlRecOn (motive := fun (t : State) => (t.queue a b).refs ⊆ (s.queue a b).refs) l _ (List.Subset.refl _)
    fun t ht q _ => List.Subset.trans (unlinkTurn_refs_subset test sub t q a b) ht

variable {test sub}

/-- Once a queue has had its turn, what stays in it fails the test. -/
theorem foldl_unlinkTurn_refs {p tc : Nat} {r : Ref} {l : List (Nat × Nat)} {s : State} (hq : (p, tc) ∈ l)
    (h : r ∈ ((l.foldl (unlinkTurn test sub) s).queue p tc).refs) : test p r = false := by
  induction l generalizing s with
  | nil => cases hq
  | cons q l ih =>
    rcases List.mem_cons.1 hq with rfl | hq
    · have hturn := foldl_unlinkTurn_refs_subset test sub l _ p tc h
      exact unlinkWhere_refs p tc sub (emptyQueue_refs_subset p tc _ p tc hturn)
    · exact ih hq h

/-- A queue that holds a reference is among the busy ones. -/
theorem mem_busyQueues {s : State} {p tc : Nat} {r : Ref} (ht : tc < 8) (h : r ∈ (s.queue p tc).refs) :
    (p, tc) ∈ busyQueues s := by
  unfold State.queue AMap.get at h
  cases hf : AMap.find s.fabric.queues (queueKey p tc) with
  | none => rw [hf] at h; cases h
  | some q =>
    rw [hf, Option.getD_some] at h
    have hbusy : (!q.refs.isEmpty) = true := by
      rw [List.isEmpty_eq_false_iff_exists_mem.2 ⟨r, h⟩]
      rfl
    have hkey : (queueKey p tc / 8, queueKey p tc % 8) = (p, tc) := by
      unfold queueKey
      exact Prod.ext (by simp only; omega) (by simp only; omega)
    exact List.mem_map.2 ⟨_, List.mem_filter.2 ⟨AMap.mem_of_find hf, hbusy⟩, hkey⟩

/-- After an unlinking nothing that meets the test stands in a queue. -/
theorem unlinkAll_refs {s : State} {p tc : Nat} {r : Ref} (ht : tc < 8)
    (h : r ∈ ((unlinkAll test sub s).queue p tc).refs) : test p r = false :=
  foldl_unlinkTurn_refs (mem_busyQueues ht (foldl_unlinkTurn_refs_subset test sub _ s p tc h)) h

/-- An unlinking lifts no fence. -/
theorem unlinkAll_fence (s : State) (x : Nat) : ((unlinkAll test sub s).xp x).fence = (s.xp x).fence := by
  rw [unlinkAll_eq]
  exact foldl_same (fun t => (t.xp x).fence) (fun t q => unlinkTurn_fence test sub t q x) _ s

/-- An unlinking counts at ports only. -/
theorem unlinkAll_counter (s : State) {i : Nat} (u k : Nat) (hs : sub < 256) (hi : 0x9200 ≤ i) :
    (unlinkAll test sub s).counter i u k = s.counter i u k := by
  rw [unlinkAll_eq]
  exact foldl_same (fun t => t.counter i u k) (fun t q => unlinkTurn_counter test sub t q u k hs hi) _ s

end

/-! ## Parity errors -/

/-- A crosspoint notes a parity error and takes the stage of fence that follows (R207). -/
def noteParity (f : Fence) (x : Nat) (s : State) : State :=
  s.updXp x fun y => { y with fence := f, lastError := some s.cycle }

/-- Block 7, the crosspoints' one, is present on every unit. -/
theorem blockPresent_fabric (id : Ident) : blockPresent id 7 = true := by
  unfold blockPresent unitsPresent
  split <;> decide

/-- What a parity error leaves, whichever stage of fence follows. -/
theorem detectFault_noteParity {f : Fence} {x j c : Nat} {s t : State} (ha : isAlive s.chip.mode = true)
    (ht : t = detectFault 7 j c x (noteParity f x s)) :
    (t.xp x).fence = f ∧ (t.xp x).lastError = some s.cycle ∧ bit (t.fault 7 j).status (c - 1) = true ∧
      ∀ y, y ≠ x → t.xp y = s.xp y := by
  have hxp : ∀ y, t.xp y = (noteParity f x s).xp y := State.xp_congr (by
    rw [ht, (detectFault_keeps (m := 0xc3000000) (Keeps.refl _ _) (Sub.of (by decide))).same .fabric (by decide)])
  have hx : t.xp x = { s.xp x with fence := f, lastError := some s.cycle } := (hxp x).trans (State.updXp_xp _ _ _)
  have hbit : bit (t.fault 7 j).status (c - 1) = true := by
    rw [ht, detectFault_fault (s := noteParity f x s) ha (blockPresent_fabric _)]
    exact noteFault_bit _ _ _ _ _
  refine ⟨by rw [hx], by rw [hx], hbit, fun y hy => ?_⟩
  rw [hxp, noteParity, State.updXp_xp_other s _ hy]

section
variable {i j : Nat} {s : State} (hi : slicePresent s.ident i = true) (hj : slicePresent s.ident j = true)
  (ha : isAlive s.chip.mode = true) (hf : (s.xp (xpKey i j)).fence ≠ .permanent)
include hi hj ha hf

/-- An error with none in the second before it fences the crosspoint. -/
theorem effParityFence_first (h : (s.xp (xpKey i j)).lastError = none ∨
      ∃ at_, (s.xp (xpKey i j)).lastError = some at_ ∧ at_ + 1600000000 ≤ s.cycle) :
    effParityFence i j s = detectFault 7 j 2 (xpKey i j) (noteParity .fenced (xpKey i j) s) := by
  unfold effParityFence
  rw [if_pos (by simp [hi, hj, ha])]
  rcases h with h | ⟨at_, h, hlate⟩
  · simp [h, hf, noteParity]
  · have hold : ¬ s.cycle < at_ + sCycles 1 := by unfold sCycles; omega
    simp [h, hf, hold, noteParity]

/-- A further error within a second leaves it fenced for good. -/
theorem effParityFence_second {at_ : Nat} (h : (s.xp (xpKey i j)).lastError = some at_) (hsoon : s.cycle < at_ + 1600000000) :
    effParityFence i j s = detectFault 7 j 3 (xpKey i j) (noteParity .permanent (xpKey i j) s) := by
  have hagain : s.cycle < at_ + sCycles 1 := hsoon
  unfold effParityFence
  rw [if_pos (by simp [hi, hj, ha])]
  simp [h, hf, hagain, noteParity]

end

theorem effParityFence_idle {i j : Nat} {s : State}
    (h : isAlive s.chip.mode = false ∨ (s.xp (xpKey i j)).fence = .permanent) : effParityFence i j s = s := by
  unfold effParityFence
  rcases h with h | h
  · exact if_neg (by simp [h])
  · split
    · exact if_pos (by simp [h])
    · rfl

/-! ## FENCE_UNLINK -/

theorem effFenceUnlink_fenced {i j : Nat} {s : State} (h : (s.xp (xpKey i j)).fence = .fenced) : effFenceUnlink i j s =
    (unlinkAll (refInXp s (xpKey i j)) 0x56 s).updXp (xpKey i j) fun y => { y with fence := .unlinked } := by
  simp [effFenceUnlink, h]

theorem effFenceUnlink_permanent {i j : Nat} {s : State} (h : (s.xp (xpKey i j)).fence = .permanent) :
    effFenceUnlink i j s = unlinkAll (refInXp s (xpKey i j)) 0x56 s := by
  simp [effFenceUnlink, h]

theorem effFenceUnlink_idle {i j : Nat} {s : State} (h : (s.xp (xpKey i j)).fence = .none ∨
    (s.xp (xpKey i j)).fence = .unlinked) : effFenceUnlink i j s = s := by
  rcases h with h | h <;> simp [effFenceUnlink, h]

/-- Under a fence the queues after FENCE_UNLINK are those of the unlinking. -/
theorem effFenceUnlink_queues {i j : Nat} {s : State} (h : (s.xp (xpKey i j)).fence = .fenced ∨
    (s.xp (xpKey i j)).fence = .permanent) :
    (effFenceUnlink i j s).fabric.queues = (unlinkAll (refInXp s (xpKey i j)) 0x56 s).fabric.queues := by
  rcases h with h | h
  · rw [effFenceUnlink_fenced h]
    rfl
  · rw [effFenceUnlink_permanent h]

theorem effFenceUnlink_ports (i j : Nat) (s : State) : (effFenceUnlink i j s).ports = s.ports :=
  (effFenceUnlink_keeps (m := 0x600) (Keeps.refl _ s) (Sub.of (by decide))).same .ports (by decide)

/-! ## FENCE_REBUILD -/

theorem countAt_counter (l : List Nat) {sub i : Nat} (s : State) (u k : Nat) (hs : sub < 256) (hi : 0x9200 ≤ i) :
    (countAt l sub s).counter i u k = s.counter i u k :=
  foldl_same (fun t => t.counter i u k) (fun t p => State.counter_bumpPort_other t p u k hs hi) l s

theorem forgetWriting_counter (x : Nat) (s : State) {i : Nat} (u k : Nat) (hi : 0x9200 ≤ i) :
    (forgetWriting x s).counter i u k = s.counter i u k := countAt_counter _ _ u k (by decide) hi

/-- A crosspoint rebuilt: no cells, no tails, no fence. -/
def XPoint.rebuilt (y : XPoint) : XPoint := { y with cells := [], tails := [], fence := .none }

section
variable {i j : Nat} {s : State} (h : (s.xp (xpKey i j)).fence = .unlinked)
include h

theorem effFenceRebuild_xp : (effFenceRebuild i j s).xp (xpKey i j) =
    ((forgetWriting (xpKey i j) (unlinkAll (refInXp s (xpKey i j)) 0x56 s)).xp (xpKey i j)).rebuilt := by
  rw [effFenceRebuild, if_pos (by simp [h])]
  exact State.updXp_xp _ _ XPoint.rebuilt

theorem effFenceRebuild_counter : (effFenceRebuild i j s).counter 0x9200 7 (xpKey i j) =
    (s.counter 0x9200 7 (xpKey i j) + 1) % 2 ^ 64 := by
  have hbefore : (forgetWriting (xpKey i j) (unlinkAll (refInXp s (xpKey i j)) 0x56 s)).counter 0x9200 7 (xpKey i j) =
      s.counter 0x9200 7 (xpKey i j) :=
    (forgetWriting_counter _ _ _ _ (by decide)).trans (unlinkAll_counter _ _ _ (by decide) (by decide))
  rw [← hbefore, effFenceRebuild, if_pos (by simp [h])]
  exact State.counter_bumpK_same _ _ _ _

end

theorem effFenceRebuild_idle {i j : Nat} {s : State} (h : (s.xp (xpKey i j)).fence ≠ .unlinked) : effFenceRebuild i j s = s :=
  if_neg (by simp [h])

/-- Settles O33: a parity error marks its crosspoint and its fault in block 7, an unlinking goes through every queue that
holds a reference, and a rebuild clears the crosspoint; none of the releases in between lifts a fence or counts one. -/
theorem fencesHeal : Obligations.FencesHeal := by
  unfold Obligations.FencesHeal
  intro i j s hi hj _ _
  refine ⟨fun ha hf => ⟨fun hold => ?_, fun at_ hlast hsoon => ?_⟩, fun h => ?_, fun h => ?_, fun h => ⟨?_, ?_⟩, fun h => ?_,
    fun h => ?_⟩
  · exact ⟨_, rfl, detectFault_noteParity ha (effParityFence_first hi hj ha hf hold)⟩
  · obtain ⟨hfence, -, hbit, hother⟩ := detectFault_noteParity ha (effParityFence_second hi hj ha hf hlast hsoon)
    exact ⟨_, rfl, hfence, hbit, hother⟩
  · exact congrArg Host.Outcome.next (effParityFence_idle h)
  · refine ⟨_, rfl, fun hf => ?_, fun hp => ?_, effFenceUnlink_ports i j s, fun p tc _ ht r hr => ?_⟩
    · rw [effFenceUnlink_fenced hf, State.updXp_xp]
    · rw [effFenceUnlink_permanent hp, unlinkAll_fence, hp]
    · rw [State.queue_congr (effFenceUnlink_queues h)] at hr
      exact unlinkAll_refs ht hr
  · exact congrArg Host.Outcome.next (effFenceUnlink_idle (.inr h))
  · have hxp := effFenceRebuild_xp h
    exact ⟨_, rfl, congrArg XPoint.fence hxp, congrArg XPoint.cells hxp, congrArg XPoint.tails hxp, effFenceRebuild_counter h⟩
  · exact congrArg Host.Outcome.next (effFenceUnlink_idle (.inl h))
  · exact congrArg Host.Outcome.next (effFenceRebuild_idle h)

end Sys2Proof.Machine
end

section
/-!
PROOF. The core-clock cycle that passes on an empty queue (R238, R239, R500).
-/
namespace Sys2Proof.Machine

/-- An entry of a list changed throughout, by a change that leaves the default as it is. -/
theorem getD_map_of_fixed {α : Type} {f : α → α} {x : α} (l : List α) (i : Nat) (h : f x = x) :
    (l.map f).getD i x = f (l.getD i x) := by
  rw [List.getD_eq_getElem?_getD, List.getD_eq_getElem?_getD, List.getElem?_map]
  cases l[i]? with
  | none => exact h.symm
  | some a => rfl

theorem tickDomain_value (x : Domain) : (tickDomain x).value =
    if x.enabled = true then x.value + (incNow x).zeroExtend 96 else x.value := by
  unfold tickDomain
  split <;> rfl

/-- The cycle itself advances the domains where it begins a tick. -/
theorem idleCycle_dom (s : State) (d : Nat) : (idleCycle s).dom d =
    if isAlive s.chip.mode = true ∧ tickOf s.cycle < tickOf (s.cycle + 1) then tickDomain (s.dom d) else s.dom d := by
  unfold idleCycle
  dsimp only
  simp only [Bool.and_eq_true, decide_eq_true_eq]
  split
  · exact getD_map_of_fixed s.time.domains d rfl
  · rfl

theorem idleCycle_cycle (s : State) : (idleCycle s).cycle = s.cycle + 1 := by
  unfold idleCycle
  dsimp only
  split <;> rfl

/-- Around the cycle itself stand operations that touch neither the cycle count nor the time unit. -/
theorem idle_around (s : State) : ∃ u, Keeps 0xcb458e48 s u ∧ Keeps 0xcb458e48 (idleCycle u) (idle s) := by
  unfold idle
  split
  · refine ⟨noteWakes (endCycle s), ?_, ?_⟩
    · exact noteWakes_keeps (endCycle_keeps (.refl _ s) (Sub.of (by decide))) (Sub.of (by decide))
    · refine scanTargets_keeps (kickReads_keeps (.foldl _ (fun u p hu => sendControl_keeps hu (Sub.of (by decide))) ?_)
        (Sub.of (by decide))) (Sub.of (by decide))
      exact issueDue_keeps (growFrames_keeps (tickShapers_keeps (.refl _ _) (Sub.of (by decide))) (Sub.of (by decide)))
        (Sub.of (by decide))
  · exact ⟨s, .refl _ s, .refl _ _⟩

theorem idle_cycle (s : State) : (idle s).cycle = s.cycle + 1 := by
  obtain ⟨u, hu, ht⟩ := idle_around s
  rw [ht.same .cycle (by decide), idleCycle_cycle, hu.same .cycle (by decide)]

theorem idle_dom (s : State) (d : Nat) : (idle s).dom d =
    if isAlive s.chip.mode = true ∧ tickOf s.cycle < tickOf (s.cycle + 1) then tickDomain (s.dom d) else s.dom d := by
  obtain ⟨u, hu, ht⟩ := idle_around s
  have hdom : u.dom d = s.dom d := by rw [State.dom, hu.same .time (by decide), State.dom]
  rw [State.dom, ht.same .time (by decide), ← State.dom, idleCycle_dom, (chip_of_same (hu.same .chip (by decide))).1,
    hu.same .cycle (by decide), hdom]

/-- Settles O2: the cycle count and the domains are `idle_cycle` and `idle_dom`, the other parts `idle_keeps`. -/
theorem idleCyclePasses : Obligations.IdleCyclePasses := by
  unfold Obligations.IdleCyclePasses
  intro s hp
  have hk : Keeps 0xcb658e4a s (idle s) := idle_keeps (.refl _ s) (Sub.of rfl)
  refine ⟨idle s, by rw [step, hp], Eq.trans (hk.same .pending (by decide)) hp, idle_cycle s,
    (idle_keeps (m := maskOf _) (.refl _ s) (Sub.of (by decide))).only, fun d => ?_⟩
  rw [idle_dom]
  by_cases ha : isAlive s.chip.mode = true ∧ tickOf s.cycle < tickOf (s.cycle + 1)
  · rw [if_pos ha, tickDomain_value]
    simp only [ha, true_and]
  · rw [if_neg ha, if_neg fun h => ha ⟨h.1, h.2.1⟩]

end Sys2Proof.Machine
end

section
/-!
PROOF. Measurements of a domain's offset: lock, PPS inputs and outputs (R241, R246 to R250, R464).
-/
namespace Sys2Proof.Machine

/-! ## Lock -/

theorem detectFault_time (b i c detail : Nat) (s : State) : (detectFault b i c detail s).time = s.time :=
  (detectFault_keeps (m := 0xc3000000) (.refl _ s) (Sub.of (by decide))).same .time (by decide)

theorem detectFault_cnt (b i c detail : Nat) (s : State) : (detectFault b i c detail s).cnt = s.cnt :=
  (detectFault_keeps (m := 0xc3000000) (.refl _ s) (Sub.of (by decide))).same .cnt (by decide)

theorem State.dom_congr {s t : State} (h : t.time.domains = s.time.domains) (d : Nat) : t.dom d = s.dom d := by
  rw [State.dom, h, State.dom]

theorem State.counter_congr {s t : State} (h : t.cnt = s.cnt) (i u k : Nat) : t.counter i u k = s.counter i u k := by
  rw [State.counter, h, State.counter]

theorem State.updDom_length (s : State) (d : Nat) (f : Domain → Domain) :
    (s.updDom d f).time.domains.length = s.time.domains.length := List.length_modify ..

/-- A domain whose LOCKED changes (R250): a fall sets LOCK_LOST. -/
def lockDomain (b : Bool) (x : Domain) : Domain := { x with locked := b, lockLost := x.lockLost || !b }

section
variable {d : Nat} {b : Bool} {s : State}

/-- LOCKED that changes changes its domain alone. -/
theorem setLocked_domains (h : (s.dom d).locked ≠ b) :
    (setLocked d b s).time.domains = (s.updDom d (lockDomain b)).time.domains := by
  rw [setLocked, if_neg h]
  cases b with
  | true =>
    have hf : lockDomain true = fun x => { x with locked := true } := funext fun x => by simp [lockDomain]
    dsimp only
    rw [if_pos rfl, pulse_time, hf]
  | false =>
    have hf : lockDomain false = (fun x => { x with lockLost := true }) ∘ fun x => { x with locked := false } :=
      funext fun x => by simp [lockDomain]
    have hu : ∀ u : State, u.time = (pulse (163 + d) (s.updDom d fun x => { x with locked := false })).time →
        (u.updDom d fun x => { x with lockLost := true }).time.domains = (s.updDom d (lockDomain false)).time.domains := by
      intro u ht
      rw [hf]
      show updAt u.time.domains d _ = updAt s.time.domains d _
      rw [ht, pulse_time]
      exact List.modify_modify_eq ..
    dsimp only
    rw [if_neg (by decide)]
    split
    · rw [detectFault_time]
      exact hu _ rfl
    · exact hu _ rfl

theorem setLocked_locked (hd : d < s.time.domains.length) : ((setLocked d b s).dom d).locked = b := by
  by_cases h : (s.dom d).locked = b
  · rw [setLocked, if_pos h, h]
  · rw [State.dom_congr (setLocked_domains h), State.updDom_dom s d _ hd]
    rfl

theorem setLocked_dom_other {e : Nat} (he : d ≠ e) : (setLocked d b s).dom e = s.dom e := by
  by_cases h : (s.dom d).locked = b
  · rw [setLocked, if_pos h]
  · rw [State.dom_congr (setLocked_domains h), State.updDom_dom_other s _ he]

/-- Counters of domain entries other than LOCK_LOSSES stay. -/
theorem setLocked_counter {x u : Nat} (hx : x < 0x6104) (hu : u < 0x100) (hne : u ≠ 0x23) :
    (setLocked d b s).counter x u 0 = s.counter x u 0 := by
  have hpulse : ∀ v, (pulse (163 + d) v).counter x u 0 = v.counter x u 0 := fun v =>
    counter_pulse v (by unfold cntKey; omega)
  have hloss : ∀ v : State, (v.bump (domObj d) 0x23).counter x u 0 = v.counter x u 0 := fun v =>
    State.counter_bumpBy_other v 1 (by unfold cntKey; omega)
  have hhit : ∀ (v : State) f, ((v.updDom d f).hit (.domStatus d 10) 0).counter x u 0 = v.counter x u 0 := fun v f =>
    State.counter_congr (by simp) _ _ _
  have hlock : ∀ f, (s.updDom d f).counter x u 0 = s.counter x u 0 := fun f => State.counter_congr rfl _ _ _
  unfold setLocked
  split
  · rfl
  · dsimp only
    split
    · rw [hpulse, hlock]
    · split
      · rw [State.counter_congr (detectFault_cnt ..), hloss, hhit, hpulse, hlock]
      · rw [hloss, hhit, hpulse, hlock]

/-- Of a domain that loses lock only LOCKED, LOCK_LOST and the counts of good and bad measurements change. -/
theorem loseLock_dom_field {α : Type} (φ : Domain → α) (hlock : ∀ x, φ { x with locked := false } = φ x)
    (hlost : ∀ x, φ { x with lockLost := true } = φ x) (hd : d < s.time.domains.length) :
    φ ((loseLock d s).dom d) = φ { s.dom d with good := 0, bad := 0 } := by
  rw [loseLock, setLocked_dom_field φ d d false _ hlock hlost, State.updDom_dom s d _ hd]

theorem loseLock_locked (hd : d < s.time.domains.length) : ((loseLock d s).dom d).locked = false :=
  setLocked_locked (by rw [State.updDom_length]; exact hd)

end

/-! ## Measurements -/

/-- A domain that takes a measurement, ahead of what it means for lock (R250, R257). -/
def measuredDomain (d : Nat) (e : Int) (n : Nat) (s : State) (x : Domain) : Domain :=
  { x with
    lastOffset := e.tdiv n, measuredAt := s.cycle
    good := if offsetWithin e n (s.cfgN (domObj d) 0x0A) then x.good + 1 else 0
    bad := if !offsetWithin e n (s.cfgN (domObj d) 0x0C) then x.bad + 1 else 0 }

/-- The measurement itself, counted. -/
def measureTaken (d : Nat) (e : Int) (n : Nat) (s : State) : State :=
  (s.updDom d (measuredDomain d e n s)).bump (domObj d) 0x24

theorem measure_eq {d n : Nat} {e : Int} {s u : State} (hu : u = measureTaken d e n s) : measure d e n s =
    if !(u.dom d).locked && u.cfgN (domObj d) 0x0B ≤ (u.dom d).good then setLocked d true u
    else if (u.dom d).locked && u.cfgN (domObj d) 0x0D ≤ (u.dom d).bad then setLocked d false u
    else u := by
  subst hu
  rfl

/-- Behind the measurement LOCKED may change, nothing else. -/
theorem measure_cases (d : Nat) (e : Int) (n : Nat) (s : State) :
    measure d e n s = measureTaken d e n s ∨ ∃ b, measure d e n s = setLocked d b (measureTaken d e n s) := by
  rw [measure_eq rfl]
  split
  · exact .inr ⟨true, rfl⟩
  · split
    · exact .inr ⟨false, rfl⟩
    · exact .inl rfl

/-- What a measurement leaves of its domain, lock and its counts apart. -/
theorem measure_dom_field {α : Type} (φ : Domain → α) {d : Nat} {s : State} (e : Int) (n : Nat)
    (hlock : ∀ x b, φ { x with locked := b } = φ x) (hlost : ∀ x, φ { x with lockLost := true } = φ x)
    (hd : d < s.time.domains.length) : φ ((measure d e n s).dom d) = φ (measuredDomain d e n s (s.dom d)) := by
  have ht : (measureTaken d e n s).dom d = measuredDomain d e n s (s.dom d) := State.updDom_dom s d _ hd
  rcases measure_cases d e n s with h | ⟨b, h⟩
  · rw [h, ht]
  · rw [h, setLocked_dom_field φ d d b _ (fun x => hlock x b) hlost, ht]

theorem measure_dom_other {d x : Nat} (e : Int) (n : Nat) (s : State) (h : d ≠ x) : (measure d e n s).dom x = s.dom x := by
  have ht : (measureTaken d e n s).dom x = s.dom x := State.updDom_dom_other s _ h
  rcases measure_cases d e n s with hm | ⟨b, hm⟩
  · rw [hm, ht]
  · rw [hm, setLocked_dom_other h, ht]

/-- Counters of domain entries other than LOCK_LOSSES are those of the measurement. -/
theorem measure_counter {d x u : Nat} (e : Int) (n : Nat) (s : State) (hx : x < 0x6104) (hu : u < 0x100) (hne : u ≠ 0x23) :
    (measure d e n s).counter x u 0 = (s.bump (domObj d) 0x24).counter x u 0 := by
  rcases measure_cases d e n s with hm | ⟨b, hm⟩
  · rw [hm]; rfl
  · rw [hm, setLocked_counter hx hu hne]; rfl

/-! ## Accesses -/

section
variable {f d : Nat} {s : State} (hf : s.barReach f = true) (hd : d < 8)
include hf hd

theorem effOffsetReport_reach (v : Nat) (he : (s.dom d).enabled = true) : effOffsetReport f d v s =
    if s.domSource d = 1 then measure d (toSigned 32 v * 2 ^ 16) 1 s else s := by
  simp [effOffsetReport, hf, hd, he]

theorem effTimeFracRead_reach : effTimeFracRead f d s =
    (s.updFnTime f d fun w => { w with latchNs := s.ns d }).emit
      (.reg f (0x030000 + d * 0x100) ((s.dom d).value.toNat % 2 ^ 32)) := by
  simp [effTimeFracRead, hf, hd]

end

/-! ## PPS edges -/

/-- What an edge at another domain than d leaves, as far as d's own edge goes by it. -/
structure EdgeFrame (d : Nat) (s t : State) : Prop where
  dom : t.dom d = s.dom d
  rejects : t.counter (domObj d) 0x25 0 = s.counter (domObj d) 0x25 0
  rest : Keeps 0xc3200200 s t

theorem EdgeFrame.trans {d : Nat} {s t u : State} (h : EdgeFrame d s t) (k : EdgeFrame d t u) : EdgeFrame d s u :=
  ⟨k.dom.trans h.dom, k.rejects.trans h.rejects, h.rest.trans k.rest⟩

/-- The servo changes its domain's pending step, integral and staged increments (R249). -/
theorem ppsServo_updDom (d : Nat) (e : Int) (s : State) : ∃ g, ppsServo d e s = s.updDom d g ∧
    ∀ x, ∃ step integ inc, g x = { x with step := step, integ := integ, incNext := inc } := by
  unfold ppsServo
  dsimp only
  split
  · split
    · exact ⟨id, (State.updDom_of_fixed rfl).symm, fun x => ⟨x.step, x.integ, x.incNext, rfl⟩⟩
    · exact ⟨_, rfl, fun x => ⟨_, x.integ, x.incNext, rfl⟩⟩
  · exact ⟨_, rfl, fun x => ⟨x.step, _, _, rfl⟩⟩

/-- An earlier edge, if there was one, is less than n core cycles ago. -/
def lessThanAgo (n now : Nat) (last : Option Nat) : Bool :=
  match last with
  | some t => decide (now < t + n)
  | none => false

theorem lessThanAgo_of_le {n now : Nat} {last : Option Nat} (h : ∀ t, last = some t → t + n ≤ now) :
    lessThanAgo n now last = false := by
  cases last with
  | none => rfl
  | some t => exact decide_eq_false (Nat.not_lt_of_le (h t rfl))

theorem lessThanAgo_of_lt {n now t : Nat} {last : Option Nat} (hl : last = some t) (h : now < t + n) :
    lessThanAgo n now last = true := hl ▸ decide_eq_true h

/-- An edge is for a domain that is enabled and names its input and direction (R247). -/
def edgeNamed (input : Nat) (rising : Bool) (s : State) (d : Nat) : Bool :=
  (s.dom d).enabled && s.cfgN (domObj d) 4 == input && s.cfgB (domObj d) 5 == !rising

/-- The domain notes the edge. -/
def edgeNoted (s : State) (d : Nat) : State := s.updDom d fun x => { x with lastPps := some s.cycle }

/-- An edge noted under SOURCE PPS is one measurement, ahead of it the servo's step or increment. -/
def edgeMeasured (quarter : Nat) (s : State) (d : Nat) : State :=
  let e := ppsOffset (ppsCapture s d quarter)
  measure d (e * 2 ^ 14) 1 (ppsServo d e (edgeNoted s d))

section
variable {input : Nat} {rising : Bool} {quarter d : Nat} {s : State}

/-- The captured time is that of the domain before it notes the edge. -/
theorem ppsCapture_edgeNoted : ppsCapture (edgeNoted s d) d quarter = ppsCapture s d quarter := by
  have hv : ((edgeNoted s d).dom d).value = (s.dom d).value := updDom_dom_field (·.value) s d d fun _ => rfl
  rw [ppsCapture, hv]
  rfl

/-- An edge at one domain (R247). -/
theorem ppsEdgeAt_eq : ppsEdgeAt input rising quarter s d =
    if edgeNamed input rising s d then
      if lessThanAgo 800000000 s.cycle (s.dom d).lastPps then s.bump (domObj d) 0x25
      else if s.domSource d = 2 then edgeMeasured quarter s d else edgeNoted s d
    else s := by
  rw [edgeMeasured, ← ppsCapture_edgeNoted]
  rfl

/-- What a measured edge leaves of its domain. -/
theorem edgeMeasured_dom (hd : d < s.time.domains.length) :
    ((edgeMeasured quarter s d).dom d).lastPps = some s.cycle ∧ ((edgeMeasured quarter s d).dom d).value = (s.dom d).value ∧
    ((edgeMeasured quarter s d).dom d).measuredAt = s.cycle ∧
    ((edgeMeasured quarter s d).dom d).lastOffset = ppsOffset (ppsCapture s d quarter) * 2 ^ 14 := by
  obtain ⟨g, hservo, hg⟩ := ppsServo_updDom d (ppsOffset (ppsCapture s d quarter)) (edgeNoted s d)
  have hn : (edgeNoted s d).dom d = { s.dom d with lastPps := some s.cycle } := State.updDom_dom s d _ hd
  have hl : d < (edgeNoted s d).time.domains.length := by rw [edgeNoted, State.updDom_length]; exact hd
  obtain ⟨step, integ, inc, hx⟩ := hg ((edgeNoted s d).dom d)
  have hw : ((edgeNoted s d).updDom d g).dom d =
      { s.dom d with lastPps := some s.cycle, step := step, integ := integ, incNext := inc } := by
    rw [State.updDom_dom _ d g hl, hx, hn]
  have hl' : d < ((edgeNoted s d).updDom d g).time.domains.length := by rw [State.updDom_length]; exact hl
  rw [edgeMeasured, hservo]
  refine ⟨?_, ?_, ?_, ?_⟩
  · rw [measure_dom_field (·.lastPps) _ 1 (fun _ _ => rfl) (fun _ => rfl) hl', measuredDomain, hw]
  · rw [measure_dom_field (·.value) _ 1 (fun _ _ => rfl) (fun _ => rfl) hl', measuredDomain, hw]
  · exact measure_dom_field (·.measuredAt) _ 1 (fun _ _ => rfl) (fun _ => rfl) hl'
  · exact (measure_dom_field (·.lastOffset) _ 1 (fun _ _ => rfl) (fun _ => rfl) hl').trans (Int.tdiv_one _)

theorem edgeMeasured_dom_other {e : Nat} (h : d ≠ e) : (edgeMeasured quarter s d).dom e = s.dom e := by
  obtain ⟨g, hservo, -⟩ := ppsServo_updDom d (ppsOffset (ppsCapture s d quarter)) (edgeNoted s d)
  rw [edgeMeasured, hservo, measure_dom_other _ 1 _ h, State.updDom_dom_other _ g h, edgeNoted, State.updDom_dom_other _ _ h]

theorem edgeMeasured_rejects {e : Nat} (he : e < 8) :
    (edgeMeasured quarter s d).counter (domObj e) 0x25 0 = s.counter (domObj e) 0x25 0 := by
  obtain ⟨g, hservo, -⟩ := ppsServo_updDom d (ppsOffset (ppsCapture s d quarter)) (edgeNoted s d)
  rw [edgeMeasured, hservo, measure_counter _ 1 _ (by unfold domObj; omega) (by decide) (by decide)]
  exact State.counter_bumpBy_other _ 1 (by unfold cntKey; omega)

theorem edgeFrame_ppsEdgeAt {e : Nat} (hd : d < 8) (h : e ≠ d) : EdgeFrame d s (ppsEdgeAt input rising quarter s e) := by
  refine ⟨?_, ?_, ppsEdgeAt_keeps (.refl _ s) (Sub.of rfl)⟩
  · rw [ppsEdgeAt_eq]
    split
    · split
      · rfl
      · split
        · exact edgeMeasured_dom_other h
        · exact State.updDom_dom_other s _ h
    · rfl
  · rw [ppsEdgeAt_eq]
    split
    · split
      · exact State.counter_bumpBy_other s 1 (by unfold cntKey domObj; omega)
      · split
        · exact edgeMeasured_rejects hd
        · rfl
    · rfl

theorem edgeFrame_foldl (hd : d < 8) {l : List Nat} (h : d ∉ l) :
    EdgeFrame d s (l.foldl (ppsEdgeAt input rising quarter) s) := by
  induction l generalizing s with
  | nil => exact ⟨rfl, rfl, .refl _ s⟩
  | cons e r ih =>
    exact (edgeFrame_ppsEdgeAt hd (List.ne_of_not_mem_cons h).symm).trans (ih (List.not_mem_of_not_mem_cons h))

/-! ## The edge at every domain -/

/-- The input notes the edge. -/
def inputNoted (input : Nat) (s : State) : State :=
  { s with time := { s.time with ppsSeen := setAt s.time.ppsSeen input (some s.cycle) } }

/-- An edge is rejected or noted and taken to every domain (R247, log entry 75). -/
theorem effPpsEdge_eq : effPpsEdge input rising quarter s =
    if isAlive s.chip.mode && decide (input < 2) && !lessThanAgo 160 s.cycle (s.time.ppsSeen.getD input none) then
      (upTo 8).foldl (ppsEdgeAt input rising quarter) (inputNoted input s)
    else s := rfl

theorem effPpsEdge_near {seen : Nat} (h : s.time.ppsSeen.getD input none = some seen) (hc : s.cycle < seen + 160) :
    effPpsEdge input rising quarter s = s := by
  rw [effPpsEdge_eq, lessThanAgo_of_lt h hc, if_neg (by simp)]

/-- As far as one domain goes, an accepted edge is the edge there. -/
theorem effPpsEdge_at (hd : d < 8) (ha : isAlive s.chip.mode = true) (hi : input < 2)
    (hs : ∀ seen, s.time.ppsSeen.getD input none = some seen → seen + 160 ≤ s.cycle) :
    ∃ u, EdgeFrame d s u ∧ EdgeFrame d (ppsEdgeAt input rising quarter u d) (effPpsEdge input rising quarter s) := by
  obtain ⟨before, after, hl⟩ := List.append_of_mem (List.mem_range.2 hd)
  obtain ⟨-, hright, hapart⟩ := List.nodup_append.1 (hl ▸ List.nodup_range : (before ++ d :: after).Nodup)
  have hbefore : d ∉ before := fun h => hapart d h d List.mem_cons_self rfl
  have hafter : d ∉ after := (List.nodup_cons.1 hright).1
  rw [effPpsEdge_eq, lessThanAgo_of_le hs, if_pos (by simp [ha, hi]), upTo, hl, List.foldl_append, List.foldl_cons]
  have hstart : EdgeFrame d s (inputNoted input s) := ⟨rfl, rfl, .setTime (.refl _ s) (Sub.of (by decide))⟩
  exact ⟨before.foldl (ppsEdgeAt input rising quarter) (inputNoted input s),
    hstart.trans (edgeFrame_foldl hd hbefore), edgeFrame_foldl hd hafter⟩

/-- The frame leaves what decides on the edge at its domain. -/
theorem EdgeFrame.cfgN {u : State} (h : EdgeFrame d s u) (i k : Nat) : u.cfgN i k = s.cfgN i k := by
  rw [State.cfgN, h.rest.same .cfg (by decide), h.rest.same .ident (by decide), State.cfgN]

theorem EdgeFrame.cycle {u : State} (h : EdgeFrame d s u) : u.cycle = s.cycle := h.rest.same .cycle (by decide)

theorem EdgeFrame.named {u : State} (h : EdgeFrame d s u) : edgeNamed input rising u d = edgeNamed input rising s d := by
  rw [edgeNamed, State.cfgB, h.dom, h.cfgN, h.cfgN]
  rfl

theorem EdgeFrame.capture {u : State} (h : EdgeFrame d s u) : ppsCapture u d quarter = ppsCapture s d quarter := by
  rw [ppsCapture, h.dom, h.cfgN]
  rfl

section
variable (hd : d < 8) (ha : isAlive s.chip.mode = true) (hi : input < 2) (hn : edgeNamed input rising s d = true)
  (hs : ∀ seen, s.time.ppsSeen.getD input none = some seen → seen + 160 ≤ s.cycle)
include hd ha hi hn hs

/-- An edge too early for its domain is counted. -/
theorem effPpsEdge_early {last : Nat} (hl : (s.dom d).lastPps = some last) (hc : s.cycle < last + 800000000) :
    (effPpsEdge input rising quarter s).dom d = s.dom d ∧
    (effPpsEdge input rising quarter s).counter (domObj d) 0x25 0 = (s.counter (domObj d) 0x25 0 + 1) % 2 ^ 64 := by
  obtain ⟨u, hu, ht⟩ := effPpsEdge_at hd ha hi hs
  have hedge : ppsEdgeAt input rising quarter u d = u.bump (domObj d) 0x25 := by
    rw [ppsEdgeAt_eq, hu.named, if_pos hn, hu.dom, hu.cycle, lessThanAgo_of_lt hl hc, if_pos rfl]
  rw [hedge] at ht
  exact ⟨ht.dom.trans hu.dom, by rw [ht.rejects, State.counter_bump_same, hu.rejects]⟩

/-- Another is noted, and measured under SOURCE PPS. -/
theorem effPpsEdge_noted (hl : ∀ last, (s.dom d).lastPps = some last → last + 800000000 ≤ s.cycle) {t : State}
    (ht : t = effPpsEdge input rising quarter s) :
    (t.dom d).lastPps = some s.cycle ∧ (t.dom d).value = (s.dom d).value ∧
    (s.domSource d = 2 → (t.dom d).measuredAt = s.cycle ∧
      (t.dom d).lastOffset = ppsOffset (ppsCapture s d quarter) * 2 ^ 14) := by
  obtain ⟨u, hu, hframe⟩ := effPpsEdge_at (quarter := quarter) hd ha hi hs
  have he : (s.dom d).enabled = true := by
    simp only [edgeNamed, Bool.and_eq_true] at hn
    exact hn.1.1
  have hlen : d < u.time.domains.length := domain_lt_of_enabled (hu.dom ▸ he)
  have hedge : ppsEdgeAt input rising quarter u d =
      if s.domSource d = 2 then edgeMeasured quarter u d else edgeNoted u d := by
    rw [ppsEdgeAt_eq, hu.named, if_pos hn, hu.dom, hu.cycle, lessThanAgo_of_le hl, if_neg (by decide), State.domSource,
      hu.cfgN]
    rfl
  rw [ht, hframe.dom, hedge]
  obtain ⟨hlast, hvalue, hat, hoff⟩ := edgeMeasured_dom (quarter := quarter) hlen
  rw [hu.cycle] at hlast hat
  rw [hu.dom] at hvalue
  rw [hu.capture] at hoff
  split
  · exact ⟨hlast, hvalue, fun _ => ⟨hat, hoff⟩⟩
  · rw [edgeNoted, State.updDom_dom u d _ hlen]
    exact ⟨congrArg some hu.cycle, by rw [hu.dom], fun h => absurd h ‹_›⟩

end

end

/-! ## A missing measurement -/

/-- Block 11, the time unit's one, is present on every unit. -/
theorem blockPresent_timeUnit (id : Ident) : blockPresent id 11 = true := by
  unfold blockPresent unitsPresent
  split <;> decide

/-- The domain misses its measurement, ahead of the loss of lock. -/
def measureMissed (d : Nat) (s : State) : State :=
  (s.updDom d fun y => { y with ppsMissing := true, measuredAt := s.cycle }).hit (.domStatus d 12) 0

section
variable {d : Nat} {s : State}

theorem effMeasureTimeout_eq : effMeasureTimeout d s =
    if (s.dom d).enabled && s.domSource d != 0 &&
        decide ((s.dom d).measuredAt + 1600000 * s.cfgN (domObj d) 0x0E ≤ s.cycle) then
      detectFault 11 d 2 0 (loseLock d (measureMissed d s))
    else s := by
  rw [Nat.mul_comm 1600000]
  rfl

theorem measureMissed_dom (hd : d < s.time.domains.length) :
    (measureMissed d s).dom d = { s.dom d with ppsMissing := true, measuredAt := s.cycle } := by
  have hhit : ∀ u : State, (u.hit (.domStatus d 12) 0).dom d = u.dom d := fun u => State.dom_congr (by rw [State.hit_time]) d
  rw [measureMissed, hhit, State.updDom_dom s d _ hd]

/-- What a missing measurement leaves of its domain (R250). -/
theorem loseLock_measureMissed_dom (hd : d < s.time.domains.length) {x : Domain}
    (hx : x = (loseLock d (measureMissed d s)).dom d) :
    x.locked = false ∧ x.ppsMissing = true ∧ x.measuredAt = s.cycle ∧ x.good = 0 := by
  have hl : d < (measureMissed d s).time.domains.length := by
    rw [measureMissed, State.hit_time, State.updDom_length]
    exact hd
  subst hx
  refine ⟨loseLock_locked hl, ?_, ?_, ?_⟩
  · rw [loseLock_dom_field (·.ppsMissing) (fun _ => rfl) (fun _ => rfl) hl, measureMissed_dom hd]
  · rw [loseLock_dom_field (·.measuredAt) (fun _ => rfl) (fun _ => rfl) hl, measureMissed_dom hd]
  · exact loseLock_dom_field (·.good) (fun _ => rfl) (fun _ => rfl) hl

/-- A missing measurement is recorded from LOAD on (R462, R464). -/
theorem detectFault_timeUnit {c detail : Nat} (ha : isAlive s.chip.mode = true) :
    bit ((detectFault 11 d c detail s).fault 11 d).status (c - 1) = true := by
  rw [detectFault_fault ha (blockPresent_timeUnit _)]
  exact noteFault_bit _ _ _ _ _

theorem loseLock_measureMissed_mode : (loseLock d (measureMissed d s)).chip.mode = s.chip.mode := by
  have hk : Keeps 0xc3200200 (measureMissed d s) (loseLock d (measureMissed d s)) :=
    loseLock_keeps (.refl _ _) (Sub.of rfl)
  rw [(chip_of_same (hk.same .chip (by decide))).1, measureMissed, State.hit_chip, State.updDom_chip]

/-- A domain without a measurement for MEASURE_TIMEOUT. -/
theorem effMeasureTimeout_due (he : (s.dom d).enabled = true) (hsrc : s.domSource d ≠ 0)
    (h : (s.dom d).measuredAt + 1600000 * s.cfgN (domObj d) 0x0E ≤ s.cycle) {t : State} (ht : t = effMeasureTimeout d s) :
    (t.dom d).locked = false ∧ (t.dom d).ppsMissing = true ∧ (t.dom d).measuredAt = s.cycle ∧ (t.dom d).good = 0 ∧
    (isAlive s.chip.mode = true → bit (t.fault 11 d).status 1 = true) := by
  rw [effMeasureTimeout_eq, if_pos (by simp [he, hsrc, h])] at ht
  have hdom : t.dom d = (loseLock d (measureMissed d s)).dom d := State.dom_congr (by rw [ht, detectFault_time]) d
  obtain ⟨hlock, hmiss, hat, hgood⟩ := loseLock_measureMissed_dom (domain_lt_of_enabled he) hdom
  refine ⟨hlock, hmiss, hat, hgood, fun ha => ?_⟩
  rw [ht]
  exact detectFault_timeUnit (c := 2) (by rw [loseLock_measureMissed_mode, ha])

end

/-! ## PPS outputs -/

section
variable {k d : Nat} {s : State}

theorem effPpsOutPulse_undriven (h : ppsDomain s k = none) : effPpsOutPulse k s = s := by
  rw [effPpsOutPulse, h]

theorem effPpsOutPulse_driven (hk : k < 2) (h : ppsDomain s k = some d) : effPpsOutPulse k s =
    if isActive s.chip.mode = true ∧ (s.time.pps.getD k {}).last < ppsSecond s d then
      s.updPps k fun o =>
        { o with active := true, last := ppsSecond s d, endAt := s.cycle + nsCycles (s.cfgN (domObj d) 0x11) }
    else s := by
  rw [effPpsOutPulse, h]
  simp [hk]

theorem effPpsOutWidthEnd_eq : effPpsOutWidthEnd k s =
    if (s.time.pps.getD k {}).active = true ∧ (s.time.pps.getD k {}).endAt ≤ s.cycle then
      s.updPps k fun y => { y with active := false }
    else s := by
  unfold effPpsOutWidthEnd
  simp only [Bool.and_eq_true, decide_eq_true_eq]

end

/-- Settles O38: reports and reads by their access, an edge as the edge at its one domain, the timeout, and the outputs. -/
theorem offsetsMeasured : Obligations.OffsetsMeasured := by
  unfold Obligations.OffsetsMeasured
  refine ⟨fun f d s hd => ⟨fun hf he v => ⟨fun hsrc => ?_, fun hsrc => ?_⟩,
      fun hf => congrArg Host.Outcome.next (effTimeFracRead_reach hf hd), fun input rising quarter ha hi he hin hdir hs => ?_,
      fun input rising quarter seen hseen hc => congrArg Host.Outcome.next (effPpsEdge_near hseen hc),
      fun he hsrc => ⟨fun hc => ?_, fun hc => ⟨_, rfl, effMeasureTimeout_due he hsrc hc rfl⟩⟩⟩,
    fun k d s hk hdom => ⟨fun ha hl => ?_, fun h => ?_⟩,
    fun k s => ⟨fun h => congrArg Host.Outcome.next (effPpsOutPulse_undriven h), fun ho he => ?_, fun h => ?_⟩⟩
  · have hlen := domain_lt_of_enabled he
    refine ⟨_, congrArg Host.Outcome.next ((effOffsetReport_reach hf hd v he).trans (if_pos hsrc)), ?_, ?_, ?_, ?_⟩
    · exact (measure_dom_field (·.lastOffset) _ 1 (fun _ _ => rfl) (fun _ => rfl) hlen).trans (Int.tdiv_one _)
    · exact measure_dom_field (·.measuredAt) _ 1 (fun _ _ => rfl) (fun _ => rfl) hlen
    · exact measure_dom_field (·.value) _ 1 (fun _ _ => rfl) (fun _ => rfl) hlen
    · rw [measure_counter _ 1 s (by unfold domObj; omega) (by decide) (by decide), State.counter_bump_same]
  · exact congrArg Host.Outcome.next ((effOffsetReport_reach hf hd v he).trans (if_neg hsrc))
  · have hn : edgeNamed input rising s d = true := by simp [edgeNamed, he, hin, hdir]
    exact ⟨fun last hl hc => ⟨_, rfl, effPpsEdge_early hd ha hi hn hs hl hc⟩,
      fun hl => ⟨_, rfl, effPpsEdge_noted hd ha hi hn hs hl rfl⟩⟩
  · exact congrArg Host.Outcome.next (effMeasureTimeout_eq.trans (if_neg (by simp; omega)))
  · exact congrArg Host.Outcome.next ((effPpsOutPulse_driven hk hdom).trans (if_pos ⟨ha, hl⟩))
  · refine congrArg Host.Outcome.next ((effPpsOutPulse_driven hk hdom).trans (if_neg fun ⟨ha, hl⟩ => ?_))
    rcases h with h | h
    · rw [h] at ha; cases ha
    · omega
  · exact congrArg Host.Outcome.next (effPpsOutWidthEnd_eq.trans (if_pos ⟨ho, he⟩))
  · refine congrArg Host.Outcome.next (effPpsOutWidthEnd_eq.trans (if_neg fun ⟨ho, he⟩ => ?_))
    rcases h with h | h
    · rw [h] at ho; cases ho
    · omega

end Sys2Proof.Machine
end

section
/-!
PROOF. Gate transitions and the lines of absent slices (R3, R295, R299, R411).
-/
namespace Sys2Proof.Machine

/-! ## The lines of a port's slice -/

theorem sliceOf_le (p : Nat) : sliceOf p ≤ 16 := by
  unfold sliceOf
  split <;> omega

/-- The lines of late pages are those of the slices, S0 to S16 (R411). -/
theorem lineExists_latePage (id : Ident) {i : Nat} (h : i ≤ 16) : lineExists id (209 + i) = slicePresent id i := by
  have hin : 209 ≤ 209 + i ∧ 209 + i ≤ 225 := by omega
  have hout : ¬(192 ≤ 209 + i ∧ 209 + i ≤ 208) := by omega
  have hline : 1 ≤ 209 + i ∧ 209 + i ≤ 247 := by omega
  rw [lineExists, if_neg hout, if_pos hin, Nat.add_sub_cancel_left, decide_eq_true hline.1, decide_eq_true hline.2]
  rfl

/-- The lines of list changes are those of the slices, S0 to S16 (R411). -/
theorem lineExists_listChange (id : Ident) {i : Nat} (h : i ≤ 16) : lineExists id (226 + i) = slicePresent id i := by
  have hin : 226 ≤ 226 + i ∧ 226 + i ≤ 242 := by omega
  have hlate : ¬(209 ≤ 226 + i ∧ 226 + i ≤ 225) := by omega
  have hfrer : ¬(192 ≤ 226 + i ∧ 226 + i ≤ 208) := by omega
  have hline : 1 ≤ 226 + i ∧ 226 + i ≤ 247 := by omega
  rw [lineExists, if_neg hfrer, if_neg hlate, if_pos hin, Nat.add_sub_cancel_left, decide_eq_true hline.1,
    decide_eq_true hline.2]
  rfl

/-! ## Transitions at a port of an absent slice -/

/-- What leaves the interrupt unit alone leaves the pulses. -/
theorem Keeps.pulses {m : Nat} {s t : State} (h : Keeps m s t) (hm : m.testBit Part.intc.idx = false) :
    t.intc.pulses = s.intc.pulses :=
  congrArg Intc.pulses (h.same .intc hm)

section
variable {p : Nat} {s : State}

/-- What neither gives the device another identity nor touches the interrupt unit, and ends in a pulse of a line that does not
exist, leaves the pulses. -/
theorem Keeps.pulses_pulse {m l : Nat} {t : State} (h : Keeps m s t) (hi : m.testBit Part.ident.idx = false)
    (hm : m.testBit Part.intc.idx = false) (hl : lineExists s.ident l = false) : (pulse l t).intc.pulses = s.intc.pulses := by
  have hid : t.ident = s.ident := h.same .ident hi
  rw [pulse_of_not_lineExists (by rw [hid, hl]), h.pulses hm]

/-- A list is taken without a pulse. -/
theorem takeChange_pulses_absentSlice (h : slicePresent s.ident (sliceOf p) = false) (l : GList) (x : Nat) :
    (takeChange p l x s).intc.pulses = s.intc.pulses :=
  Keeps.pulses_pulse (m := 0x14200)
    (State.bumpPort_keeps (requestPages_keeps (State.updGate_keeps (dropPaging_keeps (Keeps.refl _ s) (Sub.of (by decide)))
      (Sub.of (by decide))) (Sub.of (by decide))) (Sub.of (by decide)))
    (by decide) (by decide) ((lineExists_listChange _ (sliceOf_le p)).trans h)

/-- A late page is recorded without a pulse. -/
theorem latePage_pulses_absentSlice (h : slicePresent s.ident (sliceOf p) = false) (l : GList) :
    (latePage p l s).intc.pulses = s.intc.pulses :=
  (detectFault_pulses _ _ _ _ _).trans <| Keeps.pulses_pulse (m := 0x54a00)
    (State.bumpPort_keeps (requestPages_keeps (refitStop_keeps (State.updGate_keeps (dropPaging_keeps
      (Keeps.ite (disturbDigest_keeps (Keeps.refl _ s) (Sub.of (by decide))) (Keeps.refl _ s))
      (Sub.of (by decide))) (Sub.of (by decide))) (Sub.of (by decide))) (Sub.of (by decide))) (Sub.of (by decide)))
    (by decide) (by decide) ((lineExists_latePage _ (sliceOf_le p)).trans h)

theorem takeStarts_pulses_absentSlice (h : slicePresent s.ident (sliceOf p) = false) :
    (takeStarts p s).intc.pulses = s.intc.pulses := by
  have hstart (g : Gate) : (takeStarts.startList p g s).intc.pulses = s.intc.pulses :=
    (takeStarts.startList_keeps (m := 0x4000) (Keeps.refl _ s) (Sub.of (by decide))).pulses (by decide)
  unfold takeStarts
  dsimp only
  split
  · split
    · exact takeChange_pulses_absentSlice h _ _
    · exact hstart _
  · exact hstart _

theorem enterEntry_pulses_absentSlice (h : slicePresent s.ident (sliceOf p) = false) :
    (enterEntry p s).intc.pulses = s.intc.pulses := by
  unfold enterEntry
  dsimp only
  split
  · split
    · exact latePage_pulses_absentSlice h _
    · split
      · exact (startPage_keeps (m := 0x14000) (Keeps.refl _ s) (Sub.of (by decide))).pulses (by decide)
      · rfl
  · rfl

/-- The anchor of whatever list a transition has taken moves to the current cycle's start. -/
def reanchored (p : Nat) (s : State) : State :=
  match (s.gate p).list with
  | some l => reanchor p l s
  | none => s

theorem reanchored_keeps (p : Nat) (s : State) : Keeps 0x4000 s (reanchored p s) := by
  unfold reanchored
  split
  · exact reanchor_keeps (Keeps.refl _ s) (Sub.of (by decide))
  · exact Keeps.refl _ s

/-- After its starts and pages a transition of a running list leaves the interrupt unit alone (R308). -/
theorem gateTick_after_entry (h : gatesRun s p = true) :
    Keeps 0x44e00 (enterEntry p (reanchored p (takeStarts p s))) (gateTick p s) := by
  unfold gateTick
  rw [if_pos h]
  exact Keeps.foldl _ (fun _ _ hu => periodDrop_keeps hu (Sub.of (by decide)))
    (closeFragment_keeps (applyHold_keeps (State.updGate_keeps (Keeps.refl _ _) (Sub.of (by decide))) (Sub.of (by decide)))
      (Sub.of (by decide)))

/-- Whatever a transition does at a port of an absent slice, it pulses nothing. -/
theorem gateTick_pulses_absentSlice (h : slicePresent s.ident (sliceOf p) = false) :
    (gateTick p s).intc.pulses = s.intc.pulses := by
  by_cases hr : gatesRun s p = true
  · have hk : Keeps 0x1014200 s (reanchored p (takeStarts p s)) :=
      Keeps.change (takeStarts_keeps (Keeps.refl _ s) (Sub.of (by decide))) (Sub.of (by decide)) (reanchored_keeps p _)
    have hid : (reanchored p (takeStarts p s)).ident = s.ident := hk.same .ident (by decide)
    calc (gateTick p s).intc.pulses
        = (enterEntry p (reanchored p (takeStarts p s))).intc.pulses := (gateTick_after_entry hr).pulses (by decide)
      _ = (reanchored p (takeStarts p s)).intc.pulses := enterEntry_pulses_absentSlice (by rw [hid, h])
      _ = (takeStarts p s).intc.pulses := (reanchored_keeps p _).pulses (by decide)
      _ = s.intc.pulses := takeStarts_pulses_absentSlice h
  · rw [gateTick, if_neg hr]

end

/-! ## A list that is pending in an absent slice -/

/-- A list of one entry that opens every gate. -/
def openList : GList := { domain := 0, base := 0, cycle := 1000000, ext := 0, entries := [(0, 0xFF, 1000000)] }

/-- A BX unit has S0 to S7 and S16 only (R3); it runs with a list at P128, of S8, and another one pending there whose
instant has come. -/
def changeInAbsentSlice : State :=
  { ident := { ordering := 2, revision := 0, unit := 1 }
    chip := { mode := .run }
    gates := [(128, { list := some openList, started := true, onChip := [0], pending := some (openList, 0) })] }

theorem changeInAbsentSlice_due : (changeInAbsentSlice.gate 128).pending = some (openList, 0) ∧
    gatesRun changeInAbsentSlice 128 = true ∧ offsetOf (ballNow changeInAbsentSlice 128 openList.domain) 0 ≤ 0 := by decide

/-- The pending list is taken, and no line is pulsed. -/
theorem changeInAbsentSlice_pulses : (effGateConfigChange 128 changeInAbsentSlice).intc.pulses = [] := by
  obtain ⟨hp, hr, hx⟩ := changeInAbsentSlice_due
  simp only [effGateConfigChange, hp, hr, hx, decide_true, Bool.and_self, if_true]
  exact gateTick_pulses_absentSlice (by decide)

/-- Refutes O40: the statement asks for a pulse of the slice's line wherever a pending list is taken, and no line of an
absent slice can be pulsed (`lineExists`, R411). In `changeInAbsentSlice` a list is taken at P128 on a unit without S8,
and no pulse stands. -/
theorem not_gateTransitions : ¬ Obligations.GateTransitions := by
  unfold Obligations.GateTransitions
  intro h
  obtain ⟨hp, hr, hx⟩ := changeInAbsentSlice_due
  obtain ⟨-, -, -, hchange, -⟩ := h 128 changeInAbsentSlice
  obtain ⟨-, htaken⟩ := hchange openList 0 hp hr
  obtain ⟨t, hrun, -, -, hpulse, -⟩ := htaken hx
  have ht : effGateConfigChange 128 changeInAbsentSlice = t := Host.Outcome.next.inj hrun
  rw [← ht, changeInAbsentSlice_pulses] at hpulse
  exact List.not_mem_nil hpulse

end Sys2Proof.Machine
end

section
/-!
PROOF. What PF1 to PF3 may write in the global, pairing and health regions (R14, R372).
-/
namespace Sys2Proof.Machine

/-! ## The regions -/

section
variable {f off v : Nat} {s : State}

theorem bar0Write_pair (h : off / 0x10000 = 6) : bar0Write f off v s = pairWrite f (off % 0x10000) v s := by
  rw [bar0Write, if_neg (by omega), h]
  rfl

/-- The global region denies a write of PF1 to PF3 but for HOST_ERRORS and SCRATCH (R372). -/
theorem globalRegWrite_denied (hf : f ≠ 0) (he : off ≠ 0x14) (hs : off ≠ 0x18) : globalRegWrite f off v s = denyWrite f s := by
  rw [globalRegWrite, if_neg he, if_neg hs, if_neg hf]

theorem pairWrite_denied (hf : f ≠ 0) : pairWrite f off v s = denyWrite f s := if_pos hf

theorem healthRegWrite_denied (hf : f ≠ 0) : healthRegWrite f off v s = denyWrite f s := if_pos hf

/-- All three regions deny PF1 to PF3, but for HOST_ERRORS and SCRATCH (R372). -/
theorem bar0Write_denied (hf : f ≠ 0) (hr : off / 0x10000 ∈ [0, 6, 7]) (he : off ≠ 0x14) (hs : off ≠ 0x18) :
    bar0Write f off v s = denyWrite f s := by
  simp only [List.mem_cons, List.not_mem_nil, or_false] at hr
  rcases hr with hglobal | hpair | hhealth
  · rw [bar0Write_global hglobal]
    exact globalRegWrite_denied hf (by omega) (by omega)
  · rw [bar0Write_pair hpair]
    exact pairWrite_denied hf
  · rw [bar0Write_health hhealth]
    exact healthRegWrite_denied hf

end

/-! ## A denied write -/

theorem denyWrite_pf {f : Nat} {s : State} (h : f < s.pcie.pfs.length) :
    (denyWrite f s).pf f = { s.pf f with writeDenied := true } :=
  State.updPf_pf s f _ h

theorem denyWrite_pf_other {f g : Nat} (s : State) (h : g ≠ f) : (denyWrite f s).pf g = s.pf g :=
  State.updPf_pf_other s _ (Ne.symm h)

theorem denyWrite_only (f : Nat) (s : State) : Only [.pcie, .hits] s (denyWrite f s) :=
  (denyWrite_keeps (m := maskOf [.pcie, .hits]) (Keeps.refl _ s) (Sub.of (by decide))).only

/-! ## The statement -/

/-- Settles O60: the regions deny the write, but for the writer's own SCRATCH and HOST_ERRORS. -/
theorem regionRights : Obligations.RegionRights := by
  unfold Obligations.RegionRights
  intro f v s hf1 _ hreach hv
  have hf : f ≠ 0 := Nat.one_le_iff_ne_zero.mp hf1
  have hword : ∀ off, off < 0x410000 → off % 4 = 0 → exec (.registerWrite f off v 4) s = .next (bar0Write f off v s) :=
    fun off ho ha => congrArg Host.Outcome.next <| by rw [effRegisterWrite_word hreach ho ha, Nat.mod_eq_of_lt hv]
  have hown : ∀ (g : Pf → Pf) (e : Nat), e ≠ f → (s.updPf f g).pf e = s.pf e :=
    fun g _ he => State.updPf_pf_other s g (Ne.symm he)
  refine ⟨fun off ha hr he hs => ?_, ?_, ?_⟩
  · have ho : off < 0x410000 := by
      simp only [List.mem_cons, List.not_mem_nil, or_false] at hr
      omega
    refine ⟨denyWrite f s, ?_, rfl, denyWrite_pf, fun g => denyWrite_pf_other s, denyWrite_only f s⟩
    rw [hword off ho ha, bar0Write_denied hf hr he hs]
  · exact ⟨_, hword 0x18 (by decide) rfl, rfl, hown _⟩
  · exact ⟨_, hword 0x14 (by decide) rfl, rfl, hown _⟩

end Sys2Proof.Machine
end

section
/-!
PROOF. How a channel reads its descriptors (R376, R386, R388 to R391, R402, R404).
-/
namespace Sys2Proof.Machine

/-! ## A read begins -/

/-- The registers of a channel whose descriptor read is outstanding, counted at a function where it reads host space. -/
def reading (at_ : Nat) (fn : Option Nat) (x : Chan) : Chan :=
  { x with fetching := some at_, fetchFn := fn, waitSw := false, wants := false, reread := false }

/-- A channel that is not in IDLE exists. -/
theorem chan_lt_of_state_ne {c : Nat} {s : State} (h : (s.chan c).state ≠ 0) : c < s.dma.chans.length :=
  lt_length_of_getD_ne fun hdefault => h (congrArg Chan.state hdefault)

section
variable {c : Nat} {s : State}

/-- A ring that cannot be reached halts the channel at CUR_DESC (R404). -/
theorem startFetch_unreachable {e : Nat} (h : accessError s c (s.chan c).curHost false (s.chan c).cur 32 = some e) :
    startFetch c s = haltChan c e (s.chan c).cur s := by
  rw [startFetch, h]

section
variable (hreach : accessError s c (s.chan c).curHost false (s.chan c).cur 32 = none)
include hreach

/-- A host read beyond the limit of the channel's function waits (R376). -/
theorem startFetch_waits (hhost : (s.chan c).curHost = true) (hfull : readsAllowed s (chanCfg s c 3) 1 = false) :
    startFetch c s = s.updChan c fun x => { x with wants := true, waitSw := false, reread := false } := by
  rw [startFetch, hreach]
  simp only [hhost, hfull, Bool.not_false, Bool.and_self, if_true]

/-- A host read goes out under the channel's number and counts for its function (R376, R390). -/
theorem startFetch_host (hhost : (s.chan c).curHost = true) (hroom : readsAllowed s (chanCfg s c 3) 1 = true) :
    startFetch c s = (addReads (chanCfg s c 3) 1 (s.updChan c (reading s.cycle (some (chanCfg s c 3))))).emit
      (.hostRead (chanCfg s c 3) (s.chan c).cur 32 c) := by
  rw [startFetch, hreach]
  simp only [hhost, hroom, Bool.not_true, Bool.and_false, Bool.false_eq_true, if_false, if_true]
  rfl

/-- A device read is outstanding without a request to the host (R390). -/
theorem startFetch_device (hdevice : (s.chan c).curHost = false) :
    startFetch c s = s.updChan c (reading s.cycle none) := by
  rw [startFetch, hreach]
  simp only [hdevice, Bool.false_and, Bool.false_eq_true, if_false]
  rfl

end

/-! ## A read repeated by POLL_INTERVAL -/

theorem effPollIntervalExpiry_reads (hpoll : 0 < (s.chan c).poll) (hdue : (s.chan c).pollAt + 1600 * (s.chan c).poll ≤ s.cycle)
    (hst : (s.chan c).state = 1 ∨ endsFrame s c = true) (hwait : (s.chan c).waitSw = true) :
    effPollIntervalExpiry c s = startFetch c s := by
  rw [Nat.mul_comm] at hdue
  rw [effPollIntervalExpiry, if_pos ⟨hpoll, hdue⟩, retryFetch, if_pos ⟨hst, hwait⟩]

theorem effPollIntervalExpiry_idle (h : (s.chan c).poll = 0 ∨ s.cycle < (s.chan c).pollAt + 1600 * (s.chan c).poll ∨
    (s.chan c).waitSw = false) : effPollIntervalExpiry c s = s := by
  unfold effPollIntervalExpiry
  dsimp only
  split
  · next hdue =>
    obtain ⟨hpoll, hpast⟩ := hdue
    have hwait : (s.chan c).waitSw = false := by
      rw [usCycles] at hpast
      exact (h.resolve_left (by omega)).resolve_left (by omega)
    rw [retryFetch, if_neg (by simp [hwait])]
  · rfl

end

/-! ## A descriptor arrives -/

section
variable {c : Nat} {d : Desc} {s : State}

/-- A descriptor still owned by software leaves the channel waiting (R390). -/
theorem gotDesc_software (h : d.own = false) :
    gotDesc c d s = s.updChan c fun x => { x with waitSw := true, pollAt := s.cycle } := by
  simp only [gotDesc, h, Bool.false_eq_true, if_false, Bool.not_false, if_true]

theorem gotDesc_malformed (hown : d.own = true) (hok : descOk (chanRole s c) d = false) :
    gotDesc c d s = haltChan c 0x01 d.addr (s.updChan c (clearHops d)) := by
  simp only [gotDesc, hown, hok, Bool.not_true, Bool.not_false, Bool.false_eq_true, if_false, if_true]

section
variable (hown : d.own = true) (hok : descOk (chanRole s c) d = true)
include hown hok

/-- A link leads to the descriptor it names, or halts the channel where HOP_LIMIT is reached (R391). -/
theorem gotDesc_link (hlink : d.mode = 3) : gotDesc c d s =
    if chanCfg s c 7 < ((s.updChan c (clearHops d)).chan c).hops + 1 then
      haltChan c 0x03 d.addr ((s.updChan c (clearHops d)).updChan c atLink)
    else startFetch c ((s.updChan c (clearHops d)).updChan c fun x =>
      { x with hops := x.hops + 1, cur := d.w0, curHost := d.srcHost }) := by
  simp only [gotDesc, hown, hok, hlink, Bool.not_true, Bool.false_eq_true, if_false, if_true]
  rfl

theorem gotDesc_memory (hplain : d.mode ≠ 3) (hrole : chanRole s c = 0) : gotDesc c d s =
    if lengthOk d then startMemory c d (s.updChan c (clearHops d))
    else haltChan c 0x02 d.addr (s.updChan c (clearHops d)) := by
  simp only [gotDesc, hown, hok, hplain, Bool.not_true, Bool.false_eq_true, if_false, if_true]
  exact if_pos hrole

theorem gotDesc_transmit (hplain : d.mode ≠ 3) (hrole : chanRole s c = 1) :
    gotDesc c d s = startTx c d (s.updChan c (clearHops d)) := by
  simp only [gotDesc, hown, hok, hplain, Bool.not_true, Bool.false_eq_true, if_false, if_true]
  exact (if_neg (by simp [hrole])).trans (if_pos hrole)

/-- A receive descriptor joins those read ahead, which are at most 64 (R390). -/
theorem gotDesc_receive {v : State} (hplain : d.mode ≠ 3) (h0 : chanRole s c ≠ 0) (h1 : chanRole s c ≠ 1)
    (hv : v = (s.updChan c (clearHops d)).updChan c fun x => advance { x with window := x.window ++ [d] }) :
    gotDesc c d s = if (v.chan c).window.length < 64 then startFetch c v else v := by
  subst hv
  simp only [gotDesc, hown, hok, hplain, h0, h1, Bool.not_true, Bool.false_eq_true, if_false, if_true]

end
end

/-! ## A read ends -/

/-- The outstanding descriptor read of a channel has ended and no longer counts (R376, R390). -/
def readEnded (c : Nat) (s : State) : State := dropFetch c (s.updChan c fun y => { y with fetching := none })

theorem chanCfg_readEnded (c e k : Nat) (s : State) : chanCfg (readEnded c s) e k = chanCfg s e k := by
  unfold readEnded dropFetch
  split <;> rfl

theorem readEnded_cycle (c : Nat) (s : State) : (readEnded c s).cycle = s.cycle := by
  unfold readEnded dropFetch
  split <;> rfl

section
variable {c : Nat} {s : State}

theorem effDescriptorFetched_idle (r : ReadEnd) (h : (s.chan c).fetching = none) : effDescriptorFetched c r s = s := by
  rw [effDescriptorFetched, if_neg (by simp [h])]

section
variable (hc : c < 31) (hread : (s.chan c).fetching.isSome = true)
include hc hread

/-- While its read is outstanding a channel takes the descriptor that the read brings: of host space the bytes of the
completion, of device space those of the memory (R388, R390). -/
theorem effDescriptorFetched_data {b : Bytes} {d : Desc}
    (hd : (s.chan c).curHost = true ∧ b.length = 32 ∧ d = descOf (s.chan c).cur true b ∨
      (s.chan c).curHost = false ∧ d = descOf (s.chan c).cur false (devRead s (s.chan c).cur 32)) :
    effDescriptorFetched c (.data b) s = gotDesc c d (readEnded c s) := by
  rw [effDescriptorFetched, if_pos (by simp [hc, hread])]
  rcases hd with ⟨hhost, hlen, rfl⟩ | ⟨hdevice, rfl⟩
  · exact (if_pos hhost).trans (if_pos hlen)
  · exact if_neg (by simp [hdevice])

theorem effDescriptorFetched_poisoned (hhost : (s.chan c).curHost = true) : effDescriptorFetched c .poisoned s =
    haltChan c 0x06 (s.chan c).cur (readSpoilt (chanCfg s c 3) false (readEnded c s)) := by
  rw [effDescriptorFetched, if_pos (by simp [hc, hread])]
  exact if_pos hhost

theorem effDescriptorFetched_ecrc (hhost : (s.chan c).curHost = true) : effDescriptorFetched c .ecrc s =
    haltChan c 0x06 (s.chan c).cur (readSpoilt (chanCfg s c 3) true (readEnded c s)) := by
  rw [effDescriptorFetched, if_pos (by simp [hc, hread])]
  exact if_pos hhost

theorem effDescriptorFetched_eccError (hdevice : (s.chan c).curHost = false) : effDescriptorFetched c .eccError s =
    haltChan c 0x0C (s.chan c).cur (memUncorrectable (s.chan c).cur (readEnded c s)) := by
  rw [effDescriptorFetched, if_pos (by simp [hc, hread])]
  exact if_neg (by simp [hdevice])

end
end

/-! ## The statement -/

/-- Settles O48: how a read begins, what a poll repeats, what an arrived descriptor does, and how a read fails. -/
theorem descriptorReads : Obligations.DescriptorReads := by
  unfold Obligations.DescriptorReads
  refine ⟨fun c s hst => ?begins, fun c s => ?polls, fun c b s u d hc hread hd hu => ?arrives,
    fun c s u hc hread hu => ?fails, fun c r s h => congrArg _ (effDescriptorFetched_idle r h)⟩
  case begins =>
    have hx := chan_lt_of_state_ne hst
    refine ⟨fun e => startFetch_unreachable, fun hreach hhost => ⟨fun hroom => ?_, startFetch_waits hreach hhost⟩,
      fun hreach hdevice => ?_⟩
    · have hchan : (startFetch c s).chan c = reading s.cycle (some (chanCfg s c 3)) (s.chan c) := by
        rw [startFetch_host hreach hhost hroom]
        exact State.updChan_chan s c _ hx
      rw [hchan, startFetch_host hreach hhost hroom]
      exact ⟨rfl, rfl, rfl⟩
    · rw [startFetch_device hreach hdevice, State.updChan_chan s c _ hx]
      exact ⟨rfl, rfl⟩
  case polls =>
    exact ⟨fun hpoll hdue hst hwait => congrArg _ (effPollIntervalExpiry_reads hpoll hdue hst hwait),
      fun h => congrArg _ (effPollIntervalExpiry_idle h)⟩
  case arrives =>
    subst hu
    have hrole : chanRole (readEnded c s) c = chanRole s c := chanCfg_readEnded c c 2 s
    have hrun : exec (.descriptorFetched c (.data b)) s = .next (gotDesc c d (readEnded c s)) :=
      congrArg _ (effDescriptorFetched_data hc hread hd)
    rw [hrun, ← hrole, ← chanCfg_readEnded c c 7 s]
    refine ⟨fun hown => ?_, fun hown w hw => ?_⟩
    · rw [gotDesc_software hown, readEnded_cycle]
      rfl
    · subst hw
      refine ⟨fun hok => congrArg _ (gotDesc_malformed hown hok), fun hok hlink => ?_, fun hok hplain => ?_⟩
      · rw [gotDesc_link hown hok hlink]
        exact ⟨fun hlimit => congrArg _ (if_pos (Nat.lt_succ_of_le hlimit)),
          fun hroom => congrArg _ (if_neg (Nat.not_lt_of_le hroom))⟩
      · refine ⟨fun h0 hlen => ?_, fun h0 hlen => ?_, fun h1 => congrArg _ (gotDesc_transmit hown hok hplain h1),
          fun h0 h1 v hv => congrArg _ (gotDesc_receive hown hok hplain h0 h1 hv)⟩
        · rw [gotDesc_memory hown hok hplain h0, if_pos hlen]
          rfl
        · rw [gotDesc_memory hown hok hplain h0, if_neg (by simp [hlen])]
          rfl
  case fails =>
    subst hu
    exact ⟨fun hhost => ⟨congrArg _ (effDescriptorFetched_poisoned hc hread hhost),
      congrArg _ (effDescriptorFetched_ecrc hc hread hhost)⟩,
      fun hdevice => congrArg _ (effDescriptorFetched_eccError hc hread hdevice)⟩

end Sys2Proof.Machine
end

section
/-!
PROOF. A step with a command at the front of the queue, and the end of memory training (R486 to R488, R498).
-/
namespace Sys2Proof.Machine

/-- Settles O1: it is the second equation of `step`. -/
theorem commandAtFrontRuns : Obligations.CommandAtFrontRuns := by
  unfold Obligations.CommandAtFrontRuns
  intro c rest s h
  rw [step, h]

/-! ## The end of training -/

theorem blockPresent_memory (id : Ident) : blockPresent id 18 = true := by
  unfold blockPresent unitsPresent
  split <;> decide

/-- A detection of a block that is present sets its STATUS bit (R464). -/
theorem detectFault_bit {b i c : Nat} {s : State} (ha : isAlive s.chip.mode = true) (hb : blockPresent s.ident b = true)
    (d : Nat) : bit ((detectFault b i c d s).fault b i).status (c - 1) = true := by
  rw [State.fault_congr (detectFault_faults ha hb)]
  exact noteFault_bit b i c d s

theorem detectFault_mem (b i c d : Nat) (s : State) : (detectFault b i c d s).mem = s.mem :=
  (detectFault_keeps (m := 0xc3000000) (Keeps.refl _ s) (Sub.of (by decide))).same .mem (by decide)

/-- Of the channels up to the failed one those below it are trained, and it is not. -/
theorem trainedUpTo_bit (s : State) {c j : Nat} (h : j ≤ c) : bit (trainedUpTo c s).1 j = decide (j < c) := by
  have hv : (trainedUpTo c s).1 = 2 ^ (c + 1) * (s.draw.1 % 2 ^ (7 - c)) + (2 ^ c - 1) := by
    rw [Nat.mul_comm, Nat.add_comm]; rfl
  have hlt : 2 ^ c < 2 ^ (c + 1) := Nat.pow_lt_pow_right (by decide) (Nat.lt_succ_self c)
  rw [bit_eq_testBit, hv, Nat.testBit_two_pow_mul_add _ (by omega), if_pos (by omega), Nat.testBit_two_pow_sub_one]

/-- The memory as the end of training leaves it, every channel trained. -/
def trained (density ranks : Nat) (s : State) : State :=
  { s with mem := { s.mem with trainDone := true, trained := 0xFF, cells := [], density := density, ranks := ranks } }

/-- The memory where channel `c` has failed. -/
def trainedPart (density ranks c : Nat) (s : State) : State :=
  let u := trainedUpTo c (trained density ranks s)
  { u.2 with mem := { u.2.mem with trained := u.1 } }

section
variable {density ranks : Nat} {failed : Option Nat} {s : State}

theorem effMemoryTrainingDone_idle (h : isAlive s.chip.mode = false ∨ s.mem.trainDone = true) :
    effMemoryTrainingDone density ranks failed s = s := by
  rw [effMemoryTrainingDone, if_neg]
  rcases h with h | h <;> simp [h]

variable (ha : isAlive s.chip.mode = true) (hd : s.mem.trainDone = false)
include ha hd

theorem effMemoryTrainingDone_good (hm : memSupported density ranks = true) :
    effMemoryTrainingDone density ranks none s = trained density ranks s := by
  rw [effMemoryTrainingDone, if_pos (by simp [ha, hd])]
  simp [hm, trained]

theorem effMemoryTrainingDone_failed {c : Nat} (hc : c < 8)
    (h : failed = some c ∨ failed = none ∧ c = 0 ∧ memSupported density ranks = false) :
    effMemoryTrainingDone density ranks failed s = detectFault 18 0 3 c (trainedPart density ranks c s) := by
  have hmin : min 7 (failed.getD 0) = c := by
    rcases h with rfl | ⟨rfl, rfl, -⟩
    · exact Nat.min_eq_right (Nat.le_of_lt_succ hc)
    · rfl
  have hbad : (failed.isSome || !memSupported density ranks) = true := by
    rcases h with rfl | ⟨-, -, hm⟩
    · rfl
    · simp [hm]
  rw [effMemoryTrainingDone, if_pos (by simp [ha, hd])]
  simp only [hbad, hmin, if_true]
  rfl

end

/-- Settles O10: by whether training ends now, and well. -/
theorem memoryTrains : Obligations.MemoryTrains := by
  unfold Obligations.MemoryTrains
  intro density ranks s
  refine ⟨fun ha hd => ⟨fun hm => congrArg _ (effMemoryTrainingDone_good ha hd hm), fun failed c hc h => ?_⟩,
    fun h failed => congrArg _ (effMemoryTrainingDone_idle h)⟩
  refine ⟨_, congrArg Host.Outcome.next (effMemoryTrainingDone_failed ha hd hc h), ?_⟩
  dsimp only
  rw [detectFault_mem]
  exact ⟨rfl, rfl, rfl, rfl, fun j hj => (trainedUpTo_bit _ (Nat.le_of_lt hj)).trans (decide_eq_true hj),
    (trainedUpTo_bit _ (Nat.le_refl c)).trans (decide_eq_false (Nat.lt_irrefl c)),
    detectFault_bit (s := trainedPart density ranks c s) (i := 0) (c := 3) ha (blockPresent_memory s.ident) c⟩

end Sys2Proof.Machine
end

section
/-!
PROOF. The pair-scoped entries: RESET_RECOVERY, RESET_GENERATION and HANDOVER (R440, R445, R50).
-/
namespace Sys2Proof.Machine

/-! ## The claim among the tests of R50 -/

/-- The unit with the role ACTIVE. -/
def asActive (s : State) : State := s.updPair fun y => { y with role := 2 }

theorem claimRefuses_asActive (s : State) (idx sub : Nat) : claimRefuses (asActive s) idx sub = false := by
  simp [claimRefuses, asActive, State.updPair]

/-- The test of the claim, after the other tests. -/
def thenClaim {α : Type} (lost : Bool) : Except Nat α → Except Nat α
  | .ok x => if lost then .error aClaimLost else .ok x
  | .error c => .error c

theorem thenClaim_refused {α : Type} (lost : Bool) (p : Prop) [Decidable p] (c : Nat) (x : Except Nat α) :
    thenClaim lost (if p then .error c else x) = if p then .error c else thenClaim lost x := by
  split <;> rfl

/-- The claim is tested last: what an ACTIVE unit admits, only the claim refuses. -/
theorem admitWrite_asActive (s : State) (r : Requester) (idx sub : Nat) (d : Datum) :
    admitWrite s r idx sub d = thenClaim (claimRefuses s idx sub) (admitWrite (asActive s) r idx sub d) := by
  have hbusy : engineBusy (asActive s).chip.mode = engineBusy s.chip.mode := rfl
  have hident : (asActive s).ident = s.ident := rfl
  have hrights : rightsOf (asActive s) r = rightsOf s r := rfl
  have hstate : ∀ e v, stateAllowsWrite (asActive s) idx e v = stateAllowsWrite s idx e v := fun _ _ => rfl
  have harm : armRefuses (asActive s) idx sub = armRefuses s idx sub := rfl
  simp only [admitWrite, claimRefuses_asActive, hbusy, hident, hrights, hstate, harm, thenClaim_refused]
  cases objSpec s.ident idx with
  | none => rfl
  | some o =>
    dsimp only
    cases o.entry sub with
    | none => rfl
    | some e =>
      simp only [thenClaim_refused]
      rfl

theorem admitWrite_error_ne_ok {s : State} {r : Requester} {idx sub c : Nat} {d : Datum}
    (h : admitWrite s r idx sub d = .error c) : c ≠ 0 := by
  unfold admitWrite at h
  dsimp only at h
  repeat' split at h
  all_goals cases h <;> decide

/-- Only the claim refuses with CLAIM_LOST. -/
theorem admitWrite_error_ne_claimLost {s : State} {r : Requester} {idx sub c : Nat} {d : Datum}
    (hc : claimRefuses s idx sub = false) (h : admitWrite s r idx sub d = .error c) : c ≠ 12 := by
  unfold admitWrite at h
  simp only [hc, Bool.false_eq_true, if_false] at h
  repeat' split at h
  all_goals cases h <;> decide

theorem objWrite_refused {s : State} {r : Requester} {idx sub c : Nat} {d : Datum} (h : admitWrite s r idx sub d = .error c) :
    objWrite r idx sub d s = (c, s) := by
  rw [objWrite, h]

/-- A write that the claim refuses changes nothing, is not performed, and answers CLAIM_LOST where no other test refuses it. -/
theorem objWrite_claimRefused {s : State} {r : Requester} {idx sub : Nat} {d : Datum} (hc : claimRefuses s idx sub = true) :
    (objWrite r idx sub d s).2 = s ∧ (objWrite r idx sub d s).1 ≠ 0 ∧
      ∀ x, admitWrite (asActive s) r idx sub d = .ok x → objWrite r idx sub d s = (12, s) := by
  have hadm := admitWrite_asActive s r idx sub d
  rw [hc] at hadm
  cases hact : admitWrite (asActive s) r idx sub d with
  | ok x =>
    rw [hact] at hadm
    rw [objWrite_refused hadm]
    exact ⟨rfl, Nat.succ_ne_zero 11, fun _ _ => rfl⟩
  | error c =>
    rw [hact] at hadm
    rw [objWrite_refused hadm]
    exact ⟨rfl, admitWrite_error_ne_ok hact, fun x hx => by cases hx⟩

/-! ## The pair-scoped entries -/

/-- The entry of HANDOVER. -/
def handoverEntry : EntrySpec := Cat.wo 8 Cat.u8 (.rng 1 1) .run

/-- The object of the pair, 0x7000. -/
def pairObject : ObjSpec :=
  { entries := [Cat.rws 1 .bool 0 .any, Cat.rws 2 Cat.u8 2 (.rng 0 2), Cat.rws 3 Cat.u32 1000 .any,
      Cat.rws 4 Cat.u8 0 (.rng 0 7), Cat.rws 5 Cat.u32 1024 (.rng 0 1048576), Cat.rws 6 Cat.u8 0 .any, Cat.rws 7 .bool 0 .any,
      handoverEntry, Cat.ro 0x10 Cat.u8, Cat.ro 0x11 Cat.u8, Cat.ro 0x12 .bool, Cat.ro 0x13 Cat.u32, Cat.ro 0x14 Cat.u32,
      Cat.ro 0x15 Cat.u32, Cat.ro 0x16 Cat.u8, Cat.ro 0x17 .bool, Cat.ro 0x18 Cat.u32, Cat.ro 0x19 Cat.u64] }

theorem objSpec_pair (id : Ident) : objSpec id 0x7000 = some pairObject := rfl

theorem pairObject_handover : pairObject.entry 8 = some handoverEntry := rfl

theorem frerAction_ne_claimLost (sub n : Nat) (s : State) : (frerAction sub n s).1 ≠ 12 := by
  rw [frerAction_eq]
  repeat' split
  all_goals dsimp only; decide

theorem handoverAction_ne_claimLost (s : State) : (handoverAction s).1 ≠ 12 := by
  unfold handoverAction
  split <;> dsimp only <;> decide

/-- The entries that the claim guards (R445). -/
def pairScoped : List (Nat × Nat) := [(0x3000, 2), (0x3000, 3), (0x7000, 8)]

theorem claimRefuses_pairScoped {p : Nat × Nat} (hp : p ∈ pairScoped) (s : State) :
    claimRefuses s p.1 p.2 = (isPaired s && s.pair.role != 2) := by
  simp only [pairScoped, List.mem_cons, List.not_mem_nil, or_false] at hp
  rcases hp with rfl | rfl | rfl <;> simp [claimRefuses]

/-- The action of a pair-scoped entry never answers CLAIM_LOST. -/
theorem performWrite_ne_claimLost {p : Nat × Nat} (hp : p ∈ pairScoped) {r : Requester} {o : ObjSpec} {e : EntrySpec}
    {s : State} (ho : objSpec s.ident p.1 = some o) (he : o.entry p.2 = some e) (v : Val) :
    (performWrite r o p.1 e v s).1 ≠ 12 := by
  simp only [pairScoped, List.mem_cons, List.not_mem_nil, or_false] at hp
  rcases hp with rfl | rfl | rfl
  · cases ho; cases he
    exact frerAction_ne_claimLost 2 v.n s
  · cases ho; cases he
    exact frerAction_ne_claimLost 3 v.n s
  · cases ho; cases he
    exact handoverAction_ne_claimLost s

theorem objWrite_unpaired {p : Nat × Nat} (hp : p ∈ pairScoped) {s : State} (hu : isPaired s = false) (r : Requester)
    (d : Datum) : (objWrite r p.1 p.2 d s).1 ≠ 12 := by
  have hc : claimRefuses s p.1 p.2 = false := by rw [claimRefuses_pairScoped hp, hu]; rfl
  unfold objWrite
  split
  · rename_i c hadm
    exact admitWrite_error_ne_claimLost hc hadm
  · rename_i o e sel hadm
    obtain ⟨ho, he⟩ := admitWrite_ok hadm
    have hrange : (aOutOfRange, s).1 ≠ 12 := of_decide_eq_true rfl
    have hbusy : (aBusy, s).1 ≠ 12 := of_decide_eq_true rfl
    split
    · exact hrange
    · split
      · exact hrange
      · split
        · exact hbusy
        · exact performWrite_ne_claimLost hp ho he _

theorem absentIndex_pair_of_paired {s : State} (h : isPaired s = true) : absentIndex s.ident 0x7000 = false := by
  have hord : s.ident.ordering = 0 := by
    simp only [isPaired, pairPresent, Bool.and_eq_true, beq_iff_eq] at h
    exact h.1
  show (!blockPresent s.ident 20) = false
  rw [blockPresent, unitsPresent, if_pos hord]
  rfl

/-- HANDOVER of a paired unit that is not ACTIVE passes the other tests in RUN, with the right to write. -/
theorem admitWrite_handover {r : Requester} {s : State} (hp : isPaired s = true) (hl : s.pair.role ≠ 2)
    (hr : bit (rightsOf s r) 1 = true) (hm : s.chip.mode = .run) :
    admitWrite s r 0x7000 8 (.val (.num 1)) = .error aClaimLost := by
  have hclaim : claimRefuses s 0x7000 8 = true := by simp [claimRefuses, hp, hl]
  have harm : armRefuses s 0x7000 8 = false := rfl
  have hstate : ∀ v, stateAllowsWrite s 0x7000 handoverEntry v = true := fun v => by
    simp [stateAllowsWrite, handoverEntry, Cat.wo, hm, Wr.allows]
  have hsel : ∀ v, isSelection pairObject 8 v = false := fun _ => rfl
  have hacc : handoverEntry.acc = .wo := rfl
  have hpath : keyPathOk r 0x7000 8 = true := rfl
  have harea : areaRight 0x7000 = 1 := rfl
  have htype : Datum.typeOk (.val (.num 1)) handoverEntry = true := rfl
  simp [admitWrite, hm, engineBusy, absentIndex_pair_of_paired hp, objSpec_pair, pairObject_handover, hsel, hr, hpath, harea,
    hacc, htype, hstate, harm, hclaim]

/-- Settles O59: the claim is the last test of R50, and no action of the three entries has its code. -/
theorem claimScopedEntries : Obligations.ClaimScopedEntries := by
  unfold Obligations.ClaimScopedEntries
  refine ⟨fun r d s p hp => ⟨fun hpaired hl => ?_, fun hu => objWrite_unpaired hp hu r d⟩,
    fun r s0 s hs ha hr hpaired hl => ⟨fun hm k _ => ?_, fun hm => congrArg Host.Outcome.next ?_⟩⟩
  · exact objWrite_claimRefused (by rw [claimRefuses_pairScoped hp, hpaired, bne_iff_ne.2 hl]; rfl)
  · have hw : MayWrite r s := ⟨ha, hr, hm⟩
    exact ⟨congrArg _ (frerReset_claimLost (.inl rfl) hs hw hpaired hl),
      congrArg _ (frerReset_claimLost (.inr rfl) hs hw hpaired hl)⟩
  · exact answerWrite_refused hs ha (admitWrite_handover hpaired hl hr hm)

end Sys2Proof.Machine
end

section
/-!
PROOF. The health monitor's recordings, and what none of them touches (R462, R464, R473).
-/
namespace Sys2Proof.Machine

/-! ## What an operation leaves of the configuration and the device state -/

section
variable {m : Nat} {s t : State} (h : Keeps m s t)
include h

theorem Keeps.cfgN (hi : m.testBit Part.ident.idx = false) (hc : m.testBit Part.cfg.idx = false) (i k : Nat) :
    t.cfgN i k = s.cfgN i k := by
  rw [State.cfgN, h.same .cfg hc, h.same .ident hi, State.cfgN]

theorem Keeps.mode (hm : m.testBit Part.chip.idx = false) : t.chip.mode = s.chip.mode := (chip_of_same (h.same .chip hm)).1

end

/-! ## STATUS bits -/

/-- A detection clears no STATUS bit (R464). -/
theorem detectFault_bit_kept {b i k : Nat} {s : State} (h : bit (s.fault b i).status k = true) (c d : Nat) :
    bit ((detectFault b i c d s).fault b i).status k = true := by
  cases hp : isAlive s.chip.mode && blockPresent s.ident b with
  | false => rwa [detectFault, if_neg (by simp [hp])]
  | true =>
    rw [Bool.and_eq_true] at hp
    rw [State.fault_congr (detectFault_faults hp.1 hp.2)]
    cases hc : bit (s.fault b i).status (c - 1) with
    | true => rwa [noteFault_fault_set hc]
    | false =>
      rw [noteFault_fault_clear hc, pushHistory_status, bit_eq_testBit, Nat.testBit_or, ← bit_eq_testBit, h]
      rfl

theorem pulse_faults (l : Nat) (s : State) : (pulse l s).faults = s.faults :=
  (pulse_keeps (m := 0x1000200) (Keeps.refl _ s) (Sub.of (by decide))).same .faults (by decide)

theorem blockPresent_health (id : Ident) : blockPresent id 21 = true := by
  unfold blockPresent unitsPresent
  split <;> decide

/-! ## Recordings of the monitor -/

/-- What recordings of the monitor leave: all but the counters, the interrupts, the faults and the request for SAFE, and every
STATUS bit of block 21 that is set. -/
structure Recorded (s t : State) : Prop where
  keeps : Keeps 0xc3000200 s t
  bits : ∀ k, bit (s.fault 21 0).status k = true → bit (t.fault 21 0).status k = true

namespace Recorded
variable {s t u : State}

theorem refl (s : State) : Recorded s s := ⟨.refl _ s, fun _ h => h⟩

theorem trans (h : Recorded s t) (k : Recorded t u) : Recorded s u := ⟨h.keeps.trans k.keeps, fun i hi => k.bits i (h.bits i hi)⟩

theorem health (h : Recorded s t) : t.health = s.health := h.keeps.same .health (by decide)

theorem cfgN (h : Recorded s t) (i k : Nat) : t.cfgN i k = s.cfgN i k := h.keeps.cfgN (by decide) (by decide) i k

theorem alive (h : Recorded s t) (ha : isAlive s.chip.mode = true) : isAlive t.chip.mode = true := by
  rwa [h.keeps.mode (by decide)]

theorem foldl {α : Type} {f : State → α → State} (hf : ∀ v x, Recorded v (f v x)) (l : List α) (s : State) :
    Recorded s (l.foldl f s) := by
  induction l generalizing s with
  | nil => exact refl s
  | cons x r ih => exact (hf s x).trans (ih (f s x))

/-- A bit that one step of a fold sets is set after the fold. -/
theorem foldl_bit {α : Type} {f : State → α → State} (hf : ∀ v x, Recorded v (f v x)) {l : List α} {x : α} {k : Nat} (hx : x ∈ l)
    (hk : ∀ v, isAlive v.chip.mode = true → bit ((f v x).fault 21 0).status k = true) (ha : isAlive s.chip.mode = true) :
    bit ((l.foldl f s).fault 21 0).status k = true := by
  obtain ⟨before, after, rfl⟩ := List.append_of_mem hx
  rw [List.foldl_append, List.foldl_cons]
  exact (foldl hf after _).bits k (hk _ ((foldl hf before s).alive ha))

end Recorded

theorem recorded_pulse (l : Nat) (s : State) : Recorded s (pulse l s) :=
  ⟨pulse_keeps (.refl _ s) (Sub.of (by decide)), fun _ h => by rwa [State.fault_congr (pulse_faults l s)]⟩

theorem recorded_healthFault (c d : Nat) (s : State) : Recorded s (healthFault c d s) := by
  have hd : Recorded s (detectFault 21 0 c d s) :=
    ⟨detectFault_keeps (.refl _ s) (Sub.of (by decide)), fun _ h => detectFault_bit_kept h c d⟩
  unfold healthFault
  dsimp only
  split
  · exact hd
  · exact hd.trans (recorded_pulse 247 _)

/-- A recording of the monitor sets its STATUS bit in block 21. -/
theorem healthFault_bit {s : State} (ha : isAlive s.chip.mode = true) (c d : Nat) :
    bit ((healthFault c d s).fault 21 0).status (c - 1) = true := by
  have hb := detectFault_bit (i := 0) (c := c) ha (blockPresent_health s.ident) d
  unfold healthFault
  dsimp only
  split
  · exact hb
  · exact (recorded_pulse 247 _).bits _ hb

/-- A recording of the monitor counts at the event matrix only. -/
theorem healthFault_counter (c d : Nat) (s : State) {i u k : Nat} (h : cntKey 0x6104 2 247 ≠ cntKey i u k) :
    (healthFault c d s).counter i u k = s.counter i u k := by
  have hd := State.counter_congr (detectFault_cnt 21 0 c d s) i u k
  unfold healthFault
  dsimp only
  split
  · exact hd
  · exact (counter_pulse _ h).trans hd

end Sys2Proof.Machine
end

section
/-!
PROOF. ALIVE, the temperatures and the droops (R469 to R471).
-/
namespace Sys2Proof.Machine

/-! ## ALIVE -/

/-- The clocks whose count is outside 1 %. -/
def badClocks (core time mem : Nat) : List (Nat × Bool) :=
  [(0, countOk core 800000), (1, countOk time 500000), (2, countOk mem 250000)].filter fun e => !e.2

/-- ALIVE stops for good. -/
def aliveStops (s : State) : State := s.updHealth fun h => { h with alive := false, running := false, aliveStopped := true }

section
variable {core time mem : Nat} {s : State}

theorem effAliveHalfPeriod_idle (h : isAlive s.chip.mode = false ∨ s.health.aliveStopped = true) :
    effAliveHalfPeriod core time mem s = s := by
  rw [effAliveHalfPeriod, if_neg]
  rcases h with h | h <;> simp [h]

variable (ha : isAlive s.chip.mode = true) (hr : s.health.aliveStopped = false)
include ha hr

theorem effAliveHalfPeriod_toggles (hc : countOk core 800000 = true) (ht : countOk time 500000 = true)
    (hm : countOk mem 250000 = true) : effAliveHalfPeriod core time mem s =
      s.updHealth fun h => { h with alive := !h.alive, running := true } := by
  rw [effAliveHalfPeriod, if_pos (by simp [ha, hr])]
  simp [hc, ht, hm]

theorem effAliveHalfPeriod_stops (hb : badClocks core time mem ≠ []) : effAliveHalfPeriod core time mem s =
    (badClocks core time mem).foldl (fun s e => healthFault 0x0A e.1 s) (aliveStops s) := by
  rw [effAliveHalfPeriod, if_pos (by simp [ha, hr])]
  exact if_neg (by simpa [badClocks] using hb)

end

theorem badClocks_ne_nil {core time mem : Nat}
    (h : countOk core 800000 = false ∨ countOk time 500000 = false ∨ countOk mem 250000 = false) :
    badClocks core time mem ≠ [] := by
  have hmem : ∀ e ∈ [(0, countOk core 800000), (1, countOk time 500000), (2, countOk mem 250000)], e.2 = false →
      badClocks core time mem ≠ [] := fun e he hf => List.ne_nil_of_mem (List.mem_filter.2 ⟨he, by simp [hf]⟩)
  rcases h with h | h | h
  · exact hmem (0, _) (.head _) h
  · exact hmem (1, _) (.tail _ (.head _)) h
  · exact hmem (2, _) (.tail _ (.tail _ (.head _))) h

/-- What a clock outside 1 % leaves (R469). -/
theorem aliveStops_recorded {core time mem : Nat} {s t : State} (ha : isAlive s.chip.mode = true)
    (hb : badClocks core time mem ≠ [])
    (ht : t = (badClocks core time mem).foldl (fun s e => healthFault 0x0A e.1 s) (aliveStops s)) :
    t.health = { s.health with alive := false, running := false, aliveStopped := true } ∧
      bit (t.fault 21 0).status 9 = true := by
  have hf : ∀ (v : State) (e : Nat × Bool), Recorded v (healthFault 0x0A e.1 v) := fun v e => recorded_healthFault _ _ v
  obtain ⟨e, he⟩ := List.exists_mem_of_ne_nil _ hb
  subst ht
  exact ⟨(Recorded.foldl hf _ _).health, Recorded.foldl_bit hf he (fun v hv => healthFault_bit hv 0x0A e.1) ha⟩

/-! ## Temperatures -/

/-- The hotter of the hottest reading so far and another. -/
def hotter (best : Option (Nat × Int)) (e : Nat × Int) : Option (Nat × Int) :=
  match best with
  | some b => if b.2 < e.2 then some e else some b
  | none => some e

theorem hottestOf_append (l : List (Nat × Int)) (e : Nat × Int) : hottestOf (l ++ [e]) = hotter (hottestOf l) e :=
  List.foldl_append ..

/-- The hottest of some readings is one that none exceeds. -/
theorem hottestOf_max (l : List (Nat × Int)) : l = [] ∧ hottestOf l = none ∨
    ∃ e ∈ l, hottestOf l = some e ∧ ∀ x ∈ l, x.2 ≤ e.2 := by
  obtain ⟨k, rfl⟩ : ∃ k, l = k.reverse := ⟨l.reverse, l.reverse_reverse.symm⟩
  induction k with
  | nil => exact .inl ⟨rfl, rfl⟩
  | cons e k ih =>
    right
    rw [List.reverse_cons, hottestOf_append]
    rcases ih with ⟨hk, -⟩ | ⟨b, hb, hs, hmax⟩
    · rw [hk]
      exact ⟨e, List.mem_singleton_self e, rfl, fun x hx => Int.le_of_eq (congrArg Prod.snd (List.mem_singleton.1 hx))⟩
    · rw [hs]
      by_cases hlt : b.2 < e.2
      · refine ⟨e, by simp, if_pos hlt, fun x hx => ?_⟩
        rcases List.mem_append.1 hx with hx | hx
        · exact Int.le_trans (hmax x hx) (Int.le_of_lt hlt)
        · exact Int.le_of_eq (congrArg Prod.snd (List.mem_singleton.1 hx))
      · refine ⟨b, List.mem_append_left _ hb, if_neg hlt, fun x hx => ?_⟩
        rcases List.mem_append.1 hx with hx | hx
        · exact hmax x hx
        · rw [List.mem_singleton.1 hx]
          exact Int.not_lt.1 hlt

/-- A reading within the sensor's range. -/
def readingOk (r : Int) : Bool := decide (-320 ≤ r) && decide (r ≤ 1200)

theorem readingOk_iff (r : Int) : readingOk r = true ↔ -320 ≤ r ∧ r ≤ 1200 := by simp [readingOk]

/-- The valid readings with their sensors. -/
def validReadings (l : List Int) : List (Nat × Int) :=
  ((upTo 32).map fun k => (k, l.getD k 0)).filter fun e => readingOk e.2

theorem mem_validReadings {l : List Int} {e : Nat × Int} :
    e ∈ validReadings l ↔ e.1 < 32 ∧ e.2 = l.getD e.1 0 ∧ readingOk e.2 = true := by
  obtain ⟨j, r⟩ := e
  simp only [validReadings, upTo, List.mem_filter, List.mem_map, List.mem_range, Prod.mk.injEq]
  constructor
  · rintro ⟨⟨k, hk, rfl, rfl⟩, hr⟩
    exact ⟨hk, rfl, hr⟩
  · rintro ⟨hj, rfl, hr⟩
    exact ⟨⟨j, hj, rfl, rfl⟩, hr⟩

theorem hottestOf_validReadings {l : List Int} {k : Nat} {tj : Int} (hk : k < 32) (htj : l.getD k 0 = tj)
    (hok : readingOk tj = true) (hmax : ∀ j, j < 32 → readingOk (l.getD j 0) = true → l.getD j 0 ≤ tj) :
    ∃ j, hottestOf (validReadings l) = some (j, tj) := by
  have hmem : (k, tj) ∈ validReadings l := mem_validReadings.2 ⟨hk, htj.symm, hok⟩
  rcases hottestOf_max (validReadings l) with ⟨hn, -⟩ | ⟨⟨j, r⟩, he, hs, hle⟩
  · rw [hn] at hmem
    cases hmem
  · obtain ⟨hj, hr, hv⟩ := mem_validReadings.1 he
    dsimp only at hj hr hv
    have hup : r ≤ tj := by
      rw [hr] at hv ⊢
      exact hmax j hj hv
    exact ⟨j, by rw [hs, Int.le_antisymm hup (hle _ hmem)]⟩

/-- The readings as the sensors show them, those outside the range recorded. -/
def sampled (l : List Int) (s : State) : State :=
  (upTo 32).foldl (fun s k => if readingOk (l.getD k 0) then s else healthFault 0x0B k s)
    (s.updHealth fun h => { h with sensors := l.map fun r => (r, readingOk r) })

/-- TJ is taken from a sensor. -/
def heated (k : Nat) (tj : Int) (s : State) : State := s.updHealth fun h => { h with tj := tj, hottest := k }

theorem effThermalSample_eq {l : List Int} {s : State} (ha : isAlive s.chip.mode = true) (hl : l.length = 32) {k : Nat} {tj : Int}
    (hh : hottestOf (validReadings l) = some (k, tj)) : effThermalSample l s = judgeHeat (heated k tj (sampled l s)) := by
  rw [effThermalSample, if_pos (by simp [ha, hl])]
  show (match hottestOf (validReadings l) with
    | some (k, t) => judgeHeat (heated k t (sampled l s))
    | none => sampled l s) = _
  rw [hh]

theorem sampled_recorded (l : List Int) (s : State) :
    Recorded (s.updHealth fun h => { h with sensors := l.map fun r => (r, readingOk r) }) (sampled l s) :=
  Recorded.foldl (fun v k => by
    split
    · exact .refl v
    · exact recorded_healthFault _ _ v) _ _

theorem sampled_bit {l : List Int} {s : State} {j : Nat} (ha : isAlive s.chip.mode = true) (hj : j < 32)
    (hbad : readingOk (l.getD j 0) = false) : bit ((sampled l s).fault 21 0).status 0x0A = true :=
  Recorded.foldl_bit (fun v k => by
    split
    · exact .refl v
    · exact recorded_healthFault _ _ v) (List.mem_range.2 hj)
    (fun v hv => by
      rw [if_neg (by rw [hbad]; decide)]
      exact healthFault_bit hv 0x0B j) ha

/-! ## Alarm and SAFE -/

/-- The alarm as TJ leaves it. -/
def alarmAfter (s : State) : Bool :=
  if 8 * (s.cfgN 0x8100 1 : Int) ≤ s.health.tj then true
  else if s.health.tj < 8 * (s.cfgN 0x8100 1 : Int) - 40 then false
  else s.health.alarm

/-- The samples in a row that have reached THERMAL_SAFE. -/
def hotRunAfter (s : State) : Nat := if 8 * (s.cfgN 0x8100 2 : Int) ≤ s.health.tj then s.health.hotRun + 1 else 0

/-- The alarm on or off. -/
def setAlarm (b : Bool) (s : State) : State := s.updHealth fun x => { x with alarm := b }

/-- TJ is compared with THERMAL_ALARM. -/
def judgeAlarm (s : State) : State :=
  if 8 * (s.cfgN 0x8100 1 : Int) ≤ s.health.tj ∧ !s.health.alarm then healthFault 1 s.health.hottest (setAlarm true s)
  else if s.health.tj < 8 * (s.cfgN 0x8100 1 : Int) - 40 ∧ s.health.alarm then pulse 247 (setAlarm false s)
  else s

/-- TJ is counted against THERMAL_SAFE. -/
def countHot (n : Nat) (s : State) : State := s.updHealth fun x => { x with hotRun := n }

theorem judgeHeat_eq (s : State) : judgeHeat s =
    if 4 ≤ hotRunAfter s then healthFault 2 s.health.hottest (countHot (hotRunAfter s) (judgeAlarm s))
    else countHot (hotRunAfter s) (judgeAlarm s) := rfl

/-- The alarm changes with a recording or a pulse, or stays. -/
theorem judgeAlarm_recorded (s : State) : Recorded (setAlarm (alarmAfter s) s) (judgeAlarm s) := by
  unfold judgeAlarm
  split
  · rename_i h
    rw [alarmAfter, if_pos h.1]
    exact recorded_healthFault _ _ _
  · rename_i hup
    split
    · rename_i hdown
      rw [alarmAfter, if_neg (by omega), if_pos hdown.1]
      exact recorded_pulse _ _
    · rename_i hdown
      have hsame : alarmAfter s = s.health.alarm := by
        cases hb : s.health.alarm with
        | true => simp_all [alarmAfter]
        | false => simp_all [alarmAfter]
      rw [hsame]
      exact .refl s

theorem judgeAlarm_bit {s : State} (ha : isAlive s.chip.mode = true) (h : 8 * (s.cfgN 0x8100 1 : Int) ≤ s.health.tj)
    (hoff : s.health.alarm = false) : bit ((judgeAlarm s).fault 21 0).status 0 = true := by
  rw [judgeAlarm, if_pos ⟨h, by simp [hoff]⟩]
  exact healthFault_bit (s := setAlarm true s) ha 1 _

/-- What the comparison of TJ with its limits leaves (R470). -/
theorem judgeHeat_recorded (s : State) :
    Recorded (countHot (hotRunAfter s) (judgeAlarm s)) (judgeHeat s) := by
  rw [judgeHeat_eq]
  split
  · exact recorded_healthFault _ _ _
  · exact .refl _

theorem judgeHeat_health (s : State) :
    (judgeHeat s).health = { s.health with alarm := alarmAfter s, hotRun := hotRunAfter s } := by
  rw [(judgeHeat_recorded s).health, countHot, State.updHealth, (judgeAlarm_recorded s).health]
  rfl

theorem judgeHeat_bits {s : State} {k : Nat} (h : bit ((judgeAlarm s).fault 21 0).status k = true) :
    bit ((judgeHeat s).fault 21 0).status k = true := (judgeHeat_recorded s).bits k h

theorem judgeHeat_safe {s : State} (ha : isAlive s.chip.mode = true) (h : 4 ≤ hotRunAfter s) :
    bit ((judgeHeat s).fault 21 0).status 1 = true := by
  rw [judgeHeat_eq, if_pos h]
  exact healthFault_bit (s := countHot (hotRunAfter s) (judgeAlarm s)) ((judgeAlarm_recorded s).alive ha) 2 _

end Sys2Proof.Machine
end

section
/-!
PROOF. Droops, margins, ageing and the checkpoint of the health monitor (R471 to R473, R477, R496).
-/
namespace Sys2Proof.Machine

/-! ## Droops -/

/-- A droop noted and counted. -/
def droopNoted (rail : Nat) (s : State) : State :=
  ((s.updHealth fun h => { h with droop := true }).hit (.health 1) 0).bumpK 0x8103 2 rail

section
variable {rail level ns : Nat} {s : State}

theorem isDroop_iff (limit rail level ns : Nat) : isDroop limit rail level ns = true ↔ rail < 8 ∧
    level * 100 < (railOf rail).nominal * (100 - limit) ∧ 20 ≤ ns ∧ (inOperatingRange rail level = true ∨ ns < 1000) := by
  simp only [isDroop, leavesRange, Bool.and_eq_true, decide_eq_true_eq, Bool.not_eq_true', Bool.and_eq_false_iff,
    decide_eq_false_iff_not, Bool.not_eq_false', Nat.not_le, and_assoc]
  refine and_congr_right fun hrail => and_congr_right fun _ => and_congr_right fun _ => ?_
  simp [hrail]

theorem effSupplyDroop_idle (h : isAlive s.chip.mode = false ∨ isDroop (s.cfgN 0x8100 3) rail level ns = false) :
    effSupplyDroop rail level ns s = s := by
  rw [effSupplyDroop, if_neg]
  rcases h with h | h <;> simp [h]

theorem effSupplyDroop_droops (ha : isAlive s.chip.mode = true) (hd : isDroop (s.cfgN 0x8100 3) rail level ns = true) :
    effSupplyDroop rail level ns s = healthFault 3 rail (droopNoted rail s) := by
  rw [effSupplyDroop, if_pos (by simp [ha, hd])]
  rfl

end

/-- What a droop leaves (R471). -/
theorem droopNoted_recorded {rail : Nat} {s t : State} (ha : isAlive s.chip.mode = true) (hr : rail < 8)
    (ht : t = healthFault 3 rail (droopNoted rail s)) : t.health = { s.health with droop := true } ∧
      bit (t.fault 21 0).status 2 = true ∧
      t.counter 0x8103 2 rail = (s.counter 0x8103 2 rail + 1) % 2 ^ 64 := by
  subst ht
  refine ⟨(recorded_healthFault 3 rail (droopNoted rail s)).health, healthFault_bit (s := droopNoted rail s) ha 3 rail, ?_⟩
  rw [healthFault_counter _ _ _ (by unfold cntKey; omega)]
  exact State.counter_bumpK_same _ _ _ _

/-! ## Margins -/

/-- The reports of a lane with a new one. -/
def reportsWith (lane mv : Nat) (s : State) : List Nat := (mv :: AMap.get [] s.health.margins lane).take 16

/-- A report is kept. -/
def marginKept (lane mv : Nat) (s : State) : State :=
  s.updHealth fun h => { h with margins := AMap.set h.margins lane (reportsWith lane mv s) }

/-- A low margin noted. -/
def marginNoted (s : State) : State := (s.updHealth fun h => { h with marginLow := true }).hit (.health 5) 0

theorem marginTrend_kept (lane mv : Nat) (s : State) : marginTrend (marginKept lane mv s) lane =
    some ((reportsWith lane mv s).sum / (reportsWith lane mv s).length) := by
  have hlen : 1 ≤ (reportsWith lane mv s).length := by simp [reportsWith]
  have hfind : AMap.find (marginKept lane mv s).health.margins lane = some (reportsWith lane mv s) :=
    (AMap.find_set _ _ _ _).trans (if_pos rfl)
  rw [marginTrend, hfind]
  simp only [Nat.max_eq_right hlen]

section
variable {lane mv : Nat} {s : State}

theorem effMarginReport_idle (h : isAlive s.chip.mode = false ∨ (s.port (lanePort s lane)).up = false) :
    effMarginReport lane mv s = s := by
  rw [effMarginReport, if_neg]
  rcases h with h | h <;> simp [h]

/-- The trend of a lane is below MARGIN_LIMIT. -/
def trendLow (s : State) (lane : Nat) : Bool := (marginTrend s lane).any fun m => decide (m < s.cfgN 0x8100 4)

variable (ha : isAlive s.chip.mode = true) (hp : linePortPresent s.ident lane = true)
  (hu : (s.port (lanePort s lane)).up = true)
include ha hp hu

theorem effMarginReport_eq : effMarginReport lane mv s =
    if trendLow s lane = false ∧ (reportsWith lane mv s).sum / (reportsWith lane mv s).length < s.cfgN 0x8100 4 then
      healthFault 7 lane (marginNoted (marginKept lane mv s))
    else marginKept lane mv s := by
  have hkept : (s.updHealth fun h => { h with
      margins := AMap.set h.margins lane ((mv :: AMap.get [] h.margins lane).take 16) }) = marginKept lane mv s := rfl
  rw [effMarginReport, if_pos (by simp [ha, hp, hu])]
  simp only [hkept, marginTrend_kept, Option.getD_some, Bool.and_eq_true, Bool.not_eq_true', decide_eq_true_eq]
  cases ht : marginTrend s lane with
  | none => simp only [trendLow, ht, Option.any_none]; rfl
  | some m => simp only [trendLow, ht, Option.any_some]; rfl

end

/-- What the report of a lane with a link leaves (R472). -/
theorem marginReported {lane mv : Nat} {s t : State} {l : List Nat} (ha : isAlive s.chip.mode = true)
    (hl : l = reportsWith lane mv s)
    (ht : t = if trendLow s lane = false ∧ l.sum / l.length < s.cfgN 0x8100 4 then
        healthFault 7 lane (marginNoted (marginKept lane mv s)) else marginKept lane mv s) :
    AMap.find t.health.margins lane = some l ∧
    (∀ j, j ≠ lane → AMap.find t.health.margins j = AMap.find s.health.margins j) ∧
    (l.sum / l.length < s.cfgN 0x8100 4 → (∀ m, marginTrend s lane = some m → s.cfgN 0x8100 4 ≤ m) →
      t.health.marginLow = true ∧ bit (t.fault 21 0).status 6 = true) ∧
    (s.cfgN 0x8100 4 ≤ l.sum / l.length ∨ (∃ m, marginTrend s lane = some m ∧ m < s.cfgN 0x8100 4) →
      t.health.marginLow = s.health.marginLow ∧ t.faults = s.faults) := by
  have hmargins : t.health.margins = AMap.set s.health.margins lane l := by
    subst ht hl
    split
    · rw [(recorded_healthFault 7 lane (marginNoted (marginKept lane mv s))).health]
      rfl
    · rfl
  refine ⟨by rw [hmargins, AMap.find_set, if_pos rfl], fun j hj => by rw [hmargins, AMap.find_set, if_neg hj.symm],
    fun hlow hwas => ?_, fun h => ?_⟩
  · have hhigh : trendLow s lane = false := by
      cases hm : marginTrend s lane with
      | none => rw [trendLow, hm]; rfl
      | some m => rw [trendLow, hm, Option.any_some, decide_eq_false (Nat.not_lt.2 (hwas m hm))]
    rw [if_pos ⟨hhigh, hlow⟩] at ht
    subst ht
    exact ⟨congrArg Health.marginLow (recorded_healthFault 7 lane (marginNoted (marginKept lane mv s))).health,
      healthFault_bit (s := marginNoted (marginKept lane mv s)) ha 7 lane⟩
  · rw [if_neg] at ht
    · subst ht
      exact ⟨rfl, rfl⟩
    · rintro ⟨hhigh, hlow⟩
      rcases h with h | ⟨m, hm, hlt⟩
      · omega
      · rw [trendLow, hm, Option.any_some, decide_eq_true hlt] at hhigh
        cases hhigh

/-! ## Remaining lives -/

theorem upTo_map_getD {α : Type} (f : Nat → α) (d : α) {k n : Nat} (h : k < n) : ((upTo n).map f).getD k d = f k := by
  simp [upTo, List.getD_eq_getElem?_getD, h]

theorem mem_atLimit {n lim k : Nat} {l : List Nat} : k ∈ atLimit n lim l ↔ k < n ∧ lim ≤ l.getD k 0 := by
  simp [atLimit, upTo]

/-- The remaining lives rest on the limits, the degradations, the integrals and the present factors. -/
theorem remainings_congr {s t : State} (hc : ∀ i k, t.cfgN i k = s.cfgN i k) (hdeg : t.health.deg = s.health.deg)
    (hteq : t.health.teq = s.health.teq) (haf : t.health.af = s.health.af) (hdmg : t.health.dmg = s.health.dmg)
    (hwear : t.health.wear = s.health.wear) : remainings t = remainings s := by
  simp only [remainings, hc, hdeg, hteq, haf, hdmg, hwear]

/-- The monitors and the rails that have reached their limits. -/
def agedNow (s : State) : List Nat := atLimit 64 (s.cfgN 0x8100 5) s.health.deg
def wornNow (s : State) : List Nat := atLimit 8 (s.cfgN 0x8100 6 * hourUnits) s.health.dmg

/-- The monitors that have newly reached their limit are recorded. -/
def recordAged (h0 : Health) (s : State) : State :=
  ((agedNow s).filter fun k => !h0.aged.contains k).foldl (fun u k => healthFault 4 k u) s

/-- The rails that have newly reached their limit are recorded too. -/
def recordWorn (h0 : Health) (s : State) : State :=
  ((wornNow s).filter fun r => !h0.worn.contains r).foldl (fun u r => healthFault 5 r u) (recordAged h0 s)

/-- A least remaining life is below EOL_HOURS_LIMIT. -/
def lifeLow (l : Nat × Nat) (s : State) : Bool := decide (l.2 < s.cfgN 0x8100 7)

/-- The monitor with its limits and a least remaining life judged. -/
def judgedHealth (l : Nat × Nat) (s : State) (x : Health) : Health :=
  { x with
    eolHours := l.2, eolCause := l.1, eolAlert := lifeLow l s, aged := agedNow s, worn := wornNow s
    ageingLimit := s.health.deg.any fun d => decide (s.cfgN 0x8100 5 ≤ d)
    emLimit := s.health.dmg.any fun d => decide (s.cfgN 0x8100 6 * hourUnits ≤ d) }

/-- Limits and a least remaining life judged, but for its alert. -/
def lifeJudged (h0 : Health) (l : Nat × Nat) (s : State) : State := (recordWorn h0 s).updHealth (judgedHealth l s)

/-- Limits and a least remaining life judged. -/
def judgeLife (h0 : Health) (l : Nat × Nat) (s : State) : State :=
  if lifeLow l s && !h0.eolAlert then healthFault 6 0 (lifeJudged h0 l s) else lifeJudged h0 l s

theorem recordAged_recorded (h0 : Health) (s : State) : Recorded s (recordAged h0 s) :=
  Recorded.foldl (fun v k => recorded_healthFault 4 k v) _ s

theorem recordWorn_after (h0 : Health) (s : State) : Recorded (recordAged h0 s) (recordWorn h0 s) :=
  Recorded.foldl (fun v k => recorded_healthFault 5 k v) _ _

theorem recordWorn_recorded (h0 : Health) (s : State) : Recorded s (recordWorn h0 s) :=
  (recordAged_recorded h0 s).trans (recordWorn_after h0 s)

theorem judgeAgeing_eq (h0 : Health) (s : State) : judgeAgeing h0 s = judgeLife h0 (leastLife (remainings s)) s := by
  have hr := recordWorn_recorded h0 s
  have hrem : remainings (recordWorn h0 s) = remainings s :=
    remainings_congr hr.cfgN (congrArg Health.deg hr.health) (congrArg Health.teq hr.health) (congrArg Health.af hr.health)
      (congrArg Health.dmg hr.health) (congrArg Health.wear hr.health)
  show judgeLife h0 (leastLife (remainings (recordWorn h0 s))) s = _
  rw [hrem]

theorem judgeLife_recorded (h0 : Health) (l : Nat × Nat) (s : State) : Recorded (lifeJudged h0 l s) (judgeLife h0 l s) := by
  unfold judgeLife
  split
  · exact recorded_healthFault _ _ _
  · exact .refl _

theorem judgeLife_health (h0 : Health) (l : Nat × Nat) (s : State) :
    (judgeLife h0 l s).health = judgedHealth l s s.health := by
  rw [(judgeLife_recorded h0 l s).health, lifeJudged, State.updHealth, (recordWorn_recorded h0 s).health]

theorem judgeLife_cfgN (h0 : Health) (l : Nat × Nat) (s : State) (i k : Nat) : (judgeLife h0 l s).cfgN i k = s.cfgN i k := by
  have hj : (lifeJudged h0 l s).cfgN i k = (recordWorn h0 s).cfgN i k := by
    rw [State.cfgN, lifeJudged, State.updHealth_cfg, State.updHealth_ident, State.cfgN]
  rw [(judgeLife_recorded h0 l s).cfgN, hj, (recordWorn_recorded h0 s).cfgN]

/-- What the limits recorded stays so when the end of life is judged. -/
theorem judgeLife_bits {h0 : Health} {l : Nat × Nat} {s : State} {k : Nat}
    (h : bit ((recordWorn h0 s).fault 21 0).status k = true) : bit ((judgeLife h0 l s).fault 21 0).status k = true := by
  refine (judgeLife_recorded h0 l s).bits k ?_
  rwa [lifeJudged, State.fault_congr (State.updHealth_faults _ _)]

section
variable {h0 : Health} {l : Nat × Nat} {s : State} (ha : isAlive s.chip.mode = true)
include ha

theorem judgeLife_aged {k : Nat} (hk : k ∈ agedNow s) (hnew : k ∉ h0.aged) :
    bit ((judgeLife h0 l s).fault 21 0).status 3 = true := by
  have haged : bit ((recordAged h0 s).fault 21 0).status 3 = true :=
    Recorded.foldl_bit (fun v k => recorded_healthFault 4 k v) (List.mem_filter.2 ⟨hk, by simpa using hnew⟩)
      (fun _ hv => healthFault_bit hv 4 k) ha
  exact judgeLife_bits ((recordWorn_after h0 s).bits 3 haged)

theorem judgeLife_worn {r : Nat} (hr : r ∈ wornNow s) (hnew : r ∉ h0.worn) :
    bit ((judgeLife h0 l s).fault 21 0).status 4 = true := by
  have hworn : bit ((recordWorn h0 s).fault 21 0).status 4 = true :=
    Recorded.foldl_bit (fun v k => recorded_healthFault 5 k v) (List.mem_filter.2 ⟨hr, by simpa using hnew⟩)
      (fun _ hv => healthFault_bit hv 5 r) ((recordAged_recorded h0 s).alive ha)
  exact judgeLife_bits hworn

theorem judgeLife_alert (hlow : lifeLow l s = true) (hnew : h0.eolAlert = false) :
    bit ((judgeLife h0 l s).fault 21 0).status 5 = true := by
  have hj : isAlive (lifeJudged h0 l s).chip.mode = true := by
    rw [lifeJudged, State.updHealth_chip]
    exact (recordWorn_recorded h0 s).alive ha
  rw [judgeLife, if_pos (by simp [hlow, hnew])]
  exact healthFault_bit hj 6 0

end

/-! ## The integrals and the degradations -/

/-- The monitor after a second, and after a minute the degradations too. -/
def agedState (minute : Bool) (volts freq current : List Nat) (s : State) : State :=
  if minute then ageMinute freq (ageSecond volts current s) else ageSecond volts current s

section
variable (minute : Bool) (volts freq current : List Nat) (s : State)

/-- A minute measures the degradations only. -/
theorem agedState_eq : agedState minute volts freq current s = (ageSecond volts current s).updHealth fun h => { h with
    deg := if minute then (upTo 64).map (degradation freq h.deg) else h.deg } := by
  cases minute <;> rfl

theorem agedState_teq {k : Nat} (hk : k < 64) : (agedState minute volts freq current s).health.teq.getD k 0 =
    s.health.teq.getD k 0 + (agedState minute volts freq current s).health.af.getD k 0 := by
  rw [agedState_eq]
  exact upTo_map_getD _ 0 hk

theorem agedState_dmg {r : Nat} (hr : r < 8) : (agedState minute volts freq current s).health.dmg.getD r 0 =
    s.health.dmg.getD r 0 + (agedState minute volts freq current s).health.wear.getD r 0 := by
  rw [agedState_eq]
  exact upTo_map_getD _ 0 hr

theorem agedState_deg_minute {k : Nat} (hk : k < 64) (hf : 0 < freq.getD k 0) :
    (agedState true volts freq current s).health.deg.getD k 0 =
      (freq.getD k 0 - freq.getD (64 + k) 0) * 10 ^ 6 / freq.getD k 0 :=
  (upTo_map_getD (degradation freq (ageSecond volts current s).health.deg) 0 hk).trans (if_neg (by omega))

theorem agedState_cfgN (i k : Nat) : (agedState minute volts freq current s).cfgN i k = s.cfgN i k := by
  rw [agedState_eq]
  rfl

theorem agedState_mode : (agedState minute volts freq current s).chip.mode = s.chip.mode := by
  rw [agedState_eq]
  rfl

end

/-- What an update of the ageing leaves (R473). -/
theorem ageingUpdated {minute : Bool} {volts freq current : List Nat} {s u t : State} (ha : isAlive s.chip.mode = true)
    (hu : u = agedState minute volts freq current s) (ht : t = judgeAgeing s.health u) :
    (∀ k, k < 64 → t.health.teq.getD k 0 = s.health.teq.getD k 0 + t.health.af.getD k 0) ∧
    (∀ r, r < 8 → t.health.dmg.getD r 0 = s.health.dmg.getD r 0 + t.health.wear.getD r 0) ∧
    (minute = false → t.health.deg = s.health.deg) ∧
    (minute = true → ∀ k, k < 64 → 0 < freq.getD k 0 →
      t.health.deg.getD k 0 = (freq.getD k 0 - freq.getD (64 + k) 0) * 10 ^ 6 / freq.getD k 0) ∧
    (∀ k, k ∈ t.health.aged ↔ k < 64 ∧ s.cfgN 0x8100 5 ≤ t.health.deg.getD k 0) ∧
    (∀ r, r ∈ t.health.worn ↔ r < 8 ∧ s.cfgN 0x8100 6 * hourUnits ≤ t.health.dmg.getD r 0) ∧
    (∀ k, k ∈ t.health.aged → k ∉ s.health.aged → bit (t.fault 21 0).status 3 = true) ∧
    (∀ r, r ∈ t.health.worn → r ∉ s.health.worn → bit (t.fault 21 0).status 4 = true) ∧
    t.health.eolHours = (leastLife (remainings t)).2 ∧ t.health.eolAlert = decide (t.health.eolHours < s.cfgN 0x8100 7) ∧
    (t.health.eolAlert = true → s.health.eolAlert = false → bit (t.fault 21 0).status 5 = true) := by
  have hcfg : ∀ i k, u.cfgN i k = s.cfgN i k := fun i k => by rw [hu, agedState_cfgN]
  have hua : isAlive u.chip.mode = true := by rwa [hu, agedState_mode]
  rw [judgeAgeing_eq] at ht
  have hh : t.health = judgedHealth (leastLife (remainings u)) u u.health := by rw [ht, judgeLife_health]
  have hlife : remainings t = remainings u :=
    remainings_congr (fun i k => by rw [ht, judgeLife_cfgN]) (by rw [hh]; rfl) (by rw [hh]; rfl) (by rw [hh]; rfl)
      (by rw [hh]; rfl) (by rw [hh]; rfl)
  have haged : agedNow u = atLimit 64 (s.cfgN 0x8100 5) u.health.deg := by rw [agedNow, hcfg]
  have hworn : wornNow u = atLimit 8 (s.cfgN 0x8100 6 * hourUnits) u.health.dmg := by rw [wornNow, hcfg]
  have hlow : lifeLow (leastLife (remainings u)) u = decide ((leastLife (remainings u)).2 < s.cfgN 0x8100 7) := by
    rw [lifeLow, hcfg]
  rw [hh, hlife]
  refine ⟨fun k hk => ?_, fun r hr => ?_, fun hm => ?_, fun hm k hk hf => ?_, fun k => ?_, fun r => ?_, fun k hk hnew => ?_,
    fun r hr hnew => ?_, rfl, hlow, fun hl hnew => ?_⟩
  · rw [hu]; exact agedState_teq minute volts freq current s hk
  · rw [hu]; exact agedState_dmg minute volts freq current s hr
  · subst hm; rw [hu]; rfl
  · subst hm; rw [hu]; exact agedState_deg_minute volts freq current s hk hf
  · show k ∈ agedNow u ↔ _
    rw [haged]; exact mem_atLimit
  · show r ∈ wornNow u ↔ _
    rw [hworn]; exact mem_atLimit
  · rw [ht]; exact judgeLife_aged hua hk hnew
  · rw [ht]; exact judgeLife_worn hua hr hnew
  · rw [ht]; exact judgeLife_alert hua hl hnew

/-! ## The checkpoint -/

theorem effHealthCheckpoint_idle {s : State} (h : isAlive s.chip.mode = false ∨ s.cycle < s.health.checkAt + sCycles 3600) :
    effHealthCheckpoint s = s := by
  rw [effHealthCheckpoint, if_neg]
  rcases h with h | h
  · simp [h]
  · simp [Nat.not_le.2 h]

theorem effHealthCheckpoint_due {s : State} (ha : isAlive s.chip.mode = true)
    (hd : s.health.checkAt + sCycles 3600 ≤ s.cycle) : effHealthCheckpoint s = checkpoint s := by
  rw [effHealthCheckpoint, if_pos (by simp [ha, hd])]

/-! ## The statement -/

/-- What a sample of 32 readings with a highest valid one leaves (R470). -/
theorem thermalSampled {s t u : State} {l : List Int} {k : Nat} {tj : Int} (ha : isAlive s.chip.mode = true)
    (hu : u = heated k tj (sampled l s)) (ht : t = judgeHeat u) :
    t.health.tj = tj ∧ t.health.hotRun = (if 8 * (s.cfgN 0x8100 2 : Int) ≤ tj then s.health.hotRun + 1 else 0) ∧
    (∀ j, j < 32 → ¬(-320 ≤ l.getD j 0 ∧ l.getD j 0 ≤ 1200) → bit (t.fault 21 0).status 0x0A = true) ∧
    (8 * (s.cfgN 0x8100 1 : Int) ≤ tj → t.health.alarm = true) ∧
    (8 * (s.cfgN 0x8100 1 : Int) ≤ tj → s.health.alarm = false → bit (t.fault 21 0).status 0 = true) ∧
    (tj < 8 * (s.cfgN 0x8100 1 : Int) - 40 → t.health.alarm = false) ∧
    (tj < 8 * (s.cfgN 0x8100 1 : Int) → 8 * (s.cfgN 0x8100 1 : Int) - 40 ≤ tj → t.health.alarm = s.health.alarm) ∧
    (4 ≤ t.health.hotRun → bit (t.fault 21 0).status 1 = true) := by
  have hs := sampled_recorded l s
  have hcfg : ∀ i k, u.cfgN i k = s.cfgN i k := fun i k => by rw [hu]; exact hs.cfgN i k
  have hua : isAlive u.chip.mode = true := by rw [hu]; exact hs.alive ha
  have htj : u.health.tj = tj := by rw [hu]; rfl
  have hrun : u.health.hotRun = s.health.hotRun := by rw [hu, heated, State.updHealth, hs.health]; rfl
  have halarm : u.health.alarm = s.health.alarm := by rw [hu, heated, State.updHealth, hs.health]; rfl
  have hh : t.health = { u.health with alarm := alarmAfter u, hotRun := hotRunAfter u } := by rw [ht, judgeHeat_health]
  have hafter : t.health.alarm = if 8 * (s.cfgN 0x8100 1 : Int) ≤ tj then true
      else if tj < 8 * (s.cfgN 0x8100 1 : Int) - 40 then false else s.health.alarm := by
    rw [hh, ← hcfg, ← htj, ← halarm]
    rfl
  refine ⟨by rw [hh, ← htj], ?_, fun j hj hbad => ?_, fun h => ?_, fun h hoff => ?_, fun h => ?_, fun h1 h2 => ?_, fun h => ?_⟩
  · rw [hh, ← hcfg, ← htj, ← hrun]
    rfl
  · have hsam : bit (u.fault 21 0).status 0x0A = true := by
      rw [hu]
      exact sampled_bit ha hj (by rw [← Bool.not_eq_true, readingOk_iff]; exact hbad)
    rw [ht]
    exact judgeHeat_bits ((judgeAlarm_recorded u).bits _ hsam)
  · rw [hafter, if_pos h]
  · rw [ht]
    exact judgeHeat_bits (judgeAlarm_bit hua (by rwa [hcfg, htj]) (halarm.trans hoff))
  · rw [hafter, if_neg (by omega), if_pos h]
  · rw [hafter, if_neg (by omega), if_neg (by omega)]
  · rw [hh] at h
    rw [ht]
    exact judgeHeat_safe hua h

/-- Before LOAD the monitor does nothing (R462). -/
theorem monitor_idle {s : State} (h : isAlive s.chip.mode = false) (l : List Int) (n m k : Nat) (v f a : List Nat)
    (minute : Bool) : ∀ c ∈ [Instr.aliveHalfPeriod n m k, .thermalSample l, .supplyDroop n m k, .marginReport n m,
      .ageingUpdate minute v f a, .healthCheckpoint], exec c s = .next s := by
  have hthermal : effThermalSample l s = s := by rw [effThermalSample, if_neg (by simp [h])]
  have hageing : effAgeingUpdate minute v f a s = s := by rw [effAgeingUpdate, if_neg (by simp [h])]
  intro c hc
  simp only [List.mem_cons, List.not_mem_nil, or_false] at hc
  rcases hc with rfl | rfl | rfl | rfl | rfl | rfl
  · exact congrArg Host.Outcome.next (effAliveHalfPeriod_idle (.inl h))
  · exact congrArg Host.Outcome.next hthermal
  · exact congrArg Host.Outcome.next (effSupplyDroop_idle (.inl h))
  · exact congrArg Host.Outcome.next (effMarginReport_idle (.inl h))
  · exact congrArg Host.Outcome.next hageing
  · exact congrArg Host.Outcome.next (effHealthCheckpoint_idle (.inl h))

/-- Settles O57: each measurement is judged against its limit, and recordings leave the monitor as it was judged. -/
theorem healthMonitored : Obligations.HealthMonitored := by
  unfold Obligations.HealthMonitored
  refine ⟨fun s l n m k v f a minute h => monitor_idle h l n m k v f a minute, fun s ha =>
    ⟨fun core time mem => ⟨fun h => ?_, fun hr hc ht hm => ?_, fun hr hbad => ?_⟩,
      fun l k tj hl hk htj hlo hhi hmax => ?_, fun rail level ns fallen hf => ⟨fun hn => ?_, fun hd => ?_⟩,
      fun lane mv l hl hp => ⟨fun hdown => ?_, fun hup => ?_⟩, fun minute volts freq current => ?_, fun hearly => ?_,
      fun hdue n hn => ?_⟩⟩
  · exact congrArg Host.Outcome.next (effAliveHalfPeriod_idle (.inr h))
  · exact congrArg Host.Outcome.next (effAliveHalfPeriod_toggles ha hr hc ht hm)
  · have hb := badClocks_ne_nil hbad
    exact ⟨_, congrArg Host.Outcome.next (effAliveHalfPeriod_stops ha hr hb), aliveStops_recorded ha hb rfl⟩
  · obtain ⟨j, hj⟩ := hottestOf_validReadings hk htj ((readingOk_iff tj).2 ⟨hlo, hhi⟩)
      fun j hj hok => hmax j hj ((readingOk_iff _).1 hok).1 ((readingOk_iff _).1 hok).2
    exact ⟨_, congrArg Host.Outcome.next (effThermalSample_eq ha hl hj), thermalSampled ha rfl rfl⟩
  · rw [hf, ← isDroop_iff, Bool.not_eq_true] at hn
    exact congrArg Host.Outcome.next (effSupplyDroop_idle (.inr hn))
  · rw [hf] at hd
    exact ⟨_, congrArg Host.Outcome.next (effSupplyDroop_droops ha ((isDroop_iff _ _ _ _).2 hd)),
      droopNoted_recorded ha hd.1 rfl⟩
  · exact congrArg Host.Outcome.next (effMarginReport_idle (.inr hdown))
  · subst hl
    exact ⟨_, congrArg Host.Outcome.next (effMarginReport_eq ha hp hup), marginReported ha rfl rfl⟩
  · have he : effAgeingUpdate minute volts freq current s = judgeAgeing s.health (agedState minute volts freq current s) := by
      rw [effAgeingUpdate, if_pos ha]
      rfl
    exact ⟨_, congrArg Host.Outcome.next he, ageingUpdated ha rfl rfl⟩
  · exact congrArg Host.Outcome.next (effHealthCheckpoint_idle (.inr hearly))
  · subst hn
    exact ⟨_, congrArg Host.Outcome.next (effHealthCheckpoint_due ha hdue), rfl, rfl,
      (checkpoint_keeps (m := maskOf [.mram, .health]) (.refl _ s) (Sub.of (by decide))).only⟩

end Sys2Proof.Machine
end

section
/-!
PROOF. The memory's upkeep, lost clocks and the SYNCE outputs (R464, R466, R489, R490, R492, R499, R502, R503, R505).
-/
namespace Sys2Proof.Machine

/-! ## The memory -/

section
variable {s : State}

theorem effDqsOscillatorRead_idle {c : Nat} {drift : Bool} (h : isAlive s.chip.mode = false ∨ drift = false) :
    effDqsOscillatorRead c drift s = s := by
  rw [effDqsOscillatorRead, if_neg]
  rcases h with h | h <;> simp [h]

theorem effDqsOscillatorRead_counts {c : Nat} (ha : isAlive s.chip.mode = true) (hc : c < 8) :
    effDqsOscillatorRead c true s = s.bumpK 0x6006 6 c := by
  rw [effDqsOscillatorRead, if_pos (by simp [ha, hc])]

theorem effPatrolScrub_idle {addr : Nat} {c u : Bool} (h : isAlive s.chip.mode = false ∨ dataSize s ≤ addr) :
    effPatrolScrub addr c u s = s := by
  rw [effPatrolScrub, if_neg]
  rcases h with h | h
  · simp [h]
  · simp [Nat.not_lt.2 h]

/-- The patrol scrub has come to a word. -/
def scrubbed (addr : Nat) (s : State) : State := { s with mem := { s.mem with scrubPos := addr } }

theorem effPatrolScrub_visits {addr : Nat} {c u : Bool} (ha : isAlive s.chip.mode = true) (hd : addr < dataSize s) :
    effPatrolScrub addr c u s =
      if u then memUncorrectable addr (scrubbed addr s) else if c then memCorrected addr (scrubbed addr s)
      else scrubbed addr s := by
  rw [effPatrolScrub, if_pos (by simp [ha, hd])]
  rfl

/-- The refresh rate that MR4 shows is kept at its channel. -/
theorem effMr4Read_kept {c v : Nat} {x : Channel} (ha : isAlive s.chip.mode = true) (hx : s.mem.channels[c]? = some x)
    {t : State} (ht : t = effMr4Read c v s) : t.mem.channels[c]? = some { x with refreshRate := v % 8 } ∧
      (∀ j, j ≠ c → t.mem.channels[j]? = s.mem.channels[j]?) ∧ t.mem.cells = s.mem.cells ∧ Only [.mem] s t := by
  have honly : Only [.mem] s (effMr4Read c v s) :=
    (effMr4Read_keeps (m := maskOf [.mem]) (.refl _ s) (Sub.of (by decide))).only
  rw [← ht] at honly
  rw [effMr4Read, if_pos ha] at ht
  subst ht
  refine ⟨?_, fun j hj => ?_, rfl, honly⟩
  · simp [updAt, hx]
  · simp [updAt, hj.symm]

/-- A corrected word (R492, R499). -/
theorem memCorrected_recorded {addr : Nat} {t : State} (ha : isAlive s.chip.mode = true) (ht : t = memCorrected addr s) :
    t.mem = s.mem ∧ bit (t.fault 18 0).status 1 = true ∧
      t.counter 0x6006 2 (addr / 448 % 8) = (s.counter 0x6006 2 (addr / 448 % 8) + 1) % 2 ^ 64 := by
  have he : t = detectFault 18 0 2 (memChannel addr) (s.bumpK 0x6006 2 (memChannel addr)) := ht
  refine ⟨by rw [he, detectFault_mem, State.bumpK_mem], ?_, ?_⟩
  · rw [he]
    exact detectFault_bit (s := s.bumpK 0x6006 2 (memChannel addr)) (c := 2) ha (blockPresent_memory s.ident) _
  rw [he, State.counter_congr (detectFault_cnt _ _ _ _ _)]
  exact State.counter_bumpK_same _ _ _ _

/-- The address of an uncorrectable word stands at its channel. -/
def lastErrorNoted (addr : Nat) (s : State) : State :=
  { s with mem := { s.mem with
    channels := updAt s.mem.channels (memChannel addr) fun x => { x with lastError := addr } } }

/-- An uncorrectable word (R492, R499). -/
theorem memUncorrectable_recorded {addr : Nat} {t : State} (ha : isAlive s.chip.mode = true)
    (ht : t = memUncorrectable addr s) : t.mem.cells = s.mem.cells ∧ t.mem.scrubPos = s.mem.scrubPos ∧
      bit (t.fault 18 0).status 0 = true ∧
      (∀ x, s.mem.channels[addr / 448 % 8]? = some x → t.mem.channels[addr / 448 % 8]? = some { x with lastError := addr }) ∧
      t.counter 0x6006 3 (addr / 448 % 8) = (s.counter 0x6006 3 (addr / 448 % 8) + 1) % 2 ^ 64 := by
  have he : t = detectFault 18 0 1 (memChannel addr) ((lastErrorNoted addr s).bumpK 0x6006 3 (memChannel addr)) := ht
  have hm : t.mem = (lastErrorNoted addr s).mem := by rw [he, detectFault_mem, State.bumpK_mem]
  rw [hm]
  refine ⟨rfl, rfl, ?_, fun x hx => ?_, ?_⟩
  · rw [he]
    exact detectFault_bit (s := (lastErrorNoted addr s).bumpK 0x6006 3 (memChannel addr)) (c := 1) ha
      (blockPresent_memory s.ident) _
  · show (updAt s.mem.channels (addr / 448 % 8) fun x => { x with lastError := addr })[addr / 448 % 8]? = _
    simp [updAt, hx]
  · rw [he, State.counter_congr (detectFault_cnt _ _ _ _ _)]
    exact State.counter_bumpK_same _ _ _ _

end

/-! ## Clocks -/

theorem blockPresent_clocks (id : Ident) : blockPresent id 22 = true := by
  unfold blockPresent unitsPresent
  split <;> decide

/-- Codes 1 and 2 of block 22 always ask for SAFE (R466). -/
theorem safeOn_clocks (s : State) {c : Nat} (h : c = 1 ∨ c = 2) : bit (safeOn s 22) (c - 1) = true := by
  rw [bit_eq_testBit, safeOn, Nat.testBit_or, Bool.or_eq_true]
  right
  rcases h with rfl | rfl <;> decide

/-- What the loss of a clock leaves of the device state and of block 22 (R464, R466, R468). -/
theorem clockLost {s t : State} {c d : Nat} (ha : isAlive s.chip.mode = true) (hc : c = 1 ∨ c = 2)
    (ht : t = detectFault 22 0 c d s) : t.chip.mode = s.chip.mode ∧ t.chip.refclk = s.chip.refclk ∧ t.chip.pll = s.chip.pll ∧
      bit (t.fault 22 0).status (c - 1) = true ∧
      (canEnterSafe s.chip.mode = true → s.chip.safePending = none →
        t.chip.safePending = some (22 * 256 + c, d, s.cycle)) := by
  subst ht
  have hkeeps : Keeps 0xc3000000 s (detectFault 22 0 c d s) := detectFault_keeps (.refl _ s) (Sub.of (by decide))
  obtain ⟨hmode, -, -, -, -, -, -, -, -, -, -, hrefclk, hpll, -, -⟩ := chip_of_same (hkeeps.same .chip (by decide))
  exact ⟨hmode, hrefclk, hpll, detectFault_bit ha (blockPresent_clocks s.ident) d, fun hm hp =>
    detectFault_asksSafe ha (blockPresent_clocks s.ident) (safeOn_clocks s hc) hm fun r y k h => by rw [hp] at h; cases h⟩

theorem detectFault_before {s : State} (h : isAlive s.chip.mode = false) (b i c d : Nat) : detectFault b i c d s = s := by
  rw [detectFault, if_neg (by simp [h])]

/-- REFCLK noted as absent. -/
def refclkGone (s : State) : State := { s with chip := { s.chip with refclk := false } }

/-- A PLL noted as unlocked. -/
def pllGone (k : Nat) (s : State) : State := { s with chip := { s.chip with pll := setField s.chip.pll k 1 0 } }

theorem mode_ne_off {s : State} (h : isAlive s.chip.mode = true) : s.chip.mode ≠ .off := fun e => by
  rw [e] at h
  cases h

theorem effRefclkLoss_on {s : State} (h : s.chip.mode ≠ .off) : effRefclkLoss s = detectFault 22 0 1 0 (refclkGone s) :=
  if_neg h

theorem effPllUnlock_core {s : State} (h : s.chip.mode ≠ .off) {k : Nat} (hk : k < 5) :
    effPllUnlock k s = detectFault 22 0 2 k (pllGone k s) := by
  rw [effPllUnlock, if_neg h, if_neg (by omega), if_pos (by omega)]
  exact if_pos hk

theorem effPllUnlock_quad {s : State} (h : s.chip.mode ≠ .off) {q : Nat} (hq : q < 64)
    (hp : linePortPresent s.ident (4 * q) = true) : effPllUnlock (64 + q) s = detectFault 1 (q / 4) 1 q s := by
  have hsub : 64 + q - 64 = q := by omega
  have hlt : 64 + q < 128 := by omega
  rw [effPllUnlock, if_neg h, if_pos (by omega), hsub, if_pos (by simp [hp, hlt])]

/-- Before LOAD an unlocked PLL is noted only. -/
theorem effPllUnlock_before {s : State} (h : s.chip.mode ≠ .off) (ha : isAlive s.chip.mode = false) {k : Nat} (hk : k < 6) :
    effPllUnlock k s = pllGone k s := by
  rw [effPllUnlock, if_neg h, if_neg (by omega), if_pos hk]
  dsimp only
  split
  · exact detectFault_before (s := pllGone k s) ha _ _ _ _
  · rfl

/-! ## SYNCE outputs -/

theorem effSynceSquelch_idle {k : Nat} {s : State} (h : squelchCause s k = s.pins.squelched.getD k true) :
    effSynceSquelch k s = s := if_neg fun hk => hk.2 h

/-- An output follows its squelch cause. -/
def squelchedAs (k : Nat) (s : State) : State :=
  { s with pins := { s.pins with squelched := setAt s.pins.squelched k (squelchCause s k) } }

theorem effSynceSquelch_follows {k : Nat} {s : State} (hk : k < 2) (h : squelchCause s k ≠ s.pins.squelched.getD k true) :
    effSynceSquelch k s = if squelchCause s k then (squelchedAs k s).bump (synceObj k) 5 else squelchedAs k s :=
  if_pos ⟨hk, h⟩

/-- What a change of a squelch leaves (R503, R505). -/
theorem squelchFollowed {k : Nat} {s t : State} (hk : k < 2) (hlen : k < s.pins.squelched.length)
    (h : squelchCause s k ≠ s.pins.squelched.getD k true) (ht : t = effSynceSquelch k s) :
    t.pins.squelched.getD k true = squelchCause s k ∧
      t.counter (0x4310 + k) 5 0 = (if squelchCause s k = true then (s.counter (0x4310 + k) 5 0 + 1) % 2 ^ 64
        else s.counter (0x4310 + k) 5 0) ∧ Only [.pins, .cnt] s t := by
  have honly : Only [.pins, .cnt] s t := by
    rw [ht]
    exact (effSynceSquelch_keeps (m := maskOf [.pins, .cnt]) (.refl _ s) (Sub.of (by decide))).only
  have hset : (squelchedAs k s).pins.squelched.getD k true = squelchCause s k := by
    show (s.pins.squelched.set k (squelchCause s k)).getD k true = _
    rw [List.getD_eq_getElem?_getD, List.getElem?_set_self hlen, Option.getD_some]
  rw [effSynceSquelch_follows hk h] at ht
  cases hc : squelchCause s k with
  | true =>
    rw [hc] at ht hset
    subst ht
    exact ⟨hset, State.counter_bump_same (squelchedAs k s) (synceObj k) 5, honly⟩
  | false =>
    rw [hc] at ht hset
    subst ht
    exact ⟨hset, rfl, honly⟩

end Sys2Proof.Machine
end

section
/-!
PROOF. The test access port (R506, R524 to R526).
-/
namespace Sys2Proof.Machine

/-! ## Bits of a scan -/

theorem testBit_ofBits (l : List Bool) (k : Nat) : (ofBits l).testBit k = l.getD k false := by
  induction l generalizing k with
  | nil => exact Nat.zero_testBit k
  | cons b r ih =>
    have hcons : ofBits (b :: r) = b2n b + 2 * ofBits r := rfl
    cases k with
    | zero =>
      rw [hcons, Nat.testBit_zero]
      cases b <;> simp [b2n]
    | succ k =>
      have hhalf : (b2n b + 2 * ofBits r) / 2 = ofBits r := by
        have hlt : b2n b < 2 := by cases b <;> decide
        omega
      rw [hcons, Nat.testBit_succ, hhalf, ih]
      rfl

/-- The latches of the boundary register take the bits that a scan leaves in it. -/
theorem getLsbD_ofBits (l : List Bool) {k : Nat} (h : k < 1944) :
    (BitVec.ofNat 1944 (ofBits l)).getLsbD k = l.getD k false := by
  rw [BitVec.getLsbD_ofNat, testBit_ofBits]
  simp [h]

/-! ## The acting instruction -/

/-- The registers after an instruction is loaded. -/
theorem loadInstruction_pins {code : Nat} {s u : State} (hc : code < 256) (hu : u = loadInstruction code s) :
    u.pins = { s.pins with
      tapIr := code, tapControl := tapControls code && (s.chip.mode == .hold || s.chip.mode == .safe) } := by
  subst hu
  rw [loadInstruction, Nat.mod_eq_of_lt hc]

theorem tapControls_iff (code : Nat) : tapControls code = true ↔ code ∈ [0x00, 0x03, 0x04, 0x05, 0x06] :=
  List.contains_iff_mem

theorem tapActs_idcode {s : State} (h : s.pins.tapIr = 0x01) : tapActs s = 0x01 := by
  rw [tapActs, h]
  rfl

/-- Only IDCODE acts as IDCODE. -/
theorem tapActs_ne_idcode {s : State} (h : s.pins.tapIr ≠ 0x01) : tapActs s ≠ 0x01 := by
  unfold tapActs
  dsimp only
  split
  · split
    · exact h
    · decide
  · split
    · exact h
    · decide

/-- What the data register of an instruction captures (R524). -/
theorem drCapture_idcode {s : State} (h : s.pins.tapIr = 0x01) (levels : Nat) :
    drCapture levels s = lowBits 32 (idcode s.ident) := if_pos (tapActs_idcode h)

theorem drCapture_bypass {s : State} (h : s.pins.tapIr ≠ 0x01) (hb : selectsBoundary s = false) (levels : Nat) :
    drCapture levels s = [false] := by
  rw [drCapture, if_neg (tapActs_ne_idcode h), if_neg (by simp [hb])]

/-- The boundary register has 1,944 cells (R525). -/
theorem boundaryCells_length : boundaryCells.length = 1944 := by decide +kernel

theorem drCapture_boundary_length {s : State} (hb : selectsBoundary s = true) (levels : Nat) :
    (drCapture levels s).length = 1944 := by
  have hne : tapActs s ≠ 0x01 := fun e => by
    rw [selectsBoundary, e] at hb
    cases hb
  rw [drCapture, if_neg hne, if_pos hb, List.length_map, List.length_zipIdx]
  exact boundaryCells_length

/-- What a scan of the selected data register leaves. -/
theorem scanData_facts {x : TapScan} {u t : State} {bits : List Bool} (hb : bits = drCapture x.levels u ++ x.tdi)
    (ht : t = scanData x u) :
    t.out = .tdo (bits.take x.tdi.length) :: u.out ∧ Only [.pins, .out] u t ∧ t.pins.tapIr = u.pins.tapIr ∧
      t.pins.tapControl = u.pins.tapControl ∧
      (selectsBoundary u = true → ∀ k, k < 1944 → t.pins.boundary.getLsbD k = (bits.drop x.tdi.length).getD k false) ∧
      (selectsBoundary u = false → t.pins.boundary = u.pins.boundary) := by
  have honly : Only [.pins, .out] u t := by
    rw [ht]
    exact (scanData_keeps (m := maskOf [.pins, .out]) (.refl _ u) (Sub.of (by decide))).only
  subst hb
  cases hs : selectsBoundary u with
  | true =>
    rw [scanData, if_pos hs] at ht
    subst ht
    exact ⟨rfl, honly, rfl, rfl, fun _ k hk => getLsbD_ofBits _ hk, fun h => by cases h⟩
  | false =>
    rw [scanData, if_neg (by simp [hs])] at ht
    subst ht
    exact ⟨rfl, honly, rfl, rfl, fun h => (by cases h), fun _ => rfl⟩

/-- The next state of the load of an instruction. -/
theorem exec_tapInstruction_load {code : TapCode} {s u : State} (h : s.chip.mode ≠ .off)
    (hu : exec (.tapInstruction code none) s = .next u) : u = loadInstruction code s := by
  have he : exec (.tapInstruction code none) s = .next (loadInstruction code s) := congrArg Host.Outcome.next (if_neg h)
  exact Host.Outcome.next.inj (hu.symm.trans he)

/-- What the load of an instruction leaves (R524, R526). -/
theorem instructionLoaded {code : TapCode} {s u : State} (hc : code < 256) (hu : u = loadInstruction code s) :
    u.pins.tapIr = code ∧ u.pins.boundary = s.pins.boundary ∧
      u.out = .tdo [true, false, false, false, false, false, false, false] :: s.out ∧ Only [.pins, .out] s u ∧
      (u.pins.tapControl = true ↔ code ∈ [0x00, 0x03, 0x04, 0x05, 0x06] ∧ s.chip.mode ∈ [.hold, .safe]) := by
  have hp := loadInstruction_pins hc hu
  have honly : Only [.pins, .out] s u := by
    rw [hu]
    exact (loadInstruction_keeps (m := maskOf [.pins, .out]) (.refl _ s) (Sub.of (by decide))).only
  have hout : u.out = .tdo (lowBits 8 0x01) :: s.out := by rw [hu]; rfl
  rw [hp, hout]
  refine ⟨rfl, rfl, rfl, honly, ?_⟩
  show (tapControls code && (s.chip.mode == .hold || s.chip.mode == .safe)) = true ↔ _
  rw [Bool.and_eq_true, tapControls_iff, Bool.or_eq_true, beq_iff_eq, beq_iff_eq]
  simp only [List.mem_cons, List.not_mem_nil, or_false]

/-- What a scan after an instruction puts out and leaves (R524). -/
theorem scanned {code : TapCode} {x : TapScan} {s u t : State} {bits : List Bool} (hc : code < 256)
    (hu : u = loadInstruction code s) (hb : bits = drCapture x.levels u ++ x.tdi) (ht : t = scanData x u) :
    t.out = .tdo (bits.take x.tdi.length) :: u.out ∧ Only [.pins, .out] u t ∧ t.pins.tapIr = code ∧
      t.pins.tapControl = u.pins.tapControl ∧
      (code = 0x01 → drCapture x.levels u = (List.range 32).map (bit (s.ident.revision % 16 * 2 ^ 28 + 0x025605E3))) ∧
      (selectsBoundary u = true → (drCapture x.levels u).length = 1944 ∧ ∀ k, k < 1944 →
        t.pins.boundary.getLsbD k = (bits.drop x.tdi.length).getD k false) ∧
      (selectsBoundary u = false → t.pins.boundary = u.pins.boundary) ∧
      (selectsBoundary u = false → code ≠ 0x01 → drCapture x.levels u = [false]) := by
  have hir : u.pins.tapIr = code := (instructionLoaded hc hu).1
  have hid : u.ident = s.ident := by rw [hu]; rfl
  obtain ⟨hout, honly, hsame, hcontrol, hboundary, hkept⟩ := scanData_facts hb ht
  refine ⟨hout, honly, hsame.trans hir, hcontrol, fun h1 => ?_, fun hs => ⟨drCapture_boundary_length hs _, hboundary hs⟩, hkept,
    fun hs h1 => drCapture_bypass (by rwa [hir]) hs _⟩
  rw [drCapture_idcode (hir.trans h1), hid]
  rfl

/-- Settles O58: the meaning of each command, case by case, with what a fault of its block leaves. -/
theorem memoryAndClocks : Obligations.MemoryAndClocks := by
  unfold Obligations.MemoryAndClocks
  refine ⟨fun s => rfl, fun s ha => ?alive, fun s hb => ?before, fun k s hk hlen => ⟨fun h => ?_, fun h => ?_⟩,
    fun s hoff code scan => ?off, fun s hon => ?test, fun code s hon _ => ⟨_, rfl⟩⟩
  case alive =>
    have hon := mode_ne_off ha
    refine ⟨fun c hc => ⟨?_, ?_⟩, fun c v x hx => ?_, fun addr hd => ⟨?_, ?_, fun corrected => ?_⟩, fun addr c u hd => ?_, ?_,
      fun k hk => ?_, fun q hq hp => ?_⟩
    · exact congrArg Host.Outcome.next (effDqsOscillatorRead_counts ha hc)
    · exact congrArg Host.Outcome.next (effDqsOscillatorRead_idle (.inr rfl))
    · exact ⟨_, rfl, effMr4Read_kept ha hx rfl⟩
    · exact congrArg Host.Outcome.next (effPatrolScrub_visits ha hd)
    · exact ⟨_, congrArg Host.Outcome.next (effPatrolScrub_visits ha hd), memCorrected_recorded (s := scrubbed addr s) ha rfl⟩
    · exact ⟨_, congrArg Host.Outcome.next (effPatrolScrub_visits ha hd),
        memUncorrectable_recorded (s := scrubbed addr s) ha rfl⟩
    · exact congrArg Host.Outcome.next (effPatrolScrub_idle (.inr hd))
    · obtain ⟨hmode, hrefclk, -, hbit, hsafe⟩ := clockLost (s := refclkGone s) (d := 0) ha (.inl rfl) rfl
      exact ⟨_, congrArg Host.Outcome.next (effRefclkLoss_on hon), hrefclk, hmode, hbit, hsafe⟩
    · obtain ⟨-, -, hpll, hbit, hsafe⟩ := clockLost (s := pllGone k s) (d := k) ha (.inr rfl) rfl
      exact ⟨_, congrArg Host.Outcome.next (effPllUnlock_core hon hk), hpll, hbit, hsafe⟩
    · exact congrArg Host.Outcome.next (effPllUnlock_quad hon hq hp)
  case before =>
    refine ⟨fun c d v => ⟨?_, ?_⟩, fun addr c u => ?_, fun hon => ⟨?_, fun k hk => ?_⟩⟩
    · exact congrArg Host.Outcome.next (effDqsOscillatorRead_idle (.inl hb))
    · exact congrArg Host.Outcome.next (if_neg (by simp [hb]))
    · exact congrArg Host.Outcome.next (effPatrolScrub_idle (.inl hb))
    · exact congrArg Host.Outcome.next ((effRefclkLoss_on hon).trans (detectFault_before (s := refclkGone s) hb _ _ _ _))
    · exact congrArg Host.Outcome.next (effPllUnlock_before hon hb hk)
  · exact congrArg Host.Outcome.next (effSynceSquelch_idle h)
  · exact ⟨_, rfl, squelchFollowed hk hlen h rfl⟩
  case off => exact ⟨congrArg Host.Outcome.next (if_pos hoff), congrArg Host.Outcome.next (if_pos hoff)⟩
  case test =>
    refine ⟨congrArg Host.Outcome.next (if_neg hon), fun code hc u hu => ?_⟩
    have hl := exec_tapInstruction_load hon hu
    obtain ⟨hir, hboundary, hout, honly, hcontrol⟩ := instructionLoaded hc hl
    refine ⟨hir, hboundary, hout, honly, hcontrol, fun x bits hbits => ⟨scanData x u, ?_, scanned hc hl hbits rfl⟩⟩
    rw [hl]
    exact congrArg Host.Outcome.next (if_neg hon)

end Sys2Proof.Machine
end

section
/-!
PROOF. What faults, pulses and links leave of the counters of the pairing unit and of the pending sources (R413, R460).
-/
namespace Sys2Proof.Machine

/-- An operation leaves a pair counter as it is, and no source that is pending ceases to be. -/
structure PairFrame (u : Nat) (s t : State) : Prop where
  counter : t.counter 0x7005 u 0 = s.counter 0x7005 u 0
  pending : ∀ n, (s.source n).pending = true → (t.source n).pending = true

namespace PairFrame
variable {u : Nat} {s t v : State}

theorem of_same (hc : t.cnt = s.cnt) (hi : t.intc.sources = s.intc.sources) : PairFrame u s t :=
  ⟨State.counter_congr hc _ _ _, fun n hn => by rwa [State.source, hi]⟩

theorem refl (u : Nat) (s : State) : PairFrame u s s := of_same rfl rfl

theorem trans (h : PairFrame u s t) (k : PairFrame u t v) : PairFrame u s v :=
  ⟨k.counter.trans h.counter, fun n hn => k.pending n (h.pending n hn)⟩

theorem foldl {α : Type} {f : State → α → State} (hf : ∀ v x, PairFrame u v (f v x)) (l : List α) (s : State) :
    PairFrame u s (l.foldl f s) := by
  induction l generalizing s with
  | nil => exact refl u s
  | cons x r ih => exact (hf s x).trans (ih (f s x))

end PairFrame

section
variable {u : Nat} (s : State)

theorem pairFrame_bumpBy {i sub k : Nat} (n : Nat) (h : cntKey i sub k ≠ cntKey 0x7005 u 0) :
    PairFrame u s (s.bumpBy i sub k n) :=
  ⟨State.counter_bumpBy_other s n h, fun _ hn => hn⟩

/-- A pair counter leaves the other pair counters. -/
theorem pairFrame_bumpPair {sub : Nat} (h : sub ≠ u) : PairFrame u s (s.bumpPair sub) :=
  pairFrame_bumpBy s 1 (by unfold cntKey; omega)

theorem pairFrame_bumpPort (p : Nat) {sub : Nat} (hu : u < 256) : PairFrame u s (s.bumpPort p sub) := by
  have hbump : PairFrame u s (s.bump (portCounters p) sub) :=
    pairFrame_bumpBy s 1 (by unfold cntKey portCounters; split <;> omega)
  unfold State.bumpPort
  split
  · exact hbump
  · split
    · exact hbump
    · exact .refl u s

theorem pairFrame_raiseSource (m : Nat) : PairFrame u s (raiseSource m s) := by
  refine ⟨State.counter_congr ((raiseSource_keeps (m := 0x81000000) (.refl _ s) (Sub.of (by decide))).same .cnt (by decide)) _ _ _,
    fun n hn => ?_⟩
  unfold raiseSource
  split
  · dsimp only
    rw [State.source, startHoldoff_sources]
    by_cases h : m = n
    · subst h
      exact congrArg IntSource.pending (State.updSource_source s m _)
    · exact (congrArg IntSource.pending (AMap.get_upd_other _ _ _ h)).trans hn
  · exact hn

theorem pairFrame_updFault (b i : Nat) (f : FaultInst → FaultInst) : PairFrame u s (s.updFault b i f) := .of_same rfl rfl

theorem pairFrame_recordFault (b i c e : Nat) : PairFrame u s (recordFault b i c e s) := by
  have hnoted : PairFrame u s (if (s.fault b i).hist.length < 8 then
      (if (s.fault b i).hist.isEmpty then s.hit (.faultHead b i) 0 else s) else s.hit (.faultLost b i) (s.fault b i).lost) := by
    split
    · split
      · exact .of_same rfl rfl
      · exact .refl u s
    · exact .of_same rfl rfl
  unfold recordFault
  dsimp only
  split
  · exact (hnoted.trans (pairFrame_updFault _ b i _)).trans (pairFrame_raiseSource _ _)
  · exact hnoted.trans (pairFrame_updFault _ b i _)

theorem pairFrame_detectFault (b i c d : Nat) : PairFrame u s (detectFault b i c d s) := by
  refine ⟨State.counter_congr (detectFault_cnt b i c d s) _ _ _, ?_⟩
  by_cases h : isAlive s.chip.mode = true ∧ blockPresent s.ident b = true
  · have hn : PairFrame u s (noteFault b i c d s) := by
      unfold noteFault
      split
      · exact .of_same rfl rfl
      · exact (PairFrame.of_same rfl rfl : PairFrame u s (s.hit (.faultStatus b i c) 0)).trans (pairFrame_recordFault _ b i c _)
    intro n hp
    rw [State.source, detectFault_intc h.1 h.2]
    exact hn.pending n hp
  · rw [detectFault, if_neg (by simpa using h)]
    exact fun _ hp => hp

theorem pairFrame_pulse {l : Nat} (hl : l < 2 ^ 32) : PairFrame u s (pulse l s) := by
  unfold pulse
  split
  · exact (PairFrame.of_same rfl rfl : PairFrame u s
      { s with intc := { s.intc with pulses := s.intc.pulses ++ [(l, s.cycle)] } }).trans
      (pairFrame_bumpBy _ 1 (by unfold cntKey; omega))
  · exact .refl u s

theorem pairFrame_healthFault (c d : Nat) : PairFrame u s (healthFault c d s) := by
  have hd := pairFrame_detectFault (u := u) s 21 0 c d
  unfold healthFault
  dsimp only
  split
  · exact hd
  · exact hd.trans (pairFrame_pulse _ (by decide))

/-! ## Links -/

theorem pairFrame_noteLink (p was : Nat) (hu : u < 256) : PairFrame u s (noteLink p was s) := by
  unfold noteLink
  dsimp only
  split
  · exact .refl u s
  · split
    · exact (pairFrame_pulse s (by decide)).trans (pairFrame_bumpPort _ p hu)
    · exact pairFrame_pulse s (by decide)

theorem pairFrame_fallLink (p fault : Nat) (hu : u < 256) : PairFrame u s (fallLink p fault s) := by
  have hdrop : PairFrame u s (dropAssembly p s) := by
    unfold dropAssembly
    split
    · exact (PairFrame.of_same rfl rfl : PairFrame u s (s.updPort p fun x => { x with asm := none })).trans
        (pairFrame_bumpPort _ p hu)
    · exact .refl u s
  exact hdrop.trans (.of_same rfl rfl)

theorem pairFrame_linkPower (p : Nat) (wasOn : Bool) (hu : u < 256) : PairFrame u s (linkPower p wasOn s) := by
  have hfall := pairFrame_fallLink s p 0 hu
  unfold linkPower
  split
  · exact .refl u s
  · unfold startLink
    dsimp only
    split
    · exact hfall.trans (.of_same rfl rfl)
    · exact hfall.trans (.of_same rfl rfl)

end

end Sys2Proof.Machine
end

section
/-!
PROOF. The supervision of the supply feeds (R424, R428 to R430).
-/
namespace Sys2Proof.Machine

/-! ## Shedding -/

/-- The link of one port under a new set of shedding ports. -/
def shedTurn (s u : State) (p : Nat) : State := noteLink p (linkState s p) (linkPower p (portOn s p) u)

/-- The links under a new set of shedding ports. -/
def shedLinks (l : List Nat) (s : State) : State :=
  (linePorts s).foldl (shedTurn s) (s.updFeeds fun f => { f with shedding := l })

theorem setShedding_eq (l : List Nat) (s : State) : setShedding l s =
    if s.feeds.shedding.isEmpty = l.isEmpty then shedLinks l s
    else if l.isEmpty then pulse 243 (shedLinks l s) else (pulse 243 (shedLinks l s)).bumpPair 0x11 := rfl

theorem shedLinks_keeps (l : List Nat) (s : State) :
    Keeps 0x5000a08 (s.updFeeds fun f => { f with shedding := l }) (shedLinks l s) :=
  Keeps.foldl _ (fun _ _ h => noteLink_keeps (linkPower_keeps h (Sub.of (by decide))) (Sub.of (by decide))) (.refl _ _)

theorem setShedding_after (l : List Nat) (s : State) :
    Keeps 0x5000a08 (s.updFeeds fun f => { f with shedding := l }) (setShedding l s) := by
  have hp := pulse_keeps (a0 := 243) (shedLinks_keeps l s) (Sub.of (by decide))
  rw [setShedding_eq]
  exact .ite (shedLinks_keeps l s) (.ite hp (State.bumpPair_keeps hp (Sub.of (by decide))))

theorem setShedding_feeds (l : List Nat) (s : State) : (setShedding l s).feeds = { s.feeds with shedding := l } :=
  (setShedding_after l s).same .feeds (by decide)

theorem pairFrame_setShedding {u : Nat} (l : List Nat) (s : State) (hu : u < 256) (h : u ≠ 0x11) :
    PairFrame u s (setShedding l s) := by
  have hl : PairFrame u s (shedLinks l s) :=
    (PairFrame.of_same rfl rfl : PairFrame u s (s.updFeeds fun f => { f with shedding := l })).trans
      (.foldl (fun v p => (pairFrame_linkPower v p _ hu).trans (pairFrame_noteLink _ p _ hu)) _ _)
  have hp := hl.trans (pairFrame_pulse _ (show 243 < 2 ^ 32 by decide))
  rw [setShedding_eq]
  split
  · exact hl
  · split
    · exact hp
    · exact hp.trans (pairFrame_bumpPair _ h.symm)

/-! ## The short condition -/

theorem isShort_congr {s t : State} (ha : t.feeds.aOk = s.feeds.aOk) (hb : t.feeds.bOk = s.feeds.bOk) (hc : t.cfg = s.cfg)
    (hi : t.ident = s.ident) : isShort t = isShort s := by
  unfold isShort feedsOk fullLoad State.cfgN
  rw [ha, hb, hc, hi]

theorem shedPorts_congr {s t : State} (hc : t.cfg = s.cfg) (hi : t.ident = s.ident) : shedPorts t = shedPorts s := by
  simp only [shedPorts, linePorts, State.cfgO, gateCfg, hc, hi]

/-- The supervision with the short condition judged, before ports are shed. -/
def judgedFeeds (s : State) : Feeds :=
  { s.feeds with
    short := isShort s
    okSince := if isShort s then none else if s.feeds.short then some s.cycle else s.feeds.okSince }

theorem judgeFeeds_eq (s : State) : judgeFeeds s =
    if isShort s then setShedding (shedPorts s) (s.updFeeds fun _ => judgedFeeds s)
    else s.updFeeds fun _ => judgedFeeds s := rfl

theorem judgeFeeds_feeds (s : State) : (judgeFeeds s).feeds =
    if isShort s then { judgedFeeds s with shedding := shedPorts s } else judgedFeeds s := by
  rw [judgeFeeds_eq]
  split
  · exact setShedding_feeds _ _
  · rfl

theorem pairFrame_judgeFeeds {u : Nat} (s : State) (hu : u < 256) (h : u ≠ 0x11) : PairFrame u s (judgeFeeds s) := by
  have hf : PairFrame u s (s.updFeeds fun _ => judgedFeeds s) := .of_same rfl rfl
  rw [judgeFeeds_eq]
  split
  · exact hf.trans (pairFrame_setShedding _ _ hu h)
  · exact hf

/-! ## A loss -/

/-- The supervision with a loss noted. -/
def lostNoted (line : Nat) (f : Feeds) : Feeds := if line = 0 then { f with aLost := true } else { f with bLost := true }

/-- A loss noted and counted. -/
def lossCounted (line : Nat) (s : State) : State := ((s.updFeeds (lostNoted line)).hit (.feedLost line) 0).bumpPair (0x0F + line)

theorem pairFrame_lossCounted {u : Nat} (line : Nat) (s : State) (h : 0x0F + line ≠ u) : PairFrame u s (lossCounted line s) :=
  (PairFrame.of_same rfl rfl : PairFrame u s ((s.updFeeds (lostNoted line)).hit (.feedLost line) 0)).trans
    (pairFrame_bumpPair _ h)

theorem eq_or_eq_of_ite (c : Prop) [Decidable c] (s t : State) : (if c then s else t) = s ∨ (if c then s else t) = t := by
  split
  · exact .inl rfl
  · exact .inr rfl

/-- A loss is recorded, and may make the unit yield. -/
theorem feedLost_after (line : Nat) (s : State) : Keeps 0xc3040200 (lossCounted line s) (feedLost line s) ∧
    ∀ u, PairFrame u (lossCounted line s) (feedLost line s) := by
  have hk : Keeps 0xc3040200 (lossCounted line s) (healthFault (8 + line) 0 (lossCounted line s)) :=
    healthFault_keeps (.refl _ _) (Sub.of (by decide))
  have hf : ∀ u, PairFrame u (lossCounted line s) (healthFault (8 + line) 0 (lossCounted line s)) :=
    fun u => pairFrame_healthFault _ _ _
  have hy : feedLost line s = yieldPair (healthFault (8 + line) 0 (lossCounted line s)) ∨
      feedLost line s = healthFault (8 + line) 0 (lossCounted line s) := eq_or_eq_of_ite _ _ _
  rcases hy with h | h
  · rw [h]
    exact ⟨yieldPair_keeps hk (Sub.of (by decide)), fun u => (hf u).trans (.of_same rfl rfl)⟩
  · rw [h]
    exact ⟨hk, hf⟩

/-! ## A change of a feed line -/

/-- A change accepted and its source raised. -/
def changeAccepted (line : Nat) (level : Bool) (s : State) : State := raiseSource (272 + line) (acceptFeed line level s)

/-- A change accepted, a loss noted. -/
def changeNoted (line : Nat) (level : Bool) (s : State) : State :=
  if level then changeAccepted line level s else feedLost line (changeAccepted line level s)

section
variable {line : Nat} {level : Bool} {s : State}

theorem effFeedLineChange_idle (h : (if line = 0 then s.feeds.aOk else s.feeds.bOk) = level ∨ feedHeld s line = false) :
    effFeedLineChange line level s = s := by
  rw [effFeedLineChange]
  refine if_neg ?_
  rcases h with h | h <;> simp [h]

theorem effFeedLineChange_accepted (ha : isAlive s.chip.mode = true) (hl : line < 2)
    (h : (if line = 0 then s.feeds.aOk else s.feeds.bOk) ≠ level) (hh : feedHeld s line = true) :
    effFeedLineChange line level s = judgeFeeds (changeNoted line level s) := by
  rw [effFeedLineChange]
  exact if_pos (by simp [ha, hl, h, hh])

theorem changeAccepted_keeps : Keeps 0x81000000 (acceptFeed line level s) (changeAccepted line level s) :=
  raiseSource_keeps (.refl _ _) (Sub.of (by decide))

/-- The supervision after the change is accepted and a loss noted. -/
def notedFeeds (line : Nat) (level : Bool) (s : State) : Feeds :=
  if level then (acceptFeed line level s).feeds else lostNoted line (acceptFeed line level s).feeds

theorem changeNoted_feeds : (changeNoted line level s).feeds = notedFeeds line level s := by
  have ha := (changeAccepted_keeps (line := line) (level := level) (s := s)).same .feeds (by decide)
  cases level with
  | true => exact ha
  | false =>
    have hf : (feedLost line (changeAccepted line false s)).feeds = lostNoted line (changeAccepted line false s).feeds :=
      (feedLost_after line _).1.same .feeds (by decide)
    exact hf.trans (congrArg (lostNoted line) ha)

/-- A change leaves the configuration, the identity and the time. -/
theorem changeNoted_keeps : Keeps 0xc3060200 s (changeNoted line level s) := by
  have ha : Keeps 0xc3060200 s (changeAccepted line level s) :=
    raiseSource_keeps (acceptFeed_keeps (.refl _ s) (Sub.of (by decide))) (Sub.of (by decide))
  exact .ite ha (feedLost_keeps ha (Sub.of (by decide)))

theorem changeNoted_pending (hl : line < 2) : ((changeNoted line level s).source (272 + line)).pending = true := by
  have hx : srcExists (272 + line) = true := by
    have h0 : 1 ≤ 272 + line := by omega
    have h1 : 272 + line ≤ 273 := by omega
    simp [srcExists, h0, h1]
  have hr : ((changeAccepted line level s).source (272 + line)).pending = true := by
    rw [changeAccepted, raiseSource_source _ hx]
    rfl
  cases level with
  | true => exact hr
  | false =>
    exact ((pairFrame_lossCounted line _ (by omega)).trans ((feedLost_after line _).2 0)).pending _ hr

theorem changeNoted_counter : (changeNoted line false s).counter 0x7005 (0x0F + line) 0 =
    (s.counter 0x7005 (0x0F + line) 0 + 1) % 2 ^ 64 := by
  have ha : Keeps 0x81020000 s (changeAccepted line false s) :=
    raiseSource_keeps (acceptFeed_keeps (.refl _ s) (Sub.of (by decide))) (Sub.of (by decide))
  have hcnt : (((changeAccepted line false s).updFeeds (lostNoted line)).hit (.feedLost line) 0).cnt = s.cnt :=
    ha.same .cnt (by decide)
  show (feedLost line (changeAccepted line false s)).counter 0x7005 (0x0F + line) 0 = _
  rw [((feedLost_after line _).2 _).counter, lossCounted, State.bumpPair, State.counter_bump_same, State.counter_congr hcnt]

end

end Sys2Proof.Machine
end

section
/-!
PROOF. What the supervision of the supply feeds answers (R424, R428 to R430).
-/
namespace Sys2Proof.Machine

/-! ## A judged state -/

section
variable (s : State)

theorem judgeFeeds_levels : (judgeFeeds s).feeds.aOk = s.feeds.aOk ∧ (judgeFeeds s).feeds.bOk = s.feeds.bOk ∧
    (judgeFeeds s).feeds.aAt = s.feeds.aAt ∧ (judgeFeeds s).feeds.bAt = s.feeds.bAt ∧
    (judgeFeeds s).feeds.aLost = s.feeds.aLost ∧ (judgeFeeds s).feeds.bLost = s.feeds.bLost := by
  rw [judgeFeeds_feeds]
  split
  · exact ⟨rfl, rfl, rfl, rfl, rfl, rfl⟩
  · exact ⟨rfl, rfl, rfl, rfl, rfl, rfl⟩

/-- The short condition as it is noted. -/
theorem judgeFeeds_short : (judgeFeeds s).feeds.short = isShort s := by
  rw [judgeFeeds_feeds]
  split
  · rfl
  · rfl

theorem isShort_judgeFeeds : isShort (judgeFeeds s) = isShort s := by
  have hk : Keeps 0x5020a08 s (judgeFeeds s) := judgeFeeds_keeps (.refl _ s) (Sub.of (by decide))
  obtain ⟨ha, hb, -⟩ := judgeFeeds_levels s
  exact isShort_congr ha hb (hk.same .cfg (by decide)) (hk.same .ident (by decide))

theorem judgeFeeds_shedding_short (h : isShort s = true) :
    (judgeFeeds s).feeds.shedding = shedPorts s ∧ (judgeFeeds s).feeds.okSince = none := by
  rw [judgeFeeds_feeds, if_pos h]
  exact ⟨rfl, if_pos h⟩

theorem judgeFeeds_shedding_enough (h : isShort s = false) : (judgeFeeds s).feeds.shedding = s.feeds.shedding := by
  rw [judgeFeeds_feeds, if_neg (by simp [h])]
  rfl

/-- The end of a shortage is noted with its time. -/
theorem judgeFeeds_okSince_ended (h : isShort s = false) (hw : s.feeds.short = true) :
    (judgeFeeds s).feeds.okSince = some s.cycle := by
  rw [judgeFeeds_feeds, if_neg (by simp [h])]
  exact (if_neg (by simp [h])).trans (if_pos hw)

end

/-! ## A change of a feed line -/

section
variable {line : Nat} {level : Bool} {s : State}

theorem notedFeeds_a : (notedFeeds 0 level s).aOk = level ∧ (notedFeeds 0 level s).bOk = s.feeds.bOk ∧
    (notedFeeds 0 level s).aAt = some s.cycle ∧ (level = false → (notedFeeds 0 level s).aLost = true) := by
  cases level with
  | true => exact ⟨rfl, rfl, rfl, nofun⟩
  | false => exact ⟨rfl, rfl, rfl, fun _ => rfl⟩

theorem notedFeeds_b : (notedFeeds 1 level s).bOk = level ∧ (notedFeeds 1 level s).aOk = s.feeds.aOk ∧
    (notedFeeds 1 level s).bAt = some s.cycle ∧ (level = false → (notedFeeds 1 level s).bLost = true) := by
  cases level with
  | true => exact ⟨rfl, rfl, rfl, nofun⟩
  | false => exact ⟨rfl, rfl, rfl, fun _ => rfl⟩

/-- A change and a loss leave the shedding ports and the short condition to the judgment. -/
theorem notedFeeds_judged : (notedFeeds line level s).shedding = s.feeds.shedding ∧
    (notedFeeds line level s).short = s.feeds.short := by
  have ha : (acceptFeed line level s).feeds.shedding = s.feeds.shedding ∧
      (acceptFeed line level s).feeds.short = s.feeds.short := by
    unfold acceptFeed
    split
    · exact ⟨rfl, rfl⟩
    · exact ⟨rfl, rfl⟩
  unfold notedFeeds lostNoted
  split
  · exact ha
  · split
    · exact ha
    · exact ha

/-- The levels and times that an accepted change leaves. -/
theorem feedLineChange_levels {t : State} (ht : t = judgeFeeds (changeNoted line level s)) :
    (line = 0 → t.feeds.aOk = level ∧ t.feeds.bOk = s.feeds.bOk ∧ t.feeds.aAt = some s.cycle) ∧
    (line = 1 → t.feeds.bOk = level ∧ t.feeds.aOk = s.feeds.aOk ∧ t.feeds.bAt = some s.cycle) := by
  obtain ⟨haOk, hbOk, haAt, hbAt, -⟩ := judgeFeeds_levels (changeNoted line level s)
  rw [changeNoted_feeds] at haOk hbOk haAt hbAt
  subst ht
  rw [haOk, hbOk, haAt, hbAt]
  refine ⟨fun h => ?_, fun h => ?_⟩
  · subst h
    obtain ⟨h1, h2, h3, -⟩ := notedFeeds_a (level := level) (s := s)
    exact ⟨h1, h2, h3⟩
  · subst h
    obtain ⟨h1, h2, h3, -⟩ := notedFeeds_b (level := level) (s := s)
    exact ⟨h1, h2, h3⟩

/-- A loss is noted and counted. -/
theorem feedLineChange_lost {t : State} (hl : line < 2) (ht : t = judgeFeeds (changeNoted line false s)) :
    (line = 0 → t.feeds.aLost = true) ∧ (line = 1 → t.feeds.bLost = true) ∧
    t.counter 0x7005 (0x0F + line) 0 = (s.counter 0x7005 (0x0F + line) 0 + 1) % 2 ^ 64 := by
  obtain ⟨-, -, -, -, haLost, hbLost⟩ := judgeFeeds_levels (changeNoted line false s)
  rw [changeNoted_feeds] at haLost hbLost
  subst ht
  refine ⟨fun h => ?_, fun h => ?_, ?_⟩
  · subst h
    exact haLost.trans (notedFeeds_a.2.2.2 rfl)
  · subst h
    exact hbLost.trans (notedFeeds_b.2.2.2 rfl)
  · rw [(pairFrame_judgeFeeds _ (by omega) (by omega)).counter, changeNoted_counter]

/-- Short by R428 the unit sheds the ports of R429; otherwise it sheds those of before, and notes a shortage's end. -/
theorem feedLineChange_judged {t : State} (ht : t = judgeFeeds (changeNoted line level s)) :
    t.feeds.short = isShort t ∧
    (t.feeds.short = true → t.feeds.shedding = shedPorts s ∧ t.feeds.okSince = none) ∧
    (t.feeds.short = false → t.feeds.shedding = s.feeds.shedding) ∧
    (t.feeds.short = false → s.feeds.short = true → t.feeds.okSince = some s.cycle) := by
  have hv : Keeps 0xc3060200 s (changeNoted line level s) := changeNoted_keeps
  have hports : shedPorts (changeNoted line level s) = shedPorts s :=
    shedPorts_congr (hv.same .cfg (by decide)) (hv.same .ident (by decide))
  have hcycle : (changeNoted line level s).cycle = s.cycle := hv.same .cycle (by decide)
  obtain ⟨hshed, hshort⟩ := notedFeeds_judged (line := line) (level := level) (s := s)
  subst ht
  rw [judgeFeeds_short]
  refine ⟨(isShort_judgeFeeds _).symm, fun h => ?_, fun h => ?_, fun h hw => ?_⟩
  · rw [← hports]
    exact judgeFeeds_shedding_short _ h
  · rw [judgeFeeds_shedding_enough _ h, changeNoted_feeds, hshed]
  · rw [judgeFeeds_okSince_ended _ h (by rw [changeNoted_feeds, hshort, hw]), hcycle]

end

/-- A change that the filter of its line can have accepted (R424, log entry 84), and its consequences (R428, R429). -/
theorem feedLineChange_answers (line : Nat) (level : Bool) (s : State) (ha : isAlive s.chip.mode = true) (hl : line < 2) :
    ((if line = 0 then s.feeds.aOk else s.feeds.bOk) = level ∨ feedHeld s line = false →
      exec (.feedLineChange line level) s = .next s) ∧
    ((if line = 0 then s.feeds.aOk else s.feeds.bOk) ≠ level → feedHeld s line = true →
      Gives (.feedLineChange line level) s fun t =>
      (line = 0 → t.feeds.aOk = level ∧ t.feeds.bOk = s.feeds.bOk ∧ t.feeds.aAt = some s.cycle) ∧
      (line = 1 → t.feeds.bOk = level ∧ t.feeds.aOk = s.feeds.aOk ∧ t.feeds.bAt = some s.cycle) ∧
      (t.source (272 + line)).pending = true ∧ t.feeds.short = isShort t ∧
      (t.feeds.short = true → t.feeds.shedding = shedPorts s ∧ t.feeds.okSince = none) ∧
      (t.feeds.short = false → t.feeds.shedding = s.feeds.shedding) ∧
      (t.feeds.short = false → s.feeds.short = true → t.feeds.okSince = some s.cycle) ∧
      (level = false → (line = 0 → t.feeds.aLost = true) ∧ (line = 1 → t.feeds.bLost = true) ∧
        t.counter 0x7005 (0x0F + line) 0 = (s.counter 0x7005 (0x0F + line) 0 + 1) % 2 ^ 64)) := by
  refine ⟨fun h => congrArg Host.Outcome.next (effFeedLineChange_idle h), fun h hh =>
    ⟨_, congrArg Host.Outcome.next (effFeedLineChange_accepted ha hl h hh), ?_⟩⟩
  obtain ⟨hA, hB⟩ := feedLineChange_levels (line := line) (level := level) (s := s) rfl
  obtain ⟨hshort, hshed, hkept, hended⟩ := feedLineChange_judged (line := line) (level := level) (s := s) rfl
  refine ⟨hA, hB, (pairFrame_judgeFeeds (u := 0) _ (by decide) (by decide)).pending _ (changeNoted_pending hl),
    hshort, hshed, hkept, hended, fun hlev => ?_⟩
  subst hlev
  exact feedLineChange_lost hl rfl

/-! ## The end of a shortage -/

section
variable {s : State} {at_ : Nat}

theorem effRestoreHoldExpiry_idle (h : s.feeds.okSince = none ∨ s.feeds.short = true) : effRestoreHoldExpiry s = s := by
  unfold effRestoreHoldExpiry
  split
  · next t ht =>
    obtain h | h := h
    · rw [h] at ht
      cases ht
    · exact if_neg (by simp [h])
  · rfl

theorem effRestoreHoldExpiry_early (ho : s.feeds.okSince = some at_) (h : s.cycle < at_ + msCycles (s.cfgN 0x7001 4)) :
    effRestoreHoldExpiry s = s := by
  rw [effRestoreHoldExpiry, ho]
  exact if_neg (by simp [Nat.not_le.2 h])

theorem effRestoreHoldExpiry_due (ho : s.feeds.okSince = some at_) (ha : isAlive s.chip.mode = true)
    (hs : s.feeds.short = false) (h : at_ + msCycles (s.cfgN 0x7001 4) ≤ s.cycle) :
    effRestoreHoldExpiry s = setShedding [] (s.updFeeds fun f => { f with okSince := none }) := by
  rw [effRestoreHoldExpiry, ho]
  exact if_pos (by simp [h, ha, hs])

/-- The end of shedding pulses line 243 (R411). -/
theorem setShedding_nil_pulse (h : s.feeds.shedding ≠ []) : (243, s.cycle) ∈ (setShedding [] s).intc.pulses := by
  have hc : (shedLinks [] s).cycle = s.cycle := (shedLinks_keeps [] s).same .cycle (by decide)
  have hne : ¬ s.feeds.shedding.isEmpty = ([] : List Nat).isEmpty := by simpa using h
  rw [setShedding_eq, if_neg hne, if_pos List.isEmpty_nil, ← hc]
  exact mem_pulses_pulse rfl

theorem restoreHoldExpiry_answers (s : State) (at_ : Nat) (ho : s.feeds.okSince = some at_) (ha : isAlive s.chip.mode = true)
    (hs : s.feeds.short = false) :
    (s.cycle < at_ + msCycles (s.cfgN 0x7001 4) → exec .restoreHoldExpiry s = .next s) ∧
    (at_ + msCycles (s.cfgN 0x7001 4) ≤ s.cycle → Gives .restoreHoldExpiry s fun t =>
      t.feeds = { s.feeds with shedding := [], okSince := none } ∧
      (s.feeds.shedding ≠ [] → (243, s.cycle) ∈ t.intc.pulses)) := by
  refine ⟨fun h => congrArg Host.Outcome.next (effRestoreHoldExpiry_early ho h), fun h =>
    ⟨_, congrArg Host.Outcome.next (effRestoreHoldExpiry_due ho ha hs h), ?_, fun hshed => ?_⟩⟩
  · exact setShedding_feeds _ _
  · exact setShedding_nil_pulse (s := s.updFeeds fun f => { f with okSince := none }) hshed

end

end Sys2Proof.Machine
end

section
/-!
PROOF. Lanes, pair-link frames and heartbeats (R434 to R437, R453).
-/
namespace Sys2Proof.Machine

/-! ## What is heard of the partner -/

/-- An operation leaves the partner, the time of its last heartbeat and the count of heartbeats received. -/
structure HeardFrame (s t : State) : Prop where
  partner : t.pair.partner = s.pair.partner
  heardAt : t.pair.heardAt = s.pair.heardAt
  counter : t.counter 0x7005 2 0 = s.counter 0x7005 2 0

namespace HeardFrame
variable {s t v : State}

theorem refl (s : State) : HeardFrame s s := ⟨rfl, rfl, rfl⟩

theorem trans (h : HeardFrame s t) (k : HeardFrame t v) : HeardFrame s v :=
  ⟨k.partner.trans h.partner, k.heardAt.trans h.heardAt, k.counter.trans h.counter⟩

/-- What leaves the pairing unit alone. -/
theorem of_pairFrame (hp : t.pair = s.pair) (hf : PairFrame 2 s t) : HeardFrame s t :=
  ⟨congrArg Pair.partner hp, congrArg Pair.heardAt hp, hf.counter⟩

end HeardFrame

/-- The claim of a heartbeat of the unit's own group is offered. -/
def claimHeard (p : Partner) (s : State) : State := if p.group = pairGroup s then offerClaim p.claim s else s

/-- The role's answer, the claim having been offered. -/
def roleAnswer (p : Partner) (s : State) : State :=
  if s.pair.role = 0 ∨ s.pair.role = 1 ∨ !isPaired s then s
  else if partnerConflicts s p then (if s.pair.role = 4 then s else becomeConflict p s)
  else if s.pair.role = 4 then takeRole s
  else if s.pair.role = 3 ∧ (p.state ≠ 6 ∨ (bit p.flags 5 ∧ s.pair.ready)) then
    s.updPair fun x => { x with taking := true }
  else s

theorem heartbeatRole_eq (p : Partner) (s : State) : heartbeatRole p s = roleAnswer p (claimHeard p s) := rfl

section
variable (s : State)

theorem detectFault_pair (b i c d : Nat) : (detectFault b i c d s).pair = s.pair :=
  (detectFault_keeps (m := 0xc3000000) (.refl _ s) (Sub.of (by decide))).same .pair (by decide)

theorem heardFrame_detectFault (b i c d : Nat) : HeardFrame s (detectFault b i c d s) :=
  .of_pairFrame (detectFault_pair s b i c d) (pairFrame_detectFault s b i c d)

theorem heardFrame_pulse {l : Nat} (hl : l < 2 ^ 32) : HeardFrame s (pulse l s) :=
  .of_pairFrame (pulse_pair l s) (pairFrame_pulse s hl)

theorem heardFrame_bumpPair {sub : Nat} (h : sub ≠ 2) : HeardFrame s (s.bumpPair sub) :=
  .of_pairFrame rfl (pairFrame_bumpPair s h)

theorem heardFrame_pairEvent (n : Nat) : HeardFrame s (pairEvent n s) := ⟨rfl, rfl, rfl⟩

theorem heardFrame_setRole (role claim : Nat) : HeardFrame s (setRole role claim s) := by
  unfold setRole
  split
  · exact ⟨rfl, rfl, rfl⟩
  · dsimp only
    split
    · refine HeardFrame.trans ?_ (heardFrame_pulse _ (show 244 < 2 ^ 32 by decide))
      exact ⟨rfl, rfl, rfl⟩
    · exact ⟨rfl, rfl, rfl⟩

theorem heardFrame_persistEpoch (e : Nat) : HeardFrame s (persistEpoch e s) := ⟨rfl, rfl, rfl⟩

theorem heardFrame_becomeActive : HeardFrame s (becomeActive s) :=
  (heardFrame_persistEpoch s _).trans (heardFrame_setRole _ 2 _)

theorem heardFrame_becomeStandby (c : Nat) : HeardFrame s (becomeStandby c s) :=
  (heardFrame_persistEpoch s _).trans (heardFrame_setRole _ 3 _)

theorem heardFrame_becomeConflict (p : Partner) : HeardFrame s (becomeConflict p s) :=
  ((heardFrame_setRole s 4 0).trans (heardFrame_pairEvent _ 5)).trans (heardFrame_detectFault _ 20 0 2 p.rank)

/-- A demotion (R438). -/
theorem heardFrame_demote (c : Nat) : HeardFrame s (demote c s) := by
  have hs : HeardFrame s (pairEvent 1 ((becomeStandby c s).updPair fun p => { p with yield := false, ready := false })) :=
    (heardFrame_becomeStandby s c).trans ⟨rfl, rfl, rfl⟩
  exact (hs.trans (heardFrame_bumpPair _ (show 5 ≠ 2 by decide))).trans ⟨rfl, rfl, rfl⟩

theorem heardFrame_offerClaim (c : Nat) : HeardFrame s (offerClaim c s) := by
  have h1 : HeardFrame s (s.updPair fun p => { p with seen := max p.seen (c / 256) }) := ⟨rfl, rfl, rfl⟩
  unfold offerClaim
  dsimp only
  split
  · split
    · split
      · exact h1
      · exact h1.trans (heardFrame_demote _ c)
    · split
      · exact (h1.trans (heardFrame_becomeStandby _ c)).trans ⟨rfl, rfl, rfl⟩
      · exact h1
  · exact h1

theorem heardFrame_takeRole : HeardFrame s (takeRole s) := by
  unfold takeRole
  split
  · exact heardFrame_becomeActive s
  · next p _ =>
    split
    · exact heardFrame_becomeConflict s p
    · split
      · exact heardFrame_becomeActive s
      · exact heardFrame_becomeStandby s p.claim

/-- The role's answer to a heartbeat leaves what was heard. -/
theorem heardFrame_roleAnswer (p : Partner) : HeardFrame s (roleAnswer p s) := by
  unfold roleAnswer
  split
  · exact .refl s
  · split
    · split
      · exact .refl s
      · exact heardFrame_becomeConflict s p
    · split
      · exact heardFrame_takeRole s
      · split
        · exact ⟨rfl, rfl, rfl⟩
        · exact .refl s

theorem heardFrame_heartbeatRole (p : Partner) : HeardFrame s (heartbeatRole p s) := by
  rw [heartbeatRole_eq]
  refine HeardFrame.trans ?_ (heardFrame_roleAnswer _ p)
  unfold claimHeard
  split
  · exact heardFrame_offerClaim s p.claim
  · exact .refl s

/-- So does the comparison of digests. -/
theorem heardFrame_compareDigest (p : Partner) : HeardFrame s (compareDigest p s) := by
  unfold compareDigest
  split
  · next a b _ _ =>
    split
    · have h1 : HeardFrame s (s.updPair fun x => { x with comparedLast := some a.cycle }) := ⟨rfl, rfl, rfl⟩
      have h2 := h1.trans (heardFrame_bumpPair _ (show 0x0C ≠ 2 by decide))
      dsimp only
      split
      · exact h1.trans (heardFrame_bumpPair _ (by decide))
      · split
        · exact h1
        · split
          · exact h2
          · have h3 := (h2.trans (heardFrame_bumpPair _ (show 0x0D ≠ 2 by decide))).trans (heardFrame_pairEvent _ 2)
            exact (h3.trans (heardFrame_pulse _ (show 246 < 2 ^ 32 by decide))).trans (heardFrame_detectFault _ 20 0 3 _)
    · exact .refl s
  · exact .refl s

/-! ## A heartbeat -/

theorem notePartner_partner (p : Partner) (d : Digest) : (notePartner p d s).pair.partner = some p := rfl

/-- A heartbeat noted with its core cycle. -/
theorem notePartner_heardAt (p : Partner) (d : Digest) : (notePartner p d s).pair.heardAt = some s.cycle := rfl

theorem notePartner_cnt (p : Partner) (d : Digest) : (notePartner p d s).cnt = s.cnt :=
  (notePartner_keeps (m := 0x40000) (.refl _ s) (Sub.of (by decide))).same .cnt (by decide)

end

end Sys2Proof.Machine
end

section
/-!
PROOF. What lanes, pair-link frames and heartbeats answer (R434 to R437).
-/
namespace Sys2Proof.Machine

/-! ## A pair lane -/

section
variable {s : State} {lane : Nat}

theorem effPairLaneChange_same {up : Bool} (h : s.pair.lanes.getD lane false = up) : effPairLaneChange lane up s = s := by
  rw [effPairLaneChange, h]
  exact if_neg (by simp)

/-- A lane with its new level noted. -/
def laneNoted (lane : Nat) (up : Bool) (s : State) : State := s.updPair fun p => { p with lanes := setAt p.lanes lane up }

theorem effPairLaneChange_noted {up : Bool} (hp : pairPresent s = true) (ha : isAlive s.chip.mode = true) (hl : lane < 2)
    (h : s.pair.lanes.getD lane false ≠ up) : effPairLaneChange lane up s =
      if up then laneNoted lane up s else detectFault 20 0 1 lane (pairEvent 7 (laneNoted lane up s)) := by
  rw [effPairLaneChange]
  exact if_pos (by rw [hp, ha]; simpa [hl] using h)

theorem blockPresent_pair (h : pairPresent s = true) : blockPresent s.ident 20 = true := by
  have hord : s.ident.ordering = 0 := by simpa [pairPresent] using h
  unfold blockPresent unitsPresent
  rw [if_pos hord]
  decide

/-- A lane that goes down sets LANE_DOWN and stands in block 20 (R434). -/
theorem laneDown_noted (hp : pairPresent s = true) (ha : isAlive s.chip.mode = true) :
    (detectFault 20 0 1 lane (pairEvent 7 (laneNoted lane false s))).pair.lanes = setAt s.pair.lanes lane false ∧
    bit (detectFault 20 0 1 lane (pairEvent 7 (laneNoted lane false s))).pair.events 7 = true ∧
    bit ((detectFault 20 0 1 lane (pairEvent 7 (laneNoted lane false s))).fault 20 0).status 0 = true := by
  rw [detectFault_pair]
  exact ⟨rfl, bit_or_two_pow_self _ 7,
    detectFault_bit (s := pairEvent 7 (laneNoted lane false s)) (c := 1) ha (blockPresent_pair hp) lane⟩

theorem pairLaneChange_answers (hp : pairPresent s = true) (ha : isAlive s.chip.mode = true) (hl : lane < 2) (up : Bool)
    (h : s.pair.lanes.getD lane false ≠ up) : Gives (.pairLaneChange lane up) s fun t =>
      t.pair.lanes = setAt s.pair.lanes lane up ∧
      (up = true → t = s.updPair fun p => { p with lanes := setAt p.lanes lane up }) ∧
      (up = false → bit t.pair.events 7 = true ∧ bit (t.fault 20 0).status 0 = true) := by
  refine ⟨_, congrArg Host.Outcome.next (effPairLaneChange_noted hp ha hl h), ?_⟩
  cases up with
  | true => exact ⟨rfl, fun _ => rfl, nofun⟩
  | false =>
    obtain ⟨hlanes, hevent, hfault⟩ := laneDown_noted (lane := lane) hp ha
    exact ⟨hlanes, nofun, fun _ => ⟨hevent, hfault⟩⟩

/-! ## Pair-link frames -/

theorem pairHears_eq (hp : pairPresent s = true) (ha : isAlive s.chip.mode = true) :
    pairHears s lane = s.pair.lanes.getD lane false := by
  simp [pairHears, hp, ha]

theorem effPairLinkFrameError_eq (lane : Nat) (s : State) : effPairLinkFrameError lane s =
    if pairHears s lane then s.bumpPair 3 else s := rfl

theorem effPairLinkFrameError_heard (h : pairHears s lane = true) : effPairLinkFrameError lane s = s.bumpPair 3 := by
  rw [effPairLinkFrameError_eq, if_pos h]

theorem effPairLinkFrameError_down (h : pairHears s lane = false) : effPairLinkFrameError lane s = s := by
  rw [effPairLinkFrameError_eq, if_neg (by simp [h])]

variable {b : Bytes} {take : State → State}

theorem pairReceive_discarded (h : pairHears s lane = false ∨ beAt b 12 2 ≠ 0x88B5) : pairReceive lane b take s = s :=
  if_neg (by rcases h with h | h <;> simp [h])

theorem pairReceive_failed (hh : pairHears s lane = true) (he : beAt b 12 2 = 0x88B5) (hb : pairFrameOk b = false) :
    pairReceive lane b take s = s.bumpPair 3 :=
  (if_pos (by simp [hh, he])).trans (if_neg (by simp [hb]))

theorem pairReceive_taken (hh : pairHears s lane = true) (he : beAt b 12 2 = 0x88B5) (hb : pairFrameOk b = true) :
    pairReceive lane b take s = take s :=
  (if_pos (by simp [hh, he])).trans (if_pos hb)

/-! ## Heartbeats -/

/-- The digest that a heartbeat carries. -/
def digestOf (b : Bytes) : Digest := { cycle := beAt b 46 4, count := beAt b 50 4, sum := beAt b 54 8 }

/-- A new heartbeat: noted, counted, answered by the role and its digest compared. -/
def heartbeatTaken (b : Bytes) (s : State) : State :=
  compareDigest (partnerOf b) (heartbeatRole (partnerOf b) ((notePartner (partnerOf b) (digestOf b) s).bumpPair 2))

/-- Whether a frame is no valid heartbeat, or one heard before. -/
def heartbeatPassed (b : Bytes) (s : State) : Bool :=
  !heartbeatValid b || (partnerHeard s && (s.pair.partner.map (·.seq)) == some (beAt b 30 4))

theorem effHeartbeatRx_eq (lane : Nat) (b : Bytes) (s : State) : effHeartbeatRx lane b s =
    pairReceive lane b (fun s => if heartbeatPassed b s then s else heartbeatTaken b s) s := rfl

theorem heartbeatValid_iff : heartbeatValid b = true ↔ beAt b 14 1 = 3 ∧ beAt b 16 2 = 48 := by
  simp [heartbeatValid]

theorem heartbeatTaken_noted (b : Bytes) (s : State) : (heartbeatTaken b s).pair.partner = some (partnerOf b) ∧
    (heartbeatTaken b s).pair.heardAt = some s.cycle ∧
    (heartbeatTaken b s).counter 0x7005 2 0 = (s.counter 0x7005 2 0 + 1) % 2 ^ 64 := by
  have hf : HeardFrame ((notePartner (partnerOf b) (digestOf b) s).bumpPair 2) (heartbeatTaken b s) :=
    (heardFrame_heartbeatRole _ _).trans (heardFrame_compareDigest _ _)
  refine ⟨hf.partner.trans (notePartner_partner s _ _), hf.heardAt.trans (notePartner_heardAt s _ _), hf.counter.trans ?_⟩
  rw [State.bumpPair, State.counter_bump_same, State.counter_congr (notePartner_cnt s _ _)]

theorem heartbeatRx_passed (hh : pairHears s lane = true) (he : beAt b 12 2 = 0x88B5) (hb : pairFrameOk b = true)
    (h : heartbeatPassed b s = true) : exec (.heartbeatRx lane b) s = .next s := by
  refine congrArg Host.Outcome.next ?_
  rw [effHeartbeatRx_eq, pairReceive_taken hh he hb]
  exact if_pos h

theorem heartbeatRx_new (hh : pairHears s lane = true) (he : beAt b 12 2 = 0x88B5) (hb : pairFrameOk b = true)
    (h : heartbeatPassed b s = false) : exec (.heartbeatRx lane b) s = .next (heartbeatTaken b s) := by
  refine congrArg Host.Outcome.next ?_
  rw [effHeartbeatRx_eq, pairReceive_taken hh he hb]
  exact if_neg (by simp [h])

/-- A valid heartbeat: the same again changes nothing, a new one is counted and its partner and time noted (R436). -/
theorem heartbeatRx_valid (hh : pairHears s lane = true) (he : beAt b 12 2 = 0x88B5) (hb : pairFrameOk b = true)
    (hv : heartbeatValid b = true) :
    (partnerHeard s = true → s.pair.partner.map (·.seq) = some (beAt b 30 4) → exec (.heartbeatRx lane b) s = .next s) ∧
    (partnerHeard s = false ∨ s.pair.partner.map (·.seq) ≠ some (beAt b 30 4) → Gives (.heartbeatRx lane b) s fun t =>
      t.pair.partner = some (partnerOf b) ∧ t.pair.heardAt = some s.cycle ∧
      t.counter 0x7005 2 0 = (s.counter 0x7005 2 0 + 1) % 2 ^ 64) := by
  refine ⟨fun h hs => heartbeatRx_passed hh he hb ?_, fun h =>
    ⟨_, heartbeatRx_new hh he hb ?_, heartbeatTaken_noted b s⟩⟩
  · rw [heartbeatPassed, h, hs]
    simp
  · rw [heartbeatPassed, hv]
    obtain h | h := h
    · simp [h]
    · simp [beq_eq_false_iff_ne.mpr h]

/-- What a lane that is up brings (R434 to R436). -/
theorem pairLink_answers_up (hh : pairHears s lane = true) : exec (.pairLinkFrameError lane) s = .next (s.bumpPair 3) ∧
    (∀ b, beAt b 12 2 ≠ 0x88B5 → exec (.heartbeatRx lane b) s = .next s) ∧
    (∀ b, beAt b 12 2 = 0x88B5 → pairFrameOk b = false → exec (.heartbeatRx lane b) s = .next (s.bumpPair 3)) ∧
    (∀ b, beAt b 12 2 = 0x88B5 → pairFrameOk b = true → beAt b 14 1 ≠ 3 ∨ beAt b 16 2 ≠ 48 →
      exec (.heartbeatRx lane b) s = .next s) ∧
    (∀ b, beAt b 12 2 = 0x88B5 → pairFrameOk b = true → beAt b 14 1 = 3 → beAt b 16 2 = 48 →
      (partnerHeard s = true → s.pair.partner.map (·.seq) = some (beAt b 30 4) →
        exec (.heartbeatRx lane b) s = .next s) ∧
      (partnerHeard s = false ∨ s.pair.partner.map (·.seq) ≠ some (beAt b 30 4) →
        Gives (.heartbeatRx lane b) s fun t =>
          t.pair.partner = some (partnerOf b) ∧ t.pair.heardAt = some s.cycle ∧
          t.counter 0x7005 2 0 = (s.counter 0x7005 2 0 + 1) % 2 ^ 64)) := by
  refine ⟨congrArg Host.Outcome.next (effPairLinkFrameError_heard hh),
    fun b he => congrArg Host.Outcome.next (pairReceive_discarded (.inr he)),
    fun b he hb => congrArg Host.Outcome.next (pairReceive_failed hh he hb), fun b he hb hv => ?_,
    fun b he hb h3 h48 => heartbeatRx_valid hh he hb (heartbeatValid_iff.mpr ⟨h3, h48⟩)⟩
  have hinvalid : heartbeatValid b = false := by
    rw [← Bool.not_eq_true, heartbeatValid_iff]
    rintro ⟨h3, h48⟩
    exact hv.elim (absurd h3) (absurd h48)
  exact heartbeatRx_passed hh he hb (by rw [heartbeatPassed, hinvalid]; rfl)

theorem pairLink_answers_down (hh : pairHears s lane = false) : exec (.pairLinkFrameError lane) s = .next s ∧
    ∀ b, exec (.heartbeatRx lane b) s = .next s :=
  ⟨congrArg Host.Outcome.next (effPairLinkFrameError_down hh),
    fun _ => congrArg Host.Outcome.next (pairReceive_discarded (.inl hh))⟩

end

/-! ## Heartbeats sent -/

/-- A heartbeat on one lane, counted. -/
def sendBeat (b : Bytes) (s : State) (l : Nat) : State := (s.emit (.pair l b)).bumpPair 1

section
variable (b : Bytes)

theorem sendBeat_out (s : State) (l : Nat) : (sendBeat b s l).out = .pair l b :: s.out := rfl

theorem sendBeats_pair (l : List Nat) (s : State) : (l.foldl (sendBeat b) s).pair = s.pair :=
  foldl_same State.pair (f := sendBeat b) (fun _ _ => rfl) l s

theorem out_subset_sendBeats (l : List Nat) (s : State) : s.out ⊆ (l.foldl (sendBeat b) s).out := by
  induction l generalizing s with
  | nil => exact List.Subset.refl _
  | cons x r ih =>
    refine List.Subset.trans ?_ (ih (sendBeat b s x))
    rw [sendBeat_out]
    exact List.subset_cons_self _ _

theorem mem_out_sendBeats {l : List Nat} {x : Nat} (hx : x ∈ l) (s : State) : .pair x b ∈ (l.foldl (sendBeat b) s).out := by
  induction l generalizing s with
  | nil => cases hx
  | cons y r ih =>
    obtain rfl | hr := List.mem_cons.mp hx
    · refine out_subset_sendBeats b r _ ?_
      rw [sendBeat_out]
      exact List.mem_cons_self
    · exact ih hr _

theorem sendBeats_counter {l : List Nat} (hl : l ≠ []) (s : State) : (l.foldl (sendBeat b) s).counter 0x7005 1 0 =
    (s.counter 0x7005 1 0 + l.length) % 2 ^ 64 := by
  induction l generalizing s with
  | nil => exact absurd rfl hl
  | cons x r ih =>
    have hx : (sendBeat b s x).counter 0x7005 1 0 = (s.counter 0x7005 1 0 + 1) % 2 ^ 64 :=
      State.counter_bump_same (s.emit (.pair x b)) 0x7005 1
    rw [List.foldl_cons]
    by_cases hr : r = []
    · subst hr
      exact hx
    · rw [ih hr, hx, List.length_cons, Nat.mod_add_mod, Nat.add_assoc, Nat.add_comm 1]

end

section
variable {s : State}

theorem effHeartbeatTx_early (h : s.cycle < s.pair.hbAt + usCycles 10) : effHeartbeatTx s = s := by
  rw [effHeartbeatTx]
  exact if_neg (by simp [h])

theorem effHeartbeatTx_due (hp : pairPresent s = true) (ha : isAlive s.chip.mode = true)
    (h : s.pair.hbAt + usCycles 10 ≤ s.cycle) : effHeartbeatTx s =
      ((lanesUp s).foldl (sendBeat (pairFrame s 3 0 s.pair.hbCount (heartbeatBody s))) s).updPair fun p =>
        { p with hbAt := s.cycle, hbCount := (p.hbCount + 1) % 2 ^ 32 } := by
  rw [effHeartbeatTx]
  exact if_pos (by simp [hp, ha, h])

/-- Every 10 us a heartbeat on every lane that is up, each counted (R436). -/
theorem heartbeatTx_answers (s : State) (hp : pairPresent s = true) (ha : isAlive s.chip.mode = true) :
    (s.cycle < s.pair.hbAt + usCycles 10 → exec .heartbeatTx s = .next s) ∧
    (s.pair.hbAt + usCycles 10 ≤ s.cycle → Gives .heartbeatTx s fun t =>
      t.pair.hbAt = s.cycle ∧ t.pair.hbCount = (s.pair.hbCount + 1) % 2 ^ 32 ∧
      (∀ l ∈ lanesUp s, .pair l (pairFrame s 3 0 s.pair.hbCount (heartbeatBody s)) ∈ t.out) ∧
      (lanesUp s ≠ [] → t.counter 0x7005 1 0 = (s.counter 0x7005 1 0 + (lanesUp s).length) % 2 ^ 64)) := by
  refine ⟨fun h => congrArg Host.Outcome.next (effHeartbeatTx_early h), fun h =>
    ⟨_, congrArg Host.Outcome.next (effHeartbeatTx_due hp ha h), rfl, ?_, fun l hl => ?_, fun hl => ?_⟩⟩
  · exact congrArg (fun p : Pair => (p.hbCount + 1) % 2 ^ 32) (sendBeats_pair _ _ s)
  · exact mem_out_sendBeats _ hl s
  · exact sendBeats_counter _ hl s

/-! ## A partner unheard -/

theorem effHeartbeatTimeout_idle (h : s.pair.heardAt = none ∨ pairRuns s = false ∨ s.pair.role ≠ 3 ∨ s.pair.taking = true) :
    effHeartbeatTimeout s = s := by
  unfold effHeartbeatTimeout
  split
  · next t ht =>
    obtain h | h | h | h := h
    · rw [h] at ht
      cases ht
    · exact if_neg (by simp [h])
    · exact if_neg (by simp [h])
    · exact if_neg (by simp [h])
  · rfl

variable {at_ : Nat}

theorem effHeartbeatTimeout_early (hh : s.pair.heardAt = some at_) (h : s.cycle < at_ + usCycles 32) :
    effHeartbeatTimeout s = s := by
  rw [effHeartbeatTimeout, hh]
  exact if_neg (by simp [Nat.not_le.2 h])

theorem effHeartbeatTimeout_due (hh : s.pair.heardAt = some at_) (hp : pairRuns s = true) (hr : s.pair.role = 3)
    (ht : s.pair.taking = false) (ha : s.pair.roleAt ≤ at_ + usCycles 32) (h : at_ + usCycles 32 ≤ s.cycle) :
    effHeartbeatTimeout s = dropPending (s.updPair fun p => { p with taking := true }) := by
  rw [effHeartbeatTimeout, hh]
  exact if_pos (by simp [hp, hr, ht, ha, h])

theorem dropPending_none (h : s.pair.rx = none) : dropPending s = s := by
  rw [dropPending, h]

/-- A pending copy is dropped; the role and the takeover stay. -/
theorem dropPending_pair (s : State) : (dropPending s).pair.rx = none ∧ (dropPending s).pair.role = s.pair.role ∧
    (dropPending s).pair.taking = s.pair.taking := by
  unfold dropPending
  split
  · unfold discardCopy
    rw [detectFault_pair]
    exact ⟨rfl, rfl, rfl⟩
  · next h => exact ⟨h, rfl, rfl⟩

/-- A STANDBY unit that has heard none for 32 us begins its takeover (R437). -/
theorem heartbeatTimeout_answers (hh : s.pair.heardAt = some at_) (hp : pairRuns s = true) (hr : s.pair.role = 3)
    (ht : s.pair.taking = false) (ha : s.pair.roleAt ≤ at_ + usCycles 32) :
    (s.cycle < at_ + usCycles 32 → exec .heartbeatTimeout s = .next s) ∧
    (at_ + usCycles 32 ≤ s.cycle → Gives .heartbeatTimeout s fun t =>
      t.pair.taking = true ∧ t.pair.rx = none ∧ t.pair.role = 3 ∧
      (s.pair.rx = none → t = s.updPair fun p => { p with taking := true })) := by
  refine ⟨fun h => congrArg Host.Outcome.next (effHeartbeatTimeout_early hh h), fun h =>
    ⟨_, congrArg Host.Outcome.next (effHeartbeatTimeout_due hh hp hr ht ha h), ?_⟩⟩
  obtain ⟨hrx, hrole, htaking⟩ := dropPending_pair (s.updPair fun p => { p with taking := true })
  exact ⟨htaking, hrx, hrole.trans hr, fun hn => dropPending_none hn⟩

end

/-- Settles O54: every agent acts only where its due condition holds; the operations that follow a feed change or a heartbeat
leave what the statement reads, and the statement is the conjunction of what each agent answers. -/
theorem feedsAndHeartbeats : Obligations.FeedsAndHeartbeats := by
  unfold Obligations.FeedsAndHeartbeats
  refine ⟨fun line level s ha hl => feedLineChange_answers line level s ha hl,
    fun s h => congrArg Host.Outcome.next (effRestoreHoldExpiry_idle h),
    fun s at_ ho ha hs => restoreHoldExpiry_answers s at_ ho ha hs, fun lane s hp ha hl => ⟨?_, ?_, ?_, ?_⟩,
    fun s hp ha => heartbeatTx_answers s hp ha, fun s h => congrArg Host.Outcome.next (effHeartbeatTimeout_idle h),
    fun s at_ hh hp hr ht hra => heartbeatTimeout_answers hh hp hr ht hra⟩
  · exact fun up h => congrArg Host.Outcome.next (effPairLaneChange_same h)
  · exact fun up h => pairLaneChange_answers hp ha hl up h
  · exact fun h => pairLink_answers_up ((pairHears_eq hp ha).trans h)
  · exact fun h => pairLink_answers_down ((pairHears_eq hp ha).trans h)

end Sys2Proof.Machine
end

section
/-!
PROOF. Writes through the object dictionary engine to the entries of objects without a table (R50), and which entries those
are that the commands of Machine/Access.lean name.
-/
namespace Sys2Proof.Machine

/-- An entry of an object that is no table. -/
def PlainEntry (id : Ident) (idx sub : Nat) (e : EntrySpec) : Prop :=
  ∃ o, objSpec id idx = some o ∧ o.table = none ∧ o.entry sub = some e

/-! ## The entries -/

/-- COMMAND (R74). -/
def commandEntry : EntrySpec := Cat.wo 1 Cat.u8 (.rng 1 5) .hars

/-- IMAGE_A and IMAGE_B (R85). -/
def imageEntry (k : Nat) : EntrySpec := { sub := 10 + k, ty := .octetsMax 16777216, acc := .rw, wr := .hold }

/-- ACTION of COMMIT (R89). -/
def commitEntry : EntrySpec := Cat.wo 4 Cat.u8 (.rng 1 3)

/-- KEY of a key object (R62). -/
def keyEntry : EntrySpec := { sub := 1, ty := .octets 32, acc := .wo, rng := .notZero, wr := .har }

/-- FLUSH_PORT (R141). -/
def flushEntry : EntrySpec := Cat.wo 3 Cat.u16 (Cat.orOne 0 262 0xFFFF)

/-- UNBLOCK_FILTER (R141). -/
def unblockEntry : EntrySpec := Cat.wo 5 Cat.u32 (.rng 0 65535)

/-- RESET_GATE (R152). -/
def resetGateEntry : EntrySpec := Cat.wo 6 Cat.u16 .any

theorem command_plain (id : Ident) : PlainEntry id 0x0102 1 commandEntry := ⟨_, rfl, rfl, rfl⟩

theorem image_plain (id : Ident) {k : Nat} (hk : k < 2) : PlainEntry id 0x0200 (10 + k) (imageEntry k) := by
  obtain rfl | rfl : k = 0 ∨ k = 1 := by omega
  · exact ⟨_, rfl, rfl, rfl⟩
  · exact ⟨_, rfl, rfl, rfl⟩

theorem commit_plain (id : Ident) : PlainEntry id 0x0201 4 commitEntry := ⟨_, rfl, rfl, rfl⟩

theorem handover_plain (id : Ident) : PlainEntry id 0x7000 8 handoverEntry := ⟨_, rfl, rfl, rfl⟩

theorem flush_plain (id : Ident) : PlainEntry id 0x2000 3 flushEntry := ⟨_, rfl, rfl, rfl⟩

theorem unblock_plain (id : Ident) : PlainEntry id 0x2000 5 unblockEntry := ⟨_, rfl, rfl, rfl⟩

theorem resetGate_plain (id : Ident) : PlainEntry id 0x2000 6 resetGateEntry := ⟨_, rfl, rfl, rfl⟩

theorem frerReset_plain (id : Ident) {sub : Nat} (h : sub = 2 ∨ sub = 3) : PlainEntry id 0x3000 sub (frerResetEntry sub) :=
  ⟨_, (frerReset_command id h).spec, (frerReset_command id h).plain, (frerReset_command id h).entry⟩

theorem clear_plain (id : Ident) : PlainEntry id 0x8000 5 clearEntry :=
  ⟨_, (clear_command id).spec, (clear_command id).plain, (clear_command id).entry⟩

theorem arm_plain (id : Ident) {d : Nat} (hd : d < 8) : PlainEntry id (0x4000 + d) 0x13 armEntry :=
  ⟨_, (arm_command id hd).spec, (arm_command id hd).plain, (arm_command id hd).entry⟩

/-- The key objects are the sixteen from 0x0410 (R62). -/
theorem key_plain (id : Ident) {k : Nat} (hk : k < 16) : PlainEntry id (0x0410 + k) 1 keyEntry := by
  interval_cases k <;> exact ⟨_, rfl, rfl, rfl⟩

/-! ## Performing a write -/

theorem performWrite_plain {r : Requester} {idx : Nat} {o : ObjSpec} {e : EntrySpec} {v : Val} {s : State}
    (h : o.table = none) : performWrite r o idx e v s = performEntry idx e v s := by
  simp [performWrite, h]

/-- A request that R50 admits to an entry of an object without a table, but for the device state. -/
structure MayReach (r : Requester) (s : State) (idx sub : Nat) (e : EntrySpec) : Prop where
  accepted : Accepted r s
  served : engineBusy s.chip.mode = false
  entry : PlainEntry s.ident idx sub e
  present : absentIndex s.ident idx = false
  right : bit (rightsOf s r) (areaRight idx) = true
  path : keyPathOk r idx sub = true
  writable : e.acc = .rw ∨ e.acc = .rws ∨ e.acc = .wo
  armed : armRefuses s idx sub = false
  claim : claimRefuses s idx sub = false

/-- The two states of the engine in which it serves no write (R39). -/
theorem engineBusy_eq_false {m : Mode} (h : m ∈ [.hold, .armed, .run, .safe]) : engineBusy m = false := by
  revert h; cases m <;> decide

section
variable {r : Requester} {s0 s : State} {idx sub : Nat} {e : EntrySpec} {v : Val} (hs : s = engineTurn r.path s0)
  (h : MayReach r s idx sub e) (hv : e.ty.encodes v = true)
include h hv

/-- The device state alone decides on such a write. -/
theorem admitWrite_reached : ∃ o, o.table = none ∧ admitWrite s r idx sub (.val v) =
    if stateAllowsWrite s idx e (some v) then .ok (o, e, false) else .error aStateConflict := by
  obtain ⟨o, hspec, htable, hentry⟩ := h.entry
  have hval : Datum.value (.val v) e = some v := if_pos hv
  have hsel : isSelection o sub (some v) = false := by simp [isSelection, htable]
  have hacc : ¬(e.acc = .ro ∨ e.acc = .const ∨ e.acc = .counter) := by
    rcases h.writable with h | h | h <;> rw [h] <;> decide
  have hty : Datum.typeOk (.val v) e = true := rfl
  refine ⟨o, htable, ?_⟩
  by_cases hst : stateAllowsWrite s idx e (some v) = true <;>
    simp [admitWrite, h.served, h.present, hspec, hentry, hval, hsel, h.right, h.path, hacc, hty, hst, h.armed, h.claim]

include hs

theorem answerWrite_conflict (hst : stateAllowsWrite s idx e (some v) = false) :
    answerWrite r idx sub v s0 = s.emit (.answer r 6 none) := by
  obtain ⟨o, -, hadm⟩ := admitWrite_reached h hv
  exact answerWrite_refused hs h.accepted (by rw [hadm, hst]; rfl)

theorem answerWrite_entry (hst : stateAllowsWrite s idx e (some v) = true) (hg : e.rng.ok e.ty v = true)
    (hb : e.acc = .rws → commitRuns s = false) : answerWrite r idx sub v s0 =
      (performEntry idx e v s).2.emit (.answer r (performEntry idx e v s).1 none) := by
  obtain ⟨o, ht, hadm⟩ := admitWrite_reached h hv
  rw [hst, if_pos rfl] at hadm
  have hbusy : (commitRuns s && (e.acc == .rws || stagedAction o e v)) = false := by
    by_cases ha : e.acc = .rws
    · simp [hb ha]
    · simp [stagedAction, ht, ha]
  rw [answerWrite_performs hs h.accepted hadm hv (by simp [hg]) hbusy, performWrite_plain ht]

end

end Sys2Proof.Machine
end

section
/-!
PROOF. What a command may change (INVENTORY.md State), the invariant of every step, and its start at reset.
-/
namespace Sys2Proof.Machine

/-- Every command ends in a next state, in which only the parts of its row of `changes` differ and the invariant is kept. -/
theorem exec_keeps (c : Instr) (s : State) : ∃ t, exec c s = .next t ∧ Keeps (maskOf (changes c)) s t := by
  cases c
  all_goals dsimp only [changes]
  case supplyInRange => exact ⟨_, rfl, effSupplyInRange_keeps (.refl _ s) (Sub.of rfl)⟩
  case supplyOutOfRange => exact ⟨_, rfl, effSupplyOutOfRange_keeps (.refl _ s) (Sub.of rfl)⟩
  case resetRelease => exact ⟨_, rfl, effResetRelease_keeps (.refl _ s) (Sub.of rfl)⟩
  case memoryTrainingDone => exact ⟨_, rfl, effMemoryTrainingDone_keeps (.refl _ s) (Sub.of rfl)⟩
  case loadComplete => exact ⟨_, rfl, effLoadComplete_keeps (.refl _ s) (Sub.of rfl)⟩
  case checkComplete => exact ⟨_, rfl, effCheckComplete_keeps (.refl _ s) (Sub.of rfl)⟩
  case start => exact ⟨_, rfl, effStart_keeps (.refl _ s) (Sub.of rfl)⟩
  case stop => exact ⟨_, rfl, effStop_keeps (.refl _ s) (Sub.of rfl)⟩
  case reload => exact ⟨_, rfl, effReload_keeps (.refl _ s) (Sub.of rfl)⟩
  case resetCommand => exact ⟨_, rfl, effResetCommand_keeps (.refl _ s) (Sub.of rfl)⟩
  case resetDelayExpiry => exact ⟨_, rfl, effResetDelayExpiry_keeps (.refl _ s) (Sub.of rfl)⟩
  case safeCommand => exact ⟨_, rfl, effSafeCommand_keeps (.refl _ s) (Sub.of rfl)⟩
  case startTaken => exact ⟨_, rfl, effStartTaken_keeps (.refl _ s) (Sub.of rfl)⟩
  case safeEntryOnFault => exact ⟨_, rfl, effSafeEntryOnFault_keeps (.refl _ s) (Sub.of rfl)⟩
  case napRead => exact ⟨_, rfl, effNapRead_keeps (.refl _ s) (Sub.of rfl)⟩
  case napWrite => exact ⟨_, rfl, effNapWrite_keeps (.refl _ s) (Sub.of rfl)⟩
  case napAbortTransfer => exact ⟨_, rfl, effNapAbortTransfer_keeps (.refl _ s) (Sub.of rfl)⟩
  case segmentTimeout => exact ⟨_, rfl, effSegmentTimeout_keeps (.refl _ s) (Sub.of rfl)⟩
  case bar2Read => exact ⟨_, rfl, effBar2Read_keeps (.refl _ s) (Sub.of rfl)⟩
  case bar2Write => exact ⟨_, rfl, effBar2Write_keeps (.refl _ s) (Sub.of rfl)⟩
  case failCountClear => exact ⟨_, rfl, effFailCountClear_keeps (.refl _ s) (Sub.of rfl)⟩
  case entryWrite => exact ⟨_, rfl, effEntryWrite_keeps (.refl _ s) (Sub.of rfl)⟩
  case selectionWrite => exact ⟨_, rfl, effSelectionWrite_keeps (.refl _ s) (Sub.of rfl)⟩
  case read => exact ⟨_, rfl, effRead_keeps (.refl _ s) (Sub.of rfl)⟩
  case write => exact ⟨_, rfl, effWrite_keeps (.refl _ s) (Sub.of rfl)⟩
  case delete => exact ⟨_, rfl, effDelete_keeps (.refl _ s) (Sub.of rfl)⟩
  case next => exact ⟨_, rfl, effNext_keeps (.refl _ s) (Sub.of rfl)⟩
  case keyWrite => exact ⟨_, rfl, effKeyWrite_keeps (.refl _ s) (Sub.of rfl)⟩
  case imageUpload => exact ⟨_, rfl, effImageUpload_keeps (.refl _ s) (Sub.of rfl)⟩
  case imageRead => exact ⟨_, rfl, effImageRead_keeps (.refl _ s) (Sub.of rfl)⟩
  case commit => exact ⟨_, rfl, effCommit_keeps (.refl _ s) (Sub.of rfl)⟩
  case discard => exact ⟨_, rfl, effDiscard_keeps (.refl _ s) (Sub.of rfl)⟩
  case cancel => exact ⟨_, rfl, effCancel_keeps (.refl _ s) (Sub.of rfl)⟩
  case commitStepDone => exact ⟨_, rfl, effCommitStepDone_keeps (.refl _ s) (Sub.of rfl)⟩
  case cutover => exact ⟨_, rfl, effCutover_keeps (.refl _ s) (Sub.of rfl)⟩
  case bankSeal => exact ⟨_, rfl, effBankSeal_keeps (.refl _ s) (Sub.of rfl)⟩
  case epochRetire => exact ⟨_, rfl, effEpochRetire_keeps (.refl _ s) (Sub.of rfl)⟩
  case retireLimitExpiry => exact ⟨_, rfl, effRetireLimitExpiry_keeps (.refl _ s) (Sub.of rfl)⟩
  case linkUp => exact ⟨_, rfl, effLinkUp_keeps (.refl _ s) (Sub.of rfl)⟩
  case linkDown => exact ⟨_, rfl, effLinkDown_keeps (.refl _ s) (Sub.of rfl)⟩
  case linkUpHoldExpiry => exact ⟨_, rfl, effLinkUpHoldExpiry_keeps (.refl _ s) (Sub.of rfl)⟩
  case linkDownHoldExpiry => exact ⟨_, rfl, effLinkDownHoldExpiry_keeps (.refl _ s) (Sub.of rfl)⟩
  case anResolution => exact ⟨_, rfl, effAnResolution_keeps (.refl _ s) (Sub.of rfl)⟩
  case anFailure => exact ⟨_, rfl, effAnFailure_keeps (.refl _ s) (Sub.of rfl)⟩
  case frameReceived => exact ⟨_, rfl, effFrameReceived_keeps (.refl _ s) (Sub.of rfl)⟩
  case ingressDecision => exact ⟨_, rfl, effIngressDecision_keeps (.refl _ s) (Sub.of rfl)⟩
  case receivedAndChecked => exact ⟨_, rfl, effReceivedAndChecked_keeps (.refl _ s) (Sub.of rfl)⟩
  case learnApply => exact ⟨_, rfl, effLearnApply_keeps (.refl _ s) (Sub.of rfl)⟩
  case ageingSweep => exact ⟨_, rfl, effAgeingSweep_keeps (.refl _ s) (Sub.of rfl)⟩
  case flushPort => exact ⟨_, rfl, effFlushPort_keeps (.refl _ s) (Sub.of rfl)⟩
  case unblockFilter => exact ⟨_, rfl, effUnblockFilter_keeps (.refl _ s) (Sub.of rfl)⟩
  case resetGate => exact ⟨_, rfl, effResetGate_keeps (.refl _ s) (Sub.of rfl)⟩
  case pauseReceived => exact ⟨_, rfl, effPauseReceived_keeps (.refl _ s) (Sub.of rfl)⟩
  case pauseExpiry => exact ⟨_, rfl, effPauseExpiry_keeps (.refl _ s) (Sub.of rfl)⟩
  case frameSelected => exact ⟨_, rfl, effFrameSelected_keeps (.refl _ s) (Sub.of rfl)⟩
  case frameTransmitted => exact ⟨_, rfl, effFrameTransmitted_keeps (.refl _ s) (Sub.of rfl)⟩
  case verifyFrameReceived => exact ⟨_, rfl, effVerifyFrameReceived_keeps (.refl _ s) (Sub.of rfl)⟩
  case respondFrameReceived => exact ⟨_, rfl, effRespondFrameReceived_keeps (.refl _ s) (Sub.of rfl)⟩
  case verifyTimeExpiry => exact ⟨_, rfl, effVerifyTimeExpiry_keeps (.refl _ s) (Sub.of rfl)⟩
  case averageDepthUpdate => exact ⟨_, rfl, effAverageDepthUpdate_keeps (.refl _ s) (Sub.of rfl)⟩
  case parityFence => exact ⟨_, rfl, effParityFence_keeps (.refl _ s) (Sub.of rfl)⟩
  case fenceUnlink => exact ⟨_, rfl, effFenceUnlink_keeps (.refl _ s) (Sub.of rfl)⟩
  case fenceRebuild => exact ⟨_, rfl, effFenceRebuild_keeps (.refl _ s) (Sub.of rfl)⟩
  case resetRecovery => exact ⟨_, rfl, effResetRecovery_keeps (.refl _ s) (Sub.of rfl)⟩
  case resetGeneration => exact ⟨_, rfl, effResetGeneration_keeps (.refl _ s) (Sub.of rfl)⟩
  case recoveryResetTimer => exact ⟨_, rfl, effRecoveryResetTimer_keeps (.refl _ s) (Sub.of rfl)⟩
  case memberResetTimer => exact ⟨_, rfl, effMemberResetTimer_keeps (.refl _ s) (Sub.of rfl)⟩
  case latentTest => exact ⟨_, rfl, effLatentTest_keeps (.refl _ s) (Sub.of rfl)⟩
  case latentReset => exact ⟨_, rfl, effLatentReset_keeps (.refl _ s) (Sub.of rfl)⟩
  case incrementHiWrite => exact ⟨_, rfl, effIncrementHiWrite_keeps (.refl _ s) (Sub.of rfl)⟩
  case adjTicksWrite => exact ⟨_, rfl, effAdjTicksWrite_keeps (.refl _ s) (Sub.of rfl)⟩
  case adjWindowEnd => exact ⟨_, rfl, effAdjWindowEnd_keeps (.refl _ s) (Sub.of rfl)⟩
  case go => exact ⟨_, rfl, effGo_keeps (.refl _ s) (Sub.of rfl)⟩
  case stepApply => exact ⟨_, rfl, effStepApply_keeps (.refl _ s) (Sub.of rfl)⟩
  case arm => exact ⟨_, rfl, effArm_keeps (.refl _ s) (Sub.of rfl)⟩
  case offsetReport => exact ⟨_, rfl, effOffsetReport_keeps (.refl _ s) (Sub.of rfl)⟩
  case timeFracRead => exact ⟨_, rfl, effTimeFracRead_keeps (.refl _ s) (Sub.of rfl)⟩
  case ppsEdge => exact ⟨_, rfl, effPpsEdge_keeps (.refl _ s) (Sub.of rfl)⟩
  case measureTimeout => exact ⟨_, rfl, effMeasureTimeout_keeps (.refl _ s) (Sub.of rfl)⟩
  case ppsOutPulse => exact ⟨_, rfl, effPpsOutPulse_keeps (.refl _ s) (Sub.of rfl)⟩
  case ppsOutWidthEnd => exact ⟨_, rfl, effPpsOutWidthEnd_keeps (.refl _ s) (Sub.of rfl)⟩
  case tineRecordRead => exact ⟨_, rfl, effTineRecordRead_keeps (.refl _ s) (Sub.of rfl)⟩
  case tineDrainTimer => exact ⟨_, rfl, effTineDrainTimer_keeps (.refl _ s) (Sub.of rfl)⟩
  case flush => exact ⟨_, rfl, effFlush_keeps (.refl _ s) (Sub.of rfl)⟩
  case gateEntryTransition => exact ⟨_, rfl, effGateEntryTransition_keeps (.refl _ s) (Sub.of rfl)⟩
  case pageArrived => exact ⟨_, rfl, effPageArrived_keeps (.refl _ s) (Sub.of rfl)⟩
  case holdIssue => exact ⟨_, rfl, effHoldIssue_keeps (.refl _ s) (Sub.of rfl)⟩
  case gateConfigChange => exact ⟨_, rfl, effGateConfigChange_keeps (.refl _ s) (Sub.of rfl)⟩
  case triggerStart => exact ⟨_, rfl, effTriggerStart_keeps (.refl _ s) (Sub.of rfl)⟩
  case outArm => exact ⟨_, rfl, effOutArm_keeps (.refl _ s) (Sub.of rfl)⟩
  case intArm => exact ⟨_, rfl, effIntArm_keeps (.refl _ s) (Sub.of rfl)⟩
  case triggerInstant => exact ⟨_, rfl, effTriggerInstant_keeps (.refl _ s) (Sub.of rfl)⟩
  case triggerPulseEnd => exact ⟨_, rfl, effTriggerPulseEnd_keeps (.refl _ s) (Sub.of rfl)⟩
  case intTrig => exact ⟨_, rfl, effIntTrig_keeps (.refl _ s) (Sub.of rfl)⟩
  case evInChange => exact ⟨_, rfl, effEvInChange_keeps (.refl _ s) (Sub.of rfl)⟩
  case evCapture => exact ⟨_, rfl, effEvCapture_keeps (.refl _ s) (Sub.of rfl)⟩
  case capStatusRead => exact ⟨_, rfl, effCapStatusRead_keeps (.refl _ s) (Sub.of rfl)⟩
  case herdCycle => exact ⟨_, rfl, effHerdCycle_keeps (.refl _ s) (Sub.of rfl)⟩
  case assemblyInstant => exact ⟨_, rfl, effAssemblyInstant_keeps (.refl _ s) (Sub.of rfl)⟩
  case summationFrameRx => exact ⟨_, rfl, effSummationFrameRx_keeps (.refl _ s) (Sub.of rfl)⟩
  case nullFrameRx => exact ⟨_, rfl, effNullFrameRx_keeps (.refl _ s) (Sub.of rfl)⟩
  case rutBidRx => exact ⟨_, rfl, effRutBidRx_keeps (.refl _ s) (Sub.of rfl)⟩
  case otherRingFrameRx => exact ⟨_, rfl, effOtherRingFrameRx_keeps (.refl _ s) (Sub.of rfl)⟩
  case mailboxRetryExpiry => exact ⟨_, rfl, effMailboxRetryExpiry_keeps (.refl _ s) (Sub.of rfl)⟩
  case ringPortLinkLost => exact ⟨_, rfl, effRingPortLinkLost_keeps (.refl _ s) (Sub.of rfl)⟩
  case herdCp => exact ⟨_, rfl, effHerdCp_keeps (.refl _ s) (Sub.of rfl)⟩
  case perstNAssert => exact ⟨_, rfl, effPerstNAssert_keeps (.refl _ s) (Sub.of rfl)⟩
  case perstNRelease => exact ⟨_, rfl, effPerstNRelease_keeps (.refl _ s) (Sub.of rfl)⟩
  case hotReset => exact ⟨_, rfl, effHotReset_keeps (.refl _ s) (Sub.of rfl)⟩
  case functionLevelReset => exact ⟨_, rfl, effFunctionLevelReset_keeps (.refl _ s) (Sub.of rfl)⟩
  case powerStateChange => exact ⟨_, rfl, effPowerStateChange_keeps (.refl _ s) (Sub.of rfl)⟩
  case msixMessage => exact ⟨_, rfl, effMsixMessage_keeps (.refl _ s) (Sub.of rfl)⟩
  case pmPme => exact ⟨_, rfl, effPmPme_keeps (.refl _ s) (Sub.of rfl)⟩
  case completionTimeout => exact ⟨_, rfl, effCompletionTimeout_keeps (.refl _ s) (Sub.of rfl)⟩
  case send => exact ⟨_, rfl, effSend_keeps (.refl _ s) (Sub.of rfl)⟩
  case ack => exact ⟨_, rfl, effAck_keeps (.refl _ s) (Sub.of rfl)⟩
  case bar0BadAccess => exact ⟨_, rfl, effBar0BadAccess_keeps (.refl _ s) (Sub.of rfl)⟩
  case registerWrite => exact ⟨_, rfl, effRegisterWrite_keeps (.refl _ s) (Sub.of rfl)⟩
  case run => exact ⟨_, rfl, effRun_keeps (.refl _ s) (Sub.of rfl)⟩
  case pause => exact ⟨_, rfl, effPause_keeps (.refl _ s) (Sub.of rfl)⟩
  case abort => exact ⟨_, rfl, effAbort_keeps (.refl _ s) (Sub.of rfl)⟩
  case channelReset => exact ⟨_, rfl, effChannelReset_keeps (.refl _ s) (Sub.of rfl)⟩
  case doorbell => exact ⟨_, rfl, effDoorbell_keeps (.refl _ s) (Sub.of rfl)⟩
  case pollIntervalExpiry => exact ⟨_, rfl, effPollIntervalExpiry_keeps (.refl _ s) (Sub.of rfl)⟩
  case descriptorFetched => exact ⟨_, rfl, effDescriptorFetched_keeps (.refl _ s) (Sub.of rfl)⟩
  case burstGrant => exact ⟨_, rfl, effBurstGrant_keeps (.refl _ s) (Sub.of rfl)⟩
  case burstReadDone => exact ⟨_, rfl, effBurstReadDone_keeps (.refl _ s) (Sub.of rfl)⟩
  case writeAcknowledged => exact ⟨_, rfl, effWriteAcknowledged_keeps (.refl _ s) (Sub.of rfl)⟩
  case descriptorComplete => exact ⟨_, rfl, effDescriptorComplete_keeps (.refl _ s) (Sub.of rfl)⟩
  case hostTxFrame => exact ⟨_, rfl, effHostTxFrame_keeps (.refl _ s) (Sub.of rfl)⟩
  case dmaTimeout => exact ⟨_, rfl, effDmaTimeout_keeps (.refl _ s) (Sub.of rfl)⟩
  case lateCompletion => exact ⟨_, rfl, effLateCompletion_keeps (.refl _ s) (Sub.of rfl)⟩
  case requestPulse => exact ⟨_, rfl, effRequestPulse_keeps (.refl _ s) (Sub.of rfl)⟩
  case requestExpired => exact ⟨_, rfl, effRequestExpired_keeps (.refl _ s) (Sub.of rfl)⟩
  case eventPulse => exact ⟨_, rfl, effEventPulse_keeps (.refl _ s) (Sub.of rfl)⟩
  case claim => exact ⟨_, rfl, effClaim_keeps (.refl _ s) (Sub.of rfl)⟩
  case eoi => exact ⟨_, rfl, effEoi_keeps (.refl _ s) (Sub.of rfl)⟩
  case softSet => exact ⟨_, rfl, effSoftSet_keeps (.refl _ s) (Sub.of rfl)⟩
  case countRead => exact ⟨_, rfl, effCountRead_keeps (.refl _ s) (Sub.of rfl)⟩
  case sleep => exact ⟨_, rfl, effSleep_keeps (.refl _ s) (Sub.of rfl)⟩
  case holdoffExpiry => exact ⟨_, rfl, effHoldoffExpiry_keeps (.refl _ s) (Sub.of rfl)⟩
  case feedLineChange => exact ⟨_, rfl, effFeedLineChange_keeps (.refl _ s) (Sub.of rfl)⟩
  case restoreHoldExpiry => exact ⟨_, rfl, effRestoreHoldExpiry_keeps (.refl _ s) (Sub.of rfl)⟩
  case pairLaneChange => exact ⟨_, rfl, effPairLaneChange_keeps (.refl _ s) (Sub.of rfl)⟩
  case heartbeatTx => exact ⟨_, rfl, effHeartbeatTx_keeps (.refl _ s) (Sub.of rfl)⟩
  case heartbeatRx => exact ⟨_, rfl, effHeartbeatRx_keeps (.refl _ s) (Sub.of rfl)⟩
  case pairLinkFrameError => exact ⟨_, rfl, effPairLinkFrameError_keeps (.refl _ s) (Sub.of rfl)⟩
  case heartbeatTimeout => exact ⟨_, rfl, effHeartbeatTimeout_keeps (.refl _ s) (Sub.of rfl)⟩
  case takeover => exact ⟨_, rfl, effTakeover_keeps (.refl _ s) (Sub.of rfl)⟩
  case handover => exact ⟨_, rfl, effHandover_keeps (.refl _ s) (Sub.of rfl)⟩
  case announcement => exact ⟨_, rfl, effAnnouncement_keeps (.refl _ s) (Sub.of rfl)⟩
  case copyInstant => exact ⟨_, rfl, effCopyInstant_keeps (.refl _ s) (Sub.of rfl)⟩
  case copyDeadline => exact ⟨_, rfl, effCopyDeadline_keeps (.refl _ s) (Sub.of rfl)⟩
  case copyDataRx => exact ⟨_, rfl, effCopyDataRx_keeps (.refl _ s) (Sub.of rfl)⟩
  case copyEndRx => exact ⟨_, rfl, effCopyEndRx_keeps (.refl _ s) (Sub.of rfl)⟩
  case copyMissing => exact ⟨_, rfl, effCopyMissing_keeps (.refl _ s) (Sub.of rfl)⟩
  case digestClose => exact ⟨_, rfl, effDigestClose_keeps (.refl _ s) (Sub.of rfl)⟩
  case clearStatus => exact ⟨_, rfl, effClearStatus_keeps (.refl _ s) (Sub.of rfl)⟩
  case clearHistory => exact ⟨_, rfl, effClearHistory_keeps (.refl _ s) (Sub.of rfl)⟩
  case clearBoth => exact ⟨_, rfl, effClearBoth_keeps (.refl _ s) (Sub.of rfl)⟩
  case histHiRead => exact ⟨_, rfl, effHistHiRead_keeps (.refl _ s) (Sub.of rfl)⟩
  case faultLostRead => exact ⟨_, rfl, effFaultLostRead_keeps (.refl _ s) (Sub.of rfl)⟩
  case faultRegisterScrub => exact ⟨_, rfl, effFaultRegisterScrub_keeps (.refl _ s) (Sub.of rfl)⟩
  case aliveHalfPeriod => exact ⟨_, rfl, effAliveHalfPeriod_keeps (.refl _ s) (Sub.of rfl)⟩
  case thermalSample => exact ⟨_, rfl, effThermalSample_keeps (.refl _ s) (Sub.of rfl)⟩
  case supplyDroop => exact ⟨_, rfl, effSupplyDroop_keeps (.refl _ s) (Sub.of rfl)⟩
  case marginReport => exact ⟨_, rfl, effMarginReport_keeps (.refl _ s) (Sub.of rfl)⟩
  case ageingUpdate => exact ⟨_, rfl, effAgeingUpdate_keeps (.refl _ s) (Sub.of rfl)⟩
  case healthCheckpoint => exact ⟨_, rfl, effHealthCheckpoint_keeps (.refl _ s) (Sub.of rfl)⟩
  case zqCalibration => exact ⟨_, rfl, effZqCalibration_keeps (.refl _ s) (Sub.of rfl)⟩
  case dqsOscillatorRead => exact ⟨_, rfl, effDqsOscillatorRead_keeps (.refl _ s) (Sub.of rfl)⟩
  case mr4Read => exact ⟨_, rfl, effMr4Read_keeps (.refl _ s) (Sub.of rfl)⟩
  case patrolScrub => exact ⟨_, rfl, effPatrolScrub_keeps (.refl _ s) (Sub.of rfl)⟩
  case refclkLoss => exact ⟨_, rfl, effRefclkLoss_keeps (.refl _ s) (Sub.of rfl)⟩
  case pllUnlock => exact ⟨_, rfl, effPllUnlock_keeps (.refl _ s) (Sub.of rfl)⟩
  case synceSquelch => exact ⟨_, rfl, effSynceSquelch_keeps (.refl _ s) (Sub.of rfl)⟩
  case tapReset => exact ⟨_, rfl, effTapReset_keeps (.refl _ s) (Sub.of rfl)⟩
  case tapInstruction => exact ⟨_, rfl, effTapInstruction_keeps (.refl _ s) (Sub.of rfl)⟩
  case tineLostRead => exact ⟨_, rfl, effTineLostRead_keeps (.refl _ s) (Sub.of rfl)⟩
  case copyEndMarkerSent => exact ⟨_, rfl, effCopyEndMarkerSent_keeps (.refl _ s) (Sub.of rfl)⟩
  case flushComplete => exact ⟨_, rfl, effFlushComplete_keeps (.refl _ s) (Sub.of rfl)⟩
  case pcieLinkUp => exact ⟨_, rfl, effPcieLinkUp_keeps (.refl _ s) (Sub.of rfl)⟩
  case pcieConfigReady => exact ⟨_, rfl, effPcieConfigReady_keeps (.refl _ s) (Sub.of rfl)⟩
  case configurationWrite => exact ⟨_, rfl, effConfigurationWrite_keeps (.refl _ s) (Sub.of rfl)⟩
  case lpiReceived => exact ⟨_, rfl, effLpiReceived_keeps (.refl _ s) (Sub.of rfl)⟩
  case rateChangeDue => exact ⟨_, rfl, effRateChangeDue_keeps (.refl _ s) (Sub.of rfl)⟩

/-! ## An access while no request waits -/

/-- The row of `changesAlone` for a write whose parts are `ps`, over the window and otherwise. -/
def aloneParts (r : Requester) (ps : List Part) : List Part := if overWindow r then dictionaryParts else ps

/-- While no request waits, a write to an entry of an object without a table changes what performing it changes, and the record
of outputs. -/
theorem answerWrite_keepsAlone {r : Requester} {idx sub : Nat} {v : Val} {e : EntrySpec} {ps : List Part} {s : State}
    (hq : s.nap.queue = []) (he : PlainEntry s.ident idx sub e) (hout : Sub 8 (maskOf ps))
    (hp : Keeps (maskOf ps) s (performEntry idx e v s).2) :
    Keeps (maskOf (aloneParts r ps)) s (answerWrite r idx sub v s) := by
  unfold aloneParts
  split
  · exact answerWrite_keeps (.refl _ s) (Sub.of rfl)
  · rename_i hw
    obtain ⟨o, ho, ht, hentry⟩ := he
    exact answerWrite_alone r idx sub v hq (by simpa using hw) o e ho hentry hout (by rwa [performWrite_plain ht])

/-- The write of a key object's KEY is `writeKey`. -/
theorem performEntry_key {k : Nat} (hk : k < 16) (b : Bytes) (s : State) :
    performEntry (0x0410 + k) keyEntry (.oct b) s = (aOk, writeKey (k + 1) b s) := by
  interval_cases k <;> rfl

theorem performEntry_image {k : Nat} (hk : k < 2) (b : Bytes) (s : State) :
    performEntry 0x0200 (imageEntry k) (.oct b) s = uploadImage k b s := by
  obtain rfl | rfl : k = 0 ∨ k = 1 := by omega
  · rfl
  · rfl

/-- CLEAR_STATUS, CLEAR_HISTORY and CLEAR_BOTH. -/
theorem answerClear_keepsAlone {s : State} (hq : s.nap.queue = []) (r : Requester) (b i a : Nat) :
    Keeps (maskOf (aloneParts r [.out, .faults])) s (answerClear r b i a s) := by
  unfold answerClear
  split
  · exact answerWrite_keepsAlone hq (clear_plain _) (Sub.of rfl) (clearAction_keeps (.refl _ s) (Sub.of rfl))
  · exact .refl _ s

/-- While no request waits, an access through the engine changes only the parts of its row of `changesAlone`. -/
theorem exec_keepsAlone (c : Instr) {s : State} (hq : s.nap.queue = []) :
    ∃ t, exec c s = .next t ∧ Keeps (maskOf (changesAlone c)) s t := by
  cases c
  case start r =>
    exact ⟨_, rfl, answerWrite_keepsAlone (ps := [.out, .chip]) hq (command_plain _) (Sub.of rfl)
      (cmdStart_keeps (.refl _ s) (Sub.of rfl))⟩
  case resetCommand r =>
    exact ⟨_, rfl, answerWrite_keepsAlone (ps := [.out, .chip, .mram, .health]) hq (command_plain _) (Sub.of rfl)
      (cmdReset_keeps (.refl _ s) (Sub.of rfl))⟩
  case commit r =>
    refine ⟨_, rfl, answerWrite_keepsAlone (ps := [.out, .cfg]) hq (commit_plain _) (Sub.of rfl) ?_⟩
    exact Keeps.iteSnd (.refl _ s) (cmdCommit_keeps (.refl _ s) (Sub.of rfl))
  case discard r =>
    exact ⟨_, rfl, answerWrite_keepsAlone (ps := [.out, .cfg]) hq (commit_plain _) (Sub.of rfl)
      (cmdDiscard_keeps (.refl _ s) (Sub.of rfl))⟩
  case cancel r =>
    exact ⟨_, rfl, answerWrite_keepsAlone (ps := [.out, .cfg, .cnt, .intc]) hq (commit_plain _) (Sub.of rfl)
      (commitAction_keeps (.refl _ s) (Sub.of rfl))⟩
  case flushPort r p =>
    refine ⟨_, rfl, answerWrite_keepsAlone (ps := [.out, .fdb]) hq (flush_plain _) (Sub.of rfl) ?_⟩
    exact Keeps.iteSnd (.refl _ s) (flushPort_keeps (.refl _ s) (Sub.of rfl))
  case unblockFilter r k =>
    refine ⟨_, rfl, answerWrite_keepsAlone (ps := [.out, .psfp]) hq (unblock_plain _) (Sub.of rfl) ?_⟩
    exact Keeps.iteSnd (.refl _ s) (Keeps.setPsfp (.refl _ s) (Sub.of rfl))
  case resetGate r k =>
    refine ⟨_, rfl, answerWrite_keepsAlone (ps := [.out, .psfp]) hq (resetGate_plain _) (Sub.of rfl) ?_⟩
    exact Keeps.iteSnd (.refl _ s) (Keeps.iteSnd (.refl _ s) (State.updSgate_keeps (.refl _ s) (Sub.of rfl)))
  case resetRecovery r k =>
    exact ⟨_, rfl, answerWrite_keepsAlone (ps := [.out, .cnt, .frer]) hq (frerReset_plain _ (.inl rfl)) (Sub.of rfl)
      (frerAction_keeps (.refl _ s) (Sub.of rfl))⟩
  case resetGeneration r k =>
    exact ⟨_, rfl, answerWrite_keepsAlone (ps := [.out, .cnt, .frer]) hq (frerReset_plain _ (.inr rfl)) (Sub.of rfl)
      (frerAction_keeps (.refl _ s) (Sub.of rfl))⟩
  case handover r =>
    exact ⟨_, rfl, answerWrite_keepsAlone (ps := [.out, .pair]) hq (handover_plain _) (Sub.of rfl)
      (handoverAction_keeps (.refl _ s) (Sub.of rfl))⟩
  case keyWrite r k b =>
    refine ⟨_, rfl, ?_⟩
    show Keeps (maskOf (aloneParts r [.out, .mram, .nap])) s (effKeyWrite r k b s)
    unfold effKeyWrite
    split
    · have hk : k - 1 < 16 := by omega
      refine answerWrite_keepsAlone hq (key_plain _ hk) (Sub.of rfl) ?_
      rw [performEntry_key hk]
      exact writeKey_keeps (.refl _ s) (Sub.of rfl)
    · exact .refl _ s
  case imageUpload r k b =>
    refine ⟨_, rfl, ?_⟩
    show Keeps (maskOf (aloneParts r [.out, .mram])) s (effImageUpload r k b s)
    unfold effImageUpload
    split
    · rename_i hk
      refine answerWrite_keepsAlone hq (image_plain _ hk) (Sub.of rfl) ?_
      rw [performEntry_image hk]
      exact uploadImage_keeps (.refl _ s) (Sub.of rfl)
    · exact .refl _ s
  case arm r f d v =>
    cases r with
    | none => exact exec_keeps (.arm none f d v) s
    | some r =>
      refine ⟨_, rfl, ?_⟩
      show Keeps (maskOf (aloneParts r [.out, .cnt, .time])) s (effArm (some r) f d v s)
      unfold effArm
      dsimp only
      split
      · rename_i hd
        refine answerWrite_keepsAlone hq (arm_plain _ hd) (Sub.of rfl) ?_
        rw [performEntry_arm hd]
        exact armDomain_keeps (.refl _ s) (Sub.of rfl)
      · exact .refl _ s
  case clearStatus r b i => exact ⟨_, rfl, answerClear_keepsAlone hq r b i 1⟩
  case clearHistory r b i => exact ⟨_, rfl, answerClear_keepsAlone hq r b i 2⟩
  case clearBoth r b i => exact ⟨_, rfl, answerClear_keepsAlone hq r b i 3⟩
  all_goals exact exec_keeps _ s

/-! ## The statements -/

/-- No command changes the queue, the cycle count or the device's identity. -/
theorem changes_spares (c : Instr) : Part.pending ∉ changes c ∧ Part.cycle ∉ changes c ∧ Part.ident ∉ changes c := by
  cases c <;> simp [changes, resetParts, dictionaryParts]

/-- Settles O3: `exec_keeps`, and `exec_keepsAlone` where no request waits. -/
theorem commandsChangeOnlyTheirParts : Obligations.CommandsChangeOnlyTheirParts := by
  unfold Obligations.CommandsChangeOnlyTheirParts
  intro c s t h
  obtain ⟨hpending, hcycle, hident⟩ := changes_spares c
  obtain ⟨u, hu, hk⟩ := exec_keeps c s
  obtain rfl : u = t := Host.Outcome.next.inj (hu.symm.trans h)
  refine ⟨hk.only, hk.only _ hpending, hk.only _ hcycle, hk.only _ hident, fun hq => ?_⟩
  obtain ⟨u', hu', hk'⟩ := exec_keepsAlone c hq
  obtain rfl : u' = u := Host.Outcome.next.inj (hu'.symm.trans h)
  exact hk'.only

/-- Settles O4: a command keeps the invariant by `exec_keeps`, a core cycle by `idle_keeps`. -/
theorem invariantKept : Obligations.InvariantKept := by
  unfold Obligations.InvariantKept step
  intro s t hi h
  split at h
  · obtain rfl := Host.Outcome.next.inj h
    exact (idle_keeps (.refl _ s) (Sub.of rfl) : Keeps 0xcb658e4a s (idle s)).inv hi
  · rename_i c rest hp
    obtain ⟨u, hu, hk⟩ := exec_keeps c { s with pending := rest }
    obtain rfl : u = t := Host.Outcome.next.inj (hu.symm.trans h)
    exact hk.inv ⟨hi.mem, hi.txMem, hi.queue, hi.transfers, hi.fifos, hi.history⟩

/-- Settles O5: every memory and queue is empty right after reset. -/
theorem invariantAtReset : Obligations.InvariantAtReset := by
  unfold Obligations.InvariantAtReset
  exact ⟨rfl, rfl, by decide, by decide, by decide, by decide⟩

end Sys2Proof.Machine
end

section
/-!
PROOF. The device state moves only along the arrows of R71: the object dictionary engine takes one arrow with each write, and
every other command at most one.
-/
namespace Sys2Proof.Machine

/-! ## Arrows -/

/-- The arrows that one write through the engine can take (R75). -/
def engineArrow (a b : Mode) : Bool :=
  a == b || [(Mode.hold, Mode.load), (.hold, .safe), (.armed, .load), (.armed, .safe), (.run, .armed),
    (.run, .safe)].contains (a, b)

/-- What several writes can do: from RUN they reach LOAD by way of ARMED. -/
def enginePath (a b : Mode) : Bool := engineArrow a b || (a == .run && b == .load)

theorem engineArrow_refl (a : Mode) : engineArrow a a = true := by simp [engineArrow]

theorem enginePath_of_arrow {a b : Mode} (h : engineArrow a b = true) : enginePath a b = true := by simp [enginePath, h]

theorem enginePath_trans {a b c : Mode} : enginePath a b = true → enginePath b c = true → enginePath a c = true := by
  cases a <;> cases b <;> cases c <;> decide

/-- The changes of state that R71 allows, and the resets. -/
@[reducible] def modeMoves (a b : Mode) : Prop := b = a ∨ b = .reset ∨ b = .off ∨ (a, b) ∈
  [(Mode.reset, Mode.load), (.load, .check), (.load, .hold), (.check, .armed), (.check, .load), (.check, .hold),
   (.hold, .load), (.armed, .run), (.armed, .load), (.run, .armed), (.load, .safe), (.check, .safe), (.hold, .safe),
   (.armed, .safe), (.run, .safe)]

theorem modeMoves_of_arrow {a b : Mode} (h : engineArrow a b = true) : modeMoves a b := by
  revert h
  unfold modeMoves
  cases a <;> cases b <;> decide

theorem modeMoves_of_path {a b : Mode} (h : enginePath a b = true) : modeMoves a b ∨ (a = .run ∧ b = .load) := by
  rcases (Bool.or_eq_true ..).mp h with h | h
  · exact .inl (modeMoves_of_arrow h)
  · exact .inr (by simpa using h)

/-! ## What leaves the device state -/

/-- An operation that does not touch the state registers leaves the device state. -/
theorem mode_of_keeps {m : Nat} {s t : State} (h : Keeps m s t) (hm : m.testBit 5 = false) : t.chip.mode = s.chip.mode :=
  (chip_of_same (h.same .chip hm)).1

theorem detectFault_mode (b i c d : Nat) (s : State) : (detectFault b i c d s).chip.mode = s.chip.mode :=
  mode_of_keeps (m := 0xc3000000) (detectFault_keeps (.refl _ s) (Sub.of rfl)) rfl

theorem endCommit_mode (reason detail unit : Nat) (s : State) : (endCommit reason detail unit s).chip.mode = s.chip.mode :=
  mode_of_keeps (m := 0x1000280) (endCommit_keeps (.refl _ s) (Sub.of rfl)) rfl

theorem answerCode_mode (q : NapReq) (c : Nat) (s : State) : (answerCode q c s).chip.mode = s.chip.mode :=
  mode_of_keeps (m := 0x1800748) (answerCode_keeps (.refl _ s) (Sub.of rfl)) rfl

theorem napDiscard_mode (q : NapReq) (c : Nat) (s : State) : (napDiscard q c s).chip.mode = s.chip.mode :=
  mode_of_keeps (m := 0x81000300) (napDiscard_keeps (.refl _ s) (Sub.of rfl)) rfl

theorem answerBroken_mode (q : NapReq) (s : State) : (answerBroken q s).chip.mode = s.chip.mode :=
  mode_of_keeps (m := 0x1800748) (answerBroken_keeps (.refl _ s) (Sub.of rfl)) rfl

theorem answerKept_mode (q : NapReq) (c : Nat) (s : State) : (answerKept q c s).chip.mode = s.chip.mode :=
  mode_of_keeps (m := 0x1800748) (answerKept_keeps (.refl _ s) (Sub.of rfl)) rfl

theorem napRead_mode (q : NapReq) (s : State) : (napRead q s).chip.mode = s.chip.mode :=
  mode_of_keeps (m := 0x1800748) (napRead_keeps (.refl _ s) (Sub.of rfl)) rfl

/-! ## One write -/

theorem transition_mode (new : Mode) (s : State) : (transition new s).chip.mode = new := (transition_chip new s).1

theorem settleMgt_mode (s0 s : State) : (settleMgt s0 s).chip.mode = s.chip.mode :=
  mode_of_keeps (m := 0x5000a08) (settleMgt_keeps (.refl _ s) (Sub.of rfl)) rfl

theorem cmdReload_mode (s : State) : (cmdReload s).chip.mode = .load := by
  unfold cmdReload
  dsimp only
  rw [settleMgt_mode, transition_mode]

theorem cmdReset_mode (s : State) : (cmdReset s).chip.mode = s.chip.mode := by
  unfold cmdReset
  split <;> rfl

/-- A command that its state allows takes an arrow of R75. -/
theorem command_arrow {s : State} {n : Nat} (h1 : 1 ≤ n) (h5 : n ≤ 5) (ha : commandAllowed s n = true) :
    engineArrow s.chip.mode (command n s).chip.mode = true := by
  obtain rfl | rfl | rfl | rfl | rfl : n = 1 ∨ n = 2 ∨ n = 3 ∨ n = 4 ∨ n = 5 := by omega
  · exact engineArrow_refl _
  · show engineArrow _ (cmdStop s).chip.mode = true
    unfold cmdStop
    split
    · rename_i hm
      rw [transition_mode, hm]
      rfl
    · exact engineArrow_refl _
  · show engineArrow _ (cmdReload s).chip.mode = true
    rw [cmdReload_mode]
    unfold commandAllowed at ha
    cases hm : s.chip.mode <;> simp_all [engineArrow]
  · show engineArrow _ (cmdReset s).chip.mode = true
    rw [cmdReset_mode]
    exact engineArrow_refl _
  · show engineArrow _ (cmdSafe s).chip.mode = true
    rw [cmdSafe, (enterSafe_facts 0 0 rfl).1]
    unfold commandAllowed at ha
    cases hm : s.chip.mode <;> simp_all [engineArrow, Wr.allows]

/-- Only COMMAND reaches the state registers. -/
theorem performEntry_mode {idx : Nat} (h : idx ≠ 0x0102) (e : EntrySpec) (v : Val) (s : State) :
    (performEntry idx e v s).2.chip.mode = s.chip.mode := by
  refine mode_of_keeps (m := 0xffffffdf) ?_ rfl
  unfold performEntry
  split
  · exact absurd rfl h
  · exact uploadImage_keeps (.refl _ s) (Sub.of rfl)
  · exact uploadImage_keeps (.refl _ s) (Sub.of rfl)
  · exact commitAction_keeps (.refl _ s) (Sub.of rfl)
  · exact handoverAction_keeps (.refl _ s) (Sub.of rfl)
  · exact clearAction_keeps (.refl _ s) (Sub.of rfl)
  · exact .iteSnd (keyWrite_keeps (.refl _ s) (Sub.of rfl)) <| .iteSnd (stageEntry_keeps (.refl _ s) (Sub.of rfl)) <|
      .iteSnd (State.rwPut_keeps (.refl _ s) (Sub.of rfl)) <| .iteSnd (classifierAction_keeps (.refl _ s) (Sub.of rfl)) <|
      .iteSnd (frerAction_keeps (.refl _ s) (Sub.of rfl)) <| .iteSnd (armDomain_keeps (.refl _ s) (Sub.of rfl)) (.refl _ s)

theorem performWrite_mode {idx : Nat} (h : idx ≠ 0x0102) (r : Requester) (o : ObjSpec) (e : EntrySpec) (v : Val) (s : State) :
    (performWrite r o idx e v s).2.chip.mode = s.chip.mode := by
  unfold performWrite
  split
  · split
    · rfl
    · split
      · exact mode_of_keeps (m := 0x1082180) (tableAction_keeps (.refl _ s) (Sub.of rfl)) rfl
      · exact performEntry_mode h e v s
  · exact performEntry_mode h e v s

/-- A test that was passed. -/
theorem passed_of_ok {α : Type} {p : Prop} [Decidable p] {c : Nat} {x : Except Nat α} {y : α}
    (h : (if p then .error c else x) = .ok y) : ¬p ∧ x = .ok y := by
  split at h
  · cases h
  · exact ⟨‹_›, h⟩

/-- What R50 has found of a write that it admits. -/
theorem admitWrite_ok_tests {s : State} {r : Requester} {idx sub : Nat} {d : Datum} {o : ObjSpec} {e : EntrySpec} {sel : Bool}
    (h : admitWrite s r idx sub d = .ok (o, e, sel)) : engineBusy s.chip.mode = false ∧ sel = isSelection o sub (d.value e) ∧
      ¬(e.acc = .ro ∨ e.acc = .const ∨ e.acc = .counter) ∧ (sel = true ∨ stateAllowsWrite s idx e (d.value e) = true) := by
  obtain ⟨ho, he⟩ := admitWrite_ok h
  simp only [admitWrite, ho, he] at h
  obtain ⟨hbusy, h⟩ := passed_of_ok h
  obtain ⟨-, h⟩ := passed_of_ok h
  obtain ⟨-, h⟩ := passed_of_ok h
  obtain ⟨-, h⟩ := passed_of_ok h
  obtain ⟨hacc, h⟩ := passed_of_ok h
  obtain ⟨-, h⟩ := passed_of_ok h
  obtain ⟨hstate, h⟩ := passed_of_ok h
  obtain ⟨-, h⟩ := passed_of_ok h
  obtain ⟨-, h⟩ := passed_of_ok h
  obtain rfl : isSelection o sub (d.value e) = sel := congrArg (fun x => x.2.2) (Except.ok.inj h)
  refine ⟨by simpa using hbusy, rfl, hacc, ?_⟩
  cases hs : isSelection o sub (d.value e) with
  | true => exact .inl rfl
  | false => exact .inr (by simpa [hs] using hstate)

/-- The object of COMMAND has no table. -/
theorem isSelection_command {id : Ident} {o : ObjSpec} (h : objSpec id 0x0102 = some o) (sub : Nat) (v : Option Val) :
    isSelection o sub v = false := by
  cases h
  rfl

/-- R50 admits a value to COMMAND only in a state that allows it. -/
theorem admitWrite_command_allowed {s : State} {r : Requester} {sub : Nat} {d : Datum} {o : ObjSpec} {e : EntrySpec}
    {sel : Bool}
    {n : Nat} (h : admitWrite s r 0x0102 sub d = .ok (o, e, sel)) (hv : d.value e = some (.num n)) (h1 : 1 ≤ n) (h5 : n ≤ 5) :
    commandAllowed s n = true := by
  obtain ⟨-, rfl, -, hst⟩ := admitWrite_ok_tests h
  rw [isSelection_command (admitWrite_ok h).1] at hst
  have hne : ¬(n = 0 ∨ 5 < n) := by omega
  simpa [stateAllowsWrite, hv, hne] using hst

/-- The only entry of COMMAND's object that can be written. -/
theorem admitWrite_command_entry {s : State} {r : Requester} {sub : Nat} {d : Datum} {o : ObjSpec} {e : EntrySpec} {sel : Bool}
    (h : admitWrite s r 0x0102 sub d = .ok (o, e, sel)) : e = commandEntry := by
  obtain ⟨ho, he⟩ := admitWrite_ok h
  obtain ⟨-, -, hacc, -⟩ := admitWrite_ok_tests h
  obtain rfl : ({ entries := [commandEntry] } : ObjSpec) = o := Option.some.inj ho
  by_cases h0 : sub = 0
  · subst h0
    cases he
    exact absurd (.inr (.inl rfl)) hacc
  · by_cases h1 : sub = 1
    · subst h1
      cases he
      rfl
    · have hnone : ObjSpec.entry { entries := [commandEntry] } sub = none := by
        simp [ObjSpec.entry, h0, commandEntry, Cat.wo, Ne.symm h1]
      rw [hnone] at he
      cases he

/-- One write under R50 takes at most one arrow. -/
theorem objWrite_arrow (r : Requester) (idx sub : Nat) (d : Datum) (s : State) :
    engineArrow s.chip.mode (objWrite r idx sub d s).2.chip.mode = true := by
  unfold objWrite
  split
  · exact engineArrow_refl _
  · rename_i o e sel hadm
    split
    · exact engineArrow_refl _
    · rename_i v hv
      split
      · exact engineArrow_refl _
      · rename_i hrange
        split
        · exact engineArrow_refl _
        · by_cases hi : idx = 0x0102
          · subst hi
            obtain rfl := admitWrite_command_entry hadm
            have hne : sel = false := by
              rw [(admitWrite_ok_tests hadm).2.1, isSelection_command (admitWrite_ok hadm).1]
            have hn : ¬v.n = 0 ∧ v.n ≤ 5 := by simpa [hne, commandEntry, Cat.wo, Rng.ok] using hrange
            have h1 : 1 ≤ v.n := Nat.pos_of_ne_zero hn.1
            cases v with
            | oct b => exact absurd rfl hn.1
            | num n =>
              rw [performWrite_plain (by cases (admitWrite_ok hadm).1; rfl)]
              exact command_arrow h1 hn.2 (admitWrite_command_allowed hadm hv h1 hn.2)
          · rw [performWrite_mode hi]
            exact engineArrow_refl _

/-! ## One NAP request -/

/-- What an operation of the engine does to the device state: at most one arrow. -/
def OneArrow (s t : State) : Prop := engineArrow s.chip.mode t.chip.mode = true

theorem oneArrow_of_mode {s t : State} (h : t.chip.mode = s.chip.mode) : OneArrow s t := by
  unfold OneArrow
  rw [h]
  exact engineArrow_refl _

/-- An arrow of what comes between operations that leave the device state. -/
theorem OneArrow.between {s s' t t' : State} (h : OneArrow s' t) (hs : s'.chip.mode = s.chip.mode)
    (ht : t'.chip.mode = t.chip.mode) : OneArrow s t' := by
  unfold OneArrow at h ⊢
  rwa [ht, ← hs]

/-- A write and its answer. -/
theorem oneArrow_answered (q : NapReq) (r : Requester) (idx sub : Nat) (d : Datum) {s s' : State}
    (hs : s'.chip.mode = s.chip.mode) :
    OneArrow s (answerCode q (objWrite r idx sub d s').1 (objWrite r idx sub d s').2) :=
  OneArrow.between (objWrite_arrow r idx sub d s') hs (answerCode_mode ..)

theorem writeSegment_arrow (q : NapReq) (t : Transfer) (s : State) : OneArrow s (writeSegment q t s) := by
  unfold writeSegment
  split
  · exact oneArrow_of_mode (answerBroken_mode q s)
  · dsimp only
    split
    · split
      · exact oneArrow_answered q _ _ _ _ rfl
      · exact oneArrow_of_mode (answerBroken_mode q s)
    · exact oneArrow_of_mode (answerCode_mode ..)

theorem writeSegmented_arrow (q : NapReq) (s : State) : OneArrow s (writeSegmented q s) := by
  unfold writeSegmented
  dsimp only
  split
  · exact oneArrow_of_mode (answerKept_mode ..)
  · split
    · exact oneArrow_of_mode (answerKept_mode ..)
    · split
      · exact writeSegment_arrow ..
      · unfold writeFresh
        dsimp only
        split
        · exact oneArrow_of_mode (answerCode_mode ..)
        · exact writeSegment_arrow ..

theorem napWrite_arrow (q : NapReq) (s : State) : OneArrow s (napWrite q s) := by
  unfold napWrite
  dsimp only
  split
  · exact oneArrow_answered q _ _ _ _ rfl
  · exact writeSegmented_arrow q s

theorem napEvaluate_arrow (q : NapReq) (s : State) : OneArrow s (napEvaluate q s) := by
  unfold napEvaluate
  dsimp only
  repeat' split
  · exact oneArrow_of_mode (answerCode_mode ..)
  · exact oneArrow_of_mode (answerCode_mode ..)
  · exact oneArrow_of_mode (answerCode_mode ..)
  · exact oneArrow_of_mode (answerBroken_mode ..)
  · exact oneArrow_of_mode (answerCode_mode ..)
  · exact oneArrow_of_mode (napRead_mode ..)
  · exact napWrite_arrow q s

theorem napAccept_arrow (q : NapReq) (s : State) : OneArrow s (napAccept q s) := by
  unfold napAccept
  dsimp only
  repeat' split
  · exact oneArrow_of_mode (napDiscard_mode ..)
  · exact oneArrow_of_mode (napDiscard_mode ..)
  · exact (napEvaluate_arrow q (s.bump 0x0401 1)).between rfl rfl
  · exact oneArrow_of_mode (napDiscard_mode ..)
  · exact oneArrow_of_mode (napDiscard_mode ..)
  · exact oneArrow_of_mode (napDiscard_mode ..)
  · exact oneArrow_of_mode (napDiscard_mode ..)
  · exact (napEvaluate_arrow q ((setRxReplay (pduKey q.pdu) (pduReplay q.pdu) s).bump 0x0401 1)).between rfl rfl

theorem napRun_arrow (q : NapReq) (s : State) : OneArrow s (napRun q s) := by
  unfold napRun
  dsimp only
  repeat' split
  · exact oneArrow_of_mode (napDiscard_mode ..)
  · exact oneArrow_of_mode (answerCode_mode ..)
  · exact oneArrow_of_mode (napDiscard_mode ..)
  · exact napAccept_arrow q s

theorem napTake_arrow (kind : Nat) (s : State) : OneArrow s (napTake kind s) := by
  unfold napTake
  split
  · exact oneArrow_of_mode rfl
  · rename_i q rest _
    split
    · exact OneArrow.between (napRun_arrow q { s with nap := { s.nap with queue := rest } }) rfl rfl
    · exact oneArrow_of_mode rfl

/-! ## An access, the requests ahead of it served first -/

/-- What an access does to the device state: one arrow, or where requests wait ahead of it a path. -/
def EnginePath (s t : State) : Prop :=
  enginePath s.chip.mode t.chip.mode = true ∧ (s.nap.queue = [] → OneArrow s t)

theorem enginePath_of_oneArrow {s t : State} (h : OneArrow s t) : EnginePath s t := ⟨enginePath_of_arrow h, fun _ => h⟩

theorem napRun_foldl_path (l : List NapReq) (s : State) :
    enginePath s.chip.mode (l.foldl (fun t q => napRun q t) s).chip.mode = true := by
  induction l generalizing s with
  | nil => exact enginePath_of_arrow (engineArrow_refl _)
  | cons q r ih => exact enginePath_trans (enginePath_of_arrow (napRun_arrow q s)) (ih (napRun q s))

theorem engineTurn_path (p : Path) (s : State) : enginePath s.chip.mode (engineTurn p s).chip.mode = true := by
  unfold engineTurn
  split
  · exact napRun_foldl_path _ { s with nap := { s.nap with queue := behindOf s p } }
  · exact enginePath_of_arrow (engineArrow_refl _)

/-- What follows the engine's turn takes at most one arrow. -/
theorem enginePath_of_turn {p : Path} {s t : State} (h : OneArrow (engineTurn p s) t) : EnginePath s t :=
  ⟨enginePath_trans (engineTurn_path p s) (enginePath_of_arrow h), fun hq => by rwa [engineTurn_empty p hq] at h⟩

theorem effBar2Read_path (f off width : Nat) (s : State) : EnginePath s (effBar2Read f off width s) := by
  unfold effBar2Read
  repeat' split
  · refine enginePath_of_turn (p := .bar2 f) (oneArrow_of_mode ?_)
    exact mode_of_keeps (m := 0x108) (windowRead_keeps (.refl _ _) (Sub.of rfl)) rfl
  · exact enginePath_of_oneArrow (oneArrow_of_mode
      (mode_of_keeps (m := 0x800000c) (unsupported_keeps (.refl _ s) (Sub.of rfl)) rfl))
  · exact enginePath_of_oneArrow (oneArrow_of_mode
      (mode_of_keeps (m := 0x800000c) (refuseBar_keeps (.refl _ s) (Sub.of rfl)) rfl))

theorem windowWrite_arrow (f off width value : Nat) (s : State) : OneArrow s (windowWrite f off width value s) := by
  unfold windowWrite
  split
  · exact oneArrow_of_mode (mode_of_keeps (m := 0x100) (writeWindowRecord_keeps (.refl _ s) (Sub.of rfl)) rfl)
  · exact OneArrow.between (objWrite_arrow _ _ _ _ s) rfl rfl

theorem effBar2Write_path (f off width value : Nat) (s : State) : EnginePath s (effBar2Write f off width value s) := by
  unfold effBar2Write
  repeat' split
  · exact enginePath_of_turn (windowWrite_arrow ..)
  · exact enginePath_of_oneArrow (oneArrow_of_mode
      (mode_of_keeps (m := 0x800000c) (unsupported_keeps (.refl _ s) (Sub.of rfl)) rfl))
  · exact enginePath_of_oneArrow (oneArrow_of_mode
      (mode_of_keeps (m := 0x800000c) (refuseBar_keeps (.refl _ s) (Sub.of rfl)) rfl))

theorem answerWrite_path (r : Requester) (idx sub : Nat) (v : Val) (s : State) : EnginePath s (answerWrite r idx sub v s) := by
  unfold answerWrite
  split
  · exact effBar2Write_path ..
  · dsimp only
    refine enginePath_of_turn (p := r.path) ?_
    split
    · exact OneArrow.between (objWrite_arrow r idx sub (.val v) _) rfl rfl
    · exact oneArrow_of_mode rfl

theorem answerRead_path (r : Requester) (idx sub : Nat) (s : State) : EnginePath s (answerRead r idx sub s) := by
  unfold answerRead
  split
  · exact effBar2Read_path ..
  · dsimp only
    refine enginePath_of_turn (p := r.path) ?_
    repeat' split
    all_goals exact oneArrow_of_mode rfl

end Sys2Proof.Machine
end

section
/-!
PROOF. The device state follows the table of R71, command by command.
-/
namespace Sys2Proof.Machine

/-! ## Commands outside the engine -/

theorem modeMoves_refl (a : Mode) : modeMoves a a := .inl rfl

theorem modeMoves_of_eq {s t : State} (h : t.chip.mode = s.chip.mode) : modeMoves s.chip.mode t.chip.mode := .inl h

theorem effSupplyInRange_moves (levels : List Nat) (s : State) :
    modeMoves s.chip.mode (effSupplyInRange levels s).chip.mode := by
  unfold effSupplyInRange
  split
  · exact .inr (.inl rfl)
  · exact modeMoves_refl _

theorem effSupplyOutOfRange_moves (rail level ns : Nat) (s : State) :
    modeMoves s.chip.mode (effSupplyOutOfRange rail level ns s).chip.mode := by
  unfold effSupplyOutOfRange
  split
  · exact .inr (.inr (.inl rfl))
  · exact modeMoves_refl _

theorem effResetRelease_moves (straps pll : Nat) (words : List MramWord) (s : State) :
    modeMoves s.chip.mode (effResetRelease straps pll words s).chip.mode := by
  unfold effResetRelease
  split
  · rename_i h
    rw [mode_of_keeps (m := 0xc3000200) (noteMramWords_keeps (.refl _ _) (Sub.of rfl)) rfl, transition_mode, h.1]
    decide
  · exact modeMoves_refl _

theorem effResetDelayExpiry_moves (s : State) : modeMoves s.chip.mode (effResetDelayExpiry s).chip.mode := by
  unfold effResetDelayExpiry
  repeat' split
  · exact .inr (.inl rfl)
  · exact modeMoves_refl _
  · exact modeMoves_refl _

theorem enterHold_mode (f : CheckFail) (im : Image) (s : State) : (enterHold f im s).chip.mode = .hold :=
  (enterHold_facts f im rfl).1

theorem effLoadComplete_moves (s : State) : modeMoves s.chip.mode (effLoadComplete s).chip.mode := by
  unfold effLoadComplete
  split
  · rename_i h
    rw [h]
    split
    · rw [transition_mode]
      decide
    · rw [enterHold_mode]
      decide
  · exact modeMoves_refl _

theorem checkFailed_mode (b : Nat) (f : CheckFail) (im : Image) (s : State) :
    (checkFailed b f im s).chip.mode = .load ∨ (checkFailed b f im s).chip.mode = .hold := by
  unfold checkFailed
  split
  · exact .inl (transition_mode ..)
  · exact .inr (enterHold_mode ..)

theorem effCheckComplete_moves (s : State) : modeMoves s.chip.mode (effCheckComplete s).chip.mode := by
  unfold effCheckComplete
  split
  · rename_i h _
    rw [h]
    split
    · rw [(checkPassed_facts _ _ rfl).1]
      decide
    · rcases checkFailed_mode _ _ _ s with e | e
      · rw [e]
        decide
      · rw [e]
        decide
  · exact modeMoves_refl _

theorem effStartTaken_moves (s : State) : modeMoves s.chip.mode (effStartTaken s).chip.mode := by
  unfold effStartTaken
  split
  · rename_i h
    rw [transition_mode, h.1]
    decide
  · exact modeMoves_refl _

theorem modeMoves_safe {m : Mode} (h : canEnterSafe m = true) : modeMoves m .safe := by
  revert h
  cases m <;> decide

theorem canEnterSafe_of_safeDue {s : State} (h : safeDue s = true) : canEnterSafe s.chip.mode = true := by
  unfold safeDue at h
  split at h
  · exact (Bool.and_eq_true .. |>.mp h).2
  · cases h

theorem effSafeEntryOnFault_moves (s : State) : modeMoves s.chip.mode (effSafeEntryOnFault s).chip.mode := by
  unfold effSafeEntryOnFault
  split
  · split
    · rename_i h
      rw [(enterSafe_facts _ _ rfl).1]
      exact modeMoves_safe (canEnterSafe_of_safeDue h)
    · exact modeMoves_refl _
  · exact modeMoves_refl _

/-- Of the steps of a commit only that which stores an image in HOLD leaves the state (R92). -/
theorem commitStored_moves (ok : Bool) (s : State) : modeMoves s.chip.mode (commitStored ok s).chip.mode := by
  unfold commitStored
  dsimp only
  repeat' split
  · exact modeMoves_of_eq ((detectFault_mode ..).trans (endCommit_mode ..))
  · rename_i h
    rw [commitInHold, settleMgt_mode, transition_mode, h]
    decide
  · exact modeMoves_refl _

theorem effCommitStepDone_moves (ok : Bool) (s : State) : modeMoves s.chip.mode (effCommitStepDone ok s).chip.mode := by
  unfold effCommitStepDone
  split
  · exact modeMoves_of_eq (mode_of_keeps (m := 0x1000280) (commitBuilt_keeps (.refl _ s) (Sub.of rfl)) rfl)
  · exact modeMoves_of_eq (mode_of_keeps (m := 0x10002c0) (commitChecked_keeps (.refl _ s) (Sub.of rfl)) rfl)
  · exact commitStored_moves ok s
  · exact modeMoves_of_eq (mode_of_keeps (m := 0xdff77e88) (commitLoaded_keeps (.refl _ s) (Sub.of rfl)) rfl)
  · exact modeMoves_refl _

theorem effRefclkLoss_mode (s : State) : (effRefclkLoss s).chip.mode = s.chip.mode := by
  unfold effRefclkLoss
  split
  · rfl
  · exact detectFault_mode ..

theorem effPllUnlock_mode (k : Nat) (s : State) : (effPllUnlock k s).chip.mode = s.chip.mode := by
  unfold effPllUnlock
  dsimp only
  repeat' split
  · rfl
  · exact detectFault_mode ..
  · rfl
  · exact detectFault_mode ..
  · rfl
  · rfl

/-! ## The statement -/

/-- What a command does to the device state: an arrow of R71, or where requests wait the two from RUN to LOAD. -/
def Moves (s t : State) : Prop :=
  modeMoves s.chip.mode t.chip.mode ∨ (s.nap.queue ≠ [] ∧ s.chip.mode = .run ∧ t.chip.mode = .load)

theorem moves_of_path {s t : State} (h : EnginePath s t) : Moves s t := by
  rcases modeMoves_of_path h.1 with hm | ⟨hs, ht⟩
  · exact .inl hm
  · refine .inr ⟨fun hq => ?_, hs, ht⟩
    have ha := h.2 hq
    rw [OneArrow, hs, ht] at ha
    revert ha
    decide

theorem enginePath_ite {p : Prop} [Decidable p] {s t : State} (h : EnginePath s t) : EnginePath s (if p then t else s) := by
  split
  · exact h
  · exact enginePath_of_oneArrow (oneArrow_of_mode rfl)

/-- A command that does not touch the state registers. -/
theorem exec_spares_mode (c : Instr) (s : State) (h : Part.chip ∉ changes c) : ∃ t, exec c s = .next t ∧ Moves s t := by
  obtain ⟨t, ht, hk⟩ := exec_keeps c s
  exact ⟨t, ht, .inl (modeMoves_of_eq (chip_of_same (hk.only _ h)).1)⟩

theorem exec_moves (c : Instr) (s : State) : ∃ t, exec c s = .next t ∧ Moves s t := by
  cases c
  case supplyInRange => exact ⟨_, rfl, .inl (effSupplyInRange_moves ..)⟩
  case supplyOutOfRange => exact ⟨_, rfl, .inl (effSupplyOutOfRange_moves ..)⟩
  case resetRelease => exact ⟨_, rfl, .inl (effResetRelease_moves ..)⟩
  case resetDelayExpiry => exact ⟨_, rfl, .inl (effResetDelayExpiry_moves ..)⟩
  case loadComplete => exact ⟨_, rfl, .inl (effLoadComplete_moves ..)⟩
  case checkComplete => exact ⟨_, rfl, .inl (effCheckComplete_moves ..)⟩
  case startTaken => exact ⟨_, rfl, .inl (effStartTaken_moves ..)⟩
  case safeEntryOnFault => exact ⟨_, rfl, .inl (effSafeEntryOnFault_moves ..)⟩
  case commitStepDone => exact ⟨_, rfl, .inl (effCommitStepDone_moves ..)⟩
  case refclkLoss => exact ⟨_, rfl, .inl (modeMoves_of_eq (effRefclkLoss_mode _))⟩
  case pllUnlock => exact ⟨_, rfl, .inl (modeMoves_of_eq (effPllUnlock_mode ..))⟩
  case napRead => exact ⟨_, rfl, moves_of_path (enginePath_of_oneArrow (napTake_arrow ..))⟩
  case napWrite => exact ⟨_, rfl, moves_of_path (enginePath_of_oneArrow (napTake_arrow ..))⟩
  case napAbortTransfer => exact ⟨_, rfl, moves_of_path (enginePath_of_oneArrow (napTake_arrow ..))⟩
  case bar2Read => exact ⟨_, rfl, moves_of_path (effBar2Read_path ..)⟩
  case bar2Write => exact ⟨_, rfl, moves_of_path (effBar2Write_path ..)⟩
  case failCountClear => exact ⟨_, rfl, moves_of_path (effBar2Write_path ..)⟩
  case start => exact ⟨_, rfl, moves_of_path (answerWrite_path ..)⟩
  case stop => exact ⟨_, rfl, moves_of_path (answerWrite_path ..)⟩
  case reload => exact ⟨_, rfl, moves_of_path (answerWrite_path ..)⟩
  case resetCommand => exact ⟨_, rfl, moves_of_path (answerWrite_path ..)⟩
  case safeCommand => exact ⟨_, rfl, moves_of_path (answerWrite_path ..)⟩
  case entryWrite => exact ⟨_, rfl, moves_of_path (answerWrite_path ..)⟩
  case selectionWrite => exact ⟨_, rfl, moves_of_path (answerWrite_path ..)⟩
  case read => exact ⟨_, rfl, moves_of_path (answerWrite_path ..)⟩
  case write => exact ⟨_, rfl, moves_of_path (answerWrite_path ..)⟩
  case delete => exact ⟨_, rfl, moves_of_path (answerWrite_path ..)⟩
  case next => exact ⟨_, rfl, moves_of_path (answerWrite_path ..)⟩
  case commit => exact ⟨_, rfl, moves_of_path (answerWrite_path ..)⟩
  case discard => exact ⟨_, rfl, moves_of_path (answerWrite_path ..)⟩
  case cancel => exact ⟨_, rfl, moves_of_path (answerWrite_path ..)⟩
  case flushPort => exact ⟨_, rfl, moves_of_path (answerWrite_path ..)⟩
  case unblockFilter => exact ⟨_, rfl, moves_of_path (answerWrite_path ..)⟩
  case resetGate => exact ⟨_, rfl, moves_of_path (answerWrite_path ..)⟩
  case resetRecovery => exact ⟨_, rfl, moves_of_path (answerWrite_path ..)⟩
  case resetGeneration => exact ⟨_, rfl, moves_of_path (answerWrite_path ..)⟩
  case handover => exact ⟨_, rfl, moves_of_path (answerWrite_path ..)⟩
  case keyWrite => exact ⟨_, rfl, moves_of_path (enginePath_ite (answerWrite_path ..))⟩
  case imageUpload => exact ⟨_, rfl, moves_of_path (enginePath_ite (answerWrite_path ..))⟩
  case imageRead => exact ⟨_, rfl, moves_of_path (enginePath_ite (answerRead_path ..))⟩
  case clearStatus => exact ⟨_, rfl, moves_of_path (enginePath_ite (answerWrite_path ..))⟩
  case clearHistory => exact ⟨_, rfl, moves_of_path (enginePath_ite (answerWrite_path ..))⟩
  case clearBoth => exact ⟨_, rfl, moves_of_path (enginePath_ite (answerWrite_path ..))⟩
  case arm r f d v =>
    cases r with
    | none =>
      exact ⟨_, rfl, .inl (modeMoves_of_eq (mode_of_keeps (m := 0x8820020c) (armRegister_keeps (.refl _ s) (Sub.of rfl)) rfl))⟩
    | some r => exact ⟨_, rfl, moves_of_path (enginePath_ite (answerWrite_path ..))⟩
  all_goals exact exec_spares_mode _ s (by simp [changes])

/-- Settles O6: by `exec_moves`. -/
theorem stateChangesFollowTheTable : Obligations.StateChangesFollowTheTable := by
  unfold Obligations.StateChangesFollowTheTable
  intro c s t h
  obtain ⟨u, hu, hm⟩ := exec_moves c s
  obtain rfl : u = t := Host.Outcome.next.inj (hu.symm.trans h)
  simpa only [Moves, modeMoves, or_assoc] using hm

end Sys2Proof.Machine
end

section
/-!
PROOF. FLUSH_PORT, UNBLOCK_FILTER and RESET_GATE (R141, R149, R152).
-/
namespace Sys2Proof.Machine

/-- Outside COMMAND the entry's own states decide (R39). -/
theorem stateAllowsWrite_entry {idx : Nat} (h : idx ≠ 0x0102) (s : State) (e : EntrySpec) (v : Option Val) :
    stateAllowsWrite s idx e v = e.wr.allows s.chip.mode := by
  unfold stateAllowsWrite
  split
  · exact absurd rfl h
  · rfl

/-- HOLD, ARMED and RUN (R39). -/
theorem har_allows {m : Mode} (h : m ∈ [.hold, .armed, .run]) : Wr.har.allows m = true := by
  revert h; cases m <;> decide

theorem mem_served_of_har {m : Mode} (h : m ∈ [.hold, .armed, .run]) : m ∈ [Mode.hold, .armed, .run, .safe] := by
  revert h; cases m <;> decide

section
variable {r : Requester} {s0 s : State} (hs : s = engineTurn r.path s0) (hr : MayWrite r s)
include hr

theorem mayReach_classifier {sub : Nat} {e : EntrySpec} (he : PlainEntry s.ident 0x2000 sub e) (hw : e.acc = .wo) :
    MayReach r s 0x2000 sub e where
  accepted := hr.accepted
  served := hr.served.1
  entry := he
  present := rfl
  right := hr.right
  path := rfl
  writable := .inr (.inr hw)
  armed := rfl
  claim := rfl

include hs

/-- A write of a number to an entry of the classifier performs its action. -/
theorem answerWrite_classifier {sub n : Nat} {e : EntrySpec} (he : PlainEntry s.ident 0x2000 sub e) (hw : e.acc = .wo)
    (hst : e.wr = .har) (hv : e.ty.encodes (.num n) = true) (hg : e.rng.ok e.ty (.num n) = true)
    (hp : performEntry 0x2000 e (.num n) s = classifierAction sub n s) :
    answerWrite r 0x2000 sub (.num n) s0 =
      (classifierAction sub n s).2.emit (.answer r (classifierAction sub n s).1 none) := by
  have hstate : stateAllowsWrite s 0x2000 e (some (.num n)) = true := by
    rw [stateAllowsWrite_entry (by decide), hst]
    exact har_allows hr.mode
  rw [answerWrite_entry hs (mayReach_classifier hr he hw) hv hstate hg (by simp [hw]), hp]

theorem answerWrite_flush {p : Nat} (h : p < 263 ∨ p = 0xFFFF) : answerWrite r 0x2000 3 (.num p) s0 =
    (classifierAction 3 p s).2.emit (.answer r (classifierAction 3 p s).1 none) := by
  refine answerWrite_classifier hs hr (flush_plain _) rfl rfl (decide_eq_true (show p < 2 ^ 16 by omega)) ?_ rfl
  show (decide (0 ≤ p) && decide (p ≤ 262) || [0xFFFF].contains p) = true
  rcases h with h | rfl
  · simp [show p ≤ 262 by omega]
  · rfl

theorem answerWrite_unblock {k : Nat} (h : k < 65536) : answerWrite r 0x2000 5 (.num k) s0 =
    (classifierAction 5 k s).2.emit (.answer r (classifierAction 5 k s).1 none) := by
  refine answerWrite_classifier hs hr (unblock_plain _) rfl rfl (decide_eq_true (show k < 2 ^ 32 by omega)) ?_ rfl
  show (decide (0 ≤ k) && decide (k ≤ 65535)) = true
  simp [show k ≤ 65535 by omega]

theorem answerWrite_resetGate {k : Nat} (h : k < 65536) : answerWrite r 0x2000 6 (.num k) s0 =
    (classifierAction 6 k s).2.emit (.answer r (classifierAction 6 k s).1 none) :=
  answerWrite_classifier hs hr (resetGate_plain _) rfl rfl (decide_eq_true (show k < 2 ^ 16 by omega)) rfl rfl

end

/-! ## The actions -/

theorem classifierAction_flush {p : Nat} {s : State} (h : p = 0xFFFF ∨ portPresent s.ident p = true) :
    classifierAction 3 p s = (aOk, flushPort p s) :=
  if_neg fun ⟨hne, hp⟩ => by
    rcases h with h | h
    · exact hne h
    · simp [h] at hp

theorem classifierAction_flush_absent {p : Nat} {s : State} (hn : p ≠ 0xFFFF) (h : portPresent s.ident p = false) :
    classifierAction 3 p s = (aAbsentUnit, s) := if_pos ⟨hn, by simp [h]⟩

theorem flushPort_one {p : Nat} (h : p ≠ 0xFFFF) (s : State) : flushPort p s =
    { s with fdb := { s.fdb with learned := s.fdb.learned.filter (fun e => e.2.port != p), flush := some p } } := by
  rw [flushPort, if_neg h]

theorem classifierAction_unblock {k : Nat} {s : State} (h : (s.row 0x2100 k).isSome = true) : classifierAction 5 k s =
    (aOk, { s with psfp := { s.psfp with blocked := AMap.del s.psfp.blocked k } }) :=
  if_neg (by simpa using Option.isSome_iff_ne_none.1 h)

theorem classifierAction_unblock_noRow {k : Nat} {s : State} (h : (s.row 0x2100 k).isSome = false) :
    classifierAction 5 k s = (aNoObject, s) := if_pos (by simpa using h)

theorem classifierAction_resetGate_absent {k : Nat} {s : State} (hk : k < 4352) (ha : absentKey s.ident 0x2101 k = true) :
    classifierAction 6 k s = (aAbsentUnit, s) := if_pos ⟨hk, ha⟩

theorem classifierAction_resetGate_noRow {k : Nat} {s : State} (hk : ¬(k < 4352 ∧ absentKey s.ident 0x2101 k = true))
    (h : (s.row 0x2101 k).isSome = false) : classifierAction 6 k s = (aNoObject, s) :=
  (if_neg hk).trans (if_pos (by simpa using h))

theorem classifierAction_resetGate {k : Nat} {s : State} (hk : ¬(k < 4352 ∧ absentKey s.ident 0x2101 k = true))
    (h : (s.row 0x2101 k).isSome = true) : classifierAction 6 k s = (aOk, s.updSgate k fun g => { g with latched := 0 }) :=
  (if_neg hk).trans (if_neg (by simpa using Option.isSome_iff_ne_none.1 h))

/-- Settles O29: each write is its action, whose cases are the lemmas above. -/
theorem classifierActions : Obligations.ClassifierActions := by
  unfold Obligations.ClassifierActions
  intro r s0 s hs ha hw hm
  have hr : MayWrite r s := ⟨ha, hw, hm⟩
  have hall : (0xFFFF : Nat) < 263 ∨ (0xFFFF : Nat) = 0xFFFF := .inr rfl
  refine ⟨fun p hp hpp => congrArg Host.Outcome.next ?_, fun p hp hpp => congrArg Host.Outcome.next ?_,
    congrArg Host.Outcome.next ?_,
    fun k hk => ⟨fun h => congrArg Host.Outcome.next ?_, fun h => congrArg Host.Outcome.next ?_⟩,
    fun k hk => ⟨fun hlt hab => congrArg Host.Outcome.next ?_, fun hab h => congrArg Host.Outcome.next ?_,
      fun hab h => congrArg Host.Outcome.next ?_⟩⟩
  · rw [effFlushPort, answerWrite_flush hs hr (.inl hp), classifierAction_flush (.inr hpp), flushPort_one (by omega)]
    rfl
  · rw [effFlushPort, answerWrite_flush hs hr (.inl hp), classifierAction_flush_absent (by omega) hpp]
    rfl
  · rw [effFlushPort, answerWrite_flush hs hr hall, classifierAction_flush (.inl rfl)]
    rfl
  · rw [effUnblockFilter, answerWrite_unblock hs hr hk, classifierAction_unblock h]
    rfl
  · rw [effUnblockFilter, answerWrite_unblock hs hr hk, classifierAction_unblock_noRow h]
    rfl
  · rw [effResetGate, answerWrite_resetGate hs hr hk, classifierAction_resetGate_absent hlt hab]
    rfl
  · rw [effResetGate, answerWrite_resetGate hs hr hk, classifierAction_resetGate_noRow hab h]
    rfl
  · rw [effResetGate, answerWrite_resetGate hs hr hk, classifierAction_resetGate hab h]
    rfl

end Sys2Proof.Machine
end

section
/-!
PROOF. START, STOP, RELOAD, RESET and SAFE (R73 to R75, R83, R473, R496).
-/
namespace Sys2Proof.Machine

/-! ## The write of COMMAND -/

theorem alive_of_served {m : Mode} (h : m ∈ [.hold, .armed, .run, .safe]) : isAlive m = true := by
  revert h; cases m <;> decide

section
variable {r : Requester} {s0 s : State} (hs : s = engineTurn r.path s0) (ha : Accepted r s)
  (hw : bit (rightsOf s r) 2 = true) (hm : s.chip.mode ∈ [.hold, .armed, .run, .safe])
include ha hw hm

theorem mayReach_command : MayReach r s 0x0102 1 commandEntry where
  accepted := ha
  served := engineBusy_eq_false hm
  entry := command_plain _
  present := rfl
  right := hw
  path := rfl
  writable := .inr (.inr rfl)
  armed := rfl
  claim := rfl

variable {n : Nat} (h1 : 1 ≤ n) (h5 : n ≤ 5)
include hs h1 h5

theorem answerWrite_command_allowed (hn : commandAllowed s n = true) :
    answerWrite r 0x0102 1 (.num n) s0 = (command n s).emit (.answer r 0 none) := by
  have hne : ¬(n = 0 ∨ 5 < n) := by omega
  have hrange : commandEntry.rng.ok commandEntry.ty (.num n) = true := by
    show (decide (1 ≤ n) && decide (n ≤ 5)) = true
    simp [h1, h5]
  have hty : commandEntry.ty.encodes (.num n) = true := decide_eq_true (show n < 2 ^ 8 by omega)
  rw [answerWrite_entry hs (mayReach_command ha hw hm) hty (by simpa [stateAllowsWrite, hne] using hn) hrange
    fun h => by cases h]
  rfl

theorem answerWrite_command_conflict (hn : commandAllowed s n = false) :
    answerWrite r 0x0102 1 (.num n) s0 = s.emit (.answer r 6 none) := by
  have hne : ¬(n = 0 ∨ 5 < n) := by omega
  exact answerWrite_conflict hs (mayReach_command ha hw hm) (decide_eq_true (show n < 2 ^ 8 by omega))
    (by simpa [stateAllowsWrite, hne] using hn)

end

/-! ## What each command does -/

theorem cmdStop_armed {s : State} (h : s.chip.mode = .armed) :
    cmdStop s = { s with chip := { s.chip with startPending := false } } := by
  rw [cmdStop, if_neg (by simp [h])]

theorem cmdStop_run {s : State} (h : s.chip.mode = .run) : cmdStop s = transition .armed s := if_pos h

theorem pairLeaveRun_pair (s : State) : (pairLeaveRun s).pair.role = 0 ∧ (pairLeaveRun s).pair.claim = 0 :=
  setRole_pair 0 0 s

/-- A unit that leaves RUN holds no claim (R432). -/
theorem leaveMode_pair {new : Mode} {s : State} (h : s.chip.mode = .run) :
    (leaveMode new s).pair.role = 0 ∧ (leaveMode new s).pair.claim = 0 := by
  have hmode : (ppsState new (interruptCommit s)).chip.mode = .run := by
    rw [mode_of_keeps (m := 0x200000) (ppsState_keeps (.refl _ _) (Sub.of rfl)) rfl,
      mode_of_keeps (m := 0x1000280) (interruptCommit_keeps (.refl _ s) (Sub.of rfl)) rfl, h]
  have hleft : ∃ u, leaveRun (ppsState new (interruptCommit s)) = pairLeaveRun u := ⟨_, if_pos hmode⟩
  obtain ⟨u, hu⟩ := hleft
  have hpair : Keeps 0xe00 (pairLeaveRun u) (leaveMode new s) := by
    unfold leaveMode
    rw [hu]
    exact .ite (stopFor_keeps (.refl _ _) (Sub.of rfl)) (.refl _ _)
  have hsame : (leaveMode new s).pair = (pairLeaveRun u).pair := hpair.same .pair rfl
  rw [hsame]
  exact pairLeaveRun_pair u

/-- From RUN a transition to another state leaves no claim. -/
theorem transition_pair {new : Mode} (hn : new ≠ .run) {s : State} (h : s.chip.mode = .run) :
    (transition new s).pair.role = 0 ∧ (transition new s).pair.claim = 0 := by
  have hsame : (transition new s).pair = (setMode new (leaveMode new s)).pair := (transition_notRun hn s).same .pair rfl
  rw [hsame]
  exact leaveMode_pair h

/-- RELOAD (R75, R80, R83). -/
theorem cmdReload_facts {s t : State} (ht : t = cmdReload s) :
    t.chip.mode = .load ∧ t.chip.prev = s.chip.mode ∧ t.nap.transfers = [] ∧ t.cfg.rw = [] ∧
    t.cfg.loadBy = (if s.rwN 0x0200 9 = 0xFF then .boot else .named (s.rwN 0x0200 9)) := by
  unfold cmdReload at ht
  dsimp only at ht
  generalize hu : ({ s with cfg := { s.cfg with
    loadBy := if s.rwN 0x0200 9 = 0xFF then .boot else .named (s.rwN 0x0200 9), fallbackUsed := false } } : State) = u at ht
  obtain ⟨hmode, hprev, -⟩ := transition_chip .load u
  have htransfers := transition_transfers .load u
  obtain ⟨c, hc⟩ := transition_load_cfg u
  have hsettled : Keeps 0x5000a08 (transition .load u) t := ht ▸ settleMgt_keeps (.refl _ _) (Sub.of rfl)
  obtain ⟨smode, sprev, -⟩ := chip_of_same (hsettled.same .chip rfl)
  have hnap : t.nap = (transition .load u).nap := hsettled.same .nap rfl
  have hcfg : t.cfg = (transition .load u).cfg := hsettled.same .cfg rfl
  rw [hcfg, hc, hnap]
  subst hu
  exact ⟨smode.trans hmode, sprev.trans hprev, htransfers, rfl, rfl⟩

theorem cmdReset_due {s : State} (h : s.chip.resetDue = none) : cmdReset s =
    { checkpoint s with chip := { (checkpoint s).chip with resetDue := some (s.cycle + msCycles 1) } } := by
  rw [cmdReset, h]
  rfl

/-- A state, START_PENDING with it, that refuses a command. -/
def refusesCommand (m : Mode) (startPending : Bool) (n : Nat) : Bool :=
  match n, m with
  | 1, .hold => true | 1, .run => true | 1, .safe => true
  | 2, .hold => true | 2, .safe => true | 2, .armed => !startPending
  | 3, .run => true | 3, .safe => true | 5, .safe => true
  | _, _ => false

theorem commandAllowed_of_refuses {s : State} {n : Nat} (hn : n = 1 ∨ n = 2 ∨ n = 3 ∨ n = 5)
    (h : refusesCommand s.chip.mode s.chip.startPending n = true) :
    s.chip.mode ∈ [.hold, .armed, .run, .safe] ∧ commandAllowed s n = false := by
  unfold commandAllowed
  generalize s.chip.mode = m at h ⊢
  generalize s.chip.startPending = p at h ⊢
  revert h
  rcases hn with rfl | rfl | rfl | rfl <;> cases m <;> cases p <;> decide

/-- The state commands that their state does not allow. -/
theorem answerWrite_refusedCommand {r : Requester} {s0 s : State} (hs : s = engineTurn r.path s0) (ha : Accepted r s)
    (hw : bit (rightsOf s r) 2 = true) {n : Nat} (hn : n = 1 ∨ n = 2 ∨ n = 3 ∨ n = 5)
    (h : refusesCommand s.chip.mode s.chip.startPending n = true) :
    answerWrite r 0x0102 1 (.num n) s0 = s.emit (.answer r 6 none) := by
  obtain ⟨hm, hc⟩ := commandAllowed_of_refuses hn h
  exact answerWrite_command_conflict hs ha hw hm (by omega) (by omega) hc

/-- Settles O12: each command is its write of COMMAND, allowed or refused by the state. -/
theorem stateCommands : Obligations.StateCommands := by
  unfold Obligations.StateCommands
  intro r s0 s hs ha hw
  have hallowed : ∀ n, 1 ≤ n → n ≤ 5 → s.chip.mode ∈ [.hold, .armed, .run, .safe] → commandAllowed s n = true →
      answerWrite r 0x0102 1 (.num n) s0 = (command n s).emit (.answer r 0 none) :=
    fun n h1 h5 hm => answerWrite_command_allowed hs ha hw hm h1 h5
  have hrefused : ∀ n, n = 1 ∨ n = 2 ∨ n = 3 ∨ n = 5 → refusesCommand s.chip.mode s.chip.startPending n = true →
      answerWrite r 0x0102 1 (.num n) s0 = s.emit (.answer r 6 none) :=
    fun n hn h => answerWrite_refusedCommand hs ha hw hn h
  clear hs
  refine ⟨fun hm => ?_, fun hm hp => ?_, fun hm => ?_, fun hm => ?_, fun hm hd cp hcp => ?_, fun hm => ?_, ?_⟩
  · exact congrArg Host.Outcome.next (hallowed 1 (by decide) (by decide) (by simp [hm]) (by simp [commandAllowed, hm]))
  · refine congrArg Host.Outcome.next
      ((hallowed 2 (by decide) (by decide) (by simp [hm]) (by simp [commandAllowed, hm, hp])).trans ?_)
    show (cmdStop s).emit _ = _
    rw [cmdStop_armed hm]
    rfl
  · refine ⟨_, congrArg Host.Outcome.next
      (hallowed 2 (by decide) (by decide) (by simp [hm]) (by simp [commandAllowed, hm])), ?_⟩
    show _ ∧ _
    have hstop : command 2 s = transition .armed s := cmdStop_run hm
    obtain ⟨hmode, hprev, -, -, -, hstart, -⟩ := transition_chip .armed s
    obtain ⟨hrole, hclaim⟩ := transition_pair (new := .armed) (by decide) hm
    rw [hstop]
    exact ⟨hmode, hprev.trans hm, hstart, hrole, hclaim, rfl⟩
  · refine ⟨_, congrArg Host.Outcome.next (hallowed 3 (by decide) (by decide) ?_ ?_), ?_⟩
    · rcases hm with hm | hm <;> simp [hm]
    · rcases hm with hm | hm <;> simp [commandAllowed, hm]
    · obtain ⟨hmode, hprev, htransfers, hrw, hload⟩ := cmdReload_facts (s := s) rfl
      exact ⟨hmode, hprev, htransfers, hrw, hload, rfl⟩
  · refine congrArg Host.Outcome.next ((hallowed 4 (by decide) (by decide) hm ?_).trans ?_)
    · generalize hx : s.chip.mode = m at hm
      revert hm
      cases m <;> simp [commandAllowed, hx, Wr.allows]
    · show (cmdReset s).emit _ = _
      rw [cmdReset_due hd]
      subst hcp
      rfl
  · refine ⟨_, congrArg Host.Outcome.next (hallowed 5 (by decide) (by decide) (mem_served_of_har hm) ?_), ?_⟩
    · generalize hx : s.chip.mode = m at hm
      revert hm
      cases m <;> simp [commandAllowed, hx, Wr.allows]
    · obtain ⟨hmode, hprev, hreason, hdetail, hstart, -, -, hr, hd, htime, hentries⟩ := enterSafe_facts 0 0 (s := s) rfl
      exact ⟨hmode, hprev, hreason, hdetail, hstart, hr, hd, htime, hentries, rfl⟩
  · intro c hc h
    simp only [List.mem_cons, List.not_mem_nil, or_false] at hc
    generalize hm : s.chip.mode = m at h
    rcases hc with rfl | rfl | rfl | rfl
    · exact congrArg Host.Outcome.next (hrefused 1 (.inl rfl) (by rw [hm]; revert h; cases m <;> simp [refusesCommand]))
    · exact congrArg Host.Outcome.next
        (hrefused 2 (.inr (.inl rfl)) (by rw [hm]; revert h; cases m <;> simp [refusesCommand]))
    · exact congrArg Host.Outcome.next
        (hrefused 3 (.inr (.inr (.inl rfl))) (by rw [hm]; revert h; cases m <;> simp [refusesCommand]))
    · exact congrArg Host.Outcome.next
        (hrefused 5 (.inr (.inr (.inr rfl))) (by rw [hm]; revert h; cases m <;> simp [refusesCommand]))

end Sys2Proof.Machine
end

section
/-!
PROOF. COMMIT, DISCARD and CANCEL (R75, R87, R89, R90, R92).
-/
namespace Sys2Proof.Machine

/-! ## The write of ACTION -/

section
variable {r : Requester} {s0 s : State} (hs : s = engineTurn r.path s0) (ha : Accepted r s)
  (hw : bit (rightsOf s r) 2 = true) (hm : s.chip.mode ∈ [.hold, .armed, .run])
include hs ha hw hm

theorem answerWrite_commit {n : Nat} (h1 : 1 ≤ n) (h3 : n ≤ 3) : answerWrite r 0x0201 4 (.num n) s0 =
    (commitAction n s).2.emit (.answer r (commitAction n s).1 none) := by
  have hreach : MayReach r s 0x0201 4 commitEntry :=
    ⟨ha, engineBusy_eq_false (mem_served_of_har hm), commit_plain _, rfl, hw, rfl, .inr (.inr rfl), rfl, rfl⟩
  have hty : commitEntry.ty.encodes (.num n) = true := decide_eq_true (show n < 2 ^ 8 by omega)
  have hstate : stateAllowsWrite s 0x0201 commitEntry (some (.num n)) = true := by
    rw [stateAllowsWrite_entry (by decide)]
    exact har_allows hm
  have hrange : commitEntry.rng.ok commitEntry.ty (.num n) = true := by
    show (decide (1 ≤ n) && decide (n ≤ 3)) = true
    simp [h1, h3]
  rw [answerWrite_entry hs hreach hty hstate hrange fun h => by cases h]
  rfl

end

/-! ## The actions -/

theorem commitRuns_iff (s : State) : commitRuns s = true ↔ s.cfg.commit.status ∈ [1, 2, 3, 4, 5] := by
  simp only [commitRuns, Bool.and_eq_true, decide_eq_true_eq, List.mem_cons, List.not_mem_nil, or_false]
  omega

theorem commitAction_busy {s : State} (h : s.cfg.commit.status ∈ [1, 2, 3, 4, 5] ∨ s.cfg.older.isSome = true) :
    commitAction 1 s = (aBusy, s) := by
  have hb : commitBusy s = true := by
    rw [commitBusy, Bool.or_eq_true, commitRuns_iff]
    exact h
  exact if_pos hb

theorem commitAction_commit {s : State} (h : s.cfg.commit.status ∉ [1, 2, 3, 4, 5]) (ho : s.cfg.older = none) :
    commitAction 1 s = (aOk, cmdCommit s) := by
  have hb : commitBusy s = false := by
    rw [commitBusy, ho, Option.isSome_none, Bool.or_false, Bool.eq_false_iff]
    exact fun hr => h ((commitRuns_iff s).1 hr)
  exact if_neg (by simp [hb])

/-- In HOLD the target is the bank that LOAD selected, an unsealed one, or the one of lower GENERATION (R90). -/
theorem commitTarget_hold {s : State} (h : s.chip.mode = .hold) :
    (∀ b, s.cfg.lastBank = some b → commitTarget s = b) ∧
    (s.cfg.lastBank = none →
      ((s.bank 0).sealed = false → commitTarget s = 0) ∧
      ((s.bank 0).sealed = true → (s.bank 1).sealed = false → commitTarget s = 1) ∧
      ((s.bank 0).sealed = true → (s.bank 1).sealed = true →
        commitTarget s = if (s.bank 1).genCopy < (s.bank 0).genCopy then 1 else 0)) := by
  unfold commitTarget
  rw [if_pos h]
  refine ⟨fun b hb => by rw [hb], fun hb => ?_⟩
  rw [hb]
  exact ⟨fun h0 => by simp [h0], fun h0 h1 => by simp [h0, h1], fun h0 h1 => by simp [h0, h1]⟩

theorem commitTarget_running {s : State} (h : s.chip.mode ≠ .hold) : commitTarget s = 1 - s.cfg.runningBank := if_neg h

/-- The new GENERATION is one above the higher sealed one (R90). -/
theorem commitGeneration_facts (s : State) :
    (∀ k, k < 2 → (s.bank k).sealed = true → (s.bank k).genCopy < commitGeneration s) ∧
    (commitGeneration s = 1 ∨ ∃ k, k < 2 ∧ (s.bank k).sealed = true ∧ commitGeneration s = (s.bank k).genCopy + 1) ∧
    ((s.bank 0).sealed = false → (s.bank 1).sealed = false → commitGeneration s = 1) := by
  unfold commitGeneration
  dsimp only
  refine ⟨fun k hk hsealed => ?_, ?_, fun h0 h1 => by simp [h0, h1]⟩
  · obtain rfl | rfl : k = 0 ∨ k = 1 := by omega
    · simp only [hsealed, if_true]
      omega
    · simp only [hsealed, if_true]
      omega
  · rcases max_choice (if (s.bank 0).sealed then (s.bank 0).genCopy else 0)
      (if (s.bank 1).sealed then (s.bank 1).genCopy else 0) with h | h <;> rw [h]
    · cases h0 : (s.bank 0).sealed with
      | false => exact .inl rfl
      | true => exact .inr ⟨0, by decide, h0, rfl⟩
    · cases h1 : (s.bank 1).sealed with
      | false => exact .inl rfl
      | true => exact .inr ⟨1, by decide, h1, rfl⟩

theorem commitAction_cancel {s : State} (hm : s.chip.mode ∈ [.armed, .run]) (h : s.cfg.commit.status = 5) :
    commitAction 3 s = (aOk, cmdCancel s) := by
  have hactive : isActive s.chip.mode = true := by
    generalize s.chip.mode = m at hm
    revert hm
    cases m <;> decide
  exact if_pos (by simp [cancelAllowed, hactive, h])

theorem commitAction_cancel_conflict {s : State} (h : s.chip.mode = .hold ∨ s.cfg.commit.status ≠ 5) :
    commitAction 3 s = (aStateConflict, s) := by
  refine if_neg ?_
  rcases h with h | h
  · simp [cancelAllowed, h, isActive]
  · simp [cancelAllowed, h]

/-- A commit that ends without cutting over (R87, R92), its answer included. -/
theorem endCommit_emit (reason detail unit : Nat) (e : OutEvent) (s : State) {t : State}
    (ht : t = (endCommit reason detail unit s).emit e) :
    t.cfg = { s.cfg with commit := { s.cfg.commit with
      status := 7, reason := reason, detail := detail, unit := unit, built := [], next := {} } } ∧
    t.out = e :: s.out ∧ (190, s.cycle) ∈ t.intc.pulses ∧ Only [.out, .cfg, .cnt, .intc] s t := by
  subst ht
  have hk : Keeps 0x1000280 s (endCommit reason detail unit s) := endCommit_keeps (.refl _ s) (Sub.of rfl)
  have hout : (endCommit reason detail unit s).out = s.out := hk.same .out rfl
  refine ⟨pulse_cfg _ _, congrArg (e :: ·) hout, mem_pulses_pulse (lineExists_low _ (by decide) (by decide)), ?_⟩
  exact (State.emit_keeps (m := maskOf [.out, .cfg, .cnt, .intc]) (endCommit_keeps (.refl _ s) (Sub.of rfl)) (Sub.of rfl)).only

/-- Settles O20: each write is its action, whose cases are the lemmas above. -/
theorem commitActions : Obligations.CommitActions := by
  unfold Obligations.CommitActions
  intro r s0 s hs ha hw hm
  refine ⟨fun h => congrArg Host.Outcome.next ?_, fun h ho => ?_, congrArg Host.Outcome.next ?_, fun hma h => ?_,
    fun h => congrArg Host.Outcome.next ?_⟩
  · rw [effCommit, answerWrite_commit hs ha hw hm (by decide) (by decide), commitAction_busy h]
    rfl
  · obtain ⟨hgen, hgen', hgen1⟩ := commitGeneration_facts s
    refine ⟨commitTarget s, commitGeneration s, congrArg Host.Outcome.next ?_, commitTarget_running, commitTarget_hold,
      hgen, hgen', hgen1⟩
    rw [effCommit, answerWrite_commit hs ha hw hm (by decide) (by decide), commitAction_commit h ho]
    rfl
  · rw [effDiscard, answerWrite_commit hs ha hw hm (by decide) (by decide)]
    rfl
  · refine ⟨_, rfl, endCommit_emit 0x0502 0 0xFFFFFFFF (.answer r 0 none) s ?_⟩
    rw [effCancel, answerWrite_commit hs ha hw hm (by decide) (by decide), commitAction_cancel hma h]
    rfl
  · rw [effCancel, answerWrite_commit hs ha hw hm (by decide) (by decide), commitAction_cancel_conflict h]
    rfl

end Sys2Proof.Machine
end

section
/-!
PROOF. Reads of IMAGE_A and IMAGE_B (R85): a sealed bank is read up to the IMAGE_LENGTH of its header.
-/
namespace Sys2Proof.Machine

/-- A device in HOLD whose bank A is sealed and holds one byte, beyond the IMAGE_LENGTH 0 that its header reads as. -/
def shortHeaderSealed : State :=
  { State.reset with
    chip := { State.reset.chip with mode := .hold }
    mram := { State.reset.mram with banks := [{ sealed := true, image := [1] }] } }

/-- PF0 over its mailbox, under local trust. -/
def localRequester : Requester := { path := .mailbox 0, key := 0 }

theorem shortHeaderSealed_accepted : Accepted localRequester shortHeaderSealed := ⟨rfl, rfl, rfl⟩

theorem shortHeaderSealed_image : (shortHeaderSealed.bank 0).image = [1] := rfl

/-- The read gives the IMAGE_LENGTH bytes of the header, here none. -/
theorem shortHeaderSealed_read :
    exec (.imageRead localRequester 0) shortHeaderSealed =
      .next { shortHeaderSealed with out := .answer localRequester 0 (some (.oct [])) :: shortHeaderSealed.out } := by
  rfl

/-- Refutes O19: a read of a sealed bank returns as many bytes as its header says, which need not be those it holds. -/
theorem not_imageBanks : ¬ Obligations.ImageBanks := by
  unfold Obligations.ImageBanks
  intro h
  have hread := (h localRequester 0 shortHeaderSealed shortHeaderSealed rfl shortHeaderSealed_accepted (by decide)).2
    (.head _) rfl
  have hanswer := hread.2.2 rfl rfl
  rw [shortHeaderSealed_read, shortHeaderSealed_image] at hanswer
  have hbytes := congrArg (fun t : State => t.out.head?) (Host.Outcome.next.inj hanswer)
  revert hbytes
  decide

end Sys2Proof.Machine
end

section
/-!
PROOF. A write to KEY (R60 to R64).
-/
namespace Sys2Proof.Machine

/-! ## Key records -/

theorem State.updKey_keyRec_other (s : State) {k j : Nat} (f : KeyRec → KeyRec) (hk : 1 ≤ k) (hj : 1 ≤ j) (h : j ≠ k) :
    (s.updKey k f).keyRec j = s.keyRec j :=
  updAt_getD_other s.mram.keys (i := k - 1) (j := j - 1) f {} (by omega)

theorem State.updKey_keyRec (s : State) {k : Nat} (f : KeyRec → KeyRec) (h : k - 1 < s.mram.keys.length) :
    (s.updKey k f).keyRec k = f (s.keyRec k) :=
  updAt_getD_same s.mram.keys (k - 1) f {} h

/-- The key's record after a write to KEY. -/
def newKey (b : Bytes) (x : KeyRec) : KeyRec := { x with key := b, written := true, rx := 0, tx := 0 }

theorem writeKey_keyRec (k : Nat) (b : Bytes) (s : State) (j : Nat) :
    (writeKey k b s).keyRec j = (s.updKey k (newKey b)).keyRec j := rfl

/-- RX_REPLAY and TX_REPLAY are zero, ENABLED, RIGHTS and PATHS as before (R63). -/
theorem writeKey_record (k : Nat) (b : Bytes) (s : State) {x : KeyRec} (hx : x = (writeKey k b s).keyRec k) :
    x.rx = 0 ∧ x.tx = 0 ∧ x.enabled = (s.keyRec k).enabled ∧ x.rights = (s.keyRec k).rights ∧
    x.paths = (s.keyRec k).paths := by
  rw [writeKey_keyRec] at hx
  by_cases hl : k - 1 < s.mram.keys.length
  · rw [State.updKey_keyRec s _ hl] at hx
    subst hx
    exact ⟨rfl, rfl, rfl, rfl, rfl⟩
  · have hs : s.keyRec k = {} := getD_of_length_le ({} : KeyRec) (Nat.not_lt.1 hl)
    have hu : (s.updKey k (newKey b)).keyRec k = {} :=
      updAt_getD_of_length_le (newKey b) ({} : KeyRec) (Nat.not_lt.1 hl)
    rw [hu] at hx
    rw [hs, hx]
    exact ⟨rfl, rfl, rfl, rfl, rfl⟩

/-! ## The write -/

section
variable {r : Requester} {k : Nat} {b : Bytes} {s0 s : State} (hs : s = engineTurn r.path s0) (ha : Accepted r s)
  (hw : bit (rightsOf s r) 3 = true) (hp : r.path = .mailbox 0 ∨ ∃ m, r.path = .mgt m) (hk : k < 16)
  (hm : s.chip.mode ∈ [.hold, .armed, .run])
include ha hw hp hk hm

theorem mayReach_key : MayReach r s (0x0410 + k) 1 keyEntry where
  accepted := ha
  served := engineBusy_eq_false (mem_served_of_har hm)
  entry := key_plain _ hk
  present := by interval_cases k <;> rfl
  right := by
    have harea : areaRight (0x0410 + k) = 3 := by interval_cases k <;> rfl
    rwa [harea]
  path := by
    rcases hp with hp | ⟨m, hp⟩ <;> simp [keyPathOk, hp]
  writable := .inr (.inr rfl)
  armed := by simp [armRefuses]
  claim := by simp [claimRefuses]

include hs

theorem answerWrite_key (hl : b.length = 32) (hb : b.any (fun x => x != 0) = true) :
    answerWrite r (0x0410 + k) 1 (.oct b) s0 = (writeKey (k + 1) b s).emit (.answer r 0 none) := by
  have hty : keyEntry.ty.encodes (.oct b) = true := by simp [keyEntry, Ty.encodes, hl]
  have hstate : stateAllowsWrite s (0x0410 + k) keyEntry (some (.oct b)) = true := by
    rw [stateAllowsWrite_entry (by omega)]
    exact har_allows hm
  rw [answerWrite_entry hs (mayReach_key ha hw hp hk hm) hty hstate hb (fun h => by cases h), performEntry_key hk]
  rfl

end

/-! ## A request under the new key -/

section
variable {q : NapReq} {k : Nat} {t : State} (hl : 48 ≤ pduLength q.pdu) (hb : pduLength q.pdu ≤ q.pdu.length)
  (hsub : beAt q.pdu 0 1 = 1) (hver : beAt q.pdu 1 1 = 1) (hkey : pduKey q.pdu = k) (hk : k ≠ 0)
  (hp : keyOnPath t (pduReq q) = true) (hserved : pathServed t q.path = true)
include hl hb hsub hver hkey hk hp hserved

/-- R60 up to the TAG. -/
theorem napRun_tagged : napRun q t =
    if napTag (t.keyRec k).key (pduSigned q.pdu) ≠ pduTag q.pdu then napDiscard q 4 t
    else if pduReplay q.pdu ≤ (t.keyRec k).rx then napDiscard q 5 t
    else if flagResponse q.pdu then napDiscard q 2 t
    else napEvaluate q ((setRxReplay k (pduReplay q.pdu) t).bump 0x0401 1) := by
  have hformat : ¬(q.pdu.length < 48 ∨ beAt q.pdu 0 1 ≠ 1 ∨ beAt q.pdu 1 1 ≠ 1) := by
    rintro (h | h | h)
    · omega
    · exact h hsub
    · exact h hver
  have hlength : ¬(pduLength q.pdu < 48 ∨ q.pdu.length < pduLength q.pdu) := by omega
  rw [napRun, if_neg hformat, if_neg hlength, napAccept, hkey, if_neg hk, if_neg (by simp [hp, hserved])]

end

/-- Settles O18: the write is `writeKey`, and a request under the key meets its record in R60. -/
theorem keyWritten : Obligations.KeyWritten := by
  unfold Obligations.KeyWritten
  intro r k b s0 s hs ha hw hp h1 h16 hm hl hb c hc
  have hwrite : exec c s0 = .next ((writeKey k b s).emit (.answer r 0 none)) := by
    have hentry := answerWrite_key hs ha hw hp (k := k - 1) (by omega) hm hl hb
    rw [Nat.sub_add_cancel h1] at hentry
    simp only [List.mem_cons, List.not_mem_nil, or_false] at hc
    rcases hc with rfl | rfl
    · refine congrArg Host.Outcome.next ?_
      rw [effKeyWrite, if_pos ⟨h1, h16⟩, hentry]
    · exact congrArg Host.Outcome.next hentry
  refine ⟨hwrite, fun t ht => ?_⟩
  obtain rfl := Host.Outcome.next.inj (hwrite.symm.trans ht)
  have hrec : ∀ j, ((writeKey k b s).emit (.answer r 0 none)).keyRec j = (writeKey k b s).keyRec j := fun _ => rfl
  obtain ⟨hrx, htx, henabled, hrights, hpaths⟩ := writeKey_record k b s rfl
  refine ⟨fun hlen => ?_, hrx, htx, henabled, hrights, hpaths, fun j hj hne => State.updKey_keyRec_other s (newKey b) h1 hj hne,
    rfl, rfl, fun q hl hle hsub hver hkey hon hserved => ⟨fun htag => ?_, fun htag hreplay hflag => ?_⟩⟩
  · rw [hrec, writeKey_keyRec, State.updKey_keyRec s _ (by omega)]
    exact ⟨rfl, rfl⟩
  · rw [napRun_tagged hl hle hsub hver hkey (by omega) hon hserved, if_pos htag]
  · rw [napRun_tagged hl hle hsub hver hkey (by omega) hon hserved, if_neg (not_not.2 htag), hrec, hrx,
      if_neg (by omega), if_neg (by simp [hflag])]

end Sys2Proof.Machine
end

section
/-!
PROOF. Writes of entries, selection writes and table actions (R41 to R44, R49, R50, R80, R89).
-/
namespace Sys2Proof.Machine

/-! ## Any write -/

section
variable {r : Requester} {s0 s : State} {idx sub : Nat} {v : Val} {o : ObjSpec} {e : EntrySpec} {sel : Bool}
  (hs : s = engineTurn r.path s0) (ha : Accepted r s) (h : admitWrite s r idx sub (.val v) = .ok (o, e, sel))
  (hv : e.ty.encodes v = true)
include hs ha h hv

theorem answerWrite_outOfRange (hsel : sel = false) (hg : e.rng.ok e.ty v = false) :
    answerWrite r idx sub v s0 = s.emit (.answer r 7 none) := by
  rw [answerWrite_turn hs ha]
  simp [objWrite, h, Datum.value, hv, hsel, hg, aOutOfRange]

theorem answerWrite_busy (hg : (!sel && !e.rng.ok e.ty v) = false)
    (hb : (commitRuns s && (e.acc == .rws || stagedAction o e v)) = true) :
    answerWrite r idx sub v s0 = s.emit (.answer r 9 none) := by
  rw [answerWrite_turn hs ha]
  simp [objWrite, h, Datum.value, hv, hg, hb, aBusy]

end

/-! ## Two entries -/

/-- THERMAL_ALARM (R476). -/
def thermalEntry : EntrySpec := Cat.rws 1 Cat.u8 95 (.rng 60 105)

/-- RELOAD_BANK (R83). -/
def reloadEntry : EntrySpec := Cat.rw 9 Cat.u8 0xFF (.oneOf [0, 1, 0xFF]) .holdArmed

theorem thermal_plain (id : Ident) : PlainEntry id 0x8100 1 thermalEntry := ⟨_, rfl, rfl, rfl⟩

theorem reload_plain (id : Ident) : PlainEntry id 0x0200 9 reloadEntry := ⟨_, rfl, rfl, rfl⟩

/-- HOLD and ARMED (R83). -/
theorem holdArmed_allows {m : Mode} (h : m ∈ [.hold, .armed]) : Wr.holdArmed.allows m = true := by
  revert h; cases m <;> decide

theorem mem_served_of_holdArmed {m : Mode} (h : m ∈ [.hold, .armed]) : m ∈ [Mode.hold, .armed, .run, .safe] := by
  revert h; cases m <;> decide

section
variable {r : Requester} {s0 s : State} {n : Nat} (hs : s = engineTurn r.path s0) (ha : Accepted r s)
include hs ha

/-- THERMAL_ALARM is staged (R41, R89). -/
theorem answerWrite_thermal (hw : bit (rightsOf s r) 1 = true) (h1 : 60 ≤ n) (h2 : n ≤ 105)
    (hm : s.chip.mode ∈ [.hold, .armed, .run]) (hc : commitRuns s = false) :
    answerWrite r 0x8100 1 (.num n) s0 =
      { s with
        cfg := { s.cfg with shadow := imgPut s.ident s.cfg.shadow 0x8100 1 (.num n) }
        out := .answer r 0 none :: s.out } := by
  have hreach : MayReach r s 0x8100 1 thermalEntry :=
    ⟨ha, engineBusy_eq_false (mem_served_of_har hm), thermal_plain _, rfl, hw, rfl, .inr (.inl rfl), rfl, rfl⟩
  have hstate : stateAllowsWrite s 0x8100 thermalEntry (some (.num n)) = true := by
    rw [stateAllowsWrite_entry (by decide)]
    exact har_allows hm
  have hty : thermalEntry.ty.encodes (.num n) = true := decide_eq_true (show n < 2 ^ 8 by omega)
  have hrange : thermalEntry.rng.ok thermalEntry.ty (.num n) = true := by
    show (decide (60 ≤ n) && decide (n ≤ 105)) = true
    simp [h1, h2]
  rw [answerWrite_entry hs hreach hty hstate hrange fun _ => hc]
  rfl

/-- RELOAD_BANK takes effect at once (R83). -/
theorem answerWrite_reloadBank (hw : bit (rightsOf s r) 2 = true) (hn : n = 0 ∨ n = 1 ∨ n = 0xFF)
    (hm : s.chip.mode ∈ [.hold, .armed]) :
    answerWrite r 0x0200 9 (.num n) s0 = (s.rwPut 0x0200 9 (.num n)).emit (.answer r 0 none) := by
  have hreach : MayReach r s 0x0200 9 reloadEntry :=
    ⟨ha, engineBusy_eq_false (mem_served_of_holdArmed hm), reload_plain _, rfl, hw, rfl, .inl rfl, rfl, rfl⟩
  have hstate : stateAllowsWrite s 0x0200 reloadEntry (some (.num n)) = true := by
    rw [stateAllowsWrite_entry (by decide)]
    exact holdArmed_allows hm
  have hty : reloadEntry.ty.encodes (.num n) = true := decide_eq_true (show n < 2 ^ 8 by omega)
  have hrange : reloadEntry.rng.ok reloadEntry.ty (.num n) = true := by
    rcases hn with rfl | rfl | rfl <;> rfl
  rw [answerWrite_entry hs hreach hty hstate hrange fun h => by cases h]
  rfl

end

/-! ## Tables -/

/-- KEY of a table (R42). -/
theorem entry_key {o : ObjSpec} {t : TableSpec} {e : EntrySpec} (ht : o.table = some t) (he : o.entry 1 = some e) :
    e = { sub := 1, ty := t.keyTy, acc := .rw, wr := .har } := by
  simpa [ObjSpec.entry, ht, TableSpec.entry, eq_comm] using he

/-- ACTION of a table (R44). -/
theorem entry_action {o : ObjSpec} {t : TableSpec} {e : EntrySpec} (ht : o.table = some t) (he : o.entry 0x10 = some e) :
    e = { sub := 0x10, ty := .u 1, acc := .wo, rng := .rng 1 4, wr := .har } := by
  simpa [ObjSpec.entry, ht, TableSpec.entry, eq_comm] using he

/-- A selection write of KEY changes the selection of the requester's context and nothing else (R43, R44). -/
theorem answerWrite_selectKey {r : Requester} {s0 s : State} {idx : Nat} {v : Val} {o : ObjSpec} {t : TableSpec}
    {e : EntrySpec} (hs : s = engineTurn r.path s0) (ha : Accepted r s)
    (h : admitWrite s r idx 1 (.val v) = .ok (o, e, true)) (ht : o.table = some t) (hv : e.ty.encodes v = true) :
    answerWrite r idx 1 v s0 =
      (putCtx r idx (selectKey t idx (valKey v) (tblCtx s r t idx)) s).emit (.answer r 0 none) := by
  have he := entry_key ht (admitWrite_ok h).2
  have hfree : (commitRuns s && (e.acc == .rws || stagedAction o e v)) = false := by simp [he, stagedAction, ht]
  rw [answerWrite_performs hs ha h hv rfl hfree]
  simp only [performWrite, ht, he]
  rfl

/-! ## Actions -/

section
variable {r : Requester} {s0 s : State} {idx : Nat} {o : ObjSpec} {t : TableSpec} {e : EntrySpec}
  (hs : s = engineTurn r.path s0) (ha : Accepted r s) (ht : o.table = some t)
include hs ha ht

/-- An admitted write of ACTION that no commit holds up is the action. -/
theorem answerWrite_action {n : Nat} {sel : Bool} (h : admitWrite s r idx 0x10 (.val (.num n)) = .ok (o, e, sel))
    (h1 : 1 ≤ n) (h4 : n ≤ 4) (hfree : commitRuns s = false ∨ n = 1 ∨ n = 4) : answerWrite r idx 0x10 (.num n) s0 =
      (tableAction r t idx n s).2.emit (.answer r (tableAction r t idx n s).1 none) := by
  have he := entry_action ht (admitWrite_ok h).2
  have hty : e.ty.encodes (.num n) = true := by
    rw [he]
    exact decide_eq_true (show n < 2 ^ 8 by omega)
  have hrange : e.rng.ok e.ty (.num n) = true := by
    rw [he]
    show (decide (1 ≤ n) && decide (n ≤ 4)) = true
    simp [h1, h4]
  have hbusy : (commitRuns s && (e.acc == .rws || stagedAction o e (.num n))) = false := by
    rcases hfree with h | rfl | rfl
    · simp [h]
    · simp [he, stagedAction, ht, Val.n]
    · simp [he, stagedAction, ht, Val.n]
  rw [answerWrite_performs hs ha h hty (by simp [hrange]) hbusy]
  simp only [performWrite, ht, he]
  rfl

end

section
variable {r : Requester} {s : State} {idx : Nat} {t : TableSpec} {x : TblCtx} (hx : x = tblCtx s r t idx)
include hx

theorem tableAction_read (hk : keyOk t idx x.key = true) (hp : absentKey s.ident idx x.key = false)
    (hrow : hasRow s t idx x.key = true) : tableAction r t idx 1 s =
      (0, putCtx r idx { x with fields := tableRow s t idx x.key, written := allFields, result := 0 } s) := by
  simp [tableAction, ← hx, tableRead, hk, hp, hrow, noteAction, aOk]

theorem tableAction_read_noRow (hk : keyOk t idx x.key = true) (hp : absentKey s.ident idx x.key = false)
    (hrow : hasRow s t idx x.key = false) : tableAction r t idx 1 s = (1, putCtx r idx { x with result := 1 } s) := by
  simp [tableAction, ← hx, tableRead, hk, hp, hrow, noteAction, aNoObject]

theorem tableAction_next {k : Nat} (hn : nextKey s t idx x.key = some k) : tableAction r t idx 4 s =
    (0, putCtx r idx { key := k, fields := tableRow s t idx k, written := allFields, result := 0 } s) := by
  simp [tableAction, ← hx, tableNext, hn, noteAction, aOk]

theorem tableAction_next_none (hn : nextKey s t idx x.key = none) :
    tableAction r t idx 4 s = (1, putCtx r idx { x with result := 1 } s) := by
  simp [tableAction, ← hx, tableNext, hn, noteAction, aNoObject]

variable (hkind : t.kind = .staged) (hp : absentKey s.ident idx x.key = false) (hk : keyOk t idx x.key = true)
include hkind hp hk

theorem tableAction_write (hf : fieldsOk t.fields (writtenRow t x.fields) = true)
    (hrow : rowOk idx (writtenRow t x.fields) = true)
    (hroom : (imgRow s.cfg.shadow idx x.key).isSome = true ∨
      (tableFull t s.cfg.shadow idx x.key = false ∧ bucketFull s idx x.key = false)) :
    tableAction r t idx 2 s = (0, putCtx r idx { x with result := 0 }
      (withShadow (imgPutRow s.cfg.shadow idx x.key (writtenRow t x.fields)) s)) := by
  have hfull : ((imgRow s.cfg.shadow idx x.key).isNone &&
      (tableFull t s.cfg.shadow idx x.key || bucketFull s idx x.key)) = false := by
    rcases hroom with h | ⟨h1, h2⟩
    · simp [Option.isNone_eq_false_iff.2 h]
    · simp [h1, h2]
  simp only [tableAction, ← hx, tableWrite, hkind, hk, hf, hrow, hp, hfull]
  rfl

theorem tableAction_delete (hrow : (imgRow s.cfg.shadow idx x.key).isSome = true) : tableAction r t idx 3 s =
    (0, putCtx r idx { x with result := 0 } (withShadow (imgDelRow s.cfg.shadow idx x.key) s)) := by
  simp only [tableAction, ← hx, tableDelete, hkind, hk, hp, Option.isNone_eq_false_iff.2 hrow]
  rfl

theorem tableAction_delete_noRow (hrow : (imgRow s.cfg.shadow idx x.key).isSome = false) :
    tableAction r t idx 3 s = (1, putCtx r idx { x with result := 1 } s) := by
  have hnone : (imgRow s.cfg.shadow idx x.key).isNone = true := by simpa using hrow
  simp only [tableAction, ← hx, tableDelete, hkind, hk, hp, hnone]
  rfl

end

/-- Settles O17: an admitted action is `tableAction`, whose cases are the lemmas above. -/
theorem tableActions : Obligations.TableActions := by
  unfold Obligations.TableActions
  intro r idx o t e s0 s x hs ha ht hkind hx
  refine ⟨fun h hk hp => ⟨fun hrow => congrArg Host.Outcome.next ?_, fun hrow => congrArg Host.Outcome.next ?_⟩,
    fun h => ⟨fun k hn => congrArg Host.Outcome.next ?_, fun hn => congrArg Host.Outcome.next ?_⟩,
    fun hc hp hk => ⟨fun h hf hr hroom => congrArg Host.Outcome.next ?_,
      fun h => ⟨fun hrow => congrArg Host.Outcome.next ?_, fun hrow => congrArg Host.Outcome.next ?_⟩⟩⟩
  · rw [effRead, answerWrite_action hs ha ht h (by decide) (by decide) (.inr (.inl rfl)), tableAction_read hx hk hp hrow]
  · rw [effRead, answerWrite_action hs ha ht h (by decide) (by decide) (.inr (.inl rfl)),
      tableAction_read_noRow hx hk hp hrow]
  · rw [effNext, answerWrite_action hs ha ht h (by decide) (by decide) (.inr (.inr rfl)), tableAction_next hx hn]
  · rw [effNext, answerWrite_action hs ha ht h (by decide) (by decide) (.inr (.inr rfl)), tableAction_next_none hx hn]
  · rw [effWrite, answerWrite_action hs ha ht h (by decide) (by decide) (.inl hc),
      tableAction_write hx hkind hp hk hf hr hroom]
  · rw [effDelete, answerWrite_action hs ha ht h (by decide) (by decide) (.inl hc),
      tableAction_delete hx hkind hp hk hrow]
  · rw [effDelete, answerWrite_action hs ha ht h (by decide) (by decide) (.inl hc),
      tableAction_delete_noRow hx hkind hp hk hrow]

/-! ## The statement on entries -/

/-- Settles O16: a write is refused, held up or performed by `answerWrite`, which each of the other commands calls. -/
theorem entryWrites : Obligations.EntryWrites := by
  unfold Obligations.EntryWrites
  refine ⟨fun r s0 s hs ha => ⟨fun idx sub v c hc => ?_, fun n hw h1 h2 hm hcommit => ?_, fun n hw hn hm => ?_,
    fun idx v o t e h ht hv => ?_⟩, fun r s => ⟨fun x hx => ?_, fun idx x hx => ?_, fun k x hx => ?_, fun k b h1 h16 => ?_,
    fun k b hk => ?_, fun f d v hd => ?_, fun b i hb hi x hx => ?_⟩⟩
  · have hexec : exec c s0 = .next (answerWrite r idx sub v s0) := by
      simp only [List.mem_cons, List.not_mem_nil, or_false] at hc
      rcases hc with rfl | rfl <;> rfl
    rw [hexec]
    refine ⟨fun code h => congrArg Host.Outcome.next (answerWrite_refused hs ha h), fun o e sel h hv =>
      ⟨fun hsel hg => congrArg Host.Outcome.next (answerWrite_outOfRange hs ha h hv hsel hg), fun hg => ?_⟩⟩
    have hrange : (!sel && !e.rng.ok e.ty v) = false := by rcases hg with hg | hg <;> simp [hg]
    exact ⟨fun hb => congrArg Host.Outcome.next (answerWrite_busy hs ha h hv hrange hb),
      fun hb => congrArg Host.Outcome.next (answerWrite_performs hs ha h hv hrange hb)⟩
  · exact congrArg Host.Outcome.next (answerWrite_thermal hs ha hw h1 h2 hm hcommit)
  · exact congrArg Host.Outcome.next (answerWrite_reloadBank hs ha hw hn hm)
  · exact congrArg Host.Outcome.next (answerWrite_selectKey hs ha h ht hv)
  · simp only [List.mem_cons, List.not_mem_nil, or_false] at hx
    rcases hx with rfl | rfl | rfl | rfl | rfl | rfl | rfl | rfl | rfl <;> rfl
  · simp only [List.mem_cons, List.not_mem_nil, or_false] at hx
    rcases hx with rfl | rfl | rfl | rfl <;> rfl
  · simp only [List.mem_cons, List.not_mem_nil, or_false] at hx
    rcases hx with rfl | rfl | rfl | rfl | rfl <;> rfl
  · exact congrArg Host.Outcome.next (if_pos ⟨h1, h16⟩)
  · exact congrArg Host.Outcome.next (if_pos hk)
  · exact congrArg Host.Outcome.next (if_pos hd)
  · simp only [List.mem_cons, List.not_mem_nil, or_false] at hx
    rcases hx with rfl | rfl | rfl <;> exact congrArg Host.Outcome.next (if_pos ⟨hb, hi⟩)

end Sys2Proof.Machine
end

section
/-!
PROOF. DMA request lines (R32, R398, R399).
-/
namespace Sys2Proof.Machine

@[simp] theorem pendingReqs_putReqs_same (l : Nat) (r : List Req) (s : State) : pendingReqs (putReqs l r s) l = r :=
  AMap.get_put_same _ _ _ _

theorem pendingReqs_putReqs_other {l j : Nat} (h : j ≠ l) (r : List Req) (s : State) :
    pendingReqs (putReqs l r s) j = pendingReqs s j := AMap.get_put_other _ _ _ h.symm

@[simp] theorem pendingReqs_bumpBy (s : State) (i u k n l : Nat) : pendingReqs (s.bumpBy i u k n) l = pendingReqs s l := rfl

/-- A purge leaves a line the requests that have not expired. -/
theorem pendingReqs_purgeLine_same (l : Nat) (s : State) :
    pendingReqs (purgeLine l s) l = (pendingReqs s l).filter fun r => !reqExpired s l r := by
  unfold purgeLine
  dsimp only
  split
  · next h => exact (List.filter_eq_self.2 (List.length_filter_eq_length_iff.1 h)).symm
  · exact pendingReqs_putReqs_same ..

theorem pendingReqs_purgeLine_other {l j : Nat} (h : j ≠ l) (s : State) : pendingReqs (purgeLine l s) j = pendingReqs s j := by
  unfold purgeLine
  dsimp only
  split
  · rfl
  · exact pendingReqs_putReqs_other h _ s

/-- A purge counts what it takes from the line. -/
theorem purgeLine_counts {l : Nat} {s : State}
    (h : ((pendingReqs s l).filter fun r => !reqExpired s l r).length < (pendingReqs s l).length) :
    (purgeLine l s).counter 0x6004 4 l = (s.counter 0x6004 4 l +
      ((pendingReqs s l).length - ((pendingReqs s l).filter fun r => !reqExpired s l r).length)) % 2 ^ 64 := by
  rw [purgeLine, if_neg (Nat.ne_of_lt h)]
  exact State.counter_bumpBy_same ..

theorem purgeLine_counter_other {l i u k : Nat} (h : cntKey 0x6004 4 l ≠ cntKey i u k) (s : State) :
    (purgeLine l s).counter i u k = s.counter i u k := by
  unfold purgeLine
  dsimp only
  split
  · rfl
  · exact State.counter_bumpBy_other _ _ h

theorem purgeLine_owed (l : Nat) (s : State) : (purgeLine l s).dma.owed = s.dma.owed := by
  unfold purgeLine
  dsimp only
  split <;> rfl

theorem purgeLine_chans (l : Nat) (s : State) : (purgeLine l s).dma.chans = s.dma.chans := by
  unfold purgeLine
  dsimp only
  split <;> rfl

/-- The counters of one line are different counters. -/
theorem lineCounter_ne {l a b : Nat} (h : a ≠ b) : cntKey 0x6004 a l ≠ cntKey 0x6004 b l := by unfold cntKey; omega

/-- The state in which a line takes an owed request: it has left the owed ones and is counted, and the expired ones are gone. -/
def lineCleared (l : Nat) (rest : List (Nat × Req)) (s : State) : State :=
  purgeLine l (({ s with dma := { s.dma with owed := rest } } : State).bumpK 0x6004 2 l)

theorem effRequestPulse_of_owed {l : Nat} {s : State} {r : Req} {rest : List (Nat × Req)}
    (h : takeOwed l s.dma.owed = some (r, rest)) : effRequestPulse l s =
      if lineDepth s l ≤ (pendingReqs (lineCleared l rest s) l).length
      then (putReqs l ((pendingReqs (lineCleared l rest s) l).drop 1 ++ [r]) (lineCleared l rest s)).bumpK 0x6004 5 l
      else putReqs l (pendingReqs (lineCleared l rest s) l ++ [r]) (lineCleared l rest s) := by
  unfold effRequestPulse
  rw [h]
  rfl

/-- What a request line's pulse does to its line and its counters. -/
theorem effRequestPulse_line {l : Nat} {s : State} {r : Req} {rest : List (Nat × Req)} {kept : List Req}
    (h : takeOwed l s.dma.owed = some (r, rest)) (hk : kept = (pendingReqs s l).filter fun x => !reqExpired s l x) :
    (effRequestPulse l s).dma.owed = rest ∧
    pendingReqs (effRequestPulse l s) l = (if lineDepth s l ≤ kept.length then kept.drop 1 ++ [r] else kept ++ [r]) ∧
    (∀ j, j ≠ l → pendingReqs (effRequestPulse l s) j = pendingReqs s j) ∧
    (effRequestPulse l s).dma.chans = s.dma.chans ∧
    (effRequestPulse l s).counter 0x6004 2 l = (s.counter 0x6004 2 l + 1) % 2 ^ 64 ∧
    (lineDepth s l ≤ kept.length → (effRequestPulse l s).counter 0x6004 5 l = (s.counter 0x6004 5 l + 1) % 2 ^ 64) ∧
    (kept.length < (pendingReqs s l).length → (effRequestPulse l s).counter 0x6004 4 l =
      (s.counter 0x6004 4 l + ((pendingReqs s l).length - kept.length)) % 2 ^ 64) := by
  have hp : pendingReqs (lineCleared l rest s) l = kept := (pendingReqs_purgeLine_same l _).trans hk.symm
  have ho : (lineCleared l rest s).dma.owed = rest := purgeLine_owed l _
  have hj : ∀ j, j ≠ l → pendingReqs (lineCleared l rest s) j = pendingReqs s j := fun j hj => pendingReqs_purgeLine_other hj _
  have hc : (lineCleared l rest s).dma.chans = s.dma.chans := purgeLine_chans l _
  have h2 : (lineCleared l rest s).counter 0x6004 2 l = (s.counter 0x6004 2 l + 1) % 2 ^ 64 :=
    (purgeLine_counter_other (lineCounter_ne (by decide)) _).trans (State.counter_bumpK_same _ _ _ _)
  have h5 : (lineCleared l rest s).counter 0x6004 5 l = s.counter 0x6004 5 l :=
    (purgeLine_counter_other (lineCounter_ne (by decide)) _).trans (State.counter_bumpBy_other _ 1 (lineCounter_ne (by decide)))
  have h4 : kept.length < (pendingReqs s l).length → (lineCleared l rest s).counter 0x6004 4 l =
      (s.counter 0x6004 4 l + ((pendingReqs s l).length - kept.length)) % 2 ^ 64 := fun hl => by
    subst hk
    refine (purgeLine_counts (s := ({ s with dma := { s.dma with owed := rest } } : State).bumpK 0x6004 2 l) hl).trans ?_
    rw [State.bumpK, State.counter_bumpBy_other _ 1 (lineCounter_ne (by decide))]
    rfl
  rw [effRequestPulse_of_owed h, hp]
  split
  case isTrue hd =>
    exact ⟨ho, pendingReqs_putReqs_same .., fun j hne => (pendingReqs_putReqs_other hne _ _).trans (hj j hne), hc,
      (State.counter_bumpBy_other _ 1 (lineCounter_ne (by decide))).trans h2,
      fun _ => (State.counter_bumpK_same _ _ _ _).trans (congrArg (fun n => (n + 1) % 2 ^ 64) h5),
      fun hl => (State.counter_bumpBy_other _ 1 (lineCounter_ne (by decide))).trans (h4 hl)⟩
  case isFalse hd =>
    exact ⟨ho, pendingReqs_putReqs_same .., fun j hne => (pendingReqs_putReqs_other hne _ _).trans (hj j hne), hc, h2,
      fun hl => absurd hl hd, h4⟩

theorem effRequestExpired_none {l : Nat} {s : State} (h : (pendingReqs s l).any (reqExpired s l) = false) :
    effRequestExpired l s = s := by
  have hn : (pendingReqs s l).find? (reqExpired s l) = none :=
    List.find?_eq_none.2 fun x hx => by simpa using List.any_eq_false.1 h x hx
  rw [effRequestExpired, hn]

theorem effRequestExpired_some {l : Nat} {s : State} {r : Req} (h : (pendingReqs s l).find? (reqExpired s l) = some r) :
    effRequestExpired l s = (putReqs l ((pendingReqs s l).erase r) s).bumpK 0x6004 4 l := by rw [effRequestExpired, h]

/-- Settles O51: a pulse purges the line, then takes the owed request; an expiry takes the first expired request. -/
theorem requestLines : Obligations.RequestLines := by
  unfold Obligations.RequestLines
  intro l s
  refine ⟨fun h => congrArg Host.Outcome.next (?_ : effRequestPulse l s = s), fun r rest kept h hk => ?_,
    fun h => congrArg Host.Outcome.next (effRequestExpired_none h), fun r h => ?_⟩
  · rw [effRequestPulse, h]
  · obtain ⟨ho, hp, hj, hc, h2, h5, h4⟩ := effRequestPulse_line h hk
    exact ⟨_, rfl, ho, hp, hj, hc, fun _ => h2, fun _ => h5, fun _ => h4,
      (effRequestPulse_keeps (.refl _ s) (.of (by decide))).only⟩
  · refine ⟨_, congrArg Host.Outcome.next (effRequestExpired_some h), pendingReqs_putReqs_same ..,
      fun j hj => pendingReqs_putReqs_other hj _ s,
      State.counter_bumpK_same .., ?_⟩
    exact (State.bumpK_keeps (putReqs_keeps (.refl _ s) (.of (by decide))) (.of (by decide))).only

end Sys2Proof.Machine
end

section
/-!
PROOF. Links of the line and management ports: what reaches them in negotiation (R101 to R103, R112), their verify and respond
frames (R117), and their ups and downs (R104).
-/
namespace Sys2Proof.Machine

/-! ## Ports -/

/-- Two changes of a port that agree on the port as it stands are the same change. -/
theorem State.updPort_congr {s : State} {p : Nat} {f g : Port → Port} (h : f (s.port p) = g (s.port p)) :
    s.updPort p f = s.updPort p g := by
  unfold State.updPort AMap.upd
  exact congrArg (fun x => ({ s with ports := AMap.put {} s.ports p x } : State)) h

theorem State.port_congr {s t : State} (h : t.ports = s.ports) (p : Nat) : t.port p = s.port p := by
  rw [State.port, h, State.port]

@[simp] theorem State.bumpPort_ports (s : State) (p sub : Nat) : (s.bumpPort p sub).ports = s.ports :=
  (State.bumpPort_keeps (m := 0x200) (.refl _ s) (.of (by decide))).same .ports (by decide)

@[simp] theorem State.bumpPort_port (s : State) (p sub q : Nat) : (s.bumpPort p sub).port q = s.port q :=
  State.port_congr (State.bumpPort_ports s p sub) q

/-- A line or management port counts at its own object. -/
theorem State.bumpPort_eq_bump {p : Nat} (h : p < 256 ∨ p = 260 ∨ p = 261) (s : State) (sub : Nat) :
    s.bumpPort p sub = s.bump (portCounters p) sub := if_pos h

theorem State.counter_bumpPort_same {p : Nat} (h : p < 256 ∨ p = 260 ∨ p = 261) (s : State) (sub : Nat) :
    (s.bumpPort p sub).counter (portCounters p) sub 0 = (s.counter (portCounters p) sub 0 + 1) % 2 ^ 64 := by
  rw [State.bumpPort_eq_bump h]
  exact State.counter_bump_same s _ _

theorem State.counter_bumpPort_sub {p : Nat} {a b : Nat} (hp : p < 256 ∨ p = 260 ∨ p = 261) (h : a ≠ b) (s : State) :
    (s.bumpPort p a).counter (portCounters p) b 0 = s.counter (portCounters p) b 0 := by
  rw [State.bumpPort_eq_bump hp]
  exact State.counter_bumpBy_other s 1 (by unfold cntKey; omega)

/-- A port that can have a link is present and on, in a device state from LOAD onwards. -/
theorem linkable_facts {s : State} {p : Nat} (h : linkable s p = true) :
    isAlive s.chip.mode = true ∧ (p < 256 ∨ p = 260 ∨ p = 261) ∧ portOn s p = true ∧
      (p < 256 → portUsed s s.cfg.running p = true) := by
  simp only [linkable, Bool.and_eq_true, Bool.or_eq_true, isLine, isMgt, beq_iff_eq, decide_eq_true_eq] at h
  obtain ⟨⟨ha, hp⟩, ho⟩ := h
  refine ⟨ha, by omega, ho, fun hl => ?_⟩
  rw [portOn, if_pos hl, Bool.and_eq_true, Bool.and_eq_true] at ho
  exact ho.1.1

/-- LINK_STATE of a port that can have a link is what its hold times have let through (R104). -/
theorem linkState_of_linkable {s : State} {p : Nat} (h : linkable s p = true) : linkState s p = (s.port p).shown := by
  obtain ⟨-, -, ho, hu⟩ := linkable_facts h
  have hn : (isLine p && !portUsed s s.cfg.running p) = false := by
    by_cases hp : p < 256
    · simp [hu hp]
    · simp [isLine, hp]
  simp [linkState, hn, ho]

theorem linkable_updPort (s : State) (p : Nat) (f : Port → Port) (q : Nat) : linkable (s.updPort p f) q = linkable s q := rfl

/-! ## Negotiation and PAUSE -/

/-- Settles O24: each reception under its guard. -/
theorem negotiationAndPause : Obligations.NegotiationAndPause := by
  unfold Obligations.NegotiationAndPause
  intro p s
  refine ⟨fun ability page hpage hl ha u hu => ?_, fun hm => congrArg Host.Outcome.next (if_pos hm), fun quanta hq hm => ?_,
    fun h => congrArg Host.Outcome.next (if_pos h), fun h => congrArg Host.Outcome.next (if_neg (Nat.not_le.2 h))⟩
  · subst hpage
    have hon : (linkable s p && autoneg s p) = true := by rw [hl, ha]; rfl
    have hfail : effAnFailure p ability s = failAn p (ability % 2 ^ 48) s := if_pos hon
    refine ⟨fun ⟨hp, hr⟩ => congrArg Host.Outcome.next ?_, fun hn => congrArg Host.Outcome.next ?_,
      congrArg Host.Outcome.next ?_⟩
    · rw [hfail, effAnResolution, if_pos hon, if_pos (by simp only [hp, hr, decide_true, Bool.and_self])]
    · have hr : (decide (p < 256) && refusesFec s p (ability % 2 ^ 48)) = false := by
        rcases hn with hn | hn
        · rw [decide_eq_false (Nat.not_lt.2 hn), Bool.false_and]
        · rw [hn, Bool.and_false]
      rw [effAnResolution, if_pos hon, if_neg (by rw [hr]; decide)]
    · rw [hfail, hu]
      rfl
  · have hpause : effPauseReceived p quanta s = pauseFrame p quanta s := by
      rw [effPauseReceived, if_pos hm, Nat.mod_eq_of_lt hq]
    refine ⟨fun h1 => congrArg Host.Outcome.next ?_, fun h1 => congrArg Host.Outcome.next ?_⟩
    · rw [hpause, pauseFrame, if_pos h1]
      unfold pauseCycles
      rw [Nat.mul_assoc quanta 512 8]
    · rw [hpause, pauseFrame, if_neg h1]

/-! ## Verify and respond frames -/

/-- A fragment in transmission that is told to end stays the port's only change. -/
theorem preempt_port (p : Nat) (s : State) : ∃ x, (preempt p s).port p = { s.port p with pre := x } := by
  unfold preempt
  split
  · split
    · exact ⟨_, State.updPort_port s p _⟩
    · exact ⟨_, rfl⟩
  · exact ⟨_, rfl⟩

theorem preempt_port_other {p q : Nat} (h : q ≠ p) (s : State) : (preempt p s).port q = s.port q := by
  unfold preempt
  split
  · split
    · exact State.updPort_port_other s _ h.symm
    · rfl
  · rfl

theorem preempt_out (p : Nat) (s : State) : (preempt p s).out = s.out :=
  (preempt_keeps (m := 0x800) (.refl _ s) (.of (by decide))).same .out (by decide)

/-- The port whose verify (`v`) or respond frame goes out, `l` being the frames still due (R117). -/
def controlStarts (p : Nat) (v : Bool) (l : List Bool) (s : State) : State :=
  (preempt p s).updPort p fun x =>
    { x with
      owed := l, freeAt := startPs s p + 84 * byteTime s p, verifySent := if v then x.verifySent + 1 else x.verifySent,
      verifyDue := if v then s.cycle + msCycles (preemptCfg s p 4) else x.verifyDue }

theorem sendControl_nothingOwed {p : Nat} {s : State} (h : (s.port p).owed = []) : sendControl p s = s := by
  unfold sendControl
  rw [h]

theorem sendControl_waits {p : Nat} {s : State} (h : controlFree s p = false) : sendControl p s = s := by
  unfold sendControl
  split
  · rfl
  · exact if_neg (by rw [h]; decide)

theorem sendControl_starts {p : Nat} {s : State} {v : Bool} {l : List Bool} (ho : (s.port p).owed = v :: l)
    (hf : controlFree s p = true) : sendControl p s =
      if loopbackOf s p = 1 then (if v then takeVerify p (controlStarts p v l s) else takeRespond p (controlStarts p v l s))
      else (controlStarts p v l s).emit (if v then .verifyFrame p else .respondFrame p) := by
  unfold sendControl
  rw [ho]
  exact if_pos hf

/-- Outside near-end loopback a frame due goes out where the port can start it. -/
theorem sendControl_sends {p : Nat} {s : State} {v : Bool} {l : List Bool} (ho : (s.port p).owed = v :: l)
    (hf : controlFree s p = true) (hb : loopbackOf s p ≠ 1) : sendControl p s =
      (controlStarts p v l s).emit (if v then .verifyFrame p else .respondFrame p) := by
  rw [sendControl_starts ho hf, if_neg hb]

theorem controlStarts_out (p : Nat) (v : Bool) (l : List Bool) (s : State) : (controlStarts p v l s).out = s.out :=
    preempt_out p s

theorem controlStarts_port (p : Nat) (v : Bool) (l : List Bool) (s : State) :
    ((controlStarts p v l s).port p).owed = l ∧ ((controlStarts p v l s).port p).verify = (s.port p).verify ∧
    ((controlStarts p v l s).port p).verifySent = (if v then (s.port p).verifySent + 1 else (s.port p).verifySent) ∧
    ((controlStarts p v l s).port p).verifyDue =
      (if v then s.cycle + msCycles (preemptCfg s p 4) else (s.port p).verifyDue) := by
  obtain ⟨y, hy⟩ := preempt_port p s
  rw [controlStarts, State.updPort_port, hy]
  exact ⟨rfl, rfl, rfl, rfl⟩

/-- What a verify frame that goes out leaves (R117). -/
theorem sendControl_verify {p : Nat} {s : State} {l : List Bool} (ho : (s.port p).owed = true :: l)
    (hf : controlFree s p = true)
    (hb : loopbackOf s p ≠ 1) : ((sendControl p s).port p).verify = (s.port p).verify ∧
      ((sendControl p s).port p).verifySent = (s.port p).verifySent + 1 ∧ ((sendControl p s).port p).owed = l ∧
      ((sendControl p s).port p).verifyDue = s.cycle + 1600000 * preemptCfg s p 4 ∧
      (sendControl p s).out = .verifyFrame p :: s.out := by
  obtain ⟨hl, hv, hn, hd⟩ := controlStarts_port p true l s
  rw [sendControl_sends ho hf hb]
  exact ⟨hv, hn, hl, hd.trans (by rw [if_pos rfl, msCycles, Nat.mul_comm]), congrArg _ (controlStarts_out p true l s)⟩

/-- What of a port its link events alone move. -/
def SameLink (x y : Port) : Prop := y.up = x.up ∧ y.fault = x.fault ∧ y.changedAt = x.changedAt ∧ y.shown = x.shown

theorem SameLink.refl (x : Port) : SameLink x x := ⟨rfl, rfl, rfl, rfl⟩

theorem SameLink.trans {x y z : Port} (h : SameLink x y) (k : SameLink y z) : SameLink x z :=
  ⟨k.1.trans h.1, k.2.1.trans h.2.1, k.2.2.1.trans h.2.2.1, k.2.2.2.trans h.2.2.2⟩

/-- A step that leaves the links: port `p`'s, and every other port as it is. -/
def LinksKept (p : Nat) (s t : State) : Prop := SameLink (s.port p) (t.port p) ∧ ∀ q, q ≠ p → t.port q = s.port q

theorem LinksKept.refl (p : Nat) (s : State) : LinksKept p s s := ⟨.refl _, fun _ _ => rfl⟩

theorem LinksKept.trans {p : Nat} {s t u : State} (h : LinksKept p s t) (k : LinksKept p t u) : LinksKept p s u :=
  ⟨h.1.trans k.1, fun q hq => (k.2 q hq).trans (h.2 q hq)⟩

theorem linksKept_of_ports {p : Nat} {s t : State} (h : t.ports = s.ports) : LinksKept p s t :=
  ⟨by rw [State.port_congr h]; exact .refl _, fun q _ => State.port_congr h q⟩

theorem linksKept_updPort (p : Nat) (s : State) {f : Port → Port} (h : SameLink (s.port p) (f (s.port p))) :
    LinksKept p s (s.updPort p f) :=
  ⟨by rw [State.updPort_port]; exact h, fun _ hq => State.updPort_port_other s f hq.symm⟩

theorem linksKept_smdError (p : Nat) (s : State) : LinksKept p s (smdError p s) := by
  unfold smdError
  split
  · exact linksKept_of_ports (State.bumpPort_ports s p _)
  · exact .refl p s

theorem linksKept_takeVerify (p : Nat) (s : State) : LinksKept p s (takeVerify p s) := by
  unfold takeVerify
  split
  · exact linksKept_updPort p s ⟨rfl, rfl, rfl, rfl⟩
  · exact linksKept_smdError p s

theorem linksKept_takeRespond (p : Nat) (s : State) : LinksKept p s (takeRespond p s) := by
  unfold takeRespond
  split
  · split
    · exact linksKept_updPort p s ⟨rfl, rfl, rfl, rfl⟩
    · exact .refl p s
  · exact linksKept_smdError p s

theorem linksKept_controlStarts (p : Nat) (v : Bool) (l : List Bool) (s : State) : LinksKept p s (controlStarts p v l s) := by
  obtain ⟨x, hx⟩ := preempt_port p s
  refine ⟨?_, fun q hq => (State.updPort_port_other _ _ hq.symm).trans (preempt_port_other hq s)⟩
  rw [controlStarts, State.updPort_port, hx]
  exact ⟨rfl, rfl, rfl, rfl⟩

/-- A verify or respond frame that goes out leaves the links. -/
theorem linksKept_sendControl (p : Nat) (s : State) : LinksKept p s (sendControl p s) := by
  cases hf : controlFree s p with
  | false => rw [sendControl_waits hf]; exact .refl p s
  | true =>
    cases ho : (s.port p).owed with
    | nil => rw [sendControl_nothingOwed ho]; exact .refl p s
    | cons v l =>
      have hk := linksKept_controlStarts p v l s
      rw [sendControl_starts ho hf]
      split
      · cases v
        · exact hk.trans (linksKept_takeRespond p _)
        · exact hk.trans (linksKept_takeVerify p _)
      · exact hk

/-- Settles O32: what is due is put down first, then `sendControl` decides whether it goes. -/
theorem verificationRuns : Obligations.VerificationRuns := by
  unfold Obligations.VerificationRuns
  intro p s
  refine ⟨fun hm hp u hu ho => ?_, fun hm hp ho => ?_, fun hm hp hv => congrArg Host.Outcome.next ?_, fun hp hup hv ho => ?_⟩
  · have he : effVerifyFrameReceived p s = sendControl p u := by
      rw [effVerifyFrameReceived, if_pos hm, takeVerify, if_pos hp, hu]
      rfl
    have hou : (u.port p).owed = [false] := by rw [hu, State.updPort_port, ho]; rfl
    have hb : loopbackOf u p ≠ 1 := by
      rw [hu]
      simp only [macReceives, Bool.and_eq_true, beq_iff_eq] at hm
      exact fun h => absurd (hm.2.symm.trans h) (by decide)
    refine ⟨fun hf => ⟨_, congrArg Host.Outcome.next he, ?_⟩,
      fun hf => congrArg Host.Outcome.next (he.trans (sendControl_waits hf))⟩
    obtain ⟨hl, hv, -, -⟩ := controlStarts_port p false [] u
    rw [sendControl_sends hou hf hb]
    exact ⟨congrArg _ ((controlStarts_out p false [] u).trans (by rw [hu]; rfl)), hl,
      hv.trans (by rw [hu, State.updPort_port])⟩
  · have hr : effRespondFrameReceived p s = smdError p s := by
      rw [effRespondFrameReceived, if_pos hm, takeRespond, if_neg hp]
    have hn : ((smdError p s).port p).owed = [] := by
      unfold smdError
      split
      · rw [State.bumpPort_port, ho]
      · exact ho
    have hv : effVerifyFrameReceived p s = smdError p s := by
      rw [effVerifyFrameReceived, if_pos hm, takeVerify, if_neg hp, sendControl_nothingOwed hn]
    exact ⟨congrArg Host.Outcome.next hv, congrArg Host.Outcome.next hr⟩
  · rw [effRespondFrameReceived, if_pos hm, takeRespond, if_pos hp, if_pos (by simpa using hv)]
  · have hpass : ∀ b, ((preemptCfg s p 1 == 1 && (s.port p).up && (s.port p).verify == 2 &&
      !(s.port p).owed.contains true && b)) = b :=
      fun b => by rw [hp, hup, hv, ho]; rfl
    refine ⟨fun h => congrArg Host.Outcome.next ?_, fun h hn => congrArg Host.Outcome.next ?_, fun h hn hb u hu => ?_⟩
    · rw [effVerifyTimeExpiry]
      exact if_neg (by rw [hpass, decide_eq_false (Nat.not_le.2 h)]; decide)
    · rw [effVerifyTimeExpiry]
      exact (if_pos (by rw [hpass, decide_eq_true h])).trans (if_neg (Nat.not_lt.2 hn))
    · have he : effVerifyTimeExpiry p s = sendControl p u := by
        rw [effVerifyTimeExpiry, hu]
        refine ((if_pos (by rw [hpass, decide_eq_true h])).trans (if_pos hn)).trans (congrArg (sendControl p) ?_)
        refine State.updPort_congr ?_
        rw [ho, ← hv]
        rfl
      refine ⟨fun hf => ⟨_, congrArg Host.Outcome.next he, ?_⟩,
        fun hf => congrArg Host.Outcome.next (he.trans (sendControl_waits hf))⟩
      have hou : (u.port p).owed = [true] := by rw [hu, State.updPort_port]
      obtain ⟨h1, h2, -, h4, h5⟩ := sendControl_verify hou hf (by rw [hu]; exact hb)
      subst hu
      rw [State.updPort_port] at h1 h2
      exact ⟨h1.trans hv, h2, h4, h5⟩

end Sys2Proof.Machine
end

section
/-!
PROOF. Links going up and down and their hold times (R104, R117, R118, R126).
-/
namespace Sys2Proof.Machine

/-- The link of a port comes up without a fault. -/
def linkRisen (p : Nat) (s : State) : State := s.updPort p fun x => { x with up := true, fault := 1, changedAt := s.cycle }

/-- The frames due are those that were, but one verify frame. -/
theorem sendVerify_eq (p n : Nat) (s : State) : sendVerify p n s =
    sendControl p (s.updPort p fun x => { x with verify := 2, verifySent := n, owed := x.owed.filter (!·) ++ [true] }) := rfl

theorem linksKept_sendVerify (p n : Nat) (s : State) : LinksKept p s (sendVerify p n s) :=
  (linksKept_updPort p s ⟨rfl, rfl, rfl, rfl⟩).trans (linksKept_sendControl p _)

theorem effLinkUp_of_down {p : Nat} {s : State} (hl : linkable s p = true) (hd : (s.port p).up = false) :
    effLinkUp p s = if verifies s p then sendVerify p 0 (linkRisen p s) else sendControl p (linkRisen p s) := by
  obtain ⟨-, hp, -, -⟩ := linkable_facts hl
  rw [effLinkUp, if_neg (by omega), if_pos (by rw [hl, hd]; rfl)]
  rfl

/-- Outside near-end loopback a verify frame that becomes due leaves the verification in progress. -/
theorem sendVerify_verify {p n : Nat} {s : State} (hb : loopbackOf s p ≠ 1) : ((sendVerify p n s).port p).verify = 2 := by
  rw [sendVerify_eq]
  generalize hw : (s.updPort p fun x => { x with verify := 2, verifySent := n, owed := x.owed.filter (!·) ++ [true] }) = w
  have hv : (w.port p).verify = 2 := by rw [← hw, State.updPort_port]
  cases hf : controlFree w p with
  | false => rw [sendControl_waits hf, hv]
  | true =>
    cases ho : (w.port p).owed with
    | nil => rw [sendControl_nothingOwed ho, hv]
    | cons v l =>
      rw [sendControl_sends ho hf (by rw [← hw]; exact hb)]
      exact (controlStarts_port p v l w).2.1.trans hv

/-- A link that is down and rises, in the words of R104 and R117. -/
theorem linkUp_facts {p : Nat} {s : State} (hl : linkable s p = true) (hd : (s.port p).up = false) :
    (Gives (.linkUp p) s fun t =>
      (t.port p).up = true ∧ (t.port p).fault = 1 ∧ (t.port p).changedAt = s.cycle ∧ (t.port p).shown = (s.port p).shown ∧
      ∀ q, q ≠ p → t.port q = s.port q) ∧
    (verifies s p = false → (s.port p).owed = [] → exec (.linkUp p) s = .next (linkRisen p s)) ∧
    (verifies s p = true → loopbackOf s p ≠ 1 → Gives (.linkUp p) s fun t => (t.port p).verify = 2) ∧
    (verifies s p = true → loopbackOf s p ≠ 1 → (s.port p).owed = [] →
      ∀ w, w = (linkRisen p s).updPort p (fun x => { x with verify := 2, verifySent := 0, owed := [true] }) →
      (controlFree w p = true → Gives (.linkUp p) s fun t => (t.port p).verifySent = 1 ∧ (t.port p).owed = [] ∧
        (t.port p).verifyDue = s.cycle + 1600000 * preemptCfg s p 4 ∧ t.out = .verifyFrame p :: s.out) ∧
      (controlFree w p = false → exec (.linkUp p) s = .next w)) := by
  have he : exec (.linkUp p) s = .next (effLinkUp p s) := rfl
  rw [effLinkUp_of_down hl hd] at he
  have hport : (linkRisen p s).port p = { s.port p with up := true, fault := 1, changedAt := s.cycle } := State.updPort_port ..
  refine ⟨⟨_, he, ?_⟩, fun hv ho => ?_, fun hv hb => ⟨_, he, ?_⟩, fun hv hb ho w hw => ?_⟩
  · have hk : LinksKept p (linkRisen p s)
        (if verifies s p then sendVerify p 0 (linkRisen p s) else sendControl p (linkRisen p s)) := by
      split
      · exact linksKept_sendVerify p 0 _
      · exact linksKept_sendControl p _
    obtain ⟨⟨hup, hf, hc, hs⟩, hq⟩ := hk
    rw [hport] at hup hf hc hs
    exact ⟨hup, hf, hc, hs, fun q hne => (hq q hne).trans (State.updPort_port_other s _ hne.symm)⟩
  · rw [he, if_neg (by rw [hv]; decide), sendControl_nothingOwed (by rw [hport]; exact ho)]
  · rw [if_pos hv]
    exact sendVerify_verify hb
  · have hsend : exec (.linkUp p) s = .next (sendControl p w) := by
      rw [he, if_pos hv, sendVerify_eq, hw]
      exact congrArg (fun x => Host.Outcome.next (sendControl p x)) (State.updPort_congr (by rw [hport, ho]; rfl))
    refine ⟨fun hf => ⟨_, hsend, ?_⟩, fun hf => hsend.trans (congrArg Host.Outcome.next (sendControl_waits hf))⟩
    have hwp : w.port p = { (linkRisen p s).port p with verify := 2, verifySent := 0, owed := [true] } := by
      rw [hw, State.updPort_port]
    obtain ⟨-, hn, ho', hdue, hout⟩ := sendControl_verify (by rw [hwp]) hf (by rw [hw]; exact hb)
    rw [hwp] at hn
    rw [hw] at hdue hout
    exact ⟨hn.trans (Nat.zero_add 1), ho', by rw [hw]; exact hdue, by rw [hw]; exact hout⟩

/-! ## Down -/

/-- The assembly of a port and what it counts at its discard (R118). -/
theorem dropAssembly_facts (p : Nat) (s : State) :
    (dropAssembly p s).port p = { s.port p with asm := none } ∧ (∀ q, q ≠ p → (dropAssembly p s).port q = s.port q) ∧
    (∀ b, 0x18 < b → p < 256 ∨ p = 260 ∨ p = 261 →
      (dropAssembly p s).counter (portCounters p) b 0 = s.counter (portCounters p) b 0) := by
  unfold dropAssembly
  split
  case isTrue =>
    unfold assemblyError
    exact ⟨by rw [State.bumpPort_port, State.updPort_port],
      fun q hq => by rw [State.bumpPort_port, State.updPort_port_other s _ hq.symm],
      fun b hb hp => State.counter_bumpPort_sub hp (Nat.ne_of_lt hb) _⟩
  case isFalse h =>
    have hn : (s.port p).asm = none := by simpa using h
    exact ⟨by rw [← hn], fun _ _ => rfl, fun _ _ _ => rfl⟩

/-- A link that falls: its port, the others, and the counters of faults. -/
theorem fallLink_facts (p fault : Nat) (s : State) :
    (fallLink p fault s).port p = { s.port p with
      asm := none, up := false, fault := fault, changedAt := s.cycle, verify := 1, owed := (s.port p).owed.filter (!·) } ∧
    (∀ q, q ≠ p → (fallLink p fault s).port q = s.port q) ∧
    (∀ b, 0x18 < b → p < 256 ∨ p = 260 ∨ p = 261 →
      (fallLink p fault s).counter (portCounters p) b 0 = s.counter (portCounters p) b 0) := by
  obtain ⟨hp, hq, hn⟩ := dropAssembly_facts p s
  refine ⟨?_, fun q hne => (State.updPort_port_other _ _ hne.symm).trans (hq q hne), hn⟩
  unfold fallLink
  rw [State.updPort_port, show (dropMargins p (dropAssembly p s)).port p = _ from hp]

/-- The counter and the fault that a link-down's cause brings (R104, R126, R464). -/
def causeNoted (p fault : Nat) (mode : Mode) (u : State) : State :=
  if fault = 3 then
    if mode == .run && p < 256 then detectFault 2 (sliceOf p) 1 p (u.bumpPort p 0x21) else u.bumpPort p 0x21
  else if fault = 4 then u.bumpPort p 0x22
  else u

theorem effLinkDown_of_up {p : Nat} {s : State} (hl : linkable s p = true) (hu : (s.port p).up = true) (cause : Nat) :
    effLinkDown p cause s = causeNoted p (if cause = 3 ∨ cause = 4 then cause else 0) s.chip.mode
      (fallLink p (if cause = 3 ∨ cause = 4 then cause else 0) s) := by
  rw [effLinkDown]
  exact if_pos (by rw [hl, hu]; rfl)

theorem causeNoted_ports (p fault : Nat) (mode : Mode) (u : State) : (causeNoted p fault mode u).ports = u.ports := by
  unfold causeNoted
  split
  · split
    · exact (detectFault_keeps (m := 0xc3000200) (State.bumpPort_keeps (.refl _ u) (.of (by decide))) (.of (by decide))).same
        .ports (by decide)
    · exact State.bumpPort_ports u p _
  · split
    · exact State.bumpPort_ports u p _
    · rfl

theorem causeNoted_local {p : Nat} (hp : p < 256 ∨ p = 260 ∨ p = 261) (mode : Mode) (u : State) :
    (causeNoted p 3 mode u).counter (portCounters p) 0x21 0 = (u.counter (portCounters p) 0x21 0 + 1) % 2 ^ 64 := by
  rw [causeNoted, if_pos rfl, ← State.counter_bumpPort_same hp u 0x21]
  split
  · exact State.counter_congr (detectFault_cnt ..) ..
  · rfl

theorem causeNoted_remote {p : Nat} (hp : p < 256 ∨ p = 260 ∨ p = 261) (mode : Mode) (u : State) :
    (causeNoted p 4 mode u).counter (portCounters p) 0x22 0 = (u.counter (portCounters p) 0x22 0 + 1) % 2 ^ 64 :=
  State.counter_bumpPort_same hp u 0x22

theorem blockPresent_slice (id : Ident) : blockPresent id 2 = true := by
  unfold blockPresent unitsPresent
  split <;> decide

/-- A line port's local fault in RUN stands in block 2 (R464). -/
theorem causeNoted_fault {p : Nat} (hp : p < 256) {u : State} (ha : isAlive u.chip.mode = true) :
    bit ((causeNoted p 3 .run u).fault 2 (sliceOf p)).status 0 = true := by
  rw [causeNoted, if_pos rfl, if_pos (by simpa using hp)]
  refine detectFault_bit ?_ (blockPresent_slice _) p
  rw [(State.bumpPort_keeps (m := 0x200) (.refl _ u) (.of (by decide))).mode (by decide)]
  exact ha

/-- A link that is up and falls, in the words of R104, R117 and R118. -/
theorem linkDown_facts {p : Nat} {s : State} (hl : linkable s p = true) (hu : (s.port p).up = true) (cause : Nat) :
    Gives (.linkDown p cause) s fun t =>
      (t.port p).up = false ∧ (t.port p).fault = (if cause = 3 ∨ cause = 4 then cause else 0) ∧
      (t.port p).changedAt = s.cycle ∧ (t.port p).shown = (s.port p).shown ∧ (t.port p).verify = 1 ∧ (t.port p).asm = none ∧
      (∀ q, q ≠ p → t.port q = s.port q) ∧
      (cause = 3 → t.counter (portCounters p) 0x21 0 = (s.counter (portCounters p) 0x21 0 + 1) % 2 ^ 64) ∧
      (cause = 4 → t.counter (portCounters p) 0x22 0 = (s.counter (portCounters p) 0x22 0 + 1) % 2 ^ 64) ∧
      (cause = 3 → s.chip.mode = .run → p < 256 → bit (t.fault 2 (sliceOf p)).status 0 = true) := by
  obtain ⟨ha, hp, -, -⟩ := linkable_facts hl
  refine ⟨_, congrArg Host.Outcome.next (effLinkDown_of_up hl hu cause), ?_⟩
  generalize hf : (if cause = 3 ∨ cause = 4 then cause else 0) = fault
  obtain ⟨hport, hother, hcnt⟩ := fallLink_facts p fault s
  have hports := causeNoted_ports p fault s.chip.mode (fallLink p fault s)
  rw [← State.port_congr hports p] at hport
  refine ⟨by rw [hport], by rw [hport], by rw [hport], by rw [hport], by rw [hport], by rw [hport],
    fun q hq => (State.port_congr hports q).trans (hother q hq), fun hc => ?_, fun hc => ?_, fun hc hm hlt => ?_⟩
  · have h3 : fault = 3 := by rw [← hf, if_pos (.inl hc), hc]
    subst h3
    rw [causeNoted_local hp, hcnt 0x21 (by decide) hp]
  · have h4 : fault = 4 := by rw [← hf, if_pos (.inr hc), hc]
    subst h4
    rw [causeNoted_remote hp, hcnt 0x22 (by decide) hp]
  · have h3 : fault = 3 := by rw [← hf, if_pos (.inl hc), hc]
    subst h3
    rw [hm]
    refine causeNoted_fault hlt ?_
    rw [(fallLink_keeps (m := 0x4000a00) (a0 := p) (a1 := 3) (.refl _ s) (.of (by decide))).mode (by decide)]
    exact ha

/-! ## Hold times -/

/-- LINK_STATE of a port that can have a link shows `n` from now on (R104). -/
def showLink (p n : Nat) (s : State) : State := noteLink p (linkState s p) (s.updPort p fun x => { x with shown := n })

theorem noteLink_ports (p was : Nat) (s : State) : (noteLink p was s).ports = s.ports :=
  (noteLink_keeps (m := 0x1000200) (.refl _ s) (.of (by decide))).same .ports (by decide)

theorem showLink_port (p n : Nat) (s : State) : (showLink p n s).port p = { s.port p with shown := n } := by
  rw [showLink, State.port_congr (noteLink_ports ..), State.updPort_port]

theorem showLink_port_other {p q : Nat} (h : q ≠ p) (n : Nat) (s : State) : (showLink p n s).port q = s.port q := by
  rw [showLink, State.port_congr (noteLink_ports ..), State.updPort_port_other s _ h.symm]

theorem showLink_only (p n : Nat) (s : State) : Only [.ports, .intc, .cnt] s (showLink p n s) :=
  (noteLink_keeps (State.updPort_keeps (.refl _ s) (.of (by decide))) (.of (by decide))).only

/-- A change of LINK_STATE pulses LINK_CHANGE, and a transition from UP counts (R104, R126, R411). -/
theorem showLink_changes {p n : Nat} {s : State} (hl : linkable s p = true) (hn : linkState s p ≠ n) :
    (191, s.cycle) ∈ (showLink p n s).intc.pulses ∧ (linkState s p = 2 → (showLink p n s).counter (portCounters p) 0x20 0 =
      (s.counter (portCounters p) 0x20 0 + 1) % 2 ^ 64) := by
  obtain ⟨-, hp, -, -⟩ := linkable_facts hl
  generalize hv : s.updPort p (fun x => { x with shown := n }) = v
  have hnow : linkState v p = n := by
    rw [linkState_of_linkable (by rw [← hv]; exact hl), ← hv, State.updPort_port]
  have he : showLink p n s = if linkState s p = 2 then (pulse 191 v).bumpPort p 0x20 else pulse 191 v := by
    rw [showLink, hv, noteLink, hnow]
    exact if_neg (Ne.symm hn)
  have hm : (191, s.cycle) ∈ (pulse 191 v).intc.pulses := by
    rw [← hv]
    exact mem_pulses_pulse (lineExists_low _ (by decide) (by decide))
  rw [he]
  split
  case isTrue =>
    refine ⟨?_, fun _ => ?_⟩
    · rw [(State.bumpPort_keeps (m := 0x200) (.refl _ (pulse 191 v)) (.of (by decide))).same .intc (by decide)]
      exact hm
    · rw [State.counter_bumpPort_same hp, counter_pulse v (by unfold cntKey portCounters; split <;> omega), ← hv]
      rfl
  case isFalse h => exact ⟨hm, fun h2 => absurd h2 h⟩

/-- LINK_STATE of a link that is down is not UP (R123). -/
theorem shownDown_ne_up (s : State) (p : Nat) :
    (if (s.port p).fault = 3 ∨ (s.port p).fault = 4 then (s.port p).fault else unlocked s p) ≠ 2 := by
  unfold unlocked
  split
  case isTrue h => omega
  case isFalse => split <;> decide

/-- Settles O23: the link's rise and fall, and the two hold times. -/
theorem linkChanges : Obligations.LinkChanges := by
  unfold Obligations.LinkChanges
  intro p s hl
  refine ⟨fun hd u hu => by subst hu; exact linkUp_facts hl hd, fun hu cause => linkDown_facts hl hu cause,
    fun hu => ⟨fun h => congrArg Host.Outcome.next (if_neg ?_),
      fun h => ⟨showLink p 2 s, congrArg Host.Outcome.next (if_pos ?_),
      showLink_port .., fun q hq => showLink_port_other hq 2 s, fun hn => (showLink_changes hl hn).1, showLink_only _ _ _⟩⟩,
    fun hd => ⟨fun h => congrArg Host.Outcome.next (if_neg ?_), fun h => ⟨_, congrArg Host.Outcome.next
      (?_ : effLinkDownHoldExpiry p s = showLink p _ s), showLink_port .., fun q hq => showLink_port_other hq _ s, fun hn => ?_,
      showLink_only _ _ _⟩⟩⟩
  · rw [hl, hu, decide_eq_false (Nat.not_le.2 h)]
    decide
  · rw [hl, hu, decide_eq_true h]
    rfl
  · rw [hl, hd, decide_eq_false (Nat.not_le.2 h)]
    decide
  · exact if_pos (by rw [hl, hd, decide_eq_true h]; rfl)
  · obtain ⟨hm, hc⟩ := showLink_changes hl (hn.trans_ne (shownDown_ne_up s p).symm)
    exact ⟨hm, hc hn⟩

end Sys2Proof.Machine
end

section
/-!
PROOF. What the MAC makes of a received frame or fragment (R27, R110, R118, R123, R126).
-/
namespace Sys2Proof.Machine

/-! ## Steps that only count -/

/-- A step that changes counters alone. -/
def OnlyCounts (s t : State) : Prop := ∃ c, t = { s with cnt := c }

theorem OnlyCounts.refl (s : State) : OnlyCounts s s := ⟨_, rfl⟩

theorem OnlyCounts.trans {s t u : State} (h : OnlyCounts s t) (k : OnlyCounts t u) : OnlyCounts s u := by
  obtain ⟨c, rfl⟩ := h
  obtain ⟨d, rfl⟩ := k
  exact ⟨d, rfl⟩

theorem onlyCounts_bumpPort (s : State) (p sub : Nat) : OnlyCounts s (s.bumpPort p sub) := by
  unfold State.bumpPort
  split
  · exact ⟨_, rfl⟩
  · split
    · exact ⟨_, rfl⟩
    · exact .refl s

theorem onlyCounts_bumpPortBy (s : State) (p sub n : Nat) : OnlyCounts s (s.bumpPortBy p sub n) := by
  unfold State.bumpPortBy
  split
  · exact ⟨_, rfl⟩
  · exact .refl s

theorem onlyCounts_noteFec (p : Nat) (err : RxErr) (corrected bad : Nat) (s : State) :
    OnlyCounts s (noteFec p err corrected bad s) := by
  unfold noteFec
  split
  · exact (onlyCounts_bumpPortBy s p _ _).trans (onlyCounts_bumpPortBy _ p _ _)
  · exact .refl s

/-! ## Counters of a port -/

theorem State.counter_bumpPortBy_same {p : Nat} (h : p < 256 ∨ p = 260 ∨ p = 261) (s : State) (sub n : Nat) :
    (s.bumpPortBy p sub n).counter (portCounters p) sub 0 = (s.counter (portCounters p) sub 0 + n) % 2 ^ 64 := by
  rw [State.bumpPortBy, if_pos h, State.counter_bumpBy_same]

theorem State.counter_bumpPortBy_sub {p a b : Nat} (h : a ≠ b) (s : State) (n : Nat) :
    (s.bumpPortBy p a n).counter (portCounters p) b 0 = s.counter (portCounters p) b 0 := by
  unfold State.bumpPortBy
  split
  · exact State.counter_bumpBy_other s n (by unfold cntKey; omega)
  · rfl

/-- The FEC counters are 9 and 10 (R126). -/
theorem noteFec_counter {p sub : Nat} (h : sub < 9) (err : RxErr) (corrected bad : Nat) (s : State) :
    (noteFec p err corrected bad s).counter (portCounters p) sub 0 = s.counter (portCounters p) sub 0 := by
  unfold noteFec
  split
  · rw [State.counter_bumpPortBy_sub (by omega), State.counter_bumpPortBy_sub (by omega)]
  · rfl

/-- A port whose MAC receives is a line or management port that is not looped back. -/
theorem macReceives_facts {s : State} {p : Nat} (h : macReceives s p = true) :
    pcsReceives s p = true ∧ loopbackOf s p = 0 ∧ (p < 256 ∨ p = 260 ∨ p = 261) := by
  simp only [macReceives, Bool.and_eq_true, beq_iff_eq] at h
  obtain ⟨hp, hl⟩ := h
  refine ⟨hp, hl, ?_⟩
  simp only [pcsReceives, isMgt, isLine, Bool.and_eq_true, Bool.or_eq_true, beq_iff_eq, decide_eq_true_eq] at hp
  omega

theorem effFrameReceived_mac {s : State} {p : Nat} (h : macReceives s p = true) (smd : Smd) (b : Bytes) (err : RxErr)
    (quarter corrected bad : Nat) :
    effFrameReceived p smd b err quarter corrected bad s = macTakes p smd b err quarter (noteFec p err corrected bad s) := by
  obtain ⟨hp, hl, -⟩ := macReceives_facts h
  rw [effFrameReceived, if_pos hp, hl]
  rfl

/-! ## Whole frames -/

/-- A discarded frame whose decision would not come before its FCS verdict only counts (R110). -/
theorem receiveWhole_discards {p sub : Nat} {b : Bytes} {err : RxErr} {s : State} (h : macDiscard s p b err = some sub)
    (stamps steps : List Nat) (r : Bool) :
    receiveWhole p b err stamps steps r s = loseFrame p b stamps steps r (s.bumpPort p sub) := by
  rw [receiveWhole, h]

theorem loseFrame_cnt (p : Nat) (b : Bytes) (stamps steps : List Nat) (r : Bool) (s : State) :
    (loseFrame p b stamps steps r s).cnt = s.cnt := by
  unfold loseFrame
  split <;> rfl

theorem loseFrame_late {p : Nat} {b : Bytes} {s : State} (h : decidedFirst s p (b.length + 4) = false) (stamps steps : List Nat)
    (r : Bool) : loseFrame p b stamps steps r s = s := if_neg (by rw [h, Bool.false_and]; decide)

/-- A frame that enters the classifier takes the next number. -/
theorem enterFrame_flight (f : Inflight) (s : State) :
    AMap.find (enterFrame f s).fabric.inflight s.fabric.nextId = some f ∧ (enterFrame f s).fabric.nextId = s.fabric.nextId + 1 ∧
    ∀ id, id ≠ s.fabric.nextId → AMap.find (enterFrame f s).fabric.inflight id = AMap.find s.fabric.inflight id :=
  ⟨(AMap.find_set _ _ _ _).trans (if_pos rfl), rfl, fun _ h => (AMap.find_set _ _ _ _).trans (if_neg h.symm)⟩

/-- What an accepted frame counts before it enters the classifier (R126, R189, R284). -/
def acceptCounts (p : Nat) (b : Bytes) (s : State) : State :=
  let q := parse (sTpid s) b
  let s1 := (s.bumpPort p 0x01).bumpPortBy p 0x02 (b.length + 4)
  let s2 := if q.rtagAt.isSome then s1.bumpPort p 0x40 else s1
  if q.ptpEvent && ptpFrame q b then s2.bumpPort p 0x70 else s2

theorem passToClassifier_eq (p : Nat) (f : Inflight) (s : State) :
    passToClassifier p f s = enterFrame f (acceptCounts p f.bytes s) := rfl

theorem onlyCounts_ite {s t u : State} {c : Prop} [Decidable c] (h : OnlyCounts s t) (k : OnlyCounts s u) :
    OnlyCounts s (if c then t else u) := by split <;> assumption

theorem onlyCounts_acceptCounts (p : Nat) (b : Bytes) (s : State) : OnlyCounts s (acceptCounts p b s) := by
  have h1 : OnlyCounts s ((s.bumpPort p 0x01).bumpPortBy p 0x02 (b.length + 4)) :=
    (onlyCounts_bumpPort s p _).trans (onlyCounts_bumpPortBy _ p _ _)
  have h2 := onlyCounts_ite (c := (parse (sTpid s) b).rtagAt.isSome) (h1.trans (onlyCounts_bumpPort _ p 0x40)) h1
  exact onlyCounts_ite (h2.trans (onlyCounts_bumpPort _ p 0x70)) h2

theorem counter_bumpPort_ite {p a b : Nat} (hp : p < 256 ∨ p = 260 ∨ p = 261) (h : a ≠ b) (c : Prop) [Decidable c] (s : State) :
    (if c then s.bumpPort p a else s).counter (portCounters p) b 0 = s.counter (portCounters p) b 0 := by
  split
  · exact State.counter_bumpPort_sub hp h s
  · rfl

theorem acceptCounts_frames {p : Nat} (hp : p < 256 ∨ p = 260 ∨ p = 261) (b : Bytes) (s : State) :
    (acceptCounts p b s).counter (portCounters p) 0x01 0 = (s.counter (portCounters p) 0x01 0 + 1) % 2 ^ 64 ∧
    (acceptCounts p b s).counter (portCounters p) 0x02 0 = (s.counter (portCounters p) 0x02 0 + (b.length + 4)) % 2 ^ 64 := by
  unfold acceptCounts
  refine ⟨?_, ?_⟩
  · rw [counter_bumpPort_ite hp (by decide), counter_bumpPort_ite hp (by decide), State.counter_bumpPortBy_sub (by decide),
      State.counter_bumpPort_same hp]
  · rw [counter_bumpPort_ite hp (by decide), counter_bumpPort_ite hp (by decide), State.counter_bumpPortBy_same hp,
      State.counter_bumpPort_sub hp (by decide)]

/-- An accepted frame that is no MAC control frame and has no tag for the claim filter. -/
theorem receiveWhole_passes {p : Nat} {b : Bytes} {err : RxErr} {s : State} (hd : macDiscard s p b err = none)
    (hc : beAt b 12 2 ≠ 0x8808) (hf : claimFilter p b s = (.untouched, s)) (stamps steps : List Nat) :
    receiveWhole p b err stamps steps false s = passToClassifier p
      { bytes := b, source := p, stamps := stamps, steps := steps,
        since := if b.length ≤ 128 then none else some (nowPs s) } s := by
  rw [receiveWhole, hd]
  dsimp only
  rw [if_neg hc, hf]
  dsimp only
  rw [Bool.false_or]
  by_cases h : b.length ≤ 128
  · rw [if_pos h, if_pos (decide_eq_true h)]
  · rw [if_neg h, if_neg (by rw [decide_eq_false h]; decide)]

/-! ## The statement -/

/-- Settles O25: the FEC counters stand apart (`noteFec`), then the MAC takes the frame by its delimiter. -/
theorem framesReceived : Obligations.FramesReceived := by
  unfold Obligations.FramesReceived
  intro p b quarter corrected bad s
  refine ⟨fun hm err u hu => ?_, fun hp hl smd err => congrArg Host.Outcome.next ?_⟩
  · obtain ⟨-, -, hport⟩ := macReceives_facts hm
    have he : ∀ smd, exec (.frameReceived p smd b err quarter corrected bad) s = .next (macTakes p smd b err quarter u) :=
      fun smd => congrArg Host.Outcome.next ((effFrameReceived_mac hm ..).trans (by rw [hu]))
    have hcnt : ∀ sub < 9, u.counter (portCounters p) sub 0 = s.counter (portCounters p) sub 0 :=
      fun sub h => by rw [hu, noteFec_counter h]
    obtain ⟨c, hc⟩ : OnlyCounts s u := hu ▸ onlyCounts_noteFec p err corrected bad s
    refine ⟨fun sub hd => ⟨_, he _, ?_⟩, fun hd hb hf => ⟨_, he _, ?_⟩, he _,
      fun hg hpre => ⟨fun n ha => ?_, fun n k a ha h1 h2 => ?_⟩⟩
    · have hd' : macDiscard u p b err = some sub := by rw [hc]; exact hd
      have hr := receiveWhole_discards hd' (stampsNow u quarter) (stepsNow u) false
      rw [macTakes, hr]
      refine ⟨(State.counter_congr (loseFrame_cnt ..) ..).trans (State.counter_bumpPort_same hport u sub), fun hl => ?_⟩
      obtain ⟨e, hbump⟩ := onlyCounts_bumpPort u p sub
      rw [loseFrame_late (by rw [hbump, hc]; exact hl), hbump, hc]
      exact (Keeps.setCnt (.refl _ s) (.of (by decide))).only
    · have hd' : macDiscard u p b err = none := by rw [hc]; exact hd
      obtain ⟨h1, h2⟩ := acceptCounts_frames hport b u
      obtain ⟨e, hcounts⟩ := onlyCounts_acceptCounts p b u
      rw [macTakes, receiveWhole_passes hd' hb hf, passToClassifier_eq]
      rw [hcnt _ (by decide)] at h1 h2
      rw [hcounts] at h1 h2 ⊢
      subst hc
      obtain ⟨hmine, hnext, hother⟩ := enterFrame_flight
        { bytes := b, source := p, stamps := stampsNow s quarter, steps := stepsNow s,
          since := if b.length ≤ 128 then none else some (nowPs s) } { s with cnt := e }
      exact ⟨hmine, hnext, hother, h1, h2,
        (enterFrame_keeps (Keeps.setCnt (.refl _ s) (.of (by decide))) (.of (by decide))).only⟩
    · have ha' : (u.port p).asm = none := by rw [hc]; exact ha
      refine (he _).trans (congrArg Host.Outcome.next ?_)
      rw [macTakes, if_pos (by rw [hc]; exact hpre), startFragment, ha', hc, hg]
      rfl
    · have ha' : (u.port p).asm = some a := by rw [hc]; exact ha
      refine (he _).trans (congrArg Host.Outcome.next ?_)
      rw [macTakes, if_pos (by rw [hc]; exact hpre), moreFragment]
      dsimp only
      rw [ha']
      dsimp only
      rw [if_neg (by omega), hg]
      rfl
  · rw [effFrameReceived, if_pos hp, hl]
    rfl

end Sys2Proof.Machine
end

section
/-!
PROOF. The ingress decision of a frame (R25, R68, R135, R137, R149, R196): what it leaves of the fabric, and its outcomes.
-/
namespace Sys2Proof.Machine

/-! ## Steps that take and return cells only -/

/-- A step that leaves the frames in flight, the stored frames and the queues. -/
structure CellsOnly (s t : State) : Prop where
  inflight : t.fabric.inflight = s.fabric.inflight
  frames : t.fabric.frames = s.fabric.frames
  queues : t.fabric.queues = s.fabric.queues

theorem CellsOnly.refl (s : State) : CellsOnly s s := ⟨rfl, rfl, rfl⟩

theorem CellsOnly.trans {s t u : State} (h : CellsOnly s t) (k : CellsOnly t u) : CellsOnly s u :=
  ⟨k.inflight.trans h.inflight, k.frames.trans h.frames, k.queues.trans h.queues⟩

theorem cellsOnly_of_fabric {s t : State} (h : t.fabric = s.fabric) : CellsOnly s t := ⟨by rw [h], by rw [h], by rw [h]⟩

theorem Keeps.cellsOnly {m : Nat} {s t : State} (h : Keeps m s t) (hm : m.testBit Part.fabric.idx = false) : CellsOnly s t :=
  cellsOnly_of_fabric (h.same .fabric hm)

theorem CellsOnly.ite {s t u : State} {c : Prop} [Decidable c] (h : CellsOnly s t) (k : CellsOnly s u) :
    CellsOnly s (if c then t else u) := by split <;> assumption

theorem cellsOnly_updXp (s : State) (x : Nat) (f : XPoint → XPoint) : CellsOnly s (s.updXp x f) := ⟨rfl, rfl, rfl⟩

theorem cellsOnly_bumpPort (s : State) (p sub : Nat) : CellsOnly s (s.bumpPort p sub) :=
  cellsOnly_of_fabric (State.bumpPort_fabric s p sub)

theorem cellsOnly_countAt (ports : List Nat) (sub : Nat) (s : State) : CellsOnly s (countAt ports sub s) :=
  (countAt_keeps (m := 0x200) (.refl _ s) (.of (by decide))).cellsOnly (by decide)

theorem cellsOnly_earlyDrop (im : Image) (profile port tc colour pipe : Nat) (ect : Bool) (s : State) :
    CellsOnly s (earlyDrop im profile port tc colour pipe ect s).2 := by
  unfold earlyDrop
  dsimp only
  split
  · exact .refl s
  · split
    · exact .refl s
    · split
      · exact ⟨rfl, rfl, rfl⟩
      · split <;> exact ⟨rfl, rfl, rfl⟩

theorem cellsOnly_memberResult (im : Image) (h : Carriage) (m : Nat) (s : State) : CellsOnly s (memberResult im h m s).2 := by
  unfold memberResult
  split
  · exact cellsOnly_earlyDrop ..
  · exact .refl s

theorem cellsOnly_judgeMembers (im : Image) (h : Carriage) (l : List Nat) (s : State) :
    CellsOnly s (judgeMembers im h l s).2 := by
  induction l generalizing s with
  | nil => exact .refl s
  | cons m r ih =>
    rw [judgeMembers]
    exact (cellsOnly_memberResult im h m s).trans
      ((CellsOnly.ite (cellsOnly_bumpPort _ m 0x52) (.refl _)).trans (ih _))

theorem cellsOnly_admitXp (im : Image) (id : Nat) (h : Carriage) (stored x : Nat) (members : List Nat) (s : State) :
    CellsOnly s (admitXp im id h stored x members s).2.2 := by
  have hj := cellsOnly_judgeMembers im h members s
  unfold admitXp
  dsimp only
  split
  · exact cellsOnly_countAt members 0x56 s
  · split
    · exact cellsOnly_countAt members 0x50 s
    · split
      · exact hj
      · exact hj.trans (CellsOnly.ite (cellsOnly_updXp _ x _) ((cellsOnly_updXp _ x _).trans (cellsOnly_countAt _ 0x51 _)))

theorem cellsOnly_admitRow (im : Image) (id : Nat) (h : Carriage) (stored : Nat) (members l : List Nat) (s : State) :
    CellsOnly s (admitRow im id h stored members l s).2.2 := by
  induction l generalizing s with
  | nil => exact .refl s
  | cons j r ih =>
    rw [admitRow]
    dsimp only
    split
    · exact ih s
    · exact (cellsOnly_admitXp im id h stored _ _ s).trans (ih _)

/-- Admission takes cells; it stores and links nothing (R196). -/
theorem cellsOnly_admitFrame (im : Image) (id : Nat) (h : Carriage) (stored : Nat) (members : List Nat) (s : State) :
    CellsOnly s (admitFrame im id h stored members s).2 :=
  (cellsOnly_admitRow im id h stored members (upTo 17) s).trans (CellsOnly.ite (.refl _) (cellsOnly_bumpPort _ _ _))

/-! ## The decision -/

theorem find_putInflight (s : State) (id : Nat) (f : Inflight) :
    AMap.find (s.putInflight id f).fabric.inflight id = some f := (AMap.find_set _ _ _ _).trans (if_pos rfl)

theorem putInflight_inj {s t : State} {id : Nat} {f g : Inflight} (h : s.putInflight id f = t.putInflight id g) : f = g := by
  have hf := find_putInflight s id f
  rw [h, find_putInflight] at hf
  exact (Option.some.inj hf).symm

/-- A decision of a frame in flight: the frame decided, its bytes, source, stamps and MAC verdict kept, and cells taken. -/
def Decides (id : Nat) (f : Inflight) (s t : State) : Prop :=
  ∃ g u, t = u.putInflight id g ∧ CellsOnly s u ∧ g.decided = true ∧ g.bytes = f.bytes ∧ g.source = f.source ∧
    g.stamps = f.stamps ∧ g.lost = f.lost

theorem Decides.of_cells {id : Nat} {f : Inflight} {s u t : State} (h : CellsOnly s u) (k : Decides id f u t) :
    Decides id f s t := by
  obtain ⟨g, v, ht, hc, hg⟩ := k
  exact ⟨g, v, ht, h.trans hc, hg⟩

theorem Decides.ite {id : Nat} {f : Inflight} {s t u : State} {c : Prop} [Decidable c] (h : Decides id f s t)
    (k : Decides id f s u) : Decides id f s (if c then t else u) := by split <;> assumption

theorem decides_put {id : Nat} {f g : Inflight} {s u : State} (hc : CellsOnly s u) (hd : g.decided = true)
    (hb : g.bytes = f.bytes) (hs : g.source = f.source) (ht : g.stamps = f.stamps) (hl : g.lost = f.lost) :
    Decides id f s (u.putInflight id g) := ⟨g, u, rfl, hc, hd, hb, hs, ht, hl⟩

theorem decideEgress_decides (im : Image) (id : Nat) (f : Inflight) (q : Parsed) (r : Route) (s : State) :
    Decides id f s (decideEgress im id f q r s) := by
  unfold decideEgress
  dsimp only
  have hc : CellsOnly s (match matchFilter im (r.stream.map fun h : StreamHit => h.handle) (framePriority s im f.source q) with
      | some k => earlyChecks im k f.source s
      | none => (some none, s)).2 := by
    split
    · exact (earlyChecks_keeps (m := 0x2200) (.refl _ s) (.of (by decide))).cellsOnly (by decide)
    · exact .refl s
  split
  · exact decides_put hc rfl rfl rfl rfl rfl
  · exact Decides.ite (decides_put hc rfl rfl rfl rfl rfl)
      (decides_put (hc.trans (cellsOnly_admitFrame ..)) rfl rfl rfl rfl rfl)

theorem cellsOnly_forward (im : Image) (p : Nat) (q : Parsed) (b : Bytes) (s : State) : CellsOnly s (forward im p q b s).2 :=
  (forward_keeps (m := 0x200) (.refl _ s) (.of (by decide))).cellsOnly (by decide)

theorem decideFrame_decides (id : Nat) (f : Inflight) (s : State) : Decides id f s (decideFrame id f s) := by
  unfold decideFrame
  dsimp only
  split
  · exact ⟨_, _, rfl, cellsOnly_bumpPort .., rfl, rfl, rfl, rfl, rfl⟩
  · split
    · exact ⟨_, _, rfl, cellsOnly_forward .., rfl, rfl, rfl, rfl, rfl⟩
    · exact .of_cells (cellsOnly_forward ..) (decideEgress_decides ..)

section
variable {id : Nat} {f : Inflight} {s u : State} {q : Parsed} {r : Route} (hq : q = parse (sTpid s) f.bytes)
include hq

theorem decideFrame_refused (h : stateAdmits s f.source q = false) : decideFrame id f s =
    (s.bumpPort f.source 0x0C).putInflight id
      { f with decided := true, discarded := true, hdr := buildHeader s s.cfg.running f q {} 0 0 } := by
  subst hq
  rw [decideFrame]
  exact if_pos (by rw [h]; rfl)

variable (ha : stateAdmits s f.source q = true) (hf : forward s.cfg.running f.source q f.bytes s = (r, u))
include ha hf

theorem decideFrame_admitted : decideFrame id f s =
    if r.egress.isNone then u.putInflight id { f with
      decided := true, discarded := true, hdr := buildHeader u s.cfg.running f q r 0 0,
      late := lateOf u s.cfg.running f.source q r none none }
    else decideEgress s.cfg.running id f q r u := by
  subst hq
  rw [decideFrame]
  exact (if_neg (by rw [ha]; decide)).trans (by rw [hf])

end

theorem framePriority_forward {s u : State} {im : Image} {p : Nat} {q : Parsed} {b : Bytes} {r : Route}
    (hf : forward im p q b s = (r, u)) : framePriority u im p q = framePriority s im p q := by
  have hk := forward_keeps (m := 0x200) (a0 := im) (a1 := p) (a2 := q) (a3 := b) (.refl _ s) (.of (by decide))
  rw [hf] at hk
  unfold framePriority classify
  rw [hk.same .ident (by decide)]

/-- With no filter the frame goes to the members that R137 leaves. -/
theorem decideEgress_unfiltered {im : Image} {id : Nat} {f : Inflight} {q : Parsed} {r : Route} {s : State}
    (h : matchFilter im (r.stream.map (·.handle)) (framePriority s im f.source q) = none) {m : List Nat} {hdr : Carriage}
    (hm : m = membersOf s im f.source (effectiveVid s im f.source q) r)
    (hh : hdr = buildHeader s im f q r (trafficClass s im f.source q r.stream) (initialColour s im f.source q)) :
    decideEgress im id f q r s =
      if m.isEmpty then s.putInflight id { f with
        decided := true, hdr := hdr, late := { lateOf s im f.source q r none none with emptied := noMembers f.source r } }
      else (admitFrame im id hdr (24 + arrived s f) m s).2.putInflight id { f with
        decided := true, hdr := hdr, late := lateOf s im f.source q r none none,
        placed := (admitFrame im id hdr (24 + arrived s f) m s).1 } := by
  subst hm hh
  rw [decideEgress]
  dsimp only
  rw [h]

/-- The outcomes of the decision of a frame that the MAC accepted. -/
theorem decideFrame_outcomes {id : Nat} {f : Inflight} {s : State} {g : Inflight} {v : State}
    (he : decideFrame id f s = v.putInflight id g) {q : Parsed} (hq : q = parse (sTpid s) f.bytes) :
    (stateAdmits s f.source q = false →
      g.discarded = true ∧ decideFrame id f s = (s.bumpPort f.source 0x0C).putInflight id g) ∧
    (stateAdmits s f.source q = true → ∀ r u, forward s.cfg.running f.source q f.bytes s = (r, u) →
      (r.egress = none → g.discarded = true ∧ decideFrame id f s = u.putInflight id g) ∧
      (r.egress.isSome = true →
        matchFilter s.cfg.running (r.stream.map (·.handle)) (framePriority s s.cfg.running f.source q) = none →
        ∀ m, m = membersOf u s.cfg.running f.source (effectiveVid u s.cfg.running f.source q) r →
          g.discarded = f.discarded ∧
          g.hdr = buildHeader u s.cfg.running f q r (trafficClass u s.cfg.running f.source q r.stream)
            (initialColour u s.cfg.running f.source q) ∧
          (m = [] → g.placed = f.placed ∧ g.late.emptied = noMembers f.source r ∧ decideFrame id f s = u.putInflight id g) ∧
          (m ≠ [] → g.placed = (admitFrame s.cfg.running id g.hdr (24 + arrived u f) m u).1 ∧
            decideFrame id f s = (admitFrame s.cfg.running id g.hdr (24 + arrived u f) m u).2.putInflight id g))) := by
  refine ⟨fun ha => ?_, fun ha r u hf => ⟨fun hr => ?_, fun hr hflt m hm => ?_⟩⟩
  · have h := decideFrame_refused (id := id) hq ha
    have hg := putInflight_inj (he.symm.trans h)
    exact ⟨by rw [hg], by rw [h, hg]⟩
  · have h := decideFrame_admitted (id := id) hq ha hf
    rw [hr] at h
    have h := h.trans (if_pos rfl)
    have hg := putInflight_inj (he.symm.trans h)
    exact ⟨by rw [hg], by rw [h, hg]⟩
  · have h := (decideFrame_admitted (id := id) hq ha hf).trans
      ((if_neg (by rw [← Option.not_isSome, hr]; decide)).trans
        (decideEgress_unfiltered (by rw [framePriority_forward hf]; exact hflt) hm rfl))
    cases hmem : m with
    | nil =>
      rw [hmem] at h
      have h := h.trans (if_pos rfl)
      have hg := putInflight_inj (he.symm.trans h)
      exact ⟨by rw [hg], by rw [hg], fun _ => ⟨by rw [hg], by rw [hg], by rw [h, hg]⟩, fun hn => absurd rfl hn⟩
    | cons x l =>
      rw [hmem] at h
      have h := h.trans (if_neg Bool.false_ne_true)
      have hg := putInflight_inj (he.symm.trans h)
      exact ⟨by rw [hg], by rw [hg], fun hn => (nomatch hn), fun _ => ⟨by rw [hg], by rw [h, hg]⟩⟩

/-- The decision of a frame that the MAC has discarded only takes cells, or ends the frame (R194). -/
theorem decideLost_facts (id : Nat) {f : Inflight} (s : State) (hl : f.lost = true) :
    Only [.fabric] s (decideLost id f s) ∧ (decideLost id f s).fabric.frames = s.fabric.frames ∧
    (decideLost id f s).fabric.queues = s.fabric.queues ∧
    ∀ g, AMap.find (decideLost id f s).fabric.inflight id = some g → g.bytes = f.bytes ∧ g.lost = true := by
  obtain ⟨g, u, he, -, -, hb, -, -, hlost⟩ := decideFrame_decides id f s
  have hfind : (AMap.find (decideFrame id f s).fabric.inflight id).getD f = g := by rw [he, find_putInflight]; rfl
  unfold decideLost
  dsimp only
  rw [hfind]
  split
  · refine ⟨(State.dropInflight_keeps (.refl _ s) (.of (by decide))).only, rfl, rfl, fun x hx => ?_⟩
    rw [show AMap.find (s.dropInflight id).fabric.inflight id = none from (AMap.find_del _ _ _).trans (if_pos rfl)] at hx
    exact nomatch hx
  · refine ⟨(State.putInflight_keeps (Keeps.setFabric (.refl _ s) (.of (by decide))) (.of (by decide))).only, rfl, rfl,
      fun x hx => ?_⟩
    rw [find_putInflight] at hx
    rw [← Option.some.inj hx]
    exact ⟨hb, hlost.trans hl⟩

/-- Settles O26: the decision's outcomes by R135, R137 and R149, from its shape (`Decides`). -/
theorem ingressDecided : Obligations.IngressDecided := by
  unfold Obligations.IngressDecided
  intro id s
  refine ⟨fun f hfind hd hl => ?_, fun f hfind hd hl => ?_, fun f hfind hd => congrArg Host.Outcome.next ?_,
    fun hfind => congrArg Host.Outcome.next ?_⟩
  · obtain ⟨g, u, he, hc, hdec, hb, hs, hst, -⟩ := decideFrame_decides id f s
    have heff : effIngressDecision id s = decideFrame id f s := by
      rw [effIngressDecision, hfind]
      exact (if_neg (by rw [hd]; decide)).trans (if_neg (by rw [hl]; decide))
    refine ⟨_, congrArg Host.Outcome.next heff, g, by rw [he, find_putInflight], hdec, hb, hs, hst, ?_, ?_, fun q hq => ?_⟩
    · rw [he]; exact hc.frames
    · rw [he]; exact hc.queues
    · exact decideFrame_outcomes he hq
  · have heff : effIngressDecision id s = decideLost id f s := by
      rw [effIngressDecision, hfind]
      exact (if_neg (by rw [hd]; decide)).trans (if_pos hl)
    exact ⟨_, congrArg Host.Outcome.next heff, decideLost_facts id s hl⟩
  · rw [effIngressDecision, hfind]
    exact if_pos hd
  · rw [effIngressDecision, hfind]

end Sys2Proof.Machine
end

section
/-!
PROOF. The received-and-checked instant (R25, R26, R158, R193, R194): a frame is stored and linked.
-/
namespace Sys2Proof.Machine

/-! ## Places -/

theorem cellsOnly_abandonFrame (f : Inflight) (s : State) : CellsOnly s (abandonFrame f s) := by
  unfold abandonFrame
  induction f.placed generalizing s with
  | nil => exact .refl s
  | cons p r ih => exact (cellsOnly_updXp s _ _).trans (ih _)

theorem cellsOnly_growPlace (im : Image) (tc stored : Nat) (p : Placed) (s : State) :
    CellsOnly s (growPlace im tc stored p s).2 := by
  unfold growPlace
  split
  · exact cellsOnly_updXp ..
  · exact (cellsOnly_updXp ..).trans ((cellsOnly_updXp ..).trans (cellsOnly_countAt ..))

theorem cellsOnly_growPlaces (im : Image) (tc stored : Nat) (l : List Placed) (s : State) :
    CellsOnly s (growPlaces im tc stored l s).2 := by
  induction l generalizing s with
  | nil => exact .refl s
  | cons p r ih => exact (cellsOnly_growPlace im tc stored p s).trans (ih _)

/-- A frame that holds the cells of its bytes keeps its place (R197). -/
theorem growPlace_whole {im : Image} {tc stored : Nat} {p : Placed} (h : (p.offset + stored + 63) / 64 ≤ p.cells.length)
    (s : State) :
    (growPlace im tc stored p s).1 = some p := by
  rw [growPlace, Nat.sub_eq_zero_of_le h, takeCells]
  simp

theorem growPlaces_whole {im : Image} {tc stored : Nat} {l : List Placed}
    (h : ∀ p ∈ l, (p.offset + stored + 63) / 64 ≤ p.cells.length) (s : State) : (growPlaces im tc stored l s).1 = l := by
  induction l generalizing s with
  | nil => rfl
  | cons p r ih =>
    rw [growPlaces]
    dsimp only
    rw [growPlace_whole (h p List.mem_cons_self), ih fun x hx => h x (List.mem_cons_of_mem p hx)]
    rfl

/-! ## References -/

/-- A queue loses no reference to another's linking, and keeps its own. -/
theorem mem_insertRef (frames : AMap Stored) (r : Ref) (src : Nat) (l : List Ref) (x : Ref) :
    x ∈ insertRef frames r src l ↔ x = r ∨ x ∈ l := by
  induction l with
  | nil => exact List.mem_singleton.trans (by simp)
  | cons y l ih =>
    unfold insertRef
    extract_lets src'
    split
    · exact List.mem_cons
    · rw [List.mem_cons, ih, List.mem_cons]
      tauto

/-- A step of linking: what is linked stays linked, and only queues and crosspoints change. -/
structure LinksMore (s t : State) : Prop where
  refs : ∀ p tc, (s.queue p tc).refs ⊆ (t.queue p tc).refs
  frames : t.fabric.frames = s.fabric.frames
  inflight : t.fabric.inflight = s.fabric.inflight
  cycle : t.cycle = s.cycle

theorem LinksMore.refl (s : State) : LinksMore s s := ⟨fun _ _ => List.Subset.refl _, rfl, rfl, rfl⟩

theorem LinksMore.trans {s t u : State} (h : LinksMore s t) (k : LinksMore t u) : LinksMore s u :=
  ⟨fun p tc => List.Subset.trans (h.refs p tc) (k.refs p tc), k.frames.trans h.frames, k.inflight.trans h.inflight,
    k.cycle.trans h.cycle⟩

theorem linksMore_foldl {α : Type} {f : State → α → State} (h : ∀ s x, LinksMore s (f s x)) (l : List α) (s : State) :
    LinksMore s (l.foldl f s) := by
  induction l generalizing s with
  | nil => exact .refl s
  | cons x r ih => exact (h s x).trans (ih _)

theorem linkMember_queue (id src tc : Nat) (s : State) (m : Nat × Bool) : ((linkMember id src tc s m).queue m.1 tc).refs =
    insertRef s.fabric.frames { frame := id, markCe := m.2, linkedAt := s.cycle + 8 } src (s.queue m.1 tc).refs := by
  unfold linkMember State.updQueue State.queue
  dsimp only
  rw [AMap.get_upd_same]

theorem linksMore_linkMember (id src tc : Nat) (s : State) (m : Nat × Bool) : LinksMore s (linkMember id src tc s m) := by
  refine ⟨fun p c => ?_, rfl, rfl, rfl⟩
  by_cases h : queueKey m.1 tc = queueKey p c
  · have hq : ∀ u : State, u.queue p c = u.queue m.1 tc := fun u => by unfold State.queue; rw [h]
    rw [hq, hq, linkMember_queue]
    exact fun x hx => (mem_insertRef ..).2 (.inr hx)
  · have he : (linkMember id src tc s m).queue p c = s.queue p c := by
      unfold linkMember State.updQueue State.queue
      dsimp only
      exact AMap.get_upd_other (α := Queue) {} _ _ h
    rw [he]
    exact List.Subset.refl _

theorem linksMore_linkPlace (id len src tc : Nat) (s : State) (p : Placed) : LinksMore s (linkPlace id len src tc s p) :=
  LinksMore.trans (t := s.updXp p.xp (tailAfterLink p len)) ⟨fun _ _ => List.Subset.refl _, rfl, rfl, rfl⟩
    (linksMore_foldl (linksMore_linkMember id src tc) _ _)

/-- A fold of linking steps leaves linked whatever one of its steps links in every state that the fold can pass. -/
theorem foldl_links {α : Type} {f : State → α → State} (h : ∀ s x, LinksMore s (f s x)) {P : α → State → Prop} {c : Nat}
    (hp : ∀ s x, s.cycle = c → P x (f s x)) (hm : ∀ x {s t}, LinksMore s t → P x s → P x t) {l : List α} {x : α} (hx : x ∈ l)
    {s : State} (hs : s.cycle = c) : P x (l.foldl f s) := by
  induction l generalizing s with
  | nil => exact nomatch hx
  | cons y r ih =>
    rcases List.mem_cons.1 hx with rfl | hr
    · exact hm x (linksMore_foldl h r _) (hp s x hs)
    · exact ih hr ((h s y).cycle.trans hs)

/-- A member has the reference that R193 gives it to frame `id`. -/
def Referenced (id tc cycle : Nat) (m : Nat × Bool) (s : State) : Prop :=
  ∃ r ∈ (s.queue m.1 tc).refs, r.frame = id ∧ r.markCe = m.2 ∧ r.linkedAt = cycle + 8

theorem Referenced.more {id tc cycle : Nat} {m : Nat × Bool} {s t : State} (h : LinksMore s t)
    (k : Referenced id tc cycle m s) : Referenced id tc cycle m t := by
  obtain ⟨r, hr, hf⟩ := k
  exact ⟨r, h.refs m.1 tc hr, hf⟩

theorem linkMember_references (id src tc : Nat) (s : State) (m : Nat × Bool) :
    Referenced id tc s.cycle m (linkMember id src tc s m) := by
  refine ⟨{ frame := id, markCe := m.2, linkedAt := s.cycle + 8 }, ?_, rfl, rfl, rfl⟩
  rw [linkMember_queue, mem_insertRef]
  exact .inl rfl

theorem linkPlace_references (id len src tc : Nat) (s : State) {p : Placed} {m : Nat × Bool} (hm : m ∈ p.members) :
    Referenced id tc s.cycle m (linkPlace id len src tc s p) :=
  foldl_links (P := Referenced id tc s.cycle) (c := s.cycle) (linksMore_linkMember id src tc)
    (fun u x hu => by rw [← hu]; exact linkMember_references id src tc u x) (fun _ _ _ h k => k.more h) hm rfl

/-- A linked frame is stored, and every member of every place has its reference (R193). -/
theorem linkFrame_facts (id : Nat) (f : Stored) (s : State) :
    (linkFrame id f s).fabric.inflight = s.fabric.inflight ∧
    AMap.find (linkFrame id f s).fabric.frames id =
      some { f with placed := f.placed.map fun p => { p with refs := p.members.length } } ∧
    ∀ p ∈ f.placed, ∀ m ∈ p.members, Referenced id f.hdr.tc s.cycle m (linkFrame id f s) := by
  unfold linkFrame
  dsimp only
  have hmore := fun l : List Placed => linksMore_foldl (linksMore_linkPlace id (24 + f.bytes.length) f.hdr.source f.hdr.tc) l
  refine ⟨(hmore _ _).inflight, by rw [(hmore _ _).frames, AMap.find_set, if_pos rfl], fun p hp m hm => ?_⟩
  have hp' : ({ p with refs := p.members.length } : Placed) ∈ f.placed.map fun p => { p with refs := p.members.length } :=
    List.mem_map_of_mem hp
  refine foldl_links (P := fun p' u => ∀ m ∈ p'.members, Referenced id f.hdr.tc s.cycle m u) (c := s.cycle)
    (linksMore_linkPlace id (24 + f.bytes.length) f.hdr.source f.hdr.tc)
    (fun u x hu m hm => by rw [← hu]; exact linkPlace_references _ _ _ _ u hm)
      (fun _ _ _ h k m hm => (k m hm).more h) hp' ?_ m hm
  rfl

/-! ## The instant -/

theorem numberFrame_tc (h : Carriage) (s : State) : (numberFrame h s).1.tc = h.tc := by
  unfold numberFrame
  dsimp only
  split <;> rfl

/-- The state in which a decided frame has left flight, been recorded, learned and claimed. -/
def flightEnded (id : Nat) (f : Inflight) (s : State) : State :=
  (checkedClaim f (checkedLearn f (rxRecord (s.epochImage f.hdr.epoch) f (s.dropInflight id)))).2

theorem flightEnded_keeps (id : Nat) (f : Inflight) (s : State) :
    Keeps 0xc305b200 (s.dropInflight id) (flightEnded id f s) :=
  checkedClaim_keeps (checkedLearn_keeps (rxRecord_keeps (.refl _ _) (.of (by decide))) (.of (by decide))) (.of (by decide))

theorem flightEnded_cells (id : Nat) (f : Inflight) (s : State) : CellsOnly (s.dropInflight id) (flightEnded id f s) :=
  (flightEnded_keeps id f s).cellsOnly (by decide)

theorem checkFrame_eq (id : Nat) (f : Inflight) (s : State) : checkFrame id f s =
    if f.discarded then flightEnded id f s
    else if (checkedClaim f (checkedLearn f (rxRecord (s.epochImage f.hdr.epoch) f (s.dropInflight id)))).1
    then abandonFrame f (flightEnded id f s)
    else match lateChecks (s.epochImage f.hdr.epoch) f.hdr f.late (flightEnded id f s) with
      | (none, s2) => abandonFrame f s2
      | (some c, s2) => linkChecked id f c s2 := rfl

/-- A frame that has passed every check enters flight no more. -/
theorem linkChecked_inflight (id : Nat) (f : Inflight) (colour : Nat) (s : State) :
    (linkChecked id f colour s).fabric.inflight = s.fabric.inflight := by
  have hn : CellsOnly s (numberFrame { f.hdr with colour := colour } s).2 :=
    (numberFrame_keeps (m := 0x100200) (.refl _ s) (.of (by decide))).cellsOnly (by decide)
  unfold linkChecked
  dsimp only
  split
  · exact (hn.trans (cellsOnly_bumpPort ..)).inflight
  · split
    · exact (hn.trans (cellsOnly_growPlaces ..)).inflight
    · exact (linkFrame_facts ..).1.trans (hn.trans (cellsOnly_growPlaces ..)).inflight

theorem checkFrame_inflight (id : Nat) (f : Inflight) (s : State) :
    (checkFrame id f s).fabric.inflight = AMap.del s.fabric.inflight id := by
  have hf := flightEnded_cells id f s
  have hl : CellsOnly _ (lateChecks (s.epochImage f.hdr.epoch) f.hdr f.late (flightEnded id f s)).2 :=
    (lateChecks_keeps (m := 0x2200) (.refl _ _) (.of (by decide))).cellsOnly (by decide)
  rw [checkFrame_eq]
  split
  · exact hf.inflight
  · split
    · exact (hf.trans (cellsOnly_abandonFrame ..)).inflight
    · split
      next h => rw [h] at hl; exact ((hf.trans hl).trans (cellsOnly_abandonFrame ..)).inflight
      next h => rw [h] at hl; exact (linkChecked_inflight ..).trans (hf.trans hl).inflight

/-- A frame whose every place holds its bytes is stored and linked in each (R26, R193). -/
theorem linkChecked_links {id : Nat} {f : Inflight} (colour : Nat) {s : State} (he : f.late.emptied = none) (hp : f.placed ≠ [])
    (hc : ∀ pl ∈ f.placed, (pl.offset + (24 + f.bytes.length) + 63) / 64 ≤ pl.cells.length) :
    ∃ g, AMap.find (linkChecked id f colour s).fabric.frames id = some g ∧ g.bytes = f.bytes ∧ g.checkedAt = s.cycle ∧
      g.hdr.tc = f.hdr.tc ∧
      ∀ pl ∈ f.placed, ∀ m ∈ pl.members, Referenced id g.hdr.tc s.cycle m (linkChecked id f colour s) := by
  have htc := numberFrame_tc { f.hdr with colour := colour } s
  have hcyc : ∀ im tc n l, (growPlaces im tc n l (numberFrame { f.hdr with colour := colour } s).2).2.cycle = s.cycle :=
    fun im tc n l => (growPlaces_keeps (m := 0x100600) (numberFrame_keeps (.refl _ s) (.of (by decide))) (.of (by decide))).same
      .cycle (by decide)
  unfold linkChecked
  dsimp only
  rw [he]
  dsimp only
  rw [growPlaces_whole hc, if_neg (by simpa using hp)]
  obtain ⟨-, hfind, href⟩ := linkFrame_facts id
    { bytes := f.bytes, hdr := (numberFrame { f.hdr with colour := colour } s).1, steps := f.steps, checkedAt := s.cycle,
      hostTag := f.hostTag, placed := f.placed }
    (growPlaces (s.epochImage (numberFrame { f.hdr with colour := colour } s).1.epoch)
      (numberFrame { f.hdr with colour := colour } s).1.tc (24 + f.bytes.length) f.placed
      (numberFrame { f.hdr with colour := colour } s).2).2
  refine ⟨_, hfind, rfl, rfl, htc, fun pl hpl m hm => ?_⟩
  have hr := href pl hpl m hm
  rw [hcyc] at hr
  exact hr

/-- Settles O27: a decided frame leaves flight (`flightEnded`), and is stored and linked where nothing stops it. -/
theorem framesLinked : Obligations.FramesLinked := by
  unfold Obligations.FramesLinked
  intro id f s hfind
  have heff : effReceivedAndChecked id s =
      if f.lost then abandonFrame f (s.dropInflight id) else if f.decided then checkFrame id f s else s := by
    rw [effReceivedAndChecked, hfind]
  refine ⟨fun hl hd => ⟨_, congrArg Host.Outcome.next (heff.trans ((if_neg (by rw [hl]; decide)).trans (if_pos hd))), ?_,
    fun hx => ?_,
    fun hx hp hc hflt he hcells => ?_⟩, fun hl => congrArg Host.Outcome.next (heff.trans (if_pos hl)),
    fun hl hd => congrArg Host.Outcome.next (heff.trans ((if_neg (by rw [hl]; decide)).trans (if_neg (by rw [hd]; decide))))⟩
  · rw [checkFrame_inflight, AMap.find_del, if_pos rfl]
  · rw [checkFrame_eq, if_pos hx]
    exact ⟨(flightEnded_cells id f s).frames, (flightEnded_cells id f s).queues⟩
  · have hpass : lateChecks (s.epochImage f.hdr.epoch) f.hdr f.late (flightEnded id f s) =
      (some f.hdr.colour, flightEnded id f s) := by
      rw [lateChecks, hflt]
    have hcyc : (flightEnded id f s).cycle = s.cycle := (flightEnded_keeps id f s).same .cycle (by decide)
    rw [checkFrame_eq, if_neg (by rw [hx]; decide), if_neg (by rw [checkedClaim, hc]; exact Bool.false_ne_true), hpass, ← hcyc]
    exact linkChecked_links f.hdr.colour he hp hcells

end Sys2Proof.Machine
end

section
/-!
PROOF. The disposal of a selected frame whose link is down (R106, R170, R189): what its recovery context counts.
-/
namespace Sys2Proof.Machine

/-- A key of a recovery context whose counters are numbered like those of a port: counter 7 of the context and counter
0x13 of line port 0 are one. -/
def collidingContext : Nat := ((0x9000 - 0x3005) * 256 + 0x13 - 7) * 2 ^ 32

theorem collidingContext_counter : cntKey 0x3005 7 collidingContext = cntKey 0x9000 0x13 0 := by decide

/-- Stream 0 at line port 0 is recovered by that context, which takes frames without a sequence number. -/
def collidingImage : Image :=
  { tables := [(0x3003, [(collidingContext, [.num 0, .num 0, .num 0, .num 0, .num 0, .num 1])])] }

def collidingState : State := { State.reset with cfg := { State.reset.cfg with running := collidingImage } }

/-- A frame of stream 0 without a sequence number. -/
def unnumberedFrame : Stored := { bytes := [], hdr := { streamValid := true }, steps := [], checkedAt := 0, placed := [] }

def unnumberedRef : Ref := { frame := 0, markCe := false, linkedAt := 0 }

/-- The context passes the frame. -/
theorem unnumberedFrame_passes :
    (recoverFrame 0 unnumberedFrame.hdr (countEcc unnumberedFrame 0 {} collidingState)).1 = true := by
  decide

/-- The drop counts at 0x13 of the port, where the context has counted already. -/
theorem unnumberedFrame_counts :
    (dispose 0 0 unnumberedRef unnumberedFrame {} collidingState).counter (portCounters 0) 0x13 0 = 2 := by decide

/-- Refutes O30: a drop at a port whose link is down need not count one. The image does not bound the keys of recovery contexts,
and one context (`collidingContext`) counts at the port's own counter. -/
theorem not_framesSelected : ¬ Obligations.FramesSelected := by
  unfold Obligations.FramesSelected
  intro h
  obtain ⟨-, -, hdown, -⟩ := h.2 0 0 unnumberedRef unnumberedFrame {} collidingState _ rfl
  obtain ⟨-, -, hcount⟩ := hdown (recoverFrame 0 unnumberedFrame.hdr (countEcc unnumberedFrame 0 {} collidingState)).2 rfl
    (by decide)
    (Prod.ext unnumberedFrame_passes rfl) rfl
  rw [unnumberedFrame_counts] at hcount
  revert hcount
  decide

end Sys2Proof.Machine
end

section
/-!
PROOF. The end of a transmission (R111, R126, R194, R201, R204): what leaves the port and what it counts.
-/
namespace Sys2Proof.Machine

/-! ## What a port's transmission owns -/

/-- What of a port its receiver leaves: the frame in transmission, the instant the line is free, the frames due. -/
def SameLine (x y : Port) : Prop := y.tx = x.tx ∧ y.freeAt = x.freeAt ∧ y.owed = x.owed

/-- A step that leaves the transmission of a port. -/
def LineKept (p : Nat) (s t : State) : Prop := SameLine (s.port p) (t.port p)

theorem LineKept.refl (p : Nat) (s : State) : LineKept p s s := ⟨rfl, rfl, rfl⟩

theorem LineKept.trans {p : Nat} {s t u : State} (h : LineKept p s t) (k : LineKept p t u) : LineKept p s u := by
  obtain ⟨h1, h2, h3⟩ := h
  obtain ⟨k1, k2, k3⟩ := k
  exact ⟨k1.trans h1, k2.trans h2, k3.trans h3⟩

theorem LineKept.ite {p : Nat} {s t u : State} {c : Prop} [Decidable c] (h : LineKept p s t) (k : LineKept p s u) :
    LineKept p s (if c then t else u) := by split <;> assumption

theorem lineKept_of_ports {p : Nat} {s t : State} (h : t.ports = s.ports) : LineKept p s t := by
  unfold LineKept
  rw [State.port_congr h]
  exact ⟨rfl, rfl, rfl⟩

theorem Keeps.lineKept {p m : Nat} {s t : State} (h : Keeps m s t) (hm : m.testBit Part.ports.idx = false) : LineKept p s t :=
  lineKept_of_ports (h.same .ports hm)

theorem lineKept_updPort (p : Nat) (s : State) {f : Port → Port} (h : SameLine (s.port p) (f (s.port p))) :
    LineKept p s (s.updPort p f) := by
  unfold LineKept
  rw [State.updPort_port]
  exact h

theorem lineKept_bumpPort (p sub : Nat) (s : State) : LineKept p s (s.bumpPort p sub) :=
  lineKept_of_ports (State.bumpPort_ports s p sub)

/-! ## What the receiver does of it in near-end loopback -/

theorem lineKept_loseFrame (p : Nat) (b : Bytes) (stamps steps : List Nat) (r : Bool) (s : State) :
    LineKept p s (loseFrame p b stamps steps r s) :=
  (loseFrame_keeps (m := 0x81040640) (.refl _ s) (.of (by decide))).lineKept (by decide)

theorem lineKept_pauseFrame (p quanta : Nat) (s : State) : LineKept p s (pauseFrame p quanta s) :=
  LineKept.ite ((lineKept_bumpPort p 0x07 s).trans (lineKept_updPort p _ ⟨rfl, rfl, rfl⟩)) (lineKept_bumpPort p 0x07 s)

theorem lineKept_claimFilter (p : Nat) (b : Bytes) (s : State) : LineKept p s (claimFilter p b s).2 :=
  (claimFilter_keeps (m := 0x81040240) (.refl _ s) (.of (by decide))).lineKept (by decide)

theorem lineKept_passToClassifier (p : Nat) (f : Inflight) (s : State) : LineKept p s (passToClassifier p f s) :=
  (passToClassifier_keeps (m := 0x600) (.refl _ s) (.of (by decide))).lineKept (by decide)

theorem lineKept_receiveWhole (p : Nat) (b : Bytes) (err : RxErr) (stamps steps : List Nat) (r : Bool) (s : State) :
    LineKept p s (receiveWhole p b err stamps steps r s) := by
  have hc := lineKept_claimFilter p b s
  unfold receiveWhole
  split
  · exact (lineKept_bumpPort p _ s).trans (lineKept_loseFrame ..)
  · split
    · exact .ite (lineKept_pauseFrame ..) (lineKept_bumpPort ..)
    · extract_lets f
      split
      next h => rw [h] at hc; exact hc
      next h => rw [h] at hc; exact hc.trans (lineKept_passToClassifier ..)
      next h => rw [h] at hc; exact hc.trans (lineKept_passToClassifier ..)

theorem lineKept_assemblyError (p : Nat) (s : State) : LineKept p s (assemblyError p s) :=
  (lineKept_updPort p s ⟨rfl, rfl, rfl⟩).trans (lineKept_bumpPort ..)

theorem lineKept_fragmentError (p : Nat) (err : RxErr) (b : Bytes) (stamps steps : List Nat) (s : State) :
    LineKept p s (fragmentError p err b stamps steps s) :=
  ((lineKept_updPort p s ⟨rfl, rfl, rfl⟩).trans (lineKept_bumpPort ..)).trans (lineKept_loseFrame ..)

theorem lineKept_assembled (p : Nat) (a : Asm) (s : State) : LineKept p s (assembled p a s) :=
  ((lineKept_updPort p s ⟨rfl, rfl, rfl⟩).trans (lineKept_bumpPort ..)).trans (lineKept_receiveWhole ..)

theorem lineKept_startFragment (p n : Nat) (last : Bool) (b : Bytes) (err : RxErr) (quarter : Nat) (s : State) :
    LineKept p s (startFragment p n last b err quarter s) := by
  have h0 : LineKept p s (if (s.port p).asm.isSome then assemblyError p s else s) :=
    .ite (lineKept_assemblyError p s) (.refl p s)
  unfold startFragment
  exact h0.trans (.ite (lineKept_fragmentError ..) (.ite (lineKept_assembled ..) (lineKept_updPort p _ ⟨rfl, rfl, rfl⟩)))

theorem lineKept_moreFragment (p n k : Nat) (last : Bool) (b : Bytes) (err : RxErr) (s : State) :
    LineKept p s (moreFragment p n k last b err s) := by
  have h0 := lineKept_bumpPort p 0x1B s
  unfold moreFragment
  dsimp only
  split
  · exact h0.trans (lineKept_assemblyError ..)
  · exact h0.trans (.ite (lineKept_assemblyError ..) (.ite (lineKept_fragmentError ..)
      (.ite (lineKept_assembled ..) (lineKept_updPort p _ ⟨rfl, rfl, rfl⟩))))

theorem lineKept_smdError (p : Nat) (s : State) : LineKept p s (smdError p s) := .ite (lineKept_bumpPort ..) (.refl p s)

theorem lineKept_fragmentRefused (p : Nat) (s : State) : LineKept p s (fragmentRefused p s) :=
  (lineKept_updPort p s ⟨rfl, rfl, rfl⟩).trans (lineKept_smdError ..)

theorem lineKept_macTakes (p : Nat) (smd : Smd) (b : Bytes) (err : RxErr) (quarter : Nat) (s : State) :
    LineKept p s (macTakes p smd b err quarter s) := by
  cases smd with
  | express => exact lineKept_receiveWhole ..
  | unknown => exact lineKept_smdError ..
  | first n last => exact .ite (lineKept_startFragment ..) (lineKept_fragmentRefused ..)
  | more n k last => exact .ite (lineKept_moreFragment ..) (lineKept_fragmentRefused ..)

/-! ## Pieces that leave -/

theorem lineKept_emitPiece (p : Nat) (x : Piece) (stomped : Bool) (s : State) : LineKept p s (emitPiece p x stomped s) :=
  .ite (.ite (lineKept_macTakes ..) (.refl p s)) (.ite (lineKept_of_ports rfl) (lineKept_of_ports rfl))

theorem lineKept_sendPiece (p : Nat) (x : Piece) (s : State) : LineKept p s (sendPiece p x s) := by
  have hc : ∀ t b u, LineKept p u (txCounters p t b u) := fun t b u =>
    (txCounters_keeps (m := 0x200) (.refl _ u) (.of (by decide))).lineKept (by decide)
  have hr : ∀ t u, LineKept p u (txRecords p t u) := fun t u =>
    (txRecords_keeps (m := 0xc3018200) (.refl _ u) (.of (by decide))).lineKept (by decide)
  exact .ite (.ite (lineKept_bumpPort ..) (.refl p s)) ((lineKept_emitPiece ..).trans
    (.ite (.refl p _) ((hc ..).trans (.ite (.refl p _) (hr ..)))))

theorem lineKept_leave (p : Nat) (l : List Piece) (s : State) : LineKept p s (leave p l s) := by
  induction l generalizing s with
  | nil => exact lineKept_updPort p s ⟨rfl, rfl, rfl⟩
  | cons x r ih => exact .ite ((lineKept_sendPiece ..).trans (ih _)) (lineKept_updPort p s ⟨rfl, rfl, rfl⟩)

theorem leave_ready {p : Nat} {x : Piece} (h : x.ready = true) (s : State) :
    leave p [x] s = (sendPiece p x s).updPort p fun y => { y with leaving := [] } := if_pos h

theorem leave_waits {p : Nat} {x : Piece} (h : x.ready = false) (s : State) :
    leave p [x] s = s.updPort p fun y => { y with leaving := [x] } := if_neg (by rw [h]; decide)

/-! ## Counters of a line or management port -/

/-- A step that leaves one counter. -/
def CounterKept (i u k : Nat) (s t : State) : Prop := t.counter i u k = s.counter i u k

section
variable {i u k : Nat} {s t v : State}

theorem CounterKept.refl (s : State) : CounterKept i u k s s := rfl

theorem CounterKept.trans (h : CounterKept i u k s t) (j : CounterKept i u k t v) : CounterKept i u k s v := Eq.trans j h

theorem CounterKept.ite {c : Prop} [Decidable c] (h : CounterKept i u k s t) (j : CounterKept i u k s v) :
    CounterKept i u k s (if c then t else v) := by split <;> assumption

theorem Keeps.counterKept {m : Nat} (h : Keeps m s t) (hm : m.testBit Part.cnt.idx = false) : CounterKept i u k s t :=
  State.counter_congr (h.same .cnt hm) i u k

theorem counterKept_detectFault (b j c d : Nat) (s : State) : CounterKept i u k s (detectFault b j c d s) :=
  State.counter_congr (detectFault_cnt b j c d s) i u k

end

/-- Objects below and above those of the ports count elsewhere. -/
theorem counterKept_bumpBy_elsewhere {p sub i u k : Nat} (hs : sub < 256) (hp : p < 262)
    (h : (i < 0x9000 ∧ u < 256 ∧ k < 2 ^ 32) ∨ 0x9200 ≤ i) (s : State) (n : Nat) :
    CounterKept (portCounters p) sub 0 s (s.bumpBy i u k n) :=
  State.counter_bumpBy_other s n (by unfold cntKey portCounters; split <;> omega)

section
variable {p sub : Nat} (hs : sub < 256)
include hs

theorem counterKept_pulse {l : Nat} (hl : l < 2 ^ 32) (s : State) : CounterKept (portCounters p) sub 0 s (pulse l s) :=
  counter_pulse s (by unfold cntKey portCounters; split <;> omega)

variable (hp : p < 262)
include hp

theorem counterKept_enterRecord {k : Nat} (hk : k < 2) (key : Nat × Nat) (mk : Nat → Bytes) (s : State) :
    CounterKept (portCounters p) sub 0 s (enterRecord k key mk s) := by
  have hcount : ∀ f, CounterKept (portCounters p) sub 0 s ((s.updFifo k f).bump 0x4300 (k + 1)) := fun f =>
    counterKept_bumpBy_elsewhere hs hp (.inl (by omega)) (s.updFifo k f) 1
  have howe : ∀ l r (v : State), CounterKept (portCounters p) sub 0 v (oweRequest l r v) := fun l r v =>
    (oweRequest_keeps (m := 0x10000) (.refl _ v) (.of (by decide))).counterKept (by decide)
  have hhead : ∀ v : State, CounterKept (portCounters p) sub 0 v (pulse (179 + 3 * k) (v.hit (.fifoHead k) 0)) := fun v =>
    counterKept_pulse hs (by omega) (v.hit (.fifoHead k) 0)
  unfold enterRecord
  exact (((hcount _).trans (.ite (hhead _) (.refl _))).trans (.ite (counterKept_pulse hs (by omega) _) (.refl _))).trans
    (.ite (howe ..) (.refl _))

theorem counterKept_loseRecord {k : Nat} (hk : k < 2) (inst : Nat) (s : State) :
    CounterKept (portCounters p) sub 0 s (loseRecord k inst s) := by
  have hcount : ∀ v : State, v.cnt = s.cnt → CounterKept (portCounters p) sub 0 s (v.bump 0x4300 (k + 3)) := fun v hv =>
    CounterKept.trans (t := v) (State.counter_congr hv ..) (counterKept_bumpBy_elsewhere hs hp (.inl (by omega)) v 1)
  unfold loseRecord
  refine .trans ?_ (counterKept_detectFault 12 inst 1 k _)
  refine .trans ?_ (counterKept_pulse hs (by omega) _)
  exact hcount _ rfl

theorem counterKept_writeRecord {k : Nat} (hk : k < 2) (inst kind port : Nat) (mk : Nat → Bytes) (s : State) :
    CounterKept (portCounters p) sub 0 s (writeRecord k inst kind port mk s) := by
  unfold writeRecord
  refine .ite (.ite ?_ (counterKept_loseRecord hs hp hk inst s)) (counterKept_enterRecord hs hp hk _ mk s)
  exact CounterKept.trans (t := s.updFifo k _) rfl (counterKept_loseRecord hs hp hk inst _)

theorem counterKept_txRecords (t : Tx) (s : State) : CounterKept (portCounters p) sub 0 s (txRecords p t s) := by
  have hw := fun kind mk v => counterKept_writeRecord hs hp (k := 1) (by decide) (sliceOf p) kind p mk v
  unfold txRecords
  dsimp only
  split
  · exact .trans (.ite (hw ..) (.refl _)) (hw ..)
  · exact .ite (hw ..) (.refl _)

end

/-- A transmitted frame counts one at FRAMES_TX (R126). -/
theorem txCounters_counter {p : Nat} (hp : p < 256 ∨ p = 260 ∨ p = 261) (t : Tx) (stomped : Bool) (s : State) :
    (txCounters p t stomped s).counter (portCounters p) 0x10 0 = (s.counter (portCounters p) 0x10 0 + 1) % 2 ^ 64 := by
  have hon : ∀ (c : Bool) (sub : Nat), sub ≠ 0x10 → ∀ u : State,
      (if c then u.bumpPort p sub else u).counter (portCounters p) 0x10 0 = u.counter (portCounters p) 0x10 0 :=
    fun c sub h u => counter_bumpPort_ite hp h (c = true) u
  unfold txCounters
  dsimp only
  rw [hon _ _ (by decide), hon _ _ (by decide), hon _ _ (by decide), hon _ _ (by decide), hon _ _ (by decide),
    hon _ _ (by decide),
    hon _ _ (by decide), hon _ _ (by decide), State.counter_bumpPortBy_sub (by decide), State.counter_bumpPort_same hp]

/-! ## The last piece of a frame -/

theorem loopbackOf_congr {s t : State} (hc : t.cfg = s.cfg) (hi : t.ident = s.ident) (p : Nat) :
    loopbackOf t p = loopbackOf s p := by
  unfold loopbackOf State.rwN
  rw [hc, hi]

/-- The last piece of an express frame outside near-end loopback: its bytes go out and it is counted. -/
theorem sendPiece_frame {p : Nat} (hp : p < 256 ∨ p = 260 ∨ p = 261) {x : Piece} {s : State} (hs : x.tx.shadow = false)
    (hl : x.last = true) (hx : x.pre = false) (hb : loopbackOf s p ≠ 1) :
    .frame p x.tx.bytes (x.bad || x.tx.noEdit || x.tx.ended) ∈ (sendPiece p x s).out ∧
    (sendPiece p x s).counter (portCounters p) 0x10 0 = (s.counter (portCounters p) 0x10 0 + 1) % 2 ^ 64 := by
  generalize hst : (x.bad || x.tx.noEdit || x.tx.ended) = st
  have he : emitPiece p x st s = s.emit (.frame p x.tx.bytes st) := by
    unfold emitPiece
    dsimp only
    rw [if_neg hb, hx]
    rfl
  have hsend : sendPiece p x s = if st then txCounters p x.tx st (s.emit (.frame p x.tx.bytes st))
      else txRecords p x.tx (txCounters p x.tx st (s.emit (.frame p x.tx.bytes st))) := by
    unfold sendPiece
    dsimp only
    rw [hst, if_neg (by rw [hs]; decide), hl, Bool.true_and, he]
    exact if_neg (by decide)
  have hout : (txCounters p x.tx st (s.emit (.frame p x.tx.bytes st))).out = .frame p x.tx.bytes st :: s.out :=
    (txCounters_keeps (m := 0x200) (.refl _ _) (.of (by decide))).same .out (by decide)
  rw [hsend]
  split
  · exact ⟨by rw [hout]; exact List.mem_cons_self, txCounters_counter hp ..⟩
  · refine ⟨?_, Eq.trans (counterKept_txRecords (sub := 0x10) (by decide) (by omega) ..) (txCounters_counter hp ..)⟩
    rw [(txRecords_keeps (m := 0xc3018200) (.refl _ _) (.of (by decide))).same .out (by decide), hout]
    exact List.mem_cons_self

theorem sendPiece_shadow {p : Nat} (hp : p < 256 ∨ p = 260 ∨ p = 261) {x : Piece} {s : State} (hs : x.tx.shadow = true)
    (hl : x.last = true) :
    (sendPiece p x s).counter (portCounters p) 0x95 0 = (s.counter (portCounters p) 0x95 0 + 1) % 2 ^ 64 := by
  unfold sendPiece
  dsimp only
  rw [if_pos hs, if_pos hl, State.counter_bumpPort_same hp]

/-! ## The end of a frame -/

/-- The port with the frame gone from the line. -/
def lineFreed (p : Nat) (x : Tx) (s : State) : State :=
  s.updPort p fun y => { y with tx := none, freeAt := max y.freeAt (x.start + (8 + (x.bytes.length + 4) + 12) * byteTime s p) }

/-- The read of the frame's bytes and its carriage check are counted and recorded (R204, R205). -/
def carriageNoted (p : Nat) (x : Tx) (body : ReadBack) (s : State) : State :=
  noteCarriage (carriageBad x.frame (joinReads x.reads body)) (x.ref.markCe && p != 262) p (countEcc x.frame p body s)

/-- The last piece of an express frame. -/
def lastPiece (x : Tx) (bad : Bool) : Piece :=
    { tx := x, pre := false, len := x.bytes.length - x.sent, last := true, bad := bad }

/-- The frame handed on at the end of its line time. -/
def frameHanded (p : Nat) (x : Tx) (body : ReadBack) (s : State) : State :=
  handOn p (lastPiece x (carriageBad x.frame (joinReads x.reads body))) (carriageNoted p x body (lineFreed p x s))

theorem noteCarriage_counter {p sub : Nat} (hp : p < 256 ∨ p = 260 ∨ p = 261)
    (hs : sub < 256) (hne : sub ≠ 0x54) (bad marked : Bool)
    (s : State) : CounterKept (portCounters p) sub 0 s (noteCarriage bad marked p s) := by
  have hport : CounterKept (portCounters p) sub 0 s (s.bumpPort p 0x54) := State.counter_bumpPort_sub hp hne.symm s
  unfold noteCarriage
  refine .ite ?_ (.refl s)
  refine .trans ?_ (counterKept_detectFault ..)
  exact .trans (.ite (.refl s) hport) (counterKept_bumpBy_elsewhere hs (by omega) (.inl (by decide)) _ 1)

theorem carriageNoted_keeps (p : Nat) (x : Tx) (body : ReadBack) (s : State) : Keeps 0xc3000200 s (carriageNoted p x body s) :=
  noteCarriage_keeps (countEcc_keeps (.refl _ s) (.of (by decide))) (.of (by decide))

theorem carriageNoted_counter {p sub : Nat} (hp : p < 256 ∨ p = 260 ∨ p = 261) (hs : sub < 256) (hne : sub ≠ 0x54) (x : Tx)
    (body : ReadBack) (s : State) : CounterKept (portCounters p) sub 0 s (carriageNoted p x body s) := by
  refine CounterKept.trans ?_ (noteCarriage_counter hp hs hne _ _ _)
  exact (counterKept_bumpBy_elsewhere hs (by omega) (.inr (by decide)) s _).trans
    (counterKept_bumpBy_elsewhere hs (by omega) (.inr (by decide)) _ _)

theorem carriageNoted_port (p : Nat) (x : Tx) (body : ReadBack) (s : State) (q : Nat) :
    (carriageNoted p x body s).port q = s.port q :=
  State.port_congr ((carriageNoted_keeps p x body s).same .ports (by decide)) q

/-- A released reference and an empty queue touch the fabric alone. -/
theorem refReleased_keeps (p tc id : Nat) (s : State) : Keeps 0x400 s (emptyQueue p tc (releaseRef id p s)) :=
  emptyQueue_keeps (releaseRef_keeps (.refl _ s) (.of (by decide))) (.of (by decide))

theorem lineKept_frameHanded (p : Nat) (x : Tx) (body : ReadBack) (s : State) :
    LineKept p (lineFreed p x s) (frameHanded p x body s) :=
  LineKept.trans ((carriageNoted_keeps p x body _).lineKept (by decide)) (lineKept_leave ..)

/-- With no verify or respond frame due, the reference is released and no more happens. -/
theorem finishTx_eq {p : Nat} (hp : p < 256 ∨ p = 260 ∨ p = 261)
    {x : Tx} {s : State} (ho : (s.port p).owed = []) (body : ReadBack) :
    finishTx p x false body s = emptyQueue p x.tc (releaseRef x.ref.frame p (frameHanded p x body s)) := by
  have hsent : sentAt p x false body (lineFreed p x s) = frameHanded p x body s := by
    have hh : isHost p = false := by simp only [isHost, Bool.and_eq_false_iff, decide_eq_false_iff_not]; omega
    unfold sentAt
    dsimp only
    rw [hh, if_neg (by decide), if_neg (by omega)]
    rfl
  have hfree : finishTx p x false body s =
      sendControl p (emptyQueue p x.tc (releaseRef x.ref.frame p (sentAt p x false body (lineFreed p x s)))) := rfl
  rw [hfree, hsent]
  refine sendControl_nothingOwed ?_
  have hl := (lineKept_frameHanded p x body s).trans ((refReleased_keeps p x.tc x.ref.frame _).lineKept (by decide))
  exact hl.2.2.trans (by rw [lineFreed, State.updPort_port]; exact ho)

/-- The end of a frame whose departure stamp is still to come, or comes not at all. -/
theorem frameHanded_facts {p : Nat} (hp : p < 256 ∨ p = 260 ∨ p = 261) {x : Tx} {s : State} {body : ReadBack} {bad : Bool}
    (hb : bad = carriageBad x.frame (joinReads x.reads body)) (hl : (s.port p).leaving = []) :
    (x.stamped = true → x.stamp = none →
      ((frameHanded p x body s).port p).leaving =
        [{ tx := x, pre := false, len := x.bytes.length - x.sent, last := true, bad := bad }] ∧
      (frameHanded p x body s).out = s.out ∧ CounterKept (portCounters p) 0x10 0 s (frameHanded p x body s)) ∧
    (x.stamped = false ∨ x.stamp.isSome = true → ((frameHanded p x body s).port p).leaving = [] ∧
      (x.shadow = true →
        (frameHanded p x body s).counter (portCounters p) 0x95 0 = (s.counter (portCounters p) 0x95 0 + 1) % 2 ^ 64) ∧
      (x.shadow = false → loopbackOf s p ≠ 1 → .frame p x.bytes (bad || x.noEdit || x.ended) ∈ (frameHanded p x body s).out ∧
        (frameHanded p x body s).counter (portCounters p) 0x10 0 = (s.counter (portCounters p) 0x10 0 + 1) % 2 ^ 64)) := by
  subst hb
  generalize hv : carriageNoted p x body (lineFreed p x s) = v
  have hk := carriageNoted_keeps p x body (lineFreed p x s)
  have hcnt : ∀ sub < 256, sub ≠ 0x54 → v.counter (portCounters p) sub 0 = s.counter (portCounters p) sub 0 := fun sub hs hne =>
    hv ▸ carriageNoted_counter hp hs hne x body (lineFreed p x s)
  have hleaving : (v.port p).leaving = [] := by rw [← hv, carriageNoted_port, lineFreed, State.updPort_port]; exact hl
  rw [hv] at hk
  have he : frameHanded p x body s = leave p [lastPiece x (carriageBad x.frame (joinReads x.reads body))] v := by
    rw [frameHanded, hv, handOn, hleaving]
    rfl
  refine ⟨fun hst hsn => ?_, fun hst => ?_⟩
  · rw [he, leave_waits (by rw [Piece.ready, lastPiece, hst, hsn]; rfl)]
    exact ⟨by rw [State.updPort_port]; rfl, hk.same .out (by decide), hcnt 0x10 (by decide) (by decide)⟩
  · have hready : (lastPiece x (carriageBad x.frame (joinReads x.reads body))).ready = true := by
      rw [Piece.ready, lastPiece]
      rcases hst with h | h <;> simp [h]
    rw [he, leave_ready hready]
    refine ⟨by rw [State.updPort_port], fun hsh => ?_, fun hsh hb => ?_⟩
    · rw [← hcnt 0x95 (by decide) (by decide)]
      exact sendPiece_shadow hp hsh rfl
    · rw [← hcnt 0x10 (by decide) (by decide)]
      exact sendPiece_frame hp hsh rfl rfl (by
        rw [loopbackOf_congr (hk.same .cfg (by decide)) (hk.same .ident (by decide))]
        exact hb)

theorem effFrameTransmitted_plain {p : Nat} {x : Tx} {s : State} (hpre : (s.port p).pre = none) (htx : (s.port p).tx = some x)
    (body : ReadBack) : effFrameTransmitted p body s =
      if lineDone s p x.start (8 + x.bytes.length + 4) then finishTx p x false body s else s := by
  rw [effFrameTransmitted, hpre]
  dsimp only
  rw [effFrameTransmitted.finishPlain, htx]

/-- Settles O31: the frame leaves the line (`lineFreed`), is handed on, and its reference is released. -/
theorem framesTransmitted : Obligations.FramesTransmitted := by
  unfold Obligations.FramesTransmitted
  refine ⟨fun p body x s hp hpre htx => ⟨fun h => congrArg Host.Outcome.next ?_, fun h ho bad hbad => ?_⟩,
    fun s ha => ⟨fun h => ?_, fun h => congrArg Host.Outcome.next ?_⟩⟩
  · rw [effFrameTransmitted_plain hpre htx, if_neg (by rw [h]; decide)]
  · have hr := refReleased_keeps p x.tc x.ref.frame (frameHanded p x body s)
    have heff : effFrameTransmitted p body s = emptyQueue p x.tc (releaseRef x.ref.frame p (frameHanded p x body s)) := by
      rw [effFrameTransmitted_plain hpre htx, if_pos h, finishTx_eq hp ho]
    have hport := State.port_congr (hr.same .ports (by decide)) p
    have hout : (emptyQueue p x.tc (releaseRef x.ref.frame p (frameHanded p x body s))).out = (frameHanded p x body s).out :=
      hr.same .out (by decide)
    have hcnt := fun sub => State.counter_congr (hr.same .cnt (by decide)) (portCounters p) sub 0
    obtain ⟨hlt, hlf, -⟩ := lineKept_frameHanded p x body s
    rw [lineFreed, State.updPort_port] at hlt hlf
    refine ⟨_, congrArg Host.Outcome.next heff, ?_, ?_, ?_⟩
    · rw [hport, hlt]
    · rw [hport, hlf]
    · rw [hport, hout, hcnt, hcnt]
      exact ⟨fun hl => (frameHanded_facts hp hbad hl).1, fun hl => (frameHanded_facts hp hbad hl).2⟩
  · refine ⟨_, congrArg Host.Outcome.next (if_pos ?_), rfl, (Keeps.setFabric (.refl _ s) (.of (by decide))).only, rfl⟩
    rw [ha, decide_eq_true h]
    rfl
  · exact if_neg (by rw [ha, decide_eq_false (Nat.not_le.2 h)]; decide)

end Sys2Proof.Machine
end

section
/-!
PROOF. The steps of a commit, the cutover, the seal and the end of the older epoch (R30, R81, R90 to R95, R485).
-/
namespace Sys2Proof.Machine

/-! ## The cutover -/

/-- After the configuration manager's own part, the units' parts of a cutover change neither the configuration nor what a
transition would (R91). -/
theorem cutover_units (s : State) : Keeps 0xdff77e08 (cutConfig s) (cutover s) := by
  unfold cutover
  refine pulse_keeps (judgeFeeds_keeps (disturbDigest_keeps (gatesCutover_keeps (egressCutover_keeps (cutTables_keeps
    (applyPorts_keeps (applyTimeSettings_keeps (.refl _ _) ?_) ?_) ?_) ?_) ?_) ?_) ?_) ?_ <;> exact .of (by decide)

/-- A cutover raises COMMIT_DONE in its core cycle. -/
theorem cutover_pulse (s : State) : (190, s.cycle) ∈ (cutover s).intc.pulses := by
  have hcyc : (cutover s).cycle = s.cycle := (cutover_units s).same .cycle (by decide)
  have hpulse : ∀ u : State, (190, u.cycle) ∈ (pulse 190 u).intc.pulses := fun u =>
    mem_pulses_pulse (lineExists_low _ (by decide) (by decide))
  have hpc : ∀ u : State, (pulse 190 u).cycle = u.cycle := fun u =>
    (pulse_keeps (m := 0x1000200) (.refl _ u) (.of (by decide))).same .cycle (by decide)
  rw [← hcyc]
  unfold cutover
  dsimp only
  rw [hpc]
  exact hpulse _

theorem cutover_cutOver (s : State) : CutOver s (cutover s) := by
  have hk := cutover_units s
  have hcfg : (cutover s).cfg = (cutConfig s).cfg := hk.same .cfg (by decide)
  have hmode : (cutover s).chip.mode = s.chip.mode := hk.mode (by decide)
  have hmram : (cutover s).mram = s.mram := hk.same .mram (by decide)
  unfold CutOver
  rw [hcfg]
  exact ⟨rfl, rfl, rfl, rfl, rfl, congrArg (s.cycle + ·) (Nat.mul_comm _ _), rfl, rfl, rfl, rfl, cutover_pulse s, hmode, hmram⟩

/-! ## The end of the older epoch -/

theorem counterKept_bumpPort {p i : Nat} (u k : Nat) {sub : Nat} (hs : sub < 256)
    (hi : i < 0x9000 ∧ u < 256 ∧ k < 2 ^ 32) (s : State) :
    CounterKept i u k s (s.bumpPort p sub) := by
  have hbump : CounterKept i u k s (s.bump (portCounters p) sub) :=
    State.counter_bumpBy_other s 1 (by unfold cntKey portCounters; split <;> omega)
  exact .ite hbump (.ite hbump (.refl s))

theorem CounterKept.foldl {i u k : Nat} {α : Type} {f : State → α → State} (h : ∀ s x, CounterKept i u k s (f s x)) (l : List α)
    (s : State) : CounterKept i u k s (l.foldl f s) := by
  induction l generalizing s with
  | nil => exact .refl s
  | cons x r ih => exact (h s x).trans (ih _)

theorem counterKept_unlinkWhere {i u k : Nat} (hi : i < 0x9000 ∧ u < 256 ∧ k < 2 ^ 32)
    (test : Ref → Bool) {sub : Nat} (hs : sub < 256)
    (port tc : Nat) (s : State) : CounterKept i u k s (unlinkWhere test sub port tc s) := by
  refine CounterKept.foldl (fun v r => ?_) _ s
  have hr : Keeps 0x400 v (unlinkRef port tc r v) := unlinkRef_keeps (.refl _ v) (.of (by decide))
  exact (hr.counterKept (by decide)).trans (counterKept_bumpPort u k hs hi _)

/-- Unlinking counts at ports alone. -/
theorem counterKept_unlinkAll {i u k : Nat} (hi : i < 0x9000 ∧ u < 256 ∧ k < 2 ^ 32) (test : Nat → Ref → Bool) {sub : Nat}
    (hs : sub < 256) (s : State) : CounterKept i u k s (unlinkAll test sub s) := by
  refine CounterKept.foldl (fun v q => (counterKept_unlinkWhere hi (test q.1) hs q.1 q.2 v).trans ?_) _ s
  have hk : Keeps 0x400 (unlinkWhere (test q.1) sub q.1 q.2 v) _ :=
    emptyQueue_keeps (a0 := q.1) (a1 := q.2) (.refl _ _) (.of (by decide))
  exact hk.counterKept (by decide)

/-- The frames of the older epoch are unlinked and purged (R95). -/
def epochPurged (s : State) : State :=
  (arrivingFrames s (s.cfg.epoch + 255)).foldl purgeArriving
    (unlinkAll (fun _ r => ofEpoch s (s.cfg.epoch + 255) r.frame) 0x57 s)

theorem epochPurged_keeps (s : State) : Keeps 0x600 s (epochPurged s) :=
  .foldl _ (fun _ _ h => purgeArriving_keeps h (.of (by decide))) (unlinkAll_keeps (.refl _ s) (.of (by decide)))

theorem epochPurged_expired (s : State) : CounterKept 0x0202 6 0 s (epochPurged s) := by
  refine (counterKept_unlinkAll (by decide) _ (by decide) s).trans (CounterKept.foldl (fun v e => ?_) _ _)
  exact (purgeArriving_keeps (m := 0x400) (a1 := e) (.refl _ v) (.of (by decide))).counterKept (by decide)

theorem effRetireLimitExpiry_due {s : State} (ho : s.cfg.older.isSome = true) (h : s.cfg.retireDue ≤ s.cycle) :
    effRetireLimitExpiry s = retireEpoch ((epochPurged s).bumpBy 0x0202 6 0 ((waitingFrames s (s.cfg.epoch + 255)).length +
      (arrivingFrames s (s.cfg.epoch + 255)).length)) := if_pos ⟨ho, h⟩

/-- Settles O22: the cutover by `cutover_cutOver`, the seal, and the two ends of the older epoch. -/
theorem epochsChange : Obligations.EpochsChange := by
  unfold Obligations.EpochsChange
  intro s
  refine ⟨fun hst hat => ?_, fun h => congrArg Host.Outcome.next (if_neg ?_), fun b due hb => ?_, fun hb => ?_,
    fun ho => ⟨fun h => ?_, fun h => congrArg Host.Outcome.next (if_neg fun hn => h hn.2), fun h => ?_,
      fun h => congrArg Host.Outcome.next (if_neg fun hn => absurd hn.2 (Nat.not_le.2 h))⟩,
    fun ho => ⟨congrArg Host.Outcome.next (if_neg ?_), congrArg Host.Outcome.next (if_neg ?_)⟩⟩
  · have hcut : atCutover s = s.reached s.cfg.commit.domain s.cfg.commit.instant := by
      rw [atCutover, hst, hat]
      rfl
    refine ⟨fun hr hs => ?_, fun h => congrArg Host.Outcome.next (if_neg ?_)⟩
    · have hdue : (atCutover s && !safeDue s) = true := by rw [hcut, hr, hs]; rfl
      refine ⟨fun hl => ⟨cutover s, congrArg Host.Outcome.next ?_, cutover_cutOver s⟩, fun hl => congrArg Host.Outcome.next ?_⟩
      · exact (if_pos hdue).trans (if_neg (by rw [hl]; decide))
      · exact (if_pos hdue).trans (if_pos hl)
    · rw [hcut]
      rcases h with h | h <;> simp [h]
  · unfold atCutover
    rcases h with h | h <;> simp [h]
  · have he : effBankSeal s = { s.updBank b fun k => { k with sealed := true } with
        cfg := { s.cfg with commit := { s.cfg.commit with sealDue := none } } } := by
      rw [effBankSeal, hb]
      rfl
    refine ⟨_, congrArg Host.Outcome.next he, rfl, rfl, rfl, ?_⟩
    exact (Keeps.setCfg (State.updBank_keeps (.refl _ s) (.of (by decide))) (.of (by decide))).only
  · exact congrArg Host.Outcome.next (by rw [effBankSeal, hb])
  · exact ⟨retireEpoch s, congrArg Host.Outcome.next (if_pos ⟨ho, h⟩), rfl, rfl,
      (Keeps.setFrer (Keeps.setCfg (.refl _ s) (.of (by decide))) (.of (by decide))).only⟩
  · refine ⟨_, congrArg Host.Outcome.next (effRetireLimitExpiry_due ho h), ?_, rfl, ?_⟩
    · exact congrArg (fun c : Cfg => { c with older := none }) ((epochPurged_keeps s).same .cfg (by decide))
    · refine (State.counter_bumpBy_same (epochPurged s) 0x0202 6 0 _).trans ?_
      rw [epochPurged_expired s, Nat.add_assoc]
  · rw [ho]
    exact fun h => absurd h.1 (by decide)
  · rw [ho]
    exact fun h => absurd h.1 (by decide)

/-! ## The steps of a commit -/

theorem endCommit_keeps_commit (reason detail unit : Nat) (s : State) : Keeps 0x1000280 s (endCommit reason detail unit s) :=
  endCommit_keeps (.refl _ s) (.of (by decide))

/-- A commit that fails: its status and reason, and what it keeps (R92). -/
theorem endCommit_facts (reason detail unit : Nat) (s : State) :
    (endCommit reason detail unit s).cfg = { s.cfg with commit := { s.cfg.commit with
      status := 7, reason := reason, detail := detail, unit := unit, built := [], next := {} } } ∧
    (endCommit reason detail unit s).mram = s.mram ∧ (190, s.cycle) ∈ (endCommit reason detail unit s).intc.pulses :=
  ⟨pulse_cfg _ _, (endCommit_keeps_commit reason detail unit s).same .mram (by decide),
    mem_pulses_pulse (lineExists_low _ (by decide) (by decide))⟩

theorem commitBuilt_facts {s : State} {b : Bytes} (hb : buildImage s.ident s.cfg.commit.gen (s.ns 0) s.cfg.commit.next = b) :
    (bankSize < b.length → commitBuilt s = endCommit 0x0504 0 0xFFFFFFFF s) ∧
    (b.length ≤ bankSize →
      commitBuilt s = { s with cfg := { s.cfg with commit := { s.cfg.commit with status := 2, built := b } } }) := by
  unfold commitBuilt
  rw [hb]
  exact ⟨fun h => if_pos h, fun h => (if_neg (Nat.not_lt.2 h)).trans rfl⟩

theorem commitChecked_facts (s : State) :
    (∀ im, (checkImage s s.cfg.commit.built).img = some im → (checkImage s s.cfg.commit.built).fail = none →
      commitChecked s = setStatus 3 (s.updBank s.cfg.commit.target fun k => { k with sealed := false })) ∧
    (∀ f, (checkImage s s.cfg.commit.built).fail = some f → commitChecked s = endCommit f.reason f.detail f.unit s) := by
  unfold commitChecked
  generalize checkImage s s.cfg.commit.built = c
  obtain ⟨img, fail⟩ := c
  refine ⟨fun im him hf => ?_, fun f hf => ?_⟩
  · obtain rfl : img = some im := him
    obtain rfl : fail = none := hf
    rfl
  · obtain rfl : fail = some f := hf
    cases img <;> rfl

theorem blockPresent_store (id : Ident) : blockPresent id 19 = true := by
  unfold blockPresent unitsPresent
  split <;> decide

/-- In HOLD the stored image's bank is sealed and the device enters LOAD from it (R92). -/
theorem commitInHold_facts {b : Nat} {k : Bank} {s u : State} (hb : b = s.cfg.commit.target)
    (hu : u = s.updBank s.cfg.commit.target fun _ => k) :
    (commitInHold u).chip.mode = .load ∧ (commitInHold u).cfg.loadBy = .written b ∧
    (commitInHold u).mram.banks = updAt s.mram.banks b fun _ => { k with sealed := true } := by
  subst hb
  have htgt : u.cfg.commit.target = s.cfg.commit.target := by rw [hu]; rfl
  generalize hv : pulse 190 (setStatus 6 (u.updBank u.cfg.commit.target fun k => { k with sealed := true })) = v
  generalize hw : ({ v with cfg := { v.cfg with loadBy := .written u.cfg.commit.target, fallbackUsed := false } } : State) = w
  have he : commitInHold u = settleMgt u (transition .load w) := by
    rw [← hw, ← hv]
    rfl
  have hset : Keeps 0x5000a08 (transition .load w) (commitInHold u) := he ▸ settleMgt_keeps (.refl _ _) (.of (by decide))
  obtain ⟨c, hc⟩ := transition_load_cfg w
  have hbanks : v.mram.banks = updAt s.mram.banks s.cfg.commit.target fun _ => { k with sealed := true } := by
    rw [← hv, (pulse_keeps (m := 0x1000200) (.refl _ _) (.of (by decide))).same .mram (by decide), htgt, hu]
    exact List.modify_modify_eq _ _ _ _
  refine ⟨(hset.mode (by decide)).trans (transition_chip .load w).1, ?_, ?_⟩
  · rw [hset.same .cfg (by decide), hc, ← hw, htgt]
  · rw [hset.same .mram (by decide), transition_mram (by decide), ← hw, ← hbanks]

theorem commitStored_facts (s : State) {b : Nat} (hb : b = s.cfg.commit.target) :
    (s.chip.mode ≠ .hold → commitStored true s = setStatus 4 (s.updBank b fun _ => writtenBank s.cfg.commit.built)) ∧
    (s.chip.mode = .hold → (commitStored true s).chip.mode = .load ∧ (commitStored true s).cfg.loadBy = .written b ∧
      (commitStored true s).mram.banks = updAt s.mram.banks b fun _ => { writtenBank s.cfg.commit.built with sealed := true }) ∧
    ((commitStored false s).cfg.commit.status = 7 ∧ (commitStored false s).cfg.commit.reason = 0x0503 ∧
      (commitStored false s).cfg.running = s.cfg.running ∧
      (commitStored false s).mram.banks = updAt s.mram.banks b (fun _ => writtenBank s.cfg.commit.built) ∧
      (isAlive s.chip.mode = true → bit ((commitStored false s).fault 19 0).status 1 = true)) := by
  subst hb
  have hgood : commitStored true s =
      if s.chip.mode = .hold then commitInHold (s.updBank s.cfg.commit.target fun _ => writtenBank s.cfg.commit.built)
      else setStatus 4 (s.updBank s.cfg.commit.target fun _ => writtenBank s.cfg.commit.built) := rfl
  refine ⟨fun h => by rw [hgood, if_neg h], fun h => ?_, ?_⟩
  · rw [hgood, if_pos h]
    exact commitInHold_facts rfl rfl
  · generalize hu : (s.updBank s.cfg.commit.target fun _ => writtenBank s.cfg.commit.built) = u
    have he : commitStored false s = detectFault 19 0 2 s.cfg.commit.target (endCommit 0x0503 0 0xFFFFFFFF u) := by
      rw [← hu]
      rfl
    have hk : Keeps 0xc3000000 (endCommit 0x0503 0 0xFFFFFFFF u) (commitStored false s) :=
      he ▸ detectFault_keeps (.refl _ _) (.of (by decide))
    obtain ⟨hcfg, hmram, -⟩ := endCommit_facts 0x0503 0 0xFFFFFFFF u
    have hkcfg : (commitStored false s).cfg = (endCommit 0x0503 0 0xFFFFFFFF u).cfg := hk.same .cfg (by decide)
    have hkmram : (commitStored false s).mram = (endCommit 0x0503 0 0xFFFFFFFF u).mram := hk.same .mram (by decide)
    rw [hkcfg, hkmram, hcfg, hmram]
    refine ⟨rfl, rfl, by rw [← hu]; rfl, by rw [← hu]; rfl, fun ha => ?_⟩
    rw [he]
    refine detectFault_bit ?_ (blockPresent_store _) _
    rw [(endCommit_keeps_commit 0x0503 0 0xFFFFFFFF u).mode (by decide), ← hu]
    exact ha

/-! ## The tables loaded -/

theorem stageMasters_keeps_loaded (im : Image) (s : State) : Keeps 0x10004000 s (stageMasters im s) :=
  stageMasters_keeps (.refl _ s) (.of (by decide))

/-- The master copies are staged first; the commit then cuts over, waits or fails (R91, R485). -/
theorem commitLoaded_eq {s u : State} (hu : u = stageMasters s.cfg.commit.next s) : commitLoaded s =
    if safeDue s then u
    else if s.rwN 0x0201 1 = 0 then cutover u
    else if !(s.dom (s.rwN 0x0201 2)).enabled then endCommit 0x0505 0 0xFFFFFFFF u
    else if s.ahead (s.rwN 0x0201 2) (s.rwN 0x0201 3) ≤ 0 then endCommit 0x0501 0 0xFFFFFFFF u
    else { u with cfg := { u.cfg with commit := { u.cfg.commit with
      status := 5, atInstant := true, domain := s.rwN 0x0201 2, instant := s.rwN 0x0201 3 } } } := by
  have hk := stageMasters_keeps_loaded s.cfg.commit.next s
  rw [← hu] at hk
  have hcfg : u.cfg = s.cfg := hk.same .cfg (by decide)
  have hident : u.ident = s.ident := hk.same .ident (by decide)
  have htime : u.time = s.time := hk.same .time (by decide)
  have hcycle : u.cycle = s.cycle := hk.same .cycle (by decide)
  have hpend : u.chip.safePending = s.chip.safePending := hk.same .safeRequest (by decide)
  have hdue : safeDue u = safeDue s := by rw [safeDue, hpend, hcycle, hk.mode (by decide), safeDue]
  have hrw : ∀ i k, u.rwN i k = s.rwN i k := fun i k => by rw [State.rwN, hcfg, hident, State.rwN]
  have hdom : ∀ d, u.dom d = s.dom d := fun d => by rw [State.dom, htime, State.dom]
  have hahead : ∀ d t, u.ahead d t = s.ahead d t := fun d t => by rw [State.ahead, State.ns, hdom, State.ahead, State.ns]
  unfold commitLoaded
  rw [← hu]
  dsimp only
  rw [hdue, hrw, hrw, hrw, hdom, hahead]
  rfl

theorem cutover_of_loaded {s u : State} (hu : u = stageMasters s.cfg.commit.next s) : CutOver s (cutover u) := by
  have hk := stageMasters_keeps_loaded s.cfg.commit.next s
  rw [← hu] at hk
  have hcfg : u.cfg = s.cfg := hk.same .cfg (by decide)
  have hident : u.ident = s.ident := hk.same .ident (by decide)
  have htime : u.time = s.time := hk.same .time (by decide)
  have hcycle : u.cycle = s.cycle := hk.same .cycle (by decide)
  have hmram : u.mram = s.mram := hk.same .mram (by decide)
  have hcut := cutover_cutOver u
  unfold CutOver State.ns State.dom at hcut
  rw [hcfg, hident, htime, hcycle, hmram, hk.mode (by decide)] at hcut
  exact hcut

/-- Settles O21: one lemma a step, and what a failed commit keeps. -/
theorem commitSteps : Obligations.CommitSteps := by
  unfold Obligations.CommitSteps
  refine ⟨fun ok s => ⟨fun hst b hb => ?_, fun hst => ?_, fun hst => ?_, fun hst u hu => ?_, fun hst => ?_⟩,
    fun s reason detail unit u hu => ?_⟩
  · have he : effCommitStepDone ok s = commitBuilt s := by rw [effCommitStepDone, hst]; rfl
    obtain ⟨hlong, hfits⟩ := commitBuilt_facts hb
    exact ⟨fun h => congrArg Host.Outcome.next (he.trans (hlong h)), fun h => congrArg Host.Outcome.next (he.trans (hfits h))⟩
  · have he : effCommitStepDone ok s = commitChecked s := by rw [effCommitStepDone, hst]; rfl
    obtain ⟨hpass, hfail⟩ := commitChecked_facts s
    exact ⟨fun im him hf => congrArg Host.Outcome.next (he.trans (hpass im him hf)),
      fun f hf => congrArg Host.Outcome.next (he.trans (hfail f hf))⟩
  · have he : effCommitStepDone ok s = commitStored ok s := by rw [effCommitStepDone, hst]; rfl
    obtain ⟨hgood, hhold, hbad⟩ := commitStored_facts s rfl
    refine ⟨fun hok hm => ?_, fun hok hm => ?_, fun hok => ?_⟩ <;> subst hok
    · exact congrArg Host.Outcome.next (he.trans (hgood hm))
    · exact ⟨_, congrArg Host.Outcome.next he, hhold hm⟩
    · exact ⟨_, congrArg Host.Outcome.next he, hbad⟩
  · have he : effCommitStepDone ok s = commitLoaded s := by rw [effCommitStepDone, hst]; rfl
    rw [commitLoaded_eq hu] at he
    have honly : Only [.gates, .mem] s u :=
      (hu ▸ stageMasters_keeps (m := maskOf [.gates, .mem]) (.refl _ s) (.of (by decide)) :
        Keeps (maskOf [.gates, .mem]) s u).only
    refine ⟨honly, fun hs => congrArg Host.Outcome.next (he.trans (if_pos hs)), fun hs => ?_⟩
    have he := he.trans (if_neg (by rw [hs]; decide))
    refine ⟨fun h => ⟨_, congrArg Host.Outcome.next (he.trans (if_pos h)), cutover_of_loaded hu⟩, fun h hen => ?_,
      fun h hen ha => ?_,
      fun h hen ha => ?_⟩ <;> refine congrArg Host.Outcome.next ((he.trans (if_neg h)).trans ?_)
    · exact if_pos (by rw [hen]; rfl)
    · exact (if_neg (by rw [hen]; decide)).trans (if_pos ha)
    · exact (if_neg (by rw [hen]; decide)).trans (if_neg (not_le.2 ha))
  · refine congrArg Host.Outcome.next (?_ : effCommitStepDone ok s = s)
    unfold effCommitStepDone
    split
    case h_1 h => exact absurd (by simp [h]) hst
    case h_2 h => exact absurd (by simp [h]) hst
    case h_3 h => exact absurd (by simp [h]) hst
    case h_4 h => exact absurd (by simp [h]) hst
    case h_5 => rfl
  · obtain ⟨hcfg, hmram, hpulse⟩ := endCommit_facts reason detail unit s
    subst hu
    rw [hcfg]
    exact ⟨rfl, rfl, rfl, rfl, rfl, rfl, hmram, hpulse⟩

end Sys2Proof.Machine
end

section
/-!
PROOF. The Herd Ring controller's timers: assembly, cycle points, mailbox retries and a lost ring link (R337, R343, R353, R354,
R357, R358).
-/
namespace Sys2Proof.Machine

/-! ## The layout in force -/

/-- A step that leaves HERD_LAYOUT_ID in force. -/
def LayoutKept (s t : State) : Prop := t.herd.layoutId = s.herd.layoutId

theorem LayoutKept.refl (s : State) : LayoutKept s s := rfl

theorem LayoutKept.trans {s t u : State} (h : LayoutKept s t) (k : LayoutKept t u) : LayoutKept s u := Eq.trans k h

theorem LayoutKept.ite {s t u : State} {c : Prop} [Decidable c] (h : LayoutKept s t) (k : LayoutKept s u) :
    LayoutKept s (if c then t else u) := by split <;> assumption

theorem Keeps.layoutKept {m : Nat} {s t : State} (h : Keeps m s t) (hm : m.testBit Part.herd.idx = false) : LayoutKept s t :=
  congrArg Herd.layoutId (h.same .herd hm)

theorem LayoutKept.foldl {α : Type} {f : State → α → State} (h : ∀ s x, LayoutKept s (f s x)) (l : List α) (s : State) :
    LayoutKept s (l.foldl f s) := by
  induction l generalizing s with
  | nil => exact .refl s
  | cons x r ih => exact (h s x).trans (ih _)

/-- The same for a fold that carries a value beside the state. -/
theorem LayoutKept.foldlSnd {α β : Type} {f : β × State → α → β × State} (h : ∀ b s x, LayoutKept s (f (b, s) x).2) (l : List α)
    (b : β) (s : State) : LayoutKept s (l.foldl f (b, s)).2 := by
  induction l generalizing b s with
  | nil => exact .refl s
  | cons x r ih => exact (h b s x).trans (ih (f (b, s) x).1 (f (b, s) x).2)

theorem layoutKept_averageFrame (area : Bytes) (n master visited : Nat) (s : State) :
    LayoutKept s (averageFrame area n master visited s) := by
  have hn : ∀ l, LayoutKept s (noteNodes area n visited l s) := fun _ => rfl
  have hm : ∀ d a b u, LayoutKept u (measure d a b u) := fun d a b u =>
    (measure_keeps (m := 0xc3200200) (.refl _ u) (.of (by decide))).layoutKept (by decide)
  have hr : ∀ e r u, LayoutKept u (ringCorrect e r u) := fun e r u =>
    (ringCorrect_keeps (m := 0x200000) (.refl _ u) (.of (by decide))).layoutKept (by decide)
  unfold averageFrame
  split
  · exact hn []
  · exact (hn _).trans (.ite ((hm ..).trans (hr ..)) (.refl _))

theorem layoutKept_mailAcked (size : Nat) (b : Bytes) (node : Nat) (s : State) : LayoutKept s (mailAcked size b node s) := by
  unfold mailAcked
  split
  · exact .ite (.ite rfl rfl) (.refl s)
  · exact .refl s

theorem layoutKept_storeChunk (node seq chunk : Nat) (data : Bytes) (last : Bool) (s : State) :
    LayoutKept s (storeChunk node seq chunk data last s) := by
  have hd : ∀ d u, LayoutKept u (deliverMail node d u) := fun d u =>
    (deliverMail_keeps (m := 0x300) (.refl _ u) (.of (by decide))).layoutKept (by decide)
  unfold storeChunk
  refine .ite (.trans ?_ (hd ..)) ?_ <;> rfl

theorem layoutKept_mailChunkIn (node : Nat) (b : Bytes) (s : State) : LayoutKept s (mailChunkIn node b s) := by
  unfold mailChunkIn
  dsimp only
  split
  · exact .ite rfl (.ite (layoutKept_storeChunk ..) rfl)
  · exact .ite (layoutKept_storeChunk ..) rfl

theorem layoutKept_readMail (area : Bytes) (s : State) : LayoutKept s (readMail area s) := by
  refine LayoutKept.foldl (fun u node => ?_) _ s
  split
  · exact .ite (.refl u) ((layoutKept_mailAcked ..).trans (.ite (layoutKept_mailChunkIn ..) (.refl _)))
  · exact .refl u

theorem layoutKept_storeImage (n : Nat) (area : Bytes) (s : State) : LayoutKept s (storeImage n area s) := by
  have hf : LayoutKept s (s.herd.layout.foldl (filterSlot n area) (area, s)).2 := by
    refine LayoutKept.foldlSnd (fun b u x => ?_) _ area s
    unfold filterSlot
    dsimp only
    split <;> rfl
  have hp : ∀ u, LayoutKept u (pulse 98 u) := fun u =>
    (pulse_keeps (m := 0x1000200) (.refl _ u) (.of (by decide))).layoutKept (by decide)
  refine hf.trans (.trans ?_ (hp _))
  rfl

theorem layoutKept_takeFrame (area : Bytes) (n master visited : Nat) (s : State) :
    LayoutKept s (takeFrame area n master visited s) := by
  have hc : ∀ u, LayoutKept u (claimsSeen n area u) := fun u =>
    (claimsSeen_keeps (m := 0x81040240) (.refl _ u) (.of (by decide))).layoutKept (by decide)
  exact (((layoutKept_averageFrame ..).trans (layoutKept_readMail ..)).trans (hc _)).trans (layoutKept_storeImage ..)

theorem layoutKept_ownWrites (owns : Nat → Bool) (cyc : Nat) (area : Bytes) (s : State) :
    LayoutKept s (ownWrites owns cyc area s).2 := by
  unfold ownWrites
  dsimp only
  refine LayoutKept.trans ?_ (LayoutKept.foldlSnd (fun b u x => ?_) _ _ _)
  · split
    · rfl
    · exact .refl s
  · unfold writeDataSlot
    dsimp only
    split
    · rfl
    · exact .ite (.refl u) rfl

theorem layoutKept_underLayout {f : State → State} (hf : ∀ u, LayoutKept u (f u)) (l : AMap Row) (s : State) :
    LayoutKept s (underLayout l f s) := hf (s.updHerd fun h => { h with layout := l })

/-! ## Assembly -/

/-- A summation frame is that of a state with the configuration and the layout in force (R343). -/
theorem assembleFrame_assembled (n m : Nat) (s : State) : ∃ u a, u.cfg = s.cfg ∧ u.herd.layoutId = s.herd.layoutId ∧
    (assembleFrame n m s).herd.assembled = some (ringFrame u 1 m (2 ^ herdId s) 0xFFFFFFFF 0 a, false) := by
  have htl : LayoutKept s (underLayout s.herd.lastLayout (takeFrame (mergedArea s n) n (herdId s) (mergedVisited s)) s) :=
    layoutKept_underLayout (layoutKept_takeFrame _ _ _ _) s.herd.lastLayout s
  have htk : Keeps 0xc3a40340 s (underLayout s.herd.lastLayout (takeFrame (mergedArea s n) n (herdId s) (mergedVisited s)) s) :=
    underLayout_keeps (.refl _ s) (fun _ h => takeFrame_keeps h (.of (by decide))) (.of (by decide))
  unfold assembleFrame
  dsimp only
  refine ⟨_, _, ?_, ?_, rfl⟩
  · exact (ownWrites_keeps (m := 0xc3a40340) (.ite htk (.refl _ s)) (.of (by decide))).same .cfg (by decide)
  · exact (LayoutKept.ite htl (.refl s)).trans (layoutKept_ownWrites ..)

theorem effAssemblyInstant_eq {s : State} {i : Nat} (hc : cycleIndex s = some i) (ho : originatesNext s = true)
    (ha : s.herd.assembled = none) : effAssemblyInstant s =
      if ringStart s (i + 1) ≤ s.ns (herdDom s) + 2000 then
        if stillReceiving s then (s.bumpBy 0x5002 0x11 0 (missingCopies s)).updHerd fun h => { h with
          assembled := some (ringFrame s 3 ((i + 1) % 2 ^ 32) (2 ^ herdId s) 0xFFFFFFFF 0 [], true) }
        else assembleFrame (i % 2 ^ 32) ((i + 1) % 2 ^ 32) (s.bumpBy 0x5002 0x11 0 (missingCopies s))
      else s := by
  unfold effAssemblyInstant
  rw [hc, ho, ha]
  dsimp only [Option.getD_some, Option.isSome_some, Option.isNone_none]
  simp only [Bool.and_self, Bool.true_and, decide_eq_true_eq]
  rfl

/-! ## Cycle points -/

theorem effHerdCp_armed {s : State} {k i : Nat} (h : AMap.find s.herd.cps k = some i) : effHerdCp k s =
    if s.reached (herdDom s) (pointInstant s k i) then
      if s.overdue (herdDom s) (pointInstant s k i) then armPoint k i s else armPoint k (i + 1) (pulse (81 + k) s)
    else s := by
  rw [effHerdCp, h]

theorem reached_of_overdue {s : State} {d t : Nat} (h : s.overdue d t = true) : s.reached d t = true := by
  unfold State.overdue at h
  exact (Bool.and_eq_true _ _ ▸ h).1

theorem nextPoint_pulse (l : Nat) (s : State) (k : Nat) :
    nextPoint (pulse l s) (herdN (pulse l s) k) = nextPoint s (herdN s k) := by
  have hk : Keeps 0x1000200 s (pulse l s) := pulse_keeps (.refl _ s) (.of (by decide))
  have hn : ∀ j, herdN (pulse l s) j = herdN s j := fun j => hk.cfgN (by decide) (by decide) _ j
  have htime : ∀ d, (pulse l s).ns d = s.ns d := fun d => by rw [State.ns, State.dom, pulse_time, State.ns, State.dom]
  unfold nextPoint ringBase cycleTime herdDom
  rw [hn, hn, hn, hn, htime]

/-- A cycle point in its tick pulses its line and is armed for a later cycle (R357). -/
theorem armPoint_pulse {k : Nat} (hk : k < 16) (i : Nat) (s : State) :
    (81 + k, s.cycle) ∈ (armPoint k (i + 1) (pulse (81 + k) s)).intc.pulses ∧
    AMap.find (armPoint k (i + 1) (pulse (81 + k) s)).herd.cps k = some (max (i + 1) (nextPoint s (herdN s (0x20 + k)))) ∧
    ∀ j, j ≠ k → AMap.find (armPoint k (i + 1) (pulse (81 + k) s)).herd.cps j = AMap.find s.herd.cps j := by
  have hherd : (pulse (81 + k) s).herd = s.herd :=
    (pulse_keeps (m := 0x1000200) (.refl _ s) (.of (by decide))).same .herd (by decide)
  have hcps : (armPoint k (i + 1) (pulse (81 + k) s)).herd.cps =
      AMap.set s.herd.cps k (max (i + 1) (nextPoint s (herdN s (0x20 + k)))) := by
    rw [← nextPoint_pulse (81 + k), ← hherd]
    rfl
  refine ⟨mem_pulses_pulse (lineExists_low _ (by omega) (by omega)), ?_, fun j hj => ?_⟩
  · rw [hcps, AMap.find_set, if_pos rfl]
  · rw [hcps, AMap.find_set, if_neg hj.symm]

/-! ## Mailboxes -/

theorem effMailboxRetryExpiry_own {s : State} (hr : ringOn s = true) (hm : s.herd.mailOut ≠ []) :
    effMailboxRetryExpiry (herdId s) s =
      if s.herd.mailSince + herdN s 0x0F ≤ (cycleIndex s).getD 0 then (mailNext s).bumpHerd 0x1B else s := by
  have he : s.herd.mailOut.isEmpty = false := by simpa using hm
  unfold effMailboxRetryExpiry
  rw [hr, if_neg (by decide), if_pos rfl, he]
  simp only [Bool.not_false, Bool.true_and, decide_eq_true_eq]

theorem effMailboxRetryExpiry_other {s : State} {n : Nat} {m : MailIn} (hr : ringOn s = true) (hn : n ≠ herdId s)
    (hm : AMap.find s.herd.mailIn n = some m) : effMailboxRetryExpiry n s =
      if m.done = false ∧ m.cycle + herdN s 0x0F ≤ (cycleIndex s).getD 0 then
        (s.updHerd fun h => { h with mailIn := AMap.del h.mailIn n }).bumpHerd 0x1B
      else s := by
  unfold effMailboxRetryExpiry
  rw [hr, if_neg (by decide), if_neg hn, hm]
  simp only [Bool.and_eq_true, Bool.not_eq_true', decide_eq_true_eq]

/-! ## A lost ring link -/

/-- A ring port's link goes. -/
def ringUnlinked (k : Nat) (s : State) : State :=
  s.updHerd fun h => { h with ports := updAt h.ports k fun p => { p with link := false } }

theorem effRingPortLinkLost_linked {s : State} {k : Nat} (hr : ringOn s = true) (hk : k < 2) (hl : (ringPort s k).link = true) :
    effRingPortLinkLost k s = if (ringPort s k).inUse then detectFault 14 0 1 k (ringUnlinked k (leaveRing k s))
      else ringUnlinked k (leaveRing k s) := by
  rw [effRingPortLinkLost, hr, hl, decide_eq_true hk]
  rfl

/-- A ring port that has a link is one that the device has. -/
theorem ringPort_lt {s : State} {k : Nat} (hl : (ringPort s k).link = true) : k < s.herd.ports.length := by
  by_contra h
  rw [ringPort, List.getD_eq_default _ _ (Nat.not_lt.1 h)] at hl
  exact absurd hl (by decide)

/-- The ports of a device after a port has left the ring (R337, R358). -/
theorem leaveRing_ports (k : Nat) (s : State) : (leaveRing k s).herd.ports =
    if (ringPort s k).inUse then updAt s.herd.ports k fun p => { p with inUse := false } else s.herd.ports := by
  unfold leaveRing
  split
  · have hp : ∀ u, (pulse 99 u).herd = u.herd := fun u =>
      (pulse_keeps (m := 0x1000200) (.refl _ u) (.of (by decide))).same .herd (by decide)
    dsimp only
    rw [hp]
    exact congrArg Herd.ports (foldl_same (fun u : State => u.herd)
      (f := fun (s : State) (x : RingTx) => s.emit (.ringLost x.port x.bytes)) (fun _ _ => rfl) _ _)
  · rfl

theorem ringUnlinked_ports {s : State} {k : Nat} (hl : (ringPort s k).link = true) :
    (ringPort (ringUnlinked k (leaveRing k s)) k).link = false ∧ (ringPort (ringUnlinked k (leaveRing k s)) k).inUse = false ∧
    ∀ j, j ≠ k → ringPort (ringUnlinked k (leaveRing k s)) j = ringPort s j := by
  have hlt := ringPort_lt hl
  have hports : (ringUnlinked k (leaveRing k s)).herd.ports =
      updAt (leaveRing k s).herd.ports k fun p => { p with link := false } := rfl
  unfold ringPort
  rw [hports, leaveRing_ports]
  split
  case isTrue =>
    rw [updAt_getD_same _ _ _ _ (by rw [updAt, List.length_modify]; exact hlt), updAt_getD_same _ _ _ _ hlt]
    exact ⟨rfl, rfl, fun j hj => by rw [updAt_getD_other _ _ _ hj.symm, updAt_getD_other _ _ _ hj.symm]⟩
  case isFalse hu =>
    rw [updAt_getD_same _ _ _ _ hlt]
    exact ⟨rfl, by simpa [ringPort] using hu, fun j hj => by rw [updAt_getD_other _ _ _ hj.symm]⟩

/-- A port in use that leaves: COUNT, pulse, and the frames in transmission on it (R337, R358). -/
theorem leaveRing_inUse {s : State} {k : Nat} (hu : (ringPort s k).inUse = true) :
    (99, s.cycle) ∈ (leaveRing k s).intc.pulses ∧
    (leaveRing k s).counter 0x5002 0x16 0 = (s.counter 0x5002 0x16 0 + 1) % 2 ^ 64 ∧
    (∀ x ∈ s.herd.sending, x.port = k → s.cycle < x.ends → .ringLost k x.bytes ∈ (leaveRing k s).out) := by
  generalize hcut : s.herd.sending.filter (fun x => x.port == k && decide (s.cycle < x.ends)) = cut
  generalize hfell : (s.updHerd fun h =>
    { h with ports := updAt h.ports k fun p => { p with inUse := false }, sending := h.sending.filter (·.port != k) }) = fell
  have he : leaveRing k s = pulse 99 ((cut.foldl (fun s x => s.emit (.ringLost x.port x.bytes)) fell).bumpHerd 0x16) := by
    rw [leaveRing, if_pos hu, hcut, hfell]
  have hcycle : (cut.foldl (fun s x => s.emit (.ringLost x.port x.bytes)) fell).cycle = s.cycle :=
    (foldl_same (fun u : State => u.cycle) (f := fun (s : State) (x : RingTx) => s.emit (.ringLost x.port x.bytes))
      (fun _ _ => rfl) cut fell).trans (by rw [← hfell]; rfl)
  have hcnt : (cut.foldl (fun s x => s.emit (.ringLost x.port x.bytes)) fell).cnt = s.cnt :=
    (foldl_same (fun u : State => u.cnt) (f := fun (s : State) (x : RingTx) => s.emit (.ringLost x.port x.bytes))
      (fun _ _ => rfl) cut fell).trans (by rw [← hfell]; rfl)
  have hout : ∀ (l : List RingTx) (u : State) (e : OutEvent), (e ∈ u.out ∨ ∃ x ∈ l, e = .ringLost x.port x.bytes) →
      e ∈ (l.foldl (fun s x => s.emit (.ringLost x.port x.bytes)) u).out := by
    intro l
    induction l with
    | nil => intro u e h; simpa using h
    | cons y l ih =>
      intro u e h
      refine ih _ e ?_
      rcases h with h | ⟨x, hx, rfl⟩
      · exact .inl (List.mem_cons_of_mem _ h)
      · rcases List.mem_cons.1 hx with rfl | hx
        · exact .inl List.mem_cons_self
        · exact .inr ⟨x, hx, rfl⟩
  rw [he]
  refine ⟨?_, ?_, fun x hx hp hends => ?_⟩
  · rw [← hcycle]
    exact mem_pulses_pulse (lineExists_low _ (by decide) (by decide))
  · rw [counter_pulse _ (by decide), State.bumpHerd, State.counter_bump_same, State.counter_congr hcnt]
  · rw [(pulse_keeps (m := 0x1000200) (.refl _ _) (.of (by decide))).same .out (by decide)]
    refine hout cut fell _ (.inr ⟨x, ?_, by rw [hp]⟩)
    rw [← hcut]
    exact List.mem_filter.2 ⟨hx, by simp [hp, hends]⟩

theorem leaveRing_notInUse {s : State} {k : Nat} (hu : (ringPort s k).inUse = false) : leaveRing k s = s :=
  if_neg (by rw [hu]; decide)

/-- A ring port in use whose link is lost (R337, R358, R464). -/
theorem ringPortLinkLost_facts {s : State} {k : Nat} (hr : ringOn s = true) (hk : k < 2) (hl : (ringPort s k).link = true) :
    Gives (.ringPortLinkLost k) s fun t =>
      (ringPort t k).link = false ∧ (ringPort t k).inUse = false ∧ (∀ j, j ≠ k → ringPort t j = ringPort s j) ∧
      ((ringPort s k).inUse = true → (99, s.cycle) ∈ t.intc.pulses ∧
        t.counter 0x5002 0x16 0 = (s.counter 0x5002 0x16 0 + 1) % 2 ^ 64 ∧
        (∀ x ∈ s.herd.sending, x.port = k → s.cycle < x.ends → .ringLost k x.bytes ∈ t.out) ∧
        (isAlive s.chip.mode = true → blockPresent s.ident 14 = true → bit (t.fault 14 0).status 0 = true)) ∧
      ((ringPort s k).inUse = false → Only [.herd] s t) := by
  have he := effRingPortLinkLost_linked hr hk hl
  obtain ⟨hlink, huse, hother⟩ := ringUnlinked_ports hl
  cases hu : (ringPort s k).inUse with
  | false =>
    rw [hu] at he
    refine ⟨_, congrArg Host.Outcome.next (he.trans (if_neg (by decide))), hlink, huse, hother, fun h => (nomatch h),
      fun _ => ?_⟩
    rw [leaveRing_notInUse hu]
    exact (State.updHerd_keeps (.refl _ s) (.of (by decide)) id).only
  | true =>
    rw [hu] at he
    generalize hv : ringUnlinked k (leaveRing k s) = v at he hlink huse hother
    have hd : Keeps 0xc3000000 v (detectFault 14 0 1 k v) := detectFault_keeps (.refl _ v) (.of (by decide))
    have hring : ∀ j, ringPort (detectFault 14 0 1 k v) j = ringPort v j := fun j => by
      rw [ringPort, hd.same .herd (by decide), ringPort]
    have hlk : Keeps 0x1800208 s v := by
      rw [← hv]
      exact State.updHerd_keeps (leaveRing_keeps (.refl _ s) (.of (by decide))) (.of (by decide)) id
    obtain ⟨hpulse, hcount, hlost⟩ := leaveRing_inUse hu
    refine ⟨_, congrArg Host.Outcome.next (he.trans (if_pos rfl)), by rw [hring, hlink], by rw [hring, huse],
      fun j hj => by rw [hring, hother j hj], fun _ => ⟨?_, ?_, fun x hx hp hends => ?_, fun ha hb => ?_⟩, fun h => (nomatch h)⟩
    · rw [detectFault_pulses, ← hv]
      exact hpulse
    · rw [State.counter_congr (detectFault_cnt ..), ← hv]
      exact hcount
    · rw [hd.same .out (by decide), ← hv]
      exact hlost x hx hp hends
    · refine detectFault_bit (by rw [hlk.mode (by decide)]; exact ha) ?_ k
      rw [hlk.same .ident (by decide)]
      exact hb

/-! ## The statement -/

/-- Settles O42: each timer by its equation above. -/
theorem herdTimers : Obligations.HerdTimers := by
  unfold Obligations.HerdTimers
  intro s
  refine ⟨fun i hc ho ha => ⟨fun h => congrArg Host.Outcome.next ?_, fun h => ⟨fun hs => congrArg Host.Outcome.next ?_,
    fun hs => ?_⟩⟩,
    fun h => congrArg Host.Outcome.next (if_neg ?_), fun k h => congrArg Host.Outcome.next (by rw [effHerdCp, h]),
    fun k i hk h => ⟨fun hr => congrArg Host.Outcome.next ?_, fun hr hd => ?_, fun hd next hn => congrArg Host.Outcome.next ?_⟩,
    fun hr hm => ⟨fun h => congrArg Host.Outcome.next ?_, fun h => congrArg Host.Outcome.next ?_⟩, rfl, rfl, rfl,
    fun n m hr hn hm => ⟨fun hd h => congrArg Host.Outcome.next ?_, fun h => congrArg Host.Outcome.next ?_⟩,
    fun k hr hk hl => ringPortLinkLost_facts hr hk hl, fun k hl => congrArg Host.Outcome.next (if_neg ?_)⟩
  · rw [effAssemblyInstant_eq hc ho ha, if_neg (Nat.not_le.2 h)]
  · rw [effAssemblyInstant_eq hc ho ha, if_pos h, if_pos hs]
  · obtain ⟨u, a, hu, hlay, hasm⟩ :=
      assembleFrame_assembled (i % 2 ^ 32) ((i + 1) % 2 ^ 32) (s.bumpBy 0x5002 0x11 0 (missingCopies s))
    refine ⟨_, congrArg Host.Outcome.next
      ((effAssemblyInstant_eq hc ho ha).trans ((if_pos h).trans (if_neg (by rw [hs]; decide)))),
      u, a, hu, hlay, hasm⟩
  · rcases h with h | h | h
    · simp [h]
    · simp [Option.isSome_iff_ne_none.1 h]
    · simp [h]
  · rw [effHerdCp_armed h, if_neg (by rw [hr]; decide)]
  · exact ⟨_, congrArg Host.Outcome.next ((effHerdCp_armed h).trans ((if_pos hr).trans (if_neg (by rw [hd]; decide)))),
      armPoint_pulse hk i s⟩
  · rw [effHerdCp_armed h, if_pos (reached_of_overdue hd), if_pos hd, hn]
    rfl
  · rw [effMailboxRetryExpiry_own hr hm, if_pos h]
  · rw [effMailboxRetryExpiry_own hr hm, if_neg (Nat.not_le.2 h)]
  · rw [effMailboxRetryExpiry_other hr hn hm, if_pos ⟨hd, h⟩]
  · rw [effMailboxRetryExpiry_other hr hn hm, if_neg]
    rintro ⟨hd, hle⟩
    rcases h with h | h
    · rw [hd] at h; exact nomatch h
    · omega
  · rw [hl, Bool.and_false]
    decide

end Sys2Proof.Machine
end

section
/-!
PROOF. PERST_N, Hot Reset, function-level reset, the link and configuration writes (R365, R366, R374, R375, R381, R382).
-/
namespace Sys2Proof.Machine

/-! ## The outstanding host reads of the functions -/

/-- A function but for its count of outstanding host reads (R376). -/
def Pf.unread (p : Pf) : Pf := { p with reads := 0 }

/-- The link and the functions but for those counts. -/
def Pcie.unread (p : Pcie) : Pcie := { p with pfs := p.pfs.map Pf.unread }

/-- Of the link and the functions a step changes at most the counts of outstanding host reads. -/
def ReadsOnly (s t : State) : Prop := t.pcie.unread = s.pcie.unread

theorem ReadsOnly.refl (s : State) : ReadsOnly s s := rfl

theorem ReadsOnly.trans {s t u : State} (h : ReadsOnly s t) (k : ReadsOnly t u) : ReadsOnly s u := Eq.trans k h

theorem ReadsOnly.ite {s t u : State} {c : Prop} [Decidable c] (h : ReadsOnly s t) (k : ReadsOnly s u) :
    ReadsOnly s (if c then t else u) := by split <;> assumption

theorem Keeps.readsOnly {m : Nat} {s t : State} (h : Keeps m s t) (hm : m.testBit Part.pcie.idx = false) : ReadsOnly s t :=
  congrArg Pcie.unread (h.same .pcie hm)

theorem map_updAt_of_eq {α β : Type} (φ : α → β) {f : α → α} (h : ∀ x, φ (f x) = φ x) (l : List α) (i : Nat) :
    (updAt l i f).map φ = l.map φ := by
  refine List.ext_getElem? fun j => ?_
  rw [updAt, List.getElem?_map, List.getElem?_modify, List.getElem?_map]
  cases l[j]? with
  | none => rfl
  | some a =>
    show some (φ (if i = j then f a else a)) = some (φ a)
    split
    · rw [h]
    · rfl

theorem endReads_readsOnly (f n : Nat) (s : State) : ReadsOnly s (endReads f n s) :=
  congrArg (fun l => ({ s.pcie with pfs := l } : Pcie))
    (map_updAt_of_eq (f := fun p => { p with reads := p.reads - n }) Pf.unread (fun _ => rfl) s.pcie.pfs f)

theorem dropFetch_readsOnly (c : Nat) (s : State) : ReadsOnly s (dropFetch c s) := by
  unfold dropFetch
  split
  · exact endReads_readsOnly _ 1 s
  · rfl

theorem dropBarriers_readsOnly (c : Nat) (s : State) : ReadsOnly s (dropBarriers c s) :=
  foldl_same (fun u => u.pcie.unread) (fun u _ => ReadsOnly.ite (endReads_readsOnly _ 1 u) rfl) _ s

theorem updChan_readsOnly (c : Nat) (f : Chan → Chan) (s : State) : ReadsOnly s (s.updChan c f) := rfl

theorem haltChan_readsOnly (c code addr : Nat) (s : State) : ReadsOnly s (haltChan c code addr s) := by
  unfold haltChan
  extract_lets clear s0 s1 s2
  have h0 : ReadsOnly s s0 := (ReadsOnly.ite (dropBarriers_readsOnly c s) (.refl s)).trans (dropFetch_readsOnly c _)
  have ha : Keeps 0x10200 s0 (abortBursts c (endPartFrame c s0)) :=
    abortBursts_keeps (endPartFrame_keeps (.refl _ s0) (.of (by decide))) (.of (by decide))
  have h1 : ReadsOnly s0 s1 := (ha.readsOnly (by decide)).trans (updChan_readsOnly c _ _)
  have hp : Keeps 0x1000200 s1 s2 := pulse_keeps ((Keeps.refl _ s1).setCnt (.of (by decide))) (.of (by decide))
  have hd : Keeps 0xc3000000 s2 (detectFault 16 c 1 code s2) := detectFault_keeps (.refl _ s2) (.of (by decide))
  have h2 : ReadsOnly s s2 := h0.trans (h1.trans (hp.readsOnly (by decide)))
  exact .ite h2 (h2.trans (hd.readsOnly (by decide)))

theorem dmaFunctionReset_readsOnly (f : Nat) (s : State) : ReadsOnly s (dmaFunctionReset f s) :=
  foldl_same (fun u => u.pcie.unread) (fun u _ => ReadsOnly.ite (haltChan_readsOnly _ _ _ u) rfl) _ s

theorem getD_map_unread (l : List Pf) (f : Nat) : (l.map Pf.unread).getD f {} = (l.getD f {}).unread := by
  simp only [List.getD_eq_getElem?_getD, List.getElem?_map]
  cases l[f]? <;> rfl

theorem ReadsOnly.pf {s t : State} (h : ReadsOnly s t) (f : Nat) : (t.pf f).unread = (s.pf f).unread := by
  have hf := congrArg (fun p : Pcie => p.pfs.getD f {}) h
  rwa [Pcie.unread, Pcie.unread, getD_map_unread, getD_map_unread] at hf

theorem ReadsOnly.pmeStatus {s t : State} (h : ReadsOnly s t) : t.pcie.pfs.map Pf.pmeStatus = s.pcie.pfs.map Pf.pmeStatus := by
  have hp := congrArg (fun p : Pcie => p.pfs.map Pf.pmeStatus) h
  simp only [Pcie.unread, List.map_map] at hp
  exact hp

/-! ## A reset of functions -/

/-- The fields of the link. -/
def Pcie.link (p : Pcie) : Pcie := { p with pfs := [] }

theorem ReadsOnly.link {s t : State} (h : ReadsOnly s t) : t.pcie.link = s.pcie.link :=
  (congrArg Pcie.link h :)

/-- From `s` to `t` the functions of `l` are reset; the link, the other functions and the device state stay. -/
structure ResetSince (keep : Bool) (l : List Nat) (s t : State) : Prop where
  link : t.pcie.link = s.pcie.link
  mode : t.chip.mode = s.chip.mode
  ident : t.ident = s.ident
  reset : ∀ f ∈ l, (t.pf f).unread = (clearedPf keep (s.pf f)).unread
  other : ∀ f, f ∉ l → (t.pf f).unread = (s.pf f).unread ∧ t.mailbox f = s.mailbox f
  pme : keep = true → t.pcie.pfs.map Pf.pmeStatus = s.pcie.pfs.map Pf.pmeStatus
  mailbox : ∀ f ∈ l, { t.mailbox f with resetAt := none } = ({} : Mailbox)
  count : ∀ f ∈ l, t.nap.localCount.getD f 0 = 0
  transfers : ∀ x ∈ t.nap.transfers, ∀ f ∈ l, x.req.path ≠ .mailbox f

theorem ResetSince.nil (keep : Bool) (s : State) : ResetSince keep [] s s where
  link := rfl
  mode := rfl
  ident := rfl
  reset _ h := nomatch h
  other _ _ := ⟨rfl, rfl⟩
  pme _ := rfl
  mailbox _ h := nomatch h
  count _ h := nomatch h
  transfers _ _ _ h := nomatch h

/-- The registers and the engine's part of one function's reset, before the interrupts and the DMA channels. -/
def registersReset (keep : Bool) (f : Nat) (s : State) : State :=
  clearCount f ((voidResponses f (closeMailboxTransfers f (s.updPf f (clearedPf keep)))).updMbox f
    fun _ => { resetAt := some s.cycle })

/-- The interrupts and the clock registers of one function's reset. -/
def targetsReset (f : Nat) (s : State) : State :=
  intcFunctionReset f { s with time := { s.time with fn := s.time.fn.filter fun e => e.1 / 8 != f } }

theorem resetFunction_eq (keep : Bool) (s : State) (f : Nat) :
    resetFunction keep s f = dmaFunctionReset f (targetsReset f (registersReset keep f s)) := rfl

theorem targetsReset_readsOnly (f : Nat) (s : State) : ReadsOnly s (targetsReset f s) := rfl

theorem resetFunction_readsOnly (keep : Bool) (s : State) (f : Nat) :
    ReadsOnly (registersReset keep f s) (resetFunction keep s f) := by
  rw [resetFunction_eq]
  exact (targetsReset_readsOnly f _).trans (dmaFunctionReset_readsOnly f _)

theorem resetFunction_nap (keep : Bool) (s : State) (f : Nat) :
    (resetFunction keep s f).nap = (registersReset keep f s).nap := by
  rw [resetFunction_eq]
  have hk : Keeps 0xcb010200 (targetsReset f (registersReset keep f s))
      (dmaFunctionReset f (targetsReset f (registersReset keep f s))) := dmaFunctionReset_keeps (.refl _ _) (.of (by decide))
  exact hk.same .nap (by decide)

theorem registersReset_link (keep : Bool) (f : Nat) (s : State) : (registersReset keep f s).pcie.link = s.pcie.link := rfl

theorem clearedPf_unread (keep : Bool) (p : Pf) : (clearedPf keep p).unread = clearedPf keep p.unread := by
  cases keep <;> rfl

theorem getD_updAt_clearedPf (keep : Bool) (l : List Pf) (f : Nat) :
    ((updAt l f (clearedPf keep)).getD f {}).unread = (clearedPf keep (l.getD f {})).unread := by
  by_cases h : f < l.length
  · rw [updAt_getD_same l f _ {} h]
  · rw [updAt_getD_of_length_le _ _ (Nat.le_of_not_lt h), getD_of_length_le _ (Nat.le_of_not_lt h)]
    cases keep <;> rfl

theorem registersReset_pf_other (keep : Bool) {f g : Nat} (s : State) (h : f ≠ g) :
    (registersReset keep f s).pf g = s.pf g := by
  show (updAt s.pcie.pfs f (clearedPf keep)).getD g {} = s.pcie.pfs.getD g {}
  exact updAt_getD_other _ _ _ h

theorem registersReset_mailbox_same (keep : Bool) (f : Nat) (s : State) :
    { (registersReset keep f s).mailbox f with resetAt := none } = ({} : Mailbox) := by
  show { (updAt s.nap.mbox f fun _ => ({ resetAt := some s.cycle } : Mailbox)).getD f {} with resetAt := none } = ({} : Mailbox)
  by_cases h : f < s.nap.mbox.length
  · rw [updAt_getD_same _ f _ {} h]
  · rw [updAt_getD_of_length_le _ _ (Nat.le_of_not_lt h)]

theorem registersReset_mailbox_other (keep : Bool) {f g : Nat} (s : State) (h : f ≠ g) :
    (registersReset keep f s).mailbox g = s.mailbox g := by
  show (updAt s.nap.mbox f fun _ => ({ resetAt := some s.cycle } : Mailbox)).getD g {} = s.nap.mbox.getD g {}
  exact updAt_getD_other _ _ _ h

theorem registersReset_count_same (keep : Bool) (f : Nat) (s : State) :
    (registersReset keep f s).nap.localCount.getD f 0 = 0 := by
  show (s.nap.localCount.set f 0).getD f 0 = 0
  simp only [List.getD_eq_getElem?_getD, List.getElem?_set_self']
  cases s.nap.localCount[f]? <;> rfl

theorem registersReset_count_other (keep : Bool) {f g : Nat} (s : State) (h : f ≠ g) :
    (registersReset keep f s).nap.localCount.getD g 0 = s.nap.localCount.getD g 0 := by
  show (s.nap.localCount.set f 0).getD g 0 = _
  simp only [List.getD_eq_getElem?_getD, List.getElem?_set_ne h]

theorem mem_registersReset_transfers {keep : Bool} {f : Nat} {s : State} {x : Transfer} :
    x ∈ (registersReset keep f s).nap.transfers ↔ x ∈ s.nap.transfers ∧ x.req.path ≠ .mailbox f := by
  show x ∈ s.nap.transfers.filter _ ↔ _
  rw [List.mem_filter, bne_iff_ne]

theorem ResetSince.step {keep : Bool} {l : List Nat} {s t : State} (h : ResetSince keep l s t) (f : Nat) :
    ResetSince keep (f :: l) s (resetFunction keep t f) := by
  have hr := resetFunction_readsOnly keep t f
  have hnap := resetFunction_nap keep t f
  have hk : Keeps 0xcb210300 t (resetFunction keep t f) := resetFunction_keeps (.refl _ t) (.of (by decide))
  have hmail : ∀ g, (resetFunction keep t f).mailbox g = (registersReset keep f t).mailbox g := fun g =>
    congrArg (fun n : Nap => n.mbox.getD g {}) hnap
  have hsame : ((resetFunction keep t f).pf f).unread = (clearedPf keep (t.pf f)).unread :=
    (hr.pf f).trans (getD_updAt_clearedPf keep t.pcie.pfs f)
  have hother : ∀ g, f ≠ g → ((resetFunction keep t f).pf g).unread = (t.pf g).unread := fun g hg =>
    (hr.pf g).trans (congrArg Pf.unread (registersReset_pf_other keep t hg))
  exact {
    link := (hr.link.trans (registersReset_link keep f t)).trans h.link
    mode := (hk.mode (by decide)).trans h.mode
    ident := Eq.trans (hk.same .ident (by decide)) h.ident
    reset := fun g hg => by
      by_cases e : f = g
      · subst e
        rw [hsame, clearedPf_unread, clearedPf_unread]
        by_cases hl : f ∈ l
        · rw [h.reset f hl, clearedPf_unread]
          cases keep <;> rfl
        · rw [(h.other f hl).1]
      · rw [hother g e]
        exact h.reset g ((List.mem_cons.1 hg).resolve_left fun k => e k.symm)
    other := fun g hg => by
      rw [List.mem_cons, not_or] at hg
      have e : f ≠ g := fun k => hg.1 k.symm
      rw [hother g e, hmail, registersReset_mailbox_other keep t e]
      exact h.other g hg.2
    pme := fun hk => by
      subst hk
      rw [hr.pmeStatus, ← h.pme rfl]
      exact map_updAt_of_eq (f := clearedPf true) Pf.pmeStatus (fun _ => rfl) t.pcie.pfs f
    mailbox := fun g hg => by
      rw [hmail]
      by_cases e : f = g
      · subst e
        exact registersReset_mailbox_same keep f t
      · rw [registersReset_mailbox_other keep t e]
        exact h.mailbox g ((List.mem_cons.1 hg).resolve_left fun k => e k.symm)
    count := fun g hg => by
      rw [hnap]
      by_cases e : f = g
      · subst e
        exact registersReset_count_same keep f t
      · rw [registersReset_count_other keep t e]
        exact h.count g ((List.mem_cons.1 hg).resolve_left fun k => e k.symm)
    transfers := fun x hx g hg => by
      rw [hnap] at hx
      obtain ⟨hold, hne⟩ := mem_registersReset_transfers.1 hx
      obtain rfl | hg := List.mem_cons.1 hg
      · exact hne
      · exact h.transfers x hold g hg }

/-! ## The link goes down -/

/-- The list of functions that a reset of all of them has gone through, the last first. -/
theorem mem_functions {f : Nat} (h : f < 4) : f ∈ [3, 2, 1, 0] := by
  simp only [List.mem_cons, List.not_mem_nil, or_false]
  omega

/-- A function's registers, mailbox and count are as after reset, but for PME_En and PME_Status. -/
def FunctionCleared (s t : State) (f : Nat) : Prop :=
  { t.pf f with pmeEnable := false, pmeStatus := false, wakeSeen := false, reads := 0 } = ({} : Pf) ∧
    (t.pf f).pmeEnable = (s.pf f).pmeEnable ∧ (t.pf f).pmeStatus = (s.pf f).pmeStatus ∧
    { t.mailbox f with resetAt := none } = ({} : Mailbox) ∧ t.nap.localCount.getD f 0 = 0

theorem ResetSince.functionCleared {l : List Nat} {s t : State} (h : ResetSince true l s t) {f : Nat} (hf : f ∈ l) :
    FunctionCleared s t f := by
  have hp : (t.pf f).unread = (clearedPf true (s.pf f)).unread := h.reset f hf
  exact ⟨(congrArg (fun p : Pf => { p with pmeEnable := false, pmeStatus := false, wakeSeen := false, reads := 0 }) hp :),
    (congrArg Pf.pmeEnable hp :), (congrArg Pf.pmeStatus hp :), h.mailbox f hf, h.count f hf⟩

theorem ResetSince.foldl {keep : Bool} {s : State} (r : List Nat) {l : List Nat} {t : State} (h : ResetSince keep l s t) :
    ResetSince keep (r.foldl (fun l f => f :: l) l) s (r.foldl (resetFunction keep) t) := by
  induction r generalizing l t with
  | nil => exact h
  | cons f r ih =>
    rw [List.foldl_cons, List.foldl_cons]
    exact ih (h.step f)

/-- The state in which a lost link resets the functions. -/
def linkLost (s : State) : State := s.updPcie fun p => { p with linkUp := false, width := 0, speed := 0 }

/-- The functions after a loss of the link. -/
def allFunctionsReset (s : State) : State := (upTo 4).foldl (resetFunction true) (linkLost s)

theorem allFunctionsReset_resetSince (s : State) : ResetSince true [3, 2, 1, 0] (linkLost s) (allFunctionsReset s) := by
  have hl : (upTo 4).foldl (fun l f => f :: l) [] = [3, 2, 1, 0] := by decide
  have h : ResetSince true ((upTo 4).foldl (fun l f => f :: l) []) (linkLost s) (allFunctionsReset s) := by
    unfold allFunctionsReset
    exact (ResetSince.nil true (linkLost s)).foldl (upTo 4)
  rwa [hl] at h

/-- WAKE_N is driven low where a PME_Status is set (R375). -/
def wakeDriven (s : State) : State :=
  if s.pcie.pfs.any (·.pmeStatus) then s.updPcie fun p => { p with wakeN := false } else s

theorem dropLink_eq (s : State) : dropLink s =
    if s.pcie.linkUp then detectFault 15 0 2 0 (wakeDriven (allFunctionsReset s)) else wakeDriven (allFunctionsReset s) := by
  unfold dropLink wakeDriven allFunctionsReset linkLost
  rfl

theorem any_pmeStatus (l : List Pf) : l.any (fun p => p.pmeStatus) = (l.map Pf.pmeStatus).any id := by
  rw [List.any_map]
  rfl

/-- What is left of the functions' state when the link goes down, and what it makes of WAKE_N and block 15. -/
structure LinkDropped (s t : State) : Prop where
  linkUp : t.pcie.linkUp = false
  width : t.pcie.width = 0
  speed : t.pcie.speed = 0
  perst : t.pcie.perst = s.pcie.perst
  cfgReady : t.pcie.cfgReady = s.pcie.cfgReady
  cleared : ∀ f, f < 4 → FunctionCleared s t f
  transfers : ∀ x ∈ t.nap.transfers, ∀ f, f < 4 → x.req.path ≠ .mailbox f
  wakeN : s.pcie.pfs.any (fun p => p.pmeStatus) = true → t.pcie.wakeN = false

theorem LinkDropped.congr {s t u : State} (h : LinkDropped s t) (hp : u.pcie = t.pcie) (hn : u.nap = t.nap) :
    LinkDropped s u where
  linkUp := by rw [hp]; exact h.linkUp
  width := by rw [hp]; exact h.width
  speed := by rw [hp]; exact h.speed
  perst := by rw [hp]; exact h.perst
  cfgReady := by rw [hp]; exact h.cfgReady
  cleared f hf := by
    have hc := h.cleared f hf
    unfold FunctionCleared State.pf State.mailbox at hc ⊢
    rwa [hp, hn]
  transfers := by rw [hn]; exact h.transfers
  wakeN := by rw [hp]; exact h.wakeN

theorem ResetSince.linkDropped {s t : State} (hr : ResetSince true [3, 2, 1, 0] (linkLost s) t) :
    LinkDropped s (wakeDriven t) := by
  have hl : t.pcie.link = (linkLost s).pcie.link := hr.link
  have hc : ∀ f, f < 4 → FunctionCleared s t f := fun f hf => hr.functionCleared (mem_functions hf)
  have ht : ∀ x ∈ t.nap.transfers, ∀ f, f < 4 → x.req.path ≠ .mailbox f := fun x hx f hf =>
    hr.transfers x hx f (mem_functions hf)
  have hp : t.pcie.pfs.any (fun p => p.pmeStatus) = s.pcie.pfs.any (fun p => p.pmeStatus) := by
    rw [any_pmeStatus, hr.pme rfl, any_pmeStatus]
    rfl
  unfold wakeDriven
  split
  · exact ⟨(congrArg Pcie.linkUp hl :), (congrArg Pcie.width hl :), (congrArg Pcie.speed hl :), (congrArg Pcie.perst hl :),
      (congrArg Pcie.cfgReady hl :), hc, ht, fun _ => rfl⟩
  · next h =>
    exact ⟨(congrArg Pcie.linkUp hl :), (congrArg Pcie.width hl :), (congrArg Pcie.speed hl :), (congrArg Pcie.perst hl :),
      (congrArg Pcie.cfgReady hl :), hc, ht, fun k => absurd (hp.trans k) h⟩

theorem dropLink_linkDropped (s : State) : LinkDropped s (dropLink s) := by
  rw [dropLink_eq]
  have hw : LinkDropped s (wakeDriven (allFunctionsReset s)) := (allFunctionsReset_resetSince s).linkDropped
  split
  · have hk : Keeps 0xc3000000 (wakeDriven (allFunctionsReset s)) (detectFault 15 0 2 0 (wakeDriven (allFunctionsReset s))) :=
      detectFault_keeps (.refl _ _) (.of (by decide))
    exact hw.congr (hk.same .pcie (by decide)) (hk.same .nap (by decide))
  · exact hw

theorem wakeDriven_mode (s : State) : (wakeDriven s).chip.mode = s.chip.mode := by
  unfold wakeDriven
  split <;> rfl

theorem wakeDriven_ident (s : State) : (wakeDriven s).ident = s.ident := by
  unfold wakeDriven
  split <;> rfl

/-- A link that was up and is lost stands in block 15 from LOAD on (R381, R464). -/
theorem dropLink_fault {s : State} (hu : s.pcie.linkUp = true) (ha : isAlive s.chip.mode = true)
    (hb : blockPresent s.ident 15 = true) : bit ((dropLink s).fault 15 0).status 1 = true := by
  have hr := allFunctionsReset_resetSince s
  rw [dropLink_eq, if_pos hu]
  have hm : (wakeDriven (allFunctionsReset s)).chip.mode = s.chip.mode := (wakeDriven_mode _).trans hr.mode
  have hi : (wakeDriven (allFunctionsReset s)).ident = s.ident := (wakeDriven_ident _).trans hr.ident
  generalize wakeDriven (allFunctionsReset s) = u at hm hi ⊢
  exact detectFault_bit (c := 2) (by rwa [hm]) (by rwa [hi]) 0

/-! ## One function -/

theorem judgeWake_eq (s : State) : judgeWake s =
    (if s.pcie.pfs.any (fun p => p.pmeStatus) = true then s else { s with pcie := { s.pcie with wakeN := true } }) := rfl

theorem cfgRequest_ready {f : Nat} {s : State} (act : State → State) (hf : f < 4) (hu : s.pcie.linkUp = true)
    (hc : s.pcie.cfgReady = true) : cfgRequest f act s = act s := by
  simp [cfgRequest, hf, hu, hc]

theorem cfgRequest_retry {f : Nat} {s : State} (act : State → State) (hf : f < 4) (hu : s.pcie.linkUp = true)
    (hc : s.pcie.cfgReady = false) : cfgRequest f act s = s.emit (.configRetry f) := by
  simp [cfgRequest, hf, hu, hc]

theorem cfgRequest_linkDown {f : Nat} {s : State} (act : State → State) (hu : s.pcie.linkUp = false) :
    cfgRequest f act s = s := by
  simp [cfgRequest, hu]

/-- Releasing WAKE_N changes neither the functions nor the engine. -/
theorem judgeWake_kept (s : State) :
    (judgeWake s).pcie.pfs = s.pcie.pfs ∧ (judgeWake s).pcie.linkUp = s.pcie.linkUp ∧ (judgeWake s).nap = s.nap := by
  unfold judgeWake
  split <;> exact ⟨rfl, rfl, rfl⟩

/-- A function-level reset clears its function and leaves the others. -/
def FunctionReset (s t : State) (f : Nat) : Prop :=
  { t.pf f with wakeSeen := false, reads := 0 } = ({} : Pf) ∧ { t.mailbox f with resetAt := none } = ({} : Mailbox) ∧
    t.nap.localCount.getD f 0 = 0 ∧ (∀ x ∈ t.nap.transfers, x.req.path ≠ .mailbox f) ∧ t.pcie.linkUp = s.pcie.linkUp ∧
    (∀ g, g ≠ f → (t.pf g).unread = (s.pf g).unread ∧ t.mailbox g = s.mailbox g)

theorem FunctionReset.congr {s t u : State} {f : Nat} (h : FunctionReset s t f) (hp : u.pcie.pfs = t.pcie.pfs)
    (hu : u.pcie.linkUp = t.pcie.linkUp) (hn : u.nap = t.nap) : FunctionReset s u f := by
  unfold FunctionReset State.pf State.mailbox at h ⊢
  rwa [hp, hu, hn]

theorem ResetSince.functionReset {s t : State} {f : Nat} (hr : ResetSince false [f] s t) : FunctionReset s t f := by
  have hf : f ∈ [f] := List.mem_singleton.2 rfl
  exact ⟨(congrArg (fun p : Pf => { p with wakeSeen := false, reads := 0 }) (hr.reset f hf) :), hr.mailbox f hf,
    hr.count f hf, fun x hx => hr.transfers x hx f hf, (congrArg Pcie.linkUp hr.link :), fun g hg =>
      hr.other g fun h => hg (List.mem_singleton.1 h)⟩

theorem functionLevelReset_functionReset (s : State) (f : Nat) :
    FunctionReset s (judgeWake (resetFunction false s f)) f := by
  obtain ⟨hp, hu, hn⟩ := judgeWake_kept (resetFunction false s f)
  exact ((ResetSince.nil false s).step f).functionReset.congr hp hu hn

/-! ## The link comes up -/

theorem trainedWidth_eq {width : Nat} (h : 4 ≤ width) :
    trainedWidth width = if 16 ≤ width then 16 else if 8 ≤ width then 8 else 4 := by
  rw [trainedWidth, if_pos h]

theorem effPcieLinkUp_trains {s : State} {width speed : Nat} (ha : isAlive s.chip.mode = true) (hp : s.pcie.perst = false)
    (hu : s.pcie.linkUp = false) (hw : 4 ≤ width) (hs : 1 ≤ speed) :
    effPcieLinkUp width speed s = { s with pcie := { s.pcie with
      linkUp := true
      width := if 16 ≤ width then 16 else if 8 ≤ width then 8 else 4
      speed := if speed ≤ 4 then speed else 4 } } := by
  rw [effPcieLinkUp, if_pos (by simp [ha, hp, hu, hw, hs]), trainedWidth_eq hw, Nat.min_def]
  rfl

theorem effPcieLinkUp_stays {s : State} {width speed : Nat}
    (h : isAlive s.chip.mode = false ∨ s.pcie.perst = true ∨ s.pcie.linkUp = true ∨ width < 4 ∨ speed = 0) :
    effPcieLinkUp width speed s = s := by
  rw [effPcieLinkUp, if_neg]
  intro hc
  simp only [Bool.and_eq_true, Bool.not_eq_true', decide_eq_true_eq] at hc
  obtain ⟨⟨⟨⟨ha, hp⟩, hu⟩, hw⟩, hs⟩ := hc
  rcases h with h | h | h | h | h
  · exact absurd (ha.symm.trans h) (by decide)
  · exact absurd (hp.symm.trans h) (by decide)
  · exact absurd (hu.symm.trans h) (by decide)
  · omega
  · omega

theorem effPcieConfigReady_stays {s : State} (h : isAlive s.chip.mode = false ∨ s.pcie.perst = true) :
    effPcieConfigReady s = s := by
  rcases h with h | h <;> simp [effPcieConfigReady, h]

theorem cfgField_payload {n : Nat} (h : n ∈ [128, 256, 512]) (p : Pf) :
    cfgField (.payload n n) p = { p with mps := n, mrrs := n } := by
  have hc : [128, 256, 512].contains n = true := List.contains_iff_mem.2 h
  simp only [cfgField, hc, if_true]

theorem perstNAssert_gives {s : State} (hp : s.pcie.perst = false) : Gives .perstNAssert s fun t =>
    LinkDropped (s.updPcie fun p => { p with perst := true, cfgReady := false }) t ∧
      (s.pcie.linkUp = true → isAlive s.chip.mode = true → blockPresent s.ident 15 = true →
        bit (t.fault 15 0).status 1 = true) := by
  have he : effPerstNAssert s = dropLink (s.updPcie fun p => { p with perst := true, cfgReady := false }) := by
    rw [effPerstNAssert, if_neg (by simp [hp])]
  exact ⟨_, congrArg Host.Outcome.next he, dropLink_linkDropped _, fun hu ha hb => dropLink_fault hu ha hb⟩

theorem hotReset_gives {s : State} (hu : s.pcie.linkUp = true) : Gives .hotReset s fun t =>
    LinkDropped s t ∧ (isAlive s.chip.mode = true → blockPresent s.ident 15 = true → bit (t.fault 15 0).status 1 = true) :=
  ⟨dropLink s, congrArg Host.Outcome.next (if_pos hu), dropLink_linkDropped s, fun ha hb => dropLink_fault hu ha hb⟩

theorem functionLevelReset_gives {s : State} {f : Nat} (hf : f < 4) (hu : s.pcie.linkUp = true) (hc : s.pcie.cfgReady = true) :
    Gives (.functionLevelReset f) s fun t => FunctionReset s t f :=
  ⟨_, congrArg Host.Outcome.next (cfgRequest_ready _ hf hu hc), functionLevelReset_functionReset s f⟩

theorem Gives.mono {c : Instr} {s : State} {P Q : State → Prop} (h : Gives c s P) (hpq : ∀ t, P t → Q t) : Gives c s Q := by
  obtain ⟨t, ht, hp⟩ := h
  exact ⟨t, ht, hpq t hp⟩

/-- Settles O44: a lost link resets the four functions one after the other, and of the functions' registers the halted DMA
channels change only the counts of outstanding reads. -/
theorem functionsReset : Obligations.FunctionsReset := by
  unfold Obligations.FunctionsReset
  intro s
  refine ⟨fun hp => ?_, fun hp => ⟨?_, ?_⟩, fun hp => ?_, fun hu => ?_, fun hu => ?_, fun f hf hu hc => ?_,
    fun width speed => ⟨?_, ?_⟩,
    fun ha hp => ?_, fun h => ?_, fun f c d3 hf hu => ⟨fun hc => ⟨?_, ?_⟩, fun hc u h => ?_⟩, fun f c d3 hu => ⟨?_, ?_, ?_⟩,
    fun p v w n => ⟨rfl, rfl, rfl, rfl, rfl, rfl, rfl, rfl, fun hn => cfgField_payload hn p, rfl⟩, judgeWake_eq⟩
  · refine (perstNAssert_gives hp).mono fun t h => ?_
    obtain ⟨hd, hfault⟩ := h
    exact ⟨hd.perst, hd.linkUp, hd.cfgReady, hd.cleared, hd.transfers, hd.wakeN, hfault⟩
  · exact congrArg Host.Outcome.next (if_pos hp)
  · exact congrArg Host.Outcome.next (if_pos hp)
  · exact congrArg Host.Outcome.next (if_neg (by simp [hp]))
  · refine (hotReset_gives hu).mono fun t h => ?_
    obtain ⟨hd, hfault⟩ := h
    exact ⟨hd.linkUp, hd.width, hd.speed, hd.perst, hd.cleared, hd.transfers, hd.wakeN, hfault⟩
  · exact congrArg Host.Outcome.next (if_neg (by simp [hu]))
  · refine (functionLevelReset_gives hf hu hc).mono fun t h => ?_
    obtain ⟨hclear, hmail, hcount, htrans, hup, hother⟩ := h
    refine ⟨hclear, hmail, hcount, htrans, hup.trans hu, fun g hg => ?_⟩
    obtain ⟨hpf, hbox⟩ := hother g hg
    exact ⟨(congrArg Pf.bme hpf :), (congrArg Pf.mse hpf :), (congrArg Pf.table hpf :), (congrArg Pf.pmeStatus hpf :), hbox⟩
  · exact fun ha hp hu hw hs => congrArg Host.Outcome.next (effPcieLinkUp_trains ha hp hu hw hs)
  · exact fun h => congrArg Host.Outcome.next (effPcieLinkUp_stays h)
  · exact congrArg Host.Outcome.next (if_pos (by simp [ha, hp]))
  · exact congrArg Host.Outcome.next (effPcieConfigReady_stays h)
  · exact congrArg Host.Outcome.next (cfgRequest_ready _ hf hu hc)
  · exact congrArg Host.Outcome.next (cfgRequest_ready _ hf hu hc)
  · subst h
    exact ⟨congrArg Host.Outcome.next (cfgRequest_retry _ hf hu hc), congrArg Host.Outcome.next (cfgRequest_retry _ hf hu hc),
      congrArg Host.Outcome.next (cfgRequest_retry _ hf hu hc)⟩
  · exact congrArg Host.Outcome.next (cfgRequest_linkDown _ hu)
  · exact congrArg Host.Outcome.next (cfgRequest_linkDown _ hu)
  · exact congrArg Host.Outcome.next (cfgRequest_linkDown _ hu)

end Sys2Proof.Machine
end

section
/-!
PROOF. The BAR2 window (R45 to R48, R369): reads and writes of entries, the status record, offsets beyond the window.
-/
namespace Sys2Proof.Machine

/-! ## The offset of an access -/

/-- The offset of a whole slot of the status record lies in the window. -/
theorem recordOffset_facts {sub : Nat} (h : sub < 4) : 0xFFFF * 2048 + sub * 8 < 2 ^ 27 ∧
    (0xFFFF * 2048 + sub * 8) / 2048 = 0xFFFF ∧ (0xFFFF * 2048 + sub * 8) % 2048 / 8 = sub ∧
    (0xFFFF * 2048 + sub * 8) % 8 = 0 := by omega

theorem effBar2Read_inside {f off width : Nat} {s : State} (hb : s.barReach f = true) (ho : off < 2 ^ 27) :
    effBar2Read f off width s = windowRead f off width (engineTurn (.bar2 f) s) := by
  rw [effBar2Read, if_pos hb, if_pos ho]

theorem effBar2Write_inside {f off width value : Nat} {s : State} (hb : s.barReach f = true) (ho : off < 2 ^ 27) :
    effBar2Write f off width value s = windowWrite f off width (value % 2 ^ (8 * width)) (engineTurn (.bar2 f) s) := by
  rw [effBar2Write, if_pos hb, if_pos ho]

/-- An offset beyond the window is an Unsupported Request (R369). -/
theorem effBar2Read_beyond {f off width : Nat} {s : State} (hb : s.barReach f = true) (ho : 2 ^ 27 ≤ off) :
    effBar2Read f off width s = unsupported f false s := by
  rw [effBar2Read, if_pos hb, if_neg (Nat.not_lt.2 ho)]

theorem effBar2Write_beyond {f off width value : Nat} {s : State} (hb : s.barReach f = true) (ho : 2 ^ 27 ≤ off) :
    effBar2Write f off width value s = unsupported f true s := by
  rw [effBar2Write, if_pos hb, if_neg (Nat.not_lt.2 ho)]

/-! ## Entries -/

theorem winRec_updWindow_same {s : State} {f : Nat} (h : f < s.nap.window.length) (g : Window → Window) :
    (s.updWindow f g).winRec f = g (s.winRec f) := updAt_getD_same s.nap.window f g {} h

theorem winRec_updWindow_other (s : State) {f g : Nat} (h : f ≠ g) (w : Window → Window) :
    (s.updWindow f w).winRec g = s.winRec g := updAt_getD_other s.nap.window w {} h

theorem windowRead_entry {f off width code : Nat} {b : Bytes} {s : State} (hn : off / 2048 ≠ 0xFFFF)
    (hr : readSlot s f off width = (code, b)) : windowRead f off width s =
      (s.updWindow f (noteWindow off code)).emit (.window f code (windowBytes width (code, b))) := by
  rw [windowRead, if_neg hn, hr]

/-- A read of an entry answers its bytes or all ones, and leaves the status record (R46 to R48). -/
theorem entryRead_gives {f off width code : Nat} {b : Bytes} {s0 s : State} (hb : s0.barReach f = true)
    (hs : s = engineTurn (.bar2 f) s0) (hf : f < s.nap.window.length) (ho : off < 2 ^ 27) (hn : off / 2048 ≠ 0xFFFF)
    (hr : readSlot s f off width = (code, b)) : Gives (.bar2Read f off width) s0 fun t =>
      t.out = .window f code (windowBytes width (code, b)) :: s.out ∧ t.winRec f = noteWindow off code (s.winRec f) ∧
      (∀ g, g ≠ f → t.winRec g = s.winRec g) ∧ Only [.out, .nap] s t := by
  have he : effBar2Read f off width s0 =
      (s.updWindow f (noteWindow off code)).emit (.window f code (windowBytes width (code, b))) := by
    rw [effBar2Read_inside hb ho, ← hs, windowRead_entry hn hr]
  refine ⟨_, congrArg Host.Outcome.next he, rfl, winRec_updWindow_same hf _, fun g hg =>
    winRec_updWindow_other s hg.symm _, fun p hp => ?_⟩
  cases p with
  | out => exact absurd (by decide) hp
  | nap => exact absurd (by decide) hp
  | _ => rfl

/-- A write of an entry has the effect and the code of R50, and leaves the status record (R46, R48). -/
theorem effBar2Write_entry {f off width value code : Nat} {s0 s s' : State} (hb : s0.barReach f = true)
    (hs : s = engineTurn (.bar2 f) s0) (ho : off < 2 ^ 27) (hn : off / 2048 ≠ 0xFFFF) (hw : width ≤ 8)
    (hx : objWrite { path := .bar2 f, key := 0 } (off / 2048) (off % 2048 / 8)
      (.bar2 (off % 8) width (value % 2 ^ (8 * width))) s = (code, s')) :
    effBar2Write f off width value s0 = s'.updWindow f (noteWindow off code) := by
  rw [effBar2Write_inside hb ho, ← hs, windowWrite, if_neg hn, writeSlot, if_pos hw, hx]

/-! ## The status record -/

theorem windowEntry_sub_lt {w : Window} {sub : Nat} {x : Ty × Nat} (h : windowEntry w sub = some x) : sub < 4 := by
  by_contra hn
  obtain ⟨k, rfl⟩ := Nat.exists_eq_add_of_le (Nat.le_of_not_lt hn)
  rw [Nat.add_comm] at h
  exact nomatch h

/-- A whole slot holds the eight bytes of its value. -/
theorem windowSlot_whole (ty : Ty) (n : Nat) {off : Nat} (h : off % 8 = 0) :
    windowSlot ty n off 8 = leBytes 8 (extendTo ty 8 n) := by
  rw [windowSlot, h]
  generalize extendTo ty 8 n = v
  rfl

theorem readWindowRecord_slot {s : State} {f sub n : Nat} {ty : Ty} (he : windowEntry (s.winRec f) sub = some (ty, n))
    (hm : engineBusy s.chip.mode = false) :
    readWindowRecord s f (0xFFFF * 2048 + sub * 8) 8 = (0, leBytes 8 (extendTo ty 8 n)) := by
  obtain ⟨-, -, hsub, h8⟩ := recordOffset_facts (windowEntry_sub_lt he)
  have hp : readPlace (0xFFFF * 2048 + sub * 8) 8 = true := by
    rw [readPlace, h8]
    rfl
  rw [readWindowRecord, hm, hsub, he]
  simp only [hp, windowSlot_whole ty n h8, if_true, Bool.false_eq_true, if_false, aOk]

/-- A read of the status record answers its own entry and changes nothing else (R48). -/
theorem effBar2Read_record {f sub n : Nat} {ty : Ty} {s0 s : State} (hb : s0.barReach f = true)
    (hs : s = engineTurn (.bar2 f) s0) (he : windowEntry (s.winRec f) sub = some (ty, n))
    (hm : engineBusy s.chip.mode = false) : effBar2Read f (0xFFFF * 2048 + sub * 8) 8 s0 =
      { s with out := .window f 0 (leBytes 8 (extendTo ty 8 n)) :: s.out } := by
  obtain ⟨hlt, hrec, -, -⟩ := recordOffset_facts (windowEntry_sub_lt he)
  rw [effBar2Read_inside hb hlt, ← hs, windowRead, if_pos hrec, readWindowRecord_slot he hm]
  rfl

/-- A write of 0 to FAIL_COUNT clears it in HOLD, ARMED, RUN and SAFE (R48). -/
theorem effFailCountClear_clears {f : Nat} {s0 s : State} (hb : s0.barReach f = true) (hs : s = engineTurn (.bar2 f) s0)
    (hm : s.chip.mode ∈ [Mode.hold, .armed, .run, .safe]) :
    effFailCountClear f s0 = s.updWindow f fun w => { w with failCount := 0 } := by
  have ha : Wr.hars.allows s.chip.mode = true := by
    simp only [List.mem_cons, List.not_mem_nil, or_false] at hm
    rcases hm with h | h | h | h <;> rw [h] <;> rfl
  rw [effFailCountClear, effBar2Write_inside hb (by decide), ← hs, windowWrite, if_pos (by decide), writeWindowRecord, ha]
  rfl

/-- Settles O15: an access through the window is the engine's access to the slot's entry, noted in the status record. -/
theorem windowAccesses : Obligations.WindowAccesses := by
  unfold Obligations.WindowAccesses
  refine ⟨fun f off width s0 s hb hs hf => ⟨fun ho hn code b hr => entryRead_gives hb hs hf ho hn hr,
    fun sub ty n he hm => congrArg Host.Outcome.next (effBar2Read_record hb hs he hm),
    fun value ho hn hw code s' hx => congrArg Host.Outcome.next (effBar2Write_entry hb hs ho hn hw hx),
    fun hm => congrArg Host.Outcome.next (effFailCountClear_clears hb hs hm)⟩,
    fun f off width value s hb ho => ⟨congrArg Host.Outcome.next (effBar2Read_beyond hb ho),
      congrArg Host.Outcome.next (effBar2Write_beyond hb ho)⟩,
    fun r f s hr => ⟨fun idx sub v c hc => ?_, fun k hk => ?_⟩⟩
  · have hw : answerWrite r idx sub v s = effBar2Write f (idx * 2048 + sub * 8) 8 (slotValue s idx sub v) s := by
      rw [answerWrite, hr]
    rcases List.mem_cons.1 hc with h | h
    · subst h
      exact congrArg Host.Outcome.next hw
    · rw [List.mem_singleton.1 h]
      exact congrArg Host.Outcome.next hw
  · have hi : effImageRead r k s = effBar2Read f (0x0200 * 2048 + (10 + k) * 8) 8 s := by
      rw [effImageRead, if_pos hk, answerRead, hr]
    exact congrArg Host.Outcome.next hi

end Sys2Proof.Machine
end

section
/-!
PROOF. The engine's input queue (R40): acceptance (R60) and evaluation (R50) of a PDU, and the timeout of a transfer (R58).
-/
namespace Sys2Proof.Machine

/-! ## The request at the front -/

theorem napTake_front {s : State} {q : NapReq} {rest : List NapReq} {kind : Nat} (ha : isAlive s.chip.mode = true)
    (hq : s.nap.queue = q :: rest) (hk : requestKind q = kind) :
    napTake kind s = napRun q { s with nap := { s.nap with queue := rest } } := by
  unfold napTake
  rw [hq]
  simp only [ha, hk, beq_self_eq_true, Bool.and_self, if_true]

/-! ## Acceptance on a network path -/

/-- On a network path a discarded PDU is only counted. -/
theorem napDiscard_network {q : NapReq} (h : isMailbox q.path = false) (c : Nat) (s : State) :
    napDiscard q c s = s.bump 0x0401 c := by
  unfold napDiscard
  split
  · next hp => rw [hp] at h; exact nomatch h
  · rfl

/-- A PDU of another format (R60). -/
theorem napRun_format {q : NapReq} (hp : isMailbox q.path = false) {s : State}
    (h : q.pdu.length < 48 ∨ beAt q.pdu 0 1 ≠ 1 ∨ beAt q.pdu 1 1 ≠ 1) : napRun q s = s.bump 0x0401 2 := by
  rw [napRun, if_pos h, napDiscard_network hp]

section
variable {q : NapReq} {s : State} (hl : 48 ≤ q.pdu.length) (ht : beAt q.pdu 0 1 = 1) (hv : beAt q.pdu 1 1 = 1)

include hl ht hv in
theorem format_good : ¬(q.pdu.length < 48 ∨ beAt q.pdu 0 1 ≠ 1 ∨ beAt q.pdu 1 1 ≠ 1) := by
  rintro (h | h | h)
  · omega
  · exact h ht
  · exact h hv

include hl ht hv in
/-- A LENGTH that does not fit answers INTEGRITY under an enabled key (R60). -/
theorem napRun_length_keyed (h : pduLength q.pdu < 48 ∨ q.pdu.length < pduLength q.pdu)
    (hk : keyEnabled s (pduKey q.pdu) = true) : napRun q s = answerCode q 10 s := by
  rw [napRun, if_neg (format_good hl ht hv), if_pos h, if_pos hk]
  rfl

include hl ht hv in
theorem napRun_length_unkeyed (hp : isMailbox q.path = false) (h : pduLength q.pdu < 48 ∨ q.pdu.length < pduLength q.pdu)
    (hk : keyEnabled s (pduKey q.pdu) = false) : napRun q s = s.bump 0x0401 2 := by
  rw [napRun, if_neg (format_good hl ht hv), if_pos h, if_neg (by simp [hk]), napDiscard_network hp]

include hl ht hv in
theorem napRun_accept (h1 : 48 ≤ pduLength q.pdu) (h2 : pduLength q.pdu ≤ q.pdu.length) : napRun q s = napAccept q s := by
  rw [napRun, if_neg (format_good hl ht hv), if_neg (by omega)]

end

/-- No enabled key of the path, or a path not served (R60, R67). -/
theorem napAccept_unkeyed {q : NapReq} {s : State} (hp : isMailbox q.path = false)
    (h : pduKey q.pdu = 0 ∨ keyEnabled s (pduKey q.pdu) = false ∨
      bit (s.keyRec (pduKey q.pdu)).paths (pathBit q.path) = false ∨ pathServed s q.path = false) :
    napAccept q s = s.bump 0x0401 3 := by
  rw [← napDiscard_network hp 3 s]
  unfold napAccept
  by_cases h0 : pduKey q.pdu = 0
  · simp only [h0, if_true, hp, Bool.not_false]
  · rw [if_neg h0, if_pos]
    rcases h.resolve_left h0 with h | h | h <;> simp [keyOnPath, pduReq, h]

section
variable {q : NapReq} {s : State} (h0 : pduKey q.pdu ≠ 0) (hk : keyEnabled s (pduKey q.pdu) = true)
  (hb : bit (s.keyRec (pduKey q.pdu)).paths (pathBit q.path) = true) (hs : pathServed s q.path = true)

include h0 hk hb hs in
/-- Under a key enabled on a served path TAG, REPLAY and RESPONSE are tested in this order (R59, R60). -/
theorem napAccept_keyed : napAccept q s =
    if napTag (s.keyRec (pduKey q.pdu)).key (pduSigned q.pdu) ≠ pduTag q.pdu then napDiscard q 4 s
    else if pduReplay q.pdu ≤ (s.keyRec (pduKey q.pdu)).rx then napDiscard q 5 s
    else if flagResponse q.pdu then napDiscard q 2 s
    else napEvaluate q ((setRxReplay (pduKey q.pdu) (pduReplay q.pdu) s).bump 0x0401 1) := by
  have hon : (!keyOnPath s (pduReq q) || !pathServed s q.path) = false := by simp [keyOnPath, pduReq, hk, hb, hs]
  unfold napAccept
  rw [if_neg h0, hon]
  rfl

end

/-! ## Evaluation -/

theorem napBusy_of_idle {s : State} (h : engineBusy s.chip.mode = false) (b : Bytes) : napBusy s b = false := by
  rw [napBusy, h, Bool.false_and]

theorem napEvaluate_otherOpcode {q : NapReq} (h : pduOpcode q.pdu = 0 ∨ 3 < pduOpcode q.pdu) (s : State) :
    napEvaluate q s = answerCode q 10 s := if_pos h

/-- ABORT_TRANSFER closes the transfer that it names (R58). -/
theorem napEvaluate_abort {q : NapReq} {s : State} (hm : engineBusy s.chip.mode = false) (h : pduOpcode q.pdu = 3) :
    napEvaluate q s = answerCode q 0 (closeOwn q s) := by
  unfold napEvaluate
  simp only [h, napBusy_of_idle hm]
  rfl

theorem mismatches_none {s : State} {q : NapReq} (h : openTransfer s q = none) : mismatches s q = false := by
  rw [mismatches, h]

/-- A READ outside LOAD and CHECK that names no open transfer (R56). -/
theorem napEvaluate_read {q : NapReq} {s : State} (hm : engineBusy s.chip.mode = false) (hn : openTransfer s q = none)
    (h : pduOpcode q.pdu = 1) : napEvaluate q s = napRead q s := by
  have ht : totalsBroken q.pdu = false := by simp [totalsBroken, h]
  unfold napEvaluate
  simp only [h, napBusy_of_idle hm, mismatches_none hn, ht]
  rfl

/-- A WRITE outside LOAD and CHECK that names no open transfer, its OFFSET and TOTAL consistent (R57). -/
theorem napEvaluate_write {q : NapReq} {s : State} (hm : engineBusy s.chip.mode = false) (hn : openTransfer s q = none)
    (h : pduOpcode q.pdu = 2) (ht : totalsBroken q.pdu = false) : napEvaluate q s = napWrite q s := by
  unfold napEvaluate
  simp only [h, napBusy_of_idle hm, mismatches_none hn, ht]
  rfl

/-- An admitted READ of a short value answers it (R56). -/
theorem napRead_short {q : NapReq} {s : State} {o : ObjSpec} {e : EntrySpec} (hn : openTransfer s q = none)
    (h0 : pduOffset q.pdu = 0) (hi : imageRefusal s (pduIndex q.pdu) (pduSub q.pdu) = none)
    (ha : admitRead s (pduReq q) (pduIndex q.pdu) (pduSub q.pdu)
      (fun e => pduType q.pdu == 0 || pduType q.pdu == e.ty.code) = .ok (o, e)) {d : Bytes}
    (hd : d = e.ty.encode (valueFor s (pduReq q) o (pduIndex q.pdu) e (bit (pduFlags q.pdu) 4))) (hl : d.length ≤ 1024) :
    napRead q s = napRespond q { abort := 0, ty := e.ty.code, total := d.length, data := d } s := by
  have hr : napRead q s =
      readFresh q e (valueFor s (pduReq q) o (pduIndex q.pdu) e (bit (pduFlags q.pdu) 4)) s := by
    unfold napRead
    dsimp only
    rw [ha, hn]
    dsimp only
    rw [hi]
  subst hd
  rw [hr, readFresh, if_neg (not_not.2 h0), if_pos hl]
  rfl

/-- An unsegmented WRITE performs the write (R57). -/
theorem napWrite_unsegmented {q : NapReq} {s s' : State} {code : Nat} (hn : openTransfer s q = none)
    (hf : flagSegmented q.pdu = false)
    (hx : objWrite (pduReq q) (pduIndex q.pdu) (pduSub q.pdu) (.nap (pduType q.pdu) (pduData q.pdu)) s = (code, s')) :
    napWrite q s = answerCode q code s' := by
  unfold napWrite
  simp only [hf, hn, hx]
  rfl

/-! ## The timeout of a transfer -/

theorem effSegmentTimeout_due {s : State} {r : Requester} {trans : Nat} {t : Transfer}
    (hf : s.nap.transfers.find? (transferIs r trans) = some t) (hd : t.due ≤ s.cycle) :
    effSegmentTimeout r trans s = (closeTransfer r trans s).bump 0x0401 8 := by
  unfold effSegmentTimeout
  rw [hf]
  exact if_pos hd

theorem effSegmentTimeout_early {s : State} {r : Requester} {trans : Nat} {t : Transfer}
    (hf : s.nap.transfers.find? (transferIs r trans) = some t) (hd : s.cycle < t.due) :
    effSegmentTimeout r trans s = s := by
  unfold effSegmentTimeout
  rw [hf]
  exact if_neg (Nat.not_le.2 hd)

/-- Settles O14, test by test in the order of R60 and R50. -/
theorem pdusTaken : Obligations.PdusTaken := by
  unfold Obligations.PdusTaken
  refine ⟨fun s q rest ha hq => ⟨fun hk => ?_, fun hk => ?_, fun hk => ?_⟩, fun s q k hp hkey => ⟨napRun_format hp, ?_⟩,
    fun s q hm => ⟨fun h => napEvaluate_abort hm h, fun h => napEvaluate_otherOpcode h s, fun hn => ⟨?_, ?_⟩⟩,
    fun s r trans t hf => ⟨fun hd => ?_, fun hd => ?_⟩⟩
  · exact congrArg Host.Outcome.next (napTake_front ha hq hk)
  · exact congrArg Host.Outcome.next (napTake_front ha hq hk)
  · exact congrArg Host.Outcome.next (napTake_front ha hq hk)
  · subst hkey
    intro hl ht hv
    refine ⟨fun h => ⟨napRun_length_keyed hl ht hv h, napRun_length_unkeyed hl ht hv hp h⟩, fun h1 h2 => ?_⟩
    rw [napRun_accept hl ht hv h1 h2]
    refine ⟨napAccept_unkeyed hp, fun h0 hk hb hs => ?_⟩
    rw [napAccept_keyed h0 hk hb hs, napDiscard_network hp, napDiscard_network hp, napDiscard_network hp]
    refine ⟨fun htag => if_pos htag, fun htag => ?_⟩
    rw [if_neg (not_not.2 htag)]
    refine ⟨fun hr => if_pos hr, fun hr hresp => ?_, fun hr hresp => ?_⟩
    · rw [if_neg (Nat.not_le.2 hr), if_pos hresp]
    · rw [if_neg (Nat.not_le.2 hr), if_neg (by simp [hresp])]
  · intro o e d hop h0 hi ha hd hl
    rw [napEvaluate_read hm hn hop, napRead_short hn h0 hi ha hd hl]
  · intro code s' hop hf h0 ht hx
    have hok : totalsBroken q.pdu = false := by simp [totalsBroken, h0, ht]
    rw [napEvaluate_write hm hn hop hok, napWrite_unsegmented hn hf hx]
  · exact congrArg Host.Outcome.next (effSegmentTimeout_due hf hd)
  · exact congrArg Host.Outcome.next (effSegmentTimeout_early hf hd)

end Sys2Proof.Machine
end
